-- ==== Sys2Proof/Word.lean ====
section
/-!
DEFINITION. Word.lean: the word types of the Karbiyth (spec/00_scope.md R6, R7; spec/01_encoding.md R14, R20).
Little-endian throughout; bit 0 is the least significant bit of any field.
-/

namespace Sys2Proof

/-- One byte of memory (R6). -/
abbrev Byte := BitVec 8

/-- A 32-bit word: an instruction word, a lane register of one lane, a mask over the 32 lanes (R14, R20). -/
abbrev Word := BitVec 32

/-- A 64-bit value: a k-register, a program counter, an address, a literal (R14, R20, R30). -/
abbrev DWord := BitVec 64

/-- The lanes of a warp, in ascending order (R8). -/
def laneList : List Nat := List.range 32

end Sys2Proof
end

