-- ==== Sys2Proof/Machine/Ecdsa.lean ====
section
/-!
DEFINITION. Machine/Ecdsa.lean: ECDSA over the curve P-384 with SHA-384, which signs the configuration image (spec/15_bringup.md R433:
the published Digital Signature Standard, FIPS 186). Points stand in Jacobian coordinates; z = 0 is the point at infinity.
-/

namespace Sys2Proof.Machine.Ecdsa

/-- The field's prime, the order of the base point, the curve's b, and the base point. -/
def p : Nat := 2 ^ 384 - 2 ^ 128 - 2 ^ 96 + 2 ^ 32 - 1
def n : Nat := 0xFFFFFFFFFFFFFFFFFFFFFFFFFFFFFFFFFFFFFFFFFFFFFFFFC7634D81F4372DDF581A0DB248B0A77AECEC196ACCC52973
def b : Nat := 0xB3312FA7E23EE7E4988E056BE3F82D19181D9C6EFE8141120314088F5013875AC656398D8A2ED19D2A85C8EDD3EC2AEF
def gx : Nat := 0xAA87CA22BE8B05378EB1C71EF320AD746E1D3B628BA79B9859F741E082542A385502F25DBF55296C3A545E3872760AB7
def gy : Nat := 0x3617DE4A96262C6F5D9E98BF9292DC29F8F41DBD289A147CE9DA3113B5F0B8C00A60B1CE1D7E819D7A431D7C90EA0E5F

structure Point where
  x : Nat
  y : Nat
  z : Nat
  deriving DecidableEq, Repr

def add (x y : Nat) : Nat := (x + y) % p
def sub (x y : Nat) : Nat := (x + (p - y % p)) % p
def mul (x y : Nat) : Nat := x * y % p

/-- Twice a point of y² = x³ − 3x + b. -/
def double (a : Point) : Point :=
  let zz := mul a.z a.z
  let m := mul 3 (mul (sub a.x zz) (add a.x zz))
  let yy := mul a.y a.y
  let s := mul 4 (mul a.x yy)
  let x := sub (mul m m) (mul 2 s)
  { x := x, y := sub (mul m (sub s x)) (mul 8 (mul yy yy)), z := mul 2 (mul a.y a.z) }

/-- The sum of two points. -/
def plus (a c : Point) : Point :=
  if a.z = 0 then c else if c.z = 0 then a else
  let az := mul a.z a.z
  let cz := mul c.z c.z
  let u1 := mul a.x cz
  let u2 := mul c.x az
  let s1 := mul a.y (mul c.z cz)
  let s2 := mul c.y (mul a.z az)
  if u1 = u2 then (if s1 = s2 then double a else { x := 1, y := 1, z := 0 }) else
  let h := sub u2 u1
  let r := sub s2 s1
  let hh := mul h h
  let hhh := mul h hh
  let v := mul u1 hh
  let x := sub (sub (mul r r) hhh) (mul 2 v)
  { x := x, y := sub (mul r (sub v x)) (mul s1 hhh), z := mul h (mul a.z c.z) }

/-- The bits of a number of 384 bits, the highest first. -/
def bits (k : Nat) : List Bool := (List.range 384).map fun i => k / 2 ^ (383 - i) % 2 == 1

/-- u·a + v·c, a bit at a time. -/
def combine (u v : Nat) (a c : Point) : Point :=
  let both := plus a c
  ((bits u).zip (bits v)).foldl (fun t x =>
    let t := double t
    match x with
    | (true, true) => plus t both
    | (true, false) => plus t a
    | (false, true) => plus t c
    | (false, false) => t) { x := 1, y := 1, z := 0 }

/-- x to the power e, modulo m. -/
def power (m x e : Nat) : Nat := (bits e).foldl (fun t k => if k then t * t % m * x % m else t * t % m) 1

/-- A point of the curve, as a public key. -/
def onCurve (x y : Nat) : Bool := x < p && y < p && mul y y == add (sub (mul x (mul x x)) (mul 3 x)) b

/-- Whether a signature of 96 bytes over a message verifies under an uncompressed key of 97 bytes. -/
def verify (key msg sig : List Byte) : Bool :=
  let x := Sha.beNat ((key.drop 1).take 48)
  let y := Sha.beNat ((key.drop 49).take 48)
  let r := Sha.beNat (sig.take 48)
  let s := Sha.beNat ((sig.drop 48).take 48)
  if key.headD 0 != 4 || !onCurve x y || r = 0 || n ≤ r || s = 0 || n ≤ s then false else
  let w := power n s (n - 2)
  let t := combine (Sha.beNat (Sha.sha384 msg) * w % n) (r * w % n) { x := gx, y := gy, z := 1 } { x := x, y := y, z := 1 }
  let zz := mul t.z t.z
  t.z != 0 && (mul r zz == t.x || (decide (r + n < p) && mul (r + n) zz == t.x))

end Sys2Proof.Machine.Ecdsa
end

