-- ==== Sys2Proof/Config.lean ====
section
/-!
DEFINITION. Config.lean: what the spec leaves to the implementation. The constants here have no body: nothing proves a value
of them, and a claim holds whatever they are. Each is named in the assumption log.
-/

namespace Sys2Proof.Config

/-- The approximate functions of spec/05_isa_vector_convert.md R143. -/
inductive Apx where
  | frcp | frsq | fexp2 | flog2 | fsin | fcos | ftanh
  deriving DecidableEq, Repr

/-- FREE VALUE (log entry 7). The result bits an approximate function returns for an input, by function, whether the type is
.f16x2, and input bits alone (R144). A result outside the bound of R143 is replaced by one inside it. -/
opaque apx : Apx → Bool → Nat → Nat

/-- FREE VALUE (log entry 9). Which of the 16 entries of a contiguous run a translation uses when their words disagree
(spec/10_memory_model.md R304): from the running number of the step, the page and the run's words. -/
opaque contPick : Nat → Nat → List (BitVec 64) → Nat

/-- FREE VALUE (log entry 11). What a model value left open by the spec reads as, by a running number and a kind. -/
opaque freeWord : Nat → Nat → BitVec 64

/-- FREE VALUE (log entry 99). The set of its L2 slice in which a line lies (spec/14_faults.md R414). -/
opaque l2Set : Nat → Nat

/-- FREE VALUE (log entry 6). Whether a cache still holds a copy when it is looked up: by the running number of the step and by
what is looked up. Eviction is the device's own choice (R29, R280, R281, R307). -/
opaque keeps : Nat → Nat → Bool

/-- FREE VALUE (log entry 107). Whether a device that a paddock grid names is unreachable, or lacks the context: by the running number of the
step and by 4096·device + context (spec/11_tasks_and_invocation.md R319). -/
opaque absent : Nat → Nat → Bool

/-- FREE VALUE (log entry 1). Whether other parties' steps fall between the lanes of an atomic, or the lines of a commit, of the instruction
that a step issues: by the running number of the step (spec/06_isa_memory.md R163, R166). -/
opaque apart : Nat → Bool

/-- FREE VALUE (log entry 105). Whether every warp of a context on the peer devices has met a `fence.r.pk` by a cycle of the die that issued
it (spec/06_isa_memory.md R183): by the cycle's number. -/
opaque peersMet : Nat → Bool

/-- FREE VALUES (log entry 109). The instructions of the reduce routine for a chunk, and the price of one by how many are left
(spec/12_collectives.md R359). -/
opaque routineLength : Nat → Nat
opaque routinePrice : Nat → Nat

/-- FREE VALUE (log entry 110). The flits that a die's ports take from the collective engine's egress queue in a cycle, by the running
number of the step (spec/12_collectives.md R364). -/
opaque drained : Nat → Nat

end Sys2Proof.Config
end

