-- ==== Sys2Proof/Syntax.lean ====
section
/-!
DEFINITION. Syntax.lean: the instruction forms of the Karbiyth and the steps of its other parties, one constructor
per row of spec/opcode_table.json. Encoded forms carry the operands of spec/01_encoding.md R14 to R23 and of each
instruction's entry; the rows with no encoding (the device's own events) carry what the event names.
-/

namespace Sys2Proof

/-! ### Operand forms -/

/-- The integer types of set I (R51): `.i32`, `.64`, `.ui32`. -/
inductive IntTy where
  | i32 | i64 | ui32
  deriving DecidableEq, Repr

/-- The floating-point types of set F (R51, R132). -/
inductive FTy where
  | f32 | f16x2 | bf16 | f16
  deriving DecidableEq, Repr

/-- Rounding modes of set RM and of POLICY.RND (R52, R77): to nearest even, towards zero, down, up. -/
inductive Rm where
  | rne | rz | rd | ru
  deriving DecidableEq, Repr

/-- Integer comparison conditions, set CC (R52). -/
inductive Cc where
  | eq | ne | lt | le | gt | ge
  deriving DecidableEq, Repr

/-- Floating-point comparison conditions, set FC (R52). -/
inductive Fc where
  | eq | ne | lt | le | gt | ge | uo | ord
  deriving DecidableEq, Repr

/-- The operand that RET keeps in the operand buffer (R16, R26). -/
inductive Ret where
  | none | a | b | c
  deriving DecidableEq, Repr

/-- Source operand A of a lane-register instruction: a lane register (or pair), or a k-register by KA (R22). -/
inductive SrcA where
  | x (n : Nat)
  | k (n : Nat)
  deriving DecidableEq, Repr

/-- Source operand B of a lane-register instruction: a lane register (or pair), word 2 by IB (R23), or the literal of
the extended-plus-literal form (R17). -/
inductive SrcB where
  | x (n : Nat)
  | imm (v : BitVec 32)
  | lit (v : BitVec 64)
  deriving DecidableEq, Repr

/-- Source operand B of a scalar instruction: a k-register, word 2 by IB, or the literal (R126). -/
inductive KSrc where
  | k (n : Nat)
  | imm (v : BitVec 32)
  | lit (v : BitVec 64)
  deriving DecidableEq, Repr

/-- Scopes (R50, R165). -/
inductive Scope where
  | wp | bk | yd | di | dv | pk | sy
  deriving DecidableEq, Repr

/-- Orderings of atomics and fences (R50, R164). -/
inductive Ord where
  | none | acq | rel | ar
  deriving DecidableEq, Repr

/-- Memory space of an access (R51, set W bit 3). -/
inductive Spc where
  | g | s
  deriving DecidableEq, Repr

/-- Width codes of set W (R51). -/
inductive MemW where
  | i8 | ui8 | w16 | w32 | w64 | e2m1
  deriving DecidableEq, Repr

/-- Atomic operations of R59, by code. -/
inductive AtmOp where
  | add32 | add64 | minI | minU | maxI | maxU | and | or | xor | exch32 | exch64 | addF32 | addF16x2 | addBf16
  deriving DecidableEq, Repr

/-- Lane selection of `shfl` (R125). -/
inductive Shfl where
  | idx | up | dn | bfly
  deriving DecidableEq, Repr

/-- Cache level of `prf` (R176). -/
inductive Prf where
  | l1 | l2 | q
  deriving DecidableEq, Repr

/-- What `bar` does (R186). -/
inductive BarKind where
  | both | arrive | wait
  deriving DecidableEq, Repr

/-- Path classes of `xfence` (R60). -/
inductive Path where
  | core | copy | mfetch | coll | rinv
  deriving DecidableEq, Repr

/-- A format named in word 2 of `cvt` (R150): an element format code of R64, or a 32-bit integer. -/
inductive CvtFmt where
  | elem (c : Nat)
  | s32
  | u32
  deriving DecidableEq, Repr

/-- Wide side of a conversion under a slot, SRCF or DSTF (R152, R156). -/
inductive Wide where
  | f32 | bf16 | f16
  deriving DecidableEq, Repr

/-- Target of the extended `call` (R100). -/
inductive CallTo where
  | rel (off : BitVec 32)
  | reg (a : SrcA)
  deriving DecidableEq, Repr

/-- Extended one-source integer operands (R116). -/
structure Int1 where
  g : Nat
  rt : Ret
  ty : IntTy
  d : Nat
  a : SrcA
  deriving DecidableEq, Repr

/-- Extended two-source integer operands (R116). -/
structure Int2 where
  g : Nat
  rt : Ret
  ty : IntTy
  d : Nat
  a : SrcA
  b : SrcB
  deriving DecidableEq, Repr

/-- Extended three-source integer operands of `mad`, `bfi`, and of `sel`, whose C is a mask (R116, R122). -/
structure Int3 where
  g : Nat
  rt : Ret
  ty : IntTy
  d : Nat
  a : SrcA
  b : SrcB
  c : Nat
  deriving DecidableEq, Repr

/-- Extended scalar operands (R126). -/
structure Sc2 where
  g : Nat
  d : Nat
  a : Nat
  b : KSrc
  deriving DecidableEq, Repr

/-- Extended one-source floating-point operands (R133). -/
structure Fp1 where
  g : Nat
  rt : Ret
  ty : FTy
  d : Nat
  a : SrcA
  deriving DecidableEq, Repr

/-- Extended two-source floating-point operands (R133). -/
structure Fp2 where
  g : Nat
  rt : Ret
  ty : FTy
  d : Nat
  a : SrcA
  b : SrcB
  deriving DecidableEq, Repr

/-- Extended three-source floating-point operands (R133). -/
structure Fp3 where
  g : Nat
  rt : Ret
  ty : FTy
  d : Nat
  a : SrcA
  b : SrcB
  c : Nat
  deriving DecidableEq, Repr

/-- Operands of the conversions under a slot (R152, R156 to R159): destination, source, base index, scale register. -/
structure Cvs where
  g : Nat
  rt : Ret
  slot : Nat
  d : Nat
  a : Nat
  b : Nat
  c : Nat
  wide : Wide
  deriving DecidableEq, Repr

/-- Memory operand of the indexed extended forms (R40, R161): base, optional index, signed offset. -/
structure Mem where
  g : Nat
  rt : Ret
  a : SrcA
  idx : Option Nat
  off : BitVec 32
  deriving DecidableEq, Repr

/-- Memory operand and ordering of the atomics (R161, R177): base and offset, operand B. -/
structure Atm where
  g : Nat
  rt : Ret
  ord : Ord
  sc : Scope
  d : Nat
  a : SrcA
  b : Nat
  off : BitVec 32
  deriving DecidableEq, Repr

/-- The macro set and tag of word 2 (R204, R209): first macro MF, K tiles MK, N tiles NM, tag 0 to 64. -/
structure MSet where
  mf : Nat
  kn : Nat
  nm : Nat
  tag : Nat
  deriving DecidableEq, Repr

/-- Operands of `mmx` and `mmq` (R209). -/
structure Mm where
  g : Nat
  slot : Nat
  tile : Bool
  d : Nat
  a : Nat
  b : Nat
  cv : Nat
  set : MSet
  m : Nat
  deriving DecidableEq, Repr

/-! ### What the events name -/

/-- Who makes an aperture access: the host over FCL, service core n, or the configuration image (R338, R428, R433). -/
inductive Writer where
  | host
  | svc (n : Nat)
  | config
  deriving DecidableEq, Repr

/-- A piece of memory outside translation: local DRAM by LPA, the memory homed on a peer device, host memory (R276). -/
inductive Home where
  | dram (lpa : Nat)
  | peer (dev addr : Nat)
  | host (addr : Nat)
  deriving DecidableEq, Repr

/-- An invocation packet as it arrives at a die (R331). -/
structure Invoke where
  sdev : Nat
  sdie : Nat
  score : Nat
  ctx : Nat
  die : Nat
  hidx : Nat
  cls : Nat
  narg : Nat
  args : List DWord
  seq : Nat
  wid : Nat
  deriving DecidableEq, Repr

/-- A reduction contribution as it travels to the root (R343). -/
structure Contrib where
  desc : DWord
  seq : Nat
  op : Nat
  tree : Nat
  count : Nat
  nmem : Nat
  dst : DWord
  stamp : DWord
  memt : DWord
  trp : Bool
  tmo : Nat
  trig : Nat
  lpkt : DWord
  rank : Nat
  data : List Word
  srcOk : Bool
  ctx : Nat
  home : Nat
  die : Nat
  wid : Nat
  blk : Nat
  grid : Nat
  rq : Bool
  priv : Bool
  root : Nat
  deriving DecidableEq, Repr

/-- An atomic that a context of a peer device asks of a line homed here (R336). -/
structure RemoteAtomic where
  dev : Nat
  addr : Nat
  ctx : Nat
  op : AtmOp
  arg : DWord
  deriving DecidableEq, Repr

/-! ### The instructions -/

/-- The instruction forms, and after them the steps of the device's other parties, one constructor per row of the
opcode table, in its order. Each constructor's line cites the rule its row names. -/
inductive Instr where
  /-- R110. Advances the issuing lanes and has no other effect. -/
  | nop
  /-- R98. Base-form unguarded PC-relative branch with an 18-bit word offset split over A and D. -/
  | bra (off : BitVec 18)
  /-- R98. Extended, possibly guarded, PC-relative branch with a 32-bit word offset in word 2. -/
  | braExt (g : Nat) (off : BitVec 32)
  /-- R99. Base-form transfer of the issuing lanes to the 64-bit address in a register pair. -/
  | brx (a : Nat)
  /-- R99. Extended, guarded transfer to the address in a register pair or a k-register. -/
  | brxExt (g : Nat) (a : SrcA)
  /-- R99. Transfers to the address in a register pair, marked as a return for the fetcher. -/
  | ret (a : Nat)
  /-- R100. Base relative call: writes the return address into a link pair and branches by a 9-bit word offset. -/
  | call (off : BitVec 9) (d : Nat)
  /-- R100. Base call through a register pair: writes the link pair and branches to the pair's address. -/
  | callReg (a : Nat) (d : Nat)
  /-- R100. Extended guarded call, either relative with a 32-bit offset or through a register pair or k-register. -/
  | callExt (g : Nat) (rt : Ret) (d : Nat) (tgt : CallTo)
  /-- R102. Commits and ends the issuing lanes. -/
  | exit
  /-- R102. Guarded form of exit: commits and ends the enabled lanes. -/
  | exitExt (g : Nat)
  /-- R103. Sets the issuing lanes' own bits of a mask. -/
  | join (d : Nat)
  /-- R103. Guarded join: sets the enabled lanes' own bits of a mask. -/
  | joinExt (g : Nat) (d : Nat)
  /-- R103. Clears the issuing lanes' own bits of a mask, possibly completing a wait. -/
  | leave (d : Nat)
  /-- R103. Guarded leave: clears the enabled lanes' own bits of a mask. -/
  | leaveExt (g : Nat) (d : Nat)
  /-- R104. Commits and blocks the issuing lanes until every lane of a live mask has arrived or exited. -/
  | wait (a : Nat)
  /-- R104. Guarded mask wait for the enabled lanes. -/
  | waitExt (g : Nat) (a : Nat)
  /-- R105. Commits and defers the issuing lanes so that other groups or warps issue. -/
  | yield
  /-- R106. Commits and raises a USER trap with a code. -/
  | trap (code : Nat)
  /-- R106. Guarded user trap. -/
  | trapExt (g : Nat) (code : Nat)
  /-- R107. Commits and raises a DEBUG trap with a tag. -/
  | brk (tag : Nat)
  /-- R108. Ends a privileged handler warp and restarts, or terminates, the warp described by a fault record. -/
  | resume (a : Nat)
  /-- R32. Copies a special register into a lane register or pair. -/
  | gsr (sr : Nat) (d : Nat)
  /-- R32. Copies a warp-wide special register into a k-register. -/
  | gsrK (sr : Nat) (d : Nat)
  /-- R32. Writes a k-register into an RW special register. -/
  | ssr (a : Nat) (sr : Nat)
  /-- R109. Commits and stops a service core until an event is pending. -/
  | halt
  /-- R112. Writes the enabled lanes' bits of a mask from a uniform value in a k-register, immediate or literal. -/
  | mset (g : Nat) (d : Nat) (b : KSrc)
  /-- R113. Copies one mask into another for the issuing lanes. -/
  | mmov (a : Nat) (d : Nat)
  /-- R113. Base mask AND of destination and source. -/
  | mand (a : Nat) (d : Nat)
  /-- R113. Extended mask AND of two source masks. -/
  | mandExt (g : Nat) (d : Nat) (a : Nat) (b : Nat)
  /-- R113. Base mask OR of destination and source. -/
  | mor (a : Nat) (d : Nat)
  /-- R113. Extended mask OR of two source masks. -/
  | morExt (g : Nat) (d : Nat) (a : Nat) (b : Nat)
  /-- R113. Base mask XOR of destination and source. -/
  | mxor (a : Nat) (d : Nat)
  /-- R113. Extended mask XOR of two source masks. -/
  | mxorExt (g : Nat) (d : Nat) (a : Nat) (b : Nat)
  /-- R113. Writes the complement of a mask for the issuing lanes. -/
  | mnot (a : Nat) (d : Nat)
  /-- R114. Counts the set bits of a mask into a k-register. -/
  | mpop (a : Nat) (d : Nat)
  /-- R114. Writes the lowest set lane of a mask, or 32, into a k-register. -/
  | mfindLo (a : Nat) (d : Nat)
  /-- R114. Writes the highest set lane of a mask, or 32, into a k-register. -/
  | mfindHi (a : Nat) (d : Nat)
  /-- R114. Guarded extended form of mfind.lo or mfind.hi. -/
  | mfindExt (g : Nat) (hi : Bool) (d : Nat) (a : Nat)
  /-- R115. Copies the instruction's own address into a register pair. -/
  | pcget (d : Nat)
  /-- R115. Guarded extended pcget. -/
  | pcgetExt (g : Nat) (d : Nat)
  /-- R118. Base integer add, destination plus source A, with wrap. -/
  | add (t : IntTy) (a : Nat) (d : Nat)
  /-- R118. Extended or literal integer add, optionally saturating. -/
  | addExt (sat : Bool) (e : Int2)
  /-- R118. Base integer subtract with wrap. -/
  | sub (t : IntTy) (a : Nat) (d : Nat)
  /-- R118. Extended or literal integer subtract, optionally saturating. -/
  | subExt (sat : Bool) (e : Int2)
  /-- R118. Base integer multiply, low bits. -/
  | mul (t : IntTy) (a : Nat) (d : Nat)
  /-- R118. Extended or literal integer multiply. -/
  | mulExt (e : Int2)
  /-- R118. Base integer multiply, high bits. -/
  | mulh (t : IntTy) (a : Nat) (d : Nat)
  /-- R118. Extended or literal high multiply. -/
  | mulhExt (e : Int2)
  /-- R118. Integer multiply-add a·b + c with wrap. -/
  | mad (e : Int3)
  /-- R118. Base integer negate. -/
  | neg (t : IntTy) (a : Nat) (d : Nat)
  /-- R118. Extended integer negate. -/
  | negExt (e : Int1)
  /-- R118. Base integer absolute value. -/
  | abs (t : IntTy) (a : Nat) (d : Nat)
  /-- R118. Extended integer absolute value. -/
  | absExt (e : Int1)
  /-- R118. Base integer minimum. -/
  | min (t : IntTy) (a : Nat) (d : Nat)
  /-- R118. Extended or literal integer minimum. -/
  | minExt (e : Int2)
  /-- R118. Base integer maximum. -/
  | max (t : IntTy) (a : Nat) (d : Nat)
  /-- R118. Extended or literal integer maximum. -/
  | maxExt (e : Int2)
  /-- R119. Base bitwise AND. -/
  | and (t : IntTy) (a : Nat) (d : Nat)
  /-- R119. Extended or literal bitwise AND. -/
  | andExt (e : Int2)
  /-- R119. Base bitwise OR. -/
  | or (t : IntTy) (a : Nat) (d : Nat)
  /-- R119. Extended or literal bitwise OR. -/
  | orExt (e : Int2)
  /-- R119. Base bitwise XOR. -/
  | xor (t : IntTy) (a : Nat) (d : Nat)
  /-- R119. Extended or literal bitwise XOR. -/
  | xorExt (e : Int2)
  /-- R119. Base a AND NOT b. -/
  | andn (t : IntTy) (a : Nat) (d : Nat)
  /-- R119. Extended or literal a AND NOT b. -/
  | andnExt (e : Int2)
  /-- R119. Base bitwise NOT. -/
  | not (t : IntTy) (a : Nat) (d : Nat)
  /-- R119. Extended bitwise NOT. -/
  | notExt (e : Int1)
  /-- R119. Base shift left. -/
  | shl (t : IntTy) (a : Nat) (d : Nat)
  /-- R119. Extended or literal shift left. -/
  | shlExt (e : Int2)
  /-- R119. Base logical shift right. -/
  | shr (t : IntTy) (a : Nat) (d : Nat)
  /-- R119. Extended or literal logical shift right. -/
  | shrExt (e : Int2)
  /-- R119. Base arithmetic shift right. -/
  | sar (t : IntTy) (a : Nat) (d : Nat)
  /-- R119. Extended or literal arithmetic shift right. -/
  | sarExt (e : Int2)
  /-- R119. Base rotate left. -/
  | rot (t : IntTy) (a : Nat) (d : Nat)
  /-- R119. Extended or literal rotate left. -/
  | rotExt (e : Int2)
  /-- R120. Base count of leading zeros. -/
  | clz (t : IntTy) (a : Nat) (d : Nat)
  /-- R120. Extended count of leading zeros. -/
  | clzExt (e : Int1)
  /-- R120. Base count of trailing zeros. -/
  | ctz (t : IntTy) (a : Nat) (d : Nat)
  /-- R120. Extended count of trailing zeros. -/
  | ctzExt (e : Int1)
  /-- R120. Base population count. -/
  | popc (t : IntTy) (a : Nat) (d : Nat)
  /-- R120. Extended population count. -/
  | popcExt (e : Int1)
  /-- R120. Base bit reversal. -/
  | brev (t : IntTy) (a : Nat) (d : Nat)
  /-- R120. Extended bit reversal. -/
  | brevExt (e : Int1)
  /-- R121. Extracts a bit field, sign- or zero-extended. -/
  | bfe (e : Int2)
  /-- R121. Inserts a bit field into a base value. -/
  | bfi (e : Int3)
  /-- R122. Selects a or b per lane by a mask bit. -/
  | sel (e : Int3)
  /-- R122. Base register move. -/
  | mov (t : IntTy) (a : Nat) (d : Nat)
  /-- R122. Extended move, including broadcast of a k-register. -/
  | movExt (e : Int1)
  /-- R122. Loads a constant from a 64-bit literal into a register or pair. -/
  | liLit (t : IntTy) (d : Nat) (v : BitVec 64)
  /-- R122. Guarded extended load of a sign-extended 32-bit immediate. -/
  | liExt (g : Nat) (t : IntTy) (d : Nat) (v : BitVec 32)
  /-- R123. Computes a 64-bit address a plus a shifted, extended b. -/
  | lea (g : Nat) (rt : Ret) (d : Nat) (a : SrcA) (b : SrcB) (sx : Bool) (sh : Nat)
  /-- R124. Integer compare writing the enabled lanes' mask bits. -/
  | cmp (cc : Cc) (e : Int2)
  /-- R125. Reads register A of another lane by index, up, down or butterfly. -/
  | shfl (mode : Shfl) (g : Nat) (rt : Ret) (d : Nat) (a : Nat) (b : SrcB)
  /-- R118. Base integer divide with defined results for zero and overflow. -/
  | div (t : IntTy) (a : Nat) (d : Nat)
  /-- R118. Extended or literal integer divide. -/
  | divExt (e : Int2)
  /-- R118. Base integer remainder. -/
  | rem (t : IntTy) (a : Nat) (d : Nat)
  /-- R118. Extended or literal integer remainder. -/
  | remExt (e : Int2)
  /-- R127. Copies one k-register to another. -/
  | kmov (a : Nat) (d : Nat)
  /-- R127. Loads a 64-bit literal into a k-register. -/
  | kliLit (d : Nat) (v : BitVec 64)
  /-- R127. Guarded load of a sign-extended immediate into a k-register. -/
  | kliExt (g : Nat) (d : Nat) (v : BitVec 32)
  /-- R127. Base scalar add of k-registers. -/
  | kadd (a : Nat) (d : Nat)
  /-- R127. Extended or literal scalar add. -/
  | kaddExt (e : Sc2)
  /-- R127. Base scalar subtract. -/
  | ksub (a : Nat) (d : Nat)
  /-- R127. Extended or literal scalar subtract. -/
  | ksubExt (e : Sc2)
  /-- R127. Base scalar multiply. -/
  | kmul (a : Nat) (d : Nat)
  /-- R127. Extended or literal scalar multiply. -/
  | kmulExt (e : Sc2)
  /-- R127. Base scalar AND. -/
  | kand (a : Nat) (d : Nat)
  /-- R127. Extended or literal scalar AND. -/
  | kandExt (e : Sc2)
  /-- R127. Base scalar OR. -/
  | kor (a : Nat) (d : Nat)
  /-- R127. Extended or literal scalar OR. -/
  | korExt (e : Sc2)
  /-- R127. Base scalar XOR. -/
  | kxor (a : Nat) (d : Nat)
  /-- R127. Extended or literal scalar XOR. -/
  | kxorExt (e : Sc2)
  /-- R127. Base scalar shift left. -/
  | kshl (a : Nat) (d : Nat)
  /-- R127. Extended or literal scalar shift left. -/
  | kshlExt (e : Sc2)
  /-- R127. Base scalar logical shift right. -/
  | kshr (a : Nat) (d : Nat)
  /-- R127. Base scalar arithmetic shift right. -/
  | kshrA (a : Nat) (d : Nat)
  /-- R127. Extended or literal scalar shift right, logical or arithmetic. -/
  | kshrExt (arith : Bool) (e : Sc2)
  /-- R128. Scalar compare writing the enabled lanes' mask bits. -/
  | kcmp (cc : Cc) (ui : Bool) (e : Sc2)
  /-- R129. Reads one lane's register into a k-register. -/
  | kget (g : Nat) (rt : Ret) (d : Nat) (a : Nat) (b : KSrc)
  /-- R130. Loads 8 bytes from global memory or scratchpad into a k-register. -/
  | kld (g : Nat) (sp : Spc) (d : Nat) (a : Nat) (idx : Option Nat) (off : BitVec 32)
  /-- R138. Base floating add, rounded with RNE. -/
  | fadd (t : FTy) (a : Nat) (d : Nat)
  /-- R138. Extended or literal floating add with rounding mode. -/
  | faddExt (rm : Rm) (e : Fp2)
  /-- R138. Base floating subtract, d minus a. -/
  | fsub (t : FTy) (a : Nat) (d : Nat)
  /-- R138. Extended or literal floating subtract. -/
  | fsubExt (rm : Rm) (e : Fp2)
  /-- R138. Base floating multiply. -/
  | fmul (t : FTy) (a : Nat) (d : Nat)
  /-- R138. Extended or literal floating multiply. -/
  | fmulExt (rm : Rm) (e : Fp2)
  /-- R138. Fused multiply-add with one rounding. -/
  | ffma (rm : Rm) (e : Fp3)
  /-- R139. Base IEEE minimumNumber. -/
  | fmin (t : FTy) (a : Nat) (d : Nat)
  /-- R139. Extended or literal IEEE minimumNumber. -/
  | fminExt (e : Fp2)
  /-- R139. Base IEEE maximumNumber. -/
  | fmax (t : FTy) (a : Nat) (d : Nat)
  /-- R139. Extended or literal IEEE maximumNumber. -/
  | fmaxExt (e : Fp2)
  /-- R140. Base clear of the sign bits. -/
  | fabs (t : FTy) (a : Nat) (d : Nat)
  /-- R140. Extended clear of the sign bits. -/
  | fabsExt (e : Fp1)
  /-- R140. Base inversion of the sign bits. -/
  | fneg (t : FTy) (a : Nat) (d : Nat)
  /-- R140. Extended inversion of the sign bits. -/
  | fnegExt (e : Fp1)
  /-- R141. Floating compare writing the enabled lanes' mask bits. -/
  | fcmp (fc : Fc) (e : Fp2)
  /-- R143. Base reciprocal. -/
  | frcp (t : FTy) (a : Nat) (d : Nat)
  /-- R143. Extended reciprocal. -/
  | frcpExt (e : Fp1)
  /-- R143. Base reciprocal square root. -/
  | frsq (t : FTy) (a : Nat) (d : Nat)
  /-- R143. Extended reciprocal square root. -/
  | frsqExt (e : Fp1)
  /-- R143. Base correctly rounded square root with RNE. -/
  | fsqrt (t : FTy) (a : Nat) (d : Nat)
  /-- R143. Extended square root with rounding mode. -/
  | fsqrtExt (rm : Rm) (e : Fp1)
  /-- R143. Base 2 to the power a. -/
  | fexp2 (t : FTy) (a : Nat) (d : Nat)
  /-- R143. Extended 2 to the power a. -/
  | fexp2Ext (e : Fp1)
  /-- R143. Base logarithm base 2. -/
  | flog2 (t : FTy) (a : Nat) (d : Nat)
  /-- R143. Extended logarithm base 2. -/
  | flog2Ext (e : Fp1)
  /-- R143. Base sine. -/
  | fsin (t : FTy) (a : Nat) (d : Nat)
  /-- R143. Extended sine. -/
  | fsinExt (e : Fp1)
  /-- R143. Base cosine. -/
  | fcos (t : FTy) (a : Nat) (d : Nat)
  /-- R143. Extended cosine. -/
  | fcosExt (e : Fp1)
  /-- R143. Base hyperbolic tangent. -/
  | ftanh (t : FTy) (a : Nat) (d : Nat)
  /-- R143. Extended hyperbolic tangent. -/
  | ftanhExt (e : Fp1)
  /-- R145. Base round towards minus infinity to an integral value. -/
  | ffloor (t : FTy) (a : Nat) (d : Nat)
  /-- R145. Extended floor. -/
  | ffloorExt (e : Fp1)
  /-- R145. Base round towards plus infinity to an integral value. -/
  | fceil (t : FTy) (a : Nat) (d : Nat)
  /-- R145. Extended ceiling. -/
  | fceilExt (e : Fp1)
  /-- R145. Base round to nearest even integral value. -/
  | frint (t : FTy) (a : Nat) (d : Nat)
  /-- R145. Extended round to nearest integral value. -/
  | frintExt (e : Fp1)
  /-- R146. Base multiply by 2 to an integer power, RNE. -/
  | fscale (t : FTy) (a : Nat) (d : Nat)
  /-- R146. Extended or literal scale with rounding mode. -/
  | fscaleExt (rm : Rm) (e : Fp2)
  /-- R147. Base one-hot classification of each element. -/
  | fclass (t : FTy) (a : Nat) (d : Nat)
  /-- R147. Extended classification. -/
  | fclassExt (e : Fp1)
  /-- R142. Two-element dot product plus FP32 addend with one rounding. -/
  | fdot2 (rm : Rm) (e : Fp3)
  /-- R151. Converts elements between two formats named in word 2. -/
  | cvt (g : Nat) (d : Nat) (a : Nat) (src : CvtFmt) (dst : CvtFmt) (sel : Nat) (ovf : Bool) (rnd : Rm)
  /-- R154. Quantizes one block per lane under a slot, with scale and optional outlier appends. -/
  | qnt (e : Cvs)
  /-- R156. Expands one block per lane from the slot format. -/
  | dqn (e : Cvs)
  /-- R157. Decodes one CB16 code per lane through the base table. -/
  | cbx (half : Bool) (e : Cvs)
  /-- R158. Turns an amax into a scale code. -/
  | scl (e : Cvs)
  /-- R159. Packs eight wide values into eight 4-bit elements. -/
  | pack4 (e : Cvs)
  /-- R159. Expands eight 4-bit elements into wide values. -/
  | unpack4 (e : Cvs)
  /-- R171. Base load without ordering from global or scratchpad into a register or pair. -/
  | ld (w : MemW) (sp : Spc) (a : Nat) (d : Nat)
  /-- R171. Extended load with index, offset and optional acquire. -/
  | ldExt (w : MemW) (sp : Spc) (acq : Option Scope) (d : Nat) (e : Mem)
  /-- R172. Base store without ordering, held in the region store buffer. -/
  | st (w : MemW) (sp : Spc) (a : Nat) (d : Nat)
  /-- R172. Extended store, held or, with release, a commit point performed directly. -/
  | stExt (w : MemW) (sp : Spc) (rel : Option Scope) (d : Nat) (e : Mem)
  /-- R174. Loads a value together with its line's version. -/
  | ldv (wide : Bool) (acq : Option Scope) (d : Nat) (e : Mem)
  /-- R175. Commits and validates that up to eight lines keep their expected versions. -/
  | vset (g : Nat) (rt : Ret) (d : Nat) (a : SrcA) (b : Nat)
  /-- R176. Base prefetch to L1, L2 or the hint queue. -/
  | prf (kind : Prf) (a : Nat)
  /-- R176. Extended prefetch with index and offset. -/
  | prfExt (kind : Prf) (e : Mem)
  /-- R176. Base write-back of a dirty line to DRAM or host and L1 invalidation. -/
  | flush (a : Nat)
  /-- R176. Extended flush. -/
  | flushExt (e : Mem)
  /-- R176. Base invalidation of unowned L1 words of a line. -/
  | inv (a : Nat)
  /-- R176. Base invalidation of a line in every instruction cache of the device. -/
  | invIp (a : Nat)
  /-- R176. Extended data-path or instruction-path invalidation. -/
  | invExt (ip : Bool) (e : Mem)
  /-- R178. Value-returning atomic read-modify-write, a commit point. -/
  | atm (op : AtmOp) (e : Atm)
  /-- R179. Compare-and-swap on value. -/
  | cas (wide : Bool) (e : Atm) (c : Nat)
  /-- R179. Compare-and-swap on the line version. -/
  | casv (wide : Bool) (e : Atm) (c : Nat)
  /-- R180. Bounded increment returning the old value. -/
  | binc (e : Atm)
  /-- R180. Wrapping increment returning the old value. -/
  | winc (e : Atm)
  /-- R180. Decrement if greater than zero. -/
  | dgz (e : Atm)
  /-- R180. Limited fetch-add against a limit word. -/
  | addl (e : Atm)
  /-- R181. Atomic reduction returning nothing, held in the RSB or performed with release. -/
  | red (op : AtmOp) (e : Atm)
  /-- R182. Acquire, release or both without an access. -/
  | fence (g : Nat) (ord : Ord) (sc : Scope)
  /-- R183. Light half of the asymmetric fence pair. -/
  | fenceL (g : Nat) (sc : Scope)
  /-- R183. Heavy half: blocks until every target warp meets a commit point, then acts as fence.ar. -/
  | fenceR (g : Nat) (sc : Scope)
  /-- R184. Orders data from one access path to another, blocking until complete. -/
  | xfence (g : Nat) (sc : Scope) (p : Path) (q : Path)
  /-- R186. Base barrier arrive-and-wait with LIVE expectation. -/
  | bar (id : Nat)
  /-- R186. Base barrier arrive only. -/
  | barA (id : Nat)
  /-- R186. Base barrier wait only. -/
  | barW (id : Nat)
  /-- R186. Extended barrier with guard, EXP and count. -/
  | barExt (g : Nat) (kind : BarKind) (id : Nat) (exp : Nat) (cnt : Nat)
  /-- R187. Commits and opens a new region with a store-line budget. -/
  | rgn (g : Nat) (b : Nat)
  /-- R188. Commits and re-reads a word with back-off until a condition holds per lane. -/
  | poll (g : Nat) (rt : Ret) (acq : Option Scope) (d : Nat) (a : SrcA) (b : Nat) (bo : Nat) (sp : Spc) (ui : Bool) (cc : Cc)
  /-- R189. Commits and waits on a 64-bit stamp with a line monitor. -/
  | mwait (g : Nat) (rt : Ret) (acq : Option Scope) (d : Nat) (a : SrcA) (b : Nat) (ge : Bool)
  /-- R190. Base wait until any tag of a mask completes. -/
  | twany (a : Nat) (d : Nat)
  /-- R190. Extended or literal wait for any tag. -/
  | twanyExt (g : Nat) (d : Nat) (b : KSrc)
  /-- R190. Base wait until all tags of a mask complete. -/
  | twall (a : Nat) (d : Nat)
  /-- R190. Extended or literal wait for all tags. -/
  | twallExt (g : Nat) (d : Nat) (b : KSrc)
  /-- R190. Base non-blocking find of the first completed tag. -/
  | tff (a : Nat) (d : Nat)
  /-- R190. Extended or literal tff. -/
  | tffExt (g : Nat) (d : Nat) (b : KSrc)
  /-- R205. Commits, checks B metadata and hands a B-tile load of a macro set to the matrix engine. -/
  | bld (g : Nat) (slot : Nat) (tile : Bool) (a : Nat) (b : Nat) (c : Nat) (set : MSet)
  /-- R209. Signs a core joint multiply, latching the operation on first signature. -/
  | mmx (e : Mm)
  /-- R210. Signs a yard joint multiply. -/
  | mmq (e : Mm)
  /-- R212. Adds the outliers of a list into a tile against a set's B. -/
  | mmo (g : Nat) (d : Nat) (a : Nat) (set : MSet)
  /-- R206. Declares or releases a convergence register's count and yard flag. -/
  | cdecl (g : Nat) (d : Nat) (b : KSrc)
  /-- R207. Signs a convergence register without latching an operation. -/
  | csig (g : Nat) (d : Nat)
  /-- R200. Takes a free accumulator bank for the block, blocking until one is free. -/
  | abkGet (g : Nat) (d : Nat)
  /-- R201. Releases an accumulator bank for zeroing and freeing. -/
  | abkPut (g : Nat) (a : Nat)
  /-- R203. Loads a whole accumulator tile from memory. -/
  | accLd (g : Nat) (slot : Nat) (sp : Spc) (d : Nat) (a : Nat) (b : Nat) (tag : Nat)
  /-- R203. Stores a whole accumulator tile to memory with conversion. -/
  | accSt (g : Nat) (slot : Nat) (sp : Spc) (d : Nat) (a : Nat) (b : Nat) (tag : Nat)
  /-- R202. Zeroes a tile in matrix-engine order. -/
  | accZ (g : Nat) (d : Nat)
  /-- R215. Pushes a copy command to q0. -/
  | cpy (g : Nat) (d : Nat) (a : Nat) (b : Nat) (c : Nat) (tag : Nat) (sh : Bool) (dh : Bool) (ss : Bool) (ds : Bool)
  /-- R216. Pushes a window copy into scratchpad through a line-buffer set. -/
  | cpw (g : Nat) (d : Nat) (a : Nat) (b : Nat) (tag : Nat) (lb : Nat)
  /-- R217. Pushes a copy to another core, die or device ending with a stamp. -/
  | cps (g : Nat) (d : Nat) (a : Nat) (b : Nat) (c : Nat) (tag : Nat) (ss : Bool) (ds : Bool)
  /-- R219. Pushes a collective command to q1. -/
  | coll (g : Nat) (a : Nat) (rq : Bool)
  /-- R220. Pushes a router-combined reduction contribution to q1. -/
  | rsum (g : Nat) (a : Nat) (b : Nat) (rq : Bool) (ss : Bool)
  /-- R221. Sends an invocation packet and blocks for the answer code. -/
  | rinv (g : Nat) (d : Nat) (a : Nat) (b : Nat) (hidx : Nat) (narg : Nat) (cls : Nat)
  /-- R221. Sends an invocation and traps with RINV_NACK on a rejecting answer. -/
  | rinvT (g : Nat) (d : Nat) (a : Nat) (b : Nat) (hidx : Nat) (narg : Nat) (cls : Nat)
  /-- R223. Reads a launch packet and record and enqueues a child grid. -/
  | launch (g : Nat) (a : Nat) (q : Nat)
  /-- R224. Enqueues a continuation record on the yard homing its data. -/
  | post (g : Nat) (a : Nat) (sp : Spc)
  /-- R224. Pushes a k-register into a block FIFO q4 to q15. -/
  | postQueue (g : Nat) (d : Nat) (a : Nat)
  /-- R225. Reads a future, parking the warp if it is empty. -/
  | fget (g : Nat) (d : Nat) (a : Nat)
  /-- R225. Pops q2, q3 or q4 to q15 into k-registers, blocking while empty. -/
  | fgetQueue (g : Nat) (d : Nat) (a : Nat)
  /-- R226. Fills a future and re-enqueues its parked waiters. -/
  | fput (g : Nat) (d : Nat) (a : Nat) (b : Nat)
  /-- R227. Base setting of the block's current phase. -/
  | phase (id : Nat)
  /-- R227. Extended setting of the block's phase from word 2. -/
  | phaseExt (g : Nat) (id : Nat)
  /-- R228. Announces the core's expected token draw to the governor. -/
  | intent (g : Nat) (a : Nat) (lead : Nat) (job : Bool)
  /-- R229. Grows a privileged warp's registers per lane, blocking for room. -/
  | rblkAcq (g : Nat) (d : Nat) (n : Nat) (l : Bool)
  /-- R230. Releases the last register blocks of a privileged warp. -/
  | rblkRel (g : Nat) (n : Nat)
  /-- R62. An unassigned or illegal encoding raises Trap(ILLEGAL) at issue with no effect. -/
  | illegalEncoding
  /-- R430. Power-good or device reset runs the boot ROM, applies the signed configuration image and brings up the device. -/
  | powerGoodBoot (cfg : List Byte) (pc : List Byte) (svc : List (List Byte)) (flash : Bool)
  /-- R370. Each cycle a core refills its bucket, serves the blocked queue and takes new demands while its schedulers choose warps to issue. -/
  | coreCycle (core : Nat)
  /-- R241. A PP=1 warp ready 8 160 cycles without issuing becomes urgent and issues first. -/
  | urgentWarp (core : Nat) (sched : Nat)
  /-- R245. When the fairness count reaches T_f a turn is granted to a held lane group. -/
  | fairnessTurn (wid : Nat)
  /-- R246. A turn ends after floor(T_f/4) cycles. -/
  | turnTimeout (wid : Nat)
  /-- R375. Each cycle a die bucket receives its share, pays home steps and core refills and passes overflow to ballast. -/
  | dieBucketCycle (die : Nat)
  /-- R377. Every 1 µs the governor computes cap, demand and target and slews the package rate. -/
  | govTick
  /-- R394. Every 1 ms the governor updates EPT from the PMBus package power. -/
  | eptCalibration (pm : Option Nat)
  /-- R388. Each µs the bank monitor samples charge and voltage and stops refill below the floor. -/
  | bankMonitorSample (die : Nat) (charge : BitVec 32) (vbank : BitVec 16)
  /-- R385. An intent lapses 100 µs after its due time. -/
  | intentLapse (core : Nat) (ctx : Nat)
  /-- R397. A yard's SRAM enters or leaves write-assist on its core-rail sensor. -/
  | writeAssistChange (die : Nat) (yard : Nat) (mv : Nat)
  /-- R398. A late transition makes a compute path repeat its cycle at half clock. -/
  | shadowLatchReplay (core : Nat)
  /-- R293. When %clk reaches %tcmp a timer trap becomes pending for the next commit point. -/
  | timerCompare (wid : Nat)
  /-- R251. When every warp of a context on a core reaches the LWC threshold, WATCHDOG traps are raised. -/
  | localWaitWatchdog (core : Nat) (ctx : Nat)
  /-- R424. A warp blocked at a non-local wait past the EWC threshold takes EXTWAIT. -/
  | extwaitTimeout (wid : Nat)
  /-- R188. A waiting poll lane re-reads its word after its back-off interval. -/
  | pollReread (wid : Nat) (lane : Nat)
  /-- R189. A sleeping mwait lane re-reads and tests when its line's version changes. -/
  | mwaitWake (wid : Nat) (lane : Nat)
  /-- R225. Lanes of an fget that could not park re-enter their region 1 024 cycles later. -/
  | fgetRetry (wid : Nat)
  /-- R323. A parked warp is re-enqueued at its region entry on the die that parked it. -/
  | futureReenqueue (die : Nat) (rec : Nat)
  /-- R257. A warp whose lanes have all exited retires once its region store buffer has drained. -/
  | warpRetire (wid : Nat)
  /-- R258. A block retires once its warps, engine operations and queues are done and releases its resources. -/
  | blockRetire (blk : Nat)
  /-- R259. A grid completes when its blocks and children are done and its stamp is written. -/
  | gridComplete (grid : Nat)
  /-- R294. A context's warps are pre-empted at an instruction boundary, discarded and saved. -/
  | preemption (ctx : Nat)
  /-- R301. A pre-empted block returns to its core with its control state restored. -/
  | switchIn (blk : Nat)
  /-- R403. A trap with a handler installed writes the fault record and starts a handler warp. -/
  | trapHandlerStart (wid : Nat)
  /-- R195. An engine operation that faults stops, releases its tag and delivers a trap to the issuing warp. -/
  | engineFault (core : Nat) (opid : Nat) (cls : Nat) (cause : Nat) (addr : BitVec 64)
  /-- R194. The copy engine pops a command from q0 and starts the copy. -/
  | copyEnginePop (core : Nat)
  /-- R196. A copy finishes its writes, writes any stamp and sets its tag. -/
  | copyComplete (core : Nat) (opid : Nat)
  /-- R265. A macro streams one A row's bit planes through one chunk once its matrix step is paid. -/
  | matrixPass (core : Nat)
  /-- R266. A matrix-engine operation writes its last fold or macro and sets its tag. -/
  | matrixOpComplete (core : Nat)
  /-- R201. A put or retiring bank finishes zeroing and is freed, serving a blocked getter. -/
  | bankZeroComplete (core : Nat) (bank : Nat)
  /-- R362. The collective engine pops one command from a core's q1 and reads its descriptor. -/
  | collEnginePop (die : Nat)
  /-- R343. A reduction contribution arrives at a router or the root and is combined in tree order. -/
  | reductionContribution (c : Contrib)
  /-- R349. At TMO the root ends an incomplete reduction with status 0x01. -/
  | rsumTimeout (die : Nat) (desc : BitVec 64) (seq : Nat)
  /-- R358. A fabric chunk of a collective is written to staging or its output and decrements its counter. -/
  | collectiveChunk (die : Nat) (inst : Nat) (point : Nat) (chunk : Nat) (data : List Byte)
  /-- R360. A point reports its status to point 0, which decides the end status. -/
  | collPointReport (die : Nat) (inst : Nat) (point : Nat) (status : Nat)
  /-- R360. Point 0's end status reaches a point, which writes its stamp and fires its pushes and triggers. -/
  | collEndStatus (die : Nat) (inst : Nat) (status : Nat)
  /-- R360. A point not finished within TMO reports timeout, or writes 0x02 when point 0 is unreachable. -/
  | collPointTimeout (die : Nat) (inst : Nat) (reach : Bool)
  /-- R350. A waiting launch trigger is enqueued once its device-side queue has room. -/
  | launchTriggerEnqueue (ctx : Nat) (q : Nat)
  /-- R319. The queue scheduler reads, waits on and checks the next packet of a host queue and accepts its grid. -/
  | launchAccept (q : Nat)
  /-- R317. The queue scheduler switches a launch queue in or out of residence. -/
  | queueSwitch (q : Nat)
  /-- R320. A device-side queue accepts a child grid from the copied record. -/
  | childLaunchAccept (ctx : Nat) (q : Nat)
  /-- R239. The die scheduler gang-places a pending group where a unit has room. -/
  | groupPlacement (grid : Nat) (grp : Nat)
  /-- R322. A yard's task queue starts a continuation as a one-warp block. -/
  | continuationDispatch (yard : Nat)
  /-- R328. An invocation packet arrives and the receiving die accepts, spills or rejects it and answers. -/
  | remoteInvocation (p : Invoke)
  /-- R221. The answer code reaches the blocked sender, which sets k[D] and continues or traps. -/
  | invocationAnswer (wid : Nat) (code : Nat) (req : Bool)
  /-- R330. An inbox entry is assigned to a blocked handler warp or a new handler group. -/
  | handlerAssign (die : Nat)
  /-- R329. With COUNT below LIMIT the die moves the oldest ring record into the inbox. -/
  | overflowRingMove (die : Nat) (ctx : Nat) (hidx : Nat)
  /-- R336. A line read request arrives at a remote home. -/
  | lineReadRequest (dev : Nat) (addr : Nat)
  /-- R336. A line read response fills the requesting device's copy. -/
  | lineReadResponse (line : Nat) (core : Nat) (data : List Byte) (ver : BitVec 32)
  /-- R282. An ownership request for an atomic arrives at a line's home, which grants a lease. -/
  | ownershipRequest (dev : Nat) (addr : Nat)
  /-- R282. A recall from the home makes the lease owner return the line. -/
  | recall (line : Nat)
  /-- R336. A lease return without data arrives at the home. -/
  | leaseReturn (dev : Nat) (addr : Nat)
  /-- R282. A lease return carrying data and version arrives at the home: `dev` holds the device in bits 9:0 and above them the context
  whose atomics wrote the line (R277, log entry 126). -/
  | leaseReturnWithData (dev : Nat) (addr : Nat) (data : List Byte) (ver : BitVec 32)
  /-- R282. An owner returns a leased line after 16 µs without an atomic. -/
  | leaseIdleReturn (line : Nat)
  /-- R282. An owner returns a leased line no later than 48 µs after the grant. -/
  | leaseDeadlineReturn (line : Nat)
  /-- R282. A lease not returned within 64 µs makes the home poison the line. -/
  | leaseLapse (addr : Nat)
  /-- R336. A committed line write with byte mask arrives at a remote home. -/
  | committedLineWrite (dev : Nat) (addr : Nat) (ctx : Nat) (data : List Byte) (mask : BitVec 128)
  /-- R336. An atomic request on a remote line arrives at its home. -/
  | atomicRequest (p : RemoteAtomic)
  /-- R336. An atomic response on a remote line arrives at the requester. -/
  | atomicResponse (wid : Nat) (lane : Nat) (val : BitVec 64)
  /-- R319. A paddock grid group arrives at a device named in DEVS for placement. -/
  | paddockGridGroup (ctx : Nat) (rec : List Byte) (grp : Nat) (dev : Nat)
  /-- R319. A group-retired report reaches the accepting device, which writes the stamp when all are in. -/
  | groupRetired (grid : Nat) (grp : Nat)
  /-- R386. A job intent packet arrives and may be adopted as a package-level job intent. -/
  | powerIntent (dev : Nat) (rate : Nat) (due : Nat)
  /-- R426. A failure notice ends open collectives naming the failed device and sends 0xF4. -/
  | failureNotice (dev : Nat)
  /-- R337. A fabric port or FCL link is declared failed after replay or acknowledgement timeout. -/
  | linkFailure (fab : Bool) (port : Nat) (devs : List Nat)
  /-- R338. The companion processor reads or writes device memory over FCL at the home slice. -/
  | hostMemoryAccess (h : Home) (wr : Option (List Byte)) (len : Nat)
  /-- R408. An uncorrectable DRAM error is consumed, poisoning the line, retiring the page and trapping the consumer. -/
  | dramUe (line : Nat) (wid : Option Nat)
  /-- R405. An uncorrectable error in a clean L2 line is handled by reading again from DRAM. -/
  | l2CleanUe (line : Nat)
  /-- R412. An uncorrectable error consumed in a dirty L2 line terminates its owner, retires the page and quarantines the frame. -/
  | l2DirtyUeContainment (line : Nat) (set : Nat) (way : Nat)
  /-- R409. An uncorrectable register-cache error is reread, zeroed with discard, or terminates the context. -/
  | regCacheUe (wid : Nat) (reg : Nat) (lane : Nat)
  /-- R410. An uncorrectable scratchpad or accumulator error restarts the block or terminates the context. -/
  | spadAccUe (blk : Nat) (acc : Bool)
  /-- R411. A macro row parity error zeroes the macro, marks NaN and fails the operation. -/
  | macroParityError (core : Nat) (macro_ : Nat)
  /-- R405. An L1 or instruction cache parity error invalidates and rereads the line. -/
  | l1ParityError (core : Nat) (line : Nat) (ic : Bool)
  /-- R405. A TLB or walker buffer parity error drops the entry and walks again. -/
  | tlbParityError (core : Nat) (ctx : Nat) (page : Nat)
  /-- R415. A device-fatal error terminates every context and stops launches until reset. -/
  | deviceFatalError (unit : Nat)
  /-- R406. Patrol scrub reads a line, correcting or poisoning it. -/
  | patrolScrubRead (line : Nat) (ue : Bool)
  /-- R310. Writing GO to MMU_INV_CTL starts a translation invalidation on every die. -/
  | mmuInvalidate (v : BitVec 32)
  /-- R310. The invalidation completes when no TLB holds the range and old walks and accesses are done; BUSY clears. -/
  | mmuInvalidateDone
  /-- R413. Writing REL releases a retired page: lines zeroed, unpoisoned, versions incremented. -/
  | pgretRelease (i : Nat)
  /-- R425. Writing GO terminates a context at the host's request. -/
  | fltKill (v : BitVec 32)
  /-- R422. Writing STOP=1 stops every warp of the attached context at its next instruction boundary. -/
  | debugStop
  /-- R422. Writing STOP=0 restarts every stopped warp. -/
  | debugRestart
  /-- R422. When every warp has stopped, STOPPED is set and vector 0xF3 sent. -/
  | debugStopComplete
  /-- R423. Writing GO writes one lane word of a stopped warp's register once no load to it is pending. -/
  | dbgRegw (v : BitVec 64)
  /-- R432. Writing GO to MEAS_CMD extends a measurement register or is refused. -/
  | measExtend (who : Writer) (v : BitVec 32)
  /-- R439. Writing GO to MEM_CTL runs one DRAM training step or is refused. -/
  | memTrainStep (die : Nat) (v : BitVec 32)
  /-- R439. A DRAM training step ends, setting DONE, LAST and LPASS. -/
  | memTrainStepDone (die : Nat) (layers : BitVec 16)
  /-- R436. A GO to FPT_CTL starts training of a fabric port or FCL link, or fails at once without a device id. -/
  | fptTrainStart (fab : Bool) (port : Nat) (v : BitVec 32)
  /-- R436. A write of LMASK 0 with GO 0 declares the port failed and takes it to state 0. -/
  | fptPortOff (fab : Bool) (port : Nat) (v : BitVec 32)
  /-- R436. A training port advances through its states and ends UP or FAILED with DONE set. -/
  | fptTrainingProgress (fab : Bool) (port : Nat) (ok : Bool) (lgood : BitVec 8) (pdev : Nat) (pport : Nat) (late : Bool)
  /-- R315. A TAIL write advances the producer index or is refused with OVR. -/
  | lqTailWrite (q : Nat) (v : BitVec 32)
  /-- R314. A write to LQ_CFG enables, configures or stops a launch queue. -/
  | lqCfgWrite (q : Nat) (v : BitVec 32)
  /-- R254. A write to PHS_CTX selects the counted context and clears every phase counter. -/
  | phsCtxWrite (die : Nat) (v : BitVec 32)
  /-- R442. Setting BOOT_STAT.RUN moves dies from reduced to full service at an instruction boundary. -/
  | bootRunSet
  /-- R429. A host write sets, and any other write clears, SVC_DOOR bits, waking a halted service core. -/
  | svcDoorWrite (n : Nat) (host : Bool) (v : BitVec 32)
  /-- R429. Every 1 ms the TICK bit of each SVC_DOOR is set. -/
  | svcTick
  /-- R109. A halted service core continues when an SVC_DOOR bit becomes pending. -/
  | haltWake (n : Nat)
  /-- R9. A write to an aperture register with no row of its own applies its fields' access codes. -/
  | registerWrite (who : Writer) (off : Nat) (bytes : Nat) (v : BitVec 64)
  /-- R26. An outstanding load or atomic returns its data and writes its destination register some cycles after issue. -/
  | loadCompletion (wid : Nat) (reg : Nat)
  /-- R405. A flit that arrives with a CRC or parity error is replayed over its fabric, FCL, die-mesh or yard-ring link. -/
  | linkLevelReplay (fab : Nat) (port : Nat)
  /-- R432. A measurement extend finishes, updating MEASi and clearing BUSY. -/
  | measExtendDone
  /-- R425. A host-requested termination finishes and FLT_KILL.BUSY clears. -/
  | terminationComplete
  deriving DecidableEq, Repr

end Sys2Proof
end

