-- ==== Sys2Proof/Machine/Integer.lean ====
section
/-!
DEFINITION. Machine/Integer.lean: the results of the integer vector and scalar instructions
(spec/04_isa_control_integer.md R117 to R128) as functions of bit patterns of width w.
-/

namespace Sys2Proof.Machine.Integer

/-- floor of an exact integer into w bits. -/
def narrow (w : Nat) (v : Int) : BitVec w := BitVec.ofInt w v

/-- Clamp to lo..hi. -/
def clamp (lo hi v : Int) : Int := if v < lo then lo else if hi < v then hi else v

def add {w : Nat} (a b : BitVec w) : BitVec w := a + b
def sub {w : Nat} (a b : BitVec w) : BitVec w := a - b
def mul {w : Nat} (a b : BitVec w) : BitVec w := a * b

/-- add.sat (R118): `u` for .ui32. -/
def addSat {w : Nat} (u : Bool) (a b : BitVec w) : BitVec w :=
  if u then narrow w (min ((a.toNat + b.toNat : Nat) : Int) (2 ^ w - 1))
  else narrow w (clamp (-(2 ^ (w - 1))) (2 ^ (w - 1) - 1) (a.toInt + b.toInt))

/-- sub.sat (R118). -/
def subSat {w : Nat} (u : Bool) (a b : BitVec w) : BitVec w :=
  if u then BitVec.ofNat w (a.toNat - b.toNat)
  else narrow w (clamp (-(2 ^ (w - 1))) (2 ^ (w - 1) - 1) (a.toInt - b.toInt))

/-- mulh (R118). -/
def mulh {w : Nat} (u : Bool) (a b : BitVec w) : BitVec w :=
  if u then BitVec.ofNat w (a.toNat * b.toNat / 2 ^ w) else narrow w (a.toInt * b.toInt / 2 ^ w)

def mad {w : Nat} (a b c : BitVec w) : BitVec w := a * b + c
def neg {w : Nat} (a : BitVec w) : BitVec w := -a

/-- abs: the most negative value gives itself (R118). -/
def abs {w : Nat} (a : BitVec w) : BitVec w := narrow w (if a.toInt < 0 then -a.toInt else a.toInt)

def less {w : Nat} (u : Bool) (a b : BitVec w) : Bool := if u then a.toNat < b.toNat else a.toInt < b.toInt

def min {w : Nat} (u : Bool) (a b : BitVec w) : BitVec w := if less u b a then b else a
def max {w : Nat} (u : Bool) (a b : BitVec w) : BitVec w := if less u a b then b else a

/-- div (R118): b = 0 gives all ones; the most negative value by −1 gives itself. -/
def div {w : Nat} (u : Bool) (a b : BitVec w) : BitVec w :=
  if b = 0 then BitVec.allOnes w
  else if u then BitVec.ofNat w (a.toNat / b.toNat) else narrow w (a.toInt.tdiv b.toInt)

/-- rem (R118): the sign of a; b = 0 gives a. -/
def rem {w : Nat} (u : Bool) (a b : BitVec w) : BitVec w :=
  if b = 0 then a
  else if u then BitVec.ofNat w (a.toNat % b.toNat) else narrow w (a.toInt.tmod b.toInt)

def and {w : Nat} (a b : BitVec w) : BitVec w := a &&& b
def or {w : Nat} (a b : BitVec w) : BitVec w := a ||| b
def xor {w : Nat} (a b : BitVec w) : BitVec w := a ^^^ b
def andn {w : Nat} (a b : BitVec w) : BitVec w := a &&& ~~~b
def not {w : Nat} (a : BitVec w) : BitVec w := ~~~a

/-- Shift count: u(b) mod w (R119). -/
def count {w : Nat} (b : BitVec w) : Nat := b.toNat % w

def shl {w : Nat} (a b : BitVec w) : BitVec w := a <<< count b
def shr {w : Nat} (a b : BitVec w) : BitVec w := a >>> count b
def sar {w : Nat} (a b : BitVec w) : BitVec w := a.sshiftRight (count b)

/-- Left rotation (R119). -/
def rot {w : Nat} (a b : BitVec w) : BitVec w :=
  BitVec.ofNat w (a.toNat * 2 ^ count b + a.toNat / 2 ^ (w - count b))

/-- Number of leading zero bits of an n-bit number (R120). -/
def clz {w : Nat} (a : BitVec w) : BitVec w :=
  BitVec.ofNat w (if a = 0 then w else w - 1 - Nat.log2 a.toNat)

/-- Lowest set index among the first n bits, n when none. -/
def lowBit : Nat → Nat → Nat
  | 0, _ => 0
  | n + 1, v => if v % 2 = 1 then 0 else 1 + lowBit n (v / 2)

/-- Number of set bits among the first n. -/
def bitCount : Nat → Nat → Nat
  | 0, _ => 0
  | n + 1, v => v % 2 + bitCount n (v / 2)

/-- The first n bits in reverse order. -/
def bitReverse : Nat → Nat → Nat
  | 0, _ => 0
  | n + 1, v => (v % 2) * 2 ^ n + bitReverse n (v / 2)

def ctz {w : Nat} (a : BitVec w) : BitVec w := BitVec.ofNat w (lowBit w a.toNat)
def popc {w : Nat} (a : BitVec w) : BitVec w := BitVec.ofNat w (bitCount w a.toNat)
def brev {w : Nat} (a : BitVec w) : BitVec w := BitVec.ofNat w (bitReverse w a.toNat)
def mov {w : Nat} (a : BitVec w) : BitVec w := a

/-- pos of a control value, at most w (R121). -/
def fieldPos (w : Nat) (ctl : Nat) : Nat := Nat.min (ctl % 256) w

/-- len of a control value, at most w − pos (R121). -/
def fieldLen (w : Nat) (ctl : Nat) : Nat := Nat.min (ctl / 256 % 256) (w - fieldPos w ctl)

/-- bfe (R121): `u` zero-extends. -/
def bfe {w : Nat} (u : Bool) (a ctl : BitVec w) : BitVec w :=
  let pos := fieldPos w ctl.toNat
  let len := fieldLen w ctl.toNat
  let f := a.toNat / 2 ^ pos % 2 ^ len
  if len = 0 then 0
  else if !u && f / 2 ^ (len - 1) == 1 then narrow w ((f : Int) - 2 ^ len) else BitVec.ofNat w f

/-- bfi (R121): a inserted into the base value c under control b. -/
def bfi {w : Nat} (a ctl c : BitVec w) : BitVec w :=
  let pos := fieldPos w ctl.toNat
  let len := fieldLen w ctl.toNat
  let hi := c.toNat / 2 ^ (pos + len)
  BitVec.ofNat w (c.toNat % 2 ^ pos + (a.toNat % 2 ^ len) * 2 ^ pos + hi * 2 ^ (pos + len))

/-- A function of w-bit patterns applied at the type's width; 32-bit patterns travel in bits 31:0 (R94). -/
def at1 (t : IntTy) (f : {w : Nat} → BitVec w → BitVec w) (a : DWord) : DWord :=
  match t with
  | .i64 => f a
  | _ => (f (a.setWidth 32)).setWidth 64

def at2 (t : IntTy) (f : {w : Nat} → BitVec w → BitVec w → BitVec w) (a b : DWord) : DWord :=
  match t with
  | .i64 => f a b
  | _ => (f (a.setWidth 32) (b.setWidth 32)).setWidth 64

def at3 (t : IntTy) (f : {w : Nat} → BitVec w → BitVec w → BitVec w → BitVec w) (a b c : DWord) : DWord :=
  match t with
  | .i64 => f a b c
  | _ => (f (a.setWidth 32) (b.setWidth 32) (c.setWidth 32)).setWidth 64

/-- Whether the type is the unsigned one of set I (R51). -/
def unsignedTy (t : IntTy) : Bool := t == .ui32

end Sys2Proof.Machine.Integer
end

