-- ==== Sys2Proof/Machine/Flags.lean ====
section
/-!
DEFINITION. Machine/Flags.lean: the Karbiyth keeps no arithmetic flags (spec/05_isa_vector_convert.md R134); a comparison writes
mask bits. This file holds the conditions: set CC (spec/02_opcode_map.md R52) and the bits of a mask (spec/04 R111).
-/

namespace Sys2Proof.Machine

/-- The condition of set CC on w-bit patterns, unsigned or signed (R124, R128, R188). -/
def condInt {w : Nat} (c : Cc) (u : Bool) (a b : BitVec w) : Bool :=
  match c with
  | .eq => a == b
  | .ne => a != b
  | .lt => Integer.less u a b
  | .le => !Integer.less u b a
  | .gt => Integer.less u b a
  | .ge => !Integer.less u a b

/-- The condition at an integer type's width (R124). -/
def condTy (c : Cc) (t : IntTy) (a b : DWord) : Bool :=
  match t with
  | .i64 => condInt c false a b
  | .i32 => condInt c false (a.setWidth 32) (b.setWidth 32)
  | .ui32 => condInt c true (a.setWidth 32) (b.setWidth 32)

/-- Bit l of a mask or a lane set. -/
def laneIn (m : Word) (l : Nat) : Bool := m.getLsbD l

/-- The mask whose bit l is f l, for the 32 lanes. -/
def maskOf (f : Nat → Bool) : Word := BitVec.ofNat 32 (laneList.foldr (fun l acc => cond (f l) 1 0 + 2 * acc) 0)

/-- Mask bits written for the lanes of `en` only; every other bit keeps its value (R111). -/
def maskWrite (old en new : Word) : Word := (old &&& ~~~en) ||| (new &&& en)

end Sys2Proof.Machine
end

