-- ==== Sys2Proof/Machine/Float.lean ====
section
/-!
DEFINITION. Machine/Float.lean: exact values of the element formats and one rounding into them (spec/03_numbers.md R65, R80;
spec/05_isa_vector_convert.md R134, R135), and the arithmetic built on them (R138 to R142, R145 to R147).
-/

namespace Sys2Proof.Machine.Fp

/-- An exact value: NaN, an infinity, or a sign with a magnitude num / den (den > 0). -/
inductive Val where
  | nan
  | inf (neg : Bool)
  | fin (neg : Bool) (num den : Nat)
  deriving DecidableEq, Repr

/-- What the top exponent field means (R65). -/
inductive Top where
  | ieee | e4m3 | plain
  deriving DecidableEq, Repr

/-- A binary floating-point format (R65). -/
structure Fmt where
  eb : Nat
  fb : Nat
  bias : Nat
  top : Top
  nan : Nat
  deriving DecidableEq, Repr

def f32 : Fmt := { eb := 8, fb := 23, bias := 127, top := .ieee, nan := 0x7FC00000 }
def bf16 : Fmt := { eb := 8, fb := 7, bias := 127, top := .ieee, nan := 0x7FC0 }
def f16 : Fmt := { eb := 5, fb := 10, bias := 15, top := .ieee, nan := 0x7E00 }
def e4m3 : Fmt := { eb := 4, fb := 3, bias := 7, top := .e4m3, nan := 0x7F }
def e5m2 : Fmt := { eb := 5, fb := 2, bias := 15, top := .ieee, nan := 0x7E }
def e2m1 : Fmt := { eb := 2, fb := 1, bias := 1, top := .plain, nan := 0 }

/-- Width in bits. -/
def Fmt.bits (f : Fmt) : Nat := 1 + f.eb + f.fb

/-- Code of the largest finite magnitude (R65). -/
def Fmt.maxCode (f : Fmt) : Nat :=
  match f.top with
  | .ieee => (2 ^ f.eb - 1) * 2 ^ f.fb - 1
  | .e4m3 => 2 ^ (f.eb + f.fb) - 2
  | .plain => 2 ^ (f.eb + f.fb) - 1

/-- Code of +∞ in a format that has one. -/
def Fmt.infCode (f : Fmt) : Nat := (2 ^ f.eb - 1) * 2 ^ f.fb

/-- Sign bit. -/
def Fmt.signBit (f : Fmt) (neg : Bool) : Nat := if neg then 2 ^ (f.eb + f.fb) else 0

/-- 2 to an integer power, as num and den. -/
def pow2 (e : Int) : Nat × Nat := if e < 0 then (1, 2 ^ e.natAbs) else (2 ^ e.natAbs, 1)

/-- m · 2^e as an exact magnitude. -/
def scaled (neg : Bool) (m : Nat) (e : Int) : Val := .fin neg (m * (pow2 e).1) (pow2 e).2

/-- The exact value of a magnitude code that is finite. -/
def Fmt.magnitude (f : Fmt) (neg : Bool) (c : Nat) : Val :=
  let e := c / 2 ^ f.fb
  let m := c % 2 ^ f.fb
  if e = 0 then scaled neg m (1 - f.bias - f.fb) else scaled neg (2 ^ f.fb + m) ((e : Int) - f.bias - f.fb)

/-- The value of a code (R65). -/
def Fmt.value (f : Fmt) (code : Nat) : Val :=
  let neg := code / 2 ^ (f.eb + f.fb) % 2 == 1
  let c := code % 2 ^ (f.eb + f.fb)
  if c ≤ f.maxCode then f.magnitude neg c
  else match f.top with
    | .ieee => if c = f.infCode then .inf neg else .nan
    | _ => .nan

/-- floor(log2(num / den)) for num, den > 0. -/
def log2Floor (num den : Nat) : Int :=
  let l : Int := (Nat.log2 num : Int) - Nat.log2 den
  if num * (pow2 (-l)).1 < den * (pow2 (-l)).2 then l - 1 else l

/-- num / den rounded to an integer; `neg` is the sign that the directed modes look at (R135). -/
def roundNat (rm : Rm) (neg : Bool) (num den : Nat) : Nat :=
  let q := num / den
  let r := num % den
  let up := match rm with
    | .rne => den < 2 * r || (2 * r == den && q % 2 == 1)
    | .rz => false
    | .rd => neg && r != 0
    | .ru => !neg && r != 0
  if up then q + 1 else q

/-- The magnitude code of num / den rounded once, its exponent unbounded above; subnormals are gradual (R135). -/
def Fmt.roundMag (f : Fmt) (rm : Rm) (neg : Bool) (num den : Nat) : Nat :=
  if num = 0 then 0
  else
    let e := max (log2Floor num den) (1 - (f.bias : Int))
    let q := e - f.fb
    let m := roundNat rm neg (num * (pow2 (-q)).1) (den * (pow2 (-q)).2)
    (e + f.bias - 1).toNat * 2 ^ f.fb + m

/-- Whether an overflow in this mode gives infinity rather than the largest finite value (R135). -/
def overflowsToInf (rm : Rm) (neg : Bool) : Bool :=
  match rm with
  | .rne => true
  | .rz => false
  | .rd => neg
  | .ru => !neg

/-- The code that stands for an infinite result (R80): ±∞, or the canonical NaN of E4M3, or ±6 of E2M1. -/
def Fmt.infinite (f : Fmt) (neg : Bool) : Nat :=
  match f.top with
  | .ieee => f.signBit neg + f.infCode
  | .e4m3 => f.nan
  | .plain => f.signBit neg + f.maxCode

/-- A finite value rounded once, with the IEEE overflow of the mode (R135, R80 with OVF = 1). -/
def Fmt.roundFin (f : Fmt) (rm : Rm) (neg : Bool) (num den : Nat) : Nat :=
  let c := f.roundMag rm neg num den
  if c ≤ f.maxCode then f.signBit neg + c
  else if overflowsToInf rm neg then f.infinite neg
  else f.signBit neg + f.maxCode

/-- Round(v, type, rm) (R135). -/
def Fmt.round (f : Fmt) (rm : Rm) : Val → Nat
  | .nan => f.nan
  | .inf neg => f.infinite neg
  | .fin neg num den => f.roundFin rm neg num den

/-! ### Exact arithmetic (R135, R138) -/

def Val.isNan : Val → Bool
  | .nan => true
  | _ => false

def Val.neg : Val → Val
  | .nan => .nan
  | .inf s => .inf (!s)
  | .fin s n d => .fin (!s) n d

def Val.isZero : Val → Bool
  | .fin _ 0 _ => true
  | _ => false

/-- Product, exact; ∞ · 0 is NaN; the sign is the xor of the signs (R135). -/
def Val.mul : Val → Val → Val
  | .nan, _ => .nan
  | _, .nan => .nan
  | .inf s, .inf t => .inf (s ^^ t)
  | .inf s, .fin t n _ => if n = 0 then .nan else .inf (s ^^ t)
  | .fin t n _, .inf s => if n = 0 then .nan else .inf (s ^^ t)
  | .fin s n d, .fin t m e => .fin (s ^^ t) (n * m) (d * e)

/-- Sum, exact; ∞ − ∞ is NaN; a zero sum is −0 when both terms are, or when they cancel and rm is RD (R135). -/
def Val.add (rm : Rm) : Val → Val → Val
  | .nan, _ => .nan
  | _, .nan => .nan
  | .inf s, .inf t => if s = t then .inf s else .nan
  | .inf s, .fin _ _ _ => .inf s
  | .fin _ _ _, .inf t => .inf t
  | .fin s n d, .fin t m e =>
    let x := n * e
    let y := m * d
    if s = t then .fin s (x + y) (d * e)
    else if x = y then .fin (rm == .rd) 0 1
    else if y < x then .fin s (x - y) (d * e) else .fin t (y - x) (d * e)

/-- Three terms as one sum (R142): the exact zero of a cancellation has the sign of the mode. -/
def Val.add3 (rm : Rm) (a b c : Val) : Val :=
  if a.isZero && b.isZero then (a.add rm b).add rm c
  else match a.add rm b with
    | .fin _ 0 _ => if c.isZero then .fin (rm == .rd) 0 1 else c
    | v => v.add rm c

/-- a < b for values that are no NaN; −0 and +0 are equal. -/
def Val.lt : Val → Val → Bool
  | .nan, _ => false
  | _, .nan => false
  | .inf s, .inf t => s && !t
  | .inf s, .fin _ _ _ => s
  | .fin _ _ _, .inf t => !t
  | .fin s n d, .fin t m e =>
    match s, t with
    | false, false => n * e < m * d
    | true, true => m * d < n * e
    | true, false => n != 0 || m != 0
    | false, true => false

/-! ### Elements of the floating-point types (R132) -/

/-- The element format of a type. -/
def fmtOf : FTy → Fmt
  | .f32 => f32
  | .f16x2 => f16
  | .bf16 => bf16
  | .f16 => f16

/-- Whether the type packs two elements in a register. -/
def packed : FTy → Bool
  | .f16x2 => true
  | .bf16 => true
  | _ => false

/-- Element j of a register's 32 bits. -/
def elem (t : FTy) (v : Word) (j : Nat) : Nat :=
  match t with
  | .f32 => v.toNat
  | _ => v.toNat / 2 ^ (16 * j) % 2 ^ 16

/-- The register of the elements' codes: both halves of a packed type; bits 31:16 zero for .f16 (R132). -/
def ofElems (t : FTy) (e : Nat → Nat) : Word :=
  if packed t then BitVec.ofNat 32 (e 0 % 2 ^ 16 + 2 ^ 16 * (e 1 % 2 ^ 16)) else BitVec.ofNat 32 (e 0)

/-- An operation on each element (R134). -/
def map1 (t : FTy) (f : Nat → Nat) (a : Word) : Word := ofElems t fun j => f (elem t a j)

def map2 (t : FTy) (f : Nat → Nat → Nat) (a b : Word) : Word := ofElems t fun j => f (elem t a j) (elem t b j)

def map3 (t : FTy) (f : Nat → Nat → Nat → Nat) (a b c : Word) : Word :=
  ofElems t fun j => f (elem t a j) (elem t b j) (elem t c j)

/-- fadd (R138). -/
def fadd (rm : Rm) (t : FTy) : Word → Word → Word :=
  map2 t fun a b => (fmtOf t).round rm (((fmtOf t).value a).add rm ((fmtOf t).value b))

/-- fsub (R138). -/
def fsub (rm : Rm) (t : FTy) : Word → Word → Word :=
  map2 t fun a b => (fmtOf t).round rm (((fmtOf t).value a).add rm ((fmtOf t).value b).neg)

/-- fmul (R138). -/
def fmul (rm : Rm) (t : FTy) : Word → Word → Word :=
  map2 t fun a b => (fmtOf t).round rm (((fmtOf t).value a).mul ((fmtOf t).value b))

/-- ffma: the product is not rounded (R138). -/
def ffma (rm : Rm) (t : FTy) : Word → Word → Word → Word :=
  map3 t fun a b c =>
    (fmtOf t).round rm ((((fmtOf t).value a).mul ((fmtOf t).value b)).add rm ((fmtOf t).value c))

/-- fmin and fmax of two codes: the operand itself; −0 is below +0 (R139). -/
def pick (max : Bool) (f : Fmt) (a b : Nat) : Nat :=
  let x := f.value a
  let y := f.value b
  if x.isNan then (if y.isNan then f.nan else b)
  else if y.isNan then a
  else
    let aBelow := x.lt y || (!y.lt x && a / 2 ^ (f.eb + f.fb) % 2 == 1)
    if aBelow != max then a else b

def fmin (t : FTy) : Word → Word → Word := map2 t (pick false (fmtOf t))
def fmax (t : FTy) : Word → Word → Word := map2 t (pick true (fmtOf t))

/-- fabs: the sign bit cleared, everything else copied (R140). -/
def fabs (t : FTy) : Word → Word := map1 t fun a => a % 2 ^ ((fmtOf t).eb + (fmtOf t).fb)

/-- fneg: the sign bit inverted (R140). -/
def fneg (t : FTy) : Word → Word :=
  map1 t fun a =>
    let s := 2 ^ ((fmtOf t).eb + (fmtOf t).fb)
    if a / s % 2 = 1 then a - s else a + s

/-- The condition of set FC on two element codes (R141). -/
def condElem (c : Fc) (f : Fmt) (a b : Nat) : Bool :=
  let x := f.value a
  let y := f.value b
  let u := x.isNan || y.isNan
  let eq := !x.lt y && !y.lt x
  match c with
  | .eq => !u && eq
  | .ne => u || !eq
  | .lt => !u && x.lt y
  | .le => !u && (x.lt y || eq)
  | .gt => !u && y.lt x
  | .ge => !u && (y.lt x || eq)
  | .uo => u
  | .ord => !u

/-- fcmp: for the packed types both elements must satisfy the condition (R141). -/
def fcmp (c : Fc) (t : FTy) (a b : Word) : Bool :=
  condElem c (fmtOf t) (elem t a 0) (elem t b 0) &&
    (!packed t || condElem c (fmtOf t) (elem t a 1) (elem t b 1))

/-- fdot2: two exact products and an FP32 addend, rounded once (R142). -/
def fdot2 (rm : Rm) (t : FTy) (a b c : Word) : Word :=
  let p (j : Nat) : Val := ((fmtOf t).value (elem t a j)).mul ((fmtOf t).value (elem t b j))
  BitVec.ofNat 32 (f32.round rm (Val.add3 rm (p 0) (p 1) (f32.value c.toNat)))

/-- Integral rounding of a value; a zero result keeps the sign (R145). -/
def integral (rm : Rm) : Val → Val
  | .fin s n d => .fin s (roundNat rm s n d) 1
  | v => v

/-- ffloor, fceil, frint (R145); the result is exact. -/
def fround (rm : Rm) (t : FTy) : Word → Word :=
  map1 t fun a => (fmtOf t).round .rne (integral rm ((fmtOf t).value a))

/-- The exponent fscale uses: beyond ±1 000 every result of every format is the same (R146). -/
def scaleExp (n : Int) : Int := Integer.clamp (-1000) 1000 n

/-- v · 2^n. -/
def Val.scaleBy (v : Val) (n : Int) : Val :=
  match v with
  | .fin s m d => .fin s (m * (pow2 n).1) (d * (pow2 n).2)
  | w => w

/-- The integer exponent of element j of B (R146; of an immediate: log entry 118). -/
def scaleArg (t : FTy) (b : Word) (j : Nat) : Int :=
  match t with
  | .f32 => b.toInt
  | _ => (BitVec.ofNat 16 (b.toNat / 2 ^ (16 * j))).toInt

/-- fscale (R146). -/
def fscale (rm : Rm) (t : FTy) (a b : Word) : Word :=
  ofElems t fun j => (fmtOf t).round rm (((fmtOf t).value (elem t a j)).scaleBy (scaleExp (scaleArg t b j)))

/-- The class bit of a code (R147). -/
def classBit (f : Fmt) (a : Nat) : Nat :=
  let c := a % 2 ^ (f.eb + f.fb)
  match f.value a with
  | .nan => 8
  | .inf s => if s then 0 else 7
  | .fin s _ _ =>
    if c = 0 then (if s then 3 else 4)
    else if c < 2 ^ f.fb then (if s then 2 else 5)
    else if s then 1 else 6

/-- fclass (R147). -/
def fclass (t : FTy) (a : Word) : Word :=
  let code (j : Nat) : Nat := 2 ^ classBit (fmtOf t) (elem t a j)
  if packed t then BitVec.ofNat 32 (code 0 + 2 ^ 16 * code 1) else BitVec.ofNat 32 (code 0)

end Sys2Proof.Machine.Fp
end

