-- ==== Sys2Proof/Machine/Approx.lean ====
section
/-!
DEFINITION. Machine/Approx.lean: fsqrt and the approximate functions (spec/05_isa_vector_convert.md R143, R144). A result that
the spec fixes is computed exactly. Elsewhere the result is the free value Config.apx of the input, replaced by a result
inside the bound when it lies outside it (log entry 7). The bounds are taken on enclosures of the exact value, wider than it by
a relative 2^-200 or less.
-/

namespace Sys2Proof.Machine.Approx

open Fp

/-- Fraction bits of the fixed-point numbers below. -/
def fbits : Nat := 400

/-- 1.0. -/
def one : Int := 2 ^ 400

/-- Product of two fixed-point numbers, rounded down. -/
def fmulx (a b : Int) : Int := a * b / one

/-- Sum of p/(2k+1), p divided by n² (and negated when `alt`) at each of the terms: arctan or artanh of 1/n. -/
def arcSeries (alt : Bool) (nsq : Int) : Nat → Int → Int → Int
  | 0, _, _ => 0
  | m + 1, k, p => p / (2 * k + 1) + arcSeries alt nsq m (k + 1) (if alt then -p / nsq else p / nsq)

/-- π within 2^-380. -/
def pi : Int := 4 * (4 * arcSeries true 25 100 0 (one / 5) - arcSeries true (239 * 239) 30 0 (one / 239))

/-- ln 2 within 2^-380. -/
def ln2 : Int := 2 * arcSeries false 9 140 0 (one / 3)

/-- Sum of the terms t, t·r/(k+1), t·r²/((k+1)(k+2)), … -/
def expSeries (r : Int) : Nat → Int → Int → Int
  | 0, _, _ => 0
  | m + 1, k, t => t + expSeries r m (k + 1) (fmulx t r / (k + 1))

/-- Sum of the terms t, −t·r²/((k+1)(k+2)), …: cosine from (k, t) = (0, 1), sine from (1, r). -/
def trigSeries (rsq : Int) : Nat → Int → Int → Int
  | 0, _, _ => 0
  | m + 1, k, t => t + trigSeries rsq m (k + 2) (-(fmulx t rsq / ((k + 1) * (k + 2))))

/-- artanh series in a fixed-point z. -/
def artanhSeries (zsq : Int) : Nat → Int → Int → Int
  | 0, _, _ => 0
  | m + 1, k, p => p / (2 * k + 1) + artanhSeries zsq m (k + 1) (fmulx p zsq)

/-- Slack of every series, in units of 2^-400. -/
def slack : Int := 2 ^ 40

/-- e^y of a fixed-point y as (m, n) with value m · 2^(n - 400), |error of m| < slack · 2^60. -/
def expFix (y : Int) : Int × Int :=
  let n := y / ln2
  (expSeries (y - n * ln2) 110 0 one, n)

/-- floor of the square root, by bits from 2^(n-1) down. -/
def isqrt : Nat → Nat → Nat → Nat
  | 0, r, _ => r
  | n + 1, r, v => if (r + 2 ^ n) * (r + 2 ^ n) ≤ v then isqrt n (r + 2 ^ n) v else isqrt n r v

/-- A magnitude that rounds in every mode as √(num/den) does: the root when exact, else a point just above its floor. -/
def sqrtSticky (num den : Nat) : Nat × Nat :=
  let v := num * 2 ^ 500 / den
  let r := isqrt 340 0 v
  if r * r * den = num * 2 ^ 500 then (r, 2 ^ 250) else (2 * r + 1, 2 ^ 251)

/-- fsqrt of one element (R143). -/
def sqrtElem (f : Fmt) (rm : Rm) (a : Nat) : Nat :=
  match f.value a with
  | .nan => f.nan
  | .inf s => if s then f.nan else f.infCode
  | .fin s n d =>
    if n = 0 then f.signBit s
    else if s then f.nan
    else let (p, q) := sqrtSticky n d; f.roundFin rm false p q

/-- fsqrt (R143). -/
def fsqrt (rm : Rm) (t : FTy) : Word → Word := map1 t (sqrtElem (fmtOf t) rm)

/-- The candidate when its sign is `neg` and its magnitude code is in lo..hi, else the code lo. -/
def admitCode (f : Fmt) (neg : Bool) (lo hi cand : Nat) : Nat :=
  let c := cand - f.signBit neg
  if f.signBit neg ≤ cand && lo ≤ c && c ≤ hi then cand else f.signBit neg + lo

/-- The magnitude of a code; infinity stands one spacing beyond the largest finite value. -/
def codeMag (f : Fmt) (c : Nat) : Nat × Nat :=
  let fin := fun c => match f.value c with | .fin _ n d => (n, d) | _ => (0, 1)
  if c < f.infCode then fin c
  else
    let (n, d) := fin f.maxCode
    let (m, e) := fin (f.maxCode - 1)
    (2 * n * e - m * d, d * e)

/-- Whether n/d lies within twice p/q of every value from ln/ld to hn/hd. -/
def withinTwo (n d p q ln ld hn hd : Nat) : Bool :=
  decide (hn * d * q ≤ (n * q + 2 * p * d) * hd) && decide (n * ld * q ≤ (ln * q + 2 * p * ld) * d)

/-- The candidate when its sign is `neg` and its magnitude meets the bound at an exact magnitude between ln/ld and hn/hd, else the
code that brackets it from below (R143): k = 0 for a bound of 1 ulp, the two codes that bracket it; 1 for 2 ulp, twice the
spacing at the exact result. -/
def admitUlp (f : Fmt) (k : Nat) (neg : Bool) (ln ld hn hd cand : Nat) : Nat :=
  let lo := min (f.roundMag .rz false ln ld) f.maxCode
  if k = 0 then admitCode f neg lo (min (f.roundMag .ru false hn hd) f.infCode) cand
  else
    let (n, d) := codeMag f (cand - f.signBit neg)
    let (a, b) := codeMag f lo
    let (x, y) := codeMag f (lo + 1)
    if f.signBit neg ≤ cand && cand - f.signBit neg ≤ f.infCode && withinTwo n d (x * b - a * y) (y * b) ln ld hn hd then cand
    else f.signBit neg + lo

/-- A value as a signed fixed-point number, for the absolute bounds. -/
def fixVal (v : Int) : Val := .fin (v < 0) v.natAbs (2 ^ 400)

/-- The candidate when its value lies in lo..hi (fixed point), else the rounding of `mid`. -/
def admitAbs (f : Fmt) (lo hi mid : Int) (cand : Nat) : Nat :=
  let v := f.value cand
  if !v.isNan && cand < 2 ^ f.bits && !v.lt (fixVal lo) && !(fixVal hi).lt v then cand
  else f.round .rne (fixVal mid)

/-- Fixed-point value of num / den. -/
def toFix (neg : Bool) (num den : Nat) : Int :=
  let v : Int := ((num * 2 ^ 400 / den : Nat) : Int)
  if neg then -v else v

/-- frcp of one element. -/
def rcp (f : Fmt) (half : Bool) (cand a : Nat) : Nat :=
  match f.value a with
  | .nan => f.nan
  | .inf s => f.signBit s
  | .fin s n d =>
    if n = 0 then f.signBit s + f.infCode
    else if half then f.roundFin .rne s d n
    else admitUlp f 0 s d n d n cand

/-- frsq of one element. -/
def rsq (f : Fmt) (half : Bool) (cand a : Nat) : Nat :=
  match f.value a with
  | .nan => f.nan
  | .inf s => if s then f.nan else 0
  | .fin s n d =>
    if n = 0 then f.signBit s + f.infCode
    else if s then f.nan
    else
      let (p, q) := sqrtSticky d n
      if half then f.roundFin .rne false p q else admitUlp f 0 false p q p q cand

/-- fexp2 of one element: exact for an integer a whose power is representable. -/
def exp2 (f : Fmt) (half : Bool) (cand a : Nat) : Nat :=
  match f.value a with
  | .nan => f.nan
  | .inf s => if s then 0 else f.infCode
  | .fin s n d =>
    let k := if half then 0 else 1
    let big := 1000 * d < n
    if big then (if s then admitUlp f k false 0 1 1 (2 ^ 900) cand else f.infCode)
    else
      let x : Int := if s then -(n : Int) else n
      let w := x / d
      let frac := (x - w * d).toNat
      let (pn, pd) := pow2 w
      if frac = 0 then
        let c := f.roundMag .rz false pn pd
        if f.maxCode < c then f.infCode
        else if f.roundMag .ru false pn pd = c then c
        else admitUlp f k false pn pd pn pd cand
      else if f.maxCode < f.roundMag .rz false pn pd then f.infCode
      else
        let m := (expSeries (fmulx (toFix false frac d) ln2) 110 0 one)
        admitUlp f k false ((m - slack).toNat * pn) (2 ^ 400 * pd) ((m + slack).toNat * pn) (2 ^ 400 * pd) cand

/-- log2 of num / den as a fixed-point number, within 2^-350, and whether it is exactly that integer. -/
def log2Fix (n d : Nat) : Int × Bool :=
  let e := log2Floor n d
  let (pn, pd) := pow2 (-e)
  let mn := n * pn
  let md := d * pd
  if mn = md then (e * one, true)
  else
    let z := toFix false (mn - md) (mn + md)
    (e * one + 2 * artanhSeries (fmulx z z) 140 0 z * one / ln2, false)

/-- flog2 of one element. -/
def log2 (f : Fmt) (half : Bool) (cand a : Nat) : Nat :=
  match f.value a with
  | .nan => f.nan
  | .inf s => if s then f.nan else f.infCode
  | .fin s n d =>
    if n = 0 then f.signBit true + f.infCode
    else if s then f.nan
    else
      let (v, exact) := log2Fix n d
      if exact then f.round .rne (fixVal v)
      else if d ≤ 2 * n && n ≤ 2 * d then
        let b : Int := one / (if half then 2 ^ 11 else 2 ^ 22) + slack * 1024
        admitAbs f (v - b) (v + b) v cand
      else
        let m := v.natAbs
        let sl := (slack * 1024).toNat
        admitUlp f (if half then 0 else 1) (v < 0) (m - sl) (2 ^ 400) (m + sl) (2 ^ 400) cand

/-- (sin, cos) of num / den, within 2^-250. -/
def sinCos (neg : Bool) (n d : Nat) : Int × Int :=
  let y := toFix neg n d
  let h := pi / 2
  let k := (2 * y + h) / (2 * h)
  let r := y - k * h
  let rsq := fmulx r r
  let s := trigSeries rsq 60 1 r
  let c := trigSeries rsq 60 0 one
  match (k % 4).toNat with
  | 0 => (s, c)
  | 1 => (c, -s)
  | 2 => (-s, -c)
  | _ => (-c, s)

/-- fsin or fcos of one element: within the absolute bound and within −1..1. -/
def trig (cosine : Bool) (f : Fmt) (half : Bool) (cand a : Nat) : Nat :=
  match f.value a with
  | .nan => f.nan
  | .inf _ => f.nan
  | .fin s n d =>
    if n = 0 then (if cosine then f.round .rne (.fin false 1 1) else f.signBit s)
    else
      let (sv, cv) := sinCos s n d
      let v := if cosine then cv else sv
      let b : Int := one / (if half then 2 ^ 10 else 2 ^ 22) + one / 2 ^ 240
      admitAbs f (max (v - b) (-one)) (min (v + b) one) (max (min v one) (-one)) cand

/-- ftanh of one element: (e^2a − 1) / (e^2a + 1) with |result| at most 1. -/
def tanh (f : Fmt) (half : Bool) (cand a : Nat) : Nat :=
  match f.value a with
  | .nan => f.nan
  | .inf s => f.round .rne (.fin s 1 1)
  | .fin s n d =>
    let k := if half then 0 else 1
    let oneCode := f.roundMag .rne false 1 1
    if n = 0 then f.signBit s
    else if 100 * d < n then admitCode f s (oneCode - 1 - k) oneCode cand
    else
      let (m, e) := expFix (toFix false (2 * n) d)
      let E := m * 2 ^ e.toNat
      let sl := slack * 2 ^ e.toNat * 1024
      let lo := (E - one - sl).toNat
      let hi := (E - one + sl).toNat
      let f' := admitUlp f k s lo (E + one + sl).toNat hi (E + one - sl).toNat cand
      if oneCode < f' - f.signBit s then f.signBit s + oneCode else f'

/-- One element of an approximate function (R143), from the input bits and the type alone (R144). -/
def apxElem (fn : Config.Apx) (t : FTy) (a : Nat) : Nat :=
  let f := fmtOf t
  let half := t == .f16x2
  let cand := Config.apx fn half a
  match fn with
  | .frcp => rcp f half cand a
  | .frsq => rsq f half cand a
  | .fexp2 => exp2 f half cand a
  | .flog2 => log2 f half cand a
  | .fsin => trig false f half cand a
  | .fcos => trig true f half cand a
  | .ftanh => tanh f half cand a

/-- An approximate function on a register (R134, R143). -/
def approx (fn : Config.Apx) (t : FTy) : Word → Word := map1 t (apxElem fn t)

end Sys2Proof.Machine.Approx
end

