-- ==== Sys2Proof/WellFormed.lean ====
section
/-!
DEFINITION. WellFormed.lean: the static legality of an instruction's operands: namespaces and pairs (spec/01_encoding.md
R20, R21), KA, IB and literals (R17, R22, R23), guards (R24), RET (R26), scopes (spec/02_opcode_map.md R50) and the word 2
limits of each entry. What depends on register, slot or macro contents is checked by the meanings.
-/

namespace Sys2Proof

/-- Why an encoding or an operand is refused; every one of them raises Trap(ILLEGAL) at check 1 or 4 of R48. -/
inductive Reject where
  | opcode      -- OP unassigned (R62)
  | form        -- a LEN the opcode does not provide (R19)
  | minor       -- an unassigned minor function (R19)
  | modifier    -- a MOD code not listed (R49)
  | guard       -- guard selector 13 to 15 (R19)
  | retain      -- RET on an operand that is absent or no lane register (R26)
  | scope       -- a scope code that the instruction does not take (R50, R183)
  | ordering    -- an ordering the opcode does not allow (R58)
  | register    -- a register number outside its namespace (R20)
  | pair        -- an odd pair (R21)
  | immediate   -- an operand kind or literal the entry does not allow (R17, R23)
  | word2       -- a word 2 field outside its limits
  | reserved    -- a nonzero res0 field (R19)
  | truncated   -- fewer words than LEN asks for
  deriving DecidableEq, Repr

/-- First failing check of a list; `none` when every check passes. -/
def firstBad : List (Bool × Reject) → Option Reject
  | [] => none
  | (ok, r) :: rest => if ok then firstBad rest else some r

namespace Chk

/-- Guard selector 0 to 12 (R24). -/
def g (n : Nat) : Bool × Reject := (n ≤ 12, .guard)

/-- Lane register (R20). -/
def x (n : Nat) : Bool × Reject := (n ≤ 511, .register)

/-- Even pair of lane registers (R21). -/
def p (n : Nat) : Bool × Reject := (n ≤ 510 && n % 2 == 0, .pair)

/-- k-register (R20). -/
def k (n : Nat) : Bool × Reject := (n ≤ 63, .register)

/-- Mask (R20). -/
def m (n : Nat) : Bool × Reject := (n ≤ 11, .register)

/-- Convergence register (R20). -/
def cv (n : Nat) : Bool × Reject := (n ≤ 7, .register)

/-- A field with a limit of its own in the instruction's entry. -/
def lim (n hi : Nat) : Bool × Reject := (n ≤ hi, .word2)

/-- Lane register of a 32-bit operation, pair of a 64-bit one (R116). -/
def w (wide : Bool) (n : Nat) : Bool × Reject := if wide then p n else x n

/-- Source A: register, pair, or k-register (R22). -/
def a (wide : Bool) : SrcA → Bool × Reject
  | .x n => w wide n
  | .k n => k n

/-- Source B: register, pair, immediate, or a literal whose unused bits are res0 (R17). -/
def b (wide : Bool) : SrcB → Bool × Reject
  | .x n => w wide n
  | .imm _ => (true, .immediate)
  | .lit v => (wide || v.toNat < 2 ^ 32, .reserved)

/-- Source B of the forms without a literal. -/
def bNoLit (wide : Bool) : SrcB → Bool × Reject
  | .x n => w wide n
  | .imm _ => (true, .immediate)
  | .lit _ => (false, .immediate)

/-- Scalar source B (R126). -/
def kb : KSrc → Bool × Reject
  | .k n => k n
  | .imm _ => (true, .immediate)
  | .lit _ => (true, .immediate)

/-- Scalar source B of the forms without a literal. -/
def kbNoLit : KSrc → Bool × Reject
  | .k n => k n
  | .imm _ => (true, .immediate)
  | .lit _ => (false, .immediate)

/-- RET names an operand that is a lane register (R26): `a`, `b`, `c` say which operands are. -/
def rt (r : Ret) (a b c : Bool) : Bool × Reject :=
  (match r with
   | .none => true
   | .a => a
   | .b => b
   | .c => c, .retain)

/-- A type of set I2 (R51). -/
def i2 (t : IntTy) : Bool × Reject := (t != .ui32, .minor)

/-- A type of set F2 (R51). -/
def f2 (t : FTy) : Bool × Reject := (t == .f32 || t == .f16x2, .minor)

end Chk

/-- The 64-bit types of set I (R51). -/
def IntTy.wide : IntTy → Bool
  | .i64 => true
  | _ => false

def SrcA.isX : SrcA → Bool
  | .x _ => true
  | .k _ => false

def SrcB.isX : SrcB → Bool
  | .x _ => true
  | _ => false

/-- Whether an access has width 8 bytes (R51). -/
def MemW.wide : MemW → Bool
  | .w64 => true
  | _ => false

/-- Whether an atomic works on 64 bits (R59). -/
def AtmOp.wide : AtmOp → Bool
  | .add64 => true
  | .exch64 => true
  | _ => false

/-- Codes 12 and 13 return no value (R58, R178). -/
def AtmOp.valued : AtmOp → Bool
  | .addF16x2 => false
  | .addBf16 => false
  | _ => true

/-- Codes 9 and 10 are no reductions (R58, R181). -/
def AtmOp.reducing : AtmOp → Bool
  | .exch32 => false
  | .exch64 => false
  | _ => true

def CallTo.isX : CallTo → Bool
  | .rel _ => false
  | .reg s => s.isX

namespace Chk

/-- Target of the extended `call` (R100). -/
def callTo : CallTo → Bool × Reject
  | .rel _ => (true, .immediate)
  | .reg s => a true s

/-- B of `lea`: a lane register or a literal (R123). -/
def leaB : SrcB → Bool × Reject
  | .x n => x n
  | .imm _ => (false, .immediate)
  | .lit _ => (true, .immediate)

/-- A literal of which only bits 31:0 are used (R17, R112). -/
def lit32 : KSrc → Bool × Reject
  | .lit v => (v.toNat < 2 ^ 32, .reserved)
  | _ => (true, .reserved)

/-- Optional index k-register (R130). -/
def optK : Option Nat → Bool × Reject
  | some n => k n
  | none => (true, .register)

def int1 (i2only : Bool) (e : Int1) : List (Bool × Reject) :=
  [g e.g, (!i2only || e.ty != .ui32, .minor), w e.ty.wide e.d, a e.ty.wide e.a, rt e.rt e.a.isX false false]

def int2 (i2only : Bool) (e : Int2) : List (Bool × Reject) :=
  [g e.g, (!i2only || e.ty != .ui32, .minor), w e.ty.wide e.d, a e.ty.wide e.a, b e.ty.wide e.b,
   rt e.rt e.a.isX e.b.isX false]

/-- `cmp`: D is a mask (R124). -/
def cmp2 (e : Int2) : List (Bool × Reject) :=
  [g e.g, m e.d, a e.ty.wide e.a, b e.ty.wide e.b, rt e.rt e.a.isX e.b.isX false]

def int3 (e : Int3) : List (Bool × Reject) :=
  [g e.g, i2 e.ty, w e.ty.wide e.d, a e.ty.wide e.a, b e.ty.wide e.b, w e.ty.wide e.c, rt e.rt e.a.isX e.b.isX true]

/-- `sel`: C is a mask and there is no literal form (R122, R54). -/
def sel3 (e : Int3) : List (Bool × Reject) :=
  [g e.g, i2 e.ty, w e.ty.wide e.d, a e.ty.wide e.a, bNoLit e.ty.wide e.b, m e.c, rt e.rt e.a.isX e.b.isX false]

def sc2 (e : Sc2) : List (Bool × Reject) := [g e.g, k e.d, k e.a, kb e.b]

def kcmp2 (e : Sc2) : List (Bool × Reject) := [g e.g, m e.d, k e.a, kb e.b]

def fp1 (f2only : Bool) (e : Fp1) : List (Bool × Reject) :=
  [g e.g, (!f2only || e.ty == .f32 || e.ty == .f16x2, .minor), x e.d, a false e.a, rt e.rt e.a.isX false false]

def fp2 (e : Fp2) : List (Bool × Reject) :=
  [g e.g, x e.d, a false e.a, b false e.b, rt e.rt e.a.isX e.b.isX false]

def fcmp2 (e : Fp2) : List (Bool × Reject) :=
  [g e.g, m e.d, a false e.a, b false e.b, rt e.rt e.a.isX e.b.isX false]

def fp3 (e : Fp3) : List (Bool × Reject) :=
  [g e.g, x e.d, a false e.a, b false e.b, x e.c, rt e.rt e.a.isX e.b.isX true]

/-- `fdot2`: types .f16x2 and .bf16, no literal (R56, R142). -/
def fdot3 (e : Fp3) : List (Bool × Reject) :=
  [(e.ty == .f16x2 || e.ty == .bf16, .minor), g e.g, x e.d, a false e.a, bNoLit false e.b, x e.c,
   rt e.rt e.a.isX e.b.isX true]

/-- Conversions under a slot (R149, R160): `ub`, `uc` say whether B and C are operands. -/
def cvs (ub uc : Bool) (e : Cvs) : List (Bool × Reject) :=
  [g e.g, lim e.slot 7, x e.d, x e.a, (if ub then x e.b else (e.b == 0, .reserved)),
   (if uc then x e.c else (e.c == 0, .reserved)), rt e.rt true ub uc]

/-- Memory operand with optional index (R40, R161). -/
def mem (e : Mem) : List (Bool × Reject) :=
  [g e.g, a true e.a, (match e.idx with | some n => x n | none => (true, .register)), rt e.rt e.a.isX e.idx.isSome false]

/-- Atomic operand (R161, R177); `hasC` for the two compare-and-swap forms. -/
def atm (hasB hasC : Bool) (e : Atm) : List (Bool × Reject) :=
  [g e.g, a true e.a, rt e.rt e.a.isX hasB hasC]

/-- Macro set of word 2 (R193, R204, R209). -/
def mset (s : MSet) : List (Bool × Reject) :=
  [lim s.tag 64, lim s.mf 31, (1 ≤ s.kn && s.kn ≤ 32, .word2), (1 ≤ s.nm && s.nm ≤ 2, .word2),
   (s.mf + s.kn * s.nm ≤ 32, .word2)]

def mm (e : Mm) : List (Bool × Reject) :=
  [g e.g, lim e.slot 7, k e.d, k e.a, k e.b, cv e.cv, (1 ≤ e.m && e.m ≤ 64, .word2)] ++ mset e.set

end Chk

/-- Element width in bits of an element format code (R64); 0 for a code that is unassigned. -/
def elemBits : Nat → Nat
  | 0 => 32
  | 1 => 16
  | 2 => 16
  | 3 => 8
  | 4 => 8
  | 5 => 4
  | 6 => 8
  | 7 => 4
  | 8 => 2
  | 9 => 8
  | _ => 0

/-- Width of a format of `cvt` (R151). -/
def CvtFmt.bits : CvtFmt → Nat
  | .elem c => elemBits c
  | _ => 32

/-- A format code `cvt` takes: assigned, and not CB16 (R150). -/
def CvtFmt.ok : CvtFmt → Bool
  | .elem c => c ≤ 9 && c != 8
  | _ => true

def CvtFmt.isInt : CvtFmt → Bool
  | .elem _ => false
  | _ => true

/-- SEL is below the ratio of the widths (R151). -/
def cvtSelOk (src dst : CvtFmt) (sel : Nat) : Bool :=
  sel * min src.bits dst.bits < max src.bits dst.bits

/-- Special registers of 64 bits (R31). -/
def sr64 (n : Nat) : Bool := n == 0x007 || n == 0x018 || n == 0x021 || n == 0x024 || n == 0x100

/-- The first static rule that an instruction breaks, in the order of its checks. Operand A of `mad`, `bfi` and `lea` may be a
k-register (log entry 117). -/
def wfError : Instr → Option Reject
  | .nop => firstBad []
  | .bra _ => firstBad []
  | .braExt g _ => firstBad [Chk.g g]
  | .brx a => firstBad [Chk.p a]
  | .brxExt g a => firstBad [Chk.g g, Chk.a true a]
  | .ret a => firstBad [Chk.p a]
  | .call _ d => firstBad [Chk.p d]
  | .callReg a d => firstBad [Chk.p a, Chk.p d]
  | .callExt g rt d tgt => firstBad [Chk.g g, Chk.p d, Chk.callTo tgt, Chk.rt rt tgt.isX false false]
  | .exit => firstBad []
  | .exitExt g => firstBad [Chk.g g]
  | .join d => firstBad [Chk.m d]
  | .joinExt g d => firstBad [Chk.g g, Chk.m d]
  | .leave d => firstBad [Chk.m d]
  | .leaveExt g d => firstBad [Chk.g g, Chk.m d]
  | .wait a => firstBad [Chk.m a]
  | .waitExt g a => firstBad [Chk.g g, Chk.m a]
  | .yield => firstBad []
  | .trap code => firstBad [Chk.lim code 511]
  | .trapExt g code => firstBad [Chk.g g, Chk.lim code 511]
  | .brk tag => firstBad [Chk.lim tag 511]
  | .resume a => firstBad [Chk.k a]
  | .gsr sr d => firstBad [Chk.lim sr 511, Chk.w (sr64 sr) d]
  | .gsrK sr d => firstBad [Chk.lim sr 511, Chk.k d]
  | .ssr a sr => firstBad [Chk.k a, Chk.lim sr 511]
  | .halt => firstBad []
  | .mset g d b => firstBad [Chk.g g, Chk.m d, Chk.kb b, Chk.lit32 b]
  | .mmov a d => firstBad [Chk.m a, Chk.m d]
  | .mand a d => firstBad [Chk.m a, Chk.m d]
  | .mandExt g d a b => firstBad [Chk.g g, Chk.m d, Chk.m a, Chk.m b]
  | .mor a d => firstBad [Chk.m a, Chk.m d]
  | .morExt g d a b => firstBad [Chk.g g, Chk.m d, Chk.m a, Chk.m b]
  | .mxor a d => firstBad [Chk.m a, Chk.m d]
  | .mxorExt g d a b => firstBad [Chk.g g, Chk.m d, Chk.m a, Chk.m b]
  | .mnot a d => firstBad [Chk.m a, Chk.m d]
  | .mpop a d => firstBad [Chk.m a, Chk.k d]
  | .mfindLo a d => firstBad [Chk.m a, Chk.k d]
  | .mfindHi a d => firstBad [Chk.m a, Chk.k d]
  | .mfindExt g _ d a => firstBad [Chk.g g, Chk.k d, Chk.m a]
  | .pcget d => firstBad [Chk.p d]
  | .pcgetExt g d => firstBad [Chk.g g, Chk.p d]
  | .add t a d => firstBad [Chk.w t.wide a, Chk.w t.wide d]
  | .addExt sat e => firstBad ((!sat || !e.ty.wide, .modifier) :: Chk.int2 false e)
  | .sub t a d => firstBad [Chk.w t.wide a, Chk.w t.wide d]
  | .subExt sat e => firstBad ((!sat || !e.ty.wide, .modifier) :: Chk.int2 false e)
  | .mul t a d => firstBad [Chk.i2 t, Chk.w t.wide a, Chk.w t.wide d]
  | .mulExt e => firstBad (Chk.int2 true e)
  | .mulh t a d => firstBad [Chk.w t.wide a, Chk.w t.wide d]
  | .mulhExt e => firstBad (Chk.int2 false e)
  | .mad e => firstBad (Chk.int3 e)
  | .neg t a d => firstBad [Chk.i2 t, Chk.w t.wide a, Chk.w t.wide d]
  | .negExt e => firstBad (Chk.int1 true e)
  | .abs t a d => firstBad [Chk.i2 t, Chk.w t.wide a, Chk.w t.wide d]
  | .absExt e => firstBad (Chk.int1 true e)
  | .min t a d => firstBad [Chk.w t.wide a, Chk.w t.wide d]
  | .minExt e => firstBad (Chk.int2 false e)
  | .max t a d => firstBad [Chk.w t.wide a, Chk.w t.wide d]
  | .maxExt e => firstBad (Chk.int2 false e)
  | .and t a d => firstBad [Chk.i2 t, Chk.w t.wide a, Chk.w t.wide d]
  | .andExt e => firstBad (Chk.int2 true e)
  | .or t a d => firstBad [Chk.i2 t, Chk.w t.wide a, Chk.w t.wide d]
  | .orExt e => firstBad (Chk.int2 true e)
  | .xor t a d => firstBad [Chk.i2 t, Chk.w t.wide a, Chk.w t.wide d]
  | .xorExt e => firstBad (Chk.int2 true e)
  | .andn t a d => firstBad [Chk.i2 t, Chk.w t.wide a, Chk.w t.wide d]
  | .andnExt e => firstBad (Chk.int2 true e)
  | .not t a d => firstBad [Chk.i2 t, Chk.w t.wide a, Chk.w t.wide d]
  | .notExt e => firstBad (Chk.int1 true e)
  | .shl t a d => firstBad [Chk.i2 t, Chk.w t.wide a, Chk.w t.wide d]
  | .shlExt e => firstBad (Chk.int2 true e)
  | .shr t a d => firstBad [Chk.i2 t, Chk.w t.wide a, Chk.w t.wide d]
  | .shrExt e => firstBad (Chk.int2 true e)
  | .sar t a d => firstBad [Chk.i2 t, Chk.w t.wide a, Chk.w t.wide d]
  | .sarExt e => firstBad (Chk.int2 true e)
  | .rot t a d => firstBad [Chk.i2 t, Chk.w t.wide a, Chk.w t.wide d]
  | .rotExt e => firstBad (Chk.int2 true e)
  | .clz t a d => firstBad [Chk.i2 t, Chk.w t.wide a, Chk.w t.wide d]
  | .clzExt e => firstBad (Chk.int1 true e)
  | .ctz t a d => firstBad [Chk.i2 t, Chk.w t.wide a, Chk.w t.wide d]
  | .ctzExt e => firstBad (Chk.int1 true e)
  | .popc t a d => firstBad [Chk.i2 t, Chk.w t.wide a, Chk.w t.wide d]
  | .popcExt e => firstBad (Chk.int1 true e)
  | .brev t a d => firstBad [Chk.i2 t, Chk.w t.wide a, Chk.w t.wide d]
  | .brevExt e => firstBad (Chk.int1 true e)
  | .bfe e => firstBad (Chk.int2 false e)
  | .bfi e => firstBad (Chk.int3 e)
  | .sel e => firstBad (Chk.sel3 e)
  | .mov t a d => firstBad [Chk.i2 t, Chk.w t.wide a, Chk.w t.wide d]
  | .movExt e => firstBad (Chk.int1 true e)
  | .liLit t d v => firstBad [Chk.i2 t, Chk.w t.wide d, (t.wide || v.toNat < 2 ^ 32, .reserved)]
  | .liExt g t d _ => firstBad [Chk.g g, Chk.i2 t, Chk.w t.wide d]
  | .lea g rt d a b sx sh => firstBad [Chk.g g, Chk.p d, Chk.a true a, Chk.leaB b, (!sx || b.isX, .reserved), Chk.lim sh 15, Chk.rt rt a.isX b.isX false]
  | .cmp _ e => firstBad (Chk.cmp2 e)
  | .shfl _ g rt d a b => firstBad [Chk.g g, Chk.x d, Chk.x a, Chk.b false b, Chk.rt rt true b.isX false]
  | .div t a d => firstBad [Chk.w t.wide a, Chk.w t.wide d]
  | .divExt e => firstBad (Chk.int2 false e)
  | .rem t a d => firstBad [Chk.w t.wide a, Chk.w t.wide d]
  | .remExt e => firstBad (Chk.int2 false e)
  | .kmov a d => firstBad [Chk.k a, Chk.k d]
  | .kliLit d _ => firstBad [Chk.k d]
  | .kliExt g d _ => firstBad [Chk.g g, Chk.k d]
  | .kadd a d => firstBad [Chk.k a, Chk.k d]
  | .kaddExt e => firstBad (Chk.sc2 e)
  | .ksub a d => firstBad [Chk.k a, Chk.k d]
  | .ksubExt e => firstBad (Chk.sc2 e)
  | .kmul a d => firstBad [Chk.k a, Chk.k d]
  | .kmulExt e => firstBad (Chk.sc2 e)
  | .kand a d => firstBad [Chk.k a, Chk.k d]
  | .kandExt e => firstBad (Chk.sc2 e)
  | .kor a d => firstBad [Chk.k a, Chk.k d]
  | .korExt e => firstBad (Chk.sc2 e)
  | .kxor a d => firstBad [Chk.k a, Chk.k d]
  | .kxorExt e => firstBad (Chk.sc2 e)
  | .kshl a d => firstBad [Chk.k a, Chk.k d]
  | .kshlExt e => firstBad (Chk.sc2 e)
  | .kshr a d => firstBad [Chk.k a, Chk.k d]
  | .kshrA a d => firstBad [Chk.k a, Chk.k d]
  | .kshrExt _ e => firstBad (Chk.sc2 e)
  | .kcmp _ _ e => firstBad (Chk.kcmp2 e)
  | .kget g rt d a b => firstBad [Chk.g g, Chk.k d, Chk.x a, Chk.kbNoLit b, Chk.rt rt true false false]
  | .kld g _ d a idx _ => firstBad [Chk.g g, Chk.k d, Chk.k a, Chk.optK idx]
  | .fadd _ a d => firstBad [Chk.x a, Chk.x d]
  | .faddExt _ e => firstBad (Chk.fp2 e)
  | .fsub _ a d => firstBad [Chk.x a, Chk.x d]
  | .fsubExt _ e => firstBad (Chk.fp2 e)
  | .fmul _ a d => firstBad [Chk.x a, Chk.x d]
  | .fmulExt _ e => firstBad (Chk.fp2 e)
  | .ffma _ e => firstBad (Chk.fp3 e)
  | .fmin _ a d => firstBad [Chk.x a, Chk.x d]
  | .fminExt e => firstBad (Chk.fp2 e)
  | .fmax _ a d => firstBad [Chk.x a, Chk.x d]
  | .fmaxExt e => firstBad (Chk.fp2 e)
  | .fabs _ a d => firstBad [Chk.x a, Chk.x d]
  | .fabsExt e => firstBad (Chk.fp1 false e)
  | .fneg _ a d => firstBad [Chk.x a, Chk.x d]
  | .fnegExt e => firstBad (Chk.fp1 false e)
  | .fcmp _ e => firstBad (Chk.fcmp2 e)
  | .frcp t a d => firstBad [Chk.f2 t, Chk.x a, Chk.x d]
  | .frcpExt e => firstBad (Chk.fp1 true e)
  | .frsq t a d => firstBad [Chk.f2 t, Chk.x a, Chk.x d]
  | .frsqExt e => firstBad (Chk.fp1 true e)
  | .fsqrt t a d => firstBad [Chk.f2 t, Chk.x a, Chk.x d]
  | .fsqrtExt _ e => firstBad (Chk.fp1 true e)
  | .fexp2 t a d => firstBad [Chk.f2 t, Chk.x a, Chk.x d]
  | .fexp2Ext e => firstBad (Chk.fp1 true e)
  | .flog2 t a d => firstBad [Chk.f2 t, Chk.x a, Chk.x d]
  | .flog2Ext e => firstBad (Chk.fp1 true e)
  | .fsin t a d => firstBad [Chk.f2 t, Chk.x a, Chk.x d]
  | .fsinExt e => firstBad (Chk.fp1 true e)
  | .fcos t a d => firstBad [Chk.f2 t, Chk.x a, Chk.x d]
  | .fcosExt e => firstBad (Chk.fp1 true e)
  | .ftanh t a d => firstBad [Chk.f2 t, Chk.x a, Chk.x d]
  | .ftanhExt e => firstBad (Chk.fp1 true e)
  | .ffloor _ a d => firstBad [Chk.x a, Chk.x d]
  | .ffloorExt e => firstBad (Chk.fp1 false e)
  | .fceil _ a d => firstBad [Chk.x a, Chk.x d]
  | .fceilExt e => firstBad (Chk.fp1 false e)
  | .frint _ a d => firstBad [Chk.x a, Chk.x d]
  | .frintExt e => firstBad (Chk.fp1 false e)
  | .fscale _ a d => firstBad [Chk.x a, Chk.x d]
  | .fscaleExt _ e => firstBad (Chk.fp2 e)
  | .fclass _ a d => firstBad [Chk.x a, Chk.x d]
  | .fclassExt e => firstBad (Chk.fp1 false e)
  | .fdot2 _ e => firstBad (Chk.fdot3 e)
  | .cvt g d a src dst sel _ _ => firstBad [Chk.g g, Chk.x d, Chk.x a, (src.ok && dst.ok && !(src.isInt && dst.isInt), .word2), (cvtSelOk src dst sel, .word2), Chk.lim sel 7]
  | .qnt e => firstBad (Chk.cvs true true e)
  | .dqn e => firstBad (Chk.cvs false true e)
  | .cbx _ e => firstBad (Chk.cvs false true e)
  | .scl e => firstBad ((e.wide == .f32, .word2) :: Chk.cvs false false e)
  | .pack4 e => firstBad (Chk.cvs false false e)
  | .unpack4 e => firstBad (Chk.cvs false false e)
  | .ld w _ a d => firstBad [(w != .e2m1, .minor), Chk.p a, Chk.w w.wide d]
  | .ldExt w _ _ d e => firstBad ((w != .e2m1, .minor) :: Chk.w w.wide d :: Chk.mem e)
  | .st w _ a d => firstBad [(w != .ui8, .minor), Chk.p a, Chk.w w.wide d]
  | .stExt w _ _ d e => firstBad ((w != .ui8, .minor) :: Chk.w w.wide d :: Chk.mem e)
  | .ldv wide _ d e => firstBad ((!wide || d ≤ 508, .pair) :: Chk.p d :: Chk.mem e)
  | .vset g rt d a b => firstBad [Chk.g g, Chk.m d, Chk.a true a, Chk.x b, Chk.rt rt a.isX true false]
  | .prf _ a => firstBad [Chk.p a]
  | .prfExt _ e => firstBad (Chk.mem e)
  | .flush a => firstBad [Chk.p a]
  | .flushExt e => firstBad (Chk.mem e)
  | .inv a => firstBad [Chk.p a]
  | .invIp a => firstBad [Chk.p a]
  | .invExt _ e => firstBad (Chk.mem e)
  | .atm op e => firstBad ((op.valued, .minor) :: Chk.w op.wide e.d :: Chk.w op.wide e.b :: Chk.atm true false e)
  | .cas wide e c => firstBad (Chk.w wide e.d :: Chk.w wide e.b :: Chk.w wide c :: Chk.atm true true e)
  | .casv wide e c => firstBad (Chk.x e.d :: Chk.x e.b :: Chk.w wide c :: Chk.atm true true e)
  | .binc e => firstBad (Chk.x e.d :: Chk.x e.b :: Chk.atm true false e)
  | .winc e => firstBad (Chk.x e.d :: Chk.x e.b :: Chk.atm true false e)
  | .dgz e => firstBad (Chk.x e.d :: (e.b == 0, .reserved) :: Chk.atm false false e)
  | .addl e => firstBad (Chk.p e.d :: Chk.x e.b :: Chk.atm true false e)
  | .red op e => firstBad ((op.reducing, .minor) :: (e.ord == .none || e.ord == .rel, .ordering) :: (e.d == 0, .reserved) :: Chk.w op.wide e.b :: Chk.atm true false e)
  | .fence g ord _ => firstBad [Chk.g g, (ord != .none, .ordering)]
  | .fenceL g _ => firstBad [Chk.g g]
  | .fenceR g sc => firstBad [Chk.g g, (sc != .wp && sc != .sy, .scope)]
  | .xfence g _ p q => firstBad [Chk.g g, (p != q, .word2)]
  | .bar id => firstBad [Chk.lim id 15]
  | .barA id => firstBad [Chk.lim id 15]
  | .barW id => firstBad [Chk.lim id 15]
  | .barExt g kind id exp cnt => firstBad [Chk.g g, Chk.lim id 15, Chk.lim exp 64, (if kind == .wait then exp == 0 && cnt == 0 else 1 ≤ cnt && cnt ≤ 64, .word2)]
  | .rgn g b => firstBad [Chk.g g, Chk.lim b 32]
  | .poll g rt _ d a b bo _ _ _ => firstBad [Chk.g g, Chk.x d, Chk.a true a, Chk.x b, Chk.lim bo 10, Chk.rt rt a.isX true false]
  | .mwait g rt _ d a b _ => firstBad [Chk.g g, Chk.p d, Chk.a true a, Chk.p b, Chk.rt rt a.isX true false]
  | .twany a d => firstBad [Chk.k a, Chk.k d]
  | .twanyExt g d b => firstBad [Chk.g g, Chk.k d, Chk.kb b]
  | .twall a d => firstBad [Chk.k a, Chk.k d]
  | .twallExt g d b => firstBad [Chk.g g, Chk.k d, Chk.kb b]
  | .tff a d => firstBad [Chk.k a, Chk.k d]
  | .tffExt g d b => firstBad [Chk.g g, Chk.k d, Chk.kb b]
  | .bld g slot _ a b c set => firstBad ([Chk.g g, Chk.lim slot 7, Chk.k a, Chk.k b, Chk.k c] ++ Chk.mset set)
  | .mmx e => firstBad (Chk.mm e)
  | .mmq e => firstBad (Chk.mm e)
  | .mmo g d a set => firstBad ([Chk.g g, Chk.k d, Chk.k a] ++ Chk.mset set)
  | .cdecl g d b => firstBad [Chk.g g, Chk.cv d, Chk.kbNoLit b]
  | .csig g d => firstBad [Chk.g g, Chk.cv d]
  | .abkGet g d => firstBad [Chk.g g, Chk.k d]
  | .abkPut g a => firstBad [Chk.g g, Chk.k a]
  | .accLd g slot _ d a b tag => firstBad [Chk.g g, Chk.lim slot 7, Chk.k d, Chk.k a, Chk.k b, Chk.lim tag 64]
  | .accSt g slot _ d a b tag => firstBad [Chk.g g, Chk.lim slot 7, Chk.k d, Chk.k a, Chk.k b, Chk.lim tag 64]
  | .accZ g d => firstBad [Chk.g g, Chk.k d]
  | .cpy g d a b c tag sh dh ss ds => firstBad [Chk.g g, Chk.k d, Chk.k a, Chk.k b, Chk.k c, Chk.lim tag 64, (!(sh && ss) && !(dh && ds), .word2)]
  | .cpw g d a b tag lb => firstBad [Chk.g g, Chk.k d, Chk.k a, Chk.k b, Chk.lim tag 63, Chk.lim lb 3]
  | .cps g d a b c tag _ _ => firstBad [Chk.g g, Chk.k d, Chk.k a, Chk.k b, Chk.k c, Chk.lim tag 64]
  | .coll g a _ => firstBad [Chk.g g, Chk.k a]
  | .rsum g a b _ _ => firstBad [Chk.g g, Chk.k a, Chk.k b]
  | .rinv g d a b hidx narg cls => firstBad [Chk.g g, Chk.k d, Chk.k a, Chk.k b, Chk.lim hidx 4095, Chk.lim narg 6, Chk.lim cls 3, (b + narg ≤ 64 && (narg != 0 || b == 0), .word2)]
  | .rinvT g d a b hidx narg cls => firstBad [Chk.g g, Chk.k d, Chk.k a, Chk.k b, Chk.lim hidx 4095, Chk.lim narg 6, Chk.lim cls 3, (b + narg ≤ 64 && (narg != 0 || b == 0), .word2)]
  | .launch g a q => firstBad [Chk.g g, Chk.k a, Chk.lim q 15]
  | .post g a _ => firstBad [Chk.g g, Chk.k a]
  | .postQueue g d a => firstBad [Chk.g g, (4 ≤ d && d ≤ 15, .register), Chk.k a]
  | .fget g d a => firstBad [Chk.g g, Chk.k d, Chk.k a]
  | .fgetQueue g d a => firstBad [Chk.g g, (2 ≤ a && a ≤ 15, .register), (d ≤ 63 && (a != 3 || d % 8 == 0), .register)]
  | .fput g d a b => firstBad [Chk.g g, Chk.k d, Chk.k a, Chk.k b]
  | .phase id => firstBad [Chk.lim id 511]
  | .phaseExt g id => firstBad [Chk.g g, Chk.lim id 511]
  | .intent g a lead _ => firstBad [Chk.g g, Chk.k a, Chk.lim lead 65535]
  | .rblkAcq g d n _ => firstBad [Chk.g g, Chk.k d, (1 ≤ n && n ≤ 8, .word2)]
  | .rblkRel g n => firstBad [Chk.g g, (1 ≤ n && n ≤ 8, .word2)]
  | .illegalEncoding => none
  | .powerGoodBoot _ _ _ _ => none
  | .coreCycle _ => none
  | .urgentWarp _ _ => none
  | .fairnessTurn _ => none
  | .turnTimeout _ => none
  | .dieBucketCycle _ => none
  | .govTick => none
  | .eptCalibration _ => none
  | .bankMonitorSample _ _ _ => none
  | .intentLapse _ _ => none
  | .writeAssistChange _ _ _ => none
  | .shadowLatchReplay _ => none
  | .timerCompare _ => none
  | .localWaitWatchdog _ _ => none
  | .extwaitTimeout _ => none
  | .pollReread _ _ => none
  | .mwaitWake _ _ => none
  | .fgetRetry _ => none
  | .futureReenqueue _ _ => none
  | .warpRetire _ => none
  | .blockRetire _ => none
  | .gridComplete _ => none
  | .preemption _ => none
  | .switchIn _ => none
  | .trapHandlerStart _ => none
  | .engineFault _ _ _ _ _ => none
  | .copyEnginePop _ => none
  | .copyComplete _ _ => none
  | .matrixPass _ => none
  | .matrixOpComplete _ => none
  | .bankZeroComplete _ _ => none
  | .collEnginePop _ => none
  | .reductionContribution _ => none
  | .rsumTimeout _ _ _ => none
  | .collectiveChunk _ _ _ _ _ => none
  | .collPointReport _ _ _ _ => none
  | .collEndStatus _ _ _ => none
  | .collPointTimeout _ _ _ => none
  | .launchTriggerEnqueue _ _ => none
  | .launchAccept _ => none
  | .queueSwitch _ => none
  | .childLaunchAccept _ _ => none
  | .groupPlacement _ _ => none
  | .continuationDispatch _ => none
  | .remoteInvocation _ => none
  | .invocationAnswer _ _ _ => none
  | .handlerAssign _ => none
  | .overflowRingMove _ _ _ => none
  | .lineReadRequest _ _ => none
  | .lineReadResponse _ _ _ _ => none
  | .ownershipRequest _ _ => none
  | .recall _ => none
  | .leaseReturn _ _ => none
  | .leaseReturnWithData _ _ _ _ => none
  | .leaseIdleReturn _ => none
  | .leaseDeadlineReturn _ => none
  | .leaseLapse _ => none
  | .committedLineWrite _ _ _ _ _ => none
  | .atomicRequest _ => none
  | .atomicResponse _ _ _ => none
  | .paddockGridGroup _ _ _ _ => none
  | .groupRetired _ _ => none
  | .powerIntent _ _ _ => none
  | .failureNotice _ => none
  | .linkFailure _ _ _ => none
  | .hostMemoryAccess _ _ _ => none
  | .dramUe _ _ => none
  | .l2CleanUe _ => none
  | .l2DirtyUeContainment _ _ _ => none
  | .regCacheUe _ _ _ => none
  | .spadAccUe _ _ => none
  | .macroParityError _ _ => none
  | .l1ParityError _ _ _ => none
  | .tlbParityError _ _ _ => none
  | .deviceFatalError _ => none
  | .patrolScrubRead _ _ => none
  | .mmuInvalidate _ => none
  | .mmuInvalidateDone => none
  | .pgretRelease _ => none
  | .fltKill _ => none
  | .debugStop => none
  | .debugRestart => none
  | .debugStopComplete => none
  | .dbgRegw _ => none
  | .measExtend _ _ => none
  | .memTrainStep _ _ => none
  | .memTrainStepDone _ _ => none
  | .fptTrainStart _ _ _ => none
  | .fptPortOff _ _ _ => none
  | .fptTrainingProgress _ _ _ _ _ _ _ => none
  | .lqTailWrite _ _ => none
  | .lqCfgWrite _ _ => none
  | .phsCtxWrite _ _ => none
  | .bootRunSet => none
  | .svcDoorWrite _ _ _ => none
  | .svcTick => none
  | .haltWake _ => none
  | .registerWrite _ _ _ _ => none
  | .loadCompletion _ _ => none
  | .linkLevelReplay _ _ => none
  | .measExtendDone => none
  | .terminationComplete => none

/-- An instruction the hardware has an encoding for with these operands (R19 to R23). -/
abbrev Instr.wf (i : Instr) : Prop := wfError i = none

end Sys2Proof
end

