-- ==== Sys2Proof/Machine/Formats.lean ====
section
/-!
DEFINITION. Machine/Formats.lean: element formats, conversions, scales, format slots, the CB16 codebook and outliers
(spec/03_numbers.md R64 to R86; spec/05_isa_vector_convert.md R150 to R159).
-/

namespace Sys2Proof.Machine

open Sys2Proof.Machine.Fp

/-- The floating-point format of an element format code (R65); `none` for the integer formats and CB16. -/
def floatFmt : Nat → Option Fmt
  | 0 => some f32
  | 1 => some bf16
  | 2 => some f16
  | 3 => some e4m3
  | 4 => some e5m2
  | 5 => some e2m1
  | _ => none

/-- Range of the integer element formats (R66); (0, 0) for the others. -/
def intRange : Nat → Int × Int
  | 6 => (-128, 127)
  | 7 => (-8, 7)
  | 9 => (0, 255)
  | _ => (0, 0)

/-- Range of a 32-bit integer format of `cvt` or of an element format. -/
def fmtRange : CvtFmt → Int × Int
  | .s32 => (-(2 ^ 31), 2 ^ 31 - 1)
  | .u32 => (0, 2 ^ 32 - 1)
  | .elem c => intRange c

/-- An integer as an exact value. -/
def intVal (v : Int) : Val := .fin (v < 0) v.natAbs 1

/-- The exact value of an element's bits (R65, R66). -/
def fmtValue (f : CvtFmt) (bits : Nat) : Val :=
  match f with
  | .s32 => intVal (BitVec.ofNat 32 bits).toInt
  | .u32 => intVal bits
  | .elem c =>
    match floatFmt c with
    | some g => g.value bits
    | none => if c = 9 then intVal bits else intVal (BitVec.ofNat (elemBits c) bits).toInt

/-- A value rounded to an integer by RND and clamped; NaN gives 0, an infinity the end of the range (R81). -/
def toIntClamp (lo hi : Int) (rm : Rm) : Val → Int
  | .nan => 0
  | .inf s => if s then lo else hi
  | .fin s n d =>
    let m : Int := roundNat rm s n d
    Integer.clamp lo hi (if s then -m else m)

/-- Convert of a value into a floating-point format (R80): `ovf` is OVF. -/
def toFloatFmt (g : Fmt) (rm : Rm) (ovf : Bool) : Val → Nat
  | .nan => g.nan
  | .inf s =>
    match g.top with
    | .e4m3 => if ovf then g.nan else g.signBit s + g.maxCode
    | _ => g.infinite s
  | .fin s n d =>
    if ovf then g.roundFin rm s n d
    else g.signBit s + min (g.roundMag rm s n d) g.maxCode

/-- Convert(value, dst, RND, OVF): the destination's bits (R80, R81). -/
def convertVal (dst : CvtFmt) (rm : Rm) (ovf : Bool) (v : Val) : Nat :=
  match dst with
  | .s32 => (Integer.narrow 32 (toIntClamp (fmtRange .s32).1 (fmtRange .s32).2 rm v)).toNat
  | .u32 => (Integer.narrow 32 (toIntClamp 0 (2 ^ 32 - 1) rm v)).toNat
  | .elem c =>
    match floatFmt c with
    | some g => toFloatFmt g rm ovf v
    | none => (Integer.narrow (elemBits c) (toIntClamp (intRange c).1 (intRange c).2 rm v)).toNat

/-- Convert(e, src, dst, RND, OVF) on element bits (R80 to R82). -/
def convert (src dst : CvtFmt) (rm : Rm) (ovf : Bool) (e : Nat) : Nat := convertVal dst rm ovf (fmtValue src e)

/-- Field of n bits at position p of a number. -/
def field (v p n : Nat) : Nat := v / 2 ^ p % 2 ^ n

/-- v with its n-bit field at p replaced. -/
def setField (v p n x : Nat) : Nat := v - field v p n * 2 ^ p + (x % 2 ^ n) * 2 ^ p

/-- cvt on one lane: n elements between the whole register and field SEL of the narrow side (R151). -/
def cvtLane (src dst : CvtFmt) (sel : Nat) (ovf : Bool) (rm : Rm) (a d : Word) : Word :=
  let ws := src.bits
  let wd := dst.bits
  let n := 32 / max ws wd
  BitVec.ofNat 32 ((List.range n).foldl (fun acc j =>
    let e := if wd ≤ ws then field a.toNat (j * ws) ws else field a.toNat (sel * n * ws + j * ws) ws
    let v := convert src dst rm ovf e
    if ws ≤ wd then setField acc (j * wd) wd v else setField acc (sel * n * wd + j * wd) wd v) d.toNat)

/-! ### Scales (R69 to R71) -/

/-- A decoded scale: the NaN code, zero, or a positive num / den. -/
inductive Scale where
  | nan
  | zero
  | pos (num den : Nat)
  deriving DecidableEq, Repr

/-- The scale value of a code, by slot scale format: 0 none, 1 E8M0, 2 E4M3 (R69). -/
def scaleValue (sf code : Nat) : Scale :=
  match sf with
  | 0 => .pos 1 1
  | 1 => if code = 0xFF then .nan else let p := pow2 ((code : Int) - 127); .pos p.1 p.2
  | _ =>
    if 0x7F ≤ code then .nan
    else match e4m3.value code with
      | .fin _ n d => if n = 0 then .zero else .pos n d
      | _ => .nan

/-- emax of a destination format (R65, R66). -/
def fmtEmax : Nat → Int
  | 0 => 127
  | 1 => 127
  | 2 => 15
  | 3 => 8
  | 4 => 15
  | 5 => 2
  | 6 => 6
  | 9 => 7
  | 7 => 2
  | _ => 0

/-- The destination's largest finite value, as a fraction (R71). -/
def fmtMaxFinite (c : Nat) : Nat × Nat :=
  match floatFmt c with
  | some g =>
    match g.value g.maxCode with
    | .fin _ n d => (n, d)
    | _ => (1, 1)
  | none => ((intRange c).2.toNat, 1)

/-- The larger of two magnitudes. -/
def magMax (a b : Nat × Nat) : Nat × Nat := if a.1 * b.2 < b.1 * a.2 then b else a

/-- amax: the largest finite magnitude of a block (R71). -/
def amax (vs : List Val) : Nat × Nat :=
  vs.foldl (fun m v => match v with
    | .fin _ n d => magMax m (n, d)
    | _ => m) (0, 1)

/-- The NaN code of a scale format (R71). -/
def scaleNaN (sf : Nat) : Nat := if sf = 1 then 0xFF else 0x7F

/-- The scale code of an amax for destination format c (R71). -/
def scaleCode (sf c : Nat) (a : Nat × Nat) : Nat :=
  if sf = 1 then
    if a.1 = 0 then 0x7F
    else (Integer.clamp (-127) 127 (log2Floor a.1 a.2 - fmtEmax c) + 127).toNat
  else if a.1 = 0 then 0x38
  else
    let m := fmtMaxFinite c
    min (e4m3.roundMag .ru false (a.1 * m.2) (a.2 * m.1)) e4m3.maxCode

/-- A destination element format that has no NaN (R71). -/
def noNaNFmt (c : Nat) : Bool := 5 ≤ c

/-- v / s for a positive scale, exact. -/
def divScale (v : Val) (num den : Nat) : Val :=
  match v with
  | .fin s n d => .fin s (n * den) (d * num)
  | w => w

/-- v · s for a positive scale, exact. -/
def mulScale (v : Val) (num den : Nat) : Val :=
  match v with
  | .fin s n d => .fin s (n * num) (d * den)
  | w => w

/-- An outlier of `qnt`: infinite, or beyond the destination's largest finite magnitude after rounding by RND; for the
integer formats outside their range (R83, R154). -/
def isOutlier (c : Nat) (rm : Rm) : Val → Bool
  | .nan => false
  | .inf _ => true
  | .fin s n d =>
    match floatFmt c with
    | some g => g.maxCode < g.roundMag rm s n d
    | none =>
      let m : Int := roundNat rm s n d
      let v := if s then -m else m
      v < (intRange c).1 || (intRange c).2 < v

/-! ### Format slots (R76 to R79) -/

/-- The fields of a 16-byte format slot (R76). -/
structure Slot where
  elem : Nat
  scale : Nat
  block : Nat
  policy : Nat
  planes : Nat
  sparse : Nat
  res : Nat
  aux : Nat
  deriving DecidableEq, Repr

/-- Little-endian number of bytes. -/
def leNat : List Byte → Nat
  | [] => 0
  | b :: rest => b.toNat + 256 * leNat rest

/-- n bytes of a number, little-endian. -/
def leBytes : Nat → Nat → List Byte
  | 0, _ => []
  | n + 1, v => BitVec.ofNat 8 v :: leBytes n (v / 256)

/-- A run of bytes of a record as a number. -/
def leAt (bs : List Byte) (off n : Nat) : Nat := leNat ((bs.drop off).take n)

/-- Slot n of a launch record: 16 bytes at 0x40 + 16·n (R76). -/
def slotOf (record : List Byte) (n : Nat) : Slot :=
  let b (i : Nat) : Nat := leAt record (0x40 + 16 * n + i) 1
  { elem := b 0, scale := b 1, block := b 2, policy := b 3, planes := b 4, sparse := b 5,
    res := leAt record (0x40 + 16 * n + 6) 2, aux := leAt record (0x40 + 16 * n + 8) 8 }

namespace Slot

def rnd (s : Slot) : Rm :=
  match s.policy % 4 with
  | 0 => .rne
  | 1 => .rz
  | 2 => .rd
  | _ => .ru

def ovf (s : Slot) : Bool := s.policy / 4 % 2 == 1
def outl (s : Slot) : Bool := s.policy / 8 % 2 == 1
def otrap (s : Slot) : Bool := s.policy / 16 % 2 == 1
def scm (s : Slot) : Bool := s.policy / 32 % 2 == 1

/-- The fields that must be zero in every role (R78), and a scale code that exists (R69). -/
def base (s : Slot) : Bool := s.res == 0 && s.policy / 64 == 0 && s.scale ≤ 2 && s.elem ≤ 9

/-- A destination or source of `qnt` and `dqn` (R153). -/
def convElem (c : Nat) : Bool := 1 ≤ c && c ≤ 7 || c == 9

def blockOk (s : Slot) : Bool := s.block == 8 || s.block == 24 || s.block == 96

/-- Legal for `qnt` (R153, R83). -/
def qntOk (s : Slot) : Bool :=
  s.base && convElem s.elem && s.blockOk && (!s.outl || (s.aux != 0 && s.aux % 64 == 0))

/-- Legal for `dqn` (R156). -/
def dqnOk (s : Slot) : Bool := s.base && convElem s.elem && s.blockOk && !s.outl

/-- Legal for `cbx` (R157, R74). -/
def cbxOk (s : Slot) : Bool := s.base && s.elem == 8 && s.aux != 0 && s.aux % 128 == 0

/-- Legal for `scl` (R158): every field but ELEM and SCALE is ignored, save those that must be zero (R78). -/
def sclOk (s : Slot) : Bool := s.base && convElem s.elem && s.scale != 0

/-- Legal for `pack4` and `unpack4` (R159). -/
def pack4Ok (s : Slot) : Bool := s.base && (s.elem == 5 || s.elem == 7) && s.scale == 0 && !s.outl

/-- Legal in the A role of a matrix instruction: minimum P by format (R79). -/
def aRoleOk (s : Slot) : Bool :=
  let minP := match s.elem with
    | 1 => 8
    | 2 => 8
    | 3 => 8
    | 4 => 8
    | 5 => 4
    | 6 => 8
    | 7 => 4
    | 9 => 12
    | _ => 99
  s.base && s.scale ≤ 1 && s.block == 24 && s.policy == 0 && minP ≤ s.planes &&
    (s.planes == 4 || s.planes == 8 || s.planes == 12 || s.planes == 16)

/-- Cell width of the B role (R79); 0 where the format is illegal. -/
def cellWidth (c : Nat) : Nat :=
  match c with
  | 1 => 16
  | 2 => 16
  | 3 => 16
  | 4 => 16
  | 5 => 8
  | 6 => 8
  | 7 => 4
  | 8 => 8
  | 9 => 16
  | _ => 0

/-- Legal in the B role (R79); CB16 needs its base table (R74). -/
def bRoleOk (s : Slot) : Bool :=
  s.base && s.scale ≤ 1 && s.block == 24 && s.policy == 0 && cellWidth s.elem != 0 &&
    (s.sparse == 0 || s.sparse == 8 || s.sparse == 16 || (s.sparse == 12 && s.elem != 8)) &&
    (s.elem != 8 || (s.aux != 0 && s.aux % 128 == 0))

/-- Legal for `acc.ld` (R203). -/
def accLdOk (s : Slot) : Bool := s.base && s.elem ≤ 2 && s.scale == 0 && s.policy == 0

/-- Legal for `acc.st` (R203). -/
def accStOk (s : Slot) : Bool := s.base && s.elem ≤ 4 && s.scale == 0 && !s.outl

end Slot

/-! ### Elements in registers (R67, R132, R152) -/

/-- Element e of width w in a run of 32-bit words. -/
def runElem (ws : List Word) (w e : Nat) : Nat := field ((ws.getD (e * w / 32) 0).toNat) (e * w % 32) w

/-- 32-bit words that hold n elements of width w, element e in word e·w/32. -/
def packRun (w n : Nat) (f : Nat → Nat) : List Word :=
  let per := 32 / w
  (List.range (n * w / 32)).map fun r =>
    BitVec.ofNat 32 ((List.range per).foldl (fun acc j => acc + (f (r * per + j) % 2 ^ w) * 2 ^ (w * j)) 0)

/-- Format code of the wide side (R152). -/
def Wide.elemCode : Wide → Nat
  | .f32 => 0
  | .bf16 => 1
  | .f16 => 2

/-- What `qnt` computes for one lane (R154 step 1): element codes, the scale code, and which elements are outliers. -/
structure Quantized where
  code : List Nat
  scale : Nat
  outliers : List Nat
  deriving DecidableEq, Repr

/-- qnt on the exact values of one block; `supplied` is the scale register's code (R71, R83, R154). -/
def quantize (s : Slot) (vs : List Val) (supplied : Nat) : Quantized :=
  let hasNaN := vs.any Val.isNan && noNaNFmt s.elem
  let code :=
    if s.scale = 0 then 0
    else if s.scm then supplied
    else if hasNaN then scaleNaN s.scale
    else scaleCode s.scale s.elem (amax vs)
  let sv := scaleValue s.scale code
  let zeroed := s.scale != 0 && (hasNaN || sv == .nan)
  let outCode := if s.scale != 0 && hasNaN then scaleNaN s.scale else code
  let each (v : Val) : Nat × Bool :=
    if zeroed then (0, false)
    else match sv with
      | .pos n d =>
        let q := divScale v n d
        if s.outl && isOutlier s.elem s.rnd q then (0, true)
        else (convertVal (.elem s.elem) s.rnd s.ovf q, false)
      | _ => (0, false)
  let rs := vs.map each
  { code := rs.map (·.1), scale := outCode,
    outliers := (List.range vs.length).filter fun e => (rs.getD e (0, false)).2 }

/-- dqn of one element (R156). -/
def dequantize (s : Slot) (sv : Scale) (dst : Nat) (e : Nat) : Nat :=
  match fmtValue (.elem s.elem) e, sv with
  | .nan, _ => convertVal (.elem dst) s.rnd s.ovf .nan
  | _, .nan => convertVal (.elem dst) s.rnd s.ovf .nan
  | _, .zero => 0
  | v, .pos n d => convertVal (.elem dst) s.rnd s.ovf (mulScale v n d)

/-! ### The CB16 codebook (R73 to R75) -/

/-- Twice the weight j of a code with its base-table entry: the cell, −15 to 15 (R75). -/
def cb16Cell (code entry : Nat) (j : Nat) : Int :=
  let sgn (i : Nat) : Nat := code / 2 ^ (i + 1) % 2
  let s7 := (sgn 0 + sgn 1 + sgn 2 + sgn 3 + sgn 4 + sgn 5 + sgn 6 + entry / 2 ^ 24 % 2) % 2
  let s := if j = 7 then s7 else sgn j
  let m : Int := 2 * (entry / 2 ^ (3 * j) % 8 : Nat) + (code % 2 : Nat)
  if s = 1 then -m else m

/-- Weight j as an exact value: half the cell. A zero weight is +0, "whatever its sign" (R75). -/
def cb16Weight (code entry : Nat) (j : Nat) : Val :=
  let c := cb16Cell code entry j
  .fin (c < 0) c.natAbs 2

/-- cbx of one weight (R157). -/
def cbxElem (s : Slot) (sv : Scale) (dst : Nat) (w : Val) : Nat :=
  match sv with
  | .nan => convertVal (.elem dst) s.rnd s.ovf .nan
  | .zero => 0
  | .pos n d => convertVal (.elem dst) s.rnd s.ovf (mulScale w n d)

/-- scl: the scale code of an FP32 amax (R158). -/
def sclCode (s : Slot) (a : Nat) : Nat :=
  match f32.value (a % 2 ^ 31) with
  | .nan => scaleNaN s.scale
  | .inf _ => if s.scale = 1 then 0xFE else 0x7E
  | .fin _ n d => scaleCode s.scale s.elem (n, d)

end Sys2Proof.Machine
end

