-- ==== Sys2Proof/Decode.lean ====
section
/-!
DEFINITION. Decode.lean: the instruction words of spec/01_encoding.md R14 to R23 and spec/02_opcode_map.md: the fields of
the words, the instruction each names, the encoder, and the decoder over words and bytes, which refuses by name.
A candidate instruction is accepted when its operands are legal and it is exactly what the words say, so that no res0 bit
passes (R19).
-/

namespace Sys2Proof

/-- The fields of an instruction (R14 to R17). In base forms `f` is the minor function, in extended forms the guard; the
word 1 fields of a base form, word 2 and the literal are 0 where the form has none. -/
structure Raw where
  len : Nat := 0
  f : Nat := 0
  a : Nat := 0
  d : Nat := 0
  op : Nat := 0
  ka : Nat := 0
  ib : Nat := 0
  m3 : Nat := 0
  ret : Nat := 0
  slot : Nat := 0
  minor : Nat := 0
  c : Nat := 0
  b : Nat := 0
  w2 : Nat := 0
  lit : Nat := 0
  deriving DecidableEq, Repr

/-- Bit n of a word held as a number. -/
def bitN (v n : Nat) : Bool := v / 2 ^ n % 2 == 1

/-! ### Codes of the shared sets (R50 to R52, R59, R60) -/

def IntTy.code : IntTy → Nat
  | .i32 => 0
  | .i64 => 1
  | .ui32 => 2

def IntTy.ofCode : Nat → Option IntTy
  | 0 => some .i32
  | 1 => some .i64
  | 2 => some .ui32
  | _ => none

def FTy.code : FTy → Nat
  | .f32 => 0
  | .f16x2 => 1
  | .bf16 => 2
  | .f16 => 3

def FTy.ofCode : Nat → Option FTy
  | 0 => some .f32
  | 1 => some .f16x2
  | 2 => some .bf16
  | 3 => some .f16
  | _ => none

def Rm.code : Rm → Nat
  | .rne => 0
  | .rz => 1
  | .rd => 2
  | .ru => 3

def Rm.ofCode : Nat → Option Rm
  | 0 => some .rne
  | 1 => some .rz
  | 2 => some .rd
  | 3 => some .ru
  | _ => none

def Cc.code : Cc → Nat
  | .eq => 0
  | .ne => 1
  | .lt => 2
  | .le => 3
  | .gt => 4
  | .ge => 5

def Cc.ofCode : Nat → Option Cc
  | 0 => some .eq
  | 1 => some .ne
  | 2 => some .lt
  | 3 => some .le
  | 4 => some .gt
  | 5 => some .ge
  | _ => none

def Fc.code : Fc → Nat
  | .eq => 0
  | .ne => 1
  | .lt => 2
  | .le => 3
  | .gt => 4
  | .ge => 5
  | .uo => 6
  | .ord => 7

def Fc.ofCode : Nat → Option Fc
  | 0 => some .eq
  | 1 => some .ne
  | 2 => some .lt
  | 3 => some .le
  | 4 => some .gt
  | 5 => some .ge
  | 6 => some .uo
  | 7 => some .ord
  | _ => none

def Scope.code : Scope → Nat
  | .wp => 0
  | .bk => 1
  | .yd => 2
  | .di => 3
  | .dv => 4
  | .pk => 5
  | .sy => 6

def Scope.ofCode : Nat → Option Scope
  | 0 => some .wp
  | 1 => some .bk
  | 2 => some .yd
  | 3 => some .di
  | 4 => some .dv
  | 5 => some .pk
  | 6 => some .sy
  | _ => none

def Ord.code : Ord → Nat
  | .none => 0
  | .acq => 1
  | .rel => 2
  | .ar => 3

def Ord.ofCode : Nat → Option Ord
  | 0 => some .none
  | 1 => some .acq
  | 2 => some .rel
  | 3 => some .ar
  | _ => none

def MemW.code : MemW → Nat
  | .i8 => 0
  | .ui8 => 1
  | .w16 => 2
  | .w32 => 3
  | .w64 => 4
  | .e2m1 => 5

def MemW.ofCode : Nat → Option MemW
  | 0 => some .i8
  | 1 => some .ui8
  | 2 => some .w16
  | 3 => some .w32
  | 4 => some .w64
  | 5 => some .e2m1
  | _ => none

def AtmOp.code : AtmOp → Nat
  | .add32 => 0
  | .add64 => 1
  | .minI => 2
  | .minU => 3
  | .maxI => 4
  | .maxU => 5
  | .and => 6
  | .or => 7
  | .xor => 8
  | .exch32 => 9
  | .exch64 => 10
  | .addF32 => 11
  | .addF16x2 => 12
  | .addBf16 => 13

def AtmOp.ofCode : Nat → Option AtmOp
  | 0 => some .add32
  | 1 => some .add64
  | 2 => some .minI
  | 3 => some .minU
  | 4 => some .maxI
  | 5 => some .maxU
  | 6 => some .and
  | 7 => some .or
  | 8 => some .xor
  | 9 => some .exch32
  | 10 => some .exch64
  | 11 => some .addF32
  | 12 => some .addF16x2
  | 13 => some .addBf16
  | _ => none

def Shfl.code : Shfl → Nat
  | .idx => 0
  | .up => 1
  | .dn => 2
  | .bfly => 3

def Shfl.ofCode : Nat → Option Shfl
  | 0 => some .idx
  | 1 => some .up
  | 2 => some .dn
  | 3 => some .bfly
  | _ => none

def Prf.code : Prf → Nat
  | .l1 => 0
  | .l2 => 1
  | .q => 2

def Prf.ofCode : Nat → Option Prf
  | 0 => some .l1
  | 1 => some .l2
  | 2 => some .q
  | _ => none

def BarKind.code : BarKind → Nat
  | .both => 0
  | .arrive => 1
  | .wait => 2

def BarKind.ofCode : Nat → Option BarKind
  | 0 => some .both
  | 1 => some .arrive
  | 2 => some .wait
  | _ => none

def Path.code : Path → Nat
  | .core => 0
  | .copy => 1
  | .mfetch => 2
  | .coll => 3
  | .rinv => 4

def Path.ofCode : Nat → Option Path
  | 0 => some .core
  | 1 => some .copy
  | 2 => some .mfetch
  | 3 => some .coll
  | 4 => some .rinv
  | _ => none

def Wide.code : Wide → Nat
  | .f32 => 0
  | .bf16 => 1
  | .f16 => 2

def Wide.ofCode : Nat → Option Wide
  | 0 => some .f32
  | 1 => some .bf16
  | 2 => some .f16
  | _ => none

def Ret.code : Ret → Nat
  | .none => 0
  | .a => 1
  | .b => 2
  | .c => 3

def Ret.ofCode (n : Nat) : Ret := match n with
  | 0 => .none
  | 1 => .a
  | 2 => .b
  | _ => .c

def Spc.code : Spc → Nat
  | .g => 0
  | .s => 1

def Spc.ofBit (n : Nat) : Spc := if n = 0 then .g else .s

/-! ### Operands to fields and back -/

def SrcA.num : SrcA → Nat
  | .x n => n
  | .k n => n

def SrcA.ka : SrcA → Nat
  | .x _ => 0
  | .k _ => 1

def SrcB.len : SrcB → Nat
  | .lit _ => 3
  | _ => 1

def SrcB.ib : SrcB → Nat
  | .imm _ => 1
  | _ => 0

def SrcB.num : SrcB → Nat
  | .x n => n
  | _ => 0

def SrcB.w2 : SrcB → Nat
  | .imm v => v.toNat
  | _ => 0

def SrcB.litv : SrcB → Nat
  | .lit v => v.toNat
  | _ => 0

def KSrc.len : KSrc → Nat
  | .lit _ => 3
  | _ => 1

def KSrc.ib : KSrc → Nat
  | .imm _ => 1
  | _ => 0

def KSrc.num : KSrc → Nat
  | .k n => n
  | _ => 0

def KSrc.w2 : KSrc → Nat
  | .imm v => v.toNat
  | _ => 0

def KSrc.litv : KSrc → Nat
  | .lit v => v.toNat
  | _ => 0

namespace Raw

def srcA (r : Raw) : SrcA := if r.ka = 1 then .k r.a else .x r.a

def srcB (r : Raw) : SrcB :=
  if r.len = 3 then .lit (BitVec.ofNat 64 r.lit) else if r.ib = 1 then .imm (BitVec.ofNat 32 r.w2) else .x r.b

/-- B of `lea`, whose word 2 holds fields (R123). -/
def srcBnoImm (r : Raw) : SrcB := if r.len = 3 then .lit (BitVec.ofNat 64 r.lit) else .x r.b

def kb (r : Raw) : KSrc :=
  if r.len = 3 then .lit (BitVec.ofNat 64 r.lit) else if r.ib = 1 then .imm (BitVec.ofNat 32 r.w2) else .k r.b

/-- Optional index: none with IB = 1 (R40). -/
def idx (r : Raw) : Option Nat := if r.ib = 1 then none else some r.b

def rt (r : Raw) : Ret := Ret.ofCode r.ret

end Raw

def idxIb : Option Nat → Nat
  | none => 1
  | some _ => 0

def idxNum : Option Nat → Nat
  | none => 0
  | some n => n

def int1Raw (op : Nat) (e : Int1) : Raw :=
  { len := 1, f := e.g, a := e.a.num, d := e.d, op := op, ka := e.a.ka, ret := e.rt.code, minor := e.ty.code }

def int1Of (r : Raw) : Option Int1 :=
  (IntTy.ofCode r.minor).map fun t => { g := r.f, rt := r.rt, ty := t, d := r.d, a := r.srcA }

def int2Raw (op m3 : Nat) (e : Int2) : Raw :=
  { len := e.b.len, f := e.g, a := e.a.num, d := e.d, op := op, ka := e.a.ka, ib := e.b.ib, m3 := m3, ret := e.rt.code,
    minor := e.ty.code, b := e.b.num, w2 := e.b.w2, lit := e.b.litv }

def int2Of (r : Raw) : Option Int2 :=
  (IntTy.ofCode r.minor).map fun t => { g := r.f, rt := r.rt, ty := t, d := r.d, a := r.srcA, b := r.srcB }

def int3Raw (op : Nat) (e : Int3) : Raw :=
  { len := e.b.len, f := e.g, a := e.a.num, d := e.d, op := op, ka := e.a.ka, ib := e.b.ib, ret := e.rt.code,
    minor := e.ty.code, c := e.c, b := e.b.num, w2 := e.b.w2, lit := e.b.litv }

def int3Of (r : Raw) : Option Int3 :=
  (IntTy.ofCode r.minor).map fun t => { g := r.f, rt := r.rt, ty := t, d := r.d, a := r.srcA, b := r.srcB, c := r.c }

def sc2Raw (op minor m3 : Nat) (e : Sc2) : Raw :=
  { len := e.b.len, f := e.g, a := e.a, d := e.d, op := op, ib := e.b.ib, m3 := m3, minor := minor, b := e.b.num,
    w2 := e.b.w2, lit := e.b.litv }

def sc2Of (r : Raw) : Sc2 := { g := r.f, d := r.d, a := r.a, b := r.kb }

def fp1Raw (op m3 : Nat) (e : Fp1) : Raw :=
  { len := 1, f := e.g, a := e.a.num, d := e.d, op := op, ka := e.a.ka, m3 := m3, ret := e.rt.code, minor := e.ty.code }

def fp1Of (r : Raw) : Option Fp1 :=
  (FTy.ofCode r.minor).map fun t => { g := r.f, rt := r.rt, ty := t, d := r.d, a := r.srcA }

def fp2Raw (op m3 : Nat) (e : Fp2) : Raw :=
  { len := e.b.len, f := e.g, a := e.a.num, d := e.d, op := op, ka := e.a.ka, ib := e.b.ib, m3 := m3, ret := e.rt.code,
    minor := e.ty.code, b := e.b.num, w2 := e.b.w2, lit := e.b.litv }

def fp2Of (r : Raw) : Option Fp2 :=
  (FTy.ofCode r.minor).map fun t => { g := r.f, rt := r.rt, ty := t, d := r.d, a := r.srcA, b := r.srcB }

def fp3Raw (op m3 : Nat) (e : Fp3) : Raw :=
  { len := e.b.len, f := e.g, a := e.a.num, d := e.d, op := op, ka := e.a.ka, ib := e.b.ib, m3 := m3, ret := e.rt.code,
    minor := e.ty.code, c := e.c, b := e.b.num, w2 := e.b.w2, lit := e.b.litv }

def fp3Of (r : Raw) : Option Fp3 :=
  (FTy.ofCode r.minor).map fun t => { g := r.f, rt := r.rt, ty := t, d := r.d, a := r.srcA, b := r.srcB, c := r.c }

/-- Conversions under a slot: `w` is what word 2 holds above the wide format (R152 to R159). -/
def cvsRaw (op w : Nat) (e : Cvs) : Raw :=
  { len := 1, f := e.g, a := e.a, d := e.d, op := op, ret := e.rt.code, slot := e.slot, c := e.c, b := e.b,
    w2 := w + e.wide.code }

def cvsOf (r : Raw) (wide : Nat) : Option Cvs :=
  (Wide.ofCode wide).map fun w =>
    { g := r.f, rt := r.rt, slot := r.slot, d := r.d, a := r.a, b := r.b, c := r.c, wide := w }

/-- The scope field of an access with an ordering (R50); 0 without one. -/
def scopeNum : Option Scope → Nat
  | none => 0
  | some s => s.code

/-- MOD 29:27 of an access whose only ordering has code `o` (R50). -/
def ordOf (o : Nat) : Option Scope → Nat
  | none => 0
  | some _ => 2 * o

/-- Scope read back: none without an ordering (R50). -/
def scopeOpt (o : Nat) (r : Raw) : Option (Option Scope) :=
  if r.m3 = 0 then some none else if r.m3 = 2 * o then (Scope.ofCode r.slot).map some else none

def memRaw (op minor m3 : Nat) (sc : Option Scope) (d : Nat) (e : Mem) : Raw :=
  { len := 1, f := e.g, a := e.a.num, d := d, op := op, ka := e.a.ka, ib := idxIb e.idx, m3 := m3, ret := e.rt.code,
    slot := scopeNum sc, minor := minor, b := idxNum e.idx, w2 := e.off.toNat }

def memOf (r : Raw) : Mem :=
  { g := r.f, rt := r.rt, a := r.srcA, idx := r.idx, off := BitVec.ofNat 32 r.w2 }

def atmRaw (op minor c : Nat) (e : Atm) : Raw :=
  { len := 1, f := e.g, a := e.a.num, d := e.d, op := op, ka := e.a.ka, m3 := 2 * e.ord.code, ret := e.rt.code,
    slot := e.sc.code, minor := minor, c := c, b := e.b, w2 := e.off.toNat }

def atmOf (r : Raw) : Option Atm :=
  (Ord.ofCode (r.m3 / 2)).bind fun o => (Scope.ofCode r.slot).map fun s =>
    { g := r.f, rt := r.rt, ord := o, sc := s, d := r.d, a := r.srcA, b := r.b, off := BitVec.ofNat 32 r.w2 }

/-- Word 2 of a macro set with its tag (R209). -/
def MSet.code (s : MSet) : Nat := s.tag + 128 * s.mf + 2 ^ 12 * (s.kn - 1) + 2 ^ 17 * (s.nm - 1)

def msetOf (w : Nat) : MSet :=
  { tag := w % 128, mf := w / 128 % 32, kn := w / 2 ^ 12 % 32 + 1, nm := w / 2 ^ 17 % 2 + 1 }

def mmRaw (op : Nat) (e : Mm) : Raw :=
  { len := 1, f := e.g, a := e.a, d := e.d, op := op, slot := e.slot, minor := e.tile.toNat, c := e.cv, b := e.b,
    w2 := e.set.code + 2 ^ 18 * (e.m - 1) }

def mmOf (r : Raw) : Mm :=
  { g := r.f, slot := r.slot, tile := r.minor == 1, d := r.d, a := r.a, b := r.b, cv := r.c, set := msetOf r.w2,
    m := r.w2 / 2 ^ 18 % 64 + 1 }

/-- Fields of the extended `call` (R100). -/
def callRaw (g : Nat) (rt : Ret) (d : Nat) : CallTo → Raw
  | .rel off => { len := 1, op := 0x04, f := g, d := d, ret := rt.code, w2 := off.toNat }
  | .reg a => { len := 1, op := 0x04, f := g, d := d, a := a.num, ka := a.ka, ret := rt.code, minor := 1 }

def callOf (r : Raw) : Option CallTo :=
  if r.minor = 0 then some (.rel (BitVec.ofNat 32 r.w2)) else if r.minor = 1 then some (.reg r.srcA) else none

/-- DST or SRC field and IDST or ISRC field of `cvt` (R150). -/
def CvtFmt.fcode : CvtFmt → Nat
  | .elem c => c
  | _ => 0

def CvtFmt.icode : CvtFmt → Nat
  | .elem _ => 0
  | .s32 => 1
  | .u32 => 2

def cvtFmtOf (i c : Nat) : Option CvtFmt :=
  if i = 0 then some (.elem c) else if i = 1 then some .s32 else if i = 2 then some .u32 else none

/-! ### The opcode map -/

/-- The fields of an instruction's words; `none` for the rows that have no encoding. -/
def toRaw : Instr → Option Raw
  | .nop => some { op := 0x01 }
  | .bra off => some { op := 0x02, a := off.toNat / 512, d := off.toNat % 512 }
  | .braExt g off => some { len := 1, op := 0x02, f := g, w2 := off.toNat }
  | .brx a => some { op := 0x03, a := a }
  | .brxExt g a => some { len := 1, op := 0x03, f := g, a := a.num, ka := a.ka }
  | .ret a => some { op := 0x05, a := a }
  | .call off d => some { op := 0x04, a := off.toNat, d := d }
  | .callReg a d => some { op := 0x04, f := 1, a := a, d := d }
  | .callExt g rt d tgt => some (callRaw g rt d tgt)
  | .exit => some { op := 0x06 }
  | .exitExt g => some { len := 1, op := 0x06, f := g }
  | .join d => some { op := 0x07, d := d }
  | .joinExt g d => some { len := 1, op := 0x07, f := g, d := d }
  | .leave d => some { op := 0x08, d := d }
  | .leaveExt g d => some { len := 1, op := 0x08, f := g, d := d }
  | .wait a => some { op := 0x09, a := a }
  | .waitExt g a => some { len := 1, op := 0x09, f := g, a := a }
  | .yield => some { op := 0x0A }
  | .trap code => some { op := 0x0B, a := code }
  | .trapExt g code => some { len := 1, op := 0x0B, f := g, a := code }
  | .brk tag => some { op := 0x0C, a := tag }
  | .resume a => some { op := 0x0D, a := a }
  | .gsr sr d => some { op := 0x0E, a := sr, d := d }
  | .gsrK sr d => some { op := 0x0E, f := 1, a := sr, d := d }
  | .ssr a sr => some { op := 0x0F, f := 1, a := a, d := sr }
  | .halt => some { op := 0x10 }
  | .mset g d b => some { len := b.len, op := 0x11, f := g, ib := b.ib, b := b.num, w2 := b.w2, lit := b.litv, d := d }
  | .mmov a d => some { op := 0x12, a := a, d := d }
  | .mand a d => some { op := 0x13, a := a, d := d }
  | .mandExt g d a b => some { len := 1, op := 0x13, f := g, d := d, a := a, b := b }
  | .mor a d => some { op := 0x14, a := a, d := d }
  | .morExt g d a b => some { len := 1, op := 0x14, f := g, d := d, a := a, b := b }
  | .mxor a d => some { op := 0x15, a := a, d := d }
  | .mxorExt g d a b => some { len := 1, op := 0x15, f := g, d := d, a := a, b := b }
  | .mnot a d => some { op := 0x16, a := a, d := d }
  | .mpop a d => some { op := 0x17, a := a, d := d }
  | .mfindLo a d => some { op := 0x18, a := a, d := d }
  | .mfindHi a d => some { op := 0x18, f := 1, a := a, d := d }
  | .mfindExt g hi d a => some { len := 1, op := 0x18, f := g, minor := hi.toNat, d := d, a := a }
  | .pcget d => some { op := 0x19, d := d }
  | .pcgetExt g d => some { len := 1, op := 0x19, f := g, d := d }
  | .add t a d => some { op := 0x20, f := t.code, a := a, d := d }
  | .addExt sat e => some (int2Raw 0x20 sat.toNat e)
  | .sub t a d => some { op := 0x21, f := t.code, a := a, d := d }
  | .subExt sat e => some (int2Raw 0x21 sat.toNat e)
  | .mul t a d => some { op := 0x22, f := t.code, a := a, d := d }
  | .mulExt e => some (int2Raw 0x22 0 e)
  | .mulh t a d => some { op := 0x23, f := t.code, a := a, d := d }
  | .mulhExt e => some (int2Raw 0x23 0 e)
  | .mad e => some (int3Raw 0x24 e)
  | .neg t a d => some { op := 0x25, f := t.code, a := a, d := d }
  | .negExt e => some (int1Raw 0x25 e)
  | .abs t a d => some { op := 0x26, f := t.code, a := a, d := d }
  | .absExt e => some (int1Raw 0x26 e)
  | .min t a d => some { op := 0x27, f := t.code, a := a, d := d }
  | .minExt e => some (int2Raw 0x27 0 e)
  | .max t a d => some { op := 0x28, f := t.code, a := a, d := d }
  | .maxExt e => some (int2Raw 0x28 0 e)
  | .and t a d => some { op := 0x29, f := t.code, a := a, d := d }
  | .andExt e => some (int2Raw 0x29 0 e)
  | .or t a d => some { op := 0x2A, f := t.code, a := a, d := d }
  | .orExt e => some (int2Raw 0x2A 0 e)
  | .xor t a d => some { op := 0x2B, f := t.code, a := a, d := d }
  | .xorExt e => some (int2Raw 0x2B 0 e)
  | .andn t a d => some { op := 0x2C, f := t.code, a := a, d := d }
  | .andnExt e => some (int2Raw 0x2C 0 e)
  | .not t a d => some { op := 0x2D, f := t.code, a := a, d := d }
  | .notExt e => some (int1Raw 0x2D e)
  | .shl t a d => some { op := 0x2E, f := t.code, a := a, d := d }
  | .shlExt e => some (int2Raw 0x2E 0 e)
  | .shr t a d => some { op := 0x2F, f := t.code, a := a, d := d }
  | .shrExt e => some (int2Raw 0x2F 0 e)
  | .sar t a d => some { op := 0x30, f := t.code, a := a, d := d }
  | .sarExt e => some (int2Raw 0x30 0 e)
  | .rot t a d => some { op := 0x31, f := t.code, a := a, d := d }
  | .rotExt e => some (int2Raw 0x31 0 e)
  | .clz t a d => some { op := 0x32, f := t.code, a := a, d := d }
  | .clzExt e => some (int1Raw 0x32 e)
  | .ctz t a d => some { op := 0x33, f := t.code, a := a, d := d }
  | .ctzExt e => some (int1Raw 0x33 e)
  | .popc t a d => some { op := 0x34, f := t.code, a := a, d := d }
  | .popcExt e => some (int1Raw 0x34 e)
  | .brev t a d => some { op := 0x35, f := t.code, a := a, d := d }
  | .brevExt e => some (int1Raw 0x35 e)
  | .bfe e => some (int2Raw 0x36 0 e)
  | .bfi e => some (int3Raw 0x37 e)
  | .sel e => some (int3Raw 0x38 e)
  | .mov t a d => some { op := 0x39, f := t.code, a := a, d := d }
  | .movExt e => some (int1Raw 0x39 e)
  | .liLit t d v => some { len := 2, op := 0x3C, f := t.code, d := d, lit := v.toNat }
  | .liExt g t d v => some { len := 1, op := 0x3C, f := g, d := d, ib := 1, minor := t.code, w2 := v.toNat }
  | .lea g rt d a b sx sh => some { len := b.len, op := 0x3A, f := g, d := d, a := a.num, ka := a.ka, b := b.num, lit := b.litv, ret := rt.code, minor := 1, w2 := 16 * sx.toNat + sh }
  | .cmp cc e => some (int2Raw 0x3B cc.code e)
  | .shfl mode g rt d a b => some { len := b.len, op := 0x3D, f := g, d := d, a := a, ib := b.ib, b := b.num, w2 := b.w2, lit := b.litv, ret := rt.code, minor := mode.code }
  | .div t a d => some { op := 0x3E, f := t.code, a := a, d := d }
  | .divExt e => some (int2Raw 0x3E 0 e)
  | .rem t a d => some { op := 0x3F, f := t.code, a := a, d := d }
  | .remExt e => some (int2Raw 0x3F 0 e)
  | .kmov a d => some { op := 0x50, a := a, d := d }
  | .kliLit d v => some { len := 2, op := 0x51, d := d, lit := v.toNat }
  | .kliExt g d v => some { len := 1, op := 0x51, f := g, d := d, ib := 1, w2 := v.toNat }
  | .kadd a d => some { op := 0x52, a := a, d := d }
  | .kaddExt e => some (sc2Raw 0x52 0 0 e)
  | .ksub a d => some { op := 0x53, a := a, d := d }
  | .ksubExt e => some (sc2Raw 0x53 0 0 e)
  | .kmul a d => some { op := 0x54, a := a, d := d }
  | .kmulExt e => some (sc2Raw 0x54 0 0 e)
  | .kand a d => some { op := 0x55, a := a, d := d }
  | .kandExt e => some (sc2Raw 0x55 0 0 e)
  | .kor a d => some { op := 0x56, a := a, d := d }
  | .korExt e => some (sc2Raw 0x56 0 0 e)
  | .kxor a d => some { op := 0x57, a := a, d := d }
  | .kxorExt e => some (sc2Raw 0x57 0 0 e)
  | .kshl a d => some { op := 0x58, a := a, d := d }
  | .kshlExt e => some (sc2Raw 0x58 0 0 e)
  | .kshr a d => some { op := 0x59, a := a, d := d }
  | .kshrA a d => some { op := 0x59, f := 1, a := a, d := d }
  | .kshrExt arith e => some (sc2Raw 0x59 arith.toNat 0 e)
  | .kcmp cc ui e => some (sc2Raw 0x5A ui.toNat cc.code e)
  | .kget g rt d a b => some { len := 1, op := 0x5B, f := g, d := d, a := a, ib := b.ib, b := b.num, w2 := b.w2, ret := rt.code }
  | .kld g sp d a idx off => some { len := 1, op := 0x5C, f := g, d := d, a := a, ib := idxIb idx, b := idxNum idx, minor := sp.code, w2 := off.toNat }
  | .fadd t a d => some { op := 0x60, f := t.code, a := a, d := d }
  | .faddExt rm e => some (fp2Raw 0x60 rm.code e)
  | .fsub t a d => some { op := 0x61, f := t.code, a := a, d := d }
  | .fsubExt rm e => some (fp2Raw 0x61 rm.code e)
  | .fmul t a d => some { op := 0x62, f := t.code, a := a, d := d }
  | .fmulExt rm e => some (fp2Raw 0x62 rm.code e)
  | .ffma rm e => some (fp3Raw 0x63 rm.code e)
  | .fmin t a d => some { op := 0x64, f := t.code, a := a, d := d }
  | .fminExt e => some (fp2Raw 0x64 0 e)
  | .fmax t a d => some { op := 0x65, f := t.code, a := a, d := d }
  | .fmaxExt e => some (fp2Raw 0x65 0 e)
  | .fabs t a d => some { op := 0x66, f := t.code, a := a, d := d }
  | .fabsExt e => some (fp1Raw 0x66 0 e)
  | .fneg t a d => some { op := 0x67, f := t.code, a := a, d := d }
  | .fnegExt e => some (fp1Raw 0x67 0 e)
  | .fcmp fc e => some (fp2Raw 0x68 fc.code e)
  | .frcp t a d => some { op := 0x69, f := t.code, a := a, d := d }
  | .frcpExt e => some (fp1Raw 0x69 0 e)
  | .frsq t a d => some { op := 0x6A, f := t.code, a := a, d := d }
  | .frsqExt e => some (fp1Raw 0x6A 0 e)
  | .fsqrt t a d => some { op := 0x6B, f := t.code, a := a, d := d }
  | .fsqrtExt rm e => some (fp1Raw 0x6B rm.code e)
  | .fexp2 t a d => some { op := 0x6C, f := t.code, a := a, d := d }
  | .fexp2Ext e => some (fp1Raw 0x6C 0 e)
  | .flog2 t a d => some { op := 0x6D, f := t.code, a := a, d := d }
  | .flog2Ext e => some (fp1Raw 0x6D 0 e)
  | .fsin t a d => some { op := 0x6E, f := t.code, a := a, d := d }
  | .fsinExt e => some (fp1Raw 0x6E 0 e)
  | .fcos t a d => some { op := 0x6F, f := t.code, a := a, d := d }
  | .fcosExt e => some (fp1Raw 0x6F 0 e)
  | .ftanh t a d => some { op := 0x70, f := t.code, a := a, d := d }
  | .ftanhExt e => some (fp1Raw 0x70 0 e)
  | .ffloor t a d => some { op := 0x71, f := t.code, a := a, d := d }
  | .ffloorExt e => some (fp1Raw 0x71 0 e)
  | .fceil t a d => some { op := 0x72, f := t.code, a := a, d := d }
  | .fceilExt e => some (fp1Raw 0x72 0 e)
  | .frint t a d => some { op := 0x73, f := t.code, a := a, d := d }
  | .frintExt e => some (fp1Raw 0x73 0 e)
  | .fscale t a d => some { op := 0x74, f := t.code, a := a, d := d }
  | .fscaleExt rm e => some (fp2Raw 0x74 rm.code e)
  | .fclass t a d => some { op := 0x75, f := t.code, a := a, d := d }
  | .fclassExt e => some (fp1Raw 0x75 0 e)
  | .fdot2 rm e => some (fp3Raw 0x76 rm.code e)
  | .cvt g d a src dst sel ovf rnd => some { len := 1, op := 0x90, f := g, d := d, a := a, w2 := src.fcode + 256 * dst.fcode + 2 ^ 16 * rnd.code + 2 ^ 18 * ovf.toNat + 2 ^ 19 * sel + 2 ^ 22 * src.icode + 2 ^ 24 * dst.icode }
  | .qnt e => some (cvsRaw 0x91 0 e)
  | .dqn e => some (cvsRaw 0x92 0 e)
  | .cbx half e => some (cvsRaw 0x93 (16 * half.toNat) e)
  | .scl e => some (cvsRaw 0x94 0 e)
  | .pack4 e => some (cvsRaw 0x95 0 e)
  | .unpack4 e => some (cvsRaw 0x96 0 e)
  | .ld w sp a d => some { op := 0xA0, f := w.code + 8 * sp.code, a := a, d := d }
  | .ldExt w sp acq d e => some (memRaw 0xA0 (w.code + 8 * sp.code) (ordOf 1 acq) acq d e)
  | .st w sp a d => some { op := 0xA1, f := w.code + 8 * sp.code, a := a, d := d }
  | .stExt w sp rel d e => some (memRaw 0xA1 (w.code + 8 * sp.code) (ordOf 2 rel) rel d e)
  | .ldv wide acq d e => some (memRaw 0xA2 (3 + wide.toNat) (ordOf 1 acq) acq d e)
  | .vset g rt d a b => some { len := 1, op := 0xA3, f := g, d := d, a := a.num, ka := a.ka, b := b, ret := rt.code }
  | .prf kind a => some { op := 0xA4, f := kind.code, a := a }
  | .prfExt kind e => some (memRaw 0xA4 kind.code 0 none 0 e)
  | .flush a => some { op := 0xA5, a := a }
  | .flushExt e => some (memRaw 0xA5 0 0 none 0 e)
  | .inv a => some { op := 0xA6, a := a }
  | .invIp a => some { op := 0xA6, f := 1, a := a }
  | .invExt ip e => some (memRaw 0xA6 ip.toNat 0 none 0 e)
  | .atm op e => some (atmRaw 0xC0 op.code 0 e)
  | .cas wide e c => some (atmRaw 0xC1 wide.toNat c e)
  | .casv wide e c => some (atmRaw 0xC2 wide.toNat c e)
  | .binc e => some (atmRaw 0xC3 0 0 e)
  | .winc e => some (atmRaw 0xC4 0 0 e)
  | .dgz e => some (atmRaw 0xC5 0 0 e)
  | .addl e => some (atmRaw 0xC6 0 0 e)
  | .red op e => some (atmRaw 0xC7 op.code 0 e)
  | .fence g ord sc => some { len := 1, op := 0xD0, f := g, slot := sc.code, m3 := 2 * ord.code }
  | .fenceL g sc => some { len := 1, op := 0xD0, f := g, slot := sc.code, minor := 1 }
  | .fenceR g sc => some { len := 1, op := 0xD0, f := g, slot := sc.code, minor := 2 }
  | .xfence g sc p q => some { len := 1, op := 0xD1, f := g, slot := sc.code, w2 := p.code + 16 * q.code }
  | .bar id => some { op := 0xD2, a := id }
  | .barA id => some { op := 0xD2, f := 1, a := id }
  | .barW id => some { op := 0xD2, f := 2, a := id }
  | .barExt g kind id exp cnt => some { len := 1, op := 0xD2, f := g, a := id, minor := kind.code, w2 := exp + 256 * cnt }
  | .rgn g b => some { len := 1, op := 0xD3, f := g, w2 := b }
  | .poll g rt acq d a b bo sp ui cc => some { len := 1, op := 0xD4, f := g, d := d, a := a.num, ka := a.ka, b := b, ret := rt.code, slot := scopeNum acq, m3 := ordOf 1 acq, w2 := 32 * bo + 16 * sp.code + 8 * ui.toNat + cc.code }
  | .mwait g rt acq d a b ge => some { len := 1, op := 0xD5, f := g, d := d, a := a.num, ka := a.ka, b := b, ret := rt.code, slot := scopeNum acq, m3 := ordOf 1 acq, w2 := ge.toNat }
  | .twany a d => some { op := 0xD6, a := a, d := d }
  | .twanyExt g d b => some { len := b.len, op := 0xD6, f := g, ib := b.ib, b := b.num, w2 := b.w2, lit := b.litv, d := d }
  | .twall a d => some { op := 0xD7, a := a, d := d }
  | .twallExt g d b => some { len := b.len, op := 0xD7, f := g, ib := b.ib, b := b.num, w2 := b.w2, lit := b.litv, d := d }
  | .tff a d => some { op := 0xD8, a := a, d := d }
  | .tffExt g d b => some { len := b.len, op := 0xD8, f := g, ib := b.ib, b := b.num, w2 := b.w2, lit := b.litv, d := d }
  | .bld g slot tile a b c set => some { len := 1, op := 0xE0, f := g, slot := slot, minor := tile.toNat, a := a, b := b, c := c, w2 := set.code }
  | .mmx e => some (mmRaw 0xE1 e)
  | .mmq e => some (mmRaw 0xE2 e)
  | .mmo g d a set => some { len := 1, op := 0xE3, f := g, d := d, a := a, w2 := set.code }
  | .cdecl g d b => some { len := 1, op := 0xE4, f := g, d := d, ib := b.ib, b := b.num, w2 := b.w2 }
  | .csig g d => some { len := 1, op := 0xE5, f := g, d := d }
  | .abkGet g d => some { len := 1, op := 0xE6, f := g, d := d }
  | .abkPut g a => some { len := 1, op := 0xE7, f := g, a := a }
  | .accLd g slot sp d a b tag => some { len := 1, op := 0xE8, f := g, slot := slot, minor := sp.code, d := d, a := a, b := b, w2 := tag }
  | .accSt g slot sp d a b tag => some { len := 1, op := 0xE9, f := g, slot := slot, minor := sp.code, d := d, a := a, b := b, w2 := tag }
  | .accZ g d => some { len := 1, op := 0xEA, f := g, d := d }
  | .cpy g d a b c tag sh dh ss ds => some { len := 1, op := 0xF0, f := g, d := d, a := a, b := b, c := c, w2 := tag + 128 * sh.toNat + 256 * dh.toNat + 512 * ss.toNat + 1024 * ds.toNat }
  | .cpw g d a b tag lb => some { len := 1, op := 0xF1, f := g, d := d, a := a, b := b, w2 := tag + 128 * lb }
  | .cps g d a b c tag ss ds => some { len := 1, op := 0xF2, f := g, d := d, a := a, b := b, c := c, w2 := tag + 512 * ss.toNat + 1024 * ds.toNat }
  | .coll g a rq => some { len := 1, op := 0xF3, f := g, a := a, w2 := rq.toNat }
  | .rsum g a b rq ss => some { len := 1, op := 0xF4, f := g, a := a, b := b, w2 := rq.toNat + 2 * ss.toNat }
  | .rinv g d a b hidx narg cls => some { len := 1, op := 0xF5, f := g, d := d, a := a, b := b, w2 := hidx + 4096 * narg + 2 ^ 16 * cls }
  | .rinvT g d a b hidx narg cls => some { len := 1, op := 0xF5, f := g, d := d, a := a, b := b, w2 := hidx + 4096 * narg + 2 ^ 16 * cls, minor := 1 }
  | .launch g a q => some { len := 1, op := 0xF8, f := g, a := a, w2 := q }
  | .post g a sp => some { len := 1, op := 0xF9, f := g, a := a, w2 := 2 * sp.code }
  | .postQueue g d a => some { len := 1, op := 0xF9, f := g, d := d, a := a, w2 := 1 }
  | .fget g d a => some { len := 1, op := 0xFA, f := g, d := d, a := a }
  | .fgetQueue g d a => some { len := 1, op := 0xFA, f := g, d := d, a := a, w2 := 1 }
  | .fput g d a b => some { len := 1, op := 0xFA, f := g, d := d, a := a, b := b, minor := 1 }
  | .phase id => some { op := 0xFB, a := id }
  | .phaseExt g id => some { len := 1, op := 0xFB, f := g, w2 := id }
  | .intent g a lead job => some { len := 1, op := 0xFC, f := g, a := a, w2 := lead + 2 ^ 16 * job.toNat }
  | .rblkAcq g d n l => some { len := 1, op := 0xFD, f := g, d := d, w2 := n + 16 * l.toNat }
  | .rblkRel g n => some { len := 1, op := 0xFE, f := g, w2 := n }
  | .illegalEncoding => none
  | .powerGoodBoot _ _ _ _ => none
  | .coreCycle _ => none
  | .urgentWarp _ _ => none
  | .fairnessTurn _ => none
  | .turnTimeout _ => none
  | .dieBucketCycle _ => none
  | .govTick => none
  | .eptCalibration _ => none
  | .bankMonitorSample _ _ _ => none
  | .intentLapse _ _ => none
  | .writeAssistChange _ _ _ => none
  | .shadowLatchReplay _ => none
  | .timerCompare _ => none
  | .localWaitWatchdog _ _ => none
  | .extwaitTimeout _ => none
  | .pollReread _ _ => none
  | .mwaitWake _ _ => none
  | .fgetRetry _ => none
  | .futureReenqueue _ _ => none
  | .warpRetire _ => none
  | .blockRetire _ => none
  | .gridComplete _ => none
  | .preemption _ => none
  | .switchIn _ => none
  | .trapHandlerStart _ => none
  | .engineFault _ _ _ _ _ => none
  | .copyEnginePop _ => none
  | .copyComplete _ _ => none
  | .matrixPass _ => none
  | .matrixOpComplete _ => none
  | .bankZeroComplete _ _ => none
  | .collEnginePop _ => none
  | .reductionContribution _ => none
  | .rsumTimeout _ _ _ => none
  | .collectiveChunk _ _ _ _ _ => none
  | .collPointReport _ _ _ _ => none
  | .collEndStatus _ _ _ => none
  | .collPointTimeout _ _ _ => none
  | .launchTriggerEnqueue _ _ => none
  | .launchAccept _ => none
  | .queueSwitch _ => none
  | .childLaunchAccept _ _ => none
  | .groupPlacement _ _ => none
  | .continuationDispatch _ => none
  | .remoteInvocation _ => none
  | .invocationAnswer _ _ _ => none
  | .handlerAssign _ => none
  | .overflowRingMove _ _ _ => none
  | .lineReadRequest _ _ => none
  | .lineReadResponse _ _ _ _ => none
  | .ownershipRequest _ _ => none
  | .recall _ => none
  | .leaseReturn _ _ => none
  | .leaseReturnWithData _ _ _ _ => none
  | .leaseIdleReturn _ => none
  | .leaseDeadlineReturn _ => none
  | .leaseLapse _ => none
  | .committedLineWrite _ _ _ _ _ => none
  | .atomicRequest _ => none
  | .atomicResponse _ _ _ => none
  | .paddockGridGroup _ _ _ _ => none
  | .groupRetired _ _ => none
  | .powerIntent _ _ _ => none
  | .failureNotice _ => none
  | .linkFailure _ _ _ => none
  | .hostMemoryAccess _ _ _ => none
  | .dramUe _ _ => none
  | .l2CleanUe _ => none
  | .l2DirtyUeContainment _ _ _ => none
  | .regCacheUe _ _ _ => none
  | .spadAccUe _ _ => none
  | .macroParityError _ _ => none
  | .l1ParityError _ _ _ => none
  | .tlbParityError _ _ _ => none
  | .deviceFatalError _ => none
  | .patrolScrubRead _ _ => none
  | .mmuInvalidate _ => none
  | .mmuInvalidateDone => none
  | .pgretRelease _ => none
  | .fltKill _ => none
  | .debugStop => none
  | .debugRestart => none
  | .debugStopComplete => none
  | .dbgRegw _ => none
  | .measExtend _ _ => none
  | .memTrainStep _ _ => none
  | .memTrainStepDone _ _ => none
  | .fptTrainStart _ _ _ => none
  | .fptPortOff _ _ _ => none
  | .fptTrainingProgress _ _ _ _ _ _ _ => none
  | .lqTailWrite _ _ => none
  | .lqCfgWrite _ _ => none
  | .phsCtxWrite _ _ => none
  | .bootRunSet => none
  | .svcDoorWrite _ _ _ => none
  | .svcTick => none
  | .haltWake _ => none
  | .registerWrite _ _ _ _ => none
  | .loadCompletion _ _ => none
  | .linkLevelReplay _ _ => none
  | .measExtendDone => none
  | .terminationComplete => none

/-- The instruction a base form names (LEN 0b00). -/
def candBase (r : Raw) : Option Instr :=
  match r.op with
  | 0x01 =>
      if r.f = 0 then some .nop else none
  | 0x02 =>
      if r.f = 0 then some (.bra (BitVec.ofNat 18 (r.a * 512 + r.d))) else none
  | 0x03 =>
      if r.f = 0 then some (.brx r.a) else none
  | 0x04 =>
      if r.f = 0 then some (.call (BitVec.ofNat 9 r.a) r.d) else
      if r.f = 1 then some (.callReg r.a r.d) else none
  | 0x05 =>
      if r.f = 0 then some (.ret r.a) else none
  | 0x06 =>
      if r.f = 0 then some .exit else none
  | 0x07 =>
      if r.f = 0 then some (.join r.d) else none
  | 0x08 =>
      if r.f = 0 then some (.leave r.d) else none
  | 0x09 =>
      if r.f = 0 then some (.wait r.a) else none
  | 0x0A =>
      if r.f = 0 then some .yield else none
  | 0x0B =>
      if r.f = 0 then some (.trap r.a) else none
  | 0x0C =>
      if r.f = 0 then some (.brk r.a) else none
  | 0x0D =>
      if r.f = 0 then some (.resume r.a) else none
  | 0x0E =>
      if r.f = 0 then some (.gsr r.a r.d) else
      if r.f = 1 then some (.gsrK r.a r.d) else none
  | 0x0F =>
      if r.f = 1 then some (.ssr r.a r.d) else none
  | 0x10 =>
      if r.f = 0 then some .halt else none
  | 0x12 =>
      if r.f = 0 then some (.mmov r.a r.d) else none
  | 0x13 =>
      if r.f = 0 then some (.mand r.a r.d) else none
  | 0x14 =>
      if r.f = 0 then some (.mor r.a r.d) else none
  | 0x15 =>
      if r.f = 0 then some (.mxor r.a r.d) else none
  | 0x16 =>
      if r.f = 0 then some (.mnot r.a r.d) else none
  | 0x17 =>
      if r.f = 0 then some (.mpop r.a r.d) else none
  | 0x18 =>
      if r.f = 0 then some (.mfindLo r.a r.d) else
      if r.f = 1 then some (.mfindHi r.a r.d) else none
  | 0x19 =>
      if r.f = 0 then some (.pcget r.d) else none
  | 0x20 => (IntTy.ofCode r.f).map fun t => .add t r.a r.d
  | 0x21 => (IntTy.ofCode r.f).map fun t => .sub t r.a r.d
  | 0x22 => (IntTy.ofCode r.f).map fun t => .mul t r.a r.d
  | 0x23 => (IntTy.ofCode r.f).map fun t => .mulh t r.a r.d
  | 0x25 => (IntTy.ofCode r.f).map fun t => .neg t r.a r.d
  | 0x26 => (IntTy.ofCode r.f).map fun t => .abs t r.a r.d
  | 0x27 => (IntTy.ofCode r.f).map fun t => .min t r.a r.d
  | 0x28 => (IntTy.ofCode r.f).map fun t => .max t r.a r.d
  | 0x29 => (IntTy.ofCode r.f).map fun t => .and t r.a r.d
  | 0x2A => (IntTy.ofCode r.f).map fun t => .or t r.a r.d
  | 0x2B => (IntTy.ofCode r.f).map fun t => .xor t r.a r.d
  | 0x2C => (IntTy.ofCode r.f).map fun t => .andn t r.a r.d
  | 0x2D => (IntTy.ofCode r.f).map fun t => .not t r.a r.d
  | 0x2E => (IntTy.ofCode r.f).map fun t => .shl t r.a r.d
  | 0x2F => (IntTy.ofCode r.f).map fun t => .shr t r.a r.d
  | 0x30 => (IntTy.ofCode r.f).map fun t => .sar t r.a r.d
  | 0x31 => (IntTy.ofCode r.f).map fun t => .rot t r.a r.d
  | 0x32 => (IntTy.ofCode r.f).map fun t => .clz t r.a r.d
  | 0x33 => (IntTy.ofCode r.f).map fun t => .ctz t r.a r.d
  | 0x34 => (IntTy.ofCode r.f).map fun t => .popc t r.a r.d
  | 0x35 => (IntTy.ofCode r.f).map fun t => .brev t r.a r.d
  | 0x39 => (IntTy.ofCode r.f).map fun t => .mov t r.a r.d
  | 0x3E => (IntTy.ofCode r.f).map fun t => .div t r.a r.d
  | 0x3F => (IntTy.ofCode r.f).map fun t => .rem t r.a r.d
  | 0x50 =>
      if r.f = 0 then some (.kmov r.a r.d) else none
  | 0x52 =>
      if r.f = 0 then some (.kadd r.a r.d) else none
  | 0x53 =>
      if r.f = 0 then some (.ksub r.a r.d) else none
  | 0x54 =>
      if r.f = 0 then some (.kmul r.a r.d) else none
  | 0x55 =>
      if r.f = 0 then some (.kand r.a r.d) else none
  | 0x56 =>
      if r.f = 0 then some (.kor r.a r.d) else none
  | 0x57 =>
      if r.f = 0 then some (.kxor r.a r.d) else none
  | 0x58 =>
      if r.f = 0 then some (.kshl r.a r.d) else none
  | 0x59 =>
      if r.f = 0 then some (.kshr r.a r.d) else
      if r.f = 1 then some (.kshrA r.a r.d) else none
  | 0x60 => (FTy.ofCode r.f).map fun t => .fadd t r.a r.d
  | 0x61 => (FTy.ofCode r.f).map fun t => .fsub t r.a r.d
  | 0x62 => (FTy.ofCode r.f).map fun t => .fmul t r.a r.d
  | 0x64 => (FTy.ofCode r.f).map fun t => .fmin t r.a r.d
  | 0x65 => (FTy.ofCode r.f).map fun t => .fmax t r.a r.d
  | 0x66 => (FTy.ofCode r.f).map fun t => .fabs t r.a r.d
  | 0x67 => (FTy.ofCode r.f).map fun t => .fneg t r.a r.d
  | 0x69 => (FTy.ofCode r.f).map fun t => .frcp t r.a r.d
  | 0x6A => (FTy.ofCode r.f).map fun t => .frsq t r.a r.d
  | 0x6B => (FTy.ofCode r.f).map fun t => .fsqrt t r.a r.d
  | 0x6C => (FTy.ofCode r.f).map fun t => .fexp2 t r.a r.d
  | 0x6D => (FTy.ofCode r.f).map fun t => .flog2 t r.a r.d
  | 0x6E => (FTy.ofCode r.f).map fun t => .fsin t r.a r.d
  | 0x6F => (FTy.ofCode r.f).map fun t => .fcos t r.a r.d
  | 0x70 => (FTy.ofCode r.f).map fun t => .ftanh t r.a r.d
  | 0x71 => (FTy.ofCode r.f).map fun t => .ffloor t r.a r.d
  | 0x72 => (FTy.ofCode r.f).map fun t => .fceil t r.a r.d
  | 0x73 => (FTy.ofCode r.f).map fun t => .frint t r.a r.d
  | 0x74 => (FTy.ofCode r.f).map fun t => .fscale t r.a r.d
  | 0x75 => (FTy.ofCode r.f).map fun t => .fclass t r.a r.d
  | 0xA0 => (MemW.ofCode (r.f % 8)).map fun w => .ld w (Spc.ofBit (r.f / 8)) r.a r.d
  | 0xA1 => (MemW.ofCode (r.f % 8)).map fun w => .st w (Spc.ofBit (r.f / 8)) r.a r.d
  | 0xA4 => (Prf.ofCode r.f).map fun v => .prf v r.a
  | 0xA5 =>
      if r.f = 0 then some (.flush r.a) else none
  | 0xA6 =>
      if r.f = 0 then some (.inv r.a) else
      if r.f = 1 then some (.invIp r.a) else none
  | 0xD2 =>
      if r.f = 0 then some (.bar r.a) else
      if r.f = 1 then some (.barA r.a) else
      if r.f = 2 then some (.barW r.a) else none
  | 0xD6 =>
      if r.f = 0 then some (.twany r.a r.d) else none
  | 0xD7 =>
      if r.f = 0 then some (.twall r.a r.d) else none
  | 0xD8 =>
      if r.f = 0 then some (.tff r.a r.d) else none
  | 0xFB =>
      if r.f = 0 then some (.phase r.a) else none
  | _ => none

/-- The instruction a base-plus-literal form names (LEN 0b10). -/
def candLit (r : Raw) : Option Instr :=
  match r.op with
  | 0x3C => (IntTy.ofCode r.f).map fun t => .liLit t r.d (BitVec.ofNat 64 r.lit)
  | 0x51 =>
      if r.f = 0 then some (.kliLit r.d (BitVec.ofNat 64 r.lit)) else none
  | _ => none

/-- The instruction an extended form names, with or without a literal (LEN 0b01, 0b11). -/
def candExt (r : Raw) : Option Instr :=
  match r.op with
  | 0x02 => some (.braExt r.f (BitVec.ofNat 32 r.w2))
  | 0x03 => some (.brxExt r.f r.srcA)
  | 0x04 => (callOf r).map fun t => .callExt r.f r.rt r.d t
  | 0x06 => some (.exitExt r.f)
  | 0x07 => some (.joinExt r.f r.d)
  | 0x08 => some (.leaveExt r.f r.d)
  | 0x09 => some (.waitExt r.f r.a)
  | 0x0B => some (.trapExt r.f r.a)
  | 0x11 => some (.mset r.f r.d r.kb)
  | 0x13 => some (.mandExt r.f r.d r.a r.b)
  | 0x14 => some (.morExt r.f r.d r.a r.b)
  | 0x15 => some (.mxorExt r.f r.d r.a r.b)
  | 0x18 =>
      if r.minor < 2 then some (.mfindExt r.f (r.minor == 1) r.d r.a) else none
  | 0x19 => some (.pcgetExt r.f r.d)
  | 0x20 => (int2Of r).map fun e => .addExt (r.m3 == 1) e
  | 0x21 => (int2Of r).map fun e => .subExt (r.m3 == 1) e
  | 0x22 => (int2Of r).map .mulExt
  | 0x23 => (int2Of r).map .mulhExt
  | 0x24 => (int3Of r).map .mad
  | 0x25 => (int1Of r).map .negExt
  | 0x26 => (int1Of r).map .absExt
  | 0x27 => (int2Of r).map .minExt
  | 0x28 => (int2Of r).map .maxExt
  | 0x29 => (int2Of r).map .andExt
  | 0x2A => (int2Of r).map .orExt
  | 0x2B => (int2Of r).map .xorExt
  | 0x2C => (int2Of r).map .andnExt
  | 0x2D => (int1Of r).map .notExt
  | 0x2E => (int2Of r).map .shlExt
  | 0x2F => (int2Of r).map .shrExt
  | 0x30 => (int2Of r).map .sarExt
  | 0x31 => (int2Of r).map .rotExt
  | 0x32 => (int1Of r).map .clzExt
  | 0x33 => (int1Of r).map .ctzExt
  | 0x34 => (int1Of r).map .popcExt
  | 0x35 => (int1Of r).map .brevExt
  | 0x36 => (int2Of r).map .bfe
  | 0x37 => (int3Of r).map .bfi
  | 0x38 =>
      if r.len = 1 then (int3Of r).map .sel else none
  | 0x39 => (int1Of r).map .movExt
  | 0x3A =>
      if r.minor = 1 then some (.lea r.f r.rt r.d r.srcA r.srcBnoImm (r.w2 / 16 == 1) (r.w2 % 16)) else none
  | 0x3B => (Cc.ofCode r.m3).bind fun c => (int2Of r).map fun e => .cmp c e
  | 0x3C => ((IntTy.ofCode r.minor).map fun t => .liExt r.f t r.d (BitVec.ofNat 32 r.w2))
  | 0x3D => (Shfl.ofCode r.minor).map fun m => .shfl m r.f r.rt r.d r.a r.srcB
  | 0x3E => (int2Of r).map .divExt
  | 0x3F => (int2Of r).map .remExt
  | 0x51 => some (.kliExt r.f r.d (BitVec.ofNat 32 r.w2))
  | 0x52 => some (.kaddExt (sc2Of r))
  | 0x53 => some (.ksubExt (sc2Of r))
  | 0x54 => some (.kmulExt (sc2Of r))
  | 0x55 => some (.kandExt (sc2Of r))
  | 0x56 => some (.korExt (sc2Of r))
  | 0x57 => some (.kxorExt (sc2Of r))
  | 0x58 => some (.kshlExt (sc2Of r))
  | 0x59 =>
      if r.minor < 2 then some (.kshrExt (r.minor == 1) (sc2Of r)) else none
  | 0x5A =>
      if r.minor < 2 then (Cc.ofCode r.m3).map fun c => .kcmp c (r.minor == 1) (sc2Of r) else none
  | 0x5B => some (.kget r.f r.rt r.d r.a r.kb)
  | 0x5C =>
      if r.minor < 2 then some (.kld r.f (Spc.ofBit r.minor) r.d r.a r.idx (BitVec.ofNat 32 r.w2)) else none
  | 0x60 => (Rm.ofCode r.m3).bind fun m => (fp2Of r).map fun e => .faddExt m e
  | 0x61 => (Rm.ofCode r.m3).bind fun m => (fp2Of r).map fun e => .fsubExt m e
  | 0x62 => (Rm.ofCode r.m3).bind fun m => (fp2Of r).map fun e => .fmulExt m e
  | 0x63 => (Rm.ofCode r.m3).bind fun m => (fp3Of r).map fun e => .ffma m e
  | 0x64 => (fp2Of r).map .fminExt
  | 0x65 => (fp2Of r).map .fmaxExt
  | 0x66 => (fp1Of r).map .fabsExt
  | 0x67 => (fp1Of r).map .fnegExt
  | 0x68 => (Fc.ofCode r.m3).bind fun c => (fp2Of r).map fun e => .fcmp c e
  | 0x69 => (fp1Of r).map .frcpExt
  | 0x6A => (fp1Of r).map .frsqExt
  | 0x6B => (Rm.ofCode r.m3).bind fun m => (fp1Of r).map fun e => .fsqrtExt m e
  | 0x6C => (fp1Of r).map .fexp2Ext
  | 0x6D => (fp1Of r).map .flog2Ext
  | 0x6E => (fp1Of r).map .fsinExt
  | 0x6F => (fp1Of r).map .fcosExt
  | 0x70 => (fp1Of r).map .ftanhExt
  | 0x71 => (fp1Of r).map .ffloorExt
  | 0x72 => (fp1Of r).map .fceilExt
  | 0x73 => (fp1Of r).map .frintExt
  | 0x74 => (Rm.ofCode r.m3).bind fun m => (fp2Of r).map fun e => .fscaleExt m e
  | 0x75 => (fp1Of r).map .fclassExt
  | 0x76 =>
      if r.len = 1 then (Rm.ofCode r.m3).bind fun m => (fp3Of r).map fun e => .fdot2 m e else none
  | 0x90 => ((cvtFmtOf (r.w2 / 2 ^ 22 % 4) (r.w2 % 256)).bind fun s => (cvtFmtOf (r.w2 / 2 ^ 24) (r.w2 / 256 % 256)).bind fun t => (Rm.ofCode (r.w2 / 2 ^ 16 % 4)).map fun m => .cvt r.f r.d r.a s t (r.w2 / 2 ^ 19 % 8) (r.w2 / 2 ^ 18 % 2 == 1) m)
  | 0x91 => (cvsOf r r.w2).map .qnt
  | 0x92 => (cvsOf r r.w2).map .dqn
  | 0x93 => (cvsOf r (r.w2 % 16)).map fun e => .cbx (r.w2 / 16 == 1) e
  | 0x94 => (cvsOf r r.w2).map .scl
  | 0x95 => (cvsOf r r.w2).map .pack4
  | 0x96 => (cvsOf r r.w2).map .unpack4
  | 0xA0 => (MemW.ofCode (r.minor % 8)).bind fun w => (scopeOpt 1 r).map fun q => .ldExt w (Spc.ofBit (r.minor / 8)) q r.d (memOf r)
  | 0xA1 => (MemW.ofCode (r.minor % 8)).bind fun w => (scopeOpt 2 r).map fun q => .stExt w (Spc.ofBit (r.minor / 8)) q r.d (memOf r)
  | 0xA2 => if r.minor = 3 ∨ r.minor = 4 then (scopeOpt 1 r).map fun q => .ldv (r.minor == 4) q r.d (memOf r) else none
  | 0xA3 => some (.vset r.f r.rt r.d r.srcA r.b)
  | 0xA4 => (Prf.ofCode r.minor).map fun v => .prfExt v (memOf r)
  | 0xA5 => some (.flushExt (memOf r))
  | 0xA6 =>
      if r.minor < 2 then some (.invExt (r.minor == 1) (memOf r)) else none
  | 0xC0 => (AtmOp.ofCode r.minor).bind fun o => (atmOf r).map fun e => .atm o e
  | 0xC1 =>
      if r.minor < 2 then (atmOf r).map fun e => .cas (r.minor == 1) e r.c else none
  | 0xC2 =>
      if r.minor < 2 then (atmOf r).map fun e => .casv (r.minor == 1) e r.c else none
  | 0xC3 => (atmOf r).map .binc
  | 0xC4 => (atmOf r).map .winc
  | 0xC5 => (atmOf r).map .dgz
  | 0xC6 => (atmOf r).map .addl
  | 0xC7 => (AtmOp.ofCode r.minor).bind fun o => (atmOf r).map fun e => .red o e
  | 0xD0 =>
      if r.minor = 0 then (Scope.ofCode r.slot).bind fun s => (Ord.ofCode (r.m3 / 2)).map fun o => .fence r.f o s else
      if r.minor = 1 then (Scope.ofCode r.slot).map fun s => .fenceL r.f s else
      if r.minor = 2 then (Scope.ofCode r.slot).map fun s => .fenceR r.f s else none
  | 0xD1 => (Scope.ofCode r.slot).bind fun s => (Path.ofCode (r.w2 % 16)).bind fun p => (Path.ofCode (r.w2 / 16)).map fun q => .xfence r.f s p q
  | 0xD2 => (BarKind.ofCode r.minor).map fun k => .barExt r.f k r.a (r.w2 % 256) (r.w2 / 256)
  | 0xD3 => some (.rgn r.f r.w2)
  | 0xD4 => (scopeOpt 1 r).bind fun q => (Cc.ofCode (r.w2 % 8)).map fun c => .poll r.f r.rt q r.d r.srcA r.b (r.w2 / 32) (Spc.ofBit (r.w2 / 16 % 2)) (r.w2 / 8 % 2 == 1) c
  | 0xD5 => (scopeOpt 1 r).map fun q => .mwait r.f r.rt q r.d r.srcA r.b (r.w2 == 1)
  | 0xD6 => some (.twanyExt r.f r.d r.kb)
  | 0xD7 => some (.twallExt r.f r.d r.kb)
  | 0xD8 => some (.tffExt r.f r.d r.kb)
  | 0xE0 =>
      if r.minor < 2 then some (.bld r.f r.slot (r.minor == 1) r.a r.b r.c (msetOf r.w2)) else none
  | 0xE1 =>
      if r.minor < 2 then some (.mmx (mmOf r)) else none
  | 0xE2 =>
      if r.minor < 2 then some (.mmq (mmOf r)) else none
  | 0xE3 => some (.mmo r.f r.d r.a (msetOf r.w2))
  | 0xE4 => some (.cdecl r.f r.d r.kb)
  | 0xE5 => some (.csig r.f r.d)
  | 0xE6 => some (.abkGet r.f r.d)
  | 0xE7 => some (.abkPut r.f r.a)
  | 0xE8 =>
      if r.minor < 2 then some (.accLd r.f r.slot (Spc.ofBit r.minor) r.d r.a r.b r.w2) else none
  | 0xE9 =>
      if r.minor < 2 then some (.accSt r.f r.slot (Spc.ofBit r.minor) r.d r.a r.b r.w2) else none
  | 0xEA => some (.accZ r.f r.d)
  | 0xF0 => some (.cpy r.f r.d r.a r.b r.c (r.w2 % 128) (bitN r.w2 7) (bitN r.w2 8) (bitN r.w2 9) (bitN r.w2 10))
  | 0xF1 => some (.cpw r.f r.d r.a r.b (r.w2 % 128) (r.w2 / 128))
  | 0xF2 => some (.cps r.f r.d r.a r.b r.c (r.w2 % 128) (bitN r.w2 9) (bitN r.w2 10))
  | 0xF3 => some (.coll r.f r.a (r.w2 == 1))
  | 0xF4 => some (.rsum r.f r.a r.b (bitN r.w2 0) (bitN r.w2 1))
  | 0xF5 =>
      if r.minor = 0 then some (.rinv r.f r.d r.a r.b (r.w2 % 4096) (r.w2 / 4096 % 8) (r.w2 / 2 ^ 16)) else
      if r.minor = 1 then some (.rinvT r.f r.d r.a r.b (r.w2 % 4096) (r.w2 / 4096 % 8) (r.w2 / 2 ^ 16)) else none
  | 0xF8 => some (.launch r.f r.a r.w2)
  | 0xF9 =>
      if r.w2 % 2 = 0 then some (.post r.f r.a (Spc.ofBit (r.w2 / 2))) else
      if r.w2 = 1 ∨ r.w2 = 3 then some (.postQueue r.f r.d r.a) else none
  | 0xFA =>
      if r.minor = 0 ∧ r.w2 = 0 then some (.fget r.f r.d r.a) else
      if r.minor = 0 ∧ r.w2 = 1 then some (.fgetQueue r.f r.d r.a) else
      if r.minor = 1 then some (.fput r.f r.d r.a r.b) else none
  | 0xFB => some (.phaseExt r.f r.w2)
  | 0xFC => some (.intent r.f r.a (r.w2 % 2 ^ 16) (r.w2 / 2 ^ 16 == 1))
  | 0xFD => some (.rblkAcq r.f r.d (r.w2 % 16) (r.w2 / 16 == 1))
  | 0xFE => some (.rblkRel r.f r.w2)
  | _ => none

/-- The forms each opcode provides, as LEN values (R53 to R61); none for an unassigned opcode (R62). -/
def opForms : Nat → List Nat
  | 0x01 => [0]
  | 0x02 => [0, 1]
  | 0x03 => [0, 1]
  | 0x04 => [0, 1]
  | 0x05 => [0]
  | 0x06 => [0, 1]
  | 0x07 => [0, 1]
  | 0x08 => [0, 1]
  | 0x09 => [0, 1]
  | 0x0A => [0]
  | 0x0B => [0, 1]
  | 0x0C => [0]
  | 0x0D => [0]
  | 0x0E => [0]
  | 0x0F => [0]
  | 0x10 => [0]
  | 0x11 => [1, 3]
  | 0x12 => [0]
  | 0x13 => [0, 1]
  | 0x14 => [0, 1]
  | 0x15 => [0, 1]
  | 0x16 => [0]
  | 0x17 => [0]
  | 0x18 => [0, 1]
  | 0x19 => [0, 1]
  | 0x20 => [0, 1, 3]
  | 0x21 => [0, 1, 3]
  | 0x22 => [0, 1, 3]
  | 0x23 => [0, 1, 3]
  | 0x24 => [1, 3]
  | 0x25 => [0, 1]
  | 0x26 => [0, 1]
  | 0x27 => [0, 1, 3]
  | 0x28 => [0, 1, 3]
  | 0x29 => [0, 1, 3]
  | 0x2A => [0, 1, 3]
  | 0x2B => [0, 1, 3]
  | 0x2C => [0, 1, 3]
  | 0x2D => [0, 1]
  | 0x2E => [0, 1, 3]
  | 0x2F => [0, 1, 3]
  | 0x30 => [0, 1, 3]
  | 0x31 => [0, 1, 3]
  | 0x32 => [0, 1]
  | 0x33 => [0, 1]
  | 0x34 => [0, 1]
  | 0x35 => [0, 1]
  | 0x36 => [1, 3]
  | 0x37 => [1, 3]
  | 0x38 => [1]
  | 0x39 => [0, 1]
  | 0x3A => [1, 3]
  | 0x3B => [1, 3]
  | 0x3C => [1, 2]
  | 0x3D => [1, 3]
  | 0x3E => [0, 1, 3]
  | 0x3F => [0, 1, 3]
  | 0x50 => [0]
  | 0x51 => [1, 2]
  | 0x52 => [0, 1, 3]
  | 0x53 => [0, 1, 3]
  | 0x54 => [0, 1, 3]
  | 0x55 => [0, 1, 3]
  | 0x56 => [0, 1, 3]
  | 0x57 => [0, 1, 3]
  | 0x58 => [0, 1, 3]
  | 0x59 => [0, 1, 3]
  | 0x5A => [1, 3]
  | 0x5B => [1]
  | 0x5C => [1]
  | 0x60 => [0, 1, 3]
  | 0x61 => [0, 1, 3]
  | 0x62 => [0, 1, 3]
  | 0x63 => [1, 3]
  | 0x64 => [0, 1, 3]
  | 0x65 => [0, 1, 3]
  | 0x66 => [0, 1]
  | 0x67 => [0, 1]
  | 0x68 => [1, 3]
  | 0x69 => [0, 1]
  | 0x6A => [0, 1]
  | 0x6B => [0, 1]
  | 0x6C => [0, 1]
  | 0x6D => [0, 1]
  | 0x6E => [0, 1]
  | 0x6F => [0, 1]
  | 0x70 => [0, 1]
  | 0x71 => [0, 1]
  | 0x72 => [0, 1]
  | 0x73 => [0, 1]
  | 0x74 => [0, 1, 3]
  | 0x75 => [0, 1]
  | 0x76 => [1]
  | 0x90 => [1]
  | 0x91 => [1]
  | 0x92 => [1]
  | 0x93 => [1]
  | 0x94 => [1]
  | 0x95 => [1]
  | 0x96 => [1]
  | 0xA0 => [0, 1]
  | 0xA1 => [0, 1]
  | 0xA2 => [1]
  | 0xA3 => [1]
  | 0xA4 => [0, 1]
  | 0xA5 => [0, 1]
  | 0xA6 => [0, 1]
  | 0xC0 => [1]
  | 0xC1 => [1]
  | 0xC2 => [1]
  | 0xC3 => [1]
  | 0xC4 => [1]
  | 0xC5 => [1]
  | 0xC6 => [1]
  | 0xC7 => [1]
  | 0xD0 => [1]
  | 0xD1 => [1]
  | 0xD2 => [0, 1]
  | 0xD3 => [1]
  | 0xD4 => [1]
  | 0xD5 => [1]
  | 0xD6 => [0, 1, 3]
  | 0xD7 => [0, 1, 3]
  | 0xD8 => [0, 1, 3]
  | 0xE0 => [1]
  | 0xE1 => [1]
  | 0xE2 => [1]
  | 0xE3 => [1]
  | 0xE4 => [1]
  | 0xE5 => [1]
  | 0xE6 => [1]
  | 0xE7 => [1]
  | 0xE8 => [1]
  | 0xE9 => [1]
  | 0xEA => [1]
  | 0xF0 => [1]
  | 0xF1 => [1]
  | 0xF2 => [1]
  | 0xF3 => [1]
  | 0xF4 => [1]
  | 0xF5 => [1]
  | 0xF8 => [1]
  | 0xF9 => [1]
  | 0xFA => [1]
  | 0xFB => [0, 1]
  | 0xFC => [1]
  | 0xFD => [1]
  | 0xFE => [1]
  | _ => []

/-- The instruction the fields name, before its operands are checked. -/
def candidate (r : Raw) : Option Instr :=
  if r.len = 0 then candBase r else if r.len = 2 then candLit r else candExt r

/-- Privilege levels of R33 and of the level column of R53 to R61. -/
inductive Level where
  | u | p | s | n
  deriving DecidableEq, Repr

/-- The level an instruction needs, from OP (R53 to R61) and, for `gsr` and `ssr`, from the special register's number
(R31): field A of `gsr`, field D of `ssr`. -/
def opLevel (op sr : Nat) : Level :=
  match op with
  | 0x0D => .p
  | 0x0E => if sr < 0x100 then .u else if sr = 0x180 then .s else .p
  | 0x0F => if sr < 0x100 then .u else if sr = 0x180 then .s else .p
  | 0x10 => .s
  | 0xD2 => .n
  | 0xF0 => .u
  | 0xF2 => .u
  | 0xF5 => .u
  | 0xFD => .p
  | 0xFE => .p
  | n => if 0xE0 ≤ n && n ≤ 0xFE then .n else .u

/-- Whether OP is assigned and provides the form of LEN (check 1 of R48). -/
def formOk (op len : Nat) : Bool := (opForms op).contains len

/-- Words of a form (R14). -/
def lenWords (len : Nat) : Nat := if len = 0 then 1 else if len = 3 then 5 else 3

/-- The fields with what a form ignores cleared: the space bit of `post` where Q is 1 (R224). -/
def Raw.bare (r : Raw) : Raw := if r.op = 0xF9 ∧ r.w2 = 3 then { r with w2 := 1 } else r

/-- The instruction that the fields hold, or why they hold none (R19, R48 checks 1 and 4). -/
def decodeRaw (r : Raw) : Except Reject Instr :=
  if opForms r.op = [] then .error .opcode
  else if !formOk r.op r.len then .error .form
  else match candidate r with
    | none => .error .minor
    | some i =>
      match wfError i with
      | some e => .error e
      | none => if toRaw i = some r ∨ toRaw i = some r.bare then .ok i else .error .reserved

/-! ### Words and bytes -/

/-- Word 0 (R15). -/
def Raw.word0 (r : Raw) : Nat := r.len + 4 * r.op + 2 ^ 10 * r.d + 2 ^ 19 * r.a + 2 ^ 28 * r.f

/-- Word 1 (R16). -/
def Raw.word1 (r : Raw) : Nat :=
  r.b + 2 ^ 9 * r.c + 2 ^ 18 * r.minor + 2 ^ 22 * r.slot + 2 ^ 25 * r.ret + 2 ^ 27 * r.m3 + 2 ^ 30 * r.ib + 2 ^ 31 * r.ka

/-- The words of an instruction, in ascending address (R14). -/
def Raw.words (r : Raw) : List Nat :=
  r.word0 :: (if r.len = 1 ∨ r.len = 3 then [r.word1, r.w2] else [])
    ++ (if r.len = 2 ∨ r.len = 3 then [r.lit % 2 ^ 32, r.lit / 2 ^ 32] else [])

/-- The fields of word 0 (R15). -/
def rawOfWord0 (w : Nat) : Raw :=
  { len := w % 4, op := w / 4 % 256, d := w / 2 ^ 10 % 512, a := w / 2 ^ 19 % 512, f := w / 2 ^ 28 % 16 }

/-- Word 1 and word 2 added (R16, R17). -/
def Raw.withWord1 (r : Raw) (w1 w2 : Nat) : Raw :=
  { r with b := w1 % 512, c := w1 / 2 ^ 9 % 512, minor := w1 / 2 ^ 18 % 16, slot := w1 / 2 ^ 22 % 8,
           ret := w1 / 2 ^ 25 % 4, m3 := w1 / 2 ^ 27 % 8, ib := w1 / 2 ^ 30 % 2, ka := w1 / 2 ^ 31 % 2, w2 := w2 }

/-- The fields of an instruction's words, and the words that follow it; `none` when LEN asks for more words. -/
def rawOfWords : List Nat → Option (Raw × List Nat)
  | [] => none
  | w :: rest =>
    let r := rawOfWord0 w
    if r.len = 0 then some (r, rest)
    else match rest with
      | x :: y :: rest2 =>
        if r.len = 1 then some (r.withWord1 x y, rest2)
        else if r.len = 2 then some ({ r with lit := x + 2 ^ 32 * y }, rest2)
        else match rest2 with
          | lo :: hi :: rest4 => some ({ r.withWord1 x y with lit := lo + 2 ^ 32 * hi }, rest4)
          | _ => none
      | _ => none

/-- The instruction at the head of a list of words and the words after it, or why there is none. -/
def decodeWords (ws : List Nat) : Except Reject (Instr × List Nat) :=
  match ws with
  | [] => .error .truncated
  | w :: _ =>
    let r0 := rawOfWord0 w
    if opForms r0.op = [] then .error .opcode
    else if !formOk r0.op r0.len then .error .form
    else match rawOfWords ws with
      | none => .error .truncated
      | some (r, rest) =>
        match decodeRaw r with
        | .ok i => .ok (i, rest)
        | .error e => .error e

/-- Little-endian words of bytes (R7); a last group of fewer than four bytes is no word. -/
def wordsOfBytes : List Byte → List Nat
  | a :: b :: c :: d :: rest =>
    (a.toNat + 2 ^ 8 * b.toNat + 2 ^ 16 * c.toNat + 2 ^ 24 * d.toNat) :: wordsOfBytes rest
  | _ => []

/-- The four bytes of a word, lowest address first (R7). -/
def bytesOfWord (w : Nat) : List Byte :=
  [BitVec.ofNat 8 w, BitVec.ofNat 8 (w / 2 ^ 8), BitVec.ofNat 8 (w / 2 ^ 16), BitVec.ofNat 8 (w / 2 ^ 24)]

/-- The instruction at the head of a list of bytes and the bytes after it, or why there is none. -/
def decode (bs : List Byte) : Except Reject (Instr × List Byte) :=
  match decodeWords (wordsOfBytes bs) with
  | .ok (i, rest) => .ok (i, bs.drop (bs.length / 4 * 4 - 4 * rest.length))
  | .error e => .error e

/-- The words of an instruction; empty for a row that has no encoding. -/
def encodeWords (i : Instr) : List Nat :=
  match toRaw i with
  | some r => r.words
  | none => []

/-- The bytes of an instruction as they stand in memory. -/
def encode (i : Instr) : List Byte := (encodeWords i).flatMap bytesOfWord

/-- Length of an instruction in bytes (R14). -/
def Instr.bytes (i : Instr) : Nat :=
  match toRaw i with
  | some r => 4 * lenWords r.len
  | none => 4

/-- The instruction an instruction word holds, its bits numbered from the least significant bit of word 0; the bits above
`nbits` are 0. -/
def decodeTableWord (nbits w : Nat) : Option Instr :=
  let v := w % 2 ^ nbits
  match decodeWords [v % 2 ^ 32, v / 2 ^ 32 % 2 ^ 32, v / 2 ^ 64 % 2 ^ 32, v / 2 ^ 96 % 2 ^ 32, v / 2 ^ 128 % 2 ^ 32] with
  | .ok (i, _) => some i
  | .error _ => none

end Sys2Proof
end

