-- ==== Sys2Proof/Machine/Ev.lean ====
section
/-!
DEFINITION. Machine/Ev.lean: what the agenda names when a party other than an issuing warp takes a step: the rows of the opcode
table that no instruction word encodes, in its order. Each constructor runs the meaning of the constructor of Instr of its name
(Machine/Events.lean).
-/

namespace Sys2Proof.Machine

/-- A step of a party (log entry 1). -/
inductive Ev where
  /-- R430, POWER_GOOD_BOOT. -/
  | powerGoodBoot (cfg : List Byte) (pc : List Byte) (svc : List (List Byte)) (flash : Bool)
  /-- R370, CORE_CYCLE. -/
  | coreCycle (core : Nat)
  /-- R241, URGENT_WARP. -/
  | urgentWarp (core : Nat) (sched : Nat)
  /-- R245, FAIRNESS_TURN. -/
  | fairnessTurn (wid : Nat)
  /-- R246, TURN_TIMEOUT. -/
  | turnTimeout (wid : Nat)
  /-- R375, DIE_BUCKET_CYCLE. -/
  | dieBucketCycle (die : Nat)
  /-- R377, GOV_TICK. -/
  | govTick
  /-- R394, EPT_CALIBRATION. -/
  | eptCalibration (pm : Option Nat)
  /-- R388, BANK_MONITOR_SAMPLE. -/
  | bankMonitorSample (die : Nat) (charge : BitVec 32) (vbank : BitVec 16)
  /-- R385, INTENT_LAPSE. -/
  | intentLapse (core : Nat) (ctx : Nat)
  /-- R397, WRITE_ASSIST_CHANGE. -/
  | writeAssistChange (die : Nat) (yard : Nat) (mv : Nat)
  /-- R398, SHADOW_LATCH_REPLAY. -/
  | shadowLatchReplay (core : Nat)
  /-- R293, TIMER_COMPARE. -/
  | timerCompare (wid : Nat)
  /-- R251, LOCAL_WAIT_WATCHDOG. -/
  | localWaitWatchdog (core : Nat) (ctx : Nat)
  /-- R424, EXTWAIT_TIMEOUT. -/
  | extwaitTimeout (wid : Nat)
  /-- R188, POLL_REREAD. -/
  | pollReread (wid : Nat) (lane : Nat)
  /-- R189, MWAIT_WAKE. -/
  | mwaitWake (wid : Nat) (lane : Nat)
  /-- R225, FGET_RETRY. -/
  | fgetRetry (wid : Nat)
  /-- R323, FUTURE_REENQUEUE. -/
  | futureReenqueue (die : Nat) (rec : Nat)
  /-- R257, WARP_RETIRE. -/
  | warpRetire (wid : Nat)
  /-- R258, BLOCK_RETIRE. -/
  | blockRetire (blk : Nat)
  /-- R259, GRID_COMPLETE. -/
  | gridComplete (grid : Nat)
  /-- R294, PREEMPTION. -/
  | preemption (ctx : Nat)
  /-- R301, SWITCH_IN. -/
  | switchIn (blk : Nat)
  /-- R403, TRAP_HANDLER_START. -/
  | trapHandlerStart (wid : Nat)
  /-- R195, ENGINE_FAULT. -/
  | engineFault (core : Nat) (opid : Nat) (cls : Nat) (cause : Nat) (addr : BitVec 64)
  /-- R194, COPY_ENGINE_POP. -/
  | copyEnginePop (core : Nat)
  /-- R196, COPY_COMPLETE. -/
  | copyComplete (core : Nat) (opid : Nat)
  /-- R265, MATRIX_PASS. -/
  | matrixPass (core : Nat)
  /-- R266, MATRIX_OP_COMPLETE. -/
  | matrixOpComplete (core : Nat)
  /-- R201, BANK_ZERO_COMPLETE. -/
  | bankZeroComplete (core : Nat) (bank : Nat)
  /-- R362, COLL_ENGINE_POP. -/
  | collEnginePop (die : Nat)
  /-- R343, REDUCTION_CONTRIBUTION. -/
  | reductionContribution (c : Contrib)
  /-- R349, RSUM_TIMEOUT. -/
  | rsumTimeout (die : Nat) (desc : BitVec 64) (seq : Nat)
  /-- R358, COLLECTIVE_CHUNK. -/
  | collectiveChunk (die : Nat) (inst : Nat) (point : Nat) (chunk : Nat) (data : List Byte)
  /-- R360, COLL_POINT_REPORT. -/
  | collPointReport (die : Nat) (inst : Nat) (point : Nat) (status : Nat)
  /-- R360, COLL_END_STATUS. -/
  | collEndStatus (die : Nat) (inst : Nat) (status : Nat)
  /-- R360, COLL_POINT_TIMEOUT. -/
  | collPointTimeout (die : Nat) (inst : Nat) (reach : Bool)
  /-- R350, LAUNCH_TRIGGER_ENQUEUE. -/
  | launchTriggerEnqueue (ctx : Nat) (q : Nat)
  /-- R319, LAUNCH_ACCEPT. -/
  | launchAccept (q : Nat)
  /-- R317, QUEUE_SWITCH. -/
  | queueSwitch (q : Nat)
  /-- R320, CHILD_LAUNCH_ACCEPT. -/
  | childLaunchAccept (ctx : Nat) (q : Nat)
  /-- R239, GROUP_PLACEMENT. -/
  | groupPlacement (grid : Nat) (grp : Nat)
  /-- R322, CONTINUATION_DISPATCH. -/
  | continuationDispatch (yard : Nat)
  /-- R328, REMOTE_INVOCATION. -/
  | remoteInvocation (p : Invoke)
  /-- R221, INVOCATION_ANSWER. -/
  | invocationAnswer (wid : Nat) (code : Nat) (req : Bool)
  /-- R330, HANDLER_ASSIGN. -/
  | handlerAssign (die : Nat)
  /-- R329, OVERFLOW_RING_MOVE. -/
  | overflowRingMove (die : Nat) (ctx : Nat) (hidx : Nat)
  /-- R336, LINE_READ_REQUEST. -/
  | lineReadRequest (dev : Nat) (addr : Nat)
  /-- R336, LINE_READ_RESPONSE. -/
  | lineReadResponse (line : Nat) (core : Nat) (data : List Byte) (ver : BitVec 32)
  /-- R282, OWNERSHIP_REQUEST. -/
  | ownershipRequest (dev : Nat) (addr : Nat)
  /-- R282, RECALL. -/
  | recall (line : Nat)
  /-- R336, LEASE_RETURN. -/
  | leaseReturn (dev : Nat) (addr : Nat)
  /-- R282, LEASE_RETURN_WITH_DATA. -/
  | leaseReturnWithData (dev : Nat) (addr : Nat) (data : List Byte) (ver : BitVec 32)
  /-- R282, LEASE_IDLE_RETURN. -/
  | leaseIdleReturn (line : Nat)
  /-- R282, LEASE_DEADLINE_RETURN. -/
  | leaseDeadlineReturn (line : Nat)
  /-- R282, LEASE_LAPSE. -/
  | leaseLapse (addr : Nat)
  /-- R336, COMMITTED_LINE_WRITE. -/
  | committedLineWrite (dev : Nat) (addr : Nat) (ctx : Nat) (data : List Byte) (mask : BitVec 128)
  /-- R336, ATOMIC_REQUEST. -/
  | atomicRequest (p : RemoteAtomic)
  /-- R336, ATOMIC_RESPONSE. -/
  | atomicResponse (wid : Nat) (lane : Nat) (val : BitVec 64)
  /-- R319, PADDOCK_GRID_GROUP. -/
  | paddockGridGroup (ctx : Nat) (rec : List Byte) (grp : Nat) (dev : Nat)
  /-- R319, GROUP_RETIRED. -/
  | groupRetired (grid : Nat) (grp : Nat)
  /-- R386, POWER_INTENT. -/
  | powerIntent (dev : Nat) (rate : Nat) (due : Nat)
  /-- R426, FAILURE_NOTICE. -/
  | failureNotice (dev : Nat)
  /-- R337, LINK_FAILURE. -/
  | linkFailure (fab : Bool) (port : Nat) (devs : List Nat)
  /-- R338, HOST_MEMORY_ACCESS. -/
  | hostMemoryAccess (h : Home) (wr : Option (List Byte)) (len : Nat)
  /-- R408, DRAM_UE. -/
  | dramUe (line : Nat) (wid : Option Nat)
  /-- R405, L2_CLEAN_UE. -/
  | l2CleanUe (line : Nat)
  /-- R412, L2_DIRTY_UE_CONTAINMENT. -/
  | l2DirtyUeContainment (line : Nat) (set : Nat) (way : Nat)
  /-- R409, REG_CACHE_UE. -/
  | regCacheUe (wid : Nat) (reg : Nat) (lane : Nat)
  /-- R410, SPAD_ACC_UE. -/
  | spadAccUe (blk : Nat) (acc : Bool)
  /-- R411, MACRO_PARITY_ERROR. -/
  | macroParityError (core : Nat) (macro_ : Nat)
  /-- R405, L1_PARITY_ERROR. -/
  | l1ParityError (core : Nat) (line : Nat) (ic : Bool)
  /-- R405, TLB_PARITY_ERROR. -/
  | tlbParityError (core : Nat) (ctx : Nat) (page : Nat)
  /-- R415, DEVICE_FATAL_ERROR. -/
  | deviceFatalError (unit : Nat)
  /-- R406, PATROL_SCRUB_READ. -/
  | patrolScrubRead (line : Nat) (ue : Bool)
  /-- R310, MMU_INVALIDATE. -/
  | mmuInvalidate (v : BitVec 32)
  /-- R310, MMU_INVALIDATE_DONE. -/
  | mmuInvalidateDone
  /-- R413, PGRET_RELEASE. -/
  | pgretRelease (i : Nat)
  /-- R425, FLT_KILL. -/
  | fltKill (v : BitVec 32)
  /-- R422, DEBUG_STOP. -/
  | debugStop
  /-- R422, DEBUG_RESTART. -/
  | debugRestart
  /-- R422, DEBUG_STOP_COMPLETE. -/
  | debugStopComplete
  /-- R423, DBG_REGW. -/
  | dbgRegw (v : BitVec 64)
  /-- R432, MEAS_EXTEND. -/
  | measExtend (who : Writer) (v : BitVec 32)
  /-- R439, MEM_TRAIN_STEP. -/
  | memTrainStep (die : Nat) (v : BitVec 32)
  /-- R439, MEM_TRAIN_STEP_DONE. -/
  | memTrainStepDone (die : Nat) (layers : BitVec 16)
  /-- R436, FPT_TRAIN_START. -/
  | fptTrainStart (fab : Bool) (port : Nat) (v : BitVec 32)
  /-- R436, FPT_PORT_OFF. -/
  | fptPortOff (fab : Bool) (port : Nat) (v : BitVec 32)
  /-- R436, FPT_TRAINING_PROGRESS. -/
  | fptTrainingProgress (fab : Bool) (port : Nat) (ok : Bool) (lgood : BitVec 8) (pdev : Nat) (pport : Nat) (late : Bool)
  /-- R315, LQ_TAIL_WRITE. -/
  | lqTailWrite (q : Nat) (v : BitVec 32)
  /-- R314, LQ_CFG_WRITE. -/
  | lqCfgWrite (q : Nat) (v : BitVec 32)
  /-- R254, PHS_CTX_WRITE. -/
  | phsCtxWrite (die : Nat) (v : BitVec 32)
  /-- R442, BOOT_RUN_SET. -/
  | bootRunSet
  /-- R429, SVC_DOOR_WRITE. -/
  | svcDoorWrite (n : Nat) (host : Bool) (v : BitVec 32)
  /-- R429, SVC_TICK. -/
  | svcTick
  /-- R109, HALT_WAKE. -/
  | haltWake (n : Nat)
  /-- R9, REGISTER_WRITE. -/
  | registerWrite (who : Writer) (off : Nat) (bytes : Nat) (v : BitVec 64)
  /-- R26, LOAD_COMPLETION. -/
  | loadCompletion (wid : Nat) (reg : Nat)
  /-- R405, LINK_LEVEL_REPLAY. -/
  | linkLevelReplay (fab : Nat) (port : Nat)
  /-- R432, MEAS_EXTEND_DONE. -/
  | measExtendDone
  /-- R425, TERMINATION_COMPLETE. -/
  | terminationComplete
  deriving DecidableEq, Repr

end Sys2Proof.Machine
end

