-- ==== Sys2Proof/Machine/MatrixMath.lean ====
section
/-!
DEFINITION. Machine/MatrixMath.lean: alignment of groups, B cells, group sums and the fold of the matrix engine
(spec/03_numbers.md R87 to R93).
-/

namespace Sys2Proof.Machine

open Sys2Proof.Machine.Fp

/-- A group of 24 integers with its exponent, or its NaN mark (R87, R88). -/
structure MGroup where
  nan : Bool
  q : List Int
  e : Int
  deriving DecidableEq, Repr

/-- floor(log2) of a finite nonzero value; `none` for the rest. -/
def valLog2 : Val → Option Int
  | .fin _ n d => if n = 0 then none else some (log2Floor n d)
  | _ => none

/-- A finite value times 2^k rounded to the nearest integer, ties to even. -/
def valToInt (v : Val) (k : Int) : Int :=
  match v with
  | .fin s n d =>
    let m : Int := roundNat .rne s (n * (pow2 k).1) (d * (pow2 k).2)
    if s then -m else m
  | _ => 0

/-- Align of R87: integers of P bits and their exponent. -/
def align (vs : List Val) (p : Nat) : List Int × Int :=
  match vs.filterMap valLog2 with
  | [] => (vs.map fun _ => 0, 0)
  | l :: ls =>
    let emax := ls.foldl max l
    let e := emax - ((p : Int) - 2)
    (vs.map fun v =>
      let q := valToInt v (-e)
      if q = 2 ^ (p - 1) then 2 ^ (p - 1) - 1 else q, e)

/-- A value that is no finite number. -/
def notFinite : Val → Bool
  | .fin _ _ _ => false
  | _ => true

/-- An integer element format (R66). -/
def isIntElem (c : Nat) : Bool := c == 6 || c == 7 || c == 9

/-- An integer-format element as an integer. -/
def elemInt (c bits : Nat) : Int :=
  match fmtValue (.elem c) bits with
  | .fin s n _ => if s then -(n : Int) else n
  | _ => 0

/-- The E8M0 exponent of a scale code, 0 without a scale (R87). -/
def scaleExpOf (sf code : Nat) : Int := if sf = 0 then 0 else (code : Int) - 127

/-- The scale code that makes a group NaN (R69). -/
def scaleIsNaN (sf code : Nat) : Bool := sf != 0 && code == 0xFF

/-- An A group: element codes, format, P, scale format and code (R87). -/
def aGroup (elem p sf code : Nat) (els : List Nat) : MGroup :=
  let vs := els.map fun b => fmtValue (.elem elem) b
  if vs.any notFinite || scaleIsNaN sf code then { nan := true, q := [], e := 0 }
  else if isIntElem elem then { nan := false, q := els.map (elemInt elem), e := scaleExpOf sf code }
  else
    let (q, e) := align vs p
    { nan := false, q := q, e := e + scaleExpOf sf code }

/-- A B group of a format other than CB16: 24 element codes, zeros at pruned positions (R88). -/
def bGroup (elem sf code : Nat) (els : List Nat) : MGroup :=
  let vs := els.map fun b => fmtValue (.elem elem) b
  if vs.any notFinite || scaleIsNaN sf code then { nan := true, q := [], e := 0 }
  else if isIntElem elem then { nan := false, q := els.map (elemInt elem), e := scaleExpOf sf code }
  else if elem = 5 then { nan := false, q := vs.map fun v => valToInt v 1, e := scaleExpOf sf code - 1 }
  else
    let (q, e) := align vs 16
    { nan := false, q := q, e := e + scaleExpOf sf code }

/-- A B group of CB16: its 24 cells (R88). -/
def cb16Group (sf code : Nat) (cells : List Int) : MGroup :=
  if scaleIsNaN sf code then { nan := true, q := [], e := 0 }
  else { nan := false, q := cells, e := scaleExpOf sf code - 1 }

/-- The group sum S (R91). -/
def groupSum (a b : List Int) : Int := (List.zipWith (· * ·) a b).foldl (· + ·) 0

/-- S · 2^e as an exact value. -/
def sumVal (s e : Int) : Val := scaled (s < 0) s.natAbs e

/-- A contribution folded into an FP32 accumulator with one rounding (R92). -/
def fold (acc : Word) (nan : Bool) (v : Val) : Word :=
  if nan || (f32.value acc.toNat).isNan || v.isNan then 0x7FC00000
  else if v.isZero then BitVec.ofNat 32 (f32.round .rne ((f32.value acc.toNat).add .rne (.fin false 0 1)))
  else BitVec.ofNat 32 (f32.round .rne ((f32.value acc.toNat).add .rne v))

/-- One group of A against one group of B, folded (R91, R92). -/
def foldGroup (acc : Word) (a b : MGroup) : Word :=
  fold acc (a.nan || b.nan) (sumVal (groupSum a.q b.q) (a.e + b.e))

/-- One outlier record's product with a cell; a product with cell 0 is +0, even for an infinity (R212). -/
def outlierTerm (value : Nat) (cell : Int) : Val :=
  if cell = 0 then .fin false 0 1
  else (f32.value value).mul (.fin (cell < 0) cell.natAbs 1)

/-- The exact sum of a group's outlier products, scaled by 2^eB, folded as one contribution (R93, R212). -/
def foldOutliers (acc : Word) (b : MGroup) (rs : List (Nat × Nat)) : Word :=
  if rs.isEmpty then acc
  else if b.nan then 0x7FC00000
  else
    let t := rs.foldl (fun (s : Val) r => s.add .rne (outlierTerm r.2 (b.q.getD r.1 0))) (.fin false 0 1)
    match t with
    | .fin _ _ _ => fold acc false (t.scaleBy b.e)
    | v => fold acc false v

end Sys2Proof.Machine
end

