-- ==== Sys2Proof/Machine/State.lean ====
section
/-!
DEFINITION. Machine/State.lean: the state of a KBY-7400 as plain data, and its reset value. INVENTORY.md lists every piece with
the rule that names it. Tables are lists of keys and values with keys strictly rising; a key that is not listed reads as the
default that its accessor in Machine/Ops.lean names. The model's own fields are marked as such.
-/

namespace Sys2Proof.Machine

/-- A sparse table by number: keys strictly rising, no entry equal to the default. -/
abbrev Tab (α : Type) := List (Nat × α)

/-- Trap classes (spec/14_faults.md R399). -/
inductive TrapClass where
  | illegal | priv | align | page | prot | race | rgnOvf | rentry | watchdog | extwait | timer | ue | poison | barOver
  | abkSize | tagBusy | collTimeout | rinvNack | debug | user | outlFull
  deriving DecidableEq, Repr

/-- A trap with what its fault record carries (R400). -/
structure Trap where
  cls : TrapClass
  cause : Nat := 0
  info : Word := 0
  addr : DWord := 0
  aux : DWord := 0
  core : Option Nat := none -- the faulting core of a yard round, where it is not the warp's own (R274)
  wait : Option Nat := none -- model's own: no trap yet; a table line that the walk reads must first come back to its home (R282, R307)
  deriving DecidableEq, Repr

/-- One held operation of a region store buffer, in issue order (spec/06_isa_memory.md R166). `key` is the byte's home key or,
for scratchpad, its offset. -/
inductive Held where
  /-- A byte stored by a lane; `nib` bit 0 and bit 1 say which 4-bit halves are recorded. -/
  | byte (sp : Spc) (key lane : Nat) (val : Byte) (nib : Nat)
  /-- A store of a lane to an aperture register: n bytes with two nibble bits each, one access (R428). -/
  | ap (key lane n val nibs : Nat)
  /-- A pending reduction of a lane. -/
  | red (key lane : Nat) (op : AtmOp) (arg : DWord)
  deriving DecidableEq, Repr

/-- A copy command in q0 (spec/07 R215 to R218). -/
structure CopyCmd where
  kind : Nat            -- 0 cpy, 1 cpw, 2 cps
  blk : Nat
  wid : Nat
  ctx : Nat
  priv : Bool
  d : DWord
  a : DWord
  b : DWord
  c : DWord
  tag : Nat
  sh : Bool
  dh : Bool
  ss : Bool
  ds : Bool
  lb : Nat
  hsrc : List Byte      -- descriptor of the source handle, read at step 4
  hdst : List Byte
  grid : Option Nat     -- the issuing grid, whose blocks `cps` names (R217)
  own : Bool            -- holds the warp's reserved entry
  opid : Nat
  due : List (Nat × Nat) -- steps not yet paid: price, count (R198)
  deriving DecidableEq, Repr

/-- A collective command in q1 (R219, R220). -/
structure CollCmd where
  isRsum : Bool
  blk : Nat
  wid : Nat
  ctx : Nat
  priv : Bool
  src : DWord
  desc : DWord
  rq : Bool
  ss : Bool
  opid : Nat
  deriving DecidableEq, Repr

/-- The read-modify-writes of R177 to R181. -/
inductive AtomKind where
  | atm (op : AtmOp) | red (op : AtmOp) | cas (wide : Bool) | casv (wide : Bool) | binc | winc | dgz | addl
  deriving DecidableEq, Repr

/-- One lane's atomic on a remote line: destination, home key, operands read at issue (R177, R282). -/
structure AtomOp where
  kind : AtomKind
  d : Nat
  key : Nat
  b : DWord
  c : DWord
  ord : Ord
  sc : Scope
  deriving DecidableEq, Repr

/-- What one lane of a `poll` tests and when it reads again (R188). `owed` is 1 while its step demand waits, 2 once paid,
3 where it reads again at once. -/
structure PollOp where
  d : Nat
  cc : Cc
  ui : Bool
  acq : Option Scope
  bo : Nat
  sp : Spc
  ea : DWord
  b : Word
  k : Nat
  due : Nat
  far : Bool
  owed : Nat
  deriving DecidableEq, Repr

/-- What one lane of an `mwait` sleeps on (R189): the comparand and the version it last read. -/
structure MwaitOp where
  d : Nat
  ge : Bool
  acq : Option Scope
  ea : DWord
  b : DWord
  ver : Word
  far : Bool
  owed : Nat
  deriving DecidableEq, Repr

/-- What blocked lanes wait for (R104, R168, R186, R188 to R190, R197). `far` marks a non-local wait (R250). -/
inductive Wait where
  | mask (m : Nat)
  | bar (id : Nat)
  | tags (all : Bool) (mask : DWord) (d : Nat)
  | poll (p : PollOp)
  | mwait (p : MwaitOp)
  | fenceR (sc : Scope) (targets : List Nat)
  | abk (d n : Nat)
  | q0 (cmd : CopyCmd)
  | q1 (cmd : CollCmd)
  | pop (q d : Nat)
  | push (q : Nat) (v : DWord)
  | rinv (d : Nat) (trapping : Bool) (tgt seq : Nat) (answer : Option Nat) (req : Bool)
  | launch (q : Nat) (packet record : List Byte)
  | post (yard : Nat) (record : List Byte)
  | rblk (d n : Nat) (lean : Bool)
  | halt
  | ratm (op : AtomOp) (back : Option DWord)   -- with the value that came while its warp was suspended or stopped (R444)
  deriving DecidableEq, Repr

/-- An instruction that has been charged and has not completed (R370, R445). `kind` is 1 where its issue demand is paid and it has yet to
issue; it has issued, and 2 a step demand is due or waits in the queue, 3 a step demand is paid, 4 it waits for lines at their homes, or
for the rest of its accesses. With the lanes that stand at it, how many of its accesses had been paid before, the step of R168 at which
it stands (0 before step 1 has passed, 1 before its commit, 2 within it, 4 behind it), and the tag it has claimed. -/
structure Stage where
  kind : Nat
  lanes : Word
  paid : Nat := 0
  step : Nat := 0
  tag : Nat := 64
  deriving DecidableEq, Repr

/-- The translation step of a `qnt` with outliers: the header's home key, LIMIT as read, and the pages of the record lines; with the
appends it has made, and whether one found the list full (R85, R154). -/
structure Appends where
  key : Nat
  limit : Nat
  pages : Tab Nat       -- by page of 64 KiB: home key of its first byte, plus 1
  done : Nat := 0
  full : Bool := false
  deriving DecidableEq, Repr

/-- Lanes blocked at step 4 of a commit point or at a `wait`, with the instruction they stand at. -/
structure Blocked where
  lanes : Word
  here : DWord
  len : Nat
  what : Wait
  since : Nat := 0      -- cycle in which the lanes blocked (R330)
  deriving DecidableEq, Repr

/-- A warp's turn (spec/08 R245, R246). -/
structure Turn where
  lanes : Word
  start : Option Nat
  deriving DecidableEq, Repr

/-- A suspended warp: its trap, the lanes named, MODE and RPC as recorded, and whether its handler has started (R403). -/
structure Susp where
  trap : Trap
  lanes : Word
  mode : Nat
  pc : DWord
  rpc : DWord
  record : DWord        -- address of the fault record
  started : Bool
  debugger : Bool       -- stopped for the debugger (R422)
  deriving DecidableEq, Repr

/-- A trap UE that waits until its error is contained: its lanes, the instruction, and whether the commit is behind it (R408). -/
structure Need where
  t : Trap
  lanes : Word
  pc : DWord
  done : Bool
  deriving DecidableEq, Repr

/-- A warp resident or switched out (spec/01 R30, R31; spec/08 R237 to R250; spec/14 R403, R409). -/
structure Warp where
  ctx : Nat
  blk : Nat
  widx : Nat
  level : Level
  regs : Nat
  regs0 : Nat
  lean : Option Nat     -- first register backed by the lean-to, if it holds it (R229)
  leanTop : Nat := 0    -- and the first after those
  x : Tab Word          -- lane registers, key 32·n + l
  k : Tab DWord
  m : Tab Word
  pcv : List DWord
  rev : List DWord
  rseq : List Word
  budget : List Nat
  exited : Word
  deferred : Word
  delayed : List (Word × Nat)
  blocked : List Blocked
  parked : Option Nat
  susp : Option Susp
  rlimit : Word
  rcount : Word
  tcmp : DWord
  timer : Bool
  frec : DWord
  tclass : Word
  rsb : List Held
  heldAt : Tab DWord := [] -- virtual address of a store held for a global line (R400)
  opbuf : List Nat
  fc : Nat
  turn : Option Turn
  turnBits : Word
  lastLanes : Word
  lwc : Nat
  ewc : Nat
  lastIssue : Option Nat
  ready : Nat
  stage : Option Stage
  appends : Option Appends := none -- of the `qnt` with outliers that the lanes stand at (R154)
  faults : List Trap    -- engine faults for the next commit point (R195)
  inv : List Scope      -- self-invalidations owed to a fence.r (R183)
  observed : Bool := false  -- the tag of a yard round was observed: an acquire at .yd is owed (R273)
  stopped : Bool        -- by the debugger (R422)
  loads : Tab Word      -- outstanding loads: register, lanes (R26, R423)
  inbox : Option Nat    -- inbox entry assigned and not popped (R332)
  wr : Tab Word         -- per register, lanes that wrote it since their commit point (R409)
  clean : List Nat      -- register lines that the image holds as they are (R299)
  uses : Tab Nat := []  -- when a register was last used: cycle + 1 (R261)
  needs : Option Need := none -- an uncorrectable error that it consumes, until that is contained (R408)
  cold : Bool := false  -- back from pre-emption: registers not used since are in the image alone (R301)
  deriving DecidableEq, Repr

/-- A compute-in-memory macro (R204): groups by key (group·64 + column). -/
structure Macro where
  cw : Nat
  n : Nat
  groups : Tab MGroup
  metas : Tab Nat := [] -- metadata words, by the groups' keys (R89)
  ruined : Bool         -- every group NaN after a parity error (R411)
  deriving DecidableEq, Repr

/-- What a `bld` read at step 4: metadata words, and for CB16 its codes with their base-table entries (R205). -/
structure BldInfo where
  at_ : Nat             -- metadata address
  words : List Nat
  codes : List (Nat × Nat)
  deriving DecidableEq, Repr

/-- An operation of the matrix engine, in matrix-engine order (R194). -/
inductive MatKind where
  | bld (tile : Bool) (slot : Slot) (a b : DWord) (desc : List Byte) (set : MSet) (info : BldInfo)
  | mm (yard tile : Bool) (slot : Slot) (desig : Nat) (a b : DWord) (desc : List Byte) (set : MSet) (rows : Nat)
  | mmo (desig addr : Nat) (set : MSet)
  | accLd (slot : Slot) (sp : Spc) (desig addr stride : Nat)
  | accSt (slot : Slot) (sp : Spc) (desig addr stride : Nat)
  | accZ (desig : Nat)
  | zero (bank : Nat)
  deriving DecidableEq, Repr

structure MatOp where
  kind : MatKind
  blk : Nat
  wid : Nat
  ctx : Nat
  priv : Bool
  tag : Nat
  opid : Nat
  begun : Bool                 -- it has reached the head of the queue and begun
  fetched : Bool               -- its A rows were read when its yard round issued (R272)
  due : List (Nat × Nat)       -- steps not yet paid: price, count (R198)
  at_ : Nat                    -- passes done (R265)
  count : Nat                  -- records of an `mmo`, read when it begins (R212)
  rows : List (List MGroup)    -- A rows aligned (R87, R272)
  bad : Option Trap            -- why its fetch stopped (R195, R274)
  since : Nat := 0             -- cycle in which the engine took it (R370)
  rowAt : Option Nat := none   -- cycle in which the passes of its present row began (R266)
  wblk : Nat := 0              -- block of the issuing warp (R195)
  deriving DecidableEq, Repr

/-- A convergence register (R206). -/
structure Cv where
  own : Option Nat
  cnt : Nat
  yard : Bool
  sig : Nat
  latch : Option MatOp
  key : List Nat        -- words and values a later signature must equal (R207)
  deriving DecidableEq, Repr

/-- A named barrier (R185): EXP 0 is LIVE, and `exp` is meaningful while ARR > 0. -/
structure Barrier where
  phase : Bool
  arr : Nat
  exp : Nat
  pend : List Nat
  deriving DecidableEq, Repr

/-- What a block is: a grid's block, a continuation, a handler group, a trap handler, a reduce block (R322, R330, R359, R403). -/
inductive BlockKind where
  | grid | cont | handler | trap | reduce
  deriving DecidableEq, Repr

/-- What a reduce block is to do: the chunk of an open collective, and how many instructions its routine still has (R359). -/
structure Routine where
  inst : Nat
  chunk : Nat
  left : Nat
  deriving DecidableEq, Repr

/-- A block (R232 to R240, R249, R260). -/
structure Block where
  ctx : Nat
  grid : Option Nat
  kind : BlockKind
  index : Word          -- %block
  core : Nat
  resident : Bool
  record : List Byte
  spad : List Host.Cell
  bars : Tab Barrier
  queues : Tab (List DWord)
  q2res : Nat
  phase : Nat
  banksR : List Nat
  banksS : List Nat
  banksA : List Nat
  held : List Nat       -- accumulator banks held by abk.get
  warps : List Nat
  hidx : Nat            -- handler index of a handler group
  args : List DWord     -- first k-registers at its start (R322, R403)
  savedCvs : Tab Cv     -- its convergence registers while it is switched out (R270)
  savedAcc : Tab Word   -- its accumulator banks while it is switched out (R263)
  suspect : Option Nat  -- warp that a trap handler serves
  work : Option Routine := none -- of a reduce block (R359)
  busyAt : Option Nat := none -- cycle of the last issue of a warp that has retired (R253)
  deriving DecidableEq, Repr

/-- A demand in a core's blocked queue (spec/13 R370, R445); a step's lane is 32 for an instruction, or the lane that reads again. -/
inductive Demand where
  | issue (wid price : Nat)
  | step (wid lane price : Nat)
  | engine (unit price opid : Nat)
  deriving DecidableEq, Repr

/-- Tags of a context on a core: completion bits, in-flight bits (R193), and the bits that a yard round set last (R273). -/
structure Tags where
  done : DWord
  flight : DWord
  yard : DWord := 0
  deriving DecidableEq, Repr

/-- A line-buffer set of `cpw` (R216). -/
structure Window where
  ctx : Nat
  handle : Nat
  desc : List Byte
  off0 : Int
  rows : List (Int × List Nat)  -- by dimension-1 coordinate: the elements of the row in box order
  deriving DecidableEq, Repr

/-- A prefetch hint: context, address of the line, cycle in which it was queued (R176, R380). -/
structure Hint where
  ctx : Nat
  va : Nat
  since : Nat
  deriving DecidableEq, Repr

/-- A line copy: bytes, valid words, owned words (R278, R279). -/
structure Line where
  data : List Byte
  valid : Word
  owned : Word
  deriving DecidableEq, Repr

/-- A core's intent for a context (spec/13 R385). -/
structure Intent where
  rate : Nat            -- 8.8 tokens per cycle
  due : Nat             -- µs
  job : Bool
  deriving DecidableEq, Repr

/-- A line that a core's operand fetcher holds (R184): of a block's scratchpad, or of global memory, by its number. -/
structure Staged where
  ctx : Nat
  spad : Option Nat
  line : Nat
  bytes : List Byte
  deriving DecidableEq, Repr

/-- A compute core (or, from 192 on, the place of a service core). -/
structure Core where
  level : Int           -- 8.8 tokens
  grant : Nat           -- refill that the die bucket has paid for this cycle, 8.8 (R370, R375)
  queue : List Demand
  banks : Tab Nat       -- pool bank → block + 1
  zeroing : List Nat
  acc : Tab Word        -- accumulator words, key (4·bank + tile)·4096 + 64·m + n
  macros : Tab Macro
  owner : Option Nat
  cvs : Tab Cv
  tags : Tab Tags
  q0 : List CopyCmd
  copying : List CopyCmd
  q1 : List CollCmd
  mat : List MatOp
  staged : List Staged := [] -- operand-fetcher staging (R184)
  windows : Tab Window
  l1 : Tab Line
  icache : Tab Line
  tlb : Tab DWord       -- 256 entries (R307): key (4·ctx + size)·2^48 + address in that size, value the leaf
  hints : List Hint
  replays : Word
  leanTo : Option Nat
  intents : Tab Intent
  assist : Bool
  issued : List Nat     -- schedulers that issued a queued demand this cycle (R370)
  drawn : Tab Nat       -- tokens paid in the current tick, by partition (R392)
  deriving DecidableEq, Repr

/-- A park record (spec/11 R323): the parked warp and the next waiter's code. -/
structure Park where
  wid : Nat
  next : Nat
  cell : Nat            -- home key of the future
  live : Bool := true   -- false once a termination freed it (R324)
  deriving DecidableEq, Repr

/-- An inbox entry (R326 to R332): the record and what was read from the pitch table with it. -/
structure InboxEntry where
  id : Nat
  ctx : Nat
  cls : Nat
  record : List Byte
  entry : DWord
  warps : Nat
  rblk : Nat
  hidx : Nat
  taken : Option Nat    -- block of the group it is assigned to
  deriving DecidableEq, Repr

/-- A continuation in a yard's task queue (R321, R322). -/
structure Cont where
  grid : Nat
  ctx : Nat
  record : List Byte
  deriving DecidableEq, Repr

/-- An `rsum` contribution that a die's engine holds until its instance ends (R343, R362). -/
structure OpenSum where
  id : Nat
  core : Nat
  contrib : Contrib
  root : Nat               -- device and die of the root: 4·device + die
  due : List (Nat × Nat)   -- steps not yet paid: price, count (R363)
  sent : Bool
  lead : Nat               -- device of rank 0, whose launch trigger the instance performs (R350)
  kept : Bool := false     -- its instance has ended, and its grid waits for that launch trigger (R350)
  deriving DecidableEq, Repr

/-- What the engines of a collective send each other: the digest of a descriptor; a part of a chunk that a reduce block combines; a
reduced chunk; a chunk of an all-gather or all-to-all; a point's status, to point 0; the end status (R354, R357, R358, R360). -/
inductive CollKind where
  | hello | part | out | put | status | final
  deriving DecidableEq, Repr

/-- What a point's engine has to do: send a chunk to another point, or write one that has come from a point (R358, R363). -/
structure CollAct where
  dest : Option Nat        -- the point it goes to; none where it is written here
  src : Nat                -- the point it comes from
  kind : CollKind
  chunk : Nat
  data : List Byte
  left : Nat               -- collective steps not yet paid
  deriving DecidableEq, Repr

/-- A collective instance at a point of this die (spec/12 R354 to R360). -/
structure CollInst where
  id : Nat
  core : Nat
  blk : Nat
  wid : Nat
  ctx : Nat
  priv : Bool
  grid : Option Nat
  desc : List Byte
  points : List Nat        -- the point table: 4·device + die
  point : Nat              -- this point's index
  rq : Bool
  acts : List CollAct      -- what the engine still sends and writes, in order
  met : List Nat           -- points whose digest has come and agrees (R354)
  left : Tab Nat           -- launch counters of the chunks that have a part (R358)
  placed : List Nat        -- chunks with a reduce block
  reduced : List Nat       -- chunks whose reduce block has written them
  base : Tab (List Byte)   -- chunks of the output of step 1, or of the source where there is no reduction
  moved : Bool             -- steps 2 to 4 have begun
  got : List (Nat × Nat)   -- chunks of steps 2 to 4 that are written: point, chunk
  lost : Bool              -- point 0 cannot be reached (R360)
  dead : Bool := false     -- its context was terminated: nothing more is written for it (R412, R426)
  started : Nat            -- beat (R5)
  status : Option Nat      -- reported to point 0
  reports : Tab Nat        -- at point 0: what the points reported
  deriving DecidableEq, Repr

/-- An ended reduction instance (R343). -/
structure EndedSum where
  ctx : Nat
  desc : DWord
  seq : Nat
  status : Nat
  deriving DecidableEq, Repr

/-- A reduction instance at the root (spec/12 R343). -/
structure RootInst where
  desc : DWord
  ctx : Nat
  seq : Nat
  parts : List Contrib
  started : Nat         -- beat (R5)
  dead : Bool := false  -- its context was terminated: it only ends, at its TMO (R412, R426)
  deriving DecidableEq, Repr

/-- A die. -/
structure Die where
  clk : DWord
  charge : Word
  vbank : Word
  level : Int           -- die bucket, 8.8
  share : Nat           -- SH_d, 8.8
  rot : Nat
  paid : Nat            -- tokens paid from the bucket in the tick, ballast excluded, 8.8
  owed : Nat            -- home steps not yet paid
  low : Bool
  throttle : Tab Nat    -- core → largest refill of the tick, 8.8; absent = none (R382, R393)
  homes : Tab Nat       -- yard → home steps of its slice in the tick
  burn : Tab Nat        -- yard → burn tokens in the tick, 8.8
  forced : Tab Nat      -- yard → forced burn per cycle (R382)
  spent : Nat           -- tokens drawn in the tick, ballast with them, 8.8
  draw : Tab Nat        -- yard → draw of the last tick
  park : Tab Park
  tasks : Tab (List Cont)
  inbox : List InboxEntry
  opens : List OpenSum  -- open reduction contributions of this die
  insts : List CollInst
  roots : List RootInst
  rootWait : List Contrib  -- contributions that would open a 257th instance (R343)
  ended : List EndedSum
  stamps : List Nat     -- stamp table: lines, once for each registration (R353)
  loose : List Nat      -- of contributions that took part in no instance: until the stamp is written (R343, R353)
  egress : Nat          -- flits that wait for a port (R364)
  feed : Bool
  q1rot : Nat
  phases : Tab DWord    -- key 512·core + phase
  rings : List (Nat × Nat) -- overflow rings with records: context, handler index (R329)
  step : Nat            -- DRAM training step running, 0 for none
  deriving DecidableEq, Repr

/-- A grid (R236, R259, R319 to R322). -/
structure Grid where
  ctx : Nat
  record : List Byte
  packet : List Byte
  dmask : Nat
  depth : Nat
  parent : Option Nat
  queue : Option Nat    -- host queue, or 1 024 + 16·context + index for a device-side queue
  pending : List Nat    -- groups not yet placed on this device
  live : Nat            -- blocks placed and continuations posted, not yet retired
  remote : Nat          -- groups sent to other devices and not yet reported
  away : List Nat       -- groups sent to other devices
  children : Nat
  src : Option (Nat × Nat)  -- device that sent a paddock group, and the group
  deriving DecidableEq, Repr

/-- An active-region slot of an L2 line (R295). -/
structure Mark where
  ctx : Nat
  wid : Nat
  seq : Nat
  write : Bool
  words : Word
  lane : Word
  deriving DecidableEq, Repr

/-- A lease: the line, its holder (none: this device holds a remote line), the beats when it was granted and last used (R5, R282). -/
structure Lease where
  line : Nat
  dev : Option Nat
  core : Nat
  ctx : Nat
  granted : Nat
  used : Nat
  recalled : Bool
  deriving DecidableEq, Repr

/-- A message that has left the device (model's own field, log entry 8). -/
inductive Msg where
  | irq (vector : Nat)
  | invoke (dev : Nat) (p : Invoke)
  | answer (dev wid code cls : Nat) (req : Bool)
  | data (dev line : Nat) (bytes : List Byte) (ver : Word)
  | grant (dev line : Nat)
  | recall (dev line : Nat)
  | lease (dev line : Nat)
  | atomic (dev wid lane : Nat) (addr : Nat) (op : AtmOp) (arg : DWord)
  | result (dev : Nat) (v : DWord)
  | group (dev grid grp : Nat)
  | retired (dev grid grp : Nat)
  | intent (dev rate due : Nat)
  | failure (dev : Nat)
  | poisoned (dev line : Nat)
  | hostData (bytes : List Byte)
  | reduce (dev : Nat) (c : Contrib)
  | chunk (pt seq point code : Nat) (bytes : List Byte)
  | report (pt seq point status : Nat)
  | ended (pt seq status : Nat)
  | identity (port dev : Nat)
  | spad (grid : Nat) (src : Option (Nat × Nat)) (blk off : Nat) (bytes : List Byte)  -- `cps` into a block of a paddock grid elsewhere (R217)
  deriving DecidableEq, Repr

/-- A value that an unchecked path gets wrong without a report (R405, log entry 131): a lane register's word of a converter, an accumulator
word or a macro's group of the converters and the arithmetic of the matrix engine, a byte of memory or scratchpad that a window copy, an
`acc.st` or a router's combining wrote. -/
inductive Slip where
  | reg (wid key : Nat)
  | acc (core key : Nat)
  | cell (core macro_ group : Nat)
  | byte (key : Nat)
  | spad (blk off : Nat)
  deriving DecidableEq, Repr

/-- What happens next (model's own, log entry 1): a step of some party, an issue of a warp, or an error of a unit's storage that its
check corrects (R405, log entry 85). -/
inductive Pending where
  | event (e : Ev)
  | issue (wid : Nat)
  | corrected (unit line : Nat)
  | lost (dev : Nat)        -- a device that can no longer be reached, since a port was declared failed (R337, R436)
  | slip (x : Slip)
  | upset (word unit : Nat) -- an error arises in a checked word of eight bytes, in DRAM or in the line's L2 frame (R405, log entry 130)
  | spad (grid blk off : Nat) (bytes : List Byte)  -- payload and stamp of a `cps` of another device's block (R217, log entry 129)
  deriving DecidableEq, Repr

/-- The model's own fields (log entries 6, 8, 11): counters, and what has left the device. -/
structure Own where
  freeCount : Nat               -- advanced by every step; applied to the free values of Config
  nextId : Nat                  -- names of blocks, grids, operations, inbox entries
  msgs : List Msg
  access : Nat := 0             -- which access of an instruction is being translated (log entry 9)
  deriving DecidableEq, Repr

/-- Packets of lines to other homes: a read request, a committed write, and the recall of a copy that the companion processor holds
(R336, R338). -/
inductive LinePacket where
  | read (line : Nat)
  | write (line : Nat)
  | recall (line : Nat)
  deriving DecidableEq, Repr

/-- Memory and what its homes keep per line. -/
structure Mem where
  bytes : List Host.Cell        -- by home key (R276, R277; Machine/Ops.lean)
  ver : Tab Word                -- versions by line key (R173)
  poison : List Nat             -- poisoned lines (R283)
  dirty : Tab Nat               -- dirty L2 lines and their owner tags (R277)
  hostHeld : List Nat           -- host-held bits (R338)
  marks : Tab (List Mark)       -- active-region slots (R295)
  wordOwner : Tab Nat           -- word registrations at homes: word key → core + 1 (R278)
  l2 : Tab (List Byte × Nat)    -- L2 copies of remote lines with fill numbers (R281)
  frames : Tab Nat              -- L2 frames that hold a line: (4 096·slice + set)·24 + way (R2, R4, R414)
  quarantined : List Nat        -- L2 frames that hold no line until reset (R414)
  retired : List Nat            -- retired pages, rising (R413)
  ytlb : Tab (Tab DWord)        -- the TLB of each yard, 8 192 entries (R307)
  fill : Nat
  markPeer : Nat
  markHost : Nat
  leases : List Lease
  waits : List (Nat × Ev)       -- model's own: what waits for a leased line (R282)
  traffic : List LinePacket     -- model's own: the line packets that have left, in order (R336, R338; log entry 8)
  excl : Tab Nat                -- local lines that an L1 owns exclusively for atomics: its core (R177)
  upset : Tab Nat := []         -- checked words of eight bytes with an error that cannot be corrected, not yet consumed (R405 to R407): by address / 8, its unit, 0 DRAM or 2 L2 data
  deriving DecidableEq, Repr

/-- A command of a device-side queue (R320): packet, record, parent grid, nesting level. -/
structure DevEntry where
  packet : List Byte
  record : List Byte
  parent : Option Nat
  depth : Nat
  deriving DecidableEq, Repr

/-- A context's saved macros of one core (R301). -/
structure MacroImage where
  macros : Tab Macro
  deriving DecidableEq, Repr

/-- An invalidation in progress (R310): context, first and last page, or every page. -/
structure Inval where
  ctx : Nat
  lo : Nat
  hi : Nat
  deriving DecidableEq, Repr

/-- A measurement extend in progress (R432). -/
structure Extend where
  idx : Nat
  digest : List Byte
  deriving DecidableEq, Repr

/-- A launch trigger that waits for room in its device-side queue (R350). -/
structure Trigger where
  ctx : Nat
  q : Nat
  entry : DevEntry
  inst : DWord × Nat    -- descriptor and SEQ of its instance
  grids : List Nat      -- grids of contributors that cannot complete before it is enqueued
  tell : List Nat := [] -- points of other devices with contributors that wait for it: 4·device + die
  deriving DecidableEq, Repr

/-- What the device keeps outside dies, cores and its aperture registers. -/
structure Device where
  devq : Tab (List DevEntry)   -- device-side queues, key 16·ctx + q (R320)
  trigs : List Trigger          -- waiting launch triggers (R350)
  resident : List Nat           -- resident launch queues (R317)
  killed : List Nat             -- contexts being terminated (R425)
  gone : List Nat               -- contexts terminated and not launched since (R416)
  macroImg : Tab MacroImage    -- saved macros, key ctx·256 + core (R301)
  sent : Tab Nat                -- invocations sent, by sender die, target and context (R331)
  pr : Nat                      -- package rate (R374)
  sc : Nat
  ct : Nat
  jobIntent : Option Intent
  missed : Nat                  -- PMBus windows missed (R396)
  drawn : Nat                   -- tokens drawn in the PMBus window (R394)
  floor : Nat                   -- bank floor (R389, R433)
  booted : Bool                 -- the boot ROM has run (R430)
  micros : Nat                  -- µs since reset
  beat : Nat                    -- periods of 1/1 600 µs since reset (R5)
  replayed : Tab Nat            -- replays in a row of a port's flit: port + 64, or link (R405)
  coef : Tab Nat                -- the coefficients stored in a port (R437): by port, or 64 + link
  tuned : Tab Nat := []         -- those that it runs with
  inval : Option Inval
  extend : Option Extend
  deriving DecidableEq, Repr

/-- The machine. -/
structure State where
  agenda : List Pending         -- model's own (log entry 1)
  cur : Nat                     -- model's own: the warp whose instruction runs
  apart : Bool                  -- model's own: its accesses are performed one by one, others between them (log entry 1)
  own : Own
  mem : Mem
  ap : Tab DWord                -- aperture registers by offset; absent = the register's reset value (R443)
  warps : Tab Warp              -- by wid = 64·core + slot
  blocks : Tab Block
  cores : Tab Core              -- by 48·die + core; 192 + n for service core n
  dies : Tab Die
  grids : Tab Grid
  dev : Device
  deriving DecidableEq, Repr

/-- Why the machine stops with a fault. -/
inductive Fault where
  /-- An outside party names memory that is not populated (R277); raised by HOST_MEMORY_ACCESS and the fabric rows.
  Safe: the spec gives no such access. -/
  | noMemory
  deriving DecidableEq, Repr

/-- Why an instruction has no meaning. No meaning of this model answers with one. -/
inductive Refusal where
  /-- The instruction is not modelled yet, by its mnemonic. Safe. -/
  | notModelled (mnemonic : String)
  deriving DecidableEq, Repr

/-- A die right after reset: nothing running; RIV_LIM, bucket and counters as their registers say. -/
def Die.fresh : Die :=
  { clk := 0, charge := 0, vbank := 0, level := 0, share := 0, rot := 0, paid := 0, owed := 0, low := false,
    throttle := [], homes := [], burn := [], forced := [], spent := 0, draw := [], park := [], tasks := [], inbox := [], opens := [], insts := [], roots := [],
    rootWait := [], ended := [], stamps := [], loose := [], egress := 0, feed := false, q1rot := 0, phases := [], rings := [], step := 0 }

/-- A core right after reset: empty bucket, no block, no tag in flight (R193, R204, R206, R369). -/
def Core.fresh : Core :=
  { level := 0, grant := 0, queue := [], banks := [], zeroing := [], acc := [], macros := [], owner := none, cvs := [], tags := [],
    q0 := [], copying := [], q1 := [], mat := [], windows := [], l1 := [], icache := [], tlb := [], hints := [],
    replays := 0, leanTo := none, intents := [], assist := false, issued := [], drawn := [] }

def Own.fresh : Own :=
  { freeCount := 0, nextId := 1, msgs := [] }

def Mem.fresh : Mem :=
  { bytes := [], ver := [], poison := [], dirty := [], hostHeld := [], marks := [], wordOwner := [], l2 := [], frames := [], quarantined := [], retired := [], ytlb := [], fill := 0,
    markPeer := 0, markHost := 0, leases := [], waits := [], traffic := [], excl := [] }

def Device.fresh : Device :=
  { devq := [], trigs := [], resident := [], killed := [], gone := [], macroImg := [], sent := [], pr := 0, sc := 0, ct := 0, jobIntent := none,
    missed := 0, drawn := 0, floor := 0, booted := false, micros := 0, beat := 0, replayed := [], coef := [], inval := none, extend := none }

/-- Right after device reset: every table empty, so every register reads its reset value, no DRAM byte is written, no context
is set up and nothing is resident; the boot ROM has not run (R430). -/
def State.reset : State :=
  { agenda := [], cur := 0, apart := false, own := Own.fresh, mem := Mem.fresh, ap := [], warps := [], blocks := [], cores := [],
    dies := [], grids := [], dev := Device.fresh }

end Sys2Proof.Machine
end

