-- ==== Sys2Proof/Machine/Table.lean ====
section
/-!
DEFINITION. Machine/Table.lean: sparse tables (keys strictly rising) and the accessors of State's tables.
-/

namespace Sys2Proof.Machine

/-- The entry of a key. -/
def Tab.look {α : Type} : Tab α → Nat → Option α
  | [], _ => none
  | (a, v) :: r, k => if k = a then some v else Tab.look r k

/-- The entry of a key, or a default. -/
def Tab.get {α : Type} (t : Tab α) (d : α) (k : Nat) : α := (Tab.look t k).getD d

/-- Sets the entry of a key. -/
def Tab.upd {α : Type} : Tab α → Nat → α → Tab α
  | [], k, v => [(k, v)]
  | (a, u) :: r, k, v => if k < a then (k, v) :: (a, u) :: r else if k = a then (k, v) :: r else (a, u) :: Tab.upd r k v

/-- Removes the entry of a key. -/
def Tab.del {α : Type} (t : Tab α) (k : Nat) : Tab α := t.filter (fun e => e.1 != k)

/-- Sets a key to a value, listing nothing equal to the default: the canonical form. -/
def Tab.put {α : Type} [DecidableEq α] (d : α) (t : Tab α) (k : Nat) (v : α) : Tab α :=
  if v = d then Tab.del t k else Tab.upd t k v

/-- Changes the entry of a key, if there is one. -/
def Tab.mod {α : Type} (t : Tab α) (k : Nat) (f : α → α) : Tab α :=
  match Tab.look t k with
  | none => t
  | some v => Tab.upd t k (f v)

/-- Keys strictly rising, all at least `lo`. -/
def Tab.sortedFrom {α : Type} : Nat → Tab α → Bool
  | _, [] => true
  | lo, (a, _) :: r => lo ≤ a && Tab.sortedFrom (a + 1) r

/-- The canonical form of a table with a default: keys strictly rising and no entry equal to the default. -/
def Tab.canon {α : Type} [DecidableEq α] (d : α) (t : Tab α) : Bool :=
  Tab.sortedFrom 0 t && t.all (fun e => e.2 != d)

/-- Keeps the entries a predicate accepts. -/
def Tab.keep {α : Type} (t : Tab α) (p : Nat → α → Bool) : Tab α := t.filter (fun e => p e.1 e.2)

/-- Maps the entries of a table. -/
def Tab.mapv {α β : Type} (t : Tab α) (f : Nat → α → β) : Tab β := t.map (fun e => (e.1, f e.1 e.2))

/-- Adds a number to a set kept as a rising list. -/
def insertNat : List Nat → Nat → List Nat
  | [], n => [n]
  | a :: r, n => if n < a then n :: a :: r else if n = a then a :: r else a :: insertNat r n

/-- Changes the first element that a predicate accepts. -/
def modFirst {α : Type} (p : α → Bool) (f : α → α) : List α → List α
  | [] => []
  | a :: r => if p a then f a :: r else a :: modFirst p f r

/-- The distinct elements, in first-occurrence order. -/
def distinct (l : List Nat) : List Nat := l.foldl (fun acc n => if acc.contains n then acc else acc ++ [n]) []

/-- Applies a function that may fail to each element in order: every result, or the first failure. -/
def tryAll {ε α β : Type} (f : α → Except ε β) : List α → Except ε (List β)
  | [] => .ok []
  | a :: r =>
    match f a with
    | .error e => .error e
    | .ok b =>
      match tryAll f r with
      | .error e => .error e
      | .ok bs => .ok (b :: bs)

namespace State

def warp? (s : State) (wid : Nat) : Option Warp := Tab.look s.warps wid
def setWarp (s : State) (wid : Nat) (w : Warp) : State := { s with warps := Tab.upd s.warps wid w }
def modWarp (s : State) (wid : Nat) (f : Warp → Warp) : State := { s with warps := Tab.mod s.warps wid f }
def delWarp (s : State) (wid : Nat) : State := { s with warps := Tab.del s.warps wid }
def block? (s : State) (b : Nat) : Option Block := Tab.look s.blocks b
def setBlock (s : State) (b : Nat) (v : Block) : State := { s with blocks := Tab.upd s.blocks b v }
def modBlock (s : State) (b : Nat) (f : Block → Block) : State := { s with blocks := Tab.mod s.blocks b f }
def core (s : State) (c : Nat) : Core := Tab.get s.cores Core.fresh c
def setCore (s : State) (c : Nat) (v : Core) : State := { s with cores := Tab.upd s.cores c v }
def modCore (s : State) (c : Nat) (f : Core → Core) : State := s.setCore c (f (s.core c))
def die (s : State) (d : Nat) : Die := Tab.get s.dies Die.fresh d
def setDie (s : State) (d : Nat) (v : Die) : State := { s with dies := Tab.upd s.dies d v }
def modDie (s : State) (d : Nat) (f : Die → Die) : State := s.setDie d (f (s.die d))
def grid? (s : State) (g : Nat) : Option Grid := Tab.look s.grids g
def setGrid (s : State) (g : Nat) (v : Grid) : State := { s with grids := Tab.upd s.grids g v }
def modGrid (s : State) (g : Nat) (f : Grid → Grid) : State := { s with grids := Tab.mod s.grids g f }
def modMem (s : State) (f : Mem → Mem) : State := { s with mem := f s.mem }
def modDev (s : State) (f : Device → Device) : State := { s with dev := f s.dev }

/-- A home step, paid by the die bucket whatever its level (R368). -/
def homeStep (s : State) (d price : Nat) : State := s.modDie d fun x => { x with owed := x.owed + price }

/-- A message leaves the device (log entry 8). -/
def send (s : State) (m : Msg) : State := { s with own := { s.own with msgs := s.own.msgs ++ [m] } }

/-- A new name for a block, grid, operation or inbox entry. -/
def fresh (s : State) : Nat × State := (s.own.nextId, { s with own := { s.own with nextId := s.own.nextId + 1 } })

/-- Puts steps at the head of the agenda. -/
def soon (s : State) (ps : List Pending) : State := { s with agenda := ps ++ s.agenda }

end State

/-! ### Places -/

/-- Core of a warp name, slot of a warp name, die of a core (the package controller's: log entry 113), core within its die, yard within the die (R240, R427). -/
def coreOf (wid : Nat) : Nat := wid / 64
def slotOfWid (wid : Nat) : Nat := wid % 64
def dieOfCore (c : Nat) : Nat := if c < 192 then c / 48 else min (c - 192) 3
def coreInDie (c : Nat) : Nat := c % 48
def yardOfCore (c : Nat) : Nat := coreInDie c / 4
def isService (c : Nat) : Bool := 192 ≤ c
def svcOf (c : Nat) : Nat := c - 192
def dieOf (wid : Nat) : Nat := dieOfCore (coreOf wid)

/-- The compute cores of a die. -/
def coresOfDie (d : Nat) : List Nat := (List.range 48).map (48 * d + ·)

/-- The four cores of the yard of a core. -/
def yardCores (c : Nat) : List Nat := (List.range 4).map (c / 4 * 4 + ·)

def dieList : List Nat := List.range 4

/-- The fabric's name of a warp: die, core, slot (R295, R400). -/
def widField (wid : Nat) : Nat := dieOf wid + 4 * coreInDie (coreOf wid) + 256 * slotOfWid wid

/-- Warps of a core, of a block, of a context. -/
def State.warpsOfCore (s : State) (c : Nat) : Tab Warp := Tab.keep s.warps (fun k _ => coreOf k == c)
def State.warpsOfBlock (s : State) (b : Nat) : Tab Warp := Tab.keep s.warps (fun _ w => w.blk == b)
def State.warpsOfCtx (s : State) (ctx : Nat) : Tab Warp := Tab.keep s.warps (fun k w => w.ctx == ctx && !isService (coreOf k))

end Sys2Proof.Machine
end

