-- ==== Sys2Proof/Machine/Memory.lean ====
section
/-!
DEFINITION. Machine/Memory.lean: home memory by key, versions, writes at a home with their ownership and owner tags
(spec/10_memory_model.md R173, R276 to R283, R298), and the copies that L1 and L2 keep.
-/

namespace Sys2Proof.Machine

/-! ### Home keys: local DRAM by LPA, peer devices, host memory, service SRAM, the management aperture -/

/-- The size of one home's key space. -/
def span : Nat := 2 ^ 48
def keyPeer (dev a : Nat) : Nat := (1 + dev) * span + a % span
def keyHost (a : Nat) : Nat := 641 * span + a % span
def keySram (n off : Nat) : Nat := (700 + n) * span + off
def keyAp (off : Nat) : Nat := 800 * span + off
def Home.key : Home → Nat
  | .dram a => a
  | .peer d a => keyPeer d a
  | .host a => keyHost a
def isLocal (key : Nat) : Bool := key < span
def isHostKey (key : Nat) : Bool := key / span == 641
def isPeerKey (key : Nat) : Bool := span ≤ key && key < 641 * span
def isRemote (key : Nat) : Bool := isHostKey key || isPeerKey key
def isSram (key : Nat) : Bool := 700 * span ≤ key && key < 800 * span
def isAp (key : Nat) : Bool := 800 * span ≤ key
def lineOf (key : Nat) : Nat := key / 128

/-- Die of an LPA, and whether the LPA is populated (R277). -/
def dieOfLpa (a : Nat) : Nat := a / 2 ^ 37 % 4
def populated (a : Nat) : Bool := a < 2 ^ 39 && a % 2 ^ 37 < 96 * 2 ^ 30

/-- The slice of a line: by its LPA, or by bits 38:0 of a remote line's address (R277, R281). -/
def sliceOf (line : Nat) : Nat := let a := line * 128 % 2 ^ 39; 12 * dieOfLpa a + a % 2 ^ 37 / 128 % 12

/-- Yard of a line's home slice on its die (R277). -/
def yardOfLpa (a : Nat) : Nat := a % 2 ^ 37 / 128 % 12

namespace Mem

/-- A byte at home. An unlisted byte reads as zero (R439 step 6; log entries 4 and 5). -/
def byte (m : Mem) (key : Nat) : Byte := Tab.get m.bytes 0 key
def setByte (m : Mem) (key : Nat) (v : Byte) : Mem := { m with bytes := Tab.put 0 m.bytes key v }

/-- n bytes from a key, little-endian (R7). -/
def num (m : Mem) (key : Nat) : Nat → Nat
  | 0 => 0
  | n + 1 => (m.byte key).toNat + 256 * m.num (key + 1) n

/-- Stores the n low bytes of a number, little-endian, without version or ownership. -/
def setNum (m : Mem) (key : Nat) : Nat → Nat → Mem
  | 0, _ => m
  | n + 1, v => (m.setByte key (BitVec.ofNat 8 v)).setNum (key + 1) n (v / 256)

def list (m : Mem) (key n : Nat) : List Byte := (List.range n).map (fun i => m.byte (key + i))

/-- The version of a line (R173). -/
def version (m : Mem) (line : Nat) : Word := Tab.get m.ver 0 line

/-- Whether a line carries a version: every global line, and no line of a service SRAM or register (R173, R427). -/
def versioned (line : Nat) : Bool := line * 128 < 700 * span
def bump (m : Mem) (line : Nat) : Mem :=
  if versioned line then { m with ver := Tab.put 0 m.ver line (m.version line + 1) } else m
def poisoned (m : Mem) (line : Nat) : Bool := m.poison.contains line

/-- A write on behalf of a context leaves a local line dirty under its id; any other write goes through and leaves it clean
(R277). -/
def tag (m : Mem) (line : Nat) (owner : Option Nat) : Mem :=
  match owner with
  | some o => if isLocal (line * 128) then { m with dirty := Tab.upd m.dirty line o } else m
  | none => { m with dirty := Tab.del m.dirty line }

/-- The owner tag of a line's data; 0xFFF where it has none (R277, R418). -/
def ownerOf (m : Mem) (line : Nat) : Nat := Tab.get m.dirty 0xFFF line

/-- The version step and owner tag of one write of a line; a copy that the companion processor holds is recalled first (R338). -/
def sealLine (m : Mem) (owner : Option Nat) (line : Nat) : Mem :=
  { (m.bump line).tag line owner with
    hostHeld := m.hostHeld.filter (· != line),
    traffic := m.traffic ++ (if m.hostHeld.contains line then [.recall line] else []) ++ (if isRemote (line * 128) then [.write line] else []) }

/-- The memory's canonical form (log entry 4). -/
def wf (m : Mem) : Bool := Tab.canon 0 m.bytes

end Mem

/-! ### Lines in caches -/

def Line.word (v : Word) (key : Nat) : Bool := v.getLsbD (key % 128 / 4)

/-- Replaces a byte of a list. -/
def setAt (l : List Byte) (i : Nat) (v : Byte) : List Byte := l.set i v

/-- Bits of a nibble mask as a byte mask. -/
def nibMask (nib : Nat) : Byte := (if nib % 2 = 1 then 0x0F else 0) ||| (if nib / 2 % 2 = 1 then 0xF0 else 0)
def nibMerge (old new : Byte) (nib : Nat) : Byte := (old &&& ~~~nibMask nib) ||| (new &&& nibMask nib)

/-! ### Errors not yet consumed (R405 to R407; log entry 130) -/

/-- The error that an access of n bytes from a key would consume: one in DRAM, or one in a dirty line of the L2. -/
def Mem.upsetAt (m : Mem) (key n : Nat) : Option (Nat × Nat) :=
  m.upset.find? fun e => decide (key < 8 * e.1 + 8) && decide (8 * e.1 < key + n) && (e.2 == 0 || (Tab.look m.dirty (e.1 / 16)).isSome)

/-- The error that a write of some bytes would consume, since it merges into the checked word; `all` says which keys it writes whole. -/
def Mem.mergesAt (m : Mem) (keys : List Nat) (all : Nat → Bool) : Option (Nat × Nat) :=
  if m.upset.isEmpty then none else
  keys.findSome? fun k => (m.upsetAt k 1).filter fun e => !(List.range 8).all fun i => all (8 * e.1 + i)

/-- A word written whole holds no error any more. -/
def Mem.heal (m : Mem) (keys : List Nat) : Mem :=
  if m.upset.isEmpty then m else { m with upset := Tab.keep m.upset fun k _ => !(List.range 8).all fun i => keys.contains (8 * k + i) }

/-- What contains a consumed error: the rows DRAM_UE and L2_DIRTY_UE_CONTAINMENT, with the warp that consumed it. -/
def containment (e : Nat × Nat) (wid : Option Nat) : Pending :=
  if e.2 = 0 then .event (.dramUe (e.1 / 16) wid)
  else .event (.l2DirtyUeContainment (e.1 / 16) 0 (match wid with | some w => 32 * (w + 1) | none => 0))

/-- An error that a party consumed is contained next. -/
def State.contains (s : State) (e : Option (Nat × Nat)) (wid : Option Nat) : State :=
  match e with
  | some e => s.soon [containment e wid]
  | none => s

/-- The trap of an access that would consume an error (R400, R408). -/
def State.upsetTrap (s : State) (key n : Nat) (va : DWord) : Option Trap :=
  (s.mem.upsetAt key n).map fun e => { cls := .ue, cause := e.2, addr := va, aux := BitVec.ofNat 64 (e.1 / 16 * 128 % span) }

/-- Bytes written by a party: what it merges into is consumed, and what it writes whole is healed. -/
def State.overwritten (s : State) (keys : List Nat) : State :=
  if s.mem.upset.isEmpty then s else (s.contains (s.mem.mergesAt keys keys.contains) none).modMem fun m => m.heal keys

/-! ### L2 frames (R2, R4, R277, R281, R414) -/

/-- The frame that holds a line. -/
def Mem.frameOf (m : Mem) (line : Nat) : Option Nat := (m.frames.find? fun e => e.2 == line).map (·.1)

/-- The frames in which a line may lie: the 24 ways of its set but the quarantined ones. -/
def Mem.waysFor (m : Mem) (line : Nat) : List Nat :=
  let base := (4096 * sliceOf line + Config.l2Set line % 4096) * 24
  ((List.range 24).map (base + ·)).filter fun f => !m.quarantined.contains f

/-- The frame that a line takes, and the line that leaves it: a free way of its set, else that of a victim, which the spec does not name
(log entry 99). None where the line is held already, or its set has no way left. -/
def Mem.frameFor (m : Mem) (pick line : Nat) : Option (Nat × Option Nat) :=
  if (m.frameOf line).isSome then none else
  let ways := m.waysFor line
  match ways.find? fun f => (Tab.look m.frames f).isNone with
  | some f => some (f, none)
  | none =>
    if ways.isEmpty then none else
    let f := ways.getD (pick % ways.length) 0
    some (f, Tab.look m.frames f)

/-- A line takes its frame: a dirty victim goes to DRAM, a victim that is a copy of a remote line is dropped. A dirty victim with an error
stays, since its write-back consumes that (R407); an error of a clean victim goes with it. -/
def Mem.seat (m : Mem) (pick line : Nat) : Mem :=
  let x := (m.frameFor pick line).filter fun f => !f.2.any fun l => (Tab.look m.dirty l).isSome && (m.upsetAt (128 * l) 128).isSome
  let out : Option Nat := x.bind (·.2)
  { m with
    frames := (match x with | some f => Tab.upd m.frames f.1 line | none => m.frames),
    dirty := (match out with | some l => Tab.del m.dirty l | none => m.dirty),
    upset := if m.upset.isEmpty then m.upset else (match out with | some l => Tab.keep m.upset fun k u => !(k / 16 == l && u == 2) | none => m.upset),
    l2 := (match out with | some l => Tab.del m.l2 l | none => m.l2) }

/-- The dirty line that a line's coming writes back. -/
def Mem.dirtyVictim (m : Mem) (pick line : Nat) : Option Nat :=
  ((m.frameFor pick line).bind (·.2)).filter fun l => (Tab.look m.dirty l).isSome

/-- One more line in a table of so many lines: where it is full, some line of it is dropped first (R2; log entry 99). -/
def Tab.keepTo {α : Type} (n pick : Nat) (t : Tab α) (k : Nat) (v : α) : Tab α :=
  if (Tab.look t k).isSome || decide (t.length < n) then Tab.upd t k v else Tab.upd (t.eraseIdx (pick % t.length)) k v

/-- What a choice among lines is drawn from. -/
def State.victim (s : State) (line : Nat) : Nat := (Config.freeWord s.own.freeCount (2 ^ 91 + line)).toNat

/-! ### Words and their owners (R278) -/

/-- The core that wrote a word learns it owns it; the core that owned it before loses it (R278). A write that no core makes
leaves the word unowned. -/
def State.own4 (s : State) (core : Option Nat) (key : Nat) : State :=
  let k4 := key / 4
  let line := lineOf key
  let bit : Word := BitVec.ofNat 32 (2 ^ (key % 128 / 4))
  let old := Tab.get s.mem.wordOwner 0 k4
  let new := match core with | some c => c + 1 | none => 0
  let s := if old = new then s else s.modMem fun m => { m with wordOwner := Tab.put 0 m.wordOwner k4 new }
  let s := if old = 0 || old = new then s else
    s.modCore (old - 1) fun c => { c with l1 := Tab.mod c.l1 line fun l => { l with owned := l.owned &&& ~~~bit } }
  match core with
  | some c => s.modCore c fun c => { c with l1 := Tab.mod c.l1 line fun l => { l with owned := l.owned ||| (bit &&& l.valid) } }
  | none => s

/-- The bytes of the word of a key, as the home has them, in a copy of its line. -/
def Mem.wordInto (m : Mem) (key : Nat) (data : List Byte) : List Byte :=
  (List.range 4).foldl (fun d i => setAt d (key % 128 / 4 * 4 + i) (m.byte (key / 4 * 4 + i))) data

/-- One byte written at its home, by nibbles. This device's L2 copy of a remote line is brought along, and so is the writing core's
copy: the word that it then owns, as the home has it (R172, R278, R281, R286). -/
def State.poke (s : State) (core : Option Nat) (key : Nat) (val : Byte) (nib : Nat) : State :=
  let v := nibMerge (s.mem.byte key) val nib
  let s := s.modMem fun m =>
    { m.setByte key v with l2 := Tab.mod m.l2 (lineOf key) fun l => (setAt l.1 (key % 128) v, l.2) }
  let s := match core with
    | some c => s.modCore c fun c => { c with l1 := Tab.mod c.l1 (lineOf key) fun l =>
        { l with data := if isLocal key then s.mem.wordInto key l.data else setAt l.data (key % 128) v } }
    | none => s
  if isLocal key then s.own4 core key else s

/-- Bytes written at their homes as one write of each line they lie in (R173, R298). -/
def State.writeHome (s : State) (owner core : Option Nat) (bs : List (Nat × Byte)) : State :=
  let s := bs.foldl (fun s b => s.poke core b.1 b.2 3) (s.overwritten (bs.map (·.1)))
  s.modMem fun m => (distinct (bs.map (fun b => lineOf b.1))).foldl (fun m l => m.sealLine owner l) m

/-- The bytes of a little-endian number at rising keys. -/
def bytesAt (key n v : Nat) : List (Nat × Byte) := (List.range n).map (fun i => (key + i, BitVec.ofNat 8 (v / 256 ^ i)))

def State.writeNum (s : State) (owner : Option Nat) (key n v : Nat) : State := s.writeHome owner none (bytesAt key n v)

/-- Whether this device's L2 copy of a remote line serves a read past the L1: it is valid and still there (R281). -/
def State.l2Valid (s : State) (line : Nat) : Bool :=
  match Tab.look s.mem.l2 line with
  | none => false
  | some c => decide ((if isHostKey (line * 128) then s.mem.markHost else s.mem.markPeer) < c.2) && Config.keeps s.own.freeCount (2 * line)

/-- A byte read past the L1: from this device's copy of a remote line where R281 lets it, else from its home. -/
def State.beyondL1 (s : State) (key : Nat) : Byte :=
  if isRemote key && s.l2Valid (lineOf key) then ((Tab.look s.mem.l2 (lineOf key)).map fun c => c.1.getD (key % 128) 0).getD 0
  else s.mem.byte key

/-- A byte as a load of a core reads it: from a valid L1 word where the L1 still holds it, else from beyond (R278, R280). -/
def State.readL1 (s : State) (core key : Nat) : Byte :=
  match Tab.look (s.core core).l1 (lineOf key) with
  | none => s.beyondL1 key
  | some l =>
    if Line.word l.valid key && Config.keeps s.own.freeCount (2 * lineOf key + 1) then l.data.getD (key % 128) 0 else s.beyondL1 key

/-- The slice fetches a remote line from its home: its copy has the line's bytes and the next fill number (R281). -/
def State.fetchRemote (s : State) (line : Nat) : State :=
  s.modMem fun m =>
    let m := m.seat (s.victim line) line
    { m with
      fill := m.fill + 1, traffic := m.traffic ++ [.read line]
      l2 := if (m.frameOf line).isSome then Tab.upd m.l2 line (m.list (line * 128) 128, m.fill + 1) else m.l2 }

/-- Whether an L1 still holds its copy of a line when it is looked up (log entry 6). -/
def State.l1Keeps (s : State) (core line : Nat) : Bool :=
  (Tab.look (s.core core).l1 line).isSome && Config.keeps s.own.freeCount (2 * line + 1)

/-- The L1, and the L2 for a remote line, take the copy of a line that a load has read. What came from the home replaces an L2 copy
that is no longer valid or no longer there (R280, R281). -/
def State.fillL1 (s : State) (core line : Nat) : State :=
  let key := line * 128
  if isSram key || isAp key then s else
  let data := (List.range 128).map (fun i => s.readL1 core (key + i))
  let old := Tab.look (s.core core).l1 line
  let owned := match old with | some l => l.owned | none => 0
  let hit : Bool := s.l1Keeps core line && (match old with | some l => l.valid == 0xFFFFFFFF | none => false)
  let s := if isRemote key && !hit && !s.l2Valid line then s.fetchRemote line else s
  s.modCore core fun c => { c with l1 := Tab.keepTo 2048 (s.victim line) c.l1 line { data := data, valid := 0xFFFFFFFF, owned := owned } }

/-- A core has read a word at its home, past its L1: its copies are no older afterwards (R280). -/
def State.sawHome (s : State) (core key : Nat) : State :=
  if isSram key || isAp key then s else
  let line := lineOf key
  let s := if isRemote key && (Tab.look s.mem.l2 line).isSome then s.fetchRemote line else s
  s.modCore core fun c => { c with l1 := Tab.mod c.l1 line fun l => { l with data := s.mem.wordInto key l.data } }

/-- The same for every word of n bytes. -/
def State.sawAll (s : State) (core key n : Nat) : State :=
  (List.range ((n + 3) / 4)).foldl (fun s i => s.sawHome core (key + 4 * i)) s

/-- The words of an L1 line after an acquire: those the core owns (R279). -/
def Line.acquired (l : Line) : Line := { l with valid := l.valid &&& l.owned }

/-- The self-invalidation of an acquire at a scope (R279, R281). -/
def State.acquire (s : State) (core : Nat) (sc : Scope) : State :=
  let s := match sc with
    | .wp | .bk => s
    | _ => s.modCore core fun c => { c with l1 := Tab.mapv c.l1 (fun _ l => l.acquired) }
  match sc with
  | .pk => s.modMem fun m => { m with markPeer := m.fill }
  | .sy => s.modMem fun m => { m with markPeer := m.fill, markHost := m.fill }
  | _ => s

end Sys2Proof.Machine
end

