-- ==== Sys2Proof/Machine/Translate.lean ====
section
/-!
DEFINITION. Machine/Translate.lean: translation through four levels of tables, its faults, TLBs (spec/10_memory_model.md R302 to
R310), and the address map of a service core (spec/15_bringup.md R427).
-/

namespace Sys2Proof.Machine

/-- Kinds of access by the permissions they need (R306): `data` is the translation of `post`, which checks none; `inval` and `flush`
read as `inv` and `flush` do; `put` and `merge` write as `st.rel` and `red.rel` do. -/
inductive Acc where
  | read | write | both | fetch | data | inval | flush | put | merge
  deriving DecidableEq, Repr

def Acc.reads (a : Acc) : Bool := a == .read || a == .both || a == .inval || a == .flush
def Acc.writes (a : Acc) : Bool := a == .write || a == .both || a == .put || a == .merge

/-- Why an access does not reach memory: the trap with its cause code, address and auxiliary word (R305, R400). -/
abbrev Miss := Trap

def pageMiss (code : Nat) (va : DWord) (level : Nat) : Miss :=
  { cls := .page, cause := code, addr := va, aux := BitVec.ofNat 64 level }
def protMiss (code : Nat) (va : DWord) : Miss := { cls := .prot, cause := code, addr := va }

/-! ### Aperture offsets that translation reads -/

def offMmuRoot (ctx : Nat) : Nat := 0x20000 + 16 * ctx
def offMmuSave (ctx : Nat) : Nat := 0x20008 + 16 * ctx
def offMemStat (d : Nat) : Nat := 0x280008 + 0x10000 * d

/-- A bit field of a number. -/
def bitsOf (v hi lo : Nat) : Nat := v / 2 ^ lo % 2 ^ (hi + 1 - lo)

/-- Whether a die's DRAM has trained: MEM_STAT.LAST is 6 (R439). -/
def State.trained (s : State) (d : Nat) : Bool := bitsOf (Tab.get s.ap 0 (offMemStat d)).toNat 19 16 == 6

/-! ### Entries (R303, R304) -/

def entV (e : Nat) : Bool := e % 2 == 1
def entLeaf (e : Nat) : Bool := e / 2 % 2 == 1
def entR (e : Nat) : Bool := e / 8 % 2 == 1
def entW (e : Nat) : Bool := e / 16 % 2 == 1
def entX (e : Nat) : Bool := e / 32 % 2 == 1
def entP (e : Nat) : Bool := e / 64 % 2 == 1
def entCont (e : Nat) : Bool := e / 128 % 2 == 1
def entPfn (e : Nat) : Nat := bitsOf e 47 16
def entDev (e : Nat) : Nat := bitsOf e 61 52
def entTgt (e : Nat) : Nat := bitsOf e 63 62

/-- Pages of a leaf, and entries of its contiguous run, at a level. -/
def leafPages (level : Nat) : Nat := if level = 2 then 8192 else 1
def runLen (level : Nat) : Nat := if level = 2 then 16 else 32

/-- A malformed entry: cause 0x02 of R305. `idx` is the entry's index in its table. -/
def entBad (level idx e : Nat) : Bool :=
  bitsOf e 51 48 != 0 || bitsOf e 15 8 != 0 || e / 4 % 2 == 1
    || (entLeaf e && level < 2) || (!entLeaf e && level == 3)
    || (!entLeaf e && (bitsOf e 7 2 != 0 || entTgt e != 0))
    || entTgt e == 3
    || (entTgt e == 1 && 639 < entDev e) || (entTgt e != 1 && entDev e != 0)
    || (entLeaf e && entPfn e % leafPages level != 0)
    || (entLeaf e && entCont e && entPfn e / leafPages level % runLen level != idx % runLen level)
    || (entTgt e == 0 && !populated (entPfn e * 65536))

/-- Index of an address at a level (R302). -/
def vaIndex (va level : Nat) : Nat :=
  if level = 0 then bitsOf va 63 55 else if level = 1 then bitsOf va 54 42 else if level = 2 then bitsOf va 41 29 else bitsOf va 28 16

/-- A leaf as it maps one 64 KiB page: its words with the PFN of that page. -/
structure Leaf where
  tgt : Nat
  dev : Nat
  page : Nat
  p : Bool
  x : Bool
  w : Bool
  r : Bool
  size : Nat            -- what one TLB entry may map of it: a page, a run of level 3, a leaf of level 2, a run of level 2 (R304, R307)
  deriving DecidableEq, Repr

/-- The leaf of entry `e` at index `from_`, in a run or not, adjusted to the page of `va` whose own index is `idx`. -/
def leafOf (level from_ idx e va : Nat) (run : Bool) : Leaf :=
  { tgt := entTgt e, dev := entDev e,
    page := entPfn e / leafPages level * leafPages level + leafPages level * idx - leafPages level * from_
      + (if level = 2 then bitsOf va 28 16 else 0),
    p := entP e, x := entX e, w := entW e, r := entR e, size := (if level = 2 then 2 else 0) + if run then 1 else 0 }

/-- The indexes of the aligned run that holds an index. -/
def runIdx (level idx : Nat) : List Nat := (List.range (runLen level)).map (idx / runLen level * runLen level + ·)

/-- A run exists where some entry of the aligned window is a leaf with CONT (R304). -/
def isRun (run : List Nat) : Bool := run.any (fun e => entV e && entLeaf e && entCont e)

/-- Every entry of a run gives the same mapping: equal words but for PFNs that step by one page. -/
def runAgrees (level : Nat) (run : List Nat) : Bool :=
  match run with
  | [] => true
  | e :: _ => (List.range run.length).all (fun i => run.getD i 0 == e + i * leafPages level * 65536)

/-- The entry a translation of a page uses: its own, or where the run's words disagree any of them, which may differ from access to access
(R304, log entry 9). -/
def usedEntry (n page level idx : Nat) (run : List Nat) : Nat × Nat :=
  let own := run.getD (idx % runLen level) 0
  if isRun run && !runAgrees level run then
    let i := Config.contPick n page (run.map (BitVec.ofNat 64)) % runLen level
    (idx / runLen level * runLen level + i, run.getD i 0)
  else (idx, own)

/-- Words of a table, at home (R307). -/
def State.tableWord (s : State) (pfn idx : Nat) : Nat := s.mem.num (pfn * 65536 + 8 * idx) 8

/-- A local line that a peer device owns under a lease (R282). -/
def State.leasedOut (s : State) (line : Nat) : Bool := s.mem.leases.any (fun l => l.line == line && l.dev.isSome)

/-- The line of a table word that a walk reads: one that a peer holds is recalled first (R282, R307), and a poisoned one stops the walk
(R283), as a word with an error does (R407). -/
def State.walkPoison (s : State) (pfn idx : Nat) (va : DWord) : Option Miss :=
  let line := lineOf (pfn * 65536 + 8 * idx)
  if s.leasedOut line then some { cls := .page, addr := va, wait := some line }
  else if s.mem.poisoned line then some { cls := .poison, addr := va, aux := BitVec.ofNat 64 (line * 128 % span) }
  else s.upsetTrap (pfn * 65536 + 8 * idx) 8 va

/-- Walks from a level of tables, with the levels left to read (R302 to R305). -/
def State.walk (s : State) (va : DWord) : Nat → Nat → Except Miss Leaf
  | 0, _ => .error (pageMiss 2 va 3)
  | left + 1, pfn =>
    let level := 3 - left
    let idx := vaIndex va.toNat level
    match s.walkPoison pfn idx va with
    | some m => .error m
    | none =>
      let run := if level < 2 then [] else (runIdx level idx).map (s.tableWord pfn)
      let (used, e) := if level < 2 then (idx, s.tableWord pfn idx) else usedEntry s.own.freeCount (va.toNat / 65536 + 2 ^ 52 * s.own.access) level idx run
      if !entV e then .error (pageMiss 1 va level)
      else if entBad level used e then .error (pageMiss 2 va level)
      else if entLeaf e then .ok (leafOf level used idx e va.toNat (isRun run))
      else s.walk va left (entPfn e)

/-- The lines that a walk reads, one of each table (R302, R307). -/
def State.trail (s : State) (va : DWord) : Nat → Nat → List Nat
  | 0, _ => []
  | left + 1, pfn =>
    let idx := vaIndex va.toNat (3 - left)
    let e := s.tableWord pfn idx
    lineOf (pfn * 65536 + 8 * idx) ::
      if (s.walkPoison pfn idx va).isSome || !entV e || entBad (3 - left) idx e || entLeaf e then [] else s.trail va left (entPfn e)

/-- The leaf as a TLB keeps it, in a word. -/
def Leaf.code (l : Leaf) : DWord :=
  BitVec.ofNat 64 (l.page + 2 ^ 32 * (l.tgt + 4 * l.dev + 2 ^ 12 * ((if l.p then 1 else 0) + (if l.x then 2 else 0)
    + (if l.w then 4 else 0) + (if l.r then 8 else 0))))
def Leaf.ofCode (c size : Nat) : Leaf :=
  { page := c % 2 ^ 32, tgt := c / 2 ^ 32 % 4, dev := c / 2 ^ 34 % 1024, p := c / 2 ^ 44 % 2 == 1, x := c / 2 ^ 45 % 2 == 1,
    w := c / 2 ^ 46 % 2 == 1, r := c / 2 ^ 47 % 2 == 1, size := size }

/-- Pages that a TLB entry maps, by its size code. -/
def tlbPages (size : Nat) : Nat := if size = 0 then 1 else if size = 1 then 32 else if size = 2 then 8192 else 131072

/-- TLB tag of a context and a page, by the entry's size (R307). -/
def tlbKey (ctx size page : Nat) : Nat := (4 * ctx + size) * 2 ^ 48 + page / tlbPages size

/-- Whether an entry maps a page of a context in a range (R310). -/
def tlbCovers (ctx lo hi key : Nat) : Bool :=
  let n := tlbPages (key / 2 ^ 48 % 4)
  let first := key % 2 ^ 48 * n
  key / 2 ^ 50 == ctx && decide (first < hi) && decide (lo < first + n)

/-- A translation that a TLB holds and may still hold when it is looked up (R307, log entry 6). -/
def tlbHit (t : Tab DWord) (n who ctx page : Nat) : Option Leaf :=
  [0, 1, 2, 3].findSome? fun size =>
    match Tab.look t (tlbKey ctx size page) with
    | none => none
    | some e =>
      let l := Leaf.ofCode e.toNat size
      if Config.keeps n (2 ^ 70 + who * 2 ^ 64 + tlbKey ctx size page) then some { l with page := (l.page + page % tlbPages size) % 2 ^ 32 } else none

/-- The yard of a core, over the device. -/
def yardId (core : Nat) : Nat := core / 4

/-- A translation that the core's TLB holds, or its yard's (R307). -/
def State.tlbLook (s : State) (core ctx : Nat) (va : DWord) : Option Leaf :=
  match tlbHit (s.core core).tlb s.own.freeCount core ctx (va.toNat / 65536) with
  | some l => some l
  | none => tlbHit (Tab.get s.mem.ytlb [] (yardId core)) s.own.freeCount (256 + yardId core) ctx (va.toNat / 65536)

/-- The leaf of an address in a context. -/
def State.leaf (s : State) (core ctx : Nat) (va : DWord) : Except Miss Leaf :=
  let root := (Tab.get s.ap 0 (offMmuRoot ctx)).toNat
  if root % 2 = 0 then .error (pageMiss 3 va 0) else
  match s.tlbLook core ctx va with
  | some l => .ok l
  | none => s.walk va 4 (bitsOf root 47 16)

/-- The lines that a translation reads: none where a TLB holds it (R307). -/
def State.trailOf (s : State) (core ctx : Nat) (va : DWord) : List Nat :=
  let root := (Tab.get s.ap 0 (offMmuRoot ctx)).toNat
  if isService core || root % 2 = 0 || (s.tlbLook core ctx va).isSome then [] else s.trail va 4 (bitsOf root 47 16)

/-- The state as the access of a given number in its instruction finds it (R304). -/
def State.asAccess (s : State) (n : Nat) : State := { s with own := { s.own with access := n } }

/-- The permission checks in the order of R305. -/
def permit (l : Leaf) (priv : Bool) (a : Acc) (va : DWord) : Option Miss :=
  match a with
  | .data => none
  | _ =>
    if l.p && !priv then some (protMiss 0x13 va)
    else if a.reads && !l.r then some (protMiss 0x10 va)
    else if a.writes && !l.w then some (protMiss 0x11 va)
    else if a == .fetch && !l.x then some (protMiss 0x12 va)
    else none

/-- The home key of an address under a leaf (R276). -/
def Leaf.key (l : Leaf) (va : DWord) : Nat :=
  let pa := l.page % 2 ^ 32 * 65536 + va.toNat % 65536
  if l.tgt = 1 then keyPeer l.dev pa else if l.tgt = 2 then keyHost pa else pa

/-- Translation of a context's access (R302 to R306). -/
def State.xlate (s : State) (core ctx : Nat) (priv : Bool) (a : Acc) (va : DWord) : Except Miss Nat :=
  match s.leaf core ctx va with
  | .error m => .error m
  | .ok l =>
    match permit l priv a va with
    | some m => .error m
    | none => .ok (l.key va)

/-- The address map of service core n: its SRAM, the aperture, and trained local DRAM (R427). -/
def State.svcMap (s : State) (n : Nat) (va : DWord) : Except Miss Nat :=
  let a := va.toNat
  if a < 2 ^ 18 then .ok (keySram n a)
  else if 0x00FFFC000000 ≤ a && a < 0x010000000000 then .ok (keyAp (a - 0x00FFFC000000))
  else if 0x800000000000 ≤ a && populated (a - 0x800000000000) && s.trained (dieOfLpa (a - 0x800000000000)) then
    .ok (a - 0x800000000000)
  else .error (protMiss 0x10 va)

/-- Where an access of a core goes: translation, or a service core's own map. -/
def State.mapTo (s : State) (core ctx : Nat) (priv : Bool) (a : Acc) (va : DWord) : Except Miss Nat :=
  if isService core then s.svcMap (svcOf core) va else s.xlate core ctx priv a va

/-- Some link to the companion processor is up (BOOT_STAT.FCL, R438, R440). -/
def State.hostUp (s : State) : Bool := (Tab.get s.ap 0 0).toNat / 2 ^ 29 % 2 == 1

/-- Whether an access of a line fails as poison: it is poisoned, or it lies in host memory and every link is down (R283, R339). -/
def State.broken (s : State) (line : Nat) : Bool := s.mem.poisoned line || (isHostKey (line * 128) && !s.hostUp)

/-- The same, stopped by poisoned lines (R283) and by host memory that no link reaches (R339). -/
def State.place (s : State) (core ctx : Nat) (priv : Bool) (a : Acc) (va : DWord) : Except Miss Nat :=
  match s.mapTo core ctx priv a va with
  | .error m => .error m
  | .ok key =>
    if a != .data && s.broken (lineOf key) then
      .error { cls := .poison, addr := va, aux := BitVec.ofNat 64 (lineOf key * 128 % span) }
    else .ok key

/-- The home key of 16 bytes that an operation reads and writes at their home (R407). -/
def State.placeBoth (s : State) (core ctx : Nat) (priv : Bool) (va : DWord) : Except Miss Nat :=
  match s.place core ctx priv .both va with
  | .error m => .error m
  | .ok key => match s.upsetTrap key 16 va with
    | some t => .error t
    | none => .ok key

/-- The size of the entry that a leaf takes: a run may have one entry, or each of its pages one (R307). -/
def State.entrySize (s : State) (l : Leaf) (page : Nat) : Nat :=
  if l.size % 2 = 1 && !Config.keeps s.own.freeCount (2 ^ 92 + page) then l.size - 1 else l.size

end Sys2Proof.Machine
end

