-- ==== Sys2Proof/Machine/Device.lean ====
section
/-!
DEFINITION. Machine/Device.lean: registers of the management aperture as plain storage, interrupts and error log, launch
records, completion of grids, freeing of blocks, and the termination of a context (spec/08 R232 to R240, R257 to R259; spec/14
R404, R412 to R420).
-/

namespace Sys2Proof.Machine

/-! ### Aperture blocks (spec/15_bringup.md R443) -/

def bBoot : Nat := 0
def bMmu : Nat := 0x10000
def bLq : Nat := 0x30000
def bRiv : Nat := 0x40000
def bFlt : Nat := 0x60000
def bGov : Nat := 0x100000
def bSch (d : Nat) : Nat := 0x200000 + 0x10000 * d
def bCol (d : Nat) : Nat := 0x240000 + 0x10000 * d
def bMem (d : Nat) : Nat := 0x280000 + 0x10000 * d
def bFcl : Nat := 0x300000
def bFab : Nat := 0x400000

def offBootStat : Nat := 0
def offDevId : Nat := 0x10
def offMeas (i : Nat) : Nat := 0x100 + 0x40 * i
def offExtend : Nat := 0x500
def offMeasCmd : Nat := 0x540
def offDoor (n : Nat) : Nat := 0x600 + 8 * n
def offSvcErr (n : Nat) : Nat := 0x700 + 8 * n
def offInvVa : Nat := bMmu
def offInvCtl : Nat := bMmu + 8
def offLqBase (q : Nat) : Nat := bLq + 32 * q
def offLqCfg (q : Nat) : Nat := bLq + 32 * q + 8
def offLqTail (q : Nat) : Nat := bLq + 32 * q + 0xC
def offLqProg (q : Nat) : Nat := bLq + 32 * q + 0x10
def offPitch (ctx : Nat) : Nat := bRiv + 16 * ctx
def offRivLim (ctx d : Nat) : Nat := bRiv + 0x10000 + 16 * ctx + 4 * d
def offFltStat : Nat := bFlt
def offInjMask : Nat := bFlt + 8
def offDbgCtl : Nat := bFlt + 0x10
def offDbgRegw : Nat := bFlt + 0x18
def offFltKill : Nat := bFlt + 0x20
def offUeLog (i : Nat) : Nat := bFlt + 0x100 + 8 * i
def offPgret (i : Nat) : Nat := bFlt + 0x800 + 8 * i
def offL2q (i : Nat) : Nat := bFlt + 0x1000 + 4 * i
def offFltHnd (ctx : Nat) : Nat := bFlt + 0x10000 + 8 * ctx
def offWdLocal (d : Nat) : Nat := bSch d + 0x40
def offExtw (d : Nat) : Nat := bSch d + 0x44
def offPhsCtx (d : Nat) : Nat := bSch d + 0x100
def offPhsCore (d : Nat) : Nat := bSch d + 0x104
def offPhsTab (d p : Nat) : Nat := bSch d + 0x1000 + 8 * p
def offColCfg (d : Nat) : Nat := bCol d
def offMemCtl (d : Nat) : Nat := bMem d
def offGovCap : Nat := bGov
def offGovCal : Nat := bGov + 0x18
def offGovJob : Nat := bGov + 0x20
def offBalCtl : Nat := bGov + 0x28
def offGovFloor (p : Nat) : Nat := bGov + 0x100 + 8 * p
def offGovPmap (ctx : Nat) : Nat := bGov + 0x1000 + 4 * ctx
def offDieGov (d : Nat) : Nat := bGov + 0x10000 * (d + 1)
def offTokCap (c : Nat) : Nat := offDieGov (c / 48) + 0x100 + 16 * (c % 48)
def offTokRate (c : Nat) : Nat := offDieGov (c / 48) + 0x104 + 16 * (c % 48)

/-- Position of an offset in an array of `n` registers, `step` bytes apart. -/
def arrayIdx (base step n off : Nat) : Option Nat :=
  if base ≤ off && (off - base) % step = 0 && (off - base) / step < n then some ((off - base) / step) else none

/-- Reset value of a register that does not reset to zero. -/
def apReset (off : Nat) : Nat :=
  if off = offDevId then 0x3FF
  else if off = offGovCap then 0xA28
  else if off = offGovCal then 0x2000017C000C0000
  else if off = bGov + 0x8 then 0x40
  else if off = offBalCtl then 7
  else if (arrayIdx (bSch 0 + 0x40) 0x10000 4 off).isSome then 0x18
  else if (arrayIdx (bSch 0 + 0x44) 0x10000 4 off).isSome then 0x1E
  else if (arrayIdx (bCol 0) 0x10000 4 off).isSome then 0x4003E8
  else if (arrayIdx (bRiv + 0x10000) 4 16384 off).isSome then 0x400
  else if (List.range 4).any (fun d => off = offDieGov d) then 0x2000
  else if (List.range 4).any (fun d => (arrayIdx (offDieGov d + 0x100) 16 48 off).isSome) then 0x400
  else if (List.range 4).any (fun d => (arrayIdx (offDieGov d + 0x104) 16 48 off).isSome) then 0xFFFF
  else 0

/-- What a register's storage holds. -/
def State.ap! (s : State) (off : Nat) : Nat :=
  match Tab.look s.ap off with
  | some v => v.toNat
  | none => apReset off

/-- Stores a register, listing it only while it differs from its reset value. -/
def State.apSet (s : State) (off v : Nat) : State :=
  { s with ap := if v = apReset off then Tab.del s.ap off else Tab.upd s.ap off (BitVec.ofNat 64 v) }

/-- Sets a bit field of a register. -/
def setBits (v hi lo x : Nat) : Nat := v - bitsOf v hi lo * 2 ^ lo + (x % 2 ^ (hi + 1 - lo)) * 2 ^ lo
def State.apField (s : State) (off hi lo x : Nat) : State := s.apSet off (setBits (s.ap! off) hi lo x)
def State.apBits (s : State) (off hi lo : Nat) : Nat := bitsOf (s.ap! off) hi lo

/-! ### Device identity, service states, clocks -/

def State.devId (s : State) : Nat := s.apBits offDevId 9 0

/-- Service state of a die: 0 not serving, 1 reduced, 2 full, 3 failed (R440). -/
def State.service (s : State) (d : Nat) : Nat := s.apBits offBootStat (2 * d + 1) (2 * d)

/-- Whether a warp runs on a die in reduced service (R441); the package controller, core 196, is on none. -/
def State.lowService (s : State) (wid : Nat) : Bool := coreOf wid != 196 && s.service (dieOf wid) == 1
def State.setService (s : State) (d v : Nat) : State := s.apField offBootStat (2 * d + 1) (2 * d) v

/-- Whether so many microseconds have passed since a beat (R5). -/
def State.elapsed (s : State) (start us : Nat) : Bool := decide (start + 1600 * us ≤ s.dev.beat)

/-- Cycles per microsecond of a die: 1 600, or 800 in reduced service (R5, R441). -/
def State.mhz (s : State) (d : Nat) : Nat := if s.service d = 2 then 1600 else 800

/-! ### Interrupts and logs (R418 to R420) -/

def State.irq (s : State) (v : Nat) : State := s.send (.irq v)

/-- Rings a bit of a service core's SVC_DOOR (R429). -/
def State.ring (s : State) (n bit : Nat) : State := s.apSet (offDoor n) (s.ap! (offDoor n) ||| 2 ^ bit)

/-- Writes a UE_LOG entry at NEXT and sends 0xF1 (R417, R418, R420); SVC_DOOR.UE is set in every service core (log entry 20). -/
def State.logUe (s : State) (unit act owner line : Nat) (inj : Bool) : State :=
  let i := s.apBits offFltStat 5 0
  let s := if s.apBits (offUeLog i) 63 63 = 1 then s.apField offFltStat 8 8 1 else s
  let s := s.apSet (offUeLog i)
    (2 ^ 63 + (if inj then 2 ^ 62 else 0) + unit % 32 * 2 ^ 57 + act % 16 * 2 ^ 53 + owner % 4096 * 2 ^ 41 + line % 2 ^ 41)
  let s := s.apField offFltStat 5 0 (i + 1)
  ((List.range 5).foldl (fun s n => s.ring n 3) s).irq 0xF1

/-- The checks of some units are made: an armed detector of INJ_MASK reports once, with the line and owner of the data checked, and
is disarmed (R421, log entry 23). -/
def State.inject (s : State) (units : List Nat) (line owner : Nat) : State :=
  if s.ap! offInjMask = 0 then s else
  units.foldl (fun s u =>
    if s.ap! offInjMask / 2 ^ u % 2 = 1 then (s.apField offInjMask u u 0).logUe u 5 owner line true else s) s

/-- Line field of UE_LOG for a line key: bits 47:7 of its LPA. -/
def logLine (line : Nat) : Nat := line % 2 ^ 41

/-! ### Home traffic (R368) -/

/-- Whether a home slice holds a line: a dirty one, or a clean one that it has kept (log entry 6). -/
def State.inL2 (s : State) (line : Nat) : Bool :=
  (s.mem.frameOf line).isSome && ((Tab.look s.mem.dirty line).isSome || Config.keeps s.own.freeCount (2 ^ 90 + line))

/-- A home step of a line's slice: its die's bucket pays it, and its yard draws it (R368, R382). -/
def State.sliceStep (s : State) (line price : Nat) : State :=
  let y := yardOfLpa (line * 128)
  (s.homeStep (dieOfLpa (line * 128)) price).modDie (dieOfLpa (line * 128)) fun x =>
    { x with homes := Tab.put 0 x.homes y (Tab.get x.homes 0 y + price) }

/-- An error in a clean line of the L2 is found and the line read again from DRAM: it is not consumed (R405). -/
def State.reread (s : State) (line : Nat) : State :=
  if s.mem.upset.isEmpty || (Tab.look s.mem.dirty line).isSome || !s.mem.upset.any (fun e => e.1 / 16 == line && e.2 == 2) then s
  else (s.modMem fun m => { m with upset := Tab.keep m.upset fun k u => !(k / 16 == line && u == 2) }).soon
    (if s.inL2 line then [.event (.l2CleanUe line)] else [])

/-- A line takes a frame of its slice; a dirty victim is written back, which consumes an error in it (R277, R368, R407, R414). -/
def State.seatLine (s : State) (line : Nat) : State :=
  let s := if s.mem.upset.isEmpty then s
    else s.contains ((s.mem.dirtyVictim (s.victim line) line).bind fun l => s.mem.upsetAt (128 * l) 128) none
  { s with
    mem := s.mem.seat (s.victim line) line,
    dies := match s.mem.dirtyVictim (s.victim line) line with | some old => (s.sliceStep old 20).dies | none => s.dies }

/-- A line comes into its slice, from DRAM or from a remote home (R176, R281). -/
def State.fillHome (s : State) (line : Nat) : State :=
  if isLocal (line * 128) then s.seatLine line
  else if isRemote (line * 128) && !s.l2Valid line then s.fetchRemote line else s

/-- Flits that go from one die to another over the die mesh draw a transit on each of the two (R368). -/
def State.cross (s : State) (d h flits : Nat) : State := if h = d then s else (s.homeStep d flits).homeStep h flits

/-- A line is read or written at its home: the slice access, the DRAM access where the slice does not hold it, and the flits of the
die mesh where the home is another die (R368). An L1 that owns it gives it up (R177). Its checks are made (R405, R421). -/
def State.homeLine (s : State) (core line : Nat) : State :=
  if !isLocal (line * 128) then s else
  let d := dieOfCore core
  let h := dieOfLpa (line * 128)
  let dram := !s.inL2 line
  let s := (((s.reread line).sliceStep line (if dram then 23 else 3)).seatLine line).modMem fun m => { m with excl := Tab.del m.excl line }
  let s := s.cross d h 4
  s.inject ((if dram then [0] else []) ++ [2, 3] ++ (if h = d then [] else [12])) (logLine line) (s.mem.ownerOf line)

/-- The slice's access for a party on no core: it pays on the home die, and reports what its checks find (R368, R421). -/
def State.touch (s : State) (line : Nat) : State := s.homeLine (48 * dieOfLpa (line * 128)) line

/-- A party that needs some lines consumes what errors they hold (R407; log entry 130). -/
def State.metLines (s : State) (lines : List Nat) : State :=
  if s.mem.upset.isEmpty then s else lines.foldl (fun s l => s.contains (s.mem.upsetAt (128 * l) 128) none) s

/-- A walk reads its lines at their homes, where no TLB holds the translation (R307, R368). -/
def State.walked (s : State) (core ctx : Nat) (va : DWord) : State :=
  (s.trailOf core ctx va).foldl (fun s l => s.homeLine core l) s

/-- The core's TLB of 256 entries and its yard's of 8 192 take the translation that an access used (R307, log entry 99). -/
def State.fillTlb (s : State) (core ctx : Nat) (va : DWord) : State :=
  if isService core then s else
  match s.leaf core ctx va with
  | .error _ => s
  | .ok l =>
    let s := s.walked core ctx va
    let page := va.toNat / 65536
    let size := s.entrySize l page
    let key := tlbKey ctx size page
    let e := { l with page := (l.page + 2 ^ 32 - page % tlbPages size) % 2 ^ 32 }.code
    (s.modCore core fun c => { c with tlb := Tab.keepTo 256 (s.victim page) c.tlb key e }).modMem fun m =>
      { m with ytlb := Tab.upd m.ytlb (yardId core) (Tab.keepTo 8192 (s.victim page) (Tab.get m.ytlb [] (yardId core)) key e) }

/-- One access of a context's address at its home: the walk where no TLB holds the translation, and the line (R307, R368). -/
def State.homeAt (s : State) (core ctx : Nat) (va : DWord) (key : Nat) : State := (s.fillTlb core ctx va).homeLine core (lineOf key)

/-- A run of bytes at their homes: the walk of its first page and of its last, and each line once. -/
def State.homeRun (s : State) (core ctx : Nat) (va : DWord) (keys : List Nat) : State :=
  let s := (s.fillTlb core ctx va).fillTlb core ctx (va + BitVec.ofNat 64 (keys.length - 1))
  (distinct (keys.map lineOf)).foldl (fun s l => s.homeLine core l) s

/-! ### Launch records (spec/08 R232 to R235) -/

namespace Rec
def entry (r : List Byte) : Nat := leAt r 0 8
def flags (r : List Byte) : Nat := leAt r 8 4
def pp (r : List Byte) : Bool := flags r % 2 == 1
def restart (r : List Byte) : Bool := flags r / 2 % 2 == 1
def feeds (r : List Byte) : Bool := flags r / 4 % 2 == 1
def racedet (r : List Byte) : Bool := flags r / 8 % 2 == 1
def prio (r : List Byte) : Nat := flags r / 16 % 4
def regs (r : List Byte) : Nat := leAt r 0xC 2
def warps (r : List Byte) : Nat := leAt r 0xE 2
def part (r : List Byte) : Nat := leAt r 0x10 4
def rcb (r : List Byte) : Nat := part r % 64
def spb (r : List Byte) : Nat := part r / 2 ^ 8 % 64
def acb (r : List Byte) : Nat := part r / 2 ^ 16 % 64
def spad (r : List Byte) : Nat := leAt r 0x14 4
def gx (r : List Byte) : Nat := leAt r 0x18 4
def gy (r : List Byte) : Nat := leAt r 0x1C 4
def gz (r : List Byte) : Nat := leAt r 0x20 4
def blocks (r : List Byte) : Nat := gx r * gy r * gz r
def group (r : List Byte) : Nat := leAt r 0x24 4
def tf (r : List Byte) : Nat := leAt r 0x28 4
def handles (r : List Byte) : Nat := leAt r 0x30 8
def pitch (r : List Byte) : Nat := leAt r 0x38 8
def stamp (r : List Byte) : Nat := leAt r 0xC0 8

/-- Registers per lane rounded up to a multiple of 32 (R232). -/
def count (r : List Byte) : Nat := (regs r + 31) / 32 * 32

/-- Members of a group (R238). -/
def groupSize (r : List Byte) : Nat := if group r = 0 then 1 else if group r = 1 then 4 else if group r = 2 then 48 else 192
def groups (r : List Byte) : Nat := (blocks r + groupSize r - 1) / groupSize r

/-- The status of the first failing check of R235, 0 when none fails (a res0 bit of a partition word: log entry 122). -/
def check (r : List Byte) : Nat :=
  if entry r % 4 ≠ 0 then 1
  else if flags r / 64 ≠ 0 then 2
  else if regs r < 1 || 512 < regs r then 3
  else if warps r < 1 || 64 < warps r then 4
  else if part r / 2 ^ 22 ≠ 0 || bitsOf (part r) 15 14 ≠ 0 || bitsOf (part r) 7 6 ≠ 0 || rcb r < 1 || 48 < rcb r + spb r + acb r
      || 65536 * spb r < spad r then 5
  else if blocks r = 0 || 2 ^ 24 < blocks r then 6
  else if 4 < group r || (group r = 4 && 640 < groups r) then 7
  else if pp r && (tf r < 64 || 65535 < tf r) then 8
  else if handles r % 64 ≠ 0 || pitch r % 32 ≠ 0 || stamp r % 8 ≠ 0 then 9
  else if leAt r 0x2C 4 ≠ 0 || leAt r 0xC8 56 ≠ 0 then 10
  else if warps r = 64 && 2 ≤ group r then 14
  else 0

/-- The record that stands for a block without one: a handler group or a trap handler runs with PP = 1, T_f = 1 024, PRIO 3 and
RESTART 0 (R330, R403); its slots are zero (log entry 116). -/
def synth (entry warps regs rcb : Nat) : List Byte :=
  leBytes 8 entry ++ leBytes 4 0x31 ++ leBytes 2 regs ++ leBytes 2 warps ++ leBytes 4 rcb ++ leBytes 4 0
    ++ leBytes 4 1 ++ leBytes 4 1 ++ leBytes 4 1 ++ leBytes 4 0 ++ leBytes 4 1024 ++ leBytes 212 0
end Rec

/-- Whether a warp runs at the privileged level or above (R33). -/
def Warp.priv (w : Warp) : Bool := w.level != .u

/-! ### Writes of the die schedulers (R236, R277) -/

/-- A stamp written at a context's virtual address; one that faults is not written (R351, log entry 21). -/
def State.writeStamp (s : State) (d ctx va v : Nat) : State :=
  if va % 8 ≠ 0 then s else
  match s.place (48 * d) ctx true .write (BitVec.ofNat 64 va) with
  | .error _ => s
  | .ok key => (s.homeAt (48 * d) ctx (BitVec.ofNat 64 va) key).writeNum (some ctx) key 8 v

/-- A warp's mwait or poll sees a write only when it reads again; nothing else here. The completion of a grid: stamp, interrupt,
report to a sending device, and its parent's count (R236, R259, R319, R339). -/
def State.gridEnd (s : State) (g status : Nat) : State :=
  match s.grid? g with
  | none => s
  | some v =>
    let s := match v.src with
      | some x => s.send (.retired x.1 g x.2)
      | none =>
        let s := if Rec.stamp v.record = 0 then s else s.writeStamp 0 v.ctx (Rec.stamp v.record) (2 ^ 32 + status)
        if leAt v.packet 8 4 / 2 % 2 = 1 then s.irq (leAt v.packet 0xE 2 % 256) else s
    let s := match v.parent with
      | some p => s.modGrid p fun q => { q with children := q.children - 1 }
      | none => s
    { s with grids := Tab.del s.grids g }

/-! ### Banks, tags and blocks (R193, R201, R206, R258, R260, R264) -/

/-- Clears the accumulator words of a bank (R201). -/
def zeroBank (acc : Tab Word) (bank : Nat) : Tab Word := Tab.keep acc (fun k _ => k / 16384 != bank)

/-- Whether a context has a block resident on a core. -/
def State.ctxOnCore (s : State) (ctx c : Nat) : Bool := s.blocks.any (fun e => e.2.ctx == ctx && e.2.core == c && e.2.resident)

/-- The context's last block left the core: macros lose their owner and its intent lapses (R264, R385). -/
def State.ctxLeft (s : State) (ctx c : Nat) : State :=
  if s.ctxOnCore ctx c then s else
  s.modCore c fun k => { k with owner := if k.owner = some ctx then none else k.owner, intents := Tab.del k.intents ctx }

/-- A claimed tag is released with its bit still 0 (R193). -/
def Core.releaseTag (c : Core) (ctx tag : Nat) : Core :=
  if 64 ≤ tag then c else
  { c with tags := Tab.mod c.tags ctx fun t => { t with flight := t.flight &&& ~~~(1#64 <<< tag) } }

/-- A tag is claimed: its bit is 0 and it is in flight (R193). -/
def Core.claimTag (c : Core) (ctx tag : Nat) : Core :=
  if 64 ≤ tag then c else
  let t := Tab.get c.tags { done := -1, flight := 0 } ctx
  { c with tags := Tab.upd c.tags ctx { done := t.done &&& ~~~(1#64 <<< tag), flight := t.flight ||| (1#64 <<< tag), yard := t.yard &&& ~~~(1#64 <<< tag) } }

/-- Whether a tag is in flight (R193). -/
def Core.tagFlies (c : Core) (ctx tag : Nat) : Bool :=
  match Tab.look c.tags ctx with
  | some t => decide (tag < 64) && t.flight.getLsbD tag
  | none => false

/-- An operation's tag is set (R193). -/
def Core.setTag (c : Core) (ctx tag : Nat) : Core :=
  if 64 ≤ tag then c else
  { c with tags := Tab.mod c.tags ctx fun t => { t with done := t.done ||| (1#64 <<< tag), flight := t.flight &&& ~~~(1#64 <<< tag) } }

/-- The tag that an operation of a yard round has set is remembered as such (R273). -/
def Core.yardTag (c : Core) (ctx tag : Nat) : Core :=
  if 64 ≤ tag then c else { c with tags := Tab.mod c.tags ctx fun t => { t with yard := t.yard ||| (t.done &&& (1#64 <<< tag)) } }

/-- %tagmap of a context on a core: every bit 1 when it first has a block there (R237). -/
def Core.tagmap (c : Core) (ctx : Nat) : Tags := Tab.get c.tags { done := -1, flight := 0 } ctx

/-- The same at a core of the machine; 64 names no tag. -/
def State.claimTag (s : State) (core ctx tag : Nat) : State := if 64 ≤ tag then s else s.modCore core fun k => k.claimTag ctx tag
def State.releaseTag (s : State) (core ctx tag : Nat) : State := if 64 ≤ tag then s else s.modCore core fun k => k.releaseTag ctx tag
def State.setTag (s : State) (core ctx tag : Nat) : State := if 64 ≤ tag then s else s.modCore core fun k => k.setTag ctx tag

/-- A register's latched tag is released and the register is owned by nobody (R206). -/
def Core.releaseCv (c : Core) (i : Nat) : Core :=
  let c := match Tab.look c.cvs i with
    | some { latch := some op, .. } => c.releaseTag op.ctx op.tag
    | _ => c
  { c with cvs := Tab.del c.cvs i }

/-- Releases every convergence register of a block (R206). -/
def Core.releaseCvs (c : Core) (blk : Nat) : Core :=
  (c.cvs.filter (fun e => e.2.own == some blk)).foldl (fun c e => c.releaseCv e.1) c

/-- The tag that a commit point has claimed whose step 4 it has not reached goes back (R193). -/
def Core.unclaim (c : Core) (w : Warp) : Core :=
  match w.stage with
  | some st => if 64 ≤ st.tag then c else c.releaseTag w.ctx st.tag
  | none => c

/-- Drops warps of a core from its blocked queue (R371, R445, R412). -/
def Core.dropDemands (c : Core) (wid : Nat) : Core :=
  { c with queue := c.queue.filter fun d => match d with
      | .issue w _ | .step w _ _ => w != wid
      | .engine .. => true }

/-- Frees a block: the banks it has return zeroed, its registers and queues go (R201, R206, R258); one that is switched out has none. -/
def State.freeBlock (s : State) (b : Nat) : State :=
  match s.block? b with
  | none => s
  | some v =>
    let s := s.modCore v.core fun c =>
      let c := c.releaseCvs b
      { c with
        banks := Tab.keep c.banks (fun _ o => o != b + 1), acc := if v.resident then v.banksA.foldl zeroBank c.acc else c.acc,
        zeroing := if v.resident then c.zeroing.filter (fun k => !v.banksA.contains k) else c.zeroing }
    let s := { s with blocks := Tab.del s.blocks b }
    s.ctxLeft v.ctx v.core

/-! ### Termination of a context (R412 step 2) -/

/-- The core part: the context's operations stop, no tag or stamp of theirs is written. -/
def Core.terminate (c : Core) (ctx : Nat) (gone : List Nat) : Core :=
  let c := gone.foldl Core.dropDemands c
  let ops := (c.mat.filter fun o => o.ctx == ctx).map MatOp.opid ++ (c.copying.filter fun o => o.ctx == ctx).map CopyCmd.opid
  let zeroed := c.mat.filterMap fun o => match o.kind with
    | .zero bank => if o.ctx = ctx then some bank else none
    | _ => none
  { c with
    queue := c.queue.filter fun d => match d with
      | .engine unit _ n => if unit = 2 then n != ctx else !ops.contains n
      | _ => true,
    acc := zeroed.foldl zeroBank c.acc, zeroing := c.zeroing.filter (fun k => !zeroed.contains k), q0 := c.q0.filter (fun o => o.ctx != ctx), copying := c.copying.filter (fun o => o.ctx != ctx),
    q1 := c.q1.filter (fun o => o.ctx != ctx), mat := c.mat.filter (fun o => o.ctx != ctx),
    windows := Tab.keep c.windows (fun _ w => w.ctx != ctx), tags := Tab.del c.tags ctx,
    hints := c.hints.filter (fun h => h.ctx != ctx), intents := Tab.del c.intents ctx,
    leanTo := match c.leanTo with | some w => if gone.contains w then none else some w | none => none,
    owner := if c.owner = some ctx then none else c.owner }

/-- The die part: open collectives and reductions stay until their TMO, and nothing more is written for them (R412, R426). -/
def Die.terminate (d : Die) (ctx : Nat) (gone : List Nat) : Die :=
  { d with
    park := Tab.mapv d.park (fun _ p => if gone.contains p.wid then { p with live := false } else p), tasks := Tab.mapv d.tasks (fun _ l => l.filter (fun t => t.ctx != ctx)),
    inbox := d.inbox.filter (fun e => e.ctx != ctx), opens := d.opens.filter (fun c => c.contrib.ctx != ctx), 
    insts := d.insts.map (fun i => if i.ctx = ctx then { i with acts := [], left := [], dead := true } else i),
    roots := d.roots.map (fun r => if r.ctx = ctx then { r with dead := true } else r), rings := d.rings.filter (fun r => r.1 != ctx) }

/-- R412 step 2, on every die of the device. A context that holds nothing is left as it is. -/
def State.terminate (s : State) (ctx : Nat) : State :=
  let gone := (s.warpsOfCtx ctx).map (·.1)
  let blks := (Tab.keep s.blocks (fun _ b => b.ctx == ctx)).map (·.1)
  let grids := (Tab.keep s.grids (fun _ g => g.ctx == ctx)).map (·.1)
  let s := { s with
                    cores := Tab.mapv s.cores (fun k c => if isService k then c else c.terminate ctx gone),
                    dies := Tab.mapv s.dies (fun _ d => d.terminate ctx gone),
                    warps := Tab.keep s.warps (fun k w => isService (coreOf k) || w.ctx != ctx) }
  let s := s.modMem fun m =>
    { m with marks := Tab.mapv m.marks (fun _ l => l.filter (fun k => k.ctx != ctx)) }
  let back := s.mem.leases.filter (fun l => l.dev.isNone && l.ctx == ctx)
  let s := back.foldl (fun s l => s.send (.data (l.line * 128 / span - 1) l.line (s.mem.list (l.line * 128) 128) (s.mem.version l.line))) s
  let s := s.modMem fun m => { m with leases := m.leases.filter (fun l => !(l.dev.isNone && l.ctx == ctx)) }
  let s := blks.foldl State.freeBlock s
  let s := (List.range 1024).foldl (fun s q =>
    if (Tab.look s.ap (offLqCfg q)).isSome && s.apBits (offLqCfg q) 11 0 = ctx then s.apField (offLqCfg q) 31 31 0 else s) s
  let s := s.apSet (offPitch ctx) 0
  let s := s.modDev fun v => { v with gone := insertNat v.gone ctx, macroImg := Tab.keep v.macroImg (fun k _ => k / 256 != ctx), devq := Tab.keep v.devq (fun k _ => k / 16 != ctx), trigs := v.trigs.filter (fun t => t.ctx != ctx) }
  grids.foldl (fun s g => s.gridEnd g 0x100) s

/-- Terminates a context and tells the host (R404, R420). -/
def State.kill (s : State) (ctx : Nat) : State := (s.terminate ctx).irq 0xF0

end Sys2Proof.Machine
end

