-- ==== Sys2Proof/Machine/Warp.lean ====
section
/-!
DEFINITION. Machine/Warp.lean: one warp's lanes, registers and region store buffer as plain functions of the warp (spec/01 R20 to
R22, R30; spec/04 R94; spec/06 R166; spec/08 R242 to R246; spec/10 R289 to R292; spec/14 R400, R444).
-/

namespace Sys2Proof.Machine

/-- A list over the 32 lanes whose entry l is `f l` for the lanes of a set and kept elsewhere. -/
def onLanes {α : Type} (d : α) (xs : List α) (en : Word) (f : Nat → α) : List α :=
  laneList.map (fun l => if laneIn en l then f l else xs.getD l d)

/-- The lanes of a set, ascending. -/
def lanesOf (m : Word) : List Nat := laneList.filter (laneIn m)

/-- The set of one lane. -/
def laneBit (l : Nat) : Word := BitVec.ofNat 32 (2 ^ l)

namespace Warp

/-! ### Program counters and regions -/

def pc (w : Warp) (l : Nat) : DWord := w.pcv.getD l 0
def revOf (w : Warp) (l : Nat) : DWord := w.rev.getD l 0
def seqOf (w : Warp) (l : Nat) : Word := w.rseq.getD l 0
def budgetOf (w : Warp) (l : Nat) : Nat := w.budget.getD l 0
def setPc (w : Warp) (en : Word) (f : Nat → DWord) : Warp := { w with pcv := onLanes 0 w.pcv en f }
def setRev (w : Warp) (en : Word) (f : Nat → DWord) : Warp := { w with rev := onLanes 0 w.rev en f }
def setBudget (w : Warp) (en : Word) (b : Nat) : Warp := { w with budget := onLanes 0 w.budget en (fun _ => b) }

/-- advance(l) for the lanes of a set (R94). -/
def advance (w : Warp) (en : Word) (len : Nat) : Warp := w.setPc en (fun l => w.pc l + BitVec.ofNat 64 len)

/-! ### Lanes that may issue (R242) -/

def blockedLanes (w : Warp) : Word := w.blocked.foldl (fun m b => m ||| b.lanes) 0
def delayedLanes (w : Warp) : Word := w.delayed.foldl (fun m d => m ||| d.1) 0

/-- Lanes that have not exited, are not blocked and not delayed. -/
def runnable (w : Warp) : Word := ~~~(w.exited ||| w.blockedLanes ||| w.delayedLanes)

/-- Selectable lanes: none while the warp is parked, suspended or stopped; deferred lanes are skipped while another lane is
runnable, and when every runnable lane is deferred the flags clear (R105, R242, R403, R422). -/
def selectable (w : Warp) : Word :=
  if w.parked.isSome || w.susp.isSome || w.stopped then 0
  else if w.runnable &&& ~~~w.deferred = 0 then w.runnable else w.runnable &&& ~~~w.deferred

/-- The least pcv over a nonempty lane set. -/
def leastPc (w : Warp) (m : Word) : DWord :=
  (lanesOf m).foldl (fun p l => if (w.pc l).toNat < p.toNat then w.pc l else p) (w.pc ((lanesOf m).headD 0))

/-- Lanes of a set at an address. -/
def lanesAt (w : Warp) (m : Word) (p : DWord) : Word := maskOf (fun l => laneIn m l && w.pc l == p)

/-- The lanes the issuing group is taken from: the turn's selectable lanes during a turn (R246), else every selectable one. -/
def candidates (w : Warp) : Word :=
  match w.turn with
  | some t => if w.selectable &&& t.lanes = 0 then w.selectable else w.selectable &&& t.lanes
  | none => w.selectable

/-- The warp has issued the instruction at which it stands, and comes back to it (R445). -/
def again (w : Warp) : Bool :=
  match w.stage with
  | some st => decide (2 ≤ st.kind)
  | none => false

/-- The step of R168 at which a warp's instruction stands. -/
def stageStep (w : Warp) : Nat :=
  match w.stage with
  | some st => st.step
  | none => 0

/-- The issuing group (R242, R246), empty when no lane is selectable. Lanes at an instruction that has issued come back to it together
(R445). -/
def group (w : Warp) : Word :=
  if w.again then w.selectable &&& (match w.stage with | some st => st.lanes | none => 0)
  else if w.candidates = 0 then 0 else w.lanesAt w.candidates (w.leastPc w.candidates)

/-- Held lanes: selectable lanes outside the issuing group (R242). -/
def held (w : Warp) : Word := w.selectable &&& ~~~w.group

/-! ### Registers (R20 to R22, R299) -/

def xr (w : Warp) (n l : Nat) : Word := Tab.get w.x 0 (32 * n + l)
def kr (w : Warp) (n : Nat) : DWord := Tab.get w.k 0 n
def mr (w : Warp) (n : Nat) : Word := Tab.get w.m 0 n

/-- X(n, l, w): one register, or the pair with the odd register high (R21, R94). -/
def xn (w : Warp) (wide : Bool) (n l : Nat) : DWord := if wide then w.xr (n + 1) l ++ w.xr n l else (w.xr n l).setWidth 64

/-- Writes a lane register in the lanes of a set: the register cache line becomes dirty, the words written are marked, and a
buffered value is dropped (R26, R299, R409). -/
def setX (w : Warp) (n : Nat) (en : Word) (f : Nat → Word) : Warp :=
  if en = 0 then w else
  { w with
    x := (lanesOf en).foldl (fun t l => Tab.put 0 t (32 * n + l) (f l)) w.x,
    wr := Tab.upd w.wr n (Tab.get w.wr 0 n ||| en), clean := w.clean.filter (· != n),
    opbuf := w.opbuf.filter (· != n) }

/-- Writes a register or an even-odd pair (R21, R94). -/
def setXn (w : Warp) (wide : Bool) (n : Nat) (en : Word) (f : Nat → DWord) : Warp :=
  if wide then (w.setX n en (fun l => (f l).setWidth 32)).setX (n + 1) en (fun l => ((f l) >>> 32).setWidth 32)
  else w.setX n en (fun l => (f l).setWidth 32)

def setK (w : Warp) (n : Nat) (v : DWord) : Warp := { w with k := Tab.put 0 w.k n v }
def setM (w : Warp) (n : Nat) (v : Word) : Warp := { w with m := Tab.put 0 w.m n v }

/-! ### The region store buffer (R166, R167) -/

/-- Scratchpad keys of the buffer stand apart from global ones. -/
def heldLine : Held → Nat × Nat
  | .byte sp key _ _ _ => (match sp with | .g => 0 | .s => 1, key / 128)
  | .ap key _ _ _ _ | .red key _ _ _ => (0, key / 128)

def heldLane : Held → Nat
  | .byte _ _ lane _ _ => lane
  | .ap _ lane _ _ _ | .red _ lane _ _ => lane

/-- A held byte as seen by a load: the recorded nibbles over the bytes of memory, whichever lane wrote them (R166). -/
def forward (w : Warp) (sp : Spc) (key : Nat) (old : Byte) : Byte :=
  w.rsb.foldl (fun v h => match h with
    | .byte p k _ val nib => if p = sp ∧ k = key then nibMerge v val nib else v
    | .ap k _ n val nibs =>
      if sp = .g ∧ k ≤ key ∧ key < k + n then nibMerge v (BitVec.ofNat 8 (val / 256 ^ (key - k))) (nibs / 4 ^ (key - k) % 4) else v
    | .red .. => v) old

/-- Nibbles of one byte that a new store of another lane takes over (R166). The record stays
with no nibble left, so that the lane's region still counts the line it stored to (R167, R172). -/
def supersede (sp : Spc) (key lane nib : Nat) (h : Held) : Held :=
  match h with
  | .byte p k l v n =>
    if p = sp ∧ k = key ∧ l ≠ lane then
      .byte p k l v ((if n % 2 = 1 ∧ nib % 2 = 0 then 1 else 0) + (if n / 2 % 2 = 1 ∧ nib / 2 % 2 = 0 then 2 else 0))
    else h
  | .ap .. | .red .. => h

/-- Whether an operation is still recorded in its entry. -/
def recorded : Held → Bool
  | .byte _ _ _ _ nib => nib != 0
  | .ap .. | .red .. => true

/-- Records a byte stored by a lane. -/
def holdByte (w : Warp) (sp : Spc) (key lane : Nat) (val : Byte) (nib : Nat) : Warp :=
  { w with rsb := w.rsb.map (supersede sp key lane nib) ++ [.byte sp key lane val nib] }

/-- Records a store of a lane to an aperture register, apart from every other (R428). -/
def holdAp (w : Warp) (key lane n val nibs : Nat) : Warp := { w with rsb := w.rsb ++ [.ap key lane n val nibs] }

def holdRed (w : Warp) (key lane : Nat) (op : AtmOp) (arg : DWord) : Warp := { w with rsb := w.rsb ++ [.red key lane op arg] }

/-- The distinct lines a list of held operations touches. -/
def linesHeld (hs : List Held) : List (Nat × Nat) :=
  hs.foldl (fun acc h => if acc.contains (heldLine h) then acc else acc ++ [heldLine h]) []

/-- Whether R167 is broken for the lanes of a set: a lane over its region's budget, or a 33rd entry. -/
def overflows (w : Warp) (en : Word) : Bool :=
  32 < (linesHeld (w.rsb.filter recorded)).length
    || (lanesOf en).any (fun l => w.budgetOf l < (linesHeld (w.rsb.filter (fun h => heldLane h == l))).length)

/-- Discard() of lanes: their held operations go and pcv := rev; registers stay (R166, R291). -/
def discard (w : Warp) (lanes : Word) : Warp :=
  { (w.setPc lanes w.revOf) with rsb := w.rsb.filter (fun h => !laneIn lanes (heldLane h)) }

/-! ### Suspension and resumption (R400, R403, R444) -/

/-- A lane's block ends where a handler sends it elsewhere; sent to the instruction it blocks at it stays in its wait (R444). -/
def unblockAt (w : Warp) (lanes : Word) (target : Nat → DWord) : Warp :=
  { w with
    blocked := w.blocked.filterMap fun b =>
      let keep := maskOf (fun l => laneIn b.lanes l && (!laneIn lanes l || target l == b.here))
      if keep = 0 then none else some { b with lanes := keep } }

/-- The named lanes continue at their targets, which begin their regions; the warp runs again (R108, R403, R444). -/
def resumeAt (w : Warp) (lanes : Word) (target : Nat → DWord) : Warp :=
  let live := lanes &&& ~~~w.exited
  let w := w.unblockAt live target
  { (w.setPc live target).setRev live target with susp := none }

/-- A warp at its block's first instruction (R237): pcv and rev at ENTRY, registers zero. -/
def start (ctx blk widx : Nat) (level : Level) (regs : Nat) (entry : DWord) : Warp :=
  { ctx := ctx, blk := blk, widx := widx, level := level, regs := regs, regs0 := regs, lean := none, x := [], k := [], m := [],
    pcv := List.replicate 32 entry, rev := List.replicate 32 entry, rseq := List.replicate 32 0, budget := List.replicate 32 32,
    exited := 0, deferred := 0, delayed := [], blocked := [], parked := none, susp := none, rlimit := 8, rcount := 0, tcmp := 0,
    timer := false, frec := 0, tclass := 0, rsb := [], opbuf := [], fc := 0, turn := none, turnBits := 0, lastLanes := 0, lwc := 0,
    ewc := 0, lastIssue := none, ready := 0, stage := none, faults := [], inv := [], observed := false, stopped := false, loads := [], inbox := none,
    wr := [], clean := [] }

end Warp

/-! ### A warp's launch record -/

/-- The record of a warp's block; a service core has none. -/
def State.recOf (s : State) (w : Warp) : List Byte :=
  match s.block? w.blk with
  | some b => b.record
  | none => []

/-- Address of an offset in die d's part of a context's save area (R300). -/
def State.saveVa (s : State) (ctx d off : Nat) : DWord := BitVec.ofNat 64 (s.ap! (offMmuSave ctx) + d * 0x17000000 + off)

/-- A line of the save area that is poisoned (R283). -/
def State.poisonedSave (s : State) (core ctx off : Nat) : Option Trap :=
  let va := s.saveVa ctx (dieOfCore core) off
  match s.place core ctx true .read va with
  | .error t => if t.cls = .poison then some t else none
  | .ok _ => none

/-- The core's save or restore meets a poisoned line: a warp of the context there has the trap pending, as for an engine's fault, and the
access is not made (R195, R283; log entry 123). -/
def State.saveFault (s : State) (core ctx : Nat) (t : Trap) : State :=
  match (s.warpsOfCore core).find? fun e => e.2.ctx == ctx with
  | none => s
  | some e => s.modWarp e.1 fun w => if w.faults.contains t then w else { w with faults := w.faults ++ [t] }

/-- One line of the save area written at its home, where it can be (R301, R368). -/
def State.saveLine (s : State) (core ctx off : Nat) (bytes : List Byte) : State :=
  match s.poisonedSave core ctx off with
  | some t => s.saveFault core ctx t
  | none =>
  match s.xlate core ctx true .write (s.saveVa ctx (dieOfCore core) off) with
  | .error _ => s
  | .ok key => (s.homeAt core ctx (s.saveVa ctx (dieOfCore core) off) key).writeHome (some ctx) none ((List.range bytes.length).map (key + ·) |>.zip bytes)

/-- Bytes of a line of the save area, where it can be read. -/
def State.savedLine (s : State) (core ctx off : Nat) : Option (List Byte) :=
  match s.place core ctx true .read (s.saveVa ctx (dieOfCore core) off) with
  | .error _ => none
  | .ok key => some (s.mem.list key 128)

/-- A free line of the save area: control state has a format of its own (R300, log entry 53). -/
def freeBytes (n kind : Nat) : List Byte := (List.range 16).flatMap fun i => leBytes 8 (Config.freeWord n (kind * 16 + i)).toNat

/-- Bytes of a line that comes back from the save area; free where it cannot be read (log entry 123). -/
def State.restored (s : State) (core ctx off : Nat) : List Byte :=
  (s.savedLine core ctx off).getD (freeBytes s.own.freeCount (off / 128))

/-- Table lines that the walks over a die's part of a context's save area need and that are away (R282, R307). -/
def State.saveWalks (s : State) (core ctx : Nat) : List Nat :=
  if s.mem.leases.isEmpty then [] else
  distinct ((List.range 0x1700).filterMap fun i => match s.xlate core ctx true .data (s.saveVa ctx (dieOfCore core) (65536 * i)) with
    | .error t => t.wait
    | .ok _ => none)

/-- The home lines of the save area at some offsets, with the table lines that must come back first (R282). -/
def State.saveLines (s : State) (core ctx : Nat) (offs : List Nat) : List Nat :=
  if s.mem.leases.isEmpty then [] else
  s.saveWalks core ctx ++ offs.filterMap fun off => match s.xlate core ctx true .data (s.saveVa ctx (dieOfCore core) off) with
    | .error _ => none
    | .ok key => some (lineOf key)

/-- Lines of the save area are read at their homes (R368). -/
def State.readSaved (s : State) (core ctx : Nat) (offs : List Nat) : State :=
  offs.foldl (fun s off => match s.place core ctx true .read (s.saveVa ctx (dieOfCore core) off) with
    | .error _ => s
    | .ok key => s.homeAt core ctx (s.saveVa ctx (dieOfCore core) off) key) s

/-- Offset of register n of a warp's image. -/
def imageOff (wid n : Nat) : Nat := 0x10000 * (64 * coreInDie (coreOf wid) + slotOfWid wid) + 128 * n

/-- Register lines newer than the image go to it (R299, R300, R422). -/
def State.flushRegs (s : State) (wid : Nat) : State :=
  match s.warp? wid with
  | none => s
  | some w =>
    let lines := (List.range w.regs).filter fun n => !w.clean.contains n
    let s := lines.foldl (fun s n =>
      s.saveLine (coreOf wid) w.ctx (imageOff wid n) (laneList.flatMap fun l => leBytes 4 (w.xr n l).toNat)) s
    s.modWarp wid fun w => { w with clean := List.range w.regs }

/-- A register line from the image; kept as it is where the image cannot be read. -/
def State.refillReg (s : State) (wid : Nat) (w : Warp) (n : Nat) : Warp :=
  match s.savedLine (coreOf wid) w.ctx (imageOff wid n) with
  | none => w
  | some bs => { w with x := laneList.foldl (fun t l => Tab.put 0 t (32 * n + l) (BitVec.ofNat 32 (leAt bs (4 * l) 4))) w.x }

/-! ### The register cache (R261, R299, R301) -/

/-- Lines that the register-cache banks of a warp's block hold. -/
def State.regCap (s : State) (w : Warp) : Nat := 512 * Rec.rcb (s.recOf w)

/-- The lines of a block's warps: warp, register, last use. A warp that has come back has none until it uses them. -/
def State.regLines (s : State) (blk : Nat) : List (Nat × Nat × Nat) :=
  (s.warpsOfBlock blk).flatMap fun e => (List.range e.2.regs).filterMap fun n => match Tab.look e.2.uses n with
    | some u => some (e.1, n, u)
    | none => if e.2.cold then none else some (e.1, n, 0)

/-- Whether the cache holds a register of a warp: as many lines as it has room for, the most recently used. -/
def State.lineHeld (s : State) (wid : Nat) (w : Warp) (n : Nat) : Bool :=
  if w.cold && (Tab.look w.uses n).isNone then false
  else if (s.warpsOfBlock w.blk).foldl (fun k e => k + e.2.regs) 0 ≤ s.regCap w then true
  else
    let mine := Tab.get w.uses 0 n
    decide (((s.regLines w.blk).filter fun x =>
      decide (mine < x.2.2) || (x.2.2 == mine && (decide (x.1 < wid) || (x.1 == wid && decide (x.2.1 < n))))).length < s.regCap w)

/-- The registers that an instruction names and the cache does not hold. -/
def State.missed (s : State) (wid : Nat) (w : Warp) (ns : List Nat) : List Nat :=
  if isService (coreOf wid) then [] else (distinct ns).filter fun n => decide (n < w.regs) && !s.lineHeld wid w n

/-- Registers of a warp are used. -/
def Warp.stamp (w : Warp) (ns : List Nat) (now : Nat) : Warp := { w with uses := ns.foldl (fun t n => Tab.upd t n (now + 1)) w.uses }

/-- The lines that have left the cache since another state go to the image where they are newer. -/
def State.evictRegs (s before : State) (blk : Nat) : State :=
  ((before.regLines blk).filter fun x => match before.warp? x.1, s.warp? x.1 with
    | some v, some w => before.lineHeld x.1 v x.2.1 && !s.lineHeld x.1 w x.2.1 && !w.clean.contains x.2.1
    | _, _ => false).foldl (fun s x => match s.warp? x.1 with
      | none => s
      | some w =>
        (s.saveLine (coreOf x.1) w.ctx (imageOff x.1 x.2.1) (laneList.flatMap fun l => leBytes 4 (w.xr x.2.1 l).toNat)).modWarp x.1 fun w =>
          { w with clean := insertNat w.clean x.2.1 }) s

/-- A line that a peer device holds and that a change would write at its home (R173, R282). -/
def State.wouldWrite (s after : State) : Option Nat :=
  (s.mem.leases.find? fun l => l.dev.isSome && after.mem.version l.line != s.mem.version l.line).map (·.line)

/-- Missed lines come from the image at their homes, and others make room. A poisoned line stops the instruction (R283), and a line that
a peer device holds comes back first (R173, R282). -/
def State.loadRegs (s : State) (wid now : Nat) (w : Warp) (ns miss : List Nat) : Except Trap State :=
  if miss.isEmpty then .ok s else
  let core := coreOf wid
  let offs := miss.map (imageOff wid)
  match (s.saveLines core w.ctx offs).find? s.leasedOut, offs.findSome? (s.poisonedSave core w.ctx) with
  | some line, _ => .error { cls := .poison, wait := some line }
  | none, some t => .error t
  | none, none =>
    let s1 := (s.readSaved core w.ctx offs).modWarp wid fun w =>
      ((miss.filter w.clean.contains).foldl (fun w n => s.refillReg wid w n) w).stamp ns now
    let s2 := s1.evictRegs s w.blk
    match s.wouldWrite s2 with
    | some line => .error { cls := .poison, wait := some line }
    | none => .ok s2

end Sys2Proof.Machine
end

