-- ==== Sys2Proof/Machine/Aperture.lean ====
section
/-!
DEFINITION. Machine/Aperture.lean: the registers of the management aperture, their access codes and the effects of writing them
(spec/00 R9 to R11; spec/15 R428 to R443 and the register tables of every part).
-/

namespace Sys2Proof.Machine

/-- Registers whose write or read is more than their storage. -/
inductive RegKind where
  | plain | bootStat | devId | measCmd | door (n : Nat) | invCtl | root | lqBase (q : Nat) | lqCfg (q : Nat) | lqTail (q : Nat) | lqProg (q : Nat)
  | rivLim (ctx d : Nat) | dbgCtl | dbgRegw | fltKill | pgret (i : Nat) | govCal | govSlew | govJob | dieBkt (d : Nat) | tokCap
  | timeout | phsCtx (d : Nat) | phsCore | phsTab (d p : Nat) | colCfg | memCtl (d : Nat) | fptCtl (fab : Bool) (port : Nat)
  deriving DecidableEq, Repr

/-- A register: its kind, its offset and bytes, and the masks of its RW and W1C bits. -/
structure Reg where
  kind : RegKind
  base : Nat
  bytes : Nat
  rw : Nat
  w1c : Nat
  deriving DecidableEq, Repr

/-- The mask of bits hi..lo. -/
def fmask (hi lo : Nat) : Nat := (2 ^ (hi + 1 - lo) - 1) * 2 ^ lo

/-- A register of an array that covers an offset. -/
def inArray (off base step n bytes : Nat) : Option Nat :=
  if base ≤ off ∧ (off - base) / step < n ∧ (off - base) % step < bytes then some ((off - base) / step) else none

def mkReg (kind : RegKind) (base bytes rw : Nat) (w1c : Nat := 0) : Reg := { kind := kind, base := base, bytes := bytes, rw := rw, w1c := w1c }

/-- A row of the register map: base, step, count, bytes and the register of an index. -/
def row (off base step n bytes : Nat) (f : Nat → Reg) : Option Reg := (inArray off base step n bytes).map f

/-- FPT registers of a fabric port or FCL link (R435). -/
def offPort (fab : Bool) (p : Nat) : Nat := (if fab then bFab else bFcl) + 0x40 * p
def fptRows (off : Nat) (fab : Bool) : Option Reg :=
  let b := if fab then bFab else bFcl
  let n := if fab then 36 else 4
  row off b 0x40 n 4 (fun p => mkReg (.fptCtl fab p) (b + 0x40 * p) 4 (fmask 9 0))
    <|> row off (b + 8) 0x40 n 4 (fun p => mkReg .plain (b + 0x40 * p + 8) 4 0 (2 ^ 31 + 2 ^ 29))
    <|> row off (b + 0x10) 0x40 n 4 (fun p => mkReg .plain (b + 0x40 * p + 0x10) 4 0)

/-- BOOT (R429 to R440). -/
def bootRows (off : Nat) : Option Reg :=
  row off 0 8 1 4 (fun _ => mkReg .bootStat 0 4 0)
    <|> row off offDevId 8 1 4 (fun _ => mkReg .devId offDevId 4 (fmask 9 0))
    <|> row off 0x100 8 128 8 (fun i => mkReg .plain (0x100 + 8 * i) 8 0)
    <|> row off offExtend 8 6 8 (fun i => mkReg .plain (offExtend + 8 * i) 8 (fmask 63 0))
    <|> row off offMeasCmd 8 1 4 (fun _ => mkReg .measCmd offMeasCmd 4 (fmask 3 0) (2 ^ 29))
    <|> row off (offDoor 0) 8 5 4 (fun n => mkReg (.door n) (offDoor n) 4 0 0xF)
    <|> row off (offSvcErr 0) 8 5 8 (fun n => mkReg .plain (offSvcErr n) 8 0)

/-- MMU, LQ and RIV (R308 to R316, R325, R326). -/
def hostRows (off : Nat) : Option Reg :=
  row off offInvVa 8 1 8 (fun _ => mkReg .plain offInvVa 8 (fmask 63 16))
    <|> row off offInvCtl 8 1 4 (fun _ => mkReg .invCtl offInvCtl 4 (fmask 17 15 + fmask 11 0))
    <|> row off (offMmuRoot 0) 16 4096 8 (fun c => mkReg .root (offMmuRoot c) 8 (fmask 63 16 + 1))
    <|> row off (offMmuSave 0) 16 4096 8 (fun c => mkReg .plain (offMmuSave c) 8 (fmask 63 16))
    <|> row off (offLqBase 0) 32 1024 8 (fun q => mkReg (.lqBase q) (offLqBase q) 8 (fmask 63 62 + fmask 47 6))
    <|> row off (offLqCfg 0) 32 1024 4 (fun q => mkReg (.lqCfg q) (offLqCfg q) 4 (2 ^ 31 + fmask 27 24 + fmask 19 18 + fmask 15 0))
    <|> row off (offLqTail 0) 32 1024 4 (fun q => mkReg (.lqTail q) (offLqTail q) 4 (fmask 31 0))
    <|> row off (offLqProg 0) 32 1024 8 (fun q => mkReg (.lqProg q) (offLqProg q) 8 0 (2 ^ 35 + 2 ^ 34))
    <|> row off (offPitch 0) 16 4096 8 (fun c => mkReg .plain (offPitch c) 8 (fmask 63 5))
    <|> row off (bRiv + 0x10000) 4 16384 4 (fun i => mkReg (.rivLim (i / 4) (i % 4)) (bRiv + 0x10000 + 4 * i) 4 (fmask 10 0))

/-- FLT (R402, R413 to R425). -/
def fltRows (off : Nat) : Option Reg :=
  row off offFltStat 8 1 4 (fun _ => mkReg .plain offFltStat 4 0 (2 ^ 9 + 2 ^ 8))
    <|> row off offInjMask 8 1 4 (fun _ => mkReg .plain offInjMask 4 (fmask 13 0))
    <|> row off offDbgCtl 8 1 8 (fun _ => mkReg .dbgCtl offDbgCtl 8 (fmask 63 62 + fmask 11 0))
    <|> row off offDbgRegw 8 1 8 (fun _ => mkReg .dbgRegw offDbgRegw 8 (fmask 61 34 + fmask 31 0))
    <|> row off offFltKill 8 1 4 (fun _ => mkReg .fltKill offFltKill 4 (fmask 11 0))
    <|> row off (offUeLog 0) 8 64 8 (fun i => mkReg .plain (offUeLog i) 8 (fmask 63 0))
    <|> row off (offPgret 0) 8 256 8 (fun i => mkReg (.pgret i) (offPgret i) 8 0)
    <|> row off (offL2q 0) 4 256 4 (fun i => mkReg .plain (offL2q i) 4 0)
    <|> row off (offFltHnd 0) 8 4096 8 (fun c => mkReg .plain (offFltHnd c) 8 (fmask 63 2 + 1))

/-- GOV (R372 to R395). -/
def govRows (off : Nat) : Option Reg :=
  row off offGovCap 8 1 4 (fun _ => mkReg .plain offGovCap 4 (fmask 15 0))
    <|> row off (bGov + 8) 8 1 4 (fun _ => mkReg .govSlew (bGov + 8) 4 (fmask 15 0))
    <|> row off (bGov + 0x10) 8 1 8 (fun _ => mkReg .plain (bGov + 0x10) 8 0 (2 ^ 34))
    <|> row off offGovCal 8 1 8 (fun _ => mkReg .govCal offGovCal 8 (fmask 63 32 + fmask 23 16 + 1))
    <|> row off offGovJob 8 1 8 (fun _ => mkReg .govJob offGovJob 8 (2 ^ 63 + fmask 61 52 + fmask 41 32 + fmask 15 0))
    <|> row off offBalCtl 8 1 4 (fun _ => mkReg .plain offBalCtl 4 (fmask 2 0))
    <|> row off (offGovFloor 0) 8 8 4 (fun p => mkReg .plain (offGovFloor p) 4 (fmask 15 0))
    <|> row off (offGovPmap 0) 4 4096 4 (fun c => mkReg .plain (offGovPmap c) 4 (fmask 2 0))
    <|> row off (offDieGov 0) 0x10000 4 8 (fun d => mkReg (.dieBkt d) (offDieGov d) 8 (fmask 15 0))
    <|> (List.range 4).findSome? (fun d =>
      row off (offDieGov d + 0x40) 8 6 8 (fun p => mkReg .plain (offDieGov d + 0x40 + 8 * p) 8 0 (2 ^ 15 + 2 ^ 14))
        <|> row off (offDieGov d + 0x100) 16 48 4 (fun c => mkReg .tokCap (offDieGov d + 0x100 + 16 * c) 4 (fmask 11 0))
        <|> row off (offDieGov d + 0x104) 16 48 4 (fun c => mkReg .plain (offDieGov d + 0x104 + 16 * c) 4 (fmask 15 0)))

/-- SCH, COL and MEM of the four dies (R252 to R256, R365, R424, R439). -/
def dieRows (off : Nat) : Option Reg :=
  row off (offWdLocal 0) 0x10000 4 4 (fun d => mkReg .timeout (offWdLocal d) 4 (2 ^ 8 + fmask 5 0))
    <|> row off (offExtw 0) 0x10000 4 4 (fun d => mkReg .timeout (offExtw d) 4 (2 ^ 8 + fmask 5 0))
    <|> row off (offPhsCtx 0) 0x10000 4 4 (fun d => mkReg (.phsCtx d) (offPhsCtx d) 4 (2 ^ 31 + fmask 11 0))
    <|> row off (offPhsCore 0) 0x10000 4 4 (fun d => mkReg .phsCore (offPhsCore d) 4 (fmask 5 0))
    <|> (List.range 4).findSome? (fun d =>
      row off (offPhsTab d 0) 8 512 8 (fun p => mkReg (.phsTab d p) (offPhsTab d p) 8 (fmask 63 0)))
    <|> row off (offColCfg 0) 0x10000 4 4 (fun d => mkReg .colCfg (offColCfg d) 4 (2 ^ 31 + fmask 23 0))
    <|> row off (offMemCtl 0) 0x10000 4 4 (fun d => mkReg (.memCtl d) (offMemCtl d) 4 (fmask 3 0))
    <|> row off (offMemStat 0) 0x10000 4 4 (fun d => mkReg .plain (offMemStat d) 4 0 (2 ^ 31 + 2 ^ 30))

/-- The register that covers an aperture offset, by block (R443). -/
def regAt (off : Nat) : Option Reg :=
  if off < bMmu then bootRows off
  else if off < bFlt then hostRows off
  else if off < bGov then fltRows off
  else if off < bSch 0 then govRows off
  else if off < bFcl then dieRows off
  else if off < bFab then fptRows off false
  else if off < bFab + 0x10000 then fptRows off true
  else none

/-! ### Reading -/

/-- A signed 8.8 level's integer part as 32 bits (R369, R376). -/
def levelWord (v : Int) : Word := BitVec.ofInt 32 (v / 256)

/-- What a register reads as: its storage, or the device's own count where the register shows one. -/
def State.regVal (s : State) (r : Reg) : Nat :=
  match r.kind with
  | .rivLim ctx d => setBits (s.ap! r.base) 27 16 ((s.die d).inbox.filter (fun e => e.ctx == ctx)).length
  | .phsTab d p => (Tab.get (s.die d).phases 0 (512 * s.apBits (offPhsCore d) 5 0 + p)).toNat
  | .dieBkt d => bitsOf (s.ap! r.base) 15 0 + (levelWord (s.die d).level).toNat * 2 ^ 16 + (s.die d).share / 256 % 2 ^ 16 * 2 ^ 48
  | .lqProg q => setBits (s.ap! r.base) 33 33 (if s.dev.resident.contains q then 1 else 0)
  | _ => s.ap! r.base

/-- One byte at an aperture offset; outside the registers it reads as zero (R443). -/
def State.apByte (s : State) (off : Nat) : Byte :=
  match regAt off with
  | none => 0
  | some r => BitVec.ofNat 8 (s.regVal r / 256 ^ (off - r.base))

/-! ### Effects of single registers -/

/-- R310: the pages of an invalidation. -/
def invalOf (va ctl : Nat) : Inval :=
  let size := if bitsOf ctl 17 16 = 0 then 1 else if bitsOf ctl 17 16 = 1 then 32 else if bitsOf ctl 17 16 = 2 then 8192 else 131072
  let lo := va / 65536 / size * size
  if bitsOf ctl 15 15 = 1 then { ctx := ctl % 4096, lo := 0, hi := 2 ^ 48 } else { ctx := ctl % 4096, lo := lo, hi := lo + size }

/-- Drops the translations of a range from every TLB of the device (R310). -/
def State.dropTlb (s : State) (i : Inval) : State :=
  let drop := fun (t : Tab DWord) => Tab.keep t fun k _ => !tlbCovers i.ctx i.lo i.hi k
  { s with
    cores := Tab.mapv s.cores fun _ c => { c with tlb := drop c.tlb }, mem := { s.mem with ytlb := Tab.mapv s.mem.ytlb fun _ t => drop t } }

/-- MMU_INV_CTL written with GO = 1 while idle (R310). -/
def State.startInval (s : State) : State :=
  let i := invalOf (s.ap! offInvVa) (s.ap! offInvCtl)
  (s.apField offInvCtl 30 30 1).modDev fun v => { v with inval := some i }

/-- MMU_INV_CTL: a GO while BUSY is ignored (R310). -/
def State.writeInvCtl (s : State) (cover new : Nat) (go : Bool) : State :=
  if go && s.apBits offInvCtl 30 30 = 1 then s
  else
    let s := s.apSet offInvCtl (if cover = 0 then s.ap! offInvCtl else new)
    if go then s.startInval else s

/-- R410, R413: every line of a retired page becomes zero and unpoisoned, each version + 1; V := 0. -/
def State.pgretRelease (s : State) (i : Nat) : State :=
  if s.apBits (offPgret i) 63 63 = 0 then s else
  let page := s.apBits (offPgret i) 47 16
  let lines := (List.range 512).map (page * 512 + ·)
  let s := lines.foldl (fun s l => s.writeHome none none ((List.range 128).map (fun j => (l * 128 + j, (0 : Byte))))) s
  let s := s.modMem fun m => { m with poison := m.poison.filter (fun l => !lines.contains l), retired := m.retired.filter (· != page) }
  s.apField (offPgret i) 63 63 0

/-- FLT_KILL with GO = 1 while idle (R425). -/
def State.fltKill (s : State) (ctx : Nat) : State :=
  let s := s.apField offFltKill 30 30 1
  let s := s.kill ctx
  s.modDev fun v => { v with killed := v.killed ++ [ctx] }

/-- FLT_KILL.BUSY clears (R425). -/
def State.killDone (s : State) : State := (s.apField offFltKill 30 30 0).modDev fun v => { v with killed := [] }

/-- DBG_CTL.STOP := 1: every warp of CTX stops at its next instruction boundary; queued demands are removed and dirty register
lines written to the image (R422). -/
def State.debugStop (s : State) : State :=
  let ctx := s.apBits offDbgCtl 11 0
  let s := s.apField offDbgCtl 62 61 2
  ((s.warpsOfCtx ctx).map (·.1)).foldl (fun s wid =>
    ((s.modWarp wid fun w => { w with stopped := true }).modCore (coreOf wid) (fun c => c.dropDemands wid)).flushRegs wid) s

/-- DBG_CTL.STOP := 0: every stopped warp restarts, and one stopped by `brk` resumes at its RPC (R422). -/
def State.debugRestart (s : State) : State :=
  let s := s.apField offDbgCtl 62 61 0
  { s with warps := Tab.mapv s.warps fun _ w =>
      let w := { w with stopped := false }
      match w.susp with
      | some p => if p.debugger then w.resumeAt p.lanes (fun _ => p.rpc) else w
      | none => w }

/-- Whether every warp of the debugged context has stopped (R422). -/
def State.allStopped (s : State) (ctx : Nat) : Bool := (s.warpsOfCtx ctx).all (fun e => e.2.stopped)

/-- STOPPED := 1 and vector 0xF3 once every warp of CTX has stopped (R422). -/
def State.debugStopComplete (s : State) : State :=
  if s.apBits offDbgCtl 62 62 = 1 && s.apBits offDbgCtl 61 61 = 0 && s.allStopped (s.apBits offDbgCtl 11 0) then
    (s.apField offDbgCtl 61 61 1).irq 0xF3
  else s

/-- The write of DBG_REGW takes effect on a stopped warp of the attached context once no load to the word is outstanding; on any
other warp or register it clears BUSY with no effect (R423). -/
def State.debugWrite (s : State) : State :=
  let v := s.ap! offDbgRegw
  let wid := 64 * (48 * bitsOf v 61 60 + bitsOf v 59 54) + bitsOf v 53 48
  let reg := bitsOf v 47 39
  let lane := bitsOf v 38 34
  match s.warp? wid with
  | none => s.apField offDbgRegw 62 62 0
  | some w =>
    let halted := w.stopped || (match w.susp with | some p => p.debugger | none => false)
    if !(halted && s.apBits offDbgCtl 63 63 = 1 && w.ctx = s.apBits offDbgCtl 11 0 && reg < w.regs && bitsOf v 59 54 < 48) then
      s.apField offDbgRegw 62 62 0
    else if laneIn (Tab.get w.loads 0 reg) lane then s
    else
      let s := s.modWarp wid fun w => w.setX reg (laneBit lane) (fun _ => BitVec.ofNat 32 v)
      (s.flushRegs wid).apField offDbgRegw 62 62 0

/-- MEAS_CMD with GO = 1: an extend begins, or is refused (R432). -/
def State.measExtend (s : State) (who : Writer) (idx : Nat) : State :=
  if s.apBits offMeasCmd 30 30 = 1 then s
  else if idx < 8 && (s.apBits offBootStat 30 30 = 1 || who == .host) then s.apField offMeasCmd 29 29 1
  else
    let digest := (List.range 48).map (fun j => s.apByte (offExtend + j))
    (s.apField offMeasCmd 30 30 1).modDev fun v => { v with extend := some { idx := idx, digest := digest } }

/-- MEASi := SHA-384(MEASi ‖ digest); index 7 is res0 and reads as zero (R431). -/
def State.extendMeas (s : State) (i : Nat) (digest : List Byte) : State :=
  if i = 7 then s else
  let old := (List.range 48).map (fun j => s.apByte (offMeas i + j))
  let new := Sha.sha384 (old ++ digest)
  (List.range 6).foldl (fun s j => s.apSet (offMeas i + 8 * j) (leNat ((new.drop (8 * j)).take 8))) s

/-- The extend finishes (R432). -/
def State.measDone (s : State) : State :=
  match s.dev.extend with
  | none => s
  | some e => ((s.extendMeas e.idx e.digest).apField offMeasCmd 30 30 0).modDev fun v => { v with extend := none }

/-- MEM_CTL with GO = 1: the step runs, or is refused with FAIL and DONE (R439); a STEP that is no step is refused (log entry 125). -/
def State.memTrain (s : State) (d : Nat) : State :=
  let step := s.apBits (offMemCtl d) 3 0
  let last := s.apBits (offMemStat d) 19 16
  if s.apBits (offMemStat d) 29 29 = 1 || last + 1 < step || (last = 6 && step ≤ last) || step = 0 || 6 < step then
    ((s.apField (offMemStat d) 31 31 1).apField (offMemStat d) 30 30 1).ring d 2
  else (s.apField (offMemStat d) 29 29 1).modDie d fun v => { v with step := step }

/-- State of a port or link: FPT_STAT.STATE (R435). -/
def State.portState (s : State) (fab : Bool) (p : Nat) : Nat := s.apBits (offPort fab p + 8) 27 24

/-- Whether some fabric port is up. -/
def State.routed (s : State) : Bool := (List.range 36).any fun p => s.portState true p = 5

/-- Ports of a die: p with floor(p/9) the die (R430). -/
def portsOfDie (d : Nat) : List Nat := (List.range 9).map (9 * d + ·)

/-- Full service follows reduced service once the die's ports have ended training and RUN is set; reduced service follows once an
FCL link is up and the die's DRAM has trained (R430 step 7, R440, R442; log entry 22). -/
def State.serve (s : State) : State :=
  dieList.foldl (fun s d =>
    let s := if s.service d = 0 && s.apBits offBootStat 29 29 = 1 && s.trained d then s.setService d 1 else s
    if s.service d = 1 && s.apBits offBootStat 31 31 = 1 && (portsOfDie d).all (fun p => s.portState true p = 5 || s.portState true p = 15)
    then s.setService d 2 else s) s

/-- BOOT_STAT.RUN := 1 (R440, R442). -/
def State.bootRun (s : State) : State := (s.apField offBootStat 31 31 1).serve

/-- The service core that trains a port or link (R430). -/
def svcOfPort (fab : Bool) (p : Nat) : Nat := if fab then p / 9 else 4

/-- Ends a training in state 15 (R436). -/
def State.portFailed (s : State) (fab : Bool) (p err : Nat) : State :=
  let o := offPort fab p + 8
  let s := s.apSet o (setBits (setBits (setBits (setBits (setBits (s.ap! o) 31 31 1) 30 30 0) 29 29 1) 27 24 15) 7 0 err)
  (s.ring (svcOfPort fab p) 2).serve

/-- BOOT_STAT.FCL shows whether a link is up (R438, R440). -/
def State.fclStat (s : State) : State :=
  s.apField offBootStat 29 29 (if (List.range 4).any (fun n => s.portState false n = 5) then 1 else 0)

/-- Poison of lines leased to a failed device (R282) and code 5 for the invocations that wait on it (R334, R337). -/
def State.deviceLost (s : State) (dev : Nat) : State :=
  let lost := s.mem.leases.filter (fun l => l.dev = some dev)
  let s := s.modMem fun m =>
    { m with
      poison := lost.foldl (fun ps l => insertNat ps l.line) m.poison, leases := m.leases.filter (fun l => l.dev ≠ some dev) }
  { s with warps := Tab.mapv s.warps fun _ w =>
      { w with blocked := w.blocked.map fun b =>
          match b.what with
          | .rinv d t tgt n none q => if tgt % 1024 = dev then { b with what := .rinv d t tgt n (some 5) q } else b
          | _ => b } }

/-- A port or link that was UP is declared failed to its senders: vector 0xF4 (R337, R420, R436). A peer that no port reaches any more, and
with the last link the companion processor, is lost: its leases, and next what waits for it (R282, R337, R339). -/
def State.portDown (s : State) (fab : Bool) (p : Nat) : State :=
  let peer := s.apBits (offPort fab p + 0x10) 9 0
  let s := s.apField (offPort fab p + 8) 30 30 0
  let s := s.apField (offPort fab p + 8) 27 24 15
  let s := (if fab then s else s.fclStat).irq 0xF4
  if !fab && !s.hostUp then (s.deviceLost 640).soon [.lost 640] else
  if fab && !(List.range 36).any (fun q => s.portState true q = 5 && s.apBits (offPort true q + 0x10) 9 0 = peer) then (s.deviceLost peer).soon [.lost peer]
  else s

/-- FPT_CTL with GO = 1 (R434, R436). -/
def State.trainStart (s : State) (fab : Bool) (p : Nat) : State :=
  let st := s.portState fab p
  if 1 ≤ st && st ≤ 4 then s else
  let s := if st = 5 then s.portDown fab p else s
  if fab && s.devId = 1023 then s.portFailed fab p 6 else
  let s := s.apSet (offPort fab p + 8) (1 * 2 ^ 24)
  let s := s.apField (offPort fab p + 0x10) 31 31 0
  if fab then s.apField offDevId 31 31 1 else s

/-- FPT_CTL with LMASK 0 and GO 0: the port is declared failed to its senders and goes to state 0 (R436). -/
def State.portOff (s : State) (fab : Bool) (p : Nat) : State :=
  let s := if s.portState fab p = 5 then s.portDown fab p else s
  let s := s.apField (offPort fab p + 8) 30 30 0
  let s := s.apField (offPort fab p + 8) 27 24 0
  if fab then s else s.fclStat

/-! ### Launch queues (R313 to R317) -/

def State.queueSize (s : State) (q : Nat) : Nat := 2 ^ s.apBits (offLqCfg q) 15 12
def State.prog (s : State) (q : Nat) : Nat := s.apBits (offLqProg q) 31 0
def State.tail (s : State) (q : Nat) : Nat := s.ap! (offLqTail q)

/-- Packets PROG to TAIL - 1 are pending (R316). -/
def State.pendingPackets (s : State) (q : Nat) : Nat := (s.tail q + 2 ^ 32 - s.prog q) % 2 ^ 32

/-- LQ_TAIL: accepted within the ring, else OVR; a queue made pending is scheduled for switch-in (R315, R317). -/
def State.writeTail (s : State) (q v : Nat) : State :=
  if (v + 2 ^ 32 - s.prog q) % 2 ^ 32 ≤ s.queueSize q then
    let s := s.apSet (offLqTail q) v
    if 0 < s.pendingPackets q && s.apBits (offLqCfg q) 31 31 = 1 && !s.dev.resident.contains q then s.soon [.event (.queueSwitch q)] else s
  else s.apField (offLqProg q) 34 34 1

/-- LQ_CFG: while EN = 1 only EN changes; EN with SZ below 4 or DMASK 0 leaves the register unchanged (R314). -/
def State.writeCfg (s : State) (q v : Nat) : State :=
  if s.apBits (offLqCfg q) 31 31 = 1 then s.apField (offLqCfg q) 31 31 (bitsOf v 31 31)
  else if bitsOf v 31 31 = 1 && (bitsOf v 15 12 < 4 || bitsOf v 27 24 = 0) then s
  else s.apSet (offLqCfg q) v

/-- PHS_CTX: any write clears every counter of the die (R254). -/
def State.writePhsCtx (s : State) (d v : Nat) : State := (s.apSet (offPhsCtx d) v).modDie d fun x => { x with phases := [] }

/-- SVC_DOOR: the host's 1 sets HOST; every other 1 clears its bit (R429). -/
def State.writeDoor (s : State) (n : Nat) (host : Bool) (v : Nat) : State :=
  let old := s.ap! (offDoor n)
  let cleared := old &&& (0xF - (v % 16 &&& (if host then 0xD else 0xF)))
  s.apSet (offDoor n) (if host && v / 2 % 2 = 1 then cleared ||| 2 else cleared)

/-! ### Writing -/

/-- A value that the register's own rule refuses for a field keeps that field. -/
def keepField (old new hi lo : Nat) (bad : Bool) : Nat := if bad then setBits new hi lo (bitsOf old hi lo) else new

/-- The value stored after the field rules of a register: merged value in, value to store out. -/
def State.fieldRule (s : State) (r : Reg) (old new : Nat) : Nat :=
  match r.kind with
  | .devId => if bitsOf old 31 31 = 1 then old else keepField old new 9 0 (640 ≤ bitsOf new 9 0 && bitsOf new 9 0 ≤ 1022)
  | .root => if bitsOf new 63 48 ≠ 0 then old else new
  | .lqBase _ => if bitsOf new 63 62 = 1 || bitsOf new 63 62 = 3 then old else new
  | .rivLim _ _ => keepField old new 10 0 (bitsOf new 10 0 = 0 || 1024 < bitsOf new 10 0)
  | .govCal =>
    keepField old (keepField old new 63 48 (bitsOf new 63 48 < 0x1000 || 0x4000 < bitsOf new 63 48)) 23 16 (50 < bitsOf new 23 16)
  | .govSlew => keepField old new 15 0 (bitsOf new 15 0 = 0)
  | .govJob =>
    let jb := bitsOf new 61 52
    let jn := bitsOf new 41 32
    if bitsOf new 63 63 = 1 && (jn = 0 || 640 < jb + jn || s.devId < jb || jb + jn ≤ s.devId) then old else new
  | .dieBkt _ => keepField old new 15 0 (bitsOf new 15 0 < 1024)
  | .tokCap => keepField old new 11 0 (bitsOf new 11 0 < 16)
  | .timeout => keepField old new 5 0 (bitsOf new 5 0 < 16 || 40 < bitsOf new 5 0)
  | .phsCore => keepField old new 5 0 (48 ≤ bitsOf new 5 0)
  | .colCfg => keepField old (keepField old new 23 16 (bitsOf new 23 16 = 0)) 15 0 (bitsOf new 15 0 = 0)
  | .fptCtl _ _ => if 2 ≤ bitsOf new 9 8 then old else new
  | _ => new

/-- A write of a register: `cover` holds the bits written, `v` their values (R9, R428). -/
def State.writeReg (s : State) (who : Writer) (r : Reg) (cover v : Nat) : State :=
  let old := s.ap! r.base
  let hit := v &&& cover
  let merged := (old &&& (2 ^ 64 - 1 - (r.rw &&& cover) - (hit &&& r.w1c))) ||| (hit &&& r.rw)
  let new := s.fieldRule r old merged
  let go := hit / 2 ^ 31 % 2 = 1
  let go64 := hit / 2 ^ 63 % 2 = 1
  match r.kind with
  | .bootStat => if go then s.bootRun else s
  | .measCmd => let s := s.apSet r.base new; if go then s.measExtend who (bitsOf new 3 0) else s
  | .door n => s.writeDoor n (who == .host) hit
  | .invCtl => s.writeInvCtl cover new go
  | .lqCfg q => s.writeCfg q new
  | .lqTail q => s.writeTail q (bitsOf new 31 0)
  | .dbgCtl =>
    let s := s.apSet r.base new
    if bitsOf new 62 62 = 1 then (if bitsOf old 62 62 = 1 && bitsOf new 11 0 = bitsOf old 11 0 then s else s.debugStop)
    else if bitsOf cover 62 62 = 1 then s.debugRestart else s
  | .dbgRegw => if s.apBits r.base 62 62 = 1 then s else let s := s.apSet r.base new; if go64 then (s.apField r.base 62 62 1).debugWrite else s
  | .fltKill => if go && s.apBits r.base 30 30 = 1 then s else let s := s.apSet r.base new; if go then s.fltKill (bitsOf new 11 0) else s
  | .pgret i => if hit / 2 ^ 62 % 2 = 1 then s.pgretRelease i else s
  | .phsCtx d => s.writePhsCtx d new
  | .phsTab d p => s.modDie d fun x =>
      let k := 512 * s.apBits (offPhsCore d) 5 0 + p
      let was := (Tab.get x.phases 0 k).toNat
      { x with phases := Tab.put 0 x.phases k (BitVec.ofNat 64 ((was &&& (2 ^ 64 - 1 - cover)) ||| hit)) }
  | .memCtl d => let s := s.apSet r.base new; if go then s.memTrain d else s
  | .fptCtl fab p =>
    if 2 ≤ bitsOf merged 9 8 then s else
    let s := s.apSet r.base new
    if go then s.trainStart fab p else if bitsOf new 7 0 = 0 && bitsOf cover 7 0 ≠ 0 then s.portOff fab p else s
  | _ => s.apSet r.base new

/-- A write of `n` bytes from an aperture offset, by nibbles: each register it covers takes its part; offsets outside registers
ignore it (R428, R443). `nibs` has two bits a byte. -/
def State.apWrite (s : State) (who : Writer) (off n v nibs : Nat) : State :=
  let bytes := (List.range n).map (off + ·)
  let regs := bytes.foldl (fun acc o => match regAt o with
    | some r => if acc.contains r then acc else acc ++ [r]
    | none => acc) ([] : List Reg)
  regs.foldl (fun s r =>
    let part := fun (f : Nat → Nat) => bytes.foldl (fun t o =>
      if r.base ≤ o && o < r.base + r.bytes then t + f (o - off) * 256 ^ (o - r.base) else t) 0
    let cover := part (fun i => (if nibs / 4 ^ i % 2 = 1 then 0xF else 0) + (if nibs / 4 ^ i / 2 % 2 = 1 then 0xF0 else 0))
    let val := part (fun i => v / 256 ^ i % 256)
    if cover = 0 then s else s.writeReg who r cover val) s

end Sys2Proof.Machine
end

