-- ==== Sys2Proof/Machine/Commit.lean ====
section
/-!
DEFINITION. Machine/Commit.lean: read-modify-write operations, scratchpad, and the drain of a region store buffer (spec/02 R59;
spec/06 R163, R166, R173, R178 to R181; spec/10 R278).
-/

namespace Sys2Proof.Machine

/-- Bytes of an atomic operation's location (R59). -/
def atmBytes (op : AtmOp) : Nat := if op.wide then 8 else 4

/-- The new value of an atomic or reduction from the old value and the operand (R178, R181). -/
def atmApply (op : AtmOp) (old b : DWord) : DWord :=
  let o := old.setWidth 32
  let v := b.setWidth 32
  let w : Word → DWord := fun x => x.setWidth 64
  match op with
  | .add32 => w (o + v)
  | .add64 => old + b
  | .minI => w (Integer.min false o v)
  | .minU => w (Integer.min true o v)
  | .maxI => w (Integer.max false o v)
  | .maxU => w (Integer.max true o v)
  | .and => w (o &&& v)
  | .or => w (o ||| v)
  | .xor => w (o ^^^ v)
  | .exch32 => w v
  | .exch64 => b
  | .addF32 => w (Fp.fadd .rne .f32 o v)
  | .addF16x2 => w (Fp.fadd .rne .f16x2 o v)
  | .addBf16 => w (Fp.fadd .rne .bf16 (o &&& 0xFFFF) (v &&& 0xFFFF) ||| (Fp.fadd .rne .bf16 (o >>> 16) (v >>> 16) <<< 16))

/-! ### Scratchpad (R237, R262) -/

def State.spadByte (s : State) (blk off : Nat) : Byte :=
  match s.block? blk with
  | some b => Tab.get b.spad 0 off
  | none => 0
def State.spadPut (s : State) (blk off : Nat) (v : Byte) : State := s.modBlock blk fun b => { b with spad := Tab.put 0 b.spad off v }

/-- Bytes of a block's scratchpad: SPAD of its record. -/
def State.spadSize (s : State) (blk : Nat) : Nat :=
  match s.block? blk with
  | some b => Rec.spad b.record
  | none => 0

/-- The owner tag of a core's writes: the context, or 0xFFF for a service core (R277, R412). -/
def ownerOf (core ctx : Nat) : Nat := if isService core then 0xFFF else ctx

/-- The core that registers words it writes; a service core has no L1. -/
def regCore (core : Nat) : Option Nat := if isService core then none else some core

/-- A number at a home key or at a register. -/
def State.homeNum (s : State) (key n : Nat) : DWord :=
  if isAp key then BitVec.ofNat 64 (leNat ((List.range n).map fun i => s.apByte (key + i - keyAp 0))) else BitVec.ofNat 64 (s.mem.num key n)

/-- A read-modify-write at its home, without the version step of the line (R173, R178). -/
def State.rmw (s : State) (core : Option Nat) (key n : Nat) (v : DWord) : State :=
  if isAp key then s.apWrite (.svc 0) (key - keyAp 0) n v.toNat (4 ^ n - 1)
  else (bytesAt key n v.toNat).foldl (fun s b => s.poke core b.1 b.2 3) s

/-! ### Drain (R166) -/

/-- Bytes written to registers by an engine, joined to one access where they follow each other. -/
def joinAp : List (Nat × Byte × Nat) → List (Nat × List (Byte × Nat)) → List (Nat × List (Byte × Nat))
  | [], acc => acc.reverse
  | (k, v, nib) :: r, (k0, bs) :: acc =>
    if k = k0 + bs.length then joinAp r ((k0, bs ++ [(v, nib)]) :: acc) else joinAp r ((k, [(v, nib)]) :: (k0, bs) :: acc)
  | (k, v, nib) :: r, [] => joinAp r [(k, [(v, nib)])]

/-- Performs one held operation at its home, in issue order. -/
def State.perform (s : State) (core blk : Nat) (h : Held) : State :=
  match h with
  | .byte .s key _ v nib => s.spadPut blk key (nibMerge (s.spadByte blk key) v nib)
  | .byte .g key _ v nib => s.poke (regCore core) key v nib
  | .ap key _ n v nibs => s.apWrite (.svc (svcOf core)) (key - keyAp 0) n v nibs
  | .red key _ op arg => s.rmw (regCore core) key (atmBytes op) (atmApply op (s.homeNum key (atmBytes op)) arg)

/-- The global lines a list of held operations writes. -/
def globalLines (hs : List Held) : List Nat :=
  distinct (hs.filterMap fun h => match h with
    | .byte .g key _ _ _ => some (lineOf key)
    | .byte .s _ _ _ _ | .ap .. => none
    | .red key _ _ _ => if isAp key then none else some (lineOf key))

/-- Releases a warp's marks for lanes of a set, after a commit or a discard (R296). -/
def State.unmark (s : State) (wid : Nat) (lanes : Word) : State :=
  s.modMem fun m => { m with marks := Tab.mapv m.marks fun _ ks =>
    (ks.map (fun k => if k.wid = wid then { k with lane := k.lane &&& ~~~lanes } else k)).filter (fun k => k.lane != 0) }

/-- The home bytes that held operations write. -/
def keysHeld (hs : List Held) : List Nat :=
  hs.flatMap fun h => match h with
    | .byte .g key _ _ _ => [key]
    | .byte .s _ _ _ _ | .ap .. => []
    | .red key _ op _ => if isAp key then [] else (List.range (atmBytes op)).map (key + ·)

/-- Whether held stores write a byte whole: both its halves, and no reduction of it. -/
def wholeIn (hs : List Held) (k : Nat) : Bool :=
  (hs.any fun h => match h with | .byte .g key _ _ nib => key == k && nib % 2 == 1 | _ => false)
    && (hs.any fun h => match h with | .byte .g key _ _ nib => key == k && nib / 2 % 2 == 1 | _ => false)
    && !hs.any fun h => match h with | .red key _ op _ => decide (key ≤ k ∧ k < key + atmBytes op) | _ => false

/-- What lanes hold of some lines drains to its homes, one version step a line (R166, R173). -/
def State.drain (s : State) (wid : Nat) (lanes : Word) (on : Nat × Nat → Bool) : State :=
  match s.warp? wid with
  | none => s
  | some w =>
    let core := coreOf wid
    let mine := fun (h : Held) => laneIn lanes (Warp.heldLane h) && on (Warp.heldLine h)
    let hs := w.rsb.filter (fun h => mine h && Warp.recorded h)
    let s := hs.foldl (fun s h => s.perform core w.blk h) s
    let s := s.modMem fun m => m.heal (keysHeld hs)
    let s := s.modMem fun m => (globalLines hs).foldl (fun m l => m.sealLine (some (ownerOf core w.ctx)) l) m
    s.modWarp wid fun w => { w with rsb := w.rsb.filter (fun h => !mine h) }

/-- Commit() of lanes: drains what they hold, and releases their marks (R166, R173, R296). -/
def State.commit (s : State) (wid : Nat) (lanes : Word) : State :=
  let s := s.drain wid lanes fun _ => true
  if s.mem.marks.isEmpty then s else s.unmark wid lanes

/-- The lines, global or scratchpad, into which the held operations of lanes will drain. -/
def State.linesDue (s : State) (wid : Nat) (lanes : Word) : List (Nat × Nat) :=
  match s.warp? wid with
  | none => []
  | some w => Warp.linesHeld (w.rsb.filter fun h => laneIn lanes (Warp.heldLane h) && Warp.recorded h)

/-- Discard() of lanes, with their race marks (R291, R296). -/
def State.discard (s : State) (wid : Nat) (lanes : Word) : State :=
  let s := s.modWarp wid fun w => w.discard lanes
  if s.mem.marks.isEmpty then s else s.unmark wid lanes

end Sys2Proof.Machine
end

