-- ==== Sys2Proof/Machine/Ops.lean ====
section
/-!
DEFINITION. Machine/Ops.lean: what every instruction shares: the clock, token charges, taking a trap and returning from one, the
checks and order of issue, and commit points (spec/01 R24 to R27; spec/02 R48; spec/06 R168; spec/08 R241 to R246; spec/10 R289 to
R293; spec/13 R370, R445; spec/14 R399 to R404).
-/

namespace Sys2Proof.Machine

/-! ### Clock and tokens -/

/-- %clk of a warp's die. -/
def State.clk (s : State) (wid : Nat) : DWord := (s.die (dieOf wid)).clk

/-- Whether a core's bucket pays a price now: no older demand waits and level ≥ min(price, CAP) (R370). Service cores have no
bucket (log entry 24). -/
def State.canPay (s : State) (c price : Nat) : Bool :=
  (s.core c).queue.isEmpty && decide (((min price (s.ap! (offTokCap c)) * 256 : Nat) : Int) ≤ (s.core c).level)

/-- Tokens leave the bucket, for a context's partition (R370, R392). -/
def Core.pay (c : Core) (part price : Nat) : Core :=
  { c with level := c.level - ((price * 256 : Nat) : Int), drawn := Tab.put 0 c.drawn part (Tab.get c.drawn 0 part + price) }

/-- The partition of a context (R390). -/
def State.partOf (s : State) (ctx : Nat) : Nat := s.apBits (offGovPmap ctx) 2 0

/-- Charge() of an issue: the tokens are taken, or the warp joins the blocked queue (R370). -/
def State.charge (s : State) (wid ctx price : Nat) : Except State State :=
  let c := coreOf wid
  if isService c then .ok s
  else if s.canPay c price then .ok (s.modCore c fun k => k.pay (s.partOf ctx) price)
  else .error (s.modCore c fun k => { k with queue := k.queue ++ [.issue wid price] })

/-! ### Traps (R399 to R404) -/

/-- Class codes (R399). -/
def trapCode : TrapClass → Nat
  | .illegal => 0x01 | .priv => 0x02 | .align => 0x03 | .page => 0x04 | .prot => 0x05 | .race => 0x06 | .rgnOvf => 0x07
  | .rentry => 0x08 | .watchdog => 0x09 | .extwait => 0x0A | .timer => 0x0B | .ue => 0x0C | .poison => 0x0D | .barOver => 0x0E
  | .abkSize => 0x0F | .tagBusy => 0x10 | .collTimeout => 0x11 | .rinvNack => 0x12 | .debug => 0x13 | .user => 0x14
  | .outlFull => 0x15

/-- Causes of discard that count in %rcount (R291; UE at an access as POISON, log entry 25; ALIGN of a transfer, log entry 115). -/
def counted : TrapClass → Bool
  | .align | .page | .prot | .race | .rgnOvf | .poison | .ue => true
  | _ => false

/-- Whether a DEBUG trap of a context goes to an attached debugger (R107, R422). -/
def State.toDebugger (s : State) (ctx : Nat) (t : Trap) : Bool :=
  t.cls == .debug && s.apBits offDbgCtl 63 63 = 1 && s.apBits offDbgCtl 11 0 = ctx

/-- Whether a warp is a trap handler's (R404). -/
def State.isHandler (s : State) (w : Warp) : Bool :=
  match s.block? w.blk with
  | some b => b.kind == .trap
  | none => false

/-- TAKING A TRAP. The faulting warp stops issuing: none of its lanes is selectable until it is resumed, what the record will hold
is kept with it, and its handler's start is the next step (R403 step 1). A DEBUG trap of an attached debugger's context stops the
warp the same way without a handler (R422). With no handler installed, or in a trap handler, the context is terminated (R404). A
service core halts and shows class and PC in SVC_ERR (R427). -/
def State.takeTrap (s : State) (wid : Nat) (t : Trap) (lanes : Word) (mode : Nat) (pc rpc : DWord) : State :=
  match s.warp? wid with
  | none => s
  | some w =>
    let core := coreOf wid
    if isService core then
      (s.apSet (offSvcErr (svcOf core)) (trapCode t.cls + pc.toNat % 2 ^ 56 * 256)).modWarp wid fun w =>
        { w with stopped := true, opbuf := [], stage := none }
    else if s.toDebugger w.ctx t || (s.ap! (offFltHnd w.ctx) % 2 = 1 && !s.isHandler w) then
      let p : Susp := { trap := t, lanes := lanes, mode := mode, pc := pc, rpc := rpc, record := 0, started := false,
                        debugger := s.toDebugger w.ctx t }
      ((s.modWarp wid fun w =>
        { w with susp := some p, opbuf := [], stage := none, lwc := 0, fc := if w.turn.isSome then 0 else w.fc, turn := none }).modCore core
          fun c => (c.unclaim w).dropDemands wid).soon [.event (.trapHandlerStart wid)]
    else s.kill w.ctx

/-- A discard that counts and passes the re-entry limit is reported as RENTRY, with its cause (R292, R400). -/
def rentryOf (t : Trap) : Trap := { t with cls := .rentry, cause := trapCode t.cls, info := BitVec.ofNat 32 t.cause }

/-- Counts a discard in %rcount; the trap to take is RENTRY when the limit is passed (R292). -/
def State.countDiscard (s : State) (wid : Nat) (t : Trap) : State × Trap :=
  if counted t.cls then
    let s := s.modWarp wid fun w => { w with rcount := w.rcount + 1 }
    match s.warp? wid with
    | some w => if w.rlimit.toNat < w.rcount.toNat then (s, rentryOf t) else (s, t)
    | none => (s, t)
  else (s, t)

/-- A trap whose lanes return to rev: their region is discarded, counted where R291 counts it, and the trap is taken with MODE 0
(R291, R292, R399). -/
def State.discardTrap (s : State) (wid : Nat) (t : Trap) (lanes : Word) (pc : DWord) : State :=
  let s := s.discard wid lanes
  let (s, t) := s.countDiscard wid t
  s.takeTrap wid t lanes 0 pc 0

/-! ### What an instruction sees at issue -/

/-- The warp, the address and length of the instruction, the issuing lanes and the enabled ones (R94). -/
structure Ctx where
  wid : Nat
  here : DWord
  len : Nat
  iss : Word
  en : Word
  deriving DecidableEq, Repr

def Ctx.next (c : Ctx) : DWord := c.here + BitVec.ofNat 64 c.len
def Ctx.core (c : Ctx) : Nat := coreOf c.wid
def Ctx.die (c : Ctx) : Nat := dieOf c.wid

/-! ### Leases on lines homed here (R282) -/

/-- The home recalls lines that another party accesses, once each (R282). -/
def State.askBack (s : State) (lines : List Nat) : State :=
  let due := s.mem.leases.filter (fun l => lines.contains l.line && l.dev.isSome && !l.recalled)
  let s := due.foldl (fun s l => s.send (.recall (l.dev.getD 0) l.line)) s
  s.modMem fun m =>
    { m with leases := m.leases.map fun l => if lines.contains l.line && l.dev.isSome then { l with recalled := true } else l }

/-- A request for a leased line waits, and the home recalls the line once (R282). -/
def State.waitLease (s : State) (line : Nat) (e : Ev) : State :=
  (s.askBack [line]).modMem fun m => { m with waits := m.waits ++ [(line, e)] }

/-- A party's step that reads given lines, or that would write a line, waits while one of them is leased, and the home recalls it
(R173, R282). -/
def State.recallFirst (s : State) (e : Ev) (reads : List Nat) (go : State → State) : State :=
  match s.mem.leases.find? fun l =>
      l.dev.isSome && (reads.contains l.line || (go s).mem.version l.line != s.mem.version l.line) with
  | some l => s.waitLease l.line e
  | none => go s

/-- The same where the step reads those lines at their homes (R368). -/
def State.readFirst (s : State) (e : Ev) (reads : List Nat) (go : State → State) : State :=
  s.recallFirst e reads fun s => go (reads.foldl (fun s l => s.touch l) (s.metLines reads))

/-- An access that waits before any step demand of its instruction, and one that waits behind its paid step demand. -/
def Ctx.waiting (c : Ctx) : Stage := { kind := 4, lanes := c.iss }
def Ctx.paidUp (c : Ctx) : Stage := { kind := 3, lanes := c.iss, step := 4 }

/-- A warp whose access waits for its lines: a step demand that is paid stays paid. -/
def Warp.awaits (w : Warp) (st : Stage) : Warp :=
  { w with stage := match w.stage with
      | some old => if old.kind = 3 then some old else some { st with paid := old.paid }
      | none => some st }

/-- A warp whose access has waited and goes on: what it has paid is kept. -/
def Warp.arrived (w : Warp) : Warp :=
  { w with stage := match w.stage with
      | some st => if st.kind ≠ 4 then some st else if st.paid = 0 then none else some { st with kind := 2 }
      | none => none }

/-- An access waits at its instruction, its charge paid, until the lines it needs are back at their home; else it goes on. -/
def State.whenHome (s : State) (c : Ctx) (st : Stage) (lines : List Nat) (go : State → State) : State :=
  if lines.any s.leasedOut then (s.askBack lines).modWarp c.wid fun w => w.awaits st
  else match (s.warp? c.wid).bind Warp.stage with
    | some _ => go (s.modWarp c.wid Warp.arrived)
    | none => go s

/-! ### Issue -/

/-- What an instruction form tells the shared issue: length, guard selector, class price, lane registers read and written (a pair
is two), the registers RET keeps, its level, whether reduced service lacks it, and whether it transfers control or ends a turn. -/
structure Form where
  len : Nat := 4
  g : Nat := 0
  price : Nat
  reads : List Nat := []
  dst : List Nat := []
  keep : List Nat := []
  level : Level := .u
  full : Bool := false
  jump : Bool := false
  yields : Bool := false

/-- The level check of R48: what traps when a warp's level may not issue an instruction. -/
def levelTrap (need have_ : Level) : Option TrapClass :=
  match need, have_ with
  | .p, .u => some .priv
  | .s, .u | .s, .p | .s, .n => some .priv
  | .n, .s => some .illegal
  | _, _ => none

/-- Lanes a guard selector enables (R24). -/
def Warp.guard (w : Warp) (g : Nat) : Word := if g = 0 then -1 else w.mr (g - 1)

/-- Every lane register a form names lies below the warp's count (R229). -/
def Warp.names (w : Warp) (f : Form) : Bool := (f.reads ++ f.dst).all (· < w.regs)

/-- Class price plus one token for each lane register not served from the operand buffer (R26, R367). -/
def Warp.price (w : Warp) (f : Form) : Nat := f.price + (f.reads.filter (fun n => !w.opbuf.contains n)).length

/-- The registers of an instruction, as lines of the register cache (R261). -/
def Form.lines (f : Form) : List Nat := f.reads ++ f.dst

/-- RET keeps an operand only where the instruction has its effect: with no enabled lane it has none (R25, R26). -/
def Form.seen (f : Form) (en : Word) : Form := if en = 0 then { f with keep := [], reads := [], dst := [] } else f

/-- What issuing changes in the warp before the effect: fairness, deferrals, watchdog count and operand buffer (R26, R105, R241,
R244, R245, R250). -/
def Warp.marked (w : Warp) (f : Form) (iss : Word) (now : Nat) : Warp :=
  let alone : Bool := w.selectable &&& ~~~iss = 0
  { w.stamp f.lines now with
    lastIssue := some now, ready := 0, opbuf := f.keep, stage := none,
    deferred := 0, fc := if w.turn.isNone && (alone || w.lastLanes != iss) then 0 else w.fc, lastLanes := iss,
    turnBits := if alone then 0 else w.turnBits, lwc := if alone && w.blockedLanes = 0 then 0 else w.lwc,
    turn := match w.turn with | some t => some { t with start := match t.start with | none => some now | b => b } | none => none }

/-- The same of an issue; an instruction that has issued and comes back changes nothing more (R445). -/
def Warp.issued (w : Warp) (f : Form) (iss : Word) (now : Nat) : Warp := if w.again then w else w.marked f iss now

/-- Whether a turn ends after an instruction of its group (R246). -/
def turnEnds (before after : Warp) (t : Turn) (f : Form) (c : Ctx) : Bool :=
  let sel := after.selectable &&& t.lanes
  let others := after.selectable &&& ~~~t.lanes
  f.yields
    || (f.jump && (lanesOf (c.en &&& t.lanes)).any (fun l => (after.pc l).toNat ≤ c.here.toNat))
    || (after.blockedLanes &&& ~~~before.blockedLanes &&& t.lanes) != 0
    || sel = 0
    || (others != 0 && (after.leastPc sel).toNat ≤ (after.leastPc others).toNat)

/-- The condition of a `wait` (R104): every lane of the mask has exited or waits at the same instruction. -/
def Warp.waitDone (w : Warp) (m : Nat) (here : DWord) : Bool :=
  let there := w.blocked.foldl (fun acc b => match b.what with
    | .mask _ => if b.here = here then acc ||| b.lanes else acc
    | _ => acc) 0
  w.mr m &&& ~~~(w.exited ||| there) = 0

/-- Lanes released at their instruction continue behind it, where their next region begins (R168 step 5, R250). -/
def Warp.release (w : Warp) (lanes : Word) (next : DWord) : Warp :=
  { ((w.setPc lanes (fun _ => next)).setRev lanes (fun _ => next)) with lwc := 0 }

/-- Releases every `wait` whose condition holds (R104). -/
def Warp.wakeMasks (w : Warp) : Warp :=
  let ready := w.blocked.filter (fun b => match b.what with | .mask m => w.waitDone m b.here | _ => false)
  let w' := ready.foldl (fun v b => v.release b.lanes (b.here + BitVec.ofNat 64 b.len)) w
  { w' with blocked := w.blocked.filter (fun b => match b.what with | .mask m => !w.waitDone m b.here | _ => true) }

/-- After an instruction: the release of mask waits and the end of a turn (R104, R246). -/
def Warp.finished (w : Warp) (f : Form) (c : Ctx) (before : Warp) : Warp :=
  let w := if w.blocked.isEmpty || w.susp.isSome then w else w.wakeMasks
  match before.turn, w.turn with
  | some t, some _ => if turnEnds before w t f c then { w with turn := none, fc := 0 } else w
  | _, _ => w

def State.finish (s : State) (f : Form) (c : Ctx) (before : Warp) : State := s.modWarp c.wid fun w => w.finished f c before

/-- The instruction waits at its place until a table line of its translation is back at its home, and comes back to it (R282, R307). -/
def State.waitTable (s : State) (c : Ctx) (st : Stage) (line : Nat) : State := (s.askBack [line]).modWarp c.wid fun w => w.awaits st

/-- A translation that fails has walked: it has read its tables at their homes (R307, R368). -/
def State.walkedFor (s : State) (wid : Nat) (t : Trap) : State :=
  if t.cls = .page || (t.cls == .prot && decide (0x10 ≤ t.cause ∧ t.cause ≤ 0x13)) then
    match s.warp? wid with
    | none => s
    | some w => s.walked (coreOf wid) w.ctx t.addr
  else s

/-- A warp consumes an error: that is contained next, and then the warp, where its context still runs, takes UE (R408, R412). -/
def State.needing (s : State) (wid : Nat) (n : Need) : State :=
  (s.modWarp wid fun w => { w with needs := some n }).contains
    (some (n.t.aux.toNat / 8, n.t.cause)) (some wid)

/-- A trap of the issuing instruction at a check of R48, before Charge(): no effect, no tokens, lanes at rev (R19, R48, R399). -/
def State.raise (s : State) (c : Ctx) (t : Trap) : State :=
  match t.wait with
  | some line => s.waitTable c c.waiting line
  | none =>
    if t.cls = .ue then s.needing c.wid { t := t, lanes := c.iss, pc := c.here, done := false }
    else (s.walkedFor c.wid t).discardTrap c.wid t c.iss c.here

/-- Acquires owed to a `fence.r`, or to the observed tag of a yard round, are performed before the warp next issues (R183, R273). -/
def State.payInv (s : State) (wid : Nat) (w : Warp) : State :=
  if w.inv.isEmpty && !w.observed then s else
  let s := (w.inv.foldl (fun s sc => s.acquire (coreOf wid) sc) s).modWarp wid fun w => { w with inv := [], observed := false }
  if w.observed then s.acquire (coreOf wid) .yd else s

/-- A warp has observed the tags of a mask: one that a yard round set makes its next issue acquire at .yd (R273). -/
def State.observe (s : State) (wid : Nat) (mask : DWord) : State :=
  s.modWarp wid fun w =>
    let t := (s.core (coreOf wid)).tagmap w.ctx
    { w with observed := w.observed || t.done &&& t.yard &&& mask != 0 }

/-- ISSUE of one instruction by the current warp, in the order of R48: level, every remaining check, Charge(), then the effect, or
only the advance of the issuing lanes where the guard enables none (R25). `legal` is check 4 on values, `steps` the core steps that
form one demand with the price; a load step joins them for each register that the register cache does not hold (R261, R368). -/
def State.issue (s : State) (f : Form) (legal : Ctx → State → Bool) (steps : Ctx → State → Nat) (body : Ctx → State → State) : State :=
  match s.warp? s.cur with
  | none => s
  | some w =>
    let iss := w.group
    if iss = 0 then s else
    let c : Ctx := { wid := s.cur, here := w.leastPc iss, len := f.len, iss := iss, en := iss &&& w.guard f.g }
    match levelTrap f.level w.level with
    | some cls => s.raise c { cls := cls }
    | none =>
      if !(w.names f) || (f.full && s.lowService s.cur) || !legal c s then s.raise c { cls := .illegal } else
      let miss := if c.en = 0 then [] else s.missed s.cur w f.lines
      match if w.stage.isSome then .ok s else s.charge s.cur w.ctx (w.price f + (if c.en = 0 then 0 else steps c s) + 6 * miss.length) with
      | .error s => s
      | .ok s =>
      match s.loadRegs c.wid (s.clk c.wid).toNat w f.lines miss with
      | .error t => (match t.wait with
        | some line => s.waitTable c { kind := 1, lanes := iss } line
        | none => s.raise c t)
      | .ok s =>
        let s := if w.again then s else s.payInv s.cur w
        let s := if w.again || f.reads.all w.opbuf.contains then s else s.inject [5] 0 w.ctx
        let s := s.modWarp c.wid fun w => w.issued (f.seen c.en) iss (s.clk c.wid).toNat
        let s := if c.en = 0 then s.modWarp c.wid fun w => w.advance iss f.len else body c s
        s.finish f c w

/-- Issue of an instruction whose check 4 reads no value and that draws no steps. -/
def State.issueSimple (s : State) (f : Form) (body : Ctx → State → State) : State :=
  s.issue f (fun _ _ => true) (fun _ _ => 0) body

/-! ### Commit points (R168) -/

/-- With the context of a warp. -/
def State.withCtx (s : State) (wid : Nat) (f : Nat → State) : State :=
  match s.warp? wid with
  | none => s
  | some w => f w.ctx

/-- An instruction's lanes that are not enabled go on (R94). -/
def State.passOthers (s : State) (c : Ctx) : State := s.modWarp c.wid fun w => w.advance (c.iss &&& ~~~c.en) c.len

/-- Step 5: each enabled lane leaves the instruction and its next region begins behind it; the others go on (R168). -/
def State.leave (s : State) (c : Ctx) : State :=
  (s.modWarp c.wid fun w => { (w.setPc c.en (fun _ => c.next)).setRev c.en (fun _ => c.next) with stage := none }).passOthers c

/-- What lanes that block now are. -/
def State.blockOf (s : State) (c : Ctx) (lanes : Word) (what : Wait) : Blocked :=
  { lanes := lanes, here := c.here, len := c.len, what := what, since := (s.clk c.wid).toNat }

/-- Lanes block at step 4 (R168). -/
def State.block (s : State) (c : Ctx) (lanes : Word) (what : Wait) : State :=
  let b := s.blockOf c lanes what
  s.modWarp c.wid fun w => { w with blocked := w.blocked ++ [b], stage := none }

/-- Every enabled lane blocks and the others go on. -/
def State.blockAll (s : State) (c : Ctx) (what : Wait) : State := (s.block c c.en what).passOthers c

/-- The scope of a `fence.r` that waits for a warp. -/
def fenceWait (wid : Nat) (b : Blocked) : Option Scope :=
  match b.what with
  | .fenceR sc ts => if ts.contains wid then some sc else none
  | _ => none

/-- A commit of a warp meets every `fence.r` that waits for it: the warp self-invalidates at the fence's scope (R183). -/
def State.meetFences (s : State) (wid : Nat) : State :=
  let waits := s.warps.flatMap (fun e => e.2.blocked.filterMap (fenceWait wid))
  if waits.isEmpty then s else
  let s := waits.foldl (fun s sc => s.acquire (coreOf wid) sc) s
  { s with warps := Tab.mapv s.warps fun _ w => { w with blocked := w.blocked.map fun b => match b.what with
      | .fenceR sc ts => { b with what := .fenceR sc (ts.filter (· != wid)) }
      | _ => b } }

/-- The owner tag of a warp's writes. -/
def State.ctxOf (s : State) (wid : Nat) : Nat :=
  match s.warp? wid with
  | some w => ownerOf (coreOf wid) w.ctx
  | none => 0xFFF

/-- The global lines into which the held stores of lanes will drain. -/
def State.drainLines (s : State) (wid : Nat) (lanes : Word) : List Nat :=
  match s.warp? wid with
  | none => []
  | some w => globalLines (w.rsb.filter (fun h => laneIn lanes (Warp.heldLane h) && Warp.recorded h))

/-- The error that the drain of the lanes' held stores and reductions would consume (R407). -/
def State.commitMerge (s : State) (wid : Nat) (lanes : Word) : Option Trap :=
  if s.mem.upset.isEmpty then none else
  match s.warp? wid with
  | none => none
  | some w =>
    let hs := w.rsb.filter fun h => laneIn lanes (Warp.heldLane h) && Warp.recorded h
    (s.mem.mergesAt (keysHeld hs) (wholeIn hs)).map fun e =>
      { cls := .ue, cause := e.2, addr := Tab.get w.heldAt 0 (e.1 / 16), aux := BitVec.ofNat 64 (e.1 / 16 * 128 % span) }

/-- Held stores of the lanes that would drain into a poisoned line, or over links that are all down (R283, R339), or would merge into a
word with an error (R407). -/
def State.commitPoison (s : State) (wid : Nat) (lanes : Word) : Option Trap :=
  match (s.drainLines wid lanes).find? s.broken with
  | some l => some { cls := .poison, addr := ((s.warp? wid).map fun w => Tab.get w.heldAt 0 l).getD 0, aux := BitVec.ofNat 64 (l * 128 % span) }
  | none => s.commitMerge wid lanes

/-- How many held reductions the lanes' commit performs: each draws an atomic step (R170). -/
def State.heldReds (s : State) (wid : Nat) (lanes : Word) : Nat :=
  match s.warp? wid with
  | none => 0
  | some w => (w.rsb.filter fun h => laneIn lanes (Warp.heldLane h) && (match h with | .red .. => true | _ => false)).length

/-- A step demand of a warp in its scheduler's place: it is paid and the step is taken, or it joins the queue (R370, R445). -/
def State.demandNow (s : State) (c : Ctx) (ctx price : Nat) (st : Stage) (go : State → State) : State :=
  if s.canPay c.core price then go (s.modCore c.core fun k => k.pay (s.partOf ctx) price)
  else (s.modWarp c.wid fun w => { w with stage := some st }).modCore c.core fun k => { k with queue := k.queue ++ [.step c.wid 32 price] }

/-- A step demand of an instruction, made in its scheduler's place of the next cycle after it has issued: `go` runs once it is paid; until
then the lanes wait at the instruction (R445). -/
def State.demandStep (s : State) (c : Ctx) (w : Warp) (price : Nat) (due : Stage) (go : State → State) : State :=
  match w.stage with
  | some st =>
    if st.kind = 3 then go s
    else if st.kind = 2 then s.demandNow c w.ctx price due go
    else s.modWarp c.wid fun w => { w with stage := some due }
  | none => s.modWarp c.wid fun w => { w with stage := some due }

/-- The atomic steps of the held reductions that a commit performs: the commit waits until they are paid (R170, R445). -/
def State.payHeld (s : State) (c : Ctx) (tag : Nat) (go : State → State) : State :=
  let n := s.heldReds c.wid c.en
  if n = 0 || isService c.core then go s else
  match s.warp? c.wid with
  | none => s
  | some w => if w.stageStep = 2 then go s else s.demandStep c w (10 * n) { kind := 2, lanes := c.iss, step := 1, tag := tag } go

/-- Step 2 but for the pending traps: Commit() and the reset of %rcount (R168, R250, R409). -/
def State.commitStep (s : State) (c : Ctx) : State :=
  let lines := s.drainLines c.wid c.en
  let s := lines.foldl (fun s l => s.homeLine c.core l) (s.commit c.wid c.en)
  let s := s.modWarp c.wid fun w => { w with rcount := 0, lwc := 0, stage := none, wr := (Tab.mapv w.wr (fun _ m => m &&& ~~~c.en)).filter (fun e => e.2 != 0) }
  s.meetFences c.wid

/-- A trap that waits for a commit point, taken after the commit: the timer trap first, then engine faults in order, all MODE 1 with
RPC at the commit point (R168, R195, R293, R352). -/
def State.pendingTrap (s : State) (c : Ctx) : Option State :=
  match s.warp? c.wid with
  | none => none
  | some w =>
    if w.timer then
      some ((s.modWarp c.wid fun w => { w with timer := false, tcmp := 0 }).takeTrap c.wid { cls := .timer } c.en 1 c.here c.here)
    else match w.faults with
      | [] => none
      | t :: r => some ((s.modWarp c.wid fun w => { w with faults := r }).takeTrap c.wid t c.en 1 c.here c.here)

/-- Step 3: rev := here, the next sequence number, an empty region with the default budget (R167, R168, R289, R290). -/
def State.newRegion (s : State) (c : Ctx) : State :=
  s.modWarp c.wid fun w =>
    { w with
      rev := onLanes 0 w.rev c.en (fun _ => c.here), rseq := onLanes 0 w.rseq c.en (fun l => w.seqOf l + 1),
      budget := onLanes 0 w.budget c.en (fun _ => 32) }

/-- One line of a commit drains, and others may observe it before the rest (R166): which one is free. -/
def State.commitPart (s : State) (c : Ctx) (tag : Nat) : State :=
  let due := s.linesDue c.wid c.en
  let l := due.getD ((Config.freeWord s.own.freeCount 0x166).toNat % due.length) (0, 0)
  let s := s.drain c.wid c.en fun x => x == l
  let s := if l.1 = 0 && !isAp (l.2 * 128) then s.homeLine c.core l.2 else s
  s.modWarp c.wid fun w => { w with stage := some { kind := 4, lanes := c.iss, step := 2, tag := tag } }

/-- Steps 2 and 3, then `body`: the reductions' steps are paid, the lines are at home, and the commit is performed, or one line of it where
others may observe it (R166, R168). -/
def State.commitFrom (s : State) (c : Ctx) (ctx tag : Nat) (body : State → State) : State :=
  s.payHeld c tag fun s =>
    s.whenHome c { kind := 4, lanes := c.iss, step := 1, tag := tag } (s.drainLines c.wid c.en) fun s =>
      if s.apart && decide (1 < (s.linesDue c.wid c.en).length) then s.commitPart c tag else
      let s := s.commitStep c
      match s.pendingTrap c with
      | some s => (s.releaseTag c.core ctx tag).passOthers c
      | none => body (s.newRegion c)

/-- A COMMIT POINT (R168): `pre` is step 1 and discards the region when it fails, `body` is steps 4 and 5. A tag is claimed at step
1, and released unset where the instruction does not reach step 4 (R193); 64 names none. An instruction that comes back goes on with the
step at which it stands (R445). -/
def State.commitTag (s : State) (c : Ctx) (tag : Nat) (pre : State → Option Trap) (body : State → State) : State :=
  match s.warp? c.wid with
  | none => s
  | some w =>
    if w.stageStep = 4 then body s else
    if w.stageStep ≠ 0 then s.commitFrom c w.ctx tag body else
    if (s.core c.core).tagFlies w.ctx tag then s.raise c { cls := .tagBusy, info := BitVec.ofNat 32 tag } else
    match pre s with
    | some t => s.raise c t
    | none =>
      match s.commitPoison c.wid c.en with
      | some t => s.raise c t
      | none => (s.claimTag c.core w.ctx tag).commitFrom c w.ctx tag body

/-- A commit point that names no tag. -/
def State.commitPoint (s : State) (c : Ctx) (pre : State → Option Trap) (body : State → State) : State := s.commitTag c 64 pre body

def noCheck : State → Option Trap := fun _ => none

/-- A trap of step 4: the region has been committed, so nothing is left to discard and the lanes stand at the instruction, where
rev is; a cause that R291 counts is counted, and the others go on (R168, R207, R291). -/
def State.raise4 (s : State) (c : Ctx) (t : Trap) : State :=
  match t.wait with
  | some line => s.waitTable c c.paidUp line
  | none =>
  let s := s.modWarp c.wid fun w => { w with stage := none }
  if t.cls = .ue then (s.needing c.wid { t := t, lanes := c.en, pc := c.here, done := true }).passOthers c else
  let x := s.countDiscard c.wid t
  (x.1.takeTrap c.wid x.2 c.en 0 c.here 0).passOthers c

/-- A trap taken by an instruction that has had its effect: MODE 1, behind it (R106, R107, R221, R399). -/
def State.trapBehind (s : State) (c : Ctx) (t : Trap) : State := (s.takeTrap c.wid t c.en 1 c.here c.next).passOthers c

/-- A step demand made after issue: `go` runs once it is paid (R445). -/
def State.payStep (s : State) (c : Ctx) (price : Nat) (go : State → State) : State :=
  match s.warp? c.wid with
  | none => s
  | some w =>
    let clear := fun (s : State) => s.modWarp c.wid fun w => { w with stage := none }
    if isService c.core || price = 0 then go (clear s)
    else s.demandStep c w price { kind := 2, lanes := c.iss, step := 4 } fun s => go (clear s)

/-- The demands of an instruction's accesses that are still to be paid, each drawn by itself; `done` have been paid. -/
def State.payMore (s : State) (c : Ctx) (ctx price done : Nat) (go : State → State) : Nat → State
  | 0 => go (s.modWarp c.wid fun w => { w with stage := none })
  | n + 1 => s.demandNow c ctx price { kind := 2, lanes := c.iss, paid := done, step := 4 } fun s => s.payMore c ctx price (done + 1) go n

/-- `n` accesses of one price, each a step demand of its own (R136, R445): `go` runs once all are paid. -/
def State.payEach (s : State) (c : Ctx) (price n : Nat) (go : State → State) : State :=
  match s.warp? c.wid with
  | none => s
  | some w =>
    if isService c.core then go (s.modWarp c.wid fun w => { w with stage := none }) else
    match w.stage with
    | some st => let done := st.paid + (if st.kind = 3 then 1 else 0); s.payMore c w.ctx price done go (n - done)
    | none => s.modWarp c.wid fun w => { w with stage := some { kind := 2, lanes := c.iss, step := 4 } }

/-! ### Returning from a trap (R108, R400, R401, R403) -/

/-- The address of the fault record of a warp (R300, R401). -/
def State.recordAddr (s : State) (wid ctx : Nat) : DWord :=
  BitVec.ofNat 64 (s.ap! (offMmuSave ctx) + dieOf wid * 0x17000000 + 0x16200000 + 0x400 * (64 * coreInDie (coreOf wid) + slotOfWid wid) + 0x200)

/-- The 64 bytes of a record (R400) and the 384 bytes of its extension (R401). -/
def recordBytes (w : Warp) (wid : Nat) (p : Susp) (at_ clk : DWord) : List Byte :=
  leBytes 4 (trapCode p.trap.cls + p.trap.cause % 256 * 2 ^ 8 + w.ctx % 4096 * 2 ^ 16)
    ++ (let core := p.trap.core.getD (coreOf wid)
        leBytes 4 (dieOfCore core + 4 * coreInDie core + 256 * slotOfWid wid + p.mode % 2 * 2 ^ 14))
    ++ leBytes 8 p.pc.toNat ++ leBytes 8 p.rpc.toNat ++ leBytes 4 p.lanes.toNat ++ leBytes 4 p.trap.info.toNat
    ++ leBytes 8 p.trap.addr.toNat ++ leBytes 8 p.trap.aux.toNat ++ leBytes 8 (at_.toNat + 0x40) ++ leBytes 8 clk.toNat
    ++ laneList.flatMap (fun l => leBytes 8 (w.revOf l).toNat) ++ laneList.flatMap (fun l => leBytes 4 (w.seqOf l).toNat)

/-- Bytes at a context's address as a privileged access reads or writes them: the key of each, or the first miss. -/
def State.keysOf (s : State) (core ctx : Nat) (a : Acc) (va : DWord) (n : Nat) : Except Miss (List Nat) :=
  tryAll (fun i => match s.place core ctx true a (va + BitVec.ofNat 64 i) with
    | .error m => .error m
    | .ok k => match (if a.reads then s.upsetTrap k 1 (va + BitVec.ofNat 64 i) else none) with
      | some t => .error t
      | none => .ok k) (List.range n)

def State.readBytes (s : State) (core ctx : Nat) (va : DWord) (n : Nat) : Except Miss (List Byte) :=
  match s.keysOf core ctx .read va n with
  | .error m => .error m
  | .ok ks => .ok (ks.map s.mem.byte)

/-- Writes the record and its extension (R401, R403 step 2); a save area that cannot be written terminates the context (R404). -/
def State.writeRecord (s : State) (wid : Nat) : State :=
  match s.warp? wid with
  | none => s
  | some w =>
    match w.susp with
    | none => s
    | some p =>
      let va := s.recordAddr wid w.ctx
      match s.keysOf (coreOf wid) w.ctx .write va 448 with
      | .error _ => s.kill w.ctx
      | .ok ks =>
        ((s.homeRun (coreOf wid) w.ctx va ks).writeHome (some w.ctx) none (ks.zip (recordBytes w wid p va (s.clk wid)))).modWarp wid fun w =>
          { w with susp := some { p with record := va } }

/-- The tag that a waiting push has claimed; its operation never issues when the wait ends (R193, R444). -/
def Wait.tag : Wait → Nat
  | .q0 cmd => cmd.tag
  | _ => 64

/-- The named lanes continue at their targets, and waits that this ends release their tags (R193, R444). -/
def State.restart (s : State) (wid : Nat) (lanes : Word) (target : Nat → DWord) : State :=
  match s.warp? wid with
  | none => s
  | some w =>
    let after := w.resumeAt lanes target
    let ended := w.blocked.filter fun b => !after.blocked.any fun x => x.here == b.here && x.what == b.what
    ended.foldl (fun s b => s.releaseTag (coreOf wid) w.ctx (Wait.tag b.what)) (s.setWarp wid after)

/-- What `resume` does with the record its register names: restarts the warp where the record sends each named lane, or terminates
the context. `none` where the record is not one of a warp suspended on this handler; a trap where ACTION or RPC is illegal. -/
def State.resumeFrom (s : State) (target : Nat) (rec : List Byte) : State ⊕ Trap :=
  match s.warp? target with
  | none => .inr { cls := .illegal }
  | some w =>
    let action := leAt rec 0 4 / 2 ^ 28
    let mode := leAt rec 4 4 / 2 ^ 14 % 2
    let rpc := leAt rec 0x10 8
    if 2 ≤ action || (mode = 1 && rpc % 4 ≠ 0) then .inr { cls := .illegal }
    else if action = 1 then
      let free := (Config.freeWord s.own.freeCount 1).toNat % 14
      .inl (((s.terminate w.ctx).logUe free 3 w.ctx 0 false).irq 0xF0)
    else
      let lanes : Word := BitVec.ofNat 32 (leAt rec 0x18 4)
      .inl (s.restart target lanes fun l => BitVec.ofNat 64 (if mode = 1 then rpc else leAt rec (0x40 + 8 * l) 8))

end Sys2Proof.Machine
end

