-- ==== Sys2Proof/Machine/Operands.lean ====
section
/-!
DEFINITION. Machine/Operands.lean: operand forms and the shared effects of instructions that write lane registers, k-registers and
masks (spec/01 R16 to R26, R40; spec/04 R94, R111, R116, R126; spec/06 R161).
-/

namespace Sys2Proof.Machine

/-! ### Operands at issue -/

/-- The registers of a value: one, or an even-odd pair (R21). -/
def regPair (wide : Bool) (n : Nat) : List Nat := if wide then [n, n + 1] else [n]

def srcARegs (wide : Bool) : SrcA → List Nat
  | .x n => regPair wide n
  | .k _ => []

def srcBRegs (wide : Bool) : SrcB → List Nat
  | .x n => regPair wide n
  | _ => []

/-- Operand A: a lane register or pair, or bits 31:0 or 63:0 of a k-register (R22). -/
def srcAVal (wide : Bool) (a : SrcA) (w : Warp) (l : Nat) : DWord :=
  match a with
  | .x n => w.xn wide n l
  | .k n => if wide then w.kr n else ((w.kr n).setWidth 32).setWidth 64

/-- Word 2 as an operand: as is at 32 bits, sign-extended at 64 (R23). -/
def immVal (wide : Bool) (v : Word) : DWord := if wide then v.signExtend 64 else v.setWidth 64

/-- A literal as an operand (R17). -/
def litVal (wide : Bool) (v : DWord) : DWord := if wide then v else (v.setWidth 32).setWidth 64

/-- Operand B (R17, R23). -/
def srcBVal (wide : Bool) (b : SrcB) (w : Warp) (l : Nat) : DWord :=
  match b with
  | .x n => w.xn wide n l
  | .imm v => immVal wide v
  | .lit v => litVal wide v

/-- Operand B of a scalar instruction (R126). -/
def kSrcVal (b : KSrc) (w : Warp) : DWord :=
  match b with
  | .k n => w.kr n
  | .imm v => v.signExtend 64
  | .lit v => v

/-- The registers that RET keeps in the operand buffer (R16, R26). -/
def keepOf (r : Ret) (a b c : List Nat) : List Nat :=
  match r with
  | .none => []
  | .a => a
  | .b => b
  | .c => c

/-! ### Addresses (R40, R161) -/

/-- Base, index and offset modulo 2^64; for scratchpad the base supplies only its bits 31:0 (R40). -/
def eaOf (sp : Spc) (base idx : DWord) (off : Word) : DWord :=
  match sp with
  | .g => base + idx + off.signExtend 64
  | .s => (base.setWidth 32).setWidth 64 + idx + off.signExtend 64

/-! ### Shared effects -/

/-- Writes a lane register or pair in the enabled lanes and advances the issuing ones (R94, R117). -/
def Ctx.vecEffect (c : Ctx) (wide : Bool) (d : Nat) (val : Warp → Nat → DWord) (s : State) : State :=
  s.modWarp c.wid fun w => (w.setXn wide d c.en (val w)).advance c.iss c.len

/-- Writes the enabled lanes' bits of a mask and advances the issuing lanes (R111). -/
def Ctx.maskEffect (c : Ctx) (d : Nat) (bits : Warp → Nat → Bool) (s : State) : State :=
  s.modWarp c.wid fun w => (w.setM d (maskWrite (w.mr d) c.en (maskOf (bits w)))).advance c.iss c.len

/-- Writes a k-register once and advances the issuing lanes (R25). -/
def Ctx.scaEffect (c : Ctx) (d : Nat) (val : Warp → DWord) (s : State) : State :=
  s.modWarp c.wid fun w => (w.setK d (val w)).advance c.iss c.len

/-- An instruction whose one effect is a lane register or pair. -/
def State.execVec (s : State) (f : Form) (wide : Bool) (d : Nat) (val : Warp → Nat → DWord) : State :=
  s.issueSimple { f with dst := regPair wide d } (fun c s => c.vecEffect wide d val s)

/-- An instruction whose one effect is mask bits. -/
def State.execMask (s : State) (f : Form) (d : Nat) (bits : Warp → Nat → Bool) : State :=
  s.issueSimple f (fun c s => c.maskEffect d bits s)

/-- An instruction whose one effect is a k-register. -/
def State.execSca (s : State) (f : Form) (d : Nat) (val : Warp → DWord) : State :=
  s.issueSimple f (fun c s => c.scaEffect d val s)

/-- Forms by number of words (R14). -/
def bForm (price : Nat) (reads : List Nat := []) : Form := { len := 4, price := price, reads := reads }
def eForm (g price : Nat) (reads : List Nat := []) (keep : List Nat := []) : Form :=
  { len := 12, g := g, price := price, reads := reads, keep := keep }

/-- Bytes of an instruction whose operand B may be a literal (R14). -/
def lenB : SrcB → Nat
  | .lit _ => 20
  | _ => 12
def lenK : KSrc → Nat
  | .lit _ => 20
  | _ => 12

end Sys2Proof.Machine
end

