-- ==== Sys2Proof/Machine/Control.lean ====
section
/-!
DEFINITION. Machine/Control.lean: control transfer, convergence, traps, special registers and masks (spec/01 R30 to R32; spec/04 R98
to R115; spec/14 R403, R422, R427).
-/

namespace Sys2Proof.Machine

/-- An instruction as a step of the machine: none of these meanings stops. -/
def done (s : State) : Host.Outcome State Fault Refusal := .next s

/-- With the warp of a context of issue. -/
def State.withWarp (s : State) (wid : Nat) (f : Warp → State) : State :=
  match s.warp? wid with
  | none => s
  | some w => f w

/-- Whether a warp's waits may end: its block is resident, and it is neither suspended nor stopped (R294, R422, R444). -/
def State.awake (s : State) (w : Warp) : Bool :=
  w.susp.isNone && !w.stopped && (match s.block? w.blk with | some b => b.resident | none => true)

/-- Whether a warp's block is on its core. -/
def State.resides (s : State) (w : Warp) : Bool := match s.block? w.blk with | some b => b.resident | none => true

/-! ### Branches (R98 to R100, R27) -/

def execNop (s : State) : Host.Outcome State Fault Refusal :=
  done (s.issueSimple (bForm 2) fun c s => s.modWarp c.wid fun w => w.advance c.iss 4)

/-- The address of a word offset from here. -/
def relTarget (here : DWord) (off : DWord) : DWord := here + 4 * off

/-- Enabled lanes go to their targets, the others advance. A misaligned target of an enabled lane stops the instruction before any
write (R27, R99). `link` is the pair that takes the return address. -/
def Ctx.transfer (c : Ctx) (link : Option Nat) (target : Warp → Nat → DWord) (s : State) : State :=
  s.withWarp c.wid fun w =>
    match (lanesOf c.en).find? (fun l => (target w l).toNat % 4 != 0) with
    | some l => s.raise c { cls := .align, addr := target w l }
    | none =>
      s.modWarp c.wid fun v =>
        let v := v.setPc c.en (target w)
        let v := match link with
          | some d => v.setXn true d c.en (fun _ => c.next)
          | none => v
        v.advance (c.iss &&& ~~~c.en) c.len

def State.execTransfer (s : State) (f : Form) (link : Option Nat) (target : Ctx → Warp → Nat → DWord) : State :=
  s.issueSimple { f with jump := true, dst := match link with | some d => regPair true d | none => [] }
    fun c s => c.transfer link (target c) s

def execBra (off : BitVec 18) (s : State) : Host.Outcome State Fault Refusal :=
  done (s.execTransfer (bForm 2) none fun c _ _ => relTarget c.here (off.signExtend 64))

def execBraExt (g : Nat) (off : BitVec 32) (s : State) : Host.Outcome State Fault Refusal :=
  done (s.execTransfer (eForm g 2) none fun c _ _ => relTarget c.here (off.signExtend 64))

def execBrx (a : Nat) (s : State) : Host.Outcome State Fault Refusal :=
  done (s.execTransfer (bForm 2 (regPair true a)) none fun _ w l => w.xn true a l)

def execBrxExt (g : Nat) (a : SrcA) (s : State) : Host.Outcome State Fault Refusal :=
  done (s.execTransfer (eForm g 2 (srcARegs true a)) none fun _ w l => srcAVal true a w l)

def execRet (a : Nat) (s : State) : Host.Outcome State Fault Refusal :=
  done (s.execTransfer (bForm 2 (regPair true a)) none fun _ w l => w.xn true a l)

def execCall (off : BitVec 9) (d : Nat) (s : State) : Host.Outcome State Fault Refusal :=
  done (s.execTransfer (bForm 2) (some d) fun c _ _ => relTarget c.here (off.signExtend 64))

def execCallReg (a d : Nat) (s : State) : Host.Outcome State Fault Refusal :=
  done (s.execTransfer (bForm 2 (regPair true a)) (some d) fun _ w l => w.xn true a l)

def callToRegs : CallTo → List Nat
  | .rel _ => []
  | .reg a => srcARegs true a

def callTarget (t : CallTo) (c : Ctx) (w : Warp) (l : Nat) : DWord :=
  match t with
  | .rel off => relTarget c.here (off.signExtend 64)
  | .reg a => srcAVal true a w l

def execCallExt (g : Nat) (rt : Ret) (d : Nat) (tgt : CallTo) (s : State) : Host.Outcome State Fault Refusal :=
  done (s.execTransfer (eForm g 2 (callToRegs tgt) (keepOf rt (callToRegs tgt) [] [])) (some d) (callTarget tgt))

/-! ### Exit and convergence (R102 to R105, R257) -/

/-- The last lane's exit lets the warp retire (R102, R257); a service core has nothing to retire. -/
def State.retireSoon (s : State) (wid : Nat) : State :=
  s.withWarp wid fun w => if w.exited = 0xFFFFFFFF && !isService (coreOf wid) then s.soon [.event (.warpRetire wid)] else s

/-- The enabled lanes exit after their commit (R102). -/
def Ctx.exitLanes (c : Ctx) (s : State) : State :=
  ((s.modWarp c.wid fun w => { w with exited := w.exited ||| c.en, stage := none }).passOthers c).retireSoon c.wid

def State.execExitForm (s : State) (f : Form) : State :=
  s.issueSimple { f with yields := true } fun c s => s.commitPoint c noCheck fun s => c.exitLanes s

def execExit (s : State) : Host.Outcome State Fault Refusal := done (s.execExitForm (bForm 2))
def execExitExt (g : Nat) (s : State) : Host.Outcome State Fault Refusal := done (s.execExitForm (eForm g 2))

def execJoin (d : Nat) (s : State) : Host.Outcome State Fault Refusal := done (s.execMask (bForm 2) d fun _ _ => true)
def execJoinExt (g d : Nat) (s : State) : Host.Outcome State Fault Refusal := done (s.execMask (eForm g 2) d fun _ _ => true)
def execLeave (d : Nat) (s : State) : Host.Outcome State Fault Refusal := done (s.execMask (bForm 2) d fun _ _ => false)
def execLeaveExt (g d : Nat) (s : State) : Host.Outcome State Fault Refusal := done (s.execMask (eForm g 2) d fun _ _ => false)

/-- The enabled lanes wait here; the finish of the issue releases them where the condition holds (R104). -/
def State.execWaitForm (s : State) (f : Form) (a : Nat) : State :=
  s.issueSimple f fun c s => s.commitPoint c noCheck fun s => s.blockAll c (.mask a)

def execWait (a : Nat) (s : State) : Host.Outcome State Fault Refusal := done (s.execWaitForm (bForm 2) a)
def execWaitExt (g a : Nat) (s : State) : Host.Outcome State Fault Refusal := done (s.execWaitForm (eForm g 2) a)

def execYield (s : State) : Host.Outcome State Fault Refusal :=
  done (s.issueSimple { bForm 2 with yields := true } fun c s => s.commitPoint c noCheck fun s =>
    (s.leave c).modWarp c.wid fun w => { w with deferred := w.deferred ||| c.en, opbuf := [] })

/-! ### Traps, return from a trap, halt (R106 to R109) -/

def State.execTrapForm (s : State) (f : Form) (cls : TrapClass) (info : Nat) : State :=
  s.issueSimple f fun c s => s.commitPoint c noCheck fun s => s.trapBehind c { cls := cls, info := BitVec.ofNat 32 info }

def execTrap (code : Nat) (s : State) : Host.Outcome State Fault Refusal := done (s.execTrapForm (bForm 2) .user code)
def execTrapExt (g code : Nat) (s : State) : Host.Outcome State Fault Refusal := done (s.execTrapForm (eForm g 2) .user code)
def execBrk (tag : Nat) (s : State) : Host.Outcome State Fault Refusal := done (s.execTrapForm (bForm 2) .debug tag)

/-- The warp that a handler warp's block serves, while it is suspended on the record at an address (R108, R403). -/
def State.servedBy (s : State) (w : Warp) (rec : DWord) : Option Nat :=
  match s.block? w.blk with
  | none => none
  | some b =>
    match b.suspect with
    | none => none
    | some t =>
      match s.warp? t with
      | none => none
      | some v => match v.susp with
        | some p => if p.record = rec && p.started then some t else none
        | none => none

/-- RETURNING FROM A TRAP. After the commit the record is read, the warp it names is restarted or its context ends, and the handler
warp exits (R108, R400, R403). -/
def Ctx.resume (c : Ctx) (a : Nat) (s : State) : State :=
  s.withWarp c.wid fun w =>
    let rec_ := w.kr a
    if rec_.toNat % 64 ≠ 0 then s.raise4 c { cls := .align, addr := rec_ } else
    match s.servedBy w rec_ with
    | none => s.raise4 c { cls := .illegal }
    | some target =>
      match s.keysOf c.core w.ctx .read rec_ 448 with
      | .error m => s.raise4 c m
      | .ok ks => s.whenHome c c.paidUp (distinct (ks.map lineOf)) fun s =>
        match (s.homeRun c.core w.ctx rec_ ks).resumeFrom target (ks.map s.mem.byte) with
        | .inr t => s.raise4 c t
        | .inl s => (s.modWarp c.wid fun w => { w with exited := 0xFFFFFFFF, stage := none }).retireSoon c.wid

def execResume (a : Nat) (s : State) : Host.Outcome State Fault Refusal :=
  done (s.issueSimple { bForm 2 with level := .p } fun c s => s.commitPoint c noCheck fun s => c.resume a s)

def execHalt (s : State) : Host.Outcome State Fault Refusal :=
  done (s.issueSimple { bForm 2 with level := .s } fun c s => s.commitPoint c noCheck fun s =>
    if s.ap! (offDoor (svcOf c.core)) = 0 then s.blockAll c .halt else s.leave c)

/-! ### Special registers (R31, R32) -/

/-- Numbers that R31 assigns. -/
def srAssigned (n : Nat) : Bool :=
  n ≤ 0x008 || (0x010 ≤ n && n ≤ 0x013) || n == 0x018 || (0x020 ≤ n && n ≤ 0x024) || n == 0x100 || n == 0x101 || n == 0x180

/-- Registers that hold a value for each lane. -/
def srPerLane (n : Nat) : Bool := n == 0x000 || n == 0x021 || n == 0x022

/-- The level that names a number: user, privileged, or service cores only. -/
def srLevel (n : Nat) : Level := if n < 0x100 then .u else if n = 0x180 then .s else .p

/-- A place that a service core has no number for (log entry 27). -/
def State.noPlace (s : State) (n : Nat) : DWord := Config.freeWord s.own.freeCount (0x300 + n) &&& 0xFFFFFFFF

/-- The value of a special register, by lane (R31; on a service core: log entries 27, 113 and 114). -/
def State.srVal (s : State) (wid : Nat) (w : Warp) (n l : Nat) : DWord :=
  let c := coreOf wid
  match n with
  | 0x000 => BitVec.ofNat 64 l
  | 0x001 => BitVec.ofNat 64 w.widx
  | 0x002 => match s.block? w.blk with | some b => b.index.setWidth 64 | none => 0
  | 0x003 => if isService c then s.noPlace 3 else BitVec.ofNat 64 (coreInDie c)
  | 0x004 => if isService c then s.noPlace 4 else BitVec.ofNat 64 (yardOfCore c)
  | 0x005 => if c = 196 then s.noPlace 5 else BitVec.ofNat 64 (dieOfCore c)
  | 0x006 => BitVec.ofNat 64 s.devId
  | 0x007 => s.clk wid
  | 0x008 => BitVec.ofNat 64 w.ctx
  | 0x010 => (levelWord (s.core c).level).setWidth 64
  | 0x011 => (s.die (dieOfCore c)).charge.setWidth 64
  | 0x012 => (s.die (dieOfCore c)).vbank.setWidth 64
  | 0x013 => (s.core c).replays.setWidth 64
  | 0x018 => ((s.core c).tagmap w.ctx).done
  | 0x020 => w.rlimit.setWidth 64
  | 0x021 => w.revOf l
  | 0x022 => (w.seqOf l).setWidth 64
  | 0x023 => w.rcount.setWidth 64
  | 0x024 => w.tcmp
  | 0x100 => w.frec
  | 0x101 => w.tclass.setWidth 64
  | 0x180 => BitVec.ofNat 64 (svcOf c)
  | _ => 0

/-- A read of %tagmap observes every tag (R273). -/
def State.observeBy (s : State) (wid sr : Nat) : State := if sr = 0x018 then s.observe wid (-1) else s

def execGsr (sr d : Nat) (s : State) : Host.Outcome State Fault Refusal :=
  done (s.issue { bForm 2 with dst := regPair (sr64 sr) d, level := srLevel sr } (fun _ _ => srAssigned sr) (fun _ _ => 0)
    fun c s => (c.vecEffect (sr64 sr) d (fun w l => s.srVal c.wid w sr l) s).observeBy c.wid sr)

def execGsrK (sr d : Nat) (s : State) : Host.Outcome State Fault Refusal :=
  done (s.issue { bForm 2 with level := srLevel sr } (fun _ _ => srAssigned sr && !srPerLane sr) (fun _ _ => 0)
    fun c s => (c.scaEffect d (fun w => s.srVal c.wid w sr 0) s).observeBy c.wid sr)

/-- Only %rlimit, from 1 to 255, and %tcmp are written (R31, R32). -/
def ssrLegal (a sr : Nat) (c : Ctx) (s : State) : Bool :=
  match s.warp? c.wid with
  | none => true
  | some w => (sr == 0x020 && 1 ≤ (w.kr a).toNat && (w.kr a).toNat ≤ 255) || sr == 0x024

def execSsr (a sr : Nat) (s : State) : Host.Outcome State Fault Refusal :=
  done (s.issue { bForm 2 with level := srLevel sr } (ssrLegal a sr) (fun _ _ => 0) fun c s => s.modWarp c.wid fun w =>
    let w := w.advance c.iss c.len
    if sr = 0x020 then { w with rlimit := (w.kr a).setWidth 32 } else { w with tcmp := w.kr a })

/-! ### Masks (R112 to R115) -/

def execMset (g d : Nat) (b : KSrc) (s : State) : Host.Outcome State Fault Refusal :=
  done (s.execMask { eForm g 2 with len := lenK b } d fun w l => (kSrcVal b w).getLsbD l)

def execMmov (a d : Nat) (s : State) : Host.Outcome State Fault Refusal :=
  done (s.execMask (bForm 2) d fun w l => laneIn (w.mr a) l)
def execMand (a d : Nat) (s : State) : Host.Outcome State Fault Refusal :=
  done (s.execMask (bForm 2) d fun w l => laneIn (w.mr d &&& w.mr a) l)
def execMandExt (g d a b : Nat) (s : State) : Host.Outcome State Fault Refusal :=
  done (s.execMask (eForm g 2) d fun w l => laneIn (w.mr a &&& w.mr b) l)
def execMor (a d : Nat) (s : State) : Host.Outcome State Fault Refusal :=
  done (s.execMask (bForm 2) d fun w l => laneIn (w.mr d ||| w.mr a) l)
def execMorExt (g d a b : Nat) (s : State) : Host.Outcome State Fault Refusal :=
  done (s.execMask (eForm g 2) d fun w l => laneIn (w.mr a ||| w.mr b) l)
def execMxor (a d : Nat) (s : State) : Host.Outcome State Fault Refusal :=
  done (s.execMask (bForm 2) d fun w l => laneIn (w.mr d ^^^ w.mr a) l)
def execMxorExt (g d a b : Nat) (s : State) : Host.Outcome State Fault Refusal :=
  done (s.execMask (eForm g 2) d fun w l => laneIn (w.mr a ^^^ w.mr b) l)
def execMnot (a d : Nat) (s : State) : Host.Outcome State Fault Refusal :=
  done (s.execMask (bForm 2) d fun w l => laneIn (~~~w.mr a) l)

def execMpop (a d : Nat) (s : State) : Host.Outcome State Fault Refusal :=
  done (s.execSca (bForm 2) d fun w => (Integer.popc (w.mr a)).setWidth 64)

/-- Lowest or highest lane of a mask, 32 for none (R114). -/
def mfindVal (hi : Bool) (m : Word) : DWord :=
  if m = 0 then 32 else if hi then BitVec.ofNat 64 (Nat.log2 m.toNat) else BitVec.ofNat 64 (Integer.lowBit 32 m.toNat)

def execMfindLo (a d : Nat) (s : State) : Host.Outcome State Fault Refusal :=
  done (s.execSca (bForm 2) d fun w => mfindVal false (w.mr a))
def execMfindHi (a d : Nat) (s : State) : Host.Outcome State Fault Refusal :=
  done (s.execSca (bForm 2) d fun w => mfindVal true (w.mr a))
def execMfindExt (g : Nat) (hi : Bool) (d a : Nat) (s : State) : Host.Outcome State Fault Refusal :=
  done (s.execSca (eForm g 2) d fun w => mfindVal hi (w.mr a))

def State.execPcgetForm (s : State) (f : Form) (d : Nat) : State :=
  s.issueSimple { f with dst := regPair true d } fun c s => c.vecEffect true d (fun _ _ => c.here) s
def execPcget (d : Nat) (s : State) : Host.Outcome State Fault Refusal := done (s.execPcgetForm (bForm 2) d)
def execPcgetExt (g d : Nat) (s : State) : Host.Outcome State Fault Refusal := done (s.execPcgetForm (eForm g 2) d)

end Sys2Proof.Machine
end

