-- ==== Sys2Proof/Machine/Fpu.lean ====
section
/-!
DEFINITION. Machine/Fpu.lean: floating-point vector instructions (spec/05 R132 to R147), each the function of Machine/Float.lean or
Machine/Approx.lean on the 32-bit patterns of its form.
-/

namespace Sys2Proof.Machine

/-- The 16-bit types, which reduced service lacks (R441). -/
def half (t : FTy) : Bool := t != .f32

/-- Classes of R136 and R367. -/
def fpPrice (_ : FTy) : Nat := 8
def xfPrice (_ : FTy) : Nat := 16

/-- A base form with one source (R18). -/
def State.fpB1 (s : State) (price : Nat) (t : FTy) (f : Word → Word) (a d : Nat) : State :=
  s.execVec { bForm price [a] with full := half t } false d fun w l => (f (w.xr a l)).setWidth 64

/-- A base form with two sources: D and A. -/
def State.fpB2 (s : State) (price : Nat) (t : FTy) (f : Word → Word → Word) (a d : Nat) : State :=
  s.execVec { bForm price [d, a] with full := half t } false d fun w l => (f (w.xr d l) (w.xr a l)).setWidth 64

/-- 32-bit operands of the extended forms (R22, R23, R132). -/
def fpA (a : SrcA) (w : Warp) (l : Nat) : Word := (srcAVal false a w l).setWidth 32
def fpBv (b : SrcB) (w : Warp) (l : Nat) : Word := (srcBVal false b w l).setWidth 32

def fp1Form (price : Nat) (e : Fp1) : Form :=
  let ra := srcARegs false e.a
  { eForm e.g price ra (keepOf e.rt ra [] []) with full := half e.ty }
def State.fpE1 (s : State) (price : Nat) (f : Word → Word) (e : Fp1) : State :=
  s.execVec (fp1Form price e) false e.d fun w l => (f (fpA e.a w l)).setWidth 64

def fp2Form (price : Nat) (e : Fp2) : Form :=
  let ra := srcARegs false e.a
  let rb := srcBRegs false e.b
  { eForm e.g price (ra ++ rb) (keepOf e.rt ra rb []) with len := lenB e.b, full := half e.ty }
def State.fpE2 (s : State) (price : Nat) (f : Word → Word → Word) (e : Fp2) : State :=
  s.execVec (fp2Form price e) false e.d fun w l => (f (fpA e.a w l) (fpBv e.b w l)).setWidth 64

def fp3Form (price : Nat) (e : Fp3) : Form :=
  let ra := srcARegs false e.a
  let rb := srcBRegs false e.b
  { eForm e.g price (ra ++ rb ++ [e.c]) (keepOf e.rt ra rb [e.c]) with len := lenB e.b, full := half e.ty }
def State.fpE3 (s : State) (price : Nat) (f : Word → Word → Word → Word) (e : Fp3) : State :=
  s.execVec (fp3Form price e) false e.d fun w l => (f (fpA e.a w l) (fpBv e.b w l) (w.xr e.c l)).setWidth 64

/-! ### Arithmetic (R138 to R142) -/

def execFadd (t : FTy) (a d : Nat) (s : State) : Host.Outcome State Fault Refusal := done (s.fpB2 (fpPrice t) t (Fp.fadd .rne t) a d)
def execFaddExt (rm : Rm) (e : Fp2) (s : State) : Host.Outcome State Fault Refusal := done (s.fpE2 (fpPrice e.ty) (Fp.fadd rm e.ty) e)
def execFsub (t : FTy) (a d : Nat) (s : State) : Host.Outcome State Fault Refusal := done (s.fpB2 (fpPrice t) t (Fp.fsub .rne t) a d)
def execFsubExt (rm : Rm) (e : Fp2) (s : State) : Host.Outcome State Fault Refusal := done (s.fpE2 (fpPrice e.ty) (Fp.fsub rm e.ty) e)
def execFmul (t : FTy) (a d : Nat) (s : State) : Host.Outcome State Fault Refusal := done (s.fpB2 (fpPrice t) t (Fp.fmul .rne t) a d)
def execFmulExt (rm : Rm) (e : Fp2) (s : State) : Host.Outcome State Fault Refusal := done (s.fpE2 (fpPrice e.ty) (Fp.fmul rm e.ty) e)
def execFfma (rm : Rm) (e : Fp3) (s : State) : Host.Outcome State Fault Refusal := done (s.fpE3 12 (Fp.ffma rm e.ty) e)
def execFmin (t : FTy) (a d : Nat) (s : State) : Host.Outcome State Fault Refusal := done (s.fpB2 (fpPrice t) t (Fp.fmin t) a d)
def execFminExt (e : Fp2) (s : State) : Host.Outcome State Fault Refusal := done (s.fpE2 (fpPrice e.ty) (Fp.fmin e.ty) e)
def execFmax (t : FTy) (a d : Nat) (s : State) : Host.Outcome State Fault Refusal := done (s.fpB2 (fpPrice t) t (Fp.fmax t) a d)
def execFmaxExt (e : Fp2) (s : State) : Host.Outcome State Fault Refusal := done (s.fpE2 (fpPrice e.ty) (Fp.fmax e.ty) e)
def execFabs (t : FTy) (a d : Nat) (s : State) : Host.Outcome State Fault Refusal := done (s.fpB1 (fpPrice t) t (Fp.fabs t) a d)
def execFabsExt (e : Fp1) (s : State) : Host.Outcome State Fault Refusal := done (s.fpE1 (fpPrice e.ty) (Fp.fabs e.ty) e)
def execFneg (t : FTy) (a d : Nat) (s : State) : Host.Outcome State Fault Refusal := done (s.fpB1 (fpPrice t) t (Fp.fneg t) a d)
def execFnegExt (e : Fp1) (s : State) : Host.Outcome State Fault Refusal := done (s.fpE1 (fpPrice e.ty) (Fp.fneg e.ty) e)

def execFcmp (fc : Fc) (e : Fp2) (s : State) : Host.Outcome State Fault Refusal :=
  done (s.execMask (fp2Form (fpPrice e.ty) e) e.d fun w l => Fp.fcmp fc e.ty (fpA e.a w l) (fpBv e.b w l))

def execFdot2 (rm : Rm) (e : Fp3) (s : State) : Host.Outcome State Fault Refusal :=
  done (s.fpE3 14 (Fp.fdot2 rm e.ty) e)

/-! ### Roots and transcendental functions (R143, R144) -/

def execFsqrt (t : FTy) (a d : Nat) (s : State) : Host.Outcome State Fault Refusal := done (s.fpB1 (xfPrice t) t (Approx.fsqrt .rne t) a d)
def execFsqrtExt (rm : Rm) (e : Fp1) (s : State) : Host.Outcome State Fault Refusal := done (s.fpE1 (xfPrice e.ty) (Approx.fsqrt rm e.ty) e)
def execFrcp (t : FTy) (a d : Nat) (s : State) : Host.Outcome State Fault Refusal := done (s.fpB1 (xfPrice t) t (Approx.approx .frcp t) a d)
def execFrcpExt (e : Fp1) (s : State) : Host.Outcome State Fault Refusal := done (s.fpE1 (xfPrice e.ty) (Approx.approx .frcp e.ty) e)
def execFrsq (t : FTy) (a d : Nat) (s : State) : Host.Outcome State Fault Refusal := done (s.fpB1 (xfPrice t) t (Approx.approx .frsq t) a d)
def execFrsqExt (e : Fp1) (s : State) : Host.Outcome State Fault Refusal := done (s.fpE1 (xfPrice e.ty) (Approx.approx .frsq e.ty) e)
def execFexp2 (t : FTy) (a d : Nat) (s : State) : Host.Outcome State Fault Refusal := done (s.fpB1 (xfPrice t) t (Approx.approx .fexp2 t) a d)
def execFexp2Ext (e : Fp1) (s : State) : Host.Outcome State Fault Refusal := done (s.fpE1 (xfPrice e.ty) (Approx.approx .fexp2 e.ty) e)
def execFlog2 (t : FTy) (a d : Nat) (s : State) : Host.Outcome State Fault Refusal := done (s.fpB1 (xfPrice t) t (Approx.approx .flog2 t) a d)
def execFlog2Ext (e : Fp1) (s : State) : Host.Outcome State Fault Refusal := done (s.fpE1 (xfPrice e.ty) (Approx.approx .flog2 e.ty) e)
def execFsin (t : FTy) (a d : Nat) (s : State) : Host.Outcome State Fault Refusal := done (s.fpB1 (xfPrice t) t (Approx.approx .fsin t) a d)
def execFsinExt (e : Fp1) (s : State) : Host.Outcome State Fault Refusal := done (s.fpE1 (xfPrice e.ty) (Approx.approx .fsin e.ty) e)
def execFcos (t : FTy) (a d : Nat) (s : State) : Host.Outcome State Fault Refusal := done (s.fpB1 (xfPrice t) t (Approx.approx .fcos t) a d)
def execFcosExt (e : Fp1) (s : State) : Host.Outcome State Fault Refusal := done (s.fpE1 (xfPrice e.ty) (Approx.approx .fcos e.ty) e)
def execFtanh (t : FTy) (a d : Nat) (s : State) : Host.Outcome State Fault Refusal := done (s.fpB1 (xfPrice t) t (Approx.approx .ftanh t) a d)
def execFtanhExt (e : Fp1) (s : State) : Host.Outcome State Fault Refusal := done (s.fpE1 (xfPrice e.ty) (Approx.approx .ftanh e.ty) e)

/-! ### Integral values, scaling and classification (R145 to R147) -/

def execFfloor (t : FTy) (a d : Nat) (s : State) : Host.Outcome State Fault Refusal := done (s.fpB1 (fpPrice t) t (Fp.fround .rd t) a d)
def execFfloorExt (e : Fp1) (s : State) : Host.Outcome State Fault Refusal := done (s.fpE1 (fpPrice e.ty) (Fp.fround .rd e.ty) e)
def execFceil (t : FTy) (a d : Nat) (s : State) : Host.Outcome State Fault Refusal := done (s.fpB1 (fpPrice t) t (Fp.fround .ru t) a d)
def execFceilExt (e : Fp1) (s : State) : Host.Outcome State Fault Refusal := done (s.fpE1 (fpPrice e.ty) (Fp.fround .ru e.ty) e)
def execFrint (t : FTy) (a d : Nat) (s : State) : Host.Outcome State Fault Refusal := done (s.fpB1 (fpPrice t) t (Fp.fround .rne t) a d)
def execFrintExt (e : Fp1) (s : State) : Host.Outcome State Fault Refusal := done (s.fpE1 (fpPrice e.ty) (Fp.fround .rne e.ty) e)
def execFscale (t : FTy) (a d : Nat) (s : State) : Host.Outcome State Fault Refusal := done (s.fpB2 (fpPrice t) t (Fp.fscale .rne t) a d)
def execFscaleExt (rm : Rm) (e : Fp2) (s : State) : Host.Outcome State Fault Refusal := done (s.fpE2 (fpPrice e.ty) (Fp.fscale rm e.ty) e)
def execFclass (t : FTy) (a d : Nat) (s : State) : Host.Outcome State Fault Refusal := done (s.fpB1 (fpPrice t) t (Fp.fclass t) a d)
def execFclassExt (e : Fp1) (s : State) : Host.Outcome State Fault Refusal := done (s.fpE1 (fpPrice e.ty) (Fp.fclass e.ty) e)

end Sys2Proof.Machine
end

