-- ==== Sys2Proof/Machine/Access.lean ====
section
/-!
DEFINITION. Machine/Access.lean: the checks, bytes and marks of core-path accesses (spec/06 R161 to R167; spec/10 R278 to R283, R295
to R297; spec/13 R368).
-/

namespace Sys2Proof.Machine

/-! ### Addresses and their checks (R40, R162) -/

/-- ea[l] of the indexed forms (R40, R161). -/
def memEa (sp : Spc) (e : Sys2Proof.Mem) (w : Warp) (l : Nat) : DWord :=
  eaOf sp (srcAVal true e.a w l) (match e.idx with | some n => (w.xr n l).setWidth 64 | none => 0) e.off

/-- Registers an indexed address reads. -/
def memRegs (e : Sys2Proof.Mem) : List Nat := srcARegs true e.a ++ (match e.idx with | some n => [n] | none => [])
def memKeep (e : Sys2Proof.Mem) (c : List Nat) : List Nat :=
  keepOf e.rt (srcARegs true e.a) (match e.idx with | some n => [n] | none => []) c

/-- A lane and where its access goes: a scratchpad offset or a home key. -/
abbrev Spot := Nat × Nat

/-- The cause code of an access outside the scratchpad, which R305 does not give (log entry 28). -/
def State.boundsCause (s : State) : Nat := (Config.freeWord s.own.freeCount 0x305).toNat % 256

/-- The error that an access of n bytes from a key consumes (R407): a read past the L1, an atomic, the old bytes that a write merges into,
the write-back of a dirty line. -/
def State.consumes (s : State) (core : Nat) (a : Acc) (key n : Nat) (va : DWord) : Option Trap :=
  if s.mem.upset.isEmpty then none else
  match a with
  | .read => if s.l1Keeps core (lineOf key) then none else s.upsetTrap key n va
  | .both | .merge => s.upsetTrap key n va
  | .put => if key % 8 = 0 && n % 8 = 0 then none else s.upsetTrap key n va
  | .flush => if (Tab.look s.mem.dirty (lineOf key)).isSome then s.upsetTrap (key / 128 * 128) 128 va else none
  | .write | .fetch | .data | .inval => none

/-- The checks of R162 in order over a set of lanes: alignment, scratchpad bounds, translation and permission; then what it would
consume (R407). -/
def State.reach (s : State) (wid : Nat) (lanes : Word) (a : Acc) (sp : Spc) (n align : Nat) (ea : Warp → Nat → DWord) :
    Except Trap (List Spot) :=
  match s.warp? wid with
  | none => .ok []
  | some w =>
    let ls := lanesOf lanes
    match ls.find? (fun l => (ea w l).toNat % align != 0) with
    | some l => .error { cls := .align, addr := ea w l }
    | none =>
      match sp with
      | .s =>
        let size := s.spadSize w.blk
        (match ls.find? (fun l => decide (size < (ea w l).toNat + n)) with
        | some l => .error { cls := .prot, cause := s.boundsCause, addr := ea w l }
        | none => .ok (ls.map fun l => (l, (ea w l).toNat)))
      | .g =>
        tryAll (fun l => match (s.asAccess l).place (coreOf wid) w.ctx w.priv a (ea w l) with
          | .error m => .error m
          | .ok key => match s.consumes (coreOf wid) a key n (ea w l) with
            | some t => .error t
            | none => .ok (l, key)) ls

/-- A warp notes from which virtual addresses it holds stores and reductions, by line (R400). -/
def Warp.heldFrom (w : Warp) (spots : List Spot) (ea : Warp → Nat → DWord) : Warp :=
  { w with heldAt := spots.foldl (fun t p => Tab.upd t (lineOf p.2) (ea w p.1)) w.heldAt }

/-- Distinct 128-byte lines that the lanes' addresses name, for the step draws of R170. -/
def linesNamed (lanes : Word) (ea : Nat → DWord) : List Nat := distinct ((lanesOf lanes).map fun l => (ea l).toNat / 128)

/-- Core steps of one price per line named (R170, R368). -/
def lineSteps (price : Nat) (ea : Warp → Nat → DWord) (c : Ctx) (s : State) : Nat :=
  match s.warp? c.wid with
  | none => 0
  | some w => price * (linesNamed c.en (ea w)).length

/-! ### Bytes -/

/-- A byte as a load of a core reads it, before forwarding. -/
def State.loadByte (s : State) (core blk : Nat) (sp : Spc) (key : Nat) : Byte :=
  match sp with
  | .s => s.spadByte blk key
  | .g => if isAp key then s.apByte (key - keyAp 0) else if isSram key then s.mem.byte key else s.readL1 core key

/-- A number as a load of a warp's lane reads it, with the bytes the warp holds in place (R166). -/
def State.loadNum (s : State) (core : Nat) (w : Warp) (sp : Spc) (key n : Nat) : Nat :=
  leNat ((List.range n).map fun i => w.forward sp (key + i) (s.loadByte core w.blk sp (key + i)))

/-- A number at its home, as atomics, `ldv` and the waits read it. -/
def State.homeRead (s : State) (blk : Nat) (sp : Spc) (key n : Nat) : Nat :=
  leNat ((List.range n).map fun i => match sp with
    | .s => s.spadByte blk (key + i)
    | .g => if isAp key then s.apByte (key + i - keyAp 0) else s.mem.byte (key + i))

/-- What a load on the core path leaves in caches, buckets and detectors: L1 copies of the lines, and home traffic for the lines the
L1 did not hold. -/
def State.loaded (s : State) (core owner : Nat) (sp : Spc) (spots : List Spot) : State :=
  match sp with
  | .s => s.inject [6] 0 owner
  | .g =>
    let lines := distinct (spots.map fun p => lineOf p.2)
    lines.foldl (fun s line =>
      if isSram (line * 128) || isAp (line * 128) then s else
      let hit := (Tab.look (s.core core).l1 line).isSome && Config.keeps s.own.freeCount (2 * line + 1)
      let s := if hit then s else s.homeLine core line
      if isService core then s else (s.fillL1 core line).inject [4] (logLine line) (s.mem.ownerOf line)) s

/-- The TLBs take the translations used (R307), whose check may report (R421). -/
def State.tlbUsed (s : State) (wid ctx : Nat) (lanes : Word) (ea : Nat → DWord) : State :=
  let pages := distinct ((lanesOf lanes).map fun l => (ea l).toNat / 65536)
  (pages.foldl (fun s p => s.fillTlb (coreOf wid) ctx (BitVec.ofNat 64 (p * 65536))) s).inject [9] 0 ctx

/-- What a global access of a warp leaves in TLBs; scratchpad uses none. -/
def State.used (s : State) (c : Ctx) (sp : Spc) (ea : Warp → Nat → DWord) : State :=
  match sp with
  | .s => s
  | .g => s.withWarp c.wid fun w => s.tlbUsed c.wid w.ctx c.en (ea w)

/-! ### Race detection (R295 to R297) -/

/-- The words of a line that n bytes from a key touch. -/
def wordsOf (key n : Nat) : Word :=
  maskOf fun j => key % 128 / 4 ≤ j && j ≤ (key % 128 + n - 1) / 4

/-- Whether a warp's context detects races: RACEDET of its launch record. -/
def State.racing (s : State) (w : Warp) : Bool := Rec.racedet (s.recOf w)

/-- Bits 15:0 of the region sequence number of a lane (R295). -/
def Warp.markSeq (w : Warp) (lane : Nat) : Nat := (w.seqOf lane).toNat % 2 ^ 16

/-- The words of an access that a check is made for: a load sends one for words that its region has not marked (R296). -/
def State.checked (s : State) (w : Warp) (wid lane key n : Nat) (write : Bool) : Word :=
  if write then wordsOf key n else
  (Tab.get s.mem.marks [] (lineOf key)).foldl (fun m k =>
    if k.wid = wid && k.seq = w.markSeq lane && laneIn k.lane lane then m &&& ~~~k.words else m) (wordsOf key n)

/-- A slot of the same context held by another warp, with a common word and at least one write (R296). -/
def State.conflict (s : State) (w : Warp) (wid lane key n : Nat) (write : Bool) : Option Mark :=
  (Tab.get s.mem.marks [] (lineOf key)).find? fun k =>
    k.ctx == w.ctx && k.wid != wid && (k.words &&& s.checked w wid lane key n write) != 0 && (k.write || write)

/-- The RACE trap of the first conflicting lane: the line, and the other region's WID and SEQ (R296, R400). -/
def State.raceTrap (s : State) (wid : Nat) (sp : Spc) (spots : List Spot) (n : Nat) (write : Bool) (ea : Warp → Nat → DWord) :
    Option Trap :=
  match sp, s.warp? wid with
  | .g, some w =>
    if !s.racing w then none else
    spots.findSome? fun p => match s.conflict w wid p.1 p.2 n write with
      | none => none
      | some k => some { cls := .race, addr := ea w p.1,
                         aux := BitVec.ofNat 64 (widField k.wid + k.seq * 2 ^ 16) }
  | _, _ => none

/-- Adds a lane's words to its region's slot of a line, or takes a free slot of the four (R295, R297). -/
def addMark (ks : List Mark) (m : Mark) : List Mark :=
  if ks.any (fun k => k.wid == m.wid && k.seq == m.seq) then
    modFirst (fun k => k.wid == m.wid && k.seq == m.seq)
      (fun k => { k with write := k.write || m.write, words := k.words ||| m.words, lane := k.lane ||| m.lane }) ks
  else if ks.length < 4 then ks ++ [m] else ks

/-- Marks of an access of a region that detects races (R296). -/
def State.mark (s : State) (wid : Nat) (sp : Spc) (spots : List Spot) (n : Nat) (write : Bool) : State :=
  match sp, s.warp? wid with
  | .g, some w =>
    if !s.racing w then s else
    spots.foldl (fun s p =>
      if isAp p.2 || isSram p.2 then s else
      let m : Mark := { ctx := w.ctx, wid := wid, seq := w.markSeq p.1, write := write, words := wordsOf p.2 n, lane := laneBit p.1 }
      s.modMem fun x => { x with marks := Tab.upd x.marks (lineOf p.2) (addMark (Tab.get x.marks [] (lineOf p.2)) m) }) s
  | _, _ => s

/-- The part of an access between its checks and its effect: a race traps, a leased line is recalled. -/
def State.cleared (s : State) (c : Ctx) (sp : Spc) (spots : List Spot) (n : Nat) (write : Bool) (ea : Warp → Nat → DWord)
    (go : State → State) : State :=
  match s.raceTrap c.wid sp spots n write ea with
  | some t => s.raise c t
  | none => s.whenHome c c.waiting (match sp with | .s => [] | .g => distinct (spots.map fun p => lineOf p.2)) go

/-- Every scope wider than .bk acts as .bk on a scratchpad access (R165). -/
def scopeAt (sp : Spc) (acq : Option Scope) : Option Scope :=
  match sp with
  | .g => acq
  | .s => acq.map fun sc => if sc = .wp then .wp else .bk

/-- Acquire part of an access: the self-invalidation of its scope once it completes (R164, R279). -/
def State.acquireBy (s : State) (core : Nat) (acq : Option Scope) : State :=
  match acq with
  | some sc => s.acquire core sc
  | none => s

end Sys2Proof.Machine
end

