-- ==== Sys2Proof/Machine/LoadStore.lean ====
section
/-!
DEFINITION. Machine/LoadStore.lean: loads, stores, versions and cache control (spec/04 R130; spec/06 R171 to R176).
-/

namespace Sys2Proof.Machine

/-! ### Loads (R171) -/

def memBytes : MemW → Nat
  | .i8 | .ui8 | .e2m1 => 1
  | .w16 => 2
  | .w32 => 4
  | .w64 => 8

/-- The register value of the bytes loaded (R171). -/
def loadValue (t : MemW) (v : Nat) : DWord :=
  match t with
  | .i8 => (((BitVec.ofNat 8 v).signExtend 32).setWidth 64)
  | _ => BitVec.ofNat 64 v

/-- The lane's entry in a list by lane. -/
def atLane {α : Type} (d : α) (vs : List (Nat × α)) (l : Nat) : α :=
  match vs.find? (fun p => p.1 == l) with
  | some p => p.2
  | none => d

/-- Marks a register's load as outstanding in the lanes of a set (R26, R423). -/
def Warp.loading (w : Warp) (regs : List Nat) (en : Word) : Warp :=
  { w with loads := regs.foldl (fun t n => Tab.put 0 t n (Tab.get t 0 n ||| en)) w.loads }

/-- A load of every enabled lane: the checks, the bytes with the warp's own in place, and the registers (R162, R166, R171). -/
def Ctx.load (c : Ctx) (t : MemW) (sp : Spc) (acq : Option Scope) (d : Nat) (ea : Warp → Nat → DWord) (s : State) : State :=
  s.withWarp c.wid fun w =>
    let n := memBytes t
    match s.reach c.wid c.en .read sp n n ea with
    | .error m => s.raise c m
    | .ok spots => s.cleared c sp spots n false ea fun s =>
      let vs := spots.map fun p => (p.1, loadValue t (s.loadNum c.core w sp p.2 n))
      let s := ((s.used c sp ea).loaded c.core w.ctx sp spots).mark c.wid sp spots n false
      let s := s.modWarp c.wid fun w =>
        ((w.setXn t.wide d c.en (atLane 0 vs)).loading (regPair t.wide d) c.en).advance c.iss c.len
      s.acquireBy c.core (scopeAt sp acq)

def State.execLoadForm (s : State) (f : Form) (t : MemW) (sp : Spc) (acq : Option Scope) (d : Nat) (ea : Warp → Nat → DWord) : State :=
  s.issue { f with dst := regPair t.wide d } (fun _ _ => true) (lineSteps 6 ea) fun c s => c.load t sp acq d ea s

def execLd (t : MemW) (sp : Spc) (a d : Nat) (s : State) : Host.Outcome State Fault Refusal :=
  done (s.execLoadForm (bForm 4 (regPair true a)) t sp none d fun w l => eaOf sp (w.xn true a l) 0 0)

def execLdExt (t : MemW) (sp : Spc) (acq : Option Scope) (d : Nat) (e : Sys2Proof.Mem) (s : State) : Host.Outcome State Fault Refusal :=
  done (s.execLoadForm (eForm e.g 4 (memRegs e) (memKeep e [])) t sp acq d (memEa sp e))

/-! ### kld (R130) -/

/-- The address of `kld`: in scratchpad bits 31:0 of the sum (R130). -/
def kldEa (sp : Spc) (a : Nat) (idx : Option Nat) (off : Word) (w : Warp) (_ : Nat) : DWord :=
  let ea := eaOf .g (w.kr a) (match idx with | some n => w.kr n | none => 0) off
  match sp with
  | .g => ea
  | .s => (ea.setWidth 32).setWidth 64

/-- One lane stands for the warp in a warp-uniform access (R25). -/
def Ctx.uniform (c : Ctx) : Ctx := { c with en := laneBit ((lanesOf c.en).headD 0) }

/-- The load of eight bytes into a k-register, once (R130). -/
def Ctx.loadK (c : Ctx) (sp : Spc) (d : Nat) (ea : Warp → Nat → DWord) (s : State) : State :=
  s.withWarp c.wid fun w =>
    match s.reach c.wid c.uniform.en .read sp 8 8 ea with
    | .error m => s.raise c m
    | .ok spots => s.cleared c sp spots 8 false ea fun s =>
      let v := spots.map fun p => (p.1, BitVec.ofNat 64 (s.loadNum c.core w sp p.2 8))
      let s := ((s.used c.uniform sp ea).loaded c.core w.ctx sp spots).mark c.wid sp spots 8 false
      c.scaEffect d (fun _ => (v.map (·.2)).headD 0) s

def execKld (g : Nat) (sp : Spc) (d a : Nat) (idx : Option Nat) (off : BitVec 32) (s : State) : Host.Outcome State Fault Refusal :=
  done (s.issue (eForm g 3) (fun _ _ => true) (fun c s => lineSteps 6 (kldEa sp a idx off) c.uniform s)
    fun c s => c.loadK sp d (kldEa sp a idx off) s)

/-! ### Stores (R172) -/

/-- ea[l] of a store: .e2m1 addresses by element (R172). -/
def storeEa (t : MemW) (sp : Spc) (e : Sys2Proof.Mem) (w : Warp) (l : Nat) : DWord :=
  match t, e.idx with
  | .e2m1, some n => eaOf sp (srcAVal true e.a w l) (((w.xr n l) >>> 1).setWidth 64) e.off
  | _, _ => memEa sp e w l

/-- The nibble of an .e2m1 store (R172). -/
def storeHigh (t : MemW) (e : Sys2Proof.Mem) (w : Warp) (l : Nat) : Bool :=
  match t, e.idx with
  | .e2m1, some n => (w.xr n l).getLsbD 0
  | _, _ => false

/-- The bytes a lane stores, with their nibble masks. -/
def storeBytes (t : MemW) (high : Bool) (v : DWord) : List (Byte × Nat) :=
  match t with
  | .e2m1 => [(if high then BitVec.ofNat 8 (v.toNat % 16 * 16) else BitVec.ofNat 8 (v.toNat % 16), if high then 2 else 1)]
  | _ => (List.range (memBytes t)).map fun i => (BitVec.ofNat 8 (v.toNat / 256 ^ i), 3)

/-- A lane's bytes as one number, and their nibble masks as another. -/
def storeNum (bs : List (Byte × Nat)) : Nat := leNat (bs.map (·.1))
def storeNibs (bs : List (Byte × Nat)) : Nat := bs.foldr (fun b t => b.2 + 4 * t) 0

/-- Puts lanes' bytes into the region store buffer, lanes ascending (R163, R166, R428). -/
def Warp.holdAll (w : Warp) (sp : Spc) (spots : List Spot) (bytes : Nat → List (Byte × Nat)) : Warp :=
  spots.foldl (fun w p =>
    if sp = .g ∧ isAp p.2 then w.holdAp p.2 p.1 (bytes p.1).length (storeNum (bytes p.1)) (storeNibs (bytes p.1))
    else ((bytes p.1).zipIdx).foldl (fun w b => w.holdByte sp (p.2 + b.2) p.1 b.1.1 b.1.2) w) w

/-- A store without ordering: the checks, the budget, and the buffer (R162, R166, R167, R172). -/
def Ctx.store (c : Ctx) (t : MemW) (sp : Spc) (ea : Warp → Nat → DWord) (bytes : Warp → Nat → List (Byte × Nat)) (s : State) : State :=
  s.withWarp c.wid fun w =>
    let n := memBytes t
    match s.reach c.wid c.en .write sp n n ea with
    | .error m => s.raise c m
    | .ok spots =>
      let held := w.holdAll sp spots (bytes w)
      if held.overflows c.en then s.raise c { cls := .rgnOvf } else
      s.cleared c sp spots n true ea fun s =>
        let s := (s.used c sp ea).mark c.wid sp spots n true
        s.modWarp c.wid fun w => ((w.holdAll sp spots (bytes w)).heldFrom spots ea).advance c.iss c.len

/-- A direct store of the lanes at their homes, lanes ascending, with one version step per line (R172, R173). -/
def State.storeDirect (s : State) (core blk owner : Nat) (sp : Spc) (spots : List Spot) (bytes : Nat → List (Byte × Nat)) : State :=
  match sp with
  | .s => spots.foldl (fun s p => ((bytes p.1).zipIdx).foldl (fun s b =>
      s.spadPut blk (p.2 + b.2) (nibMerge (s.spadByte blk (p.2 + b.2)) b.1.1 b.1.2)) s) s
  | .g =>
    let s := spots.foldl (fun s p =>
      if isAp p.2 then
        s.apWrite (.svc (svcOf core)) (p.2 - keyAp 0) (bytes p.1).length (storeNum (bytes p.1)) (storeNibs (bytes p.1))
      else ((bytes p.1).zipIdx).foldl (fun s b => s.poke (regCore core) (p.2 + b.2) b.1.1 b.1.2) s) s
    let lines := distinct ((spots.filter (fun p => !isAp p.2)).map fun p => lineOf p.2)
    let s := s.modMem fun m => m.heal (spots.flatMap fun p => (List.range (bytes p.1).length).map (p.2 + ·))
    let s := s.modMem fun m => lines.foldl (fun m l => m.sealLine (some owner) l) m
    lines.foldl (fun s l => s.homeLine core l) s

/-- The check of step 1 of a commit point that accesses memory. -/
def Ctx.checks (c : Ctx) (a : Acc) (sp : Spc) (n align : Nat) (ea : Warp → Nat → DWord) (s : State) : Option Trap :=
  match s.reach c.wid c.en a sp n align ea with
  | .error t => some t
  | .ok _ => none

/-- A direct access at step 4: race check and recall of leased lines, then the effect; a trap falls after the commit (R168, R296). -/
def Ctx.direct (c : Ctx) (a : Acc) (sp : Spc) (n align : Nat) (write : Bool) (ea : Warp → Nat → DWord) (go : List Spot → State → State)
    (s : State) : State :=
  match s.reach c.wid c.en a sp n align ea with
  | .error t => s.raise4 c t
  | .ok spots =>
    match s.raceTrap c.wid sp spots n write ea with
    | some t => s.raise4 c t
    | none => s.whenHome c c.paidUp (match sp with | .s => [] | .g => distinct (spots.map fun p => lineOf p.2)) fun s => go spots (s.used c sp ea)

/-- A `st.rel` (R168, R172). -/
def Ctx.storeRel (c : Ctx) (t : MemW) (sp : Spc) (ea : Warp → Nat → DWord) (bytes : Warp → Nat → List (Byte × Nat)) (s : State) : State :=
  let n := memBytes t
  s.commitPoint c (c.checks .put sp n n ea) fun s => s.withWarp c.wid fun w =>
    c.direct .put sp n n true ea
      (fun spots s => (s.storeDirect c.core w.blk (ownerOf c.core w.ctx) sp spots (bytes w)).leave c) s

def execSt (t : MemW) (sp : Spc) (a d : Nat) (s : State) : Host.Outcome State Fault Refusal :=
  let ea := fun (w : Warp) (l : Nat) => eaOf sp (w.xn true a l) 0 0
  done (s.issue (bForm 4 (regPair true a ++ regPair t.wide d)) (fun _ _ => true) (lineSteps 6 ea)
    fun c s => c.store t sp ea (fun w l => storeBytes t false (w.xn t.wide d l)) s)

def execStExt (t : MemW) (sp : Spc) (rel : Option Scope) (d : Nat) (e : Sys2Proof.Mem) (s : State) : Host.Outcome State Fault Refusal :=
  let ea := storeEa t sp e
  let bytes := fun (w : Warp) (l : Nat) => storeBytes t (storeHigh t e w l) (w.xn t.wide d l)
  done (s.issue (eForm e.g 4 (memRegs e ++ regPair t.wide d) (memKeep e [])) (fun _ _ => true) (lineSteps 6 ea) fun c s =>
    match rel with
    | none => c.store t sp ea bytes s
    | some _ => c.storeRel t sp ea bytes s)

/-! ### Versions (R173 to R175) -/

/-- The version of the line of a key; lines of a service core's SRAM and registers carry none (R427, log entry 29). -/
def State.versionAt (s : State) (key : Nat) : Word :=
  if isSram key || isAp key then (Config.freeWord s.own.freeCount 0x174).setWidth 32 else s.mem.version (lineOf key)

/-- `ldv`: value and version of its line, read together at the home (R174). -/
def Ctx.loadV (c : Ctx) (wide : Bool) (acq : Option Scope) (d : Nat) (e : Sys2Proof.Mem) (s : State) : State :=
  s.withWarp c.wid fun w =>
    let n := if wide then 8 else 4
    match s.reach c.wid c.en .read .g n n (memEa .g e) with
    | .error m => s.raise c m
    | .ok spots => s.whenHome c c.waiting (distinct (spots.map fun p => lineOf p.2)) fun s =>
      let vs := spots.map fun p => (p.1, BitVec.ofNat 64 (s.homeRead w.blk .g p.2 n))
      let vers := spots.map fun p => (p.1, s.versionAt p.2)
      let s := (distinct (spots.map fun p => lineOf p.2)).foldl (fun s l => s.homeLine c.core l) (s.used c .g (memEa .g e))
      let s := spots.foldl (fun s p => (s.sawHome c.core p.2).sawHome c.core (p.2 + n - 1)) s
      let vd := if wide then d + 2 else d + 1
      let s := s.modWarp c.wid fun w =>
        (((w.setXn wide d c.en (atLane 0 vs)).setX vd c.en (atLane 0 vers)).loading (regPair wide d ++ [vd]) c.en).advance c.iss c.len
      s.acquireBy c.core acq

def execLdv (wide : Bool) (acq : Option Scope) (d : Nat) (e : Sys2Proof.Mem) (s : State) : Host.Outcome State Fault Refusal :=
  done (s.issue { eForm e.g 4 (memRegs e) (memKeep e []) with dst := regPair wide d ++ [if wide then d + 2 else d + 1] }
    (fun _ _ => true) (lineSteps 6 (memEa .g e)) fun c s => c.loadV wide acq d e s)

/-- The pairs of a `vset`: the line of each lane and the version it expects. -/
def vsetPairs (spots : List Spot) (b : Nat) (w : Warp) : List (Nat × Word) := spots.map fun p => (lineOf p.2, w.xr b p.1)

/-- Step 1 of `vset`: alignment 4, translation, and at most eight lines (R175). -/
def Ctx.vsetCheck (c : Ctx) (ea : Warp → Nat → DWord) (s : State) : Option Trap :=
  match s.reach c.wid c.en .read .g 4 4 ea with
  | .error t => some t
  | .ok spots => if 8 < (distinct (spots.map fun p => lineOf p.2)).length then some { cls := .illegal } else none

/-- `vset`: 1 when every line still has the version its lanes expect (R175). A success orders the loads that follow (log entry 30). -/
def Ctx.vset (c : Ctx) (d b : Nat) (ea : Warp → Nat → DWord) (s : State) : State :=
  s.commitPoint c (c.vsetCheck ea) fun s => s.withWarp c.wid fun w =>
    match s.reach c.wid c.en .read .g 4 4 ea with
    | .error t => s.raise4 c t
    | .ok spots => s.whenHome c c.paidUp (distinct (spots.map fun p => lineOf p.2)) fun s =>
      let ok := spots.all fun p => s.versionAt p.2 == w.xr b p.1
      let s := (distinct (spots.map fun p => lineOf p.2)).foldl (fun s l => s.homeLine c.core l) (s.used c .g ea)
      let s := if ok then s.acquire c.core .sy else s
      (s.modWarp c.wid fun w => w.setM d (maskWrite (w.mr d) c.en (if ok then -1 else 0))).leave c

def execVset (g : Nat) (rt : Ret) (d : Nat) (a : SrcA) (b : Nat) (s : State) : Host.Outcome State Fault Refusal :=
  let ra := srcARegs true a
  let ea := fun (w : Warp) (l : Nat) => srcAVal true a w l
  done (s.issue (eForm g 4 (ra ++ [b]) (keepOf rt ra [b] [])) (fun _ _ => true) (lineSteps 10 ea) fun c s => c.vset d b ea s)

/-! ### Cache control (R176) -/

/-- The key of a lane's line, dropped where it does not translate (R176). -/
def State.hintKeys (s : State) (wid : Nat) (w : Warp) (lanes : Word) (ea : Nat → DWord) : List (Nat × DWord) :=
  (lanesOf lanes).filterMap fun l => match s.place (coreOf wid) w.ctx w.priv .read (ea l) with
    | .error _ => none
    | .ok key => some (key, ea l)

/-- `prf`: the line comes into the L1 or its home slice, or is queued as a hint; a poisoned or faulting address is dropped (R176, R283). -/
def Ctx.prefetch (c : Ctx) (k : Prf) (ea : Warp → Nat → DWord) (s : State) : State :=
  s.withWarp c.wid fun w =>
    let keys : List (Nat × DWord) := s.hintKeys c.wid w c.en (ea w)
    let s := match k with
      | .l1 => s.loaded c.core w.ctx .g (keys.map fun (p : Nat × DWord) => (0, p.1))
      | .l2 => (distinct (keys.map fun (p : Nat × DWord) => lineOf p.1)).foldl (fun s l => (s.homeLine c.core l).fillHome l) s
      | .q => s.modCore c.core fun x =>
          { x with hints := if s.ap! offBalCtl % 2 = 0 then x.hints
                            else (x.hints ++ (distinct (keys.map fun (p : Nat × DWord) => p.2.toNat / 128 * 128)).map fun va =>
                              (⟨w.ctx, va, (s.clk c.wid).toNat⟩ : Hint)).take 64 }
    s.modWarp c.wid fun w => w.advance c.iss c.len

/-- The lines that a `prf` acts on: those of the addresses that it does not drop (R170, R176). -/
def prfSteps (ea : Warp → Nat → DWord) (c : Ctx) (s : State) : Nat :=
  match s.warp? c.wid with
  | none => 0
  | some w => 4 * (distinct ((s.hintKeys c.wid w c.en (ea w)).map fun (p : Nat × DWord) => lineOf p.1)).length

def execPrf (kind : Prf) (a : Nat) (s : State) : Host.Outcome State Fault Refusal :=
  let ea := fun (w : Warp) (l : Nat) => w.xn true a l
  done (s.issue (bForm 2 (regPair true a)) (fun _ _ => true) (prfSteps ea) fun c s => c.prefetch kind ea s)
def execPrfExt (kind : Prf) (e : Sys2Proof.Mem) (s : State) : Host.Outcome State Fault Refusal :=
  done (s.issue (eForm e.g 2 (memRegs e) (memKeep e [])) (fun _ _ => true) (prfSteps (memEa .g e))
    fun c s => c.prefetch kind (memEa .g e) s)

/-- A dirty line is written back and stays valid (R176, R277). -/
def State.writeBack (s : State) (line : Nat) : State :=
  if (Tab.look s.mem.dirty line).isSome then
    (s.modMem fun m => { m with dirty := Tab.del m.dirty line }).sliceStep line 20
  else s

/-- `flush`: write-back at the home and no L1 copy (R176). -/
def State.flushLine (s : State) (core line : Nat) : State :=
  (s.writeBack line).modCore core fun c => { c with l1 := Tab.del c.l1 line }

/-- `inv`: the words of the line that the core does not own leave its L1 (R176). -/
def State.invLine (s : State) (core line : Nat) : State :=
  s.modCore core fun c => { c with l1 := Tab.mod c.l1 line Line.acquired }

/-- `inv.ip`: the line leaves every instruction cache of the device (R176). -/
def State.invCode (s : State) (line : Nat) : State :=
  { s with cores := Tab.mapv s.cores fun _ c => { c with icache := Tab.del c.icache line } }

/-- `flush` and `inv` act on each lane's line after the checks of R162 but alignment (R176). -/
def Ctx.cacheOp (c : Ctx) (a : Acc) (op : State → Nat → State) (ea : Warp → Nat → DWord) (s : State) : State :=
  match s.reach c.wid c.en a .g 1 1 ea with
  | .error m => s.raise c m
  | .ok spots => ((distinct (spots.map fun p => lineOf p.2)).foldl op (s.used c .g ea)).modWarp c.wid fun w => w.advance c.iss c.len

def State.execCache (s : State) (f : Form) (a : Acc) (op : Nat → State → Nat → State) (ea : Warp → Nat → DWord) : State :=
  s.issue f (fun _ _ => true) (lineSteps 4 ea) fun c s => c.cacheOp a (op c.core) ea s

def execFlush (a : Nat) (s : State) : Host.Outcome State Fault Refusal :=
  done (s.execCache (bForm 2 (regPair true a)) .flush (fun core s l => s.flushLine core l) fun w l => w.xn true a l)
def execFlushExt (e : Sys2Proof.Mem) (s : State) : Host.Outcome State Fault Refusal :=
  done (s.execCache (eForm e.g 2 (memRegs e) (memKeep e [])) .flush (fun core s l => s.flushLine core l) (memEa .g e))
def execInv (a : Nat) (s : State) : Host.Outcome State Fault Refusal :=
  done (s.execCache (bForm 2 (regPair true a)) .inval (fun core s l => s.invLine core l) fun w l => w.xn true a l)
def execInvIp (a : Nat) (s : State) : Host.Outcome State Fault Refusal :=
  done (s.execCache (bForm 2 (regPair true a)) .fetch (fun _ s l => s.invCode l) fun w l => w.xn true a l)
def execInvExt (ip : Bool) (e : Sys2Proof.Mem) (s : State) : Host.Outcome State Fault Refusal :=
  done (s.execCache (eForm e.g 2 (memRegs e) (memKeep e [])) (if ip then .fetch else .inval)
    (fun core s l => if ip then s.invCode l else s.invLine core l) (memEa .g e))

end Sys2Proof.Machine
end

