-- ==== Sys2Proof/Machine/Convert.lean ====
section
/-!
DEFINITION. Machine/Convert.lean: conversions (spec/03 R83 to R86; spec/05 R149 to R160).
-/

namespace Sys2Proof.Machine

/-! ### cvt (R150, R151) -/

def execCvt (g d a : Nat) (src dst : CvtFmt) (sel : Nat) (ovf : Bool) (rnd : Rm) (s : State) : Host.Outcome State Fault Refusal :=
  done (s.execVec (eForm g 8 [a, d]) false d fun w l => (cvtLane src dst sel ovf rnd (w.xr a l) (w.xr d l)).setWidth 64)

/-! ### Slots and runs (R149, R152) -/

/-- The format slot that an instruction of the current warp names (R76). -/
def State.curSlot (s : State) (n : Nat) : Slot :=
  match s.warp? s.cur with
  | some w => slotOf (s.recOf w) n
  | none => slotOf [] n

/-- Consecutive registers. -/
def runOf (first n : Nat) : List Nat := (List.range n).map (first + ·)
def runWords (w : Warp) (first n l : Nat) : List Word := (runOf first n).map fun r => w.xr r l

/-- Writes a run in the lanes of a set, ascending register. -/
def Warp.setRun (w : Warp) (first n : Nat) (en : Word) (vals : Nat → List Word) : Warp :=
  (List.range n).foldl (fun w i => w.setX (first + i) en (fun l => (vals l).getD i 0)) w

def wideBits : Wide → Nat
  | .f32 => 32
  | _ => 16

/-- Registers of S wide elements, and of S elements of a slot. -/
def wideRegs (t : Wide) (n : Nat) : Nat := n * wideBits t / 32
def narrowRegs (sl : Slot) (n : Nat) : Nat := n * elemBits sl.elem / 32

/-- The exact values of a wide run. -/
def wideVals (t : Wide) (ws : List Word) (n : Nat) : List Fp.Val :=
  (List.range n).map fun e => fmtValue (.elem (Wide.elemCode t)) (runElem ws (wideBits t) e)

/-- Prices by BLOCK (R367). -/
def blockPrice (b p8 p24 p96 : Nat) : Nat := if b = 8 then p8 else if b = 24 then p24 else p96

/-- A run fits below x512 (R149). -/
def runOk (first n : Nat) : Bool := first + n ≤ 512

/-! ### qnt (R152 to R155) -/

/-- Whether the slot's scale register is read and written (R153). -/
def scaled (sl : Slot) : Bool := sl.scale != 0

/-- RET names only an operand that is read as a lane register (R160). -/
def qntRet (sl : Slot) (r : Ret) : Bool :=
  match r with
  | .b => sl.outl
  | .c => scaled sl && sl.scm
  | _ => true

def qntForm (sl : Slot) (e : Cvs) : Form :=
  let src := runOf e.a (wideRegs e.wide sl.block)
  let rb := if sl.outl then [e.b] else []
  let rc := if scaled sl && sl.scm then [e.c] else []
  { eForm e.g (blockPrice sl.block 12 24 80) (src ++ rb ++ rc) (keepOf e.rt src rb rc) with
    dst := runOf e.d (narrowRegs sl sl.block) ++ (if scaled sl then [e.c] else []), full := true }

/-- What `qnt` computes in a lane (R154 step 1). -/
def qntLane (sl : Slot) (e : Cvs) (w : Warp) (l : Nat) : Quantized :=
  quantize sl (wideVals e.wide (runWords w e.a (wideRegs e.wide sl.block) l) sl.block) ((w.xr e.c l).toNat % 256)

/-- The register writes of `qnt` (R154 step 3). -/
def Warp.qntWrite (w : Warp) (sl : Slot) (e : Cvs) (en : Word) (q : Nat → Quantized) : Warp :=
  let n := narrowRegs sl sl.block
  let w := w.setRun e.d n en (fun l => packRun (elemBits sl.elem) sl.block (fun i => (q l).code.getD i 0))
  if scaled sl then w.setX e.c en (fun l => BitVec.ofNat 32 (q l).scale) else w

/-- The first poisoned line of a page of record lines between two addresses (R283), where the page lies at the home key `key`. -/
def State.poisonedRecord (s : State) (key page lo hi : Nat) : Option Trap :=
  ((s.mem.poison.filter fun l => l / 512 == key / 65536 && decide (lo / 128 ≤ page * 512 + l % 512 ∧ page * 512 + l % 512 ≤ hi / 128)).head?).map fun l =>
    { cls := .poison, addr := BitVec.ofNat 64 (max (page * 65536 + l % 512 * 128) lo), aux := BitVec.ofNat 64 (l * 128 % span) }

/-- The record lines of one page: translated as a write, and none of them poisoned. -/
def State.recordPage (s : State) (c : Ctx) (w : Warp) (lo hi page : Nat) : Except Trap Nat :=
  match s.place c.core w.ctx w.priv .write (BitVec.ofNat 64 (max (page * 65536) lo)) with
  | .error t => .error t
  | .ok k => match s.poisonedRecord k page lo hi with
    | some t => .error t
    | none => .ok k

/-- The translation step of an outlier list: the header line, then the record lines of LIMIT by page, as a write (R85, R154). -/
def State.outlierPlaces (s : State) (c : Ctx) (w : Warp) (aux : Nat) : Except Trap Appends :=
  match s.placeBoth c.core w.ctx w.priv (BitVec.ofNat 64 aux) with
  | .error t => .error t
  | .ok key =>
    let limit := s.homeRead w.blk .g (key + 4) 4
    let first := (aux + 0x40) / 65536
    let pages := if limit = 0 then [] else (List.range ((aux + 0x40 + 8 * limit - 1) / 65536 - first + 1)).map (first + ·)
    match tryAll (s.recordPage c w (aux + 0x40) (aux + 0x40 + 8 * limit - 1)) pages with
    | .error t => .error t
    | .ok ks => .ok { key := key, limit := limit, pages := (pages.zip ks).map fun x => (x.1, x.2 / 65536 * 65536 + 1) }

/-- The translation step, kept for the appends that follow the commit. -/
def State.outlierNoted (s : State) (c : Ctx) (w : Warp) (aux : Nat) : State :=
  match s.outlierPlaces c w aux with
  | .error _ => s
  | .ok a => s.modWarp c.wid fun w => { w with appends := some a }

def Ctx.outlierCheck (c : Ctx) (aux : Nat) (s : State) : Option Trap :=
  match s.warp? c.wid with
  | none => none
  | some w => match s.outlierPlaces c w aux with
    | .error t => some t
    | .ok _ => none

/-- The home key of record `i`, where its line was translated, as the header's own was (R154). -/
def Appends.place (a : Appends) (aux i : Nat) : Option Nat :=
  let va := aux + 0x40 + 8 * i
  if va / 128 = aux / 128 then some (a.key + (va - aux)) else
  let page := Tab.get a.pages 0 (va / 65536)
  if page = 0 || (aux + 0x40 + 8 * a.limit - 1) / 128 < va / 128 then none else some (page - 1 + va % 65536)

/-- One append: the limited fetch-add on COUNT against the LIMIT word of the moment, then the record; with a full list, or where the
record's line was not translated, FULL instead, which counts as a list found full for OTRAP (R85, R154, log entry 101). -/
def State.appendOutlier (s : State) (ctx blk : Nat) (a : Appends) (aux : Nat) (index value : Word) : State × Bool :=
  let count := s.homeRead blk .g a.key 4
  let limit := s.homeRead blk .g (a.key + 4) 4
  let full := fun (s : State) => (s.writeNum (some ctx) (a.key + 8) 4 (s.homeRead blk .g (a.key + 8) 4 ||| 1), true)
  if count < limit then
    let s := s.writeNum (some ctx) a.key 4 (count + 1)
    match a.place aux count with
    | none => full s
    | some rec_ => (s.writeNum (some ctx) rec_ 8 (index.toNat + 2 ^ 32 * value.toNat), false)
  else full s

/-- The lines that the next append touches: the header's, and the record's where there is one. -/
def State.appendLines (s : State) (blk : Nat) (a : Appends) (aux : Nat) : List Nat :=
  let count := s.homeRead blk .g a.key 4
  lineOf a.key :: (if count < s.homeRead blk .g (a.key + 4) 4 then (a.place aux count).toList.map lineOf else [])

/-- The marked elements of the enabled lanes in ascending lane and element, with index and FP32 value (R84, R152). -/
def qntMarked (sl : Slot) (e : Cvs) (w : Warp) (en : Word) : List (Word × Word) :=
  (lanesOf en).flatMap fun l =>
    let vs := wideVals e.wide (runWords w e.a (wideRegs e.wide sl.block) l) sl.block
    (qntLane sl e w l).outliers.map fun i =>
      (w.xr e.b l + BitVec.ofNat 32 i, BitVec.ofNat 32 (convertVal (.elem 0) .rne true (vs.getD i .nan)))

/-- After the appends: the registers, a new region behind the instruction, and the trap of a list found full (R85, R86, R154). -/
def Ctx.qntLeave (c : Ctx) (sl : Slot) (e : Cvs) (s : State) : State :=
  s.withWarp c.wid fun w =>
    let found := match w.appends with | some a => a.full | none => false
    let s := (s.modWarp c.wid fun v => { v.qntWrite sl e c.en (qntLane sl e v) with appends := none }).leave c
    if found && sl.otrap then s.takeTrap c.wid { cls := .outlFull } c.en 1 c.here c.next else s

/-- The appends that are left, each with a step demand of its own and performed when that is paid (R85, R136, R445). -/
def Ctx.qntAppends (c : Ctx) (sl : Slot) (e : Cvs) : List (Word × Word) → State → State
  | [], s => c.qntLeave sl e s
  | x :: r, s =>
    s.payStep c 10 fun s => s.withWarp c.wid fun w =>
      match w.appends with
      | none => c.qntLeave sl e s
      | some a =>
        let lines := s.appendLines w.blk a sl.aux
        s.whenHome c c.paidUp lines fun s =>
          let n := s.appendOutlier w.ctx w.blk a sl.aux x.1 x.2
          let s := lines.foldl (fun s l => s.homeLine c.core l) n.1
          c.qntAppends sl e r (s.modWarp c.wid fun v => { v with
            appends := some { a with done := a.done + 1, full := a.full || n.2 }, stage := some { kind := 2, lanes := c.iss, step := 4 } })

/-- `qnt` with outliers: a commit point after its translation step, then the appends, the registers and a new region (R85, R86, R154). -/
def Ctx.qntOutl (c : Ctx) (sl : Slot) (e : Cvs) (s : State) : State :=
  s.withWarp c.wid fun w =>
    let s := if w.stage.isSome then s else s.outlierNoted c w sl.aux
    s.commitPoint c (c.outlierCheck sl.aux) fun s => s.withWarp c.wid fun w =>
      c.qntAppends sl e ((qntMarked sl e w c.en).drop (match w.appends with | some a => a.done | none => 0)) s

def execQnt (e : Cvs) (s : State) : Host.Outcome State Fault Refusal :=
  let sl := s.curSlot e.slot
  let legal := sl.qntOk && qntRet sl e.rt && runOk e.a (wideRegs e.wide sl.block) && runOk e.d (narrowRegs sl sl.block)
  done (s.issue (qntForm sl e) (fun _ _ => legal) (fun _ _ => 0) fun c s =>
    if sl.outl then c.qntOutl sl e s
    else s.modWarp c.wid fun w => (w.qntWrite sl e c.en (qntLane sl e w)).advance c.iss c.len)

/-! ### dqn (R156) -/

def dqnForm (sl : Slot) (e : Cvs) : Form :=
  let src := runOf e.a (narrowRegs sl sl.block)
  let rc := if scaled sl then [e.c] else []
  { eForm e.g (blockPrice sl.block 10 20 70) (src ++ rc) (keepOf e.rt src [] rc) with
    dst := runOf e.d (wideRegs e.wide sl.block), full := true }

def dqnLane (sl : Slot) (e : Cvs) (w : Warp) (l : Nat) : List Word :=
  let ws := runWords w e.a (narrowRegs sl sl.block) l
  let sv := scaleValue sl.scale ((w.xr e.c l).toNat % 256)
  packRun (wideBits e.wide) sl.block fun i => dequantize sl sv (Wide.elemCode e.wide) (runElem ws (elemBits sl.elem) i)

def execDqn (e : Cvs) (s : State) : Host.Outcome State Fault Refusal :=
  let sl := s.curSlot e.slot
  let legal := sl.dqnOk && (e.rt != .c || scaled sl) && runOk e.a (narrowRegs sl sl.block) && runOk e.d (wideRegs e.wide sl.block)
  done (s.issue (dqnForm sl e) (fun _ _ => legal) (fun _ _ => 0) fun c s => s.modWarp c.wid fun w =>
    (w.setRun e.d (wideRegs e.wide sl.block) c.en (dqnLane sl e w)).advance c.iss c.len)

/-! ### cbx (R157) -/

/-- The code that HALF selects (R157). -/
def cbxCode (half : Bool) (e : Cvs) (w : Warp) (l : Nat) : Nat := (w.xr e.a l).toNat / (if half then 2 ^ 16 else 1) % 2 ^ 16

/-- Address of the lane's base-table entry (R74, R157). -/
def cbxEa (sl : Slot) (half : Bool) (e : Cvs) (w : Warp) (l : Nat) : DWord := BitVec.ofNat 64 (sl.aux + 4 * (cbxCode half e w l / 256))

def cbxForm (sl : Slot) (e : Cvs) : Form :=
  let rc := if scaled sl then [e.c] else []
  { eForm e.g 12 ([e.a] ++ rc) (keepOf e.rt [e.a] [] rc) with dst := runOf e.d (wideRegs e.wide 8), full := true }

def cbxLane (sl : Slot) (half : Bool) (e : Cvs) (w : Warp) (entry : Nat) (l : Nat) : List Word :=
  let sv := scaleValue sl.scale ((w.xr e.c l).toNat % 256)
  packRun (wideBits e.wide) 8 fun j => cbxElem sl sv (Wide.elemCode e.wide) (cb16Weight (cbxCode half e w l) entry j)

/-- The base-table reads, their check, and the weights (R74, R157). -/
def Ctx.cbx (c : Ctx) (sl : Slot) (half : Bool) (e : Cvs) (s : State) : State :=
  s.withWarp c.wid fun w =>
    let ea := cbxEa sl half e
    match s.reach c.wid c.en .read .g 4 4 ea with
    | .error t => s.raise c t
    | .ok spots => s.cleared c .g spots 4 false ea fun s =>
      s.payEach c 6 (linesNamed c.en (ea w)).length fun s =>
        let ents := spots.map fun p => (p.1, s.loadNum c.core w .g p.2 4)
        let s := ((s.used c .g ea).loaded c.core w.ctx .g spots).mark c.wid .g spots 4 false
        if ents.any (fun p => 2 ^ 25 ≤ p.2) then s.raise c { cls := .illegal } else
        s.modWarp c.wid fun w =>
          (w.setRun e.d (wideRegs e.wide 8) c.en (fun l => cbxLane sl half e w (atLane 0 ents l) l)).advance c.iss c.len

def execCbx (half : Bool) (e : Cvs) (s : State) : Host.Outcome State Fault Refusal :=
  let sl := s.curSlot e.slot
  let legal := sl.cbxOk && (e.rt != .c || scaled sl) && runOk e.d (wideRegs e.wide 8)
  done (s.issue (cbxForm sl e) (fun _ _ => legal) (fun _ _ => 0) fun c s => c.cbx sl half e s)

/-! ### scl, pack4, unpack4 (R158, R159) -/

def execScl (e : Cvs) (s : State) : Host.Outcome State Fault Refusal :=
  let sl := s.curSlot e.slot
  done (s.issue { eForm e.g 8 [e.a] (keepOf e.rt [e.a] [] []) with dst := [e.d] } (fun _ _ => sl.sclOk) (fun _ _ => 0)
    fun c s => c.vecEffect false e.d (fun w l => BitVec.ofNat 64 (sclCode sl (w.xr e.a l).toNat)) s)

/-- Eight 4-bit elements from a wide run (R159). -/
def pack4Lane (sl : Slot) (e : Cvs) (w : Warp) (l : Nat) : Word :=
  let vs := wideVals e.wide (runWords w e.a (wideRegs e.wide 8) l) 8
  (packRun 4 8 fun j => convertVal (.elem sl.elem) sl.rnd sl.ovf (vs.getD j .nan)).headD 0

def execPack4 (e : Cvs) (s : State) : Host.Outcome State Fault Refusal :=
  let sl := s.curSlot e.slot
  let src := runOf e.a (wideRegs e.wide 8)
  done (s.issue { eForm e.g 8 src (keepOf e.rt src [] []) with dst := [e.d], full := true }
    (fun _ _ => sl.pack4Ok && runOk e.a (wideRegs e.wide 8)) (fun _ _ => 0)
    fun c s => c.vecEffect false e.d (fun w l => (pack4Lane sl e w l).setWidth 64) s)

/-- Eight wide elements from one register of 4-bit elements (R159). -/
def unpack4Lane (sl : Slot) (e : Cvs) (w : Warp) (l : Nat) : List Word :=
  packRun (wideBits e.wide) 8 fun j =>
    convert (.elem sl.elem) (.elem (Wide.elemCode e.wide)) sl.rnd sl.ovf (runElem [w.xr e.a l] 4 j)

def execUnpack4 (e : Cvs) (s : State) : Host.Outcome State Fault Refusal :=
  let sl := s.curSlot e.slot
  done (s.issue { eForm e.g 8 [e.a] (keepOf e.rt [e.a] [] []) with dst := runOf e.d (wideRegs e.wide 8), full := true }
    (fun _ _ => sl.pack4Ok && runOk e.d (wideRegs e.wide 8)) (fun _ _ => 0) fun c s => s.modWarp c.wid fun w =>
      (w.setRun e.d (wideRegs e.wide 8) c.en (unpack4Lane sl e w)).advance c.iss c.len)

end Sys2Proof.Machine
end

