-- ==== Sys2Proof/Machine/Atomics.lean ====
section
/-!
DEFINITION. Machine/Atomics.lean: atomics and reductions (spec/06 R163, R177 to R181; spec/10 R282).
-/

namespace Sys2Proof.Machine

/-! ### One lane's operation -/

/-- Bytes that a kind of atomic reads, and that it writes. -/
def atomReads : AtomKind → Nat
  | .atm op | .red op => atmBytes op
  | .cas wide | .casv wide => if wide then 8 else 4
  | .binc | .winc | .dgz => 4
  | .addl => 8
def atomWrites : AtomKind → Nat
  | .addl => 4
  | k => atomReads k

/-- Whether the destination is a pair. -/
def atomPair : AtomKind → Bool
  | .atm op | .red op => op.wide
  | .cas wide => wide
  | .addl => true
  | _ => false

/-- What is written, if anything, and what the destination receives, from the old value, the line's version and the operands
(R178 to R181). -/
def atomResult (k : AtomKind) (old : DWord) (ver : Word) (b c : DWord) : Option DWord × DWord :=
  let o := old.toNat % 2 ^ 32
  let v := b.toNat % 2 ^ 32
  match k with
  | .atm op | .red op => (some (atmApply op old b), old)
  | .cas _ => (if old = b then some c else none, old)
  | .casv _ => (if ver = b.setWidth 32 then some c else none, ver.setWidth 64)
  | .binc => (if o < v then some (BitVec.ofNat 64 (o + 1)) else none, old)
  | .winc => (some (if v ≤ o then 0 else BitVec.ofNat 64 (o + 1)), old)
  | .dgz => (if 0 < o then some (BitVec.ofNat 64 (o - 1)) else none, old)
  | .addl => (if o + v ≤ old.toNat / 2 ^ 32 then some (BitVec.ofNat 64 (o + v)) else none, old)

/-- The operation at its home: the write with its version step and owner tag where there is one (R173, R177). -/
def State.atomAt (s : State) (core owner : Nat) (k : AtomKind) (key : Nat) (b c : DWord) : State × DWord :=
  let r := atomResult k (s.homeNum key (atomReads k)) (s.versionAt key) b c
  let s := s.sawAll core key (atomReads k)
  match r.1 with
  | none => (s, r.2)
  | some v =>
    let s := s.rmw (regCore core) key (atomWrites k) v
    (if isAp key then s else s.modMem fun m => m.sealLine (some owner) (lineOf key), r.2)

/-- Exclusive ownership of a local line: obtained at its home, unless the L1 holds it already and still has room for it (R177, log entry
6). Any access at the home takes it away. -/
def State.claimLine (s : State) (core line : Nat) : State :=
  if !isLocal (line * 128) || (Tab.look s.mem.excl line = some core && Config.keeps s.own.freeCount (2 ^ 93 + line)) then s
  else (s.homeLine core line).modMem fun m => { m with excl := Tab.upd m.excl line core }

/-! ### Remote lines (R282) -/

/-- The device a remote key is homed on; 640 stands for the companion processor. -/
def remoteDev (key : Nat) : Nat := key / span - 1

/-- A lease this device holds on a remote line. -/
def State.leaseHeld (s : State) (line : Nat) : Bool := s.mem.leases.any (fun l => l.line == line && l.dev.isNone)

/-- Asks the home for exclusive ownership of a remote line. -/
def State.askLease (s : State) (key : Nat) : State := s.send (.lease (remoteDev key) (lineOf key))

/-- An atomic on a leased line keeps the lease in use (R282). -/
def State.useLease (s : State) (core line : Nat) : State :=
  s.modMem fun m =>
    { m with leases := m.leases.map fun l => if l.line == line && l.dev.isNone then { l with used := s.dev.beat, core := core } else l }

/-! ### Every enabled lane (R163, R177) -/

/-- One lane performs and its destination is written. -/
def State.atomLane (s : State) (wid l : Nat) (op : AtomOp) : State :=
  let core := coreOf wid
  let (s, v) := s.atomAt core (s.ctxOf wid) op.kind op.key op.b op.c
  let s := if isRemote op.key then s.useLease core (lineOf op.key) else s
  s.modWarp wid fun w => w.setXn (atomPair op.kind) op.d (laneBit l) (fun _ => v)

def orders (o : Ord) (sc : Scope) : Option Scope :=
  match o with
  | .acq | .ar => some sc
  | _ => none

/-- A lane on a remote line that is not leased waits for the ownership of its line. -/
def State.atomWait (s : State) (c : Ctx) (l : Nat) (op : AtomOp) : State := (s.askLease op.key).block c (laneBit l) (.ratm op none)

/-- The atomic of one lane: its operands, where it goes. -/
def atomOpOf (k : AtomKind) (e : Atm) (cn : Option Nat) (w : Warp) (p : Spot) : AtomOp :=
  let wide := match k with | .casv _ => false | .addl => false | k => atomPair k
  let wideC := match k with | .cas x | .casv x => x | _ => false
  { kind := k, d := e.d, key := p.2, b := w.xn wide e.b p.1, c := (match cn with | some n => w.xn wideC n p.1 | none => 0),
    ord := e.ord, sc := e.sc }

def needsLease (s : State) (key : Nat) : Bool := isRemote key && !s.leaseHeld (lineOf key)

/-- The lanes that perform in this step: all of them, or the lowest where other parties' operations fall between two lanes' (R163). -/
def State.turnOf {α : Type} (s : State) (xs : List α) : List α := if s.apart then xs.take 1 else xs

/-- The lanes of a list. -/
def lanesIn {α : Type} (xs : List (Nat × α)) : Word := xs.foldl (fun m x => m ||| laneBit x.1) 0

/-- Step 5 for the lanes that have performed; the others of the instruction stay at it and perform later (R163, R168). -/
def State.leaveSome (s : State) (c : Ctx) (went : Word) (last : Bool) : State :=
  (s.modWarp c.wid fun w => { (w.setPc went (fun _ => c.next)).setRev went (fun _ => c.next) with
    stage := if last then none else some { kind := 3, lanes := c.en &&& ~~~went, step := 4 } }).passOthers c

/-- Step 4 and 5 for every lane: those whose line is here perform, in ascending order, and leave; the others wait (R163, R177). -/
def Ctx.atomAll (c : Ctx) (ops : List (Nat × AtomOp)) (acq : Option Scope) (s : State) : State :=
  let here := ops.filter (fun o => !needsLease s o.2.key)
  let away := ops.filter (fun o => needsLease s o.2.key)
  let now := s.turnOf here
  let last := decide (here.length ≤ now.length)
  let s := now.foldl (fun s o => (s.claimLine c.core (lineOf o.2.key)).atomLane c.wid o.1 o.2) s
  let s := if now.isEmpty then s else s.acquireBy c.core acq
  let s := if last then away.foldl (fun s o => s.atomWait c o.1 o.2) s else s
  s.leaveSome c (lanesIn now) last

/-- ea[l] of an atomic: base and offset (R161). -/
def atmEa (e : Atm) (w : Warp) (l : Nat) : DWord := eaOf .g (srcAVal true e.a w l) 0 e.off

/-- The value-returning atomics: a commit point, a step demand of an atomic step per enabled lane, then the lanes (R168, R177, R445). -/
def Ctx.atomic (c : Ctx) (k : AtomKind) (e : Atm) (cn : Option Nat) (s : State) : State :=
  let n := atomReads k
  s.commitPoint c (c.checks .both .g n n (atmEa e)) fun s =>
    s.payStep c (10 * (lanesOf c.en).length) fun s => s.withWarp c.wid fun w =>
      c.direct .both .g n n true (atmEa e)
        (fun spots s => c.atomAll (spots.map fun p => (p.1, atomOpOf k e cn w p)) (orders e.ord e.sc) s) s

/-- The packed and the brain-float atomics, which a die in reduced service lacks (R59, R441). -/
def halfOp (op : AtmOp) : Bool := op == .addF16x2 || op == .addBf16

/-- Registers an atomic reads: base, operand B where it has one, C of the compare-and-swaps. -/
def atmForm (e : Atm) (rb rc dst : List Nat) : Form :=
  let ra := srcARegs true e.a
  { eForm e.g 6 (ra ++ rb ++ rc) (keepOf e.rt ra rb rc) with dst := dst }

def State.execAtomic (s : State) (f : Form) (k : AtomKind) (e : Atm) (cn : Option Nat) : State :=
  s.issueSimple f fun c s => c.atomic k e cn s

def execAtm (op : AtmOp) (e : Atm) (s : State) : Host.Outcome State Fault Refusal :=
  done (s.execAtomic { atmForm e (regPair op.wide e.b) [] (regPair op.wide e.d) with full := halfOp op } (.atm op) e none)
def execCas (wide : Bool) (e : Atm) (c : Nat) (s : State) : Host.Outcome State Fault Refusal :=
  done (s.execAtomic (atmForm e (regPair wide e.b) (regPair wide c) (regPair wide e.d)) (.cas wide) e (some c))
def execCasv (wide : Bool) (e : Atm) (c : Nat) (s : State) : Host.Outcome State Fault Refusal :=
  done (s.execAtomic (atmForm e [e.b] (regPair wide c) [e.d]) (.casv wide) e (some c))
def execBinc (e : Atm) (s : State) : Host.Outcome State Fault Refusal := done (s.execAtomic (atmForm e [e.b] [] [e.d]) .binc e none)
def execWinc (e : Atm) (s : State) : Host.Outcome State Fault Refusal := done (s.execAtomic (atmForm e [e.b] [] [e.d]) .winc e none)
def execDgz (e : Atm) (s : State) : Host.Outcome State Fault Refusal := done (s.execAtomic (atmForm e [] [] [e.d]) .dgz e none)
def execAddl (e : Atm) (s : State) : Host.Outcome State Fault Refusal :=
  done (s.execAtomic (atmForm e [e.b] [] (regPair true e.d)) .addl e none)

/-! ### Reductions (R181) -/

/-- A reduction without ordering is held in the region store buffer (R166, R167). -/
def Ctx.redHold (c : Ctx) (op : AtmOp) (e : Atm) (s : State) : State :=
  s.withWarp c.wid fun w =>
    let n := atmBytes op
    match s.reach c.wid c.en .write .g n n (atmEa e) with
    | .error m => s.raise c m
    | .ok spots =>
      let hold := fun (w : Warp) => spots.foldl (fun w p => w.holdRed p.2 p.1 op (w.xn op.wide e.b p.1)) w
      if (hold w).overflows c.en then s.raise c { cls := .rgnOvf } else
      s.cleared c .g spots n true (atmEa e) fun s =>
        let s := (s.used c .g (atmEa e)).mark c.wid .g spots n true
        s.modWarp c.wid fun w => ((hold w).heldFrom spots (atmEa e)).advance c.iss c.len

/-- A `red.rel` performs at its home after its commit, each lane one operation (R173, R181). -/
def Ctx.redRel (c : Ctx) (op : AtmOp) (e : Atm) (s : State) : State :=
  let n := atmBytes op
  s.commitPoint c (c.checks .merge .g n n (atmEa e)) fun s =>
    s.payStep c (10 * (lanesOf c.en).length) fun s => s.withWarp c.wid fun w =>
      c.direct .merge .g n n true (atmEa e)
        (fun spots s =>
          let now := s.turnOf spots
          (now.foldl (fun s p =>
            ((s.atomAt c.core (ownerOf c.core w.ctx) (.red op) p.2 (w.xn op.wide e.b p.1) 0).1).homeLine c.core (lineOf p.2)) s).leaveSome c
              (lanesIn now) (decide (spots.length ≤ now.length))) s

def execRed (op : AtmOp) (e : Atm) (s : State) : Host.Outcome State Fault Refusal :=
  done (s.issueSimple { atmForm e (regPair op.wide e.b) [] [] with full := halfOp op }
    fun c s => if e.ord = .none then c.redHold op e s else c.redRel op e s)

end Sys2Proof.Machine
end

