-- ==== Sys2Proof/Machine/Sync.lean ====
section
/-!
DEFINITION. Machine/Sync.lean: fences, barriers, regions, and waits on memory and tags (spec/06 R182 to R190; spec/08 R249, R250).
A waiting instruction blocks its lanes and tests at once; what it waits for is tested again by the rows that can change it.
-/

namespace Sys2Proof.Machine

/-! ### Blocking and leaving a block (R168) -/

/-- The entries left when an entry's lanes leave its instruction. -/
def leaveBlock (bs : List Blocked) (b : Blocked) : List Blocked :=
  bs.filterMap fun x =>
    let keep := x.lanes &&& ~~~b.lanes
    if x.here = b.here ∧ keep ≠ x.lanes then (if keep = 0 then none else some { x with lanes := keep }) else some x

/-- Lanes leave a block and continue behind their instruction (R168 step 5, R250). -/
def State.pass (s : State) (wid : Nat) (b : Blocked) : State :=
  s.modWarp wid fun w => ({ w with blocked := leaveBlock w.blocked b }).release b.lanes (b.here + BitVec.ofNat 64 b.len)

/-- The enabled lanes block, the others go on, and the condition is tested at once. -/
def State.blockTry (s : State) (c : Ctx) (what : Wait) (test : State → Nat → Blocked → State) : State :=
  test (s.blockAll c what) c.wid (s.blockOf c c.en what)

/-- Changes what the entry of a lane waits for. -/
def State.setWait (s : State) (wid : Nat) (b : Blocked) (what : Wait) : State :=
  s.modWarp wid fun w => { w with blocked := modFirst (fun x => x == b) (fun x => { x with what := what }) w.blocked }

/-! ### Fences (R182 to R184) -/

def fenceAcq : Ord → Bool
  | .acq | .ar => true
  | _ => false

def execFence (g : Nat) (ord : Ord) (sc : Scope) (s : State) : Host.Outcome State Fault Refusal :=
  done (s.issueSimple (eForm g 2) fun c s =>
    if ord = .acq then (s.acquire c.core sc).modWarp c.wid fun w => w.advance c.iss c.len
    else s.commitPoint c noCheck fun s => (if fenceAcq ord then s.acquire c.core sc else s).leave c)

def execFenceL (g : Nat) (_ : Scope) (s : State) : Host.Outcome State Fault Refusal :=
  done (s.issueSimple (eForm g 2) fun c s => s.modWarp c.wid fun w => w.advance c.iss c.len)

/-- Whether a warp lies within a scope of another warp of its context (R165, R183). -/
def within (sc : Scope) (wid : Nat) (w : Warp) (wid' : Nat) (w' : Warp) : Bool :=
  match sc with
  | .wp => false
  | .bk => w.blk == w'.blk
  | .yd => coreOf wid / 4 == coreOf wid' / 4
  | .di => dieOf wid == dieOf wid'
  | _ => true

/-- Warps that a `fence.r` waits for: those of its scope but itself (R183). -/
def State.fenceTargets (s : State) (wid : Nat) (w : Warp) (sc : Scope) : List (Nat × Warp) :=
  (s.warpsOfCtx w.ctx).filter (fun e => e.1 != wid && within sc wid w e.1 e.2)

/-- A target that is blocked at a commit point with every lane that can still issue, or switched out, owes the self-invalidation instead;
one parked or delayed by `fget` has no commit behind it and does not (R183, R225). -/
def State.fenceOwes (s : State) (t : Warp) : Bool :=
  (!t.blocked.isEmpty && !t.parked.isSome && t.exited ||| t.blockedLanes == 0xFFFFFFFF)
    || (match s.block? t.blk with | some b => !b.resident | none => false)

/-- Whether the warps of the context on peer devices have met a `fence.r` of scope .pk (log entry 105). -/
def State.peersMet (s : State) (wid : Nat) (sc : Scope) : Bool := sc != .pk || !s.routed || Config.peersMet (s.clk wid).toNat

/-- The condition of a `fence.r`, then its effect as `fence.ar` (R183). -/
def State.tryFenceR (s : State) (wid : Nat) (b : Blocked) : State :=
  match b.what with
  | .fenceR sc ts => if ts.any (fun t => (s.warp? t).isSome) || !s.peersMet wid sc then s else (s.acquire (coreOf wid) sc).pass wid b
  | _ => s

/-- A `fence.r` registers with its targets and waits (R183). -/
def Ctx.fenceR (c : Ctx) (sc : Scope) (s : State) : State :=
  s.commitPoint c noCheck fun s => s.withWarp c.wid fun w =>
    let ts := s.fenceTargets c.wid w sc
    let owe := ts.filter (fun e => s.fenceOwes e.2)
    let wait := ts.filter (fun e => !s.fenceOwes e.2)
    let s := owe.foldl (fun s e => s.modWarp e.1 fun t => { t with inv := t.inv ++ [sc] }) s
    s.blockTry c (.fenceR sc (wait.map (·.1))) State.tryFenceR

/-- Scopes .wp and .sy are illegal for `fence.r` (R183). -/
def fenceRLegal (sc : Scope) : Bool := sc != .wp && sc != .sy

def execFenceR (g : Nat) (sc : Scope) (s : State) : Host.Outcome State Fault Refusal :=
  done (s.issue (eForm g 2) (fun _ _ => fenceRLegal sc) (fun _ _ => 0) fun c s => c.fenceR sc s)

/-- An engine drops the copies of a context's data that it holds (R184). -/
def State.dropEngine (s : State) (core ctx : Nat) (q : Path) : State :=
  match q with
  | .copy => s.modCore core fun k => { k with windows := Tab.keep k.windows (fun _ x => x.ctx != ctx) }
  | .mfetch => s.modCore core fun k => { k with staged := k.staged.filter fun x => x.ctx != ctx }
  | _ => s

/-- The part of `xfence` on the receiving path. Every write that its conditions cover has reached its home (log entry 32). -/
def Ctx.xfenceTo (c : Ctx) (sc : Scope) (q : Path) (s : State) : State :=
  s.withWarp c.wid fun w => if q = .core then s.acquire c.core sc else s.dropEngine c.core w.ctx q

def execXfence (g : Nat) (sc : Scope) (p q : Path) (s : State) : Host.Outcome State Fault Refusal :=
  done (s.issueSimple (eForm g 2) fun c s =>
    if p = .core then s.commitPoint c noCheck fun s => (c.xfenceTo sc q s).leave c
    else (c.xfenceTo sc q s).modWarp c.wid fun w => w.advance c.iss c.len)

/-! ### Barriers (R185, R186, R249) -/

def Barrier.unset : Barrier := { phase := false, arr := 0, exp := 0, pend := [] }

/-- LIVE: the warps of the block not yet retired. -/
def State.liveWarps (s : State) (blk : Nat) : Nat := (s.warpsOfBlock blk).length

/-- EXP of a phase as a count (R185). -/
def State.expected (s : State) (blk e : Nat) : Nat := if e = 0 then s.liveWarps blk else e

/-- Every lane blocked at a barrier of a block is released; a suspended warp's lanes leave when it is resumed (R186, R444). -/
def State.releaseBar (s : State) (blk id : Nat) : State :=
  (s.warpsOfBlock blk).foldl (fun s e =>
    if !s.awake e.2 then s else (e.2.blocked.filter (fun b => b.what == .bar id)).foldl (fun s b => s.pass e.1 b) s) s

/-- complete() of R186. -/
def State.completeBar (s : State) (blk id : Nat) : State :=
  let s := s.modBlock blk fun b =>
    let r := Tab.get b.bars Barrier.unset id
    { b with bars := Tab.upd b.bars id { r with phase := !r.phase, arr := 0, pend := [] } }
  s.releaseBar blk id

/-- A LIVE phase is tested again when a warp of the block retires (R186, R249). -/
def State.recheckBars (s : State) (blk : Nat) : State :=
  match s.block? blk with
  | none => s
  | some b => b.bars.foldl (fun s e =>
      if 0 < e.2.arr && e.2.exp = 0 && s.liveWarps blk ≤ e.2.arr then s.completeBar blk e.1 else s) s

/-- Whether an arrival raises BAR_OVER (R186). -/
def State.barOver (s : State) (blk : Nat) (r : Barrier) (e n : Nat) : Bool :=
  (r.arr != 0 && r.exp != e) || decide (s.expected blk e < r.arr + n)

/-- An arrival of n with expectation e (R186). -/
def State.arrive (s : State) (wid blk id e n : Nat) : State :=
  let r := match s.block? blk with | some b => Tab.get b.bars Barrier.unset id | none => Barrier.unset
  let s := s.modBlock blk fun b => { b with bars := Tab.upd b.bars id { r with arr := r.arr + n, exp := e, pend := insertNat r.pend wid } }
  if s.expected blk e ≤ r.arr + n then s.completeBar blk id else s

/-- PEND of a warp. -/
def State.pends (s : State) (wid blk id : Nat) : Bool :=
  match s.block? blk with
  | some b => (Tab.get b.bars Barrier.unset id).pend.contains wid
  | none => false

/-- A wait at a barrier ends when the warp's arrival no longer stands in the phase (R186, R444). -/
def State.tryBar (s : State) (wid : Nat) (b : Blocked) : State :=
  match b.what, s.warp? wid with
  | .bar id, some w => if s.pends wid w.blk id then s else s.pass wid b
  | _, _ => s

/-- `bar`: the arrival, then the wait while the warp's arrival stands in the uncompleted phase (R186). -/
def Ctx.bar (c : Ctx) (kind : BarKind) (id e n : Nat) (s : State) : State :=
  s.commitPoint c noCheck fun s => s.withWarp c.wid fun w =>
    let r := match s.block? w.blk with | some b => Tab.get b.bars Barrier.unset id | none => Barrier.unset
    if kind != .wait && s.barOver w.blk r e n then s.raise4 c { cls := .barOver, info := BitVec.ofNat 32 id } else
    let s := if kind = .wait then s else s.arrive c.wid w.blk id e n
    if kind != .arrive && s.pends c.wid w.blk id then s.blockAll c (.bar id) else s.leave c

/-- `bar` is illegal on a service core, which has no block (R61). -/
def barForm (f : Form) : Form := { f with level := .n }

def execBar (id : Nat) (s : State) : Host.Outcome State Fault Refusal :=
  done (s.issueSimple (barForm (bForm 2)) fun c s => c.bar .both id 0 1 s)
def execBarA (id : Nat) (s : State) : Host.Outcome State Fault Refusal :=
  done (s.issueSimple (barForm (bForm 2)) fun c s => c.bar .arrive id 0 1 s)
def execBarW (id : Nat) (s : State) : Host.Outcome State Fault Refusal :=
  done (s.issueSimple (barForm (bForm 2)) fun c s => c.bar .wait id 0 1 s)
def execBarExt (g : Nat) (kind : BarKind) (id exp cnt : Nat) (s : State) : Host.Outcome State Fault Refusal :=
  done (s.issueSimple (barForm (eForm g 2)) fun c s => c.bar kind id exp cnt s)

/-! ### Regions (R187) -/

def execRgn (g b : Nat) (s : State) : Host.Outcome State Fault Refusal :=
  done (s.issueSimple (eForm g 2) fun c s => s.commitPoint c noCheck fun s =>
    (s.leave c).modWarp c.wid fun w => w.setBudget c.en b)

/-! ### poll (R188) -/

/-- Whether a wait on a key is non-local (R250). -/
def farKey (key : Nat) : Bool := isRemote key || isAp key

/-- The delay after the k-th failure. -/
def pollDelay (k bo : Nat) : Nat := 64 * 2 ^ min k bo

/-- The lane's test holds: it takes the value and leaves (R188). -/
def State.pollPass (s : State) (wid : Nat) (b : Blocked) (p : PollOp) (v : Nat) : State :=
  let s := s.modWarp wid fun w => w.setX p.d b.lanes (fun _ => BitVec.ofNat 32 v)
  (s.acquireBy (coreOf wid) (scopeAt p.sp p.acq)).pass wid b

def pollHolds (p : PollOp) (v : Nat) : Bool := condInt p.cc p.ui (BitVec.ofNat 32 v) p.b

/-- A trap of a lane that waits: the lane stays at its instruction with its wait (R195, R444). -/
def State.trapWaiting (s : State) (wid : Nat) (b : Blocked) (t : Trap) : State :=
  if t.cls = .ue then s.needing wid { t := t, lanes := b.lanes, pc := b.here, done := true }
  else s.takeTrap wid t b.lanes 0 b.here 0

/-- A waiting lane cannot read: it traps, or reads again when the table line that its walk needs is back (R282). -/
def State.cannotRead (s : State) (wid : Nat) (b : Blocked) (e : Ev) (again : Wait) (t : Trap) : State :=
  match t.wait with
  | some line => (s.waitLease line e).setWait wid b again
  | none => s.trapWaiting wid b t

/-- The bytes a waiting lane reads, from its home and with the warp's held bytes in place; or why it cannot. -/
def State.waitRead (s : State) (wid : Nat) (sp : Spc) (lanes : Word) (ea : DWord) (n : Nat) : Except Trap (Nat × Nat) :=
  match s.warp? wid with
  | none => .ok (0, 0)
  | some w =>
    match s.reach wid lanes .read sp n n (fun _ _ => ea) with
    | .error t => .error t
    | .ok spots =>
      let key := (spots.map (·.2)).headD 0
      match (match sp with | .s => none | .g => s.upsetTrap key n ea) with
      | some t => .error t
      | none => .ok (key, leNat ((List.range n).map fun i => w.forward sp (key + i) (BitVec.ofNat 8 (s.homeRead w.blk sp (key + i) 1))))

/-- The L1 copy of a re-read line is dropped (R188). -/
def State.rereadLine (s : State) (wid : Nat) (sp : Spc) (key : Nat) : State :=
  match sp with
  | .s => s
  | .g => ((s.invLine (coreOf wid) (lineOf key)).homeLine (coreOf wid) (lineOf key)).sawHome (coreOf wid) key

/-- A re-read of a waiting lane: it leaves, or waits on with its next delay (R188); a leased line comes home first (R282). -/
def State.pollAgain (s : State) (wid : Nat) (b : Blocked) (p : PollOp) : State :=
  let e : Ev := .pollReread wid ((lanesOf b.lanes).headD 0)
  let again : Wait := .poll { p with owed := 2 }
  match s.waitRead wid p.sp b.lanes p.ea 4 with
  | .error t => s.cannotRead wid b e again t
  | .ok (key, v) =>
    if p.sp = .g && s.leasedOut (lineOf key) then (s.waitLease (lineOf key) e).setWait wid b again
    else
    let s := s.rereadLine wid p.sp key
    if pollHolds p v then s.pollPass wid b p v
    else s.setWait wid b (.poll { p with k := p.k + 1, due := (s.clk wid).toNat + pollDelay (p.k + 1) p.bo, owed := 0 })

/-- Step 4 of a `poll`: each enabled lane reads and tests; those that fail wait (R188). -/
def Ctx.pollAll (c : Ctx) (mk : Warp → Nat → PollOp) (sp : Spc) (ea : Warp → Nat → DWord) (s : State) : State :=
  match s.reach c.wid c.en .read sp 4 4 ea with
  | .error t => s.raise4 c t
  | .ok spots => s.whenHome c c.paidUp (match sp with | .s => [] | .g => distinct (spots.map fun p => lineOf p.2)) fun s => s.withWarp c.wid fun w =>
    let vs := spots.map fun p => (p, s.loadNum c.core w sp p.2 4)
    let s := (s.used c sp ea).loaded c.core w.ctx sp spots
    let s := (s.modWarp c.wid fun w => { w with stage := none }).passOthers c
    vs.foldl (fun s x =>
      let p := { mk w x.1.1 with far := sp = .g && farKey x.1.2 }
      let b := s.blockOf c (laneBit x.1.1) (.poll p)
      if pollHolds p x.2 then s.pollPass c.wid b p x.2 else s.block c b.lanes b.what) s

/-- A lane's test at its first read: the first re-read follows 64 cycles later (R188). -/
def pollOf (d : Nat) (cc : Cc) (ui : Bool) (acq : Option Scope) (bo : Nat) (sp : Spc) (ea : DWord) (b : Word) (now : Nat) : PollOp :=
  { d := d, cc := cc, ui := ui, acq := acq, bo := bo, sp := sp, ea := ea, b := b, k := 0, due := now + 64, far := false, owed := 0 }

def execPoll (g : Nat) (rt : Ret) (acq : Option Scope) (d : Nat) (a : SrcA) (b bo : Nat) (sp : Spc) (ui : Bool) (cc : Cc) (s : State) :
    Host.Outcome State Fault Refusal :=
  let ra := srcARegs true a
  let ea := fun (w : Warp) (l : Nat) => eaOf sp (srcAVal true a w l) 0 0
  done (s.issueSimple { eForm g 2 (ra ++ [b]) (keepOf rt ra [b] []) with dst := [d] } fun c s =>
    s.commitPoint c (c.checks .read sp 4 4 ea) fun s => s.payStep c (6 * (lanesOf c.en).length) fun s =>
      c.pollAll (fun w l => pollOf d cc ui acq bo sp (ea w l) (w.xr b l) (s.clk c.wid).toNat) sp ea s)

/-! ### mwait (R189) -/

/-- The home key that an address of a warp has now. -/
def State.keyNow (s : State) (wid : Nat) (w : Warp) (ea : DWord) : Option Nat :=
  match s.mapTo (coreOf wid) w.ctx w.priv .read ea with
  | .error _ => none
  | .ok k => some k

/-- The armed `mwait`s of a die on a line whose stamp is registered are non-local from then on (R250, R353). -/
def State.stampWaits (s : State) (d line : Nat) : State :=
  { s with warps := Tab.mapv s.warps fun wid w => if dieOf wid != d then w else
      { w with blocked := w.blocked.map fun b => match b.what with
          | .mwait p => if (s.keyNow wid w p.ea).map lineOf = some line then { b with what := .mwait { p with far := true } } else b
          | _ => b } }

def mwaitHolds (p : MwaitOp) (v : Nat) : Bool := if p.ge then decide (p.b.toNat ≤ v) else v != p.b.toNat

def State.mwaitPass (s : State) (wid : Nat) (b : Blocked) (p : MwaitOp) (v : Nat) : State :=
  let s := s.modWarp wid fun w => w.setXn true p.d b.lanes (fun _ => BitVec.ofNat 64 v)
  (s.acquireBy (coreOf wid) p.acq).pass wid b

/-- A woken lane reads and tests again, and arms its monitor if the condition is still false (R189); a leased line comes
home first (R282). -/
def State.mwaitAgain (s : State) (wid : Nat) (b : Blocked) (p : MwaitOp) : State :=
  let e : Ev := .mwaitWake wid ((lanesOf b.lanes).headD 0)
  let again : Wait := .mwait { p with owed := 2 }
  match s.waitRead wid .g b.lanes p.ea 8 with
  | .error t => s.cannotRead wid b e again t
  | .ok (key, v) =>
    if s.leasedOut (lineOf key) then (s.waitLease (lineOf key) e).setWait wid b again
    else
    let s := (s.homeLine (coreOf wid) (lineOf key)).sawHome (coreOf wid) key
    let s := s.sawHome (coreOf wid) (key + 4)
    if mwaitHolds p v then s.mwaitPass wid b p v
    else s.setWait wid b (.mwait { p with ver := s.versionAt key, owed := 0 })

/-- Step 4 of an `mwait` (R189). -/
def Ctx.mwaitAll (c : Ctx) (mk : Warp → Nat → MwaitOp) (ea : Warp → Nat → DWord) (s : State) : State :=
  match s.reach c.wid c.en .read .g 8 8 ea with
  | .error t => s.raise4 c t
  | .ok spots => s.whenHome c c.paidUp (distinct (spots.map fun p => lineOf p.2)) fun s => s.withWarp c.wid fun w =>
    let vs := spots.map fun p => (p, s.loadNum c.core w .g p.2 8)
    let s := (s.used c .g ea).loaded c.core w.ctx .g spots
    let s := (s.modWarp c.wid fun w => { w with stage := none }).passOthers c
    vs.foldl (fun s x =>
      let p := { mk w x.1.1 with far := farKey x.1.2 || (s.die c.die).stamps.contains (lineOf x.1.2), ver := s.versionAt x.1.2 }
      let b := s.blockOf c (laneBit x.1.1) (.mwait p)
      if mwaitHolds p x.2 then s.mwaitPass c.wid b p x.2 else s.block c b.lanes b.what) s

def execMwait (g : Nat) (rt : Ret) (acq : Option Scope) (d : Nat) (a : SrcA) (b : Nat) (ge : Bool) (s : State) :
    Host.Outcome State Fault Refusal :=
  let ra := srcARegs true a
  let rb := regPair true b
  let ea := fun (w : Warp) (l : Nat) => srcAVal true a w l
  done (s.issueSimple { eForm g 2 (ra ++ rb) (keepOf rt ra rb []) with dst := regPair true d } fun c s =>
    s.commitPoint c (c.checks .read .g 8 8 ea) fun s => s.payStep c (6 * (lanesOf c.en).length) fun s =>
      c.mwaitAll (fun w l => { d := d, ge := ge, acq := acq, ea := ea w l, b := w.xn true b l, ver := 0, far := false, owed := 0 }) ea s)

/-! ### Tag waits (R190) -/

/-- %tagmap of a warp's context on its core. -/
def State.tagsOf (s : State) (wid : Nat) : DWord :=
  match s.warp? wid with
  | some w => ((s.core (coreOf wid)).tagmap w.ctx).done
  | none => 0

/-- The lowest set index, 64 for none. -/
def lowestTag (r : DWord) : DWord := if r = 0 then 64 else BitVec.ofNat 64 (Integer.lowBit 64 r.toNat)

def tagsDone (all : Bool) (mask r : DWord) : Bool := if all then r == mask else r != 0 || mask == 0
def tagsValue (all : Bool) (r : DWord) : DWord := if all then r else lowestTag r

def State.tryTags (s : State) (wid : Nat) (b : Blocked) : State :=
  match b.what with
  | .tags all mask d =>
    let r := s.tagsOf wid &&& mask
    if tagsDone all mask r then ((s.modWarp wid fun w => w.setK d (tagsValue all r)).pass wid b).observe wid mask else s
  | _ => s

def Ctx.tagWait (c : Ctx) (all : Bool) (d : Nat) (mask : Warp → DWord) (s : State) : State :=
  s.commitPoint c noCheck fun s => s.withWarp c.wid fun w => s.blockTry c (.tags all (mask w) d) State.tryTags

def execTwany (a d : Nat) (s : State) : Host.Outcome State Fault Refusal :=
  done (s.issueSimple (bForm 2) fun c s => c.tagWait false d (fun w => w.kr a) s)
def execTwanyExt (g d : Nat) (b : KSrc) (s : State) : Host.Outcome State Fault Refusal :=
  done (s.issueSimple { eForm g 2 with len := lenK b } fun c s => c.tagWait false d (kSrcVal b) s)
def execTwall (a d : Nat) (s : State) : Host.Outcome State Fault Refusal :=
  done (s.issueSimple (bForm 2) fun c s => c.tagWait true d (fun w => w.kr a) s)
def execTwallExt (g d : Nat) (b : KSrc) (s : State) : Host.Outcome State Fault Refusal :=
  done (s.issueSimple { eForm g 2 with len := lenK b } fun c s => c.tagWait true d (kSrcVal b) s)

def State.execTffForm (s : State) (f : Form) (d : Nat) (mask : Warp → DWord) : State :=
  s.issueSimple f fun c s => s.withWarp c.wid fun w =>
    (c.scaEffect d (fun _ => lowestTag (s.tagsOf c.wid &&& mask w)) s).observe c.wid (mask w)
def execTff (a d : Nat) (s : State) : Host.Outcome State Fault Refusal := done (s.execTffForm (bForm 2) d fun w => w.kr a)
def execTffExt (g d : Nat) (b : KSrc) (s : State) : Host.Outcome State Fault Refusal :=
  done (s.execTffForm { eForm g 2 with len := lenK b } d (kSrcVal b))

end Sys2Proof.Machine
end

