-- ==== Sys2Proof/Machine/Engine.lean ====
section
/-!
DEFINITION. Machine/Engine.lean: what the engines of a core share: their reads and writes of memory, tile handles, faults after issue,
and their demands on the core bucket (spec/07 R192 to R198, R213, R214; spec/10 R283, R306; spec/13 R370; spec/14 R413).
-/

namespace Sys2Proof.Machine

/-! ### Forms and register values (R192, R198) -/

/-- An extended instruction of chapter 7: its price, its level, whether reduced service lacks it. -/
def engForm (g price : Nat) (full : Bool := false) (level : Level := .n) : Form := { eForm g price with level := level, full := full }

/-- Check 4 on register values of the issuing warp (R192). -/
def onRegs (ok : Warp → Bool) (c : Ctx) (s : State) : Bool :=
  match s.warp? c.wid with
  | some w => ok w
  | none => true

/-- Bits of a k-register at and above a position are zero. -/
def resAbove (v : DWord) (n : Nat) : Bool := decide (v.toNat < 2 ^ n)
def low32 (v : DWord) : Nat := v.toNat % 2 ^ 32
def high32 (v : DWord) : Int := ((v >>> 32).setWidth 32).toInt
def low32i (v : DWord) : Int := (v.setWidth 32).toInt

/-! ### Memory as an engine reaches it -/

/-- On whose behalf an engine works: core, context, block, and the issuing warp's level. -/
structure Eng where
  core : Nat
  ctx : Nat
  blk : Nat
  priv : Bool
  mfetch : Bool := false       -- through the operand fetcher and its staging (R184, R196)
  deriving DecidableEq, Repr

def MatOp.eng (o : MatOp) (core : Nat) : Eng := { core := core, ctx := o.ctx, blk := o.blk, priv := o.priv, mfetch := true }
def CopyCmd.eng (o : CopyCmd) (core : Nat) : Eng := { core := core, ctx := o.ctx, blk := o.blk, priv := o.priv }

/-- The engine of an issuing warp's operations. -/
def Ctx.eng (c : Ctx) (w : Warp) : Eng := { core := c.core, ctx := w.ctx, blk := w.blk, priv := w.priv }

/-- An address an engine cannot reach: outside the 64-bit space or the scratchpad (R214, R215; log entry 28). -/
def State.tileFault (s : State) (a : Int) : Trap := { cls := .prot, cause := s.boundsCause, addr := BitVec.ofInt 64 a }

/-- The key of a byte, or why it cannot be reached, an error in what it reads among the causes (R407); scratchpad keys are offsets. -/
def State.engKey (s : State) (e : Eng) (a : Acc) (sp : Spc) (va : Int) : Except Trap Nat :=
  match sp with
  | .s => if va < 0 || (s.spadSize e.blk : Int) ≤ va then .error (s.tileFault va) else .ok va.toNat
  | .g => if va < 0 || (2 ^ 64 : Int) ≤ va then .error (s.tileFault va) else
    match s.place e.core e.ctx e.priv a (BitVec.ofInt 64 va) with
    | .error t => .error t
    | .ok k => match (if a.reads && !s.mem.upset.isEmpty then s.upsetTrap k 1 (BitVec.ofInt 64 va) else none) with
      | some t => .error t
      | none => .ok k

/-- A byte at a key past every buffer of an engine: from scratchpad, or past the L1. -/
def State.engHome (s : State) (e : Eng) (sp : Spc) (key : Nat) : Byte :=
  match sp with
  | .s => s.spadByte e.blk key
  | .g => if isAp key then s.apByte (key - keyAp 0) else s.beyondL1 key

/-- The scratchpad of a staged line; none in global space. -/
def Eng.spad (e : Eng) (sp : Spc) : Option Nat := match sp with | .s => some e.blk | .g => none

/-- The line that the operand fetcher of an engine still holds for a context (R184, log entry 102). -/
def State.stagedLine (s : State) (e : Eng) (sp : Spc) (line : Nat) : Option Staged :=
  if !e.mfetch then none else
  (s.core e.core).staged.find? fun x => x.ctx == e.ctx && x.spad == e.spad sp && x.line == line
    && Config.keeps s.own.freeCount (2 ^ 100 + 2 * line + (match sp with | .s => 1 | .g => 0))

/-- A byte at a key as an engine reads it: from its staging, else past every buffer. -/
def State.engAt (s : State) (e : Eng) (sp : Spc) (key : Nat) : Byte :=
  match s.stagedLine e sp (key / 128) with
  | some x => x.bytes.getD (key % 128) 0
  | none => s.engHome e sp key

/-- The operand fetcher holds the lines it has just read. -/
def State.stageLines (s : State) (e : Eng) (ls : List (Spc × Nat)) : State :=
  let due := ls.filter fun l => (s.stagedLine e l.1 l.2).isNone && !(match l.1 with | .g => isAp (l.2 * 128) | .s => false)
  s.modCore e.core fun c => { c with staged := due.foldl (fun t l =>
    { ctx := e.ctx, spad := e.spad l.1, line := l.2, bytes := (List.range 128).map fun i => s.engHome e l.1 (l.2 * 128 + i) }
      :: t.filter (fun x => !(x.ctx == e.ctx && x.spad == e.spad l.1 && x.line == l.2))) c.staged }

def State.engByte (s : State) (e : Eng) (sp : Spc) (va : Int) : Except Trap Byte :=
  match s.engKey e .read sp va with
  | .error t => .error t
  | .ok k => .ok (s.engAt e sp k)

/-- n bytes from an address. -/
def State.engBytes (s : State) (e : Eng) (sp : Spc) (va : Int) (n : Nat) : Except Trap (List Byte) :=
  tryAll (fun i => s.engByte e sp (va + (i : Nat))) (List.range n)

/-- A number of n bytes. -/
def State.engNum (s : State) (e : Eng) (sp : Spc) (va : Int) (n : Nat) : Except Trap Nat :=
  match s.engBytes e sp va n with
  | .error t => .error t
  | .ok bs => .ok (leNat bs)

/-! ### Places of elements (R67, R214) -/

/-- Where an element lies: nowhere (out of bounds), or at a byte address, in its upper half or not. -/
inductive Loc where
  | none
  | at_ (sp : Spc) (va : Int) (hi : Bool)
  deriving DecidableEq, Repr

/-- Element i of width w of a packed run (R67). -/
def packedLoc (sp : Spc) (base : Int) (w i : Nat) : Loc := .at_ sp (base + (i * w / 8 : Nat)) (w = 4 && i % 2 = 1)

/-- The bits of an element. -/
def State.engElem (s : State) (e : Eng) (w : Nat) (l : Loc) : Except Trap Nat :=
  match l with
  | .none => .ok 0
  | .at_ sp va hi =>
    match s.engNum e sp va ((w + 7) / 8) with
    | .error t => .error t
    | .ok v => .ok ((if hi then v / 16 else v) % 2 ^ w)

/-- The bytes that an element's bits become, with their nibbles. -/
def elemBytes (w v : Nat) (hi : Bool) : List (Byte × Nat) :=
  if w = 4 then [(BitVec.ofNat 8 (v % 16 * 17), if hi then 2 else 1)]
  else (List.range (w / 8)).map fun i => (BitVec.ofNat 8 (v / 256 ^ i), 3)

/-! ### Tile handles (R213, R214) -/

namespace Dsc
def base (d : List Byte) : Nat := leAt d 0 8 / 128 * 128
def fmt (d : List Byte) : Nat := leAt d 0 1 / 8 % 16
def ndim (d : List Byte) : Nat := leAt d 0 1 % 8
/-- Byte stride of dimension k ≥ 1. -/
def stride (d : List Byte) (k : Nat) : Nat := 16 * leAt d (4 + 4 * k) 4
def start (d : List Byte) (k : Nat) : Int := (BitVec.ofNat 32 (leAt d (0x18 + 4 * k) 4)).toInt
def box (d : List Byte) (k : Nat) : Nat := leAt d (0x2F + 4 * k) 1 + 1
def extent (d : List Byte) (k : Nat) : Nat := leAt d (0x2C + 4 * k) 3

/-- Bits of an element as dimension 0 counts it: 16 for a CB16 code. -/
def width (d : List Byte) : Nat := if fmt d = 8 then 16 else elemBits (fmt d)

/-- The table of R213 holds. -/
def ok (d : List Byte) : Bool :=
  fmt d ≤ 9 && ndim d ≤ 4 &&
    (List.range 5).all fun k => k ≤ ndim d ||
      (leAt d (4 + 4 * k) 4 == 0 && leAt d (0x18 + 4 * k) 4 == 0 && leAt d (0x2C + 4 * k) 4 == 0)

/-- Elements of the box. -/
def count (d : List Byte) : Nat := (List.range (ndim d + 1)).foldl (fun n k => n * box d k) 1

/-- Bytes of the box's linear image. -/
def imageBytes (d : List Byte) : Nat := (count d * width d + 7) / 8

/-- Position of linear index i in dimension k. -/
def pos (d : List Byte) (i k : Nat) : Nat := i / (List.range k).foldl (fun n j => n * box d j) 1 % box d k

/-- The element at offsets b_k from the start, with the instruction's offsets in dimensions 0 and 1 (R214). -/
def loc (d : List Byte) (off0 off1 : Int) (b : Nat → Nat) : Loc :=
  let idx : Nat → Int := fun k => start d k + (if k = 0 then off0 else if k = 1 then off1 else 0) + (b k : Nat)
  let dims := List.range (ndim d + 1)
  if !dims.all (fun k => decide (0 ≤ idx k) && decide (idx k < (extent d k : Nat))) then .none
  else
    let row : Int := dims.foldl (fun (t : Int) k => if k = 0 then t else t + idx k * (stride d k : Nat)) (base d : Nat)
    .at_ .g (row + idx 0 * (width d : Nat) / 8) (width d = 4 && idx 0 % 2 = 1)

/-- Element i of the box. -/
def boxLoc (d : List Byte) (off0 off1 : Int) (i : Nat) : Loc := loc d off0 off1 (pos d i)
end Dsc

/-- The descriptor of a handle of the block's context (R213); ILLEGAL where it breaks the table. -/
def State.descriptor (s : State) (e : Eng) (record : List Byte) (handle : Nat) : Except Trap (List Byte) :=
  match s.engBytes e .g (Rec.handles record + 64 * handle : Nat) 64 with
  | .error t => .error t
  | .ok d => if Dsc.ok d then .ok d else .error { cls := .illegal }

/-- A tile handle is named by a block without a descriptor table (R232). -/
def State.handleTrap (s : State) (w : Warp) (on : Bool) : Option Trap :=
  if on && Rec.handles (s.recOf w) = 0 then some { cls := .prot, cause := s.boundsCause } else none

/-! ### Faults after issue (R195) -/

/-- A trap for a warp blocked at step 4 is taken at once; any other warp takes it at its next commit point. -/
def State.deliver (s : State) (wid blk : Nat) (t : Trap) : State :=
  let s := if t.cls = .ue then s.contains (s.mem.upsetAt (t.aux.toNat / 128 * 128) 128) none else s
  match s.warp? wid with
  | none => s
  | some w =>
    if w.blk ≠ blk && !isService (coreOf wid) then s
    else match w.blocked with
      | b :: _ =>
        if w.runnable = 0 && w.susp.isNone then
          let lanes := w.blocked.foldl (fun m x => if x.here = b.here then m ||| x.lanes else m) 0
          s.takeTrap wid t lanes 1 b.here b.here
        else s.modWarp wid fun w => { w with faults := w.faults ++ [t] }
      | [] => s.modWarp wid fun w => { w with faults := w.faults ++ [t] }

/-- The record of an engine fault names the operation by its tag, where it has one (R195, R400). -/
def namedBy (tag : Nat) (t : Trap) : Trap := { t with info := if tag < 64 then BitVec.ofNat 32 tag else 0 }

/-! ### Demands on the core bucket (R198, R370) -/

/-- The first step not yet paid. -/
def nextDue : List (Nat × Nat) → Option Nat
  | [] => none
  | (p, n) :: r => if n = 0 then nextDue r else some p

/-- The steps left after one is paid. -/
def payDue : List (Nat × Nat) → List (Nat × Nat)
  | [] => []
  | (p, n) :: r => if n = 0 then payDue r else if n = 1 then r else (p, n - 1) :: r

/-- Whether an engine's demand waits in its core's queue: unit 0 is the matrix engine, 1 the copy engine, 2 the collective engine. -/
def Core.engineWaits (c : Core) (unit : Nat) : Bool := c.queue.any fun d => match d with
  | .engine u _ _ => u == unit
  | _ => false

/-- An engine's demand for a step of an operation: the step is taken if it is paid now, else the engine waits in the queue. -/
def State.engineDemand (s : State) (core unit ctx opid price : Nat) (go : State → State) : State :=
  if isService core then go s
  else if (s.core core).engineWaits unit then s
  else if s.canPay core price then go (s.modCore core fun k => k.pay (s.partOf ctx) price)
  else s.modCore core fun k => { k with queue := k.queue ++ [.engine unit price opid] }

/-- The distinct 128-byte lines under ranges of bytes. -/
def vaLines (rs : List (Int × Nat)) : List Nat :=
  distinct (rs.flatMap fun r =>
    let a := r.1.toNat
    if r.2 = 0 then [] else (List.range ((a + r.2 - 1) / 128 - a / 128 + 1)).map fun i => a / 128 + i)

def linesIn (rs : List (Int × Nat)) : Nat := (vaLines rs).length

/-- A range of bytes in a space. -/
abbrev Range := Spc × Int × Nat

/-- The ranges of one space. -/
def inSpace (sp : Spc) (rs : List Range) : List (Int × Nat) := (rs.filter fun r => r.1 == sp).map Prod.snd

/-- The home lines under ranges of global addresses that an engine reaches, with the table lines that their translations read (R282,
R307). -/
def State.homeLines (s : State) (e : Eng) (rs : List Range) : List Nat :=
  let lines := vaLines (inSpace .g rs)
  let pages := distinct (lines.map (· / 512))
  distinct (pages.flatMap (fun p => s.trailOf e.core e.ctx (BitVec.ofNat 64 (65536 * p))) ++
    lines.filterMap fun l => match s.engKey e .data .g (128 * l : Nat) with
      | .ok k => some (lineOf k)
      | .error _ => none)

/-- The home lines under n bytes of a context's address. -/
def State.linesAt (s : State) (core ctx va n : Nat) : List Nat :=
  s.homeLines { core := core, ctx := ctx, blk := 0, priv := true } [(.g, (va : Int), n)]

/-- The lines of the descriptors that handles name (R213). -/
def Ctx.handleLines (c : Ctx) (s : State) (hs : List DWord) : List Nat :=
  match s.warp? c.wid with
  | none => []
  | some w => if hs.isEmpty then [] else
    s.homeLines (c.eng w) (hs.map fun v => (Spc.g, ((Rec.handles (s.recOf w) + 64 * (v.toNat % 4096) : Nat) : Int), 64))

/-- Lines read at their homes draw their steps there (R368). -/
def State.drawLines (s : State) (core : Nat) (ls : List Nat) : State := ls.foldl (fun s l => s.homeLine core l) s

/-- The elements of a row that lie in bounds, which follow each other in memory, as a range (R67, R214). -/
def rowRange (f : Nat → Loc) (n w : Nat) : List Range :=
  let at_ := (List.range n).filterMap fun i => match f i with
    | .at_ sp va _ => some (sp, va)
    | .none => none
  match at_.head?, at_.getLast? with
  | some a, some b => [(a.1, a.2, (b.2 - a.2).toNat + (w + 7) / 8)]
  | _, _ => []

end Sys2Proof.Machine
end

