-- ==== Sys2Proof/Machine/MatrixEngine.lean ====
section
/-!
DEFINITION. Machine/MatrixEngine.lean: the matrix engine of a core: macro sets, accumulator tiles, and what each of its operations
reads, pays and writes (spec/07 R194, R199 to R212; spec/09 R263 to R275; spec/13 R368).
-/

namespace Sys2Proof.Machine

/-! ### Macros and their sets (R204) -/

def MGroup.zero : MGroup := { nan := false, q := [], e := 0 }
def Macro.fresh : Macro := { cw := 8, n := 0, groups := [], ruined := false }
def Core.macro_ (c : Core) (i : Nat) : Macro := Tab.get c.macros Macro.fresh i

/-- Group g of a macro's column; every group is NaN after a parity error (R411). -/
def Macro.group (m : Macro) (g col : Nat) : MGroup :=
  if m.ruined then { nan := true, q := [], e := 0 } else Tab.get m.groups MGroup.zero (g * 64 + col)

/-- Member of chunk k and half j, and all members. -/
def setMember (t : MSet) (k j : Nat) : Nat := t.mf + k * t.nm + j
def setMembers (t : MSet) : List Nat := (List.range (t.kn * t.nm)).map (t.mf + ·)

/-- Groups of a macro by its sparsity; columns of a macro by its cell width. -/
def groupsPer (n : Nat) : Nat := if n = 0 then 4 else 96 / n
def colsPer (cw : Nat) : Nat := if cw = 16 then 32 else 64
def setGroups (t : MSet) (n : Nat) : Nat := t.kn * groupsPer n
def setCols (t : MSet) (cw : Nat) : Nat := t.nm * colsPer cw

/-- CW and N of a macro as the operations ahead leave it (R204). -/
def Core.shape (c : Core) (i : Nat) : Nat × Nat :=
  c.mat.foldl (fun sh o => match o.kind with
    | .bld _ slot _ _ _ set _ => if (setMembers set).contains i then (Slot.cellWidth slot.elem, slot.sparse) else sh
    | _ => sh) ((c.macro_ i).cw, (c.macro_ i).n)

/-- CW and N of a set whose members agree and which is legal, as the operations ahead leave them (R204, R208). -/
def Core.setShape (c : Core) (t : MSet) : Option (Nat × Nat) :=
  let sh := c.shape t.mf
  if (setMembers t).all (fun i => c.shape i == sh) && (t.nm == 1 || sh.1 == 16) then some sh else none

/-! ### Accumulator tiles (R199) -/

def accKey (desig m n : Nat) : Nat := desig * 4096 + 64 * m + n
def Core.accAt (c : Core) (desig m n : Nat) : Word := Tab.get c.acc 0 (accKey desig m n)
def Core.accPut (c : Core) (desig m n : Nat) (v : Word) : Core := { c with acc := Tab.put 0 c.acc (accKey desig m n) v }
def Core.accClear (c : Core) (desig : Nat) : Core := { c with acc := Tab.keep c.acc fun k _ => k / 4096 != desig }

/-! ### Reading until a fault (R195) -/

/-- Results in order up to the first failure, and that failure. -/
def untilFault {α β : Type} (f : α → Except Trap β) : List α → List β × Option Trap
  | [] => ([], none)
  | a :: r =>
    match f a with
    | .error t => ([], some t)
    | .ok b => let x := untilFault f r; (b :: x.1, x.2)

/-- Bytes written by an engine, by key: one version step a line, no L1 owner (R196, R278, R298). -/
def State.engWrite (s : State) (e : Eng) (sp : Spc) (bs : List (Nat × Byte × Nat)) : State :=
  match sp with
  | .s => bs.foldl (fun s b => s.spadPut e.blk b.1 (nibMerge (s.spadByte e.blk b.1) b.2.1 b.2.2)) s
  | .g =>
    let mem := bs.filter fun b => !isAp b.1
    let s := mem.foldl (fun s b => s.poke none b.1 b.2.1 b.2.2) (s.overwritten ((mem.filter fun b => b.2.2 == 3).map (·.1)))
    let lines := distinct (mem.map fun b => lineOf b.1)
    let s := s.modMem fun m => lines.foldl (fun m l => m.sealLine (some (ownerOf e.core e.ctx)) l) m
    let s := lines.foldl (fun s l => s.homeLine e.core l) s
    (joinAp (bs.filter fun b => isAp b.1) []).foldl (fun s r =>
      s.apWrite (.svc (svcOf e.core)) (r.1 - keyAp 0) r.2.length (leNat (r.2.map (·.1))) (r.2.foldr (fun b t => b.2 + 4 * t) 0)) s

/-! ### bld (R205) -/

/-- Row `row` of column `col` of the cell array. -/
def bldLoc (tile : Bool) (slot : Slot) (a : DWord) (desc : List Byte) (cols row col : Nat) : Loc :=
  if tile then
    Dsc.loc desc 0 (if slot.elem = 8 then high32 a / 8 else high32 a) fun k => if k = 0 then col else if k = 1 then row else 0
  else packedLoc .s (low32 a) (if slot.elem = 8 then 16 else elemBits slot.elem) (row * cols + col)

/-- Bits of an element of the cell array. -/
def bldWidth (tile : Bool) (slot : Slot) (desc : List Byte) : Nat :=
  if tile then Dsc.width desc else if slot.elem = 8 then 16 else elemBits slot.elem

def State.bldElem (s : State) (e : Eng) (tile : Bool) (slot : Slot) (a : DWord) (desc : List Byte) (cols row col : Nat) : Except Trap Nat :=
  s.engElem e (bldWidth tile slot desc) (bldLoc tile slot a desc cols row col)

/-- Where the scale and metadata arrays lie: scratchpad offsets, or global addresses in the handle form. -/
def bldSide (tile : Bool) (v : DWord) : Spc × Int := if tile then (.g, (v.toNat : Int)) else (.s, (low32 v : Int))

/-- Rows of the array of cells or codes of a tile of groups (R90, R205). -/
def bldRows (slot : Slot) (groups : Nat) : Nat :=
  let per := if slot.sparse = 0 then 24 else slot.sparse
  groups * (if slot.elem = 8 then per / 8 else per)

/-- A CB16 code with the base-table entry it names (R74). -/
def State.bldCode (s : State) (e : Eng) (tile : Bool) (slot : Slot) (a : DWord) (desc : List Byte) (cols row col : Nat) :
    Except Trap (Nat × Nat) :=
  match s.bldElem e tile slot a desc cols row col with
  | .error t => .error t
  | .ok code =>
    match s.engNum e .g (slot.aux + 4 * (code / 256) : Nat) 4 with
    | .error t => .error t
    | .ok entry => .ok (code, entry)

/-- The reads and checks of step 4 (R74, R90, R205). -/
def State.bldInfo (s : State) (e : Eng) (tile : Bool) (slot : Slot) (a c : DWord) (desc : List Byte) (set : MSet) : Except Trap BldInfo :=
  let cols := setCols set (Slot.cellWidth slot.elem)
  let groups := setGroups set slot.sparse
  let side := bldSide tile c
  let metas := if slot.sparse = 0 then [] else List.range (groups * cols)
  match tryAll (fun (i : Nat) => s.engNum e side.1 (side.2 + (4 * i : Nat)) 4) metas with
  | .error t => .error t
  | .ok words =>
    let places := if slot.elem = 8 then List.range (bldRows slot groups * cols) else []
    match tryAll (fun i => s.bldCode e tile slot a desc cols (i / cols) (i % cols)) places with
    | .error t => .error t
    | .ok codes =>
      if words.any (fun m => 2 ^ 24 ≤ m || (Integer.popc (BitVec.ofNat 32 m)).toNat != slot.sparse) || codes.any (fun x => 2 ^ 25 ≤ x.2)
      then .error { cls := .illegal }
      else .ok { at_ := side.2.toNat, words := words, codes := codes }

/-- The logical positions of a group's stored cells (R89). -/
def storedAt (slot : Slot) (info : BldInfo) (cols g col : Nat) : List Nat :=
  if slot.sparse = 0 then List.range 24
  else (List.range 24).filter fun i => info.words.getD (g * cols + col) 0 / 2 ^ i % 2 = 1

/-- 24 values with the stored ones in place and a default elsewhere. -/
def spread {α : Type} (d : α) (at_ : List Nat) (vs : List α) : List α :=
  (List.range 24).map fun i => match (at_.zip vs).find? (fun p => p.1 == i) with
    | some p => p.2
    | none => d

/-- Group g of a column from the arrays (R88, R205). -/
def State.bldGroup (s : State) (e : Eng) (tile : Bool) (slot : Slot) (a b : DWord) (desc : List Byte) (cols : Nat) (info : BldInfo)
    (g col : Nat) : Except Trap MGroup :=
  let side := bldSide tile b
  match if slot.scale = 0 then .ok 0 else s.engNum e side.1 (side.2 + (g * cols + col : Nat)) 1 with
  | .error t => .error t
  | .ok sc =>
    let at_ := storedAt slot info cols g col
    if slot.elem = 8 then
      let per := at_.length / 8
      let cells := (List.range per).flatMap fun q =>
        let x := info.codes.getD ((g * per + q) * cols + col) (0, 0)
        (List.range 8).map fun j => cb16Cell x.1 x.2 j
      .ok (cb16Group slot.scale sc (spread 0 at_ cells))
    else
      match tryAll (fun i => s.bldElem e tile slot a desc cols (g * at_.length + i) col) (List.range at_.length) with
      | .error t => .error t
      | .ok vs => .ok (bGroup slot.elem slot.scale sc (spread 0 at_ (vs.map (· % 2 ^ elemBits slot.elem))))

/-- The member macros of a set from its groups, in order of group and column (R204, R205). -/
def Core.putSet (c : Core) (slot : Slot) (set : MSet) (info : BldInfo) (gs : List MGroup) : Core :=
  let cw := Slot.cellWidth slot.elem
  let gm := groupsPer slot.sparse
  let cm := colsPer cw
  let macro1 := fun (k j : Nat) =>
    let at_ := fun (i : Nat) => (k * gm + i / cm) * setCols set cw + j * cm + i % cm
    let key := fun (i : Nat) => i / cm * 64 + i % cm
    let ix := List.range (gm * cm)
    ({ cw := cw, n := slot.sparse, groups := (ix.map fun i => (key i, gs.getD (at_ i) MGroup.zero)).filter (fun x => x.2 != MGroup.zero),
       metas := if slot.sparse = 0 then [] else ix.map fun i => (key i, info.words.getD (at_ i) 0), ruined := false } : Macro)
  { c with macros := (List.range (set.kn * set.nm)).foldl (fun t i =>
      Tab.put Macro.fresh t (set.mf + i) (macro1 (i / set.nm) (i % set.nm))) c.macros }

/-- The effect of a `bld` in its turn; a fault in a read leaves every macro as it is. -/
def State.runBld (s : State) (core : Nat) (e : Eng) (tile : Bool) (slot : Slot) (a b : DWord) (desc : List Byte) (set : MSet)
    (info : BldInfo) : State × Option Trap :=
  let cols := setCols set (Slot.cellWidth slot.elem)
  match tryAll (fun i => s.bldGroup e tile slot a b desc cols info (i / cols) (i % cols)) (List.range (setGroups set slot.sparse * cols)) with
  | .error t => (s, some t)
  | .ok gs => (s.modCore core fun c => c.putSet slot set info gs, none)

/-- What a `bld` reads: its cells, its scales, its metadata, and the base-table entries of its codes. -/
def bldRanges (tile : Bool) (slot : Slot) (a b : DWord) (desc : List Byte) (set : MSet) (info : BldInfo) : List (List Range) :=
  let cols := setCols set (Slot.cellWidth slot.elem)
  let groups := setGroups set slot.sparse
  let side := bldSide tile b
  [(List.range (bldRows slot groups)).flatMap fun r => rowRange (bldLoc tile slot a desc cols r) cols (bldWidth tile slot desc),
   if slot.scale = 0 then [] else [(side.1, side.2, groups * cols)],
   [(side.1, (info.at_ : Int), 4 * info.words.length)],
   info.codes.map fun x => (.g, ((slot.aux + 4 * (x.1 / 256) : Nat) : Int), 4)]

/-- Steps of a `bld`: its source lines and the macro rows it writes (R198). -/
def bldDue (tile : Bool) (slot : Slot) (a b : DWord) (desc : List Byte) (set : MSet) (info : BldInfo) : List (Nat × Nat) :=
  [(6, (bldRanges tile slot a b desc set info).foldl (fun n rs => n + linesIn (rs.map Prod.snd)) 0), (4, 96 * set.kn * set.nm)]

/-! ### mmx, mmq (R209 to R211) -/

/-- Element p of row m of A. -/
def aLoc (tile : Bool) (slot : Slot) (a b : DWord) (desc : List Byte) (m p : Nat) : Loc :=
  if tile then Dsc.loc desc (low32i b) (high32 a) fun k => if k = 0 then p else if k = 1 then m else 0
  else packedLoc .s (low32 a + m * (a.toNat / 2 ^ 32 % 2 ^ 16) : Nat) (elemBits slot.elem) p

/-- One group of a row (R87). -/
def State.aGroupAt (s : State) (e : Eng) (tile : Bool) (slot : Slot) (a b : DWord) (desc : List Byte) (groups m g : Nat) :
    Except Trap MGroup :=
  match if slot.scale = 0 then .ok 0 else s.engNum e .s (low32 b + m * groups + g : Nat) 1 with
  | .error t => .error t
  | .ok sc =>
    match tryAll (fun i => s.engElem e (elemBits slot.elem) (aLoc tile slot a b desc m (24 * g + i))) (List.range 24) with
    | .error t => .error t
    | .ok els => .ok (aGroup slot.elem slot.planes slot.scale sc els)

/-- The rows of an operation, up to a fault. -/
def State.aRows (s : State) (e : Eng) (tile : Bool) (slot : Slot) (a b : DWord) (desc : List Byte) (groups rows : Nat) :
    List (List MGroup) × Option Trap :=
  untilFault (fun m => tryAll (fun g => s.aGroupAt e tile slot a b desc groups m g) (List.range groups)) (List.range rows)

/-- Price of a pass: P cycles by cell width (R368). -/
def passPrice (p cw : Nat) : Nat := p * (if cw = 4 then 3 else if cw = 8 then 5 else 6)

/-- One pass: a row through the macro of a chunk and half, every group folded in ascending order (R209, R265, R268). -/
def Core.pass1 (c : Core) (yard : Bool) (desig : Nat) (set : MSet) (rowsPer : Nat) (rows : List (List MGroup)) (i : Nat) : Core :=
  let r := i / (set.kn * set.nm)
  let k := i / set.nm % set.kn
  let j := i % set.nm
  let tile := if yard then desig / 4 * 4 + r / rowsPer else desig
  let m := if yard then r % rowsPer else r
  let mac := c.macro_ (setMember set k j)
  let gm := groupsPer mac.n
  let cm := colsPer mac.cw
  let row := rows.getD r []
  (List.range cm).foldl (fun c col =>
    let n := j * cm + col
    c.accPut tile m n ((List.range gm).foldl (fun acc g => foldGroup acc (row.getD (k * gm + g) MGroup.zero) (mac.group g col))
      (c.accAt tile m n))) c

/-! ### mmo (R212) -/

/-- A record: row, position, FP32 value. -/
def outlierRecord (v : Nat) : Nat × Nat × Nat := (v / 2 ^ 16 % 2 ^ 16, v % 2 ^ 16, v / 2 ^ 32)

/-- Every record in range, folded by row, column and ascending group. -/
def Core.foldMmo (c : Core) (desig : Nat) (set : MSet) (cw n : Nat) (rs : List (Nat × Nat × Nat)) : Core :=
  let groups := setGroups set n
  let gm := groupsPer n
  let cm := colsPer cw
  (List.range 64).foldl (fun c m =>
    let mine := rs.filter fun r => r.1 == m && decide (r.2.1 < 24 * groups)
    if mine.isEmpty then c else
    (List.range (setCols set cw)).foldl (fun c col =>
      c.accPut desig m col ((List.range groups).foldl (fun acc g =>
        foldOutliers acc ((c.macro_ (setMember set (g / gm) (col / cm))).group (g % gm) (col % cm))
          ((mine.filter fun r => r.2.1 / 24 == g).map fun r => (r.2.1 % 24, r.2.2))) (c.accAt desig m col))) c) c

def State.runMmo (s : State) (core : Nat) (e : Eng) (desig addr count : Nat) (set : MSet) : State × Option Trap :=
  match tryAll (fun (i : Nat) => s.engNum e .g (addr + 0x40 + 8 * i : Nat) 8) (List.range count) with
  | .error t => (s, some t)
  | .ok vs =>
    let sh := (s.core core).macro_ set.mf
    (s.modCore core fun c => c.foldMmo desig set sh.cw sh.n (vs.map outlierRecord), none)

/-! ### acc.ld, acc.st, acc.z (R202, R203) -/

/-- The elements of a tile, row by row. -/
def tileElems : List (Nat × Nat) := (List.range 4096).map fun i => (i / 64, i % 64)
def accAddr (slot : Slot) (addr stride : Nat) (p : Nat × Nat) : Int := (addr + p.1 * stride + p.2 * elemBits slot.elem / 8 : Nat)

/-- An address of one tile element, from the 64-bit or 32-bit space it is computed in (R40, R203). -/
def accVa (sp : Spc) (slot : Slot) (addr stride : Nat) (p : Nat × Nat) : Int :=
  match sp with
  | .g => accAddr slot addr stride p % 2 ^ 64
  | .s => accAddr slot addr stride p

def State.runAccLd (s : State) (core : Nat) (e : Eng) (slot : Slot) (sp : Spc) (desig addr stride : Nat) : State × Option Trap :=
  let r := untilFault (fun p => s.engNum e sp (accVa sp slot addr stride p) (elemBits slot.elem / 8)) tileElems
  (s.modCore core fun c => ((tileElems.zip r.1).foldl (fun c x =>
    c.accPut desig x.1.1 x.1.2 (BitVec.ofNat 32 (convert (.elem slot.elem) (.elem 0) .rne true x.2))) c), r.2)

def State.runAccSt (s : State) (core : Nat) (e : Eng) (slot : Slot) (sp : Spc) (desig addr stride : Nat) : State × Option Trap :=
  let w := elemBits slot.elem
  let one := fun (p : Nat × Nat) =>
    let v := convert (.elem 0) (.elem slot.elem) slot.rnd slot.ovf ((s.core core).accAt desig p.1 p.2).toNat
    tryAll (fun (b : (Byte × Nat) × Nat) => match s.engKey e .write sp (accVa sp slot addr stride p + (b.2 : Nat)) with
      | .error t => Except.error t
      | .ok k => .ok (k, b.1)) (elemBytes w v false).zipIdx
  let r := untilFault one tileElems
  (s.engWrite e sp r.1.flatten, r.2)

/-- Lines that a tile's rows lie in (R198). -/
def accLines (slot : Slot) (addr stride : Nat) : Nat :=
  linesIn ((List.range 64).map fun m => ((addr + m * stride : Nat), 8 * elemBits slot.elem))

/-! ### The operations of an engine (R194, R264 to R266) -/

/-- The macros and the accumulator tiles that an operation reads or writes. -/
def MatOp.macros (o : MatOp) : List Nat :=
  match o.kind with
  | .bld _ _ _ _ _ set _ | .mm _ _ _ _ _ _ _ set _ | .mmo _ _ set => setMembers set
  | _ => []
def MatOp.tiles (o : MatOp) : List Nat :=
  match o.kind with
  | .mm yard _ _ desig _ _ _ _ _ => if yard then (List.range 4).map (desig / 4 * 4 + ·) else [desig]
  | .mmo desig _ _ | .accLd _ _ desig _ _ | .accSt _ _ desig _ _ | .accZ desig => [desig]
  | .zero bank => (List.range 4).map (4 * bank + ·)
  | .bld .. => []

/-- Two operations touch a common macro or tile: they take effect in issue order (R194). -/
def MatOp.meets (a b : MatOp) : Bool := a.macros.any b.macros.contains || a.tiles.any b.tiles.contains

/-- The operations that wait for none issued before them, which stream at once (R194, R266). -/
def freeOps (before : List MatOp) : List MatOp → List MatOp
  | [] => []
  | o :: r => if before.any o.meets then freeOps (o :: before) r else o :: freeOps (o :: before) r

def Core.free (c : Core) : List MatOp := freeOps [] c.mat

def Core.op? (c : Core) (opid : Nat) : Option MatOp := c.mat.find? fun o => o.opid == opid
def Core.modOp (c : Core) (opid : Nat) (f : MatOp → MatOp) : Core := { c with mat := modFirst (fun o => o.opid == opid) f c.mat }

/-- The passes of one row: one for each macro of the set (R266). -/
def MatOp.members (o : MatOp) : Nat :=
  match o.kind with
  | .mm _ _ _ _ _ _ _ set _ => set.kn * set.nm
  | _ => 1

/-- What an operation reads or writes in memory. -/
def State.matRanges (s : State) (core : Nat) (o : MatOp) : List Range :=
  match o.kind with
  | .bld tile slot a b desc set info => (bldRanges tile slot a b desc set info).flatten
  | .mm _ tile slot _ a b desc set rows =>
    let n := setGroups set ((s.core core).macro_ set.mf).n
    ((List.range rows).flatMap fun m => rowRange (aLoc tile slot a b desc m) (24 * n) (elemBits slot.elem))
      ++ (if slot.scale = 0 then [] else [(.s, (low32 b : Int), rows * n)])
  | .mmo _ addr _ => [(.g, (addr : Int), 0x40 + 8 * o.count)]
  | .accLd slot sp _ addr stride | .accSt slot sp _ addr stride =>
    (List.range 64).map fun m => (sp, accVa sp slot addr stride (m, 0), 8 * elemBits slot.elem)
  | _ => []

def State.matLines (s : State) (core : Nat) (o : MatOp) : List Nat := s.homeLines (o.eng core) (s.matRanges core o)

/-- The lines that an operation has read are drawn at their homes and stay in the fetcher (R184, R368). -/
def State.matRead (s : State) (core : Nat) (o : MatOp) : State :=
  let ls := s.matLines core o
  (s.drawLines core ls).stageLines (o.eng core)
    (ls.map (fun l => (Spc.g, l)) ++ (vaLines (inSpace .s (s.matRanges core o))).map fun l => (Spc.s, l))

/-- What an operation pays, once it begins; reads of its A rows and its record count are made then (R198, R212). -/
def State.matBegin (s : State) (core : Nat) (o : MatOp) : MatOp :=
  let e := o.eng core
  match o.kind with
  | .bld tile slot a b desc set info => { o with begun := true, due := bldDue tile slot a b desc set info }
  | .mm _ tile slot _ a b desc set rows =>
    let sh := (s.core core).macro_ set.mf
    let r := if o.fetched then (o.rows, o.bad) else s.aRows e tile slot a b desc (setGroups set sh.n) rows
    { o with begun := true, rows := r.1, bad := r.2, due := [(passPrice slot.planes sh.cw, r.1.length * set.kn * set.nm)] }
  | .mmo _ addr _ =>
    match s.engNum e .g addr 8 with
    | .error t => { o with begun := true, bad := some t }
    | .ok v => { o with begun := true, count := min (v % 2 ^ 32) (v / 2 ^ 32), due := [(6, min (v % 2 ^ 32) (v / 2 ^ 32))] }
  | .accLd slot _ _ addr stride | .accSt slot _ _ addr stride => { o with begun := true, due := [(8, accLines slot addr stride)] }
  | .accZ _ => { o with begun := true, due := [(8, 1)] }
  | .zero _ => { o with begun := true, due := [(8, 4)] }

/-- Whether an operation reads memory as it begins. -/
def MatOp.readsAtStart (o : MatOp) : Bool :=
  match o.kind with
  | .mm .. => !o.fetched
  | .mmo .. => true
  | _ => false

/-- An operation begins; where a line it reads is out under a lease, it recalls the line and waits (R173, R282). -/
def State.matStart (s : State) (core : Nat) (o : MatOp) : State :=
  if o.begun then s
  else if !o.readsAtStart then s.modCore core fun c => c.modOp o.opid (s.matBegin core)
  else if (s.matLines core o).any s.leasedOut then s.askBack (s.matLines core o)
  else (s.modCore core fun c => c.modOp o.opid (s.matBegin core)).matRead core o

/-- Detectors of the units a matrix step checks (R421). -/
def matUnits (o : MatOp) : List Nat :=
  match o.kind with
  | .bld .. => [6, 8]
  | .mm yard .. => if yard then [6, 7, 8, 13] else [6, 7, 8]
  | .mmo .. => [7, 8]
  | _ => [7]

/-- A paid step of an operation. -/
def State.matStep (s : State) (core opid : Nat) : State :=
  match (s.core core).op? opid with
  | none => s
  | some o =>
    let now := (s.die (dieOfCore core)).clk.toNat
    let s := s.inject (matUnits o) 0 o.ctx
    s.modCore core fun c =>
      let c := match o.kind with
        | .mm yard _ _ desig _ _ _ set rows => c.pass1 yard desig set rows o.rows o.at_
        | _ => c
      c.modOp opid fun o =>
        { o with due := payDue o.due, at_ := o.at_ + 1, rowAt := if o.at_ % o.members = 0 then some now else o.rowAt }

/-- Whether the next pass may begin: a row's passes follow those of the row before after P cycles, and the ring of a yard round is at
most the eight row buffers ahead of its slowest core (R265, R266, R272). -/
def State.mayStep (s : State) (core : Nat) (o : MatOp) : Bool :=
  match o.kind with
  | .mm yard _ slot _ _ _ _ _ _ =>
    let row := fun (x : MatOp) => x.at_ / x.members
    (o.at_ % o.members != 0 || (match o.rowAt with
        | some n => decide (n + slot.planes ≤ (s.die (dieOfCore core)).clk.toNat)
        | none => true))
      && (!yard || (yardCores core).all fun c => match (s.core c).op? o.opid with
        | some x => decide (row o < row x + 8)
        | none => true)
  | _ => true

/-- Demands of an operation in one cycle, a step after the other while they are paid. -/
def State.opSteps (core opid : Nat) : Nat → State → State
  | 0, s => s
  | n + 1, s =>
    match (s.core core).op? opid with
    | none => s
    | some o =>
      match nextDue o.due with
      | none => s
      | some price =>
        if !s.mayStep core o || (s.core core).engineWaits 0 then s
        else State.opSteps core opid n (s.engineDemand core 0 o.ctx opid price fun s => s.matStep core opid)

/-- An operation begins, and demands its next steps: the passes of one row, or one step of another kind (R266, R370). -/
def State.opDemand (s : State) (core opid : Nat) : State :=
  match (s.core core).op? opid with
  | none => s
  | some o =>
    if o.since == (s.die (dieOfCore core)).clk.toNat then s else
    State.opSteps core opid (o.members - o.at_ % o.members) (s.matStart core o)

/-- The operations that may stream make their demands, in issue order (R194, R266, R370). -/
def State.matDemand (s : State) (core : Nat) : State :=
  ((s.core core).free.map MatOp.opid).foldl (fun s n => s.opDemand core n) s

/-- Whether an operation has paid all its steps. -/
def MatOp.paid (o : MatOp) : Bool := o.begun && (nextDue o.due).isNone

/-- The operation ends at its core: its tag is set, or released unset (R193, R195). -/
def Core.endOp (c : Core) (opid ctx tag : Nat) (ok : Bool) : Core :=
  let c := { c with mat := c.mat.filter fun o => o.opid != opid }
  if 64 ≤ tag then c else if ok then c.setTag ctx tag else c.releaseTag ctx tag

/-- The four cores of an operation, or its one. -/
def MatOp.cores (o : MatOp) (core : Nat) : List Nat :=
  match o.kind with
  | .mm true .. => yardCores core
  | _ => [core]

/-- The effect of an operation whose steps are paid, and why it fails. Folds of `mmx` and `mmq` have been made pass by pass. -/
def State.matEffect (s : State) (core : Nat) (o : MatOp) : State × Option Trap :=
  let e := o.eng core
  match o.bad with
  | some t => (s, some t)
  | none =>
    match o.kind with
    | .bld tile slot a b desc set info => s.runBld core e tile slot a b desc set info
    | .mm .. => (s, none)
    | .mmo desig addr set => s.runMmo core e desig addr o.count set
    | .accLd slot sp desig addr stride => s.runAccLd core e slot sp desig addr stride
    | .accSt slot sp desig addr stride => s.runAccSt core e slot sp desig addr stride
    | .accZ desig => (s.modCore core fun c => c.accClear desig, none)
    | .zero bank => (s.modCore core fun c => { c with acc := zeroBank c.acc bank }, none)

/-- The first operation of a kind that waits for no other and has paid its steps on every core it runs on. -/
def State.readyOp (s : State) (core : Nat) (want : MatOp → Bool) : Option MatOp :=
  (s.core core).free.find? fun o => want o && (o.cores core).all fun c => (s.core c).free.any fun x => x.opid == o.opid && x.paid

/-- Whether an operation reads or writes memory as it ends. -/
def MatOp.readsAtEnd (o : MatOp) : Bool :=
  match o.kind with
  | .bld .. | .mmo .. | .accLd .. => true
  | _ => false
def MatOp.movesAtEnd (o : MatOp) : Bool := o.readsAtEnd || (match o.kind with | .accSt .. => true | _ => false)

/-- Such an operation ends; where a line it moves is out under a lease, it recalls the line and waits (R173, R282). -/
def State.matEnd (s : State) (core : Nat) (want : MatOp → Bool) : State :=
  match s.readyOp core want with
  | none => s
  | some o =>
    if o.movesAtEnd && (s.matLines core o).any s.leasedOut then s.askBack (s.matLines core o) else
    let r := s.matEffect core o
    let s := if o.readsAtEnd then r.1.matRead core o else r.1
    let s := (o.cores core).foldl (fun s c => s.modCore c fun k => k.endOp o.opid o.ctx o.tag r.2.isNone) s
    let s := if (o.cores core).length = 4 then (o.cores core).foldl (fun s c => s.modCore c fun k => k.yardTag o.ctx o.tag) s else s
    match r.2 with
    | none => s
    | some t => s.deliver o.wid o.wblk (namedBy o.tag t)

def MatOp.isZero (o : MatOp) : Bool := match o.kind with | .zero _ => true | _ => false

def State.matFinish (s : State) (core : Nat) : State := s.matEnd core fun o => !o.isZero

/-- A `zero` operation whose steps are paid frees its bank (R201, R263). -/
def State.zeroFinish (s : State) (core bank : Nat) : State :=
  let is := fun (o : MatOp) => o.kind == .zero bank
  if (s.readyOp core is).isNone then s else
  (s.matEnd core is).modCore core fun c => if c.mat.any is then c else { c with zeroing := c.zeroing.filter (· != bank) }

/-- An operation handed to a matrix engine. -/
def State.matPush (s : State) (core : Nat) (o : MatOp) : State :=
  s.modCore core fun c => { c with mat := c.mat ++ [{ o with since := (s.die (dieOfCore core)).clk.toNat }] }

end Sys2Proof.Machine
end

