-- ==== Sys2Proof/Machine/Matrix.lean ====
section
/-!
DEFINITION. Machine/Matrix.lean: the instructions of the matrix engine, accumulator banks and convergence registers (spec/07 R199 to
R212; spec/09 R263, R264, R270 to R275).
-/

namespace Sys2Proof.Machine

/-! ### Checks (R199, R204, R264, R275) -/

/-- A designator in a register: bits 7:0 below 192, the rest zero. -/
def desigOk (v : DWord) : Bool := decide (v.toNat < 192)

/-- A trap of the PROT class that no translation raises (log entry 28). -/
def State.protTrap (s : State) : Trap := { cls := .prot, cause := s.boundsCause }

/-- A designator whose bank the block does not hold. -/
def State.heldTrap (s : State) (blk desig : Nat) : Option Trap :=
  match s.block? blk with
  | some b => if b.held.contains (desig / 4) then none else some s.protTrap
  | none => some s.protTrap

/-- A context that does not own the core's macros. -/
def State.ownerTrap (s : State) (core ctx : Nat) : Option Trap :=
  match (s.core core).owner with
  | some o => if o = ctx then none else some s.protTrap
  | none => none

/-- Offset of a core's macro images (R300). -/
def macroOff (core : Nat) : Nat := 0x15000000 + 0x60000 * coreInDie core

/-- Cells of a physical row and group of a macro: a byte each, two where columns are ganged (R204, R300, log entry 103). -/
def Macro.perGroup (m : Macro) : Nat := if m.n = 0 then 24 else m.n
def Macro.cellBytes (m : Macro) : Nat := if m.cw = 16 then 2 else 1

/-- The logical positions of a group's stored cells, in order (R89). -/
def Macro.stored (m : Macro) (key : Nat) : List Nat :=
  if m.n = 0 then List.range 24 else (List.range 24).filter fun i => Tab.get m.metas 0 key / 2 ^ i % 2 = 1

/-- The 64 bytes of a physical row. -/
def Macro.row (m : Macro) (r : Nat) : List Byte :=
  (List.range (colsPer m.cw)).flatMap fun col =>
    let key := r / m.perGroup * 64 + col
    let q := (Tab.get m.groups MGroup.zero key).q.getD ((m.stored key).getD (r % m.perGroup) 0) 0
    leBytes m.cellBytes (q % 2 ^ m.cw).toNat

/-- A group again from the rows of its macro; its exponent and marks are kept. -/
def Macro.fromRows (m : Macro) (rows : List (List Byte)) (key : Nat) : MGroup :=
  let old := Tab.get m.groups MGroup.zero key
  let cell := fun (j : Nat) =>
    let v := leAt (rows.getD (key / 64 * m.perGroup + j) []) (m.cellBytes * (key % 64)) m.cellBytes % 2 ^ m.cw
    if 2 ^ (m.cw - 1) ≤ v then (v : Int) - 2 ^ m.cw else (v : Int)
  let cells := (List.range m.perGroup).map cell
  if old.nan || (old.q.isEmpty && cells.all (· == 0)) then old else { old with q := spread 0 (m.stored key) cells }

/-- Offsets of the cell rows of a macro's image, line by line. -/
def macroLines (core k : Nat) : List Nat := (List.range 48).map fun i => macroOff core + 0x1800 * k + 128 * i

/-- A macro from its image. -/
def State.loadMacro (s : State) (core ctx k : Nat) (m : Macro) : Macro :=
  if m.ruined then m else
  let rows := ((macroLines core k).map (s.restored core ctx)).flatMap fun bs => [bs.take 64, bs.drop 64]
  let keys := (List.range (groupsPer m.n * colsPer m.cw)).map fun i => i / colsPer m.cw * 64 + i % colsPer m.cw
  { m with groups := (keys.map fun k => (k, m.fromRows rows k)).filter fun x => x.2 != MGroup.zero }

/-- The macros that were saved for a context come back to its core, whose macros nobody owns (R264, R301). -/
def State.loadMacros (s : State) (core ctx : Nat) : State :=
  match Tab.look s.dev.macroImg (ctx * 256 + core) with
  | none => s
  | some im =>
    if (s.core core).owner.isSome then s else
    let macros := (List.range 32).foldl (fun t k => Tab.put Macro.fresh t k (s.loadMacro core ctx k (Tab.get im.macros Macro.fresh k))) []
    let s := match ((List.range 32).flatMap (macroLines core)).findSome? (s.poisonedSave core ctx) with
      | some t => s.saveFault core ctx t
      | none => s
    (s.modCore core fun c => { c with owner := some ctx, macros := macros }).modDev fun d =>
      { d with macroImg := Tab.del d.macroImg (ctx * 256 + core) }

/-- The issuing context becomes the owner of macros that have none; what was saved for it comes back first (R264). Without an image the
cells stay as their former owner left them (log entry 127). -/
def State.takeOwner (s : State) (core ctx : Nat) : State :=
  if (s.core core).owner.isSome then s
  else if (Tab.look s.dev.macroImg (ctx * 256 + core)).isSome then s.loadMacros core ctx
  else s.modCore core fun c => { c with owner := some ctx }


/-- The first check that fails. -/
def firstTrap : List (Option Trap) → Option Trap
  | [] => none
  | some t :: _ => some t
  | none :: r => firstTrap r

/-- A check of the issuing warp. -/
def State.ofWarp (s : State) (wid : Nat) (f : Warp → Option Trap) : Option Trap :=
  match s.warp? wid with
  | some w => f w
  | none => none

/-- A trap of step 4: the claimed tag is released unset (R193). -/
def Ctx.fail4 (c : Ctx) (tag : Nat) (t : Trap) (s : State) : State :=
  s.withWarp c.wid fun w => (if t.wait.isSome then s else s.releaseTag c.core w.ctx tag).raise4 c t

/-- A new operation of the issuing warp. -/
def mkOp (kind : MatKind) (wid : Nat) (w : Warp) (tag opid : Nat) : MatOp :=
  { kind := kind, blk := w.blk, wid := wid, ctx := w.ctx, priv := w.priv, tag := tag, opid := opid, begun := false, fetched := false,
    due := [], at_ := 0, count := 0, rows := [], bad := none, wblk := w.blk }

/-- Operations on the mfetch path: their issue has the effect of `xfence.dv core, mfetch` (R196). -/
def MatKind.fetches : MatKind → Bool
  | .bld .. | .mm .. | .mmo .. | .accLd .. => true
  | _ => false

/-- An operation is handed to the engine of the issuing core, under a new name. -/
def Ctx.issueOp (c : Ctx) (kind : MatKind) (tag : Nat) (s : State) : State :=
  s.withWarp c.wid fun w =>
    let n := s.fresh
    (if kind.fetches then n.2.dropEngine c.core w.ctx .mfetch else n.2).matPush c.core (mkOp kind c.wid w tag n.1)

/-! ### bld (R205) -/

/-- The handle operand of `bld`: handle, and K offset, a multiple of 8 for CB16. -/
def bldRegs (tile : Bool) (slot : Slot) (a : Nat) (w : Warp) : Bool :=
  if tile then (w.kr a).toNat % 2 ^ 32 < 4096 && (slot.elem != 8 || high32 (w.kr a) % 8 == 0) else resAbove (w.kr a) 32

/-- The descriptor that an instruction names by handle; none for a scratchpad form. -/
def Ctx.handleOf (c : Ctx) (tile : Bool) (v : DWord) (s : State) : Except Trap (List Byte) :=
  match s.warp? c.wid with
  | none => .ok []
  | some w => if tile then s.descriptor (c.eng w) (s.recOf w) (v.toNat % 4096) else .ok []

def execBld (g slot : Nat) (tile : Bool) (a b cR : Nat) (set : MSet) (s : State) : Host.Outcome State Fault Refusal :=
  let sl := s.curSlot slot
  let legal := sl.bRoleOk && (set.nm == 1 || Slot.cellWidth sl.elem == 16)
  done (s.issue (engForm g 4 true) (fun c s => legal && onRegs (bldRegs tile sl a) c s) (fun _ _ => 0) fun c s =>
    s.commitTag c set.tag (fun s => s.ofWarp c.wid fun w => firstTrap [s.ownerTrap c.core w.ctx, s.handleTrap w tile]) fun s => s.withWarp c.wid fun w =>
      let ls := c.handleLines s (if tile then [w.kr a] else [])
      s.whenHome c c.paidUp ls fun s =>
        let x := (s.drawLines c.core ls).takeOwner c.core w.ctx
        match c.handleOf tile (w.kr a) s with
        | .error t => c.fail4 set.tag t x
        | .ok desc =>
          match s.bldInfo (c.eng w) tile sl (w.kr a) (w.kr cR) desc set with
          | .error t => c.fail4 set.tag t x
          | .ok info => (c.issueOp (.bld tile sl (w.kr a) (w.kr b) desc set info) set.tag x).leave c)

/-! ### Convergence registers (R206 to R208) -/

/-- The value of `cdecl`: CNT to 2 048, Y, the rest zero. -/
def cdeclOk (v : DWord) : Bool := decide (v.toNat % 4096 ≤ 2048) && resAbove v 13

def Ctx.cdecl (c : Ctx) (d : Nat) (v : DWord) (s : State) : State :=
  s.withWarp c.wid fun w =>
    let old := Tab.look (s.core c.core).cvs d
    let other := match old with | some r => r.own.isSome && r.own != some w.blk | none => false
    let open_ := match old with | some r => r.sig != 0 | none => false
    if other then s.raise4 c s.protTrap
    else if open_ then s.raise4 c { cls := .illegal }
    else if v.toNat % 4096 = 0 then (s.modCore c.core fun k => k.releaseCv d).leave c
    else (s.modCore c.core fun k =>
      { k with cvs := Tab.upd k.cvs d { own := some w.blk, cnt := v.toNat % 4096, yard := v.getLsbD 12, sig := 0, latch := none, key := [] } }).leave c

def execCdecl (g d : Nat) (b : KSrc) (s : State) : Host.Outcome State Fault Refusal :=
  done (s.issue (engForm g 4 true) (onRegs fun w => cdeclOk (kSrcVal b w)) (fun _ _ => 0) fun c s =>
    s.commitPoint c noCheck fun s => s.withWarp c.wid fun w => c.cdecl d (kSrcVal b w) s)

/-- A round of a register is over: no signature, nothing latched (R207, R208). -/
def Core.resetCv (c : Core) (d : Nat) : Core := { c with cvs := Tab.mod c.cvs d fun r => { r with sig := 0, latch := none, key := [] } }

/-- A round that fails at its completion: the registers reset, the tags are released unset, the completing warp traps (R208). -/
def State.failRound (s : State) (cores : List Nat) (d : Nat) : State :=
  cores.foldl (fun s k => s.modCore k fun c =>
    let c := match Tab.look c.cvs d with
      | some { latch := some op, .. } => c.releaseTag op.ctx op.tag
      | _ => c
    c.resetCv d) s

/-- What fails in a latched operation when its round completes: its set, then its designator (R208). -/
def State.latchTrap (s : State) (core : Nat) (op : MatOp) : Option Trap :=
  match op.kind with
  | .mm _ _ _ desig _ _ _ set _ => if ((s.core core).setShape set).isNone then some { cls := .illegal } else s.heldTrap op.blk desig
  | _ => none

/-- The completion of a local round (R207). -/
def Ctx.localRound (c : Ctx) (d : Nat) (s : State) : State :=
  match Tab.look (s.core c.core).cvs d with
  | some { latch := some op, .. } =>
    match s.latchTrap c.core op with
    | some t => (s.failRound [c.core] d).raise4 c t
    | none => ((s.modCore c.core fun k => k.resetCv d).matPush c.core { op with wid := c.wid }).leave c
  | _ => (s.modCore c.core fun k => k.resetCv d).leave c

/-- The complete shares of a yard round, by core; empty while one is missing (R207). -/
def State.shares (s : State) (core d : Nat) : List (Nat × MatOp × List Nat) :=
  let found := (yardCores core).filterMap fun k => match Tab.look (s.core k).cvs d with
    | some { own := some _, cnt := n, yard := true, sig := m, latch := some op, key := key } => if n = m then some (k, op, key) else none
    | _ => none
  if found.length = 4 then found else []

/-- Minor, SLOT, MK, NM, M and TAG of a latch, on which the four agree (R211). -/
def yardKey (key : List Nat) : List Nat := (key.drop 1).take 6

/-- The grid of a block. -/
def State.gridOf (s : State) (blk : Nat) : Option Nat := (s.block? blk).bind fun b => b.grid

/-- What fails when a yard round completes (R208, R211). -/
def State.yardTrap (s : State) (xs : List (Nat × MatOp × List Nat)) : Option Trap :=
  let setN := fun (x : Nat × MatOp × List Nat) => (match x.2.1.kind with
    | .mm _ _ _ _ _ _ _ set _ => ((s.core x.1).setShape set).map Prod.snd
    | _ => none : Option Nat)
  match xs with
  | [] => none
  | x :: _ =>
    if !xs.all (fun y => s.gridOf y.2.1.blk == s.gridOf x.2.1.blk && (s.gridOf y.2.1.blk).isSome && yardKey y.2.2 == yardKey x.2.2
      && setN y == setN x && (setN y).isSome) then some { cls := .illegal }
    else firstTrap (xs.map fun y => s.latchTrap y.1 y.2.1)

/-- A quarter of A in the order of the ring, up to a fault (R272, R274). -/
def State.quarter (s : State) (groups : Nat) (x : Nat × MatOp × List Nat) : List (List MGroup) × Option Trap :=
  match x.2.1.kind with
  | .mm _ tile slot _ a b desc _ rows =>
    let r := s.aRows (x.2.1.eng x.1) tile slot a b desc groups rows
    (r.1, r.2.map fun t => { t with core := some x.1 })
  | _ => ([], none)

/-- The quarters one after the other; nothing follows a fault. -/
def ringRows : List (List (List MGroup) × Option Trap) → List (List MGroup) × Option Trap
  | [] => ([], none)
  | q :: r =>
    match q.2 with
    | some t => (q.1, some t)
    | none => let x := ringRows r; (q.1 ++ x.1, x.2)

/-- A yard round is issued to the four matrix engines as one operation (R211, R272). -/
def Ctx.yardIssue (c : Ctx) (d : Nat) (xs : List (Nat × MatOp × List Nat)) (s : State) : State :=
  let groups := match xs with
    | (k, op, _) :: _ => (match op.kind with
      | .mm _ _ _ _ _ _ _ set _ => setGroups set ((((s.core k).setShape set).map Prod.snd).getD 0)
      | _ => 0)
    | [] => 0
  let ring := ringRows (xs.map (s.quarter groups))
  let s := xs.foldl (fun s x => s.matRead x.1 x.2.1) s
  let n := s.fresh
  let blk := match s.warp? c.wid with | some w => w.blk | none => 0
  xs.foldl (fun s x => (s.modCore x.1 fun k => k.resetCv d).matPush x.1
    { x.2.1 with wid := c.wid, wblk := blk, opid := n.1, fetched := true, rows := ring.1, bad := ring.2 }) n.2

/-- A core's share is complete: the yard round issues when all four are (R207, R211). -/
def Ctx.yardRound (c : Ctx) (d : Nat) (s : State) : State :=
  match Tab.look (s.core c.core).cvs d with
  | some { latch := none, .. } => (s.modCore c.core fun k => k.resetCv d).leave c
  | _ =>
    match s.shares c.core d with
    | [] => s.leave c
    | xs =>
      match s.yardTrap xs with
      | some t => (s.failRound (xs.map (·.1)) d).raise4 c t
      | none => (c.yardIssue d xs s).leave c

/-- A signature is counted, and the round completes where it is the last (R207). -/
def Ctx.signed (c : Ctx) (d n : Nat) (r : Cv) (s : State) : State :=
  let s := s.modCore c.core fun k => { k with cvs := Tab.upd k.cvs d { r with sig := r.sig + n } }
  if r.sig + n < r.cnt then s.leave c else if r.yard then c.yardRound d s else c.localRound d s

/-- What a signing multiply latches. -/
structure Signing where
  yard : Bool
  key : List Nat
  tile : Bool
  handle : DWord
  elem : Nat
  aligned : Bool
  tag : Nat
  op : List Byte → MatOp

/-- The operand checks of a latching signature: grouping, descriptor, alignment (R209, R210, R213). -/
def Ctx.latchCheck (c : Ctx) (w : Warp) (x : Signing) (s : State) : Except Trap (List Byte) :=
  if x.yard && Rec.group (s.recOf w) = 0 then .error { cls := .illegal }
  else match c.handleOf x.tile x.handle s with
    | .error t => .error t
    | .ok desc =>
      if x.tile && Dsc.fmt desc ≠ x.elem then .error { cls := .illegal }
      else if !x.tile && !x.aligned then .error { cls := .align, addr := BitVec.ofNat 64 (low32 x.handle) }
      else if (s.core c.core).tagFlies w.ctx x.tag then .error { cls := .tagBusy, info := BitVec.ofNat 32 x.tag }
      else .ok desc

/-- The signature (R207). -/
def Ctx.signNow (c : Ctx) (d : Nat) (x : Option Signing) (s : State) : State :=
  s.withWarp c.wid fun w =>
    let n := (lanesOf c.en).length
    match Tab.look (s.core c.core).cvs d with
    | none => s.raise4 c { cls := .illegal }
    | some r =>
      if r.own != some w.blk then s.raise4 c s.protTrap
      else if (match x with | some x => x.yard != r.yard | none => false) then s.raise4 c { cls := .illegal }
      else if r.cnt < r.sig + n then s.raise4 c { cls := .barOver }
      else match x with
        | none => c.signed d n r s
        | some x =>
          match r.latch with
          | some _ => if r.key = x.key then c.signed d n r s else s.raise4 c { cls := .illegal }
          | none =>
            match c.latchCheck w x s with
            | .error t => s.raise4 c t
            | .ok desc => c.signed d n { r with latch := some (x.op desc), key := x.key } (s.claimTag c.core w.ctx x.tag)

/-- The lines that the quarters of a yard round read which this signature completes, asked for only while some lease is out (R282). -/
def Ctx.roundLines (c : Ctx) (d : Nat) (x : Option Signing) (s : State) : List Nat :=
  if s.mem.leases.isEmpty then [] else
  match s.warp? c.wid, Tab.look (s.core c.core).cvs d with
  | some w, some r =>
    let n := (lanesOf c.en).length
    if !r.yard || r.sig + n ≠ r.cnt then [] else
    let r := match r.latch, x with
      | none, some x => (match c.latchCheck w x s with
        | .ok desc => { r with latch := some (x.op desc), key := x.key }
        | .error _ => r)
      | _, _ => r
    let s := s.modCore c.core fun k => { k with cvs := Tab.upd k.cvs d { r with sig := r.sig + n } }
    (s.shares c.core d).flatMap fun y => s.matLines y.1 y.2.1
  | _, _ => []

/-- Step 4 of a signing instruction: the effect of `xfence.dv core, mfetch`, then the signature, once the lines of a round that it
completes are at their homes (R196, R207, R282). -/
def Ctx.sign (c : Ctx) (d : Nat) (x : Option Signing) (s : State) : State :=
  let hs := match x with | some x => if x.tile && ((Tab.look (s.core c.core).cvs d).bind (·.latch)).isNone then [x.handle] else [] | none => []
  let ls := c.handleLines s hs
  s.whenHome c c.paidUp (ls ++ c.roundLines d x s) fun s => s.withWarp c.wid fun w =>
    c.signNow d x ((s.drawLines c.core ls).dropEngine c.core w.ctx .mfetch)

def execCsig (g d : Nat) (s : State) : Host.Outcome State Fault Refusal :=
  done (s.issueSimple (engForm g 4 true) fun c s => s.commitPoint c noCheck fun s => c.sign d none s)

/-- Register values of a multiply (R209, R210). -/
def mmRegs (yard : Bool) (e : Mm) (w : Warp) : Bool :=
  desigOk (w.kr e.d) && (!yard || (w.kr e.d).toNat % 4 == 0) && resAbove (w.kr e.b) 32
    && (if e.tile then (w.kr e.a).toNat % 2 ^ 32 < 4096 else resAbove (w.kr e.a) 48)

/-- What the multiply latches, from the registers of its signer. -/
def signingOf (yard : Bool) (sl : Slot) (e : Mm) (wid : Nat) (w : Warp) (opid : Nat) : Signing :=
  { yard := yard,
    key := [if yard then 0xE2 else 0xE1, if e.tile then 1 else 0, e.slot, e.set.kn, e.set.nm, e.m, e.set.tag, e.set.mf, e.d, e.a, e.b,
            (w.kr e.d).toNat, (w.kr e.a).toNat, (w.kr e.b).toNat],
    tile := e.tile, handle := w.kr e.a, elem := sl.elem,
    aligned := low32 (w.kr e.a) % 4 = 0 && (w.kr e.a).toNat / 2 ^ 32 % 4 = 0, tag := e.set.tag,
    op := fun desc => mkOp (.mm yard e.tile sl (w.kr e.d).toNat (w.kr e.a) (w.kr e.b) desc e.set e.m) wid w e.set.tag opid }

/-- `mmx` and `mmq`: the checks of step 1, then the signature (R207, R209, R210, R275). -/
def State.execMm (s : State) (yard : Bool) (e : Mm) : State :=
  let sl := s.curSlot e.slot
  let legal := sl.aRoleOk && (!e.tile || sl.scale == 0)
  s.issue (engForm e.g 4 true) (fun c s => legal && onRegs (mmRegs yard e) c s) (fun _ _ => 0) fun c s =>
    s.commitPoint c (fun s => s.ofWarp c.wid fun w =>
        firstTrap [s.heldTrap w.blk (w.kr e.d).toNat, s.ownerTrap c.core w.ctx, s.handleTrap w e.tile]) fun s => s.withWarp c.wid fun w =>
      let n := s.fresh
      c.sign e.cv (some (signingOf yard sl e c.wid w n.1)) (n.2.takeOwner c.core w.ctx)

def execMmx (e : Mm) (s : State) : Host.Outcome State Fault Refusal := done (s.execMm false e)
def execMmq (e : Mm) (s : State) : Host.Outcome State Fault Refusal := done (s.execMm true e)

/-! ### mmo (R212) -/

def execMmo (g d a : Nat) (set : MSet) (s : State) : Host.Outcome State Fault Refusal :=
  done (s.issue (engForm g 4 true) (onRegs fun w => desigOk (w.kr d)) (fun _ _ => 0) fun c s =>
    s.commitTag c set.tag (fun s => s.ofWarp c.wid fun w => firstTrap [s.heldTrap w.blk (w.kr d).toNat, s.ownerTrap c.core w.ctx,
        if (w.kr a).toNat % 64 = 0 then none else some { cls := .align, addr := w.kr a }]) fun s => s.withWarp c.wid fun w =>
      let s := s.takeOwner c.core w.ctx
      if ((s.core c.core).setShape set).isNone then c.fail4 set.tag { cls := .illegal } s
      else (c.issueOp (.mmo (w.kr d).toNat (w.kr a).toNat set) set.tag s).leave c)

/-! ### Accumulator banks (R200, R201, R263) -/

/-- Accumulator banks of a core's resident blocks that no block holds and that are not being zeroed, ascending. -/
def State.freeBanks (s : State) (core : Nat) : List Nat :=
  let here := Tab.keep s.blocks fun _ b => b.core == core && b.resident
  let held := here.flatMap fun e => e.2.held
  (List.range 48).filter fun k =>
    here.any (fun e => e.2.banksA.contains k) && !held.contains k && !(s.core core).zeroing.contains k

/-- The lanes of a core that wait for a bank, by the order they blocked. -/
def State.bankWaits (s : State) (core : Nat) : List (Nat × Nat × Blocked) :=
  (s.warpsOfCore core).flatMap fun e => e.2.blocked.filterMap fun b => match b.what with
    | .abk _ n => if !s.awake e.2 then none else some (n, e.1, b)
    | _ => none

/-- The getter that blocked first takes the lowest-numbered free bank (R200, R263). -/
def State.serveBank (s : State) (core : Nat) : State :=
  match s.freeBanks core, s.bankWaits core with
  | k :: _, x :: xs =>
    let y := xs.foldl (fun m z => if z.1 < m.1 then z else m) x
    (match y.2.2.what, s.warp? y.2.1 with
    | .abk d _, some w =>
      ((s.modBlock w.blk fun b => { b with held := insertNat b.held k }).modWarp y.2.1 fun w => w.setK d (BitVec.ofNat 64 (4 * k))).pass
        y.2.1 y.2.2
    | _, _ => s)
  | _, _ => s

/-- Gets of a block's warps that wait. -/
def State.getsWaiting (s : State) (blk : Nat) : Nat :=
  ((s.warpsOfBlock blk).flatMap fun e => e.2.blocked.filter fun b => match b.what with
    | .abk _ _ => true
    | _ => false).length

def State.abkSize (s : State) (w : Warp) : Option Trap :=
  let held := match s.block? w.blk with | some b => b.held.length | none => 0
  if held + s.getsWaiting w.blk < Rec.acb (s.recOf w) then none else some { cls := .abkSize }

def execAbkGet (g d : Nat) (s : State) : Host.Outcome State Fault Refusal :=
  done (s.issueSimple (engForm g 2 true) fun c s => s.commitPoint c (fun s => s.ofWarp c.wid s.abkSize) fun s =>
    let n := s.fresh
    (n.2.blockAll c (.abk d n.1)).serveBank c.core)

def execAbkPut (g a : Nat) (s : State) : Host.Outcome State Fault Refusal :=
  done (s.issue (engForm g 2 true) (onRegs fun w => desigOk (w.kr a) && (w.kr a).toNat % 4 == 0) (fun _ _ => 0) fun c s =>
    s.commitPoint c (fun s => s.ofWarp c.wid fun w => s.heldTrap w.blk (w.kr a).toNat) fun s => s.withWarp c.wid fun w =>
      let bank := (w.kr a).toNat / 4
      let s := s.modBlock w.blk fun b => { b with held := b.held.filter (· != bank) }
      let s := s.modCore c.core fun k => { k with zeroing := insertNat k.zeroing bank }
      (c.issueOp (.zero bank) 64 s).leave c)

/-! ### acc.z, acc.ld, acc.st (R202, R203) -/

def execAccZ (g d : Nat) (s : State) : Host.Outcome State Fault Refusal :=
  done (s.issue (engForm g 4 true) (onRegs fun w => desigOk (w.kr d)) (fun _ _ => 0) fun c s => s.withWarp c.wid fun w =>
    match s.heldTrap w.blk (w.kr d).toNat with
    | some t => s.raise c t
    | none => (c.issueOp (.accZ (w.kr d).toNat) 64 s).modWarp c.wid fun w => w.advance c.iss c.len)

/-- Register values of `acc.ld` and `acc.st`. -/
def accRegs (sl : Slot) (sp : Spc) (d a b : Nat) (w : Warp) : Bool :=
  desigOk (w.kr d) && resAbove (w.kr b) 32 && decide (8 * elemBits sl.elem ≤ (w.kr b).toNat)
    && (match sp with | .g => true | .s => resAbove (w.kr a) 32)

/-- Step 1: designator, alignment, and for scratchpad the end of the last row. -/
def State.accTrap (s : State) (sl : Slot) (sp : Spc) (w : Warp) (d a b : Nat) : Option Trap :=
  firstTrap [s.heldTrap w.blk (w.kr d).toNat,
    (if (w.kr a).toNat % 4 = 0 && (w.kr b).toNat % 4 = 0 then none else some { cls := .align, addr := w.kr a }),
    (match sp with
     | .g => none
     | .s => if (w.kr a).toNat + 63 * (w.kr b).toNat + 8 * elemBits sl.elem ≤ s.spadSize w.blk then none else some s.protTrap)]

def State.execAcc (s : State) (ld : Bool) (g slot : Nat) (sp : Spc) (d a b tag : Nat) : State :=
  let sl := s.curSlot slot
  s.issue (engForm g 4 true) (fun c s => (if ld then sl.accLdOk else sl.accStOk) && onRegs (accRegs sl sp d a b) c s) (fun _ _ => 0)
    fun c s => s.commitTag c tag (fun s => s.ofWarp c.wid fun w => s.accTrap sl sp w d a b) fun s => s.withWarp c.wid fun w =>
      let kind := if ld then MatKind.accLd sl sp (w.kr d).toNat (w.kr a).toNat (w.kr b).toNat
        else MatKind.accSt sl sp (w.kr d).toNat (w.kr a).toNat (w.kr b).toNat
      (c.issueOp kind tag s).leave c

def execAccLd (g slot : Nat) (sp : Spc) (d a b tag : Nat) (s : State) : Host.Outcome State Fault Refusal :=
  done (s.execAcc true g slot sp d a b tag)
def execAccSt (g slot : Nat) (sp : Spc) (d a b tag : Nat) (s : State) : Host.Outcome State Fault Refusal :=
  done (s.execAcc false g slot sp d a b tag)

/-! ### The engine's rows (R195, R201, R265, R266) -/

/-- MATRIX_PASS: the engine of a core makes the demand of its next step, and takes it once it is paid (R265, R370). -/
def execMatrixPass (core : Nat) (s : State) : Host.Outcome State Fault Refusal := done (s.matDemand core)

/-- MATRIX_OP_COMPLETE: an operation that waits for no other, its steps paid, writes its result and its tag (R193, R266). -/
def execMatrixOpComplete (core : Nat) (s : State) : Host.Outcome State Fault Refusal := done (s.matFinish core)

/-- BANK_ZERO_COMPLETE: a released bank is zero and free, and a blocked getter takes it (R200, R201). -/
def execBankZeroComplete (core bank : Nat) (s : State) : Host.Outcome State Fault Refusal :=
  done ((s.zeroFinish core bank).serveBank core)

end Sys2Proof.Machine
end

