-- ==== Sys2Proof/Machine/Copies.lean ====
section
/-!
DEFINITION. Machine/Copies.lean: the copy engine of a core and its instructions (spec/07 R194, R196, R213 to R218; spec/10 R283;
spec/14 R413).
-/

namespace Sys2Proof.Machine

/-! ### Elements of a copy (R214, R215) -/

def linear (o : CopyCmd) : Bool := !o.sh && !o.dh
def CopyCmd.width (o : CopyCmd) : Nat := if o.sh then Dsc.width o.hsrc else if o.dh then Dsc.width o.hdst else 8
def CopyCmd.count (o : CopyCmd) : Nat := if o.sh then Dsc.count o.hsrc else if o.dh then Dsc.count o.hdst else low32 o.c
def spcOf (scratch : Bool) : Spc := if scratch then .s else .g

/-- The base address of a linear side: a scratchpad offset or a global address. -/
def linearBase (scratch : Bool) (v : DWord) : Int := if scratch then (low32 v : Int) else (v.toNat : Int)

def CopyCmd.srcLoc (o : CopyCmd) (i : Nat) : Loc :=
  if o.sh then Dsc.boxLoc o.hsrc (low32i o.b) (high32 o.b) i else packedLoc (spcOf o.ss) (linearBase o.ss o.a) o.width i
def CopyCmd.dstLoc (o : CopyCmd) (i : Nat) : Loc :=
  if o.dh then Dsc.boxLoc o.hdst (low32i o.b) (high32 o.b) i else packedLoc (spcOf o.ds) (linearBase o.ds o.d) o.width i

/-- Bytes of the linear image of a copy. -/
def CopyCmd.bytes (o : CopyCmd) : Nat := (o.count * o.width + 7) / 8

/-! ### Writes of the copy engine (R283, R413) -/

/-- The key a copy writes a byte at; a poisoned line does not stop it here. -/
def State.copyKey (s : State) (e : Eng) (sp : Spc) (va : Int) : Except Trap Nat :=
  match sp with
  | .s => s.engKey e .write .s va
  | .g => if va < 0 || (2 ^ 64 : Int) ≤ va then .error (s.tileFault va) else s.mapTo e.core e.ctx e.priv .write (BitVec.ofInt 64 va)

/-- A byte to write: its key, value, nibbles, and address. -/
abbrev Put := Nat × Byte × Nat × Int

/-- The bytes of one element at its destination; none where it lies out of bounds. -/
def State.putElem (s : State) (e : Eng) (w v : Nat) (l : Loc) : Except Trap (List Put) :=
  match l with
  | .none => .ok []
  | .at_ sp va hi =>
    tryAll (fun (b : (Byte × Nat) × Nat) => match s.copyKey e sp (va + (b.2 : Nat)) with
      | .error t => Except.error t
      | .ok k => .ok (k, b.1.1, b.1.2, va + (b.2 : Nat))) (elemBytes w v hi).zipIdx

/-- Whether the bytes cover all 128 bytes of a line. -/
def covers (ps : List Put) (line : Nat) : Bool :=
  (List.range 128).all fun i => ps.any fun p => p.1 == line * 128 + i && p.2.2.1 == 3

/-- A page that is retired (R413). -/
def State.retired (s : State) (line : Nat) : Bool := s.mem.retired.contains (line / 512)

/-- The checked words that a copy would merge into and so consume (R407). -/
def State.putMerge (s : State) (ps : List Put) : Option Trap :=
  (s.mem.mergesAt (ps.map (·.1)) fun k => ps.any fun p => p.1 == k && p.2.2.1 == 3).bind fun e =>
    (ps.find? fun p => p.1 / 8 == e.1).map fun p =>
      { cls := .ue, cause := e.2, addr := BitVec.ofInt 64 p.2.2.2, aux := BitVec.ofNat 64 (e.1 / 16 * 128 % span) }

/-- Why a byte cannot be written: its line is poisoned and the copy does not cover it, or its page is retired (R283, R413). -/
def State.putTrap (s : State) (full : List Nat) (p : Put) : Option Trap :=
  let line := lineOf p.1
  if !s.broken line then none
  else if full.contains line && s.mem.poisoned line && s.retired line then some { s.protTrap with addr := BitVec.ofInt 64 p.2.2.2 }
  else if full.contains line && s.mem.poisoned line then none
  else some { cls := .poison, addr := BitVec.ofInt 64 p.2.2.2, aux := BitVec.ofNat 64 (line * 128 % span) }

/-- The bytes up to the first that cannot be written, and why it cannot. -/
def State.putCheck (s : State) (sp : Spc) (ps : List Put) : List Put × Option Trap :=
  match sp with
  | .s => (ps, none)
  | .g =>
    if s.mem.poison.isEmpty && s.hostUp then (ps, none) else
    let bad := distinct ((ps.map fun (p : Put) => lineOf p.1).filter s.broken)
    let full := bad.filter (covers ps)
    untilFault (fun p => match s.putTrap full p with
      | some t => Except.error t
      | none => .ok p) ps

/-- Writes the bytes; a poisoned line written whole is poisoned no longer (R283). -/
def State.putAll (s : State) (e : Eng) (sp : Spc) (ps : List Put) : State :=
  let s := match sp with
    | .s => s.inject [6] 0 e.ctx
    | .g => if s.mem.poison.isEmpty then s else
        let clean := (distinct (ps.map fun (p : Put) => lineOf p.1)).filter fun l => s.mem.poisoned l && covers ps l
        s.modMem fun m => { m with poison := m.poison.filter fun l => !clean.contains l }
  s.engWrite e sp (ps.map fun (p : Put) => (p.1, p.2.1, p.2.2.1))

/-! ### Running a command -/

/-- Element values from the source, all read before any is written (R215). -/
def State.copyReads (s : State) (e : Eng) (o : CopyCmd) : List Nat × Option Trap :=
  untilFault (fun i => s.engElem e o.width (o.srcLoc i)) (List.range o.count)

/-- Values written at the destination in order, up to a fault. -/
def State.copyWrites (s : State) (e : Eng) (o : CopyCmd) (r : List Nat × Option Trap) : State × Option Trap :=
  let p := untilFault (fun (x : Nat × Nat) => s.putElem e o.width x.1 (o.dstLoc x.2)) r.1.zipIdx
  let sp := if o.dh then Spc.g else spcOf o.ds
  let q := match sp with
    | .s => (p.1.flatten, none)
    | .g => match s.putMerge p.1.flatten with
      | some t => (p.1.flatten.filter fun x => x.1 / 128 != t.aux.toNat / 128, some t)
      | none => s.putCheck sp p.1.flatten
  (s.putAll e sp q.1, firstTrap [q.2, p.2, r.2])

/-- `cpy` (R215). -/
def State.runCpy (s : State) (core : Nat) (o : CopyCmd) : State × Option Trap :=
  let e := o.eng core
  s.copyWrites e o (s.copyReads e o)

/-! ### Windows (R216) -/

/-- Dimension-1 coordinate of element i of the box, and its place in its row. -/
def CopyCmd.rowOf (o : CopyCmd) (i : Nat) : Int := Dsc.start o.hsrc 1 + high32 o.b + (Dsc.pos o.hsrc i 1 : Nat)
def CopyCmd.placeIn (o : CopyCmd) (i : Nat) : Nat :=
  let n0 := Dsc.box o.hsrc 0
  i % n0 + n0 * (i / (n0 * (if Dsc.ndim o.hsrc = 0 then 1 else Dsc.box o.hsrc 1)))

/-- The rows a set holds for a command, none where handle, descriptor or off_0 differ. -/
def Core.heldRows (c : Core) (o : CopyCmd) : List (Int × List Nat) :=
  match Tab.look c.windows o.lb with
  | some w => if w.ctx = o.ctx && w.handle = low32 o.a && w.desc == o.hsrc && w.off0 = low32i o.b then w.rows else []
  | none => []

/-- Element i, from a held row or from memory. -/
def State.windowElem (s : State) (e : Eng) (o : CopyCmd) (rows : List (Int × List Nat)) (i : Nat) : Except Trap Nat :=
  match rows.find? (fun r => r.1 == o.rowOf i) with
  | some r => .ok (r.2.getD (o.placeIn i) 0)
  | none => s.engElem e o.width (o.srcLoc i)

/-- The rows of a whole window from its elements. -/
def CopyCmd.rowsOf (o : CopyCmd) (vs : List Nat) : List (Int × List Nat) :=
  let ix := List.range o.count
  let n1 := if Dsc.ndim o.hsrc = 0 then 1 else Dsc.box o.hsrc 1
  (List.range n1).map fun b =>
    let r := Dsc.start o.hsrc 1 + high32 o.b + (b : Nat)
    (r, (ix.filter fun i => o.rowOf i == r).map fun i => vs.getD i 0)

/-- `cpw` (R216). -/
def State.runCpw (s : State) (core : Nat) (o : CopyCmd) : State × Option Trap :=
  let e := o.eng core
  let rows := (s.core core).heldRows o
  let r := untilFault (s.windowElem e o rows) (List.range o.count)
  let differs := match Tab.look (s.core core).windows o.lb with
    | some w => w.ctx == o.ctx && w.desc != o.hsrc
    | none => false
  let s := s.modCore core fun c =>
    let ws := if differs then Tab.keep c.windows fun _ w => w.ctx != o.ctx else c.windows
    { c with windows := if r.2.isSome then Tab.del ws o.lb else
        Tab.upd ws o.lb { ctx := o.ctx, handle := low32 o.a, desc := o.hsrc, off0 := low32i o.b, rows := o.rowsOf r.1 } }
  s.copyWrites e o r

/-! ### cps (R217) -/

/-- The linear index of the block that D names. -/
def CopyCmd.target (o : CopyCmd) : Nat := o.d.toNat / 2 ^ 32 % 2 ^ 24

/-- The resident block of a grid with a linear index. -/
def State.gridBlock (s : State) (g index : Nat) : Option Nat :=
  (s.blocks.find? fun e => e.2.grid == some g && e.2.index.toNat == index && e.2.resident && e.2.kind == .grid).map (·.1)

def State.cpsBlock (s : State) (o : CopyCmd) : Option Nat := o.grid.bind fun g => s.gridBlock g o.target

/-- The grid, where the block that D names lies on another device of it (R217, R319). -/
def State.cpsAway (s : State) (o : CopyCmd) : Option (Nat × Grid) :=
  o.grid.bind fun g => (s.grid? g).bind fun v =>
    let k := o.target / Rec.groupSize v.record
    if o.ds && o.target < Rec.blocks v.record && (match v.src with
      | some x => k != x.2
      | none => v.away.contains k) then some (g, v) else none

/-- The engine as it writes the destination: into the target block's scratchpad, or where the issuing block writes. -/
def State.cpsEng (s : State) (core : Nat) (o : CopyCmd) : Except Trap Eng :=
  if !o.ds then .ok (o.eng core)
  else match s.cpsBlock o with
    | some b => .ok { o.eng core with blk := b }
    | none => .error s.protTrap

/-- `cps` into another device: the payload goes with the stamp behind it; a block no longer resident there, and a
destination past its scratchpad, are PROT (log entry 129). -/
def State.cpsSend (s : State) (o : CopyCmd) (a : Nat × Grid) (r : List Nat × Option Trap) : State × Option Trap :=
  if Config.absent s.own.freeCount o.target || Rec.spad a.2.record < low32 o.d + low32 o.c + 8 then (s, some s.protTrap) else
  let stamp := if r.2.isNone then leBytes 8 o.b.toNat else []
  (s.send (.spad a.1 a.2.src o.target (low32 o.d) (r.1.map (BitVec.ofNat 8) ++ stamp)), r.2)

/-- The payload and stamp of a `cps` of another device arrive: into the block, where it is resident. -/
def State.spadIn (s : State) (grid blk off : Nat) (bytes : List Byte) : State :=
  match s.gridBlock grid blk with
  | none => s
  | some b => bytes.zipIdx.foldl (fun s x => if off + x.2 < s.spadSize b then s.spadPut b (off + x.2) x.1 else s) s

/-- `cps`: the payload, then the stamp behind it. -/
def State.runCps (s : State) (core : Nat) (o : CopyCmd) : State × Option Trap :=
  let r := s.copyReads (o.eng core) o
  match s.cpsAway o with
  | some a => s.cpsSend o a r
  | none =>
  match s.cpsEng core o with
  | .error t => (s, some t)
  | .ok e =>
    let s := if o.ds then match s.block? e.blk with
      | some b => s.cross (dieOfCore core) (dieOfCore b.core) ((o.bytes + 71) / 64)
      | none => s else s
    let x := s.copyWrites e o r
    match x.2 with
    | some t => (x.1, some t)
    | none =>
      let stamp := { o with ss := false, c := 8, d := if o.ds then BitVec.ofNat 64 (low32 o.d + low32 o.c) else o.d + BitVec.ofNat 64 (low32 o.c) }
      x.1.copyWrites e stamp ((leBytes 8 o.b.toNat).map BitVec.toNat, none)

/-- Whether a `cps` leaves its die. -/
def State.cpsFar (s : State) (core : Nat) (o : CopyCmd) : Bool :=
  if (s.cpsAway o).isSome then true
  else if o.ds then match s.cpsBlock o with
    | some b => (match s.block? b with | some v => dieOfCore v.core != dieOfCore core | none => false)
    | none => false
  else match s.mapTo core o.ctx o.priv .write o.d with
    | .ok k => if isLocal k then dieOfLpa k != dieOfCore core else isRemote k
    | .error _ => false

/-! ### The engine (R194, R196, R198, R218) -/

/-- The bytes of an element. -/
def locRange (w : Nat) : Loc → Option Range
  | .at_ sp va _ => some (sp, va, (w + 7) / 8)
  | .none => none

/-- The bytes that a command writes; `cps` writes its stamp behind them. -/
def CopyCmd.dstRanges (o : CopyCmd) : List Range :=
  if o.dh then (List.range o.count).filterMap fun i => locRange o.width (o.dstLoc i)
  else [(spcOf o.ds, linearBase o.ds o.d, o.bytes + (if o.kind = 2 then 8 else 0))]

/-- The bytes that a command reads; `cpw` reads no row that its set holds (R216). -/
def State.srcRanges (s : State) (core : Nat) (o : CopyCmd) : List Range :=
  if o.sh then
    let rows := if o.kind = 1 then (s.core core).heldRows o else []
    ((List.range o.count).filter fun i => !rows.any fun r => r.1 == o.rowOf i).filterMap fun i => locRange o.width (o.srcLoc i)
  else [(spcOf o.ss, linearBase o.ss o.a, o.bytes)]

/-- Destination lines of a command. -/
def CopyCmd.lines (o : CopyCmd) : Nat := linesIn ((o.dstRanges.map Prod.snd).map fun r => if o.kind = 2 then (r.1, r.2 - 8) else r)

/-- What a command pays: a copy step per destination line, and for `cps` beyond its die a fabric step per flit. -/
def State.copyDue (s : State) (core : Nat) (o : CopyCmd) : List (Nat × Nat) :=
  if o.kind = 2 then [(8, o.lines + 1)] ++ (if s.cpsFar core o then [(2, (o.bytes + 8 + 63) / 64)] else []) else [(8, o.lines)]

def Core.sharedUsed (c : Core) : Nat := (c.q0.filter fun o => !o.own).length

/-- Puts a command into q0: a shared entry, or the warp's own; `none` while both are taken (R218). -/
def Core.pushQ0 (c : Core) (o : CopyCmd) : Option Core :=
  if c.sharedUsed < 64 then some { c with q0 := c.q0 ++ [{ o with own := false }] }
  else if c.q0.any (fun x => x.own && x.wid == o.wid) then none
  else some { c with q0 := c.q0 ++ [{ o with own := true }] }

def State.tryQ0 (s : State) (wid : Nat) (b : Blocked) : State :=
  match b.what with
  | .q0 cmd =>
    match (s.core (coreOf wid)).pushQ0 cmd with
    | some k => (s.setCore (coreOf wid) k).pass wid b
    | none => s
  | _ => s

/-- COPY_ENGINE_POP: the oldest command leaves q0 and starts; an empty copy is done (R194, R215). -/
def State.copyPop (s : State) (core : Nat) : State :=
  match (s.core core).q0 with
  | [] => s
  | o :: r =>
    let s := s.modCore core fun c => { c with q0 := r }
    if o.kind = 0 && linear o && low32 o.c = 0 then s.setTag core o.ctx o.tag
    else s.modCore core fun c => { c with copying := c.copying ++ [{ o with due := s.copyDue core o }] }

/-- The copy engine demands the next step of its oldest unpaid copy. -/
def State.copyDemand (s : State) (core : Nat) : State :=
  match (s.core core).copying.find? (fun o => (nextDue o.due).isSome) with
  | none => s
  | some o => s.engineDemand core 1 o.ctx o.opid ((nextDue o.due).getD 0) fun s => s.modCore core fun c =>
      { c with copying := modFirst (fun x => x.opid == o.opid) (fun x => { x with due := payDue x.due }) c.copying }

/-- A paid step of the copy engine served from the queue. -/
def State.copyStep (s : State) (core : Nat) : State :=
  s.modCore core fun c =>
    { c with copying := modFirst (fun x => (nextDue x.due).isSome) (fun x => { x with due := payDue x.due }) c.copying }

/-- Global lines that a copy reads or writes, asked for only while some lease is out (R282). -/
def State.copyLines (s : State) (core : Nat) (o : CopyCmd) : List Nat :=
  if s.mem.leases.isEmpty then [] else s.homeLines (o.eng core) (s.srcRanges core o ++ o.dstRanges)

/-- COPY_COMPLETE: a copy whose steps are paid writes, and ends with its tag set, or released unset by a fault (R193, R195, R196). -/
def State.copyFinish (s : State) (core opid : Nat) : State :=
  match (s.core core).copying.find? (fun o => o.opid == opid) with
  | none => s
  | some o =>
    if !isService core && (nextDue o.due).isSome then s
    else if (s.copyLines core o).any s.leasedOut then s.askBack (s.copyLines core o) else
    let s := s.drawLines core (s.homeLines (o.eng core) (s.srcRanges core o))
    let r := if o.kind = 0 then s.runCpy core o else if o.kind = 1 then s.runCpw core o else s.runCps core o
    let s := r.1.modCore core fun c => { c with copying := c.copying.filter fun x => x.opid != opid }
    match r.2 with
    | none => s.setTag core o.ctx o.tag
    | some t => (s.releaseTag core o.ctx o.tag).deliver o.wid o.blk (namedBy o.tag t)

/-! ### The instructions (R215 to R217) -/

/-- The handles that a command names. -/
def CopyCmd.handles (o : CopyCmd) : List DWord := (if o.sh then [o.a] else []) ++ (if o.dh then [o.d] else [])

/-- Step 4: the descriptors of the handle sides. -/
def Ctx.readHandles (c : Ctx) (w : Warp) (o : CopyCmd) (s : State) : Except Trap CopyCmd :=
  let one := fun (on : Bool) (v : DWord) => if on then s.descriptor (c.eng w) (s.recOf w) (v.toNat % 4096) else .ok []
  match one o.sh o.a with
  | .error t => .error t
  | .ok hs =>
    match one o.dh o.d with
    | .error t => .error t
    | .ok hd => .ok { o with hsrc := hs, hdst := hd }

/-- What only the descriptors decide: pairs of boxes, the size of a window, the end of the scratchpad range (R215, R216). -/
def State.copyTrap (s : State) (w : Warp) (o : CopyCmd) : Option Trap :=
  let boxes := (List.range 5).all fun k => Dsc.box o.hsrc k == Dsc.box o.hdst k
  let past := fun (v : DWord) => decide (s.spadSize w.blk < low32 v + o.bytes)
  if o.sh && o.dh && !(Dsc.fmt o.hsrc == Dsc.fmt o.hdst && boxes) then some { cls := .illegal }
  else if o.kind = 1 && 65536 < o.bytes then some { cls := .illegal }
  else if (o.ss && past o.a) || (o.ds && o.kind ≠ 2 && past o.d) then some s.protTrap
  else none

/-- Step 4: descriptors, then the push, or the wait for an entry. -/
def Ctx.pushCopy (c : Ctx) (o : CopyCmd) (s : State) : State :=
  s.withWarp c.wid fun w =>
    let ls := c.handleLines s o.handles
    s.whenHome c c.paidUp ls fun s =>
      let x := s.drawLines c.core ls
      match c.readHandles w o s with
      | .error t => c.fail4 o.tag t x
      | .ok o =>
        match s.copyTrap w o with
        | some t => c.fail4 o.tag t x
        | none => x.blockTry c (.q0 o) State.tryQ0

/-- Step 1 of a copy with two linear sides: its scratchpad ranges and the alignment of `cps` (R215, R217). -/
def State.copyCheck (s : State) (w : Warp) (o : CopyCmd) : Option Trap :=
  if o.kind = 2 && o.d.toNat % 8 ≠ 0 then some { cls := .align, addr := o.d }
  else if linear o then s.copyTrap w o
  else s.handleTrap w true

/-- A new copy command of the issuing warp. -/
def copyCmd (kind wid : Nat) (w : Warp) (s : State) (d a b c : DWord) (tag : Nat) (sh dh ss ds : Bool) (lb opid : Nat) : CopyCmd :=
  { kind := kind, blk := w.blk, wid := wid, ctx := w.ctx, priv := w.priv, d := d, a := a, b := b, c := c, tag := tag, sh := sh, dh := dh,
    ss := ss, ds := ds, lb := lb, hsrc := [], hdst := [], grid := s.gridOf w.blk, own := false, opid := opid, due := [] }

/-- The three copies: checks of step 1 with the claim of the tag, the effect of `xfence.dv core, copy`, but for the sets that R216 lets `cpw`
keep, then the push (R192, R193, R196, R197; log entry 106). -/
def State.execCopy (s : State) (f : Form) (ok : Warp → Bool) (tag : Nat) (mk : Warp → State → Nat → Nat → CopyCmd) : State :=
  s.issue f (onRegs ok) (fun _ _ => 0) fun c s =>
    s.commitTag c tag (fun s => s.ofWarp c.wid fun w => s.copyCheck w (mk w s c.wid 0)) fun s => s.withWarp c.wid fun w =>
      let n := s.fresh
      let o := mk w s c.wid n.1
      c.pushCopy o (if o.kind = 1 then n.2 else n.2.dropEngine c.core w.ctx .copy)

/-- A side's register: an address, a scratchpad offset, or a handle. -/
def sideOk (handle scratch : Bool) (v : DWord) : Bool := if handle then resAbove v 12 else !scratch || resAbove v 32

def cpyRegs (d a b c : Nat) (sh dh ss ds : Bool) (w : Warp) : Bool :=
  sideOk dh ds (w.kr d) && sideOk sh ss (w.kr a) && (sh || dh || w.kr b == 0) && (if sh || dh then w.kr c == 0 else resAbove (w.kr c) 32)

def execCpy (g d a b c tag : Nat) (sh dh ss ds : Bool) (s : State) : Host.Outcome State Fault Refusal :=
  done (s.execCopy (engForm g 4 false .u) (cpyRegs d a b c sh dh ss ds) tag
    fun w s wid n => copyCmd 0 wid w s (w.kr d) (w.kr a) (w.kr b) (w.kr c) tag sh dh ss ds 0 n)

def execCpw (g d a b tag lb : Nat) (s : State) : Host.Outcome State Fault Refusal :=
  done (s.execCopy (engForm g 4 true) (fun w => resAbove (w.kr d) 32 && resAbove (w.kr a) 12) tag
    fun w s wid n => copyCmd 1 wid w s (w.kr d) (w.kr a) (w.kr b) 0 tag true false false true lb n)

/-- The k-registers of `cps` (R217; the upper bits of C, and of A with SS: log entry 119). -/
def cpsRegs (d a c : Nat) (ss ds : Bool) (w : Warp) : Bool :=
  (!ds || resAbove (w.kr d) 56) && (!ss || resAbove (w.kr a) 32) && resAbove (w.kr c) 32 && (w.kr c).toNat % 8 == 0

def execCps (g d a b c tag : Nat) (ss ds : Bool) (s : State) : Host.Outcome State Fault Refusal :=
  done (s.execCopy (engForm g 4 false .u) (cpsRegs d a c ss ds) tag
    fun w s wid n => copyCmd 2 wid w s (w.kr d) (w.kr a) (w.kr b) (w.kr c) tag false false ss ds 0 n)

/-! ### The engine's rows -/

/-- The pushes of a core that wait for an entry of q0, in ascending warp slot (log entry 121). -/
def State.wakeQ0 (s : State) (core : Nat) : State :=
  ((s.warpsOfCore core).flatMap fun e => if !s.awake e.2 then [] else (e.2.blocked.filter fun b => match b.what with
      | .q0 _ => true
      | _ => false).map fun b => (e.1, b)).foldl (fun s x => s.tryQ0 x.1 x.2) s

def execCopyEnginePop (core : Nat) (s : State) : Host.Outcome State Fault Refusal := done ((s.copyPop core).wakeQ0 core)
def execCopyComplete (core opid : Nat) (s : State) : Host.Outcome State Fault Refusal := done (s.copyFinish core opid)

/-- The classes that an engine operation stops with (R195, R283, R408). -/
def engineClass (cls : Nat) : Option TrapClass :=
  if cls = 0x04 then some .page else if cls = 0x05 then some .prot else if cls = 0x0C then some .ue else if cls = 0x0D then some .poison else none

/-- AUX of UE and POISON: the LPA of the line at the faulting address, where it translates (R400, R408). -/
def State.withLpa (s : State) (e : Eng) (t : Trap) : Trap :=
  if t.cls != .ue && t.cls != .poison then t else
  match s.mapTo e.core e.ctx e.priv .data t.addr with
  | .ok k => { t with aux := BitVec.ofNat 64 (k / 128 * 128 % span) }
  | .error _ => t

/-- ENGINE_FAULT: the operation of a name stops where it is; its tag is released unset on every core it runs on, and the trap goes to
its issuing warp (R195, R274). -/
def execEngineFault (core opid cls cause : Nat) (addr : BitVec 64) (s : State) : Host.Outcome State Fault Refusal :=
  done (match engineClass cls with
    | none => s
    | some k =>
      let t : Trap := { cls := k, cause := cause % 256, addr := addr, core := some core }
      match (s.core core).mat.find? (fun o => o.opid == opid) with
      | some o => ((o.cores core).foldl (fun s c => s.modCore c fun k => k.endOp opid o.ctx o.tag false) s).deliver o.wid o.wblk
          (namedBy o.tag (s.withLpa (o.eng core) t))
      | none =>
        match (s.core core).copying.find? (fun o => o.opid == opid) with
        | some o => ((s.modCore core fun c => { c with copying := c.copying.filter fun x => x.opid != opid }).releaseTag core o.ctx o.tag).deliver
            o.wid o.blk (namedBy o.tag (s.withLpa (o.eng core) t))
        | none => s)

end Sys2Proof.Machine
end

