-- ==== Sys2Proof/Machine/Tasks.lean ====
section
/-!
DEFINITION. Machine/Tasks.lean: queue registers, remote invocation, child grids, continuations, futures, phases, intents, register
blocks, and illegal encodings (spec/02 R62; spec/07 R218 to R230; spec/11 R318 to R335; spec/13 R385, R386).
-/

namespace Sys2Proof.Machine

/-! ### Waiters -/

/-- Tries every lane of some warps that waits as a predicate says; warps that are not awake wait on (R444);
in ascending slot (log entry 121). -/
def State.tryWaiters (s : State) (ws : Tab Warp) (p : Wait → Bool) (test : State → Nat → Blocked → State) : State :=
  (ws.flatMap fun e => if !s.awake e.2 then [] else (e.2.blocked.filter fun b => p b.what).map fun b => (e.1, b)).foldl
    (fun s x => test s x.1 x.2) s

/-! ### Queue registers of a block (R218, R224, R225) -/

def Block.queue (b : Block) (q : Nat) : List DWord := Tab.get b.queues [] q

/-- Room for one more entry; entries of q2 that collectives have reserved count (R218). -/
def Block.room (b : Block) (q : Nat) : Bool := decide ((b.queue q).length + (if q = 2 then b.q2res else 0) < 16)
def Block.push (b : Block) (q : Nat) (v : DWord) : Block := { b with queues := Tab.put [] b.queues q (b.queue q ++ [v]) }

/-- Warp 0 of a group pops its assigned inbox record into eight registers, which frees the entry; the handler's start is an acquire at .pk
(R221, R332). -/
def State.popInbox (s : State) (wid : Nat) (b : Blocked) (d : Nat) : State :=
  match s.warp? wid with
  | none => s
  | some w =>
    match w.inbox with
    | none => s
    | some id =>
      match (s.die (dieOf wid)).inbox.find? (fun e => e.id == id) with
      | none => s
      | some e =>
        let s := s.modDie (dieOf wid) fun x => { x with inbox := x.inbox.filter fun e => e.id != id }
        (s.modWarp wid fun w => (List.range 8).foldl (fun w i => w.setK (d + i) (BitVec.ofNat 64 (leAt e.record (8 * i) 8)))
          { w with inbox := none, inv := w.inv ++ [.pk] }).pass wid b

/-- A pop of a queue of the block, or of the inbox (R225). -/
def State.tryPop (s : State) (wid : Nat) (b : Blocked) : State :=
  match b.what, s.warp? wid with
  | .pop 3 d, _ => s.popInbox wid b d
  | .pop q d, some w =>
    (match s.block? w.blk with
    | none => s
    | some k =>
      match k.queue q with
      | [] => s
      | v :: r => ((s.modBlock w.blk fun k => { k with queues := Tab.put [] k.queues q r }).modWarp wid fun w => w.setK d v).pass wid b)
  | _, _ => s

/-- A push to a queue of the block (R224). -/
def State.tryPush (s : State) (wid : Nat) (b : Blocked) : State :=
  match b.what, s.warp? wid with
  | .push q v, some w =>
    (match s.block? w.blk with
    | some k => if k.room q then (s.modBlock w.blk fun k => k.push q v).pass wid b else s
    | none => s)
  | _, _ => s

/-- Puts a collective command into q1 of the core, with its q2 entry reserved where the result goes there (R218). -/
def State.tryQ1 (s : State) (wid : Nat) (b : Blocked) : State :=
  match b.what with
  | .q1 cmd =>
    let room := match s.block? cmd.blk with | some k => k.room 2 | none => true
    if 32 ≤ (s.core (coreOf wid)).q1.length || (cmd.rq && !room) then s
    else
      let s := if cmd.rq then s.modBlock cmd.blk fun k => { k with q2res := k.q2res + 1 } else s
      (s.modCore (coreOf wid) fun c => { c with q1 := c.q1 ++ [cmd] }).pass wid b
  | _ => s

def isPop : Wait → Bool | .pop .. => true | _ => false
def isPush : Wait → Bool | .push .. => true | _ => false
def isQ1 : Wait → Bool | .q1 _ => true | _ => false

/-- What a change of a block's queues lets go on. -/
def State.wakeQueues (s : State) (blk : Nat) : State :=
  let s := s.tryWaiters (s.warpsOfBlock blk) isPop State.tryPop
  let s := s.tryWaiters (s.warpsOfBlock blk) isPush State.tryPush
  let s := s.tryWaiters (s.warpsOfBlock blk) isPop State.tryPop
  s.tryWaiters (s.warpsOfBlock blk) isQ1 State.tryQ1

/-- Blocks, tries, and lets go on what this changed. -/
def Ctx.queueOp (c : Ctx) (what : Wait) (test : State → Nat → Blocked → State) (s : State) : State :=
  s.withWarp c.wid fun w => (s.blockTry c what test).wakeQueues w.blk

def execPostQueue (g d a : Nat) (s : State) : Host.Outcome State Fault Refusal :=
  done (s.issueSimple (engForm g 4) fun c s => s.commitPoint c noCheck fun s => s.withWarp c.wid fun w =>
    c.queueOp (.push d (w.kr a)) State.tryPush s)

/-- Only warp 0 of a handler group pops q3 (R332). -/
def popOk (q : Nat) (c : Ctx) (s : State) : Bool :=
  q != 3 || (match s.warp? c.wid with
    | some w => w.widx == 0 && (match s.block? w.blk with | some b => b.kind == .handler | none => false)
    | none => true)

def execFgetQueue (g d a : Nat) (s : State) : Host.Outcome State Fault Refusal :=
  done (s.issue (engForm g 4) (popOk a) (fun _ _ => 0) fun c s => s.commitPoint c noCheck fun s => c.queueOp (.pop a d) State.tryPop s)

/-! ### Collectives (R219, R220) -/

def collCmd (isRsum : Bool) (wid : Nat) (w : Warp) (src desc : DWord) (rq ss : Bool) (opid : Nat) : CollCmd :=
  { isRsum := isRsum, blk := w.blk, wid := wid, ctx := w.ctx, priv := w.priv, src := src, desc := desc, rq := rq, ss := ss, opid := opid }

def State.execColl1 (s : State) (g : Nat) (ok : Warp → Bool) (mk : Warp → Nat → Nat → CollCmd) : State :=
  s.issue (engForm g 4 true) (onRegs ok) (fun _ _ => 0) fun c s => s.commitPoint c noCheck fun s => s.withWarp c.wid fun w =>
    let n := s.fresh
    c.queueOp (.q1 (mk w c.wid n.1)) State.tryQ1 n.2

def execColl (g a : Nat) (rq : Bool) (s : State) : Host.Outcome State Fault Refusal :=
  done (s.execColl1 g (fun _ => true) fun w wid n => collCmd false wid w 0 (w.kr a) rq false n)
def execRsum (g a b : Nat) (rq ss : Bool) (s : State) : Host.Outcome State Fault Refusal :=
  done (s.execColl1 g (fun w => !ss || resAbove (w.kr a) 32) fun w wid n => collCmd true wid w (w.kr a) (w.kr b) rq ss n)

/-! ### Remote invocation (R221, R222, R331) -/

/-- The answer ends the wait; a code of 2 or above traps behind the instruction where the form or the answer asks for it (R221, R328). -/
def State.tryRinv (s : State) (wid : Nat) (b : Blocked) : State :=
  match b.what with
  | .rinv d trapping _ _ (some code) req =>
    let s := (s.modWarp wid fun w => w.setK d (BitVec.ofNat 64 code)).pass wid b
    if 2 ≤ code && (trapping || req) then
      s.takeTrap wid { cls := .rinvNack, info := BitVec.ofNat 32 code } b.lanes 1 b.here (b.here + BitVec.ofNat 64 b.len)
    else s
  | _ => s

/-- The packet of an invocation (R331, R336). -/
def rinvPacket (s : State) (wid : Nat) (w : Warp) (target : Nat) (b hidx narg cls seq : Nat) : Invoke :=
  { sdev := s.devId, sdie := dieOf wid, score := coreInDie (coreOf wid), ctx := w.ctx, die := target / 1024 % 4, hidx := hidx, cls := cls,
    narg := narg, args := (List.range 6).map (fun i => if i < narg then w.kr (b + i) else 0), seq := seq, wid := wid }

/-- The packet leaves: to this device's own die, over the fabric, or nowhere (R222, R334). -/
def State.sendInvoke (s : State) (dev : Nat) (p : Invoke) : State × Option Nat :=
  if dev = s.devId then ((s.cross p.sdie p.die 2).soon [.event (.remoteInvocation p)], none)
  else if s.routed then (s.send (.invoke dev p), none)
  else (s, some 5)

/-- Step 4 of `rinv`: the fabric steps, the sending, and the wait for the answer (R198, R221). -/
def Ctx.rinv (c : Ctx) (d a b hidx narg cls : Nat) (trapping : Bool) (s : State) : State :=
  s.payStep c 4 fun s => s.withWarp c.wid fun w =>
    let dev := (w.kr a).toNat % 1024
    let key := ((dieOf c.wid * 1024 + dev) * 4 + (w.kr a).toNat / 1024 % 4) * 4096 + w.ctx
    let seq := Tab.get s.dev.sent 0 key + 1
    let r := s.sendInvoke dev (rinvPacket s c.wid w (w.kr a).toNat b hidx narg cls seq)
    let s := if r.2.isNone then r.1.modDev fun v => { v with sent := Tab.put 0 v.sent key seq } else r.1
    s.blockTry c (.rinv d trapping ((w.kr a).toNat % 4096) seq r.2 false) State.tryRinv

/-- The target: bits above 11 zero, a device id below 640. -/
def rinvRegs (a : Nat) (w : Warp) : Bool := resAbove (w.kr a) 12 && decide ((w.kr a).toNat % 1024 < 640)

def State.execRinvForm (s : State) (g d a b hidx narg cls : Nat) (trapping : Bool) : State :=
  s.issue (engForm g 4 false .u) (onRegs (rinvRegs a)) (fun _ _ => 0) fun c s =>
    s.commitPoint c noCheck fun s => c.rinv d a b hidx narg cls trapping s

def execRinv (g d a b hidx narg cls : Nat) (s : State) : Host.Outcome State Fault Refusal :=
  done (s.execRinvForm g d a b hidx narg cls false)
def execRinvT (g d a b hidx narg cls : Nat) (s : State) : Host.Outcome State Fault Refusal :=
  done (s.execRinvForm g d a b hidx narg cls true)

/-- What an answer carries: its code, the device and die that answer as `rinv` names them, and the invocation's SEQ (R222, R331). -/
def answerWord (tgt seq code : Nat) : Nat := code % 8 + 8 * (tgt % 4096) + 2 ^ 15 * seq

/-- INVOCATION_ANSWER: the answer to an invocation of a warp reaches the lanes that wait for it (R221, R334). -/
def execInvocationAnswer (wid code : Nat) (req : Bool) (s : State) : Host.Outcome State Fault Refusal :=
  done (s.withWarp wid fun w =>
    match w.blocked.find? (fun b => match b.what with | .rinv _ _ x n none _ => x == code / 8 % 4096 && n == code / 2 ^ 15 | _ => false) with
    | none => s
    | some b =>
      match b.what with
      | .rinv d t tgt seq _ _ =>
        let what := Wait.rinv d t tgt seq (some (code % 8)) req
        let s := s.setWait wid b what
        if !s.awake w then s else s.tryRinv wid { b with what := what }
      | _ => s)

/-! ### launch (R223, R318, R320) -/

namespace Pkt
def rec_ (p : List Byte) : Nat := leAt p 0 8
def flags (p : List Byte) : Nat := leAt p 8 4
def ser (p : List Byte) : Bool := flags p % 2 == 1
def irq (p : List Byte) : Bool := flags p / 2 % 2 == 1
def ndev (p : List Byte) : Nat := leAt p 0xC 2
def ivec (p : List Byte) : Nat := leAt p 0xE 2
def devs (p : List Byte) : Nat := leAt p 0x10 8
def waits (p : List Byte) : Nat := leAt p 0x18 8
/-- REC and WAITS aligned, res0 fields zero. -/
def ok (p : List Byte) : Bool :=
  rec_ p % 64 == 0 && waits p % 8 == 0 && flags p / 4 == 0 && ivec p / 256 == 0 && (p.drop 0x20).all (· == 0)
end Pkt

/-- Reads of step 4: the packet, its checks, its record, and the translation of WAITS (R223). -/
def Ctx.readLaunch (c : Ctx) (w : Warp) (va : DWord) (s : State) : Except Trap (List Byte × List Byte) :=
  let e := c.eng w
  match s.engBytes e .g va.toNat 64 with
  | .error t => .error t
  | .ok p =>
    if !Pkt.ok p || Pkt.ndev p ≠ 0 then .error { cls := .illegal }
    else match s.engBytes e .g (Pkt.rec_ p : Nat) 256 with
      | .error t => .error t
      | .ok r =>
        if Pkt.waits p = 0 then .ok (p, r)
        else match s.mapTo e.core e.ctx e.priv .read (BitVec.ofNat 64 (Pkt.waits p)) with
          | .error t => .error t
          | .ok _ => .ok (p, r)

/-- The nesting level of a grid. -/
def State.depthOf (s : State) (g : Option Nat) : Nat :=
  match g with
  | some g => (match s.grid? g with | some v => v.depth | none => 0)
  | none => 0

/-- The push to the device-side queue: the child belongs to the issuing grid (R223). -/
def State.tryLaunch (s : State) (wid : Nat) (b : Blocked) : State :=
  match b.what, s.warp? wid with
  | .launch q p r, some w =>
    let key := 16 * w.ctx + q
    let old := Tab.get s.dev.devq [] key
    if 64 ≤ old.length then s else
    let parent := s.gridOf w.blk
    let entry : DevEntry := { packet := p, record := r, parent := parent, depth := s.depthOf parent + 1 }
    let s := s.modDev fun v => { v with devq := Tab.upd v.devq key (old ++ [entry]) }
    let s := match parent with
      | some g => s.modGrid g fun x => { x with children := x.children + 1 }
      | none => s
    (s.soon [.event (.childLaunchAccept w.ctx q)]).pass wid b
  | _, _ => s

/-- What `launch` reads: the packet, and the record of a packet that is well formed. -/
def Ctx.launchRanges (c : Ctx) (w : Warp) (va : DWord) (s : State) : List Range :=
  (.g, (va.toNat : Int), 64) :: (match s.engBytes (c.eng w) .g va.toNat 64 with
    | .ok p => if Pkt.ok p && Pkt.ndev p = 0 then [(.g, (Pkt.rec_ p : Int), 256)] else []
    | .error _ => [])

/-- Lines read: one load step each (R198). -/
def launchLines (rs : List Range) : Nat := (rs.map fun r => linesIn [r.2]).sum

def Ctx.launch (c : Ctx) (a q : Nat) (s : State) : State :=
  s.withWarp c.wid fun w =>
    let rs := c.launchRanges w (w.kr a) s
    s.payStep c (6 * launchLines rs) fun s => s.whenHome c c.paidUp (s.homeLines (c.eng w) rs) fun s =>
      let x := s.drawLines c.core (s.homeLines (c.eng w) rs)
      match c.readLaunch w (w.kr a) s with
      | .error t => x.raise4 c t
      | .ok r => x.blockTry c (.launch q r.1 r.2) State.tryLaunch

/-- The address of a packet or record, held in a k-register, is aligned: a check of step 1 (R48, R223, R224; log entry 40). -/
def Ctx.alignedK (c : Ctx) (a n : Nat) (s : State) : Option Trap :=
  s.ofWarp c.wid fun w => if (w.kr a).toNat % n = 0 then none else some { cls := .align, addr := w.kr a }

def execLaunch (g a q : Nat) (s : State) : Host.Outcome State Fault Refusal :=
  done (s.issueSimple (engForm g 4) fun c s => s.commitPoint c (c.alignedK a 64) fun s => c.launch a q s)

/-! ### post (R224, R321) -/

/-- The yard that homes DATA, as 12·die + yard; the posting core's own where DATA is not local (R321). -/
def State.yardOf (s : State) (core ctx : Nat) (priv : Bool) (data : DWord) : Except Trap Nat :=
  match s.place core ctx priv .data data with
  | .error t => .error t
  | .ok k => .ok (if isLocal k then 12 * dieOfLpa k + yardOfLpa k else 12 * dieOfCore core + yardOfCore core)

/-- The 32 bytes of a continuation record. -/
def postRange (sp : Spc) (a : DWord) : Range := (sp, (match sp with | .g => (a.toNat : Int) | .s => (low32 a : Int)), 32)

/-- The record and the yard of step 4. -/
def Ctx.readPost (c : Ctx) (w : Warp) (sp : Spc) (a : DWord) (s : State) : Except Trap (List Byte × Nat) :=
  match s.engBytes (c.eng w) sp (postRange sp a).2.1 32 with
  | .error t => .error t
  | .ok r =>
    if leAt r 0 8 % 4 ≠ 0 then .error { cls := .align, addr := BitVec.ofNat 64 (leAt r 0 8) }
    else match s.yardOf c.core w.ctx w.priv (BitVec.ofNat 64 (leAt r 8 8)) with
      | .error t => .error t
      | .ok y => .ok (r, y)

/-- The record joins the yard's task queue of 256; its grid completes after it (R321, R322). -/
def State.tryPost (s : State) (wid : Nat) (b : Blocked) : State :=
  match b.what, s.warp? wid with
  | .post yard r, some w =>
    let d := yard / 12
    let old := Tab.get (s.die d).tasks [] yard
    (match s.gridOf w.blk with
    | none => s
    | some g =>
      if 256 ≤ old.length then s else
      let s := s.modDie d fun x => { x with tasks := Tab.upd x.tasks yard (old ++ [{ grid := g, ctx := w.ctx, record := r }]) }
      (s.modGrid g fun v => { v with live := v.live + 1 }).pass wid b)
  | _, _ => s

def Ctx.post (c : Ctx) (a : Nat) (sp : Spc) (s : State) : State :=
  s.payStep c 6 fun s => s.withWarp c.wid fun w =>
    let ls := s.homeLines (c.eng w) [postRange sp (w.kr a)]
    s.whenHome c c.paidUp ls fun s =>
      let x := s.drawLines c.core ls
      match c.readPost w sp (w.kr a) s with
      | .error t => x.raise4 c t
      | .ok r => x.blockTry c (.post r.2 r.1) State.tryPost

/-- The warp belongs to a grid (R224). -/
def postOk (c : Ctx) (s : State) : Bool :=
  match s.warp? c.wid with
  | some w => (s.gridOf w.blk).isSome
  | none => true

def execPost (g a : Nat) (sp : Spc) (s : State) : Host.Outcome State Fault Refusal :=
  done (s.issue (engForm g 4) postOk (fun _ _ => 0) fun c s => s.commitPoint c (c.alignedK a 32) fun s => c.post a sp s)

/-! ### Futures (R225, R226, R323) -/

def futFull (h : Nat) : Bool := h / 2 ^ 31 % 2 == 1
def futWcnt (h : Nat) : Nat := h / 2 ^ 16 % 2 ^ 15
def futHead (h : Nat) : Nat := h % 2 ^ 16

/-- A free record of a die's park table: one that no list ran through first, else one that a termination freed (R323, R324). -/
def freePark (d : Die) : Option Nat :=
  match if 4096 ≤ d.park.length then none else (List.range 4096).find? fun i => (Tab.look d.park i).isNone with
  | some i => some i
  | none => (d.park.find? fun e => !e.2.live).map (·.1)

/-- The issuing lanes return to rev for 1 024 cycles (R225). -/
def Ctx.retryLater (c : Ctx) (s : State) : State :=
  (s.discard c.wid c.iss).modWarp c.wid fun w =>
    { w with delayed := w.delayed ++ [(c.iss, (s.clk c.wid).toNat + 1024)], stage := none }

/-- An empty cell: the warp parks, linked at HEAD, or tries again later (R225, R323). -/
def Ctx.parkAt (c : Ctx) (key h : Nat) (s : State) : State :=
  s.withWarp c.wid fun w =>
    let d := c.die
    match if futWcnt h < 32767 && isLocal key then freePark (s.die d) else none with
    | none => c.retryLater s
    | some i =>
      let new := (futWcnt h + 1) * 2 ^ 16 + d * 2 ^ 14 + i
      let s := s.writeNum (some (ownerOf c.core w.ctx)) (key + 8) 4 new
      let s := s.modDie d fun x => { x with park := Tab.upd x.park i { wid := c.wid, next := futHead h, cell := key } }
      (s.discard c.wid c.iss).modWarp c.wid fun w => { w with parked := some (d * 4096 + i), stage := none, lwc := 0 }

/-- `fget` on a future (R225). -/
def Ctx.fget (c : Ctx) (d a : Nat) (s : State) : State :=
  s.withWarp c.wid fun w => let va := w.kr a
  if va.toNat % 16 ≠ 0 then s.raise c { cls := .align, addr := va } else
  s.payStep c 10 fun s => s.withWarp c.wid fun w =>
    match s.placeBoth c.core w.ctx w.priv va with
    | .error t => (match t.wait with
      | some line => s.waitTable c c.paidUp line
      | none => s.raise c t)
    | .ok key => s.whenHome c c.paidUp [lineOf key] fun s =>
      let s := (s.used c.uniform .g (fun _ _ => va)).homeLine c.core (lineOf key)
      let h := (s.homeNum (key + 8) 4).toNat
      if futFull h then
        (s.acquire c.core .pk).modWarp c.wid fun w => { (w.setK d (s.homeNum key 8)).advance c.iss c.len with stage := none }
      else c.parkAt key h s

def execFget (g d a : Nat) (s : State) : Host.Outcome State Fault Refusal :=
  done (s.issueSimple (engForm g 4) fun c s => c.fget d a s)

/-- The records linked from a head that still wait on the cell, in list order; one that a termination freed still holds its link (R324). -/
def State.linked (s : State) (cell : Nat) : Nat → Nat → List (Nat × Nat)
  | 0, _ => []
  | n + 1, h =>
    if h = 0xFFFF then [] else
    let d := h / 2 ^ 14
    let i := h % 4096
    match Tab.look (s.die d).park i with
    | none => []
    | some p => if p.cell ≠ cell then [] else (if p.live then [(d, i)] else []) ++ s.linked cell n p.next

/-- A task record's warp is ready at its region entry, and the record is free (R226, R323, R324). -/
def State.unpark (s : State) (d i : Nat) : State :=
  match Tab.look (s.die d).park i with
  | none => s
  | some p =>
    if !p.live then s else
    (s.modDie d fun x => { x with park := Tab.del x.park i }).modWarp p.wid fun w =>
      if w.parked = some (d * 4096 + i) then { w with parked := none } else w

/-- FUTURE_REENQUEUE (R323). -/
def execFutureReenqueue (die rec : Nat) (s : State) : Host.Outcome State Fault Refusal := done (s.unpark die rec)

/-- FGET_RETRY: lanes whose 1 024 cycles are over are selectable again (R225, R242). -/
def execFgetRetry (wid : Nat) (s : State) : Host.Outcome State Fault Refusal :=
  done (s.modWarp wid fun w => { w with delayed := w.delayed.filter fun x => (s.clk wid).toNat < x.2 })

/-- Step 4 of `fput` (R226). -/
def Ctx.fput (c : Ctx) (d a b : Nat) (s : State) : State :=
  s.payStep c 10 fun s => s.withWarp c.wid fun w =>
    match s.placeBoth c.core w.ctx w.priv (w.kr a) with
    | .error t => s.raise4 c t
    | .ok key => s.whenHome c c.paidUp [lineOf key] fun s =>
      let s := (s.used c.uniform .g (fun _ _ => w.kr a)).homeLine c.core (lineOf key)
      let h := (s.homeNum (key + 8) 4).toNat
      if futFull h then (s.modWarp c.wid fun w => w.setK d (-1)).leave c
      else
        let tasks := s.linked key 32768 (futHead h)
        let s := s.writeHome (some (ownerOf c.core w.ctx)) none (bytesAt key 8 (w.kr b).toNat ++ bytesAt (key + 8) 4 (2 ^ 31 + 0xFFFF))
        let s := (s.modWarp c.wid fun w => w.setK d (BitVec.ofNat 64 (futWcnt h))).leave c
        s.soon (tasks.map fun t => .event (.futureReenqueue t.1 t.2))

/-- Step 1 of `fput`: alignment 16 and translation. -/
def Ctx.futCheck (c : Ctx) (a : Nat) (s : State) : Option Trap :=
  s.ofWarp c.wid fun w =>
    if (w.kr a).toNat % 16 ≠ 0 then some { cls := .align, addr := w.kr a }
    else match s.placeBoth c.core w.ctx w.priv (w.kr a) with
      | .error t => some t
      | .ok _ => none

def execFput (g d a b : Nat) (s : State) : Host.Outcome State Fault Refusal :=
  done (s.issueSimple (engForm g 4) fun c s => s.commitPoint c (c.futCheck a) fun s => c.fput d a b s)

/-! ### phase, intent (R227, R228, R385, R386) -/

def Ctx.phase (c : Ctx) (id : Nat) (s : State) : State :=
  s.withWarp c.wid fun w => (s.modBlock w.blk fun b => { b with phase := id }).modWarp c.wid fun w => w.advance c.iss c.len

def execPhase (id : Nat) (s : State) : Host.Outcome State Fault Refusal :=
  done (s.issueSimple { bForm 1 with level := .n } fun c s => c.phase id s)
def execPhaseExt (g id : Nat) (s : State) : Host.Outcome State Fault Refusal :=
  done (s.issueSimple (engForm g 1) fun c s => c.phase id s)

/-- The sum of the device's job intents. -/
def State.jobRate (s : State) : Nat := s.cores.foldl (fun n c => c.2.intents.foldl (fun n e => if e.2.job then n + e.2.rate else n) n) 0

/-- A job intent goes to every other device of the job (R386). -/
def State.exchange (s : State) (due : Nat) : State :=
  let jb := s.apBits offGovJob 61 52
  let others := ((List.range (s.apBits offGovJob 41 32)).map (jb + ·)).filter (· != s.devId)
  others.foldl (fun s dev => s.send (.intent dev s.jobRate (due - s.dev.micros))) s

/-- An intent of a context on its core; RATE 0 cancels (R385). -/
def State.announce (s : State) (core ctx rate lead : Nat) (job : Bool) : State :=
  let job := job && s.apBits offGovJob 63 63 = 1
  let due := s.dev.micros + lead
  if rate = 0 then s.modCore core fun c => { c with intents := Tab.del c.intents ctx }
  else
    let s := s.modCore core fun c => { c with intents := Tab.upd c.intents ctx { rate := rate, due := due, job := job } }
    if job then s.exchange due else s

def execIntent (g a lead : Nat) (job : Bool) (s : State) : Host.Outcome State Fault Refusal :=
  done (s.issue (engForm g 1) (onRegs fun w => resAbove (w.kr a) 32) (fun _ _ => 0) fun c s => s.withWarp c.wid fun w =>
    (s.announce c.core w.ctx (low32 (w.kr a)) lead job).modWarp c.wid fun w => w.advance c.iss c.len)

/-! ### Register blocks (R229, R230, R335) -/

/-- Registers per lane that a block's warps take from its register-cache banks. -/
def State.regsUsed (s : State) (blk : Nat) : Nat :=
  (s.warpsOfBlock blk).foldl (fun n e => n + e.2.regs - (match e.2.lean with | some lo => min e.2.leanTop e.2.regs - lo | none => 0)) 0

/-- The block's banks hold 512 lines each (R261). -/
def State.regsRoom (s : State) (blk n : Nat) : Bool :=
  match s.block? blk with
  | some b => decide (s.regsUsed blk + 32 * n ≤ 512 * Rec.rcb b.record)
  | none => false

/-- k[D] := count; count := count + 32·n. -/
def Warp.grow (w : Warp) (d n : Nat) : Warp := { w.setK d (BitVec.ofNat 64 w.regs) with regs := w.regs + 32 * n }

def State.tryRblk (s : State) (wid : Nat) (b : Blocked) : State :=
  match b.what, s.warp? wid with
  | .rblk d n lean, some w =>
    if lean && n ≤ 2 && (s.core (coreOf wid)).leanTo.isNone then
      ((s.modCore (coreOf wid) fun c => { c with leanTo := some wid }).modWarp wid fun w => { w.grow d n with lean := some w.regs, leanTop := w.regs + 32 * n }).pass wid b
    else if s.regsRoom w.blk n then (s.modWarp wid fun w => w.grow d n).pass wid b
    else s
  | _, _ => s

def isRblk : Wait → Bool | .rblk .. => true | _ => false

def execRblkAcq (g d n : Nat) (l : Bool) (s : State) : Host.Outcome State Fault Refusal :=
  done (s.issueSimple (engForm g 2 false .p) fun c s => s.commitPoint c noCheck fun s => s.withWarp c.wid fun w =>
    if 512 < w.regs + 32 * n then s.raise4 c { cls := .illegal } else s.blockTry c (.rblk d n l) State.tryRblk)

/-- The last registers go, and the lean-to with those it backs. -/
def Warp.shrink (w : Warp) (n : Nat) : Warp :=
  let r := w.regs - 32 * n
  { w with
    regs := r, x := Tab.keep w.x (fun k _ => k / 32 < r), wr := Tab.keep w.wr (fun k _ => k < r), clean := w.clean.filter (· < r),
    loads := Tab.keep w.loads (fun k _ => k < r), opbuf := w.opbuf.filter (· < r),
    lean := match w.lean with | some lo => if r ≤ lo then none else some lo | none => none }

/-- `rblk.rel` from step 4 on; giving back more than was granted is ILLEGAL there (R230, log entry 120). -/
def Ctx.rblkRel (c : Ctx) (n : Nat) (s : State) : State :=
  s.withWarp c.wid fun w =>
    if w.regs < w.regs0 + 32 * n then s.raise4 c { cls := .illegal } else
    let after := w.shrink n
    let s := if w.lean.isSome && after.lean.isNone then s.modCore c.core fun k => { k with leanTo := none } else s
    ((s.setWarp c.wid after).leave c).tryWaiters (s.warpsOfCore c.core) isRblk State.tryRblk

def execRblkRel (g n : Nat) (s : State) : Host.Outcome State Fault Refusal :=
  done (s.issueSimple (engForm g 2 false .p) fun c s => s.commitPoint c noCheck fun s => c.rblkRel n s)

/-! ### Illegal encodings (R48, R62) -/

/-- The issuing group's instruction is no instruction: ILLEGAL before Charge(), with no effect. -/
def execIllegalEncoding (s : State) : Host.Outcome State Fault Refusal :=
  done (s.withWarp s.cur fun w =>
    let g := w.group
    if g = 0 then s else s.raise { wid := s.cur, here := w.leastPc g, len := 4, iss := g, en := g } { cls := .illegal })

end Sys2Proof.Machine
end

