-- ==== Sys2Proof/Machine/Blocks.lean ====
section
/-!
DEFINITION. Machine/Blocks.lean: placement of blocks, retirement of warps, blocks and grids, pre-emption and return (spec/08 R236 to
R240, R257 to R259; spec/09 R260 to R264; spec/10 R294, R299 to R301; spec/13 R384).
-/

namespace Sys2Proof.Machine

/-! ### The phase table (R253) -/

/-- One more cycle of a counter pair: BUSY low, IDLE high, each stopping at 2^32 − 1. -/
def addPhase (v : DWord) (busy : Bool) : DWord :=
  let b := v.toNat % 2 ^ 32
  let i := v.toNat / 2 ^ 32
  if busy then BitVec.ofNat 64 (min (b + 1) (2 ^ 32 - 1) + i * 2 ^ 32) else BitVec.ofNat 64 (b + min (i + 1) (2 ^ 32 - 1) * 2 ^ 32)

/-- Counts a cycle for a block: BUSY where one of its warps issued in it, a warp that has retired since then among them. -/
def State.countPhase (s : State) (blk : Nat) (b : Block) (cycle : Nat) : State :=
  let d := dieOfCore b.core
  if s.apBits (offPhsCtx d) 31 31 = 0 || b.kind == .reduce || b.ctx != s.apBits (offPhsCtx d) 11 0 then s else
  let busy := b.busyAt == some cycle || (s.warpsOfBlock blk).any fun w => w.2.lastIssue == some cycle
  let k := 512 * coreInDie b.core + b.phase
  s.modDie d fun x => { x with phases := Tab.put 0 x.phases k (addPhase (Tab.get x.phases 0 k) busy) }

/-! ### Room (R239, R240, R260) -/

/-- The reserved handler place: warp slot 63 of core 0 of each die (R333). -/
def reservedSlot (core slot : Nat) : Bool := coreInDie core = 0 && slot = 63

/-- Warp slots of a core that a block may take. -/
def State.freeSlots (s : State) (core : Nat) : List Nat :=
  (List.range 64).filter fun k => !reservedSlot core k && (s.warp? (64 * core + k)).isNone

/-- Pool banks of a core that belong to no block and are not being zeroed, ascending. -/
def State.freePool (s : State) (core : Nat) : List Nat :=
  (List.range 48).filter fun k => (Tab.look (s.core core).banks k).isNone && !(s.core core).zeroing.contains k

/-- The contexts that hold a block on a die. -/
def State.ctxsOnDie (s : State) (d : Nat) : List Nat :=
  distinct (s.blocks.filterMap fun e => if dieOfCore e.2.core = d then some e.2.ctx else none)

/-- A context without a save area is not placed (R309). -/
def State.saves (s : State) (ctx : Nat) : Bool := s.ap! (offMmuSave ctx) != 0

/-- Room for a context's block of so many warps and banks (R239). -/
def State.hasRoom (s : State) (core ctx warps banks : Nat) : Bool :=
  s.saves ctx && decide (warps ≤ (s.freeSlots core).length) && decide (banks ≤ (s.freePool core).length)
    && (let cs := s.ctxsOnDie (dieOfCore core); decide (cs.length < 64) || cs.contains ctx)

/-- The slot a warp takes: the lowest free one of its scheduler, else the lowest free one (R240). -/
def slotFor (free : List Nat) (w : Nat) : Option Nat :=
  match free.find? (fun k => k % 4 == w % 4) with
  | some k => some k
  | none => free.head?

/-- Slots for the warps of a block, in order. -/
def slotsFor : List Nat → List Nat → List (Nat × Nat)
  | _, [] => []
  | free, w :: r =>
    match slotFor free w with
    | none => []
    | some k => (w, k) :: slotsFor (free.filter (· != k)) r

/-! ### Placing one block (R237, R260) -/

/-- What a block starts as. -/
structure NewBlock where
  ctx : Nat
  grid : Option Nat
  kind : BlockKind
  index : Word
  core : Nat
  record : List Byte
  warps : Nat
  level : Level
  hidx : Nat := 0
  args : List DWord := []
  suspect : Option Nat := none

/-- The acquire with which a block begins, so that it sees what happens before its launch (R221, R285, R286, R319). -/
def BlockKind.acquires : BlockKind → List Scope
  | .grid | .cont | .reduce => [.sy]
  | .handler => [.pk]
  | .trap => []

/-- A warp of a block at its first instruction (R237, R322, R403), with the acquire of its start still to make. -/
def Block.firstWarp (b : Block) (blk widx : Nat) (level : Level) : Warp :=
  let w := { Warp.start b.ctx blk widx level (Rec.count b.record) (BitVec.ofNat 64 (Rec.entry b.record)) with inv := b.kind.acquires }
  b.args.zipIdx.foldl (fun w a => w.setK a.2 a.1) w

/-- The block's state before its first instruction, in its pool banks. -/
def NewBlock.block (n : NewBlock) (banks : List Nat) (slots : List (Nat × Nat)) : Block :=
  let r := Rec.rcb n.record
  let p := Rec.spb n.record
  { ctx := n.ctx, grid := n.grid, kind := n.kind, index := n.index, core := n.core, resident := true, record := n.record, spad := [],
    bars := [], queues := [], q2res := 0, phase := 0, banksR := banks.take r, banksS := (banks.drop r).take p,
    banksA := banks.drop (r + p), held := [], warps := slots.map (fun x => 64 * n.core + x.2), hidx := n.hidx, args := n.args,
    savedCvs := [], savedAcc := [], suspect := n.suspect }

/-- Banks belong to a block. -/
def Core.giveBanks (c : Core) (banks : List Nat) (blk : Nat) : Core :=
  { c with banks := banks.foldl (fun t k => Tab.upd t k (blk + 1)) c.banks }

/-- A warp takes its slot; it starts stopped where a debugger has stopped its context (R422). -/
def State.newWarp (s : State) (wid : Nat) (w : Warp) : State :=
  s.setWarp wid { w with stopped := s.apBits offDbgCtl 62 62 = 1 && s.apBits offDbgCtl 11 0 = w.ctx }

/-- A block becomes resident on its core in the lowest-numbered free banks, its warps in their slots. -/
def State.placeBlock (s : State) (n : NewBlock) : Nat × State :=
  let x := s.fresh
  let s := x.2
  let banks := (s.freePool n.core).take (Rec.rcb n.record + Rec.spb n.record + Rec.acb n.record)
  let slots := slotsFor (s.freeSlots n.core) (List.range n.warps)
  let b := n.block banks slots
  let s := (s.setBlock x.1 b).modCore n.core fun c => c.giveBanks banks x.1
  (x.1, slots.foldl (fun s p => s.newWarp (64 * n.core + p.2) (b.firstWarp x.1 p.1 n.level)) s)

/-! ### Placement of groups (R238, R239, R384) -/

/-- Draw of a yard less its partner's over the last tick. -/
def State.yardTilt (s : State) (core : Nat) : Int :=
  let y := yardOfCore core
  let draw := (s.die (dieOfCore core)).draw
  ((Tab.get draw 0 y : Nat) : Int) - ((Tab.get draw 0 (if y % 2 = 0 then y + 1 else y - 1) : Nat) : Int)

/-- Resident warps of a core. -/
def State.residentWarps (s : State) (core : Nat) : Nat :=
  ((s.warpsOfCore core).filter fun e => match s.block? e.2.blk with | some b => b.resident | none => true).length

/-- The cores of a group's members in the unit of an index, by grouping code. -/
def unitCores (group members u : Nat) : List Nat :=
  if group = 0 then [u]
  else if group = 1 then (List.range members).map (4 * u + ·)
  else if group = 2 then (List.range members).map (48 * u + ·)
  else (List.range members).map fun i => 48 * (i / 48) + i % 48

/-- Units of a device by grouping code. -/
def unitCount (group : Nat) : Nat := if group = 0 then 192 else if group = 1 then 48 else if group = 2 then 4 else 1

/-- How a unit ranks: yard-pair balance, resident warps, index of its first core, die; least first (R239, R384). -/
def State.unitRank (s : State) (group : Nat) (cores : List Nat) : List Int :=
  let c := cores.headD 0
  let balance : Int := if group = 0 then s.yardTilt c else if group = 1 then (if s.yardTilt c < 0 then 0 else 1) else 0
  [balance, (cores.foldl (fun n c => n + s.residentWarps c) 0 : Nat), (coreInDie c : Nat), (dieOfCore c : Nat)]

/-- The lexicographic order of ranks. -/
def rankLt : List Int → List Int → Bool
  | a :: r, b :: t => if a < b then true else if b < a then false else rankLt r t
  | _, _ => false

/-- The best of some candidates. -/
def bestOf {α : Type} : List (List Int × α) → Option α
  | [] => none
  | x :: r => some (r.foldl (fun b y => if rankLt y.1 b.1 then y else b) x).2

/-- A die that runs compute work (R440, R441). -/
def State.serves (s : State) (d : Nat) : Bool := s.service d = 1 || s.service d = 2

/-- Blocks of a group: its members, from the first block of the group. -/
def groupMembers (r : List Byte) (grp : Nat) : Nat := min (Rec.groupSize r) (Rec.blocks r - grp * Rec.groupSize r)

/-- Whether a unit has room for a group of a record, on dies that its grid may use (R239). -/
def State.unitRoom (s : State) (ctx dmask : Nat) (r : List Byte) (cores : List Nat) : Bool :=
  cores.all fun c => dmask / 2 ^ dieOfCore c % 2 = 1 && s.serves (dieOfCore c) && s.hasRoom c ctx (Rec.warps r) (Rec.rcb r + Rec.spb r + Rec.acb r)

/-- A die whose engine asks for FEEDSCOMM blocks (R364). -/
def State.wantsFeed (s : State) (d : Nat) : Bool := (s.die d).feed && s.apBits (offColCfg d) 31 31 = 0

/-- Whether a pending FEEDSCOMM block fits a core: it is placed before other pending blocks there (R364). -/
def State.feedFits (s : State) (core : Nat) : Bool :=
  s.grids.any fun g => Rec.feeds g.2.record && g.2.pending.any fun k =>
    (List.range (unitCount (Rec.group g.2.record))).any fun u =>
      let cores := unitCores (Rec.group g.2.record) (groupMembers g.2.record k) u
      cores.contains core && s.unitRoom g.2.ctx g.2.dmask g.2.record cores

/-- Whether a pending continuation of a FEEDSCOMM grid fits a core (R322, R364). -/
def State.feedCont (s : State) (core : Nat) : Bool :=
  match (Tab.get (s.die (dieOfCore core)).tasks [] (core / 4)).head?.bind fun c => (s.grid? c.grid).map fun v => (c, v) with
  | some (c, v) =>
    Rec.feeds v.record && s.serves (dieOfCore core) && s.hasRoom core c.ctx 1 (Rec.rcb v.record + Rec.spb v.record + Rec.acb v.record)
  | none => false

/-- Whether blocks of a record leave a unit to pending FEEDSCOMM blocks (R364). -/
def State.givesWay (s : State) (r : List Byte) (cores : List Nat) : Bool :=
  !Rec.feeds r && cores.any fun c => s.wantsFeed (dieOfCore c) && (s.feedFits c || s.feedCont c)

/-- The cores of the chosen unit for a group (R239). -/
def State.chooseUnit (s : State) (ctx dmask : Nat) (r : List Byte) (members : Nat) : Option (List Nat) :=
  let group := Rec.group r
  bestOf ((List.range (unitCount group)).filterMap fun u =>
    let cores := unitCores group members u
    if s.unitRoom ctx dmask r cores && !s.givesWay r cores then some (s.unitRank group cores, cores) else none)

/-- GROUP_PLACEMENT: the blocks of a pending group become resident together, where a unit has room (R238, R239). -/
def State.placeGroup (s : State) (g grp : Nat) : State :=
  match s.grid? g with
  | none => s
  | some v =>
    if !v.pending.contains grp then s else
    let members := groupMembers v.record grp
    match s.chooseUnit v.ctx v.dmask v.record members with
    | none => s
    | some cores =>
      let s := s.modGrid g fun x => { x with pending := x.pending.filter (· != grp), live := x.live + members }
      cores.zipIdx.foldl (fun s c => (s.placeBlock
        { ctx := v.ctx, grid := some g, kind := .grid, index := BitVec.ofNat 32 (grp * Rec.groupSize v.record + c.2), core := c.1,
          record := v.record, warps := Rec.warps v.record, level := .u }).2) s

/-! ### Reduce blocks (R358, R359) -/

/-- The open collective of a name. -/
def State.collOf (s : State) (id : Nat) : Option (Nat × CollInst) :=
  (dieList.filterMap fun d => ((s.die d).insts.find? fun i => i.id == id).map fun i => (d, i)).head?

/-- How a core ranks for a reduce block: one whose warps have not issued in the last 1 024 cycles first, then fewest resident warps, then
the lowest index (R359). -/
def State.reduceRank (s : State) (core : Nat) : List Int :=
  let now := (s.die (dieOfCore core)).clk.toNat
  let idle := !(s.warpsOfCore core).any fun e => match e.2.lastIssue with | some n => decide (now < n + 1024) | none => false
  [if idle then 0 else 1, if idle then 0 else (s.residentWarps core : Nat), (coreInDie core : Nat)]

/-- The core for a reduce block: one free warp slot and one free pool bank, for a context that has a save area (R309, R359). -/
def State.reduceCore (s : State) (d ctx : Nat) : Option Nat :=
  bestOf ((coresOfDie d).filterMap fun c => if s.hasRoom c ctx 1 1 && !s.givesWay [] [c] then some (s.reduceRank c, c) else none)

/-- REDUCE_BLOCK_DISPATCH: a chunk whose launch counter is zero gets its reduce block where a core has room, else it waits (R358, R359). -/
def State.placeReduce (s : State) (id chunk : Nat) : State :=
  match s.collOf id with
  | none => s
  | some (d, i) =>
    if Tab.look i.left chunk ≠ some 0 || i.placed.contains chunk then s else
    match s.reduceCore d i.ctx with
    | none => s
    | some core =>
      let x := s.placeBlock
        { ctx := i.ctx, grid := none, kind := .reduce, index := 0, core := core, record := Rec.synth 0 1 64 1, warps := 1, level := .p }
      (x.2.modBlock x.1 fun b => { b with work := some { inst := id, chunk := chunk, left := Config.routineLength chunk } }).modDie d fun v =>
        { v with insts := v.insts.map fun y => if y.id = id then { y with placed := y.placed ++ [chunk] } else y }

/-- GROUP_PLACEMENT: of a grid's group, or of the reduce block of a collective's chunk. -/
def execGroupPlacement (grid grp : Nat) (s : State) : Host.Outcome State Fault Refusal :=
  done (match s.grid? grid with | some _ => s.placeGroup grid grp | none => s.placeReduce grid grp)

/-- The best core for a block that is a group of its own, among some (R239, R364). -/
def State.chooseCore (s : State) (r : List Byte) (cores : List Nat) (ctx warps banks : Nat) : Option Nat :=
  bestOf (cores.filterMap fun c => if s.hasRoom c ctx warps banks && !s.givesWay r [c] then some (s.unitRank 0 [c], c) else none)

/-! ### The accumulator pool of a core (R200, R263) -/

/-- Banks a block keeps as its share: those it holds, then unheld ones of its own, then others that are left over. -/
def shareOut : List (Nat × Block) → List Nat → List (Nat × List Nat)
  | [], _ => []
  | (b, v) :: r, spare =>
    let own := v.banksA.filter spare.contains
    let more := (spare.filter fun k => !own.contains k && !(r.any fun e => e.2.banksA.contains k))
    let take := (own ++ more ++ spare).eraseDups.take (v.banksA.length - v.held.length)
    (b, (v.held ++ take).mergeSort) :: shareOut r (spare.filter fun k => !take.contains k)

/-- Banks move between the shares of a core's resident blocks so that every block's share contains what it holds; nothing changes
where that is so already (log entry 52). -/
def State.settlePool (s : State) (core : Nat) : State :=
  let here := s.blocks.filter fun e => e.2.core == core && e.2.resident
  if here.all fun e => e.2.held.all e.2.banksA.contains then s else
  let pool := here.flatMap fun e => e.2.banksA
  let held := here.flatMap fun e => e.2.held
  (shareOut here (pool.filter fun k => !held.contains k)).foldl (fun s x =>
    (s.modBlock x.1 fun b => { b with banksA := x.2 }).modCore core fun c => c.giveBanks x.2 x.1) s

/-! ### Retirement (R257, R258, R259) -/

/-- WARP_RETIRE: every lane has exited and the region store buffer is empty; the slot, the registers and a lean-to are free, LIVE
phases shrink, and the block may retire (R229, R249, R257). -/
def State.retireWarp (s : State) (wid : Nat) : State :=
  s.withWarp wid fun w =>
    if w.exited ≠ 0xFFFFFFFF || !w.rsb.isEmpty || isService (coreOf wid) then s else
    let s := (s.delWarp wid).modBlock w.blk fun b => { b with busyAt := w.lastIssue }
    let s := if w.lean.isSome then s.modCore (coreOf wid) fun c => { c with leanTo := none } else s
    let s := (s.recheckBars w.blk).tryWaiters (s.warpsOfCore (coreOf wid)) isRblk State.tryRblk
    s.soon [.event (.blockRetire w.blk)]

def execWarpRetire (wid : Nat) (s : State) : Host.Outcome State Fault Refusal := done (s.retireWarp wid)

/-- Whether a matrix operation reads or writes its block's scratchpad or accumulator banks. -/
def MatOp.usesBlock (o : MatOp) : Bool :=
  match o.kind with
  | .bld tile .. => !tile
  | .zero _ => false
  | _ => true

/-- Whether an operation of a block that touches its scratchpad or banks is accepted and not complete, or a queue it pushed holds an
entry of it (R258). -/
def State.blockBusy (s : State) (core blk : Nat) : Bool :=
  let c := s.core core
  c.mat.any (fun o => o.blk == blk && o.usesBlock) || c.q0.any (fun o => o.blk == blk)
    || c.copying.any (fun o => o.blk == blk && (o.ss || o.ds)) || c.q1.any (fun o => o.blk == blk)

/-- The banks a block holds are released: zeroed in matrix-engine order and then free (R201). -/
def State.releaseHeld (s : State) (blk : Nat) (b : Block) : State :=
  b.held.foldl (fun s k =>
    let x := s.fresh
    x.2.modCore b.core fun c =>
      { c with
        zeroing := insertNat c.zeroing k,
        mat := c.mat ++ [{ kind := .zero k, blk := blk, wid := 64 * b.core, ctx := b.ctx, priv := false, tag := 64, opid := x.1,
                           begun := false, fetched := false, due := [], at_ := 0, count := 0, rows := [], bad := none, wblk := blk }] }) s

/-- The rest of retirement: registers and banks of the block return to the core, and an inbox record not popped is dropped. -/
def State.dropBlock (s : State) (blk : Nat) (b : Block) : State :=
  let s := s.modCore b.core fun c => { c.releaseCvs blk with banks := Tab.keep c.banks fun _ o => o != blk + 1 }
  let s := s.modDie (dieOfCore b.core) fun d => { d with inbox := d.inbox.filter fun e => e.taken != some blk }
  { s with blocks := Tab.del s.blocks blk }.ctxLeft b.ctx b.core

/-- BLOCK_RETIRE (R258). -/
def State.retireBlock (s : State) (blk : Nat) : State :=
  match s.block? blk with
  | none => s
  | some b =>
    if !(s.warpsOfBlock blk).isEmpty || s.blockBusy b.core blk || !b.resident then s else
    let s := (s.settlePool b.core).countPhase blk b (s.die (dieOfCore b.core)).clk.toNat
    match s.block? blk with
    | none => s
    | some b =>
      let s := (s.releaseHeld blk b).dropBlock blk b
      match b.grid with
      | none => s
      | some g => (s.modGrid g fun v => { v with live := v.live - 1 }).soon [.event (.gridComplete g)]

def execBlockRetire (blk : Nat) (s : State) : Host.Outcome State Fault Refusal := done (s.retireBlock blk)

/-- Whether every block of a grid and every child it launched is done (R259). -/
def Grid.complete (v : Grid) : Bool := v.pending.isEmpty && v.live = 0 && v.remote = 0 && v.children = 0

/-- Engine operations of a grid whose writes are still to come: they come before its stamp (R259). -/
def State.gridWrites (s : State) (g : Nat) : Bool :=
  s.cores.any (fun c => c.2.copying.any fun o => o.grid == some g) || s.dies.any fun d =>
    d.2.insts.any (fun i => i.grid == some g) || d.2.opens.any fun o => o.contrib.grid == g + 1

/-- GRID_COMPLETE: the stamp is written; its parent may complete (R236, R259). -/
def State.completeGrid (s : State) (g : Nat) : State :=
  match s.grid? g with
  | none => s
  | some v =>
    if !v.complete || s.gridWrites g then s else
    let s := s.gridEnd g 0
    match v.parent with
    | some p => s.soon [.event (.gridComplete p)]
    | none => s

/-- The lines of a grid's completion stamp and of the tables on its way. -/
def State.gridStamp (s : State) (g : Nat) : List Nat :=
  match s.grid? g with
  | some v => if v.src.isSome || Rec.stamp v.record = 0 then [] else s.linesAt 0 v.ctx (Rec.stamp v.record) 8
  | none => []

def execGridComplete (grid : Nat) (s : State) : Host.Outcome State Fault Refusal :=
  done (s.recallFirst (.gridComplete grid) (s.gridStamp grid) fun s => s.completeGrid grid)

/-! ### Pre-emption (R294, R301) -/

/-- Operations of a context on a core that use a scratchpad or accumulator banks and are not complete, and commits that are under way:
pre-emption comes between instructions (R294). -/
def State.ctxBusy (s : State) (core ctx : Nat) : Bool :=
  let c := s.core core
  (s.warpsOfCore core).any (fun e => e.2.ctx == ctx && e.2.stageStep == 2) ||
  c.mat.any (fun o => o.ctx == ctx) || c.q0.any (fun o => o.ctx == ctx && (o.ss || o.ds))
    || c.copying.any (fun o => o.ctx == ctx && (o.ss || o.ds)) || c.q1.any (fun o => o.ctx == ctx && o.ss)

/-- A warp stops at an instruction boundary: the regions of lanes that are not blocked are discarded, its demands are removed, and a
commit point whose step demand waits makes it again on return (R291, R294, R371, R445). -/
def State.stopWarp (s : State) (wid : Nat) : State :=
  s.withWarp wid fun w =>
    let s := s.discard wid (~~~(w.exited ||| w.blockedLanes))
    let stays : Bool := match w.stage with
      | some st => decide (2 ≤ st.kind) && st.step == 4 && (lanesOf st.lanes).all fun l => w.pc l == w.revOf l
      | none => false
    ((s.modWarp wid fun w =>
      { w with stage := if stays then w.stage else none, opbuf := [], loads := [], lwc := 0 }).modCore (coreOf wid) fun c =>
        (c.unclaim w).dropDemands wid).flushRegs wid

/-- Lines written with free contents. -/
def State.saveFree (s : State) (core ctx off lines : Nat) : State :=
  (List.range lines).foldl (fun s i => s.saveLine core ctx (off + 128 * i) (freeBytes s.own.freeCount (off / 128 + i))) s

/-- Offset of a line of a pool bank's image (R300). -/
def bankOff (core bank line : Nat) : Nat := 0x0C000000 + 0x300000 * coreInDie core + 0x10000 * bank + 128 * line

/-- The image line of a scratchpad line: bank by line modulo SPB (R262, R300). -/
def Block.spadOff (b : Block) (line : Nat) : Nat :=
  bankOff b.core (b.banksS.getD (line % b.banksS.length) 0) (line / b.banksS.length)

def Block.spadLines (b : Block) : Nat := (Rec.spad b.record + 127) / 128

def State.saveSpad (s : State) (b : Block) : State :=
  (List.range b.spadLines).foldl (fun s i =>
    s.saveLine b.core b.ctx (b.spadOff i) ((List.range 128).map fun j => Tab.get b.spad 0 (128 * i + j))) s

/-- The held accumulator banks, word by word (R263). -/
def State.saveAcc (s : State) (b : Block) : State :=
  b.held.foldl (fun s k => (List.range 512).foldl (fun s i =>
    s.saveLine b.core b.ctx (bankOff b.core k i)
      ((List.range 32).flatMap fun j => leBytes 4 (Tab.get (s.core b.core).acc 0 (16384 * k + 32 * i + j)).toNat)) s) s

/-- A block whose contents are not saved (R233). -/
def Block.restarts (b : Block) : Bool := Rec.restart b.record

/-- A block leaves its core; its warp slots stay its own (R240, R260, R301). -/
def State.switchOut (s : State) (blk : Nat) : State :=
  match s.block? blk with
  | none => s
  | some b =>
    let wids := (s.warpsOfBlock blk).map (·.1)
    let s := wids.foldl State.stopWarp (s.countPhase blk b (s.die (dieOfCore b.core)).clk.toNat)
    let s := wids.foldl (fun s wid => s.saveFree b.core b.ctx (0x16200000 + 0x400 * (64 * coreInDie b.core + slotOfWid wid)) 4) s
    let s := if b.restarts then s else (s.saveSpad b).saveAcc b
    let cvs := Tab.keep (s.core b.core).cvs fun _ r => r.own == some blk
    let acc := Tab.keep (s.core b.core).acc fun k _ => b.held.contains (k / 16384)
    let s := s.modCore b.core fun c =>
      { c with
        banks := Tab.keep c.banks fun _ o => o != blk + 1, cvs := Tab.keep c.cvs fun _ r => r.own != some blk,
        acc := Tab.keep c.acc fun k _ => !b.held.contains (k / 16384) }
    s.modBlock blk fun b => { b with resident := false, savedCvs := cvs, savedAcc := if b.restarts then [] else acc }

/-- The macros that a context owns on a core go to its image: the cell rows, and the rest in a format of its own (R264, R300, R301). -/
def State.saveMacros (s : State) (core ctx : Nat) : State :=
  if (s.core core).owner ≠ some ctx then s else
  let macros := (s.core core).macros
  let s := (List.range 32).foldl (fun s k =>
    let m := Tab.get macros Macro.fresh k
    (List.range 48).foldl (fun s i => s.saveLine core ctx (macroOff core + 0x1800 * k + 128 * i) (m.row (2 * i) ++ m.row (2 * i + 1))) s) s
  let s := s.saveFree core ctx (macroOff core + 0x30000) 0x800
  s.modDev fun d => { d with macroImg := Tab.upd d.macroImg (ctx * 256 + core) { macros := macros } }

/-- PREEMPTION of a context's warps, once the engine operations that the save must wait for are complete (R263, R294, R301). -/
def State.preempt (s : State) (ctx : Nat) : State :=
  let here := s.blocks.filter fun e => e.2.ctx == ctx && e.2.resident && e.2.kind != .reduce
  let cores := distinct (here.map fun e => e.2.core)
  if cores.any fun c => s.ctxBusy c ctx then s else
  let s := cores.foldl State.settlePool s
  let s := here.foldl (fun s e => s.switchOut e.1) s
  cores.foldl (fun s c =>
    ((s.saveMacros c ctx).modCore c fun k => { k with windows := Tab.keep k.windows fun _ w => w.ctx != ctx }).ctxLeft ctx c) s

def execPreemption (ctx : Nat) (s : State) : Host.Outcome State Fault Refusal :=
  done (s.recallFirst (.preemption ctx) ((List.range 4).flatMap fun d => s.saveWalks (48 * d) ctx) fun s => s.preempt ctx)

/-! ### Return (R260, R270, R301) -/

/-- The banks of a block, by use. -/
def Block.banks (b : Block) : List Nat := b.banksR ++ b.banksS ++ b.banksA

/-- Warps that a RESTART block starts again, and those of it that still hold a slot. -/
def State.missingWarps (s : State) (blk : Nat) (b : Block) : List Nat :=
  let have_ := (s.warpsOfBlock blk).map fun e => e.2.widx
  (List.range (if b.kind = .grid then Rec.warps b.record else 1)).filter fun w => !have_.contains w

/-- A block can return when its banks are free again, its convergence registers unowned, a restarted block's slots free, and macros
saved for its context not in another's hands (log entry 104). -/
def State.canReturn (s : State) (blk : Nat) (b : Block) : Bool :=
  !b.resident && b.banks.all (s.freePool b.core).contains && b.savedCvs.all (fun e => (Tab.look (s.core b.core).cvs e.1).isNone)
    && (!b.restarts || decide ((s.missingWarps blk b).length ≤ (s.freeSlots b.core).length))
    && ((Tab.look s.dev.macroImg (b.ctx * 256 + b.core)).isNone || (s.core b.core).owner.isNone || (s.core b.core).owner == some b.ctx)

/-- The blocks that are resident together with a block: those of its group (R238, R270). -/
def State.gang (s : State) (blk : Nat) (b : Block) : List (Nat × Block) :=
  if b.kind != .grid || Rec.group b.record = 0 then [(blk, b)] else
  let size := Rec.groupSize b.record
  s.blocks.filter fun e => e.2.kind == .grid && e.2.grid == b.grid && !e.2.resident && e.2.index.toNat / size == b.index.toNat / size

/-- A group returns as one, when all its blocks can (R238, R270). -/
def State.mayReturn (s : State) (blk : Nat) (b : Block) : Bool := !b.resident && (s.gang blk b).all fun e => s.canReturn e.1 e.2

/-- Scratchpad bytes from the image. -/
def State.loadSpad (s : State) (b : Block) : List Host.Cell :=
  (List.range b.spadLines).foldl (fun t i =>
    let bs := s.restored b.core b.ctx (b.spadOff i)
    (List.range 128).foldl (fun t j => if 128 * i + j < Rec.spad b.record then Tab.put 0 t (128 * i + j) (bs.getD j 0) else t) t) []

/-- Accumulator words from the image. -/
def State.loadAcc (s : State) (b : Block) : Tab Word :=
  b.held.foldl (fun t k => (List.range 512).foldl (fun t i =>
    let bs := s.restored b.core b.ctx (bankOff b.core k i)
    (List.range 32).foldl (fun t j => Tab.put 0 t (16384 * k + 32 * i + j) (BitVec.ofNat 32 (leAt bs (4 * j) 4))) t) t) []

/-- Offsets of what a block's return reads: its scratchpad and the banks it holds (R301). -/
def Block.savedOffs (b : Block) : List Nat :=
  if b.restarts then [] else (List.range b.spadLines).map b.spadOff ++ b.held.flatMap fun k => (List.range 512).map fun i => bankOff b.core k i

/-- A block starts again at ENTRY with the state of R237, in its banks; its warps in the slots they had, or in free ones. Its convergence
registers are restored as any block's (R270). -/
def State.restartBlock (s : State) (blk : Nat) : State :=
  match s.block? blk with
  | none => s
  | some b =>
    let level := ((s.warpsOfBlock blk).head?.map fun e => e.2.level).getD .u
    let slots := slotsFor (s.freeSlots b.core) (s.missingWarps blk b)
    let s := (s.warpsOfBlock blk).foldl (fun s e => s.newWarp e.1 (b.firstWarp blk e.2.widx level)) s
    let s := slots.foldl (fun s p => s.newWarp (64 * b.core + p.2) (b.firstWarp blk p.1 level)) s
    s.modBlock blk fun b =>
      { b with spad := [], bars := [], queues := [], q2res := 0, phase := 0, held := [], savedCvs := [], savedAcc := [] }

/-- Waiting lanes of a returning warp read again at once (R188, R189). -/
def Warp.readAgain (w : Warp) : Warp :=
  { w with
    blocked := w.blocked.map fun b => match b.what with
      | .poll p => { b with what := .poll { p with owed := 3 } }
      | .mwait p => { b with what := .mwait { p with owed := 3 } }
      | _ => b }

/-- One block of the group. -/
def State.bringIn (s : State) (blk : Nat) (b : Block) : State :=
  let s := (s.modCore b.core fun c => c.giveBanks b.banks blk).modBlock blk fun b => { b with resident := true }
  let s := s.loadMacros b.core b.ctx
  let s := s.modCore b.core fun c => { c with cvs := b.savedCvs.foldl (fun t e => Tab.upd t e.1 e.2) c.cvs }
  if b.restarts then s.restartBlock blk else
  let acc := s.loadAcc b
  let spad := s.loadSpad b
  let s := match b.savedOffs.findSome? (s.poisonedSave b.core b.ctx) with
    | some t => s.saveFault b.core b.ctx t
    | none => s
  let s := (s.readSaved b.core b.ctx b.savedOffs).modCore b.core fun c => { c with acc := acc.foldl (fun t e => Tab.put 0 t e.1 e.2) c.acc }
  let s := s.modBlock blk fun b => { b with spad := spad, savedCvs := [], savedAcc := [] }
  ((s.warpsOfBlock blk).map (·.1)).foldl (fun s wid => s.modWarp wid fun w => { w.readAgain with lwc := 0, uses := [], cold := true }) s

/-- SWITCH_IN: a block returns with its group (R260, R270, R301). -/
def State.switchIn (s : State) (blk : Nat) : State :=
  match s.block? blk with
  | none => s
  | some b => if s.mayReturn blk b then (s.gang blk b).foldl (fun s e => s.bringIn e.1 e.2) s else s

/-- The lines of the save area that a return reads (R282). -/
def State.returnLines (s : State) (blk : Nat) : List Nat :=
  if s.mem.leases.isEmpty then [] else
  match s.block? blk with
  | none => []
  | some b => (s.gang blk b).flatMap fun e => s.saveLines e.2.core e.2.ctx (e.2.savedOffs ++
      (if (Tab.look s.dev.macroImg (e.2.ctx * 256 + e.2.core)).isNone then [] else (List.range 32).flatMap (macroLines e.2.core)))

def execSwitchIn (blk : Nat) (s : State) : Host.Outcome State Fault Refusal :=
  done (s.recallFirst (.switchIn blk) (s.returnLines blk) fun s => s.switchIn blk)

end Sys2Proof.Machine
end

