-- ==== Sys2Proof/Machine/Launch.lean ====
section
/-!
DEFINITION. Machine/Launch.lean: launch queues of the host and of contexts, paddock groups, continuations (spec/11 R313 to R322).
-/

namespace Sys2Proof.Machine

/-- A device-fatal error has ended launches and invocations (R415). -/
def State.fatal (s : State) : Bool := s.apBits offFltStat 10 10 = 1

/-- A context is present on this device (R325). -/
def State.present (s : State) (ctx : Nat) : Bool := s.ap! (offMmuRoot ctx) % 2 = 1 && s.ap! (offPitch ctx) ≠ 0

/-! ### Residence of host queues (R312, R317) -/

def State.qBits (s : State) (q hi lo : Nat) : Nat := s.apBits (offLqCfg q) hi lo
def State.qCtx (s : State) (q : Nat) : Nat := s.qBits q 11 0
def State.qEnabled (s : State) (q : Nat) : Bool := s.qBits q 31 31 = 1

/-- A queue to switch out for another: an idle one, else one of no higher priority (R317). -/
def State.queueVictim (s : State) (q : Nat) : Option Nat :=
  match s.dev.resident.find? fun r => !s.qEnabled r || s.pendingPackets r = 0 with
  | some r => some r
  | none => s.dev.resident.find? fun r => decide (s.qBits r 19 18 ≤ s.qBits q 19 18)

def State.queueOut (s : State) (q : Nat) : State :=
  (s.apField (offLqProg q) 32 32 1).modDev fun v => { v with resident := v.resident.filter (· != q) }
def State.queueIn (s : State) (q : Nat) : State :=
  (s.apField (offLqProg q) 32 32 0).modDev fun v => { v with resident := v.resident ++ [q] }

/-- QUEUE_SWITCH: a resident queue leaves; another comes in, in place of one that can go when 64 are resident (R312, R317). -/
def State.switchQueue (s : State) (q : Nat) : State :=
  if s.dev.resident.contains q then s.queueOut q
  else if s.dev.resident.length < 64 then s.queueIn q
  else match s.queueVictim q with
    | some r => (s.queueOut r).queueIn q
    | none => s

def execQueueSwitch (q : Nat) (s : State) : Host.Outcome State Fault Refusal := done (s.switchQueue q)

/-! ### Accepting a packet (R235, R318, R319) -/

/-- Whether a queue's packets lie in host memory that no link reaches: it makes no progress (R339). -/
def State.queueCut (s : State) (q : Nat) : Bool := bitsOf (s.ap! (offLqBase q)) 63 62 = 2 && !s.hostUp

/-- Packet PROG of a queue, at home. -/
def State.packetAt (s : State) (q : Nat) : Option (List Byte) :=
  let base := s.ap! (offLqBase q)
  let a := bitsOf base 47 6 * 64 + 64 * (s.prog q % s.queueSize q)
  let key := if bitsOf base 63 62 = 2 then keyHost a else a
  if isLocal key && (!populated a || s.mem.poisoned (lineOf key)) then none else some (s.mem.list key 64)

def State.advanceProg (s : State) (q : Nat) : State := s.apField (offLqProg q) 31 0 (s.prog q + 1)

/-- A packet that is not launched (R319). -/
def State.packetError (s : State) (q : Nat) : State := (s.advanceProg q).apField (offLqProg q) 35 35 1

/-- What a packet's WAITS says: go on, wait, or its stamp cannot be read. -/
inductive Waits where
  | go | wait | fail
  deriving DecidableEq, Repr

def State.waitsOf (s : State) (ctx va : Nat) : Waits :=
  if va = 0 then .go else
  match s.readBytes 0 ctx (BitVec.ofNat 64 va) 8 with
  | .error _ => .fail
  | .ok bs => if leNat bs = 0 then .wait else .go

/-- A peer device that cannot be reached, or that lacks the context (R319). -/
def State.unreached (s : State) (dev ctx : Nat) : Bool := !s.routed || Config.absent s.own.freeCount (4096 * dev + ctx)

/-- The devices of a paddock packet, by group. -/
def State.devsOf (s : State) (ctx : Nat) (p : List Byte) : Option (List Nat) :=
  if Pkt.devs p = 0 || Pkt.devs p % 2 ≠ 0 then none else
  match s.readBytes 0 ctx (BitVec.ofNat 64 (Pkt.devs p)) (2 * Pkt.ndev p) with
  | .error _ => none
  | .ok bs => some ((List.range (Pkt.ndev p)).map fun i => leAt bs (2 * i) 2)

/-- Groups that go to devices, or the status that ends the grid (R319). -/
def State.spanOf (s : State) (ctx : Nat) (p r : List Byte) : Except Nat (List Nat) :=
  let here := List.replicate (Rec.groups r) s.devId
  if Rec.group r ≠ 4 then (if Pkt.ndev p ≠ 0 then .error 0xB else .ok here)
  else if Pkt.ndev p ≠ Rec.groups r then .error 0xB
  else match s.devsOf ctx p with
    | none => .error 0xB
    | some ds =>
      if (distinct ds).length ≠ ds.length then .error 0xB
      else if ds.any fun d => 639 < d || (if d = s.devId then !s.present ctx else s.unreached d ctx) then .error 0xD
      else .ok ds

/-- A new grid. -/
def newGrid (ctx : Nat) (p r : List Byte) (dmask depth : Nat) (parent queue : Option Nat) : Grid :=
  { ctx := ctx, record := r, packet := p, dmask := dmask, depth := depth, parent := parent, queue := queue, pending := [], live := 0,
    remote := 0, away := [], children := 0, src := none }

/-- An accepted grid that ends at once, with its status. -/
def State.endAtOnce (s : State) (v : Grid) (status : Nat) : State :=
  let n := s.fresh
  (n.2.setGrid n.1 v).gridEnd n.1 status

/-- What names a group on its way to its device: its index, and the DMASK of its queue, which its children inherit (R314, R320). -/
def groupWord (grp dmask : Nat) : Nat := grp % 2 ^ 32 + 2 ^ 32 * dmask

/-- A launch of a context that was terminated begins it anew (R416). -/
def State.revive (s : State) (ctx : Nat) : State := s.modDev fun v => { v with gone := v.gone.filter (· != ctx) }

/-- Accepting a launch whose PITCH is nonzero sets RIV_PITCH (R325). -/
def State.takePitch (s : State) (ctx : Nat) (r : List Byte) : State :=
  if Rec.pitch r = 0 then s else s.apSet (offPitch ctx) (Rec.pitch r)

/-- An accepted grid runs: its groups go to their devices, those of this device to placement. -/
def State.startGrid (s : State) (v : Grid) (devs : List Nat) : State :=
  let n := (s.revive v.ctx).fresh
  let s := n.2
  let mine := (List.range devs.length).filter fun i => devs.getD i 0 == s.devId
  let away := (List.range devs.length).filter fun i => devs.getD i 0 != s.devId
  let s := s.setGrid n.1 { v with pending := mine, remote := away.length, away := away }
  let s := away.foldl (fun s i => s.send (.group (devs.getD i 0) n.1 (groupWord i v.dmask))) s
  s.soon (mine.map fun i => .event (.groupPlacement n.1 i))

/-- Whether an earlier grid of a queue still runs (SER). -/
def State.queueRuns (s : State) (q : Nat) : Bool := s.grids.any fun e => e.2.queue == some q

/-- Steps 3 and 4 of R319 for a packet whose waits are over; `fail`: its WAITS could not be read. -/
def State.acceptPacket (s : State) (q : Nat) (p : List Byte) (fail : Bool) : State :=
  let ctx := s.qCtx q
  match s.readBytes 0 ctx (BitVec.ofNat 64 (Pkt.rec_ p)) 256 with
  | .error _ => s.packetError q
  | .ok r =>
    let s := s.advanceProg q
    let v := newGrid ctx p r (s.qBits q 27 24) 0 none (some q)
    if fail then (s.takePitch ctx r).endAtOnce v 0xF
    else if Rec.check r ≠ 0 then s.endAtOnce v (Rec.check r)
    else
      let s := s.takePitch ctx r
      match s.spanOf ctx p r with
      | .error status => s.endAtOnce v status
      | .ok devs => s.startGrid v devs

/-- Whether a queue has a packet that the scheduler may take now. -/
def State.accepts (s : State) (q : Nat) : Bool :=
  !(s.fatal || !s.dev.resident.contains q || !s.qEnabled q || s.pendingPackets q = 0 || s.queueCut q)

/-- LAUNCH_ACCEPT: the next packet of a resident, enabled queue with pending packets (R319). -/
def State.launchAccept (s : State) (q : Nat) : State :=
  if !s.accepts q then s else
  match s.packetAt q with
  | none => s.packetError q
  | some p =>
    if !Pkt.ok p then s.packetError q
    else if Pkt.ser p && s.queueRuns q then s
    else match s.waitsOf (s.qCtx q) (Pkt.waits p) with
      | .wait => s
      | .go => s.acceptPacket q p false
      | .fail => s.acceptPacket q p true

/-- The lines that the acceptance of a packet reads: the packet, its record, its wait and its table of devices. -/
def State.packetLines (s : State) (q : Nat) : List Nat :=
  if !s.accepts q then [] else
  match s.packetAt q with
  | none => []
  | some p =>
    lineOf (bitsOf (s.ap! (offLqBase q)) 47 6 * 64 + 64 * (s.prog q % s.queueSize q)) :: s.linesAt 0 (s.qCtx q) (Pkt.rec_ p) 256
      ++ s.linesAt 0 (s.qCtx q) (Pkt.devs p) (2 * Pkt.ndev p) ++ if Pkt.waits p = 0 then [] else s.linesAt 0 (s.qCtx q) (Pkt.waits p) 8

def execLaunchAccept (q : Nat) (s : State) : Host.Outcome State Fault Refusal :=
  done (s.readFirst (.launchAccept q) (s.packetLines q) fun s => s.launchAccept q)

/-! ### Child grids (R320) -/

def isLaunch : Wait → Bool | .launch .. => true | _ => false

/-- A device-side queue's name among the grids' queues. -/
def devQueue (ctx q : Nat) : Nat := 1024 + 16 * ctx + q

/-- The DMASK of the tree, every die for the child of no grid. -/
def State.maskOf (s : State) (parent : Option Nat) : Nat :=
  match parent with
  | none => 0xF
  | some g => (match s.grid? g with | some v => v.dmask | none => 0xF)

/-- The status with which a child ends at once, 0 where it runs. -/
def childStatus (e : DevEntry) (fail : Bool) : Nat :=
  if fail then 0xF
  else if Rec.check e.record ≠ 0 then Rec.check e.record
  else if Rec.group e.record = 4 then 0xB
  else if 8 < e.depth then 0xC
  else 0

/-- Acceptance of the oldest entry of a device-side queue, and the launches that its place lets go on. -/
def State.acceptChild (s : State) (ctx q : Nat) (e : DevEntry) (rest : List DevEntry) (fail : Bool) : State :=
  let s := s.modDev fun v =>
    { v with devq := if rest.isEmpty then Tab.del v.devq (16 * ctx + q) else Tab.upd v.devq (16 * ctx + q) rest }
  let v := newGrid ctx e.packet e.record (s.maskOf e.parent) e.depth e.parent (some (devQueue ctx q))
  let status := childStatus e fail
  let s := if Rec.check e.record = 0 || fail then s.takePitch ctx e.record else s
  let s := if status ≠ 0 then
      let s := s.endAtOnce v status
      match e.parent with | some g => s.soon [.event (.gridComplete g)] | none => s
    else s.startGrid v (List.replicate (Rec.groups e.record) s.devId)
  s.tryWaiters (s.warpsOfCtx ctx) isLaunch State.tryLaunch

/-- CHILD_LAUNCH_ACCEPT (R320). -/
def State.childAccept (s : State) (ctx q : Nat) : State :=
  if s.fatal then s else
  match Tab.get s.dev.devq [] (16 * ctx + q) with
  | [] => s
  | e :: rest =>
    if Pkt.ser e.packet && s.queueRuns (devQueue ctx q) then s
    else match s.waitsOf ctx (Pkt.waits e.packet) with
      | .wait => s
      | .go => s.acceptChild ctx q e rest false
      | .fail => s.acceptChild ctx q e rest true

/-- The line that the oldest entry of a device-side queue waits for. -/
def State.childLines (s : State) (ctx q : Nat) : List Nat :=
  match Tab.get s.dev.devq [] (16 * ctx + q) with
  | [] => []
  | e :: _ => if Pkt.waits e.packet = 0 then [] else s.linesAt 0 ctx (Pkt.waits e.packet) 8

def execChildLaunchAccept (ctx q : Nat) (s : State) : Host.Outcome State Fault Refusal :=
  done (s.readFirst (.childLaunchAccept ctx q) (s.childLines ctx q) fun s => s.childAccept ctx q)

/-! ### Groups of a paddock grid (R319) -/

/-- PADDOCK_GRID_GROUP: a group that another device accepted is placed here, where the context is present; `word` names the group and its
DMASK. -/
def State.paddockGroup (s : State) (ctx : Nat) (r : List Byte) (word dev : Nat) : State :=
  if s.fatal || !s.present ctx then s else
  let n := (s.revive ctx).fresh
  let grp := word % 2 ^ 32
  (n.2.setGrid n.1 { newGrid ctx [] r (word / 2 ^ 32) 0 none none with pending := [grp], src := some (dev, grp) }).soon
    [.event (.groupPlacement n.1 grp)]

def execPaddockGridGroup (ctx : Nat) (rec : List Byte) (grp dev : Nat) (s : State) : Host.Outcome State Fault Refusal :=
  done (s.paddockGroup ctx rec grp dev)

/-- GROUP_RETIRED: another device's group is done. -/
def execGroupRetired (grid _grp : Nat) (s : State) : Host.Outcome State Fault Refusal :=
  done ((s.modGrid grid fun v => { v with remote := v.remote - 1 }).soon [.event (.gridComplete grid)])

/-! ### Continuations (R321, R322) -/

def isPost : Wait → Bool | .post .. => true | _ => false

/-- The record of a continuation's block: the posting grid's, with its own ENTRY and one warp. -/
def contRecord (r c : List Byte) : List Byte := c.take 8 ++ (r.drop 8).take 6 ++ leBytes 2 1 ++ r.drop 16

/-- A continuation starts on a core of its yard. -/
def State.startCont (s : State) (core : Nat) (c : Cont) (r : List Byte) : State :=
  (s.placeBlock
    { ctx := c.ctx, grid := some c.grid, kind := .cont, index := 0xFFFFFFFF, core := core, record := contRecord r c.record, warps := 1,
      level := .u, args := (List.range 3).map fun i => BitVec.ofNat 64 (leAt c.record (8 + 8 * i) 8) }).2

/-- CONTINUATION_DISPATCH: the oldest record of a yard's queue starts where a core of the yard has room; posts that wait for a place
go on (R321, R322). -/
def State.dispatchCont (s : State) (yard : Nat) : State :=
  let d := yard / 12
  match Tab.get (s.die d).tasks [] yard with
  | [] => s
  | c :: rest =>
    match s.grid? c.grid with
    | none => s
    | some v =>
      let r := v.record
      let cores := (List.range 4).map (48 * d + 4 * (yard % 12) + ·)
      match if s.serves d then s.chooseCore r cores c.ctx 1 (Rec.rcb r + Rec.spb r + Rec.acb r) else none with
      | none => s
      | some core =>
        let s := s.modDie d fun x => { x with tasks := if rest.isEmpty then Tab.del x.tasks yard else Tab.upd x.tasks yard rest }
        let s := s.startCont core c r
        s.tryWaiters (s.warps) isPost State.tryPost

def execContinuationDispatch (yard : Nat) (s : State) : Host.Outcome State Fault Refusal := done (s.dispatchCont yard)

end Sys2Proof.Machine
end

