-- ==== Sys2Proof/Machine/Handlers.lean ====
section
/-!
DEFINITION. Machine/Handlers.lean: trap handlers and remote invocations (spec/11 R325 to R334; spec/14 R402 to R404).
-/

namespace Sys2Proof.Machine

/-! ### The start of a trap handler (R403) -/

/-- The faulting core where it has room, else another of its die. -/
def State.trapCore (s : State) (core ctx : Nat) : Option Nat :=
  if s.hasRoom core ctx 1 1 && !s.givesWay [] [core] then some core else s.chooseCore [] (coresOfDie (dieOfCore core)) ctx 1 1

/-- A handler warp in the faulting warp's context (R403 step 3). -/
def State.startTrap (s : State) (wid core : Nat) (w : Warp) (p : Susp) : State :=
  let entry := s.ap! (offFltHnd w.ctx) / 4 * 4
  let x := s.placeBlock
    { ctx := w.ctx, grid := none, kind := .trap, index := 0, core := core, record := Rec.synth entry 1 64 1, warps := 1, level := .p,
      args := [0, p.record], suspect := some wid }
  let s := x.2.modWarp wid fun w => { w with susp := some { p with started := true } }
  let s := (s.warpsOfBlock x.1).foldl (fun s e => s.modWarp e.1 fun h =>
    { h with frec := p.record, tclass := BitVec.ofNat 32 (trapCode p.trap.cls) }) s
  s.acquire core .dv

/-- A warp that its debugger holds: the record is written and the warp stops, with its register lines in the image (R422). -/
def State.holdForDebugger (s : State) (wid : Nat) (p : Susp) : State :=
  (s.modWarp wid fun w => { w with susp := some { p with started := true }, stopped := true }).flushRegs wid

/-- TRAP_HANDLER_START: the record is written once; the handler starts where there is room, and waits while there is none (R403). -/
def State.trapStart (s : State) (wid : Nat) : State :=
  match (s.warp? wid).bind Warp.susp with
  | none => s
  | some p =>
    if p.started then s else
    let s := if p.record = 0 then s.writeRecord wid else s
    match s.warp? wid with
    | none => s
    | some w =>
      match w.susp with
      | none => s
      | some p =>
        if p.debugger then s.holdForDebugger wid p else
        match s.trapCore (coreOf wid) w.ctx with
        | none => s
        | some core => s.startTrap wid core w p

/-- The table lines that the record's translation needs (R282). -/
def State.recordWaits (s : State) (wid : Nat) : List Nat :=
  match s.warp? wid with
  | none => []
  | some w => if s.mem.leases.isEmpty then [] else s.saveWalks (coreOf wid) w.ctx

def execTrapHandlerStart (wid : Nat) (s : State) : Host.Outcome State Fault Refusal :=
  done (s.recallFirst (.trapHandlerStart wid) (s.recordWaits wid) fun s => s.trapStart wid)

/-! ### Pitch-table entries and overflow rings (R327, R329) -/

namespace Pitch
def entry (e : List Byte) : Nat := leAt e 0 8 / 4 * 4
def warps (e : List Byte) : Nat := leAt e 8 1
def rblk (e : List Byte) : Nat := leAt e 9 1
def policy (e : List Byte) : Nat := leAt e 0xA 1
def ring (e : List Byte) : Nat := leAt e 0x10 8
/-- V = 1 and every field legal. -/
def ok (e : List Byte) : Bool :=
  leAt e 0 1 % 4 == 1 && 1 ≤ warps e && warps e ≤ 16 && 1 ≤ rblk e && rblk e ≤ 16 && policy e ≤ 2 && leAt e 0xB 5 == 0
    && ring e % 64 == 0 && ((ring e != 0) == (policy e == 1)) && leAt e 0x18 8 == 0
end Pitch

/-- The pitch-table entry of a handler index as a die reads it. -/
def State.pitchEntry (s : State) (d ctx hidx : Nat) : Option (List Byte) :=
  match s.readBytes (48 * d) ctx (BitVec.ofNat 64 (s.ap! (offPitch ctx) + 32 * hidx)) 32 with
  | .error _ => none
  | .ok e => some e

/-- PUT, GET and SIZE of a ring; none where the header faults or SIZE is illegal. -/
def State.ringHeader (s : State) (d ctx ring : Nat) : Option (Nat × Nat × Nat) :=
  match s.readBytes (48 * d) ctx (BitVec.ofNat 64 ring) 64 with
  | .error _ => none
  | .ok h =>
    let size := leAt h 8 4
    if 1 ≤ size && size ≤ 65536 && 2 ^ Nat.log2 size = size then some (leAt h 0 4, leAt h 4 4, size) else none

/-- Bytes written by a die for a context, where they can be. -/
def State.dieWrite (s : State) (d ctx va : Nat) (bs : List Byte) : Option State :=
  match s.keysOf (48 * d) ctx .write (BitVec.ofNat 64 va) bs.length with
  | .error _ => none
  | .ok ks => some ((s.homeRun (48 * d) ctx (BitVec.ofNat 64 va) ks).writeHome (some ctx) none (ks.zip bs))

/-- Records in a ring. -/
def ringCount (h : Nat × Nat × Nat) : Nat := (h.1 + 2 ^ 32 - h.2.1) % 2 ^ 32

/-! ### Invocations (R328, R331) -/

/-- The 64 bytes of an invocation record. -/
def invokeRecord (p : Invoke) (spill : Bool) : List Byte :=
  leBytes 8 (p.sdev % 1024 + p.sdie % 4 * 2 ^ 10 + p.score % 64 * 2 ^ 12 + p.hidx % 4096 * 2 ^ 18 + p.cls % 4 * 2 ^ 30 + p.narg % 8 * 2 ^ 32
      + (if spill then 2 ^ 35 else 0))
    ++ (List.range 6).flatMap (fun i => leBytes 8 (if i < p.narg then (p.args.getD i 0).toNat else 0)) ++ leBytes 8 p.seq

/-- Entries of a context in a die's inbox, and whether there is room for one more (R326). -/
def State.inboxRoom (s : State) (d ctx : Nat) : Bool :=
  decide (((s.die d).inbox.filter fun e => e.ctx == ctx).length < s.apBits (offRivLim ctx d) 10 0)

/-- A record joins the inbox with the fields of its pitch-table entry (R327). -/
def State.inboxPut (s : State) (d ctx hidx : Nat) (record e : List Byte) : State :=
  let n := s.fresh
  (n.2.modDie d fun x => { x with inbox := x.inbox ++
    [{ id := n.1, ctx := ctx, cls := leAt record 0 4 / 2 ^ 30, record := record, entry := BitVec.ofNat 64 (Pitch.entry e),
       warps := Pitch.warps e, rblk := Pitch.rblk e, hidx := hidx, taken := none }] }).soon [.event (.handlerAssign d)]

/-- The answer goes back to its sender (R328, R336). -/
def State.answer (s : State) (p : Invoke) (code : Nat) (req : Bool) : State :=
  let x := answerWord (s.devId + 1024 * p.die) p.seq code
  if p.sdev = s.devId then (s.cross p.die p.sdie 1).soon [.event (.invocationAnswer p.wid x req)] else s.send (.answer p.sdev p.wid x p.cls req)

/-- Appends to the ring: 1, 3 where it is full, 4 where a write faults (R328, R329). -/
def State.spill (s : State) (p : Invoke) (ring : Nat) (h : Nat × Nat × Nat) : State :=
  if ringCount h = h.2.2 then s.answer p 3 false else
  match s.dieWrite p.die p.ctx (ring + 0x40 + 64 * (h.1 % h.2.2)) (invokeRecord p true) with
  | none => s.answer p 4 false
  | some s' =>
    match s'.dieWrite p.die p.ctx ring (leBytes 4 (h.1 + 1)) with
    | none => s.answer p 4 false
    | some s => (s.modDie p.die fun x => { x with rings := (p.ctx, p.hidx) :: x.rings.erase (p.ctx, p.hidx) }).answer p 1 false

/-- REMOTE_INVOCATION: the receiving die decides in the order of R328 and answers. -/
def State.invoked (s : State) (p : Invoke) : State :=
  if s.fatal then s.answer p 5 false
  else if !s.present p.ctx then s.answer p 6 false
  else match s.pitchEntry p.die p.ctx p.hidx with
    | none => s.answer p 4 false
    | some e =>
      if !Pitch.ok e then s.answer p 4 false else
      let ring := Pitch.ring e
      match if Pitch.policy e = 1 then s.ringHeader p.die p.ctx ring else some (0, 0, 1) with
      | none => s.answer p 4 false
      | some h =>
        if s.inboxRoom p.die p.ctx && ringCount h = 0 then (s.inboxPut p.die p.ctx p.hidx (invokeRecord p false) e).answer p 0 false
        else if Pitch.policy e = 0 then s.answer p 2 false
        else if Pitch.policy e = 2 then s.answer p 2 true
        else s.spill p ring h

/-- The lines of an entry of a pitch table and of its ring's header and record, the record's place counted from PUT or from GET. -/
def State.ringLines (s : State) (d ctx hidx : Nat) (put : Bool) : List Nat :=
  s.linesAt (48 * d) ctx (s.ap! (offPitch ctx) + 32 * hidx) 32 ++
    match s.pitchEntry d ctx hidx with
    | none => []
    | some e =>
      if Pitch.policy e ≠ 1 then [] else
      s.linesAt (48 * d) ctx (Pitch.ring e) 64 ++
        match s.ringHeader d ctx (Pitch.ring e) with
        | none => []
        | some h => s.linesAt (48 * d) ctx (Pitch.ring e + 0x40 + 64 * ((if put then h.1 else h.2.1) % h.2.2)) 64

def execRemoteInvocation (p : Invoke) (s : State) : Host.Outcome State Fault Refusal :=
  done (s.readFirst (.remoteInvocation p) (if s.fatal || !s.present p.ctx then [] else s.ringLines p.die p.ctx p.hidx true) fun s =>
    s.invoked p)

/-- OVERFLOW_RING_MOVE: the oldest ring record goes to the inbox; where the entry is no longer valid it is dropped (R327, R329). -/
def State.ringMove (s : State) (d ctx hidx : Nat) : State :=
  let none_ := s.modDie d fun x => { x with rings := x.rings.erase (ctx, hidx) }
  if !s.inboxRoom d ctx then s else
  match s.pitchEntry d ctx hidx with
  | none => s
  | some e =>
    let ring := Pitch.ring e
    match s.ringHeader d ctx ring with
    | none => s
    | some h =>
      if ringCount h = 0 then none_ else
      match s.readBytes (48 * d) ctx (BitVec.ofNat 64 (ring + 0x40 + 64 * (h.2.1 % h.2.2))) 64 with
      | .error _ => s
      | .ok r =>
        match s.dieWrite d ctx (ring + 4) (leBytes 4 (h.2.1 + 1)) with
        | none => s
        | some s => if Pitch.ok e then s.inboxPut d ctx hidx r e else s

def execOverflowRingMove (die ctx hidx : Nat) (s : State) : Host.Outcome State Fault Refusal :=
  done (s.readFirst (.overflowRingMove die ctx hidx) (s.ringLines die ctx hidx false) fun s => s.ringMove die ctx hidx)

/-! ### Assignment (R330, R332, R333) -/

/-- Warps 0 of groups of a handler index that wait in a pop of q3, with the cycle since which they wait. -/
def State.idleHandlers (s : State) (d ctx hidx : Nat) : List (Nat × Nat × Blocked) :=
  s.warps.filterMap fun e =>
    match s.block? e.2.blk with
    | none => none
    | some b =>
      if e.2.widx = 0 && e.2.ctx = ctx && b.kind == .handler && b.hidx = hidx && dieOf e.1 = d && b.resident && e.2.susp.isNone
          && e.2.inbox.isNone then
        (e.2.blocked.find? fun x => match x.what with | .pop 3 _ => true | _ => false).map fun x => (x.since, e.1, x)
      else none

/-- An entry is assigned to a block, whose warp 0 it names. -/
def State.giveEntry (s : State) (d id blk wid : Nat) : State :=
  (s.modDie d fun x => { x with inbox := x.inbox.map fun e => if e.id = id then { e with taken := some blk } else e }).modWarp wid fun w =>
    { w with inbox := some id }

/-- A new group for an entry, in the banks it needs (R330). -/
def State.handlerGroup (s : State) (core : Nat) (e : InboxEntry) (rcb : Nat) : Nat × State :=
  s.placeBlock
    { ctx := e.ctx, grid := none, kind := .handler, index := 0, core := core, record := Rec.synth e.entry.toNat e.warps (32 * e.rblk) rcb,
      warps := e.warps, level := .p, hidx := e.hidx }

/-- The reserved place of a die: slot 63 of core 0 with its lean-to (R333). -/
def State.reservedFree (s : State) (d : Nat) : Bool :=
  (s.warp? (64 * (48 * d) + 63)).isNone && (s.core (48 * d)).leanTo.isNone

/-- A class-3 group of one warp starts there, its registers in the lean-to. -/
def State.reservedGroup (s : State) (d : Nat) (e : InboxEntry) : Nat × State :=
  let x := s.fresh
  let core := 48 * d
  let wid := 64 * core + 63
  let n : NewBlock :=
    { ctx := e.ctx, grid := none, kind := .handler, index := 0, core := core, record := Rec.synth e.entry.toNat 1 (32 * e.rblk) 0,
      warps := 1, level := .p, hidx := e.hidx }
  let b := n.block [] [(0, 63)]
  (x.1, ((x.2.setBlock x.1 b).newWarp wid { b.firstWarp x.1 0 .p with lean := some 0, leanTop := 32 * e.rblk }).modCore core fun c => { c with leanTo := some wid })

/-- The warp 0 of a block. -/
def State.warp0 (s : State) (blk : Nat) : Nat := (((s.warpsOfBlock blk).find? fun e => e.2.widx == 0).map (·.1)).getD 0

/-- Tries to assign one entry. -/
def State.assign (s : State) (d : Nat) (e : InboxEntry) : Option State :=
  match s.idleHandlers d e.ctx e.hidx with
  | x :: xs =>
    let y := xs.foldl (fun m z => if z.1 < m.1 then z else m) x
    (match s.warp? y.2.1 with
    | some w => some (((s.giveEntry d e.id w.blk y.2.1).popInbox y.2.1 y.2.2 (match y.2.2.what with | .pop _ k => k | _ => 0)))
    | none => none)
  | [] =>
    let rcb := (e.warps * e.rblk + 15) / 16
    match if s.serves d then s.chooseCore [] (coresOfDie d) e.ctx e.warps rcb else none with
    | some core => let x := s.handlerGroup core e rcb; some (x.2.giveEntry d e.id x.1 (x.2.warp0 x.1))
    | none =>
      if e.cls = 3 && e.warps = 1 && e.rblk ≤ 2 && s.saves e.ctx && s.serves d && s.reservedFree d then
        let x := s.reservedGroup d e; some (x.2.giveEntry d e.id x.1 (x.2.warp0 x.1))
      else none

/-- The entries not assigned, by class, highest first, then in order of arrival. -/
def Die.waiting (x : Die) : List InboxEntry :=
  [3, 2, 1, 0].flatMap fun c => x.inbox.filter fun e => e.taken.isNone && e.cls == c

/-- HANDLER_ASSIGN: the first entry that can be assigned is (R330). -/
def State.handlerAssign (s : State) (d : Nat) : State := ((s.die d).waiting.findSome? (s.assign d)).getD s

def execHandlerAssign (die : Nat) (s : State) : Host.Outcome State Fault Refusal := done (s.handlerAssign die)

end Sys2Proof.Machine
end

