-- ==== Sys2Proof/Machine/Reduce.lean ====
section
/-!
DEFINITION. Machine/Reduce.lean: `rsum`: contributions, roots, trees, stamps, pushes and triggers (spec/12 R340 to R353, R362, R363).
-/

namespace Sys2Proof.Machine

/-! ### Descriptors (R340 to R342) -/

namespace Red
def seq (d : List Byte) : Nat := leAt d 0 6
def dst (d : List Byte) : Nat := leAt d 8 8
def stamp (d : List Byte) : Nat := leAt d 0x10 8
def ctl (d : List Byte) : Nat := leAt d 0x18 4
def count (d : List Byte) : Nat := leAt d 0x1C 4
def tmo (d : List Byte) : Nat := leAt d 0x20 4
def nmem (d : List Byte) : Nat := leAt d 0x24 2
def memt (d : List Byte) : Nat := leAt d 0x28 8
def trig (d : List Byte) : Nat := leAt d 0x30 4
def lpkt (d : List Byte) : Nat := leAt d 0x38 8
/-- Well formed but for its member table. -/
def ok (d : List Byte) : Bool :=
  leAt d 6 2 == 0 && ctl d < 32 && leAt d 0x26 2 == 0 && trig d < 2 ^ 14 && leAt d 0x34 4 == 0 && count d ≤ 1024 && nmem d != 0
    && nmem d ≤ 32768 && dst d % 4 == 0 && stamp d % 8 == 0 && memt d % 4 == 0
/-- A member entry: device below 640, core below 48. -/
def memberOk (e : Nat) : Bool := e < 2 ^ 18 && e % 1024 < 640 && e / 2 ^ 12 < 48
end Red

/-- The member entry of a core of this device. -/
def State.memberOf (s : State) (core : Nat) : Nat := s.devId + dieOfCore core * 2 ^ 10 + coreInDie core * 2 ^ 12

/-- A stamp's value (R347). -/
def stampWord (status seq : Nat) : Nat := status % 256 * 2 ^ 56 + seq % 2 ^ 48

/-! ### Trees (R344) -/

/-- comb with absent operands. -/
def comb {α : Type} (f : α → α → α) : Option α → Option α → Option α
  | some a, some b => some (f a b)
  | some a, none => some a
  | none, b => b

/-- One level of tree 0: neighbours combine. -/
def pairUp {α : Type} (f : α → α → α) : List (Option α) → List (Option α)
  | a :: b :: r => comb f a b :: pairUp f r
  | l => l

/-- One level of tree 3: four neighbours combine, from the left. -/
def fourUp {α : Type} (f : α → α → α) : List (Option α) → List (Option α)
  | a :: b :: c :: d :: r => comb f (comb f (comb f a b) c) d :: fourUp f r
  | [] => []
  | l => [l.foldl (comb f) none]

/-- Levels until one operand is left. -/
def untilOne {α : Type} (level : List (Option α) → List (Option α)) : Nat → List (Option α) → Option α
  | 0, l => (l.head?).join
  | n + 1, l => if l.length ≤ 1 then (l.head?).join else untilOne level n (level l)

/-- One level of tree 1: the halves combine. -/
def halves {α : Type} (f : α → α → α) (l : List (Option α)) : List (Option α) :=
  let h := l.length / 2
  (List.range h).map fun r => comb f ((l.getD r none)) ((l.getD (r + h) none))

/-- The least power of two at or above a number. -/
def pow2Up (n : Nat) : Nat := if n ≤ 1 then 1 else 2 ^ (Nat.log2 (n - 1) + 1)

/-- The result over ranks 0 to n − 1. -/
def treeOf {α : Type} (f : α → α → α) (tree n : Nat) (v : Nat → α) : Option α :=
  let l := (List.range (pow2Up n)).map fun r => if r < n then some (v r) else none
  match tree % 4 with
  | 0 => untilOne (pairUp f) 16 l
  | 1 => untilOne (halves f) 16 l
  | 2 => l.foldl (comb f) none
  | _ => untilOne (fourUp f) 16 l

/-- An FP32 value with every NaN canonical. -/
def quiet32 (v : Word) : Word := Fp.ofElems .f32 fun j => (Fp.fmtOf .f32).round .rne ((Fp.fmtOf .f32).value (Fp.elem .f32 v j))

/-- The FP32 sum over ranks. -/
def sum32 (tree n : Nat) (v : Nat → Word) : Word := quiet32 ((treeOf (Fp.fadd .rne .f32) tree n v).getD 0)

/-- One BF16 element: widened exactly, summed in FP32, rounded once. -/
def sumBf (tree n : Nat) (v : Nat → Nat) : Nat :=
  let s := sum32 tree n fun r => BitVec.ofNat 32 (v r % 2 ^ 16 * 2 ^ 16)
  (Fp.fmtOf .bf16).round .rne ((Fp.fmtOf .f32).value s.toNat)

/-- One word of the result by OP. -/
def reduceWord (op tree n : Nat) (v : Nat → Word) : Word :=
  match op % 4 with
  | 0 => sum32 tree n v
  | 1 => BitVec.ofNat 32 (sumBf tree n (fun r => (v r).toNat % 2 ^ 16) + 2 ^ 16 * sumBf tree n (fun r => (v r).toNat / 2 ^ 16))
  | 2 => (treeOf (· + ·) tree n v).getD 0
  | _ => quiet32 ((treeOf (Fp.fmax .f32) tree n v).getD 0)

/-! ### Stamps, pushes and triggers (R347, R350 to R353) -/

/-- A stamp in a line is written: registrations that waited for it end (R353). -/
def State.stamped (s : State) (line : Nat) : State :=
  dieList.foldl (fun s d => if (s.die d).loose.contains line then s.modDie d fun x => { x with loose := x.loose.filter (· != line) } else s) s

/-- A stamp at a context's address, written as a whole where it can be (R351). -/
def State.stampAs (s : State) (core ctx : Nat) (priv : Bool) (va v : Nat) : State :=
  if va % 8 ≠ 0 then s else
  match s.place core ctx priv .write (BitVec.ofNat 64 va) with
  | .error _ => s
  | .ok key => ((s.homeAt core ctx (BitVec.ofNat 64 va) key).writeNum (some ctx) key 8 v).stamped (lineOf key)

/-- The line of a stamp, for the stamp table. -/
def State.stampLine (s : State) (core ctx : Nat) (priv : Bool) (va : Nat) : Option Nat :=
  match s.mapTo core ctx priv .write (BitVec.ofNat 64 va) with
  | .error _ => none
  | .ok key => some (lineOf key)

/-- A die registers a stamp's line, or drops one registration (R353). -/
def State.register (s : State) (d : Nat) (line : Option Nat) : State :=
  match line with
  | some l => (s.stampWaits d l).modDie d fun x => { x with stamps := l :: x.stamps }
  | none => s
/-- A contribution that takes part in no instance has registered its stamp's line too. -/
def State.registerLoose (s : State) (d : Nat) (line : Option Nat) : State :=
  match line with
  | some l => (s.stampWaits d l).modDie d fun x => { x with loose := l :: x.loose }
  | none => s
def State.unregister (s : State) (d : Nat) (line : Option Nat) : State :=
  match line with
  | some l => s.modDie d fun x => { x with stamps := x.stamps.erase l }
  | none => s

/-- A result reaches the reserved q2 entry of its block (R218, R350). -/
def State.pushResult (s : State) (blk : Nat) (rq : Bool) (v : Nat) : State :=
  if !rq then s else
  (s.modBlock blk fun b => { b.push 2 (BitVec.ofNat 64 v) with q2res := b.q2res - 1 }).wakeQueues blk

/-- TRP: a nonzero end status traps a contributor (R352). -/
def State.trapResult (s : State) (wid blk : Nat) (trp : Bool) (status seq : Nat) : State :=
  if trp && status ≠ 0 then s.deliver wid blk { cls := .collTimeout, addr := BitVec.ofNat 64 (stampWord status seq) } else s

def trigLaunch (trig : Nat) : Bool := trig / 2 ^ 9 % 2 == 1
def trigIrq (trig : Nat) : Bool := trig / 2 ^ 8 % 2 == 1
def trigQueue (trig : Nat) : Nat := trig / 2 ^ 10 % 16

/-- The grid of a contributor stays open while its instance may launch a child of it (R350). -/
def State.holdGrid (s : State) (trig : Nat) (g : Option Nat) : State :=
  match g with
  | some g => if trigLaunch trig then s.modGrid g fun v => { v with children := v.children + 1 } else s
  | none => s
def State.letGo (s : State) (g : Nat) : State :=
  (s.modGrid g fun v => { v with children := v.children - 1 }).soon [.event (.gridComplete g)]

/-- The launch trigger of an instance is enqueued or dropped: contributors on other devices learn it (R350; bit 10: log entry 107). -/
def State.tellFar (s : State) (places : List Nat) (seq : Nat) : State := places.foldl (fun s p => s.send (.ended p seq 1024)) s

/-- A contribution that waited for its instance's launch trigger lets its grid go (R350). -/
def State.release (s : State) (d : Nat) (o : OpenSum) : State :=
  let s := s.modDie d fun x => { x with opens := x.opens.filter fun y => y.id != o.id }
  if o.contrib.grid = 0 then s else s.letGo (o.contrib.grid - 1)

/-- So do those of this device. -/
def State.releaseHere (s : State) (ctx : Nat) (inst : DWord × Nat) : State :=
  dieList.foldl (fun s d =>
    ((s.die d).opens.filter fun o => o.kept && o.contrib.ctx == ctx && o.contrib.desc == inst.1 && o.contrib.seq == inst.2).foldl
      (fun s o => s.release d o) s) s

/-- Puts an entry into a device-side queue, or lets it wait for room; grids that waited for that are let go (R320, R350). -/
def State.enqueue (s : State) (t : Trigger) : State :=
  let key := 16 * t.ctx + t.q
  let old := Tab.get s.dev.devq [] key
  if 64 ≤ old.length then s.modDev fun v => { v with trigs := v.trigs ++ [t] }
  else t.grids.foldl (fun s g => s.letGo g)
    ((((s.tellFar t.tell t.inst.2).releaseHere t.ctx t.inst).modDev fun v => { v with devq := Tab.upd v.devq key (old ++ [t.entry]) }).soon [.event (.childLaunchAccept t.ctx t.q)])

/-- The grid of a contributor whose instance has ended; it waits on while the instance's launch trigger waits to be enqueued (R350). -/
def State.freeGrid (s : State) (trig : Nat) (inst : DWord × Nat) (g : Option Nat) : State :=
  match g with
  | none => s
  | some g =>
    if !trigLaunch trig then s
    else if s.dev.trigs.any fun t => t.inst == inst then
      s.modDev fun v => { v with trigs := v.trigs.map fun t => if t.inst == inst then { t with grids := t.grids ++ [g] } else t }
    else s.letGo g

/-- What a launch trigger reads: its packet, and the record that the packet names. -/
def State.trigRanges (s : State) (e : Eng) (trig lpkt : Nat) : List Range :=
  if !trigLaunch trig || lpkt % 64 ≠ 0 then [] else
  (.g, (lpkt : Int), 64) :: match s.engBytes e .g lpkt 64 with
    | .ok p => if Pkt.ok p then [(.g, (Pkt.rec_ p : Int), 256)] else []
    | .error _ => []

/-- The launch trigger: a child of a grid, from a packet that is dropped where `launch` would trap (R223, R350). -/
def State.fireLaunch (s : State) (e : Eng) (inst : DWord × Nat) (trig lpkt : Nat) (parent : Option Nat) : State :=
  if !trigLaunch trig || lpkt % 64 ≠ 0 then s else
  let s := s.drawLines e.core (s.homeLines e (s.trigRanges e trig lpkt))
  match s.engBytes e .g lpkt 64 with
  | .error _ => s
  | .ok p =>
    if !Pkt.ok p || Pkt.ndev p ≠ 0 then s else
    match s.engBytes e .g (Pkt.rec_ p : Nat) 256 with
    | .error _ => s
    | .ok r =>
      if Pkt.waits p ≠ 0 && (match s.mapTo e.core e.ctx e.priv .read (BitVec.ofNat 64 (Pkt.waits p)) with | .error _ => true | .ok _ => false)
      then s
      else
        let entry : DevEntry := { packet := p, record := r, parent := parent, depth := s.depthOf parent + 1 }
        let s := match parent with
          | some g => s.modGrid g fun x => { x with children := x.children + 1 }
          | none => s
        s.enqueue { ctx := e.ctx, q := trigQueue trig, entry := entry, inst := inst, grids := [] }

def State.fireIrq (s : State) (trig : Nat) : State := if trigIrq trig then s.irq (trig % 256) else s

/-- LAUNCH_TRIGGER_ENQUEUE: the oldest waiting trigger of a queue that has room joins it (R350). -/
def State.triggerEnqueue (s : State) (ctx q : Nat) : State :=
  if 64 ≤ (Tab.get s.dev.devq [] (16 * ctx + q)).length then s else
  match s.dev.trigs.find? fun t => t.ctx == ctx && t.q == q with
  | none => s
  | some t => (s.modDev fun v => { v with trigs := v.trigs.erase t }).enqueue t

def execLaunchTriggerEnqueue (ctx q : Nat) (s : State) : Host.Outcome State Fault Refusal := done (s.triggerEnqueue ctx q)

/-! ### A contribution at its engine (R343, R363) -/

def CollCmd.eng (o : CollCmd) (core : Nat) : Eng := { core := core, ctx := o.ctx, blk := o.blk, priv := o.priv }

/-- The descriptor, the rank of the issuing core and the device of rank 0; or the status that goes to this contributor alone, with the SEQ it shows. -/
def State.readSum (s : State) (core : Nat) (o : CollCmd) : Except (Nat × Nat) (List Byte × Nat × Nat) :=
  let e := o.eng core
  if o.desc.toNat % 64 ≠ 0 then .error (3, 0) else
  match s.engBytes e .g o.desc.toNat 64 with
  | .error _ => .error (4, 0)
  | .ok d =>
    if !Red.ok d then .error (3, Red.seq d) else
    match s.engBytes e .g (Red.memt d : Nat) (4 * Red.nmem d) with
    | .error _ => .error (4, Red.seq d)
    | .ok t =>
      let ms := (List.range (Red.nmem d)).map fun i => leAt t (4 * i) 4
      if !ms.all Red.memberOk || (distinct ms).length ≠ ms.length then .error (3, Red.seq d) else
      match (List.range ms.length).find? fun i => ms.getD i 0 == s.memberOf core with
      | none => .error (6, Red.seq d)
      | some r => .ok (d, r, ms.getD 0 0 % 1024)

/-- The words of the source; none where it faults or is not 4-byte aligned. -/
def State.sumSource (s : State) (e : Eng) (o : CollCmd) (count : Nat) : Option (List Word) :=
  let sp : Spc := if o.ss then .s else .g
  let base : Int := if o.ss then (low32 o.src : Int) else (o.src.toNat : Int)
  if o.src.toNat % 4 ≠ 0 then none else
  match s.engBytes e sp base (4 * count) with
  | .error _ => none
  | .ok bs => some ((List.range count).map fun i => BitVec.ofNat 32 (leAt bs (4 * i) 4))

/-- Device and die that home a descriptor's line; none where host memory does (log entry 55). -/
def State.rootOf (s : State) (e : Eng) (desc : DWord) : Option Nat :=
  match s.mapTo e.core e.ctx e.priv .read desc with
  | .error _ => none
  | .ok k => if isLocal k then some (4 * s.devId + dieOfLpa k) else if isPeerKey k then some (4 * (k / span - 1) + dieOfLpa (k % span)) else none

/-- Flits of a packet with a payload (R336). -/
def flits (bytes : Nat) : Nat := 1 + (bytes + 63) / 64

/-- The engine opens a contribution: its reads are made, and its flits wait to be paid. -/
def State.openSum (s : State) (core : Nat) (o : CollCmd) (d : List Byte) (rank lead root : Nat) : State :=
  let e := o.eng core
  let die := dieOfCore core
  let g := s.gridOf o.blk
  let src := s.sumSource e o (Red.count d)
  let c : Contrib :=
    { desc := o.desc, seq := Red.seq d, op := Red.ctl d % 4, tree := Red.ctl d / 4 % 4, count := Red.count d, nmem := Red.nmem d,
      dst := BitVec.ofNat 64 (Red.dst d), stamp := BitVec.ofNat 64 (Red.stamp d), memt := BitVec.ofNat 64 (Red.memt d),
      trp := Red.ctl d / 16 % 2 == 1, tmo := Red.tmo d, trig := Red.trig d, lpkt := BitVec.ofNat 64 (Red.lpkt d), rank := rank,
      data := src.getD [], srcOk := src.isSome, ctx := o.ctx, home := s.devId, die := die, wid := o.wid, blk := o.blk,
      grid := match g with | some g => g + 1 | none => 0, rq := o.rq, priv := o.priv, root := root % 4 }
  let n := s.fresh
  let s := (n.2.register die (s.stampLine core o.ctx o.priv (Red.stamp d))).holdGrid (Red.trig d) g
  s.modDie die fun x => { x with opens := x.opens ++
    [{ id := n.1, core := core, contrib := c, root := root, due := [(6, flits (4 * Red.count d))], sent := false, lead := lead }] }

/-- The line of the STAMP that a descriptor names, where the engine can read it (R353). -/
def State.sumStamp (s : State) (core : Nat) (o : CollCmd) : Option Nat :=
  if o.desc.toNat % 64 ≠ 0 then none else
  match s.engBytes (o.eng core) .g o.desc.toNat 64 with
  | .error _ => none
  | .ok d => s.stampLine core o.ctx o.priv (Red.stamp d)

/-- A contribution that takes part in no instance: its status goes to it alone (R343, R350), and the line of its STAMP is registered
(R353). -/
def State.sumAlone (s : State) (core : Nat) (o : CollCmd) (v : Nat) : State :=
  (s.registerLoose (dieOfCore core) (s.sumStamp core o)).pushResult o.blk o.rq v

/-- An `rsum` command leaves q1 (R343). -/
def State.popSum (s : State) (core : Nat) (o : CollCmd) : State :=
  match s.readSum core o with
  | .error (status, seq) => s.sumAlone core o (stampWord status seq)
  | .ok (d, rank, lead) =>
    match s.rootOf (o.eng core) o.desc with
    | none => s.sumAlone core o (stampWord 4 (Red.seq d))
    | some root => s.openSum core o d rank lead root

/-- A contribution whose flits are paid goes to its root. -/
def State.sendSum (s : State) (die : Nat) (o : OpenSum) : State :=
  let s := s.modDie die fun x => { x with opens := x.opens.map fun y => if y.id = o.id then { y with sent := true } else y }
  if o.root / 4 = s.devId then (s.cross die (o.root % 4) (flits (4 * o.contrib.data.length))).soon [.event (.reductionContribution o.contrib)] else s.send (.reduce (o.root / 4) o.contrib)

/-! ### The end of a contribution -/

/-- The dies of other devices that hold members of a contribution's instance. -/
def State.farMembers (s : State) (e : Eng) (c : Contrib) : List Nat :=
  match s.engBytes e .g c.memt.toNat (4 * c.nmem) with
  | .error _ => []
  | .ok t => (distinct ((List.range c.nmem).map fun i => let m := leAt t (4 * i) 4; 4 * (m % 1024) + m / 1024 % 4)).filter
      fun p => p / 4 != s.devId

/-- Rank 0 performs its instance's launch trigger, once; the other contributors are let go when it is enqueued or dropped (R350). -/
def State.leadLaunch (s : State) (o : OpenSum) (g : Option Nat) : State :=
  let c := o.contrib
  let e : Eng := { core := o.core, ctx := c.ctx, blk := c.blk, priv := c.priv }
  let inst := (c.desc, c.seq)
  if !trigLaunch c.trig then s else
  let far := s.farMembers e c
  let s := s.fireLaunch e inst c.trig c.lpkt.toNat g
  if s.dev.trigs.any fun t => t.inst == inst then
    s.modDev fun v => { v with trigs := v.trigs.map fun t => if t.inst == inst then { t with tell := far } else t }
  else (s.tellFar far c.seq).releaseHere c.ctx inst

/-- The outcome reaches a contributor of this device: its push, and the trap of TRP. `fire`: the launch trigger is rank 0's, and is
performed once; a duplicate or a late contribution does not perform it again. `hold`: that trigger is still to come elsewhere, and the
contributor's grid waits for it (R343, R350, R352). -/
def State.sumDone (s : State) (die : Nat) (o : OpenSum) (status : Nat) (fire hold : Bool) : State :=
  let c := o.contrib
  let g := if c.grid = 0 then none else some (c.grid - 1)
  let keep := fun (l : List OpenSum) =>
    if hold then l.map (fun y => if y.id = o.id then { y with kept := true } else y) else l.filter (fun y => y.id != o.id)
  let s := s.modDie die fun x => { x with opens := keep x.opens }
  let s := s.unregister die (s.stampLine o.core c.ctx c.priv c.stamp.toNat)
  let s := s.pushResult c.blk c.rq (stampWord status c.seq)
  let s := s.trapResult c.wid c.blk c.trp status c.seq
  let s := if fire && c.rank = 0 then s.leadLaunch o g else s
  if hold then s else s.freeGrid c.trig (c.desc, c.seq) g

/-- Tells a contributor, here or on another device. Bit 8 of the status sent says that the launch trigger is not its own to perform, bit 9
that rank 0's device performs one. -/
def State.tellSum (s : State) (fire launch : Bool) (status : Nat) (c : Contrib) : State :=
  if c.home = s.devId then
    match (s.die c.die).opens.find? fun o => o.sent && !o.kept && o.contrib == c with
    | some o => s.sumDone c.die o status fire (launch && o.lead != s.devId)
    | none => s
  else s.send (.ended (4 * c.home + c.die) c.seq (status + (if fire then 0 else 256) + if launch then 512 else 0))

/-- Tells every contributor of an ended instance, the first of rank 0 before the others (R350). -/
def State.tellAll (s : State) (parts : List Contrib) (status : Nat) : State :=
  match parts.find? fun c => c.rank == 0 with
  | some c => (parts.erase c).foldl (State.tellSum · false (trigLaunch c.trig) status) (s.tellSum true false status c)
  | none => parts.foldl (State.tellSum · false false status) s

/-! ### The root (R343, R346, R349) -/

/-- Ended instances that a root remembers: the last 256 of each descriptor. -/
def rememberSum (l : List EndedSum) (e : EndedSum) : List EndedSum :=
  let same := (l ++ [e]).filter fun x => x.ctx == e.ctx && x.desc == e.desc
  let other := l.filter fun x => !(x.ctx == e.ctx && x.desc == e.desc)
  other ++ same.drop (same.length - 256)

/-- The oldest contribution that waits for a place, with the others of its instance (R343). -/
def State.takeWaiting (s : State) (d : Nat) : State :=
  match (s.die d).rootWait with
  | [] => s
  | c :: r =>
    let same := fun (x : Contrib) => x.ctx == c.ctx && x.desc == c.desc && x.seq == c.seq
    (s.modDie d fun x => { x with rootWait := r.filter fun y => !same y }).soon
      ((c :: r.filter same).map fun y => .event (.reductionContribution y))

/-- The instance ends: stamp, then pushes and triggers; contributions that waited for its place are taken up. Of a terminated context no
stamp is written (R412). -/
def State.endSum (s : State) (d : Nat) (i : RootInst) (parts : List Contrib) (status : Nat) : State :=
  let s := s.modDie d fun x =>
    { x with
      roots := x.roots.filter (fun r => !(r.ctx == i.ctx && r.desc == i.desc && r.seq == i.seq)),
      ended := rememberSum x.ended { ctx := i.ctx, desc := i.desc, seq := i.seq, status := status } }
  let s := match parts with
    | c :: _ => (if i.dead then s else s.stampAs (48 * d) c.ctx c.priv c.stamp.toNat (stampWord status c.seq)).fireIrq c.trig
    | [] => s
  (s.tellAll parts status).takeWaiting d

/-- The bytes of the complete result. -/
def sumBytes (c : Contrib) (parts : List Contrib) : List Byte :=
  (List.range c.count).flatMap fun i => leBytes 4 (reduceWord c.op c.tree c.nmem fun r =>
    match parts.find? fun p => p.rank == r with
    | some p => p.data.getD i 0
    | none => 0).toNat

/-- Every rank has contributed: DST is written whole, or the instance ends with 0x04 (R346, R348). -/
def State.finishSum (s : State) (d : Nat) (i : RootInst) (c : Contrib) (parts : List Contrib) : State :=
  let e : Eng := { core := 48 * d, ctx := c.ctx, blk := 0, priv := c.priv }
  let bs := sumBytes c parts
  match tryAll (fun k => s.engKey e .write .g (c.dst.toNat + k : Nat)) (List.range bs.length) with
  | .error _ => s.endSum d i parts 4
  | .ok ks => (s.engWrite e .g ((ks.zip bs).map fun x => (x.1, x.2, 3))).endSum d i parts 0

/-- The fields that every contribution must carry alike (R343). -/
def sameSum (a b : Contrib) : Bool :=
  a.op == b.op && a.tree == b.tree && a.count == b.count && a.nmem == b.nmem && a.dst == b.dst && a.stamp == b.stamp && a.memt == b.memt

/-- A contribution to an open instance. -/
def State.joinSum (s : State) (d : Nat) (i : RootInst) (c : Contrib) : State :=
  let parts := i.parts ++ [c]
  let s := if i.parts.isEmpty then s else s.homeStep d (6 * ((4 * c.count + 63) / 64))
  let hold := s.modDie d fun x => { x with roots := x.roots.map fun r =>
    if r.ctx == i.ctx && r.desc == i.desc && r.seq == i.seq then { r with parts := parts } else r }
  if i.dead then hold
  else if !c.srcOk then s.endSum d i parts 4
  else if i.parts.any fun p => !sameSum p c then s.endSum d i parts 3
  else if i.parts.any fun p => p.rank == c.rank then s.endSum d i parts 5
  else if parts.length = c.nmem then s.finishSum d i c parts
  else hold

/-- REDUCTION_CONTRIBUTION at its root; one of a terminated context writes nothing more there and ends at its TMO (R416, R426). -/
def State.contribute (s : State) (c : Contrib) : State :=
  let d := c.root
  match (s.die d).ended.find? fun e => e.ctx == c.ctx && e.desc == c.desc && e.seq == c.seq with
  | some e => s.tellSum false false e.status c
  | none =>
    match (s.die d).roots.find? fun r => r.ctx == c.ctx && r.desc == c.desc && r.seq == c.seq with
    | some i => s.joinSum d i c
    | none =>
      if 256 ≤ (s.die d).roots.length then s.modDie d fun x => { x with rootWait := x.rootWait ++ [c] } else
      let i : RootInst := { desc := c.desc, ctx := c.ctx, seq := c.seq, parts := [], started := s.dev.beat, dead := s.dev.gone.contains c.ctx }
      (s.modDie d fun x => { x with roots := x.roots ++ [i] }).joinSum d i c

/-- The lines that an instance's end may need at their homes before it writes: destination, stamp, table and launch packet, with the table
lines of their translations (R173, R282). -/
def State.sumLines (s : State) (d : Nat) (c : Contrib) : List Nat :=
  if s.mem.leases.isEmpty then [] else
  let e : Eng := { core := 48 * d, ctx := c.ctx, blk := 0, priv := c.priv }
  s.homeLines e ([(.g, (c.dst.toNat : Int), 4 * c.count), (.g, (c.stamp.toNat : Int), 8), (.g, (c.memt.toNat : Int), 4 * c.nmem)]
    ++ s.trigRanges e c.trig c.lpkt.toNat)

def execReductionContribution (c : Contrib) (s : State) : Host.Outcome State Fault Refusal :=
  done (s.recallFirst (.reductionContribution c) (s.sumLines c.root c) fun s => s.contribute c)

/-- A timeout in µs, with the default of a die for 0 (R340, R365). -/
def State.tmoOf (s : State) (d tmo : Nat) : Nat := if tmo = 0 then s.apBits (offColCfg d) 15 0 else tmo

/-- RSUM_TIMEOUT: an instance that is open at TMO ends with 0x01; DST is not written (R349). -/
def State.sumTimeout (s : State) (d : Nat) (desc : DWord) (seq : Nat) : State :=
  match (s.die d).roots.find? fun r => r.desc == desc && r.seq == seq
      && s.elapsed r.started (s.tmoOf d ((r.parts.head?.map Contrib.tmo).getD 0)) with
  | none => s
  | some i => s.endSum d i i.parts 1

def execRsumTimeout (die : Nat) (desc : BitVec 64) (seq : Nat) (s : State) : Host.Outcome State Fault Refusal :=
  done (s.recallFirst (.rsumTimeout die desc seq)
    (((s.die die).roots.filter fun r => r.desc == desc && r.seq == seq).flatMap fun r => r.parts.flatMap (s.sumLines die)) fun s =>
      s.sumTimeout die desc seq)

/-- Whether a device is a member of an instance, by the table its contributions carry. -/
def State.sumNames (s : State) (d dev : Nat) (i : RootInst) : Bool :=
  match i.parts with
  | [] => false
  | c :: _ =>
    match s.engBytes { core := 48 * d, ctx := c.ctx, blk := 0, priv := c.priv } .g c.memt.toNat (4 * c.nmem) with
    | .error _ => i.parts.any fun p => p.home == dev
    | .ok t => (List.range c.nmem).any fun k => leAt t (4 * k) 4 % 1024 == dev

/-- Instances that name a failed device end with 0x02 at their roots here, and contributions to a root there with it (R337, R349). -/
def State.sumFailed (s : State) (dev : Nat) : State :=
  dieList.foldl (fun s d =>
    let s := ((s.die d).roots.filter (s.sumNames d dev)).foldl (fun s i => s.endSum d i i.parts 2) s
    let s := ((s.die d).opens.filter fun o => o.kept && o.lead == dev).foldl (fun s o => s.release d o) s
    ((s.die d).opens.filter fun o => o.root / 4 == dev && !o.kept).foldl (fun s o => s.sumDone d o 2 true false) s) s

end Sys2Proof.Machine
end

