-- ==== Sys2Proof/Machine/Mesh.lean ====
section
/-!
DEFINITION. Machine/Mesh.lean: `coll`: layouts over a mesh of points, the exchange between two layouts, points, reports and end
status; the collective engine's queue (spec/12 R354 to R364).
-/

namespace Sys2Proof.Machine

/-! ### Descriptors and layouts (R354, R355) -/

namespace Col
def seq (d : List Byte) : Nat := leAt d 0 6
def stamp (d : List Byte) : Nat := leAt d 8 8
def src (d : List Byte) : Nat := leAt d 0x10 8
def dst (d : List Byte) : Nat := leAt d 0x18 8
def stage (d : List Byte) : Nat := leAt d 0x20 8
def stsz (d : List Byte) : Nat := leAt d 0x28 4
def tmo (d : List Byte) : Nat := leAt d 0x2C 4
def ctl (d : List Byte) : Nat := leAt d 0x30 4
def elem (d : List Byte) : Nat := ctl d % 256
def tree (d : List Byte) : Nat := ctl d / 2 ^ 12 % 4
def trp (d : List Byte) : Bool := ctl d / 2 ^ 14 % 2 == 1
def shape (d : List Byte) : Nat := leAt d 0x34 4
def nax (d : List Byte) : Nat := shape d % 4 + 1
def ndim (d : List Byte) : Nat := shape d / 16 % 4 + 1
def size (d : List Byte) (a : Nat) : Nat := leAt d (0x38 + 2 * a) 2
def ext (d : List Byte) (k : Nat) : Nat := leAt d (0x40 + 4 * k) 4
/-- Entry k of layout A or B. -/
def lay (d : List Byte) (b : Bool) (k : Nat) : Nat := leAt d ((if b then 0x60 else 0x50) + 2 * k) 2
def memt (d : List Byte) : Nat := leAt d 0x70 8
def trig (d : List Byte) : Nat := leAt d 0x78 4
def lpkt (d : List Byte) : Nat := leAt d 0x80 8

/-- The axes of a layout entry, most significant first. -/
def axes (e : Nat) : List Nat := if e % 4 = 0 then [] else (List.range (e / 4 % 4 + 1)).map fun k => e / 16 / 4 ^ k % 4

/-- All axes of a layout. -/
def allAxes (d : List Byte) (b : Bool) : List Nat := (List.range 5).flatMap fun k => axes (lay d b k)

def mul (l : List Nat) : Nat := l.foldl (· * ·) 1
def sizes (d : List Byte) (l : List Nat) : Nat := mul (l.map (size d))
def axisList (d : List Byte) : List Nat := List.range (nax d)

/-- Points of the mesh. -/
def points (d : List Byte) : Nat := sizes d (axisList d)

/-- The mesh itself is well formed: axis sizes, and at most 2 560 points. -/
def meshOk (d : List Byte) : Bool :=
  (List.range 4).all (fun a => if a < nax d then 1 ≤ size d a && size d a ≤ 640 else size d a == 0) && points d ≤ 2560 && memt d % 4 == 0

/-- A layout is legal (R355). -/
def layOk (d : List Byte) (b : Bool) : Bool :=
  let as := allAxes d b
  (List.range 5).all (fun k =>
      let e := lay d b k
      e < 2 ^ 12 && (e % 4 == 0 || e % 4 == (if k = 4 then 2 else 1)) && (e % 4 != 0 || e == 0) && (k == 4 || k < ndim d || e == 0)
        && (k == 4 || ext d k % (sizes d (axes e)) == 0))
    && as.all (· < nax d) && (distinct as).length == as.length && (lay d b 4 == 0 || elem d ≤ 1)

/-! ### Roles and exchanges (R356) -/

/-- The role of an axis in a layout: not listed, sharded in a dimension at a position, or partial. -/
inductive Role where
  | r | s (dim pos : Nat) | p
  deriving DecidableEq, Repr

def role (d : List Byte) (b : Bool) (a : Nat) : Role :=
  if (axes (lay d b 4)).contains a then .p
  else match (List.range 4).find? fun k => (axes (lay d b k)).contains a with
    | some k => .s k ((axes (lay d b k)).idxOf a)
    | none => .r

/-- What moves along an axis. -/
inductive Exch where
  | none | slice | gather | toAll | allReduce | scatter | illegal
  deriving DecidableEq, Repr

def exch (d : List Byte) (a : Nat) : Exch :=
  match role d false a, role d true a with
  | .p, .p => .none
  | .p, .r => .allReduce
  | .p, .s _ _ => .scatter
  | _, .p => .illegal
  | .r, .r => .none
  | .r, .s _ _ => .slice
  | .s _ _, .r => .gather
  | x, y => if x = y then .none else .toAll

def exchs (d : List Byte) : List Exch := (axisList d).map (exch d)

/-- The axes that step 1 reduces over. -/
def redAxes (d : List Byte) : List Nat := (axisList d).filter fun a => exch d a == .allReduce || exch d a == .scatter

/-- The descriptor is well formed. -/
def ok (d : List Byte) : Bool :=
  leAt d 6 2 == 0 && stamp d % 8 == 0 && stage d % 128 == 0 && elem d ≤ 9 && elem d != 8 && ctl d / 2 ^ 8 % 16 == 0 && ctl d < 2 ^ 15
    && shape d < 64 && shape d / 4 % 4 == 0 && meshOk d && (List.range 4).all (fun k => k < ndim d || ext d k == 0)
    && leAt d 0x5A 6 == 0 && leAt d 0x6A 6 == 0 && trig d < 2 ^ 14 && leAt d 0x7C 4 == 0 && (d.drop 0x88).all (· == 0)
    && layOk d false && layOk d true && (exchs d).all (· != .illegal)

/-- What every point's descriptor must agree in. -/
def agreed (d : List Byte) : List Byte := d.take 8 ++ (d.drop 0x2C).take 0x4C ++ (d.drop 0x7C).take 4 ++ d.drop 0x88

/-! ### Coordinates and shards (R354, R355) -/

/-- Coordinate of a point on an axis; axis 0 is most significant. -/
def coord (d : List Byte) (p a : Nat) : Nat := p / sizes d ((axisList d).filter (a < ·)) % size d a

/-- The point at coordinates. -/
def pointAt (d : List Byte) (c : Nat → Nat) : Nat := (axisList d).foldl (fun n a => n * size d a + c a) 0

/-- Extent of a shard in dimension k. -/
def shardExt (d : List Byte) (b : Bool) (k : Nat) : Nat := ext d k / sizes d (axes (lay d b k))

/-- Shard index of a point in dimension k. -/
def shardIdx (d : List Byte) (b : Bool) (p k : Nat) : Nat := (axes (lay d b k)).foldl (fun n a => n * size d a + coord d p a) 0

def dims (d : List Byte) : List Nat := List.range (ndim d)

/-- Elements and bytes of a shard. -/
def shardCount (d : List Byte) (b : Bool) : Nat := mul ((dims d).map (shardExt d b))
def width (d : List Byte) : Nat := elemBits (elem d)
def bytesOf (d : List Byte) (n : Nat) : Nat := (n * width d + 7) / 8
def shardBytes (d : List Byte) (b : Bool) : Nat := bytesOf d (shardCount d b)

/-- Tensor index in dimension k of element i of a point's shard in layout B. -/
def globalIdx (d : List Byte) (p i k : Nat) : Nat :=
  shardIdx d true p k * shardExt d true k + i / mul ((List.range k).map (shardExt d true)) % shardExt d true k

/-- Ranks of a reduction group. -/
def ranks (d : List Byte) : Nat := sizes d (redAxes d)

/-- Whether step 1 runs: a group of one copies its source (R361). -/
def reducing (d : List Byte) : Bool := !(redAxes d).isEmpty && points d != 1

/-! ### The reduction destinations and their chunks (R357, R358, log entry 108) -/

/-- Tensor index in dimension k of element j of a point's shard in layout A. -/
def srcIdx (d : List Byte) (p j k : Nat) : Nat :=
  shardIdx d false p k * shardExt d false k + j / mul ((List.range k).map (shardExt d false)) % shardExt d false k

/-- The coordinate on an axis that a layout gives the holder of a tensor index, where it shards a dimension over that axis. -/
def idxCoord (d : List Byte) (b : Bool) (g : Nat → Nat) (a : Nat) : Nat :=
  match role d b a with
  | .s k _ => g k / shardExt d b k / sizes d ((axes (lay d b k)).drop ((axes (lay d b k)).idxOf a + 1)) % size d a
  | _ => 0

def axesOf (d : List Byte) (e : Exch) : List Nat := (axisList d).filter fun a => exch d a == e

/-- The elements, of a point's shard in layout A, that it holds after step 1: all of them but for those that a reduce-scatter gives to
other points. -/
def held (d : List Byte) (p : Nat) : List Nat :=
  (List.range (shardCount d false)).filter fun j =>
    !reducing d || (axesOf d .scatter).all fun a => idxCoord d true (srcIdx d p j) a == coord d p a

/-- Elements of a chunk of 4 KiB. -/
def perChunk (d : List Byte) : Nat := 2 ^ 15 / width d

def chunksOf (d : List Byte) (n : Nat) : Nat := (n + perChunk d - 1) / perChunk d
def chunkOf {α : Type} (d : List Byte) (l : List α) (k : Nat) : List α := (l.drop (perChunk d * k)).take (perChunk d)

/-- Chunks of what a point holds after step 1. -/
def chunks (d : List Byte) (p : Nat) : Nat := chunksOf d (held d p).length

/-- A point's number among some axes, the lowest axis most significant. -/
def rankIn (d : List Byte) (as : List Nat) (p : Nat) : Nat := as.foldl (fun n a => n * size d a + coord d p a) 0

/-- The point of a number among some axes that shares every other coordinate with a point. -/
def member (d : List Byte) (as : List Nat) (p r : Nat) : Nat :=
  pointAt d fun a => if as.contains a then r / sizes d (as.filter (a < ·)) % size d a else coord d p a

/-- The points that share an all-reduce or reduce-scatter with a point, by rank. -/
def group (d : List Byte) (p : Nat) : List Nat := (List.range (ranks d)).map (member d (redAxes d) p)

/-- The points that share an all-reduce with a point: they hold the same elements after step 1. -/
def alike (d : List Byte) (p : Nat) : List Nat := (List.range (sizes d (axesOf d .allReduce))).map (member d (axesOf d .allReduce) p)

/-- The chunks that a point's own reduce blocks make: those of an all-reduce are shared out in turn, and gathered (R357). -/
def owned (d : List Byte) (p : Nat) : List Nat :=
  if !reducing d then [] else
  (List.range (chunks d p)).filter fun k => k % sizes d (axesOf d .allReduce) == rankIn d (axesOf d .allReduce) p

/-! ### Steps 2 to 4 (R356, R357) -/

/-- The point that holds element i of a point's shard in layout B after step 1. -/
def holder (d : List Byte) (p i : Nat) : Nat :=
  pointAt d fun a => match role d false a with
    | .s _ _ => idxCoord d false (globalIdx d p i) a
    | _ => coord d p a

/-- The number of that element in its holder's shard of layout A. -/
def heldPos (d : List Byte) (p i : Nat) : Nat :=
  (dims d).reverse.foldl (fun n k =>
    n * shardExt d false k + (globalIdx d p i k - shardIdx d false (holder d p i) k * shardExt d false k)) 0

/-- The elements of a point's shard in layout B that come from a point. -/
def needs (d : List Byte) (p q : Nat) : List Nat := (List.range (shardCount d true)).filter fun i => holder d p i == q

/-- The chunks that a point gets in steps 2 to 4, its own among them. -/
def wants (d : List Byte) (p : Nat) : List (Nat × Nat) :=
  (List.range (points d)).flatMap fun q => (List.range (chunksOf d (needs d p q).length)).map fun k => (q, k)

/-- Whether step 1 is the last: its chunks are written to DST. -/
def direct (d : List Byte) : Bool :=
  reducing d && (axisList d).all fun a => exch d a == .none || exch d a == .allReduce || exch d a == .scatter

/-! ### Staging (R358) -/

/-- Elements of a point's shard after the reduction, after the all-to-alls, and after the all-gathers. -/
def stepCounts (d : List Byte) : List (Bool × Nat) :=
  let n0 := shardCount d false
  let n1 := n0 / sizes d ((axisList d).filter fun a => exch d a == .scatter)
  let n3 := n1 * sizes d ((axisList d).filter fun a => exch d a == .gather)
  let has := fun (e : Exch) => (exchs d).contains e
  [(!(redAxes d).isEmpty, n1), (has .toAll, n1), (has .gather, n3), (has .slice, shardCount d true)]

/-- The largest shard that one step hands to a later one, in bytes. -/
def inter (d : List Byte) : Nat :=
  let ran := (stepCounts d).filter (·.1)
  ran.dropLast.foldl (fun m x => max m (bytesOf d x.2)) 0

/-- RSZ. -/
def rsz (d : List Byte) : Nat := if points d = 1 then 0 else inter d + 4096 * (if (redAxes d).isEmpty then 0 else ranks d)
end Col

/-! ### Elements and bytes -/

/-- An element of packed bytes (R67). -/
def elemAt (d : List Byte) (bs : List Byte) (i : Nat) : Nat :=
  let w := Col.width d
  leNat ((List.range ((w + 7) / 8)).map fun j => bs.getD (i * w / 8 + j) 0) / (if w = 4 && i % 2 = 1 then 16 else 1) % 2 ^ w

/-- Elements packed (R67). -/
def packElems (d : List Byte) (vs : List Nat) : List Byte :=
  let w := Col.width d
  if w = 4 then (List.range ((vs.length + 1) / 2)).map fun i => BitVec.ofNat 8 (vs.getD (2 * i) 0 % 16 + 16 * (vs.getD (2 * i + 1) 0 % 16))
  else vs.flatMap (leBytes (w / 8))

/-- One element of a reduction: the parts by rank, in tree order (R344, R357). -/
def combine (d : List Byte) (v : Nat → Nat) : Nat :=
  if Col.elem d = 0 then (sum32 (Col.tree d) (Col.ranks d) fun r => BitVec.ofNat 32 (v r)).toNat else sumBf (Col.tree d) (Col.ranks d) v

def CollInst.eng (i : CollInst) : Eng := { core := i.core, ctx := i.ctx, blk := i.blk, priv := i.priv }

def State.modInst (s : State) (d id : Nat) (f : CollInst → CollInst) : State :=
  s.modDie d fun x => { x with insts := x.insts.map fun i => if i.id = id then f i else i }
def State.inst? (s : State) (d id : Nat) : Option CollInst := (s.die d).insts.find? fun i => i.id == id

/-- The instance of the same collective at a point of this device. -/
def State.instAt (s : State) (i : CollInst) (q : Nat) : Option (Nat × CollInst) :=
  let pt := i.points.getD q 0
  if pt / 4 ≠ s.devId then none else
  ((s.die (pt % 4)).insts.find? fun x => x.ctx == i.ctx && x.points == i.points && x.point == q
    && Col.seq x.desc == Col.seq i.desc).map fun x => (pt % 4, x)

/-! ### The engine's sends and writes (R357, R358, R363) -/

/-- How a message is named on its way: kind and chunk. -/
def CollKind.code (k : CollKind) (chunk : Nat) : Nat := 4 * chunk + match k with | .part => 1 | .out => 2 | .put => 3 | _ => 0
def kindOf (code : Nat) : CollKind := if code % 4 = 0 then .hello else if code % 4 = 1 then .part else if code % 4 = 2 then .out else .put

/-- Places of a chunk's parts in STAGE: as many as STSZ has room for, taken in turn. -/
def CollInst.slots (i : CollInst) : Nat := max 1 ((Col.stsz i.desc - Col.inter i.desc) / (4096 * Col.ranks i.desc))

/-- Whether a chunk has a place in STAGE: the chunk that had it before is written. -/
def CollInst.staged (i : CollInst) (chunk : Nat) : Bool :=
  let m := (Col.owned i.desc i.point).idxOf chunk
  m < i.slots || i.reduced.contains ((Col.owned i.desc i.point).getD (m - i.slots) 0)

/-- Where a part of a chunk stands in STAGE, by its rank. -/
def CollInst.partVa (i : CollInst) (chunk rank : Nat) : Nat :=
  Col.stage i.desc + Col.inter i.desc + 4096 * ((Col.owned i.desc i.point).idxOf chunk % i.slots * Col.ranks i.desc + rank)

/-- Elements written to DST: their numbers in layout B, and their bits. -/
def CollInst.dstCells (i : CollInst) (es : List (Nat × Nat)) : List (Nat × Byte × Nat) :=
  let w := Col.width i.desc
  es.flatMap fun e => (elemBytes w e.2 (w = 4 && e.1 % 2 = 1)).zipIdx.map fun b => (Col.dst i.desc + e.1 * w / 8 + b.2, b.1)

/-- The bytes that a chunk's arrival writes, by address: a part and a shard that a later step takes up to STAGE, the rest to DST. -/
def CollInst.cells (i : CollInst) (a : CollAct) : List (Nat × Byte × Nat) :=
  let d := i.desc
  let put := fun (l : List Nat) => i.dstCells (l.zipIdx.map fun e => (e.1, elemAt d a.data e.2))
  match a.kind with
  | .hello | .status | .final => []
  | .part => a.data.zipIdx.map fun b => (i.partVa a.chunk (Col.rankIn d (Col.redAxes d) a.src) + b.2, b.1, 3)
  | .out =>
    if Col.direct d then
      let es := Col.chunkOf d (Col.held d i.point) a.chunk
      i.dstCells ((List.range (Col.shardCount d true)).filterMap fun n =>
        let j := Col.heldPos d i.point n
        if es.contains j then some (n, elemAt d a.data (es.idxOf j)) else none)
    else (a.data.zipIdx.map fun b => (4096 * a.chunk + b.2, b.1)).filterMap fun b =>
      if b.1 < Col.inter d then some (Col.stage d + b.1, b.2, 3) else none
  | .put => put (Col.chunkOf d (Col.needs d i.point a.src) a.chunk)

/-- Collective steps: a flit sent, or a line written (R363). -/
def CollInst.cost (i : CollInst) (a : CollAct) : Nat :=
  match a.dest with
  | some _ => flits a.data.length
  | none => (distinct ((i.cells a).map fun c => c.1 / 128)).length

def CollInst.act (i : CollInst) (dest : Option Nat) (src : Nat) (k : CollKind) (chunk : Nat) (data : List Byte) : CollAct :=
  let a : CollAct := { dest := dest, src := src, kind := k, chunk := chunk, data := data, left := 0 }
  { a with left := i.cost a }

/-- A chunk for a point: written where it is this one, else sent. -/
def CollInst.give (i : CollInst) (q : Nat) (k : CollKind) (chunk : Nat) (data : List Byte) : CollAct :=
  i.act (if q = i.point then none else some q) i.point k chunk data

/-! ### Ends (R350, R360) -/

/-- The end status at a point: stamp, push, triggers, trap; the instance is closed. A terminated context gets none of them (R412). -/
def State.collEnd (s : State) (d id status : Nat) : State :=
  match s.inst? d id with
  | none => s
  | some i =>
    let v := stampWord status (Col.seq i.desc)
    let s := s.modDie d fun x => { x with insts := x.insts.filter fun y => y.id != id }
    let s := (if i.dead then s else s.stampAs i.core i.ctx i.priv (Col.stamp i.desc) v).unregister d
      (s.stampLine i.core i.ctx i.priv (Col.stamp i.desc))
    let s := s.fireIrq (Col.trig i.desc)
    if i.dead then s else
    let s := s.pushResult i.blk i.rq v
    let s := s.trapResult i.wid i.blk (Col.trp i.desc) status (Col.seq i.desc)
    let inst := (BitVec.ofNat 64 (2 * i.id + 1), Col.seq i.desc)
    (s.fireLaunch i.eng inst (Col.trig i.desc) (Col.lpkt i.desc) i.grid).freeGrid (Col.trig i.desc) inst i.grid

/-- COLL_END_STATUS: of a point, or of a contribution whose root is on another device; bit 8 says that its launch trigger is not to be
performed, bit 9 that rank 0's device performs one, bit 10 that it has done so (R350, log entry 107). -/
def State.endStatus (s : State) (d id status : Nat) : State :=
  match (s.die d).opens.find? fun o => o.id == id with
  | some o =>
    if o.kept then (if 1024 ≤ status then s.release d o else s)
    else s.sumDone d o (status % 256) (status / 256 % 2 == 0) (status / 512 % 2 == 1 && o.lead != s.devId)
  | none => s.collEnd d id status

/-- The lines that a point's end may need at their homes before it writes (R173, R282). -/
def State.endLines (s : State) (d id : Nat) : List Nat :=
  if s.mem.leases.isEmpty then [] else
  match s.inst? d id with
  | none => []
  | some i => s.homeLines i.eng ((.g, (Col.stamp i.desc : Int), 8) :: s.trigRanges i.eng (Col.trig i.desc) (Col.lpkt i.desc))

def execCollEndStatus (die inst status : Nat) (s : State) : Host.Outcome State Fault Refusal :=
  done (s.recallFirst (.collEndStatus die inst status) (s.endLines die inst) fun s => s.endStatus die inst status)

/-- The end status goes to every other point, and then to point 0 itself. -/
def CollInst.finals (i : CollInst) (status : Nat) : List CollAct :=
  ((List.range i.points.length).filter (· != i.point)).map (fun q => i.act (some q) i.point .final status [])
    ++ [i.act none i.point .final status []]

/-- Point 0 decides: the first nonzero report, or 0 once every point has reported it. -/
def State.decide_ (s : State) (d id : Nat) : State :=
  match s.inst? d id with
  | none => s
  | some i =>
    let bad := i.reports.find? fun e => e.2 != 0
    let all := decide (Col.points i.desc ≤ i.reports.length)
    match (match bad with | some e => some e.2 | none => if all then some 0 else none) with
    | none => s
    | some status => s.modInst d id fun x => { x with acts := x.acts ++ i.finals status }

/-- COLL_POINT_REPORT at point 0 (R360). The first nonzero report stands. -/
def State.pointReport (s : State) (d id point status : Nat) : State :=
  match s.inst? d id with
  | none => s
  | some i =>
    if i.point ≠ 0 || i.acts.any fun a => a.kind == .final then s
    else (s.modInst d id fun x => { x with reports := Tab.upd x.reports point status }).decide_ d id

def execCollPointReport (die inst point status : Nat) (s : State) : Host.Outcome State Fault Refusal :=
  done (s.pointReport die inst point status)

/-- A point has its status, which goes to point 0 (R360, R363). -/
def State.report (s : State) (d id status : Nat) : State :=
  match s.inst? d id with
  | none => s
  | some i =>
    let s := s.modInst d id fun x =>
      { x with status := some status, acts := if i.point = 0 then x.acts else x.acts ++ [i.act (some 0) i.point .status status []] }
    if i.point = 0 then s.soon [.event (.collPointReport d id 0 status)] else s

/-! ### What a point sends and writes (R356 to R358) -/

/-- The parts of step 1: to each member of the group, its chunks of this point's shard. -/
def CollInst.partActs (i : CollInst) (src : List Byte) : List CollAct :=
  (Col.group i.desc i.point).flatMap fun q => (Col.owned i.desc q).map fun k =>
    i.give q .part k (packElems i.desc ((Col.chunkOf i.desc (Col.held i.desc q) k).map (elemAt i.desc src)))

/-- The chunks of steps 2 to 4: to each point, what its shard in layout B takes from this one. -/
def CollInst.putActs (i : CollInst) : List CollAct :=
  let d := i.desc
  let own := (List.range (Col.chunks d i.point)).flatMap fun k => Tab.get i.base [] k
  let mine := Col.held d i.point
  (List.range (Col.points d)).flatMap fun q =>
    let is := Col.needs d q i.point
    (List.range (Col.chunksOf d is.length)).map fun k =>
      i.give q .put k (packElems d ((Col.chunkOf d is k).map fun n => elemAt d own (mine.idxOf (Col.heldPos d q n))))

/-- Whether the output of step 1 is whole. -/
def CollInst.whole (i : CollInst) : Bool := (List.range (Col.chunks i.desc i.point)).all fun k => (Tab.look i.base k).isSome

/-- Whether a point has done all its steps. -/
def CollInst.finished (i : CollInst) : Bool :=
  i.acts.isEmpty && i.whole && (Col.direct i.desc || (i.moved && (Col.wants i.desc i.point).all i.got.contains))

/-- Whether the digest of every other point has come and agrees: nothing is written before (R348, R354). -/
def CollInst.greeted (i : CollInst) : Bool := (List.range i.points.length).all fun q => q == i.point || i.met.contains q

/-- A point whose step 1 is whole begins the others; one that has finished reports. -/
def State.collTry (s : State) (d id : Nat) : State :=
  match s.inst? d id with
  | none => s
  | some i =>
    if i.status.isSome || i.dead || !i.greeted then s
    else if i.whole && !i.moved && !Col.direct i.desc then
      let i' := { i with moved := true }
      let s := s.modInst d id fun _ => { i' with acts := i.acts ++ i'.putActs }
      if ({ i' with acts := i.acts ++ i'.putActs }).finished then s.report d id 0 else s
    else if i.finished then s.report d id 0 else s

/-- A list in groups of n. -/
def inGroups {α : Type} (n : Nat) (l : List α) : List (List α) :=
  (List.range ((l.length + n - 1) / n)).map fun k => (l.drop (n * k)).take n

/-- A chunk is written: whole, or element by element up to a fault, which ends the collective (R348, R357). -/
def State.writeChunk (s : State) (i : CollInst) (core : Nat) (priv : Bool) (a : CollAct) : State × Bool :=
  let e : Eng := { i.eng with core := core, priv := priv }
  let cell := fun (c : Nat × Byte × Nat) => match s.engKey e .write .g (c.1 : Nat) with
    | .error t => Except.error t
    | .ok k => .ok (k, c.2.1, c.2.2)
  let r := untilFault (tryAll cell) (inGroups (max 1 (Col.width i.desc / 8)) (i.cells a))
  (s.engWrite e .g r.1.flatten, r.2.isSome)

/-- What follows the write: a part counts its chunk's launch counter down, and at zero a reduce block is dispatched; a chunk of an output
is there. -/
def State.chunkDone (s : State) (d id : Nat) (a : CollAct) : State :=
  match a.kind with
  | .hello | .status | .final => s
  | .part =>
    let s := s.modInst d id fun i => { i with left := Tab.upd i.left a.chunk (Tab.get i.left (Col.ranks i.desc) a.chunk - 1) }
    s.placeReduce id a.chunk
  | .out => (s.modInst d id fun i => { i with base := Tab.upd i.base a.chunk a.data }).collTry d id
  | .put => (s.modInst d id fun i => { i with got := i.got ++ [(a.src, a.chunk)] }).collTry d id

/-- The instance of this device that a point's digest meets at another point: that of the same collective, or, where none is open, one of
the context that still waits for this point's digest, or none yet: which is free (R354, log entry 108). -/
def State.helloTo (s : State) (i : CollInst) (q : Nat) : Option (Nat × CollInst) :=
  let pt := i.points.getD q 0
  let me := i.points.getD i.point 0
  match s.instAt i q with
  | some x => some x
  | none =>
    if pt / 4 ≠ s.devId then none else
    let waits := (s.die (pt % 4)).insts.filter fun x => x.ctx == i.ctx && x.id != i.id && x.points.contains me && !x.met.contains (x.points.idxOf me)
    let n := (Config.freeWord s.own.freeCount (2 ^ 94 + i.id)).toNat % (waits.length + 1)
    if n = 0 then none else waits[n - 1]?.map fun x => (pt % 4, x)

/-- The home lines of what an act writes that a peer device holds (R173, R282). -/
def State.actAway (s : State) (i : CollInst) (a : CollAct) : List Nat :=
  if s.mem.leases.isEmpty || a.dest.isSome then []
  else (s.homeLines i.eng ((i.cells a).map fun c => (Spc.g, (c.1 : Int), 1))).filter s.leasedOut

/-- Whether an act can be taken now: a point of this device that it goes to is open; what it writes has a place in STAGE, every digest
agrees, and the lines are at home. -/
def State.actReady (s : State) (i : CollInst) (a : CollAct) : Bool :=
  match a.dest with
  | some q => i.points.getD q 0 / 4 != s.devId || (if a.kind = .hello then s.helloTo i q else s.instAt i q).isSome
  | none => a.kind == .final || (i.greeted && (a.kind != .part || i.staged a.chunk) && (s.actAway i a).isEmpty)

/-- What an instance may still do: with a status, or once its context was terminated, only report and pass on the end. -/
def CollInst.open_ (i : CollInst) : List CollAct :=
  if i.status.isSome || i.dead then i.acts.filter fun a => a.kind == .status || a.kind == .final else i.acts

/-- The act that an instance takes next. -/
def State.nextAct (s : State) (i : CollInst) : Option CollAct := i.open_.find? (s.actReady i)

/-- A point's digest comes to another point of this device: it agrees, or both end with 0x03 (R354). -/
def State.meet (s : State) (d : Nat) (i : CollInst) (x : Nat × CollInst) : State :=
  if x.2.points == i.points && Col.agreed x.2.desc == Col.agreed i.desc then
    (s.modInst x.1 x.2.id fun y => { y with met := insertNat y.met i.point }).collTry x.1 x.2.id
  else [(d, i), x].foldl (fun s y => if y.2.status.isSome then s else s.report y.1 y.2.id 3) s

/-- What a point of this device gets from an act: a digest, a chunk to write, a report, the end status. -/
def State.giveHere (s : State) (d : Nat) (i : CollInst) (a : CollAct) (x : Nat × CollInst) : State :=
  match a.kind with
  | .hello => s.meet d i x
  | .status => s.soon [.event (.collPointReport x.1 x.2.id i.point a.chunk)]
  | .final => s.soon [.event (.collEndStatus x.1 x.2.id a.chunk)]
  | _ => if x.2.dead then s else
    s.modInst x.1 x.2.id fun y => { y with acts := y.acts ++ [y.act none a.src a.kind a.chunk a.data] }

/-- What leaves for a point of another device. -/
def State.giveAway (s : State) (i : CollInst) (a : CollAct) (q : Nat) : State :=
  let pt := i.points.getD q 0
  match a.kind with
  | .status => s.send (.report pt (Col.seq i.desc) i.point a.chunk)
  | .final => s.send (.ended pt (Col.seq i.desc) a.chunk)
  | k => s.send (.chunk pt (Col.seq i.desc) i.point (k.code a.chunk) a.data)

/-- A paid act is done: the chunk is written, or goes to its point. -/
def State.doAct (s : State) (d id : Nat) (a : CollAct) : State :=
  let s := s.modInst d id fun i => { i with acts := i.acts.erase a }
  match s.inst? d id with
  | none => s
  | some i =>
    match a.dest with
    | none =>
      if a.kind = .final then s.soon [.event (.collEndStatus d id a.chunk)] else
      let r := s.writeChunk i i.core i.priv a
      if r.2 then r.1.report d id 4 else r.1.chunkDone d id a
    | some q =>
      let s := match (if a.kind = .hello then s.helloTo i q else s.instAt i q) with
        | some x => (s.cross d x.1 (i.cost a)).giveHere d i a x
        | none => s.giveAway i a q
      s.collTry d id

/-- COLLECTIVE_CHUNK: what a point on another device sends arrives over the fabric. A digest that differs ends the collective; the engine
writes a chunk when its lines are paid (R354, R358). -/
def State.chunkIn (s : State) (d id point code : Nat) (data : List Byte) : State :=
  match s.inst? d id with
  | none => s
  | some i =>
    if i.status.isSome || i.dead || Col.points i.desc ≤ point then s
    else if kindOf code = .hello then
      (if data = Col.agreed i.desc then (s.modInst d id fun y => { y with met := insertNat y.met point }).collTry d id else s.report d id 3)
    else s.modInst d id fun i => { i with acts := i.acts ++ [i.act none point (kindOf code) (code / 4) data] }

def execCollectiveChunk (die inst point chunk : Nat) (data : List Byte) (s : State) : Host.Outcome State Fault Refusal :=
  done (s.chunkIn die inst point chunk data)

/-! ### Reduce blocks (R359) -/

/-- The parts of a chunk, from STAGE, combined: the block runs at the privileged level. -/
def State.reduced (s : State) (i : CollInst) (core chunk : Nat) : Except Trap (List Byte) :=
  let d := i.desc
  let n := (Col.chunkOf d (Col.held d i.point) chunk).length
  match tryAll (fun r => s.engBytes { i.eng with core := core, priv := true } .g (i.partVa chunk r : Nat) (Col.bytesOf d n))
      (List.range (Col.ranks d)) with
  | .error t => .error t
  | .ok ps => .ok (packElems d ((List.range n).map fun e => combine d fun r => elemAt d (ps.getD r []) e))

/-- A reduce block's effect: the chunk is written to the output of step 1, and goes to the points that hold the same elements. -/
def State.reduceChunk (s : State) (core id chunk : Nat) : State :=
  let d := dieOfCore core
  match s.inst? d id with
  | none => s
  | some i =>
    if i.status.isSome || i.dead then s else
    match s.reduced i core chunk with
    | .error _ => s.report d id 4
    | .ok bs =>
      let a := i.give i.point .out chunk bs
      let r := s.writeChunk i core true a
      if r.2 then r.1.report d id 4 else
      let to_ := (Col.alike i.desc i.point).filter (· != i.point)
      (r.1.modInst d id fun i =>
        { i with reduced := i.reduced ++ [chunk], acts := i.acts ++ to_.map fun q => i.give q .out chunk bs }).chunkDone d id a

/-- The lines that a chunk's last instruction reads and writes and that a peer device holds (R173, R282). -/
def State.reduceAway (s : State) (core id chunk : Nat) : List Nat :=
  if s.mem.leases.isEmpty then [] else
  match s.inst? (dieOfCore core) id with
  | none => []
  | some i =>
    let a := i.give i.point .out chunk (List.replicate 4096 0)
    (s.homeLines { i.eng with core := core, priv := true } ((Spc.g, (i.partVa chunk 0 : Int), 4096 * Col.ranks i.desc) ::
      (i.cells a).map fun c => (Spc.g, (c.1 : Int), 1))).filter s.leasedOut

/-- The routine that a warp runs, where its block is a reduce block (R359). -/
def State.workOf (s : State) (w : Warp) : Option Routine := (s.block? w.blk).bind fun b => b.work

/-- An issue of a reduce block's warp: an instruction of the routine is charged, and with the last the chunk is written and the warp has
exited (R359, log entry 109). -/
def State.routineIssue (s : State) (wid : Nat) (w : Warp) (k : Routine) : State :=
  let away := if k.left ≤ 1 then s.reduceAway (coreOf wid) k.inst k.chunk else []
  if !away.isEmpty then s.askBack away else
  match if w.stage.isSome then .ok s else s.charge wid w.ctx (Config.routinePrice k.left) with
  | .error s => s
  | .ok s =>
    let s := s.modWarp wid fun w => { w with stage := none, lastIssue := some (s.clk wid).toNat, ready := 0 }
    if 1 < k.left then s.modBlock w.blk fun b => { b with work := some { k with left := k.left - 1 } }
    else (s.modWarp wid fun w => { w with exited := 0xFFFFFFFF }).reduceChunk (coreOf wid) k.inst k.chunk

/-! ### Opening an instance (R354, R358, R362, R363) -/

/-- The point table and the index of a die in it; or the status that goes to this point alone. -/
def State.readTable (s : State) (e : Eng) (d : List Byte) : Except Nat (List Nat × Nat) :=
  if !Col.meshOk d then .error 3 else
  match s.engBytes e .g (Col.memt d : Nat) (4 * Col.points d) with
  | .error _ => .error 4
  | .ok t =>
    let es := (List.range (Col.points d)).map fun i => leAt t (4 * i) 4
    let me := s.devId + dieOfCore e.core * 2 ^ 10
    if es.any fun x => 2 ^ 12 ≤ x then .error 3
    else if (es.filter (· == me)).length ≠ 1 then .error 6
    else .ok (es.map fun x => 4 * (x % 1024) + x / 1024 % 4, es.idxOf me)

/-- A point that has no place in its mesh ends alone: its stamp, push, trap and triggers (R350, R352, R354). -/
def State.soloEnd (s : State) (e : Eng) (o : CollCmd) (d : List Byte) (status : Nat) : State :=
  let v := stampWord status (Col.seq d)
  let line := s.stampLine e.core e.ctx e.priv (Col.stamp d)
  let s := (s.register (dieOfCore e.core) line).unregister (dieOfCore e.core) line
  let s := (s.stampAs e.core e.ctx e.priv (Col.stamp d) v).fireIrq (Col.trig d)
  let s := (s.pushResult o.blk o.rq v).trapResult o.wid o.blk (Col.trp d) status (Col.seq d)
  s.fireLaunch e (o.desc, Col.seq d) (Col.trig d) (Col.lpkt d) (s.gridOf o.blk)

/-- The shard in layout A; none where the source faults. -/
def State.ownShard (s : State) (e : Eng) (d : List Byte) : Option (List Byte) :=
  match s.engBytes e .g (Col.src d : Nat) (Col.shardBytes d false) with
  | .error _ => none
  | .ok bs => some bs

/-- The status that a point's own checks give before any data moves. -/
def State.firstStatus (d : List Byte) (own : Option (List Byte)) : Option Nat :=
  if !Col.ok d then some 3 else if Col.stsz d < Col.rsz d then some 3 else if own.isNone then some 4 else none

/-- What a point sends first: its digest, to every other point (R354, R363). -/
def CollInst.hellos (i : CollInst) : List CollAct :=
  ((List.range i.points.length).filter (· != i.point)).map fun q => i.act (some q) i.point .hello 0 (Col.agreed i.desc)

/-- The first acts of an instance: the parts of step 1; with no reduction its source is what steps 2 to 4 begin with. -/
def CollInst.begin (i : CollInst) (src : List Byte) : CollInst :=
  let d := i.desc
  if Col.reducing d then { i with acts := i.acts ++ i.partActs src }
  else { i with base := (List.range (Col.chunks d i.point)).map fun k =>
    (k, packElems d ((Col.chunkOf d (Col.held d i.point) k).map (elemAt d src))) }

/-- An instance of a `coll` command. -/
def State.openColl (s : State) (core : Nat) (o : CollCmd) (d : List Byte) (points : List Nat) (point : Nat) : State :=
  let die := dieOfCore core
  let own := if Col.ok d then s.ownShard (o.eng core) d else none
  let g := s.gridOf o.blk
  let n := s.fresh
  let i : CollInst :=
    { id := n.1, core := core, blk := o.blk, wid := o.wid, ctx := o.ctx, priv := o.priv, grid := g, desc := d, points := points,
      point := point, rq := o.rq, acts := [], met := [], left := [], placed := [], reduced := [], base := [], moved := false, got := [],
      lost := false, started := s.dev.beat, status := none, reports := [] }
  let i := { i with acts := i.hellos }
  let first := State.firstStatus d own
  let s := (n.2.register die (s.stampLine core o.ctx o.priv (Col.stamp d))).holdGrid (Col.trig d) g
  let s := s.modDie die fun x => { x with insts := x.insts ++ [if first.isSome then i else i.begin (own.getD [])] }
  match first with
  | some v => s.report die n.1 v
  | none => s.collTry die n.1

/-- A `coll` command leaves q1. -/
def State.popMesh (s : State) (core : Nat) (o : CollCmd) : State :=
  let e := o.eng core
  if o.desc.toNat % 64 ≠ 0 then s.pushResult o.blk o.rq (stampWord 3 0) else
  match s.engBytes e .g o.desc.toNat 256 with
  | .error _ => s.pushResult o.blk o.rq (stampWord 4 0)
  | .ok d =>
    match s.readTable e d with
    | .error status => s.soloEnd e o d status
    | .ok (points, point) => s.openColl core o d points point

/-- Whether the engine has an open place for a command (R362). -/
def Die.hasPlace (x : Die) (o : CollCmd) : Bool := if o.isRsum then decide ((x.opens.filter fun y => !y.kept).length < 64) else decide (x.insts.length < 16)

/-- The cores of a die in rotation, from the one after the last served. -/
def Die.turnOrder (x : Die) (d : Nat) : List Nat := (List.range 48).map fun i => 48 * d + (x.q1rot + 1 + i) % 48

/-- What the engine reads for a command: its descriptor, its table, and its source. -/
def State.collRanges (s : State) (core : Nat) (o : CollCmd) : List Range :=
  let e := o.eng core
  let n := if o.isRsum then 64 else 256
  (.g, (o.desc.toNat : Int), n) :: match s.engBytes e .g o.desc.toNat n with
    | .error _ => []
    | .ok d =>
      if o.isRsum then
        (if Red.ok d then (.g, (Red.memt d : Int), 4 * Red.nmem d) :: if o.ss then [] else [(.g, (o.src.toNat : Int), 4 * Red.count d)]
         else [])
      else (if Col.meshOk d then [(.g, (Col.memt d : Int), 4 * Col.points d)] else [])
        ++ if Col.ok d then [(.g, (Col.src d : Int), Col.shardBytes d false)] else []

/-- Their lines. -/
def State.collLines (s : State) (core : Nat) (o : CollCmd) : List Nat := s.homeLines (o.eng core) (s.collRanges core o)

/-- The core that the engine serves next: of those whose head finds a place, the first after the last served (R362). -/
def State.collTurn (s : State) (d : Nat) : Option (Nat × CollCmd) :=
  ((s.die d).turnOrder d).findSome? fun c => match (s.core c).q1 with
    | o :: _ => if (s.die d).hasPlace o then some (c, o) else none
    | [] => none

/-- COLL_ENGINE_POP: one command, from the next core whose head finds a place (R362); pushes that wait for q1 go on. -/
def State.collPop (s : State) (d : Nat) : State :=
  match s.collTurn d with
  | none => s
  | some (c, o) =>
    let s := s.drawLines c (s.collLines c o)
    let s := (s.modCore c fun k => { k with q1 := k.q1.drop 1 }).modDie d fun x => { x with q1rot := coreInDie c }
    let s := if o.isRsum then s.popSum c o else s.popMesh c o
    s.tryWaiters (s.warpsOfCore c) isQ1 State.tryQ1

def execCollEnginePop (die : Nat) (s : State) : Host.Outcome State Fault Refusal :=
  done (s.recallFirst (.collEnginePop die) (match s.collTurn die with | some x => s.collLines x.1 x.2 | none => []) fun s => s.collPop die)

/-! ### Demands of the engine (R363, R370) -/

/-- The act that the collectives of a core take next: the instance and the act. -/
def State.coreAct (s : State) (core : Nat) : Option (CollInst × CollAct) :=
  (((s.die (dieOfCore core)).insts.filter fun i => i.core == core).filterMap fun i => (s.nextAct i).map fun a => (i, a)).head?

/-- Whether a contribution of a core has a step to pay. -/
def OpenSum.owes (o : OpenSum) (core : Nat) : Bool := o.core == core && (nextDue o.due).isSome

/-- The first unpaid step of a core's open operations: its price and context. -/
def State.collDue (s : State) (core : Nat) : Option (Nat × Nat) :=
  match (s.die (dieOfCore core)).opens.find? fun o => o.owes core with
  | some o => (nextDue o.due).map fun p => (p, o.contrib.ctx)
  | none => (s.coreAct core).map fun x => (6, x.1.ctx)

/-- A contribution whose flits are paid is sent. -/
def State.collSend (s : State) (core : Nat) : State :=
  let d := dieOfCore core
  ((s.die d).opens.filter fun o => o.core == core && !o.sent && (nextDue o.due).isNone).foldl (fun s o => s.sendSum d o) s

/-- A flit joins the queue for a port (R364). -/
def State.flitOut (s : State) (d : Nat) : State := s.modDie d fun x => { x with egress := x.egress + 1 }

/-- A paid step of an act; with the last it is done. -/
def State.actStep (s : State) (d : Nat) (i : CollInst) (a : CollAct) : State :=
  let s := if a.dest.isSome then s.flitOut d else s
  if a.left ≤ 1 then s.doAct d i.id a
  else s.modInst d i.id fun y => { y with acts := modFirst (· == a) (fun x => { x with left := x.left - 1 }) y.acts }

/-- A paid step of the engine. -/
def State.collStep (s : State) (core : Nat) : State :=
  let d := dieOfCore core
  match (s.die d).opens.find? fun o => o.owes core with
  | some o => ((s.modDie d fun x =>
      { x with opens := x.opens.map fun (y : OpenSum) => if y.id = o.id then { y with due := payDue y.due } else y }).flitOut d).collSend core
  | none => match s.coreAct core with
    | some x => s.actStep d x.1 x.2
    | none => s

/-- The act that draws no step and is next at a core. -/
def State.freeAct (s : State) (core : Nat) : Option (CollInst × CollAct) :=
  if (s.die (dieOfCore core)).opens.any (fun o => o.owes core) then none else (s.coreAct core).filter fun x => x.2.left == 0

/-- The lines that the acts of a core's collectives wait for. -/
def State.collAway (s : State) (core : Nat) : List Nat :=
  if s.mem.leases.isEmpty then [] else
  ((s.die (dieOfCore core)).insts.filter fun i => i.core == core).flatMap fun i => i.open_.flatMap (s.actAway i)

/-- The engine's demand on a core's bucket; an act that draws no step is done at once. -/
def State.collDemand (s : State) (core : Nat) : State :=
  match s.freeAct core with
  | some x => s.doAct (dieOfCore core) x.1.id x.2
  | none =>
    match s.collDue core with
    | none => s.askBack (s.collAway core)
    | some x => s.engineDemand core 2 x.2 x.2 x.1 fun s => s.collStep core

/-! ### Timeouts and failures (R360) -/

/-- COLL_POINT_TIMEOUT: a point not finished within its TMO reports 0x01; where point 0 cannot be reached it ends with 0x02. Point 0
itself ends the collective when reports are missing, and a point 0 that never issues leaves the others to end with 0x01 (whether one on
another device has: log entry 108). -/
def State.pointTimeout (s : State) (d id : Nat) (reach : Bool) : State :=
  match s.inst? d id with
  | none => s
  | some i =>
    if !s.elapsed i.started (s.tmoOf d (Col.tmo i.desc)) then s
    else if !reach || i.lost then s.collEnd d id 2
    else if i.status.isNone then s.report d id 1
    else if i.point = 0 then s.pointReport d id 0 1
    else if (if i.points.getD 0 0 / 4 = s.devId then (s.instAt i 0).isNone else Config.absent s.own.freeCount (2 ^ 32 + id)) then
      s.collEnd d id 1
    else s

def execCollPointTimeout (die inst : Nat) (reach : Bool) (s : State) : Host.Outcome State Fault Refusal :=
  done (s.recallFirst (.collPointTimeout die inst reach) (s.endLines die inst) fun s => s.pointTimeout die inst reach)

/-- A point that finds a member failed reports 0x02; where point 0 is on the failed device it ends at its own TMO (R360). -/
def State.meshFailed (s : State) (dev : Nat) : State :=
  dieList.foldl (fun s d =>
    ((s.die d).insts.filter fun i => i.status.isNone && i.points.any fun p => p / 4 == dev).foldl (fun s i =>
      if i.points.getD 0 0 / 4 = dev then s.modInst d i.id fun x => { x with lost := true } else s.report d i.id 2) s) s

/-- FEED: set while a transfer has flits to send and none waits for a port; flits leave through the ports (R364, log entry 110). -/
def State.feedTick (s : State) (d : Nat) : State :=
  s.modDie d fun x =>
    let x := { x with egress := x.egress - Config.drained s.own.freeCount }
    let work := x.opens.any (fun o => !o.sent) || x.insts.any fun i => i.open_.any fun a => a.dest.isSome
    { x with feed := if !work || s.apBits (offColCfg d) 23 16 ≤ x.egress then false else if x.egress = 0 then true else x.feed }

end Sys2Proof.Machine
end

