-- ==== Sys2Proof/Machine/Fabric.lean ====
section
/-!
DEFINITION. Machine/Fabric.lean: lines between devices and the companion processor: reads, leases, writes through, atomics; failures
of links and devices; job intents (spec/10 R281 to R283; spec/11 R336 to R338; spec/13 R386; spec/14 R405, R426). Addresses that
arrive are bits 47:0 of physical addresses of the receiving home; device 640 stands for the companion processor.
-/

namespace Sys2Proof.Machine

/-! ### Packets (R336) -/

/-- Class and flits of a packet of a line. -/
def LinePacket.cls : LinePacket → Nat := fun _ => 0
def LinePacket.flits : LinePacket → Nat
  | .read _ => 1
  | .write _ => 3
  | .recall _ => 1

/-- The class of a packet of the fabric; none for what the table of R336 does not list. -/
def Msg.cls : Msg → Option Nat
  | .data .. | .recall .. | .lease .. | .atomic .. | .result .. => some 0
  | .invoke _ p => some p.cls
  | .answer _ _ _ cls _ => some cls
  | .reduce .. | .chunk .. => some 1
  | .group .. | .retired .. | .intent .. | .failure .. => some 2
  | .irq .. | .grant .. | .poisoned .. | .hostData .. | .report .. | .ended .. | .identity .. | .spad .. => none

/-- The flits of 64 bytes that carry it. -/
def Msg.flits : Msg → Option Nat
  | .data .. => some 3
  | .recall .. | .lease .. | .atomic .. | .result .. | .answer .. | .group .. | .retired .. | .intent .. | .failure .. => some 1
  | .invoke .. => some 2
  | .reduce _ c => some (Sys2Proof.Machine.flits (4 * c.data.length))
  | .chunk _ _ _ _ bytes => some (Sys2Proof.Machine.flits bytes.length)
  | .irq .. | .grant .. | .poisoned .. | .hostData .. | .report .. | .ended .. | .identity .. | .spad .. => none

/-! ### A line at its home here (R282, R298) -/

/-- A lease on a local line. -/
def State.leaseOf (s : State) (line : Nat) : Option Lease := s.mem.leases.find? fun l => l.line == line && l.dev.isSome

/-- A packet has arrived over the fabric, or over a link to the companion processor, device 640: its check is made (R405, R421). -/
def State.arrived (s : State) (dev line : Nat) : State := s.inject [if dev = 640 then 11 else 10] (logLine line) (s.mem.ownerOf line)

/-- A packet of a party outside names memory: `go` where it is populated, a fault where it is not (R277). -/
def State.atHome (s : State) (dev addr : Nat) (go : State → State) : Host.Outcome State Fault Refusal :=
  if populated addr then done (go (s.arrived dev (lineOf addr))) else .fault .noMemory

/-- What waited for a line goes on, in order of arrival. -/
def State.wakeLine (s : State) (line : Nat) : State :=
  let ready := s.mem.waits.filter fun w => w.1 == line
  (s.modMem fun m => { m with waits := m.waits.filter fun w => w.1 != line }).soon (ready.map fun w => .event w.2)

/-- Answers for n bytes: poison where their line is poisoned (R283) or the read consumes an error of theirs, which is contained next (R407,
log entry 130); else `go`. -/
def State.unlessPoisoned (s : State) (dev key n : Nat) (go : State → State) : State :=
  if (s.mem.upsetAt key n).isSome then (s.contains (s.mem.upsetAt key n) none).send (.poisoned dev (lineOf key))
  else if s.mem.poisoned (lineOf key) then s.send (.poisoned dev (lineOf key)) else go s

def State.lineMsg (s : State) (dev line : Nat) : Msg := .data dev line (s.mem.list (line * 128) 128) (s.mem.version line)

/-- LINE_READ_REQUEST: the home answers with the line; a leased line is recalled first (R282, R336). -/
def State.readRequest (s : State) (dev addr : Nat) : State :=
  let line := lineOf addr
  if s.leasedOut line then s.waitLease line (.lineReadRequest dev addr)
  else (s.touch line).unlessPoisoned dev (128 * line) 128 fun s => s.send (s.lineMsg dev line)

def execLineReadRequest (dev addr : Nat) (s : State) : Host.Outcome State Fault Refusal := s.atHome dev addr fun s => s.readRequest dev addr

/-- OWNERSHIP_REQUEST: the home grants a lease of 64 µs with the line; a lease of another party is recalled first (R282). Every word
registration and host-held copy of the line ends with the grant. -/
def State.grantLease (s : State) (dev addr : Nat) : State :=
  let line := lineOf addr
  if s.leasedOut line then s.waitLease line (.ownershipRequest dev addr)
  else (s.touch line).unlessPoisoned dev (128 * line) 128 fun s =>
    let s := (List.range 32).foldl (fun s i => s.own4 none (line * 128 + 4 * i)) s
    let lease : Lease := { line := line, dev := some dev, core := 0, ctx := 0, granted := s.dev.beat, used := s.dev.beat, recalled := false }
    let s := s.modMem fun m =>
      { m with
        leases := m.leases ++ [lease], hostHeld := m.hostHeld.filter (· != line),
        traffic := m.traffic ++ (if m.hostHeld.contains line then [.recall line] else []) }
    (s.send (s.lineMsg dev line)).send (.grant dev line)

def execOwnershipRequest (dev addr : Nat) (s : State) : Host.Outcome State Fault Refusal := s.atHome dev addr fun s => s.grantLease dev addr

/-- A lease ends at the home. -/
def State.endLease (s : State) (line : Nat) : State :=
  (s.modMem fun m => { m with leases := m.leases.filter fun l => !(l.line == line && l.dev.isSome) }).wakeLine line

/-- LEASE_RETURN: the owner changed nothing (R336). -/
def State.leaseBack (s : State) (dev addr : Nat) : State :=
  match s.leaseOf (lineOf addr) with
  | some l => if l.dev = some dev then s.endLease (lineOf addr) else s
  | none => s

def execLeaseReturn (dev addr : Nat) (s : State) : Host.Outcome State Fault Refusal := s.atHome dev addr fun s => s.leaseBack dev addr

/-- The bytes and version of a line as they stand elsewhere. -/
def State.setLine (s : State) (line : Nat) (data : List Byte) (ver : Word) : State :=
  let s := (List.range 128).foldl (fun s i => s.poke none (line * 128 + i) (data.getD i 0) 3) s
  s.modMem fun m => { m.heal ((List.range 128).map (line * 128 + ·)) with ver := Tab.put 0 m.ver line ver }

/-- LEASE_RETURN_WITH_DATA: the line comes back with its data and version, unless its lease has ended (R282), owned by the context
whose atomics wrote it (R277, log entry 126). -/
def State.leaseData (s : State) (dev addr ctx : Nat) (data : List Byte) (ver : Word) : State :=
  let line := lineOf addr
  match s.leaseOf line with
  | some l =>
    if l.dev = some dev then (((s.touch line).setLine line data ver).modMem fun m => m.tag line (some ctx)).endLease line else s
  | none => s

def execLeaseReturnWithData (dev addr : Nat) (data : List Byte) (ver : BitVec 32) (s : State) : Host.Outcome State Fault Refusal :=
  s.atHome (dev % 1024) addr fun s => s.leaseData (dev % 1024) addr (dev / 1024) data ver

/-- LEASE_LAPSE: 64 µs after the grant the home poisons the line, and what waited for it goes on to find it so (R282). -/
def State.lapse (s : State) (addr : Nat) : State :=
  let line := lineOf addr
  match s.leaseOf line with
  | some l =>
    if !s.elapsed l.granted 64 then s
    else (s.modMem fun m => { m with poison := insertNat m.poison line }).endLease line
  | none => s

def execLeaseLapse (addr : Nat) (s : State) : Host.Outcome State Fault Refusal :=
  if populated addr then done (s.lapse addr) else .fault .noMemory

/-- COMMITTED_LINE_WRITE: the bytes of a mask, one version step, owned by the writing context; a poisoned line takes no such write
(R173, R277, R281, R283). -/
def State.lineWrite (s : State) (dev addr ctx : Nat) (data : List Byte) (mask : BitVec 128) : State :=
  let line := lineOf addr
  if s.leasedOut line then s.waitLease line (.committedLineWrite dev addr ctx data mask)
  else if s.mem.poisoned line || mask = 0 then s
  else
    let bytes := (List.range 128).filterMap fun i => if mask.getLsbD i then some (line * 128 + i, data.getD i 0) else none
    (s.writeHome (some ctx) none bytes).touch line

def execCommittedLineWrite (dev addr ctx : Nat) (data : List Byte) (mask : BitVec 128) (s : State) : Host.Outcome State Fault Refusal :=
  s.atHome dev addr fun s => s.lineWrite dev addr ctx data mask

/-- ATOMIC_REQUEST: performed at the home as one operation, on behalf of the context that the packet names (R173, R178, R277, R336, log
entry 126). -/
def State.atomicIn (s : State) (p : RemoteAtomic) : State :=
  let line := lineOf p.addr
  if s.leasedOut line then s.waitLease line (.atomicRequest p)
  else s.unlessPoisoned p.dev p.addr (atmBytes p.op) fun s =>
    let n := atmBytes p.op
    let old := s.homeNum p.addr n
    let s := (s.touch line).writeNum (some p.ctx) p.addr n (atmApply p.op old p.arg).toNat
    s.send (.result p.dev old)

def execAtomicRequest (p : RemoteAtomic) (s : State) : Host.Outcome State Fault Refusal := s.atHome p.dev p.addr fun s => s.atomicIn p

/-! ### Remote lines here (R281, R282) -/

/-- Lanes that wait for the ownership of a remote line, by warp, those of warps that are not awake among them (R444). -/
def State.lineWaiters (s : State) (line : Nat) : List (Nat × Blocked × AtomOp) :=
  s.warps.flatMap fun e => e.2.blocked.filterMap fun b => match b.what with
    | .ratm op none => if lineOf op.key = line then some (e.1, b, op) else none
    | _ => none

/-- A waiting lane performs on the line that is here now, and leaves (R163, R177). -/
def State.atomNow (s : State) (wid : Nat) (b : Blocked) (op : AtomOp) : State :=
  let s := (lanesOf b.lanes).foldl (fun s l => s.atomLane wid l op) s
  (s.acquireBy (coreOf wid) (orders op.ord op.sc)).pass wid b

/-- The value of an operation at its home comes to its lane, which leaves (R163). -/
def State.atomDone (s : State) (wid : Nat) (b : Blocked) (op : AtomOp) (v : DWord) : State :=
  let s := s.modWarp wid fun w => w.setXn (atomPair op.kind) op.d b.lanes (fun _ => v)
  (s.acquireBy (coreOf wid) (orders op.ord op.sc)).pass wid b

/-- A response's line fills the L2, and the L1 of the core that asked (R278, R281). -/
def State.fillRemote (s : State) (line core : Nat) : State :=
  let s := s.fetchRemote line
  if isService core || 192 ≤ core then s else
  s.modCore core fun c => { c with l1 := Tab.keepTo 2048 (s.victim line) c.l1 line { data := s.mem.list (line * 128) 128, valid := 0xFFFFFFFF, owned := 0 } }

/-- LINE_READ_RESPONSE: the line as its home has it. Where atomics wait for its ownership it comes with its lease, and they perform;
at once where their warps are awake, else once they are (R444); else it fills this device's copies (R281, R282, R336). -/
def State.response (s : State) (line core : Nat) (data : List Byte) (ver : Word) : State :=
  if !isRemote (line * 128) then s else
  let s := s.setLine line data ver
  match s.lineWaiters line with
  | [] => s.fillRemote line core
  | ws@((wid, _, _) :: _) =>
    let ctx := match s.warp? wid with | some w => w.ctx | none => 0
    let lease : Lease := { line := line, dev := none, core := coreOf wid, ctx := ctx, granted := s.dev.beat, used := s.dev.beat, recalled := false }
    let s := if s.leaseHeld line then s else s.modMem fun m => { m with leases := m.leases ++ [lease] }
    (ws.filter fun w => (s.warp? w.1).any s.awake).foldl (fun s w => s.atomNow w.1 w.2.1 w.2.2) s

def execLineReadResponse (line core : Nat) (data : List Byte) (ver : BitVec 32) (s : State) : Host.Outcome State Fault Refusal :=
  done ((s.arrived (remoteDev (line * 128)) line).response line core data ver)

/-- A lease of this device on a remote line. -/
def State.myLease (s : State) (line : Nat) : Option Lease := s.mem.leases.find? fun l => l.line == line && l.dev.isNone

/-- The line goes back to its home with its data and version (R282). -/
def State.giveBack (s : State) (line : Nat) : State :=
  match s.myLease line with
  | none => s
  | some _ =>
    (s.send (s.lineMsg (remoteDev (line * 128)) line)).modMem fun m =>
      { m with leases := m.leases.filter fun l => !(l.line == line && l.dev.isNone) }

/-- RECALL (R282). -/
def execRecall (line : Nat) (s : State) : Host.Outcome State Fault Refusal := done ((s.arrived (remoteDev (line * 128)) line).giveBack line)

/-- LEASE_IDLE_RETURN: 16 µs with no atomic on the line (R282). -/
def State.idleReturn (s : State) (line : Nat) : State :=
  match s.myLease line with
  | some l => if !s.elapsed l.used 16 then s else s.giveBack line
  | none => s
def execLeaseIdleReturn (line : Nat) (s : State) : Host.Outcome State Fault Refusal := done (s.idleReturn line)

/-- LEASE_DEADLINE_RETURN: 48 µs after the grant (R282). -/
def State.deadlineReturn (s : State) (line : Nat) : State :=
  match s.myLease line with
  | some l => if !s.elapsed l.granted 48 then s else s.giveBack line
  | none => s
def execLeaseDeadlineReturn (line : Nat) (s : State) : Host.Outcome State Fault Refusal := done (s.deadlineReturn line)

/-- ATOMIC_RESPONSE: the value that a waiting lane's operation returned at its home; the lane takes it and leaves, once its warp is
awake (R163, R336, R444). -/
def State.atomicBack (s : State) (wid lane : Nat) (v : DWord) : State :=
  s.withWarp wid fun w =>
    match w.blocked.find? fun b => laneIn b.lanes lane && (match b.what with | .ratm _ none => true | _ => false) with
    | none => s
    | some b =>
      match b.what with
      | .ratm op _ =>
        if s.awake w then s.atomDone wid { b with lanes := laneBit lane } op v
        else s.modWarp wid fun w =>
          { w with blocked := leaveBlock w.blocked { b with lanes := laneBit lane } ++ [{ b with lanes := laneBit lane, what := .ratm op (some v) }] }
      | _ => s

def execAtomicResponse (wid lane : Nat) (val : BitVec 64) (s : State) : Host.Outcome State Fault Refusal :=
  done ((s.arrived 0 0).atomicBack wid lane val)

/-! ### Job intents (R386) -/

/-- Whether the device holds a job intent. -/
def State.holdsJob (s : State) : Bool := s.dev.jobIntent.isSome || s.cores.any fun c => c.2.intents.any fun e => e.2.job

/-- POWER_INTENT: a device of the job that holds no job intent adopts the rate and due time as its own (R386). -/
def State.adopt (s : State) (dev rate due : Nat) : State :=
  let jb := s.apBits offGovJob 61 52
  let inJob : Bool := decide (jb ≤ dev) && decide (dev < jb + s.apBits offGovJob 41 32)
  if s.apBits offGovJob 63 63 = 0 || !inJob || s.holdsJob then s
  else s.modDev fun v => { v with jobIntent := some { rate := rate, due := s.dev.micros + due, job := true } }

def execPowerIntent (dev rate due : Nat) (s : State) : Host.Outcome State Fault Refusal := done (s.adopt dev rate due)

/-! ### Failures (R282, R337, R426) -/

/-- FAILURE_NOTICE: open collective instances that name the device end with 0x02, and the host gets 0xF4 (R426). -/
def State.deviceFailed (s : State) (dev : Nat) : State := (s.sumFailed dev).meshFailed dev

def execFailureNotice (dev : Nat) (s : State) : Host.Outcome State Fault Refusal := done ((s.deviceFailed dev).irq 0xF4)

/-- Answers that have come to waiting `rinv`s let them go on (R221). -/
def isAnswered : Wait → Bool
  | .rinv _ _ _ _ (some _) _ => true
  | _ => false

/-- Atomics that wait for lines of a lost home stop with POISON (R282, R283); those of a warp that is not awake stand at their instruction
again, and find the line lost there when it is (R444). -/
def State.failAtomics (s : State) (dev : Nat) : State :=
  let lost := s.warps.flatMap fun e => (e.2.blocked.filter fun b => match b.what with
    | .ratm op none => decide (remoteDev op.key = dev)
    | _ => false).map fun b => (e.1, s.awake e.2, b)
  lost.foldl (fun s x =>
    match x.2.2.what with
    | .ratm op _ =>
      if x.2.1 then s.trapWaiting x.1 x.2.2 { cls := .poison, aux := BitVec.ofNat 64 (op.key % span / 128 * 128) }
      else s.modWarp x.1 fun w => { w with blocked := leaveBlock w.blocked x.2.2 }
    | _ => s) s

/-- A device that can no longer be reached: leases it held are poisoned, pending `rinv`s get code 5, collectives that name it end, and
leases here on its lines are gone (R282, R337). -/
def State.lose (s : State) (dev : Nat) : State :=
  let lines := (s.mem.leases.filter fun l => l.dev == some dev).map Lease.line
  let s := s.deviceLost dev
  let s := lines.foldl (fun s l => s.wakeLine l) s
  let s := s.modMem fun m => { m with leases := m.leases.filter fun l => !(l.dev.isNone && decide (remoteDev (l.line * 128) = dev)) }
  let s := (s.failAtomics dev).tryWaiters s.warps isAnswered State.tryRinv
  s.deviceFailed dev

/-- LINK_FAILURE: the port or link, if it was UP, is declared failed, with the devices that this cuts off (R337, R405, R436). -/
def State.linkFailed (s : State) (fab : Bool) (port : Nat) (devs : List Nat) : State :=
  if s.portState fab port ≠ 5 then s else
  let s := s.portDown fab port
  let s := (if !fab && !s.hostUp then devs ++ [640] else devs).foldl State.lose s
  s.tryWaiters s.warps isAnswered State.tryRinv

def execLinkFailure (fab : Bool) (port : Nat) (devs : List Nat) (s : State) : Host.Outcome State Fault Refusal :=
  done (s.linkFailed fab port devs)

/-- LINK_LEVEL_REPLAY: the flit is sent again, and the check has been made (R405, R421). A port or link counts how often the flit in hand
has been sent again; whether it is the flit of the last replay is free (log entry 128). The 32nd replay of one flit fails it (R337). -/
def State.replayed (s : State) (fab port : Nat) : State :=
  let s := s.inject [if fab = 0 then 11 else if fab = 1 then 10 else if fab = 2 then 12 else 13] 0 0xFFF
  if 2 ≤ fab then s else
  let key := 64 * fab + port
  let n := if (Config.freeWord s.own.freeCount 0x405).toNat % 2 = 0 then 1 else Tab.get s.dev.replayed 0 key + 1
  if n < 32 then s.modDev fun v => { v with replayed := Tab.upd v.replayed key n }
  else (s.modDev fun v => { v with replayed := Tab.del v.replayed key }).linkFailed (fab = 1) port []

def execLinkLevelReplay (fab port : Nat) (s : State) : Host.Outcome State Fault Refusal := done (s.replayed fab port)

/-! ### The companion processor (R277, R298, R338) -/

/-- A read of local memory: the companion holds copies of the lines. -/
def State.hostRead (s : State) (a len : Nat) : State :=
  let lines := distinct ((List.range len).map fun i => lineOf (a + i))
  let s := lines.foldl (fun s l => s.touch l) (s.metLines lines)
  let s := s.modMem fun m => { m with hostHeld := lines.foldl insertNat m.hostHeld }
  match lines.find? (fun l => s.mem.poisoned l || (s.mem.upsetAt (128 * l) 128).isSome) with
  | some l => s.send (.poisoned 640 l)
  | none => s.send (.hostData (s.mem.list a len))

/-- A write of local memory goes through to DRAM line by line and leaves the L2 copy clean; poison stays (R283, R338). -/
def State.hostWrite (s : State) (a : Nat) (bs : List Byte) : State :=
  let ok := ((List.range bs.length).zip bs).filterMap fun x => if s.mem.poisoned (lineOf (a + x.1)) then none else some (a + x.1, x.2)
  let lines := distinct (ok.map fun x => lineOf x.1)
  lines.foldl (fun s l => (s.touch l).sliceStep l 20) (s.writeHome none none ok)

/-- Bytes of host memory, or of a peer's memory as their homes hold them, change there. -/
def State.awayWrite (s : State) (key : Nat) (bs : List Byte) : State :=
  let cells := ((List.range bs.length).zip bs).map fun x => (key + x.1, x.2)
  s.modMem fun m =>
    let m := cells.foldl (fun m c => m.setByte c.1 c.2) m
    (distinct (cells.map fun c => lineOf c.1)).foldl Sys2Proof.Machine.Mem.bump m

/-- HOST_MEMORY_ACCESS (R338). -/
def execHostMemoryAccess (h : Home) (wr : Option (List Byte)) (len : Nat) (s : State) : Host.Outcome State Fault Refusal :=
  let e : Ev := .hostMemoryAccess h wr len
  let n := match wr with | some bs => bs.length | none => len
  match h with
  | .dram a =>
    if !(List.range n).all (fun i => populated (a + i)) then .fault .noMemory
    else match (distinct ((List.range n).map fun i => lineOf (a + i))).find? s.leasedOut with
      | some l => done (s.waitLease l e)
      | none =>
        let s := s.arrived 640 (lineOf a)
        done (match wr with | some bs => s.hostWrite a bs | none => s.hostRead a len)
  | .peer d a => done (match wr with | some bs => s.awayWrite (keyPeer d a) bs | none => s)
  | .host a => done (match wr with | some bs => s.awayWrite (keyHost a) bs | none => s)

end Sys2Proof.Machine
end

