-- ==== Sys2Proof/Machine/Faults.lean ====
section
/-!
DEFINITION. Machine/Faults.lean: errors that the device detects, their containment and their log (spec/14 R405 to R419; spec/10 R291,
R292).
-/

namespace Sys2Proof.Machine

/-! ### Retirement and quarantine (R413, R414) -/

/-- FLT_STAT.PGFULL and vector 0xF6. -/
def State.tableFull (s : State) : State := (s.apField offFltStat 9 9 1).irq 0xF6

/-- The first free entry of the 256 of a table. -/
def State.freeEntry (s : State) (off : Nat → Nat) (bit : Nat) : Option Nat := (List.range 256).find? fun i => s.apBits (off i) bit bit = 0

/-- Every line of the page is poisoned, and the page is recorded once; it is retired even where no entry is free. -/
def State.retirePage (s : State) (line : Nat) : State :=
  let page := line / 512
  let was := s.retired line
  let s := s.modMem fun m =>
    { m with poison := (List.range 512).foldl (fun t i => insertNat t (page * 512 + i)) m.poison, retired := insertNat m.retired page,
             upset := Tab.keep m.upset fun k _ => k / 16 / 512 != page }
  if was then s else
  match s.freeEntry offPgret 63 with
  | some i => s.apSet (offPgret i) (2 ^ 63 + page % 2 ^ 32 * 2 ^ 16)
  | none => s.tableFull

/-- The frame that holds a line, or the one named by set and way in its slice. -/
def State.frameAt (s : State) (line set way : Nat) : Nat :=
  (s.mem.frameOf line).getD ((4096 * sliceOf line + set % 4096) * 24 + way % 24)

/-- A frame holds no line until reset, and is recorded while an entry is free. -/
def State.quarantine (s : State) (line frame : Nat) : State :=
  let s := s.modMem fun m => { m with frames := Tab.del m.frames frame, quarantined := insertNat m.quarantined frame }
  match s.freeEntry offL2q 31 with
  | some i => s.apSet (offL2q i)
      (2 ^ 31 + dieOfLpa (line * 128) * 2 ^ 29 + yardOfLpa (line * 128) * 2 ^ 25 + frame % 24 * 2 ^ 20 + frame / 24 % 4096 * 2 ^ 8)
  | none => s.tableFull

/-! ### Device-fatal errors (R415) -/

/-- The contexts that hold anything on the device. -/
def State.contexts (s : State) : List Nat :=
  distinct ((s.warps.filter fun e => !isService (coreOf e.1)).map (fun e => e.2.ctx)
    ++ s.blocks.map (fun e => e.2.ctx) ++ s.grids.map (fun e => e.2.ctx) ++ s.dev.devq.map (fun e => e.1 / 16)
    ++ (List.range 1024).filterMap (fun q => if (Tab.look s.ap (offLqCfg q)).isSome then some (s.apBits (offLqCfg q) 11 0) else none)
    ++ s.ap.filterMap (fun e => arrayIdx bRiv 16 4096 e.1))

def State.fatalError (s : State) (unit line : Nat) : State :=
  let s := s.contexts.foldl State.terminate s
  (s.apField offFltStat 10 10 1).logUe unit 4 0xFFF line false |>.irq 0xF5

def execDeviceFatalError (unit : Nat) (s : State) : Host.Outcome State Fault Refusal := done (s.fatalError unit 0)

/-- A correctable error of DRAM, found by an access or by scrub, of L2 data or tags, the register cache, the scratchpad or the
accumulator banks: what was stored stands, and the log says so (R405, R418; log entry 85). -/
def State.corrected (s : State) (unit line : Nat) : State :=
  if [0, 1, 2, 3].contains unit then s.logUe unit 0 0xFFF (logLine line) false
  else if [5, 6, 7].contains unit then s.logUe unit 0 0xFFF 0 false
  else s

/-! ### DRAM and L2 (R406 to R408, R412) -/

/-- A failure notice to the other devices of the job (R426). -/
def State.notify (s : State) : State :=
  if s.apBits offGovJob 63 63 = 0 then s else
  let jb := s.apBits offGovJob 61 52
  (((List.range (s.apBits offGovJob 41 32)).map (jb + ·)).filter (· != s.devId)).foldl (fun s dev => s.send (.failure dev)) s

/-- Steps 2 to 5 of R412 for an error that ends a context and has no page of its own: terminate and report (R409, R410). -/
def State.contain (s : State) (unit ctx line : Nat) : State := (((s.terminate ctx).logUe unit 3 ctx line false).irq 0xF0).notify

/-- A warp whose instruction, or whose waiting lanes' re-read, consumed an uncorrectable error of a line takes UE there (R408); a warp that
needed nothing of the line goes on. -/
def State.consumed (s : State) (line wid : Nat) : State :=
  s.withWarp wid fun w =>
    match w.needs with
    | none => s
    | some n =>
      if n.t.aux.toNat / 128 ≠ line then s else
      let s := s.modWarp wid fun w => { w with needs := none }
      if n.done then s.takeTrap wid n.t n.lanes 0 n.pc 0 else s.discardTrap wid n.t n.lanes n.pc

/-- A path that carries no check has given a wrong value, which is free; nothing reports it (R405, log entry 131). -/
def State.slip (s : State) (x : Slip) : State :=
  let v := Config.freeWord s.own.freeCount 0x406
  match x with
  | .reg wid key => s.modWarp wid fun w => { w with x := Tab.put 0 w.x key (v.setWidth 32) }
  | .acc core key => s.modCore core fun c => { c with acc := Tab.put 0 c.acc key (v.setWidth 32) }
  | .cell core m g => s.modCore core fun c => { c with macros := Tab.mod c.macros m fun y =>
      { y with groups := Tab.mod y.groups g fun z => { z with q := z.q.zipIdx.map fun e => (Config.freeWord s.own.freeCount (0x40600 + e.2)).toInt } } }
  | .byte key => if populated key then s.modMem fun m => m.setByte key (v.setWidth 8) else s
  | .spad blk off => if off < s.spadSize blk then s.spadPut blk off (v.setWidth 8) else s

/-- An error arises in a checked word of a line of DRAM, or of the L2 where that holds the line; nothing shows until a party needs it (R405,
R407, log entry 130). -/
def State.upsets (s : State) (word unit : Nat) : State :=
  let line := word / 16
  if !populated (line * 128) || s.mem.poisoned line || (unit = 2 && (s.mem.frameOf line).isNone) then s
  else s.modMem fun m => { m with upset := Tab.upd m.upset word (if unit = 2 then 2 else 0) }

/-- DRAM_UE: the line is poisoned and its page retired; a warp that needed its data traps at its instruction (R405, R408). -/
def State.dramError (s : State) (line : Nat) (wid : Option Nat) : State :=
  if !populated (line * 128) then s else
  let owner := match wid.bind s.warp? with | some w => w.ctx | none => 0xFFF
  let s := (s.logUe 0 6 owner (logLine line) false).retirePage line
  match wid with
  | none => s
  | some n => s.consumed line n

def execDramUe (line : Nat) (wid : Option Nat) (s : State) : Host.Outcome State Fault Refusal := done (s.dramError line wid)

/-- L2_CLEAN_UE: a clean line is read again from DRAM (R405). -/
def State.l2Clean (s : State) (line : Nat) : State :=
  if (Tab.look s.mem.dirty line).isSome || !populated (line * 128) then s
  else (s.sliceStep line 20).logUe 2 1 0xFFF (logLine line) false

def execL2CleanUe (line : Nat) (s : State) : Host.Outcome State Fault Refusal := done (s.l2Clean line)

/-- L2_DIRTY_UE_CONTAINMENT: owner, terminate, retire, quarantine, report (R412). `way` holds the way in bits 4:0 and above them one more
than the warp that consumed the error, 0 where no warp of another context did (R408). -/
def State.l2Dirty (s : State) (line set way : Nat) : State :=
  match Tab.look s.mem.dirty line with
  | none => s
  | some owner =>
    if owner = 0xFFF then s.fatalError 2 (logLine line) else
    let frame := s.frameAt line set (way % 32)
    let s := (s.terminate owner).retirePage line
    let s := (s.quarantine line frame).modMem fun m => { m with dirty := Tab.del m.dirty line }
    let s := ((s.logUe 2 3 owner (logLine line) false).irq 0xF0).notify
    if way < 32 then s else s.consumed line (way / 32 - 1)

def execL2DirtyUeContainment (line set way : Nat) (s : State) : Host.Outcome State Fault Refusal := done (s.l2Dirty line set way)

/-- PATROL_SCRUB_READ: a DRAM access; a line that cannot be corrected is logged, poisoned, and its page retired (R368, R406). -/
def State.scrub (s : State) (line : Nat) (ue : Bool) : State :=
  if !populated (line * 128) then s else
  let s := (s.homeStep (dieOfLpa (line * 128)) 20).inject [1] (logLine line) 0xFFF
  if ue || (s.mem.upset.any fun e => e.1 / 16 == line && e.2 == 0) then (s.logUe 1 6 0xFFF (logLine line) false).retirePage line else s

def execPatrolScrubRead (line : Nat) (ue : Bool) (s : State) : Host.Outcome State Fault Refusal := done (s.scrub line ue)

/-! ### Register cache (R409) -/

/-- Case 2: the word is 0, and every open region of the warp is discarded, counted and entered again (R291, R292). -/
def State.regRetry (s : State) (wid reg lane : Nat) (w : Warp) : State :=
  let open_ := ~~~(w.exited ||| w.blockedLanes)
  let s := s.modWarp wid fun w => { w with x := Tab.put 0 w.x (32 * reg + lane) 0, opbuf := w.opbuf.filter (· != reg) }
  let s := (s.logUe 5 2 w.ctx 0 false).discard wid open_
  let x := s.countDiscard wid { cls := .ue, cause := 5 }
  if x.2.cls = .rentry then x.1.takeTrap wid x.2 open_ 0 (w.leastPc open_) 0 else x.1

/-- REG_CACHE_UE, by the first case that applies. -/
def State.regError (s : State) (wid reg lane : Nat) : State :=
  match s.warp? wid with
  | none => s
  | some w =>
    if w.regs ≤ reg || 32 ≤ lane then s
    else if w.clean.contains reg then s.setWarp wid (s.refillReg wid w reg)
    else if laneIn (Tab.get w.wr 0 reg) lane then s.regRetry wid reg lane w
    else if isService (coreOf wid) then s.fatalError 5 0
    else s.contain 5 w.ctx 0

def execRegCacheUe (wid reg lane : Nat) (s : State) : Host.Outcome State Fault Refusal := done (s.regError wid reg lane)

/-! ### Scratchpad and accumulators (R410) -/

/-- Engine operations of a block that use its scratchpad or banks. -/
def Core.blockTags (c : Core) (blk : Nat) : List Nat :=
  (c.mat.filter fun o => o.blk == blk && o.usesBlock).map MatOp.tag
    ++ ((c.q0 ++ c.copying).filter fun o => o.blk == blk && (o.ss || o.ds)).map CopyCmd.tag

/-- They end without their tags set. -/
def Core.dropBlockOps (c : Core) (ctx blk : Nat) : Core :=
  let c := (c.blockTags blk).foldl (fun c t => c.releaseTag ctx t) c
  { c with
    mat := c.mat.filter fun o => !(o.blk == blk && o.usesBlock), q0 := c.q0.filter fun o => !(o.blk == blk && (o.ss || o.ds)),
    copying := c.copying.filter fun o => !(o.blk == blk && (o.ss || o.ds)), q1 := c.q1.filter fun o => !(o.blk == blk && o.ss) }

/-- A RESTART block stops and starts again at ENTRY on its core with its banks. -/
def State.rerunBlock (s : State) (blk : Nat) (b : Block) : State :=
  let wids := (s.warpsOfBlock blk).map (·.1)
  let s := wids.foldl (fun s wid => s.discard wid (-1)) s
  let s := s.modCore b.core fun c =>
    let c := (wids.foldl Core.dropDemands c).dropBlockOps b.ctx blk
    { c.releaseCvs blk with
      acc := b.banksA.foldl zeroBank c.acc,
      leanTo := match c.leanTo with | some w => if wids.contains w then none else some w | none => none }
  s.restartBlock blk

/-- SPAD_ACC_UE. -/
def State.blockError (s : State) (blk : Nat) (acc : Bool) : State :=
  match s.block? blk with
  | none => s
  | some b =>
    let unit := if acc then 7 else 6
    if Rec.restart b.record then (s.rerunBlock blk b).logUe unit 7 b.ctx 0 false else s.contain unit b.ctx 0

def execSpadAccUe (blk : Nat) (acc : Bool) (s : State) : Host.Outcome State Fault Refusal := done (s.blockError blk acc)

/-! ### Macros, caches, TLBs (R405, R411) -/

/-- The operation whose passes go through a macro. -/
def Core.passing (c : Core) (m : Nat) : Option MatOp :=
  c.free.find? fun o => o.begun && o.macros.contains m && (match o.kind with | .mm .. => true | _ => false)

/-- MACRO_PARITY_ERROR: the macro's cells are zero and its groups marked NaN; the operation that passes through it fails with UE
(R411). -/
def State.macroError (s : State) (core m : Nat) : State :=
  let s := s.modCore core fun c =>
    let x := Tab.get c.macros Macro.fresh m
    { c with macros := Tab.upd c.macros m { x with groups := [], ruined := true } }
  match (s.core core).passing m with
  | some o =>
    let s := s.logUe 8 5 o.ctx 0 false
    ((o.cores core).foldl (fun s c => s.modCore c fun k => k.endOp o.opid o.ctx o.tag false) s).deliver o.wid o.wblk
      (namedBy o.tag { cls := .ue, cause := 8, core := some core })
  | none => s.logUe 8 5 0xFFF 0 false

def execMacroParityError (core macro_ : Nat) (s : State) : Host.Outcome State Fault Refusal := done (s.macroError core macro_)

/-- L1_PARITY_ERROR: the line is invalidated and read again (R405). -/
def State.l1Error (s : State) (core line : Nat) (ic : Bool) : State :=
  let s := s.modCore core fun c => if ic then { c with icache := Tab.del c.icache line } else { c with l1 := Tab.del c.l1 line }
  s.logUe 4 1 0xFFF (logLine line) false

def execL1ParityError (core line : Nat) (ic : Bool) (s : State) : Host.Outcome State Fault Refusal := done (s.l1Error core line ic)

/-- TLB_PARITY_ERROR: the entry is dropped, from the core's TLB and its yard's, and the next use walks again (R405). -/
def State.tlbError (s : State) (core ctx page : Nat) : State :=
  let drop := fun (t : Tab DWord) => Tab.keep t fun k _ => !tlbCovers ctx page (page + 1) k
  (((s.modCore core fun c => { c with tlb := drop c.tlb }).modMem fun m =>
    { m with ytlb := Tab.mod m.ytlb (yardId core) drop })).logUe 9 1 ctx 0 false

def execTlbParityError (core ctx page : Nat) (s : State) : Host.Outcome State Fault Refusal := done (s.tlbError core ctx page)

end Sys2Proof.Machine
end

