-- ==== Sys2Proof/Machine/Power.lean ====
section
/-!
DEFINITION. Machine/Power.lean: die buckets and ballast, the ramp governor, yard pairs, intents, the bank monitor, calibration, write
assist and timing replay (spec/13 R374 to R398).
-/

namespace Sys2Proof.Machine

/-! ### The die bucket (R375, R380, R382) -/

/-- The price of a hint's fetch (R368): the slice, DRAM where the slice does not hold the line, and the flits of a home on another
die. -/
def State.hintPrice (s : State) (core key : Nat) : Nat :=
  (if isLocal key && s.inL2 (lineOf key) then 3 else 23) + (if isLocal key && dieOfLpa key != dieOfCore core then 8 else 0)

/-- The oldest hint of a die with its core (R380). -/
def State.oldestHint (s : State) (d : Nat) : Option (Nat × Hint) :=
  (coresOfDie d).foldl (fun b c => match b, (s.core c).hints with
    | none, h :: _ => some (c, h)
    | some x, h :: _ => if h.since < x.2.since then some (c, h) else b
    | b, [] => b) none

/-- Hints fetched as ballast: at most so many, the oldest first, while the overflow pays them. A fetched line fills its home slice,
or this device's L2 copy of a remote line; an address that does not translate, or is poisoned, is dropped (R176, R283, R380). Answers
the overflow left. -/
def State.burnHints (s : State) (d : Nat) : Nat → Int → State × Int
  | 0, excess => (s, excess)
  | n + 1, excess =>
    match s.oldestHint d with
    | none => (s, excess)
    | some (c, h) =>
      let drop := s.modCore c fun k => { k with hints := k.hints.drop 1 }
      match s.place c h.ctx true .read (BitVec.ofNat 64 h.va) with
      | .error _ => drop.burnHints d n excess
      | .ok key =>
        let p : Int := ((s.hintPrice c key * 256 : Nat) : Int)
        if excess < p then (s, excess) else (drop.fillHome (lineOf key)).burnHints d n (excess - p)

/-- Without BAL_CTL.PRFQ the hints of a die are dropped (R381). -/
def State.dropHints (s : State) (d : Nat) : State :=
  if s.ap! offBalCtl % 2 = 1 then s else
  (coresOfDie d).foldl (fun s c => if (s.core c).hints.isEmpty then s else s.modCore c fun k => { k with hints := [] }) s

/-- Yards in the order in which their burn units take overflow: own draw less the partner's, ascending. -/
def Die.burnOrder (x : Die) : List Nat :=
  let tilt : Nat → Int := fun y => ((Tab.get x.draw 0 y : Nat) : Int) - ((Tab.get x.draw 0 (if y % 2 = 0 then y + 1 else y - 1) : Nat) : Int)
  (List.range 12).mergeSort fun a b => decide (tilt a < tilt b ∨ (tilt a = tilt b ∧ a ≤ b))

/-- Burn units take what is left, each up to 920 less its forced burn. Answers the burn by yard and what remains. -/
def Die.burnAll (x : Die) (excess : Int) : Tab Nat × Int :=
  x.burnOrder.foldl (fun (r : Tab Nat × Int) y =>
    let take := min r.2 (((920 - Tab.get x.forced 0 y) * 256 : Nat) : Int)
    if take ≤ 0 then r else (Tab.put 0 r.1 y (Tab.get r.1 0 y + take.toNat), r.2 - take)) (x.burn, excess)

/-- What the optional kinds of ballast leave (R380, R381). -/
def ballastLeft (ctl : Nat) (excess : Int) : Int :=
  let excess := if ctl / 2 % 2 = 1 then max 0 (excess - 600 * 256) else excess
  if ctl / 4 % 2 = 1 then max 0 (excess - 2000 * 256) else excess

/-- The overflow of a die goes to its ballast; what no capacity takes sets BSAT (R380). -/
def State.ballast (s : State) (d : Nat) (excess : Int) : State :=
  let ctl := s.ap! offBalCtl
  let r := if ctl % 2 = 1 then s.burnHints d 4 excess
    else (s, excess)
  let left := ballastLeft ctl r.2
  let b := (r.1.die d).burnAll left
  let s := r.1.modDie d fun x => { x with burn := b.1, spent := x.spent + (excess - b.2).toNat }
  if 0 < b.2 then s.apField (bGov + 0x10) 34 34 1 else s

/-- The refill of a core in this tick: RATE, no more than the governor allows (R373, R382, R393). -/
def State.refillRate (s : State) (d core : Nat) : Nat :=
  match Tab.look (s.die d).throttle core with
  | some n => min n (s.apBits (offTokRate core) 15 0)
  | none => s.apBits (offTokRate core) 15 0

/-- Refills in rotation while the level pays each (R375 step 3). -/
def State.payRefills (s : State) (d : Nat) : State :=
  let rot := (s.die d).rot
  ((List.range 48).map fun i => 48 * d + (rot + i) % 48).foldl (fun s c =>
    let rate := s.refillRate d c
    if (s.die d).level < ((rate : Nat) : Int) then s.modCore c fun k => { k with grant := 0 }
    else (s.modDie d fun x => { x with level := x.level - ((rate : Nat) : Int), paid := x.paid + rate, spent := x.spent + rate }).modCore c fun k =>
      { k with grant := rate }) s

/-- DIE_BUCKET_CYCLE: %clk counts, the share comes in, home steps and forced burn go out, then refills, then overflow (R31, R375). -/
def State.dieCycle (s : State) (d : Nat) : State :=
  let s := s.modDie d fun x =>
    let home := 256 * (x.owed + x.forced.foldl (fun n e => n + e.2) 0)
    { x with
      clk := x.clk + 1, level := x.level + ((x.share : Nat) : Int) - ((home : Nat) : Int), paid := x.paid + home, spent := x.spent + home,
      owed := 0, burn := x.forced.foldl (fun t e => Tab.put 0 t e.1 (Tab.get t 0 e.1 + 256 * e.2)) x.burn, rot := (x.rot + 1) % 48 }
  let s := if (s.die d).low then s else s.payRefills d
  let cap : Int := ((256 * s.apBits (offDieGov d) 15 0 : Nat) : Int)
  let excess := (s.die d).level - cap
  let s := if 0 < excess then (s.modDie d fun x => { x with level := cap }).ballast d excess else s
  (s.dropHints d).feedTick d

def execDieBucketCycle (die : Nat) (s : State) : Host.Outcome State Fault Refusal := done (s.dieCycle die)

/-! ### Conversions (R377, R391, R394) -/

/-- CCLK in MHz as the governor counts it (R377, R441). -/
def State.cclk (s : State) : Nat := if dieList.any fun d => s.service d = 2 then 1600 else 800

def State.ept (s : State) : Nat := s.apBits offGovCal 63 48
def State.pIdle (s : State) : Nat := s.apBits offGovCal 47 32

/-- GUARD, wider by 12 after three windows without a value (R396). -/
def State.guardBand (s : State) : Nat := s.apBits offGovCal 23 16 + (if 3 ≤ s.dev.missed then 12 else 0)

/-- A quotient by EPT; with EPT 0 the spec gives no value, and it is free (log entry 79). -/
def State.byEpt (s : State) (n d : Nat) : Nat := if s.ept = 0 then (Config.freeWord s.own.freeCount 0x394).toNat else n / d

/-- Watts as tokens per cycle under the guard band. -/
def State.tokensOf (s : State) (watts : Nat) : Nat := s.byEpt (watts * 10 ^ 6 * 256 * 100) (s.ept * s.cclk * (100 + s.guardBand))

def State.floors (s : State) : Nat := (List.range 8).foldl (fun n p => n + s.apBits (offGovFloor p) 15 0) 0
def State.ceff (s : State) : Nat := max (s.apBits offGovCap 15 0) (s.pIdle + s.floors)

/-- SC: the static part, rounded up (R394). -/
def State.static (s : State) : Nat :=
  let n := s.pIdle * 10 ^ 6 * 256
  let k := s.ept * s.cclk
  s.byEpt (n + k - 1) k

/-! ### Demand (R377, R392) -/

/-- The context and price of a queued demand. -/
def State.demandOf (s : State) (core : Nat) (q : Demand) : Nat × Nat :=
  match q with
  | .issue wid p | .step wid _ p => (match s.warp? wid with | some w => w.ctx | none => 0, p)
  | .engine 0 p n => (match (s.core core).op? n with | some o => o.ctx | none => 0, p)
  | .engine 1 p _ => (match (s.core core).copying.find? fun o => (nextDue o.due).isSome with | some o => o.ctx | none => 0, p)
  | .engine _ p _ => (match s.collDue core with | some x => x.2 | none => 0, p)

/-- Tokens queued on a die, of one partition or of all. -/
def State.queued (s : State) (d : Nat) (part : Option Nat) : Nat :=
  (coresOfDie d).foldl (fun n c => (s.core c).queue.foldl (fun n q =>
    let x := s.demandOf c q
    match part with
    | some p => if s.partOf x.1 = p then n + x.2 else n
    | none => n + x.2) n) 0

/-- Tokens that a partition's warps and operations drew on a die in the tick. -/
def State.drew (s : State) (d part : Nat) : Nat := (coresOfDie d).foldl (fun n c => n + Tab.get (s.core c).drawn 0 part) 0

/-- Demand of a partition on a die, tokens per cycle in 8.8: what it drew, and 1/16 of what it has queued. -/
def State.partDemand (s : State) (d part : Nat) : Nat := 256 * s.drew d part / s.mhz d + 16 * s.queued d (some part)

/-- DEM: SC and every die's paid tokens and backlog, 8.8. -/
def State.demand (s : State) : Nat :=
  256 * s.static + dieList.foldl (fun n d => n + (s.die d).paid / s.mhz d + 16 * s.queued d none) 0

/-! ### Intents (R385, R386) -/

/-- How much earlier the device starts for a job intent. -/
def State.stagger (s : State) : Nat :=
  (s.apBits offGovJob 41 32 - 1 - (s.devId - s.apBits offGovJob 61 52)) * s.apBits offGovJob 15 0

/-- Every intent of the package as rate and due time. -/
def State.allIntents (s : State) : List (Nat × Int) :=
  let at_ : Intent → Nat × Int := fun i => (i.rate, (i.due : Int) - (if i.job then ((s.stagger : Nat) : Int) else 0))
  s.cores.flatMap (fun c => c.2.intents.map fun e => at_ e.2) ++ (match s.dev.jobIntent with | some i => [at_ i] | none => [])

/-- IFLOOR at this tick, 8.8. -/
def State.intentFloor (s : State) : Nat :=
  let all := s.allIntents
  let slew := s.apBits (bGov + 8) 15 0
  all.foldl (fun n i =>
    let pkg := 256 * s.static + all.foldl (fun m j => if j.2 ≤ i.2 then m + j.1 else m) 0
    if (s.dev.pr : Int) + 256 * (slew : Int) * (i.2 - (s.dev.micros : Int) - 1) < (pkg : Int) then n + i.1 else n) (256 * s.static)

/-- INTENT_LAPSE: 100 µs after t_due (R385). -/
def State.lapseIntent (s : State) (core ctx : Nat) : State :=
  match Tab.look (s.core core).intents ctx with
  | some i => if s.dev.micros < i.due + 100 then s else s.modCore core fun c => { c with intents := Tab.del c.intents ctx }
  | none => s

def execIntentLapse (core ctx : Nat) (s : State) : Host.Outcome State Fault Refusal := done (s.lapseIntent core ctx)

/-! ### Shares (R392, R393) -/

/-- What each partition gets of the dynamic part, 8.8: its floor first, then the rest in proportion to what is unmet. -/
def partShares (dynamic : Nat) (dem floor : Nat → Nat) : List Nat :=
  let parts := List.range 8
  let base := parts.foldl (fun (r : List Nat × Nat) p =>
    let g := min (min (dem p) (256 * floor p)) r.2
    (r.1 ++ [g], r.2 - g)) ([], dynamic)
  let unmet : Nat → Nat := fun p => dem p - base.1.getD p 0
  let total := parts.foldl (fun n p => n + unmet p) 0
  parts.map fun p => base.1.getD p 0 + (if total = 0 then 0 else base.2 * unmet p / total)

/-- Die shares: each partition's share by its demand on each die; what is left goes to the dies evenly. -/
def dieShares (dynamic : Nat) (give dem : Nat → Nat) (on : Nat → Nat → Nat) : List Nat :=
  let base := dieList.map fun d => (List.range 8).foldl (fun n p => if dem p = 0 then n else n + give p * on d p / dem p) 0
  let left := dynamic - base.foldl (· + ·) 0
  dieList.map fun d => base.getD d 0 + left / 4 + (if d = 3 then left % 4 else 0)

/-- The refill that partitions leave a core, where several drew on it in the tick. -/
def State.partLimit (s : State) (core : Nat) (give dem : Nat → Nat) : Option Nat :=
  let drawn := (s.core core).drawn
  if drawn.length < 2 then none else
  let total := drawn.foldl (fun n e => n + e.2) 0
  let got := drawn.foldl (fun n e => n + e.2 * (if dem e.1 ≤ give e.1 then 2 ^ 16 else 2 ^ 16 * give e.1 / dem e.1)) 0
  some (s.apBits (offTokRate core) 15 0 * got / (total * 2 ^ 16))

/-! ### Yard pairs (R382, R383) -/

/-- Draw of a yard over the tick, in 1/256 tokens. -/
def State.yardDraw (s : State) (d y : Nat) : Nat :=
  256 * ((List.range 4).foldl (fun n i => (s.core (48 * d + 4 * y + i)).drawn.foldl (fun n e => n + e.2) n) 0 + Tab.get (s.die d).homes 0 y)
    + Tab.get (s.die d).burn 0 y

/-- What a pair's balance sets for the next tick: forced burn of the lighter yard, and a limit for the heavier yard's cores. -/
structure PairAct where
  light : Nat
  burn : Nat
  limit : Option (Nat → Nat)

def pairAct (y lo up cycles : Nat) : Option PairAct :=
  let h := max lo up
  let l := min lo up
  if 10 * (h - l) ≤ h then none else
  let need := (9 * h - 10 * l + 10 * 256 * cycles - 1) / (10 * 256 * cycles)
  some { light := if lo ≤ up then y else y + 1, burn := min need 920,
         limit := if need ≤ 920 then none else some fun rate => rate * (10 * (l + 920 * 256 * cycles)) / (9 * h) }

/-- A core's limit is the lower of two. -/
def minLimit (t : Tab Nat) (core : Nat) (n : Nat) : Tab Nat :=
  Tab.upd t core (match Tab.look t core with | some m => min m n | none => n)

/-- One pair of a die at the end of a tick. -/
def State.balance (s : State) (d p : Nat) : State :=
  let lo := s.yardDraw d (2 * p)
  let up := s.yardDraw d (2 * p + 1)
  let cycles := s.mhz d
  let reg := offDieGov d + 0x40 + 8 * p
  let s := (s.apField reg 47 32 (lo / (256 * cycles))).apField reg 63 48 (up / (256 * cycles))
  match pairAct (2 * p) lo up cycles with
  | none => s
  | some a =>
    let s := (s.apField reg 14 14 1).modDie d fun x => { x with forced := Tab.put 0 x.forced a.light a.burn }
    match a.limit with
    | none => s
    | some f =>
      let heavy := if a.light % 2 = 0 then a.light + 1 else a.light - 1
      let cores := (List.range 4).map (48 * d + 4 * heavy + ·)
      (s.apField reg 15 15 1).modDie d fun x =>
        { x with throttle := cores.foldl (fun t c => minLimit t c (f (s.apBits (offTokRate c) 15 0))) x.throttle }

/-! ### The governor's tick (R374, R377, R379) -/

/-- PR for the next tick, 8.8. -/
def nextPr (pr tg slew sc : Nat) : Nat :=
  let step := min (max ((tg : Int) - (pr : Int)) (-(slew : Int))) (slew : Int)
  max ((pr : Int) + step).toNat sc

/-- GOV_STAT, and 0xF2 where UNREACH rises (R379, R391). -/
def State.govStat (s : State) (ct : Nat) : State :=
  let reg := bGov + 0x10
  let unreach : Bool := decide (s.apBits offGovCap 15 0 < s.pIdle + s.floors)
  let s := if unreach && s.apBits reg 32 32 = 0 then s.irq 0xF2 else s
  let s := (s.apField reg 32 32 (if unreach then 1 else 0)).apField reg 33 33 (if 256 * ct < s.dev.pr then 1 else 0)
  (s.apField reg 31 16 s.ceff).apField reg 15 0 (s.dev.pr / 256)

/-- Limits and forced burn for the next tick, from the draws of this one. -/
def State.nextLimits (s : State) (d : Nat) (give dem : Nat → Nat) : State :=
  let limits := (coresOfDie d).foldl (fun t c => match s.partLimit c give dem with
    | some n => minLimit t c n
    | none => t) []
  let draws := (List.range 12).foldl (fun t y => Tab.put 0 t y (s.yardDraw d y)) []
  let s := s.modDie d fun x => { x with throttle := limits, forced := [] }
  let s := (List.range 6).foldl (fun s p => s.balance d p) s
  let s := (coresOfDie d).foldl (fun s c => if (s.core c).drawn.isEmpty then s else s.modCore c fun k => { k with drawn := [] }) s
  s.modDie d fun x => { x with draw := draws, homes := [], burn := [], paid := 0, spent := 0 }

/-- PR, shares and limits of a tick. -/
def State.govern (s : State) : State :=
  let sc := 256 * s.static
  let ct := s.tokensOf s.ceff
  let tg := min (max (max s.demand sc) s.intentFloor) (256 * ct)
  let pr := nextPr s.dev.pr tg (256 * s.apBits (bGov + 8) 15 0) sc
  let dem : Nat → Nat := fun p => dieList.foldl (fun n d => n + s.partDemand d p) 0
  let give : Nat → Nat := fun p => (partShares (pr - sc) dem (fun q => s.tokensOf (s.apBits (offGovFloor q) 15 0))).getD p 0
  let shares := dieShares (pr - sc) give dem s.partDemand
  let tokens := dieList.foldl (fun n d => n + (s.die d).spent) (sc * s.cclk)
  let s := s.modDev fun v => { v with pr := pr, sc := s.static, ct := ct, drawn := v.drawn + tokens }
  let s := dieList.foldl (fun s d => (s.nextLimits d give dem).modDie d fun x => { x with share := shares.getD d 0 }) s
  s.govStat ct

/-- GOV_TICK: a microsecond has passed; the governor works once the configuration is applied (R374, R379). -/
def State.tickMicro (s : State) : State :=
  let s := s.modDev fun v =>
    { v with micros := v.micros + 1, jobIntent := v.jobIntent.filter fun i => decide (v.micros + 1 < i.due + 100) }
  if s.apBits offBootStat 28 28 = 1 then s.govern else s

def execGovTick (s : State) : Host.Outcome State Fault Refusal := done s.tickMicro

/-! ### Calibration (R394 to R396) -/

/-- EPT after a window in which the package drew P_m, 8.8. With no token drawn the quotient is free (log entry 79). -/
def State.nextEpt (s : State) (pm : Nat) : Nat :=
  let e := if s.dev.drawn = 0 then (Config.freeWord s.own.freeCount 0x395).toNat else pm * 10 ^ 9 * 256 * 256 / (s.dev.drawn * s.cclk)
  (3 * s.ept + min (max e (16 * 256)) (64 * 256)) / 4

/-- EPT_CALIBRATION: at the end of a 1 ms window, with the power that PMBus reports, or none. -/
def State.calibrate (s : State) (pm : Option Nat) : State :=
  if s.apBits offGovCal 0 0 = 1 then s.modDev fun v => { v with drawn := 0 } else
  match pm with
  | none => s.modDev fun v => { v with missed := v.missed + 1, drawn := 0 }
  | some p => (s.apField offGovCal 63 48 (s.nextEpt p)).modDev fun v => { v with missed := 0, drawn := 0 }

def execEptCalibration (pm : Option Nat) (s : State) : Host.Outcome State Fault Refusal := done (s.calibrate pm)

/-! ### Bank monitor, write assist, replays (R388, R389, R397, R398) -/

/-- Refill stops at a sample below the floor, and resumes at the first one above it (R389). -/
def bankLow (was : Bool) (vbank floor : Nat) : Bool := if vbank < floor then true else if floor < vbank then false else was

/-- BANK_MONITOR_SAMPLE: %charge and %vbank of a die; below the bank floor its refills stop (R389). -/
def execBankMonitorSample (die : Nat) (charge : BitVec 32) (vbank : BitVec 16) (s : State) : Host.Outcome State Fault Refusal :=
  done (s.modDie die fun x => { x with charge := charge, vbank := vbank.setWidth 32, low := bankLow x.low vbank.toNat s.dev.floor })

/-- WRITE_ASSIST_CHANGE: a yard's sensor reads `mv` mV: below 620 its SRAM enters write-assist, at 640 or above it leaves (R397). -/
def State.assistChange (s : State) (d yard mv : Nat) : State :=
  (List.range 4).foldl (fun s i => s.modCore (48 * d + 4 * yard + i) fun c =>
    { c with assist := if mv < 620 then true else if 640 ≤ mv then false else c.assist }) s

def execWriteAssistChange (die yard mv : Nat) (s : State) : Host.Outcome State Fault Refusal := done (s.assistChange die yard mv)

/-- SHADOW_LATCH_REPLAY: %replays + 1 (R398). -/
def execShadowLatchReplay (core : Nat) (s : State) : Host.Outcome State Fault Refusal :=
  done (s.modCore core fun c => { c with replays := c.replays + 1 })

end Sys2Proof.Machine
end

