-- ==== Sys2Proof/Machine/Bringup.lean ====
section
/-!
DEFINITION. Machine/Bringup.lean: boot, training, service cores, and the writes of aperture registers that have rows of their own
(spec/00 R9; spec/10 R310; spec/11 R314, R315; spec/14 R413, R422 to R425; spec/15 R428 to R442). A row for a register writes the
whole register by the register's own rules (Machine/Aperture.lean).
-/

namespace Sys2Proof.Machine

/-- A write of all n bytes of a register. -/
def State.apWord (s : State) (who : Writer) (off n v : Nat) : State := s.apWrite who off n v (4 ^ n - 1)

/-! ### Power-good (R430 to R433) -/

namespace Cfg
def writes (c : List Byte) : Nat := leAt c 4 4
def floor (c : List Byte) : Nat := leAt c 8 8
def entry (c : List Byte) (i : Nat) : Nat × Nat := (leAt c (0x10 + 16 * i) 8, leAt c (0x18 + 16 * i) 8)
def entries (c : List Byte) : List (Nat × Nat) := (List.range (writes c)).map (entry c)
def key (c : List Byte) : List Byte := (c.drop (0x10 + 16 * writes c)).take 97
/-- The layout of R433: magic, N, length, and every entry inside the aperture of 64 MiB. -/
def ok (c : List Byte) : Bool :=
  leAt c 0 4 == 0x4B434647 && writes c ≤ 4096 && c.length == 0x10 + 16 * writes c + 97 + 96
    && (entries c).all fun e => decide (e.1 < 2 ^ 26)
/-- The signature of the last 96 bytes, over every byte before them, verifies under the image's own key (R433). -/
def verified (c : List Byte) : Bool := Ecdsa.verify (key c) (c.take (c.length - 96)) (c.drop (c.length - 96))
end Cfg

/-- One write of the configuration image: the register at the offset takes the value. -/
def State.configWrite (s : State) (e : Nat × Nat) : State :=
  match regAt e.1 with
  | some r => s.apWord .config e.1 (if r.base = e.1 then r.bytes else 8) e.2
  | none => s

/-- An image goes to a service core's SRAM from offset 0, and the core starts there (R427, R430). -/
def State.startService (s : State) (n : Nat) (image : List Byte) : State :=
  let bytes := image.take (2 ^ 18)
  let s := s.modMem fun m => bytes.zipIdx.foldl (fun m b => m.setByte (keySram n b.2) b.1) m
  s.setWarp (64 * (192 + n)) { Warp.start 0 0 0 .s 512 0 with exited := 0xFFFFFFFE }

/-- Boot has failed in steps 1 to 3: the package controller stays halted, and no die serves (R430). -/
def State.bootFailed (s : State) : State := s.apField offBootStat 27 27 1

/-- An image is measured, over exactly the bytes that are loaded (R431), and its service core starts. -/
def State.measureStart (s : State) (i n : Nat) (image : List Byte) : State :=
  (s.extendMeas i (Sha.sha384 (image.take (2 ^ 18)))).startService n image

/-- Step 2 of R430: the measurements of a configuration image, and its writes. -/
def State.configure (s : State) (cfg : List Byte) : State :=
  let s := (s.extendMeas 1 (Sha.sha384 (Cfg.key cfg))).extendMeas 0 (Sha.sha384 cfg)
  let s := (Cfg.entries cfg).foldl State.configWrite s
  (s.apField offBootStat 28 28 1).modDev fun v => { v with floor := Cfg.floor cfg }

/-- Steps 3 and 4 of R430. -/
def State.startImages (s : State) (pc : List Byte) (svc : List (List Byte)) : State :=
  let s := (s.measureStart 2 4 pc).modDev fun v => { v with booted := true }
  let s := (svc.take 4).zipIdx.foldl (fun s x => s.measureStart (3 + x.2) x.2 x.1) s
  s.apField offBootStat 30 30 1

/-- POWER_GOOD_BOOT: every register and memory is at reset, but for the lines' versions, which training clears (R298); then steps 1 to 4 of R430. `flash` says whether the ROM can read the flash
directory (step 1); a package controller image that holds no byte cannot be started (step 3). -/
def State.powerGood (s : State) (cfg pc : List Byte) (svc : List (List Byte)) (flash : Bool) : State :=
  let s := { State.reset with own := s.own, mem := { Mem.fresh with ver := s.mem.ver } }
  if !flash || !Cfg.ok cfg || !Cfg.verified cfg then s.bootFailed
  else if pc.isEmpty then (s.configure cfg).bootFailed
  else (s.configure cfg).startImages pc svc

def execPowerGoodBoot (cfg pc : List Byte) (svc : List (List Byte)) (flash : Bool) (s : State) : Host.Outcome State Fault Refusal :=
  done (s.powerGood cfg pc svc flash)

/-- BOOT_RUN_SET (R440, R442). -/
def execBootRunSet (s : State) : Host.Outcome State Fault Refusal := done s.bootRun

/-! ### DRAM training (R439) -/

def execMemTrainStep (die : Nat) (v : BitVec 32) (s : State) : Host.Outcome State Fault Refusal :=
  done (s.apWord (.svc die) (offMemCtl die) 4 v.toNat)

/-- Every line of a die's DRAM is zero with version 0, and nothing is poisoned. -/
def Mem.clearDie (m : Mem) (d : Nat) : Mem :=
  let out : Nat → Bool := fun key => !(isLocal key && dieOfLpa key == d)
  { m with
    bytes := Tab.keep m.bytes (fun k _ => out k), ver := Tab.keep m.ver (fun l _ => out (l * 128)),
    poison := m.poison.filter (fun l => out (l * 128)), dirty := Tab.keep m.dirty (fun l _ => out (l * 128)) }

/-- MEM_TRAIN_STEP_DONE: the running step ends; it passes where all 16 layers pass. -/
def State.trainDone (s : State) (d : Nat) (layers : BitVec 16) : State :=
  let reg := offMemStat d
  if s.apBits reg 29 29 = 0 then s else
  let step := (s.die d).step
  let s := ((s.apField reg 29 29 0).apField reg 31 31 1).apField reg 15 0 layers.toNat
  let s := (s.modDie d fun x => { x with step := 0 }).ring d 2
  if layers ≠ 0xFFFF then s.apField reg 30 30 1
  else
    let s := s.apField reg 19 16 (max step (s.apBits reg 19 16))
    if step = 6 then (s.modMem fun m => m.clearDie d).serve else s

def execMemTrainStepDone (die : Nat) (layers : BitVec 16) (s : State) : Host.Outcome State Fault Refusal := done (s.trainDone die layers)

/-! ### Ports and links (R435 to R438) -/

def execFptTrainStart (fab : Bool) (port : Nat) (v : BitVec 32) (s : State) : Host.Outcome State Fault Refusal :=
  done (s.apWord (.svc (svcOfPort fab port)) (offPort fab port) 4 v.toNat)
def execFptPortOff (fab : Bool) (port : Nat) (v : BitVec 32) (s : State) : Host.Outcome State Fault Refusal :=
  done (s.apWord (.svc (svcOfPort fab port)) (offPort fab port) 4 v.toNat)

/-- Lanes of a mask of eight. -/
def laneCount (m : BitVec 8) : Nat := ((List.range 8).filter fun i => m.getLsbD i).length

/-- Coefficients of a port's lanes: MODE 1 takes those stored, where some are; full equalisation finds new ones, a free value, and stores
them (R437). -/
def State.tune (s : State) (fab : Bool) (p : Nat) : State :=
  let k := if fab then p else 64 + p
  match (if s.apBits (offPort fab p) 9 8 = 1 then Tab.look s.dev.coef k else none) with
  | some c => s.modDev fun v => { v with tuned := Tab.upd v.tuned k c }
  | none =>
    let c := (Config.freeWord s.own.freeCount 0x437).toNat
    s.modDev fun v => { v with coef := Tab.upd v.coef k c, tuned := Tab.upd v.tuned k c }

/-- Lanes that equalise count among those to train (R436). -/
def State.equalised (s : State) (fab : Bool) (p : Nat) (lgood : BitVec 8) : State :=
  let o := offPort fab p
  let good := lgood &&& BitVec.ofNat 8 (s.apBits o 7 0)
  let s := s.apField (o + 8) 15 8 good.toNat
  if laneCount good < 4 then s.portFailed fab p 2
  else (s.apField (o + 8) 27 24 3).tune fab p

/-- The identity exchange: a fabric port sends the device's own id, and takes the peer's (R434, R435). -/
def State.identified (s : State) (fab : Bool) (p pdev pport : Nat) : State :=
  let o := offPort fab p
  let s := if fab then s.send (.identity p s.devId) else s
  if fab && 640 ≤ pdev then s.portFailed fab p 3
  else (s.apSet (o + 0x10) (2 ^ 31 + pport % 64 * 2 ^ 10 + (if fab then pdev % 1024 else 0))).apField (o + 8) 27 24 4

/-- The port is up: DONE, UP, the door of the core that trained it, and the service states (R429, R430, R436, R438). -/
def State.portUp (s : State) (fab : Bool) (p : Nat) : State :=
  let o := offPort fab p + 8
  let s := ((s.apField o 31 31 1).apField o 30 30 1).apField o 27 24 5
  ((if fab then s else s.fclStat).ring (svcOfPort fab p) 2).serve

/-- FPT_TRAINING_PROGRESS: the next state of a port in training; `late` says that its 100 ms have passed (R435, R436). -/
def State.trainNext (s : State) (fab : Bool) (p : Nat) (ok : Bool) (lgood : BitVec 8) (pdev pport : Nat) (late : Bool) : State :=
  let st := s.portState fab p
  if st = 0 || 5 ≤ st then s
  else if late then s.portFailed fab p 5
  else if st = 1 then (if ok then s.apField (offPort fab p + 8) 27 24 2 else s.portFailed fab p 1)
  else if st = 2 then s.equalised fab p lgood
  else if st = 3 then s.identified fab p pdev pport
  else if ok then s.portUp fab p else s.portFailed fab p 4

def execFptTrainingProgress (fab : Bool) (port : Nat) (ok : Bool) (lgood : BitVec 8) (pdev pport : Nat) (late : Bool) (s : State) :
    Host.Outcome State Fault Refusal :=
  done (s.trainNext fab port ok lgood pdev pport late)

/-! ### Service cores (R109, R429) -/

/-- A halted service core continues when a bit of its SVC_DOOR is 1. -/
def State.tryHalt (s : State) (wid : Nat) (b : Blocked) : State := if s.ap! (offDoor (svcOf (coreOf wid))) = 0 then s else s.pass wid b

def isHalt : Wait → Bool | .halt => true | _ => false

/-- HALT_WAKE. -/
def State.haltWake (s : State) (n : Nat) : State := s.tryWaiters (s.warpsOfCore (192 + n)) isHalt State.tryHalt

def execHaltWake (n : Nat) (s : State) : Host.Outcome State Fault Refusal := done (s.haltWake n)

/-- SVC_DOOR_WRITE. -/
def execSvcDoorWrite (n : Nat) (host : Bool) (v : BitVec 32) (s : State) : Host.Outcome State Fault Refusal :=
  done ((s.apWord (if host then .host else .svc n) (offDoor n) 4 v.toNat).soon [.event (.haltWake n)])

/-- SVC_TICK. -/
def execSvcTick (s : State) : Host.Outcome State Fault Refusal :=
  done (((List.range 5).foldl (fun s n => s.ring n 0) s).soon ((List.range 5).map fun n => .event (.haltWake n)))

/-! ### Registers (R9, R310, R314, R315, R413, R422 to R425, R432) -/

def execRegisterWrite (who : Writer) (off bytes : Nat) (v : BitVec 64) (s : State) : Host.Outcome State Fault Refusal :=
  done (s.apWord who off bytes v.toNat)
def execMmuInvalidate (v : BitVec 32) (s : State) : Host.Outcome State Fault Refusal := done (s.apWord .host offInvCtl 4 v.toNat)

/-- A held operation that used a translation: one on global memory or on a register. -/
def Held.translated : Held → Bool
  | .byte sp _ _ _ _ => sp == .g
  | _ => true

/-- A context has accesses that are translated and not yet performed: held in a region, appends still to come, or atomics that wait for their line
(R310). -/
def State.unperformed (s : State) (ctx : Nat) : Bool :=
  (s.warpsOfCtx ctx).any fun e => e.2.rsb.any Held.translated || e.2.appends.isSome
    || e.2.blocked.any fun b => match b.what with | .ratm _ none => true | _ => false

/-- MMU_INVALIDATE_DONE: no TLB holds a translation in the range, and BUSY returns to 0 once every access that used an old translation
has performed (R310; log entry 90). -/
def State.invalDone (s : State) : State :=
  match s.dev.inval with
  | none => s
  | some i =>
    if s.unperformed i.ctx then s else ((s.dropTlb i).apField offInvCtl 30 30 0).modDev fun v => { v with inval := none }

def execMmuInvalidateDone (s : State) : Host.Outcome State Fault Refusal := done s.invalDone
def execPgretRelease (i : Nat) (s : State) : Host.Outcome State Fault Refusal := done (s.pgretRelease i)
def execFltKill (v : BitVec 32) (s : State) : Host.Outcome State Fault Refusal := done (s.apWord .host offFltKill 4 v.toNat)

/-- TERMINATION_COMPLETE (R425). -/
def execTerminationComplete (s : State) : Host.Outcome State Fault Refusal :=
  done (if s.apBits offFltKill 30 30 = 1 then s.killDone else s)

/-- DEBUG_STOP and DEBUG_RESTART: STOP is written 1 or 0 (R422). -/
def execDebugStop (s : State) : Host.Outcome State Fault Refusal :=
  done (if s.apBits offDbgCtl 62 62 = 1 then s else s.debugStop)
def execDebugRestart (s : State) : Host.Outcome State Fault Refusal :=
  done s.debugRestart
def execDebugStopComplete (s : State) : Host.Outcome State Fault Refusal := done s.debugStopComplete
def execDbgRegw (v : BitVec 64) (s : State) : Host.Outcome State Fault Refusal := done (s.apWord .host offDbgRegw 8 v.toNat)

/-- LOAD_COMPLETION: the load is no longer outstanding; a write of the debugger that waits for it follows (R26, R423). -/
def State.loadDone (s : State) (wid reg : Nat) : State :=
  let s := s.modWarp wid fun w => { w with loads := Tab.del w.loads reg }
  if s.apBits offDbgRegw 62 62 = 1 then s.debugWrite else s

def execLoadCompletion (wid reg : Nat) (s : State) : Host.Outcome State Fault Refusal := done (s.loadDone wid reg)

def execMeasExtend (who : Writer) (v : BitVec 32) (s : State) : Host.Outcome State Fault Refusal := done (s.apWord who offMeasCmd 4 v.toNat)
def execMeasExtendDone (s : State) : Host.Outcome State Fault Refusal := done s.measDone
def execLqTailWrite (q : Nat) (v : BitVec 32) (s : State) : Host.Outcome State Fault Refusal := done (s.apWord .host (offLqTail q) 4 v.toNat)
def execLqCfgWrite (q : Nat) (v : BitVec 32) (s : State) : Host.Outcome State Fault Refusal := done (s.apWord .host (offLqCfg q) 4 v.toNat)
def execPhsCtxWrite (die : Nat) (v : BitVec 32) (s : State) : Host.Outcome State Fault Refusal := done (s.apWord .host (offPhsCtx die) 4 v.toNat)

end Sys2Proof.Machine
end

