-- ==== Sys2Proof/Machine/Fetch.lean ====
section
/-!
DEFINITION. Machine/Fetch.lean: fetching the instruction of the current warp's issuing group in the order of R48 (spec/01 R14, R27,
R29; spec/02 R48; spec/15 R427).
-/

namespace Sys2Proof.Machine

/-- What the instruction cache is asked for when a line is looked up (log entry 6). -/
def codeAsk (key : Nat) : Nat := 2 ^ 80 + lineOf key

/-- An instruction byte: from the instruction cache while it holds its line, which does not observe stores (R29); else from the
level behind it. A service core fetches from its SRAM and the ranges of R427. -/
def State.codeByte (s : State) (core key : Nat) : Byte :=
  if isAp key then s.apByte (key - keyAp 0)
  else if isSram key then s.mem.byte key
  else match Tab.look (s.core core).icache (lineOf key) with
    | some l => if Config.keeps s.own.freeCount (codeAsk key) then l.data.getD (key % 128) 0 else s.beyondL1 key
    | none => s.beyondL1 key

def State.codeNum (s : State) (core key : Nat) : Nat := leNat ((List.range 4).map fun i => s.codeByte core (key + i))

/-- Whether a fetch reads the key from the instruction cache, or from a service core's own ranges (R29, R427). -/
def State.codeHeld (s : State) (core key : Nat) : Bool :=
  isAp key || isSram key || (Tab.look (s.core core).icache (lineOf key)).isSome && Config.keeps s.own.freeCount (codeAsk key)

/-- The word at an address, and its key (R27). -/
def State.codeWord (s : State) (core : Nat) (w : Warp) (va : DWord) : Except Miss (Nat × Nat) :=
  match s.place core w.ctx w.priv .fetch va with
  | .error m => .error m
  | .ok key => match (if s.codeHeld core key then none else s.upsetTrap key 4 va) with
    | some t => .error t
    | none => .ok (key, s.codeNum core key)

/-- The words behind word 0, or the first that does not translate (R48 check 3). -/
def State.codeWords (s : State) (core : Nat) (w : Warp) (va : DWord) : Nat → Except Miss (List (Nat × Nat))
  | 0 => .ok []
  | n + 1 =>
    match s.codeWord core w va with
    | .error m => .error m
    | .ok x =>
      match s.codeWords core w (va + 4) n with
      | .error m => .error m
      | .ok r => .ok (x :: r)

/-- The instruction cache takes the line of a word it did not hold, read at its home (R29, R368). -/
def State.fillCode (s : State) (core key : Nat) : State :=
  if s.codeHeld core key then s else
  let line := lineOf key
  let data := (List.range 128).map (fun i => s.beyondL1 (line * 128 + i))
  (s.homeLine core line).modCore core fun c => { c with icache := Tab.keepTo 1024 (s.victim line) c.icache line { data := data, valid := 0xFFFFFFFF, owned := 0 } }

/-- What a fetch ends in: an instruction to run, or a state in which a trap of the fetch has been taken or nothing can issue. -/
inductive Fetched where
  | run (i : Instr) (s : State)
  | stop (s : State)

/-- The special-register number that decides the level of `gsr` and `ssr` (R31). -/
def srField (r : Raw) : Nat := if r.op = 0x0E then r.a else r.d

/-- A fetch that does not translate traps before any check of the instruction (R27, R48); one whose table line is away is tried again when
that is back (R282). -/
def State.fetchMiss (s : State) (m : Miss) (g : Word) (pc : DWord) : State :=
  match m.wait with
  | some line => s.askBack [line]
  | none =>
    if m.cls = .ue then s.needing s.cur { t := m, lanes := g, pc := pc, done := false } else s.discardTrap s.cur m g pc

/-- FETCH for the current warp: word 0, the checks of OP and LEN, the level, then the other words (R48 checks 1 to 3). -/
def State.fetch (s : State) : Fetched :=
  match s.warp? s.cur with
  | none => .stop s
  | some w =>
    let g := w.group
    if g = 0 then .stop s else
    match s.workOf w with
    | some k => .stop (s.routineIssue s.cur w k)
    | none =>
    let core := coreOf s.cur
    let pc := w.leastPc g
    match s.codeWord core w pc with
    | .error m => .stop (s.fetchMiss m g pc)
    | .ok (key, w0) =>
      let r := rawOfWord0 w0
      if opForms r.op = [] || !formOk r.op r.len then .run .illegalEncoding s else
      match levelTrap (opLevel r.op (srField r)) w.level with
      | some cls => .stop (s.discardTrap s.cur { cls := cls } g pc)
      | none =>
        match s.codeWords core w (pc + 4) (lenWords r.len - 1) with
        | .error m => .stop (s.fetchMiss m g pc)
        | .ok ws =>
          let s := ((key, w0) :: ws).foldl (fun s x => s.fillCode core x.1) (s.fillTlb core w.ctx pc)
          let s := if isService core then s else (s.inject [9] 0 w.ctx).inject [4] (logLine (lineOf key)) (s.mem.ownerOf (lineOf key))
          match decodeWords (w0 :: ws.map (·.2)) with
          | .ok (i, _) => .run i s
          | .error _ => .run .illegalEncoding s

/-- One step has been taken: the free values move on (log entry 11). -/
def State.tick (s : State) : State := { s with own := { s.own with freeCount := s.own.freeCount + 1 } }

/-! ### Placing one instruction where the next step fetches (log entry 2) -/

/-- A page-table entry of a next level, and the leaf of a page with R, W and X. -/
def tableEntry (pfn : Nat) : Nat := 1 + pfn * 65536
def leafEntry (pfn : Nat) : Nat := 0x3B + pfn * 65536

/-- Context 1 with virtual page 0 on page 5 of die 0, through tables on pages 1 to 4. -/
def State.withTables (s : State) : State :=
  let s := s.apSet (offMmuRoot 1) (1 + 65536)
  s.modMem fun m =>
    (((m.setNum 0x10000 8 (tableEntry 2)).setNum 0x20000 8 (tableEntry 3)).setNum 0x30000 8 (tableEntry 4)).setNum 0x40000 8 (leafEntry 5)

/-- The words of an instruction, its bits above `nbits` zero, up to five words, at a home key. -/
def State.withCode (s : State) (key nbits w : Nat) : State := s.modMem fun m => m.setNum key 20 (w % 2 ^ nbits)

/-- A warp alone on compute core 0 of die 0 in full service, its bucket full, at address 0x1000 of context 1. -/
def State.withCompute (s : State) (level : Level) (nbits w : Nat) : State :=
  let s := ((s.setService 0 2).withTables).withCode 0x51000 nbits w
  let blk : Block :=
    { ctx := 1, grid := none, kind := .grid, index := 0, core := 0, resident := true, record := Rec.synth 0x1000 1 512 16, spad := [],
      bars := [], queues := [], q2res := 0, phase := 0, banksR := List.range 16, banksS := [], banksA := [], held := [], warps := [0],
      hidx := 0, args := [], savedCvs := [], savedAcc := [], suspect := none }
  let s := (s.setBlock 1 blk).setWarp 0 (Warp.start 1 1 0 level 512 0x1000)
  let s := s.modCore 0 fun c => { c with level := 1024 * 256 }
  { s with own := { s.own with nextId := 2 } }

/-- Service core 0 at address 0x1000 of its SRAM. -/
def State.withService (s : State) (nbits w : Nat) : State :=
  let start := Warp.start 0 0 0 .s 512 0x1000
  (s.withCode (keySram 0 0x1000) nbits w).setWarp (192 * 64) { start with exited := 0xFFFFFFFE }

end Sys2Proof.Machine
end

