-- ==== Sys2Proof/Machine/Interlock.lean ====
section
/-!
DEFINITION. Machine/Interlock.lean: the lane registers that an instruction names, and whether an outstanding load holds a warp's next
instruction (spec/01 R28; spec/08 R241).
-/

namespace Sys2Proof.Machine

/-- The lane registers of a conversion, runs with them, under the slot it names (R149, R152 to R159). -/
def convertRegs (sl : Slot) (i : Instr) : List Nat :=
  match i with
  | .qnt e => (qntForm sl e).lines
  | .dqn e => (dqnForm sl e).lines
  | .cbx _ e => (cbxForm sl e).lines
  | .scl e => [e.d, e.a]
  | .pack4 e => e.d :: runOf e.a (wideRegs e.wide 8)
  | .unpack4 e => e.a :: runOf e.d (wideRegs e.wide 8)
  | _ => []

/-- The slot that a conversion names. -/
def slotNamed (i : Instr) : Nat :=
  match i with
  | .qnt e | .dqn e | .cbx _ e | .scl e | .pack4 e | .unpack4 e => e.slot
  | _ => 0

/-- The lane registers that an instruction reads or writes; those of the conversions under a slot stand in `convertRegs`. -/
def laneRegs (i : Instr) : List Nat :=
  match i with
  | .brx a | .ret a | .flush a | .inv a | .invIp a => regPair true a
  | .brxExt _ a => srcARegs true a
  | .call _ d | .pcgetExt _ d => regPair true d
  | .callReg a d => regPair true a ++ regPair true d
  | .callExt _ _ d tgt => regPair true d ++ callToRegs tgt
  | .gsr sr d => regPair (sr64 sr) d
  | .pcget d => regPair true d
  | .add t a d | .sub t a d | .mul t a d | .mulh t a d | .neg t a d | .abs t a d | .min t a d | .max t a d | .and t a d
  | .or t a d | .xor t a d | .andn t a d | .not t a d | .shl t a d | .shr t a d | .sar t a d | .rot t a d | .clz t a d
  | .ctz t a d | .popc t a d | .brev t a d | .mov t a d | .div t a d | .rem t a d => regPair t.wide a ++ regPair t.wide d
  | .addExt _ e | .subExt _ e => regPair e.ty.wide e.d ++ srcARegs e.ty.wide e.a ++ srcBRegs e.ty.wide e.b
  | .mulExt e | .mulhExt e | .minExt e | .maxExt e | .andExt e | .orExt e | .xorExt e | .andnExt e | .shlExt e | .shrExt e
  | .sarExt e | .rotExt e | .bfe e | .sel e | .divExt e | .remExt e => regPair e.ty.wide e.d ++ srcARegs e.ty.wide e.a ++ srcBRegs e.ty.wide e.b
  | .mad e | .bfi e => regPair e.ty.wide e.d ++ srcARegs e.ty.wide e.a ++ srcBRegs e.ty.wide e.b ++ regPair e.ty.wide e.c
  | .negExt e | .absExt e | .notExt e | .clzExt e | .ctzExt e | .popcExt e | .brevExt e | .movExt e => regPair e.ty.wide e.d ++ srcARegs e.ty.wide e.a
  | .liLit t d _ => regPair t.wide d
  | .liExt _ t d _ => regPair t.wide d
  | .lea _ _ d a b _ _ => regPair true d ++ srcARegs true a ++ srcBRegs false b
  | .cmp _ e => srcARegs e.ty.wide e.a ++ srcBRegs e.ty.wide e.b
  | .shfl _ _ _ d a b => [d, a] ++ srcBRegs false b
  | .kget _ _ _ a _ => [a]
  | .fadd _ a d | .fsub _ a d | .fmul _ a d | .fmin _ a d | .fmax _ a d | .fabs _ a d | .fneg _ a d | .frcp _ a d | .frsq _ a d
  | .fsqrt _ a d | .fexp2 _ a d | .flog2 _ a d | .fsin _ a d | .fcos _ a d | .ftanh _ a d | .ffloor _ a d | .fceil _ a d
  | .frint _ a d | .fscale _ a d | .fclass _ a d => [a, d]
  | .faddExt _ e | .fsubExt _ e | .fmulExt _ e | .fscaleExt _ e => [e.d] ++ srcARegs false e.a ++ srcBRegs false e.b
  | .ffma _ e | .fdot2 _ e => [e.d] ++ srcARegs false e.a ++ srcBRegs false e.b ++ [e.c]
  | .fminExt e | .fmaxExt e => [e.d] ++ srcARegs false e.a ++ srcBRegs false e.b
  | .fabsExt e | .fnegExt e | .frcpExt e | .frsqExt e | .fexp2Ext e | .flog2Ext e | .fsinExt e | .fcosExt e | .ftanhExt e
  | .ffloorExt e | .fceilExt e | .frintExt e | .fclassExt e => [e.d] ++ srcARegs false e.a
  | .fcmp _ e => srcARegs false e.a ++ srcBRegs false e.b
  | .fsqrtExt _ e => [e.d] ++ srcARegs false e.a
  | .cvt _ d a _ _ _ _ _ => [d, a]
  | .ld w _ a d | .st w _ a d => regPair true a ++ regPair w.wide d
  | .ldExt w _ _ d e | .stExt w _ _ d e => regPair w.wide d ++ memRegs e
  | .ldv _ _ d e => regPair true d ++ [d + 2] ++ memRegs e
  | .vset _ _ _ a b => srcARegs true a ++ [b]
  | .prf _ a => regPair true a
  | .prfExt _ e | .invExt _ e => memRegs e
  | .flushExt e => memRegs e
  | .atm op e => regPair op.wide e.d ++ regPair op.wide e.b ++ srcARegs true e.a
  | .cas wide e c => regPair wide e.d ++ regPair wide e.b ++ regPair wide c ++ srcARegs true e.a
  | .casv wide e c => [e.d, e.b] ++ regPair wide c ++ srcARegs true e.a
  | .binc e | .winc e => [e.d, e.b] ++ srcARegs true e.a
  | .dgz e => [e.d] ++ srcARegs true e.a
  | .addl e => regPair true e.d ++ [e.b] ++ srcARegs true e.a
  | .red op e => regPair op.wide e.b ++ srcARegs true e.a
  | .poll _ _ _ d a b _ _ _ _ => [d] ++ srcARegs true a ++ [b]
  | .mwait _ _ _ d a b _ => regPair true d ++ srcARegs true a ++ regPair true b
  | _ => []

/-- The instruction that a warp issues next, as its fetch would read it. -/
def State.nextInstr (s : State) (wid : Nat) (w : Warp) : Option Instr :=
  match s.codeWords (coreOf wid) w (w.leastPc w.group) 1 with
  | .error _ => none
  | .ok ws =>
    let r := rawOfWord0 ((ws.map (·.2)).headD 0)
    match s.codeWords (coreOf wid) w (w.leastPc w.group) (lenWords r.len) with
    | .error _ => none
    | .ok ws => match decodeWords (ws.map (·.2)) with
      | .ok (i, _) => some i
      | .error _ => none

/-- An interlock of R28 holds a warp's next instruction: it names a register whose load is outstanding. -/
def State.interlocked (s : State) (wid : Nat) (w : Warp) : Bool :=
  !w.loads.isEmpty && (match s.nextInstr wid w with
    | some i => (laneRegs i ++ convertRegs (slotOf (s.recOf w) (slotNamed i)) i).any fun n => (Tab.look w.loads n).isSome
    | none => false)

end Sys2Proof.Machine
end

