-- ==== Sys2Proof/Machine/Sched.lean ====
section
/-!
DEFINITION. Machine/Sched.lean: a core's cycle: its bucket, its blocked queue, its waits, its engines' demands, and the choice of its
schedulers; fairness turns, the watchdogs and the timer (spec/08 R240 to R256; spec/06 R188, R189; spec/10 R293; spec/13 R370, R371,
R445; spec/14 R424).
-/

namespace Sys2Proof.Machine

/-! ### Re-reads of waiting lanes (R188, R189, R445) -/

/-- A step demand of a waiting lane: `go` where it is paid now, else it joins the queue. -/
def State.laneDemand (s : State) (wid lane : Nat) (go owe : State → State) : State :=
  let c := coreOf wid
  if isService c then go s else
  match s.warp? wid with
  | none => s
  | some w =>
    if s.canPay c 6 then go (s.modCore c fun k => k.pay (s.partOf w.ctx) 6)
    else (owe s).modCore c fun k => { k with queue := k.queue ++ [.step wid lane 6] }

/-- Whether a lane's step demand waits in the queue. -/
def State.laneQueued (s : State) (wid lane : Nat) : Bool := (s.core (coreOf wid)).queue.any fun d => match d with
  | .step w l _ => w == wid && l == lane
  | _ => false

/-- Whether a waiting `poll` is due: its delay is over, it reads at once, or its demand has been dropped. -/
def State.pollDue (s : State) (wid lane : Nat) (p : PollOp) : Bool :=
  if p.owed = 1 then !s.laneQueued wid lane
  else p.owed = 3 || (p.owed = 0 && decide (p.due ≤ (s.clk wid).toNat))

/-- The lane's wait. -/
def Warp.waitOf (w : Warp) (lane : Nat) : Option Blocked := w.blocked.find? fun b => laneIn b.lanes lane

/-- POLL_REREAD (R188). -/
def State.pollReread (s : State) (wid lane : Nat) : State :=
  s.withWarp wid fun w =>
    if !s.awake w then s else
    match w.waitOf lane with
    | none => s
    | some b =>
      match b.what with
      | .poll p =>
        if p.owed = 2 then s.pollAgain wid b p
        else if s.pollDue wid lane p then
          s.laneDemand wid lane (fun s => s.pollAgain wid b p) (fun s => s.setWait wid b (.poll { p with owed := 1 }))
        else s
      | _ => s

def execPollReread (wid lane : Nat) (s : State) : Host.Outcome State Fault Refusal := done (s.pollReread wid lane)

/-- Whether a sleeping `mwait` wakes: the version of its line has changed, it reads at once, or its demand has been dropped. -/
def State.mwaitDue (s : State) (wid lane : Nat) (w : Warp) (p : MwaitOp) : Bool :=
  if p.owed = 1 then !s.laneQueued wid lane
  else p.owed = 3 || (p.owed = 0 && (match s.keyNow wid w p.ea with | some k => s.versionAt k != p.ver | none => false))

/-- MWAIT_WAKE (R189). -/
def State.mwaitWake (s : State) (wid lane : Nat) : State :=
  s.withWarp wid fun w =>
    if !s.awake w then s else
    match w.waitOf lane with
    | none => s
    | some b =>
      match b.what with
      | .mwait p =>
        if p.owed = 2 then s.mwaitAgain wid b p
        else if s.mwaitDue wid lane w p then
          s.laneDemand wid lane (fun s => s.mwaitAgain wid b p) (fun s => s.setWait wid b (.mwait { p with owed := 1 }))
        else s
      | _ => s

def execMwaitWake (wid lane : Nat) (s : State) : Host.Outcome State Fault Refusal := done (s.mwaitWake wid lane)

/-! ### Turns (R245, R246) -/

/-- T_f of a warp where PP = 1. -/
def State.turnTime (s : State) (w : Warp) : Option Nat := if Rec.pp (s.recOf w) then some (Rec.tf (s.recOf w)) else none

/-- FAIRNESS_TURN: a warp whose count has reached T_f grants a turn to held lanes (R245). -/
def State.grantTurn (s : State) (wid : Nat) : State :=
  s.withWarp wid fun w =>
    match s.turnTime w with
    | none => s
    | some tf =>
      if w.turn.isSome || w.fc < tf || w.held = 0 then s else
      let bits := if w.held &&& ~~~w.turnBits = 0 then 0 else w.turnBits
      let clear := w.held &&& ~~~bits
      let group := w.lanesAt clear (w.leastPc clear)
      s.modWarp wid fun w => { w with turn := some { lanes := group, start := none }, turnBits := bits ||| group }

def execFairnessTurn (wid : Nat) (s : State) : Host.Outcome State Fault Refusal := done (s.grantTurn wid)

/-- Whether the turn group has issued an instruction when floor(T_f/4) cycles had passed since the turn's first issue (R246). -/
def State.turnOver (s : State) (w : Warp) : Bool :=
  match w.turn, s.turnTime w, w.lastIssue with
  | some t, some tf, some n => (match t.start with | some b => decide (b + tf / 4 ≤ n) | none => false)
  | _, _, _ => false

/-- TURN_TIMEOUT: the turn ends after that instruction, and selection returns to R242 (R246). -/
def State.endTurn (s : State) (wid : Nat) : State :=
  s.withWarp wid fun w => if s.turnOver w then s.modWarp wid fun w => { w with turn := none, fc := 0 } else s

def execTurnTimeout (wid : Nat) (s : State) : Host.Outcome State Fault Refusal := done (s.endTurn wid)

/-! ### The choice of a scheduler (R241) -/

/-- Whether a demand of a warp waits in its core's queue. -/
def State.warpQueued (s : State) (wid : Nat) : Bool := (s.core (coreOf wid)).queue.any fun d => match d with
  | .issue w _ | .step w _ _ => w == wid
  | _ => false

/-- Ready to issue: a selectable lane, a resident block, no demand in the queue, no step that the warp's instruction waits for, and no
interlock (R28, R241). -/
def State.ready (s : State) (wid : Nat) (w : Warp) : Bool :=
  s.awake w && w.group != 0 && !s.warpQueued wid && !s.interlocked wid w && !w.again

/-- PRIO of a warp, raised to 3 while its die's engine asks for FEEDSCOMM blocks (R364). -/
def State.prio (s : State) (wid : Nat) (w : Warp) : Nat :=
  let d := dieOf wid
  if Rec.feeds (s.recOf w) && (s.die d).feed && s.apBits (offColCfg d) 31 31 = 0 then 3 else Rec.prio (s.recOf w)

/-- The ready warps of one scheduler of a core, by slot. -/
def State.readyOf (s : State) (core sched : Nat) : List (Nat × Warp) :=
  (s.warpsOfCore core).filter fun e => slotOfWid e.1 % 4 == sched && s.ready e.1 e.2

/-- The first element whose number is the greatest. -/
def greatest {α : Type} (f : α → Nat) : List α → Option α
  | [] => none
  | x :: r => some (r.foldl (fun b y => if f b < f y then y else b) x)

/-- The urgent warp of a scheduler: PP = 1, ready 8 160 cycles; the longest first. -/
def State.urgentOf (s : State) (ws : List (Nat × Warp)) : Option (Nat × Warp) :=
  greatest (fun e => e.2.ready) (ws.filter fun e => Rec.pp (s.recOf e.2) && decide (8160 ≤ e.2.ready))

/-- How a warp ranks otherwise: highest PRIO, then the one that issued least recently. -/
def State.issueRank (s : State) (e : Nat × Warp) : List Int :=
  [3 - (s.prio e.1 e.2 : Int), (match e.2.lastIssue with | some n => (n : Int) | none => -1), (slotOfWid e.1 : Int)]

/-- The choice among ready warps. -/
def State.choose (s : State) (ws : List (Nat × Warp)) : Option Nat :=
  match s.urgentOf ws with
  | some e => some e.1
  | none => bestOf (ws.map fun e => (s.issueRank e, e.1))

/-- An issue opportunity of a warp: a turn that is due, then the issue (R245). -/
def State.offer (s : State) (wid : Nat) : List Pending :=
  match s.warp? wid with
  | none => []
  | some w =>
    let due := match s.turnTime w with
      | some tf => (w.turn.isNone && decide (tf ≤ w.fc) && w.held != 0)
      | none => false
    (if due then [.event (.fairnessTurn wid)] else []) ++ [.issue wid]

/-- Whether every runnable lane of a warp is deferred (R105). -/
def Warp.allDeferred (w : Warp) : Bool := w.runnable != 0 && w.runnable &&& ~~~w.deferred == 0

/-- The warp that takes an issue opportunity of a scheduler. One whose runnable lanes are all deferred passes it to another ready warp,
and its flags clear; with no other they clear at once and it takes the opportunity itself (R105). Each warp passes at most once. -/
def State.passOn (s : State) (core sched wid : Nat) : Nat → State
  | 0 => s.soon (s.offer wid)
  | n + 1 =>
    match s.warp? wid with
    | none => s
    | some w =>
      if !w.allDeferred then s.soon (s.offer wid) else
      let s := s.modWarp wid fun w => { w with deferred := 0 }
      match s.choose ((s.readyOf core sched).filter fun e => e.1 != wid) with
      | some other => s.passOn core sched other n
      | none => s.soon (s.offer wid)

/-- URGENT_WARP: a scheduler that has not issued in the cycle chooses by R241, an urgent warp before all others; a warp that has yielded
with every runnable lane passes the opportunity on (R105). -/
def State.schedule (s : State) (core sched : Nat) : State :=
  if (s.core core).issued.contains sched then s else
  match s.choose (s.readyOf core sched) with
  | none => s
  | some wid => s.passOn core sched wid 16

def execUrgentWarp (core sched : Nat) (s : State) : Host.Outcome State Fault Refusal := done (s.schedule core sched)

/-! ### Counts of a warp (R241, R244, R250, R293, R424) -/

/-- Whether a wait of a warp is non-local (R250). -/
def farWait (x : Wait) : Bool :=
  match x with
  | .poll p => p.far
  | .mwait p => p.far
  | .pop q _ => q == 3
  | .rinv .. => true
  | .fenceR sc _ => sc != .bk
  | _ => false

/-- A wait for a remote line's ownership is no wait of R250, for the atomic is on its way; `halt` is not watched (R109). -/
def unwatched : Wait → Bool
  | .ratm .. | .halt => true
  | _ => false

/-- One resident cycle of a warp's counts. `was` is the cycle that has just ended. LWC stays at 0 while the warp is parked or suspended
(R250, R403); EWC counts but for parked warps (R424); FC resets where no lane is held (R244). -/
def State.countWarp (s : State) (wid was : Nat) (w : Warp) : Warp :=
  let off := w.parked.isSome || w.susp.isSome
  let far := w.parked.isNone && w.blocked.any fun b => farWait b.what
  let near := w.blocked.any fun b => !farWait b.what && !unwatched b.what
  let held : Bool := w.held != 0
  let idle : Bool := w.lastIssue != some was
  { w with
    lwc := if off || far || !(near || held) then 0 else w.lwc + 1, ewc := if far then w.ewc + 1 else 0,
    fc := if (s.turnTime w).isNone || w.turn.isSome then w.fc else if held then w.fc + 1 else 0,
    ready := if idle && s.ready wid w then w.ready + 1 else w.ready }

/-- TIMER_COMPARE: the timer trap becomes pending (R293). -/
def State.timerDue (s : State) (wid : Nat) (w : Warp) : Bool := w.tcmp != 0 && decide (w.tcmp.toNat ≤ (s.clk wid).toNat) && !w.timer

def execTimerCompare (wid : Nat) (s : State) : Host.Outcome State Fault Refusal :=
  done (s.withWarp wid fun w => if s.timerDue wid w then s.modWarp wid fun w => { w with timer := true } else s)

/-! ### The watchdog and the external-wait timeout (R251, R424) -/

/-- The warps of a context that are resident on a core. -/
def State.ctxWarps (s : State) (core ctx : Nat) : List (Nat × Warp) :=
  (s.warpsOfCore core).filter fun e => e.2.ctx == ctx && (match s.block? e.2.blk with | some b => b.resident | none => true)

/-- Whether the watchdog fires for a context on a core. -/
def State.watchdogDue (s : State) (core ctx : Nat) : Bool :=
  let d := dieOfCore core
  let ws := s.ctxWarps core ctx
  !isService core && s.apBits (offWdLocal d) 8 8 = 0 && !ws.isEmpty && ws.all fun e => decide (2 ^ s.apBits (offWdLocal d) 5 0 ≤ e.2.lwc)

/-- WATCHDOG in one warp: lanes not blocked are discarded without counting, and blocked lanes are named at their instruction. -/
def State.watchdogTrap (s : State) (wid : Nat) (w : Warp) : State :=
  let live := ~~~w.exited
  let pc := match w.blocked with | b :: _ => b.here | [] => w.leastPc live
  (s.discard wid (live &&& ~~~w.blockedLanes)).takeTrap wid { cls := .watchdog } live 0 pc 0

/-- LOCAL_WAIT_WATCHDOG. -/
def State.watchdog (s : State) (core ctx : Nat) : State :=
  if s.watchdogDue core ctx then (s.ctxWarps core ctx).foldl (fun s e => s.watchdogTrap e.1 e.2) s else s

def execLocalWaitWatchdog (core ctx : Nat) (s : State) : Host.Outcome State Fault Refusal := done (s.watchdog core ctx)

/-- Whether a warp's external wait has lasted too long (R424). -/
def State.extwaitDue (s : State) (wid : Nat) (w : Warp) : Bool :=
  let d := dieOf wid
  !isService (coreOf wid) && s.apBits (offExtw d) 8 8 = 1 && decide (2 ^ s.apBits (offExtw d) 5 0 ≤ w.ewc)

/-- EXTWAIT_TIMEOUT: the trap names the lanes blocked at non-local waits, which wait again on resumption (R424, R444). -/
def State.extwait (s : State) (wid : Nat) : State :=
  s.withWarp wid fun w =>
    if !s.extwaitDue wid w || w.susp.isSome || w.stopped then s else
    match w.blocked.filter fun b => farWait b.what with
    | [] => s
    | b :: r =>
      (s.modWarp wid fun w => { w with ewc := 0 }).takeTrap wid { cls := .extwait } ((b :: r).foldl (fun m x => m ||| x.lanes) 0) 0 b.here 0

def execExtwaitTimeout (wid : Nat) (s : State) : Host.Outcome State Fault Refusal := done (s.extwait wid)

/-! ### The phase table (R253) -/

/-- Counts the cycle that has just ended for the blocks resident on a core. -/
def State.countPhases (s : State) (core was : Nat) : State :=
  if s.apBits (offPhsCtx (dieOfCore core)) 31 31 = 0 then s else
  (s.blocks.filter fun e => e.2.core == core && e.2.resident).foldl (fun s e => s.countPhase e.1 e.2 was) s

/-! ### Waits that end in the core (R104, R168, R250) -/

def isTry : Wait → Bool
  | .mask _ | .poll _ | .mwait _ | .abk .. | .ratm .. => false
  | _ => true

/-- Tries one wait. -/
def State.tryWait (s : State) (wid : Nat) (b : Blocked) : State :=
  match b.what with
  | .bar _ => s.tryBar wid b
  | .tags .. => s.tryTags wid b
  | .fenceR .. => s.tryFenceR wid b
  | .q0 _ => s.tryQ0 wid b
  | .q1 _ => s.tryQ1 wid b
  | .pop .. => s.tryPop wid b
  | .push .. => s.tryPush wid b
  | .rinv .. => s.tryRinv wid b
  | .launch .. => s.tryLaunch wid b
  | .post .. => s.tryPost wid b
  | .rblk .. => s.tryRblk wid b
  | .halt => s.tryHalt wid b
  | _ => s

/-- Mask waits of a core's warps that are awake. -/
def State.wakeMasks (s : State) (core : Nat) : State :=
  (s.warpsOfCore core).foldl (fun s e => if e.2.blocked.isEmpty || !s.awake e.2 then s else s.modWarp e.1 Warp.wakeMasks) s

/-- Everything on a core whose wait is over goes on. -/
def State.wakeCore (s : State) (core : Nat) : State :=
  let s := (s.wakeMasks core).tryWaiters (s.warpsOfCore core) isTry State.tryWait
  let due := (s.warpsOfCore core).flatMap fun e => if !s.awake e.2 then [] else (e.2.blocked.filter fun b => match b.what with
    | .ratm op none => s.leaseHeld (lineOf op.key)
    | .ratm _ (some _) => true
    | _ => false).map fun b => (e.1, b)
  let s := due.foldl (fun s x => match x.2.what with
    | .ratm op none => s.atomNow x.1 x.2 op
    | .ratm op (some v) => s.atomDone x.1 x.2 op v
    | _ => s) s
  if (s.bankWaits core).isEmpty then s else (s.settlePool core).serveBank core

/-! ### The blocked queue (R370 step 2, R445) -/

/-- What a demand served from the queue does: a warp issues at its scheduler, an instruction or a lane takes its step, or an engine
does. -/
def State.served (s : State) (core : Nat) (d : Demand) : State × List Pending :=
  match d with
  | .issue wid _ =>
    ((s.modWarp wid fun w => { w with stage := some { kind := 1, lanes := w.group } }).modCore core fun k =>
      { k with issued := (slotOfWid wid % 4) :: k.issued }, [.issue wid])
  | .step wid lane _ =>
    if lane = 32 then
      (s.modWarp wid fun w => { w with stage := w.stage.map fun st => { st with kind := 3 } }, [.issue wid])
    else match (s.warp? wid).bind fun w => w.waitOf lane with
      | none => (s, [])
      | some b =>
        match b.what with
        | .poll p => (s.setWait wid b (.poll { p with owed := 2 }), [.event (.pollReread wid lane)])
        | .mwait p => (s.setWait wid b (.mwait { p with owed := 2 }), [.event (.mwaitWake wid lane)])
        | _ => (s, [])
  | .engine unit _ n => ((if unit = 0 then s.matStep core n else if unit = 1 then s.copyStep core else s.collStep core), [])

/-- Whether a served demand would be the second issue of a scheduler in the cycle. -/
def Core.secondIssue (c : Core) (d : Demand) : Bool :=
  match d with
  | .issue wid _ => c.issued.contains (slotOfWid wid % 4)
  | _ => false

def Demand.price : Demand → Nat
  | .issue _ p | .step _ _ p | .engine _ p _ => p

/-- Serves the queue's head while the level pays it, and its scheduler has not issued in the cycle (R240, R370). -/
def State.serveQueue (s : State) (core : Nat) : Nat → State × List Pending
  | 0 => (s, [])
  | n + 1 =>
    let c := s.core core
    match c.queue with
    | [] => (s, [])
    | d :: r =>
      if c.secondIssue d || c.level < ((min d.price (s.ap! (offTokCap core)) * 256 : Nat) : Int) then (s, []) else
      let part := s.partOf (s.demandOf core d).1
      let x := (s.modCore core fun k => { k.pay part d.price with queue := r }).served core d
      let y := x.1.serveQueue core n
      (y.1, x.2 ++ y.2)

/-! ### The cycle (R370) -/

/-- Steps 1 and the counts of the cycle before: refill, counters, phases. -/
def State.startCycle (s : State) (core : Nat) : State :=
  let cap : Int := ((256 * s.ap! (offTokCap core) : Nat) : Int)
  let was := (s.die (dieOfCore core)).clk.toNat - 1
  let s := if isService core then s else
    (s.modCore core fun c =>
      { c with level := if c.grant = 0 then c.level else min (c.level + ((c.grant : Nat) : Int)) cap, grant := 0, issued := [] }).countPhases core was
  (s.warpsOfCore core).foldl (fun s e => if s.resides e.2 then s.setWarp e.1 (s.countWarp e.1 was e.2) else s) s

/-- Step demands that the warps of a scheduler make: instructions whose demand is to be made again, and lanes that are due. -/
def State.stepsOf (s : State) (core sched : Nat) : List Pending :=
  (s.warpsOfCore core).flatMap fun e =>
    if slotOfWid e.1 % 4 ≠ sched || !s.awake e.2 then [] else
    let again : Bool := match e.2.stage with
      | some st => decide (3 ≤ st.kind) || (st.kind == 2 && !s.laneQueued e.1 32)
      | none => false
    (if again then [.issue e.1] else [])
      ++ (e.2.blocked.filterMap fun b =>
        let lane := (lanesOf b.lanes).headD 0
        match b.what with
        | .poll p => if s.pollDue e.1 lane p then some (Pending.event (.pollReread e.1 lane)) else none
        | .mwait p => if s.mwaitDue e.1 lane e.2 p then some (Pending.event (.mwaitWake e.1 lane)) else none
        | _ => none)

/-- Traps and retries that time brings to a core's warps. -/
def State.timeouts (s : State) (core : Nat) : List Pending :=
  let ws := s.warpsOfCore core
  let ctxs := if isService core then [] else distinct (ws.map fun e => e.2.ctx)
  (ws.filter fun e => s.timerDue e.1 e.2).map (fun e => .event (.timerCompare e.1))
    ++ (ws.filter fun e => e.2.delayed.any fun x => decide (x.2 ≤ (s.clk e.1).toNat)).map (fun e => .event (.fgetRetry e.1))
    ++ (ctxs.filter fun ctx => s.watchdogDue core ctx).map (fun ctx => .event (.localWaitWatchdog core ctx))
    ++ (ws.filter fun e => e.2.susp.isNone && !e.2.stopped && s.extwaitDue e.1 e.2).map (fun e => .event (.extwaitTimeout e.1))

/-- CORE_CYCLE: refill; the queue; then new demands in the order of R370: matrix, copy and collective engine, schedulers 0 to 3, each
with its warps' step demands before its own choice. -/
def State.coreCycle (s : State) (core : Nat) : State :=
  let s := (s.startCycle core).wakeCore core
  let late := s.timeouts core
  let q := if isService core then (s, []) else s.serveQueue core ((s.core core).queue.length)
  let s := if isService core then q.1 else ((q.1.matDemand core).copyDemand core).collDemand core
  let scheds := (List.range 4).flatMap fun k => s.stepsOf core k ++ [.event (.urgentWarp core k)]
  s.soon (late ++ q.2 ++ scheds)

def execCoreCycle (core : Nat) (s : State) : Host.Outcome State Fault Refusal := done (s.coreCycle core)

end Sys2Proof.Machine
end

