-- ==== Sys2Proof/Machine/Cycle.lean ====
section
/-!
DEFINITION. Machine/Cycle.lean: what the device does in one cycle, put on the agenda when nothing else stands there (log entry 1): time,
die buckets, cores, service cores, and whatever has become due. Steps that carry a value from outside the device are never made here.
-/

namespace Sys2Proof.Machine

/-! ### Time (R374, R429) -/

/-- A microsecond is 1 600 beats, whatever the dies' clocks; TICK follows every 1 000 of them (R5). -/
def State.timeEvents (s : State) : List Ev :=
  if (s.dev.beat + 1) % 1600 ≠ 0 then []
  else .govTick :: (if (s.dev.micros + 1) % 1000 = 0 then [.svcTick] else [])

/-- Whether a die has a cycle in this beat: every beat at 1 600 MHz, every second one at 800 (R5, R441). -/
def State.ticks (s : State) (d : Nat) : Bool := s.mhz d = 1600 || s.dev.beat % 2 = 0

/-- The parties that take a step in a cycle of their die. -/
def State.cycleEvents (s : State) : List Ev :=
  (s.warps.filter fun e => s.turnOver e.2).map (fun e => .turnTimeout e.1)
    ++ (dieList.filter s.ticks).map .dieBucketCycle ++ ((List.range 192).filter fun c => s.ticks (dieOfCore c)).map .coreCycle
    ++ ((List.range 5).filter fun n => !(s.warpsOfCore (192 + n)).isEmpty && s.ticks (dieOfCore (192 + n))).map fun n => .coreCycle (192 + n)

/-! ### What has become due -/

/-- Engines of the cores (R194, R196, R201, R266). -/
def engineEvents (core : Nat) (c : Core) : List Ev :=
  (if c.q0.isEmpty then [] else [.copyEnginePop core])
    ++ ((c.copying.filter fun o => isService core || (nextDue o.due).isNone).map fun o => .copyComplete core o.opid)
    ++ ((c.free.filter MatOp.paid).map fun o => match o.kind with
        | .zero bank => .bankZeroComplete core bank
        | _ => .matrixOpComplete core)

/-- Collectives of a die (R349, R360, R362). -/
def State.collEvents (s : State) (d : Nat) : List Ev :=
  let x := s.die d
  (if (coresOfDie d).any fun c => !(s.core c).q1.isEmpty then [.collEnginePop d] else [])
    ++ ((x.roots.filter fun r => s.elapsed r.started (s.tmoOf d ((r.parts.head?.map Contrib.tmo).getD 0))).map fun r =>
        .rsumTimeout d r.desc r.seq)
    ++ ((x.insts.filter fun i => s.elapsed i.started (s.tmoOf d (Col.tmo i.desc))).map fun i =>
        .collPointTimeout d i.id (s.routed || i.points.getD 0 0 / 4 == s.devId))

/-- Handlers of a die (R329, R330). -/
def State.handlerEvents (s : State) (d : Nat) : List Ev :=
  let x := s.die d
  (if x.waiting.isEmpty then [] else [.handlerAssign d]) ++ x.rings.map (fun r => .overflowRingMove d r.1 r.2)
    ++ x.tasks.map (fun t => .continuationDispatch t.1)

/-- Host queues with pending packets (R317, R319). -/
def State.queueEvents (s : State) : List Ev :=
  let qs := (s.ap.filterMap fun e => arrayIdx (bLq + 8) 32 1024 e.1).filter fun q => s.qEnabled q && s.pendingPackets q ≠ 0
  (qs.filter fun q => !s.dev.resident.contains q && (decide (s.dev.resident.length < 64) || (s.queueVictim q).isSome)).map .queueSwitch
    ++ (qs.filter s.dev.resident.contains).map .launchAccept

/-- Grids and blocks (R239, R258, R259, R301, R320, R350). -/
def State.gridEvents (s : State) : List Ev :=
  (s.dev.trigs.map fun t => .launchTriggerEnqueue t.ctx t.q)
    ++ (s.dev.devq.map fun e => .childLaunchAccept (e.1 / 16) (e.1 % 16))
    ++ s.grids.flatMap (fun g => g.2.pending.map fun k => .groupPlacement g.1 k)
    ++ (dieList.flatMap fun d => (s.die d).insts).flatMap (fun i =>
        (i.left.filter fun e => e.2 = 0 && !i.placed.contains e.1).map fun e => .groupPlacement i.id e.1)
    ++ (s.blocks.filter fun b => b.2.resident && (s.warpsOfBlock b.1).isEmpty).map (fun b => .blockRetire b.1)
    ++ (s.grids.filter fun g => g.2.complete && !s.gridWrites g.1).map (fun g => .gridComplete g.1)
    ++ (s.blocks.filter fun b => s.mayReturn b.1 b.2).map (fun b => .switchIn b.1)

/-- Traps whose handler has not started, retirements, and loads (R26, R257, R403). -/
def State.warpEvents (s : State) : List Ev :=
  (s.warps.filter fun e => match e.2.susp with | some p => !p.started | none => false).map (fun e => .trapHandlerStart e.1)
    ++ (s.warps.filter fun e => e.2.exited == 0xFFFFFFFF && !isService (coreOf e.1)).map (fun e => .warpRetire e.1)
    ++ s.warps.flatMap (fun e => e.2.loads.map fun r => .loadCompletion e.1 r.1)

/-- Leases and intents (R282, R385). -/
def State.leaseEvents (s : State) : List Ev :=
  (s.mem.leases.filterMap fun l => match l.dev with
    | some _ => if s.elapsed l.granted 64 then some (.leaseLapse (l.line * 128)) else none
    | none => if s.elapsed l.granted 48 then some (.leaseDeadlineReturn l.line)
      else if s.elapsed l.used 16 then some (.leaseIdleReturn l.line) else none)
    ++ s.cores.flatMap fun c => (c.2.intents.filter fun i => decide (i.2.due + 100 ≤ s.dev.micros)).map fun i => .intentLapse c.1 i.1

/-- Registers that show BUSY (R310, R422, R425, R432). -/
def State.busyEvents (s : State) : List Ev :=
  (if s.apBits offFltKill 30 30 = 1 then [.terminationComplete] else [])
    ++ (if s.dev.inval.isSome then [.mmuInvalidateDone] else []) ++ (if s.dev.extend.isSome then [.measExtendDone] else [])
    ++ (if s.apBits offDbgCtl 62 62 = 1 && s.apBits offDbgCtl 61 61 = 0 && s.allStopped (s.apBits offDbgCtl 11 0) then [.debugStopComplete] else [])

def State.dueEvents (s : State) : List Ev :=
  s.busyEvents ++ s.cores.flatMap (fun c => engineEvents c.1 c.2) ++ dieList.flatMap (fun d => s.collEvents d ++ s.handlerEvents d)
    ++ s.warpEvents ++ s.gridEvents ++ s.queueEvents ++ s.leaseEvents

/-- Requests that wait for a line that is back at its home go on. -/
def State.wakeLines (s : State) : State :=
  (distinct (s.mem.waits.map (·.1))).foldl (fun s l => if s.leasedOut l then s else s.wakeLine l) s

/-- The device's next beat goes onto the empty agenda. -/
def State.refill (s : State) : State :=
  (s.wakeLines.modDev fun v => { v with beat := v.beat + 1 }).soon ((s.timeEvents ++ s.cycleEvents ++ s.dueEvents).map .event)

end Sys2Proof.Machine
end

