-- ==== Sys2Proof/Machine/Scalar.lean ====
section
/-!
DEFINITION. Machine/Scalar.lean: scalar instructions (spec/04 R126 to R129).
-/

namespace Sys2Proof.Machine

/-- A two-source base form: k[D] op k[A] (R126). -/
def State.scaB (s : State) (f : DWord → DWord → DWord) (a d : Nat) : State :=
  s.execSca (bForm 1) d fun w => f (w.kr d) (w.kr a)

/-- A two-source extended form. -/
def sc2Form (e : Sc2) : Form := { eForm e.g 1 with len := lenK e.b }
def State.scaE (s : State) (f : DWord → DWord → DWord) (e : Sc2) : State :=
  s.execSca (sc2Form e) e.d fun w => f (w.kr e.a) (kSrcVal e.b w)

def execKmov (a d : Nat) (s : State) : Host.Outcome State Fault Refusal := done (s.execSca (bForm 1) d fun w => w.kr a)
def execKliLit (d : Nat) (v : BitVec 64) (s : State) : Host.Outcome State Fault Refusal :=
  done (s.execSca { bForm 1 with len := 12 } d fun _ => v)
def execKliExt (g d : Nat) (v : BitVec 32) (s : State) : Host.Outcome State Fault Refusal :=
  done (s.execSca (eForm g 1) d fun _ => v.signExtend 64)
def execKadd (a d : Nat) (s : State) : Host.Outcome State Fault Refusal := done (s.scaB Integer.add a d)
def execKaddExt (e : Sc2) (s : State) : Host.Outcome State Fault Refusal := done (s.scaE Integer.add e)
def execKsub (a d : Nat) (s : State) : Host.Outcome State Fault Refusal := done (s.scaB Integer.sub a d)
def execKsubExt (e : Sc2) (s : State) : Host.Outcome State Fault Refusal := done (s.scaE Integer.sub e)
def execKmul (a d : Nat) (s : State) : Host.Outcome State Fault Refusal := done (s.scaB Integer.mul a d)
def execKmulExt (e : Sc2) (s : State) : Host.Outcome State Fault Refusal := done (s.scaE Integer.mul e)
def execKand (a d : Nat) (s : State) : Host.Outcome State Fault Refusal := done (s.scaB Integer.and a d)
def execKandExt (e : Sc2) (s : State) : Host.Outcome State Fault Refusal := done (s.scaE Integer.and e)
def execKor (a d : Nat) (s : State) : Host.Outcome State Fault Refusal := done (s.scaB Integer.or a d)
def execKorExt (e : Sc2) (s : State) : Host.Outcome State Fault Refusal := done (s.scaE Integer.or e)
def execKxor (a d : Nat) (s : State) : Host.Outcome State Fault Refusal := done (s.scaB Integer.xor a d)
def execKxorExt (e : Sc2) (s : State) : Host.Outcome State Fault Refusal := done (s.scaE Integer.xor e)
def execKshl (a d : Nat) (s : State) : Host.Outcome State Fault Refusal := done (s.scaB Integer.shl a d)
def execKshlExt (e : Sc2) (s : State) : Host.Outcome State Fault Refusal := done (s.scaE Integer.shl e)
def execKshr (a d : Nat) (s : State) : Host.Outcome State Fault Refusal := done (s.scaB Integer.shr a d)
def execKshrA (a d : Nat) (s : State) : Host.Outcome State Fault Refusal := done (s.scaB Integer.sar a d)
def execKshrExt (arith : Bool) (e : Sc2) (s : State) : Host.Outcome State Fault Refusal :=
  done (s.scaE (if arith then Integer.sar else Integer.shr) e)

/-- One comparison of warp-uniform values for every enabled lane (R128). -/
def execKcmp (cc : Cc) (ui : Bool) (e : Sc2) (s : State) : Host.Outcome State Fault Refusal :=
  done (s.execMask (sc2Form e) e.d fun w _ => condInt cc ui (w.kr e.a) (kSrcVal e.b w))

def execKget (g : Nat) (rt : Ret) (d a : Nat) (b : KSrc) (s : State) : Host.Outcome State Fault Refusal :=
  done (s.execSca (eForm g 1 [a] (keepOf rt [a] [] [])) d fun w => w.xn false a ((kSrcVal b w).toNat % 32))

end Sys2Proof.Machine
end

