-- ==== Sys2Proof/Machine/Vector.lean ====
section
/-!
DEFINITION. Machine/Vector.lean: integer vector instructions (spec/04 R116 to R125), each the exact result of Machine/Integer.lean on
the operands of its form.
-/

namespace Sys2Proof.Machine

/-! ### Shapes of R116: price by width, then one, two or three sources -/

def aluPrice (t : IntTy) : Nat := if t.wide then 10 else 6
def mulPrice (t : IntTy) : Nat := if t.wide then 24 else 10
def divPrice (t : IntTy) : Nat := if t.wide then 80 else 40

/-- A base form with one source (R18). -/
def State.intB1 (s : State) (price : Nat) (t : IntTy) (f : DWord → DWord) (a d : Nat) : State :=
  s.execVec (bForm price (regPair t.wide a)) t.wide d fun w l => f (w.xn t.wide a l)

/-- A base form with two sources: D and A (R18). -/
def State.intB2 (s : State) (price : Nat) (t : IntTy) (f : DWord → DWord → DWord) (a d : Nat) : State :=
  s.execVec (bForm price (regPair t.wide d ++ regPair t.wide a)) t.wide d fun w l => f (w.xn t.wide d l) (w.xn t.wide a l)

/-- The extended form of one source. -/
def int1Form (price : Nat) (e : Int1) : Form :=
  let ra := srcARegs e.ty.wide e.a
  eForm e.g price ra (keepOf e.rt ra [] [])
def State.intE1 (s : State) (price : Nat) (f : DWord → DWord) (e : Int1) : State :=
  s.execVec (int1Form price e) e.ty.wide e.d fun w l => f (srcAVal e.ty.wide e.a w l)

/-- The extended forms of two sources. -/
def int2Form (price : Nat) (e : Int2) : Form :=
  let ra := srcARegs e.ty.wide e.a
  let rb := srcBRegs e.ty.wide e.b
  { eForm e.g price (ra ++ rb) (keepOf e.rt ra rb []) with len := lenB e.b }
def State.intE2 (s : State) (price : Nat) (f : DWord → DWord → DWord) (e : Int2) : State :=
  s.execVec (int2Form price e) e.ty.wide e.d fun w l => f (srcAVal e.ty.wide e.a w l) (srcBVal e.ty.wide e.b w l)

/-- The extended forms of three sources; C is a lane register, or a mask where `mask`. -/
def int3Form (price : Nat) (mask : Bool) (e : Int3) : Form :=
  let ra := srcARegs e.ty.wide e.a
  let rb := srcBRegs e.ty.wide e.b
  let rc := if mask then [] else regPair e.ty.wide e.c
  { eForm e.g price (ra ++ rb ++ rc) (keepOf e.rt ra rb rc) with len := lenB e.b }
def State.intE3 (s : State) (price : Nat) (f : DWord → DWord → DWord → DWord) (e : Int3) : State :=
  s.execVec (int3Form price false e) e.ty.wide e.d fun w l =>
    f (srcAVal e.ty.wide e.a w l) (srcBVal e.ty.wide e.b w l) (w.xn e.ty.wide e.c l)

/-! ### Arithmetic (R118) -/

def execAdd (t : IntTy) (a d : Nat) (s : State) : Host.Outcome State Fault Refusal :=
  done (s.intB2 (aluPrice t) t (Integer.at2 t Integer.add) a d)
def execAddExt (sat : Bool) (e : Int2) (s : State) : Host.Outcome State Fault Refusal :=
  done (s.intE2 (aluPrice e.ty) (if sat then Integer.at2 e.ty (Integer.addSat (Integer.unsignedTy e.ty)) else Integer.at2 e.ty Integer.add) e)
def execSub (t : IntTy) (a d : Nat) (s : State) : Host.Outcome State Fault Refusal :=
  done (s.intB2 (aluPrice t) t (Integer.at2 t Integer.sub) a d)
def execSubExt (sat : Bool) (e : Int2) (s : State) : Host.Outcome State Fault Refusal :=
  done (s.intE2 (aluPrice e.ty) (if sat then Integer.at2 e.ty (Integer.subSat (Integer.unsignedTy e.ty)) else Integer.at2 e.ty Integer.sub) e)
def execMul (t : IntTy) (a d : Nat) (s : State) : Host.Outcome State Fault Refusal :=
  done (s.intB2 (mulPrice t) t (Integer.at2 t Integer.mul) a d)
def execMulExt (e : Int2) (s : State) : Host.Outcome State Fault Refusal :=
  done (s.intE2 (mulPrice e.ty) (Integer.at2 e.ty Integer.mul) e)
def execMulh (t : IntTy) (a d : Nat) (s : State) : Host.Outcome State Fault Refusal :=
  done (s.intB2 (mulPrice t) t (Integer.at2 t (Integer.mulh (Integer.unsignedTy t))) a d)
def execMulhExt (e : Int2) (s : State) : Host.Outcome State Fault Refusal :=
  done (s.intE2 (mulPrice e.ty) (Integer.at2 e.ty (Integer.mulh (Integer.unsignedTy e.ty))) e)
def execMad (e : Int3) (s : State) : Host.Outcome State Fault Refusal :=
  done (s.intE3 (mulPrice e.ty) (Integer.at3 e.ty Integer.mad) e)
def execNeg (t : IntTy) (a d : Nat) (s : State) : Host.Outcome State Fault Refusal :=
  done (s.intB1 (aluPrice t) t (Integer.at1 t Integer.neg) a d)
def execNegExt (e : Int1) (s : State) : Host.Outcome State Fault Refusal :=
  done (s.intE1 (aluPrice e.ty) (Integer.at1 e.ty Integer.neg) e)
def execAbs (t : IntTy) (a d : Nat) (s : State) : Host.Outcome State Fault Refusal :=
  done (s.intB1 (aluPrice t) t (Integer.at1 t Integer.abs) a d)
def execAbsExt (e : Int1) (s : State) : Host.Outcome State Fault Refusal :=
  done (s.intE1 (aluPrice e.ty) (Integer.at1 e.ty Integer.abs) e)
def execMin (t : IntTy) (a d : Nat) (s : State) : Host.Outcome State Fault Refusal :=
  done (s.intB2 (aluPrice t) t (Integer.at2 t (Integer.min (Integer.unsignedTy t))) a d)
def execMinExt (e : Int2) (s : State) : Host.Outcome State Fault Refusal :=
  done (s.intE2 (aluPrice e.ty) (Integer.at2 e.ty (Integer.min (Integer.unsignedTy e.ty))) e)
def execMax (t : IntTy) (a d : Nat) (s : State) : Host.Outcome State Fault Refusal :=
  done (s.intB2 (aluPrice t) t (Integer.at2 t (Integer.max (Integer.unsignedTy t))) a d)
def execMaxExt (e : Int2) (s : State) : Host.Outcome State Fault Refusal :=
  done (s.intE2 (aluPrice e.ty) (Integer.at2 e.ty (Integer.max (Integer.unsignedTy e.ty))) e)
def execDiv (t : IntTy) (a d : Nat) (s : State) : Host.Outcome State Fault Refusal :=
  done (s.intB2 (divPrice t) t (Integer.at2 t (Integer.div (Integer.unsignedTy t))) a d)
def execDivExt (e : Int2) (s : State) : Host.Outcome State Fault Refusal :=
  done (s.intE2 (divPrice e.ty) (Integer.at2 e.ty (Integer.div (Integer.unsignedTy e.ty))) e)
def execRem (t : IntTy) (a d : Nat) (s : State) : Host.Outcome State Fault Refusal :=
  done (s.intB2 (divPrice t) t (Integer.at2 t (Integer.rem (Integer.unsignedTy t))) a d)
def execRemExt (e : Int2) (s : State) : Host.Outcome State Fault Refusal :=
  done (s.intE2 (divPrice e.ty) (Integer.at2 e.ty (Integer.rem (Integer.unsignedTy e.ty))) e)

/-! ### Logic, shifts and bit counts (R119, R120) -/

def execAnd (t : IntTy) (a d : Nat) (s : State) : Host.Outcome State Fault Refusal :=
  done (s.intB2 (aluPrice t) t (Integer.at2 t Integer.and) a d)
def execAndExt (e : Int2) (s : State) : Host.Outcome State Fault Refusal :=
  done (s.intE2 (aluPrice e.ty) (Integer.at2 e.ty Integer.and) e)
def execOr (t : IntTy) (a d : Nat) (s : State) : Host.Outcome State Fault Refusal :=
  done (s.intB2 (aluPrice t) t (Integer.at2 t Integer.or) a d)
def execOrExt (e : Int2) (s : State) : Host.Outcome State Fault Refusal :=
  done (s.intE2 (aluPrice e.ty) (Integer.at2 e.ty Integer.or) e)
def execXor (t : IntTy) (a d : Nat) (s : State) : Host.Outcome State Fault Refusal :=
  done (s.intB2 (aluPrice t) t (Integer.at2 t Integer.xor) a d)
def execXorExt (e : Int2) (s : State) : Host.Outcome State Fault Refusal :=
  done (s.intE2 (aluPrice e.ty) (Integer.at2 e.ty Integer.xor) e)
def execAndn (t : IntTy) (a d : Nat) (s : State) : Host.Outcome State Fault Refusal :=
  done (s.intB2 (aluPrice t) t (Integer.at2 t Integer.andn) a d)
def execAndnExt (e : Int2) (s : State) : Host.Outcome State Fault Refusal :=
  done (s.intE2 (aluPrice e.ty) (Integer.at2 e.ty Integer.andn) e)
def execNot (t : IntTy) (a d : Nat) (s : State) : Host.Outcome State Fault Refusal :=
  done (s.intB1 (aluPrice t) t (Integer.at1 t Integer.not) a d)
def execNotExt (e : Int1) (s : State) : Host.Outcome State Fault Refusal :=
  done (s.intE1 (aluPrice e.ty) (Integer.at1 e.ty Integer.not) e)
def execShl (t : IntTy) (a d : Nat) (s : State) : Host.Outcome State Fault Refusal :=
  done (s.intB2 (aluPrice t) t (Integer.at2 t Integer.shl) a d)
def execShlExt (e : Int2) (s : State) : Host.Outcome State Fault Refusal :=
  done (s.intE2 (aluPrice e.ty) (Integer.at2 e.ty Integer.shl) e)
def execShr (t : IntTy) (a d : Nat) (s : State) : Host.Outcome State Fault Refusal :=
  done (s.intB2 (aluPrice t) t (Integer.at2 t Integer.shr) a d)
def execShrExt (e : Int2) (s : State) : Host.Outcome State Fault Refusal :=
  done (s.intE2 (aluPrice e.ty) (Integer.at2 e.ty Integer.shr) e)
def execSar (t : IntTy) (a d : Nat) (s : State) : Host.Outcome State Fault Refusal :=
  done (s.intB2 (aluPrice t) t (Integer.at2 t Integer.sar) a d)
def execSarExt (e : Int2) (s : State) : Host.Outcome State Fault Refusal :=
  done (s.intE2 (aluPrice e.ty) (Integer.at2 e.ty Integer.sar) e)
def execRot (t : IntTy) (a d : Nat) (s : State) : Host.Outcome State Fault Refusal :=
  done (s.intB2 (aluPrice t) t (Integer.at2 t Integer.rot) a d)
def execRotExt (e : Int2) (s : State) : Host.Outcome State Fault Refusal :=
  done (s.intE2 (aluPrice e.ty) (Integer.at2 e.ty Integer.rot) e)
def execClz (t : IntTy) (a d : Nat) (s : State) : Host.Outcome State Fault Refusal :=
  done (s.intB1 (aluPrice t) t (Integer.at1 t Integer.clz) a d)
def execClzExt (e : Int1) (s : State) : Host.Outcome State Fault Refusal :=
  done (s.intE1 (aluPrice e.ty) (Integer.at1 e.ty Integer.clz) e)
def execCtz (t : IntTy) (a d : Nat) (s : State) : Host.Outcome State Fault Refusal :=
  done (s.intB1 (aluPrice t) t (Integer.at1 t Integer.ctz) a d)
def execCtzExt (e : Int1) (s : State) : Host.Outcome State Fault Refusal :=
  done (s.intE1 (aluPrice e.ty) (Integer.at1 e.ty Integer.ctz) e)
def execPopc (t : IntTy) (a d : Nat) (s : State) : Host.Outcome State Fault Refusal :=
  done (s.intB1 (aluPrice t) t (Integer.at1 t Integer.popc) a d)
def execPopcExt (e : Int1) (s : State) : Host.Outcome State Fault Refusal :=
  done (s.intE1 (aluPrice e.ty) (Integer.at1 e.ty Integer.popc) e)
def execBrev (t : IntTy) (a d : Nat) (s : State) : Host.Outcome State Fault Refusal :=
  done (s.intB1 (aluPrice t) t (Integer.at1 t Integer.brev) a d)
def execBrevExt (e : Int1) (s : State) : Host.Outcome State Fault Refusal :=
  done (s.intE1 (aluPrice e.ty) (Integer.at1 e.ty Integer.brev) e)

/-! ### Fields, moves, addresses, comparison and shuffle (R121 to R125) -/

def execBfe (e : Int2) (s : State) : Host.Outcome State Fault Refusal :=
  done (s.intE2 (aluPrice e.ty) (Integer.at2 e.ty (Integer.bfe (Integer.unsignedTy e.ty))) e)
def execBfi (e : Int3) (s : State) : Host.Outcome State Fault Refusal :=
  done (s.intE3 (aluPrice e.ty) (Integer.at3 e.ty Integer.bfi) e)

/-- `sel` reads the mask bit of each lane (R122). -/
def execSel (e : Int3) (s : State) : Host.Outcome State Fault Refusal :=
  done (s.execVec (int3Form (aluPrice e.ty) true e) e.ty.wide e.d fun w l =>
    if laneIn (w.mr e.c) l then srcAVal e.ty.wide e.a w l else srcBVal e.ty.wide e.b w l)

def execMov (t : IntTy) (a d : Nat) (s : State) : Host.Outcome State Fault Refusal :=
  done (s.intB1 (aluPrice t) t (Integer.at1 t Integer.mov) a d)
def execMovExt (e : Int1) (s : State) : Host.Outcome State Fault Refusal :=
  done (s.intE1 (aluPrice e.ty) (Integer.at1 e.ty Integer.mov) e)

def execLiLit (t : IntTy) (d : Nat) (v : BitVec 64) (s : State) : Host.Outcome State Fault Refusal :=
  done (s.execVec { bForm (aluPrice t) with len := 12 } t.wide d fun _ _ => litVal t.wide v)
def execLiExt (g : Nat) (t : IntTy) (d : Nat) (v : BitVec 32) (s : State) : Host.Outcome State Fault Refusal :=
  done (s.execVec (eForm g (aluPrice t)) t.wide d fun _ _ => immVal t.wide v)

/-- B of `lea`: 32 bits of a lane register extended, or the literal (R123). -/
def leaIndex (sx : Bool) (b : SrcB) (w : Warp) (l : Nat) : DWord :=
  match b with
  | .x n => if sx then (w.xr n l).signExtend 64 else (w.xr n l).setWidth 64
  | .imm v => v.setWidth 64
  | .lit v => v

def execLea (g : Nat) (rt : Ret) (d : Nat) (a : SrcA) (b : SrcB) (sx : Bool) (sh : Nat) (s : State) : Host.Outcome State Fault Refusal :=
  let ra := srcARegs true a
  let rb := srcBRegs false b
  done (s.execVec { eForm g 10 (ra ++ rb) (keepOf rt ra rb []) with len := lenB b } true d fun w l =>
    srcAVal true a w l + (leaIndex sx b w l <<< sh))

def execCmp (cc : Cc) (e : Int2) (s : State) : Host.Outcome State Fault Refusal :=
  done (s.execMask (int2Form (aluPrice e.ty) e) e.d fun w l =>
    condTy cc e.ty (srcAVal e.ty.wide e.a w l) (srcBVal e.ty.wide e.b w l))

/-- The lane that `shfl` reads (R125). -/
def shflLane (mode : Shfl) (l d : Nat) : Nat :=
  match mode with
  | .idx => d
  | .up => if l < d then l else l - d
  | .dn => if 31 < l + d then l else l + d
  | .bfly => Nat.xor l d

def execShfl (mode : Shfl) (g : Nat) (rt : Ret) (d a : Nat) (b : SrcB) (s : State) : Host.Outcome State Fault Refusal :=
  let rb := srcBRegs false b
  done (s.execVec { eForm g 8 (a :: rb) (keepOf rt [a] rb []) with len := lenB b } false d fun w l =>
    w.xn false a (shflLane mode l ((srcBVal false b w l).toNat % 32)))

end Sys2Proof.Machine
end

