-- ==== Sys2Proof/Machine/Dispatch.lean ====
section
/-!
DEFINITION. Machine/Dispatch.lean: one arm per constructor of Instr.
-/

namespace Sys2Proof.Machine

def exec (i : Instr) (s : State) : Host.Outcome State Fault Refusal :=
  match i with
  | .nop => Sys2Proof.Machine.execNop s
  | .bra off => Sys2Proof.Machine.execBra off s
  | .braExt g off => Sys2Proof.Machine.execBraExt g off s
  | .brx a => Sys2Proof.Machine.execBrx a s
  | .brxExt g a => Sys2Proof.Machine.execBrxExt g a s
  | .ret a => Sys2Proof.Machine.execRet a s
  | .call off d => Sys2Proof.Machine.execCall off d s
  | .callReg a d => Sys2Proof.Machine.execCallReg a d s
  | .callExt g rt d tgt => Sys2Proof.Machine.execCallExt g rt d tgt s
  | .exit => Sys2Proof.Machine.execExit s
  | .exitExt g => Sys2Proof.Machine.execExitExt g s
  | .join d => Sys2Proof.Machine.execJoin d s
  | .joinExt g d => Sys2Proof.Machine.execJoinExt g d s
  | .leave d => Sys2Proof.Machine.execLeave d s
  | .leaveExt g d => Sys2Proof.Machine.execLeaveExt g d s
  | .wait a => Sys2Proof.Machine.execWait a s
  | .waitExt g a => Sys2Proof.Machine.execWaitExt g a s
  | .yield => Sys2Proof.Machine.execYield s
  | .trap code => Sys2Proof.Machine.execTrap code s
  | .trapExt g code => Sys2Proof.Machine.execTrapExt g code s
  | .brk tag => Sys2Proof.Machine.execBrk tag s
  | .resume a => Sys2Proof.Machine.execResume a s
  | .gsr sr d => Sys2Proof.Machine.execGsr sr d s
  | .gsrK sr d => Sys2Proof.Machine.execGsrK sr d s
  | .ssr a sr => Sys2Proof.Machine.execSsr a sr s
  | .halt => Sys2Proof.Machine.execHalt s
  | .mset g d b => Sys2Proof.Machine.execMset g d b s
  | .mmov a d => Sys2Proof.Machine.execMmov a d s
  | .mand a d => Sys2Proof.Machine.execMand a d s
  | .mandExt g d a b => Sys2Proof.Machine.execMandExt g d a b s
  | .mor a d => Sys2Proof.Machine.execMor a d s
  | .morExt g d a b => Sys2Proof.Machine.execMorExt g d a b s
  | .mxor a d => Sys2Proof.Machine.execMxor a d s
  | .mxorExt g d a b => Sys2Proof.Machine.execMxorExt g d a b s
  | .mnot a d => Sys2Proof.Machine.execMnot a d s
  | .mpop a d => Sys2Proof.Machine.execMpop a d s
  | .mfindLo a d => Sys2Proof.Machine.execMfindLo a d s
  | .mfindHi a d => Sys2Proof.Machine.execMfindHi a d s
  | .mfindExt g hi d a => Sys2Proof.Machine.execMfindExt g hi d a s
  | .pcget d => Sys2Proof.Machine.execPcget d s
  | .pcgetExt g d => Sys2Proof.Machine.execPcgetExt g d s
  | .add t a d => Sys2Proof.Machine.execAdd t a d s
  | .addExt sat e => Sys2Proof.Machine.execAddExt sat e s
  | .sub t a d => Sys2Proof.Machine.execSub t a d s
  | .subExt sat e => Sys2Proof.Machine.execSubExt sat e s
  | .mul t a d => Sys2Proof.Machine.execMul t a d s
  | .mulExt e => Sys2Proof.Machine.execMulExt e s
  | .mulh t a d => Sys2Proof.Machine.execMulh t a d s
  | .mulhExt e => Sys2Proof.Machine.execMulhExt e s
  | .mad e => Sys2Proof.Machine.execMad e s
  | .neg t a d => Sys2Proof.Machine.execNeg t a d s
  | .negExt e => Sys2Proof.Machine.execNegExt e s
  | .abs t a d => Sys2Proof.Machine.execAbs t a d s
  | .absExt e => Sys2Proof.Machine.execAbsExt e s
  | .min t a d => Sys2Proof.Machine.execMin t a d s
  | .minExt e => Sys2Proof.Machine.execMinExt e s
  | .max t a d => Sys2Proof.Machine.execMax t a d s
  | .maxExt e => Sys2Proof.Machine.execMaxExt e s
  | .and t a d => Sys2Proof.Machine.execAnd t a d s
  | .andExt e => Sys2Proof.Machine.execAndExt e s
  | .or t a d => Sys2Proof.Machine.execOr t a d s
  | .orExt e => Sys2Proof.Machine.execOrExt e s
  | .xor t a d => Sys2Proof.Machine.execXor t a d s
  | .xorExt e => Sys2Proof.Machine.execXorExt e s
  | .andn t a d => Sys2Proof.Machine.execAndn t a d s
  | .andnExt e => Sys2Proof.Machine.execAndnExt e s
  | .not t a d => Sys2Proof.Machine.execNot t a d s
  | .notExt e => Sys2Proof.Machine.execNotExt e s
  | .shl t a d => Sys2Proof.Machine.execShl t a d s
  | .shlExt e => Sys2Proof.Machine.execShlExt e s
  | .shr t a d => Sys2Proof.Machine.execShr t a d s
  | .shrExt e => Sys2Proof.Machine.execShrExt e s
  | .sar t a d => Sys2Proof.Machine.execSar t a d s
  | .sarExt e => Sys2Proof.Machine.execSarExt e s
  | .rot t a d => Sys2Proof.Machine.execRot t a d s
  | .rotExt e => Sys2Proof.Machine.execRotExt e s
  | .clz t a d => Sys2Proof.Machine.execClz t a d s
  | .clzExt e => Sys2Proof.Machine.execClzExt e s
  | .ctz t a d => Sys2Proof.Machine.execCtz t a d s
  | .ctzExt e => Sys2Proof.Machine.execCtzExt e s
  | .popc t a d => Sys2Proof.Machine.execPopc t a d s
  | .popcExt e => Sys2Proof.Machine.execPopcExt e s
  | .brev t a d => Sys2Proof.Machine.execBrev t a d s
  | .brevExt e => Sys2Proof.Machine.execBrevExt e s
  | .bfe e => Sys2Proof.Machine.execBfe e s
  | .bfi e => Sys2Proof.Machine.execBfi e s
  | .sel e => Sys2Proof.Machine.execSel e s
  | .mov t a d => Sys2Proof.Machine.execMov t a d s
  | .movExt e => Sys2Proof.Machine.execMovExt e s
  | .liLit t d v => Sys2Proof.Machine.execLiLit t d v s
  | .liExt g t d v => Sys2Proof.Machine.execLiExt g t d v s
  | .lea g rt d a b sx sh => Sys2Proof.Machine.execLea g rt d a b sx sh s
  | .cmp cc e => Sys2Proof.Machine.execCmp cc e s
  | .shfl mode g rt d a b => Sys2Proof.Machine.execShfl mode g rt d a b s
  | .div t a d => Sys2Proof.Machine.execDiv t a d s
  | .divExt e => Sys2Proof.Machine.execDivExt e s
  | .rem t a d => Sys2Proof.Machine.execRem t a d s
  | .remExt e => Sys2Proof.Machine.execRemExt e s
  | .kmov a d => Sys2Proof.Machine.execKmov a d s
  | .kliLit d v => Sys2Proof.Machine.execKliLit d v s
  | .kliExt g d v => Sys2Proof.Machine.execKliExt g d v s
  | .kadd a d => Sys2Proof.Machine.execKadd a d s
  | .kaddExt e => Sys2Proof.Machine.execKaddExt e s
  | .ksub a d => Sys2Proof.Machine.execKsub a d s
  | .ksubExt e => Sys2Proof.Machine.execKsubExt e s
  | .kmul a d => Sys2Proof.Machine.execKmul a d s
  | .kmulExt e => Sys2Proof.Machine.execKmulExt e s
  | .kand a d => Sys2Proof.Machine.execKand a d s
  | .kandExt e => Sys2Proof.Machine.execKandExt e s
  | .kor a d => Sys2Proof.Machine.execKor a d s
  | .korExt e => Sys2Proof.Machine.execKorExt e s
  | .kxor a d => Sys2Proof.Machine.execKxor a d s
  | .kxorExt e => Sys2Proof.Machine.execKxorExt e s
  | .kshl a d => Sys2Proof.Machine.execKshl a d s
  | .kshlExt e => Sys2Proof.Machine.execKshlExt e s
  | .kshr a d => Sys2Proof.Machine.execKshr a d s
  | .kshrA a d => Sys2Proof.Machine.execKshrA a d s
  | .kshrExt arith e => Sys2Proof.Machine.execKshrExt arith e s
  | .kcmp cc ui e => Sys2Proof.Machine.execKcmp cc ui e s
  | .kget g rt d a b => Sys2Proof.Machine.execKget g rt d a b s
  | .kld g sp d a idx off => Sys2Proof.Machine.execKld g sp d a idx off s
  | .fadd t a d => Sys2Proof.Machine.execFadd t a d s
  | .faddExt rm e => Sys2Proof.Machine.execFaddExt rm e s
  | .fsub t a d => Sys2Proof.Machine.execFsub t a d s
  | .fsubExt rm e => Sys2Proof.Machine.execFsubExt rm e s
  | .fmul t a d => Sys2Proof.Machine.execFmul t a d s
  | .fmulExt rm e => Sys2Proof.Machine.execFmulExt rm e s
  | .ffma rm e => Sys2Proof.Machine.execFfma rm e s
  | .fmin t a d => Sys2Proof.Machine.execFmin t a d s
  | .fminExt e => Sys2Proof.Machine.execFminExt e s
  | .fmax t a d => Sys2Proof.Machine.execFmax t a d s
  | .fmaxExt e => Sys2Proof.Machine.execFmaxExt e s
  | .fabs t a d => Sys2Proof.Machine.execFabs t a d s
  | .fabsExt e => Sys2Proof.Machine.execFabsExt e s
  | .fneg t a d => Sys2Proof.Machine.execFneg t a d s
  | .fnegExt e => Sys2Proof.Machine.execFnegExt e s
  | .fcmp fc e => Sys2Proof.Machine.execFcmp fc e s
  | .frcp t a d => Sys2Proof.Machine.execFrcp t a d s
  | .frcpExt e => Sys2Proof.Machine.execFrcpExt e s
  | .frsq t a d => Sys2Proof.Machine.execFrsq t a d s
  | .frsqExt e => Sys2Proof.Machine.execFrsqExt e s
  | .fsqrt t a d => Sys2Proof.Machine.execFsqrt t a d s
  | .fsqrtExt rm e => Sys2Proof.Machine.execFsqrtExt rm e s
  | .fexp2 t a d => Sys2Proof.Machine.execFexp2 t a d s
  | .fexp2Ext e => Sys2Proof.Machine.execFexp2Ext e s
  | .flog2 t a d => Sys2Proof.Machine.execFlog2 t a d s
  | .flog2Ext e => Sys2Proof.Machine.execFlog2Ext e s
  | .fsin t a d => Sys2Proof.Machine.execFsin t a d s
  | .fsinExt e => Sys2Proof.Machine.execFsinExt e s
  | .fcos t a d => Sys2Proof.Machine.execFcos t a d s
  | .fcosExt e => Sys2Proof.Machine.execFcosExt e s
  | .ftanh t a d => Sys2Proof.Machine.execFtanh t a d s
  | .ftanhExt e => Sys2Proof.Machine.execFtanhExt e s
  | .ffloor t a d => Sys2Proof.Machine.execFfloor t a d s
  | .ffloorExt e => Sys2Proof.Machine.execFfloorExt e s
  | .fceil t a d => Sys2Proof.Machine.execFceil t a d s
  | .fceilExt e => Sys2Proof.Machine.execFceilExt e s
  | .frint t a d => Sys2Proof.Machine.execFrint t a d s
  | .frintExt e => Sys2Proof.Machine.execFrintExt e s
  | .fscale t a d => Sys2Proof.Machine.execFscale t a d s
  | .fscaleExt rm e => Sys2Proof.Machine.execFscaleExt rm e s
  | .fclass t a d => Sys2Proof.Machine.execFclass t a d s
  | .fclassExt e => Sys2Proof.Machine.execFclassExt e s
  | .fdot2 rm e => Sys2Proof.Machine.execFdot2 rm e s
  | .cvt g d a src dst sel ovf rnd => Sys2Proof.Machine.execCvt g d a src dst sel ovf rnd s
  | .qnt e => Sys2Proof.Machine.execQnt e s
  | .dqn e => Sys2Proof.Machine.execDqn e s
  | .cbx half e => Sys2Proof.Machine.execCbx half e s
  | .scl e => Sys2Proof.Machine.execScl e s
  | .pack4 e => Sys2Proof.Machine.execPack4 e s
  | .unpack4 e => Sys2Proof.Machine.execUnpack4 e s
  | .ld w sp a d => Sys2Proof.Machine.execLd w sp a d s
  | .ldExt w sp acq d e => Sys2Proof.Machine.execLdExt w sp acq d e s
  | .st w sp a d => Sys2Proof.Machine.execSt w sp a d s
  | .stExt w sp rel d e => Sys2Proof.Machine.execStExt w sp rel d e s
  | .ldv wide acq d e => Sys2Proof.Machine.execLdv wide acq d e s
  | .vset g rt d a b => Sys2Proof.Machine.execVset g rt d a b s
  | .prf kind a => Sys2Proof.Machine.execPrf kind a s
  | .prfExt kind e => Sys2Proof.Machine.execPrfExt kind e s
  | .flush a => Sys2Proof.Machine.execFlush a s
  | .flushExt e => Sys2Proof.Machine.execFlushExt e s
  | .inv a => Sys2Proof.Machine.execInv a s
  | .invIp a => Sys2Proof.Machine.execInvIp a s
  | .invExt ip e => Sys2Proof.Machine.execInvExt ip e s
  | .atm op e => Sys2Proof.Machine.execAtm op e s
  | .cas wide e c => Sys2Proof.Machine.execCas wide e c s
  | .casv wide e c => Sys2Proof.Machine.execCasv wide e c s
  | .binc e => Sys2Proof.Machine.execBinc e s
  | .winc e => Sys2Proof.Machine.execWinc e s
  | .dgz e => Sys2Proof.Machine.execDgz e s
  | .addl e => Sys2Proof.Machine.execAddl e s
  | .red op e => Sys2Proof.Machine.execRed op e s
  | .fence g ord sc => Sys2Proof.Machine.execFence g ord sc s
  | .fenceL g sc => Sys2Proof.Machine.execFenceL g sc s
  | .fenceR g sc => Sys2Proof.Machine.execFenceR g sc s
  | .xfence g sc p q => Sys2Proof.Machine.execXfence g sc p q s
  | .bar id => Sys2Proof.Machine.execBar id s
  | .barA id => Sys2Proof.Machine.execBarA id s
  | .barW id => Sys2Proof.Machine.execBarW id s
  | .barExt g kind id exp cnt => Sys2Proof.Machine.execBarExt g kind id exp cnt s
  | .rgn g b => Sys2Proof.Machine.execRgn g b s
  | .poll g rt acq d a b bo sp ui cc => Sys2Proof.Machine.execPoll g rt acq d a b bo sp ui cc s
  | .mwait g rt acq d a b ge => Sys2Proof.Machine.execMwait g rt acq d a b ge s
  | .twany a d => Sys2Proof.Machine.execTwany a d s
  | .twanyExt g d b => Sys2Proof.Machine.execTwanyExt g d b s
  | .twall a d => Sys2Proof.Machine.execTwall a d s
  | .twallExt g d b => Sys2Proof.Machine.execTwallExt g d b s
  | .tff a d => Sys2Proof.Machine.execTff a d s
  | .tffExt g d b => Sys2Proof.Machine.execTffExt g d b s
  | .bld g slot tile a b c set => Sys2Proof.Machine.execBld g slot tile a b c set s
  | .mmx e => Sys2Proof.Machine.execMmx e s
  | .mmq e => Sys2Proof.Machine.execMmq e s
  | .mmo g d a set => Sys2Proof.Machine.execMmo g d a set s
  | .cdecl g d b => Sys2Proof.Machine.execCdecl g d b s
  | .csig g d => Sys2Proof.Machine.execCsig g d s
  | .abkGet g d => Sys2Proof.Machine.execAbkGet g d s
  | .abkPut g a => Sys2Proof.Machine.execAbkPut g a s
  | .accLd g slot sp d a b tag => Sys2Proof.Machine.execAccLd g slot sp d a b tag s
  | .accSt g slot sp d a b tag => Sys2Proof.Machine.execAccSt g slot sp d a b tag s
  | .accZ g d => Sys2Proof.Machine.execAccZ g d s
  | .cpy g d a b c tag sh dh ss ds => Sys2Proof.Machine.execCpy g d a b c tag sh dh ss ds s
  | .cpw g d a b tag lb => Sys2Proof.Machine.execCpw g d a b tag lb s
  | .cps g d a b c tag ss ds => Sys2Proof.Machine.execCps g d a b c tag ss ds s
  | .coll g a rq => Sys2Proof.Machine.execColl g a rq s
  | .rsum g a b rq ss => Sys2Proof.Machine.execRsum g a b rq ss s
  | .rinv g d a b hidx narg cls => Sys2Proof.Machine.execRinv g d a b hidx narg cls s
  | .rinvT g d a b hidx narg cls => Sys2Proof.Machine.execRinvT g d a b hidx narg cls s
  | .launch g a q => Sys2Proof.Machine.execLaunch g a q s
  | .post g a sp => Sys2Proof.Machine.execPost g a sp s
  | .postQueue g d a => Sys2Proof.Machine.execPostQueue g d a s
  | .fget g d a => Sys2Proof.Machine.execFget g d a s
  | .fgetQueue g d a => Sys2Proof.Machine.execFgetQueue g d a s
  | .fput g d a b => Sys2Proof.Machine.execFput g d a b s
  | .phase id => Sys2Proof.Machine.execPhase id s
  | .phaseExt g id => Sys2Proof.Machine.execPhaseExt g id s
  | .intent g a lead job => Sys2Proof.Machine.execIntent g a lead job s
  | .rblkAcq g d n l => Sys2Proof.Machine.execRblkAcq g d n l s
  | .rblkRel g n => Sys2Proof.Machine.execRblkRel g n s
  | .illegalEncoding => Sys2Proof.Machine.execIllegalEncoding s
  | .powerGoodBoot cfg pc svc flash => Sys2Proof.Machine.execPowerGoodBoot cfg pc svc flash s
  | .coreCycle core => Sys2Proof.Machine.execCoreCycle core s
  | .urgentWarp core sched => Sys2Proof.Machine.execUrgentWarp core sched s
  | .fairnessTurn wid => Sys2Proof.Machine.execFairnessTurn wid s
  | .turnTimeout wid => Sys2Proof.Machine.execTurnTimeout wid s
  | .dieBucketCycle die => Sys2Proof.Machine.execDieBucketCycle die s
  | .govTick => Sys2Proof.Machine.execGovTick s
  | .eptCalibration pm => Sys2Proof.Machine.execEptCalibration pm s
  | .bankMonitorSample die charge vbank => Sys2Proof.Machine.execBankMonitorSample die charge vbank s
  | .intentLapse core ctx => Sys2Proof.Machine.execIntentLapse core ctx s
  | .writeAssistChange die yard mv => Sys2Proof.Machine.execWriteAssistChange die yard mv s
  | .shadowLatchReplay core => Sys2Proof.Machine.execShadowLatchReplay core s
  | .timerCompare wid => Sys2Proof.Machine.execTimerCompare wid s
  | .localWaitWatchdog core ctx => Sys2Proof.Machine.execLocalWaitWatchdog core ctx s
  | .extwaitTimeout wid => Sys2Proof.Machine.execExtwaitTimeout wid s
  | .pollReread wid lane => Sys2Proof.Machine.execPollReread wid lane s
  | .mwaitWake wid lane => Sys2Proof.Machine.execMwaitWake wid lane s
  | .fgetRetry wid => Sys2Proof.Machine.execFgetRetry wid s
  | .futureReenqueue die rec => Sys2Proof.Machine.execFutureReenqueue die rec s
  | .warpRetire wid => Sys2Proof.Machine.execWarpRetire wid s
  | .blockRetire blk => Sys2Proof.Machine.execBlockRetire blk s
  | .gridComplete grid => Sys2Proof.Machine.execGridComplete grid s
  | .preemption ctx => Sys2Proof.Machine.execPreemption ctx s
  | .switchIn blk => Sys2Proof.Machine.execSwitchIn blk s
  | .trapHandlerStart wid => Sys2Proof.Machine.execTrapHandlerStart wid s
  | .engineFault core opid cls cause addr => Sys2Proof.Machine.execEngineFault core opid cls cause addr s
  | .copyEnginePop core => Sys2Proof.Machine.execCopyEnginePop core s
  | .copyComplete core opid => Sys2Proof.Machine.execCopyComplete core opid s
  | .matrixPass core => Sys2Proof.Machine.execMatrixPass core s
  | .matrixOpComplete core => Sys2Proof.Machine.execMatrixOpComplete core s
  | .bankZeroComplete core bank => Sys2Proof.Machine.execBankZeroComplete core bank s
  | .collEnginePop die => Sys2Proof.Machine.execCollEnginePop die s
  | .reductionContribution c => Sys2Proof.Machine.execReductionContribution c s
  | .rsumTimeout die desc seq => Sys2Proof.Machine.execRsumTimeout die desc seq s
  | .collectiveChunk die inst point chunk data => Sys2Proof.Machine.execCollectiveChunk die inst point chunk data s
  | .collPointReport die inst point status => Sys2Proof.Machine.execCollPointReport die inst point status s
  | .collEndStatus die inst status => Sys2Proof.Machine.execCollEndStatus die inst status s
  | .collPointTimeout die inst reach => Sys2Proof.Machine.execCollPointTimeout die inst reach s
  | .launchTriggerEnqueue ctx q => Sys2Proof.Machine.execLaunchTriggerEnqueue ctx q s
  | .launchAccept q => Sys2Proof.Machine.execLaunchAccept q s
  | .queueSwitch q => Sys2Proof.Machine.execQueueSwitch q s
  | .childLaunchAccept ctx q => Sys2Proof.Machine.execChildLaunchAccept ctx q s
  | .groupPlacement grid grp => Sys2Proof.Machine.execGroupPlacement grid grp s
  | .continuationDispatch yard => Sys2Proof.Machine.execContinuationDispatch yard s
  | .remoteInvocation p => Sys2Proof.Machine.execRemoteInvocation p s
  | .invocationAnswer wid code req => Sys2Proof.Machine.execInvocationAnswer wid code req s
  | .handlerAssign die => Sys2Proof.Machine.execHandlerAssign die s
  | .overflowRingMove die ctx hidx => Sys2Proof.Machine.execOverflowRingMove die ctx hidx s
  | .lineReadRequest dev addr => Sys2Proof.Machine.execLineReadRequest dev addr s
  | .lineReadResponse line core data ver => Sys2Proof.Machine.execLineReadResponse line core data ver s
  | .ownershipRequest dev addr => Sys2Proof.Machine.execOwnershipRequest dev addr s
  | .recall line => Sys2Proof.Machine.execRecall line s
  | .leaseReturn dev addr => Sys2Proof.Machine.execLeaseReturn dev addr s
  | .leaseReturnWithData dev addr data ver => Sys2Proof.Machine.execLeaseReturnWithData dev addr data ver s
  | .leaseIdleReturn line => Sys2Proof.Machine.execLeaseIdleReturn line s
  | .leaseDeadlineReturn line => Sys2Proof.Machine.execLeaseDeadlineReturn line s
  | .leaseLapse addr => Sys2Proof.Machine.execLeaseLapse addr s
  | .committedLineWrite dev addr ctx data mask => Sys2Proof.Machine.execCommittedLineWrite dev addr ctx data mask s
  | .atomicRequest p => Sys2Proof.Machine.execAtomicRequest p s
  | .atomicResponse wid lane val => Sys2Proof.Machine.execAtomicResponse wid lane val s
  | .paddockGridGroup ctx rec grp dev => Sys2Proof.Machine.execPaddockGridGroup ctx rec grp dev s
  | .groupRetired grid grp => Sys2Proof.Machine.execGroupRetired grid grp s
  | .powerIntent dev rate due => Sys2Proof.Machine.execPowerIntent dev rate due s
  | .failureNotice dev => Sys2Proof.Machine.execFailureNotice dev s
  | .linkFailure fab port devs => Sys2Proof.Machine.execLinkFailure fab port devs s
  | .hostMemoryAccess h wr len => Sys2Proof.Machine.execHostMemoryAccess h wr len s
  | .dramUe line wid => Sys2Proof.Machine.execDramUe line wid s
  | .l2CleanUe line => Sys2Proof.Machine.execL2CleanUe line s
  | .l2DirtyUeContainment line set way => Sys2Proof.Machine.execL2DirtyUeContainment line set way s
  | .regCacheUe wid reg lane => Sys2Proof.Machine.execRegCacheUe wid reg lane s
  | .spadAccUe blk acc => Sys2Proof.Machine.execSpadAccUe blk acc s
  | .macroParityError core macro_ => Sys2Proof.Machine.execMacroParityError core macro_ s
  | .l1ParityError core line ic => Sys2Proof.Machine.execL1ParityError core line ic s
  | .tlbParityError core ctx page => Sys2Proof.Machine.execTlbParityError core ctx page s
  | .deviceFatalError unit => Sys2Proof.Machine.execDeviceFatalError unit s
  | .patrolScrubRead line ue => Sys2Proof.Machine.execPatrolScrubRead line ue s
  | .mmuInvalidate v => Sys2Proof.Machine.execMmuInvalidate v s
  | .mmuInvalidateDone => Sys2Proof.Machine.execMmuInvalidateDone s
  | .pgretRelease k => Sys2Proof.Machine.execPgretRelease k s
  | .fltKill v => Sys2Proof.Machine.execFltKill v s
  | .debugStop => Sys2Proof.Machine.execDebugStop s
  | .debugRestart => Sys2Proof.Machine.execDebugRestart s
  | .debugStopComplete => Sys2Proof.Machine.execDebugStopComplete s
  | .dbgRegw v => Sys2Proof.Machine.execDbgRegw v s
  | .measExtend who v => Sys2Proof.Machine.execMeasExtend who v s
  | .memTrainStep die v => Sys2Proof.Machine.execMemTrainStep die v s
  | .memTrainStepDone die layers => Sys2Proof.Machine.execMemTrainStepDone die layers s
  | .fptTrainStart fab port v => Sys2Proof.Machine.execFptTrainStart fab port v s
  | .fptPortOff fab port v => Sys2Proof.Machine.execFptPortOff fab port v s
  | .fptTrainingProgress fab port ok lgood pdev pport late => Sys2Proof.Machine.execFptTrainingProgress fab port ok lgood pdev pport late s
  | .lqTailWrite q v => Sys2Proof.Machine.execLqTailWrite q v s
  | .lqCfgWrite q v => Sys2Proof.Machine.execLqCfgWrite q v s
  | .phsCtxWrite die v => Sys2Proof.Machine.execPhsCtxWrite die v s
  | .bootRunSet => Sys2Proof.Machine.execBootRunSet s
  | .svcDoorWrite n host v => Sys2Proof.Machine.execSvcDoorWrite n host v s
  | .svcTick => Sys2Proof.Machine.execSvcTick s
  | .haltWake n => Sys2Proof.Machine.execHaltWake n s
  | .registerWrite who off bytes v => Sys2Proof.Machine.execRegisterWrite who off bytes v s
  | .loadCompletion wid reg => Sys2Proof.Machine.execLoadCompletion wid reg s
  | .linkLevelReplay fab port => Sys2Proof.Machine.execLinkLevelReplay fab port s
  | .measExtendDone => Sys2Proof.Machine.execMeasExtendDone s
  | .terminationComplete => Sys2Proof.Machine.execTerminationComplete s

end Sys2Proof.Machine
end

