-- ==== Sys2Proof/Machine/Events.lean ====
section
/-!
DEFINITION. Machine/Events.lean: the meaning of each step of a party that the agenda names: the one that exec gives the row of its
name (log entry 1).
-/

namespace Sys2Proof.Machine

/-- Runs a step of a party. -/
def runEv (e : Ev) (s : State) : Host.Outcome State Fault Refusal :=
  match e with
  | .powerGoodBoot cfg pc svc flash => execPowerGoodBoot cfg pc svc flash s
  | .coreCycle core => execCoreCycle core s
  | .urgentWarp core sched => execUrgentWarp core sched s
  | .fairnessTurn wid => execFairnessTurn wid s
  | .turnTimeout wid => execTurnTimeout wid s
  | .dieBucketCycle die => execDieBucketCycle die s
  | .govTick => execGovTick s
  | .eptCalibration pm => execEptCalibration pm s
  | .bankMonitorSample die charge vbank => execBankMonitorSample die charge vbank s
  | .intentLapse core ctx => execIntentLapse core ctx s
  | .writeAssistChange die yard mv => execWriteAssistChange die yard mv s
  | .shadowLatchReplay core => execShadowLatchReplay core s
  | .timerCompare wid => execTimerCompare wid s
  | .localWaitWatchdog core ctx => execLocalWaitWatchdog core ctx s
  | .extwaitTimeout wid => execExtwaitTimeout wid s
  | .pollReread wid lane => execPollReread wid lane s
  | .mwaitWake wid lane => execMwaitWake wid lane s
  | .fgetRetry wid => execFgetRetry wid s
  | .futureReenqueue die rec => execFutureReenqueue die rec s
  | .warpRetire wid => execWarpRetire wid s
  | .blockRetire blk => execBlockRetire blk s
  | .gridComplete grid => execGridComplete grid s
  | .preemption ctx => execPreemption ctx s
  | .switchIn blk => execSwitchIn blk s
  | .trapHandlerStart wid => execTrapHandlerStart wid s
  | .engineFault core opid cls cause addr => execEngineFault core opid cls cause addr s
  | .copyEnginePop core => execCopyEnginePop core s
  | .copyComplete core opid => execCopyComplete core opid s
  | .matrixPass core => execMatrixPass core s
  | .matrixOpComplete core => execMatrixOpComplete core s
  | .bankZeroComplete core bank => execBankZeroComplete core bank s
  | .collEnginePop die => execCollEnginePop die s
  | .reductionContribution c => execReductionContribution c s
  | .rsumTimeout die desc seq => execRsumTimeout die desc seq s
  | .collectiveChunk die inst point chunk data => execCollectiveChunk die inst point chunk data s
  | .collPointReport die inst point status => execCollPointReport die inst point status s
  | .collEndStatus die inst status => execCollEndStatus die inst status s
  | .collPointTimeout die inst reach => execCollPointTimeout die inst reach s
  | .launchTriggerEnqueue ctx q => execLaunchTriggerEnqueue ctx q s
  | .launchAccept q => execLaunchAccept q s
  | .queueSwitch q => execQueueSwitch q s
  | .childLaunchAccept ctx q => execChildLaunchAccept ctx q s
  | .groupPlacement grid grp => execGroupPlacement grid grp s
  | .continuationDispatch yard => execContinuationDispatch yard s
  | .remoteInvocation p => execRemoteInvocation p s
  | .invocationAnswer wid code req => execInvocationAnswer wid code req s
  | .handlerAssign die => execHandlerAssign die s
  | .overflowRingMove die ctx hidx => execOverflowRingMove die ctx hidx s
  | .lineReadRequest dev addr => execLineReadRequest dev addr s
  | .lineReadResponse line core data ver => execLineReadResponse line core data ver s
  | .ownershipRequest dev addr => execOwnershipRequest dev addr s
  | .recall line => execRecall line s
  | .leaseReturn dev addr => execLeaseReturn dev addr s
  | .leaseReturnWithData dev addr data ver => execLeaseReturnWithData dev addr data ver s
  | .leaseIdleReturn line => execLeaseIdleReturn line s
  | .leaseDeadlineReturn line => execLeaseDeadlineReturn line s
  | .leaseLapse addr => execLeaseLapse addr s
  | .committedLineWrite dev addr ctx data mask => execCommittedLineWrite dev addr ctx data mask s
  | .atomicRequest p => execAtomicRequest p s
  | .atomicResponse wid lane val => execAtomicResponse wid lane val s
  | .paddockGridGroup ctx rec grp dev => execPaddockGridGroup ctx rec grp dev s
  | .groupRetired grid grp => execGroupRetired grid grp s
  | .powerIntent dev rate due => execPowerIntent dev rate due s
  | .failureNotice dev => execFailureNotice dev s
  | .linkFailure fab port devs => execLinkFailure fab port devs s
  | .hostMemoryAccess h wr len => execHostMemoryAccess h wr len s
  | .dramUe line wid => execDramUe line wid s
  | .l2CleanUe line => execL2CleanUe line s
  | .l2DirtyUeContainment line set way => execL2DirtyUeContainment line set way s
  | .regCacheUe wid reg lane => execRegCacheUe wid reg lane s
  | .spadAccUe blk acc => execSpadAccUe blk acc s
  | .macroParityError core macro_ => execMacroParityError core macro_ s
  | .l1ParityError core line ic => execL1ParityError core line ic s
  | .tlbParityError core ctx page => execTlbParityError core ctx page s
  | .deviceFatalError unit => execDeviceFatalError unit s
  | .patrolScrubRead line ue => execPatrolScrubRead line ue s
  | .mmuInvalidate v => execMmuInvalidate v s
  | .mmuInvalidateDone => execMmuInvalidateDone s
  | .pgretRelease i => execPgretRelease i s
  | .fltKill v => execFltKill v s
  | .debugStop => execDebugStop s
  | .debugRestart => execDebugRestart s
  | .debugStopComplete => execDebugStopComplete s
  | .dbgRegw v => execDbgRegw v s
  | .measExtend who v => execMeasExtend who v s
  | .memTrainStep die v => execMemTrainStep die v s
  | .memTrainStepDone die layers => execMemTrainStepDone die layers s
  | .fptTrainStart fab port v => execFptTrainStart fab port v s
  | .fptPortOff fab port v => execFptPortOff fab port v s
  | .fptTrainingProgress fab port ok lgood pdev pport late => execFptTrainingProgress fab port ok lgood pdev pport late s
  | .lqTailWrite q v => execLqTailWrite q v s
  | .lqCfgWrite q v => execLqCfgWrite q v s
  | .phsCtxWrite die v => execPhsCtxWrite die v s
  | .bootRunSet => execBootRunSet s
  | .svcDoorWrite n host v => execSvcDoorWrite n host v s
  | .svcTick => execSvcTick s
  | .haltWake n => execHaltWake n s
  | .registerWrite who off bytes v => execRegisterWrite who off bytes v s
  | .loadCompletion wid reg => execLoadCompletion wid reg s
  | .linkLevelReplay fab port => execLinkLevelReplay fab port s
  | .measExtendDone => execMeasExtendDone s
  | .terminationComplete => execTerminationComplete s

end Sys2Proof.Machine
end

