-- ==== Sys2Proof/Machine/Step.lean ====
section
/-!
DEFINITION. Machine/Step.lean: one step of the machine: what stands at the head of the agenda happens (log entry 1), and how an
instruction is placed where the next step runs it (log entry 2).
-/

namespace Sys2Proof.Machine

/-- A step: the warp at the head of the agenda issues the instruction it fetches, its accesses together or apart, or the party there takes its step; with nothing on
the agenda, the device's own next cycle is put there. -/
def step (s : State) : Host.Outcome State Fault Refusal :=
  match s.agenda with
  | [] => .next s.tick.refill
  | .event e :: r => runEv e { s.tick with agenda := r }
  | .corrected unit line :: r => .next ({ s.tick with agenda := r }.corrected unit line)
  | .lost dev :: r => .next ({ s.tick with agenda := r }.lose dev)
  | .slip x :: r => .next ({ s.tick with agenda := r }.slip x)
  | .upset word unit :: r => .next ({ s.tick with agenda := r }.upsets word unit)
  | .spad grid blk off bytes :: r => .next ({ s.tick with agenda := r }.spadIn grid blk off bytes)
  | .issue w :: r =>
    match ({ s.tick with agenda := r, cur := w, apart := Config.apart s.own.freeCount }).fetch with
    | .run i s => exec i s
    | .stop s => .next s

/-- The state with an instruction where the next step fetches: a warp of the instruction's level on compute core 0, or service
core 0 for an instruction of level S, is set up to issue it (log entry 2). -/
def State.withFetchWord (s : State) (nbits w : Nat) : State :=
  let r := rawOfWord0 (w % 2 ^ 32)
  match opLevel r.op (srField r) with
  | .s => { s.withService nbits w with agenda := [.issue (192 * 64)] }
  | .p => { s.withCompute .p nbits w with agenda := [.issue 0] }
  | _ => { s.withCompute .u nbits w with agenda := [.issue 0] }

end Sys2Proof.Machine
end

