-- ==== Sys2Proof/Safety.lean ====
section
/-!
DEFINITION. Safety.lean: the words in which claims are stated: a safe run, the state in which an instruction issues and has its own
effect, and what a step leaves as it was.
-/

namespace Sys2Proof

/-- A state from which a number of steps ends in a next state: no fault and no refusal. -/
def safeFor (s : Machine.State) (n : Nat) : Prop :=
  match Host.Core.run Sys2Proof.core n s with
  | .next _ => True
  | _ => False

namespace Machine

/-! ### The state in which an instruction has its own effect -/

/-- What an instruction of a form sees when a warp, the current one, issues it (R94). -/
def issueCtx (f : Form) (s : State) (w : Warp) : Ctx :=
  { wid := s.cur, here := w.leastPc w.group, len := f.len, iss := w.group, en := w.group &&& w.guard f.g }

/-- The tokens of an issue: the class price with its register reads, and the steps that form one demand with it where a lane is
enabled (R367, R370). -/
def issueCost (f : Form) (steps : Nat) (s : State) (w : Warp) : Nat :=
  w.price f + (if (issueCtx f s w).en = 0 then 0 else steps)

/-- The current warp stands at an instruction of a form whose checks of spec/02_opcode_map.md R48 pass: it has an issuing group, its
level may issue the form, every register named is below its count, and the die's service has the form. Its register lines are in the
register cache (R261), no detector is armed, and no word of memory has an error that its check would find. -/
structure Passes (f : Form) (s : State) (w : Warp) : Prop where
  cur : s.warp? s.cur = some w
  lanes : w.group ≠ 0
  level : levelTrap f.level w.level = none
  names : w.names f = true
  served : (f.full && s.lowService s.cur) = false
  disarmed : s.ap! offInjMask = 0
  sound : s.mem.upset = []
  held : s.missed s.cur w f.lines = []

/-- The current warp issues an instruction of a form: it passes the checks and Charge(), its core's bucket paying. Nothing else stands
before the effect: it is no second coming of a waiting instruction, and the warp owes no self-invalidation to a `fence.r` or a tag. -/
structure Ready (f : Form) (steps : Nat) (s : State) (w : Warp) : Prop extends Passes f s w where
  fresh : w.stage = none
  owesNone : w.inv = []
  seesNone : w.observed = false
  pays : isService (coreOf s.cur) = true ∨ s.canPay (coreOf s.cur) (issueCost f steps s w) = true

/-- The current warp's issuing group stands at an instruction that it has issued, behind its commit where it has one: with kind 2 its step
demand is due, with kind 3 it is paid (R445). -/
def Stands (kind : Nat) (w : Warp) : Prop := w.stage = some { kind := kind, lanes := w.group, step := 4 }

/-- The state in which an instruction that draws a step demand after its issue has its effect (R445): on a compute core the instruction has
issued, and its demand is paid or the bucket pays it now; a service core has no bucket, and the effect follows the issue. -/
structure GoesOn (f : Form) (price : Nat) (s : State) (w : Warp) (fresh : Prop) : Prop extends Passes f s w where
  compute : isService (coreOf s.cur) = false → Stands 3 w ∨ (Stands 2 w ∧ s.canPay (coreOf s.cur) price = true)
  service : isService (coreOf s.cur) = true → Ready f 0 s w ∧ fresh

/-- No `fence.r` waits for the commit of a warp (R183). -/
def Unawaited (s : State) (wid : Nat) : Prop := ∀ v ∈ s.warps, ∀ b ∈ v.2.blocked, fenceWait wid b = none

/-- Nothing is held back and nothing waits for the commit of the current warp: its region store buffer is empty, no timer trap and no
engine fault is pending, no `fence.r` waits for it, and no race mark is set. Its commit point then has its own effect and no other. -/
structure CommitsEmpty (s : State) (w : Warp) : Prop where
  rsb : w.rsb = []
  timer : w.timer = false
  faults : w.faults = []
  marks : s.mem.marks = []
  unawaited : Unawaited s s.cur

/-! ### What a step leaves as it was -/

/-- Every byte of memory reads as before. -/
def SameBytes (s t : State) : Prop := ∀ a, t.mem.byte a = s.mem.byte a

/-- Every warp but the current one is as before. -/
def OtherWarps (s t : State) : Prop := ∀ v, v ≠ s.cur → t.warp? v = s.warp? v

/-- Nothing has changed but the current warp and the tokens of its core: memory with its versions and owner tags, aperture
registers, blocks, dies, grids, the device, every other warp and core; and its core has paid a price (R370). -/
structure OnlyWarp (cost : Nat) (s t : State) (w : Warp) : Prop where
  mem : t.mem = s.mem
  ap : t.ap = s.ap
  blocks : t.blocks = s.blocks
  dies : t.dies = s.dies
  grids : t.grids = s.grids
  dev : t.dev = s.dev
  own : t.own = s.own
  agenda : t.agenda = s.agenda
  warps : OtherWarps s t
  core : t.core (coreOf s.cur)
    = if isService (coreOf s.cur) then s.core (coreOf s.cur) else (s.core (coreOf s.cur)).pay (s.partOf w.ctx) cost
  cores : ∀ c, c ≠ coreOf s.cur → t.core c = s.core c

/-- A warp's identity and standing are as before: context, block, level, register count, exits, delays, parking, suspension,
pending traps, its lean-to and its inbox entry. -/
structure SameStanding (w w' : Warp) : Prop where
  ctx : w'.ctx = w.ctx
  blk : w'.blk = w.blk
  widx : w'.widx = w.widx
  level : w'.level = w.level
  regs : w'.regs = w.regs
  regs0 : w'.regs0 = w.regs0
  lean : w'.lean = w.lean
  exited : w'.exited = w.exited
  delayed : w'.delayed = w.delayed
  parked : w'.parked = w.parked
  susp : w'.susp = w.susp
  stopped : w'.stopped = w.stopped
  faults : w'.faults = w.faults
  inv : w'.inv = w.inv
  inbox : w'.inbox = w.inbox

/-- The special registers a warp holds are as before: %rlimit, %rcount, %tcmp with its pending trap, %frec and %tclass; for each
lane its region's sequence number and budget, and %rev of the lanes that were not blocked. -/
structure SameSpecials (w w' : Warp) : Prop where
  rlimit : w'.rlimit = w.rlimit
  rcount : w'.rcount = w.rcount
  tcmp : w'.tcmp = w.tcmp
  timer : w'.timer = w.timer
  frec : w'.frec = w.frec
  tclass : w'.tclass = w.tclass
  rseq : w'.rseq = w.rseq
  budget : w'.budget = w.budget
  rev : ∀ l < 32, laneIn w.blockedLanes l = false → w'.revOf l = w.revOf l

/-- Lane registers, k-registers and masks are as before. -/
structure SameRegs (w w' : Warp) : Prop where
  x : w'.x = w.x
  k : w'.k = w.k
  m : w'.m = w.m

/-- Every issuing lane stands behind the instruction, and the lanes that neither issued nor were blocked stand where they stood
(R94, R104). -/
def Advanced (c : Ctx) (w w' : Warp) : Prop :=
  ∀ l < 32, (laneIn c.iss l = true → w'.pc l = w.pc l + BitVec.ofNat 64 c.len)
    ∧ (laneIn c.iss l = false → laneIn w.blockedLanes l = false → w'.pc l = w.pc l)

/-- What an instruction whose effect is on the current warp alone does beside that effect: the price is paid, and the rest of the
machine and of the warp is as before. -/
structure RanQuiet (f : Form) (s t : State) (w w' : Warp) : Prop where
  warp : t.warp? s.cur = some w'
  only : OnlyWarp (w.price f) s t w
  standing : SameStanding w w'
  specials : SameSpecials w w'
  rsb : w'.rsb = w.rsb
  loads : w'.loads = w.loads

/-- The same of an instruction whose issuing lanes advance. -/
structure RanOnRegs (f : Form) (s t : State) (w w' : Warp) : Prop where
  quiet : RanQuiet f s t w w'
  advanced : Advanced (issueCtx f s w) w w'

/-- An instruction that only advances. -/
structure OnlyAdvances (f : Form) (s t : State) (w w' : Warp) : Prop where
  ran : RanOnRegs f s t w w'
  regs : SameRegs w w'

/-- A value as a register or a pair holds it. -/
def held (wide : Bool) (v : DWord) : DWord := if wide then v else (v.setWidth 32).setWidth 64

/-- A vector instruction (spec/04_isa_control_integer.md R94, R117): each enabled lane's destination register or pair holds that lane's
value; every other lane register, and that register in every other lane, is as before, as are k-registers and masks. -/
structure VecDone (f : Form) (wide : Bool) (d : Nat) (val : Nat → DWord) (s t : State) (w w' : Warp) : Prop where
  ran : RanOnRegs f s t w w'
  k : w'.k = w.k
  m : w'.m = w.m
  written : ∀ l, laneIn (issueCtx f s w).en l = true → w'.xn wide d l = held wide (val l)
  others : ∀ n, ∀ l < 32, n ∉ regPair wide d ∨ laneIn (issueCtx f s w).en l = false → w'.xr n l = w.xr n l

/-- An instruction that writes mask bits (R111): the enabled lanes' bits of one mask; every other bit of it, every other mask, lane
registers and k-registers are as before. -/
structure MaskDone (f : Form) (d : Nat) (bits : Nat → Bool) (s t : State) (w w' : Warp) : Prop where
  ran : RanOnRegs f s t w w'
  x : w'.x = w.x
  k : w'.k = w.k
  bit : ∀ l < 32, laneIn (w'.mr d) l = if laneIn (issueCtx f s w).en l then bits l else laneIn (w.mr d) l
  others : ∀ n, n ≠ d → w'.mr n = w.mr n

/-- A scalar instruction (spec/01_encoding.md R25): one k-register, written once when the guard enables a lane and not at all
when it enables none; every other k-register, lane registers and masks are as before. -/
structure ScaDone (f : Form) (d : Nat) (val : DWord) (s t : State) (w w' : Warp) : Prop where
  ran : RanOnRegs f s t w w'
  x : w'.x = w.x
  m : w'.m = w.m
  written : (issueCtx f s w).en ≠ 0 → w'.kr d = val
  none : (issueCtx f s w).en = 0 → w'.kr d = w.kr d
  others : ∀ n, n ≠ d → w'.kr n = w.kr n

/-- The steps 2 and 3 of a commit point for the enabled lanes, which hold nothing (spec/06_isa_memory.md R168; R250, R289, R290): their
region ends and a new one begins with the next sequence number, the warp's %rcount is 0, and registers, special registers and
standing are as before. -/
structure Committed (f : Form) (s : State) (w w' : Warp) : Prop where
  regs : SameRegs w w'
  rsb : w'.rsb = []
  rcount : w'.rcount = 0
  seq : ∀ l < 32, w'.seqOf l = if laneIn (issueCtx f s w).en l then w.seqOf l + 1 else w.seqOf l
  rlimit : w'.rlimit = w.rlimit
  tcmp : w'.tcmp = w.tcmp
  timer : w'.timer = w.timer
  frec : w'.frec = w.frec
  tclass : w'.tclass = w.tclass
  susp : w'.susp = w.susp
  parked : w'.parked = w.parked
  faults : w'.faults = w.faults

/-- Step 5 of a commit point (R168): each enabled lane stands behind the instruction, where its next region begins; the other issuing
lanes advance; lanes that neither issued nor were blocked are as before. -/
structure LeftBehind (f : Form) (s : State) (w w' : Warp) : Prop where
  left : ∀ l, laneIn (issueCtx f s w).en l = true → w'.pc l = (issueCtx f s w).next ∧ w'.revOf l = (issueCtx f s w).next
  passed : ∀ l, laneIn w.group l = true → laneIn (issueCtx f s w).en l = false →
    w'.pc l = w.pc l + BitVec.ofNat 64 f.len ∧ w'.revOf l = w.revOf l
  stayed : ∀ l < 32, laneIn w.group l = false → laneIn w.blockedLanes l = false → w'.pc l = w.pc l ∧ w'.revOf l = w.revOf l

/-- The words of an L1 line after an acquire at a scope: from yard scope on, those that the core does not own are gone (R279). -/
def acquiredLine (acq : Bool) (sc : Scope) (l : Line) : Line :=
  if acq && sc != .wp && sc != .bk then { l with valid := l.valid &&& l.owned } else l

/-- What is left to do of an instruction that has issued: its step demand is due in its scheduler's place of the next cycle, and its lanes
stand at it (R445). -/
structure Due (w w' : Warp) : Prop where
  due : w'.stage = some { kind := 2, lanes := w.group, step := 4 }
  stood : ∀ l, laneIn w.group l = true → w'.pc l = w.pc l

/-- The issue on a compute core of an instruction that commits and then draws a step demand: the price is paid, the region has ended, and
the demand is due (R168, R445). -/
structure Demands (f : Form) (s t : State) (w w' : Warp) : Prop where
  warp : t.warp? s.cur = some w'
  only : OnlyWarp (w.price f) s t w
  committed : Committed f s w w'
  due : Due w w'

/-- The enabled lanes reach the bytes they name: no check of R162 fails, and no line of them is leased out. -/
structure Reaches (s : State) (lanes : Word) (a : Acc) (sp : Spc) (n align : Nat) (ea : Warp → Nat → DWord) (spots : List Spot) : Prop where
  found : s.reach s.cur lanes a sp n align ea = .ok spots
  home : sp = .g → ∀ p ∈ spots, s.leasedOut (lineOf p.2) = false

/-- The step demands of `n` accesses of one price are paid at once: no older demand waits, and the bucket holds them all (R136, R445). -/
def PaysEach (price n : Nat) (s : State) : Prop :=
  (s.core (coreOf s.cur)).queue = [] ∧ ((price * n * 256 : Nat) : Int) ≤ (s.core (coreOf s.cur)).level

/-- What no access of a warp changes: aperture registers, blocks, grids, the device, other warps, and its own standing. -/
structure SameElsewhere (s t : State) : Prop where
  ap : t.ap = s.ap
  blocks : t.blocks = s.blocks
  grids : t.grids = s.grids
  dev : t.dev = s.dev
  warps : OtherWarps s t

/-- A trap that a commit point's own effect takes, or a check before it: the record's fields are kept with the warp, its handler's start
is next, and memory, blocks and every other warp are as before (R399, R403). -/
structure Trapped (s t : State) (w' : Warp) (p : Susp) : Prop where
  warp : t.warp? s.cur = some w'
  susp : w'.susp = some p
  fresh : p.record = 0 ∧ p.started = false
  next : t.agenda = .event (.trapHandlerStart s.cur) :: s.agenda
  bytes : SameBytes s t
  else_ : SameElsewhere s t

/-- What an instruction leaves that hands something on and goes on behind its commit: its enabled lanes stand behind it, and memory, aperture
registers, other warps, other cores, lane registers and masks are as before. -/
structure Handed (f : Form) (s t : State) (w w' : Warp) : Prop where
  warp : t.warp? s.cur = some w'
  left : LeftBehind f s w w'
  mem : t.mem = s.mem
  ap : t.ap = s.ap
  warps : OtherWarps s t
  cores : ∀ c, c ≠ coreOf s.cur → t.core c = s.core c
  x : w'.x = w.x
  m : w'.m = w.m
  rsb : w'.rsb = w.rsb
  rlimit : w'.rlimit = w.rlimit
  tcmp : w'.tcmp = w.tcmp
  timer : w'.timer = w.timer
  frec : w'.frec = w.frec
  tclass : w'.tclass = w.tclass
  susp : w'.susp = w.susp
  faults : w'.faults = w.faults

/-- The same of an instruction that commits in the same step: its region has ended as `Committed` says. -/
structure HandedOn (f : Form) (s t : State) (w w' : Warp) : Prop extends Handed f s t w w' where
  rcount : w'.rcount = 0
  seq : ∀ l < 32, w'.seqOf l = if laneIn (issueCtx f s w).en l then w.seqOf l + 1 else w.seqOf l

/-- A k-register holds a value and every other is as before. -/
def SetsK (d : Nat) (v : DWord) (w w' : Warp) : Prop := w'.kr d = v ∧ ∀ n, n ≠ d → w'.kr n = w.kr n

/-- A tag of the warp's context is in flight on its core, and its bit of %tagmap is 0 (R193). -/
def Flying (core tag : Nat) (t : State) (w : Warp) : Prop :=
  tag < 64 → (t.core core).tagFlies w.ctx tag = true ∧ ((t.core core).tagmap w.ctx).done.getLsbD tag = false

/-- The current warp issues on a compute core, and a trap of its context is taken by an installed handler. -/
structure Traps (s : State) (w : Warp) : Prop where
  cur : s.warp? s.cur = some w
  lanes : w.group ≠ 0
  fresh : w.stage = none
  owesNone : w.inv = []
  seesNone : w.observed = false
  core : isService (coreOf s.cur) = false
  handler : s.ap! (offFltHnd w.ctx) % 2 = 1
  notHandler : s.isHandler w = false

/-- The trap that a discard reports: the cause's own, or RENTRY where the discard counts and passes %rlimit (R291, R292). -/
def reported (w : Warp) (m : Trap) : Trap := if counted m.cls && decide (w.rlimit.toNat < (w.rcount + 1).toNat) then rentryOf m else m

/-- A trap of a check: MODE 0 at the instruction, the issuing lanes discarded and back at their region entry, no register written, the
discard counted where R291 counts it (R291, R292, R399). -/
structure TrappedAtRev (s t : State) (w w' : Warp) (p : Susp) (m : Trap) : Prop where
  trapped : Trapped s t w' p
  trap : p.trap = reported w m
  at_ : p.lanes = w.group ∧ p.mode = 0 ∧ p.pc = w.leastPc w.group
  regs : SameRegs w w'
  back : ∀ l, laneIn w.group l = true → w'.pc l = w.revOf l
  rsb : w'.rsb = w.rsb.filter fun h => !laneIn w.group (Warp.heldLane h)
  rcount : w'.rcount = if counted m.cls then w.rcount + 1 else w.rcount

/-! ### What a step of a party leaves as it was -/

/-- Everything but one core is as before. -/
structure OnlyCore (c : Nat) (s t : State) : Prop where
  agenda : t.agenda = s.agenda
  own : t.own = s.own
  mem : t.mem = s.mem
  ap : t.ap = s.ap
  warps : t.warps = s.warps
  blocks : t.blocks = s.blocks
  dies : t.dies = s.dies
  grids : t.grids = s.grids
  dev : t.dev = s.dev
  cores : ∀ k, k ≠ c → t.core k = s.core k

/-- Everything but one die is as before. -/
structure OnlyDie (d : Nat) (s t : State) : Prop where
  agenda : t.agenda = s.agenda
  own : t.own = s.own
  mem : t.mem = s.mem
  ap : t.ap = s.ap
  warps : t.warps = s.warps
  blocks : t.blocks = s.blocks
  cores : t.cores = s.cores
  grids : t.grids = s.grids
  dev : t.dev = s.dev
  dies : ∀ k, k ≠ d → t.die k = s.die k

/-- Everything but one warp is as before. -/
structure OnlyWid (v : Nat) (s t : State) : Prop where
  agenda : t.agenda = s.agenda
  own : t.own = s.own
  mem : t.mem = s.mem
  ap : t.ap = s.ap
  blocks : t.blocks = s.blocks
  cores : t.cores = s.cores
  dies : t.dies = s.dies
  grids : t.grids = s.grids
  dev : t.dev = s.dev
  warps : ∀ k, k ≠ v → t.warp? k = s.warp? k

/-- Everything but the aperture registers at some offsets is as before. -/
structure OnlyRegs (at_ : Nat → Prop) (s t : State) : Prop where
  agenda : t.agenda = s.agenda
  own : t.own = s.own
  mem : t.mem = s.mem
  warps : t.warps = s.warps
  blocks : t.blocks = s.blocks
  cores : t.cores = s.cores
  dies : t.dies = s.dies
  grids : t.grids = s.grids
  dev : t.dev = s.dev
  regs : ∀ off, ¬ at_ off → t.ap! off = s.ap! off

/-- The same state with the current warp's entry at its place in the table of warps: what a count over the table sees once the warp has
been written back. It is the state itself wherever the table is in order. -/
def State.inOrder (s : State) (w : Warp) : State := s.setWarp s.cur w

/-- No warp waits for anything. -/
def NoneWaits (s : State) : Prop := ∀ e ∈ s.warps, e.2.blocked = []

/-- An error has been written to UE_LOG at NEXT, NEXT has moved on, every service core has been rung, and the host told (R417, R418,
R420). -/
structure Logged (unit act owner line : Nat) (s t : State) : Prop where
  entry : t.ap! (offUeLog (s.apBits offFltStat 5 0)) = 2 ^ 63 + unit * 2 ^ 57 + act * 2 ^ 53 + owner * 2 ^ 41 + line
  next : t.apBits offFltStat 5 0 = (s.apBits offFltStat 5 0 + 1) % 64
  doors : ∀ n < 5, t.apBits (offDoor n) 3 3 = 1
  told : ∃ before after, t.own.msgs = s.own.msgs ++ before ++ Msg.irq 0xF1 :: after

/-- A point of a collective has a status: its report goes to point 0, the next step where it is point 0 itself, else as an act of its
engine; nothing is written (R360, R363). -/
structure Reported (die inst : Nat) (i : CollInst) (status : Nat) (s t : State) : Prop where
  point : t.inst? die inst = some { i with
    status := some status, acts := if i.point = 0 then i.acts else i.acts ++ [i.act (some 0) i.point .status status []] }
  agenda : t.agenda = (if i.point = 0 then [.event (.collPointReport die inst 0 status)] else []) ++ s.agenda
  mem : t.mem = s.mem
  ap : t.ap = s.ap
  own : t.own = s.own
  warps : t.warps = s.warps

/-- A configuration image every entry of which names the first byte of a register whose writes have no rule of their own, or no register
(R433). -/
def Cfg.plain (cfg : List Byte) : Bool :=
  (Cfg.entries cfg).all fun e => match regAt e.1 with
    | some r => r.kind == .plain && r.base == e.1 && (List.range r.bytes).all (fun i => regAt (e.1 + i) == some r)
    | none => true

/-- Eight bytes of a measurement register that has been extended once, with the digest of some bytes (R431). -/
def Cfg.measured (bytes : List Byte) (j : Nat) : Nat :=
  leNat (((Sha.sha384 (List.replicate 48 0 ++ Sha.sha384 bytes)).drop (8 * j)).take 8)

end Machine

end Sys2Proof
end

