-- ==== Sys2Proof/Safety/Shapes.lean ====
section
/-!
DEFINITION. Safety/Shapes.lean: for the instructions whose one effect is a lane register, mask bits or a k-register, the form and the
value that the spec gives each, in one table by family. The claims of completion and result are stated over these tables.
-/

namespace Sys2Proof.Machine.Shape

/-- An instruction that writes a lane register or pair: its form, the destination and each lane's value. -/
structure VecShape where
  form : Form
  wide : Bool
  d : Nat
  val : Warp → Nat → DWord

/-- The form with its destination among the registers named. -/
def VecShape.full (v : VecShape) : Form := { v.form with dst := regPair v.wide v.d }

structure MaskShape where
  form : Form
  d : Nat
  bits : Warp → Nat → Bool

structure ScaShape where
  form : Form
  d : Nat
  val : Warp → DWord

def vec (f : Form) (wide : Bool) (d : Nat) (val : Warp → Nat → DWord) : VecShape := { form := f, wide := wide, d := d, val := val }
def msk (f : Form) (d : Nat) (bits : Warp → Nat → Bool) : MaskShape := { form := f, d := d, bits := bits }
def sca (f : Form) (d : Nat) (val : Warp → DWord) : ScaShape := { form := f, d := d, val := val }

/-! ### Operands by form (R17, R18, R116, R126, R132) -/

def vecB1 (price : Nat) (t : IntTy) (f : DWord → DWord) (a d : Nat) : VecShape :=
  vec (bForm price (regPair t.wide a)) t.wide d fun w l => f (w.xn t.wide a l)
def vecB2 (price : Nat) (t : IntTy) (f : DWord → DWord → DWord) (a d : Nat) : VecShape :=
  vec (bForm price (regPair t.wide d ++ regPair t.wide a)) t.wide d fun w l => f (w.xn t.wide d l) (w.xn t.wide a l)
def vecE1 (price : Nat) (f : DWord → DWord) (e : Int1) : VecShape :=
  vec (int1Form price e) e.ty.wide e.d fun w l => f (srcAVal e.ty.wide e.a w l)
def vecE2 (price : Nat) (f : DWord → DWord → DWord) (e : Int2) : VecShape :=
  vec (int2Form price e) e.ty.wide e.d fun w l => f (srcAVal e.ty.wide e.a w l) (srcBVal e.ty.wide e.b w l)
def vecE3 (price : Nat) (f : DWord → DWord → DWord → DWord) (e : Int3) : VecShape :=
  vec (int3Form price false e) e.ty.wide e.d fun w l => f (srcAVal e.ty.wide e.a w l) (srcBVal e.ty.wide e.b w l) (w.xn e.ty.wide e.c l)
def fltB1 (price : Nat) (t : FTy) (f : Word → Word) (a d : Nat) : VecShape :=
  vec { bForm price [a] with full := half t } false d fun w l => (f (w.xr a l)).setWidth 64
def fltB2 (price : Nat) (t : FTy) (f : Word → Word → Word) (a d : Nat) : VecShape :=
  vec { bForm price [d, a] with full := half t } false d fun w l => (f (w.xr d l) (w.xr a l)).setWidth 64
def fltE1 (price : Nat) (f : Word → Word) (e : Fp1) : VecShape :=
  vec (fp1Form price e) false e.d fun w l => (f (fpA e.a w l)).setWidth 64
def fltE2 (price : Nat) (f : Word → Word → Word) (e : Fp2) : VecShape :=
  vec (fp2Form price e) false e.d fun w l => (f (fpA e.a w l) (fpBv e.b w l)).setWidth 64
def fltE3 (price : Nat) (f : Word → Word → Word → Word) (e : Fp3) : VecShape :=
  vec (fp3Form price e) false e.d fun w l => (f (fpA e.a w l) (fpBv e.b w l) (w.xr e.c l)).setWidth 64
def scaB (f : DWord → DWord → DWord) (a d : Nat) : ScaShape := sca (bForm 1) d fun w => f (w.kr d) (w.kr a)
def scaE (f : DWord → DWord → DWord) (e : Sc2) : ScaShape := sca (sc2Form e) e.d fun w => f (w.kr e.a) (kSrcVal e.b w)

/-! ### The tables -/

/-- The base forms of the integer instructions (R116 to R122). -/
def intBase (i : Instr) : Option VecShape :=
  match i with
  | .add t a d => some (vecB2 (aluPrice t) t (Integer.at2 t (fun x y => x + y)) a d)
  | .sub t a d => some (vecB2 (aluPrice t) t (Integer.at2 t (fun x y => x - y)) a d)
  | .mul t a d => some (vecB2 (mulPrice t) t (Integer.at2 t (fun x y => x * y)) a d)
  | .mulh t a d => some (vecB2 (mulPrice t) t (Integer.at2 t (Integer.mulh (Integer.unsignedTy t))) a d)
  | .neg t a d => some (vecB1 (aluPrice t) t (Integer.at1 t (fun x => -x)) a d)
  | .abs t a d => some (vecB1 (aluPrice t) t (Integer.at1 t Integer.abs) a d)
  | .min t a d => some (vecB2 (aluPrice t) t (Integer.at2 t (Integer.min (Integer.unsignedTy t))) a d)
  | .max t a d => some (vecB2 (aluPrice t) t (Integer.at2 t (Integer.max (Integer.unsignedTy t))) a d)
  | .div t a d => some (vecB2 (divPrice t) t (Integer.at2 t (Integer.div (Integer.unsignedTy t))) a d)
  | .rem t a d => some (vecB2 (divPrice t) t (Integer.at2 t (Integer.rem (Integer.unsignedTy t))) a d)
  | .and t a d => some (vecB2 (aluPrice t) t (Integer.at2 t (fun x y => x &&& y)) a d)
  | .or t a d => some (vecB2 (aluPrice t) t (Integer.at2 t (fun x y => x ||| y)) a d)
  | .xor t a d => some (vecB2 (aluPrice t) t (Integer.at2 t (fun x y => x ^^^ y)) a d)
  | .andn t a d => some (vecB2 (aluPrice t) t (Integer.at2 t (fun x y => x &&& ~~~y)) a d)
  | .not t a d => some (vecB1 (aluPrice t) t (Integer.at1 t (fun x => ~~~x)) a d)
  | .shl t a d => some (vecB2 (aluPrice t) t (Integer.at2 t (fun {n} x y => x <<< (y.toNat % n))) a d)
  | .shr t a d => some (vecB2 (aluPrice t) t (Integer.at2 t (fun {n} x y => x >>> (y.toNat % n))) a d)
  | .sar t a d => some (vecB2 (aluPrice t) t (Integer.at2 t (fun {n} x y => x.sshiftRight (y.toNat % n))) a d)
  | .rot t a d => some (vecB2 (aluPrice t) t (Integer.at2 t Integer.rot) a d)
  | .clz t a d => some (vecB1 (aluPrice t) t (Integer.at1 t Integer.clz) a d)
  | .ctz t a d => some (vecB1 (aluPrice t) t (Integer.at1 t Integer.ctz) a d)
  | .popc t a d => some (vecB1 (aluPrice t) t (Integer.at1 t Integer.popc) a d)
  | .brev t a d => some (vecB1 (aluPrice t) t (Integer.at1 t Integer.brev) a d)
  | .mov t a d => some (vecB1 (aluPrice t) t (Integer.at1 t (fun x => x)) a d)
  | .liLit t d v => some (vec { bForm (aluPrice t) with len := 12 } t.wide d fun _ _ => litVal t.wide v)
  | _ => none

/-- The extended forms of the integer instructions (R116 to R125), and `cvt` (R148). -/
def intExt (i : Instr) : Option VecShape :=
  match i with
  | .addExt sat e => some (vecE2 (aluPrice e.ty) (if sat then Integer.at2 e.ty (Integer.addSat (Integer.unsignedTy e.ty)) else Integer.at2 e.ty (fun x y => x + y)) e)
  | .subExt sat e => some (vecE2 (aluPrice e.ty) (if sat then Integer.at2 e.ty (Integer.subSat (Integer.unsignedTy e.ty)) else Integer.at2 e.ty (fun x y => x - y)) e)
  | .mulExt e => some (vecE2 (mulPrice e.ty) (Integer.at2 e.ty (fun x y => x * y)) e)
  | .mulhExt e => some (vecE2 (mulPrice e.ty) (Integer.at2 e.ty (Integer.mulh (Integer.unsignedTy e.ty))) e)
  | .mad e => some (vecE3 (mulPrice e.ty) (Integer.at3 e.ty (fun x y z => x * y + z)) e)
  | .negExt e => some (vecE1 (aluPrice e.ty) (Integer.at1 e.ty (fun x => -x)) e)
  | .absExt e => some (vecE1 (aluPrice e.ty) (Integer.at1 e.ty Integer.abs) e)
  | .minExt e => some (vecE2 (aluPrice e.ty) (Integer.at2 e.ty (Integer.min (Integer.unsignedTy e.ty))) e)
  | .maxExt e => some (vecE2 (aluPrice e.ty) (Integer.at2 e.ty (Integer.max (Integer.unsignedTy e.ty))) e)
  | .divExt e => some (vecE2 (divPrice e.ty) (Integer.at2 e.ty (Integer.div (Integer.unsignedTy e.ty))) e)
  | .remExt e => some (vecE2 (divPrice e.ty) (Integer.at2 e.ty (Integer.rem (Integer.unsignedTy e.ty))) e)
  | .andExt e => some (vecE2 (aluPrice e.ty) (Integer.at2 e.ty (fun x y => x &&& y)) e)
  | .orExt e => some (vecE2 (aluPrice e.ty) (Integer.at2 e.ty (fun x y => x ||| y)) e)
  | .xorExt e => some (vecE2 (aluPrice e.ty) (Integer.at2 e.ty (fun x y => x ^^^ y)) e)
  | .andnExt e => some (vecE2 (aluPrice e.ty) (Integer.at2 e.ty (fun x y => x &&& ~~~y)) e)
  | .notExt e => some (vecE1 (aluPrice e.ty) (Integer.at1 e.ty (fun x => ~~~x)) e)
  | .shlExt e => some (vecE2 (aluPrice e.ty) (Integer.at2 e.ty (fun {n} x y => x <<< (y.toNat % n))) e)
  | .shrExt e => some (vecE2 (aluPrice e.ty) (Integer.at2 e.ty (fun {n} x y => x >>> (y.toNat % n))) e)
  | .sarExt e => some (vecE2 (aluPrice e.ty) (Integer.at2 e.ty (fun {n} x y => x.sshiftRight (y.toNat % n))) e)
  | .rotExt e => some (vecE2 (aluPrice e.ty) (Integer.at2 e.ty Integer.rot) e)
  | .clzExt e => some (vecE1 (aluPrice e.ty) (Integer.at1 e.ty Integer.clz) e)
  | .ctzExt e => some (vecE1 (aluPrice e.ty) (Integer.at1 e.ty Integer.ctz) e)
  | .popcExt e => some (vecE1 (aluPrice e.ty) (Integer.at1 e.ty Integer.popc) e)
  | .brevExt e => some (vecE1 (aluPrice e.ty) (Integer.at1 e.ty Integer.brev) e)
  | .bfe e => some (vecE2 (aluPrice e.ty) (Integer.at2 e.ty (Integer.bfe (Integer.unsignedTy e.ty))) e)
  | .bfi e => some (vecE3 (aluPrice e.ty) (Integer.at3 e.ty Integer.bfi) e)
  | .sel e => some (vec (int3Form (aluPrice e.ty) true e) e.ty.wide e.d fun w l =>
      if laneIn (w.mr e.c) l then srcAVal e.ty.wide e.a w l else srcBVal e.ty.wide e.b w l)
  | .movExt e => some (vecE1 (aluPrice e.ty) (Integer.at1 e.ty (fun x => x)) e)
  | .liExt g t d v => some (vec (eForm g (aluPrice t)) t.wide d fun _ _ => immVal t.wide v)
  | .cvt g d a src dst sel ovf rnd => some (vec (eForm g 8 [a, d]) false d fun w l =>
      (cvtLane src dst sel ovf rnd (w.xr a l) (w.xr d l)).setWidth 64)
  | .lea g rt d a b sx sh => some (vec { eForm g 10 (srcARegs true a ++ srcBRegs false b) (keepOf rt (srcARegs true a) (srcBRegs false b) []) with len := lenB b } true d fun w l =>
      srcAVal true a w l + (leaIndex sx b w l <<< sh))
  | .shfl mode g rt d a b => some (vec { eForm g 8 (a :: srcBRegs false b) (keepOf rt [a] (srcBRegs false b) []) with len := lenB b } false d fun w l =>
      w.xn false a (shflLane mode l ((srcBVal false b w l).toNat % 32)))
  | _ => none

/-- The base forms of the floating-point instructions (spec/05_isa_vector_convert.md R136 to R147). -/
def fpBase (i : Instr) : Option VecShape :=
  match i with
  | .fadd t a d => some (fltB2 (fpPrice t) t (Fp.fadd .rne t) a d)
  | .fsub t a d => some (fltB2 (fpPrice t) t (Fp.fsub .rne t) a d)
  | .fmul t a d => some (fltB2 (fpPrice t) t (Fp.fmul .rne t) a d)
  | .fmin t a d => some (fltB2 (fpPrice t) t (Fp.fmin t) a d)
  | .fmax t a d => some (fltB2 (fpPrice t) t (Fp.fmax t) a d)
  | .fabs t a d => some (fltB1 (fpPrice t) t (Fp.fabs t) a d)
  | .fneg t a d => some (fltB1 (fpPrice t) t (Fp.fneg t) a d)
  | .fsqrt t a d => some (fltB1 (xfPrice t) t (Approx.fsqrt .rne t) a d)
  | .frcp t a d => some (fltB1 (xfPrice t) t (Approx.approx .frcp t) a d)
  | .frsq t a d => some (fltB1 (xfPrice t) t (Approx.approx .frsq t) a d)
  | .fexp2 t a d => some (fltB1 (xfPrice t) t (Approx.approx .fexp2 t) a d)
  | .flog2 t a d => some (fltB1 (xfPrice t) t (Approx.approx .flog2 t) a d)
  | .fsin t a d => some (fltB1 (xfPrice t) t (Approx.approx .fsin t) a d)
  | .fcos t a d => some (fltB1 (xfPrice t) t (Approx.approx .fcos t) a d)
  | .ftanh t a d => some (fltB1 (xfPrice t) t (Approx.approx .ftanh t) a d)
  | .ffloor t a d => some (fltB1 (fpPrice t) t (Fp.fround .rd t) a d)
  | .fceil t a d => some (fltB1 (fpPrice t) t (Fp.fround .ru t) a d)
  | .frint t a d => some (fltB1 (fpPrice t) t (Fp.fround .rne t) a d)
  | .fscale t a d => some (fltB2 (fpPrice t) t (Fp.fscale .rne t) a d)
  | .fclass t a d => some (fltB1 (fpPrice t) t (Fp.fclass t) a d)
  | _ => none

/-- The extended forms of the floating-point instructions (R136 to R147). -/
def fpExt (i : Instr) : Option VecShape :=
  match i with
  | .faddExt rm e => some (fltE2 (fpPrice e.ty) (Fp.fadd rm e.ty) e)
  | .fsubExt rm e => some (fltE2 (fpPrice e.ty) (Fp.fsub rm e.ty) e)
  | .fmulExt rm e => some (fltE2 (fpPrice e.ty) (Fp.fmul rm e.ty) e)
  | .ffma rm e => some (fltE3 12 (Fp.ffma rm e.ty) e)
  | .fminExt e => some (fltE2 (fpPrice e.ty) (Fp.fmin e.ty) e)
  | .fmaxExt e => some (fltE2 (fpPrice e.ty) (Fp.fmax e.ty) e)
  | .fabsExt e => some (fltE1 (fpPrice e.ty) (Fp.fabs e.ty) e)
  | .fnegExt e => some (fltE1 (fpPrice e.ty) (Fp.fneg e.ty) e)
  | .fdot2 rm e => some (fltE3 14 (Fp.fdot2 rm e.ty) e)
  | .fsqrtExt rm e => some (fltE1 (xfPrice e.ty) (Approx.fsqrt rm e.ty) e)
  | .frcpExt e => some (fltE1 (xfPrice e.ty) (Approx.approx .frcp e.ty) e)
  | .frsqExt e => some (fltE1 (xfPrice e.ty) (Approx.approx .frsq e.ty) e)
  | .fexp2Ext e => some (fltE1 (xfPrice e.ty) (Approx.approx .fexp2 e.ty) e)
  | .flog2Ext e => some (fltE1 (xfPrice e.ty) (Approx.approx .flog2 e.ty) e)
  | .fsinExt e => some (fltE1 (xfPrice e.ty) (Approx.approx .fsin e.ty) e)
  | .fcosExt e => some (fltE1 (xfPrice e.ty) (Approx.approx .fcos e.ty) e)
  | .ftanhExt e => some (fltE1 (xfPrice e.ty) (Approx.approx .ftanh e.ty) e)
  | .ffloorExt e => some (fltE1 (fpPrice e.ty) (Fp.fround .rd e.ty) e)
  | .fceilExt e => some (fltE1 (fpPrice e.ty) (Fp.fround .ru e.ty) e)
  | .frintExt e => some (fltE1 (fpPrice e.ty) (Fp.fround .rne e.ty) e)
  | .fscaleExt rm e => some (fltE2 (fpPrice e.ty) (Fp.fscale rm e.ty) e)
  | .fclassExt e => some (fltE1 (fpPrice e.ty) (Fp.fclass e.ty) e)
  | _ => none

/-- The instructions whose one effect is mask bits (R103, R111 to R113, R124, R128, R142). -/
def mask (i : Instr) : Option MaskShape :=
  match i with
  | .join d => some (msk (bForm 2) d fun _ _ => true)
  | .joinExt g d => some (msk (eForm g 2) d fun _ _ => true)
  | .leave d => some (msk (bForm 2) d fun _ _ => false)
  | .leaveExt g d => some (msk (eForm g 2) d fun _ _ => false)
  | .mset g d b => some (msk { eForm g 2 with len := lenK b } d fun w l => (kSrcVal b w).getLsbD l)
  | .mmov a d => some (msk (bForm 2) d fun w l => laneIn (w.mr a) l)
  | .mand a d => some (msk (bForm 2) d fun w l => laneIn (w.mr d &&& w.mr a) l)
  | .mandExt g d a b => some (msk (eForm g 2) d fun w l => laneIn (w.mr a &&& w.mr b) l)
  | .mor a d => some (msk (bForm 2) d fun w l => laneIn (w.mr d ||| w.mr a) l)
  | .morExt g d a b => some (msk (eForm g 2) d fun w l => laneIn (w.mr a ||| w.mr b) l)
  | .mxor a d => some (msk (bForm 2) d fun w l => laneIn (w.mr d ^^^ w.mr a) l)
  | .mxorExt g d a b => some (msk (eForm g 2) d fun w l => laneIn (w.mr a ^^^ w.mr b) l)
  | .mnot a d => some (msk (bForm 2) d fun w l => laneIn (~~~w.mr a) l)
  | .cmp cc e => some (msk (int2Form (aluPrice e.ty) e) e.d fun w l =>
      condTy cc e.ty (srcAVal e.ty.wide e.a w l) (srcBVal e.ty.wide e.b w l))
  | .kcmp cc ui e => some (msk (sc2Form e) e.d fun w _ => condInt cc ui (w.kr e.a) (kSrcVal e.b w))
  | .fcmp fc e => some (msk (fp2Form (fpPrice e.ty) e) e.d fun w l => Fp.fcmp fc e.ty (fpA e.a w l) (fpBv e.b w l))
  | _ => none

/-- The instructions whose one effect is a k-register (R114, R126 to R129). -/
def scalar (i : Instr) : Option ScaShape :=
  match i with
  | .mpop a d => some (sca (bForm 2) d fun w => (Integer.popc (w.mr a)).setWidth 64)
  | .mfindLo a d => some (sca (bForm 2) d fun w => mfindVal false (w.mr a))
  | .mfindHi a d => some (sca (bForm 2) d fun w => mfindVal true (w.mr a))
  | .mfindExt g hi d a => some (sca (eForm g 2) d fun w => mfindVal hi (w.mr a))
  | .kmov a d => some (sca (bForm 1) d fun w => w.kr a)
  | .kliLit d v => some (sca { bForm 1 with len := 12 } d fun _ => v)
  | .kliExt g d v => some (sca (eForm g 1) d fun _ => v.signExtend 64)
  | .kadd a d => some (scaB (fun x y => x + y) a d)
  | .kaddExt e => some (scaE (fun x y => x + y) e)
  | .ksub a d => some (scaB (fun x y => x - y) a d)
  | .ksubExt e => some (scaE (fun x y => x - y) e)
  | .kmul a d => some (scaB (fun x y => x * y) a d)
  | .kmulExt e => some (scaE (fun x y => x * y) e)
  | .kand a d => some (scaB (fun x y => x &&& y) a d)
  | .kandExt e => some (scaE (fun x y => x &&& y) e)
  | .kor a d => some (scaB (fun x y => x ||| y) a d)
  | .korExt e => some (scaE (fun x y => x ||| y) e)
  | .kxor a d => some (scaB (fun x y => x ^^^ y) a d)
  | .kxorExt e => some (scaE (fun x y => x ^^^ y) e)
  | .kshl a d => some (scaB (fun x y => x <<< (y.toNat % 64)) a d)
  | .kshlExt e => some (scaE (fun x y => x <<< (y.toNat % 64)) e)
  | .kshr a d => some (scaB (fun x y => x >>> (y.toNat % 64)) a d)
  | .kshrA a d => some (scaB (fun x y => x.sshiftRight (y.toNat % 64)) a d)
  | .kshrExt arith e => some (scaE (if arith then (fun x y => x.sshiftRight (y.toNat % 64)) else (fun x y => x >>> (y.toNat % 64))) e)
  | .kget g rt d a b => some (sca (eForm g 1 [a] (keepOf rt [a] [] [])) d fun w => w.xn false a ((kSrcVal b w).toNat % 32))
  | _ => none

/-- A control transfer: its form, the pair that takes the return address, and each lane's target (R98 to R101). -/
structure JumpShape where
  form : Form
  link : Option Nat
  target : Ctx → Warp → Nat → DWord

/-- The registers a link writes. -/
def linkRegs (link : Option Nat) : List Nat :=
  match link with
  | some d => [d, d + 1]
  | none => []

/-- The form with its link among the registers named. -/
def JumpShape.full (j : JumpShape) : Form := { j.form with jump := true, dst := linkRegs j.link }

/-- The control transfers: relative targets count words from the instruction's own address. -/
def jumps (i : Instr) : Option JumpShape :=
  match i with
  | .bra off => some { form := bForm 2, link := none, target := fun c _ _ => c.here + 4 * off.signExtend 64 }
  | .braExt g off => some { form := eForm g 2, link := none, target := fun c _ _ => c.here + 4 * off.signExtend 64 }
  | .brx a => some { form := bForm 2 [a, a + 1], link := none, target := fun _ w l => w.xn true a l }
  | .brxExt g a => some { form := eForm g 2 (srcARegs true a), link := none, target := fun _ w l => srcAVal true a w l }
  | .ret a => some { form := bForm 2 [a, a + 1], link := none, target := fun _ w l => w.xn true a l }
  | .call off d => some { form := bForm 2, link := some d, target := fun c _ _ => c.here + 4 * off.signExtend 64 }
  | .callReg a d => some { form := bForm 2 [a, a + 1], link := some d, target := fun _ w l => w.xn true a l }
  | .callExt g rt d tgt => some { form := eForm g 2 (callToRegs tgt) (keepOf rt (callToRegs tgt) [] []), link := some d, target := callTarget tgt }
  | _ => none

/-- A control transfer done: each enabled lane stands at its target, the other issuing lanes behind the instruction, and the lanes that
neither issued nor were blocked where they stood; the link pair of each enabled lane holds the address behind the instruction, and
every other register is as before. -/
structure JumpDone (j : JumpShape) (s t : State) (w w' : Warp) : Prop where
  ran : RanQuiet j.full s t w w'
  k : w'.k = w.k
  m : w'.m = w.m
  taken : ∀ l, laneIn (issueCtx j.full s w).en l = true → w'.pc l = j.target (issueCtx j.full s w) w l
  passed : ∀ l, laneIn w.group l = true → laneIn (issueCtx j.full s w).en l = false → w'.pc l = w.pc l + BitVec.ofNat 64 j.form.len
  stayed : ∀ l < 32, laneIn w.group l = false → laneIn w.blockedLanes l = false → w'.pc l = w.pc l
  linked : ∀ d, j.link = some d → ∀ l, laneIn (issueCtx j.full s w).en l = true → w'.xn true d l = (issueCtx j.full s w).next
  others : ∀ n, ∀ l < 32, n ∉ linkRegs j.link ∨ laneIn (issueCtx j.full s w).en l = false → w'.xr n l = w.xr n l

/-! ### Loads, stores, atomics and cache control -/

/-- A load: its form, memory width, space, acquire scope, destination and addresses (R161, R171). -/
structure LoadShape where
  form : Form
  width : MemW
  sp : Spc
  d : Nat
  ea : Warp → Nat → DWord

def loads (i : Instr) : Option LoadShape :=
  match i with
  | .ld t sp a d => some { form := { bForm 4 (regPair true a) with dst := regPair t.wide d }, width := t, sp := sp, d := d,
                           ea := fun w l => eaOf sp (w.xn true a l) 0 0 }
  | .ldExt t sp _ d e => some { form := { eForm e.g 4 (memRegs e) (memKeep e []) with dst := regPair t.wide d }, width := t, sp := sp, d := d,
                                ea := memEa sp e }
  | _ => none

/-- A store: its form, memory width, space, whether it releases, addresses and bytes (R161, R172). -/
structure StoreShape where
  form : Form
  width : MemW
  sp : Spc
  rel : Bool
  ea : Warp → Nat → DWord
  bytes : Warp → Nat → List (Byte × Nat)

def stores (i : Instr) : Option StoreShape :=
  match i with
  | .st t sp a d => some { form := bForm 4 (regPair true a ++ regPair t.wide d), width := t, sp := sp, rel := false,
                           ea := fun w l => eaOf sp (w.xn true a l) 0 0, bytes := fun w l => storeBytes t false (w.xn t.wide d l) }
  | .stExt t sp rel d e => some { form := eForm e.g 4 (memRegs e ++ regPair t.wide d) (memKeep e []), width := t, sp := sp,
                                  rel := rel.isSome, ea := storeEa t sp e,
                                  bytes := fun w l => storeBytes t (storeHigh t e w l) (w.xn t.wide d l) }
  | _ => none

/-- A value-returning atomic: its form, what it does, and its operands (R177 to R181). -/
structure AtomShape where
  form : Form
  kind : AtomKind
  e : Atm
  c : Option Nat

def atomics (i : Instr) : Option AtomShape :=
  match i with
  | .atm op e => some { form := { atmForm e (regPair op.wide e.b) [] (regPair op.wide e.d) with full := halfOp op }, kind := .atm op, e := e, c := none }
  | .cas wide e c => some { form := atmForm e (regPair wide e.b) (regPair wide c) (regPair wide e.d), kind := .cas wide, e := e, c := some c }
  | .casv wide e c => some { form := atmForm e [e.b] (regPair wide c) [e.d], kind := .casv wide, e := e, c := some c }
  | .binc e => some { form := atmForm e [e.b] [] [e.d], kind := .binc, e := e, c := none }
  | .winc e => some { form := atmForm e [e.b] [] [e.d], kind := .winc, e := e, c := none }
  | .dgz e => some { form := atmForm e [] [] [e.d], kind := .dgz, e := e, c := none }
  | .addl e => some { form := atmForm e [e.b] [] (regPair true e.d), kind := .addl, e := e, c := none }
  | _ => none

/-- What a cache instruction does to the lines its lanes name (R176). -/
inductive CacheAct where
  | prefetch (k : Prf) | flush | inv | code
  deriving DecidableEq, Repr

/-- The access that the checks of a cache instruction are made for. -/
def CacheAct.access : CacheAct → Acc
  | .prefetch _ => .read
  | .flush => .flush
  | .inv => .inval
  | .code => .fetch

structure CacheShape where
  form : Form
  act : CacheAct
  ea : Warp → Nat → DWord

def caches (i : Instr) : Option CacheShape :=
  match i with
  | .prf k a => some { form := bForm 2 (regPair true a), act := .prefetch k, ea := fun w l => w.xn true a l }
  | .prfExt k e => some { form := eForm e.g 2 (memRegs e) (memKeep e []), act := .prefetch k, ea := memEa .g e }
  | .flush a => some { form := bForm 2 (regPair true a), act := .flush, ea := fun w l => w.xn true a l }
  | .flushExt e => some { form := eForm e.g 2 (memRegs e) (memKeep e []), act := .flush, ea := memEa .g e }
  | .inv a => some { form := bForm 2 (regPair true a), act := .inv, ea := fun w l => w.xn true a l }
  | .invIp a => some { form := bForm 2 (regPair true a), act := .code, ea := fun w l => w.xn true a l }
  | .invExt ip e => some { form := eForm e.g 2 (memRegs e) (memKeep e []), act := if ip then .code else .inv, ea := memEa .g e }
  | _ => none

/-! ### Traps, barriers and tag waits -/

/-- The instructions that trap by their own effect: form, class and INFO (R106, R107). -/
def traps (i : Instr) : Option (Form × TrapClass × Nat) :=
  match i with
  | .trap code => some (bForm 2, .user, code)
  | .trapExt g code => some (eForm g 2, .user, code)
  | .brk tag => some (bForm 2, .debug, tag)
  | _ => none

/-- The barrier instructions: form, kind, barrier, expectation and count (R186). -/
def bars (i : Instr) : Option (Form × BarKind × Nat × Nat × Nat) :=
  match i with
  | .bar id => some (barForm (bForm 2), .both, id, 0, 1)
  | .barA id => some (barForm (bForm 2), .arrive, id, 0, 1)
  | .barW id => some (barForm (bForm 2), .wait, id, 0, 1)
  | .barExt g k id e n => some (barForm (eForm g 2), k, id, e, n)
  | _ => none

/-- The tag waits: form, whether for all tags, destination and mask (R190). -/
def tagWaits (i : Instr) : Option (Form × Bool × Nat × (Warp → DWord)) :=
  match i with
  | .twany a d => some (bForm 2, false, d, fun w => w.kr a)
  | .twanyExt g d b => some ({ eForm g 2 with len := lenK b }, false, d, kSrcVal b)
  | .twall a d => some (bForm 2, true, d, fun w => w.kr a)
  | .twallExt g d b => some ({ eForm g 2 with len := lenK b }, true, d, kSrcVal b)
  | _ => none

/-! ### Conversions over runs of registers (R149 to R159) -/

/-- A conversion: its form, whether its slot and registers are legal, and what a register of a lane then holds; none where it is as
before. -/
structure RunShape where
  form : Form
  legal : Bool
  val : Warp → Nat → Nat → Option Word

/-- A register of a run. -/
def runVal (first n : Nat) (vs : List Word) (r : Nat) : Option Word := if first ≤ r ∧ r < first + n then some (vs.getD (r - first) 0) else none

/-- The registers that `qnt` writes: the element run, then the scale (R154). -/
def qntVal (sl : Slot) (e : Cvs) (w : Warp) (l r : Nat) : Option Word :=
  if scaled sl && r == e.c then some (BitVec.ofNat 32 (qntLane sl e w l).scale)
  else runVal e.d (narrowRegs sl sl.block) (packRun (elemBits sl.elem) sl.block fun i => (qntLane sl e w l).code.getD i 0) r

def qntLegal (sl : Slot) (e : Cvs) : Bool :=
  sl.qntOk && qntRet sl e.rt && runOk e.a (wideRegs e.wide sl.block) && runOk e.d (narrowRegs sl sl.block)

def cbxLegal (sl : Slot) (e : Cvs) : Bool := sl.cbxOk && (e.rt != .c || scaled sl) && runOk e.d (wideRegs e.wide 8)

/-- The conversions that only read and write registers; `slot` gives the format slots of the issuing block. -/
def runs (slot : Nat → Slot) (i : Instr) : Option RunShape :=
  match i with
  | .scl e => some { form := { eForm e.g 8 [e.a] (keepOf e.rt [e.a] [] []) with dst := [e.d] }, legal := (slot e.slot).sclOk,
                     val := fun w l r => runVal e.d 1 [BitVec.ofNat 32 (sclCode (slot e.slot) (w.xr e.a l).toNat)] r }
  | .pack4 e => some { form := { eForm e.g 8 (runOf e.a (wideRegs e.wide 8)) (keepOf e.rt (runOf e.a (wideRegs e.wide 8)) [] []) with
                                 dst := [e.d], full := true },
                       legal := (slot e.slot).pack4Ok && runOk e.a (wideRegs e.wide 8),
                       val := fun w l r => runVal e.d 1 [pack4Lane (slot e.slot) e w l] r }
  | .unpack4 e => some { form := { eForm e.g 8 [e.a] (keepOf e.rt [e.a] [] []) with dst := runOf e.d (wideRegs e.wide 8), full := true },
                         legal := (slot e.slot).pack4Ok && runOk e.d (wideRegs e.wide 8),
                         val := fun w l r => runVal e.d (wideRegs e.wide 8) (unpack4Lane (slot e.slot) e w l) r }
  | .dqn e => some { form := dqnForm (slot e.slot) e,
                     legal := (slot e.slot).dqnOk && (e.rt != .c || scaled (slot e.slot))
                       && runOk e.a (narrowRegs (slot e.slot) (slot e.slot).block) && runOk e.d (wideRegs e.wide (slot e.slot).block),
                     val := fun w l r => runVal e.d (wideRegs e.wide (slot e.slot).block) (dqnLane (slot e.slot) e w l) r }
  | .qnt e => if (slot e.slot).outl then none else
      some { form := qntForm (slot e.slot) e, legal := qntLegal (slot e.slot) e, val := fun w l r => qntVal (slot e.slot) e w l r }
  | _ => none

/-- The lanes' registers after a conversion: the enabled lanes' as it gives them, all others as before. -/
def RunRegs (en : Word) (val : Nat → Nat → Option Word) (w w' : Warp) : Prop :=
  ∀ n, ∀ l < 32, w'.xr n l = if laneIn en l then (val l n).getD (w.xr n l) else w.xr n l

/-! ### Operations handed to an engine (R192 to R217) -/

/-- An operation of the matrix engine: form, tag, the checks on slot and registers, the traps of step 1, and the operation that step 4
makes in the state where the context owns the macros; none where step 4 traps. `names` are the handles whose descriptors step 4 reads. -/
structure MatShape where
  form : Form
  tag : Nat
  legal : State → Warp → Bool
  pre : State → Warp → Option Trap
  owns : Bool
  names : Warp → List DWord := fun _ => []
  kind : State → Ctx → Warp → Option MatKind

def accShape (ld : Bool) (g slot : Nat) (sp : Spc) (d a b tag : Nat) : MatShape :=
  { form := engForm g 4 true, tag := tag, owns := false,
    legal := fun s w => (if ld then (s.curSlot slot).accLdOk else (s.curSlot slot).accStOk) && accRegs (s.curSlot slot) sp d a b w,
    pre := fun s w => s.accTrap (s.curSlot slot) sp w d a b,
    kind := fun s _ w => some (if ld then .accLd (s.curSlot slot) sp (w.kr d).toNat (w.kr a).toNat (w.kr b).toNat
      else .accSt (s.curSlot slot) sp (w.kr d).toNat (w.kr a).toNat (w.kr b).toNat) }

def mats (i : Instr) : Option MatShape :=
  match i with
  | .bld g slot tile a b cR set => some
      { form := engForm g 4 true, tag := set.tag, owns := true, names := fun w => if tile then [w.kr a] else [],
        legal := fun s w => (s.curSlot slot).bRoleOk && (set.nm == 1 || Slot.cellWidth (s.curSlot slot).elem == 16)
          && bldRegs tile (s.curSlot slot) a w,
        pre := fun s w => firstTrap [s.ownerTrap (coreOf s.cur) w.ctx, s.handleTrap w tile],
        kind := fun s c w => (match c.handleOf tile (w.kr a) s with
          | .error _ => none
          | .ok desc => (match s.bldInfo (c.eng w) tile (s.curSlot slot) (w.kr a) (w.kr cR) desc set with
            | .error _ => none
            | .ok info => some (.bld tile (s.curSlot slot) (w.kr a) (w.kr b) desc set info))) }
  | .mmo g d a set => some
      { form := engForm g 4 true, tag := set.tag, owns := true,
        legal := fun _ w => desigOk (w.kr d),
        pre := fun s w => firstTrap [s.heldTrap w.blk (w.kr d).toNat, s.ownerTrap (coreOf s.cur) w.ctx,
          if (w.kr a).toNat % 64 = 0 then none else some { cls := .align, addr := w.kr a }],
        kind := fun s c w => if ((s.core c.core).setShape set).isNone then none else some (.mmo (w.kr d).toNat (w.kr a).toNat set) }
  | .accLd g slot sp d a b tag => some (accShape true g slot sp d a b tag)
  | .accSt g slot sp d a b tag => some (accShape false g slot sp d a b tag)
  | _ => none

/-- A copy: form, checks on registers, tag and command (R215 to R217). -/
structure CopyShape where
  form : Form
  legal : Warp → Bool
  tag : Nat
  cmd : State → Warp → CopyCmd

def copies (i : Instr) : Option CopyShape :=
  match i with
  | .cpy g d a b c tag sh dh ss ds => some
      { form := engForm g 4 false .u, legal := cpyRegs d a b c sh dh ss ds, tag := tag,
        cmd := fun s w => copyCmd 0 s.cur w s (w.kr d) (w.kr a) (w.kr b) (w.kr c) tag sh dh ss ds 0 0 }
  | .cpw g d a b tag lb => some
      { form := engForm g 4 true, legal := fun w => resAbove (w.kr d) 32 && resAbove (w.kr a) 12, tag := tag,
        cmd := fun s w => copyCmd 1 s.cur w s (w.kr d) (w.kr a) (w.kr b) 0 tag true false false true lb 0 }
  | .cps g d a b c tag ss ds => some
      { form := engForm g 4 false .u, legal := cpsRegs d a c ss ds, tag := tag,
        cmd := fun s w => copyCmd 2 s.cur w s (w.kr d) (w.kr a) (w.kr b) (w.kr c) tag false false ss ds 0 0 }
  | _ => none

/-- The multiplies: whether over a yard, and the operands (R209 to R211). -/
def multiplies (i : Instr) : Option (Bool × Mm) :=
  match i with
  | .mmx e => some (false, e)
  | .mmq e => some (true, e)
  | _ => none

/-- The collective commands: form, checks on registers, and the command under a name (R219, R220). -/
def colls (i : Instr) : Option (Nat × (Warp → Bool) × (Nat → Warp → Nat → CollCmd)) :=
  match i with
  | .coll g a rq => some (g, fun _ => true, fun wid w n => collCmd false wid w 0 (w.kr a) rq false n)
  | .rsum g a b rq ss => some (g, fun w => !ss || resAbove (w.kr a) 32, fun wid w n => collCmd true wid w (w.kr a) (w.kr b) rq ss n)
  | _ => none

/-- The remote invocations, and whether a refusal traps: guard, D, target, arguments, HIDX, NARG, CLS (R221). -/
def invokes (i : Instr) : Option (Bool × Nat × Nat × Nat × Nat × Nat × Nat × Nat) :=
  match i with
  | .rinv g d a b hidx narg cls => some (false, g, d, a, b, hidx, narg, cls)
  | .rinvT g d a b hidx narg cls => some (true, g, d, a, b, hidx, narg, cls)
  | _ => none

/-! ### Every form of the tables -/

/-- The forms of the instructions that name no lane register and stand in no table above. -/
def plainForm (i : Instr) : Option Form :=
  match i with
  | .resume _ => some { bForm 2 with level := .p }
  | .halt => some { bForm 2 with level := .s }
  | .rblkAcq g .. => some (engForm g 2 false .p)
  | .rblkRel g _ => some (engForm g 2 false .p)
  | .abkGet g _ => some (engForm g 2 true)
  | .abkPut g _ => some (engForm g 2 true)
  | .accZ g _ => some (engForm g 4 true)
  | .cdecl g .. => some (engForm g 4 true)
  | .csig g _ => some (engForm g 4 true)
  | .postQueue g .. => some (engForm g 4)
  | .fgetQueue g .. => some (engForm g 4)
  | .fget g .. => some (engForm g 4)
  | .fput g .. => some (engForm g 4)
  | .launch g .. => some (engForm g 4)
  | .post g .. => some (engForm g 4)
  | .intent g .. => some (engForm g 1)
  | _ => none

/-- The form of an instruction of the tables above, with every lane register that it names; `slot` gives the format slots of the issuing
block. -/
def formOf (slot : Nat → Slot) (i : Instr) : Option Form :=
  [(intBase i).map VecShape.full, (intExt i).map VecShape.full, (fpBase i).map VecShape.full, (fpExt i).map VecShape.full,
   (mask i).map MaskShape.form, (scalar i).map ScaShape.form, (jumps i).map JumpShape.full, (loads i).map LoadShape.form,
   (stores i).map StoreShape.form, (atomics i).map AtomShape.form, (caches i).map CacheShape.form, (traps i).map fun x => x.1,
   (bars i).map fun x => x.1, (tagWaits i).map fun x => x.1, (runs slot i).map RunShape.form, (mats i).map MatShape.form,
   (copies i).map CopyShape.form, (multiplies i).map fun x => engForm x.2.g 4 true, (colls i).map fun x => engForm x.1 4 true,
   (invokes i).map fun x => engForm x.2.1 4 false .u, plainForm i].findSome? id

end Sys2Proof.Machine.Shape
end

