-- ==== Sys2Proof/Certificates/Slice0/Obligations.lean ====
section
/-!
DEFINITION. Certificates/Slice0/Obligations.lean: the statements for the provers, each a numbered rule of spec/ or what follows from
several. Ready, VecDone and their like are defined in Safety.lean, the tables of values in Safety/Shapes.lean.
-/

open Sys2Proof Sys2Proof.Machine Sys2Proof.Machine.Shape

/-! ### Decoding, reset and the step -/

/-- Words written out bit by bit from the tables of spec/02 and the forms of R14 to R17: F, A, D, OP, LEN from bit 31 down. -/
def Obligations.SpecWordsDecode : Prop :=
  decodeTableWord 32 0b0000_000000000_000000000_00000001_00 = some .nop ∧
  decodeTableWord 32 0b0000_000000101_000000111_00100000_00 = some (.add .i32 5 7) ∧
  decodeTableWord 32 0b0000_000000010_000000011_01010010_00 = some (.kadd 2 3) ∧
  decodeTableWord 32 0b0000_000000001_000000010_01100000_00 = some (.fadd .f32 1 2) ∧
  decodeTableWord 32 0b0001_000000011_000000000_11010010_00 = some (.barA 3) ∧
  decodeTableWord 96 (0b0011_000000000_000000000_11010000_01 + 2 ^ 32 * (2 * 2 ^ 18 + 1 * 2 ^ 22)) = some (.fenceR 3 .bk) ∧
  decodeTableWord 32 0b0000_000000000_000000001_00000001_00 = none

/-- Decoding and encoding agree (R14 to R23): every well-formed instruction that has words is what its words decode to, whatever words
follow. -/
def Obligations.DecodeInvertsEncode : Prop :=
  ∀ (i : Instr) (rest : List Nat), i.wf → (toRaw i).isSome = true → decodeWords (encodeWords i ++ rest) = .ok (i, rest)

/-- Right after reset (R11, R193, R430): no warp, block or grid, no byte written; registers read the reset values their lines give, and no
tag is in flight. The buffer at BOOT+0x500 has no reset line: that it reads 0 is the model's choice, log entry 3. -/
def Obligations.ResetState : Prop :=
  ∀ r, r = State.reset → r.mem.wf = true ∧ r.warps = [] ∧ r.blocks = [] ∧ r.grids = [] ∧ r.agenda = [] ∧
    r.ap! offDevId = 0x3FF ∧ r.ap! offBootStat = 0 ∧ r.ap! offExtend = 0 ∧ r.ap! offMeasCmd = 0 ∧ (∀ n < 5, r.ap! (offDoor n) = 0) ∧
    (∀ d < 4, r.ap! (offWdLocal d) = 0x18 ∧ r.ap! (offPhsCtx d) = 0 ∧ r.ap! (offPhsCore d) = 0 ∧ r.ap! (offMemCtl d) = 0 ∧
      (r.die d).clk = 0 ∧ r.service d = 0) ∧
    (∀ c, (r.core c).replays = 0 ∧ ∀ ctx tag, (r.core c).tagFlies ctx tag = false)

/-- Memory keeps its canonical form (log entry 4): keys rising, no entry that reads as an unlisted byte reads. -/
def Obligations.StepKeepsMemoryCanonical : Prop :=
  ∀ s s', s.mem.wf = true → step s = .next s' → s'.mem.wf = true

/-- A step runs what it decodes (R27, R48 checks 1 to 3): with a warp's issue at the head of the agenda, its issuing group's words
translated, its level sufficient and the words those of an instruction, the step is `exec` of that instruction, in the state whose
free values have moved on and whose TLB and instruction cache hold what the fetch used, the lines it missed and the tables it walked read
at their homes (with no detector armed and no error in memory nothing else differs). A word that does not translate traps at the
instruction with the miss that its translation finds; one whose table line a peer holds recalls that line and is tried again. Words that
hold no instruction run `illegalEncoding`; an insufficient level traps before the other words are fetched. A party's step at the head runs
that party; with nothing there the device's next cycle is put there. An issue of a reduce block's warp is one of its routine's (R359). An
error that its check corrects is logged, one that no check finds changes what it changes, one that arises in memory waits there for its
consumer; a lost device, and bytes of a copy from a peer, arrive. The model's choices: log entries 1, 85, 109, 129, 130 and 131. -/
def Obligations.StepRunsDecodedInstruction : Prop :=
  (∀ (s s1 : State) (v key w0 : Nat) (q : List Pending) (w : Warp) (ws : List (Nat × Nat)), s.agenda = .issue v :: q →
    s1 = { s.tick with agenda := q, cur := v, apart := Config.apart s.own.freeCount } → s1.warp? v = some w → w.group ≠ 0 →
    s1.workOf w = none → s1.codeWord (coreOf v) w (w.leastPc w.group) = .ok (key, w0) →
    (∀ cls, opForms (w0 / 4 % 256) ≠ [] → formOk (w0 / 4 % 256) (w0 % 4) = true →
      levelTrap (opLevel (w0 / 4 % 256) (srField (rawOfWord0 w0))) w.level = some cls →
      step s = .next (s1.discardTrap v { cls := cls } w.group (w.leastPc w.group))) ∧
    (opForms (w0 / 4 % 256) = [] ∨ formOk (w0 / 4 % 256) (w0 % 4) = false → step s = exec .illegalEncoding s1) ∧
    (opForms (w0 / 4 % 256) ≠ [] → formOk (w0 / 4 % 256) (w0 % 4) = true →
      levelTrap (opLevel (w0 / 4 % 256) (srField (rawOfWord0 w0))) w.level = none →
      (∀ m, s1.codeWords (coreOf v) w (w.leastPc w.group + 4) (lenWords (w0 % 4) - 1) = .error m → m.wait = none → m.cls ≠ .ue →
        step s = .next (s1.discardTrap v m w.group (w.leastPc w.group))) ∧
      (s1.codeWords (coreOf v) w (w.leastPc w.group + 4) (lenWords (w0 % 4) - 1) = .ok ws →
      ∃ s2, s2.cur = v ∧
        (s1.ap! offInjMask = 0 → s1.mem.upset = [] → s2.warps = s1.warps ∧ s2.ap = s1.ap ∧ s2.blocks = s1.blocks ∧ s2.grids = s1.grids ∧
          s2.dev = s1.dev ∧ s2.own = s1.own ∧ s2.agenda = q ∧ (∀ k, k ≠ coreOf v → s2.core k = s1.core k) ∧
          s2.mem = { s1.mem with ytlb := s2.mem.ytlb, frames := s2.mem.frames, dirty := s2.mem.dirty, l2 := s2.mem.l2, excl := s2.mem.excl } ∧
          ((∀ x ∈ (key, w0) :: ws, s1.codeHeld (coreOf v) x.1 = true) → s1.trailOf (coreOf v) w.ctx (w.leastPc w.group) = [] →
            s2.mem = { s1.mem with ytlb := s2.mem.ytlb } ∧ s2.dies = s1.dies)) ∧
        (∀ i rest, decodeWords (w0 :: ws.map (·.2)) = .ok (i, rest) → step s = exec i s2) ∧
        (∀ e, decodeWords (w0 :: ws.map (·.2)) = .error e → step s = exec .illegalEncoding s2)))) ∧
  (∀ (s s1 : State) (v : Nat) (q : List Pending) (w : Warp) (m : Trap), s.agenda = .issue v :: q →
    s1 = { s.tick with agenda := q, cur := v, apart := Config.apart s.own.freeCount } → s1.warp? v = some w → w.group ≠ 0 →
    s1.workOf w = none → s1.codeWord (coreOf v) w (w.leastPc w.group) = .error m →
    (∀ line, m.wait = some line → step s = .next (s1.askBack [line])) ∧
    (m.wait = none → m.cls ≠ .ue → step s = .next (s1.discardTrap v m w.group (w.leastPc w.group)))) ∧
  (∀ (s s1 : State) (v : Nat) (q : List Pending) (w : Warp) (k : Routine), s.agenda = .issue v :: q →
    s1 = { s.tick with agenda := q, cur := v, apart := Config.apart s.own.freeCount } → s1.warp? v = some w → w.group ≠ 0 →
    s1.workOf w = some k → step s = .next (s1.routineIssue v w k)) ∧
  (∀ (s : State) (e : Ev) (q : List Pending), s.agenda = .event e :: q → step s = runEv e { s.tick with agenda := q }) ∧
  (∀ (s s1 : State) (p : Pending) (q : List Pending), s.agenda = p :: q → s1 = { s.tick with agenda := q } →
    (∀ unit line, p = .corrected unit line → step s = .next (s1.corrected unit line)) ∧
    (∀ dev, p = .lost dev → step s = .next (s1.lose dev)) ∧ (∀ x, p = .slip x → step s = .next (s1.slip x)) ∧
    (∀ word unit, p = .upset word unit → step s = .next (s1.upsets word unit)) ∧
    (∀ grid blk off bytes, p = .spad grid blk off bytes → step s = .next (s1.spadIn grid blk off bytes))) ∧
  (∀ (s : State), s.agenda = [] → step s = .next s.tick.refill)

/-- The checks before an effect (R27, R48, R99, R162, R291, R399): a word that does not translate traps at its fetch; a level too low or the
service core's is PRIV or ILLEGAL; a register beyond the warp's count, or a form that the die's reduced service lacks, is ILLEGAL, with
nothing charged; a misaligned target, or a load, store, release or atomic that fails its checks, traps at the instruction. In each no
register is written and the lanes are back at their region entry. That the ALIGN of a control transfer counts as R291 counts an access's
is log entry 115. -/
def Obligations.ChecksTrapWithoutEffect : Prop :=
  (∀ (s s1 : State) (v : Nat) (q : List Pending) (w : Warp) (m : Trap), s.agenda = .issue v :: q →
    s1 = { s.tick with agenda := q, cur := v, apart := Config.apart s.own.freeCount } → Traps s1 w → s1.workOf w = none →
    s1.place (coreOf v) w.ctx w.priv .fetch (w.leastPc w.group) = .error m → m.wait = none → m.cls ≠ .ue →
    m.addr = w.leastPc w.group ∧ ∃ t w' p, step s = .next t ∧ TrappedAtRev s1 t w w' p m ∧ t.mem.ver = s1.mem.ver ∧ t.dies = s1.dies) ∧
  (∀ (i : Instr) (f : Form) (s : State) (w : Warp), formOf s.curSlot i = some f → Traps s w →
    (∀ cls, levelTrap f.level w.level = some cls →
      ∃ t w' p, exec i s = .next t ∧ TrappedAtRev s t w w' p { cls := cls } ∧ t.dies = s.dies ∧ (t.core (coreOf s.cur)).level = (s.core (coreOf s.cur)).level) ∧
    (levelTrap f.level w.level = none → w.names f = false ∨ (f.full = true ∧ s.lowService s.cur = true) →
      ∃ t w' p, exec i s = .next t ∧ TrappedAtRev s t w w' p { cls := .illegal } ∧ t.dies = s.dies ∧
        (t.core (coreOf s.cur)).level = (s.core (coreOf s.cur)).level)) ∧
  (∀ (i : Instr) (s : State) (w : Warp), ((∃ a, i = .resume a ∧ w.level = .u) ∨ (i = .halt ∧ w.level ≠ .s)) → Traps s w →
    ∃ t w' p, exec i s = .next t ∧ TrappedAtRev s t w w' p { cls := .priv } ∧ (t.core (coreOf s.cur)).level = (s.core (coreOf s.cur)).level) ∧
  (∀ (i : Instr) (j : JumpShape) (s : State) (w : Warp) (l : Nat), jumps i = some j → Traps s w → Ready j.full 0 s w →
    laneIn (issueCtx j.full s w).en l = true → (j.target (issueCtx j.full s w) w l).toNat % 4 ≠ 0 →
    ∃ t w' p m, exec i s = .next t ∧ m.cls = .align ∧ TrappedAtRev s t w w' p m) ∧
  (∀ (i : Instr) (v : LoadShape) (c : Ctx) (s : State) (w : Warp) (m : Trap), loads i = some v → c = issueCtx v.form s w → Traps s w →
    Ready v.form (6 * (linesNamed c.en (v.ea w)).length) s w → c.en ≠ 0 →
    s.reach s.cur c.en .read v.sp (memBytes v.width) (memBytes v.width) v.ea = .error m → m.wait = none → m.cls ≠ .ue →
    ∃ t w' p, exec i s = .next t ∧ TrappedAtRev s t w w' p m) ∧
  (∀ (i : Instr) (v : StoreShape) (c : Ctx) (s : State) (w : Warp) (m : Trap), stores i = some v → c = issueCtx v.form s w → Traps s w →
    Ready v.form (6 * (linesNamed c.en (v.ea w)).length) s w → c.en ≠ 0 →
    s.reach s.cur c.en (if v.rel then .put else .write) v.sp (memBytes v.width) (memBytes v.width) v.ea = .error m → m.wait = none →
    m.cls ≠ .ue → ∃ t w' p, exec i s = .next t ∧ TrappedAtRev s t w w' p m) ∧
  (∀ (i : Instr) (v : AtomShape) (c : Ctx) (s : State) (w : Warp) (m : Trap), atomics i = some v → c = issueCtx v.form s w → Traps s w →
    Ready v.form 0 s w → c.en ≠ 0 → s.reach s.cur c.en .both .g (atomReads v.kind) (atomReads v.kind) (atmEa v.e) = .error m →
    m.wait = none → m.cls ≠ .ue → ∃ t w' p, exec i s = .next t ∧ TrappedAtRev s t w w' p m) ∧
  (∀ (s : State) (wid : Nat) (lanes : Word) (a : Acc) (sp : Spc) (n align l : Nat) (w : Warp) (ea : Warp → Nat → DWord), s.warp? wid = some w →
    l < 32 → lanes = laneBit l → (ea w l).toNat % align ≠ 0 →
    s.reach wid lanes a sp n align ea = .error { cls := .align, addr := ea w l })

/-! ### Instructions with one effect -/

/-- Every integer instruction, `cvt`, and every floating-point instruction, of base and of extended form, completes with its result in each
enabled lane. The model's choices: log entries 7, 57 (`cvt`'s read of D), 117 (KA of `mad`, `bfi` and `lea`) and 118 (the packed immediate
of `fscale`). -/
def Obligations.VectorInstructionsComplete : Prop :=
  ∀ (i : Instr) (v : VecShape) (s : State) (w : Warp),
    (intBase i = some v ∨ intExt i = some v ∨ fpBase i = some v ∨ fpExt i = some v) → Ready v.full 0 s w →
    ∃ t w', exec i s = .next t ∧ VecDone v.full v.wide v.d (v.val w) s t w w'

/-- Every instruction that writes mask bits completes with the enabled lanes' bits written and no other; every scalar instruction completes,
its k-register written once when a lane is enabled and not at all when none is. -/
def Obligations.MaskAndScalarInstructionsComplete : Prop :=
  (∀ (i : Instr) (v : MaskShape) (s : State) (w : Warp), mask i = some v → Ready v.form 0 s w →
    ∃ t w', exec i s = .next t ∧ MaskDone v.form v.d (v.bits w) s t w w') ∧
  (∀ (i : Instr) (v : ScaShape) (s : State) (w : Warp), scalar i = some v → Ready v.form 0 s w →
    ∃ t w', exec i s = .next t ∧ ScaDone v.form v.d (v.val w) s t w w')

/-- `nop` (R110): its word is 4, it only advances, and a word of its opcode with any other bit set holds no instruction, so that it traps as
ILLEGAL without effect (R19; that a step runs such words as `illegalEncoding` is `StepRunsDecodedInstruction`). -/
def Obligations.NopOnlyAdvances : Prop :=
  decodeTableWord 32 4 = some .nop ∧
  (∀ (w : Nat) (r : List Nat), w < 2 ^ 32 → w / 4 % 256 = 1 → w ≠ 4 → ∀ x, decodeWords (w :: r) ≠ .ok x) ∧
  (∀ (s : State) (w : Warp), Traps s w → ∃ t w' p, exec .illegalEncoding s = .next t ∧ TrappedAtRev s t w w' p { cls := .illegal }) ∧
  (∀ (s : State) (w : Warp), Ready (bForm 2) 0 s w → ∃ t w', exec .nop s = .next t ∧ OnlyAdvances (bForm 2) s t w w')

/-- `pcget` (R115): the forms b and e with an even pair D and A = 0, and no other; each enabled lane's pair takes the instruction's own address. -/
def Obligations.PcgetTakesItsAddress : Prop :=
  (∀ d < 512, decodeTableWord 32 (4 * 0x19 + 2 ^ 10 * d) = (if d % 2 = 0 then some (.pcget d) else none)) ∧
  (∀ d < 512, ∀ a < 512, a ≠ 0 → decodeTableWord 32 (4 * 0x19 + 2 ^ 10 * d + 2 ^ 19 * a) = none) ∧
  (∀ d < 512, ∀ g ≤ 12, decodeTableWord 96 (1 + 4 * 0x19 + 2 ^ 10 * d + 2 ^ 28 * g) = (if d % 2 = 0 then some (.pcgetExt g d) else none)) ∧
  (∀ d < 512, ∀ g ≤ 12, ∀ a < 512, a ≠ 0 → decodeTableWord 96 (1 + 4 * 0x19 + 2 ^ 10 * d + 2 ^ 19 * a + 2 ^ 28 * g) = none) ∧
  (∀ (i : Instr) (f : Form) (g d : Nat) (s : State) (w : Warp),
    (i = .pcget d ∧ f = { bForm 2 with dst := [d, d + 1] }) ∨ (i = .pcgetExt g d ∧ f = { eForm g 2 with dst := [d, d + 1] }) → Ready f 0 s w →
    ∃ t w', exec i s = .next t ∧ VecDone f true d (fun _ => w.leastPc w.group) s t w w')

/-- `mpop` and `mfind` (R114): `mpop` in the base form only, `mfind` in b and e, D a k-register and A a mask; the number of set bits, the lowest
or the highest set lane, 32 for a mask of zero, goes to k[D] once, if a lane is enabled. -/
def Obligations.MaskReductionsComplete : Prop :=
  (∀ d < 512, ∀ a < 512, ∀ v < 16, decodeTableWord 32 (4 * 0x17 + 2 ^ 10 * d + 2 ^ 19 * a + 2 ^ 28 * v)
    = if d < 64 ∧ a < 12 ∧ v = 0 then some (.mpop a d) else none) ∧
  (∀ (w : Nat) (r : List Nat), w < 2 ^ 32 → w / 4 % 256 = 0x17 → w % 4 ≠ 0 → ∀ x, decodeWords (w :: r) ≠ .ok x) ∧
  (∀ d < 512, ∀ a < 512, ∀ v < 16, decodeTableWord 32 (4 * 0x18 + 2 ^ 10 * d + 2 ^ 19 * a + 2 ^ 28 * v)
    = if d < 64 ∧ a < 12 ∧ v = 0 then some (.mfindLo a d) else if d < 64 ∧ a < 12 ∧ v = 1 then some (.mfindHi a d) else none) ∧
  (∀ d < 512, ∀ a < 512, ∀ g < 16, ∀ v < 16, decodeTableWord 96 (1 + 4 * 0x18 + 2 ^ 10 * d + 2 ^ 19 * a + 2 ^ 28 * g + 2 ^ 32 * (2 ^ 18 * v))
    = if d < 64 ∧ a < 12 ∧ g ≤ 12 ∧ v < 2 then some (.mfindExt g (v == 1) d a) else none) ∧
  (∀ (i : Instr) (f : Form) (g d a : Nat) (v : Nat → Option Nat) (s : State) (w : Warp),
    ((i = .mpop a d ∧ f = bForm 2 ∧ v = fun m => some ((List.range 32).countP fun l => m.testBit l)) ∨
      (((i = .mfindLo a d ∧ f = bForm 2) ∨ (i = .mfindExt g false d a ∧ f = eForm g 2)) ∧ v = fun m => (List.range 32).find? fun l => m.testBit l) ∨
      (((i = .mfindHi a d ∧ f = bForm 2) ∨ (i = .mfindExt g true d a ∧ f = eForm g 2)) ∧
        v = fun m => ((List.range 32).map (31 - ·)).find? fun l => m.testBit l)) → Ready f 0 s w →
    ∃ t w', exec i s = .next t ∧ ScaDone f d (BitVec.ofNat 64 ((v (w.mr a).toNat).getD 32)) s t w w')

/-- `gsr` and `tff` complete: a special register, or the lowest set tag of a mask, goes to the destination; %tokens and the like are read with the issue's own charge paid.
The model's choice: log entry 27. -/
def Obligations.SpecialReadsComplete : Prop :=
  ∀ (s : State) (w : Warp) (g a d sr : Nat) (b : KSrc),
    (srAssigned sr = true → Ready { bForm 2 with dst := regPair (sr64 sr) d, level := srLevel sr } 0 s w →
      ∃ t w', exec (.gsr sr d) s = .next t ∧
        VecDone { bForm 2 with dst := regPair (sr64 sr) d, level := srLevel sr } (sr64 sr) d (t.srVal s.cur w sr) s t w w') ∧
    (srAssigned sr = true → srPerLane sr = false → Ready { bForm 2 with level := srLevel sr } 0 s w →
      ∃ t w', exec (.gsrK sr d) s = .next t ∧ ScaDone { bForm 2 with level := srLevel sr } d (t.srVal s.cur w sr 0) s t w w') ∧
    (Ready (bForm 2) 0 s w →
      ∃ t w', exec (.tff a d) s = .next t ∧ ScaDone (bForm 2) d (lowestTag (s.tagsOf s.cur &&& w.kr a)) s t w w') ∧
    (Ready { eForm g 2 with len := lenK b } 0 s w →
      ∃ t w', exec (.tffExt g d b) s = .next t ∧
        ScaDone { eForm g 2 with len := lenK b } d (lowestTag (s.tagsOf s.cur &&& kSrcVal b w)) s t w w')

/-- `ssr` writes %rlimit, from 1 to 255, or %tcmp, once for the warp, and nothing else but the advance. -/
def Obligations.SpecialWritesComplete : Prop :=
  ∀ (s : State) (w : Warp) (a : Nat),
    (Ready (bForm 2) 0 s w → 1 ≤ (w.kr a).toNat → (w.kr a).toNat ≤ 255 →
      ∃ t w', exec (.ssr a 0x020) s = .next t ∧ t.warp? s.cur = some w' ∧ OnlyWarp (w.price (bForm 2)) s t w ∧
        SameRegs w w' ∧ SameStanding w w' ∧ Advanced (issueCtx (bForm 2) s w) w w' ∧
        w'.rlimit = (w.kr a).setWidth 32 ∧ w'.tcmp = w.tcmp ∧ w'.rcount = w.rcount ∧ w'.rsb = w.rsb) ∧
    (Ready (bForm 2) 0 s w →
      ∃ t w', exec (.ssr a 0x024) s = .next t ∧ t.warp? s.cur = some w' ∧ OnlyWarp (w.price (bForm 2)) s t w ∧
        SameRegs w w' ∧ SameStanding w w' ∧ Advanced (issueCtx (bForm 2) s w) w w' ∧
        w'.tcmp = w.kr a ∧ w'.rlimit = w.rlimit ∧ w'.rcount = w.rcount ∧ w'.rsb = w.rsb)

/-- `fence.l` only advances; `phase` also records the phase of its block, and nothing else. -/
def Obligations.AdvancingInstructionsComplete : Prop :=
  ∀ (s : State) (w : Warp) (g id : Nat) (sc : Scope),
    (Ready (eForm g 2) 0 s w → ∃ t w', exec (.fenceL g sc) s = .next t ∧ OnlyAdvances (eForm g 2) s t w w') ∧
    (∀ i f, (i = Instr.phase id ∧ f = { bForm 1 with level := .n }) ∨ (i = Instr.phaseExt g id ∧ f = engForm g 1) →
      Ready f 0 s w → (issueCtx f s w).en ≠ 0 →
      ∃ t w', exec i s = .next t ∧ t.warp? s.cur = some w' ∧ SameRegs w w' ∧ SameStanding w w' ∧ SameSpecials w w' ∧
        Advanced (issueCtx f s w) w w' ∧ t.mem = s.mem ∧ t.ap = s.ap ∧ t.dies = s.dies ∧ t.grids = s.grids ∧ OtherWarps s t ∧
        t.block? w.blk = (s.block? w.blk).map (fun b => { b with phase := id }) ∧ ∀ k, k ≠ w.blk → t.block? k = s.block? k)

/-- Every control transfer whose enabled lanes have aligned targets sends them there and writes its link. -/
def Obligations.ControlTransfersComplete : Prop :=
  ∀ (i : Instr) (j : JumpShape) (s : State) (w : Warp), jumps i = some j → Ready j.full 0 s w →
    (∀ l, laneIn (issueCtx j.full s w).en l = true → (j.target (issueCtx j.full s w) w l).toNat % 4 = 0) →
    ∃ t w', exec i s = .next t ∧ JumpDone j s t w w'

/-- `yield` and `rgn` commit, leave their lanes behind them, and defer the lanes or set their region's budget; `exit` commits, its enabled
lanes have exited and do not move, and the last lane's exit puts the warp's retirement next (R102, R105, R187, R258). -/
def Obligations.RegionEndsComplete : Prop :=
  (∀ (i : Instr) (f : Form) (s : State) (w : Warp) (g b : Nat),
    (i = .yield ∧ f = { bForm 2 with yields := true }) ∨ (i = .rgn g b ∧ f = eForm g 2) →
    CommitsEmpty s w → Ready f 0 s w → (issueCtx f s w).en ≠ 0 →
    ∃ t w', exec i s = .next t ∧ t.warp? s.cur = some w' ∧ OnlyWarp (w.price f) s t w ∧ Committed f s w w' ∧ LeftBehind f s w w' ∧
      w'.exited = w.exited ∧ w'.deferred = (if i = .yield then (issueCtx f s w).en else 0) ∧
      ∀ l < 32, w'.budgetOf l = if laneIn (issueCtx f s w).en l then (if i = .yield then 32 else b) else w.budgetOf l) ∧
  (∀ (i : Instr) (f : Form) (s : State) (w : Warp) (g : Nat),
    (i = .exit ∧ f = { bForm 2 with yields := true }) ∨ (i = .exitExt g ∧ f = { eForm g 2 with yields := true }) →
    CommitsEmpty s w → Ready f 0 s w → (issueCtx f s w).en ≠ 0 →
    ∃ t w', exec i s = .next t ∧ t.warp? s.cur = some w' ∧ Committed f s w w' ∧
      w'.exited = w.exited ||| (issueCtx f s w).en ∧
      (∀ l, laneIn (issueCtx f s w).en l = true → w'.pc l = w.pc l) ∧
      (∀ l, laneIn w.group l = true → laneIn (issueCtx f s w).en l = false → w'.pc l = w.pc l + BitVec.ofNat 64 f.len) ∧
      t.mem = s.mem ∧ t.ap = s.ap ∧ t.blocks = s.blocks ∧ t.dies = s.dies ∧ t.grids = s.grids ∧ OtherWarps s t ∧
      t.agenda = if w'.exited = 0xFFFFFFFF ∧ isService (coreOf s.cur) = false then .event (.warpRetire s.cur) :: s.agenda else s.agenda)

/-- Commit() (R166, R168, R173): at a commit point of a warp that holds plain bytes for unpoisoned lines of memory, each byte of the
enabled lanes goes to its home, so that memory then reads as the warp's own loads read it before; every line written steps its version
once, and no other; what disabled lanes hold stays held. Where other parties may see one line before the next, one of them drains in a
step, and the instruction stays at its commit (log entry 1). -/
def Obligations.CommitDrainsHeldBytes : Prop :=
  (∀ (f : Form) (c : Ctx) (s : State) (w v : Warp), f = { bForm 2 with yields := true } → c = issueCtx f s w → Ready f 0 s w → c.en ≠ 0 →
    w.timer = false → w.faults = [] → s.mem.marks = [] → Unawaited s s.cur →
    v = { w with rsb := w.rsb.filter (fun h => laneIn c.en (Warp.heldLane h)) } →
    (∀ h ∈ w.rsb, ∃ key lane x nib, h = .byte .g key lane x nib ∧ isAp key = false ∧ s.broken (lineOf key) = false ∧
      s.leasedOut (lineOf key) = false) → (s.apart = false ∨ (s.linesDue s.cur c.en).length ≤ 1) →
    ∃ t w', exec .yield s = .next t ∧ t.warp? s.cur = some w' ∧ LeftBehind f s w w' ∧ SameRegs w w' ∧ w'.rcount = 0 ∧
      w'.rsb = w.rsb.filter (fun h => !laneIn c.en (Warp.heldLane h)) ∧
      (∀ key, t.mem.byte key = v.forward .g key (s.mem.byte key)) ∧
      (∀ line, Mem.versioned line = true → (∃ key lane x nib, Held.byte .g key lane x nib ∈ v.rsb ∧ nib ≠ 0 ∧ lineOf key = line) →
        t.mem.version line = s.mem.version line + 1) ∧
      (∀ line, (∀ key lane x nib, Held.byte .g key lane x nib ∈ v.rsb → nib ≠ 0 → lineOf key ≠ line) →
        t.mem.version line = s.mem.version line) ∧
      SameElsewhere s t) ∧
  (∀ (f : Form) (c : Ctx) (s : State) (w : Warp), f = { bForm 2 with yields := true } → c = issueCtx f s w → Ready f 0 s w → c.en ≠ 0 →
    (∀ h ∈ w.rsb, ∃ key lane x nib, h = .byte .g key lane x nib ∧ isAp key = false ∧ s.broken (lineOf key) = false ∧
      s.leasedOut (lineOf key) = false) → s.apart = true → 1 < (s.linesDue s.cur c.en).length →
    ∃ t w' line v, exec .yield s = .next t ∧ t.warp? s.cur = some w' ∧ (0, line) ∈ s.linesDue s.cur c.en ∧
      v = { w with rsb := w.rsb.filter (fun h => laneIn c.en (Warp.heldLane h) && Warp.heldLine h == (0, line)) } ∧
      w'.rsb = w.rsb.filter (fun h => !(laneIn c.en (Warp.heldLane h) && Warp.heldLine h == (0, line))) ∧
      (∀ key, t.mem.byte key = v.forward .g key (s.mem.byte key)) ∧ (∀ l, l ≠ line → t.mem.version l = s.mem.version l) ∧
      (Mem.versioned line = true → t.mem.version line = s.mem.version line + 1) ∧ SameRegs w w' ∧ w'.rcount = w.rcount ∧
      (∀ l, laneIn w.group l = true → w'.pc l = w.pc l) ∧
      w'.stage = some { kind := 4, lanes := w.group, step := 2 } ∧ SameElsewhere s t)

/-- `fence`: an acquire fence only advances its lanes and drops from the core's L1 the words it does not own; any other is a commit point, with
that acquire where its ordering names one (R182). `fence.r` with no other warp within its scope has the effect of `fence.ar` (R183);
`xfence` orders the paths: its receiving core path self-invalidates, the copy engine drops its windows of the context and the operand fetcher what it has staged for it (R184).
The model's choice: log entry 32. -/
def Obligations.FencesComplete : Prop :=
  (∀ (s : State) (w : Warp) (g : Nat) (ord : Ord) (sc : Scope), CommitsEmpty s w → Ready (eForm g 2) 0 s w →
    (issueCtx (eForm g 2) s w).en ≠ 0 →
    ∃ t w', exec (.fence g ord sc) s = .next t ∧ t.warp? s.cur = some w' ∧
      (if ord = .acq then SameRegs w w' ∧ SameSpecials w w' ∧ Advanced (issueCtx (eForm g 2) s w) w w'
        else Committed (eForm g 2) s w w' ∧ LeftBehind (eForm g 2) s w w') ∧
      SameBytes s t ∧ t.mem.ver = s.mem.ver ∧ t.ap = s.ap ∧ t.blocks = s.blocks ∧ t.dies = s.dies ∧ OtherWarps s t ∧
      ∀ line, Tab.look (t.core (coreOf s.cur)).l1 line
        = (Tab.look (s.core (coreOf s.cur)).l1 line).map (acquiredLine (ord = .acq || ord = .ar) sc)) ∧
  (∀ (g : Nat) (sc : Scope) (f : Form) (s : State) (w : Warp), f = eForm g 2 → fenceRLegal sc = true → CommitsEmpty s w → Ready f 0 s w →
    (issueCtx f s w).en ≠ 0 → s.fenceTargets s.cur w sc = [] → (sc = .pk → s.routed = false) → w.blocked = [] →
    ∃ t w', exec (.fenceR g sc) s = .next t ∧ t.warp? s.cur = some w' ∧ SameRegs w w' ∧ w'.rcount = 0 ∧ w'.blocked = [] ∧
      LeftBehind f s w w' ∧ SameBytes s t ∧ t.mem.ver = s.mem.ver ∧ SameElsewhere s t ∧
      ∀ line, Tab.look (t.core (coreOf s.cur)).l1 line = (Tab.look (s.core (coreOf s.cur)).l1 line).map (acquiredLine true sc)) ∧
  (∀ (g : Nat) (sc : Scope) (p q : Path) (f : Form) (s : State) (w : Warp), f = eForm g 2 → CommitsEmpty s w → Ready f 0 s w →
    (issueCtx f s w).en ≠ 0 →
    ∃ t w', exec (.xfence g sc p q) s = .next t ∧ t.warp? s.cur = some w' ∧ SameRegs w w' ∧ SameBytes s t ∧ t.mem.ver = s.mem.ver ∧
      SameElsewhere s t ∧ (if p = .core then LeftBehind f s w w' ∧ w'.rcount = 0 else Advanced (issueCtx f s w) w w' ∧ w'.rcount = w.rcount) ∧
      (q = .core → ∀ line, Tab.look (t.core (coreOf s.cur)).l1 line
        = (Tab.look (s.core (coreOf s.cur)).l1 line).map (acquiredLine true sc)) ∧
      (q = .copy → ∀ k x, Tab.look (t.core (coreOf s.cur)).windows k = some x →
        x.ctx ≠ w.ctx ∧ Tab.look (s.core (coreOf s.cur)).windows k = some x) ∧
      (q = .mfetch → ∀ x, x ∈ (t.core (coreOf s.cur)).staged ↔ x ∈ (s.core (coreOf s.cur)).staged ∧ x.ctx ≠ w.ctx))

/-- A load whose enabled lanes reach their bytes completes: each lane's destination is the loaded number, extended as its width says, with
the bytes that the warp itself holds in place; memory and everything else is as before.
The model's choice: log entry 50. -/
def Obligations.LoadsComplete : Prop :=
  ∀ (i : Instr) (v : LoadShape) (c : Ctx) (s : State) (w : Warp) (spots : List Spot), loads i = some v → c = issueCtx v.form s w →
    Ready v.form (6 * (linesNamed c.en (v.ea w)).length) s w → c.en ≠ 0 →
    Reaches s c.en .read v.sp (memBytes v.width) (memBytes v.width) v.ea spots →
    s.raceTrap s.cur v.sp spots (memBytes v.width) false v.ea = none →
    ∃ t w', exec i s = .next t ∧ t.warp? s.cur = some w' ∧
      (∀ l, laneIn c.en l = true → w'.xn v.width.wide v.d l
        = held v.width.wide (loadValue v.width (s.loadNum (coreOf s.cur) w v.sp (atLane 0 spots l) (memBytes v.width)))) ∧
      (∀ n, ∀ l < 32, n ∉ regPair v.width.wide v.d ∨ laneIn c.en l = false → w'.xr n l = w.xr n l) ∧
      w'.k = w.k ∧ w'.m = w.m ∧ w'.rsb = w.rsb ∧ Advanced c w w' ∧ SameStanding w w' ∧ SameSpecials w w' ∧
      SameBytes s t ∧ t.mem.ver = s.mem.ver ∧ SameElsewhere s t

/-- `kld` reads eight bytes once for the warp into a k-register; `ldv` reads value and version of each lane's line at its home. -/
def Obligations.ScalarAndVersionLoadsComplete : Prop :=
  (∀ (g d a : Nat) (sp : Spc) (idx : Option Nat) (off : BitVec 32) (f : Form) (c : Ctx) (s : State) (w : Warp) (key lane : Nat),
    f = eForm g 3 → c = issueCtx f s w → c.en ≠ 0 → Ready f 6 s w →
    Reaches s c.uniform.en .read sp 8 8 (kldEa sp a idx off) [(lane, key)] →
    s.raceTrap s.cur sp [(lane, key)] 8 false (kldEa sp a idx off) = none →
    ∃ t w', exec (.kld g sp d a idx off) s = .next t ∧ t.warp? s.cur = some w' ∧
      w'.kr d = BitVec.ofNat 64 (s.loadNum (coreOf s.cur) w sp key 8) ∧ (∀ n, n ≠ d → w'.kr n = w.kr n) ∧ w'.x = w.x ∧ w'.m = w.m ∧
      w'.rsb = w.rsb ∧ Advanced c w w' ∧ SameStanding w w' ∧ SameSpecials w w' ∧ SameBytes s t ∧ SameElsewhere s t) ∧
  (∀ (wide : Bool) (acq : Option Scope) (d n vd : Nat) (e : Sys2Proof.Mem) (f : Form) (c : Ctx) (s : State) (w : Warp) (spots : List Spot),
    n = (if wide then 8 else 4) → vd = (if wide then d + 2 else d + 1) →
    f = { eForm e.g 4 (memRegs e) (memKeep e []) with dst := regPair wide d ++ [vd] } → c = issueCtx f s w → c.en ≠ 0 →
    Ready f (6 * (linesNamed c.en (memEa .g e w)).length) s w → Reaches s c.en .read .g n n (memEa .g e) spots →
    ∃ t w', exec (.ldv wide acq d e) s = .next t ∧ t.warp? s.cur = some w' ∧
      (∀ l, laneIn c.en l = true → w'.xn wide d l = BitVec.ofNat 64 (s.homeRead w.blk .g (atLane 0 spots l) n) ∧
        w'.xr vd l = s.versionAt (atLane 0 spots l)) ∧
      (∀ m, ∀ l < 32, (m ∉ regPair wide d ∧ m ≠ vd) ∨ laneIn c.en l = false → w'.xr m l = w.xr m l) ∧ w'.k = w.k ∧ w'.m = w.m ∧
      w'.rsb = w.rsb ∧ Advanced c w w' ∧ SameStanding w w' ∧ SameBytes s t ∧ t.mem.ver = s.mem.ver ∧ SameElsewhere s t)

/-- A store without ordering is held: the warp's buffer takes the bytes, and what the warp's loads see of a byte, in memory or in the
scratchpad, then has the stored nibbles in place; memory is as before (R166, R172). With `.rel` the region commits, then every lane's bytes
stand at home or in the scratchpad; no byte outside those stored changes (R168, R172). -/
def Obligations.StoresComplete : Prop :=
  (∀ (i : Instr) (v : StoreShape) (c : Ctx) (s : State) (w : Warp) (spots : List Spot), stores i = some v → v.rel = false →
    c = issueCtx v.form s w → Ready v.form (6 * (linesNamed c.en (v.ea w)).length) s w → c.en ≠ 0 →
    Reaches s c.en .write v.sp (memBytes v.width) (memBytes v.width) v.ea spots →
    s.raceTrap s.cur v.sp spots (memBytes v.width) true v.ea = none → (w.holdAll v.sp spots (v.bytes w)).overflows c.en = false →
    ∃ t w', exec i s = .next t ∧ t.warp? s.cur = some w' ∧ w'.rsb = (w.holdAll v.sp spots (v.bytes w)).rsb ∧ SameRegs w w' ∧
      Advanced c w w' ∧ SameStanding w w' ∧ SameSpecials w w' ∧ SameBytes s t ∧ t.mem.ver = s.mem.ver ∧ SameElsewhere s t ∧
      ((v.sp = .g → ∀ p ∈ spots, isAp p.2 = false) → ∀ p ∈ spots,
        (∀ q ∈ spots, q ≠ p → q.2 + memBytes v.width ≤ p.2 ∨ p.2 + memBytes v.width ≤ q.2) →
        ∀ j b old, (v.bytes w p.1)[j]? = some b →
          w'.forward v.sp (p.2 + j) old = nibMerge (w.forward v.sp (p.2 + j) old) b.1 b.2)) ∧
  (∀ (i : Instr) (v : StoreShape) (c : Ctx) (s : State) (w : Warp) (spots : List Spot), stores i = some v → v.rel = true →
    c = issueCtx v.form s w → CommitsEmpty s w → Ready v.form (6 * (linesNamed c.en (v.ea w)).length) s w → c.en ≠ 0 →
    Reaches s c.en .put v.sp (memBytes v.width) (memBytes v.width) v.ea spots →
    s.raceTrap s.cur v.sp spots (memBytes v.width) true v.ea = none → (v.sp = .g → ∀ p ∈ spots, isAp p.2 = false) →
    ∃ t w', exec i s = .next t ∧ t.warp? s.cur = some w' ∧ Committed v.form s w w' ∧ LeftBehind v.form s w w' ∧ t.ap = s.ap ∧
      t.grids = s.grids ∧ t.dev = s.dev ∧ OtherWarps s t ∧
      (v.sp = .g → t.blocks = s.blocks ∧
        (∀ a, (∀ p ∈ spots, a < p.2 ∨ p.2 + memBytes v.width ≤ a) → t.mem.byte a = s.mem.byte a) ∧
        ∀ p ∈ spots, (∀ q ∈ spots, q ≠ p → q.2 + memBytes v.width ≤ p.2 ∨ p.2 + memBytes v.width ≤ q.2) →
          ∀ j b, (v.bytes w p.1)[j]? = some b → t.mem.byte (p.2 + j) = nibMerge (s.mem.byte (p.2 + j)) b.1 b.2) ∧
      (v.sp = .s → SameBytes s t ∧ (∀ k, k ≠ w.blk → t.block? k = s.block? k) ∧
        (∀ a, (∀ p ∈ spots, a < p.2 ∨ p.2 + memBytes v.width ≤ a) → t.spadByte w.blk a = s.spadByte w.blk a) ∧
        ∀ p ∈ spots, (∀ q ∈ spots, q ≠ p → q.2 + memBytes v.width ≤ p.2 ∨ p.2 + memBytes v.width ≤ q.2) →
          ∀ j b, (v.bytes w p.1)[j]? = some b →
            t.spadByte w.blk (p.2 + j) = nibMerge (s.spadByte w.blk (p.2 + j)) b.1 b.2))

/-- The value-returning atomics: the commit comes with the issue, which leaves the step demand of an atomic step a lane to be paid; then, on
lanes that name distinct lines of this device, each lane's destination is what R178 to R181 give from the old value, the written number
stands at home, and no other byte changes. Where other parties' operations fall between two lanes' (R163; log entry 1), the lowest lane
performs and passes, and the others stay to perform later. -/
def Obligations.AtomicsComplete : Prop :=
  (∀ (i : Instr) (v : AtomShape) (c : Ctx) (s : State) (w : Warp) (spots : List Spot), atomics i = some v → c = issueCtx v.form s w →
    CommitsEmpty s w → Ready v.form 0 s w → c.en ≠ 0 → isService (coreOf s.cur) = false →
    Reaches s c.en .both .g (atomReads v.kind) (atomReads v.kind) (atmEa v.e) spots →
    ∃ t w', exec i s = .next t ∧ Demands v.form s t w w') ∧
  (∀ (i : Instr) (v : AtomShape) (c : Ctx) (s : State) (w : Warp) (spots : List Spot), atomics i = some v → c = issueCtx v.form s w →
    c.en ≠ 0 → GoesOn v.form (10 * (lanesOf c.en).length) s w (CommitsEmpty s w) →
    Reaches s c.en .both .g (atomReads v.kind) (atomReads v.kind) (atmEa v.e) spots →
    s.raceTrap s.cur .g spots (atomReads v.kind) true (atmEa v.e) = none → (∀ p ∈ spots, isRemote p.2 = false ∧ isAp p.2 = false) →
    (s.apart = false → (∀ p ∈ spots, ∀ q ∈ spots, p ≠ q → lineOf p.2 ≠ lineOf q.2) →
      ∃ t w', exec i s = .next t ∧ t.warp? s.cur = some w' ∧ LeftBehind v.form s w w' ∧ w'.k = w.k ∧ w'.m = w.m ∧
        (∀ p ∈ spots, ∀ r, r = atomResult v.kind (s.homeNum p.2 (atomReads v.kind)) (s.versionAt p.2) (atomOpOf v.kind v.e v.c w p).b
            (atomOpOf v.kind v.e v.c w p).c →
          w'.xn (atomPair v.kind) v.e.d p.1 = held (atomPair v.kind) r.2 ∧
          (∀ x, r.1 = some x → t.homeNum p.2 (atomWrites v.kind) = BitVec.ofNat 64 (x.toNat % 256 ^ atomWrites v.kind)) ∧
          (r.1 = none → t.homeNum p.2 (atomWrites v.kind) = s.homeNum p.2 (atomWrites v.kind))) ∧
        (∀ n, ∀ l < 32, n ∉ regPair (atomPair v.kind) v.e.d ∨ laneIn c.en l = false → w'.xr n l = w.xr n l) ∧
        (∀ a, (∀ p ∈ spots, a < p.2 ∨ p.2 + atomWrites v.kind ≤ a) → t.mem.byte a = s.mem.byte a) ∧ SameElsewhere s t) ∧
    (∀ p q r, s.apart = true → spots = p :: q :: r →
      ∃ t w' x, exec i s = .next t ∧ t.warp? s.cur = some w' ∧ w'.k = w.k ∧ w'.m = w.m ∧
        x = atomResult v.kind (s.homeNum p.2 (atomReads v.kind)) (s.versionAt p.2) (atomOpOf v.kind v.e v.c w p).b
          (atomOpOf v.kind v.e v.c w p).c ∧
        w'.xn (atomPair v.kind) v.e.d p.1 = held (atomPair v.kind) x.2 ∧
        (∀ y, x.1 = some y → t.homeNum p.2 (atomWrites v.kind) = BitVec.ofNat 64 (y.toNat % 256 ^ atomWrites v.kind)) ∧
        (∀ n, ∀ l < 32, n ∉ regPair (atomPair v.kind) v.e.d ∨ l ≠ p.1 → w'.xr n l = w.xr n l) ∧
        (∀ a, (a < p.2 ∨ p.2 + atomWrites v.kind ≤ a) → t.mem.byte a = s.mem.byte a) ∧
        w'.pc p.1 = c.next ∧ (∀ l, laneIn c.en l = true → l ≠ p.1 → w'.pc l = w.pc l) ∧
        w'.stage = some { kind := 3, lanes := c.en &&& ~~~laneBit p.1, step := 4 } ∧ SameElsewhere s t))

/-- `red`: without ordering it is held, its atomic steps not drawn yet, memory as before; with `.rel` it commits, and once its atomic steps are
paid it performs at home, and no byte outside its numbers changes (R170, R181). The model's choices: log entries 1 and 31. -/
def Obligations.ReductionsComplete : Prop :=
  (∀ (op : AtmOp) (e : Atm) (f : Form) (c : Ctx) (s : State) (w : Warp) (spots : List Spot), f = { atmForm e (regPair op.wide e.b) [] [] with full := halfOp op } →
    e.ord = .none → c = issueCtx f s w → Ready f 0 s w → c.en ≠ 0 →
    Reaches s c.en .write .g (atmBytes op) (atmBytes op) (atmEa e) spots → s.raceTrap s.cur .g spots (atmBytes op) true (atmEa e) = none →
    (spots.foldl (fun v p => v.holdRed p.2 p.1 op (v.xn op.wide e.b p.1)) w).overflows c.en = false →
    ∃ t w', exec (.red op e) s = .next t ∧ t.warp? s.cur = some w' ∧
      w'.rsb = (spots.foldl (fun v p => v.holdRed p.2 p.1 op (v.xn op.wide e.b p.1)) w).rsb ∧ SameRegs w w' ∧ Advanced c w w' ∧
      SameStanding w w' ∧ SameBytes s t ∧ t.mem.ver = s.mem.ver ∧ SameElsewhere s t) ∧
  (∀ (op : AtmOp) (e : Atm) (f : Form) (c : Ctx) (s : State) (w : Warp) (spots : List Spot), f = { atmForm e (regPair op.wide e.b) [] [] with full := halfOp op } →
    e.ord ≠ .none → c = issueCtx f s w → CommitsEmpty s w → Ready f 0 s w → c.en ≠ 0 → isService (coreOf s.cur) = false →
    Reaches s c.en .merge .g (atmBytes op) (atmBytes op) (atmEa e) spots →
    ∃ t w', exec (.red op e) s = .next t ∧ Demands f s t w w') ∧
  (∀ (op : AtmOp) (e : Atm) (f : Form) (c : Ctx) (s : State) (w : Warp) (spots : List Spot), f = { atmForm e (regPair op.wide e.b) [] [] with full := halfOp op } →
    e.ord ≠ .none → c = issueCtx f s w → c.en ≠ 0 → GoesOn f (10 * (lanesOf c.en).length) s w (CommitsEmpty s w) → s.apart = false →
    Reaches s c.en .merge .g (atmBytes op) (atmBytes op) (atmEa e) spots → s.raceTrap s.cur .g spots (atmBytes op) true (atmEa e) = none →
    (∀ p ∈ spots, isAp p.2 = false) →
    ∃ t w', exec (.red op e) s = .next t ∧ t.warp? s.cur = some w' ∧ SameRegs w w' ∧ LeftBehind f s w w' ∧
      (∀ a, (∀ p ∈ spots, a < p.2 ∨ p.2 + atmBytes op ≤ a) → t.mem.byte a = s.mem.byte a) ∧
      (∀ p, spots = [p] → t.homeNum p.2 (atmBytes op)
        = BitVec.ofNat 64 ((atmApply op (s.homeNum p.2 (atmBytes op)) (w.xn op.wide e.b p.1)).toNat % 256 ^ atmBytes op)) ∧ SameElsewhere s t)

/-- `vset`: after the commit the mask's enabled bits say whether every lane's line still has the version it expects (R175).
The model's choice: log entry 30. -/
def Obligations.VersionSetCompletes : Prop :=
  ∀ (g d b : Nat) (rt : Ret) (a : SrcA) (f : Form) (c : Ctx) (s : State) (w : Warp) (spots : List Spot) (ok : Bool),
    f = eForm g 4 (srcARegs true a ++ [b]) (keepOf rt (srcARegs true a) [b] []) → c = issueCtx f s w → CommitsEmpty s w → c.en ≠ 0 →
    Ready f (10 * (linesNamed c.en (fun l => srcAVal true a w l)).length) s w →
    Reaches s c.en .read .g 4 4 (fun w l => srcAVal true a w l) spots → (distinct (spots.map fun p => lineOf p.2)).length ≤ 8 →
    (ok = true ↔ ∀ p ∈ spots, s.versionAt p.2 = w.xr b p.1) →
    ∃ t w', exec (.vset g rt d a b) s = .next t ∧ t.warp? s.cur = some w' ∧ LeftBehind f s w w' ∧ w'.x = w.x ∧ w'.k = w.k ∧
      (∀ l < 32, laneIn (w'.mr d) l = if laneIn c.en l then ok else laneIn (w.mr d) l) ∧ (∀ n, n ≠ d → w'.mr n = w.mr n) ∧
      SameBytes s t ∧ t.mem.ver = s.mem.ver ∧ SameElsewhere s t

/-- Cache control (R176): the lanes advance and no byte of memory changes. A flushed line is clean and out of the L1, and no other line's
standing changes; an invalidated one keeps in the L1 only the words that the core owns; an instruction line is in no instruction cache;
`prf.l1` leaves the line in the L1, `prf.l2` in its home slice, `prf.q` in the core's queue of at most 64 hints, each for the addresses that
are not dropped. The L1 and slice clauses are said of one line, which no other line of the instruction can then displace.
The model's choices: log entries 6 and 99. -/
def Obligations.CacheControlCompletes : Prop :=
  ∀ (i : Instr) (v : CacheShape) (c : Ctx) (s : State) (w : Warp) (spots : List Spot), caches i = some v → c = issueCtx v.form s w →
    Ready v.form (4 * (linesNamed c.en (v.ea w)).length) s w → c.en ≠ 0 →
    (∀ k, v.act ≠ .prefetch k → s.reach s.cur c.en v.act.access .g 1 1 v.ea = .ok spots) →
    ∃ t w', exec i s = .next t ∧ t.warp? s.cur = some w' ∧ SameRegs w w' ∧ Advanced c w w' ∧ SameStanding w w' ∧ SameSpecials w w' ∧
      w'.rsb = w.rsb ∧ SameBytes s t ∧ t.mem.ver = s.mem.ver ∧ SameElsewhere s t ∧
      (v.act = .flush → ∀ n, if n ∈ spots.map (fun p => lineOf p.2) then
          Tab.look t.mem.dirty n = none ∧ Tab.look (t.core (coreOf s.cur)).l1 n = none
        else Tab.look t.mem.dirty n = Tab.look s.mem.dirty n ∧
          Tab.look (t.core (coreOf s.cur)).l1 n = Tab.look (s.core (coreOf s.cur)).l1 n) ∧
      (v.act = .inv → t.mem.dirty = s.mem.dirty ∧ ∀ n, Tab.look (t.core (coreOf s.cur)).l1 n
        = if n ∈ spots.map (fun p => lineOf p.2) then (Tab.look (s.core (coreOf s.cur)).l1 n).map Line.acquired
          else Tab.look (s.core (coreOf s.cur)).l1 n) ∧
      (v.act = .code → ∀ k n, Tab.look (t.core k).icache n
        = if n ∈ spots.map (fun p => lineOf p.2) then none else Tab.look (s.core k).icache n) ∧
      (∀ k line, v.act = .prefetch k → isAp (line * 128) = false → isSram (line * 128) = false →
        distinct ((s.hintKeys s.cur w c.en (v.ea w)).map fun (p : Nat × DWord) => lineOf p.1) = [line] →
        (k = .l1 → isService (coreOf s.cur) = false → ∃ x, Tab.look (t.core (coreOf s.cur)).l1 line = some x ∧ x.valid = 0xFFFFFFFF) ∧
        (k = .l2 → s.mem.frameOf line ≠ none ∨ s.mem.frameFor (s.victim line) line ≠ none → isLocal (line * 128) = true →
          t.mem.frameOf line ≠ none)) ∧
      (v.act = .prefetch .q → (t.core (coreOf s.cur)).hints = if s.ap! offBalCtl % 2 = 0 then (s.core (coreOf s.cur)).hints
        else ((s.core (coreOf s.cur)).hints ++ (distinct ((s.hintKeys s.cur w c.en (v.ea w)).map fun (p : Nat × DWord) => p.2.toNat / 128 * 128)).map
          fun va => (⟨w.ctx, va, (s.clk s.cur).toNat⟩ : Hint)).take 64)

/-- `trap` and `brk`: after their commit they trap with MODE 1 behind themselves, where a handler or debugger takes it (R106, R107). What no
word encodes traps as ILLEGAL without effect: MODE 0, the lanes of the issuing group back at their region entry (R62, R399).
The model's choice: log entry 36. -/
def Obligations.TrapInstructionsTrap : Prop :=
  (∀ (i : Instr) (f : Form) (cls : TrapClass) (info : Nat) (s : State) (w : Warp), traps i = some (f, cls, info) → CommitsEmpty s w →
    Ready f 0 s w → (issueCtx f s w).en ≠ 0 → isService (coreOf s.cur) = false →
    (s.toDebugger w.ctx { cls := cls } = true ∨ (s.ap! (offFltHnd w.ctx) % 2 = 1 ∧ s.isHandler w = false)) →
    ∃ t w' p, exec i s = .next t ∧ Trapped s t w' p ∧ p.trap = { cls := cls, info := BitVec.ofNat 32 info } ∧
      p.lanes = (issueCtx f s w).en ∧ p.mode = 1 ∧ p.pc = (issueCtx f s w).here ∧ p.rpc = (issueCtx f s w).next ∧
      p.debugger = s.toDebugger w.ctx { cls := cls } ∧ SameRegs w w' ∧ w'.rsb = [] ∧ w'.rcount = 0 ∧
      ∀ l, laneIn w.group l = true → laneIn (issueCtx f s w).en l = false → w'.pc l = w.pc l + BitVec.ofNat 64 f.len) ∧
  (∀ (s : State) (w : Warp), s.warp? s.cur = some w → w.group ≠ 0 → isService (coreOf s.cur) = false →
    s.ap! (offFltHnd w.ctx) % 2 = 1 → s.isHandler w = false →
    ∃ t w' p, exec .illegalEncoding s = .next t ∧ Trapped s t w' p ∧ p.trap = { cls := .illegal } ∧ p.lanes = w.group ∧ p.mode = 0 ∧
      p.pc = w.leastPc w.group ∧ SameRegs w w' ∧ w'.rcount = w.rcount ∧ (∀ l, laneIn w.group l = true → w'.pc l = w.revOf l) ∧
      t.mem.ver = s.mem.ver ∧ t.dies = s.dies)

/-- `resume` with ACTION 0 restarts the warp that its handler serves at RPC or, with MODE 0, each named lane at its REV, and the handler's
lanes have exited (R108, R400, R403).
The model's choices: log entries 34 and 36. -/
def Obligations.ResumeRestarts : Prop :=
  ∀ (a target : Nat) (f : Form) (s : State) (w v : Warp) (bytes : List Byte), f = { bForm 2 with level := .p } → CommitsEmpty s w →
    Ready f 0 s w → (issueCtx f s w).en ≠ 0 → isService (coreOf s.cur) = false → (w.kr a).toNat % 64 = 0 →
    s.servedBy w (w.kr a) = some target → target ≠ s.cur → s.warp? target = some v → v.blocked = [] →
    s.readBytes (coreOf s.cur) w.ctx (w.kr a) 448 = .ok bytes → leAt bytes 0 4 / 2 ^ 28 = 0 →
    (leAt bytes 4 4 / 2 ^ 14 % 2 = 1 → leAt bytes 0x10 8 % 4 = 0) →
    ∃ t v' w', exec (.resume a) s = .next t ∧ t.warp? target = some v' ∧ v'.susp = none ∧ SameRegs v v' ∧
      (∀ l < 32, laneIn (BitVec.ofNat 32 (leAt bytes 0x18 4) &&& ~~~v.exited) l = true →
        v'.pc l = BitVec.ofNat 64 (if leAt bytes 4 4 / 2 ^ 14 % 2 = 1 then leAt bytes 0x10 8 else leAt bytes (0x40 + 8 * l) 8)) ∧
      (∀ l < 32, laneIn (BitVec.ofNat 32 (leAt bytes 0x18 4) &&& ~~~v.exited) l = false → v'.pc l = v.pc l) ∧
      t.warp? s.cur = some w' ∧ w'.exited = 0xFFFFFFFF ∧ t.agenda = .event (.warpRetire s.cur) :: s.agenda ∧ SameBytes s t

/-- `wait`: with every other lane of its mask exited, the enabled lanes pass; else they wait at the instruction (R104). `halt`: with a door
rung they pass, else they wait for one (R109). -/
def Obligations.WaitAndHaltComplete : Prop :=
  (∀ (i : Instr) (f : Form) (a g : Nat) (s : State) (w : Warp), (i = .wait a ∧ f = bForm 2) ∨ (i = .waitExt g a ∧ f = eForm g 2) →
    CommitsEmpty s w → Ready f 0 s w → (issueCtx f s w).en ≠ 0 → w.blocked = [] →
    ∃ t w', exec i s = .next t ∧ t.warp? s.cur = some w' ∧ OnlyWarp (w.price f) s t w ∧ SameRegs w w' ∧ w'.rcount = 0 ∧
      (∀ l, laneIn w.group l = true → laneIn (issueCtx f s w).en l = false → w'.pc l = w.pc l + BitVec.ofNat 64 f.len) ∧
      (if w.mr a &&& ~~~(w.exited ||| (issueCtx f s w).en) = 0 then
        w'.blocked = [] ∧ ∀ l, laneIn (issueCtx f s w).en l = true → w'.pc l = (issueCtx f s w).next
      else (∃ b, w'.blocked = [b] ∧ b.lanes = (issueCtx f s w).en ∧ b.here = (issueCtx f s w).here ∧ b.len = f.len ∧ b.what = .mask a) ∧
        ∀ l, laneIn (issueCtx f s w).en l = true → w'.pc l = w.pc l)) ∧
  (∀ (f : Form) (s : State) (w : Warp), f = { bForm 2 with level := .s } → CommitsEmpty s w → Ready f 0 s w → (issueCtx f s w).en ≠ 0 →
    w.blocked = [] →
    ∃ t w', exec .halt s = .next t ∧ t.warp? s.cur = some w' ∧ OnlyWarp (w.price f) s t w ∧ SameRegs w w' ∧
      (if s.ap! (offDoor (svcOf (coreOf s.cur))) = 0 then
        (∃ b, w'.blocked = [b] ∧ b.lanes = (issueCtx f s w).en ∧ b.here = (issueCtx f s w).here ∧ b.what = .halt) ∧
        ∀ l, laneIn (issueCtx f s w).en l = true → w'.pc l = w.pc l
      else w'.blocked = [] ∧ LeftBehind f s w w'))

/-- The barriers, where no arrival is one too many (R185, R186): an arrival is counted, the last one completes the phase, and its lanes go
on, as those of `bar.a` always do; a `bar` short of the last arrival blocks its lanes at the instruction, as does a `bar.w` whose warp's
arrival stands, and a `bar.w` of a warp with no arrival goes on. -/
def Obligations.BarriersComplete : Prop :=
  ∀ (i : Instr) (f : Form) (k : BarKind) (id e n : Nat) (s : State) (w : Warp) (b : Block) (r : Barrier), bars i = some (f, k, id, e, n) →
    CommitsEmpty s w → Ready f 0 s w → (issueCtx f s w).en ≠ 0 → s.block? w.blk = some b → r = Tab.get b.bars Barrier.unset id →
    (k ≠ .wait → (s.inOrder w).barOver w.blk r e n = false) → NoneWaits s →
    ∃ t w' b' r', exec i s = .next t ∧ t.warp? s.cur = some w' ∧ t.block? w.blk = some b' ∧ r' = Tab.get b'.bars Barrier.unset id ∧
      SameRegs w w' ∧ w'.rcount = 0 ∧ t.mem = s.mem ∧ t.ap = s.ap ∧ OtherWarps s t ∧
      (∀ j, j ≠ id → Tab.get b'.bars Barrier.unset j = Tab.get b.bars Barrier.unset j) ∧ (∀ j, j ≠ w.blk → t.block? j = s.block? j) ∧
      (k = .wait → b'.bars = b.bars) ∧
      (k ≠ .wait → (s.inOrder w).expected w.blk e ≤ r.arr + n → r' = { r with phase := !r.phase, arr := 0, exp := e, pend := [] }) ∧
      (k ≠ .wait → r.arr + n < (s.inOrder w).expected w.blk e → r' = { r with arr := r.arr + n, exp := e, pend := insertNat r.pend s.cur }) ∧
      (if (k = .both ∧ r.arr + n < (s.inOrder w).expected w.blk e) ∨ (k = .wait ∧ r.pend.contains s.cur = true) then
        (∃ x, w'.blocked = [x] ∧ x.lanes = (issueCtx f s w).en ∧ x.here = (issueCtx f s w).here ∧ x.len = f.len ∧ x.what = .bar id) ∧
        (∀ l, laneIn (issueCtx f s w).en l = true → w'.pc l = w.pc l) ∧
        ∀ l, laneIn w.group l = true → laneIn (issueCtx f s w).en l = false → w'.pc l = w.pc l + BitVec.ofNat 64 f.len
      else w'.blocked = [] ∧ LeftBehind f s w w')

/-- `tw.any` and `tw.all`: once their tags are set, D takes the lowest set tag, or the mask's tags, and the lanes pass; else they wait
(R190). -/
def Obligations.TagWaitsComplete : Prop :=
  ∀ (i : Instr) (f : Form) (all : Bool) (d : Nat) (mask : Warp → DWord) (s : State) (w : Warp), tagWaits i = some (f, all, d, mask) →
    CommitsEmpty s w → Ready f 0 s w → (issueCtx f s w).en ≠ 0 → w.blocked = [] →
    ∃ t w', exec i s = .next t ∧ t.warp? s.cur = some w' ∧ OnlyWarp (w.price f) s t w ∧ w'.x = w.x ∧ w'.m = w.m ∧
      (if tagsDone all (mask w) (s.tagsOf s.cur &&& mask w) then
        w'.kr d = tagsValue all (s.tagsOf s.cur &&& mask w) ∧ (∀ n, n ≠ d → w'.kr n = w.kr n) ∧ w'.blocked = [] ∧ LeftBehind f s w w'
      else w'.k = w.k ∧ ∃ b, w'.blocked = [b] ∧ b.lanes = (issueCtx f s w).en ∧ b.what = .tags all (mask w) d)

/-- `poll` and `mwait`: the commit comes with the issue, which leaves the reads' step demand to be paid; then a lane whose test holds takes
the value it read and passes, and the others wait at the instruction (R188, R189). -/
def Obligations.PollsComplete : Prop :=
  (∀ (g d b bo lane key : Nat) (rt : Ret) (acq : Option Scope) (a : SrcA) (sp : Spc) (ui : Bool) (cc : Cc) (f : Form) (c : Ctx) (s : State)
      (w : Warp) (v : Nat), f = { eForm g 2 (srcARegs true a ++ [b]) (keepOf rt (srcARegs true a) [b] []) with dst := [d] } →
    c = issueCtx f s w → lane < 32 → c.en = laneBit lane →
    Reaches s c.en .read sp 4 4 (fun w l => eaOf sp (srcAVal true a w l) 0 0) [(lane, key)] → v = s.loadNum (coreOf s.cur) w sp key 4 →
    (CommitsEmpty s w → Ready f 0 s w → isService (coreOf s.cur) = false →
      ∃ t w', exec (.poll g rt acq d a b bo sp ui cc) s = .next t ∧ Demands f s t w w') ∧
    (GoesOn f 6 s w (CommitsEmpty s w) → w.blocked = [] →
      ∃ t w', exec (.poll g rt acq d a b bo sp ui cc) s = .next t ∧ t.warp? s.cur = some w' ∧ SameBytes s t ∧ SameElsewhere s t ∧
        w'.k = w.k ∧ w'.m = w.m ∧
        (if condInt cc ui (BitVec.ofNat 32 v) (w.xr b lane) then
          w'.xr d lane = BitVec.ofNat 32 v ∧ (∀ n, ∀ l < 32, n ≠ d ∨ l ≠ lane → w'.xr n l = w.xr n l) ∧ w'.blocked = [] ∧ LeftBehind f s w w'
        else w'.x = w.x ∧ ∃ x p, w'.blocked = [x] ∧ x.lanes = c.en ∧ x.here = c.here ∧ x.what = .poll p ∧ p.k = 0 ∧ p.owed = 0 ∧
          p.due = (s.clk s.cur).toNat + 64))) ∧
  (∀ (g d b lane key : Nat) (rt : Ret) (acq : Option Scope) (a : SrcA) (ge : Bool) (f : Form) (c : Ctx) (s : State) (w : Warp) (v : Nat),
    f = { eForm g 2 (srcARegs true a ++ regPair true b) (keepOf rt (srcARegs true a) (regPair true b) []) with dst := regPair true d } →
    c = issueCtx f s w → lane < 32 → c.en = laneBit lane →
    Reaches s c.en .read .g 8 8 (fun w l => srcAVal true a w l) [(lane, key)] → v = s.loadNum (coreOf s.cur) w .g key 8 →
    (CommitsEmpty s w → Ready f 0 s w → isService (coreOf s.cur) = false →
      ∃ t w', exec (.mwait g rt acq d a b ge) s = .next t ∧ Demands f s t w w') ∧
    (GoesOn f 6 s w (CommitsEmpty s w) → w.blocked = [] →
      ∃ t w', exec (.mwait g rt acq d a b ge) s = .next t ∧ t.warp? s.cur = some w' ∧ SameBytes s t ∧ SameElsewhere s t ∧
        w'.k = w.k ∧ w'.m = w.m ∧
        (if (if ge then (w.xn true b lane).toNat ≤ v else v ≠ (w.xn true b lane).toNat) then
          w'.xn true d lane = BitVec.ofNat 64 v ∧ w'.blocked = [] ∧ LeftBehind f s w w'
        else w'.x = w.x ∧ ∃ x p, w'.blocked = [x] ∧ x.lanes = c.en ∧ x.here = c.here ∧ x.what = .mwait p ∧ p.ver = s.versionAt key)))

/-- The conversions: `scl`, `pack4`, `unpack4`, `dqn` and `qnt` without outliers write their runs in the enabled lanes and no other register
(R153 to R159); `cbx` does so from the base-table entries its lanes reach (R157).
The model's choices: log entries 13, 14 and 15. -/
def Obligations.ConversionsComplete : Prop :=
  (∀ (i : Instr) (v : RunShape) (s : State) (w : Warp), runs s.curSlot i = some v → v.legal = true → Ready v.form 0 s w →
    ∃ t w', exec i s = .next t ∧ RanOnRegs v.form s t w w' ∧ w'.k = w.k ∧ w'.m = w.m ∧
      RunRegs (issueCtx v.form s w).en (v.val w) w w') ∧
  (∀ (half : Bool) (e : Cvs) (sl : Slot) (f : Form) (c : Ctx) (s : State) (w : Warp) (spots : List Spot), sl = s.curSlot e.slot →
    cbxLegal sl e = true → f = cbxForm sl e → c = issueCtx f s w → c.en ≠ 0 → Reaches s c.en .read .g 4 4 (cbxEa sl half e) spots →
    s.raceTrap s.cur .g spots 4 false (cbxEa sl half e) = none →
    (Ready f 0 s w → isService (coreOf s.cur) = false →
      ∃ t w', exec (.cbx half e) s = .next t ∧ RanQuiet f s t w w' ∧ SameRegs w w' ∧ Due w w') ∧
    (Passes f s w → (isService (coreOf s.cur) = true ∧ Ready f 0 s w) ∨ (isService (coreOf s.cur) = false ∧ Stands 2 w ∧
        PaysEach 6 (linesNamed c.en (cbxEa sl half e w)).length s) →
      (∀ p ∈ spots, s.loadNum (coreOf s.cur) w .g p.2 4 < 2 ^ 25) →
      ∃ t w', exec (.cbx half e) s = .next t ∧ t.warp? s.cur = some w' ∧ w'.k = w.k ∧ w'.m = w.m ∧ Advanced c w w' ∧ SameStanding w w' ∧
        SameSpecials w w' ∧ w'.rsb = w.rsb ∧ SameBytes s t ∧ t.mem.ver = s.mem.ver ∧ SameElsewhere s t ∧
        RunRegs c.en (fun l => runVal e.d (wideRegs e.wide 8)
          (cbxLane sl half e w (s.loadNum (coreOf s.cur) w .g (atLane 0 spots l) 4) l)) w w'))

/-- `qnt` with outliers: after its translation step and its commit it has its effect at once where no element is marked, and no byte changes;
else each append's step demand is paid in turn. With one marked element, where the list has room, the append adds one to COUNT, stores
index and value in the record, and the lanes' runs and scales are written (R85, R154). The model's choice: log entry 101. -/
def Obligations.OutlierQuantizeCompletes : Prop :=
  ∀ (e : Cvs) (sl : Slot) (f : Form) (c : Ctx) (s : State) (w : Warp) (recs : List (Word × Word)) (a : Appends)
    (key count rec_ : Nat) (x : Word × Word), sl = s.curSlot e.slot → sl.outl = true → qntLegal sl e = true → f = qntForm sl e →
    c = issueCtx f s w → c.en ≠ 0 → recs = qntMarked sl e w c.en →
    (CommitsEmpty s w → Ready f 0 s w → s.outlierPlaces c w sl.aux = .ok a →
      (recs = [] → ∃ t w', exec (.qnt e) s = .next t ∧ t.warp? s.cur = some w' ∧ LeftBehind f s w w' ∧ w'.rcount = 0 ∧ w'.k = w.k ∧
        w'.m = w.m ∧ RunRegs c.en (qntVal sl e w) w w' ∧ SameElsewhere s t ∧ SameBytes s t) ∧
      (recs ≠ [] → isService (coreOf s.cur) = false →
        ∃ t w', exec (.qnt e) s = .next t ∧ Demands f s t w w' ∧ w'.appends = some a)) ∧
    (recs = [x] → GoesOn f 10 s w (CommitsEmpty s w ∧ s.outlierPlaces c w sl.aux = .ok a) →
      (isService (coreOf s.cur) = false → w.appends = some a) → a.done = 0 → a.full = false → key = a.key → isAp key = false →
      s.leasedOut (lineOf key) = false → count = s.homeRead w.blk .g key 4 → count < s.homeRead w.blk .g (key + 4) 4 →
      isAp rec_ = false → a.place sl.aux count = some rec_ → s.leasedOut (lineOf rec_) = false →
      ∃ t w', exec (.qnt e) s = .next t ∧ t.warp? s.cur = some w' ∧ LeftBehind f s w w' ∧ w'.k = w.k ∧ w'.m = w.m ∧
        RunRegs c.en (qntVal sl e w) w w' ∧ SameElsewhere s t ∧
        (∀ a, (a < key ∨ key + 4 ≤ a) → (a < rec_ ∨ rec_ + 8 ≤ a) → t.mem.byte a = s.mem.byte a) ∧
        (key + 4 ≤ rec_ ∨ rec_ + 8 ≤ key → t.homeRead w.blk .g key 4 = count + 1) ∧
        t.homeRead w.blk .g rec_ 8 = x.1.toNat + 2 ^ 32 * x.2.toNat)

/-- `bld`, `mmo`, `acc.ld` and `acc.st`: after the checks and the commit the operation is the last of the core's engine, its tag flies, and
`bld` and `mmo` have made the context the owner of the macros, with what was saved for it back in them (R192, R193, R203, R205, R212,
R264). The model's choices: log entries 42 and 127. -/
def Obligations.MatrixOperationsIssue : Prop :=
  ∀ (i : Instr) (v : MatShape) (c : Ctx) (s s0 x : State) (w : Warp) (k : MatKind), mats i = some v → c = issueCtx v.form s w →
    CommitsEmpty s w → Ready v.form 0 s w → c.en ≠ 0 → v.legal s w = true → (s.core (coreOf s.cur)).tagFlies w.ctx v.tag = false →
    v.pre s w = none → s0 = (if v.owns then s.takeOwner (coreOf s.cur) w.ctx else s) → v.kind s0 c w = some k →
    (∀ off, s.poisonedSave (coreOf s.cur) w.ctx off = none) → s.mem.leases = [] →
    x = s0.drawLines (coreOf s.cur) (c.handleLines s (v.names w)) →
    ∃ t w' n, exec i s = .next t ∧ HandedOn v.form x t w w' ∧ w'.k = w.k ∧ t.blocks = s.blocks ∧
      (t.core (coreOf s.cur)).mat = (s.core (coreOf s.cur)).mat
        ++ [{ mkOp k s.cur w v.tag n with since := (s.die (dieOf s.cur)).clk.toNat }] ∧ Flying (coreOf s.cur) v.tag t w ∧
      (v.owns = true → (t.core (coreOf s.cur)).owner = some w.ctx) ∧ (t.core (coreOf s.cur)).macros = (s0.core (coreOf s.cur)).macros ∧
      (t.core (coreOf s.cur)).acc = (s.core (coreOf s.cur)).acc

/-- Convergence registers: `cdecl` declares or releases one (R206); a signature of `csig`, `mmx` or `mmq` that is not the last is counted,
the first of a multiply latched with its descriptor and tag, a later one with the same values counted beside the latch (R207, R209, R211);
the last signature of a local round, of `csig` as of `mmx`, resets the register and hands a latched multiply to the engine; the last of a
core's share of a yard round leaves it complete, and the last of the four shares hands the round to the four engines as one operation
(R207, R211). The model's choices: log entries 45, 46 and 127. -/
def Obligations.ConvergenceCompletes : Prop :=
  (∀ (g d : Nat) (b : KSrc) (f : Form) (s : State) (w : Warp) (v : DWord), f = engForm g 4 true → v = kSrcVal b w → cdeclOk v = true →
    CommitsEmpty s w → Ready f 0 s w → (issueCtx f s w).en ≠ 0 →
    (∀ r, Tab.look (s.core (coreOf s.cur)).cvs d = some r → (r.own = none ∨ r.own = some w.blk) ∧ r.sig = 0) →
    ∃ t w', exec (.cdecl g d b) s = .next t ∧ HandedOn f s t w w' ∧ w'.k = w.k ∧ t.blocks = s.blocks ∧
      Tab.look (t.core (coreOf s.cur)).cvs d = (if v.toNat % 4096 = 0 then none
        else some { own := some w.blk, cnt := v.toNat % 4096, yard := v.getLsbD 12, sig := 0, latch := none, key := [] }) ∧
      ∀ k, k ≠ d → Tab.look (t.core (coreOf s.cur)).cvs k = Tab.look (s.core (coreOf s.cur)).cvs k) ∧
  (∀ (g d n : Nat) (f : Form) (s : State) (w : Warp) (r : Cv), f = engForm g 4 true → CommitsEmpty s w → Ready f 0 s w →
    (issueCtx f s w).en ≠ 0 → n = (lanesOf (issueCtx f s w).en).length → Tab.look (s.core (coreOf s.cur)).cvs d = some r →
    r.own = some w.blk → r.sig + n < r.cnt →
    ∃ t w', exec (.csig g d) s = .next t ∧ HandedOn f s t w w' ∧ w'.k = w.k ∧ t.blocks = s.blocks ∧
      Tab.look (t.core (coreOf s.cur)).cvs d = some { r with sig := r.sig + n } ∧
      (∀ k, k ≠ d → Tab.look (t.core (coreOf s.cur)).cvs k = Tab.look (s.core (coreOf s.cur)).cvs k) ∧
      (t.core (coreOf s.cur)).mat = (s.core (coreOf s.cur)).mat) ∧
  (∀ (i : Instr) (yard : Bool) (e : Mm) (n : Nat) (f : Form) (c : Ctx) (s x : State) (w : Warp) (r : Cv) (desc : List Byte) (sl : Slot),
    multiplies i = some (yard, e) → f = engForm e.g 4 true → c = issueCtx f s w → CommitsEmpty s w → Ready f 0 s w → c.en ≠ 0 →
    n = (lanesOf c.en).length → sl = s.curSlot e.slot → sl.aRoleOk = true → (e.tile = true → sl.scale = 0) → mmRegs yard e w = true →
    s.heldTrap w.blk (w.kr e.d).toNat = none → s.ownerTrap (coreOf s.cur) w.ctx = none → s.handleTrap w e.tile = none →
    Tab.look (s.core (coreOf s.cur)).cvs e.cv = some r → r.own = some w.blk → r.yard = yard → r.latch = none →
    c.latchCheck w (signingOf yard sl e s.cur w 0) s = .ok desc →
    (r.sig + n < r.cnt ∨ (r.sig + n = r.cnt ∧ yard = false ∧ ((s.takeOwner (coreOf s.cur) w.ctx).core (coreOf s.cur)).setShape e.set ≠ none)) →
    (∀ off, s.poisonedSave (coreOf s.cur) w.ctx off = none) → s.mem.leases = [] →
    x = (s.takeOwner (coreOf s.cur) w.ctx).drawLines (coreOf s.cur) (c.handleLines s (if e.tile then [w.kr e.a] else [])) →
    ∃ t w' op o, exec i s = .next t ∧ HandedOn f x t w w' ∧ w'.k = w.k ∧ t.blocks = s.blocks ∧
      op = mkOp (.mm yard e.tile sl (w.kr e.d).toNat (w.kr e.a) (w.kr e.b) desc e.set e.m) s.cur w e.set.tag o ∧
      (t.core (coreOf s.cur)).owner = some w.ctx ∧ Flying (coreOf s.cur) e.set.tag t w ∧
      (∀ k, k ≠ e.cv → Tab.look (t.core (coreOf s.cur)).cvs k = Tab.look (s.core (coreOf s.cur)).cvs k) ∧
      (if r.sig + n < r.cnt then
        Tab.look (t.core (coreOf s.cur)).cvs e.cv
          = some { r with sig := r.sig + n, latch := some op, key := (signingOf yard sl e s.cur w 0).key } ∧
        (t.core (coreOf s.cur)).mat = (s.core (coreOf s.cur)).mat
      else
        Tab.look (t.core (coreOf s.cur)).cvs e.cv = some { r with sig := 0, latch := none, key := [] } ∧
        (t.core (coreOf s.cur)).mat
          = (s.core (coreOf s.cur)).mat ++ [{ op with since := (s.die (dieOf s.cur)).clk.toNat }])) ∧
  (∀ (i : Instr) (e : Mm) (n : Nat) (f : Form) (c : Ctx) (s x : State) (w : Warp) (r : Cv) (op : MatOp) (sl : Slot),
    multiplies i = some (r.yard, e) → f = engForm e.g 4 true → c = issueCtx f s w → CommitsEmpty s w → Ready f 0 s w → c.en ≠ 0 →
    n = (lanesOf c.en).length → sl = s.curSlot e.slot → sl.aRoleOk = true → (e.tile = true → sl.scale = 0) → mmRegs r.yard e w = true →
    s.heldTrap w.blk (w.kr e.d).toNat = none → s.ownerTrap (coreOf s.cur) w.ctx = none → s.handleTrap w e.tile = none →
    Tab.look (s.core (coreOf s.cur)).cvs e.cv = some r → r.own = some w.blk → r.latch = some op →
    r.key = (signingOf r.yard sl e s.cur w 0).key → (∀ off, s.poisonedSave (coreOf s.cur) w.ctx off = none) → s.mem.leases = [] →
    x = s.takeOwner (coreOf s.cur) w.ctx →
    (r.sig + n < r.cnt →
      ∃ t w', exec i s = .next t ∧ HandedOn f x t w w' ∧ w'.k = w.k ∧ t.blocks = s.blocks ∧
        Tab.look (t.core (coreOf s.cur)).cvs e.cv = some { r with sig := r.sig + n } ∧
        (∀ k, k ≠ e.cv → Tab.look (t.core (coreOf s.cur)).cvs k = Tab.look (s.core (coreOf s.cur)).cvs k) ∧
        (t.core (coreOf s.cur)).mat = (s.core (coreOf s.cur)).mat) ∧
    (r.sig + n = r.cnt → r.yard = false → x.latchTrap (coreOf s.cur) op = none →
      ∃ t w', exec i s = .next t ∧ HandedOn f x t w w' ∧ w'.k = w.k ∧ t.blocks = s.blocks ∧
        Tab.look (t.core (coreOf s.cur)).cvs e.cv = some { r with sig := 0, latch := none, key := [] } ∧
        (t.core (coreOf s.cur)).mat = (s.core (coreOf s.cur)).mat
          ++ [{ op with wid := s.cur, since := (s.die (dieOf s.cur)).clk.toNat }])) ∧
  (∀ (g d n : Nat) (f : Form) (s : State) (w : Warp) (r : Cv), f = engForm g 4 true → CommitsEmpty s w → Ready f 0 s w →
    (issueCtx f s w).en ≠ 0 → n = (lanesOf (issueCtx f s w).en).length → Tab.look (s.core (coreOf s.cur)).cvs d = some r →
    r.own = some w.blk → r.sig + n = r.cnt → r.yard = false → (∀ op, r.latch = some op → s.latchTrap (coreOf s.cur) op = none) →
    ∃ t w', exec (.csig g d) s = .next t ∧ HandedOn f s t w w' ∧ w'.k = w.k ∧ t.blocks = s.blocks ∧
      Tab.look (t.core (coreOf s.cur)).cvs d = some { r with sig := 0, latch := none, key := [] } ∧
      (∀ k, k ≠ d → Tab.look (t.core (coreOf s.cur)).cvs k = Tab.look (s.core (coreOf s.cur)).cvs k) ∧
      (t.core (coreOf s.cur)).mat = (s.core (coreOf s.cur)).mat
        ++ r.latch.toList.map fun op => { op with wid := s.cur, since := (s.die (dieOf s.cur)).clk.toNat }) ∧
  (∀ (i : Instr) (e : Mm) (n : Nat) (f : Form) (c : Ctx) (s x y : State) (w : Warp) (r : Cv) (op : MatOp) (sl : Slot),
    i = .mmq e → f = engForm e.g 4 true → c = issueCtx f s w → CommitsEmpty s w → Ready f 0 s w → c.en ≠ 0 →
    n = (lanesOf c.en).length → sl = s.curSlot e.slot → sl.aRoleOk = true → (e.tile = true → sl.scale = 0) → mmRegs true e w = true →
    s.heldTrap w.blk (w.kr e.d).toNat = none → s.ownerTrap (coreOf s.cur) w.ctx = none → s.handleTrap w e.tile = none →
    Tab.look (s.core (coreOf s.cur)).cvs e.cv = some r → r.own = some w.blk → r.yard = true → r.latch = some op →
    r.key = (signingOf true sl e s.cur w 0).key → r.sig + n = r.cnt → (∀ off, s.poisonedSave (coreOf s.cur) w.ctx off = none) →
    s.mem.leases = [] → x = s.takeOwner (coreOf s.cur) w.ctx →
    y = x.modCore (coreOf s.cur) (fun k => { k with cvs := Tab.upd k.cvs e.cv { r with sig := r.cnt } }) →
    (y.shares (coreOf s.cur) e.cv = [] →
      ∃ t w', exec i s = .next t ∧ HandedOn f x t w w' ∧ w'.k = w.k ∧ t.blocks = s.blocks ∧
        Tab.look (t.core (coreOf s.cur)).cvs e.cv = some { r with sig := r.cnt } ∧
        (t.core (coreOf s.cur)).mat = (s.core (coreOf s.cur)).mat) ∧
    (y.shares (coreOf s.cur) e.cv ≠ [] → y.yardTrap (y.shares (coreOf s.cur) e.cv) = none →
      ∃ t w' id, exec i s = .next t ∧ t.warp? s.cur = some w' ∧ LeftBehind f s w w' ∧ SameRegs w w' ∧ w'.rcount = 0 ∧ SameBytes s t ∧
        t.ap = s.ap ∧ t.blocks = s.blocks ∧ OtherWarps s t ∧
        ∀ z ∈ y.shares (coreOf s.cur) e.cv, ∃ o, (t.core z.1).mat = (s.core z.1).mat ++ [o] ∧ o.kind = z.2.1.kind ∧ o.ctx = z.2.1.ctx ∧
          o.tag = z.2.1.tag ∧ o.wid = s.cur ∧ o.opid = id ∧ o.fetched = true ∧
          Tab.look (t.core z.1).cvs e.cv = (Tab.look (s.core z.1).cvs e.cv).map fun v => { v with sig := 0, latch := none, key := [] }))

/-- Accumulator banks: `abk.get` takes the lowest free bank and writes its designator, or waits for one; `abk.put` gives a held bank back
to be zeroed (R200, R201, R263). `acc.z` hands its clear to the engine and only advances, whoever owns the macros (R202). The model's
choice: log entry 42. -/
def Obligations.AccumulatorBanksComplete : Prop :=
  (∀ (g d : Nat) (f : Form) (s : State) (w : Warp), f = engForm g 2 true → CommitsEmpty s w → Ready f 0 s w → (issueCtx f s w).en ≠ 0 →
    s.abkSize w = none → w.blocked = [] → NoneWaits s → s.awake w = true →
    ∃ t w', exec (.abkGet g d) s = .next t ∧ t.warp? s.cur = some w' ∧ t.mem = s.mem ∧ t.ap = s.ap ∧ OtherWarps s t ∧ w'.x = w.x ∧
      w'.m = w.m ∧ w'.rcount = 0 ∧
      (∀ k ks, s.freeBanks (coreOf s.cur) = k :: ks →
        HandedOn f s t w w' ∧ SetsK d (BitVec.ofNat 64 (4 * k)) w w' ∧ w'.blocked = [] ∧
        t.block? w.blk = (s.block? w.blk).map (fun b => { b with held := insertNat b.held k }) ∧
        ∀ j, j ≠ w.blk → t.block? j = s.block? j) ∧
      (s.freeBanks (coreOf s.cur) = [] → w'.k = w.k ∧ t.blocks = s.blocks ∧
        ∃ x n, w'.blocked = [x] ∧ x.lanes = (issueCtx f s w).en ∧ x.here = (issueCtx f s w).here ∧ x.what = .abk d n)) ∧
  (∀ (g a bank : Nat) (f : Form) (s : State) (w : Warp), f = engForm g 2 true → CommitsEmpty s w → Ready f 0 s w →
    (issueCtx f s w).en ≠ 0 → bank < 48 → (w.kr a).toNat = 4 * bank → s.heldTrap w.blk (4 * bank) = none →
    ∃ t w' n, exec (.abkPut g a) s = .next t ∧ HandedOn f s t w w' ∧ w'.k = w.k ∧
      t.block? w.blk = (s.block? w.blk).map (fun b => { b with held := b.held.filter (· != bank) }) ∧
      (∀ j, j ≠ w.blk → t.block? j = s.block? j) ∧ (t.core (coreOf s.cur)).zeroing = insertNat (s.core (coreOf s.cur)).zeroing bank ∧
      (t.core (coreOf s.cur)).mat = (s.core (coreOf s.cur)).mat
        ++ [{ mkOp (.zero bank) s.cur w 64 n with since := (s.die (dieOf s.cur)).clk.toNat }]) ∧
  (∀ (g d : Nat) (f : Form) (s : State) (w : Warp), f = engForm g 4 true → Ready f 0 s w → (issueCtx f s w).en ≠ 0 →
    (w.kr d).toNat < 192 → s.heldTrap w.blk (w.kr d).toNat = none →
    ∃ t w' n, exec (.accZ g d) s = .next t ∧ t.warp? s.cur = some w' ∧ SameRegs w w' ∧ SameStanding w w' ∧ SameSpecials w w' ∧
      Advanced (issueCtx f s w) w w' ∧ w'.rsb = w.rsb ∧ t.mem = s.mem ∧ SameElsewhere s t ∧
      (∀ k, k ≠ coreOf s.cur → t.core k = s.core k) ∧ (t.core (coreOf s.cur)).acc = (s.core (coreOf s.cur)).acc ∧
      (t.core (coreOf s.cur)).mat = (s.core (coreOf s.cur)).mat
        ++ [{ mkOp (.accZ (w.kr d).toNat) s.cur w 64 n with since := (s.die (dieOf s.cur)).clk.toNat }])

/-- The copies: with an entry of q0 free the command, its descriptors read and their lines drawn at home, is the last of q0 and its tag
flies (R193, R194, R215 to R217). -/
def Obligations.CopiesIssue : Prop :=
  ∀ (i : Instr) (v : CopyShape) (c : Ctx) (s x : State) (w : Warp) (o : CopyCmd), copies i = some v → c = issueCtx v.form s w →
    CommitsEmpty s w → Ready v.form 0 s w → c.en ≠ 0 → v.legal w = true → (s.core (coreOf s.cur)).tagFlies w.ctx v.tag = false →
    s.copyCheck w (v.cmd s w) = none → c.readHandles w (v.cmd s w) s = .ok o → s.copyTrap w o = none →
    (s.core (coreOf s.cur)).sharedUsed < 64 → w.blocked = [] → s.mem.leases = [] →
    x = s.drawLines (coreOf s.cur) (c.handleLines s (v.cmd s w).handles) →
    ∃ t w' n, exec i s = .next t ∧ HandedOn v.form x t w w' ∧ w'.k = w.k ∧ w'.blocked = [] ∧ t.blocks = s.blocks ∧ t.dies = x.dies ∧
      (t.core (coreOf s.cur)).q0 = (s.core (coreOf s.cur)).q0 ++ [{ o with own := false, opid := n }] ∧ Flying (coreOf s.cur) v.tag t w

/-- Queues: a push to a queue with room is its last entry and a pop takes the first; else the lanes wait (R218, R224, R225). The handler
queue gives an assigned inbox record in eight k-registers (R332). A collective or a reduction joins q1 while it holds fewer than 32, and
reserves its entry of q2 (R218 to R220).
The model's choice: log entry 8. -/
def Obligations.QueuesComplete : Prop :=
  (∀ (g d a : Nat) (f : Form) (s : State) (w : Warp) (b : Block), f = engForm g 4 → CommitsEmpty s w → Ready f 0 s w →
    (issueCtx f s w).en ≠ 0 → NoneWaits s → w.blocked = [] → s.block? w.blk = some b →
    ∃ t w', exec (.postQueue g d a) s = .next t ∧ t.warp? s.cur = some w' ∧ w'.k = w.k ∧ (∀ j, j ≠ w.blk → t.block? j = s.block? j) ∧
      (if b.room d then HandedOn f s t w w' ∧ w'.blocked = [] ∧ t.block? w.blk = some (b.push d (w.kr a))
      else t.block? w.blk = some b ∧ t.mem = s.mem ∧ OtherWarps s t ∧
        ∃ x, w'.blocked = [x] ∧ x.lanes = (issueCtx f s w).en ∧ x.what = .push d (w.kr a))) ∧
  (∀ (g d a : Nat) (f : Form) (s : State) (w : Warp) (b : Block), f = engForm g 4 → CommitsEmpty s w → Ready f 0 s w →
    (issueCtx f s w).en ≠ 0 → NoneWaits s → w.blocked = [] → s.block? w.blk = some b → a ≠ 3 →
    ∃ t w', exec (.fgetQueue g d a) s = .next t ∧ t.warp? s.cur = some w' ∧ (∀ j, j ≠ w.blk → t.block? j = s.block? j) ∧
      (∀ v r, b.queue a = v :: r → HandedOn f s t w w' ∧ SetsK d v w w' ∧ w'.blocked = [] ∧
        t.block? w.blk = some { b with queues := Tab.put [] b.queues a r }) ∧
      (b.queue a = [] → w'.k = w.k ∧ t.block? w.blk = some b ∧ t.mem = s.mem ∧
        ∃ x, w'.blocked = [x] ∧ x.lanes = (issueCtx f s w).en ∧ x.what = .pop a d)) ∧
  (∀ (g d : Nat) (f : Form) (s : State) (w : Warp) (b : Block) (e : InboxEntry), f = engForm g 4 → CommitsEmpty s w → Ready f 0 s w →
    (issueCtx f s w).en ≠ 0 → NoneWaits s → w.blocked = [] → s.block? w.blk = some b → b.kind = .handler → w.widx = 0 →
    w.inbox = some e.id → (s.die (dieOf s.cur)).inbox = [e] →
    ∃ t w', exec (.fgetQueue g d 3) s = .next t ∧ HandedOn f s t w w' ∧ w'.inbox = none ∧ w'.blocked = [] ∧
      (t.die (dieOf s.cur)).inbox = [] ∧ (∀ i < 8, w'.kr (d + i) = BitVec.ofNat 64 (leAt e.record (8 * i) 8)) ∧
      ∀ n, n < d ∨ d + 8 ≤ n → w'.kr n = w.kr n) ∧
  (∀ (i : Instr) (g : Nat) (ok : Warp → Bool) (mk : Nat → Warp → Nat → CollCmd) (f : Form) (s : State) (w : Warp) (b : Block),
    colls i = some (g, ok, mk) → f = engForm g 4 true → CommitsEmpty s w → Ready f 0 s w → (issueCtx f s w).en ≠ 0 → ok w = true →
    NoneWaits s → w.blocked = [] → s.block? w.blk = some b → (s.core (coreOf s.cur)).q1.length < 32 →
    ((mk s.cur w 0).rq = true → b.room 2 = true) →
    ∃ t w' n, exec i s = .next t ∧ HandedOn f s t w w' ∧ w'.k = w.k ∧ w'.blocked = [] ∧
      (t.core (coreOf s.cur)).q1 = (s.core (coreOf s.cur)).q1 ++ [mk s.cur w n] ∧
      t.block? w.blk = some { b with q2res := b.q2res + if (mk s.cur w 0).rq then 1 else 0 } ∧ ∀ j, j ≠ w.blk → t.block? j = s.block? j)

/-- Futures: `fget` of a full cell takes its value and advances, of an empty one parks the warp in its die's table, linked at HEAD; `fput`
fills an empty cell, wakes the parked and says how many, or answers -1 at a full one (R225, R226, R323).
The model's choice: log entry 47. -/
def Obligations.FuturesComplete : Prop :=
  (∀ (g d a key h : Nat) (f : Form) (c : Ctx) (s : State) (w : Warp), f = engForm g 4 → c = issueCtx f s w → c.en ≠ 0 →
    (w.kr a).toNat % 16 = 0 →
    (Ready f 0 s w → isService (coreOf s.cur) = false →
      ∃ t w', exec (.fget g d a) s = .next t ∧ RanQuiet f s t w w' ∧ SameRegs w w' ∧ Due w w') ∧
    (GoesOn f 10 s w True → s.placeBoth (coreOf s.cur) w.ctx w.priv (w.kr a) = .ok key → s.leasedOut (lineOf key) = false →
      h = (s.homeNum (key + 8) 4).toNat →
      (futFull h = true →
        ∃ t w', exec (.fget g d a) s = .next t ∧ t.warp? s.cur = some w' ∧ SetsK d (s.homeNum key 8) w w' ∧ w'.x = w.x ∧ w'.m = w.m ∧
          w'.rsb = w.rsb ∧ Advanced c w w' ∧ SameStanding w w' ∧ SameSpecials w w' ∧ SameBytes s t ∧ t.mem.ver = s.mem.ver ∧
          SameElsewhere s t) ∧
      (∀ i, futFull h = false → futWcnt h < 32767 → isLocal key = true → isAp key = false → freePark (s.die (dieOf s.cur)) = some i →
        s.mem.marks = [] →
        ∃ t w', exec (.fget g d a) s = .next t ∧ t.warp? s.cur = some w' ∧ SameRegs w w' ∧ w'.parked = some (dieOf s.cur * 4096 + i) ∧
          (∀ l, laneIn c.iss l = true → w'.pc l = w.revOf l) ∧
          Tab.look (t.die (dieOf s.cur)).park i = some { wid := s.cur, next := futHead h, cell := key } ∧
          t.homeNum (key + 8) 4 = BitVec.ofNat 64 (((futWcnt h + 1) * 2 ^ 16 + dieOf s.cur * 2 ^ 14 + i) % 2 ^ 32) ∧
          (∀ x, x < key + 8 ∨ key + 12 ≤ x → t.mem.byte x = s.mem.byte x) ∧ SameElsewhere s t))) ∧
  (∀ (g d a b key h : Nat) (f : Form) (c : Ctx) (s : State) (w : Warp), f = engForm g 4 → c = issueCtx f s w → c.en ≠ 0 →
    (w.kr a).toNat % 16 = 0 → s.placeBoth (coreOf s.cur) w.ctx w.priv (w.kr a) = .ok key →
    (CommitsEmpty s w → Ready f 0 s w → isService (coreOf s.cur) = false →
      ∃ t w', exec (.fput g d a b) s = .next t ∧ Demands f s t w w') ∧
    (GoesOn f 10 s w (CommitsEmpty s w) → isAp key = false → isAp (key + 8) = false → s.leasedOut (lineOf key) = false →
      h = (s.homeNum (key + 8) 4).toNat →
      ∃ t w', exec (.fput g d a b) s = .next t ∧ t.warp? s.cur = some w' ∧ LeftBehind f s w w' ∧ w'.x = w.x ∧ w'.m = w.m ∧
        SameElsewhere s t ∧ (∀ x, x < key ∨ key + 12 ≤ x → t.mem.byte x = s.mem.byte x) ∧
        (if futFull h then SetsK d (-1) w w' ∧ SameBytes s t ∧ t.agenda = s.agenda
        else SetsK d (BitVec.ofNat 64 (futWcnt h)) w w' ∧ t.homeNum key 8 = w.kr b ∧
          t.homeNum (key + 8) 4 = BitVec.ofNat 64 (2 ^ 31 + 0xFFFF) ∧
          t.agenda = (s.linked key 32768 (futHead h)).map (fun x => Pending.event (.futureReenqueue x.1 x.2)) ++ s.agenda)))

/-- Tasks: `rinv`, `launch` and `post` commit with their issue, which leaves their step demand to be paid. Then an invocation of this device's
own die is on its way and its lanes wait for the answer, one of another device goes to the fabric, and with no port up the answer is 5,
which a trapping form takes as RINV_NACK (R221, R222, R331); a child grid joins the device-side queue (R223); a continuation joins the
task queue of its data's yard (R224, R321). The model's choices: log entries 8 and 39. -/
def Obligations.TasksComplete : Prop :=
  (∀ (i : Instr) (tr : Bool) (g d a b hidx narg cls q : Nat) (sp : Spc) (f : Form) (s : State) (w : Warp),
    (invokes i = some (tr, g, d, a, b, hidx, narg, cls) ∧ f = engForm g 4 false .u ∧ rinvRegs a w = true) ∨
      (i = .launch g a q ∧ f = engForm g 4 ∧ (w.kr a).toNat % 64 = 0) ∨
      (i = .post g a sp ∧ f = engForm g 4 ∧ (w.kr a).toNat % 32 = 0 ∧ (s.gridOf w.blk).isSome = true) →
    CommitsEmpty s w → Ready f 0 s w → (issueCtx f s w).en ≠ 0 → isService (coreOf s.cur) = false →
    ∃ t w', exec i s = .next t ∧ Demands f s t w w') ∧
  (∀ (i : Instr) (tr : Bool) (g d a b hidx narg cls dev key seq : Nat) (p : Invoke) (f : Form) (c : Ctx) (s : State) (w : Warp),
    invokes i = some (tr, g, d, a, b, hidx, narg, cls) → f = engForm g 4 false .u → c = issueCtx f s w → c.en ≠ 0 →
    isService (coreOf s.cur) = false → GoesOn f 4 s w (CommitsEmpty s w) → rinvRegs a w = true → w.blocked = [] →
    dev = (w.kr a).toNat % 1024 → key = ((dieOf s.cur * 1024 + dev) * 4 + (w.kr a).toNat / 1024 % 4) * 4096 + w.ctx →
    seq = Tab.get s.dev.sent 0 key + 1 → p = rinvPacket s s.cur w (w.kr a).toNat b hidx narg cls seq →
    (dev = s.devId ∨ s.routed = true ∨ tr = false ∨ (s.ap! (offFltHnd w.ctx) % 2 = 1 ∧ s.isHandler w = false)) →
    ∃ t w', exec i s = .next t ∧ t.warp? s.cur = some w' ∧ w'.x = w.x ∧ w'.m = w.m ∧ t.mem = s.mem ∧ t.ap = s.ap ∧
      t.blocks = s.blocks ∧ OtherWarps s t ∧
      (if dev = s.devId ∨ s.routed = true then Tab.get t.dev.sent 0 key = seq ∧
        w'.k = w.k ∧ (∃ x, w'.blocked = [x] ∧ x.lanes = c.en ∧ x.here = c.here ∧ x.what = .rinv d tr ((w.kr a).toNat % 4096) seq none false) ∧
        (dev = s.devId → t.agenda = .event (.remoteInvocation p) :: s.agenda ∧ t.own.msgs = s.own.msgs) ∧
        (dev ≠ s.devId → t.agenda = s.agenda ∧ t.own.msgs = s.own.msgs ++ [.invoke dev p])
      else t.dev.sent = s.dev.sent ∧ SetsK d 5 w w' ∧ w'.blocked = [] ∧ LeftBehind f s w w' ∧
        (tr = false → w'.susp = w.susp ∧ t.agenda = s.agenda) ∧
        (tr = true → t.agenda = .event (.trapHandlerStart s.cur) :: s.agenda ∧
          ∃ q, w'.susp = some q ∧ q.trap = { cls := .rinvNack, info := 5 } ∧ q.lanes = c.en ∧ q.mode = 1 ∧ q.rpc = c.next))) ∧
  (∀ (g a q : Nat) (f : Form) (c : Ctx) (s x : State) (w : Warp) (pk rec_ : List Byte), f = engForm g 4 → c = issueCtx f s w →
    c.en ≠ 0 → (w.kr a).toNat % 64 = 0 → c.readLaunch w (w.kr a) s = .ok (pk, rec_) →
    GoesOn f (6 * launchLines (c.launchRanges w (w.kr a) s)) s w (CommitsEmpty s w) → w.blocked = [] →
    (Tab.get s.dev.devq [] (16 * w.ctx + q)).length < 64 → s.mem.leases = [] →
    x = s.drawLines (coreOf s.cur) (s.homeLines (c.eng w) (c.launchRanges w (w.kr a) s)) →
    ∃ t w', exec (.launch g a q) s = .next t ∧ Handed f x t w w' ∧ w'.k = w.k ∧ w'.blocked = [] ∧ t.blocks = s.blocks ∧
      t.agenda = .event (.childLaunchAccept w.ctx q) :: s.agenda ∧
      Tab.look t.dev.devq (16 * w.ctx + q) = some (Tab.get s.dev.devq [] (16 * w.ctx + q) ++
        [{ packet := pk, record := rec_, parent := s.gridOf w.blk, depth := s.depthOf (s.gridOf w.blk) + 1 }]) ∧
      ∀ k, t.grid? k = if s.gridOf w.blk = some k then (s.grid? k).map (fun x => { x with children := x.children + 1 }) else s.grid? k) ∧
  (∀ (g a yard grid : Nat) (sp : Spc) (f : Form) (c : Ctx) (s x : State) (w : Warp) (r : List Byte), f = engForm g 4 → c = issueCtx f s w →
    c.en ≠ 0 → (w.kr a).toNat % 32 = 0 → s.gridOf w.blk = some grid → c.readPost w sp (w.kr a) s = .ok (r, yard) →
    GoesOn f 6 s w (CommitsEmpty s w) → w.blocked = [] →
    (Tab.get (s.die (yard / 12)).tasks [] yard).length < 256 → s.mem.leases = [] →
    x = s.drawLines (coreOf s.cur) (s.homeLines (c.eng w) [postRange sp (w.kr a)]) →
    ∃ t w', exec (.post g a sp) s = .next t ∧ Handed f x t w w' ∧ w'.k = w.k ∧ w'.blocked = [] ∧ t.blocks = s.blocks ∧
      Tab.look (t.die (yard / 12)).tasks yard
        = some (Tab.get (s.die (yard / 12)).tasks [] yard ++ [{ grid := grid, ctx := w.ctx, record := r }]) ∧
      (∀ d, d ≠ yard / 12 → t.die d = x.die d) ∧
      ∀ k, t.grid? k = if k = grid then (s.grid? k).map (fun v => { v with live := v.live + 1 }) else s.grid? k)

/-- `intent` announces or cancels the context's rate on its core and only advances (R228, R385); `rblk.acq` grows the warp by 32·n
registers where its banks have room and answers the old count, else waits; `rblk.rel` shrinks it, its lower registers unchanged (R229,
R230). -/
def Obligations.IntentsAndRegisterBlocksComplete : Prop :=
  (∀ (g a lead : Nat) (job : Bool) (f : Form) (s : State) (w : Warp), f = engForm g 1 → Ready f 0 s w → (issueCtx f s w).en ≠ 0 →
    (w.kr a).toNat < 2 ^ 32 →
    ∃ t w', exec (.intent g a lead job) s = .next t ∧ t.warp? s.cur = some w' ∧ SameRegs w w' ∧ SameStanding w w' ∧ SameSpecials w w' ∧
      w'.rsb = w.rsb ∧ Advanced (issueCtx f s w) w w' ∧ t.mem = s.mem ∧ SameElsewhere s t ∧
      (∀ k, k ≠ coreOf s.cur → t.core k = s.core k) ∧
      Tab.look (t.core (coreOf s.cur)).intents w.ctx = (if (w.kr a).toNat = 0 then none
        else some { rate := (w.kr a).toNat, due := s.dev.micros + lead, job := job && decide (s.apBits offGovJob 63 63 = 1) }) ∧
      ∀ k, k ≠ w.ctx → Tab.look (t.core (coreOf s.cur)).intents k = Tab.look (s.core (coreOf s.cur)).intents k) ∧
  (∀ (g d n : Nat) (l : Bool) (f : Form) (s : State) (w : Warp), f = engForm g 2 false .p → CommitsEmpty s w → Ready f 0 s w →
    (issueCtx f s w).en ≠ 0 → w.regs + 32 * n ≤ 512 → w.blocked = [] → (l = false ∨ 2 < n ∨ (s.core (coreOf s.cur)).leanTo ≠ none) →
    ∃ t w', exec (.rblkAcq g d n l) s = .next t ∧ t.warp? s.cur = some w' ∧ t.blocks = s.blocks ∧ w'.x = w.x ∧ w'.lean = w.lean ∧
      (if (s.inOrder w).regsRoom w.blk n then HandedOn f s t w w' ∧ SetsK d (BitVec.ofNat 64 w.regs) w w' ∧ w'.regs = w.regs + 32 * n ∧ w'.blocked = []
      else w'.k = w.k ∧ w'.regs = w.regs ∧ ∃ x, w'.blocked = [x] ∧ x.lanes = (issueCtx f s w).en ∧ x.what = .rblk d n l)) ∧
  (∀ (g d n : Nat) (f : Form) (s : State) (w : Warp), f = engForm g 2 false .p → CommitsEmpty s w → Ready f 0 s w →
    (issueCtx f s w).en ≠ 0 → w.regs + 32 * n ≤ 512 → w.blocked = [] → n ≤ 2 → (s.core (coreOf s.cur)).leanTo = none →
    ∃ t w', exec (.rblkAcq g d n true) s = .next t ∧ HandedOn f s t w w' ∧ SetsK d (BitVec.ofNat 64 w.regs) w w' ∧
      w'.regs = w.regs + 32 * n ∧ w'.lean = some w.regs ∧ (t.core (coreOf s.cur)).leanTo = some s.cur ∧ w'.blocked = [] ∧
      t.blocks = s.blocks) ∧
  (∀ (g n : Nat) (f : Form) (s : State) (w : Warp), f = engForm g 2 false .p → CommitsEmpty s w → Ready f 0 s w →
    (issueCtx f s w).en ≠ 0 → w.regs0 + 32 * n ≤ w.regs → NoneWaits s →
    ∃ t w', exec (.rblkRel g n) s = .next t ∧ t.warp? s.cur = some w' ∧ LeftBehind f s w w' ∧ w'.regs + 32 * n = w.regs ∧ w'.k = w.k ∧
      w'.m = w.m ∧ w'.rcount = 0 ∧ (∀ r < w'.regs, ∀ l < 32, w'.xr r l = w.xr r l) ∧ t.mem = s.mem ∧ t.ap = s.ap ∧ t.blocks = s.blocks ∧
      OtherWarps s t ∧ w'.lean = (match w.lean with | some lo => if w'.regs ≤ lo then none else some lo | none => none))

/-! ### Steps of parties other than warps -/

/-- Power: a die's monitor sample sets %charge and %vbank and the bank floor's stop (R388, R389); a replay counts (R398); write assist
follows its two thresholds (R397); an intent lapses 100 µs after its due time (R385). Nothing else changes.
The model's choice: log entry 95. -/
def Obligations.MonitorRowsComplete : Prop :=
  (∀ (s : State) (die : Nat) (charge : BitVec 32) (vbank : BitVec 16),
    ∃ t, exec (.bankMonitorSample die charge vbank) s = .next t ∧ OnlyDie die s t ∧
      t.die die = { s.die die with charge := charge, vbank := vbank.setWidth 32, low := if vbank.toNat < s.dev.floor then true else if s.dev.floor < vbank.toNat then false else (s.die die).low }) ∧
  (∀ (s : State) (core : Nat),
    ∃ t, exec (.shadowLatchReplay core) s = .next t ∧ OnlyCore core s t ∧
      t.core core = { s.core core with replays := (s.core core).replays + 1 }) ∧
  (∀ (s : State) (die yard mv : Nat),
    ∃ t, exec (.writeAssistChange die yard mv) s = .next t ∧ t.mem = s.mem ∧ t.ap = s.ap ∧ t.warps = s.warps ∧ t.dies = s.dies ∧
      t.blocks = s.blocks ∧ t.grids = s.grids ∧ t.dev = s.dev ∧ t.own = s.own ∧ t.agenda = s.agenda ∧
      ∀ c, t.core c = if 48 * die + 4 * yard ≤ c ∧ c < 48 * die + 4 * yard + 4 then
          { s.core c with assist := if mv < 620 then true else if 640 ≤ mv then false else (s.core c).assist }
        else s.core c) ∧
  (∀ (s : State) (core ctx : Nat) (i : Intent), Tab.look (s.core core).intents ctx = some i →
    ∃ t, exec (.intentLapse core ctx) s = .next t ∧ OnlyCore core s t ∧
      Tab.look (t.core core).intents ctx = (if s.dev.micros < i.due + 100 then some i else none) ∧
      ∀ k, k ≠ ctx → Tab.look (t.core core).intents k = Tab.look (s.core core).intents k)

/-- The clocks: the cycle of a core whose engines have nothing to do and whose warps wait for nothing refills its bucket up to CAP and
offers each scheduler its choice (R370); a die's cycle counts %clk, takes its share, pays what is owed and keeps its level at or below its
capacity (R31, R375); the governor's tick counts a microsecond and, once the configuration is applied, moves PR by at most SLEW but never
below SC (R374, R377, R379); a calibration window replaces EPT by a quarter of the measured value, held between 16 and 64, and three
quarters of the old (R394).
The model's choices: log entries 62, 79 and 94. -/
def Obligations.ClockRowsComplete : Prop :=
  (∀ (s : State) (core : Nat), isService core = false → (s.core core).queue = [] → (s.core core).mat = [] → (s.core core).copying = [] →
    (s.die (dieOfCore core)).opens = [] → (s.die (dieOfCore core)).insts = [] → (∀ e ∈ s.warps, coreOf e.1 = core → e.2.blocked = []) →
    ∃ t l, exec (.coreCycle core) s = .next t ∧ t.agenda = l ++ s.agenda ∧ (∀ k < 4, Pending.event (.urgentWarp core k) ∈ l) ∧
      t.core core = { s.core core with
        level := if (s.core core).grant = 0 then (s.core core).level
          else min ((s.core core).level + (((s.core core).grant : Nat) : Int)) ((256 * s.ap! (offTokCap core) : Nat) : Int),
        grant := 0, issued := [] } ∧
      (∀ c, c ≠ core → t.core c = s.core c) ∧ t.mem = s.mem ∧ t.ap = s.ap ∧ t.blocks = s.blocks ∧ t.grids = s.grids ∧ t.dev = s.dev ∧
      t.own = s.own ∧ (∀ d, d ≠ dieOfCore core → t.die d = s.die d) ∧ ∀ v, coreOf v ≠ core → t.warp? v = s.warp? v) ∧
  (∀ (s : State) (die : Nat), ∃ t, exec (.dieBucketCycle die) s = .next t ∧
      (t.die die).clk = (s.die die).clk + 1 ∧ (t.die die).level ≤ ((256 * s.apBits (offDieGov die) 15 0 : Nat) : Int) ∧
      ((s.die die).low = true → (t.die die).level = min ((s.die die).level + (((s.die die).share : Nat) : Int)
          - ((256 * ((s.die die).owed + (s.die die).forced.foldl (fun n e => n + e.2) 0) : Nat) : Int))
        ((256 * s.apBits (offDieGov die) 15 0 : Nat) : Int)) ∧
      SameBytes s t ∧ t.mem.ver = s.mem.ver ∧ t.warps = s.warps ∧ t.blocks = s.blocks ∧ t.grids = s.grids ∧ t.dev = s.dev ∧
      ((∀ c ∈ coresOfDie die, (s.core c).hints = []) → (t.die die).owed = 0 ∧ t.mem = s.mem ∧ ∀ d, d ≠ die → t.die d = s.die d)) ∧
  (∀ (s : State), s.apBits offBootStat 28 28 = 0 → ∃ t, exec .govTick s = .next t ∧ t.dev.micros = s.dev.micros + 1 ∧
      t.dev.pr = s.dev.pr ∧ t.ap = s.ap ∧ t.dies = s.dies ∧ t.cores = s.cores ∧ t.mem = s.mem ∧ t.warps = s.warps) ∧
  (∀ (s : State), s.apBits offBootStat 28 28 = 1 → ∃ t, exec .govTick s = .next t ∧ t.dev.micros = s.dev.micros + 1 ∧
      256 * s.static ≤ t.dev.pr ∧ t.dev.pr ≤ max (s.dev.pr + 256 * s.apBits (bGov + 8) 15 0) (256 * s.static) ∧
      s.dev.pr ≤ t.dev.pr + 256 * s.apBits (bGov + 8) 15 0 ∧ t.mem = s.mem ∧ t.warps = s.warps ∧ t.blocks = s.blocks) ∧
  (∀ (s : State) (p : Nat), s.apBits offGovCal 0 0 = 0 → s.dev.drawn ≠ 0 → ∃ t, exec (.eptCalibration (some p)) s = .next t ∧
      t.apBits offGovCal 63 48
        = (3 * s.ept + min (max (p * 10 ^ 9 * 256 * 256 / (s.dev.drawn * s.cclk)) (16 * 256)) (64 * 256)) / 4 ∧
      t.dev = { s.dev with missed := 0, drawn := 0 } ∧ (∀ off, off ≠ offGovCal → t.ap! off = s.ap! off) ∧
      t.mem = s.mem ∧ t.warps = s.warps ∧ t.cores = s.cores ∧ t.dies = s.dies)

/-- Choice and turns: a scheduler that has not issued chooses a ready warp of its own, an urgent one before all others (R241); a chosen
warp whose runnable lanes are all deferred passes its opportunity to the other ready warp, if that is not all deferred itself, and its
flags clear, as they do at once with no other ready (R105); a warp
whose count has reached T_f gives held lanes a turn (R245), which ends when its time is over (R246); the timer compares (R293); lanes
that waited 1 024 cycles may be selected again (R225); a parked warp is ready and its record free (R323). -/
def Obligations.SelectionRowsComplete : Prop :=
  (∀ (s : State) (core sched : Nat), (s.core core).issued.contains sched = false → s.readyOf core sched ≠ [] →
    (∀ e ∈ s.readyOf core sched, e.2.allDeferred = false ∧ s.warp? e.1 = some e.2) →
    ∃ t wid w l, exec (.urgentWarp core sched) s = .next t ∧ t = { s with agenda := l ++ .issue wid :: s.agenda } ∧
      (wid, w) ∈ s.readyOf core sched ∧
      ((∃ e ∈ s.readyOf core sched, Rec.pp (s.recOf e.2) = true ∧ 8160 ≤ e.2.ready) → Rec.pp (s.recOf w) = true ∧ 8160 ≤ w.ready)) ∧
  (∀ (s : State) (core sched a b : Nat) (w v : Warp), (s.core core).issued.contains sched = false →
    s.readyOf core sched = [(a, w), (b, v)] → s.warp? a = some w → s.warp? b = some v → s.choose (s.readyOf core sched) = some a → a ≠ b →
    w.allDeferred = true → v.allDeferred = false →
    ∃ t l, exec (.urgentWarp core sched) s = .next t ∧ t.agenda = l ++ .issue b :: s.agenda ∧
      t.warp? a = some { w with deferred := 0 } ∧ OnlyWid a { s with agenda := t.agenda } t) ∧
  (∀ (s : State) (core sched a : Nat) (w : Warp), (s.core core).issued.contains sched = false → s.readyOf core sched = [(a, w)] →
    s.warp? a = some w → w.allDeferred = true →
    ∃ t l, exec (.urgentWarp core sched) s = .next t ∧ t.agenda = l ++ .issue a :: s.agenda ∧
      t.warp? a = some { w with deferred := 0 } ∧ OnlyWid a { s with agenda := t.agenda } t) ∧
  (∀ (s : State) (wid tf : Nat) (w : Warp), s.warp? wid = some w → s.turnTime w = some tf → w.turn = none → tf ≤ w.fc → w.held ≠ 0 →
    ∃ t w' g, exec (.fairnessTurn wid) s = .next t ∧ OnlyWid wid s t ∧ t.warp? wid = some w' ∧ SameRegs w w' ∧ SameStanding w w' ∧
      w'.turn = some { lanes := g, start := none } ∧ g ≠ 0 ∧ g &&& ~~~w.held = 0 ∧ w'.pcv = w.pcv ∧ w'.fc = w.fc) ∧
  (∀ (s : State) (wid : Nat) (w : Warp), s.warp? wid = some w →
    ∃ t, exec (.turnTimeout wid) s = .next t ∧ OnlyWid wid s t ∧
      t.warp? wid = some (if s.turnOver w then { w with turn := none, fc := 0 } else w)) ∧
  (∀ (s : State) (wid : Nat) (w : Warp), s.warp? wid = some w →
    ∃ t, exec (.timerCompare wid) s = .next t ∧ OnlyWid wid s t ∧
      t.warp? wid = some { w with timer := w.timer || (w.tcmp != 0 && decide (w.tcmp.toNat ≤ (s.clk wid).toNat)) }) ∧
  (∀ (s : State) (wid : Nat) (w : Warp), s.warp? wid = some w →
    ∃ t, exec (.fgetRetry wid) s = .next t ∧ OnlyWid wid s t ∧
      t.warp? wid = some { w with delayed := w.delayed.filter fun x => (s.clk wid).toNat < x.2 }) ∧
  (∀ (s : State) (die rec : Nat) (p : Park) (w : Warp), Tab.look (s.die die).park rec = some p → p.live = true → s.warp? p.wid = some w →
    w.parked = some (die * 4096 + rec) →
    ∃ t, exec (.futureReenqueue die rec) s = .next t ∧ t.warp? p.wid = some { w with parked := none } ∧
      Tab.look (t.die die).park rec = none ∧ (∀ i, i ≠ rec → Tab.look (t.die die).park i = Tab.look (s.die die).park i) ∧
      t.mem = s.mem ∧ t.cores = s.cores ∧ ∀ v, v ≠ p.wid → t.warp? v = s.warp? v)

/-- Waits: a `poll` lane whose step is paid reads again, and takes its value and leaves or waits for its next delay (R188); an `mwait`
lane likewise (R189); a halted service core goes on when its door is rung (R109, R429). -/
def Obligations.WaitRowsComplete : Prop :=
  (∀ (s : State) (wid lane key v : Nat) (w : Warp) (b : Blocked) (p : PollOp), s.warp? wid = some w → s.awake w = true →
    w.waitOf lane = some b → b.what = .poll p → p.owed = 2 → s.ap! offInjMask = 0 →
    s.waitRead wid p.sp b.lanes p.ea 4 = .ok (key, v) → (p.sp = .g → s.leasedOut (lineOf key) = false) →
    ∃ t w', exec (.pollReread wid lane) s = .next t ∧ t.warp? wid = some w' ∧ SameBytes s t ∧ t.ap = s.ap ∧ t.blocks = s.blocks ∧
      (if pollHolds p v then
        (∀ l < 32, laneIn b.lanes l = true → w'.xr p.d l = BitVec.ofNat 32 v ∧ w'.pc l = b.here + BitVec.ofNat 64 b.len)
        ∧ (∀ n, ∀ l < 32, n ≠ p.d ∨ laneIn b.lanes l = false → w'.xr n l = w.xr n l)
      else SameRegs w w' ∧ w'.pcv = w.pcv ∧
        { b with what := .poll { p with k := p.k + 1, due := (s.clk wid).toNat + 64 * 2 ^ min (p.k + 1) p.bo, owed := 0 } } ∈ w'.blocked)) ∧
  (∀ (s : State) (wid lane key v : Nat) (w : Warp) (b : Blocked) (p : MwaitOp), s.warp? wid = some w → s.awake w = true →
    w.waitOf lane = some b → b.what = .mwait p → p.owed = 2 → s.ap! offInjMask = 0 →
    s.waitRead wid .g b.lanes p.ea 8 = .ok (key, v) → s.leasedOut (lineOf key) = false →
    ∃ t w', exec (.mwaitWake wid lane) s = .next t ∧ t.warp? wid = some w' ∧ SameBytes s t ∧ t.ap = s.ap ∧ t.blocks = s.blocks ∧
      (if mwaitHolds p v then
        (∀ l < 32, laneIn b.lanes l = true → w'.xn true p.d l = BitVec.ofNat 64 v ∧ w'.pc l = b.here + BitVec.ofNat 64 b.len)
      else SameRegs w w' ∧ w'.pcv = w.pcv ∧ { b with what := .mwait { p with ver := s.versionAt key, owed := 0 } } ∈ w'.blocked)) ∧
  (∀ (s : State) (n : Nat) (w : Warp) (b : Blocked), (∀ e ∈ s.warps, coreOf e.1 = 192 + n → e = (64 * (192 + n), w)) →
    s.warp? (64 * (192 + n)) = some w → s.awake w = true → w.blocked = [b] → b.what = .halt → s.ap! (offDoor n) ≠ 0 →
    ∃ t w', exec (.haltWake n) s = .next t ∧ OnlyWid (64 * (192 + n)) s t ∧ t.warp? (64 * (192 + n)) = some w' ∧ SameRegs w w' ∧
      ∀ l < 32, laneIn b.lanes l = true → w'.pc l = b.here + BitVec.ofNat 64 b.len)

/-- The watchdog and the external-wait timeout trap a warp whose counts have run out, where its context has a handler: the lanes are
named at their instruction, MODE is 0, and the handler's start is next (R251, R403, R424).
The model's choices: log entries 92 and 93. -/
def Obligations.TimeoutRowsComplete : Prop :=
  (∀ (s : State) (core ctx wid : Nat) (w : Warp), s.watchdogDue core ctx = true → s.ctxWarps core ctx = [(wid, w)] →
    s.warp? wid = some w → isService core = false → s.ap! (offFltHnd ctx) % 2 = 1 → s.isHandler w = false → w.rsb = [] → w.turn = none →
    ∃ t w' p, exec (.localWaitWatchdog core ctx) s = .next t ∧ t.warp? wid = some w' ∧ w'.susp = some p ∧ p.trap = { cls := .watchdog } ∧
      p.lanes = ~~~w.exited ∧ p.mode = 0 ∧ p.started = false ∧ p.debugger = false ∧ SameRegs w w' ∧
      t.agenda = .event (.trapHandlerStart wid) :: s.agenda ∧ SameBytes s t ∧ t.blocks = s.blocks ∧ ∀ v, v ≠ wid → t.warp? v = s.warp? v) ∧
  (∀ (s : State) (wid : Nat) (w : Warp) (b : Blocked), s.warp? wid = some w → s.extwaitDue wid w = true → w.susp = none →
    w.stopped = false → w.blocked = [b] → farWait b.what = true → isService (coreOf wid) = false → s.ap! (offFltHnd w.ctx) % 2 = 1 →
    s.isHandler w = false →
    ∃ t w' p, exec (.extwaitTimeout wid) s = .next t ∧ t.warp? wid = some w' ∧ w'.susp = some p ∧ p.trap = { cls := .extwait } ∧
      p.lanes = b.lanes ∧ p.mode = 0 ∧ p.pc = b.here ∧ SameRegs w w' ∧ w'.blocked = w.blocked ∧
      t.agenda = .event (.trapHandlerStart wid) :: s.agenda ∧ t.mem = s.mem ∧ t.blocks = s.blocks ∧ ∀ v, v ≠ wid → t.warp? v = s.warp? v) ∧
  (∀ (s : State) (wid core : Nat) (w : Warp) (p : Susp), s.warp? wid = some w → w.susp = some p → p.started = false → p.debugger = false →
    p.record ≠ 0 → s.trapCore (coreOf wid) w.ctx = some core → s.mem.leases = [] →
    ∃ t w' b v h, exec (.trapHandlerStart wid) s = .next t ∧ t.warp? wid = some w' ∧ w'.susp = some { p with started := true } ∧
      t.block? s.own.nextId = some b ∧ b.kind = .trap ∧ b.ctx = w.ctx ∧ b.core = core ∧ b.resident = true ∧ b.suspect = some wid ∧
      t.warp? v = some h ∧ v ≠ wid ∧ coreOf v = core ∧ h.blk = s.own.nextId ∧ h.level = .p ∧ h.frec = p.record ∧
      h.tclass = BitVec.ofNat 32 (trapCode p.trap.cls) ∧ h.kr 1 = p.record ∧
      (∀ l < 32, h.pc l = BitVec.ofNat 64 (s.ap! (offFltHnd w.ctx) / 4 * 4)) ∧ SameBytes s t)

/-- Retirement: a warp whose lanes have all exited frees its slot (R257), its block its banks (R258), a complete grid ends with its stamp
written and its interrupt told (R236, R259), another device's group no longer counts (R319); pre-emption takes every block of a context off
its core (R294), but for reduce blocks (R359), and a block whose banks are free returns to them (R301).
The model's choices: log entries 1 and 52. -/
def Obligations.RetirementRowsComplete : Prop :=
  (∀ (s : State) (wid : Nat) (w : Warp), s.warp? wid = some w → w.exited = 0xFFFFFFFF → w.rsb = [] → isService (coreOf wid) = false →
    NoneWaits s → (∀ b, s.block? w.blk = some b → b.bars = []) →
    ∃ t, exec (.warpRetire wid) s = .next t ∧ t.warp? wid = none ∧ (∀ v, v ≠ wid → t.warp? v = s.warp? v) ∧
      t.agenda = .event (.blockRetire w.blk) :: s.agenda ∧ t.mem = s.mem ∧ t.ap = s.ap ∧ t.grids = s.grids ∧
      t.block? w.blk = (s.block? w.blk).map (fun b => { b with busyAt := w.lastIssue }) ∧ (∀ k, k ≠ w.blk → t.block? k = s.block? k) ∧
      (w.lean ≠ none → (t.core (coreOf wid)).leanTo = none)) ∧
  (∀ (s : State) (blk g : Nat) (b : Block), s.block? blk = some b → s.warpsOfBlock blk = [] → s.blockBusy b.core blk = false →
    b.resident = true → b.held = [] → b.grid = some g → (∀ e ∈ s.blocks, ∀ k ∈ e.2.held, k ∈ e.2.banksA) →
    ∃ t, exec (.blockRetire blk) s = .next t ∧ t.block? blk = none ∧ (∀ k, k ≠ blk → t.block? k = s.block? k) ∧
      (∀ k, Tab.look (t.core b.core).banks k ≠ some (blk + 1)) ∧
      t.grid? g = (s.grid? g).map (fun v => { v with live := v.live - 1 }) ∧
      t.agenda = .event (.gridComplete g) :: s.agenda ∧ t.mem = s.mem ∧ t.warps = s.warps) ∧
  (∀ (s : State) (g : Nat) (v : Grid), s.grid? g = some v → v.complete = true → s.gridWrites g = false → v.src = none → v.parent = none → Rec.stamp v.record = 0 →
    ∃ t, exec (.gridComplete g) s = .next t ∧ t.grid? g = none ∧ (∀ k, k ≠ g → t.grid? k = s.grid? k) ∧
      t.own.msgs = s.own.msgs ++ (if Pkt.irq v.packet then [.irq (Pkt.ivec v.packet % 256)] else []) ∧ t.mem = s.mem ∧ t.warps = s.warps) ∧
  (∀ (s : State) (g key : Nat) (v : Grid), s.grid? g = some v → v.complete = true → s.gridWrites g = false → v.src = none →
    v.parent = none → Rec.stamp v.record ≠ 0 → Rec.stamp v.record % 8 = 0 → s.mem.leases = [] → s.ap! offInjMask = 0 →
    s.mem.upset = [] → s.place 0 v.ctx true .write (BitVec.ofNat 64 (Rec.stamp v.record)) = .ok key → isAp key = false →
    ∃ t, exec (.gridComplete g) s = .next t ∧ t.grid? g = none ∧ (∀ k, k ≠ g → t.grid? k = s.grid? k) ∧
      t.homeNum key 8 = BitVec.ofNat 64 (2 ^ 32) ∧ (∀ a, a < key ∨ key + 8 ≤ a → t.mem.byte a = s.mem.byte a) ∧
      t.own.msgs = s.own.msgs ++ (if Pkt.irq v.packet then [.irq (Pkt.ivec v.packet % 256)] else []) ∧ t.warps = s.warps ∧
      t.blocks = s.blocks) ∧
  (∀ (s : State) (g grp : Nat) (v : Grid), s.grid? g = some v →
    ∃ t, exec (.groupRetired g grp) s = .next t ∧ t.grid? g = some { v with remote := v.remote - 1 } ∧
      t.agenda = .event (.gridComplete g) :: s.agenda ∧ t.mem = s.mem ∧ t.warps = s.warps ∧ t.blocks = s.blocks) ∧
  (∀ (s : State) (ctx : Nat), (∀ e ∈ s.blocks, e.2.ctx = ctx → s.ctxBusy e.2.core ctx = false) → s.mem.leases = [] →
    ∃ t, exec (.preemption ctx) s = .next t ∧ (∀ blk b, t.block? blk = some b → b.ctx = ctx → b.kind ≠ .reduce → b.resident = false) ∧
      (∀ blk b, s.block? blk = some b → b.kind = .reduce → ∃ b', t.block? blk = some b' ∧ b'.resident = b.resident) ∧
      (∀ blk, (t.block? blk).map Block.ctx = (s.block? blk).map Block.ctx) ∧
      ∀ blk b, s.block? blk = some b → b.ctx ≠ ctx → ∃ b', t.block? blk = some b' ∧ b'.resident = b.resident ∧ b'.spad = b.spad) ∧
  (∀ (s : State) (blk : Nat) (b : Block), s.block? blk = some b → s.mayReturn blk b = true →
    (∀ e ∈ s.gang blk b, e = (blk, b) ∨ (e.1 ≠ blk ∧ e.2.core ≠ b.core)) → s.mem.leases = [] →
    ∃ t b', exec (.switchIn blk) s = .next t ∧ t.block? blk = some b' ∧ b'.resident = true ∧ b'.core = b.core ∧
      (∀ k ∈ b.banks, Tab.look (t.core b.core).banks k = some (blk + 1)) ∧
      ∀ k, (∀ e ∈ s.gang blk b, e.1 ≠ k) → t.block? k = s.block? k)

/-- Launches: a resident queue leaves and a waiting one takes a free place (R312, R317); a packet that no check turns away becomes a
grid with its groups to place (R235, R319), as does a child of a device-side queue (R320); a trigger that waited joins its queue (R350);
another device's group becomes a grid of one group here (R319).
The model's choices: log entries 1, 8 and 71. -/
def Obligations.LaunchRowsComplete : Prop :=
  (∀ (s : State) (q : Nat), q < 1024 → s.dev.resident.contains q = true →
    ∃ t, exec (.queueSwitch q) s = .next t ∧ t.dev.resident = s.dev.resident.filter (· != q) ∧ t.apBits (offLqProg q) 32 32 = 1 ∧
      (∀ off, off ≠ offLqProg q → t.ap! off = s.ap! off) ∧ t.mem = s.mem ∧ t.warps = s.warps) ∧
  (∀ (s : State) (q : Nat), q < 1024 → s.dev.resident.contains q = false → s.dev.resident.length < 64 →
    ∃ t, exec (.queueSwitch q) s = .next t ∧ t.dev.resident = s.dev.resident ++ [q] ∧ t.apBits (offLqProg q) 32 32 = 0 ∧
      (∀ off, off ≠ offLqProg q → t.ap! off = s.ap! off) ∧ t.mem = s.mem ∧ t.warps = s.warps) ∧
  (∀ (s : State) (q : Nat) (p r : List Byte), q < 1024 → s.fatal = false → s.dev.resident.contains q = true → s.qEnabled q = true →
    s.pendingPackets q ≠ 0 → s.queueCut q = false → s.packetAt q = some p → (∀ l ∈ s.packetLines q, s.leasedOut l = false) →
    Pkt.ok p = true → Pkt.ser p = false → Pkt.waits p = 0 → Pkt.ndev p = 0 →
    s.readBytes 0 (s.qCtx q) (BitVec.ofNat 64 (Pkt.rec_ p)) 256 = .ok r → Rec.check r = 0 → Rec.group r ≠ 4 → Rec.pitch r = 0 →
    s.ap! offInjMask = 0 → s.mem.upset = [] →
    ∃ t v, exec (.launchAccept q) s = .next t ∧ t.prog q = (s.prog q + 1) % 2 ^ 32 ∧ t.grid? s.own.nextId = some v ∧ v.ctx = s.qCtx q ∧
      v.record = r ∧ v.packet = p ∧ v.queue = some q ∧ v.depth = 0 ∧ v.pending = List.range (Rec.groups r) ∧ v.live = 0 ∧
      (∀ g, g ≠ s.own.nextId → t.grid? g = s.grid? g) ∧ SameBytes s t ∧ t.mem.ver = s.mem.ver ∧ t.warps = s.warps ∧ t.blocks = s.blocks ∧
      t.agenda = (List.range (Rec.groups r)).map (fun i => Pending.event (.groupPlacement s.own.nextId i)) ++ s.agenda) ∧
  (∀ (s : State) (ctx q : Nat) (e : DevEntry) (rest : List DevEntry), s.fatal = false → Tab.get s.dev.devq [] (16 * ctx + q) = e :: rest →
    Pkt.ser e.packet = false → Pkt.waits e.packet = 0 → Rec.check e.record = 0 → Rec.group e.record ≠ 4 → e.depth ≤ 8 →
    Rec.pitch e.record = 0 → NoneWaits s →
    ∃ t v, exec (.childLaunchAccept ctx q) s = .next t ∧ Tab.get t.dev.devq [] (16 * ctx + q) = rest ∧ t.grid? s.own.nextId = some v ∧
      v.ctx = ctx ∧ v.record = e.record ∧ v.parent = e.parent ∧ v.depth = e.depth ∧ v.pending = List.range (Rec.groups e.record) ∧
      (∀ g, g ≠ s.own.nextId → t.grid? g = s.grid? g) ∧ t.mem = s.mem ∧ t.warps = s.warps ∧ t.ap = s.ap) ∧
  (∀ (s : State) (tr : Trigger) (rest : List Trigger), s.dev.trigs = tr :: rest →
    (Tab.get s.dev.devq [] (16 * tr.ctx + tr.q)).length < 64 → (∀ d < 4, ∀ o ∈ (s.die d).opens, o.kept = false) →
    ∃ t, exec (.launchTriggerEnqueue tr.ctx tr.q) s = .next t ∧ t.dev.trigs = rest ∧
      Tab.get t.dev.devq [] (16 * tr.ctx + tr.q) = Tab.get s.dev.devq [] (16 * tr.ctx + tr.q) ++ [tr.entry] ∧
      t.mem = s.mem ∧ t.warps = s.warps ∧
      (tr.grids = [] → t.agenda = .event (.childLaunchAccept tr.ctx tr.q) :: s.agenda ∧ t.grids = s.grids) ∧
      (∀ g v, tr.grids = [g] → s.grid? g = some v → t.grid? g = some { v with children := v.children - 1 } ∧
        t.agenda = .event (.gridComplete g) :: .event (.childLaunchAccept tr.ctx tr.q) :: s.agenda)) ∧
  (∀ (s : State) (ctx grp dmask dev : Nat) (r : List Byte), s.fatal = false → s.present ctx = true → grp < 2 ^ 32 →
    ∃ t v, exec (.paddockGridGroup ctx r (groupWord grp dmask) dev) s = .next t ∧ t.grid? s.own.nextId = some v ∧ v.ctx = ctx ∧ v.record = r ∧
      v.dmask = dmask ∧ v.pending = [grp] ∧ v.src = some (dev, grp) ∧ (∀ g, g ≠ s.own.nextId → t.grid? g = s.grid? g) ∧
      t.agenda = .event (.groupPlacement s.own.nextId grp) :: s.agenda ∧ t.mem = s.mem ∧ t.warps = s.warps)

/-- Placement: the blocks of a pending group become resident together on the cores of the chosen unit (R238, R239), a continuation on a
core of its yard with its arguments in k0 to k2 (R322), a handler group for the entry that waits longest in the highest class (R330), and a
reduce block of one warp for a chunk whose launch counter is zero, where a core of the die has room (R358, R359).
The model's choices: log entries 70, 72, 108 and 109. -/
def Obligations.PlacementRowsComplete : Prop :=
  (∀ (s : State) (g grp : Nat) (v : Grid) (cores : List Nat), s.grid? g = some v → v.pending.contains grp = true →
    s.chooseUnit v.ctx v.dmask v.record (groupMembers v.record grp) = some cores →
    ∃ t, exec (.groupPlacement g grp) s = .next t ∧
      t.grid? g = some { v with pending := v.pending.filter (· != grp), live := v.live + groupMembers v.record grp } ∧
      (∀ i, i < cores.length → ∃ b, t.block? (s.own.nextId + i) = some b ∧ b.ctx = v.ctx ∧ b.grid = some g ∧ b.kind = .grid ∧
        b.core = cores.getD i 0 ∧ b.index = BitVec.ofNat 32 (grp * Rec.groupSize v.record + i) ∧ b.resident = true ∧ b.record = v.record ∧
        b.spad = [] ∧ b.phase = 0) ∧
      (∀ k, k < s.own.nextId → t.block? k = s.block? k) ∧ t.mem = s.mem ∧ t.ap = s.ap) ∧
  (∀ (s : State) (yard core : Nat) (c : Cont) (rest : List Cont) (v : Grid), Tab.get (s.die (yard / 12)).tasks [] yard = c :: rest →
    s.grid? c.grid = some v → s.serves (yard / 12) = true → NoneWaits s →
    s.chooseCore v.record ((List.range 4).map (48 * (yard / 12) + 4 * (yard % 12) + ·)) c.ctx 1
      (Rec.rcb v.record + Rec.spb v.record + Rec.acb v.record) = some core →
    ∃ t b w wid, exec (.continuationDispatch yard) s = .next t ∧ Tab.get (t.die (yard / 12)).tasks [] yard = rest ∧
      t.block? s.own.nextId = some b ∧ b.kind = .cont ∧ b.index = 0xFFFFFFFF ∧ b.core = core ∧ b.grid = some c.grid ∧ b.ctx = c.ctx ∧
      t.warp? wid = some w ∧ coreOf wid = core ∧ w.blk = s.own.nextId ∧ w.level = .u ∧
      (∀ i < 3, w.kr i = BitVec.ofNat 64 (leAt c.record (8 + 8 * i) 8)) ∧ t.mem = s.mem ∧ t.grids = s.grids) ∧
  (∀ (s : State) (die core : Nat) (e : InboxEntry) (rest : List InboxEntry), (s.die die).waiting = e :: rest → e.warps = 1 →
    s.idleHandlers die e.ctx e.hidx = [] → s.serves die = true → (∀ x ∈ s.warps, x.2.blk < s.own.nextId) → s.chooseCore [] (coresOfDie die) e.ctx 1 ((e.rblk + 15) / 16) = some core →
    ∃ t b w wid, exec (.handlerAssign die) s = .next t ∧ t.block? s.own.nextId = some b ∧ b.kind = .handler ∧ b.hidx = e.hidx ∧
      b.ctx = e.ctx ∧ b.core = core ∧ t.warp? wid = some w ∧ coreOf wid = core ∧ w.level = .p ∧ w.inbox = some e.id ∧
      (∀ x ∈ (t.die die).inbox, x.id = e.id → x.taken = some s.own.nextId) ∧ t.mem = s.mem ∧ t.ap = s.ap ∧ t.grids = s.grids) ∧
  (∀ (s : State) (id chunk d : Nat) (i : CollInst), s.grid? id = none → s.collOf id = some (d, i) → Tab.look i.left chunk = some 0 →
    i.placed.contains chunk = false →
    ∃ t, exec (.groupPlacement id chunk) s = .next t ∧ (s.reduceCore d i.ctx = none → t = s) ∧
      (∀ core, s.reduceCore d i.ctx = some core →
        ∃ b w wid, t.block? s.own.nextId = some b ∧ b.kind = .reduce ∧ b.core = core ∧ b.ctx = i.ctx ∧ b.grid = none ∧ b.resident = true ∧
          b.work = some { inst := id, chunk := chunk, left := Config.routineLength chunk } ∧ b.banksR.length = 1 ∧ b.banksS = [] ∧ b.banksA = [] ∧
          t.warp? wid = some w ∧ coreOf wid = core ∧ s.warp? wid = none ∧ w.blk = s.own.nextId ∧ w.ctx = i.ctx ∧ w.level = .p ∧
          (∀ k, k ≠ wid → t.warp? k = s.warp? k) ∧ t.mem = s.mem ∧ t.grids = s.grids))

/-- Invocations: the receiving die answers 5 after a fatal error, 6 where the context is absent, and otherwise takes the record into its
inbox and answers 0 (R328); an answer below 2 ends its sender's wait with the code in D (R221); the oldest ring record goes to the inbox
while there is room (R329).
The model's choices: log entries 8 and 74. -/
def Obligations.InvocationRowsComplete : Prop :=
  (∀ (s : State) (p : Invoke), p.sdev = s.devId → s.fatal = true →
    ∃ t, exec (.remoteInvocation p) s = .next t ∧
      t.agenda = .event (.invocationAnswer p.wid (answerWord (s.devId + 1024 * p.die) p.seq 5) false) :: s.agenda ∧ t.mem = s.mem ∧
      t.ap = s.ap ∧ t.warps = s.warps ∧ t.own = s.own ∧ (∀ d, (t.die d).inbox = (s.die d).inbox) ∧
      (p.sdie = p.die → t.dies = s.dies)) ∧
  (∀ (s : State) (p : Invoke), p.sdev = s.devId → s.fatal = false → s.present p.ctx = false →
    ∃ t, exec (.remoteInvocation p) s = .next t ∧
      t.agenda = .event (.invocationAnswer p.wid (answerWord (s.devId + 1024 * p.die) p.seq 6) false) :: s.agenda ∧ t.mem = s.mem ∧
      t.ap = s.ap ∧ t.warps = s.warps ∧ t.own = s.own ∧ (∀ d, (t.die d).inbox = (s.die d).inbox) ∧
      (p.sdie = p.die → t.dies = s.dies)) ∧
  (∀ (s : State) (p : Invoke) (e : List Byte), p.sdev = s.devId → s.fatal = false → s.present p.ctx = true →
    s.pitchEntry p.die p.ctx p.hidx = some e → Pitch.ok e = true → Pitch.policy e ≠ 1 → s.inboxRoom p.die p.ctx = true →
    (∀ l ∈ s.ringLines p.die p.ctx p.hidx true, s.leasedOut l = false) → s.ap! offInjMask = 0 → s.mem.upset = [] →
    ∃ t x, exec (.remoteInvocation p) s = .next t ∧ (t.die p.die).inbox = (s.die p.die).inbox ++ [x] ∧ x.ctx = p.ctx ∧ x.hidx = p.hidx ∧
      x.record = invokeRecord p false ∧ x.warps = Pitch.warps e ∧ x.rblk = Pitch.rblk e ∧ x.taken = none ∧
      t.agenda = .event (.invocationAnswer p.wid (answerWord (s.devId + 1024 * p.die) p.seq 0) false) :: .event (.handlerAssign p.die) :: s.agenda ∧ SameBytes s t ∧
      t.mem.ver = s.mem.ver ∧ t.warps = s.warps ∧ t.blocks = s.blocks ∧ t.ap = s.ap ∧ ∀ d, d ≠ p.die → (t.die d).inbox = (s.die d).inbox) ∧
  (∀ (s : State) (wid code d tgt seq : Nat) (trapping : Bool) (w : Warp) (b : Blocked), s.warp? wid = some w → s.awake w = true →
    w.blocked = [b] → b.lanes ≠ 0 → b.what = .rinv d trapping tgt seq none false → tgt < 4096 → code < 2 →
    ∃ t w', exec (.invocationAnswer wid (answerWord tgt seq code) false) s = .next t ∧ OnlyWid wid s t ∧ t.warp? wid = some w' ∧
      w'.kr d = BitVec.ofNat 64 code ∧ (∀ n, n ≠ d → w'.kr n = w.kr n) ∧ w'.x = w.x ∧ w'.m = w.m ∧ w'.blocked = [] ∧
      ∀ l < 32, laneIn b.lanes l = true → w'.pc l = b.here + BitVec.ofNat 64 b.len) ∧
  (∀ (s s0 s' : State) (die ctx hidx : Nat) (e r : List Byte) (put get size : Nat), s.mem.leases = [] → s.mem.upset = [] →
    s0 = (s.ringLines die ctx hidx false).foldl (fun s l => s.touch l) s → s0.inboxRoom die ctx = true →
    s0.pitchEntry die ctx hidx = some e → Pitch.ok e = true → s0.ringHeader die ctx (Pitch.ring e) = some (put, get, size) → put ≠ get →
    put < 2 ^ 32 → get < 2 ^ 32 →
    s0.readBytes (48 * die) ctx (BitVec.ofNat 64 (Pitch.ring e + 0x40 + 64 * (get % size))) 64 = .ok r →
    s0.dieWrite die ctx (Pitch.ring e + 4) (leBytes 4 (get + 1)) = some s' →
    ∃ t x, exec (.overflowRingMove die ctx hidx) s = .next t ∧ (t.die die).inbox = (s'.die die).inbox ++ [x] ∧ x.record = r ∧
      x.ctx = ctx ∧ x.hidx = hidx ∧ t.mem = s'.mem ∧ t.agenda = .event (.handlerAssign die) :: s'.agenda ∧ t.warps = s'.warps)

/-- Lines of this device for another: a read is answered with the line and its version (R336), an ownership request with a lease as
well (R282), a write through stores the bytes of its mask (R281), an atomic answers with the old value and stores the new (R173, R178);
poison is answered as poison (R283), and so is a line whose error the read consumes, which is contained next (R407).
The model's choices: log entries 8, 98 and 130. -/
def Obligations.HomeRequestsComplete : Prop :=
  (∀ (s : State) (dev addr : Nat), populated addr = true → s.leasedOut (lineOf addr) = false → s.mem.poisoned (lineOf addr) = false →
    s.ap! offInjMask = 0 → s.mem.upset = [] →
    ∃ t, exec (.lineReadRequest dev addr) s = .next t ∧
      t.own.msgs = s.own.msgs ++ [.data dev (lineOf addr) (s.mem.list (lineOf addr * 128) 128) (s.mem.version (lineOf addr))] ∧
      t.mem = { s.mem with frames := t.mem.frames, dirty := t.mem.dirty, l2 := t.mem.l2, excl := t.mem.excl } ∧ t.warps = s.warps ∧ t.ap = s.ap ∧
      t.cores = s.cores) ∧
  (∀ (s : State) (dev addr : Nat), populated addr = true → s.leasedOut (lineOf addr) = false → s.mem.poisoned (lineOf addr) = true →
    s.ap! offInjMask = 0 → s.mem.upset = [] →
    ∃ t, exec (.lineReadRequest dev addr) s = .next t ∧ t.own.msgs = s.own.msgs ++ [.poisoned dev (lineOf addr)] ∧
      t.mem = { s.mem with frames := t.mem.frames, dirty := t.mem.dirty, l2 := t.mem.l2, excl := t.mem.excl }) ∧
  (∀ (s : State) (dev addr : Nat), populated addr = true → s.leasedOut (lineOf addr) = false → s.mem.poisoned (lineOf addr) = false →
    s.ap! offInjMask = 0 → s.mem.upset = [] →
    ∃ t, exec (.ownershipRequest dev addr) s = .next t ∧ SameBytes s t ∧ t.mem.ver = s.mem.ver ∧ t.leasedOut (lineOf addr) = true ∧
      t.mem.hostHeld = s.mem.hostHeld.filter (· != lineOf addr) ∧
      t.own.msgs = s.own.msgs ++ [.data dev (lineOf addr) (s.mem.list (lineOf addr * 128) 128) (s.mem.version (lineOf addr)),
        .grant dev (lineOf addr)] ∧ t.warps = s.warps) ∧
  (∀ (s : State) (dev addr ctx : Nat) (data : List Byte) (mask : BitVec 128), populated addr = true → s.leasedOut (lineOf addr) = false →
    s.mem.poisoned (lineOf addr) = false →
    ∃ t, exec (.committedLineWrite dev addr ctx data mask) s = .next t ∧
      (∀ i < 128, t.mem.byte (lineOf addr * 128 + i)
        = if mask.getLsbD i then data.getD i 0 else s.mem.byte (lineOf addr * 128 + i)) ∧
      (∀ a, lineOf a ≠ lineOf addr → t.mem.byte a = s.mem.byte a) ∧
      t.mem.version (lineOf addr) = s.mem.version (lineOf addr) + (if mask = 0 then 0 else 1) ∧ t.warps = s.warps ∧ t.blocks = s.blocks) ∧
  (∀ (s : State) (p : RemoteAtomic), populated p.addr = true → p.addr % atmBytes p.op = 0 → s.leasedOut (lineOf p.addr) = false →
    s.mem.poisoned (lineOf p.addr) = false → s.ap! offInjMask = 0 → s.mem.upset = [] →
    ∃ t, exec (.atomicRequest p) s = .next t ∧ t.own.msgs = s.own.msgs ++ [.result p.dev (s.homeNum p.addr (atmBytes p.op))] ∧
      t.homeNum p.addr (atmBytes p.op) = BitVec.ofNat 64 ((atmApply p.op (s.homeNum p.addr (atmBytes p.op)) p.arg).toNat % 256 ^ atmBytes p.op) ∧
      (∀ a, a < p.addr ∨ p.addr + atmBytes p.op ≤ a → t.mem.byte a = s.mem.byte a) ∧ t.warps = s.warps) ∧
  (∀ (s : State) (dev addr : Nat) (e : Nat × Nat), populated addr = true → s.leasedOut (lineOf addr) = false →
    s.mem.upset = [e] → e.1 / 16 = lineOf addr → e.2 = 0 → s.ap! offInjMask = 0 →
    ∃ t, exec (.lineReadRequest dev addr) s = .next t ∧ t.own.msgs = s.own.msgs ++ [.poisoned dev (lineOf addr)] ∧
      t.agenda = .event (.dramUe (lineOf addr) none) :: s.agenda)

/-- Leases: an owner's return ends its lease, with the line's data where it changed (R282, R336); a lapse poisons the line (R282); this
device gives a remote line back when recalled, after 16 µs without use, and 48 µs after the grant (R282). Data that come back are owned by
the context that the packet names (R277).
The model's choices: log entries 8, 76, 98 and 126. -/
def Obligations.LeaseRowsComplete : Prop :=
  (∀ (s : State) (dev addr : Nat) (l : Lease), populated addr = true → s.leaseOf (lineOf addr) = some l → l.dev = some dev →
    s.ap! offInjMask = 0 →
    ∃ t, exec (.leaseReturn dev addr) s = .next t ∧ t.leasedOut (lineOf addr) = false ∧ SameBytes s t ∧ t.mem.ver = s.mem.ver ∧
      t.mem.poison = s.mem.poison ∧ t.warps = s.warps ∧ t.ap = s.ap) ∧
  (∀ (s : State) (dev addr : Nat) (l : Lease) (data : List Byte) (ver : BitVec 32), populated addr = true →
    s.leaseOf (lineOf addr) = some l → l.dev = some (dev % 1024) →
    ∃ t, exec (.leaseReturnWithData dev addr data ver) s = .next t ∧ t.leasedOut (lineOf addr) = false ∧
      (∀ i < 128, t.mem.byte (lineOf addr * 128 + i) = data.getD i 0) ∧ (∀ a, lineOf a ≠ lineOf addr → t.mem.byte a = s.mem.byte a) ∧
      t.mem.version (lineOf addr) = ver ∧ Tab.look t.mem.dirty (lineOf addr) = some (dev / 1024) ∧ t.warps = s.warps) ∧
  (∀ (s : State) (addr : Nat) (l : Lease), populated addr = true → s.leaseOf (lineOf addr) = some l → s.elapsed l.granted 64 = true →
    ∃ t, exec (.leaseLapse addr) s = .next t ∧ t.leasedOut (lineOf addr) = false ∧ t.mem.poisoned (lineOf addr) = true ∧ SameBytes s t ∧
      t.mem.ver = s.mem.ver ∧ t.warps = s.warps ∧ ∀ k, k ≠ lineOf addr → t.mem.poisoned k = s.mem.poisoned k) ∧
  (∀ (s : State) (i : Instr) (line : Nat) (l : Lease), s.myLease line = some l → s.ap! offInjMask = 0 →
    (i = .recall line ∨ (i = .leaseIdleReturn line ∧ s.elapsed l.used 16 = true)
      ∨ (i = .leaseDeadlineReturn line ∧ s.elapsed l.granted 48 = true)) →
    ∃ t, exec i s = .next t ∧ t.myLease line = none ∧ SameBytes s t ∧ t.mem.ver = s.mem.ver ∧ t.warps = s.warps ∧ t.ap = s.ap ∧
      t.own.msgs = s.own.msgs ++ [.data (remoteDev (line * 128)) line (s.mem.list (line * 128) 128) (s.mem.version line)])

/-- Lines of other devices here, and what else crosses the fabric: a response fills the line with its home's bytes and version (R281,
R336); an atomic's answer reaches its lane (R163, R336); a job intent is adopted (R386); a failure notice tells the host (R426); a link
that was up is declared failed, and a peer that no port reaches is lost next (R337, R436); a replay changes nothing but its count, and the
32nd of one flit fails the port (R405, R337); host memory and local memory change as the companion processor writes them (R338).
The model's choices: log entries 5, 6, 98 and 128. -/
def Obligations.FabricRowsComplete : Prop :=
  (∀ (s : State) (line core : Nat) (data : List Byte) (ver : BitVec 32), isRemote (line * 128) = true → NoneWaits s →
    s.ap! offInjMask = 0 → s.mem.upset = [] →
    s.mem.frameOf line ≠ none ∨ s.mem.frameFor (s.victim line) line ≠ none →
    ∃ t, exec (.lineReadResponse line core data ver) s = .next t ∧ (∀ i < 128, t.mem.byte (line * 128 + i) = data.getD i 0) ∧
      (∀ a, lineOf a ≠ line → t.mem.byte a = s.mem.byte a) ∧ t.mem.version line = ver ∧ t.warps = s.warps ∧ t.ap = s.ap ∧
      Tab.look t.mem.l2 line = some (t.mem.list (line * 128) 128, s.mem.fill + 1)) ∧
  (∀ (s : State) (wid lane : Nat) (v : BitVec 64) (w : Warp) (b : Blocked) (op : AtomOp), lane < 32 → s.warp? wid = some w →
    w.blocked = [b] → laneIn b.lanes lane = true → b.what = .ratm op none → s.ap! offInjMask = 0 →
    ∃ t w', exec (.atomicResponse wid lane v) s = .next t ∧ t.warp? wid = some w' ∧ SameBytes s t ∧ t.ap = s.ap ∧
      (s.awake w = true → w'.xn (atomPair op.kind) op.d lane = held (atomPair op.kind) v ∧ w'.pc lane = b.here + BitVec.ofNat 64 b.len ∧
        (∀ n, ∀ l < 32, l ≠ lane → w'.xr n l = w.xr n l ∧ w'.pc l = w.pc l)) ∧
      (s.awake w = false → w'.x = w.x ∧ (∀ l < 32, w'.pc l = w.pc l) ∧
        ∃ b' ∈ w'.blocked, b'.lanes = laneBit lane ∧ b'.here = b.here ∧ b'.what = .ratm op (some v))) ∧
  (∀ (s : State) (dev rate due : Nat), s.apBits offGovJob 63 63 = 1 → s.apBits offGovJob 61 52 ≤ dev →
    dev < s.apBits offGovJob 61 52 + s.apBits offGovJob 41 32 → s.holdsJob = false →
    ∃ t, exec (.powerIntent dev rate due) s = .next t ∧
      t = { s with dev := { s.dev with jobIntent := some { rate := rate, due := s.dev.micros + due, job := true } } }) ∧
  (∀ (s : State) (dev : Nat), (∀ d < 4, (s.die d).roots = [] ∧ (s.die d).opens = [] ∧ (s.die d).insts = []) →
    ∃ t, exec (.failureNotice dev) s = .next t ∧ t = { s with own := { s.own with msgs := s.own.msgs ++ [.irq 0xF4] } }) ∧
  (∀ (s : State) (port : Nat), port < 36 → s.portState true port = 5 → s.mem.leases = [] → NoneWaits s →
    ∃ t, exec (.linkFailure true port []) s = .next t ∧ t.portState true port = 15 ∧ t.apBits (offPort true port + 8) 30 30 = 0 ∧
      t.own.msgs = s.own.msgs ++ [.irq 0xF4] ∧ SameBytes s t ∧ (∀ off, off ≠ offPort true port + 8 → t.ap! off = s.ap! off) ∧
      ((∀ q < 36, q ≠ port → s.portState true q = 5 → s.apBits (offPort true q + 0x10) 9 0 ≠ s.apBits (offPort true port + 0x10) 9 0) →
        t.agenda = .lost (s.apBits (offPort true port + 0x10) 9 0) :: s.agenda)) ∧
  (∀ (s : State) (fab port : Nat), s.ap! offInjMask = 0 → 2 ≤ fab → exec (.linkLevelReplay fab port) s = .next s) ∧
  (∀ (s : State) (fab port : Nat), s.ap! offInjMask = 0 → fab < 2 → Tab.get s.dev.replayed 0 (64 * fab + port) + 1 < 32 →
    ∃ t n, exec (.linkLevelReplay fab port) s = .next t ∧
      t = { s with dev := { s.dev with replayed := Tab.upd s.dev.replayed (64 * fab + port) n } } ∧
      (n = 1 ∨ n = Tab.get s.dev.replayed 0 (64 * fab + port) + 1)) ∧
  (∀ (s : State) (port : Nat), port < 36 → s.ap! offInjMask = 0 → s.portState true port = 5 →
    Tab.get s.dev.replayed 0 (64 + port) = 31 → NoneWaits s →
    ∃ t, exec (.linkLevelReplay 1 port) s = .next t ∧ (t.portState true port = 15 ∧ t.own.msgs = s.own.msgs ++ [.irq 0xF4] ∨
      t.portState true port = 5 ∧ Tab.get t.dev.replayed 0 (64 + port) = 1 ∧ t.own.msgs = s.own.msgs)) ∧
  (∀ (s : State) (a : Nat) (bs : List Byte) (n : Nat), (∀ i < bs.length, populated (a + i) = true ∧
      s.leasedOut (lineOf (a + i)) = false ∧ s.mem.poisoned (lineOf (a + i)) = false) →
    ∃ t, exec (.hostMemoryAccess (.dram a) (some bs) n) s = .next t ∧ (∀ i < bs.length, t.mem.byte (a + i) = bs.getD i 0) ∧
      (∀ k, k < a ∨ a + bs.length ≤ k → t.mem.byte k = s.mem.byte k) ∧ t.warps = s.warps ∧ t.blocks = s.blocks) ∧
  (∀ (s : State) (a len : Nat), s.ap! offInjMask = 0 → s.mem.upset = [] → (∀ i < len, populated (a + i) = true ∧ s.leasedOut (lineOf (a + i)) = false ∧
      s.mem.poisoned (lineOf (a + i)) = false) →
    ∃ t, exec (.hostMemoryAccess (.dram a) none len) s = .next t ∧ t.own.msgs = s.own.msgs ++ [.hostData (s.mem.list a len)] ∧
      SameBytes s t ∧ (∀ i < len, lineOf (a + i) ∈ t.mem.hostHeld) ∧ t.warps = s.warps) ∧
  (∀ (s : State) (a i n : Nat) (bs : List Byte), populated (a + i) = false →
    (i < n → exec (.hostMemoryAccess (.dram a) none n) s = .fault .noMemory) ∧
    (i < bs.length → exec (.hostMemoryAccess (.dram a) (some bs) n) s = .fault .noMemory))

/-- Detected errors: each is logged with its unit and reaction (R405, R417); a clean line, a cache line and a TLB entry are dropped or read
again (R405); a DRAM error poisons every line of its page (R405, R413), and the warp that needed its data takes UE at its instruction
(R408); a dirty L2 error and a register-cache error without a good copy end the context, and a register with a good copy is read again from
it and no more (R409, R412); a RESTART block runs again with an empty scratchpad (R410); a macro that loses a cell is marked, and the
operation that passes through it fails (R411); a device-fatal error ends every context (R415).
The model's choices: log entries 20 (the doors that ring), 85, 87 (ACT of a macro error), 88, 89, 124 (the yard's TLB) and 130. -/
def Obligations.ErrorRowsComplete : Prop :=
  (∀ (s : State) (line : Nat), line < 2 ^ 41 → populated (line * 128) = true → Tab.look s.mem.dirty line = none →
    ∃ t, exec (.l2CleanUe line) s = .next t ∧ Logged 2 1 0xFFF line s t ∧ t.mem = s.mem ∧ t.warps = s.warps ∧ t.blocks = s.blocks) ∧
  (∀ (s : State) (core line : Nat) (ic : Bool), line < 2 ^ 41 →
    ∃ t, exec (.l1ParityError core line ic) s = .next t ∧ Logged 4 1 0xFFF line s t ∧ t.mem = s.mem ∧ t.warps = s.warps ∧
      (if ic then Tab.look (t.core core).icache line = none ∧ (t.core core).l1 = (s.core core).l1
        else Tab.look (t.core core).l1 line = none ∧ (t.core core).icache = (s.core core).icache) ∧ ∀ c, c ≠ core → t.core c = s.core c) ∧
  (∀ (s : State) (core ctx page : Nat), ctx < 4096 →
    ∃ t, exec (.tlbParityError core ctx page) s = .next t ∧ Logged 9 1 ctx 0 s t ∧ t.mem = { s.mem with ytlb := t.mem.ytlb } ∧ t.warps = s.warps ∧
      (∀ k, tlbCovers ctx page (page + 1) k = true → Tab.look (t.core core).tlb k = none ∧ Tab.look (Tab.get t.mem.ytlb [] (yardId core)) k = none) ∧
      ∀ c, c ≠ core → t.core c = s.core c) ∧
  (∀ (s : State) (line : Nat) (ue : Bool), line < 2 ^ 41 → populated (line * 128) = true → s.ap! offInjMask = 0 →
    ∃ t, exec (.patrolScrubRead line ue) s = .next t ∧ SameBytes s t ∧ t.mem.ver = s.mem.ver ∧ t.warps = s.warps ∧ t.blocks = s.blocks ∧
      (ue = false → (∀ e ∈ s.mem.upset, e.1 / 16 ≠ line) → t.mem = s.mem ∧ t.ap = s.ap) ∧
      (ue = true ∨ (∃ e ∈ s.mem.upset, e.1 / 16 = line ∧ e.2 = 0) → Logged 1 6 0xFFF line s t ∧ ∀ i < 512, t.mem.poisoned (line / 512 * 512 + i) = true)) ∧
  (∀ (s : State) (line : Nat), line < 2 ^ 41 → populated (line * 128) = true →
    ∃ t, exec (.dramUe line none) s = .next t ∧ Logged 0 6 0xFFF line s t ∧ SameBytes s t ∧ t.warps = s.warps ∧ t.blocks = s.blocks ∧
      (∀ i < 512, t.mem.poisoned (line / 512 * 512 + i) = true) ∧
      ∀ k, k / 512 ≠ line / 512 → t.mem.poisoned k = s.mem.poisoned k) ∧
  (∀ (s : State) (line wid : Nat) (w : Warp) (n : Need), line < 2 ^ 41 → populated (line * 128) = true → s.warp? wid = some w →
    w.ctx < 4096 → w.needs = some n → n.t.aux.toNat / 128 = line → isService (coreOf wid) = false →
    s.ap! (offFltHnd w.ctx) % 2 = 1 → s.isHandler w = false →
    ∃ t w' p, exec (.dramUe line (some wid)) s = .next t ∧ Logged 0 6 w.ctx line s t ∧ t.mem.poisoned line = true ∧ SameBytes s t ∧
      t.warp? wid = some w' ∧ w'.needs = none ∧ w'.susp = some p ∧ p.trap = (if n.done then n.t else reported w n.t) ∧ p.lanes = n.lanes ∧
      p.mode = 0 ∧ p.pc = n.pc ∧ t.agenda = .event (.trapHandlerStart wid) :: s.agenda ∧ ∀ v, v ≠ wid → t.warp? v = s.warp? v) ∧
  (∀ (s : State) (line wid : Nat) (w : Warp), line < 2 ^ 41 → populated (line * 128) = true → s.warp? wid = some w → w.ctx < 4096 →
    w.needs = none →
    ∃ t, exec (.dramUe line (some wid)) s = .next t ∧ Logged 0 6 w.ctx line s t ∧ t.mem.poisoned line = true ∧ t.warps = s.warps) ∧
  (∀ (s : State) (line set way owner : Nat), line < 2 ^ 41 → Tab.look s.mem.dirty line = some owner → owner < 0xFFF → way < 32 →
    (∀ e ∈ s.grids, e.2.ctx ≠ owner) →
    ∃ t, exec (.l2DirtyUeContainment line set way) s = .next t ∧ Logged 2 3 owner line s t ∧ t.warpsOfCtx owner = [] ∧
      Tab.look t.mem.dirty line = none ∧ t.mem.poisoned line = true) ∧
  (∀ (s : State) (wid reg lane : Nat) (w : Warp), s.warp? wid = some w → w.ctx < 4096 → reg < w.regs → lane < 32 → w.clean.contains reg = true →
    ∃ t w', exec (.regCacheUe wid reg lane) s = .next t ∧ OnlyWid wid s t ∧ t.warp? wid = some w' ∧ w'.k = w.k ∧ w'.m = w.m ∧ w'.pcv = w.pcv ∧
      (∀ n, n ≠ reg → ∀ l < 32, w'.xr n l = w.xr n l) ∧
      (s.savedLine (coreOf wid) w.ctx (imageOff wid reg) = none → w' = w) ∧
      ∀ bs, s.savedLine (coreOf wid) w.ctx (imageOff wid reg) = some bs → ∀ l < 32, w'.xr reg l = BitVec.ofNat 32 (leAt bs (4 * l) 4)) ∧
  (∀ (s : State) (wid reg lane : Nat) (w : Warp), s.warp? wid = some w → w.ctx < 4096 → reg < w.regs → lane < 32 →
    w.clean.contains reg = false → laneIn (Tab.get w.wr 0 reg) lane = false → isService (coreOf wid) = false →
    (∀ e ∈ s.grids, e.2.ctx ≠ w.ctx) →
    ∃ t, exec (.regCacheUe wid reg lane) s = .next t ∧ Logged 5 3 w.ctx 0 s t ∧ t.warpsOfCtx w.ctx = []) ∧
  (∀ (s : State) (blk : Nat) (acc : Bool) (b : Block), s.block? blk = some b → b.ctx < 4096 → Rec.restart b.record = true →
    ∃ t b', exec (.spadAccUe blk acc) s = .next t ∧ Logged (if acc then 7 else 6) 7 b.ctx 0 s t ∧ t.block? blk = some b' ∧ b'.spad = [] ∧
      b'.held = [] ∧ b'.bars = [] ∧ b'.core = b.core ∧ SameBytes s t ∧ ∀ k, k ≠ blk → t.block? k = s.block? k) ∧
  (∀ (s : State) (core m : Nat), (s.core core).mat = [] →
    ∃ t x, exec (.macroParityError core m) s = .next t ∧ Logged 8 5 0xFFF 0 s t ∧ Tab.look (t.core core).macros m = some x ∧
      x.ruined = true ∧ x.groups = [] ∧ (∀ k, k ≠ m → Tab.look (t.core core).macros k = Tab.look (s.core core).macros k) ∧
      t.mem = s.mem ∧ t.warps = s.warps) ∧
  (∀ (s : State) (core m : Nat) (o : MatOp) (w : Warp), core < 192 → (s.core core).passing m = some o → o.ctx < 4096 →
    s.warp? o.wid = some w → w.blk = o.wblk → w.blocked = [] →
    ∃ t w' x, exec (.macroParityError core m) s = .next t ∧ Logged 8 5 o.ctx 0 s t ∧ Tab.look (t.core core).macros m = some x ∧
      x.ruined = true ∧ x.groups = [] ∧ (∀ y ∈ (t.core core).mat, y.opid ≠ o.opid) ∧ t.warp? o.wid = some w' ∧
      w'.faults = w.faults ++ [namedBy o.tag { cls := .ue, cause := 8, core := some core }] ∧ SameRegs w w' ∧
      (o.tag < 64 → ∀ g, Tab.look (s.core core).tags o.ctx = some g →
        ∃ g', Tab.look (t.core core).tags o.ctx = some g' ∧ g'.done = g.done ∧ g'.flight.getLsbD o.tag = false) ∧ t.mem = s.mem) ∧
  (∀ (s : State) (unit : Nat), unit < 32 → s.grids = [] →
    ∃ t, exec (.deviceFatalError unit) s = .next t ∧ Logged unit 4 0xFFF 0 s t ∧ t.apBits offFltStat 10 10 = 1 ∧
      (∀ e ∈ t.warps, isService (coreOf e.1) = true) ∧ t.own.msgs.getLast? = some (.irq 0xF5) ∧ SameBytes s t)

/-- A write of a register that has a row: the invalidation starts and ends (R310), a termination starts and ends (R425), a retired page is
given back as zeros (R413), a debugger's stop, restart, completion and register write (R422, R423), a measurement's extension (R432).
The model's choices: log entries 35, 90 and 91. -/
def Obligations.ControlWritesComplete : Prop :=
  (∀ (s : State) (v : BitVec 32), v.getLsbD 31 = true → s.apBits offInvCtl 30 30 = 0 →
    ∃ t, exec (.mmuInvalidate v) s = .next t ∧ t.apBits offInvCtl 30 30 = 1 ∧ t.dev.inval = some (invalOf (s.ap! offInvVa) v.toNat) ∧
      t.mem = s.mem ∧ t.cores = s.cores ∧ ∀ off, off ≠ offInvCtl → t.ap! off = s.ap! off) ∧
  (∀ (s : State) (i : Inval), s.dev.inval = some i → s.unperformed i.ctx = true → exec .mmuInvalidateDone s = .next s) ∧
  (∀ (s : State) (i : Inval), s.dev.inval = some i → s.unperformed i.ctx = false →
    ∃ t, exec .mmuInvalidateDone s = .next t ∧ t.apBits offInvCtl 30 30 = 0 ∧ t.dev.inval = none ∧ t.mem = { s.mem with ytlb := t.mem.ytlb } ∧ t.warps = s.warps ∧
      (∀ c k e, Tab.look (t.core c).tlb k = some e → Tab.look (s.core c).tlb k = some e ∧ tlbCovers i.ctx i.lo i.hi k = false) ∧
      ∀ y k e, Tab.look (Tab.get t.mem.ytlb [] y) k = some e →
        Tab.look (Tab.get s.mem.ytlb [] y) k = some e ∧ tlbCovers i.ctx i.lo i.hi k = false) ∧
  (∀ (s : State) (v : BitVec 32), v.getLsbD 31 = true → s.apBits offFltKill 30 30 = 0 → (∀ e ∈ s.grids, e.2.ctx ≠ v.toNat % 4096) →
    ∃ t, exec (.fltKill v) s = .next t ∧ t.apBits offFltKill 30 30 = 1 ∧ t.warpsOfCtx (v.toNat % 4096) = [] ∧
      t.own.msgs.getLast? = some (.irq 0xF0) ∧ SameBytes s t) ∧
  (∀ (s : State), s.apBits offFltKill 30 30 = 1 →
    ∃ t, exec .terminationComplete s = .next t ∧ t.apBits offFltKill 30 30 = 0 ∧ t.dev.killed = [] ∧
      (∀ off, off ≠ offFltKill → t.ap! off = s.ap! off) ∧ t.mem = s.mem ∧ t.warps = s.warps) ∧
  (∀ (s : State) (i : Nat), i < 256 → s.apBits (offPgret i) 63 63 = 1 →
    ∃ t, exec (.pgretRelease i) s = .next t ∧ t.apBits (offPgret i) 63 63 = 0 ∧
      t.apBits (offPgret i) 62 0 = s.apBits (offPgret i) 62 0 ∧
      (∀ a, a / 65536 = s.apBits (offPgret i) 47 16 → t.mem.byte a = 0) ∧
      (∀ a, a / 65536 ≠ s.apBits (offPgret i) 47 16 → t.mem.byte a = s.mem.byte a) ∧
      (∀ l, l / 512 = s.apBits (offPgret i) 47 16 → t.mem.poisoned l = false ∧ t.mem.version l = s.mem.version l + 1) ∧
      t.warps = s.warps ∧ ∀ off, off ≠ offPgret i → t.ap! off = s.ap! off) ∧
  (∀ (s : State), s.apBits offDbgCtl 62 62 = 0 → s.ap! offInjMask = 0 →
    ∃ t, exec .debugStop s = .next t ∧ t.apBits offDbgCtl 62 62 = 1 ∧ (∀ wid w, t.warp? wid = some w → isService (coreOf wid) = false →
        w.ctx = s.apBits offDbgCtl 11 0 → w.stopped = true) ∧
      t.blocks = s.blocks ∧ t.grids = s.grids ∧ ∀ off, off ≠ offDbgCtl → t.ap! off = s.ap! off) ∧
  (∀ (s : State),
    ∃ t, exec .debugRestart s = .next t ∧ t.apBits offDbgCtl 62 62 = 0 ∧ t.apBits offDbgCtl 61 61 = 0 ∧
      (∀ wid w, t.warp? wid = some w → w.stopped = false) ∧
      (∀ wid w w' p, s.warp? wid = some w → w.susp = some p → p.debugger = true → t.warp? wid = some w' → w'.susp = none ∧
        ∀ l < 32, laneIn p.lanes l = true → laneIn w.exited l = false → w'.pc l = p.rpc) ∧ t.mem = s.mem ∧ t.blocks = s.blocks ∧
      ∀ off, off ≠ offDbgCtl → t.ap! off = s.ap! off) ∧
  (∀ (s : State), s.apBits offDbgCtl 62 62 = 1 → s.apBits offDbgCtl 61 61 = 0 →
    (∀ e ∈ s.warpsOfCtx (s.apBits offDbgCtl 11 0), e.2.stopped = true) →
    ∃ t, exec .debugStopComplete s = .next t ∧ t.apBits offDbgCtl 61 61 = 1 ∧ t.own.msgs = s.own.msgs ++ [.irq 0xF3] ∧ t.mem = s.mem ∧
      t.warps = s.warps ∧ ∀ off, off ≠ offDbgCtl → t.ap! off = s.ap! off) ∧
  (∀ (s : State) (v : BitVec 64) (w : Warp) (wid : Nat), wid = 64 * (48 * bitsOf v.toNat 61 60 + bitsOf v.toNat 59 54) + bitsOf v.toNat 53 48 →
    v.getLsbD 63 = true → s.apBits offDbgRegw 62 62 = 0 → s.apBits offDbgCtl 63 63 = 1 → bitsOf v.toNat 59 54 < 48 →
    s.warp? wid = some w → w.stopped = true → w.ctx = s.apBits offDbgCtl 11 0 → bitsOf v.toNat 47 39 < w.regs → w.loads = [] →
    ∃ t w', exec (.dbgRegw v) s = .next t ∧ t.apBits offDbgRegw 62 62 = 0 ∧ t.warp? wid = some w' ∧
      w'.xr (bitsOf v.toNat 47 39) (bitsOf v.toNat 38 34) = v.setWidth 32 ∧
      (∀ n, ∀ l < 32, n ≠ bitsOf v.toNat 47 39 ∨ l ≠ bitsOf v.toNat 38 34 → w'.xr n l = w.xr n l) ∧ w'.k = w.k ∧ w'.m = w.m ∧
      ∀ k v', k ≠ wid → t.warp? k = some v' → ∃ v, s.warp? k = some v ∧ SameRegs v v' ∧ v'.pcv = v.pcv) ∧
  (∀ (s : State) (who : Writer) (v : BitVec 32), v.getLsbD 31 = true → s.apBits offMeasCmd 30 30 = 0 →
    (8 ≤ bitsOf v.toNat 3 0 ∨ (s.apBits offBootStat 30 30 = 0 ∧ who ≠ .host)) →
    ∃ t, exec (.measExtend who v) s = .next t ∧ t.apBits offMeasCmd 30 30 = 1 ∧
      t.dev.extend = some { idx := bitsOf v.toNat 3 0, digest := (List.range 48).map (fun j => s.apByte (offExtend + j)) } ∧
      t.mem = s.mem ∧ ∀ off, off ≠ offMeasCmd → t.ap! off = s.ap! off) ∧
  (∀ (s : State) (e : Extend), s.dev.extend = some e → e.idx = 7 →
    ∃ t, exec .measExtendDone s = .next t ∧ t.dev.extend = none ∧ t.apBits offMeasCmd 30 30 = 0 ∧
      (∀ off, off ≠ offMeasCmd → t.ap! off = s.ap! off) ∧ t.mem = s.mem ∧ t.warps = s.warps) ∧
  (∀ (s : State) (e : Extend), s.dev.extend = some e → e.idx < 16 → e.idx ≠ 7 →
    ∃ t, exec .measExtendDone s = .next t ∧ t.dev.extend = none ∧ t.apBits offMeasCmd 30 30 = 0 ∧
      (∀ j < 6, t.ap! (offMeas e.idx + 8 * j)
        = leNat (((Sha.sha384 ((List.range 48).map (fun j => s.apByte (offMeas e.idx + j)) ++ e.digest)).drop (8 * j)).take 8)) ∧
      t.mem = s.mem ∧ t.warps = s.warps)

/-- Bring-up: with a readable flash, a configuration image whose signature verifies and a package controller image, the image's writes are
made from reset and the service cores start (R430, R433). Where the image writes plain registers, every other register is at reset but for
BOOT_STAT and the measurements, each register it names holds what its last write put there, memory is at reset but for the images that
are loaded, and the lines' versions are as they were (R298). MEAS0 and MEAS1 measure the image and its key, MEAS2 and those from MEAS3 on
what is loaded (R430, R431). A failure of step 1, 2 or 3 sets the error bit and starts no core; training steps of DRAM (R439) and of ports
and links (R434 to R438) start, go on and end; RUN is set (R440).
The model's choices: log entries 3, 10, 84 and 125 (a GO with MODE 2 or 3). -/
def Obligations.BringupRowsComplete : Prop :=
  (∀ (s : State) (cfg pc : List Byte) (svc : List (List Byte)), Cfg.ok cfg = true → Cfg.verified cfg = true → pc ≠ [] →
    ∃ t, exec (.powerGoodBoot cfg pc svc true) s = .next t ∧ t.dev.booted = true ∧ t.apBits offBootStat 30 30 = 1 ∧ t.blocks = [] ∧
      t.grids = [] ∧ t.dev.floor = Cfg.floor cfg ∧ t.apBits offBootStat 28 28 = 1 ∧
      t.warp? (64 * 196) = some { Warp.start 0 0 0 .s 512 0 with exited := 0xFFFFFFFE } ∧
      ∀ n, n < 4 → n < svc.length → t.warp? (64 * (192 + n)) = some { Warp.start 0 0 0 .s 512 0 with exited := 0xFFFFFFFE }) ∧
  (∀ (s : State) (cfg pc : List Byte) (svc : List (List Byte)), Cfg.ok cfg = true → Cfg.verified cfg = true → pc ≠ [] → Cfg.plain cfg = true →
    ∃ t, exec (.powerGoodBoot cfg pc svc true) s = .next t ∧ t.ap! offBootStat = 2 ^ 30 + 2 ^ 28 ∧
      (∀ off, off ≠ offBootStat → (∀ i < 7, ∀ j < 6, off ≠ offMeas i + 8 * j) → (∀ e ∈ Cfg.entries cfg, e.1 ≠ off) →
        t.ap! off = State.reset.ap! off) ∧
      (∀ e ∈ Cfg.entries cfg, ∀ r, (Cfg.entries cfg).filter (fun x => x.1 == e.1) = [e] → regAt e.1 = some r → ∀ b < 8 * r.bytes,
        r.rw.testBit b = true → (t.ap! e.1).testBit b = e.2.testBit b) ∧
      (∀ j < 6, t.ap! (offMeas 0 + 8 * j) = Cfg.measured cfg j ∧ t.ap! (offMeas 1 + 8 * j) = Cfg.measured (Cfg.key cfg) j ∧
        t.ap! (offMeas 2 + 8 * j) = Cfg.measured (pc.take (2 ^ 18)) j ∧
        ∀ n, n < 4 → n < svc.length → t.ap! (offMeas (3 + n) + 8 * j) = Cfg.measured ((svc.getD n []).take (2 ^ 18)) j) ∧
      (∀ a, a < 700 * span → t.mem.byte a = State.reset.mem.byte a) ∧ t.mem.ver = s.mem.ver ∧ t.mem.poison = State.reset.mem.poison ∧
      (∀ k, k < pc.length → k < 2 ^ 18 → t.mem.byte (keySram 4 k) = pc.getD k 0) ∧
      ∀ n, n < 4 → n < svc.length → ∀ k, k < (svc.getD n []).length → k < 2 ^ 18 → t.mem.byte (keySram n k) = (svc.getD n []).getD k 0) ∧
  (∀ (s : State) (cfg : List Byte) (svc : List (List Byte)), Cfg.ok cfg = true → Cfg.verified cfg = true →
    ∃ t, exec (.powerGoodBoot cfg [] svc true) s = .next t ∧ t.apBits offBootStat 27 27 = 1 ∧ t.dev.booted = false ∧ t.warps = []) ∧
  (∀ (s : State) (cfg pc : List Byte) (svc : List (List Byte)) (flash : Bool),
    (flash = false ∨ Cfg.ok cfg = false ∨ Cfg.verified cfg = false) →
    ∃ t, exec (.powerGoodBoot cfg pc svc flash) s = .next t ∧ t.apBits offBootStat 27 27 = 1 ∧ t.warps = [] ∧ t.dev.booted = false ∧
      t.mem = { State.reset.mem with ver := s.mem.ver } ∧ ∀ off, off ≠ offBootStat → t.ap! off = State.reset.ap! off) ∧
  (∀ (s : State), ∃ t, exec .bootRunSet s = .next t ∧ t.apBits offBootStat 31 31 = 1 ∧ t.mem = s.mem ∧ t.warps = s.warps ∧
      ∀ off, off ≠ offBootStat → t.ap! off = s.ap! off) ∧
  (∀ (s : State) (d : Nat) (v : BitVec 32), d < 4 → v.getLsbD 31 = true → s.apBits (offMemStat d) 29 29 = 0 →
    1 ≤ bitsOf v.toNat 3 0 → bitsOf v.toNat 3 0 ≤ s.apBits (offMemStat d) 19 16 + 1 → s.apBits (offMemStat d) 19 16 < 6 →
    ∃ t, exec (.memTrainStep d v) s = .next t ∧ t.apBits (offMemStat d) 29 29 = 1 ∧ (t.die d).step = bitsOf v.toNat 3 0 ∧ t.mem = s.mem ∧
      ∀ off, off ≠ offMemStat d → off ≠ offMemCtl d → t.ap! off = s.ap! off) ∧
  (∀ (s : State) (d : Nat) (layers : BitVec 16), d < 4 → s.apBits (offMemStat d) 29 29 = 1 → (s.die d).step < 6 →
    ∃ t, exec (.memTrainStepDone d layers) s = .next t ∧ t.apBits (offMemStat d) 29 29 = 0 ∧ t.apBits (offMemStat d) 31 31 = 1 ∧
      t.apBits (offMemStat d) 15 0 = layers.toNat ∧ t.apBits (offDoor d) 2 2 = 1 ∧ t.mem = s.mem ∧ t.warps = s.warps ∧
      (layers = 0xFFFF → t.apBits (offMemStat d) 19 16 = max (s.die d).step (s.apBits (offMemStat d) 19 16)) ∧
      (layers ≠ 0xFFFF → t.apBits (offMemStat d) 30 30 = 1)) ∧
  (∀ (s : State) (d : Nat), d < 4 → s.apBits (offMemStat d) 29 29 = 1 → (s.die d).step = 6 →
    ∃ t, exec (.memTrainStepDone d 0xFFFF) s = .next t ∧
      (∀ a, a < span → dieOfLpa a = d → t.mem.byte a = 0 ∧ t.mem.version (lineOf a) = 0 ∧ t.mem.poisoned (lineOf a) = false) ∧
      ∀ a, span ≤ a ∨ dieOfLpa a ≠ d → t.mem.byte a = s.mem.byte a) ∧
  (∀ (s : State) (fab : Bool) (p : Nat) (v : BitVec 32), p < (if fab then 36 else 4) → v.getLsbD 31 = true →
    v.toNat / 256 % 4 < 2 → s.portState fab p = 0 ∨ s.portState fab p = 15 → (fab = true → s.devId ≠ 1023) →
    ∃ t, exec (.fptTrainStart fab p v) s = .next t ∧ t.portState fab p = 1 ∧ t.apBits (offPort fab p + 8) 31 28 = 0 ∧
      (fab = true → t.apBits offDevId 31 31 = 1) ∧ t.mem = s.mem ∧ t.warps = s.warps) ∧
  (∀ (s : State) (fab : Bool) (p : Nat) (v : BitVec 32), p < (if fab then 36 else 4) → v.getLsbD 31 = true → v.toNat / 256 % 4 < 2 →
    1 ≤ s.portState fab p → s.portState fab p ≤ 4 →
    ∃ t, exec (.fptTrainStart fab p v) s = .next t ∧ t.portState fab p = s.portState fab p ∧ t.mem = s.mem ∧ t.warps = s.warps ∧
      ∀ off, off ≠ offPort fab p → t.ap! off = s.ap! off) ∧
  (∀ (s : State) (fab : Bool) (p : Nat) (v : BitVec 32), p < (if fab then 36 else 4) → 2 ≤ v.toNat / 256 % 4 →
    exec (.fptTrainStart fab p v) s = .next s) ∧
  (∀ (s : State) (fab : Bool) (p : Nat) (v : BitVec 32), p < (if fab then 36 else 4) → v.getLsbD 31 = false → v.toNat % 256 = 0 →
    v.toNat / 256 % 4 < 2 → s.portState fab p ≠ 5 →
    ∃ t, exec (.fptPortOff fab p v) s = .next t ∧ t.portState fab p = 0 ∧ t.apBits (offPort fab p + 8) 30 30 = 0 ∧ t.mem = s.mem ∧
      t.warps = s.warps ∧ t.own.msgs = s.own.msgs) ∧
  (∀ (s : State) (fab : Bool) (p : Nat) (v : BitVec 32), p < (if fab then 36 else 4) → v.getLsbD 31 = false → v.toNat % 256 = 0 →
    v.toNat / 256 % 4 < 2 → s.portState fab p = 5 →
    ∃ t, exec (.fptPortOff fab p v) s = .next t ∧ t.portState fab p = 0 ∧ t.apBits (offPort fab p + 8) 30 30 = 0 ∧ SameBytes s t ∧
      t.own.msgs = s.own.msgs ++ [.irq 0xF4]) ∧
  (∀ (s : State) (fab : Bool) (p pdev pport : Nat) (lgood : BitVec 8), p < (if fab then 36 else 4) →
    (s.portState fab p = 1 → ∃ t, exec (.fptTrainingProgress fab p true lgood pdev pport false) s = .next t ∧ t.portState fab p = 2 ∧
      t.mem = s.mem ∧ ∀ off, off ≠ offPort fab p + 8 → t.ap! off = s.ap! off) ∧
    (s.portState fab p = 2 → ∀ good, good = lgood &&& BitVec.ofNat 8 (s.apBits (offPort fab p) 7 0) → ∀ k, k = (if fab then p else 64 + p) →
      (4 ≤ laneCount good → ∃ t c, exec (.fptTrainingProgress fab p true lgood pdev pport false) s = .next t ∧ t.portState fab p = 3 ∧
        t.apBits (offPort fab p + 8) 15 8 = good.toNat ∧ Tab.look t.dev.tuned k = some c ∧ Tab.look t.dev.coef k = some c ∧
        (s.apBits (offPort fab p) 9 8 = 1 → ∀ c', Tab.look s.dev.coef k = some c' → c = c') ∧
        t.mem = s.mem ∧ ∀ off, off ≠ offPort fab p + 8 → t.ap! off = s.ap! off) ∧
      (laneCount good < 4 → ∃ t, exec (.fptTrainingProgress fab p true lgood pdev pport false) s = .next t ∧ t.portState fab p = 15 ∧
        t.apBits (offPort fab p + 8) 7 0 = 2 ∧ t.apBits (offPort fab p + 8) 31 29 = 5 ∧ t.mem = s.mem)) ∧
    (s.portState fab p = 3 →
      (fab = false ∨ pdev < 640 → ∃ t, exec (.fptTrainingProgress fab p true lgood pdev pport false) s = .next t ∧ t.portState fab p = 4 ∧
        t.ap! (offPort fab p + 0x10) = 2 ^ 31 + pport % 64 * 2 ^ 10 + (if fab then pdev % 1024 else 0) ∧
        t.own.msgs = s.own.msgs ++ (if fab then [.identity p s.devId] else []) ∧ t.mem = s.mem ∧
        ∀ off, off ≠ offPort fab p + 8 → off ≠ offPort fab p + 0x10 → t.ap! off = s.ap! off) ∧
      (fab = true → 640 ≤ pdev → ∃ t, exec (.fptTrainingProgress fab p true lgood pdev pport false) s = .next t ∧ t.portState fab p = 15 ∧
        t.apBits (offPort fab p + 8) 7 0 = 3 ∧ t.apBits (offPort fab p + 8) 31 29 = 5 ∧ t.mem = s.mem)) ∧
    (s.portState fab p = 1 ∨ s.portState fab p = 4 →
      ∃ t, exec (.fptTrainingProgress fab p false lgood pdev pport false) s = .next t ∧ t.portState fab p = 15 ∧
        t.apBits (offPort fab p + 8) 7 0 = (s.portState fab p) ∧ t.apBits (offPort fab p + 8) 31 29 = 5 ∧ t.mem = s.mem) ∧
    (s.portState fab p = 4 → ∃ t, exec (.fptTrainingProgress fab p true lgood pdev pport false) s = .next t ∧ t.portState fab p = 5 ∧
      t.apBits (offPort fab p + 8) 31 30 = 3 ∧ t.mem = s.mem) ∧
    (1 ≤ s.portState fab p → s.portState fab p ≤ 4 →
      ∃ t, exec (.fptTrainingProgress fab p true lgood pdev pport true) s = .next t ∧ t.portState fab p = 15 ∧
        t.apBits (offPort fab p + 8) 7 0 = 5 ∧ t.apBits (offPort fab p + 8) 31 29 = 5 ∧ t.mem = s.mem))

/-- Registers with rows of their own: TAIL takes a value within the ring, else OVR is set (R315); while EN is 1 only EN changes (R314); a
write of PHS_CTX clears the die's counters (R254); the service doors, where a host's write sets HOST and leaves every bit it writes 0, and
their tick (R429). A write of some bytes of a register with no rule of its own: an RW bit that it covers takes the written bit, a W1C bit
written 1 is cleared, and every other bit stays (R9, R428); a GO bit reads as zero after it (R9); a value that a register's rule refuses
leaves its field, and the rest of the register is written (R252, R428), or leaves the register (R313, R314). A completed load is outstanding no
longer (R26). The model's choices: log entries 1 and 50. -/
def Obligations.RegisterRowsComplete : Prop :=
  (∀ (s : State) (q : Nat) (v : BitVec 32), q < 1024 →
    ∃ t, exec (.lqTailWrite q v) s = .next t ∧ t.mem = s.mem ∧ t.warps = s.warps ∧ t.dev = s.dev ∧
      (if (v.toNat + 2 ^ 32 - s.prog q) % 2 ^ 32 ≤ s.queueSize q then
        t.tail q = v.toNat ∧ ∀ off, off ≠ offLqTail q → t.ap! off = s.ap! off
      else t.tail q = s.tail q ∧ t.apBits (offLqProg q) 34 34 = 1 ∧ ∀ off, off ≠ offLqProg q → t.ap! off = s.ap! off)) ∧
  (∀ (s : State) (q : Nat) (v : BitVec 32), q < 1024 →
    ∃ t, exec (.lqCfgWrite q v) s = .next t ∧ t.mem = s.mem ∧ t.warps = s.warps ∧ t.dev = s.dev ∧ t.agenda = s.agenda ∧
      (∀ off, off ≠ offLqCfg q → t.ap! off = s.ap! off) ∧
      (if s.qEnabled q then t.qBits q 30 0 = s.qBits q 30 0 ∧ t.qBits q 31 31 = bitsOf v.toNat 31 31
      else if v.getLsbD 31 = true ∧ (bitsOf v.toNat 15 12 < 4 ∨ bitsOf v.toNat 27 24 = 0) then t.qBits q 31 0 = s.qBits q 31 0
      else t.qBits q 11 0 = bitsOf v.toNat 11 0 ∧ t.qBits q 15 12 = bitsOf v.toNat 15 12 ∧ t.qBits q 19 18 = bitsOf v.toNat 19 18 ∧
        t.qBits q 27 24 = bitsOf v.toNat 27 24 ∧ t.qBits q 31 31 = bitsOf v.toNat 31 31)) ∧
  (∀ (s : State) (d : Nat) (v : BitVec 32), d < 4 →
    ∃ t, exec (.phsCtxWrite d v) s = .next t ∧ (t.die d).phases = [] ∧ t.apBits (offPhsCtx d) 11 0 = bitsOf v.toNat 11 0 ∧
      t.apBits (offPhsCtx d) 31 31 = bitsOf v.toNat 31 31 ∧ (∀ k, k ≠ d → t.die k = s.die k) ∧ t.mem = s.mem ∧ t.warps = s.warps) ∧
  (∀ (s : State) (n : Nat) (v : BitVec 32), n < 5 →
    (∃ t, exec (.svcDoorWrite n true v) s = .next t ∧ (v.getLsbD 1 = true → t.apBits (offDoor n) 1 1 = 1) ∧
      (∀ b < 4, b ≠ 1 → v.getLsbD b = true → t.apBits (offDoor n) b b = 0) ∧
      (∀ b < 4, v.getLsbD b = false → t.apBits (offDoor n) b b = s.apBits (offDoor n) b b) ∧
      (∀ off, off ≠ offDoor n → t.ap! off = s.ap! off) ∧ t.agenda = .event (.haltWake n) :: s.agenda ∧ t.mem = s.mem ∧ t.warps = s.warps) ∧
    (∃ t, exec (.svcDoorWrite n false v) s = .next t ∧ (∀ b < 4, v.getLsbD b = true → t.apBits (offDoor n) b b = 0) ∧
      (∀ b < 4, v.getLsbD b = false → t.apBits (offDoor n) b b = s.apBits (offDoor n) b b) ∧
      t.agenda = .event (.haltWake n) :: s.agenda ∧ t.mem = s.mem ∧ t.warps = s.warps)) ∧
  (∀ (s : State), ∃ t, exec .svcTick s = .next t ∧ (∀ n < 5, t.apBits (offDoor n) 0 0 = 1) ∧
      t.agenda = (List.range 5).map (fun n => Pending.event (.haltWake n)) ++ s.agenda ∧ t.mem = s.mem ∧ t.warps = s.warps) ∧
  (∀ (s : State) (who : Writer) (p : Nat) (v : BitVec 64), p < 8 →
    ∃ t, exec (.registerWrite who (offGovFloor p) 4 v) s = .next t ∧ t.apBits (offGovFloor p) 15 0 = v.toNat % 2 ^ 16 ∧
      OnlyRegs (· = offGovFloor p) s t) ∧
  (∀ (s : State) (who : Writer) (r : Reg) (k n : Nat) (v : BitVec 64), (∀ i < r.bytes, regAt (r.base + i) = some r) → r.kind = .plain →
    r.rw &&& r.w1c = 0 → r.rw < 2 ^ 64 → r.w1c < 2 ^ 64 → k + n ≤ r.bytes → r.bytes ≤ 8 →
    ∃ t, exec (.registerWrite who (r.base + k) n v) s = .next t ∧ OnlyRegs (· = r.base) s t ∧ ∀ b < 64, (t.ap! r.base).testBit b =
      if 8 * k ≤ b ∧ b < 8 * (k + n) ∧ r.rw.testBit b = true then v.getLsbD (b - 8 * k)
      else if 8 * k ≤ b ∧ b < 8 * (k + n) ∧ r.w1c.testBit b = true ∧ v.getLsbD (b - 8 * k) = true then false
      else (s.ap! r.base).testBit b) ∧
  (∀ (s : State) (who : Writer) (off : Nat) (v : BitVec 64), off = offInvCtl ∨ off = offMeasCmd → s.apBits off 31 31 = 0 →
    ∃ t, exec (.registerWrite who off 4 v) s = .next t ∧ t.apBits off 31 31 = 0) ∧
  (∀ (s : State) (who : Writer) (d : Nat) (v : BitVec 64), d < 4 →
    ∃ t, exec (.registerWrite who (offWdLocal d) 4 v) s = .next t ∧ OnlyRegs (· = offWdLocal d) s t ∧
      t.apBits (offWdLocal d) 8 8 = bitsOf v.toNat 8 8 ∧ t.apBits (offWdLocal d) 5 0
        = if 16 ≤ bitsOf v.toNat 5 0 ∧ bitsOf v.toNat 5 0 ≤ 40 then bitsOf v.toNat 5 0 else s.apBits (offWdLocal d) 5 0) ∧
  (∀ (s : State) (who : Writer) (q : Nat) (v : BitVec 64), q < 1024 → bitsOf v.toNat 63 62 = 1 ∨ bitsOf v.toNat 63 62 = 3 →
    ∃ t, exec (.registerWrite who (offLqBase q) 8 v) s = .next t ∧ OnlyRegs (fun _ => False) s t) ∧
  (∀ (s : State) (who : Writer) (off n : Nat) (v : BitVec 64), (∀ i < n, regAt (off + i) = none) →
    exec (.registerWrite who off n v) s = .next s) ∧
  (∀ (s : State) (wid reg : Nat) (w : Warp), s.warp? wid = some w → s.apBits offDbgRegw 62 62 = 0 →
    ∃ t w', exec (.loadCompletion wid reg) s = .next t ∧ OnlyWid wid s t ∧ t.warp? wid = some w' ∧ SameRegs w w' ∧
      Tab.look w'.loads reg = none ∧ ∀ k, k ≠ reg → Tab.look w'.loads k = Tab.look w.loads k)

/-- The engines of a core: the copy engine takes the oldest command of q0 and charges it a step for each destination line (R194, R198),
an empty copy is done at once, its tag set (R193, R215); a linear copy within a scratchpad whose steps are paid moves its bytes, all read before
any is written, and sets its tag (R193, R196, R215); an operation of either engine that faults ends with its tag released, its bit as it
was, and its warp told (R195). The model's choices: log entries 38 and 49 (what a `cps` is charged). -/
def Obligations.CopyEngineComplete : Prop :=
  (∀ (s : State) (core : Nat) (o : CopyCmd) (r : List CopyCmd), (s.core core).q0 = o :: r → NoneWaits s →
    ∃ t, exec (.copyEnginePop core) s = .next t ∧ (t.core core).q0 = r ∧
      (if o.kind = 0 ∧ o.sh = false ∧ o.dh = false ∧ o.c.toNat % 2 ^ 32 = 0 then (t.core core).copying = (s.core core).copying ∧
        (o.tag < 64 → (Tab.look (s.core core).tags o.ctx).isSome = true →
          ((t.core core).tagmap o.ctx).done.getLsbD o.tag = true ∧ (t.core core).tagFlies o.ctx o.tag = false)
      else ∃ due, (t.core core).copying = (s.core core).copying ++ [{ o with due := due }] ∧
        due.head? = some (8, o.lines + (if o.kind = 2 then 1 else 0))) ∧
      t.mem = s.mem ∧ t.warps = s.warps ∧ t.blocks = s.blocks ∧ ∀ c, c ≠ core → t.core c = s.core c) ∧
  (∀ (s : State) (core opid src dst n : Nat) (o : CopyCmd) (b : Block), (s.core core).copying.find? (fun x => x.opid == opid) = some o →
    o.kind = 0 → o.sh = false → o.dh = false → o.ss = true → o.ds = true → nextDue o.due = none → o.tag < 64 → s.ap! offInjMask = 0 →
    s.mem.leases = [] → s.block? o.blk = some b → (Tab.look (s.core core).tags o.ctx).isSome = true →
    src = o.a.toNat % 2 ^ 32 → dst = o.d.toNat % 2 ^ 32 → n = o.c.toNat % 2 ^ 32 → src + n ≤ s.spadSize o.blk → dst + n ≤ s.spadSize o.blk →
    ∃ t, exec (.copyComplete core opid) s = .next t ∧ (∀ i < n, t.spadByte o.blk (dst + i) = s.spadByte o.blk (src + i)) ∧
      (∀ k, k < dst ∨ dst + n ≤ k → t.spadByte o.blk k = s.spadByte o.blk k) ∧ (∀ x ∈ (t.core core).copying, x.opid ≠ opid) ∧
      (∃ g, Tab.look (t.core core).tags o.ctx = some g ∧ g.done.getLsbD o.tag = true ∧ g.flight.getLsbD o.tag = false) ∧
      t.mem = s.mem ∧ t.warps = s.warps) ∧
  (∀ (s : State) (core opid cause : Nat) (addr : BitVec 64) (o : CopyCmd) (w : Warp),
    (s.core core).mat = [] → (s.core core).copying.find? (fun x => x.opid == opid) = some o → s.warp? o.wid = some w → w.blk = o.blk →
    w.blocked = [] → o.tag < 64 →
    ∃ t w', exec (.engineFault core opid 0x05 cause addr) s = .next t ∧ (∀ x ∈ (t.core core).copying, x.opid ≠ opid) ∧
      t.warp? o.wid = some w' ∧ SameRegs w w' ∧ w'.pcv = w.pcv ∧
      w'.faults = w.faults ++ [{ cls := .prot, cause := cause % 256, addr := addr, info := BitVec.ofNat 32 o.tag, core := some core }] ∧
      (∀ g, Tab.look (s.core core).tags o.ctx = some g →
        ∃ g', Tab.look (t.core core).tags o.ctx = some g' ∧ g'.flight.getLsbD o.tag = false ∧ g'.done = g.done) ∧ t.mem = s.mem) ∧
  (∀ (s : State) (core opid cause : Nat) (addr : BitVec 64) (o : MatOp) (w : Warp), core < 192 →
    (s.core core).mat.find? (fun x => x.opid == opid) = some o → s.warp? o.wid = some w → w.blk = o.wblk → w.blocked = [] → o.tag < 64 →
    ∃ t w', exec (.engineFault core opid 0x05 cause addr) s = .next t ∧ (∀ x ∈ (t.core core).mat, x.opid ≠ opid) ∧
      t.warp? o.wid = some w' ∧ SameRegs w w' ∧ w'.pcv = w.pcv ∧
      w'.faults = w.faults ++ [{ cls := .prot, cause := cause % 256, addr := addr, info := BitVec.ofNat 32 o.tag, core := some core }] ∧
      (∀ g, Tab.look (s.core core).tags o.ctx = some g →
        ∃ g', Tab.look (t.core core).tags o.ctx = some g' ∧ g'.flight.getLsbD o.tag = false ∧ g'.done = g.done) ∧ t.mem = s.mem)

/-- The matrix engine: the next step of an operation that has begun is demanded and taken where it is paid, for a multiply the pass that its
row makes through the macro (R265, R266, R370); a clear whose steps are paid leaves its tile zero (R202, R266); a released bank whose steps
are paid is zero and free (R201). The model's choices: log entries 38 and 61. -/
def Obligations.MatrixEngineComplete : Prop :=
  (∀ (s : State) (core price count : Nat) (o : MatOp) (r : List MatOp), (s.core core).mat = o :: r →
    o.members - o.at_ % o.members = 1 → s.mayStep core o = true → (∀ x ∈ r, x.opid ≠ o.opid) → o.since ≠ (s.die (dieOfCore core)).clk.toNat → o.begun = true → o.due = [(price, count + 2)] → isService core = false → (s.core core).engineWaits 0 = false →
    s.canPay core price = true → s.ap! offInjMask = 0 →
    ∃ t, exec (.matrixPass core) s = .next t ∧
      (t.core core).op? o.opid
        = some { o with due := [(price, count + 1)], at_ := o.at_ + 1,
                        rowAt := if o.at_ % o.members = 0 then some (s.die (dieOfCore core)).clk.toNat else o.rowAt } ∧
      (r = [] → (∀ yard tile slot desig a b desc set rows, o.kind = .mm yard tile slot desig a b desc set rows →
        (t.core core).acc = (((s.core core).pay (s.partOf o.ctx) price).pass1 yard desig set rows o.rows o.at_).acc) ∧
        (t.core core).level = (s.core core).level - ((price * 256 : Nat) : Int) ∧ t.mem = s.mem ∧ t.warps = s.warps ∧
        ∀ c, c ≠ core → t.core c = s.core c)) ∧
  (∀ (s : State) (core desig : Nat) (o : MatOp) (r : List MatOp), (s.core core).mat = o :: r → o.kind = .accZ desig → o.paid = true →
    o.bad = none → (∀ x ∈ r, x.opid ≠ o.opid) →
    ∃ t, exec (.matrixOpComplete core) s = .next t ∧ (t.core core).mat = r ∧
      (∀ m < 64, ∀ n < 64, (t.core core).accAt desig m n = 0 ∧ ∀ d, d ≠ desig → (t.core core).accAt d m n = (s.core core).accAt d m n) ∧
      t.mem = s.mem ∧ t.warps = s.warps ∧ t.blocks = s.blocks ∧ ∀ c, c ≠ core → t.core c = s.core c) ∧
  (∀ (s : State) (core bank : Nat) (o : MatOp) (r : List MatOp), (s.core core).mat = o :: r → o.kind = .zero bank → o.paid = true →
    o.bad = none → o.tag = 64 → (∀ x ∈ r, x.opid ≠ o.opid ∧ x.kind ≠ .zero bank) → NoneWaits s →
    ∃ t, exec (.bankZeroComplete core bank) s = .next t ∧ (t.core core).mat = r ∧ bank ∉ (t.core core).zeroing ∧
      (∀ k, k / 16384 = bank → Tab.get (t.core core).acc 0 k = 0) ∧
      (∀ k, k / 16384 ≠ bank → Tab.get (t.core core).acc 0 k = Tab.get (s.core core).acc 0 k) ∧ t.mem = s.mem ∧ t.warps = s.warps)

/-- The collective engine and reductions: a command leaves q1 in rotation (R362), and its contribution is priced by its flits (R363); a
contribution joins its instance at the root (R343); an instance open at its time ends with status 1 (R349); a chunk from another point
waits for the engine to write it, a digest that agrees is noted, and one that differs ends the point with 3 (R354, R358); a point's report
goes to point 0, which keeps it (R360); an ended point is gone (R360); a point late by its TMO reports 1 (R360).
The model's choices: log entries 8, 59 (who pays a contribution's flits), 66, 67, 107 (the bits of a status and a chunk's word) and 108 (how
digests are exchanged). -/
def Obligations.CollectiveRowsComplete : Prop :=
  (∀ (s s1 : State) (die c rank lead root : Nat) (o : CollCmd) (r : List CollCmd) (d : List Byte), (s.core c).q1 = o :: r → dieOfCore c = die →
    c < 192 → (∀ k, k ≠ c → (s.core k).q1 = []) → (s.die die).hasPlace o = true → NoneWaits s → o.isRsum = true →
    (∀ l ∈ s.collLines c o, s.leasedOut l = false) →
    s1 = ((s.drawLines c (s.collLines c o)).modCore c fun k => { k with q1 := k.q1.drop 1 }).modDie die
      (fun x => { x with q1rot := coreInDie c }) →
    s1.readSum c o = .ok (d, rank, lead) → s1.rootOf (o.eng c) o.desc = some root →
    ∃ t x, exec (.collEnginePop die) s = .next t ∧ (t.core c).q1 = r ∧ (t.die die).q1rot = coreInDie c ∧
      (t.die die).opens = (s.die die).opens ++ [x] ∧ x.root = root ∧ x.lead = lead ∧ x.contrib.rank = rank ∧ x.contrib.seq = Red.seq d ∧
      x.contrib.count = Red.count d ∧ x.contrib.desc = o.desc ∧ x.sent = false ∧ x.due = [(6, 1 + (4 * Red.count d + 63) / 64)] ∧
      SameBytes s t ∧ t.mem.ver = s.mem.ver ∧ t.warps = s.warps ∧ t.blocks = s.blocks) ∧
  (∀ (s : State) (c : Contrib), (s.die c.root).ended = [] → (s.die c.root).roots = [] → s.dev.gone.contains c.ctx = false →
    c.srcOk = true → 2 ≤ c.nmem → (∀ l ∈ s.sumLines c.root c, s.leasedOut l = false) →
    ∃ t, exec (.reductionContribution c) s = .next t ∧ OnlyDie c.root s t ∧
      (t.die c.root).roots = [{ desc := c.desc, ctx := c.ctx, seq := c.seq, parts := [c], started := s.dev.beat }]) ∧
  (∀ (s : State) (die ctx seq : Nat) (desc : BitVec 64) (i : RootInst) (p : Contrib), (s.die die).roots = [i] → i.desc = desc → i.seq = seq →
    i.ctx = ctx → i.parts = [p] → p.home ≠ s.devId → trigIrq p.trig = false → (s.die die).rootWait = [] → (s.die die).ended = [] → s.mem.leases = [] →
    s.elapsed i.started (s.tmoOf die p.tmo) = true → s.ap! offInjMask = 0 →
    ∃ t, exec (.rsumTimeout die desc seq) s = .next t ∧ (t.die die).roots = [] ∧
      (t.die die).ended = [{ ctx := ctx, desc := desc, seq := seq, status := 1 }] ∧
      t.own.msgs = s.own.msgs ++ [.ended (4 * p.home + p.die) p.seq (1 + if p.rank = 0 then 0 else 256)] ∧ t.warps = s.warps ∧ t.blocks = s.blocks) ∧
  (∀ (s : State) (die inst point chunk : Nat) (data : List Byte) (i : CollInst), s.inst? die inst = some i →
    point < Col.points i.desc → i.status = none → i.dead = false →
    ∃ t, exec (.collectiveChunk die inst point chunk data) s = .next t ∧
      (kindOf chunk ≠ .hello → OnlyDie die s t ∧
        t.inst? die inst = some { i with acts := i.acts ++ [i.act none point (kindOf chunk) (chunk / 4) data] }) ∧
      (kindOf chunk = .hello → data = Col.agreed i.desc →
        ∃ i', t.inst? die inst = some i' ∧ point ∈ i'.met ∧ i'.desc = i.desc ∧ t.mem = s.mem ∧ t.warps = s.warps) ∧
      (kindOf chunk = .hello → data ≠ Col.agreed i.desc → Reported die inst i 3 s t)) ∧
  (∀ (s : State) (die inst point : Nat) (i : CollInst), s.inst? die inst = some i → i.point = 0 → i.reports = [] → 1 < Col.points i.desc →
    (∀ a ∈ i.acts, a.kind ≠ .final) →
    ∃ t, exec (.collPointReport die inst point 0) s = .next t ∧ OnlyDie die s t ∧
      t.inst? die inst = some { i with reports := [(point, 0)] }) ∧
  (∀ (s : State) (die inst status : Nat) (i : CollInst), s.inst? die inst = some i → (s.die die).opens = [] →
    i.rq = false → Col.trp i.desc = false → Col.trig i.desc = 0 → s.mem.leases = [] →
    ∃ t, exec (.collEndStatus die inst status) s = .next t ∧ t.inst? die inst = none ∧ t.warps = s.warps ∧ t.blocks = s.blocks) ∧
  (∀ (s : State) (die inst : Nat) (i : CollInst), s.inst? die inst = some i → i.status = none → i.lost = false →
    (∀ l ∈ s.endLines die inst, s.leasedOut l = false) → s.elapsed i.started (s.tmoOf die (Col.tmo i.desc)) = true →
    ∃ t, exec (.collPointTimeout die inst true) s = .next t ∧ Reported die inst i 1 s t)
end

