-- ==== Sys2Proof/Laws/Table.lean ====
section
/-!
SUPPORT. Laws/Table.lean: sparse tables. Reading after setting, removing and changing an entry, and that each operation keeps the
rising order of the keys and the canonical form.
-/

namespace Sys2Proof.Machine

variable {α β : Type}

@[simp] theorem Tab.look_nil (k : Nat) : Tab.look ([] : Tab α) k = none := rfl
@[simp] theorem Tab.get_nil (d : α) (k : Nat) : Tab.get ([] : Tab α) d k = d := rfl

theorem Tab.look_upd (t : Tab α) (k j : Nat) (v : α) : Tab.look (Tab.upd t k v) j = if j = k then some v else Tab.look t j := by
  induction t with
  | nil => simp [Tab.upd, Tab.look]
  | cons e r ih =>
    obtain ⟨a, u⟩ := e
    simp only [Tab.upd]
    split
    · simp [Tab.look]
    · split
      · subst_vars
        simp only [Tab.look]
        split <;> rfl
      · simp only [Tab.look, ih]
        split <;> split <;> simp_all

@[simp] theorem Tab.look_upd_self (t : Tab α) (k : Nat) (v : α) : Tab.look (Tab.upd t k v) k = some v := by simp [Tab.look_upd]
@[simp] theorem Tab.get_upd_self (t : Tab α) (d : α) (k : Nat) (v : α) : Tab.get (Tab.upd t k v) d k = v := by simp [Tab.get]
theorem Tab.look_upd_ne (t : Tab α) {k j : Nat} (v : α) (h : j ≠ k) : Tab.look (Tab.upd t k v) j = Tab.look t j := by
  simp [Tab.look_upd, h]
theorem Tab.get_upd_ne (t : Tab α) (d : α) {k j : Nat} (v : α) (h : j ≠ k) : Tab.get (Tab.upd t k v) d j = Tab.get t d j := by
  simp [Tab.get, Tab.look_upd, h]

theorem Tab.upd_upd (t : Tab α) (k : Nat) (u v : α) : Tab.upd (Tab.upd t k u) k v = Tab.upd t k v := by
  induction t with
  | nil => simp [Tab.upd]
  | cons e r ih =>
    simp only [Tab.upd]
    split
    · simp [Tab.upd]
    · split
      · simp [Tab.upd]
      · rename_i h1 h2
        simp only [Tab.upd, h1, h2, if_false, ih]

theorem Tab.mod_mod (t : Tab α) (k : Nat) (f g : α → α) : Tab.mod (Tab.mod t k f) k g = Tab.mod t k fun v => g (f v) := by
  unfold Tab.mod
  cases h : Tab.look t k with
  | none => simp [h]
  | some v => simp [Tab.upd_upd]

theorem Tab.look_del (t : Tab α) (k j : Nat) : Tab.look (Tab.del t k) j = if j = k then none else Tab.look t j := by
  induction t with
  | nil => simp [Tab.del]
  | cons e r ih =>
    obtain ⟨a, u⟩ := e
    simp only [Tab.del, List.filter_cons] at ih ⊢
    by_cases h : a = k
    · subst h
      simp only [bne_self_eq_false, Bool.false_eq_true, if_false, ih, Tab.look]
      split <;> simp_all
    · simp only [bne_iff_ne, ne_eq, h, not_false_eq_true, if_true, Tab.look, ih]
      split <;> split <;> simp_all

theorem Tab.get_put [DecidableEq α] (d : α) (t : Tab α) (k j : Nat) (v : α) :
    Tab.get (Tab.put d t k v) d j = if j = k then v else Tab.get t d j := by
  unfold Tab.put Tab.get
  split
  · rw [Tab.look_del]; split <;> simp_all
  · rw [Tab.look_upd]; split <;> simp_all

@[simp] theorem Tab.get_put_self [DecidableEq α] (d : α) (t : Tab α) (k : Nat) (v : α) : Tab.get (Tab.put d t k v) d k = v := by
  simp [Tab.get_put]
theorem Tab.get_put_ne [DecidableEq α] (d : α) (t : Tab α) {k j : Nat} (v : α) (h : j ≠ k) :
    Tab.get (Tab.put d t k v) d j = Tab.get t d j := by
  simp [Tab.get_put, h]

theorem Tab.look_mod (t : Tab α) (k j : Nat) (f : α → α) :
    Tab.look (Tab.mod t k f) j = if j = k then (Tab.look t k).map f else Tab.look t j := by
  unfold Tab.mod
  split
  · rename_i h
    split
    · subst_vars; simp [h]
    · rfl
  · rename_i v h
    rw [Tab.look_upd]
    simp [h]

theorem Tab.look_mod_self (t : Tab α) (k : Nat) (f : α → α) : Tab.look (Tab.mod t k f) k = (Tab.look t k).map f := by
  simp [Tab.look_mod]
theorem Tab.look_mod_ne (t : Tab α) {k j : Nat} (f : α → α) (h : j ≠ k) : Tab.look (Tab.mod t k f) j = Tab.look t j := by
  simp [Tab.look_mod, h]

theorem Tab.look_mapv (t : Tab α) (f : Nat → α → β) (j : Nat) : Tab.look (Tab.mapv t f) j = (Tab.look t j).map (f j) := by
  induction t with
  | nil => rfl
  | cons e r ih =>
    obtain ⟨a, u⟩ := e
    simp only [Tab.mapv, List.map_cons, Tab.look] at ih ⊢
    split
    · subst_vars; rfl
    · exact ih

/-! ### Rising keys and the canonical form -/

theorem Tab.sortedFrom_mono {t : Tab α} {lo lo' : Nat} (h : lo' ≤ lo) (ht : Tab.sortedFrom lo t = true) :
    Tab.sortedFrom lo' t = true := by
  cases t with
  | nil => rfl
  | cons e r =>
    simp only [Tab.sortedFrom, Bool.and_eq_true, decide_eq_true_eq] at ht ⊢
    exact ⟨by omega, ht.2⟩

theorem Tab.sortedFrom_upd {t : Tab α} {lo k : Nat} (v : α) (hk : lo ≤ k) (ht : Tab.sortedFrom lo t = true) :
    Tab.sortedFrom lo (Tab.upd t k v) = true := by
  induction t generalizing lo with
  | nil => simp [Tab.upd, Tab.sortedFrom, hk]
  | cons e r ih =>
    obtain ⟨a, u⟩ := e
    simp only [Tab.sortedFrom, Bool.and_eq_true, decide_eq_true_eq] at ht
    simp only [Tab.upd]
    split
    · simp only [Tab.sortedFrom, Bool.and_eq_true, decide_eq_true_eq]
      exact ⟨hk, by omega, ht.2⟩
    · split
      · subst_vars
        simp only [Tab.sortedFrom, Bool.and_eq_true, decide_eq_true_eq]
        exact ht
      · simp only [Tab.sortedFrom, Bool.and_eq_true, decide_eq_true_eq]
        exact ⟨ht.1, ih (by omega) ht.2⟩

theorem Tab.sortedFrom_filter {t : Tab α} {lo : Nat} (p : Nat × α → Bool) (ht : Tab.sortedFrom lo t = true) :
    Tab.sortedFrom lo (t.filter p) = true := by
  induction t generalizing lo with
  | nil => rfl
  | cons e r ih =>
    obtain ⟨a, u⟩ := e
    simp only [Tab.sortedFrom, Bool.and_eq_true, decide_eq_true_eq] at ht
    simp only [List.filter_cons]
    split
    · simp only [Tab.sortedFrom, Bool.and_eq_true, decide_eq_true_eq]
      exact ⟨ht.1, ih ht.2⟩
    · exact ih (Tab.sortedFrom_mono (by omega) ht.2)

theorem Tab.all_upd {t : Tab α} (p : Nat × α → Bool) (k : Nat) (v : α) (hv : p (k, v) = true) (ht : t.all p = true) :
    (Tab.upd t k v).all p = true := by
  induction t with
  | nil => simp [Tab.upd, hv]
  | cons e r ih =>
    obtain ⟨a, u⟩ := e
    simp only [List.all_cons, Bool.and_eq_true] at ht
    simp only [Tab.upd]
    split
    · simp only [List.all_cons, Bool.and_eq_true]
      exact ⟨hv, ht⟩
    · split
      · simp only [List.all_cons, Bool.and_eq_true]
        exact ⟨hv, ht.2⟩
      · simp only [List.all_cons, Bool.and_eq_true]
        exact ⟨ht.1, ih ht.2⟩

/-- Setting an entry keeps the canonical form. -/
theorem Tab.canon_put [DecidableEq α] {d : α} {t : Tab α} (k : Nat) (v : α) (h : Tab.canon d t = true) :
    Tab.canon d (Tab.put d t k v) = true := by
  simp only [Tab.canon, Bool.and_eq_true] at h ⊢
  unfold Tab.put
  split
  · refine ⟨Tab.sortedFrom_filter _ h.1, ?_⟩
    rw [List.all_eq_true] at h ⊢
    intro e he
    exact h.2 e (List.mem_of_mem_filter he)
  · rename_i hv
    exact ⟨Tab.sortedFrom_upd v (Nat.zero_le _) h.1, Tab.all_upd _ k v (by simpa using hv) h.2⟩

end Sys2Proof.Machine
end

