-- ==== Sys2Proof/Laws/State.lean ====
section
/-!
SUPPORT. Laws/State.lean: what each update of a state or a warp leaves as it was, field by field.
-/

namespace Sys2Proof.Machine

/-! ### Updates of the state -/

@[simp] theorem State.setWarp_agenda (s : State) (k : Nat) (w : Warp) : (s.setWarp k w).agenda = s.agenda := rfl
@[simp] theorem State.setWarp_cur (s : State) (k : Nat) (w : Warp) : (s.setWarp k w).cur = s.cur := rfl
@[simp] theorem State.setWarp_own (s : State) (k : Nat) (w : Warp) : (s.setWarp k w).own = s.own := rfl
@[simp] theorem State.setWarp_mem (s : State) (k : Nat) (w : Warp) : (s.setWarp k w).mem = s.mem := rfl
@[simp] theorem State.setWarp_ap (s : State) (k : Nat) (w : Warp) : (s.setWarp k w).ap = s.ap := rfl
@[simp] theorem State.setWarp_blocks (s : State) (k : Nat) (w : Warp) : (s.setWarp k w).blocks = s.blocks := rfl
@[simp] theorem State.setWarp_cores (s : State) (k : Nat) (w : Warp) : (s.setWarp k w).cores = s.cores := rfl
@[simp] theorem State.setWarp_dies (s : State) (k : Nat) (w : Warp) : (s.setWarp k w).dies = s.dies := rfl
@[simp] theorem State.setWarp_grids (s : State) (k : Nat) (w : Warp) : (s.setWarp k w).grids = s.grids := rfl
@[simp] theorem State.setWarp_dev (s : State) (k : Nat) (w : Warp) : (s.setWarp k w).dev = s.dev := rfl
@[simp] theorem State.modWarp_agenda (s : State) (k : Nat) (f : Warp → Warp) : (s.modWarp k f).agenda = s.agenda := rfl
@[simp] theorem State.modWarp_cur (s : State) (k : Nat) (f : Warp → Warp) : (s.modWarp k f).cur = s.cur := rfl
@[simp] theorem State.modWarp_own (s : State) (k : Nat) (f : Warp → Warp) : (s.modWarp k f).own = s.own := rfl
@[simp] theorem State.modWarp_mem (s : State) (k : Nat) (f : Warp → Warp) : (s.modWarp k f).mem = s.mem := rfl
@[simp] theorem State.modWarp_ap (s : State) (k : Nat) (f : Warp → Warp) : (s.modWarp k f).ap = s.ap := rfl
@[simp] theorem State.modWarp_blocks (s : State) (k : Nat) (f : Warp → Warp) : (s.modWarp k f).blocks = s.blocks := rfl
@[simp] theorem State.modWarp_cores (s : State) (k : Nat) (f : Warp → Warp) : (s.modWarp k f).cores = s.cores := rfl
@[simp] theorem State.modWarp_dies (s : State) (k : Nat) (f : Warp → Warp) : (s.modWarp k f).dies = s.dies := rfl
@[simp] theorem State.modWarp_grids (s : State) (k : Nat) (f : Warp → Warp) : (s.modWarp k f).grids = s.grids := rfl
@[simp] theorem State.modWarp_dev (s : State) (k : Nat) (f : Warp → Warp) : (s.modWarp k f).dev = s.dev := rfl
@[simp] theorem State.delWarp_agenda (s : State) (k : Nat) : (s.delWarp k).agenda = s.agenda := rfl
@[simp] theorem State.delWarp_cur (s : State) (k : Nat) : (s.delWarp k).cur = s.cur := rfl
@[simp] theorem State.delWarp_own (s : State) (k : Nat) : (s.delWarp k).own = s.own := rfl
@[simp] theorem State.delWarp_mem (s : State) (k : Nat) : (s.delWarp k).mem = s.mem := rfl
@[simp] theorem State.delWarp_ap (s : State) (k : Nat) : (s.delWarp k).ap = s.ap := rfl
@[simp] theorem State.delWarp_blocks (s : State) (k : Nat) : (s.delWarp k).blocks = s.blocks := rfl
@[simp] theorem State.delWarp_cores (s : State) (k : Nat) : (s.delWarp k).cores = s.cores := rfl
@[simp] theorem State.delWarp_dies (s : State) (k : Nat) : (s.delWarp k).dies = s.dies := rfl
@[simp] theorem State.delWarp_grids (s : State) (k : Nat) : (s.delWarp k).grids = s.grids := rfl
@[simp] theorem State.delWarp_dev (s : State) (k : Nat) : (s.delWarp k).dev = s.dev := rfl
@[simp] theorem State.setBlock_agenda (s : State) (k : Nat) (b : Block) : (s.setBlock k b).agenda = s.agenda := rfl
@[simp] theorem State.setBlock_cur (s : State) (k : Nat) (b : Block) : (s.setBlock k b).cur = s.cur := rfl
@[simp] theorem State.setBlock_own (s : State) (k : Nat) (b : Block) : (s.setBlock k b).own = s.own := rfl
@[simp] theorem State.setBlock_mem (s : State) (k : Nat) (b : Block) : (s.setBlock k b).mem = s.mem := rfl
@[simp] theorem State.setBlock_ap (s : State) (k : Nat) (b : Block) : (s.setBlock k b).ap = s.ap := rfl
@[simp] theorem State.setBlock_warps (s : State) (k : Nat) (b : Block) : (s.setBlock k b).warps = s.warps := rfl
@[simp] theorem State.setBlock_cores (s : State) (k : Nat) (b : Block) : (s.setBlock k b).cores = s.cores := rfl
@[simp] theorem State.setBlock_dies (s : State) (k : Nat) (b : Block) : (s.setBlock k b).dies = s.dies := rfl
@[simp] theorem State.setBlock_grids (s : State) (k : Nat) (b : Block) : (s.setBlock k b).grids = s.grids := rfl
@[simp] theorem State.setBlock_dev (s : State) (k : Nat) (b : Block) : (s.setBlock k b).dev = s.dev := rfl
@[simp] theorem State.modBlock_agenda (s : State) (k : Nat) (f : Block → Block) : (s.modBlock k f).agenda = s.agenda := rfl
@[simp] theorem State.modBlock_cur (s : State) (k : Nat) (f : Block → Block) : (s.modBlock k f).cur = s.cur := rfl
@[simp] theorem State.modBlock_own (s : State) (k : Nat) (f : Block → Block) : (s.modBlock k f).own = s.own := rfl
@[simp] theorem State.modBlock_mem (s : State) (k : Nat) (f : Block → Block) : (s.modBlock k f).mem = s.mem := rfl
@[simp] theorem State.modBlock_ap (s : State) (k : Nat) (f : Block → Block) : (s.modBlock k f).ap = s.ap := rfl
@[simp] theorem State.modBlock_warps (s : State) (k : Nat) (f : Block → Block) : (s.modBlock k f).warps = s.warps := rfl
@[simp] theorem State.modBlock_cores (s : State) (k : Nat) (f : Block → Block) : (s.modBlock k f).cores = s.cores := rfl
@[simp] theorem State.modBlock_dies (s : State) (k : Nat) (f : Block → Block) : (s.modBlock k f).dies = s.dies := rfl
@[simp] theorem State.modBlock_grids (s : State) (k : Nat) (f : Block → Block) : (s.modBlock k f).grids = s.grids := rfl
@[simp] theorem State.modBlock_dev (s : State) (k : Nat) (f : Block → Block) : (s.modBlock k f).dev = s.dev := rfl
@[simp] theorem State.setCore_agenda (s : State) (k : Nat) (c : Core) : (s.setCore k c).agenda = s.agenda := rfl
@[simp] theorem State.setCore_cur (s : State) (k : Nat) (c : Core) : (s.setCore k c).cur = s.cur := rfl
@[simp] theorem State.setCore_own (s : State) (k : Nat) (c : Core) : (s.setCore k c).own = s.own := rfl
@[simp] theorem State.setCore_mem (s : State) (k : Nat) (c : Core) : (s.setCore k c).mem = s.mem := rfl
@[simp] theorem State.setCore_ap (s : State) (k : Nat) (c : Core) : (s.setCore k c).ap = s.ap := rfl
@[simp] theorem State.setCore_warps (s : State) (k : Nat) (c : Core) : (s.setCore k c).warps = s.warps := rfl
@[simp] theorem State.setCore_blocks (s : State) (k : Nat) (c : Core) : (s.setCore k c).blocks = s.blocks := rfl
@[simp] theorem State.setCore_dies (s : State) (k : Nat) (c : Core) : (s.setCore k c).dies = s.dies := rfl
@[simp] theorem State.setCore_grids (s : State) (k : Nat) (c : Core) : (s.setCore k c).grids = s.grids := rfl
@[simp] theorem State.setCore_dev (s : State) (k : Nat) (c : Core) : (s.setCore k c).dev = s.dev := rfl
@[simp] theorem State.modCore_agenda (s : State) (k : Nat) (f : Core → Core) : (s.modCore k f).agenda = s.agenda := rfl
@[simp] theorem State.modCore_cur (s : State) (k : Nat) (f : Core → Core) : (s.modCore k f).cur = s.cur := rfl
@[simp] theorem State.modCore_own (s : State) (k : Nat) (f : Core → Core) : (s.modCore k f).own = s.own := rfl
@[simp] theorem State.modCore_mem (s : State) (k : Nat) (f : Core → Core) : (s.modCore k f).mem = s.mem := rfl
@[simp] theorem State.modCore_ap (s : State) (k : Nat) (f : Core → Core) : (s.modCore k f).ap = s.ap := rfl
@[simp] theorem State.modCore_warps (s : State) (k : Nat) (f : Core → Core) : (s.modCore k f).warps = s.warps := rfl
@[simp] theorem State.modCore_blocks (s : State) (k : Nat) (f : Core → Core) : (s.modCore k f).blocks = s.blocks := rfl
@[simp] theorem State.modCore_dies (s : State) (k : Nat) (f : Core → Core) : (s.modCore k f).dies = s.dies := rfl
@[simp] theorem State.modCore_grids (s : State) (k : Nat) (f : Core → Core) : (s.modCore k f).grids = s.grids := rfl
@[simp] theorem State.modCore_dev (s : State) (k : Nat) (f : Core → Core) : (s.modCore k f).dev = s.dev := rfl
@[simp] theorem State.setDie_agenda (s : State) (k : Nat) (d : Die) : (s.setDie k d).agenda = s.agenda := rfl
@[simp] theorem State.setDie_cur (s : State) (k : Nat) (d : Die) : (s.setDie k d).cur = s.cur := rfl
@[simp] theorem State.setDie_own (s : State) (k : Nat) (d : Die) : (s.setDie k d).own = s.own := rfl
@[simp] theorem State.setDie_mem (s : State) (k : Nat) (d : Die) : (s.setDie k d).mem = s.mem := rfl
@[simp] theorem State.setDie_ap (s : State) (k : Nat) (d : Die) : (s.setDie k d).ap = s.ap := rfl
@[simp] theorem State.setDie_warps (s : State) (k : Nat) (d : Die) : (s.setDie k d).warps = s.warps := rfl
@[simp] theorem State.setDie_blocks (s : State) (k : Nat) (d : Die) : (s.setDie k d).blocks = s.blocks := rfl
@[simp] theorem State.setDie_cores (s : State) (k : Nat) (d : Die) : (s.setDie k d).cores = s.cores := rfl
@[simp] theorem State.setDie_grids (s : State) (k : Nat) (d : Die) : (s.setDie k d).grids = s.grids := rfl
@[simp] theorem State.setDie_dev (s : State) (k : Nat) (d : Die) : (s.setDie k d).dev = s.dev := rfl
@[simp] theorem State.modDie_agenda (s : State) (k : Nat) (f : Die → Die) : (s.modDie k f).agenda = s.agenda := rfl
@[simp] theorem State.modDie_cur (s : State) (k : Nat) (f : Die → Die) : (s.modDie k f).cur = s.cur := rfl
@[simp] theorem State.modDie_own (s : State) (k : Nat) (f : Die → Die) : (s.modDie k f).own = s.own := rfl
@[simp] theorem State.modDie_mem (s : State) (k : Nat) (f : Die → Die) : (s.modDie k f).mem = s.mem := rfl
@[simp] theorem State.modDie_ap (s : State) (k : Nat) (f : Die → Die) : (s.modDie k f).ap = s.ap := rfl
@[simp] theorem State.modDie_warps (s : State) (k : Nat) (f : Die → Die) : (s.modDie k f).warps = s.warps := rfl
@[simp] theorem State.modDie_blocks (s : State) (k : Nat) (f : Die → Die) : (s.modDie k f).blocks = s.blocks := rfl
@[simp] theorem State.modDie_cores (s : State) (k : Nat) (f : Die → Die) : (s.modDie k f).cores = s.cores := rfl
@[simp] theorem State.modDie_grids (s : State) (k : Nat) (f : Die → Die) : (s.modDie k f).grids = s.grids := rfl
@[simp] theorem State.modDie_dev (s : State) (k : Nat) (f : Die → Die) : (s.modDie k f).dev = s.dev := rfl
@[simp] theorem State.setGrid_agenda (s : State) (k : Nat) (g : Grid) : (s.setGrid k g).agenda = s.agenda := rfl
@[simp] theorem State.setGrid_cur (s : State) (k : Nat) (g : Grid) : (s.setGrid k g).cur = s.cur := rfl
@[simp] theorem State.setGrid_own (s : State) (k : Nat) (g : Grid) : (s.setGrid k g).own = s.own := rfl
@[simp] theorem State.setGrid_mem (s : State) (k : Nat) (g : Grid) : (s.setGrid k g).mem = s.mem := rfl
@[simp] theorem State.setGrid_ap (s : State) (k : Nat) (g : Grid) : (s.setGrid k g).ap = s.ap := rfl
@[simp] theorem State.setGrid_warps (s : State) (k : Nat) (g : Grid) : (s.setGrid k g).warps = s.warps := rfl
@[simp] theorem State.setGrid_blocks (s : State) (k : Nat) (g : Grid) : (s.setGrid k g).blocks = s.blocks := rfl
@[simp] theorem State.setGrid_cores (s : State) (k : Nat) (g : Grid) : (s.setGrid k g).cores = s.cores := rfl
@[simp] theorem State.setGrid_dies (s : State) (k : Nat) (g : Grid) : (s.setGrid k g).dies = s.dies := rfl
@[simp] theorem State.setGrid_dev (s : State) (k : Nat) (g : Grid) : (s.setGrid k g).dev = s.dev := rfl
@[simp] theorem State.modGrid_agenda (s : State) (k : Nat) (f : Grid → Grid) : (s.modGrid k f).agenda = s.agenda := rfl
@[simp] theorem State.modGrid_cur (s : State) (k : Nat) (f : Grid → Grid) : (s.modGrid k f).cur = s.cur := rfl
@[simp] theorem State.modGrid_own (s : State) (k : Nat) (f : Grid → Grid) : (s.modGrid k f).own = s.own := rfl
@[simp] theorem State.modGrid_mem (s : State) (k : Nat) (f : Grid → Grid) : (s.modGrid k f).mem = s.mem := rfl
@[simp] theorem State.modGrid_ap (s : State) (k : Nat) (f : Grid → Grid) : (s.modGrid k f).ap = s.ap := rfl
@[simp] theorem State.modGrid_warps (s : State) (k : Nat) (f : Grid → Grid) : (s.modGrid k f).warps = s.warps := rfl
@[simp] theorem State.modGrid_blocks (s : State) (k : Nat) (f : Grid → Grid) : (s.modGrid k f).blocks = s.blocks := rfl
@[simp] theorem State.modGrid_cores (s : State) (k : Nat) (f : Grid → Grid) : (s.modGrid k f).cores = s.cores := rfl
@[simp] theorem State.modGrid_dies (s : State) (k : Nat) (f : Grid → Grid) : (s.modGrid k f).dies = s.dies := rfl
@[simp] theorem State.modGrid_dev (s : State) (k : Nat) (f : Grid → Grid) : (s.modGrid k f).dev = s.dev := rfl
@[simp] theorem State.modMem_agenda (s : State) (f : Mem → Mem) : (s.modMem f).agenda = s.agenda := rfl
@[simp] theorem State.modMem_cur (s : State) (f : Mem → Mem) : (s.modMem f).cur = s.cur := rfl
@[simp] theorem State.modMem_own (s : State) (f : Mem → Mem) : (s.modMem f).own = s.own := rfl
@[simp] theorem State.modMem_ap (s : State) (f : Mem → Mem) : (s.modMem f).ap = s.ap := rfl
@[simp] theorem State.modMem_warps (s : State) (f : Mem → Mem) : (s.modMem f).warps = s.warps := rfl
@[simp] theorem State.modMem_blocks (s : State) (f : Mem → Mem) : (s.modMem f).blocks = s.blocks := rfl
@[simp] theorem State.modMem_cores (s : State) (f : Mem → Mem) : (s.modMem f).cores = s.cores := rfl
@[simp] theorem State.modMem_dies (s : State) (f : Mem → Mem) : (s.modMem f).dies = s.dies := rfl
@[simp] theorem State.modMem_grids (s : State) (f : Mem → Mem) : (s.modMem f).grids = s.grids := rfl
@[simp] theorem State.modMem_dev (s : State) (f : Mem → Mem) : (s.modMem f).dev = s.dev := rfl
@[simp] theorem State.modDev_agenda (s : State) (f : Device → Device) : (s.modDev f).agenda = s.agenda := rfl
@[simp] theorem State.modDev_cur (s : State) (f : Device → Device) : (s.modDev f).cur = s.cur := rfl
@[simp] theorem State.modDev_own (s : State) (f : Device → Device) : (s.modDev f).own = s.own := rfl
@[simp] theorem State.modDev_mem (s : State) (f : Device → Device) : (s.modDev f).mem = s.mem := rfl
@[simp] theorem State.modDev_ap (s : State) (f : Device → Device) : (s.modDev f).ap = s.ap := rfl
@[simp] theorem State.modDev_warps (s : State) (f : Device → Device) : (s.modDev f).warps = s.warps := rfl
@[simp] theorem State.modDev_blocks (s : State) (f : Device → Device) : (s.modDev f).blocks = s.blocks := rfl
@[simp] theorem State.modDev_cores (s : State) (f : Device → Device) : (s.modDev f).cores = s.cores := rfl
@[simp] theorem State.modDev_dies (s : State) (f : Device → Device) : (s.modDev f).dies = s.dies := rfl
@[simp] theorem State.modDev_grids (s : State) (f : Device → Device) : (s.modDev f).grids = s.grids := rfl
@[simp] theorem State.send_agenda (s : State) (m : Msg) : (s.send m).agenda = s.agenda := rfl
@[simp] theorem State.send_cur (s : State) (m : Msg) : (s.send m).cur = s.cur := rfl
@[simp] theorem State.send_mem (s : State) (m : Msg) : (s.send m).mem = s.mem := rfl
@[simp] theorem State.send_ap (s : State) (m : Msg) : (s.send m).ap = s.ap := rfl
@[simp] theorem State.send_warps (s : State) (m : Msg) : (s.send m).warps = s.warps := rfl
@[simp] theorem State.send_blocks (s : State) (m : Msg) : (s.send m).blocks = s.blocks := rfl
@[simp] theorem State.send_cores (s : State) (m : Msg) : (s.send m).cores = s.cores := rfl
@[simp] theorem State.send_dies (s : State) (m : Msg) : (s.send m).dies = s.dies := rfl
@[simp] theorem State.send_grids (s : State) (m : Msg) : (s.send m).grids = s.grids := rfl
@[simp] theorem State.send_dev (s : State) (m : Msg) : (s.send m).dev = s.dev := rfl
@[simp] theorem State.soon_cur (s : State) (ps : List Pending) : (s.soon ps).cur = s.cur := rfl
@[simp] theorem State.soon_own (s : State) (ps : List Pending) : (s.soon ps).own = s.own := rfl
@[simp] theorem State.soon_mem (s : State) (ps : List Pending) : (s.soon ps).mem = s.mem := rfl
@[simp] theorem State.soon_ap (s : State) (ps : List Pending) : (s.soon ps).ap = s.ap := rfl
@[simp] theorem State.soon_warps (s : State) (ps : List Pending) : (s.soon ps).warps = s.warps := rfl
@[simp] theorem State.soon_blocks (s : State) (ps : List Pending) : (s.soon ps).blocks = s.blocks := rfl
@[simp] theorem State.soon_cores (s : State) (ps : List Pending) : (s.soon ps).cores = s.cores := rfl
@[simp] theorem State.soon_dies (s : State) (ps : List Pending) : (s.soon ps).dies = s.dies := rfl
@[simp] theorem State.soon_grids (s : State) (ps : List Pending) : (s.soon ps).grids = s.grids := rfl
@[simp] theorem State.soon_dev (s : State) (ps : List Pending) : (s.soon ps).dev = s.dev := rfl
@[simp] theorem State.apSet_agenda (s : State) (o v : Nat) : (s.apSet o v).agenda = s.agenda := rfl
@[simp] theorem State.apSet_cur (s : State) (o v : Nat) : (s.apSet o v).cur = s.cur := rfl
@[simp] theorem State.apSet_own (s : State) (o v : Nat) : (s.apSet o v).own = s.own := rfl
@[simp] theorem State.apSet_mem (s : State) (o v : Nat) : (s.apSet o v).mem = s.mem := rfl
@[simp] theorem State.apSet_warps (s : State) (o v : Nat) : (s.apSet o v).warps = s.warps := rfl
@[simp] theorem State.apSet_blocks (s : State) (o v : Nat) : (s.apSet o v).blocks = s.blocks := rfl
@[simp] theorem State.apSet_cores (s : State) (o v : Nat) : (s.apSet o v).cores = s.cores := rfl
@[simp] theorem State.apSet_dies (s : State) (o v : Nat) : (s.apSet o v).dies = s.dies := rfl
@[simp] theorem State.apSet_grids (s : State) (o v : Nat) : (s.apSet o v).grids = s.grids := rfl
@[simp] theorem State.apSet_dev (s : State) (o v : Nat) : (s.apSet o v).dev = s.dev := rfl
@[simp] theorem State.modMem_mem (s : State) (f : Mem → Mem) : (s.modMem f).mem = f s.mem := rfl
@[simp] theorem State.modDev_dev (s : State) (f : Device → Device) : (s.modDev f).dev = f s.dev := rfl
@[simp] theorem State.soon_agenda (s : State) (ps : List Pending) : (s.soon ps).agenda = ps ++ s.agenda := rfl

/-! ### Reading a table after an update of it -/

theorem State.warp?_setWarp (s : State) (k j : Nat) (w : Warp) : (s.setWarp k w).warp? j = if j = k then some w else s.warp? j :=
  Tab.look_upd ..
theorem State.warp?_modWarp (s : State) (k j : Nat) (f : Warp → Warp) :
    (s.modWarp k f).warp? j = if j = k then (s.warp? k).map f else s.warp? j :=
  Tab.look_mod ..
@[simp] theorem State.warp?_modWarp_self (s : State) (k : Nat) (f : Warp → Warp) : (s.modWarp k f).warp? k = (s.warp? k).map f :=
  Tab.look_mod_self ..
theorem State.core_setCore (s : State) (k j : Nat) (c : Core) : (s.setCore k c).core j = if j = k then c else s.core j := by
  simp only [State.core, State.setCore, Tab.get, Tab.look_upd]; split <;> rfl
theorem State.core_modCore (s : State) (k j : Nat) (f : Core → Core) :
    (s.modCore k f).core j = if j = k then f (s.core k) else s.core j :=
  State.core_setCore ..
theorem State.block?_modBlock (s : State) (k j : Nat) (f : Block → Block) :
    (s.modBlock k f).block? j = if j = k then (s.block? k).map f else s.block? j :=
  Tab.look_mod ..
theorem State.die_modDie (s : State) (k j : Nat) (f : Die → Die) : (s.modDie k f).die j = if j = k then f (s.die k) else s.die j := by
  simp only [State.die, State.modDie, State.setDie, Tab.get, Tab.look_upd]; split <;> rfl
theorem State.grid?_modGrid (s : State) (k j : Nat) (f : Grid → Grid) :
    (s.modGrid k f).grid? j = if j = k then (s.grid? k).map f else s.grid? j :=
  Tab.look_mod ..

/-- A register of the aperture after one is stored. -/
theorem State.ap!_apSet (s : State) (o j v : Nat) (hv : v < 2 ^ 64) : (s.apSet o v).ap! j = if j = o then v else s.ap! j := by
  by_cases h : v = apReset o
  · simp only [State.ap!, State.apSet, h, if_true, Tab.look_del]
    by_cases hj : j = o <;> simp [hj]
  · simp only [State.ap!, State.apSet, h, if_false, Tab.look_upd]
    by_cases hj : j = o <;> simp [hj]; omega

/-! ### Updates of a warp -/

@[simp] theorem Warp.setPc_ctx (w : Warp) (en : Word) (f : Nat → DWord) : (w.setPc en f).ctx = w.ctx := rfl
@[simp] theorem Warp.setPc_blk (w : Warp) (en : Word) (f : Nat → DWord) : (w.setPc en f).blk = w.blk := rfl
@[simp] theorem Warp.setPc_widx (w : Warp) (en : Word) (f : Nat → DWord) : (w.setPc en f).widx = w.widx := rfl
@[simp] theorem Warp.setPc_level (w : Warp) (en : Word) (f : Nat → DWord) : (w.setPc en f).level = w.level := rfl
@[simp] theorem Warp.setPc_regs (w : Warp) (en : Word) (f : Nat → DWord) : (w.setPc en f).regs = w.regs := rfl
@[simp] theorem Warp.setPc_regs0 (w : Warp) (en : Word) (f : Nat → DWord) : (w.setPc en f).regs0 = w.regs0 := rfl
@[simp] theorem Warp.setPc_lean (w : Warp) (en : Word) (f : Nat → DWord) : (w.setPc en f).lean = w.lean := rfl
@[simp] theorem Warp.setPc_x (w : Warp) (en : Word) (f : Nat → DWord) : (w.setPc en f).x = w.x := rfl
@[simp] theorem Warp.setPc_k (w : Warp) (en : Word) (f : Nat → DWord) : (w.setPc en f).k = w.k := rfl
@[simp] theorem Warp.setPc_m (w : Warp) (en : Word) (f : Nat → DWord) : (w.setPc en f).m = w.m := rfl
@[simp] theorem Warp.setPc_rev (w : Warp) (en : Word) (f : Nat → DWord) : (w.setPc en f).rev = w.rev := rfl
@[simp] theorem Warp.setPc_rseq (w : Warp) (en : Word) (f : Nat → DWord) : (w.setPc en f).rseq = w.rseq := rfl
@[simp] theorem Warp.setPc_budget (w : Warp) (en : Word) (f : Nat → DWord) : (w.setPc en f).budget = w.budget := rfl
@[simp] theorem Warp.setPc_exited (w : Warp) (en : Word) (f : Nat → DWord) : (w.setPc en f).exited = w.exited := rfl
@[simp] theorem Warp.setPc_deferred (w : Warp) (en : Word) (f : Nat → DWord) : (w.setPc en f).deferred = w.deferred := rfl
@[simp] theorem Warp.setPc_delayed (w : Warp) (en : Word) (f : Nat → DWord) : (w.setPc en f).delayed = w.delayed := rfl
@[simp] theorem Warp.setPc_blocked (w : Warp) (en : Word) (f : Nat → DWord) : (w.setPc en f).blocked = w.blocked := rfl
@[simp] theorem Warp.setPc_parked (w : Warp) (en : Word) (f : Nat → DWord) : (w.setPc en f).parked = w.parked := rfl
@[simp] theorem Warp.setPc_susp (w : Warp) (en : Word) (f : Nat → DWord) : (w.setPc en f).susp = w.susp := rfl
@[simp] theorem Warp.setPc_rlimit (w : Warp) (en : Word) (f : Nat → DWord) : (w.setPc en f).rlimit = w.rlimit := rfl
@[simp] theorem Warp.setPc_rcount (w : Warp) (en : Word) (f : Nat → DWord) : (w.setPc en f).rcount = w.rcount := rfl
@[simp] theorem Warp.setPc_tcmp (w : Warp) (en : Word) (f : Nat → DWord) : (w.setPc en f).tcmp = w.tcmp := rfl
@[simp] theorem Warp.setPc_timer (w : Warp) (en : Word) (f : Nat → DWord) : (w.setPc en f).timer = w.timer := rfl
@[simp] theorem Warp.setPc_frec (w : Warp) (en : Word) (f : Nat → DWord) : (w.setPc en f).frec = w.frec := rfl
@[simp] theorem Warp.setPc_tclass (w : Warp) (en : Word) (f : Nat → DWord) : (w.setPc en f).tclass = w.tclass := rfl
@[simp] theorem Warp.setPc_rsb (w : Warp) (en : Word) (f : Nat → DWord) : (w.setPc en f).rsb = w.rsb := rfl
@[simp] theorem Warp.setPc_opbuf (w : Warp) (en : Word) (f : Nat → DWord) : (w.setPc en f).opbuf = w.opbuf := rfl
@[simp] theorem Warp.setPc_fc (w : Warp) (en : Word) (f : Nat → DWord) : (w.setPc en f).fc = w.fc := rfl
@[simp] theorem Warp.setPc_turn (w : Warp) (en : Word) (f : Nat → DWord) : (w.setPc en f).turn = w.turn := rfl
@[simp] theorem Warp.setPc_turnBits (w : Warp) (en : Word) (f : Nat → DWord) : (w.setPc en f).turnBits = w.turnBits := rfl
@[simp] theorem Warp.setPc_lastLanes (w : Warp) (en : Word) (f : Nat → DWord) : (w.setPc en f).lastLanes = w.lastLanes := rfl
@[simp] theorem Warp.setPc_lwc (w : Warp) (en : Word) (f : Nat → DWord) : (w.setPc en f).lwc = w.lwc := rfl
@[simp] theorem Warp.setPc_ewc (w : Warp) (en : Word) (f : Nat → DWord) : (w.setPc en f).ewc = w.ewc := rfl
@[simp] theorem Warp.setPc_lastIssue (w : Warp) (en : Word) (f : Nat → DWord) : (w.setPc en f).lastIssue = w.lastIssue := rfl
@[simp] theorem Warp.setPc_ready (w : Warp) (en : Word) (f : Nat → DWord) : (w.setPc en f).ready = w.ready := rfl
@[simp] theorem Warp.setPc_stage (w : Warp) (en : Word) (f : Nat → DWord) : (w.setPc en f).stage = w.stage := rfl
@[simp] theorem Warp.setPc_faults (w : Warp) (en : Word) (f : Nat → DWord) : (w.setPc en f).faults = w.faults := rfl
@[simp] theorem Warp.setPc_inv (w : Warp) (en : Word) (f : Nat → DWord) : (w.setPc en f).inv = w.inv := rfl
@[simp] theorem Warp.setPc_stopped (w : Warp) (en : Word) (f : Nat → DWord) : (w.setPc en f).stopped = w.stopped := rfl
@[simp] theorem Warp.setPc_loads (w : Warp) (en : Word) (f : Nat → DWord) : (w.setPc en f).loads = w.loads := rfl
@[simp] theorem Warp.setPc_inbox (w : Warp) (en : Word) (f : Nat → DWord) : (w.setPc en f).inbox = w.inbox := rfl
@[simp] theorem Warp.setPc_wr (w : Warp) (en : Word) (f : Nat → DWord) : (w.setPc en f).wr = w.wr := rfl
@[simp] theorem Warp.setPc_clean (w : Warp) (en : Word) (f : Nat → DWord) : (w.setPc en f).clean = w.clean := rfl
@[simp] theorem Warp.setRev_ctx (w : Warp) (en : Word) (f : Nat → DWord) : (w.setRev en f).ctx = w.ctx := rfl
@[simp] theorem Warp.setRev_blk (w : Warp) (en : Word) (f : Nat → DWord) : (w.setRev en f).blk = w.blk := rfl
@[simp] theorem Warp.setRev_widx (w : Warp) (en : Word) (f : Nat → DWord) : (w.setRev en f).widx = w.widx := rfl
@[simp] theorem Warp.setRev_level (w : Warp) (en : Word) (f : Nat → DWord) : (w.setRev en f).level = w.level := rfl
@[simp] theorem Warp.setRev_regs (w : Warp) (en : Word) (f : Nat → DWord) : (w.setRev en f).regs = w.regs := rfl
@[simp] theorem Warp.setRev_regs0 (w : Warp) (en : Word) (f : Nat → DWord) : (w.setRev en f).regs0 = w.regs0 := rfl
@[simp] theorem Warp.setRev_lean (w : Warp) (en : Word) (f : Nat → DWord) : (w.setRev en f).lean = w.lean := rfl
@[simp] theorem Warp.setRev_x (w : Warp) (en : Word) (f : Nat → DWord) : (w.setRev en f).x = w.x := rfl
@[simp] theorem Warp.setRev_k (w : Warp) (en : Word) (f : Nat → DWord) : (w.setRev en f).k = w.k := rfl
@[simp] theorem Warp.setRev_m (w : Warp) (en : Word) (f : Nat → DWord) : (w.setRev en f).m = w.m := rfl
@[simp] theorem Warp.setRev_pcv (w : Warp) (en : Word) (f : Nat → DWord) : (w.setRev en f).pcv = w.pcv := rfl
@[simp] theorem Warp.setRev_rseq (w : Warp) (en : Word) (f : Nat → DWord) : (w.setRev en f).rseq = w.rseq := rfl
@[simp] theorem Warp.setRev_budget (w : Warp) (en : Word) (f : Nat → DWord) : (w.setRev en f).budget = w.budget := rfl
@[simp] theorem Warp.setRev_exited (w : Warp) (en : Word) (f : Nat → DWord) : (w.setRev en f).exited = w.exited := rfl
@[simp] theorem Warp.setRev_deferred (w : Warp) (en : Word) (f : Nat → DWord) : (w.setRev en f).deferred = w.deferred := rfl
@[simp] theorem Warp.setRev_delayed (w : Warp) (en : Word) (f : Nat → DWord) : (w.setRev en f).delayed = w.delayed := rfl
@[simp] theorem Warp.setRev_blocked (w : Warp) (en : Word) (f : Nat → DWord) : (w.setRev en f).blocked = w.blocked := rfl
@[simp] theorem Warp.setRev_parked (w : Warp) (en : Word) (f : Nat → DWord) : (w.setRev en f).parked = w.parked := rfl
@[simp] theorem Warp.setRev_susp (w : Warp) (en : Word) (f : Nat → DWord) : (w.setRev en f).susp = w.susp := rfl
@[simp] theorem Warp.setRev_rlimit (w : Warp) (en : Word) (f : Nat → DWord) : (w.setRev en f).rlimit = w.rlimit := rfl
@[simp] theorem Warp.setRev_rcount (w : Warp) (en : Word) (f : Nat → DWord) : (w.setRev en f).rcount = w.rcount := rfl
@[simp] theorem Warp.setRev_tcmp (w : Warp) (en : Word) (f : Nat → DWord) : (w.setRev en f).tcmp = w.tcmp := rfl
@[simp] theorem Warp.setRev_timer (w : Warp) (en : Word) (f : Nat → DWord) : (w.setRev en f).timer = w.timer := rfl
@[simp] theorem Warp.setRev_frec (w : Warp) (en : Word) (f : Nat → DWord) : (w.setRev en f).frec = w.frec := rfl
@[simp] theorem Warp.setRev_tclass (w : Warp) (en : Word) (f : Nat → DWord) : (w.setRev en f).tclass = w.tclass := rfl
@[simp] theorem Warp.setRev_rsb (w : Warp) (en : Word) (f : Nat → DWord) : (w.setRev en f).rsb = w.rsb := rfl
@[simp] theorem Warp.setRev_opbuf (w : Warp) (en : Word) (f : Nat → DWord) : (w.setRev en f).opbuf = w.opbuf := rfl
@[simp] theorem Warp.setRev_fc (w : Warp) (en : Word) (f : Nat → DWord) : (w.setRev en f).fc = w.fc := rfl
@[simp] theorem Warp.setRev_turn (w : Warp) (en : Word) (f : Nat → DWord) : (w.setRev en f).turn = w.turn := rfl
@[simp] theorem Warp.setRev_turnBits (w : Warp) (en : Word) (f : Nat → DWord) : (w.setRev en f).turnBits = w.turnBits := rfl
@[simp] theorem Warp.setRev_lastLanes (w : Warp) (en : Word) (f : Nat → DWord) : (w.setRev en f).lastLanes = w.lastLanes := rfl
@[simp] theorem Warp.setRev_lwc (w : Warp) (en : Word) (f : Nat → DWord) : (w.setRev en f).lwc = w.lwc := rfl
@[simp] theorem Warp.setRev_ewc (w : Warp) (en : Word) (f : Nat → DWord) : (w.setRev en f).ewc = w.ewc := rfl
@[simp] theorem Warp.setRev_lastIssue (w : Warp) (en : Word) (f : Nat → DWord) : (w.setRev en f).lastIssue = w.lastIssue := rfl
@[simp] theorem Warp.setRev_ready (w : Warp) (en : Word) (f : Nat → DWord) : (w.setRev en f).ready = w.ready := rfl
@[simp] theorem Warp.setRev_stage (w : Warp) (en : Word) (f : Nat → DWord) : (w.setRev en f).stage = w.stage := rfl
@[simp] theorem Warp.setRev_faults (w : Warp) (en : Word) (f : Nat → DWord) : (w.setRev en f).faults = w.faults := rfl
@[simp] theorem Warp.setRev_inv (w : Warp) (en : Word) (f : Nat → DWord) : (w.setRev en f).inv = w.inv := rfl
@[simp] theorem Warp.setRev_stopped (w : Warp) (en : Word) (f : Nat → DWord) : (w.setRev en f).stopped = w.stopped := rfl
@[simp] theorem Warp.setRev_loads (w : Warp) (en : Word) (f : Nat → DWord) : (w.setRev en f).loads = w.loads := rfl
@[simp] theorem Warp.setRev_inbox (w : Warp) (en : Word) (f : Nat → DWord) : (w.setRev en f).inbox = w.inbox := rfl
@[simp] theorem Warp.setRev_wr (w : Warp) (en : Word) (f : Nat → DWord) : (w.setRev en f).wr = w.wr := rfl
@[simp] theorem Warp.setRev_clean (w : Warp) (en : Word) (f : Nat → DWord) : (w.setRev en f).clean = w.clean := rfl
@[simp] theorem Warp.advance_ctx (w : Warp) (en : Word) (n : Nat) : (w.advance en n).ctx = w.ctx := rfl
@[simp] theorem Warp.advance_blk (w : Warp) (en : Word) (n : Nat) : (w.advance en n).blk = w.blk := rfl
@[simp] theorem Warp.advance_widx (w : Warp) (en : Word) (n : Nat) : (w.advance en n).widx = w.widx := rfl
@[simp] theorem Warp.advance_level (w : Warp) (en : Word) (n : Nat) : (w.advance en n).level = w.level := rfl
@[simp] theorem Warp.advance_regs (w : Warp) (en : Word) (n : Nat) : (w.advance en n).regs = w.regs := rfl
@[simp] theorem Warp.advance_regs0 (w : Warp) (en : Word) (n : Nat) : (w.advance en n).regs0 = w.regs0 := rfl
@[simp] theorem Warp.advance_lean (w : Warp) (en : Word) (n : Nat) : (w.advance en n).lean = w.lean := rfl
@[simp] theorem Warp.advance_x (w : Warp) (en : Word) (n : Nat) : (w.advance en n).x = w.x := rfl
@[simp] theorem Warp.advance_k (w : Warp) (en : Word) (n : Nat) : (w.advance en n).k = w.k := rfl
@[simp] theorem Warp.advance_m (w : Warp) (en : Word) (n : Nat) : (w.advance en n).m = w.m := rfl
@[simp] theorem Warp.advance_rev (w : Warp) (en : Word) (n : Nat) : (w.advance en n).rev = w.rev := rfl
@[simp] theorem Warp.advance_rseq (w : Warp) (en : Word) (n : Nat) : (w.advance en n).rseq = w.rseq := rfl
@[simp] theorem Warp.advance_budget (w : Warp) (en : Word) (n : Nat) : (w.advance en n).budget = w.budget := rfl
@[simp] theorem Warp.advance_exited (w : Warp) (en : Word) (n : Nat) : (w.advance en n).exited = w.exited := rfl
@[simp] theorem Warp.advance_deferred (w : Warp) (en : Word) (n : Nat) : (w.advance en n).deferred = w.deferred := rfl
@[simp] theorem Warp.advance_delayed (w : Warp) (en : Word) (n : Nat) : (w.advance en n).delayed = w.delayed := rfl
@[simp] theorem Warp.advance_blocked (w : Warp) (en : Word) (n : Nat) : (w.advance en n).blocked = w.blocked := rfl
@[simp] theorem Warp.advance_parked (w : Warp) (en : Word) (n : Nat) : (w.advance en n).parked = w.parked := rfl
@[simp] theorem Warp.advance_susp (w : Warp) (en : Word) (n : Nat) : (w.advance en n).susp = w.susp := rfl
@[simp] theorem Warp.advance_rlimit (w : Warp) (en : Word) (n : Nat) : (w.advance en n).rlimit = w.rlimit := rfl
@[simp] theorem Warp.advance_rcount (w : Warp) (en : Word) (n : Nat) : (w.advance en n).rcount = w.rcount := rfl
@[simp] theorem Warp.advance_tcmp (w : Warp) (en : Word) (n : Nat) : (w.advance en n).tcmp = w.tcmp := rfl
@[simp] theorem Warp.advance_timer (w : Warp) (en : Word) (n : Nat) : (w.advance en n).timer = w.timer := rfl
@[simp] theorem Warp.advance_frec (w : Warp) (en : Word) (n : Nat) : (w.advance en n).frec = w.frec := rfl
@[simp] theorem Warp.advance_tclass (w : Warp) (en : Word) (n : Nat) : (w.advance en n).tclass = w.tclass := rfl
@[simp] theorem Warp.advance_rsb (w : Warp) (en : Word) (n : Nat) : (w.advance en n).rsb = w.rsb := rfl
@[simp] theorem Warp.advance_opbuf (w : Warp) (en : Word) (n : Nat) : (w.advance en n).opbuf = w.opbuf := rfl
@[simp] theorem Warp.advance_fc (w : Warp) (en : Word) (n : Nat) : (w.advance en n).fc = w.fc := rfl
@[simp] theorem Warp.advance_turn (w : Warp) (en : Word) (n : Nat) : (w.advance en n).turn = w.turn := rfl
@[simp] theorem Warp.advance_turnBits (w : Warp) (en : Word) (n : Nat) : (w.advance en n).turnBits = w.turnBits := rfl
@[simp] theorem Warp.advance_lastLanes (w : Warp) (en : Word) (n : Nat) : (w.advance en n).lastLanes = w.lastLanes := rfl
@[simp] theorem Warp.advance_lwc (w : Warp) (en : Word) (n : Nat) : (w.advance en n).lwc = w.lwc := rfl
@[simp] theorem Warp.advance_ewc (w : Warp) (en : Word) (n : Nat) : (w.advance en n).ewc = w.ewc := rfl
@[simp] theorem Warp.advance_lastIssue (w : Warp) (en : Word) (n : Nat) : (w.advance en n).lastIssue = w.lastIssue := rfl
@[simp] theorem Warp.advance_ready (w : Warp) (en : Word) (n : Nat) : (w.advance en n).ready = w.ready := rfl
@[simp] theorem Warp.advance_stage (w : Warp) (en : Word) (n : Nat) : (w.advance en n).stage = w.stage := rfl
@[simp] theorem Warp.advance_faults (w : Warp) (en : Word) (n : Nat) : (w.advance en n).faults = w.faults := rfl
@[simp] theorem Warp.advance_inv (w : Warp) (en : Word) (n : Nat) : (w.advance en n).inv = w.inv := rfl
@[simp] theorem Warp.advance_stopped (w : Warp) (en : Word) (n : Nat) : (w.advance en n).stopped = w.stopped := rfl
@[simp] theorem Warp.advance_loads (w : Warp) (en : Word) (n : Nat) : (w.advance en n).loads = w.loads := rfl
@[simp] theorem Warp.advance_inbox (w : Warp) (en : Word) (n : Nat) : (w.advance en n).inbox = w.inbox := rfl
@[simp] theorem Warp.advance_wr (w : Warp) (en : Word) (n : Nat) : (w.advance en n).wr = w.wr := rfl
@[simp] theorem Warp.advance_clean (w : Warp) (en : Word) (n : Nat) : (w.advance en n).clean = w.clean := rfl
@[simp] theorem Warp.setK_ctx (w : Warp) (n : Nat) (v : DWord) : (w.setK n v).ctx = w.ctx := rfl
@[simp] theorem Warp.setK_blk (w : Warp) (n : Nat) (v : DWord) : (w.setK n v).blk = w.blk := rfl
@[simp] theorem Warp.setK_widx (w : Warp) (n : Nat) (v : DWord) : (w.setK n v).widx = w.widx := rfl
@[simp] theorem Warp.setK_level (w : Warp) (n : Nat) (v : DWord) : (w.setK n v).level = w.level := rfl
@[simp] theorem Warp.setK_regs (w : Warp) (n : Nat) (v : DWord) : (w.setK n v).regs = w.regs := rfl
@[simp] theorem Warp.setK_regs0 (w : Warp) (n : Nat) (v : DWord) : (w.setK n v).regs0 = w.regs0 := rfl
@[simp] theorem Warp.setK_lean (w : Warp) (n : Nat) (v : DWord) : (w.setK n v).lean = w.lean := rfl
@[simp] theorem Warp.setK_x (w : Warp) (n : Nat) (v : DWord) : (w.setK n v).x = w.x := rfl
@[simp] theorem Warp.setK_m (w : Warp) (n : Nat) (v : DWord) : (w.setK n v).m = w.m := rfl
@[simp] theorem Warp.setK_pcv (w : Warp) (n : Nat) (v : DWord) : (w.setK n v).pcv = w.pcv := rfl
@[simp] theorem Warp.setK_rev (w : Warp) (n : Nat) (v : DWord) : (w.setK n v).rev = w.rev := rfl
@[simp] theorem Warp.setK_rseq (w : Warp) (n : Nat) (v : DWord) : (w.setK n v).rseq = w.rseq := rfl
@[simp] theorem Warp.setK_budget (w : Warp) (n : Nat) (v : DWord) : (w.setK n v).budget = w.budget := rfl
@[simp] theorem Warp.setK_exited (w : Warp) (n : Nat) (v : DWord) : (w.setK n v).exited = w.exited := rfl
@[simp] theorem Warp.setK_deferred (w : Warp) (n : Nat) (v : DWord) : (w.setK n v).deferred = w.deferred := rfl
@[simp] theorem Warp.setK_delayed (w : Warp) (n : Nat) (v : DWord) : (w.setK n v).delayed = w.delayed := rfl
@[simp] theorem Warp.setK_blocked (w : Warp) (n : Nat) (v : DWord) : (w.setK n v).blocked = w.blocked := rfl
@[simp] theorem Warp.setK_parked (w : Warp) (n : Nat) (v : DWord) : (w.setK n v).parked = w.parked := rfl
@[simp] theorem Warp.setK_susp (w : Warp) (n : Nat) (v : DWord) : (w.setK n v).susp = w.susp := rfl
@[simp] theorem Warp.setK_rlimit (w : Warp) (n : Nat) (v : DWord) : (w.setK n v).rlimit = w.rlimit := rfl
@[simp] theorem Warp.setK_rcount (w : Warp) (n : Nat) (v : DWord) : (w.setK n v).rcount = w.rcount := rfl
@[simp] theorem Warp.setK_tcmp (w : Warp) (n : Nat) (v : DWord) : (w.setK n v).tcmp = w.tcmp := rfl
@[simp] theorem Warp.setK_timer (w : Warp) (n : Nat) (v : DWord) : (w.setK n v).timer = w.timer := rfl
@[simp] theorem Warp.setK_frec (w : Warp) (n : Nat) (v : DWord) : (w.setK n v).frec = w.frec := rfl
@[simp] theorem Warp.setK_tclass (w : Warp) (n : Nat) (v : DWord) : (w.setK n v).tclass = w.tclass := rfl
@[simp] theorem Warp.setK_rsb (w : Warp) (n : Nat) (v : DWord) : (w.setK n v).rsb = w.rsb := rfl
@[simp] theorem Warp.setK_opbuf (w : Warp) (n : Nat) (v : DWord) : (w.setK n v).opbuf = w.opbuf := rfl
@[simp] theorem Warp.setK_fc (w : Warp) (n : Nat) (v : DWord) : (w.setK n v).fc = w.fc := rfl
@[simp] theorem Warp.setK_turn (w : Warp) (n : Nat) (v : DWord) : (w.setK n v).turn = w.turn := rfl
@[simp] theorem Warp.setK_turnBits (w : Warp) (n : Nat) (v : DWord) : (w.setK n v).turnBits = w.turnBits := rfl
@[simp] theorem Warp.setK_lastLanes (w : Warp) (n : Nat) (v : DWord) : (w.setK n v).lastLanes = w.lastLanes := rfl
@[simp] theorem Warp.setK_lwc (w : Warp) (n : Nat) (v : DWord) : (w.setK n v).lwc = w.lwc := rfl
@[simp] theorem Warp.setK_ewc (w : Warp) (n : Nat) (v : DWord) : (w.setK n v).ewc = w.ewc := rfl
@[simp] theorem Warp.setK_lastIssue (w : Warp) (n : Nat) (v : DWord) : (w.setK n v).lastIssue = w.lastIssue := rfl
@[simp] theorem Warp.setK_ready (w : Warp) (n : Nat) (v : DWord) : (w.setK n v).ready = w.ready := rfl
@[simp] theorem Warp.setK_stage (w : Warp) (n : Nat) (v : DWord) : (w.setK n v).stage = w.stage := rfl
@[simp] theorem Warp.setK_faults (w : Warp) (n : Nat) (v : DWord) : (w.setK n v).faults = w.faults := rfl
@[simp] theorem Warp.setK_inv (w : Warp) (n : Nat) (v : DWord) : (w.setK n v).inv = w.inv := rfl
@[simp] theorem Warp.setK_stopped (w : Warp) (n : Nat) (v : DWord) : (w.setK n v).stopped = w.stopped := rfl
@[simp] theorem Warp.setK_loads (w : Warp) (n : Nat) (v : DWord) : (w.setK n v).loads = w.loads := rfl
@[simp] theorem Warp.setK_inbox (w : Warp) (n : Nat) (v : DWord) : (w.setK n v).inbox = w.inbox := rfl
@[simp] theorem Warp.setK_wr (w : Warp) (n : Nat) (v : DWord) : (w.setK n v).wr = w.wr := rfl
@[simp] theorem Warp.setK_clean (w : Warp) (n : Nat) (v : DWord) : (w.setK n v).clean = w.clean := rfl
@[simp] theorem Warp.setM_ctx (w : Warp) (n : Nat) (v : Word) : (w.setM n v).ctx = w.ctx := rfl
@[simp] theorem Warp.setM_blk (w : Warp) (n : Nat) (v : Word) : (w.setM n v).blk = w.blk := rfl
@[simp] theorem Warp.setM_widx (w : Warp) (n : Nat) (v : Word) : (w.setM n v).widx = w.widx := rfl
@[simp] theorem Warp.setM_level (w : Warp) (n : Nat) (v : Word) : (w.setM n v).level = w.level := rfl
@[simp] theorem Warp.setM_regs (w : Warp) (n : Nat) (v : Word) : (w.setM n v).regs = w.regs := rfl
@[simp] theorem Warp.setM_regs0 (w : Warp) (n : Nat) (v : Word) : (w.setM n v).regs0 = w.regs0 := rfl
@[simp] theorem Warp.setM_lean (w : Warp) (n : Nat) (v : Word) : (w.setM n v).lean = w.lean := rfl
@[simp] theorem Warp.setM_x (w : Warp) (n : Nat) (v : Word) : (w.setM n v).x = w.x := rfl
@[simp] theorem Warp.setM_k (w : Warp) (n : Nat) (v : Word) : (w.setM n v).k = w.k := rfl
@[simp] theorem Warp.setM_pcv (w : Warp) (n : Nat) (v : Word) : (w.setM n v).pcv = w.pcv := rfl
@[simp] theorem Warp.setM_rev (w : Warp) (n : Nat) (v : Word) : (w.setM n v).rev = w.rev := rfl
@[simp] theorem Warp.setM_rseq (w : Warp) (n : Nat) (v : Word) : (w.setM n v).rseq = w.rseq := rfl
@[simp] theorem Warp.setM_budget (w : Warp) (n : Nat) (v : Word) : (w.setM n v).budget = w.budget := rfl
@[simp] theorem Warp.setM_exited (w : Warp) (n : Nat) (v : Word) : (w.setM n v).exited = w.exited := rfl
@[simp] theorem Warp.setM_deferred (w : Warp) (n : Nat) (v : Word) : (w.setM n v).deferred = w.deferred := rfl
@[simp] theorem Warp.setM_delayed (w : Warp) (n : Nat) (v : Word) : (w.setM n v).delayed = w.delayed := rfl
@[simp] theorem Warp.setM_blocked (w : Warp) (n : Nat) (v : Word) : (w.setM n v).blocked = w.blocked := rfl
@[simp] theorem Warp.setM_parked (w : Warp) (n : Nat) (v : Word) : (w.setM n v).parked = w.parked := rfl
@[simp] theorem Warp.setM_susp (w : Warp) (n : Nat) (v : Word) : (w.setM n v).susp = w.susp := rfl
@[simp] theorem Warp.setM_rlimit (w : Warp) (n : Nat) (v : Word) : (w.setM n v).rlimit = w.rlimit := rfl
@[simp] theorem Warp.setM_rcount (w : Warp) (n : Nat) (v : Word) : (w.setM n v).rcount = w.rcount := rfl
@[simp] theorem Warp.setM_tcmp (w : Warp) (n : Nat) (v : Word) : (w.setM n v).tcmp = w.tcmp := rfl
@[simp] theorem Warp.setM_timer (w : Warp) (n : Nat) (v : Word) : (w.setM n v).timer = w.timer := rfl
@[simp] theorem Warp.setM_frec (w : Warp) (n : Nat) (v : Word) : (w.setM n v).frec = w.frec := rfl
@[simp] theorem Warp.setM_tclass (w : Warp) (n : Nat) (v : Word) : (w.setM n v).tclass = w.tclass := rfl
@[simp] theorem Warp.setM_rsb (w : Warp) (n : Nat) (v : Word) : (w.setM n v).rsb = w.rsb := rfl
@[simp] theorem Warp.setM_opbuf (w : Warp) (n : Nat) (v : Word) : (w.setM n v).opbuf = w.opbuf := rfl
@[simp] theorem Warp.setM_fc (w : Warp) (n : Nat) (v : Word) : (w.setM n v).fc = w.fc := rfl
@[simp] theorem Warp.setM_turn (w : Warp) (n : Nat) (v : Word) : (w.setM n v).turn = w.turn := rfl
@[simp] theorem Warp.setM_turnBits (w : Warp) (n : Nat) (v : Word) : (w.setM n v).turnBits = w.turnBits := rfl
@[simp] theorem Warp.setM_lastLanes (w : Warp) (n : Nat) (v : Word) : (w.setM n v).lastLanes = w.lastLanes := rfl
@[simp] theorem Warp.setM_lwc (w : Warp) (n : Nat) (v : Word) : (w.setM n v).lwc = w.lwc := rfl
@[simp] theorem Warp.setM_ewc (w : Warp) (n : Nat) (v : Word) : (w.setM n v).ewc = w.ewc := rfl
@[simp] theorem Warp.setM_lastIssue (w : Warp) (n : Nat) (v : Word) : (w.setM n v).lastIssue = w.lastIssue := rfl
@[simp] theorem Warp.setM_ready (w : Warp) (n : Nat) (v : Word) : (w.setM n v).ready = w.ready := rfl
@[simp] theorem Warp.setM_stage (w : Warp) (n : Nat) (v : Word) : (w.setM n v).stage = w.stage := rfl
@[simp] theorem Warp.setM_faults (w : Warp) (n : Nat) (v : Word) : (w.setM n v).faults = w.faults := rfl
@[simp] theorem Warp.setM_inv (w : Warp) (n : Nat) (v : Word) : (w.setM n v).inv = w.inv := rfl
@[simp] theorem Warp.setM_stopped (w : Warp) (n : Nat) (v : Word) : (w.setM n v).stopped = w.stopped := rfl
@[simp] theorem Warp.setM_loads (w : Warp) (n : Nat) (v : Word) : (w.setM n v).loads = w.loads := rfl
@[simp] theorem Warp.setM_inbox (w : Warp) (n : Nat) (v : Word) : (w.setM n v).inbox = w.inbox := rfl
@[simp] theorem Warp.setM_wr (w : Warp) (n : Nat) (v : Word) : (w.setM n v).wr = w.wr := rfl
@[simp] theorem Warp.setM_clean (w : Warp) (n : Nat) (v : Word) : (w.setM n v).clean = w.clean := rfl
@[simp] theorem Warp.setX_ctx (w : Warp) (n : Nat) (en : Word) (f : Nat → Word) : (w.setX n en f).ctx = w.ctx := by unfold Warp.setX; split <;> rfl
@[simp] theorem Warp.setX_blk (w : Warp) (n : Nat) (en : Word) (f : Nat → Word) : (w.setX n en f).blk = w.blk := by unfold Warp.setX; split <;> rfl
@[simp] theorem Warp.setX_widx (w : Warp) (n : Nat) (en : Word) (f : Nat → Word) : (w.setX n en f).widx = w.widx := by unfold Warp.setX; split <;> rfl
@[simp] theorem Warp.setX_level (w : Warp) (n : Nat) (en : Word) (f : Nat → Word) : (w.setX n en f).level = w.level := by unfold Warp.setX; split <;> rfl
@[simp] theorem Warp.setX_regs (w : Warp) (n : Nat) (en : Word) (f : Nat → Word) : (w.setX n en f).regs = w.regs := by unfold Warp.setX; split <;> rfl
@[simp] theorem Warp.setX_regs0 (w : Warp) (n : Nat) (en : Word) (f : Nat → Word) : (w.setX n en f).regs0 = w.regs0 := by unfold Warp.setX; split <;> rfl
@[simp] theorem Warp.setX_lean (w : Warp) (n : Nat) (en : Word) (f : Nat → Word) : (w.setX n en f).lean = w.lean := by unfold Warp.setX; split <;> rfl
@[simp] theorem Warp.setX_k (w : Warp) (n : Nat) (en : Word) (f : Nat → Word) : (w.setX n en f).k = w.k := by unfold Warp.setX; split <;> rfl
@[simp] theorem Warp.setX_m (w : Warp) (n : Nat) (en : Word) (f : Nat → Word) : (w.setX n en f).m = w.m := by unfold Warp.setX; split <;> rfl
@[simp] theorem Warp.setX_pcv (w : Warp) (n : Nat) (en : Word) (f : Nat → Word) : (w.setX n en f).pcv = w.pcv := by unfold Warp.setX; split <;> rfl
@[simp] theorem Warp.setX_rev (w : Warp) (n : Nat) (en : Word) (f : Nat → Word) : (w.setX n en f).rev = w.rev := by unfold Warp.setX; split <;> rfl
@[simp] theorem Warp.setX_rseq (w : Warp) (n : Nat) (en : Word) (f : Nat → Word) : (w.setX n en f).rseq = w.rseq := by unfold Warp.setX; split <;> rfl
@[simp] theorem Warp.setX_budget (w : Warp) (n : Nat) (en : Word) (f : Nat → Word) : (w.setX n en f).budget = w.budget := by unfold Warp.setX; split <;> rfl
@[simp] theorem Warp.setX_exited (w : Warp) (n : Nat) (en : Word) (f : Nat → Word) : (w.setX n en f).exited = w.exited := by unfold Warp.setX; split <;> rfl
@[simp] theorem Warp.setX_deferred (w : Warp) (n : Nat) (en : Word) (f : Nat → Word) : (w.setX n en f).deferred = w.deferred := by unfold Warp.setX; split <;> rfl
@[simp] theorem Warp.setX_delayed (w : Warp) (n : Nat) (en : Word) (f : Nat → Word) : (w.setX n en f).delayed = w.delayed := by unfold Warp.setX; split <;> rfl
@[simp] theorem Warp.setX_blocked (w : Warp) (n : Nat) (en : Word) (f : Nat → Word) : (w.setX n en f).blocked = w.blocked := by unfold Warp.setX; split <;> rfl
@[simp] theorem Warp.setX_parked (w : Warp) (n : Nat) (en : Word) (f : Nat → Word) : (w.setX n en f).parked = w.parked := by unfold Warp.setX; split <;> rfl
@[simp] theorem Warp.setX_susp (w : Warp) (n : Nat) (en : Word) (f : Nat → Word) : (w.setX n en f).susp = w.susp := by unfold Warp.setX; split <;> rfl
@[simp] theorem Warp.setX_rlimit (w : Warp) (n : Nat) (en : Word) (f : Nat → Word) : (w.setX n en f).rlimit = w.rlimit := by unfold Warp.setX; split <;> rfl
@[simp] theorem Warp.setX_rcount (w : Warp) (n : Nat) (en : Word) (f : Nat → Word) : (w.setX n en f).rcount = w.rcount := by unfold Warp.setX; split <;> rfl
@[simp] theorem Warp.setX_tcmp (w : Warp) (n : Nat) (en : Word) (f : Nat → Word) : (w.setX n en f).tcmp = w.tcmp := by unfold Warp.setX; split <;> rfl
@[simp] theorem Warp.setX_timer (w : Warp) (n : Nat) (en : Word) (f : Nat → Word) : (w.setX n en f).timer = w.timer := by unfold Warp.setX; split <;> rfl
@[simp] theorem Warp.setX_frec (w : Warp) (n : Nat) (en : Word) (f : Nat → Word) : (w.setX n en f).frec = w.frec := by unfold Warp.setX; split <;> rfl
@[simp] theorem Warp.setX_tclass (w : Warp) (n : Nat) (en : Word) (f : Nat → Word) : (w.setX n en f).tclass = w.tclass := by unfold Warp.setX; split <;> rfl
@[simp] theorem Warp.setX_rsb (w : Warp) (n : Nat) (en : Word) (f : Nat → Word) : (w.setX n en f).rsb = w.rsb := by unfold Warp.setX; split <;> rfl
@[simp] theorem Warp.setX_fc (w : Warp) (n : Nat) (en : Word) (f : Nat → Word) : (w.setX n en f).fc = w.fc := by unfold Warp.setX; split <;> rfl
@[simp] theorem Warp.setX_turn (w : Warp) (n : Nat) (en : Word) (f : Nat → Word) : (w.setX n en f).turn = w.turn := by unfold Warp.setX; split <;> rfl
@[simp] theorem Warp.setX_turnBits (w : Warp) (n : Nat) (en : Word) (f : Nat → Word) : (w.setX n en f).turnBits = w.turnBits := by unfold Warp.setX; split <;> rfl
@[simp] theorem Warp.setX_lastLanes (w : Warp) (n : Nat) (en : Word) (f : Nat → Word) : (w.setX n en f).lastLanes = w.lastLanes := by unfold Warp.setX; split <;> rfl
@[simp] theorem Warp.setX_lwc (w : Warp) (n : Nat) (en : Word) (f : Nat → Word) : (w.setX n en f).lwc = w.lwc := by unfold Warp.setX; split <;> rfl
@[simp] theorem Warp.setX_ewc (w : Warp) (n : Nat) (en : Word) (f : Nat → Word) : (w.setX n en f).ewc = w.ewc := by unfold Warp.setX; split <;> rfl
@[simp] theorem Warp.setX_lastIssue (w : Warp) (n : Nat) (en : Word) (f : Nat → Word) : (w.setX n en f).lastIssue = w.lastIssue := by unfold Warp.setX; split <;> rfl
@[simp] theorem Warp.setX_ready (w : Warp) (n : Nat) (en : Word) (f : Nat → Word) : (w.setX n en f).ready = w.ready := by unfold Warp.setX; split <;> rfl
@[simp] theorem Warp.setX_stage (w : Warp) (n : Nat) (en : Word) (f : Nat → Word) : (w.setX n en f).stage = w.stage := by unfold Warp.setX; split <;> rfl
@[simp] theorem Warp.setX_faults (w : Warp) (n : Nat) (en : Word) (f : Nat → Word) : (w.setX n en f).faults = w.faults := by unfold Warp.setX; split <;> rfl
@[simp] theorem Warp.setX_inv (w : Warp) (n : Nat) (en : Word) (f : Nat → Word) : (w.setX n en f).inv = w.inv := by unfold Warp.setX; split <;> rfl
@[simp] theorem Warp.setX_stopped (w : Warp) (n : Nat) (en : Word) (f : Nat → Word) : (w.setX n en f).stopped = w.stopped := by unfold Warp.setX; split <;> rfl
@[simp] theorem Warp.setX_loads (w : Warp) (n : Nat) (en : Word) (f : Nat → Word) : (w.setX n en f).loads = w.loads := by unfold Warp.setX; split <;> rfl
@[simp] theorem Warp.setX_inbox (w : Warp) (n : Nat) (en : Word) (f : Nat → Word) : (w.setX n en f).inbox = w.inbox := by unfold Warp.setX; split <;> rfl
@[simp] theorem Warp.setXn_ctx (w : Warp) (wide : Bool) (n : Nat) (en : Word) (f : Nat → DWord) : (w.setXn wide n en f).ctx = w.ctx := by unfold Warp.setXn; split <;> simp
@[simp] theorem Warp.setXn_blk (w : Warp) (wide : Bool) (n : Nat) (en : Word) (f : Nat → DWord) : (w.setXn wide n en f).blk = w.blk := by unfold Warp.setXn; split <;> simp
@[simp] theorem Warp.setXn_widx (w : Warp) (wide : Bool) (n : Nat) (en : Word) (f : Nat → DWord) : (w.setXn wide n en f).widx = w.widx := by unfold Warp.setXn; split <;> simp
@[simp] theorem Warp.setXn_level (w : Warp) (wide : Bool) (n : Nat) (en : Word) (f : Nat → DWord) : (w.setXn wide n en f).level = w.level := by unfold Warp.setXn; split <;> simp
@[simp] theorem Warp.setXn_regs (w : Warp) (wide : Bool) (n : Nat) (en : Word) (f : Nat → DWord) : (w.setXn wide n en f).regs = w.regs := by unfold Warp.setXn; split <;> simp
@[simp] theorem Warp.setXn_regs0 (w : Warp) (wide : Bool) (n : Nat) (en : Word) (f : Nat → DWord) : (w.setXn wide n en f).regs0 = w.regs0 := by unfold Warp.setXn; split <;> simp
@[simp] theorem Warp.setXn_lean (w : Warp) (wide : Bool) (n : Nat) (en : Word) (f : Nat → DWord) : (w.setXn wide n en f).lean = w.lean := by unfold Warp.setXn; split <;> simp
@[simp] theorem Warp.setXn_k (w : Warp) (wide : Bool) (n : Nat) (en : Word) (f : Nat → DWord) : (w.setXn wide n en f).k = w.k := by unfold Warp.setXn; split <;> simp
@[simp] theorem Warp.setXn_m (w : Warp) (wide : Bool) (n : Nat) (en : Word) (f : Nat → DWord) : (w.setXn wide n en f).m = w.m := by unfold Warp.setXn; split <;> simp
@[simp] theorem Warp.setXn_pcv (w : Warp) (wide : Bool) (n : Nat) (en : Word) (f : Nat → DWord) : (w.setXn wide n en f).pcv = w.pcv := by unfold Warp.setXn; split <;> simp
@[simp] theorem Warp.setXn_rev (w : Warp) (wide : Bool) (n : Nat) (en : Word) (f : Nat → DWord) : (w.setXn wide n en f).rev = w.rev := by unfold Warp.setXn; split <;> simp
@[simp] theorem Warp.setXn_rseq (w : Warp) (wide : Bool) (n : Nat) (en : Word) (f : Nat → DWord) : (w.setXn wide n en f).rseq = w.rseq := by unfold Warp.setXn; split <;> simp
@[simp] theorem Warp.setXn_budget (w : Warp) (wide : Bool) (n : Nat) (en : Word) (f : Nat → DWord) : (w.setXn wide n en f).budget = w.budget := by unfold Warp.setXn; split <;> simp
@[simp] theorem Warp.setXn_exited (w : Warp) (wide : Bool) (n : Nat) (en : Word) (f : Nat → DWord) : (w.setXn wide n en f).exited = w.exited := by unfold Warp.setXn; split <;> simp
@[simp] theorem Warp.setXn_deferred (w : Warp) (wide : Bool) (n : Nat) (en : Word) (f : Nat → DWord) : (w.setXn wide n en f).deferred = w.deferred := by unfold Warp.setXn; split <;> simp
@[simp] theorem Warp.setXn_delayed (w : Warp) (wide : Bool) (n : Nat) (en : Word) (f : Nat → DWord) : (w.setXn wide n en f).delayed = w.delayed := by unfold Warp.setXn; split <;> simp
@[simp] theorem Warp.setXn_blocked (w : Warp) (wide : Bool) (n : Nat) (en : Word) (f : Nat → DWord) : (w.setXn wide n en f).blocked = w.blocked := by unfold Warp.setXn; split <;> simp
@[simp] theorem Warp.setXn_parked (w : Warp) (wide : Bool) (n : Nat) (en : Word) (f : Nat → DWord) : (w.setXn wide n en f).parked = w.parked := by unfold Warp.setXn; split <;> simp
@[simp] theorem Warp.setXn_susp (w : Warp) (wide : Bool) (n : Nat) (en : Word) (f : Nat → DWord) : (w.setXn wide n en f).susp = w.susp := by unfold Warp.setXn; split <;> simp
@[simp] theorem Warp.setXn_rlimit (w : Warp) (wide : Bool) (n : Nat) (en : Word) (f : Nat → DWord) : (w.setXn wide n en f).rlimit = w.rlimit := by unfold Warp.setXn; split <;> simp
@[simp] theorem Warp.setXn_rcount (w : Warp) (wide : Bool) (n : Nat) (en : Word) (f : Nat → DWord) : (w.setXn wide n en f).rcount = w.rcount := by unfold Warp.setXn; split <;> simp
@[simp] theorem Warp.setXn_tcmp (w : Warp) (wide : Bool) (n : Nat) (en : Word) (f : Nat → DWord) : (w.setXn wide n en f).tcmp = w.tcmp := by unfold Warp.setXn; split <;> simp
@[simp] theorem Warp.setXn_timer (w : Warp) (wide : Bool) (n : Nat) (en : Word) (f : Nat → DWord) : (w.setXn wide n en f).timer = w.timer := by unfold Warp.setXn; split <;> simp
@[simp] theorem Warp.setXn_frec (w : Warp) (wide : Bool) (n : Nat) (en : Word) (f : Nat → DWord) : (w.setXn wide n en f).frec = w.frec := by unfold Warp.setXn; split <;> simp
@[simp] theorem Warp.setXn_tclass (w : Warp) (wide : Bool) (n : Nat) (en : Word) (f : Nat → DWord) : (w.setXn wide n en f).tclass = w.tclass := by unfold Warp.setXn; split <;> simp
@[simp] theorem Warp.setXn_rsb (w : Warp) (wide : Bool) (n : Nat) (en : Word) (f : Nat → DWord) : (w.setXn wide n en f).rsb = w.rsb := by unfold Warp.setXn; split <;> simp
@[simp] theorem Warp.setXn_fc (w : Warp) (wide : Bool) (n : Nat) (en : Word) (f : Nat → DWord) : (w.setXn wide n en f).fc = w.fc := by unfold Warp.setXn; split <;> simp
@[simp] theorem Warp.setXn_turn (w : Warp) (wide : Bool) (n : Nat) (en : Word) (f : Nat → DWord) : (w.setXn wide n en f).turn = w.turn := by unfold Warp.setXn; split <;> simp
@[simp] theorem Warp.setXn_turnBits (w : Warp) (wide : Bool) (n : Nat) (en : Word) (f : Nat → DWord) : (w.setXn wide n en f).turnBits = w.turnBits := by unfold Warp.setXn; split <;> simp
@[simp] theorem Warp.setXn_lastLanes (w : Warp) (wide : Bool) (n : Nat) (en : Word) (f : Nat → DWord) : (w.setXn wide n en f).lastLanes = w.lastLanes := by unfold Warp.setXn; split <;> simp
@[simp] theorem Warp.setXn_lwc (w : Warp) (wide : Bool) (n : Nat) (en : Word) (f : Nat → DWord) : (w.setXn wide n en f).lwc = w.lwc := by unfold Warp.setXn; split <;> simp
@[simp] theorem Warp.setXn_ewc (w : Warp) (wide : Bool) (n : Nat) (en : Word) (f : Nat → DWord) : (w.setXn wide n en f).ewc = w.ewc := by unfold Warp.setXn; split <;> simp
@[simp] theorem Warp.setXn_lastIssue (w : Warp) (wide : Bool) (n : Nat) (en : Word) (f : Nat → DWord) : (w.setXn wide n en f).lastIssue = w.lastIssue := by unfold Warp.setXn; split <;> simp
@[simp] theorem Warp.setXn_ready (w : Warp) (wide : Bool) (n : Nat) (en : Word) (f : Nat → DWord) : (w.setXn wide n en f).ready = w.ready := by unfold Warp.setXn; split <;> simp
@[simp] theorem Warp.setXn_stage (w : Warp) (wide : Bool) (n : Nat) (en : Word) (f : Nat → DWord) : (w.setXn wide n en f).stage = w.stage := by unfold Warp.setXn; split <;> simp
@[simp] theorem Warp.setXn_faults (w : Warp) (wide : Bool) (n : Nat) (en : Word) (f : Nat → DWord) : (w.setXn wide n en f).faults = w.faults := by unfold Warp.setXn; split <;> simp
@[simp] theorem Warp.setXn_inv (w : Warp) (wide : Bool) (n : Nat) (en : Word) (f : Nat → DWord) : (w.setXn wide n en f).inv = w.inv := by unfold Warp.setXn; split <;> simp
@[simp] theorem Warp.setXn_stopped (w : Warp) (wide : Bool) (n : Nat) (en : Word) (f : Nat → DWord) : (w.setXn wide n en f).stopped = w.stopped := by unfold Warp.setXn; split <;> simp
@[simp] theorem Warp.setXn_loads (w : Warp) (wide : Bool) (n : Nat) (en : Word) (f : Nat → DWord) : (w.setXn wide n en f).loads = w.loads := by unfold Warp.setXn; split <;> simp
@[simp] theorem Warp.setXn_inbox (w : Warp) (wide : Bool) (n : Nat) (en : Word) (f : Nat → DWord) : (w.setXn wide n en f).inbox = w.inbox := by unfold Warp.setXn; split <;> simp
@[simp] theorem Warp.setBudget_ctx (w : Warp) (en : Word) (b : Nat) : (w.setBudget en b).ctx = w.ctx := rfl
@[simp] theorem Warp.setBudget_blk (w : Warp) (en : Word) (b : Nat) : (w.setBudget en b).blk = w.blk := rfl
@[simp] theorem Warp.setBudget_widx (w : Warp) (en : Word) (b : Nat) : (w.setBudget en b).widx = w.widx := rfl
@[simp] theorem Warp.setBudget_level (w : Warp) (en : Word) (b : Nat) : (w.setBudget en b).level = w.level := rfl
@[simp] theorem Warp.setBudget_regs (w : Warp) (en : Word) (b : Nat) : (w.setBudget en b).regs = w.regs := rfl
@[simp] theorem Warp.setBudget_regs0 (w : Warp) (en : Word) (b : Nat) : (w.setBudget en b).regs0 = w.regs0 := rfl
@[simp] theorem Warp.setBudget_lean (w : Warp) (en : Word) (b : Nat) : (w.setBudget en b).lean = w.lean := rfl
@[simp] theorem Warp.setBudget_x (w : Warp) (en : Word) (b : Nat) : (w.setBudget en b).x = w.x := rfl
@[simp] theorem Warp.setBudget_k (w : Warp) (en : Word) (b : Nat) : (w.setBudget en b).k = w.k := rfl
@[simp] theorem Warp.setBudget_m (w : Warp) (en : Word) (b : Nat) : (w.setBudget en b).m = w.m := rfl
@[simp] theorem Warp.setBudget_pcv (w : Warp) (en : Word) (b : Nat) : (w.setBudget en b).pcv = w.pcv := rfl
@[simp] theorem Warp.setBudget_rev (w : Warp) (en : Word) (b : Nat) : (w.setBudget en b).rev = w.rev := rfl
@[simp] theorem Warp.setBudget_rseq (w : Warp) (en : Word) (b : Nat) : (w.setBudget en b).rseq = w.rseq := rfl
@[simp] theorem Warp.setBudget_exited (w : Warp) (en : Word) (b : Nat) : (w.setBudget en b).exited = w.exited := rfl
@[simp] theorem Warp.setBudget_deferred (w : Warp) (en : Word) (b : Nat) : (w.setBudget en b).deferred = w.deferred := rfl
@[simp] theorem Warp.setBudget_delayed (w : Warp) (en : Word) (b : Nat) : (w.setBudget en b).delayed = w.delayed := rfl
@[simp] theorem Warp.setBudget_blocked (w : Warp) (en : Word) (b : Nat) : (w.setBudget en b).blocked = w.blocked := rfl
@[simp] theorem Warp.setBudget_parked (w : Warp) (en : Word) (b : Nat) : (w.setBudget en b).parked = w.parked := rfl
@[simp] theorem Warp.setBudget_susp (w : Warp) (en : Word) (b : Nat) : (w.setBudget en b).susp = w.susp := rfl
@[simp] theorem Warp.setBudget_rlimit (w : Warp) (en : Word) (b : Nat) : (w.setBudget en b).rlimit = w.rlimit := rfl
@[simp] theorem Warp.setBudget_rcount (w : Warp) (en : Word) (b : Nat) : (w.setBudget en b).rcount = w.rcount := rfl
@[simp] theorem Warp.setBudget_tcmp (w : Warp) (en : Word) (b : Nat) : (w.setBudget en b).tcmp = w.tcmp := rfl
@[simp] theorem Warp.setBudget_timer (w : Warp) (en : Word) (b : Nat) : (w.setBudget en b).timer = w.timer := rfl
@[simp] theorem Warp.setBudget_frec (w : Warp) (en : Word) (b : Nat) : (w.setBudget en b).frec = w.frec := rfl
@[simp] theorem Warp.setBudget_tclass (w : Warp) (en : Word) (b : Nat) : (w.setBudget en b).tclass = w.tclass := rfl
@[simp] theorem Warp.setBudget_rsb (w : Warp) (en : Word) (b : Nat) : (w.setBudget en b).rsb = w.rsb := rfl
@[simp] theorem Warp.setBudget_opbuf (w : Warp) (en : Word) (b : Nat) : (w.setBudget en b).opbuf = w.opbuf := rfl
@[simp] theorem Warp.setBudget_fc (w : Warp) (en : Word) (b : Nat) : (w.setBudget en b).fc = w.fc := rfl
@[simp] theorem Warp.setBudget_turn (w : Warp) (en : Word) (b : Nat) : (w.setBudget en b).turn = w.turn := rfl
@[simp] theorem Warp.setBudget_turnBits (w : Warp) (en : Word) (b : Nat) : (w.setBudget en b).turnBits = w.turnBits := rfl
@[simp] theorem Warp.setBudget_lastLanes (w : Warp) (en : Word) (b : Nat) : (w.setBudget en b).lastLanes = w.lastLanes := rfl
@[simp] theorem Warp.setBudget_lwc (w : Warp) (en : Word) (b : Nat) : (w.setBudget en b).lwc = w.lwc := rfl
@[simp] theorem Warp.setBudget_ewc (w : Warp) (en : Word) (b : Nat) : (w.setBudget en b).ewc = w.ewc := rfl
@[simp] theorem Warp.setBudget_lastIssue (w : Warp) (en : Word) (b : Nat) : (w.setBudget en b).lastIssue = w.lastIssue := rfl
@[simp] theorem Warp.setBudget_ready (w : Warp) (en : Word) (b : Nat) : (w.setBudget en b).ready = w.ready := rfl
@[simp] theorem Warp.setBudget_stage (w : Warp) (en : Word) (b : Nat) : (w.setBudget en b).stage = w.stage := rfl
@[simp] theorem Warp.setBudget_faults (w : Warp) (en : Word) (b : Nat) : (w.setBudget en b).faults = w.faults := rfl
@[simp] theorem Warp.setBudget_inv (w : Warp) (en : Word) (b : Nat) : (w.setBudget en b).inv = w.inv := rfl
@[simp] theorem Warp.setBudget_stopped (w : Warp) (en : Word) (b : Nat) : (w.setBudget en b).stopped = w.stopped := rfl
@[simp] theorem Warp.setBudget_loads (w : Warp) (en : Word) (b : Nat) : (w.setBudget en b).loads = w.loads := rfl
@[simp] theorem Warp.setBudget_inbox (w : Warp) (en : Word) (b : Nat) : (w.setBudget en b).inbox = w.inbox := rfl
@[simp] theorem Warp.setBudget_wr (w : Warp) (en : Word) (b : Nat) : (w.setBudget en b).wr = w.wr := rfl
@[simp] theorem Warp.setBudget_clean (w : Warp) (en : Word) (b : Nat) : (w.setBudget en b).clean = w.clean := rfl
@[simp] theorem Warp.release_ctx (w : Warp) (en : Word) (p : DWord) : (w.release en p).ctx = w.ctx := rfl
@[simp] theorem Warp.release_blk (w : Warp) (en : Word) (p : DWord) : (w.release en p).blk = w.blk := rfl
@[simp] theorem Warp.release_widx (w : Warp) (en : Word) (p : DWord) : (w.release en p).widx = w.widx := rfl
@[simp] theorem Warp.release_level (w : Warp) (en : Word) (p : DWord) : (w.release en p).level = w.level := rfl
@[simp] theorem Warp.release_regs (w : Warp) (en : Word) (p : DWord) : (w.release en p).regs = w.regs := rfl
@[simp] theorem Warp.release_regs0 (w : Warp) (en : Word) (p : DWord) : (w.release en p).regs0 = w.regs0 := rfl
@[simp] theorem Warp.release_lean (w : Warp) (en : Word) (p : DWord) : (w.release en p).lean = w.lean := rfl
@[simp] theorem Warp.release_x (w : Warp) (en : Word) (p : DWord) : (w.release en p).x = w.x := rfl
@[simp] theorem Warp.release_k (w : Warp) (en : Word) (p : DWord) : (w.release en p).k = w.k := rfl
@[simp] theorem Warp.release_m (w : Warp) (en : Word) (p : DWord) : (w.release en p).m = w.m := rfl
@[simp] theorem Warp.release_rseq (w : Warp) (en : Word) (p : DWord) : (w.release en p).rseq = w.rseq := rfl
@[simp] theorem Warp.release_budget (w : Warp) (en : Word) (p : DWord) : (w.release en p).budget = w.budget := rfl
@[simp] theorem Warp.release_exited (w : Warp) (en : Word) (p : DWord) : (w.release en p).exited = w.exited := rfl
@[simp] theorem Warp.release_deferred (w : Warp) (en : Word) (p : DWord) : (w.release en p).deferred = w.deferred := rfl
@[simp] theorem Warp.release_delayed (w : Warp) (en : Word) (p : DWord) : (w.release en p).delayed = w.delayed := rfl
@[simp] theorem Warp.release_blocked (w : Warp) (en : Word) (p : DWord) : (w.release en p).blocked = w.blocked := rfl
@[simp] theorem Warp.release_parked (w : Warp) (en : Word) (p : DWord) : (w.release en p).parked = w.parked := rfl
@[simp] theorem Warp.release_susp (w : Warp) (en : Word) (p : DWord) : (w.release en p).susp = w.susp := rfl
@[simp] theorem Warp.release_rlimit (w : Warp) (en : Word) (p : DWord) : (w.release en p).rlimit = w.rlimit := rfl
@[simp] theorem Warp.release_rcount (w : Warp) (en : Word) (p : DWord) : (w.release en p).rcount = w.rcount := rfl
@[simp] theorem Warp.release_tcmp (w : Warp) (en : Word) (p : DWord) : (w.release en p).tcmp = w.tcmp := rfl
@[simp] theorem Warp.release_timer (w : Warp) (en : Word) (p : DWord) : (w.release en p).timer = w.timer := rfl
@[simp] theorem Warp.release_frec (w : Warp) (en : Word) (p : DWord) : (w.release en p).frec = w.frec := rfl
@[simp] theorem Warp.release_tclass (w : Warp) (en : Word) (p : DWord) : (w.release en p).tclass = w.tclass := rfl
@[simp] theorem Warp.release_rsb (w : Warp) (en : Word) (p : DWord) : (w.release en p).rsb = w.rsb := rfl
@[simp] theorem Warp.release_opbuf (w : Warp) (en : Word) (p : DWord) : (w.release en p).opbuf = w.opbuf := rfl
@[simp] theorem Warp.release_fc (w : Warp) (en : Word) (p : DWord) : (w.release en p).fc = w.fc := rfl
@[simp] theorem Warp.release_turn (w : Warp) (en : Word) (p : DWord) : (w.release en p).turn = w.turn := rfl
@[simp] theorem Warp.release_turnBits (w : Warp) (en : Word) (p : DWord) : (w.release en p).turnBits = w.turnBits := rfl
@[simp] theorem Warp.release_lastLanes (w : Warp) (en : Word) (p : DWord) : (w.release en p).lastLanes = w.lastLanes := rfl
@[simp] theorem Warp.release_ewc (w : Warp) (en : Word) (p : DWord) : (w.release en p).ewc = w.ewc := rfl
@[simp] theorem Warp.release_lastIssue (w : Warp) (en : Word) (p : DWord) : (w.release en p).lastIssue = w.lastIssue := rfl
@[simp] theorem Warp.release_ready (w : Warp) (en : Word) (p : DWord) : (w.release en p).ready = w.ready := rfl
@[simp] theorem Warp.release_stage (w : Warp) (en : Word) (p : DWord) : (w.release en p).stage = w.stage := rfl
@[simp] theorem Warp.release_faults (w : Warp) (en : Word) (p : DWord) : (w.release en p).faults = w.faults := rfl
@[simp] theorem Warp.release_inv (w : Warp) (en : Word) (p : DWord) : (w.release en p).inv = w.inv := rfl
@[simp] theorem Warp.release_stopped (w : Warp) (en : Word) (p : DWord) : (w.release en p).stopped = w.stopped := rfl
@[simp] theorem Warp.release_loads (w : Warp) (en : Word) (p : DWord) : (w.release en p).loads = w.loads := rfl
@[simp] theorem Warp.release_inbox (w : Warp) (en : Word) (p : DWord) : (w.release en p).inbox = w.inbox := rfl
@[simp] theorem Warp.release_wr (w : Warp) (en : Word) (p : DWord) : (w.release en p).wr = w.wr := rfl
@[simp] theorem Warp.release_clean (w : Warp) (en : Word) (p : DWord) : (w.release en p).clean = w.clean := rfl

end Sys2Proof.Machine
end

