-- ==== Sys2Proof/Laws/Lanes.lean ====
section
/-!
SUPPORT. Laws/Lanes.lean: lane sets, program counters and registers of a warp after the updates of Machine/Warp.lean.
-/

namespace Sys2Proof.Machine

theorem mem_laneList (l : Nat) : l ∈ laneList ↔ l < 32 := by simp [laneList]
theorem mem_lanesOf (m : Word) (l : Nat) : l ∈ lanesOf m ↔ l < 32 ∧ laneIn m l = true := by simp [lanesOf, mem_laneList]
theorem laneIn_lt {m : Word} {l : Nat} (h : laneIn m l = true) : l < 32 := by
  unfold laneIn at h
  exact Nat.lt_of_not_le fun hl => by simp [BitVec.getLsbD_of_ge _ _ hl] at h

@[simp] theorem laneIn_zero (l : Nat) : laneIn 0#32 l = false := by simp [laneIn]
@[simp] theorem laneIn_and (a b : Word) (l : Nat) : laneIn (a &&& b) l = (laneIn a l && laneIn b l) := by simp [laneIn]
@[simp] theorem laneIn_or (a b : Word) (l : Nat) : laneIn (a ||| b) l = (laneIn a l || laneIn b l) := by simp [laneIn]
theorem laneIn_not {a : Word} {l : Nat} (h : l < 32) : laneIn (~~~a) l = !laneIn a l := by simp [laneIn, h]

theorem foldr_bits_testBit (f : Nat → Bool) (n l lo : Nat) :
    ((List.range' lo n).foldr (fun l acc => cond (f l) 1 0 + 2 * acc) 0).testBit l = (decide (l < n) && f (lo + l)) := by
  induction n generalizing l lo with
  | zero => simp
  | succ n ih =>
    simp only [List.range'_succ, List.foldr_cons]
    cases l with
    | zero => cases f lo <;> simp [Nat.testBit_zero, Nat.add_mod]
    | succ l =>
      have e : ∀ x : Nat, (cond (f lo) 1 0 + 2 * x) / 2 = x := by intro x; cases f lo <;> simp; omega
      rw [Nat.testBit_succ, e, ih]
      simp [Nat.add_comm, Nat.add_left_comm]

theorem laneIn_maskOf (f : Nat → Bool) {l : Nat} (h : l < 32) : laneIn (maskOf f) l = f l := by
  have := foldr_bits_testBit f 32 l 0
  simp only [laneIn, maskOf, laneList, List.range_eq_range', BitVec.getLsbD_ofNat, this]
  simp [h]

theorem laneIn_lanesAt (w : Warp) (m : Word) (p : DWord) {l : Nat} (h : l < 32) :
    laneIn (w.lanesAt m p) l = (laneIn m l && w.pc l == p) := laneIn_maskOf _ h

theorem eq_zero_of_no_lane {m : Word} (h : ∀ l < 32, laneIn m l = false) : m = 0 := by
  apply BitVec.eq_of_getLsbD_eq
  intro i hi
  simpa [laneIn] using h i hi

/-! ### Entries of the 32 lanes -/

theorem getD_onLanes {α : Type} (d : α) (xs : List α) (en : Word) (f : Nat → α) {l : Nat} (h : l < 32) (e : α) :
    (onLanes d xs en f).getD l e = if laneIn en l then f l else xs.getD l d := by
  simp [onLanes, laneList, List.getD_eq_getElem?_getD, h]

namespace Warp

theorem pc_setPc (w : Warp) (en : Word) (f : Nat → DWord) {l : Nat} (h : l < 32) :
    (w.setPc en f).pc l = if laneIn en l then f l else w.pc l := getD_onLanes _ _ _ _ h _
theorem pc_advance (w : Warp) (en : Word) (n : Nat) {l : Nat} (h : l < 32) :
    (w.advance en n).pc l = if laneIn en l then w.pc l + BitVec.ofNat 64 n else w.pc l := pc_setPc _ _ _ h
theorem revOf_setRev (w : Warp) (en : Word) (f : Nat → DWord) {l : Nat} (h : l < 32) :
    (w.setRev en f).revOf l = if laneIn en l then f l else w.revOf l := getD_onLanes _ _ _ _ h _
theorem budgetOf_setBudget (w : Warp) (en : Word) (b : Nat) {l : Nat} (h : l < 32) :
    (w.setBudget en b).budgetOf l = if laneIn en l then b else w.budgetOf l := by
  simp only [budgetOf, setBudget]; exact getD_onLanes _ _ _ _ h _

/-! ### Registers -/

theorem get_putLanes (ls : List Nat) (t : Tab Word) (n n' l : Nat) (f : Nat → Word) (hl : l < 32) (hs : ∀ i ∈ ls, i < 32) :
    Tab.get (ls.foldl (fun t i => Tab.put 0 t (32 * n + i) (f i)) t) 0 (32 * n' + l)
      = if n' = n ∧ l ∈ ls then f l else Tab.get t 0 (32 * n' + l) := by
  induction ls generalizing t with
  | nil => simp
  | cons i r ih =>
    have hi := hs i (List.mem_cons_self ..)
    rw [List.foldl_cons, ih _ (fun j hj => hs j (List.mem_cons_of_mem _ hj)), Tab.get_put]
    by_cases h1 : n' = n
    · subst h1
      by_cases h2 : l = i
      · subst h2; simp
      · simp [h2]
    · have : 32 * n' + l ≠ 32 * n + i := by omega
      simp [h1, this]

/-- A lane register after a write of one. -/
theorem xr_setX (w : Warp) (n : Nat) (en : Word) (f : Nat → Word) (n' : Nat) {l : Nat} (h : l < 32) :
    (w.setX n en f).xr n' l = if n' = n ∧ laneIn en l then f l else w.xr n' l := by
  by_cases he : en = 0
  · subst he; simp [setX]
  · simp only [setX, he, if_false, xr]
    rw [get_putLanes _ _ _ _ _ _ h fun i hi => ((mem_lanesOf en i).1 hi).1]
    simp [mem_lanesOf, h]

/-- A value of one register or a pair after a write of it, in a lane written. -/
theorem xn_setXn (w : Warp) (wide : Bool) (n : Nat) (en : Word) (f : Nat → DWord) {l : Nat} (h : laneIn en l = true) :
    (w.setXn wide n en f).xn wide n l = if wide then f l else ((f l).setWidth 32).setWidth 64 := by
  have hl := laneIn_lt h
  cases wide
  · simp [xn, setXn, xr_setX _ _ _ _ _ hl, h]
  · simp only [xn, setXn, if_true, xr_setX _ _ _ _ _ hl, h]
    have e1 : ¬ (n + 1 = n) := by omega
    have e2 : ¬ (n = n + 1) := by omega
    simp only [if_true, e1, e2, and_true, and_self, if_false]
    apply BitVec.eq_of_getLsbD_eq
    intro i hi
    simp only [BitVec.getLsbD_append, BitVec.getLsbD_setWidth, BitVec.getLsbD_ushiftRight]
    by_cases h32 : i < 32
    · simp [h32]
    · have : i - 32 < 32 := by omega
      simp [h32, this, show 32 + (i - 32) = i by omega]

/-- A lane register outside a write. -/
theorem xr_setXn_ne (w : Warp) (wide : Bool) (n : Nat) (en : Word) (f : Nat → DWord) (n' : Nat) {l : Nat} (hl : l < 32)
    (h : n' ∉ regPair wide n ∨ laneIn en l = false) : (w.setXn wide n en f).xr n' l = w.xr n' l := by
  cases wide
  · simp only [setXn, Bool.false_eq_true, if_false, xr_setX _ _ _ _ _ hl]
    rcases h with h | h <;> simp_all [regPair]
  · simp only [setXn, if_true, xr_setX _ _ _ _ _ hl]
    rcases h with h | h <;> simp_all [regPair]

@[simp] theorem kr_setK_self (w : Warp) (n : Nat) (v : DWord) : (w.setK n v).kr n = v := by simp [kr, setK]
theorem kr_setK (w : Warp) (n j : Nat) (v : DWord) : (w.setK n v).kr j = if j = n then v else w.kr j := Tab.get_put ..
@[simp] theorem mr_setM_self (w : Warp) (n : Nat) (v : Word) : (w.setM n v).mr n = v := by simp [mr, setM]
theorem mr_setM (w : Warp) (n j : Nat) (v : Word) : (w.setM n v).mr j = if j = n then v else w.mr j := Tab.get_put ..

end Warp

/-- A bit of a mask after a write of its enabled lanes. -/
theorem laneIn_maskWrite (old en new : Word) {l : Nat} (h : l < 32) :
    laneIn (maskWrite old en new) l = if laneIn en l then laneIn new l else laneIn old l := by
  simp only [maskWrite, laneIn_or, laneIn_and, laneIn_not h]
  cases laneIn en l <;> simp

end Sys2Proof.Machine
end

