-- ==== Sys2Proof/Laws/Issue.lean ====
section
/-!
SUPPORT. Laws/Issue.lean: what the shared issue does when its checks pass and its charge is paid, and what an instruction whose only
effect is on the issuing warp's registers leaves behind.
-/

namespace Sys2Proof.Machine

/-! ### The end of an instruction -/

namespace Warp

/-- Fields that the end of an instruction leaves alone. -/
structure SameButPcs (v u : Warp) : Prop where
  regs : SameRegs v u
  standing : SameStanding v u
  rlimit : u.rlimit = v.rlimit
  rcount : u.rcount = v.rcount
  tcmp : u.tcmp = v.tcmp
  timer : u.timer = v.timer
  frec : u.frec = v.frec
  tclass : u.tclass = v.tclass
  rseq : u.rseq = v.rseq
  budget : u.budget = v.budget
  rsb : u.rsb = v.rsb
  loads : u.loads = v.loads
  stage : u.stage = v.stage
  deferred : u.deferred = v.deferred
  opbuf : u.opbuf = v.opbuf

theorem SameButPcs.refl (v : Warp) : SameButPcs v v := by constructor <;> first | rfl | (constructor <;> rfl)

theorem SameButPcs.trans {a b c : Warp} (h : SameButPcs a b) (g : SameButPcs b c) : SameButPcs a c := by
  obtain ⟨⟨_, _, _⟩, ⟨_, _, _, _, _, _, _, _, _, _, _, _, _, _, _⟩, _, _, _, _, _, _, _, _, _, _, _, _, _⟩ := h
  obtain ⟨⟨_, _, _⟩, ⟨_, _, _, _, _, _, _, _, _, _, _, _, _, _, _⟩, _, _, _, _, _, _, _, _, _, _, _, _, _⟩ := g
  constructor <;> first | (constructor <;> simp_all) | simp_all

theorem foldl_release_fields (bs : List Blocked) (w : Warp) :
    SameButPcs w (bs.foldl (fun v b => v.release b.lanes (b.here + BitVec.ofNat 64 b.len)) w)
    ∧ (bs.foldl (fun v b => v.release b.lanes (b.here + BitVec.ofNat 64 b.len)) w).turn = w.turn := by
  induction bs generalizing w with
  | nil => exact ⟨SameButPcs.refl w, rfl⟩
  | cons b r ih =>
    refine ⟨SameButPcs.trans ?_ (ih _).1, (ih _).2⟩
    constructor <;> first | rfl | (constructor <;> rfl)

theorem foldl_release_pc (bs : List Blocked) (w : Warp) {l : Nat} (hl : l < 32) (h : ∀ b ∈ bs, laneIn b.lanes l = false) :
    (bs.foldl (fun v b => v.release b.lanes (b.here + BitVec.ofNat 64 b.len)) w).pc l = w.pc l
    ∧ (bs.foldl (fun v b => v.release b.lanes (b.here + BitVec.ofNat 64 b.len)) w).revOf l = w.revOf l := by
  induction bs generalizing w with
  | nil => exact ⟨rfl, rfl⟩
  | cons b r ih =>
    have hb := h b (List.mem_cons_self ..)
    obtain ⟨h1, h2⟩ := ih (w.release b.lanes (b.here + BitVec.ofNat 64 b.len)) fun b hb => h b (List.mem_cons_of_mem _ hb)
    constructor
    · rw [List.foldl_cons, h1]
      have := pc_setPc w b.lanes (fun _ => b.here + BitVec.ofNat 64 b.len) hl
      exact this.trans (by simp [hb])
    · rw [List.foldl_cons, h2]
      have := revOf_setRev (w.setPc b.lanes fun _ => b.here + BitVec.ofNat 64 b.len) b.lanes (fun _ => b.here + BitVec.ofNat 64 b.len) hl
      exact this.trans (by simp only [hb, Bool.false_eq_true, if_false]; rfl)

theorem laneIn_foldl_or (bs : List Blocked) (m : Word) (l : Nat) :
    laneIn (bs.foldl (fun m b => m ||| b.lanes) m) l = (laneIn m l || bs.any fun b => laneIn b.lanes l) := by
  induction bs generalizing m with
  | nil => simp
  | cons b r ih => simp [ih, Bool.or_assoc]

theorem laneIn_blockedLanes (w : Warp) (l : Nat) : laneIn w.blockedLanes l = w.blocked.any fun b => laneIn b.lanes l := by
  exact (laneIn_foldl_or w.blocked 0 l).trans (by simp)

theorem wakeMasks_same (w : Warp) : SameButPcs w w.wakeMasks ∧ w.wakeMasks.turn = w.turn := by
  obtain ⟨h, ht⟩ := foldl_release_fields
    (w.blocked.filter fun b => match b.what with | .mask m => w.waitDone m b.here | _ => false) w
  exact ⟨⟨⟨h.regs.x, h.regs.k, h.regs.m⟩, ⟨h.standing.ctx, h.standing.blk, h.standing.widx, h.standing.level, h.standing.regs,
    h.standing.regs0, h.standing.lean, h.standing.exited, h.standing.delayed, h.standing.parked, h.standing.susp,
    h.standing.stopped, h.standing.faults, h.standing.inv, h.standing.inbox⟩, h.rlimit, h.rcount, h.tcmp, h.timer, h.frec,
    h.tclass, h.rseq, h.budget, h.rsb, h.loads, h.stage, h.deferred, h.opbuf⟩, ht⟩

theorem wakeMasks_pc (w : Warp) {l : Nat} (hl : l < 32) (h : laneIn w.blockedLanes l = false) :
    w.wakeMasks.pc l = w.pc l ∧ w.wakeMasks.revOf l = w.revOf l := by
  rw [laneIn_blockedLanes, List.any_eq_false] at h
  exact foldl_release_pc _ w hl fun b hb => by simpa using h b (List.mem_of_mem_filter hb)

/-- The end of an instruction changes nothing of a warp but the lanes it releases from waits, and the turn (R104, R246). -/
theorem finished_same (w : Warp) (f : Form) (c : Ctx) (before : Warp) : SameButPcs w (w.finished f c before) := by
  have key : ∀ v : Warp, SameButPcs w v → SameButPcs w (match before.turn, v.turn with
      | some t, some _ => if turnEnds before v t f c then { v with turn := none, fc := 0 } else v
      | _, _ => v) := by
    intro v hv
    split
    · split
      · exact SameButPcs.trans hv (by constructor <;> first | rfl | (constructor <;> rfl))
      · exact hv
    · exact hv
  unfold finished
  split
  · exact key w (SameButPcs.refl w)
  · exact key _ (wakeMasks_same w).1

/-- A lane that is not blocked stands after the end of the instruction where it stood. -/
theorem finished_pc (w : Warp) (f : Form) (c : Ctx) (before : Warp) {l : Nat} (hl : l < 32) (h : laneIn w.blockedLanes l = false) :
    (w.finished f c before).pc l = w.pc l ∧ (w.finished f c before).revOf l = w.revOf l := by
  have key : ∀ v : Warp, v.pc l = w.pc l ∧ v.revOf l = w.revOf l → (match before.turn, v.turn with
      | some t, some _ => if turnEnds before v t f c then { v with turn := none, fc := 0 } else v
      | _, _ => v).pc l = w.pc l ∧ (match before.turn, v.turn with
      | some t, some _ => if turnEnds before v t f c then { v with turn := none, fc := 0 } else v
      | _, _ => v).revOf l = w.revOf l := by
    intro v hv
    split
    · split <;> exact hv
    · exact hv
  unfold finished
  split
  · exact key w ⟨rfl, rfl⟩
  · exact key _ (wakeMasks_pc w hl h)

/-! ### The issuing group -/

theorem selectable_sub {w : Warp} {l : Nat} (h : laneIn w.selectable l = true) : laneIn w.runnable l = true := by
  unfold selectable at h
  split at h
  · simp at h
  · split at h
    · exact h
    · rw [laneIn_and] at h
      exact (Bool.and_eq_true _ _ ▸ h).1

theorem candidates_sub {w : Warp} {l : Nat} (h : laneIn w.candidates l = true) : laneIn w.selectable l = true := by
  unfold candidates at h
  split at h
  · split at h
    · exact h
    · rw [laneIn_and] at h
      exact (Bool.and_eq_true _ _ ▸ h).1
  · exact h

theorem group_sub {w : Warp} {l : Nat} (h : laneIn w.group l = true) : laneIn w.selectable l = true := by
  unfold group at h
  split at h
  · rw [laneIn_and] at h; exact (Bool.and_eq_true _ _ ▸ h).1
  · split at h
    · simp at h
    · have hl := laneIn_lt h
      rw [laneIn_lanesAt _ _ _ hl] at h
      exact candidates_sub (Bool.and_eq_true _ _ ▸ h).1

/-- No lane of an issuing group is blocked, delayed or exited (R242). -/
theorem group_unblocked {w : Warp} {l : Nat} (h : laneIn w.group l = true) : laneIn w.blockedLanes l = false := by
  have hr := selectable_sub (group_sub h)
  have hl := laneIn_lt h
  unfold runnable at hr
  rw [laneIn_not hl] at hr
  simp only [laneIn_or, Bool.not_eq_true', Bool.or_eq_false_iff] at hr
  exact hr.1.2

end Warp

/-! ### The shared issue -/

@[simp] theorem issueCost_zero (f : Form) (s : State) (w : Warp) : issueCost f 0 s w = w.price f := by simp [issueCost]

/-- The state in which the effect of a ready instruction runs: the price paid, the warp's issue recorded. -/
def State.begun (s : State) (f : Form) (steps : Nat) (w : Warp) : State :=
  (if isService (coreOf s.cur) then s
    else s.modCore (coreOf s.cur) fun k => k.pay (s.partOf w.ctx) (issueCost f steps s w)).modWarp s.cur fun v =>
      v.marked (f.seen (issueCtx f s w).en) w.group (s.clk s.cur).toNat

theorem State.clk_modCore (s : State) (c : Nat) (g : Core → Core) (wid : Nat) : (s.modCore c g).clk wid = s.clk wid := rfl

/-- A READY INSTRUCTION ISSUES: its price is paid, then its effect runs, or its lanes only advance where the guard enables none, and
the instruction ends (R24, R25, R48, R370). -/
theorem State.issue_ready {s : State} {f : Form} {w : Warp} {n : Nat} (legal : Ctx → State → Bool) (steps : Ctx → State → Nat)
    (body : Ctx → State → State) (h : Ready f n s w) (hl : legal (issueCtx f s w) s = true) (hs : steps (issueCtx f s w) s = n) :
    s.issue f legal steps body =
      (if (issueCtx f s w).en = 0 then (s.begun f n w).modWarp s.cur fun v => v.advance w.group f.len
        else body (issueCtx f s w) (s.begun f n w)).finish f (issueCtx f s w) w := by
  have hpay : s.charge s.cur w.ctx (issueCost f n s w) = .ok (if isService (coreOf s.cur) then s
      else s.modCore (coreOf s.cur) fun k => k.pay (s.partOf w.ctx) (issueCost f n s w)) := by
    unfold State.charge
    rcases h.pays with hp | hp
    · simp [hp]
    · by_cases hsv : isService (coreOf s.cur) = true
      · simp [hsv]
      · simp [hsv, hp]
  have hcost : w.price f + (if w.group &&& w.guard f.g = 0 then 0 else steps (issueCtx f s w) s) = issueCost f n s w := by
    rw [hs]; rfl
  have hinj : ∀ (t : State) (us : List Nat) (a b : Nat), t.ap = s.ap → t.inject us a b = t := by
    intro t us a b ht
    have : t.ap! offInjMask = 0 := by have := h.disarmed; unfold State.ap! at *; rw [ht]; exact this
    simp [State.inject, this]
  unfold State.issue
  simp only [h.cur]
  have hen : ({ wid := s.cur, here := w.leastPc w.group, len := f.len, iss := w.group, en := w.group &&& w.guard f.g } : Ctx)
      = issueCtx f s w := rfl
  simp only [hen, h.lanes, if_false, h.level, h.names, h.served, hl, Bool.not_true, Bool.or_self, Bool.false_eq_true, h.fresh,
    Option.isSome_none]
  rw [h.held, ite_self, List.length_nil, Nat.mul_zero, Nat.add_zero, hcost, hpay]
  have hload : ∀ (t : State) (v a : Nat), t.loadRegs v a w f.lines [] = .ok t := fun _ _ _ => rfl
  simp only [hload]
  have hinv : ∀ (t : State) (k : Nat), t.payInv k w = t := by intro t k; simp [State.payInv, h.owesNone, h.seesNone]
  have hap : (if isService (coreOf s.cur) = true then s
      else s.modCore (coreOf s.cur) fun k => k.pay (s.partOf w.ctx) (issueCost f n s w)).ap = s.ap := by split <;> rfl
  have hclk : (if isService (coreOf s.cur) = true then s
      else s.modCore (coreOf s.cur) fun k => k.pay (s.partOf w.ctx) (issueCost f n s w)).clk s.cur = s.clk s.cur := by
    split <;> rfl
  have hagain : w.again = false := by simp [Warp.again, h.fresh]
  have hcur : (if isService (coreOf s.cur) = true then s
      else s.modCore (coreOf s.cur) fun k => k.pay (s.partOf w.ctx) (issueCost f n s w)).warp? s.cur = some w := by
    split <;> exact h.cur
  have hiss : ∀ (t : State) (f : Form) (m : Word) (n : Nat), t.warp? s.cur = some w →
      t.modWarp s.cur (fun v => v.issued f m n) = t.modWarp s.cur fun v => v.marked f m n := by
    intro t f m n ht
    simp only [State.warp?] at ht
    simp only [State.modWarp, Tab.mod, ht, Warp.issued, hagain, Bool.false_eq_true, if_false]
  simp only [hinv, hinj _ _ _ _ hap, ite_self, hclk, hiss _ _ _ _ hcur]
  rfl

/-- The warp as its instruction's effect finds it. -/
def Warp.atIssue (w : Warp) (f : Form) (s : State) : Warp :=
  w.marked (f.seen (issueCtx f s w).en) w.group (s.clk s.cur).toNat

theorem State.begun_warp {s : State} {f : Form} {n : Nat} {w : Warp} (h : s.warp? s.cur = some w) :
    (s.begun f n w).warp? s.cur = some (w.atIssue f s) := by
  unfold State.begun
  rw [State.warp?_modWarp_self]
  split <;> simp [State.warp?, Warp.atIssue] at h ⊢ <;> simp [h]

theorem State.begun_other {s : State} {f : Form} {n : Nat} {w : Warp} {v : Nat} (h : v ≠ s.cur) :
    (s.begun f n w).warp? v = s.warp? v := by
  unfold State.begun
  rw [State.warp?_modWarp]
  simp only [h, if_false]
  split <;> rfl

/-- What an effect on the current warp alone, after the charge, leaves of the machine. -/
theorem State.begun_only {s : State} {f : Form} {n : Nat} {w : Warp} (g : Warp → Warp) :
    OnlyWarp (issueCost f n s w) s ((s.begun f n w).modWarp s.cur g) w := by
  unfold State.begun
  by_cases hs : isService (coreOf s.cur) = true
  · simp only [hs, if_true]
    constructor <;> first | rfl | skip
    · intro v hv; simp [State.warp?_modWarp, hv]
    · simp only [hs, if_true]; rfl
    · intro c _; rfl
  · simp only [hs, Bool.false_eq_true, if_false]
    constructor <;> first | rfl | skip
    · intro v hv; simp only [State.warp?_modWarp, hv, if_false]; rfl
    · refine (State.core_modCore s (coreOf s.cur) (coreOf s.cur) fun k => k.pay (s.partOf w.ctx) (issueCost f n s w)).trans ?_
      rw [if_pos rfl, if_neg hs]
    · intro c hc
      refine (State.core_modCore s (coreOf s.cur) c fun k => k.pay (s.partOf w.ctx) (issueCost f n s w)).trans ?_
      rw [if_neg hc]

/-- What an effect must leave alone for an instruction to be one on registers: everything of the warp but lane registers with their
marks, k-registers, masks and program counters. -/
structure Quiet (w w' : Warp) : Prop where
  standing : SameStanding w w'
  rlimit : w'.rlimit = w.rlimit
  rcount : w'.rcount = w.rcount
  tcmp : w'.tcmp = w.tcmp
  timer : w'.timer = w.timer
  frec : w'.frec = w.frec
  tclass : w'.tclass = w.tclass
  rseq : w'.rseq = w.rseq
  budget : w'.budget = w.budget
  rev : w'.rev = w.rev
  blocked : w'.blocked = w.blocked
  rsb : w'.rsb = w.rsb
  loads : w'.loads = w.loads

theorem Quiet.refl (w : Warp) : Quiet w w := by constructor <;> first | rfl | (constructor <;> rfl)
theorem Warp.SameButPcs.standing_of_quiet {a b c : Warp} (h : Quiet a b) (g : Warp.SameButPcs b c) : SameStanding a c := by
  have p := h.standing
  have q := g.standing
  exact ⟨q.ctx.trans p.ctx, q.blk.trans p.blk, q.widx.trans p.widx, q.level.trans p.level, q.regs.trans p.regs, q.regs0.trans p.regs0,
    q.lean.trans p.lean, q.exited.trans p.exited, q.delayed.trans p.delayed, q.parked.trans p.parked, q.susp.trans p.susp,
    q.stopped.trans p.stopped, q.faults.trans p.faults, q.inv.trans p.inv, q.inbox.trans p.inbox⟩

theorem specials_of_quiet {a b c : Warp} (h : Quiet a b) (g : Warp.SameButPcs b c)
    (hr : ∀ l < 32, laneIn b.blockedLanes l = false → c.pc l = b.pc l ∧ c.revOf l = b.revOf l) : SameSpecials a c := by
  refine ⟨g.rlimit.trans h.rlimit, g.rcount.trans h.rcount, g.tcmp.trans h.tcmp, g.timer.trans h.timer,
      g.frec.trans h.frec, g.tclass.trans h.tclass, g.rseq.trans h.rseq, g.budget.trans h.budget, ?_⟩
  intro l hl hb
  have hbl : b.blockedLanes = a.blockedLanes := by simp only [Warp.blockedLanes, h.blocked]
  rw [(hr l hl (hbl ▸ hb)).2]
  simp only [Warp.revOf, h.rev]

theorem Quiet.trans {a b c : Warp} (h : Quiet a b) (g : Quiet b c) : Quiet a c := by
  obtain ⟨⟨_, _, _, _, _, _, _, _, _, _, _, _, _, _, _⟩, _, _, _, _, _, _, _, _, _, _, _, _⟩ := h
  obtain ⟨⟨_, _, _, _, _, _, _, _, _, _, _, _, _, _, _⟩, _, _, _, _, _, _, _, _, _, _, _, _⟩ := g
  constructor <;> first | (constructor <;> simp_all) | simp_all
theorem Quiet.setXn (w : Warp) (wide : Bool) (n : Nat) (en : Word) (f : Nat → DWord) : Quiet w (w.setXn wide n en f) := by
  constructor <;> first | simp | (constructor <;> simp)
theorem Quiet.setX (w : Warp) (n : Nat) (en : Word) (f : Nat → Word) : Quiet w (w.setX n en f) := by
  constructor <;> first | simp | (constructor <;> simp)
theorem Quiet.setK (w : Warp) (n : Nat) (v : DWord) : Quiet w (w.setK n v) := by constructor <;> first | rfl | (constructor <;> rfl)
theorem Quiet.setM (w : Warp) (n : Nat) (v : Word) : Quiet w (w.setM n v) := by constructor <;> first | rfl | (constructor <;> rfl)
theorem Quiet.setPc (w : Warp) (en : Word) (f : Nat → DWord) : Quiet w (w.setPc en f) := by
  constructor <;> first | rfl | (constructor <;> rfl)
theorem Quiet.advance (w : Warp) (en : Word) (n : Nat) : Quiet w (w.advance en n) := Quiet.setPc ..
theorem Quiet.atIssue (w : Warp) (f : Form) (s : State) : Quiet w (w.atIssue f s) := by
  constructor <;> first | rfl | (constructor <;> rfl)

theorem blockedLanes_of_blocked {w w' : Warp} (h : w'.blocked = w.blocked) : w'.blockedLanes = w.blockedLanes := by
  simp [Warp.blockedLanes, h]

/-- AN INSTRUCTION ON ITS WARP ALONE: when it is ready and its effect is a change `g` of the current warp, the warp afterwards is that
of the effect but for lanes released from waits and the turn, and nothing else has changed but the tokens. -/
theorem State.issue_warp {s : State} {f : Form} {w : Warp} {n : Nat} (legal : Ctx → State → Bool) (steps : Ctx → State → Nat)
    (body : Ctx → State → State) (g : Warp → Warp) (h : Ready f n s w) (hl : legal (issueCtx f s w) s = true)
    (hs : steps (issueCtx f s w) s = n)
    (hb : (issueCtx f s w).en ≠ 0 → body (issueCtx f s w) (s.begun f n w) = (s.begun f n w).modWarp s.cur g) :
    let v := if (issueCtx f s w).en = 0 then (w.atIssue f s).advance w.group f.len else g (w.atIssue f s)
    (s.issue f legal steps body).warp? s.cur = some (v.finished f (issueCtx f s w) w) ∧
      OnlyWarp (issueCost f n s w) s (s.issue f legal steps body) w := by
  let g' : Warp → Warp := fun v => if (issueCtx f s w).en = 0 then v.advance w.group f.len else g v
  have e1 : s.issue f legal steps body = ((s.begun f n w).modWarp s.cur g').finish f (issueCtx f s w) w := by
    rw [State.issue_ready legal steps body h hl hs]
    by_cases he : (issueCtx f s w).en = 0
    · simp only [he, if_true, g']
    · simp only [he, if_false, g', hb he]
  have e2 : ((s.begun f n w).modWarp s.cur g').finish f (issueCtx f s w) w
      = (s.begun f n w).modWarp s.cur fun v => (g' v).finished f (issueCtx f s w) w := by
    have hw := State.begun_warp (n := n) (f := f) h.cur
    simp only [State.finish, State.modWarp, issueCtx, State.warp?] at hw ⊢
    simp only [Tab.mod, hw, Tab.look_upd_self]
    congr 1
    exact Tab.upd_upd ..
  rw [e1, e2]
  refine ⟨?_, State.begun_only _⟩
  rw [State.warp?_modWarp_self, State.begun_warp h.cur]
  simp only [Option.map_some, g']

/-- The same, field by field. -/
theorem State.issue_same {s : State} {f : Form} {w : Warp} {n : Nat} (legal : Ctx → State → Bool) (steps : Ctx → State → Nat)
    (body : Ctx → State → State) (g : Warp → Warp) (h : Ready f n s w) (hl : legal (issueCtx f s w) s = true)
    (hs : steps (issueCtx f s w) s = n)
    (hb : (issueCtx f s w).en ≠ 0 → body (issueCtx f s w) (s.begun f n w) = (s.begun f n w).modWarp s.cur g)
    (he : (issueCtx f s w).en ≠ 0) :
    ∃ w', (s.issue f legal steps body).warp? s.cur = some w' ∧ OnlyWarp (issueCost f n s w) s (s.issue f legal steps body) w ∧
      Warp.SameButPcs (g (w.atIssue f s)) w' ∧
      ∀ l < 32, laneIn (g (w.atIssue f s)).blockedLanes l = false →
        w'.pc l = (g (w.atIssue f s)).pc l ∧ w'.revOf l = (g (w.atIssue f s)).revOf l := by
  obtain ⟨h1, h2⟩ := State.issue_warp legal steps body g h hl hs hb
  rw [if_neg he] at h1
  exact ⟨_, h1, h2, Warp.finished_same _ _ _ _, fun l hl32 hu => Warp.finished_pc _ _ _ _ hl32 hu⟩

/-- An effect on more than the warp: what the instruction leaves is what the effect left, but for the warp's waits and its turn. -/
theorem State.issue_effect {s : State} {f : Form} {w v : Warp} {n : Nat} (legal : Ctx → State → Bool) (steps : Ctx → State → Nat)
    (body : Ctx → State → State) (h : Ready f n s w) (hl : legal (issueCtx f s w) s = true) (hs : steps (issueCtx f s w) s = n)
    (he : (issueCtx f s w).en ≠ 0) {T : State} (hT : body (issueCtx f s w) (s.begun f n w) = T) (hv : T.warp? s.cur = some v) :
    ∃ w', s.issue f legal steps body = T.modWarp s.cur (fun u => u.finished f (issueCtx f s w) w) ∧
      (s.issue f legal steps body).warp? s.cur = some w' ∧ Warp.SameButPcs v w' ∧
      (∀ k, k ≠ s.cur → (s.issue f legal steps body).warp? k = T.warp? k) ∧
      ∀ l < 32, laneIn v.blockedLanes l = false → w'.pc l = v.pc l ∧ w'.revOf l = v.revOf l := by
  have e : s.issue f legal steps body = T.modWarp s.cur (fun u => u.finished f (issueCtx f s w) w) := by
    rw [State.issue_ready legal steps body h hl hs, if_neg he, hT]; rfl
  refine ⟨v.finished f (issueCtx f s w) w, e, ?_, Warp.finished_same .., ?_, fun l hl32 hu => Warp.finished_pc _ _ _ _ hl32 hu⟩
  · rw [e, State.warp?_modWarp_self, hv]; rfl
  · intro k hk; rw [e, State.warp?_modWarp, if_neg hk]

/-- The lanes of an unguarded instruction are the issuing ones, so there are some. -/
theorem en_ne_zero {f : Form} {s : State} {w : Warp} {n : Nat} (h : Ready f n s w) (hg : f.g = 0) : (issueCtx f s w).en ≠ 0 := by
  have e : (issueCtx f s w).en = w.group := by
    simp only [issueCtx, Warp.guard, hg, if_true]
    exact BitVec.and_allOnes
  rw [e]; exact h.lanes

/-- AN INSTRUCTION ON REGISTERS AND PROGRAM COUNTERS: when its effect is quiet, it runs as RanQuiet says, and the registers, and the
program counters of the lanes not blocked, are those of the effect. -/
theorem State.issue_quiet {s : State} {f : Form} {w : Warp} (legal : Ctx → State → Bool) (body : Ctx → State → State) (g : Warp → Warp)
    (h : Ready f 0 s w) (hl : legal (issueCtx f s w) s = true)
    (hb : (issueCtx f s w).en ≠ 0 → body (issueCtx f s w) (s.begun f 0 w) = (s.begun f 0 w).modWarp s.cur g)
    (hq : Quiet (w.atIssue f s) (g (w.atIssue f s))) :
    ∃ w', RanQuiet f s (s.issue f legal (fun _ _ => 0) body) w w' ∧
      SameRegs (if (issueCtx f s w).en = 0 then w else g (w.atIssue f s)) w' ∧
      ∀ l < 32, laneIn w.blockedLanes l = false →
        w'.pc l = if (issueCtx f s w).en = 0 then (w.advance w.group f.len).pc l else (g (w.atIssue f s)).pc l := by
  have hw := State.issue_warp legal (fun _ _ => 0) body g h hl rfl hb
  generalize hv : (if (issueCtx f s w).en = 0 then (w.atIssue f s).advance w.group f.len else g (w.atIssue f s)) = v at hw
  have hQ : Quiet w v := by
    refine Quiet.trans (Quiet.atIssue w f s) ?_
    rw [← hv]; split
    · exact Quiet.advance ..
    · exact hq
  have hbl : v.blockedLanes = w.blockedLanes := blockedLanes_of_blocked hQ.blocked
  have hF := Warp.finished_same v f (issueCtx f s w) w
  refine ⟨v.finished f (issueCtx f s w) w, ⟨hw.1, ?_, ?_, ?_, ?_, ?_⟩, ?_, ?_⟩
  · simpa [issueCost] using hw.2
  · have a := hQ.standing
    have b := hF.standing
    exact ⟨b.ctx.trans a.ctx, b.blk.trans a.blk, b.widx.trans a.widx, b.level.trans a.level, b.regs.trans a.regs, b.regs0.trans a.regs0,
      b.lean.trans a.lean, b.exited.trans a.exited, b.delayed.trans a.delayed, b.parked.trans a.parked, b.susp.trans a.susp,
      b.stopped.trans a.stopped, b.faults.trans a.faults, b.inv.trans a.inv, b.inbox.trans a.inbox⟩
  · refine ⟨hF.rlimit.trans hQ.rlimit, hF.rcount.trans hQ.rcount, hF.tcmp.trans hQ.tcmp, hF.timer.trans hQ.timer,
      hF.frec.trans hQ.frec, hF.tclass.trans hQ.tclass, hF.rseq.trans hQ.rseq, hF.budget.trans hQ.budget, ?_⟩
    intro l hl32 hnb
    rw [(Warp.finished_pc _ f _ w hl32 (hbl ▸ hnb)).2]
    simp [Warp.revOf, hQ.rev]
  · exact hF.rsb.trans hQ.rsb
  · exact hF.loads.trans hQ.loads
  · have a := hF.regs
    rw [← hv] at a ⊢
    by_cases he : (issueCtx f s w).en = 0
    · simp only [he, if_true] at a ⊢
      exact ⟨a.x, a.k, a.m⟩
    · simp only [he, if_false] at a ⊢
      exact a
  · intro l hl32 hu
    rw [(Warp.finished_pc _ f _ w hl32 (hbl ▸ hu)).1, ← hv]
    split <;> rfl

/-- AN INSTRUCTION ON REGISTERS: the same, when the effect leaves each issuing lane behind the instruction. -/
theorem State.issue_regs {s : State} {f : Form} {w : Warp} (legal : Ctx → State → Bool) (body : Ctx → State → State) (g : Warp → Warp)
    (h : Ready f 0 s w) (hl : legal (issueCtx f s w) s = true)
    (hb : (issueCtx f s w).en ≠ 0 → body (issueCtx f s w) (s.begun f 0 w) = (s.begun f 0 w).modWarp s.cur g)
    (hq : Quiet (w.atIssue f s) (g (w.atIssue f s)))
    (hpc : ∀ l < 32, (g (w.atIssue f s)).pc l = if laneIn w.group l then w.pc l + BitVec.ofNat 64 f.len else w.pc l) :
    ∃ w', RanOnRegs f s (s.issue f legal (fun _ _ => 0) body) w w' ∧
      SameRegs (if (issueCtx f s w).en = 0 then w else g (w.atIssue f s)) w' := by
  obtain ⟨w', hr, hs, hp⟩ := State.issue_quiet legal body g h hl hb hq
  have key : ∀ l < 32, laneIn w.blockedLanes l = false →
      w'.pc l = if laneIn w.group l then w.pc l + BitVec.ofNat 64 f.len else w.pc l := by
    intro l hl32 hu
    rw [hp l hl32 hu, hpc l hl32, Warp.pc_advance _ _ _ hl32]
    split <;> rfl
  refine ⟨w', ⟨hr, fun l hl32 => ⟨fun hg => ?_, fun hg hu => ?_⟩⟩, hs⟩
  · have hg' : laneIn w.group l = true := hg
    rw [key l hl32 (Warp.group_unblocked hg'), if_pos hg']; rfl
  · have hg' : laneIn w.group l = false := hg
    rw [key l hl32 hu, hg']; rfl

/-! ### The three shapes -/

theorem SameRegs.xr {v u : Warp} (h : SameRegs v u) (n l : Nat) : u.xr n l = v.xr n l := by simp only [Warp.xr, h.x]
theorem SameRegs.xn {v u : Warp} (h : SameRegs v u) (wide : Bool) (n l : Nat) : u.xn wide n l = v.xn wide n l := by
  simp only [Warp.xn, h.xr]
theorem SameRegs.kr {v u : Warp} (h : SameRegs v u) (n : Nat) : u.kr n = v.kr n := by simp only [Warp.kr, h.k]
theorem SameRegs.mr {v u : Warp} (h : SameRegs v u) (n : Nat) : u.mr n = v.mr n := by simp only [Warp.mr, h.m]
theorem SameRegs.atIssue (w : Warp) (f : Form) (s : State) : SameRegs w (w.atIssue f s) := ⟨rfl, rfl, rfl⟩
theorem SameRegs.advance (w : Warp) (en : Word) (n : Nat) : SameRegs w (w.advance en n) := ⟨rfl, rfl, rfl⟩
theorem SameRegs.symm {v u : Warp} (h : SameRegs v u) : SameRegs u v := ⟨h.x.symm, h.k.symm, h.m.symm⟩
theorem SameRegs.trans {a b c : Warp} (h : SameRegs a b) (g : SameRegs b c) : SameRegs a c :=
  ⟨g.x.trans h.x, g.k.trans h.k, g.m.trans h.m⟩

theorem State.vec_done {s : State} {F : Form} {w : Warp} {wide : Bool} {d : Nat} (val : Ctx → State → Warp → Nat → DWord)
    (legal : Ctx → State → Bool) (hl : legal (issueCtx F s w) s = true) (vals : Nat → DWord) (h : Ready F 0 s w)
    (hv' : val (issueCtx F s w) (s.begun F 0 w) (w.atIssue F s) = vals) :
    ∃ w', VecDone F wide d vals s (s.issue F legal (fun _ _ => 0) fun c s => c.vecEffect wide d (val c s) s) w w' := by
  have ha := SameRegs.atIssue w F s
  generalize hen : (issueCtx F s w).en = en
  obtain ⟨w', hr, hs⟩ := State.issue_regs legal (fun c s => c.vecEffect wide d (val c s) s)
    (fun v => (v.setXn wide d en (val (issueCtx F s w) (s.begun F 0 w) v)).advance w.group F.len) h hl
    (fun _ => by rw [← hen]; rfl) (Quiet.trans (Quiet.setXn ..) (Quiet.advance ..)) (fun l hl =>
      (Warp.pc_advance _ _ _ hl).trans (by simp only [Warp.pc, Warp.setXn_pcv]; rfl))
  rw [hen] at hs
  by_cases he : en = 0
  · rw [if_pos he] at hs
    exact ⟨w', hr, hs.k, hs.m, fun l hl => by rw [hen, he] at hl; simp at hl, fun n l _ _ => hs.xr n l⟩
  · rw [if_neg he] at hs
    have hs2 := (SameRegs.advance ((w.atIssue F s).setXn wide d en (val (issueCtx F s w) (s.begun F 0 w) (w.atIssue F s))) w.group F.len).trans hs
    rw [hv'] at hs2
    refine ⟨w', hr, ?_, ?_, ?_, ?_⟩
    · rw [hs2.k, Warp.setXn_k, ha.k]
    · rw [hs2.m, Warp.setXn_m, ha.m]
    · intro l hl
      rw [hs2.xn, Warp.xn_setXn _ _ _ _ _ (hen ▸ hl)]; rfl
    · intro n l hl hn
      rw [hs2.xr, Warp.xr_setXn_ne _ _ _ _ _ _ hl (hen ▸ hn), ha.xr]

theorem State.execVec_done {s : State} {f : Form} {w : Warp} {wide : Bool} {d : Nat} {val : Warp → Nat → DWord}
    (h : Ready { f with dst := regPair wide d } 0 s w)
    (hv : ∀ l, val (w.atIssue { f with dst := regPair wide d } s) l = val w l) :
    ∃ w', VecDone { f with dst := regPair wide d } wide d (val w) s (s.execVec f wide d val) w w' :=
  State.vec_done (fun _ _ => val) (fun _ _ => true) rfl (val w) h (funext hv)

theorem State.execMask_done {s : State} {f : Form} {w : Warp} {d : Nat} {bits : Warp → Nat → Bool} (h : Ready f 0 s w)
    (hv : ∀ l, bits (w.atIssue f s) l = bits w l) : ∃ w', MaskDone f d (bits w) s (s.execMask f d bits) w w' := by
  have hv' := funext hv
  have ha := SameRegs.atIssue w f s
  generalize hen : (issueCtx f s w).en = en
  obtain ⟨w', hr, hs⟩ := State.issue_regs (fun _ _ => true) (fun c s => c.maskEffect d bits s)
    (fun v => (v.setM d (maskWrite (v.mr d) en (Sys2Proof.Machine.maskOf (bits v)))).advance w.group f.len) h rfl
    (fun _ => by rw [← hen]; rfl) (Quiet.trans (Quiet.setM ..) (Quiet.advance ..)) (fun l hl => Warp.pc_advance _ _ _ hl)
  rw [hen] at hs
  by_cases he : en = 0
  · rw [if_pos he] at hs
    exact ⟨w', hr, hs.x, hs.k, fun l _ => by rw [hen, he, hs.mr]; simp, fun n _ => hs.mr n⟩
  · rw [if_neg he] at hs
    have hs2 := (SameRegs.advance ((w.atIssue f s).setM d (maskWrite ((w.atIssue f s).mr d) en
      (Sys2Proof.Machine.maskOf (bits (w.atIssue f s))))) w.group f.len).trans hs
    rw [hv'] at hs2
    refine ⟨w', hr, hs2.x.trans ha.x, hs2.k.trans ha.k, ?_, ?_⟩
    · intro l hl
      rw [hs2.mr, Warp.mr_setM_self, laneIn_maskWrite _ _ _ hl, laneIn_maskOf _ hl, ha.mr, hen]
    · intro n hn
      rw [hs2.mr, Warp.mr_setM, if_neg hn, ha.mr]

theorem State.sca_done {s : State} {f : Form} {w : Warp} {d : Nat} (val : Ctx → State → Warp → DWord) (legal : Ctx → State → Bool)
    (hl : legal (issueCtx f s w) s = true) (v : DWord) (h : Ready f 0 s w)
    (hv : val (issueCtx f s w) (s.begun f 0 w) (w.atIssue f s) = v) :
    ∃ w', ScaDone f d v s (s.issue f legal (fun _ _ => 0) fun c s => c.scaEffect d (val c s) s) w w' := by
  have ha := SameRegs.atIssue w f s
  generalize hen : (issueCtx f s w).en = en
  obtain ⟨w', hr, hs⟩ := State.issue_regs legal (fun c s => c.scaEffect d (val c s) s)
    (fun v => (v.setK d (val (issueCtx f s w) (s.begun f 0 w) v)).advance w.group f.len) h hl
    (fun _ => rfl) (Quiet.trans (Quiet.setK ..) (Quiet.advance ..)) (fun l hl => Warp.pc_advance _ _ _ hl)
  rw [hen] at hs
  by_cases he : en = 0
  · rw [if_pos he] at hs
    exact ⟨w', hr, hs.x, hs.m, fun h => absurd (hen.trans he) h, fun _ => hs.kr d, fun n _ => hs.kr n⟩
  · rw [if_neg he] at hs
    have hs2 := (SameRegs.advance ((w.atIssue f s).setK d (val (issueCtx f s w) (s.begun f 0 w) (w.atIssue f s))) w.group f.len).trans hs
    refine ⟨w', hr, hs2.x.trans ha.x, hs2.m.trans ha.m, ?_, fun h => absurd (hen.symm.trans h) he, ?_⟩
    · intro _
      rw [hs2.kr, Warp.kr_setK_self, hv]
    · intro n hn
      rw [hs2.kr, Warp.kr_setK, if_neg hn, ha.kr]

theorem State.execSca_done {s : State} {f : Form} {w : Warp} {d : Nat} {val : Warp → DWord} (h : Ready f 0 s w)
    (hv : val (w.atIssue f s) = val w) : ∃ w', ScaDone f d (val w) s (s.execSca f d val) w w' :=
  State.sca_done (fun _ _ => val) (fun _ _ => true) rfl (val w) h hv

/-- A warp that stands, lanes blocked apart, where an effect that advances its lanes left it. -/
theorem advanced_of {F : Form} {s : State} {w w' v : Warp} (hb : v.blockedLanes = w.blockedLanes)
    (hpc : ∀ l < 32, v.pc l = if laneIn w.group l then w.pc l + BitVec.ofNat 64 F.len else w.pc l)
    (h : ∀ l < 32, laneIn v.blockedLanes l = false → w'.pc l = v.pc l ∧ w'.revOf l = v.revOf l) : Advanced (issueCtx F s w) w w' := by
  intro l hl
  refine ⟨fun hg => ?_, fun hg hu => ?_⟩
  · have hg' : laneIn w.group l = true := hg
    rw [(h l hl (hb ▸ Warp.group_unblocked hg')).1, hpc l hl, if_pos hg']; rfl
  · have hg' : laneIn w.group l = false := hg
    rw [(h l hl (hb ▸ hu)).1, hpc l hl, hg']; rfl

/-- An instruction whose effect is the advance of its lanes. -/
theorem State.issue_advances {s : State} {f : Form} {w : Warp} (legal : Ctx → State → Bool) (body : Ctx → State → State)
    (h : Ready f 0 s w) (hl : legal (issueCtx f s w) s = true)
    (hb : body (issueCtx f s w) (s.begun f 0 w) = (s.begun f 0 w).modWarp s.cur fun v => v.advance w.group f.len) :
    ∃ w', OnlyAdvances f s (s.issue f legal (fun _ _ => 0) body) w w' := by
  obtain ⟨w', hr, hs⟩ := State.issue_regs legal body (fun v => v.advance w.group f.len) h hl (fun _ => hb) (Quiet.advance ..)
    (fun l hl => Warp.pc_advance _ _ _ hl)
  refine ⟨w', hr, ?_, ?_, ?_⟩
  · rw [hs.x]; split <;> rfl
  · rw [hs.k]; split <;> rfl
  · rw [hs.m]; split <;> rfl

end Sys2Proof.Machine
end

