-- ==== Sys2Proof/Laws/Commit.lean ====
section
/-!
SUPPORT. Laws/Commit.lean: what a commit point does of itself, when nothing is held and nothing waits for the commit.
-/

namespace Sys2Proof.Machine

theorem State.modWarp_modWarp (s : State) (k : Nat) (f g : Warp → Warp) : (s.modWarp k f).modWarp k g = s.modWarp k fun v => g (f v) := by
  simp only [State.modWarp, Tab.mod_mod]

theorem State.modMem_id (s : State) : s.modMem (fun m => m) = s := rfl

/-- The warp after the steps 2 and 3 of a commit point of lanes that hold nothing (R168, R250, R289, R290, R409). -/
def Warp.committed (w : Warp) (c : Ctx) : Warp :=
  { w with
    rsb := [], rcount := 0, lwc := 0, stage := none, wr := (Tab.mapv w.wr (fun _ m => m &&& ~~~c.en)).filter (fun e => e.2 != 0),
    rev := onLanes 0 w.rev c.en (fun _ => c.here), rseq := onLanes 0 w.rseq c.en (fun l => w.seqOf l + 1),
    budget := onLanes 0 w.budget c.en (fun _ => 32) }

theorem State.modWarp_congr {s : State} {k : Nat} {w : Warp} (h : s.warp? k = some w) {f g : Warp → Warp} (e : f w = g w) :
    s.modWarp k f = s.modWarp k g := by
  have h' : Tab.look s.warps k = some w := h
  simp only [State.modWarp, Tab.mod, h', e]

theorem State.claimTag_warp? (s : State) (c ctx tag k : Nat) : (s.claimTag c ctx tag).warp? k = s.warp? k := by
  unfold State.claimTag; split <;> rfl
theorem State.claimTag_mem (s : State) (c ctx tag : Nat) : (s.claimTag c ctx tag).mem = s.mem := by
  unfold State.claimTag; split <;> rfl
theorem State.claimTag_warps (s : State) (c ctx tag : Nat) : (s.claimTag c ctx tag).warps = s.warps := by
  unfold State.claimTag; split <;> rfl

theorem Unawaited.upd {s : State} {wid : Nat} {w : Warp} (hw : s.warp? wid = some w) (h : Unawaited s wid) (g : Warp → Warp)
    (hg : (g w).blocked = w.blocked) : Unawaited (s.modWarp wid g) wid := by
  have key : ∀ t : Tab Warp, Tab.look t wid = some w → ∀ v ∈ Tab.upd t wid (g w), v ∈ t ∨ v.2.blocked = w.blocked := by
    intro t
    induction t with
    | nil => intro h; simp at h
    | cons e r ih =>
      intro hl v hv
      simp only [Tab.look] at hl
      simp only [Tab.upd] at hv
      split at hv
      · rcases List.mem_cons.1 hv with rfl | hv
        · exact .inr hg
        · exact .inl hv
      · rename_i hlt
        split at hv
        · rcases List.mem_cons.1 hv with rfl | hv
          · exact .inr hg
          · exact .inl (List.mem_cons_of_mem _ hv)
        · rename_i hne
          rw [if_neg hne] at hl
          rcases List.mem_cons.1 hv with rfl | hv
          · exact .inl (List.mem_cons_self ..)
          · rcases ih hl v hv with h | h
            · exact .inl (List.mem_cons_of_mem _ h)
            · exact .inr h
  have hmem : ∃ v ∈ s.warps, v.2 = w := by
    have : ∀ t : Tab Warp, Tab.look t wid = some w → ∃ v ∈ t, v.2 = w := by
      intro t
      induction t with
      | nil => intro h; simp at h
      | cons e r ih =>
        intro h
        simp only [Tab.look] at h
        split at h
        · exact ⟨e, List.mem_cons_self .., Option.some.inj h⟩
        · obtain ⟨v, hv, e⟩ := ih h
          exact ⟨v, List.mem_cons_of_mem _ hv, e⟩
    exact this _ hw
  have hw' : Tab.look s.warps wid = some w := hw
  intro v hv
  simp only [State.modWarp, Tab.mod, hw'] at hv
  rcases key _ hw v hv with h1 | h1
  · exact h v h1
  · obtain ⟨u, hu, e⟩ := hmem
    rw [h1, ← e]
    exact h u hu

theorem State.meetFences_none {s : State} {wid : Nat} (h : Unawaited s wid) : s.meetFences wid = s := by
  unfold State.meetFences
  have : s.warps.flatMap (fun e => e.2.blocked.filterMap (fenceWait wid)) = [] := by
    rw [List.flatMap_eq_nil_iff]
    intro v hv
    rw [List.filterMap_eq_nil_iff]
    intro b hb
    exact h v hv b hb
  rw [this]; rfl

/-- A commit that performs no reduction pays for none. -/
theorem State.payHeld_none {s : State} {c : Ctx} {tag : Nat} {go : State → State} (h : s.heldReds c.wid c.en = 0) : s.payHeld c tag go = go s := by
  simp [State.payHeld, h]

/-- The commit of lanes that hold nothing changes nothing but the empty buffer. -/
theorem State.commit_none {s : State} {wid : Nat} {lanes : Word} {w : Warp} (hw : s.warp? wid = some w) (hr : w.rsb = [])
    (hm : s.mem.marks = []) (hup : s.mem.upset = []) : s.commit wid lanes = s.modWarp wid fun v => { v with rsb := [] } := by
  have hd : s.drain wid lanes (fun _ => true) = s.modWarp wid fun v => { v with rsb := [] } := by
    unfold State.drain
    rw [hw]
    simp only [hr, List.filter_nil, List.foldl_nil, globalLines, List.filterMap_nil, distinct]
    have : (s.modMem fun m => m.heal (keysHeld [])) = s := by simp [State.modMem, Mem.heal, hup]
    rw [this]
    exact State.modWarp_congr hw (by simp [hr])
  unfold State.commit
  rw [hd]
  exact if_pos (by simp [hm])

/-- Steps 2 and 3 of a commit point that begins, whose lanes hold nothing and for which nothing waits (R168). -/
theorem State.commitFrom_clean {S : State} {c : Ctx} {w : Warp} {ctx tag : Nat} {body : State → State}
    (hw : S.warp? c.wid = some w) (hst : w.stage = none) (hr : w.rsb = []) (ht : w.timer = false) (hq : w.faults = [])
    (hm : S.mem.marks = []) (hup : S.mem.upset = []) (hu : Unawaited S c.wid) :
    S.commitFrom c ctx tag body = body (S.modWarp c.wid fun v => v.committed c) := by
  have hdl : S.drainLines c.wid c.en = [] := by
    unfold State.drainLines; rw [hw]; simp [hr, globalLines, distinct]
  have hld : S.linesDue c.wid c.en = [] := by
    unfold State.linesDue; rw [hw]; simp [hr, Warp.linesHeld]
  have hstep : S.commitStep c = S.modWarp c.wid fun v =>
      { v with rsb := [], rcount := 0, lwc := 0, stage := none, wr := (Tab.mapv v.wr (fun _ m => m &&& ~~~c.en)).filter (fun e => e.2 != 0) } := by
    unfold State.commitStep
    simp only [hdl, State.commit_none hw hr hm hup, List.foldl_nil, State.modWarp_modWarp]
    exact State.meetFences_none (Unawaited.upd hw hu _ rfl)
  unfold State.commitFrom
  rw [State.payHeld_none (by unfold State.heldReds; rw [hw]; simp [hr])]
  simp only [State.whenHome, hdl, List.any_nil, Bool.false_eq_true, if_false, hw, Option.bind_some, hst, hld, List.length_nil,
    Nat.not_lt_zero, decide_false, Bool.and_false, hstep]
  have hpt : (S.modWarp c.wid fun v =>
      { v with rsb := [], rcount := 0, lwc := 0, stage := none, wr := (Tab.mapv v.wr (fun _ m => m &&& ~~~c.en)).filter (fun e => e.2 != 0) }).pendingTrap c = none := by
    unfold State.pendingTrap
    rw [State.warp?_modWarp_self, hw]
    simp [ht, hq]
  rw [hpt]
  simp only [State.newRegion, State.modWarp_modWarp]
  rfl

/-- A COMMIT POINT whose lanes hold nothing and for whose commit nothing waits goes straight to its steps 4 and 5 (R168). -/
theorem State.commitTag_clean {s : State} {c : Ctx} {w : Warp} {tag : Nat} {pre : State → Option Trap} {body : State → State}
    (hw : s.warp? c.wid = some w) (hst : w.stage = none) (hf : (s.core c.core).tagFlies w.ctx tag = false) (hp : pre s = none)
    (hr : w.rsb = []) (ht : w.timer = false) (hq : w.faults = []) (hm : s.mem.marks = []) (hup : s.mem.upset = [])
    (hu : Unawaited s c.wid) :
    s.commitTag c tag pre body = body ((s.claimTag c.core w.ctx tag).modWarp c.wid fun v => v.committed c) := by
  have hdl : s.drainLines c.wid c.en = [] := by
    unfold State.drainLines; rw [hw]; simp [hr, globalLines, distinct]
  unfold State.commitTag
  simp only [hw, Warp.stageStep, hst, hf, hp, State.commitPoison, hdl, List.find?_nil,
    State.commitMerge, hup, List.isEmpty_nil, ne_eq, Nat.reduceEqDiff, not_true_eq_false, Bool.false_eq_true, if_false, if_true]
  exact State.commitFrom_clean (by rw [State.claimTag_warp?]; exact hw) hst hr ht hq (by rw [State.claimTag_mem]; exact hm)
    (by rw [State.claimTag_mem]; exact hup) (by intro v hv; rw [State.claimTag_warps] at hv; exact hu v hv)

/-! ### The warp behind a commit point -/

theorem Warp.seqOf_committed (w : Warp) (c : Ctx) {l : Nat} (h : l < 32) :
    (w.committed c).seqOf l = if laneIn c.en l then w.seqOf l + 1 else w.seqOf l := by
  simp only [Warp.seqOf, Warp.committed]; exact getD_onLanes _ _ _ _ h _
theorem Warp.revOf_committed (w : Warp) (c : Ctx) {l : Nat} (h : l < 32) :
    (w.committed c).revOf l = if laneIn c.en l then c.here else w.revOf l := by
  simp only [Warp.revOf, Warp.committed]; exact getD_onLanes _ _ _ _ h _
theorem Warp.budgetOf_committed (w : Warp) (c : Ctx) {l : Nat} (h : l < 32) :
    (w.committed c).budgetOf l = if laneIn c.en l then 32 else w.budgetOf l := by
  simp only [Warp.budgetOf, Warp.committed]; exact getD_onLanes _ _ _ _ h _

/-- Step 5 as a change of the warp. -/
def Warp.left (w : Warp) (c : Ctx) : Warp :=
  ({ (w.setPc c.en (fun _ => c.next)).setRev c.en (fun _ => c.next) with stage := none }).advance (c.iss &&& ~~~c.en) c.len

theorem State.leave_eq (s : State) (c : Ctx) : s.leave c = s.modWarp c.wid fun w => w.left c := State.modWarp_modWarp ..


@[simp] theorem Warp.atIssue_ctx (w : Warp) (F : Form) (s : State) : (w.atIssue F s).ctx = w.ctx := rfl
@[simp] theorem Warp.committed_ctx (w : Warp) (c : Ctx) : (w.committed c).ctx = w.ctx := rfl
@[simp] theorem Warp.left_ctx (w : Warp) (c : Ctx) : (w.left c).ctx = w.ctx := rfl
@[simp] theorem Warp.atIssue_blk (w : Warp) (F : Form) (s : State) : (w.atIssue F s).blk = w.blk := rfl
@[simp] theorem Warp.committed_blk (w : Warp) (c : Ctx) : (w.committed c).blk = w.blk := rfl
@[simp] theorem Warp.left_blk (w : Warp) (c : Ctx) : (w.left c).blk = w.blk := rfl
@[simp] theorem Warp.atIssue_widx (w : Warp) (F : Form) (s : State) : (w.atIssue F s).widx = w.widx := rfl
@[simp] theorem Warp.committed_widx (w : Warp) (c : Ctx) : (w.committed c).widx = w.widx := rfl
@[simp] theorem Warp.left_widx (w : Warp) (c : Ctx) : (w.left c).widx = w.widx := rfl
@[simp] theorem Warp.atIssue_level (w : Warp) (F : Form) (s : State) : (w.atIssue F s).level = w.level := rfl
@[simp] theorem Warp.committed_level (w : Warp) (c : Ctx) : (w.committed c).level = w.level := rfl
@[simp] theorem Warp.left_level (w : Warp) (c : Ctx) : (w.left c).level = w.level := rfl
@[simp] theorem Warp.atIssue_regs (w : Warp) (F : Form) (s : State) : (w.atIssue F s).regs = w.regs := rfl
@[simp] theorem Warp.committed_regs (w : Warp) (c : Ctx) : (w.committed c).regs = w.regs := rfl
@[simp] theorem Warp.left_regs (w : Warp) (c : Ctx) : (w.left c).regs = w.regs := rfl
@[simp] theorem Warp.atIssue_regs0 (w : Warp) (F : Form) (s : State) : (w.atIssue F s).regs0 = w.regs0 := rfl
@[simp] theorem Warp.committed_regs0 (w : Warp) (c : Ctx) : (w.committed c).regs0 = w.regs0 := rfl
@[simp] theorem Warp.left_regs0 (w : Warp) (c : Ctx) : (w.left c).regs0 = w.regs0 := rfl
@[simp] theorem Warp.atIssue_lean (w : Warp) (F : Form) (s : State) : (w.atIssue F s).lean = w.lean := rfl
@[simp] theorem Warp.committed_lean (w : Warp) (c : Ctx) : (w.committed c).lean = w.lean := rfl
@[simp] theorem Warp.left_lean (w : Warp) (c : Ctx) : (w.left c).lean = w.lean := rfl
@[simp] theorem Warp.atIssue_x (w : Warp) (F : Form) (s : State) : (w.atIssue F s).x = w.x := rfl
@[simp] theorem Warp.committed_x (w : Warp) (c : Ctx) : (w.committed c).x = w.x := rfl
@[simp] theorem Warp.left_x (w : Warp) (c : Ctx) : (w.left c).x = w.x := rfl
@[simp] theorem Warp.atIssue_k (w : Warp) (F : Form) (s : State) : (w.atIssue F s).k = w.k := rfl
@[simp] theorem Warp.committed_k (w : Warp) (c : Ctx) : (w.committed c).k = w.k := rfl
@[simp] theorem Warp.left_k (w : Warp) (c : Ctx) : (w.left c).k = w.k := rfl
@[simp] theorem Warp.atIssue_m (w : Warp) (F : Form) (s : State) : (w.atIssue F s).m = w.m := rfl
@[simp] theorem Warp.committed_m (w : Warp) (c : Ctx) : (w.committed c).m = w.m := rfl
@[simp] theorem Warp.left_m (w : Warp) (c : Ctx) : (w.left c).m = w.m := rfl
@[simp] theorem Warp.atIssue_pcv (w : Warp) (F : Form) (s : State) : (w.atIssue F s).pcv = w.pcv := rfl
@[simp] theorem Warp.committed_pcv (w : Warp) (c : Ctx) : (w.committed c).pcv = w.pcv := rfl
@[simp] theorem Warp.atIssue_rev (w : Warp) (F : Form) (s : State) : (w.atIssue F s).rev = w.rev := rfl
@[simp] theorem Warp.atIssue_rseq (w : Warp) (F : Form) (s : State) : (w.atIssue F s).rseq = w.rseq := rfl
@[simp] theorem Warp.left_rseq (w : Warp) (c : Ctx) : (w.left c).rseq = w.rseq := rfl
@[simp] theorem Warp.atIssue_budget (w : Warp) (F : Form) (s : State) : (w.atIssue F s).budget = w.budget := rfl
@[simp] theorem Warp.left_budget (w : Warp) (c : Ctx) : (w.left c).budget = w.budget := rfl
@[simp] theorem Warp.atIssue_exited (w : Warp) (F : Form) (s : State) : (w.atIssue F s).exited = w.exited := rfl
@[simp] theorem Warp.committed_exited (w : Warp) (c : Ctx) : (w.committed c).exited = w.exited := rfl
@[simp] theorem Warp.left_exited (w : Warp) (c : Ctx) : (w.left c).exited = w.exited := rfl
@[simp] theorem Warp.atIssue_delayed (w : Warp) (F : Form) (s : State) : (w.atIssue F s).delayed = w.delayed := rfl
@[simp] theorem Warp.committed_delayed (w : Warp) (c : Ctx) : (w.committed c).delayed = w.delayed := rfl
@[simp] theorem Warp.left_delayed (w : Warp) (c : Ctx) : (w.left c).delayed = w.delayed := rfl
@[simp] theorem Warp.atIssue_blocked (w : Warp) (F : Form) (s : State) : (w.atIssue F s).blocked = w.blocked := rfl
@[simp] theorem Warp.committed_blocked (w : Warp) (c : Ctx) : (w.committed c).blocked = w.blocked := rfl
@[simp] theorem Warp.left_blocked (w : Warp) (c : Ctx) : (w.left c).blocked = w.blocked := rfl
@[simp] theorem Warp.atIssue_parked (w : Warp) (F : Form) (s : State) : (w.atIssue F s).parked = w.parked := rfl
@[simp] theorem Warp.committed_parked (w : Warp) (c : Ctx) : (w.committed c).parked = w.parked := rfl
@[simp] theorem Warp.left_parked (w : Warp) (c : Ctx) : (w.left c).parked = w.parked := rfl
@[simp] theorem Warp.atIssue_susp (w : Warp) (F : Form) (s : State) : (w.atIssue F s).susp = w.susp := rfl
@[simp] theorem Warp.committed_susp (w : Warp) (c : Ctx) : (w.committed c).susp = w.susp := rfl
@[simp] theorem Warp.left_susp (w : Warp) (c : Ctx) : (w.left c).susp = w.susp := rfl
@[simp] theorem Warp.atIssue_rlimit (w : Warp) (F : Form) (s : State) : (w.atIssue F s).rlimit = w.rlimit := rfl
@[simp] theorem Warp.committed_rlimit (w : Warp) (c : Ctx) : (w.committed c).rlimit = w.rlimit := rfl
@[simp] theorem Warp.left_rlimit (w : Warp) (c : Ctx) : (w.left c).rlimit = w.rlimit := rfl
@[simp] theorem Warp.atIssue_rcount (w : Warp) (F : Form) (s : State) : (w.atIssue F s).rcount = w.rcount := rfl
@[simp] theorem Warp.left_rcount (w : Warp) (c : Ctx) : (w.left c).rcount = w.rcount := rfl
@[simp] theorem Warp.atIssue_tcmp (w : Warp) (F : Form) (s : State) : (w.atIssue F s).tcmp = w.tcmp := rfl
@[simp] theorem Warp.committed_tcmp (w : Warp) (c : Ctx) : (w.committed c).tcmp = w.tcmp := rfl
@[simp] theorem Warp.left_tcmp (w : Warp) (c : Ctx) : (w.left c).tcmp = w.tcmp := rfl
@[simp] theorem Warp.atIssue_timer (w : Warp) (F : Form) (s : State) : (w.atIssue F s).timer = w.timer := rfl
@[simp] theorem Warp.committed_timer (w : Warp) (c : Ctx) : (w.committed c).timer = w.timer := rfl
@[simp] theorem Warp.left_timer (w : Warp) (c : Ctx) : (w.left c).timer = w.timer := rfl
@[simp] theorem Warp.atIssue_frec (w : Warp) (F : Form) (s : State) : (w.atIssue F s).frec = w.frec := rfl
@[simp] theorem Warp.committed_frec (w : Warp) (c : Ctx) : (w.committed c).frec = w.frec := rfl
@[simp] theorem Warp.left_frec (w : Warp) (c : Ctx) : (w.left c).frec = w.frec := rfl
@[simp] theorem Warp.atIssue_tclass (w : Warp) (F : Form) (s : State) : (w.atIssue F s).tclass = w.tclass := rfl
@[simp] theorem Warp.committed_tclass (w : Warp) (c : Ctx) : (w.committed c).tclass = w.tclass := rfl
@[simp] theorem Warp.left_tclass (w : Warp) (c : Ctx) : (w.left c).tclass = w.tclass := rfl
@[simp] theorem Warp.atIssue_rsb (w : Warp) (F : Form) (s : State) : (w.atIssue F s).rsb = w.rsb := rfl
@[simp] theorem Warp.left_rsb (w : Warp) (c : Ctx) : (w.left c).rsb = w.rsb := rfl
@[simp] theorem Warp.atIssue_ewc (w : Warp) (F : Form) (s : State) : (w.atIssue F s).ewc = w.ewc := rfl
@[simp] theorem Warp.committed_ewc (w : Warp) (c : Ctx) : (w.committed c).ewc = w.ewc := rfl
@[simp] theorem Warp.left_ewc (w : Warp) (c : Ctx) : (w.left c).ewc = w.ewc := rfl
@[simp] theorem Warp.atIssue_faults (w : Warp) (F : Form) (s : State) : (w.atIssue F s).faults = w.faults := rfl
@[simp] theorem Warp.committed_faults (w : Warp) (c : Ctx) : (w.committed c).faults = w.faults := rfl
@[simp] theorem Warp.left_faults (w : Warp) (c : Ctx) : (w.left c).faults = w.faults := rfl
@[simp] theorem Warp.atIssue_inv (w : Warp) (F : Form) (s : State) : (w.atIssue F s).inv = w.inv := rfl
@[simp] theorem Warp.committed_inv (w : Warp) (c : Ctx) : (w.committed c).inv = w.inv := rfl
@[simp] theorem Warp.left_inv (w : Warp) (c : Ctx) : (w.left c).inv = w.inv := rfl
@[simp] theorem Warp.atIssue_stopped (w : Warp) (F : Form) (s : State) : (w.atIssue F s).stopped = w.stopped := rfl
@[simp] theorem Warp.committed_stopped (w : Warp) (c : Ctx) : (w.committed c).stopped = w.stopped := rfl
@[simp] theorem Warp.left_stopped (w : Warp) (c : Ctx) : (w.left c).stopped = w.stopped := rfl
@[simp] theorem Warp.atIssue_loads (w : Warp) (F : Form) (s : State) : (w.atIssue F s).loads = w.loads := rfl
@[simp] theorem Warp.committed_loads (w : Warp) (c : Ctx) : (w.committed c).loads = w.loads := rfl
@[simp] theorem Warp.left_loads (w : Warp) (c : Ctx) : (w.left c).loads = w.loads := rfl
@[simp] theorem Warp.atIssue_inbox (w : Warp) (F : Form) (s : State) : (w.atIssue F s).inbox = w.inbox := rfl
@[simp] theorem Warp.committed_inbox (w : Warp) (c : Ctx) : (w.committed c).inbox = w.inbox := rfl
@[simp] theorem Warp.left_inbox (w : Warp) (c : Ctx) : (w.left c).inbox = w.inbox := rfl
@[simp] theorem Warp.atIssue_wr (w : Warp) (F : Form) (s : State) : (w.atIssue F s).wr = w.wr := rfl
@[simp] theorem Warp.left_wr (w : Warp) (c : Ctx) : (w.left c).wr = w.wr := rfl
@[simp] theorem Warp.atIssue_clean (w : Warp) (F : Form) (s : State) : (w.atIssue F s).clean = w.clean := rfl
@[simp] theorem Warp.committed_clean (w : Warp) (c : Ctx) : (w.committed c).clean = w.clean := rfl
@[simp] theorem Warp.left_clean (w : Warp) (c : Ctx) : (w.left c).clean = w.clean := rfl
@[simp] theorem Warp.atIssue_deferred (w : Warp) (F : Form) (s : State) : (w.atIssue F s).deferred = 0 := rfl
@[simp] theorem Warp.committed_deferred (w : Warp) (c : Ctx) : (w.committed c).deferred = w.deferred := rfl
@[simp] theorem Warp.left_deferred (w : Warp) (c : Ctx) : (w.left c).deferred = w.deferred := rfl
@[simp] theorem Warp.committed_rsb (w : Warp) (c : Ctx) : (w.committed c).rsb = [] := rfl
@[simp] theorem Warp.committed_rcount (w : Warp) (c : Ctx) : (w.committed c).rcount = 0 := rfl

theorem Warp.pc_left (w : Warp) (c : Ctx) {l : Nat} (h : l < 32) :
    (w.left c).pc l = if laneIn c.en l then c.next else if laneIn c.iss l then w.pc l + BitVec.ofNat 64 c.len else w.pc l := by
  have e : ∀ v : Warp, v.pcv = (w.setPc c.en (fun _ => c.next)).pcv → v.pc l = if laneIn c.en l then c.next else w.pc l := by
    intro v hv
    have : v.pc l = (w.setPc c.en (fun _ => c.next)).pc l := by simp only [Warp.pc, hv]
    rw [this, Warp.pc_setPc _ _ _ h]
  unfold Warp.left
  generalize hv : ({ (w.setPc c.en (fun _ => c.next)).setRev c.en (fun _ => c.next) with stage := none } : Warp) = v
  rw [Warp.pc_advance _ _ _ h, e v (by rw [← hv]; rfl), laneIn_and, laneIn_not h]
  cases laneIn c.en l <;> cases laneIn c.iss l <;> simp

theorem Warp.revOf_left (w : Warp) (c : Ctx) {l : Nat} (h : l < 32) :
    (w.left c).revOf l = if laneIn c.en l then c.next else w.revOf l :=
  Warp.revOf_setRev (w.setPc c.en fun _ => c.next) c.en (fun _ => c.next) h

/-- A commit point that is ready and clean comes to its step 4 in this state. -/
theorem State.commit_ready {s : State} {f : Form} {w : Warp} {n tag : Nat} (pre : State → Option Trap) (B : State → State)
    (h : Ready f n s w) (hc : CommitsEmpty s w) (hf : ((s.begun f n w).core (coreOf s.cur)).tagFlies w.ctx tag = false)
    (hp : pre (s.begun f n w) = none) :
    (s.begun f n w).commitTag (issueCtx f s w) tag pre B
      = B (((s.begun f n w).claimTag (coreOf s.cur) w.ctx tag).modWarp s.cur fun v => v.committed (issueCtx f s w)) := by
  have hb := State.begun_only (s := s) (f := f) (n := n) (w := w) id
  have hm : (s.begun f n w).mem = s.mem := hb.mem
  have hW := State.begun_warp (n := n) (f := f) h.cur
  have hu : Unawaited (s.begun f n w) s.cur := by
    unfold State.begun
    have : ∀ S : State, S.warps = s.warps → Unawaited (S.modWarp s.cur fun v => v.marked (f.seen (issueCtx f s w).en) w.group (s.clk s.cur).toNat) s.cur := by
      intro S hS
      refine Unawaited.upd (w := w) ?_ ?_ _ rfl
      · unfold State.warp?; rw [hS]; exact h.cur
      · intro v hv; rw [hS] at hv; exact hc.unawaited v hv
    split
    · exact this s rfl
    · exact this _ rfl
  have hst : (w.atIssue f s).stage = none := by rfl
  exact State.commitTag_clean (c := issueCtx f s w) (w := w.atIssue f s) hW hst hf hp hc.rsb hc.timer hc.faults (by rw [hm]; exact hc.marks)
    (by rw [hm]; exact h.sound) hu

theorem tagFlies_64 (c : Core) (ctx : Nat) : c.tagFlies ctx 64 = false := by
  unfold Core.tagFlies; split <;> simp
theorem claimTag_64 (s : State) (c ctx : Nat) : s.claimTag c ctx 64 = s := rfl

/-- The same where the instruction names no tag. -/
theorem State.commitPoint_ready {s : State} {f : Form} {w : Warp} {n : Nat} (pre : State → Option Trap) (B : State → State)
    (h : Ready f n s w) (hc : CommitsEmpty s w) (hp : pre (s.begun f n w) = none) :
    (s.begun f n w).commitPoint (issueCtx f s w) pre B = B ((s.begun f n w).modWarp s.cur fun v => v.committed (issueCtx f s w)) :=
  State.commit_ready pre B h hc (tagFlies_64 ..) hp

/-- What the commit point did to the warp, seen through the rest of the instruction, which leaves these fields alone. -/
theorem Committed.of {f : Form} {s : State} {w v w' : Warp} (h : Warp.SameButPcs v w') (hx : SameRegs w v) (hr : v.rsb = [])
    (hc : v.rcount = 0) (hs : v.rseq = (w.committed (issueCtx f s w)).rseq) (h1 : v.rlimit = w.rlimit) (h2 : v.tcmp = w.tcmp)
    (h3 : v.timer = w.timer) (h4 : v.frec = w.frec) (h5 : v.tclass = w.tclass) (h6 : v.susp = w.susp) (h7 : v.parked = w.parked)
    (h8 : v.faults = w.faults) : Committed f s w w' := by
  refine ⟨hx.trans h.regs, h.rsb.trans hr, h.rcount.trans hc, ?_, h.rlimit.trans h1, h.tcmp.trans h2, h.timer.trans h3, h.frec.trans h4,
    h.tclass.trans h5, h.standing.susp.trans h6, h.standing.parked.trans h7, h.standing.faults.trans h8⟩
  intro l hl
  have := Warp.seqOf_committed w (issueCtx f s w) hl
  simp only [Warp.seqOf, h.rseq, hs] at this ⊢
  exact this

/-- Where step 5 left the lanes, seen after the end of the instruction. -/
theorem LeftBehind.of {f : Form} {s : State} {w u v w' : Warp} (hb : v.blockedLanes = w.blockedLanes)
    (hu : ∀ l < 32, u.pc l = w.pc l ∧ (laneIn (issueCtx f s w).en l = false → u.revOf l = w.revOf l))
    (hv : v.pcv = (u.left (issueCtx f s w)).pcv ∧ v.rev = (u.left (issueCtx f s w)).rev)
    (h : ∀ l < 32, laneIn v.blockedLanes l = false → w'.pc l = v.pc l ∧ w'.revOf l = v.revOf l) : LeftBehind f s w w' := by
  have hp : ∀ l < 32, laneIn w.blockedLanes l = false → w'.pc l = (u.left (issueCtx f s w)).pc l ∧
      w'.revOf l = (u.left (issueCtx f s w)).revOf l := by
    intro l hl hn
    obtain ⟨a, b⟩ := h l hl (hb ▸ hn)
    exact ⟨a.trans (by simp only [Warp.pc, hv.1]), b.trans (by simp only [Warp.revOf, hv.2])⟩
  have hen : ∀ l, laneIn (issueCtx f s w).en l = true → laneIn w.group l = true := by
    intro l hl
    simp only [issueCtx, laneIn_and, Bool.and_eq_true] at hl; exact hl.1
  refine ⟨fun l hl => ?_, fun l hl hn => ?_, fun l hl hg hn => ?_⟩
  · have hl32 := laneIn_lt hl
    obtain ⟨a, b⟩ := hp l hl32 (Warp.group_unblocked (hen l hl))
    rw [a, b, Warp.pc_left _ _ hl32, Warp.revOf_left _ _ hl32]; simp [hl]
  · have hl32 := laneIn_lt hl
    obtain ⟨a, b⟩ := hp l hl32 (Warp.group_unblocked hl)
    have hi : laneIn (issueCtx f s w).iss l = true := hl
    rw [a, b, Warp.pc_left _ _ hl32, Warp.revOf_left _ _ hl32]
    simp only [hn, Bool.false_eq_true, if_false, hi, if_true, (hu l hl32).1, (hu l hl32).2 hn]
    exact ⟨rfl, trivial⟩
  · obtain ⟨a, b⟩ := hp l hl hn
    have hn2 : laneIn (issueCtx f s w).en l = false := by
      cases h : laneIn (issueCtx f s w).en l
      · rfl
      · rw [hen l h] at hg; simp at hg
    have hi : laneIn (issueCtx f s w).iss l = false := hg
    rw [a, b, Warp.pc_left _ _ hl, Warp.revOf_left _ _ hl]
    simp only [hn2, Bool.false_eq_true, if_false, hi, (hu l hl).1, (hu l hl).2 hn2]
    exact ⟨trivial, trivial⟩

/-- Fields of a warp that the end of a commit point leaves alone. -/
structure KeepsCommit (u v : Warp) : Prop where
  regs : SameRegs u v
  rsb : v.rsb = u.rsb
  rcount : v.rcount = u.rcount
  rseq : v.rseq = u.rseq
  rlimit : v.rlimit = u.rlimit
  tcmp : v.tcmp = u.tcmp
  timer : v.timer = u.timer
  frec : v.frec = u.frec
  tclass : v.tclass = u.tclass
  susp : v.susp = u.susp
  parked : v.parked = u.parked
  faults : v.faults = u.faults

theorem KeepsCommit.committed {F : Form} {s : State} {w v w' : Warp} (hv : KeepsCommit ((w.atIssue F s).committed (issueCtx F s w)) v)
    (h : Warp.SameButPcs v w') : Committed F s w w' :=
  Committed.of h (SameRegs.trans (SameRegs.atIssue w F s) ⟨hv.regs.x, hv.regs.k, hv.regs.m⟩) hv.rsb hv.rcount hv.rseq hv.rlimit hv.tcmp
    hv.timer hv.frec hv.tclass hv.susp hv.parked hv.faults

/-- A COMMIT POINT WITH AN EFFECT ON ITS WARP ALONE, ready and clean: what it leaves, for the change `g` that its steps 4 and 5 make of
the committed warp. -/
theorem State.commit_warp {s : State} {F : Form} {w : Warp} {n : Nat} (legal : Ctx → State → Bool) (steps : Ctx → State → Nat)
    (pre : Ctx → State → Option Trap) (B : Ctx → State → State) (g : Warp → Warp) (hr : Ready F n s w)
    (hl : legal (issueCtx F s w) s = true) (hs : steps (issueCtx F s w) s = n) (hc : CommitsEmpty s w)
    (he : (issueCtx F s w).en ≠ 0) (hp : pre (issueCtx F s w) (s.begun F n w) = none)
    (hB : B (issueCtx F s w) ((s.begun F n w).modWarp s.cur fun v => v.committed (issueCtx F s w))
      = ((s.begun F n w).modWarp s.cur fun v => v.committed (issueCtx F s w)).modWarp s.cur g)
    (hg : KeepsCommit ((w.atIssue F s).committed (issueCtx F s w)) (g ((w.atIssue F s).committed (issueCtx F s w)))) :
    ∃ w', (s.issue F legal steps fun c s => s.commitPoint c (pre c) (B c)).warp? s.cur = some w' ∧
      OnlyWarp (issueCost F n s w) s (s.issue F legal steps fun c s => s.commitPoint c (pre c) (B c)) w ∧
      Committed F s w w' ∧ Warp.SameButPcs (g ((w.atIssue F s).committed (issueCtx F s w))) w' ∧
      ∀ l < 32, laneIn (g ((w.atIssue F s).committed (issueCtx F s w))).blockedLanes l = false →
        w'.pc l = (g ((w.atIssue F s).committed (issueCtx F s w))).pc l ∧
        w'.revOf l = (g ((w.atIssue F s).committed (issueCtx F s w))).revOf l := by
  have hb : (s.begun F n w).commitPoint (issueCtx F s w) (pre (issueCtx F s w)) (B (issueCtx F s w))
      = (s.begun F n w).modWarp s.cur fun v => g (v.committed (issueCtx F s w)) := by
    rw [State.commitPoint_ready _ _ hr hc hp, hB, State.modWarp_modWarp]
  obtain ⟨w', e1, e2, e3, e4⟩ := State.issue_same legal steps (fun c s => s.commitPoint c (pre c) (B c))
    (fun v => g (v.committed (issueCtx F s w))) hr hl hs (fun _ => hb) he
  exact ⟨w', e1, e2, hg.committed e3, e3, e4⟩

/-- Lanes that leave a commit point, with a change that moves no lane after it. -/
theorem LeftBehind.of_left {F : Form} {s : State} {w w' v : Warp}
    (h : ∀ l < 32, laneIn v.blockedLanes l = false → w'.pc l = v.pc l ∧ w'.revOf l = v.revOf l)
    (hv : v.pcv = (((w.atIssue F s).committed (issueCtx F s w)).left (issueCtx F s w)).pcv)
    (hr : v.rev = (((w.atIssue F s).committed (issueCtx F s w)).left (issueCtx F s w)).rev) (hb : v.blockedLanes = w.blockedLanes) :
    LeftBehind F s w w' :=
  LeftBehind.of (u := (w.atIssue F s).committed (issueCtx F s w)) hb
    (fun l hl => ⟨rfl, fun hn => (Warp.revOf_committed _ _ hl).trans (by rw [hn]; rfl)⟩) ⟨hv, hr⟩ h

end Sys2Proof.Machine
end

