-- ==== Sys2Proof/Laws/Control.lean ====
section
/-!
SUPPORT. Laws/Control.lean: control transfers and reads of special registers.
-/

namespace Sys2Proof.Machine

open Sys2Proof.Machine.Shape

/-- What a special register reads as depends on the warp given, and on cores, dies, blocks, aperture registers and free values. -/
theorem State.srVal_congr {s t : State} (hc : ∀ c, t.core c = s.core c) (hd : t.dies = s.dies) (hb : t.blocks = s.blocks) (ha : t.ap = s.ap)
    (ho : t.own = s.own) (k : Nat) (w : Warp) (n l : Nat) : t.srVal k w n l = s.srVal k w n l := by
  have h1 : ∀ d, t.die d = s.die d := by intro d; simp [State.die, hd]
  have h2 : ∀ b, t.block? b = s.block? b := by intro b; simp [State.block?, hb]
  have h3 : t.devId = s.devId := by simp [State.devId, State.apBits, State.ap!, ha]
  have h4 : t.clk k = s.clk k := by simp [State.clk, h1]
  have h5 : ∀ n, t.noPlace n = s.noPlace n := by intro n; simp [State.noPlace, ho]
  unfold State.srVal
  simp only [hc, h1, h2, h3, h4, h5]

/-- Two states that differ from the same one in the current warp alone, after the same charge, read special registers alike. -/
theorem State.srVal_only {s t : State} {F : Form} {w : Warp} (h : OnlyWarp (w.price F) s t w) (k : Nat) (v : Warp) (n l : Nat) :
    t.srVal k v n l = (s.begun F 0 w).srVal k v n l := by
  have hb := State.begun_only (s := s) (f := F) (n := 0) (w := w) id
  have hc : w.price F = issueCost F 0 s w := by simp [issueCost]
  rw [hc] at h
  refine State.srVal_congr ?_ (h.dies.trans hb.dies.symm) (h.blocks.trans hb.blocks.symm) (h.ap.trans hb.ap.symm) (h.own.trans hb.own.symm) ..
  intro c
  by_cases e : c = coreOf s.cur
  · subst e; exact h.core.trans hb.core.symm
  · exact (h.cores c e).trans (hb.cores c e).symm

theorem State.srVal_atIssue (s t : State) (k : Nat) (w : Warp) (F : Form) (n l : Nat) :
    t.srVal k (w.atIssue F s) n l = t.srVal k w n l := by unfold State.srVal; rfl

/-- A read of a special register into lane registers: the value after the issue's own charge (R31, R32). -/
theorem State.gsr_done {s : State} {F : Form} {w : Warp} {wide : Bool} {d sr : Nat} (hl : srAssigned sr = true) (h : Ready F 0 s w) :
    ∃ w', VecDone F wide d ((s.issue F (fun _ _ => srAssigned sr) (fun _ _ => 0) fun c s =>
        c.vecEffect wide d (fun w l => s.srVal c.wid w sr l) s).srVal s.cur w sr) s
      (s.issue F (fun _ _ => srAssigned sr) (fun _ _ => 0) fun c s => c.vecEffect wide d (fun w l => s.srVal c.wid w sr l) s) w w' := by
  obtain ⟨w', hw⟩ := State.vec_done (wide := wide) (d := d) (fun c s w => s.srVal c.wid w sr) (fun _ _ => srAssigned sr) hl _ h rfl
  refine ⟨w', ?_⟩
  have e := funext fun l => (State.srVal_only hw.ran.quiet.only s.cur w sr l).trans (State.srVal_atIssue s _ s.cur w F sr l).symm
  rw [e]; exact hw

/-- The same into a k-register. -/
theorem State.gsrK_done {s : State} {F : Form} {w : Warp} {d sr : Nat} (legal : Ctx → State → Bool) (hl : legal (issueCtx F s w) s = true)
    (h : Ready F 0 s w) :
    ∃ w', ScaDone F d ((s.issue F legal (fun _ _ => 0) fun c s => c.scaEffect d (fun w => s.srVal c.wid w sr 0) s).srVal s.cur w sr 0) s
      (s.issue F legal (fun _ _ => 0) fun c s => c.scaEffect d (fun w => s.srVal c.wid w sr 0) s) w w' := by
  obtain ⟨w', hw⟩ := State.sca_done (d := d) (fun c s w => s.srVal c.wid w sr 0) legal hl _ h rfl
  refine ⟨w', ?_⟩
  have e := (State.srVal_only hw.ran.quiet.only s.cur w sr 0).trans (State.srVal_atIssue s _ s.cur w F sr 0).symm
  rw [e]; exact hw

theorem State.tagsOf_begun {s : State} {F : Form} {w : Warp} (h : s.warp? s.cur = some w) : (s.begun F 0 w).tagsOf s.cur = s.tagsOf s.cur := by
  unfold State.tagsOf
  rw [State.begun_warp h, h]
  have : ((s.begun F 0 w).core (coreOf s.cur)).tags = (s.core (coreOf s.cur)).tags := by
    have hb := (State.begun_only (s := s) (f := F) (n := 0) (w := w) id).core
    have e : ((s.begun F 0 w).modWarp s.cur id).core (coreOf s.cur) = (s.begun F 0 w).core (coreOf s.cur) := rfl
    rw [← e, hb]; split <;> rfl
  simp only [Core.tagmap, this]
  rfl

/-- A CONTROL TRANSFER with aligned targets does what JumpDone says (R98 to R101). -/
theorem State.execTransfer_done {s : State} {j : JumpShape} {w : Warp} (hr : Ready j.full 0 s w)
    (ht : ∀ F c l, j.target c (w.atIssue F s) l = j.target c w l)
    (hal : ∀ l, laneIn (issueCtx j.full s w).en l = true → (j.target (issueCtx j.full s w) w l).toNat % 4 = 0) :
    ∃ w', JumpDone j s (s.execTransfer j.form j.link j.target) w w' := by
  have hT : s.execTransfer j.form j.link j.target
      = s.issue j.full (fun _ _ => true) (fun _ _ => 0) fun c s => c.transfer j.link (j.target c) s := by
    obtain ⟨f, link, target⟩ := j
    cases link <;> rfl
  rw [hT]
  generalize hen : (issueCtx j.full s w).en = en
  let g : Warp → Warp := fun v =>
    let v := v.setPc en (j.target (issueCtx j.full s w) (w.atIssue j.full s))
    let v := match j.link with
      | some d => v.setXn true d en (fun _ => (issueCtx j.full s w).next)
      | none => v
    v.advance (w.group &&& ~~~en) j.form.len
  obtain ⟨w', hq, hs, hp⟩ := State.issue_quiet (fun _ _ => true) (fun c s => c.transfer j.link (j.target c) s) g hr rfl
    (by
      intro _
      unfold Ctx.transfer State.withWarp
      rw [show (issueCtx j.full s w).wid = s.cur from rfl, State.begun_warp hr.cur]
      have hf : (lanesOf (issueCtx j.full s w).en).find? (fun l => (j.target (issueCtx j.full s w) (w.atIssue j.full s) l).toNat % 4 != 0) = none := by
        rw [List.find?_eq_none]
        intro l hl
        rw [ht]
        simp [hal l ((mem_lanesOf _ _).1 hl).2]
      simp only [hf]
      simp only [g, hen]
      rfl)
    (by
      simp only [g]
      cases j.link with
      | none => exact Quiet.trans (Quiet.setPc ..) (Quiet.advance ..)
      | some d => exact Quiet.trans (Quiet.trans (Quiet.setPc ..) (Quiet.setXn ..)) (Quiet.advance ..))
  rw [hen] at hs hp
  have ha := SameRegs.atIssue w j.full s
  have hgpc : ∀ l < 32, (g (w.atIssue j.full s)).pc l
      = if laneIn en l then j.target (issueCtx j.full s w) w l else if laneIn w.group l then w.pc l + BitVec.ofNat 64 j.form.len else w.pc l := by
    intro l hl
    have this : ∀ v : Warp, v.pcv = ((w.atIssue j.full s).setPc en (j.target (issueCtx j.full s w) (w.atIssue j.full s))).pcv →
        (v.advance (w.group &&& ~~~en) j.form.len).pc l = if laneIn en l then j.target (issueCtx j.full s w) w l
          else if laneIn w.group l then w.pc l + BitVec.ofNat 64 j.form.len else w.pc l := by
      intro v hv
      rw [Warp.pc_advance _ _ _ hl]
      have : v.pc l = ((w.atIssue j.full s).setPc en (j.target (issueCtx j.full s w) (w.atIssue j.full s))).pc l := by simp [Warp.pc, hv]
      rw [this, Warp.pc_setPc _ _ _ hl, laneIn_and, laneIn_not hl, ht]
      cases laneIn en l <;> cases laneIn w.group l <;> simp <;> rfl
    simp only [g]
    cases hl' : j.link with
    | none => exact this _ rfl
    | some d => exact this _ (by simp)
  by_cases he : en = 0
  · rw [if_pos he] at hs
    refine ⟨w', hq, hs.k, hs.m, ?_, ?_, ?_, ?_, ?_⟩
    · intro l hl; rw [hen, he] at hl; simp at hl
    · intro l hl _
      have hl32 := laneIn_lt hl
      rw [hp l hl32 (Warp.group_unblocked hl), if_pos he, Warp.pc_advance _ _ _ hl32, if_pos hl]; rfl
    · intro l hl hg hb
      rw [hp l hl hb, if_pos he, Warp.pc_advance _ _ _ hl]; simp [hg]
    · intro d _ l hl; rw [hen, he] at hl; simp at hl
    · intro n l _ _; exact hs.xr n l
  · rw [if_neg he] at hs
    simp only [if_neg he] at hp
    refine ⟨w', hq, ?_, ?_, ?_, ?_, ?_, ?_, ?_⟩
    · rw [hs.k]; simp only [g]; cases j.link <;> simp [ha.k]
    · rw [hs.m]; simp only [g]; cases j.link <;> simp [ha.m]
    · intro l hl
      rw [hen] at hl
      have hl32 := laneIn_lt hl
      have hg : laneIn w.group l = true := by rw [← hen] at hl; simp only [issueCtx, laneIn_and, Bool.and_eq_true] at hl; exact hl.1
      rw [hp l hl32 (Warp.group_unblocked hg), hgpc l hl32, if_pos hl]
    · intro l hl hn
      rw [hen] at hn
      have hl32 := laneIn_lt hl
      rw [hp l hl32 (Warp.group_unblocked hl), hgpc l hl32]; simp [hn, hl]
    · intro l hl hg hb
      have hn : laneIn en l = false := by
        rw [← hen]; simp only [issueCtx, laneIn_and, hg, Bool.false_and]
      rw [hp l hl hb, hgpc l hl]; simp [hn, hg]
    · intro d hd l hl
      rw [hen] at hl
      rw [hs.xn]; simp only [g, hd]
      refine Eq.trans ((SameRegs.advance _ _ _).xn true d l) ?_
      rw [Warp.xn_setXn _ _ _ _ _ hl]; rfl
    · intro n l hl hn
      rw [hs.xr]; simp only [g]
      rw [hen] at hn
      cases hd : j.link with
      | none => rfl
      | some d =>
        rw [hd] at hn
        refine Eq.trans ((SameRegs.advance _ _ _).xr n l) ?_
        rw [Warp.xr_setXn_ne _ _ _ _ _ _ hl hn]; rfl

end Sys2Proof.Machine
end

