-- ==== Sys2Proof/Laws/Encoding.lean ====
section
/-!
SUPPORT. Laws/Encoding.lean: codes and operand fields read back; the words of fields that fit are those fields; and what decoding answers
once an instruction's fields name it (spec/01 R14 to R23).
-/

namespace Sys2Proof

@[simp] theorem IntTy.ofCode_code (c : IntTy) : IntTy.ofCode c.code = some c := by cases c <;> rfl
theorem IntTy.code_lt (c : IntTy) : c.code < 3 := by cases c <;> decide
@[simp] theorem FTy.ofCode_code (c : FTy) : FTy.ofCode c.code = some c := by cases c <;> rfl
theorem FTy.code_lt (c : FTy) : c.code < 4 := by cases c <;> decide
@[simp] theorem Rm.ofCode_code (c : Rm) : Rm.ofCode c.code = some c := by cases c <;> rfl
theorem Rm.code_lt (c : Rm) : c.code < 4 := by cases c <;> decide
@[simp] theorem Cc.ofCode_code (c : Cc) : Cc.ofCode c.code = some c := by cases c <;> rfl
theorem Cc.code_lt (c : Cc) : c.code < 6 := by cases c <;> decide
@[simp] theorem Fc.ofCode_code (c : Fc) : Fc.ofCode c.code = some c := by cases c <;> rfl
theorem Fc.code_lt (c : Fc) : c.code < 8 := by cases c <;> decide
@[simp] theorem Scope.ofCode_code (c : Scope) : Scope.ofCode c.code = some c := by cases c <;> rfl
theorem Scope.code_lt (c : Scope) : c.code < 7 := by cases c <;> decide
@[simp] theorem Ord.ofCode_code (c : Ord) : Ord.ofCode c.code = some c := by cases c <;> rfl
theorem Ord.code_lt (c : Ord) : c.code < 4 := by cases c <;> decide
@[simp] theorem MemW.ofCode_code (c : MemW) : MemW.ofCode c.code = some c := by cases c <;> rfl
theorem MemW.code_lt (c : MemW) : c.code < 6 := by cases c <;> decide
@[simp] theorem AtmOp.ofCode_code (c : AtmOp) : AtmOp.ofCode c.code = some c := by cases c <;> rfl
theorem AtmOp.code_lt (c : AtmOp) : c.code < 14 := by cases c <;> decide
@[simp] theorem Shfl.ofCode_code (c : Shfl) : Shfl.ofCode c.code = some c := by cases c <;> rfl
theorem Shfl.code_lt (c : Shfl) : c.code < 4 := by cases c <;> decide
@[simp] theorem Prf.ofCode_code (c : Prf) : Prf.ofCode c.code = some c := by cases c <;> rfl
theorem Prf.code_lt (c : Prf) : c.code < 3 := by cases c <;> decide
@[simp] theorem BarKind.ofCode_code (c : BarKind) : BarKind.ofCode c.code = some c := by cases c <;> rfl
theorem BarKind.code_lt (c : BarKind) : c.code < 3 := by cases c <;> decide
@[simp] theorem Path.ofCode_code (c : Path) : Path.ofCode c.code = some c := by cases c <;> rfl
theorem Path.code_lt (c : Path) : c.code < 5 := by cases c <;> decide
@[simp] theorem Wide.ofCode_code (c : Wide) : Wide.ofCode c.code = some c := by cases c <;> rfl
theorem Wide.code_lt (c : Wide) : c.code < 3 := by cases c <;> decide
@[simp] theorem Ret.ofCode_code (x : Ret) : Ret.ofCode x.code = x := by cases x <;> rfl
theorem Ret.code_lt (x : Ret) : x.code < 4 := by cases x <;> decide
@[simp] theorem Spc.ofBit_code (c : Spc) : Spc.ofBit c.code = c := by cases c <;> rfl
theorem Spc.code_lt (c : Spc) : c.code < 2 := by cases c <;> decide
theorem toNat_lt_two (b : Bool) : b.toNat < 2 := by cases b <;> decide

@[simp] theorem firstBad_nil : firstBad [] = none := rfl
@[simp] theorem firstBad_cons (c : Bool × Reject) (l : List (Bool × Reject)) : firstBad (c :: l) = none ↔ c.1 = true ∧ firstBad l = none := by
  obtain ⟨b, r⟩ := c
  cases b <;> simp [firstBad]

/-- Every field within its width, and the fields that a form has no word for zero. -/
def Raw.Fits (r : Raw) : Prop :=
  (r.len < 4 ∧ r.op < 256 ∧ r.d < 512 ∧ r.a < 512 ∧ r.f < 16) ∧
  (r.b < 512 ∧ r.c < 512 ∧ r.minor < 16 ∧ r.slot < 8 ∧ r.ret < 4 ∧ r.m3 < 8 ∧ r.ib < 2 ∧ r.ka < 2 ∧ r.w2 < 4294967296) ∧
  r.lit < 18446744073709551616 ∧
  (r.len = 0 ∨ r.len = 2 → r.b = 0 ∧ r.c = 0 ∧ r.minor = 0 ∧ r.slot = 0 ∧ r.ret = 0 ∧ r.m3 = 0 ∧ r.ib = 0 ∧ r.ka = 0 ∧ r.w2 = 0) ∧
  (r.len = 0 ∨ r.len = 1 → r.lit = 0)

theorem rawOfWord0_word0 {r : Raw} (h : r.Fits) : rawOfWord0 r.word0 = { len := r.len, op := r.op, d := r.d, a := r.a, f := r.f } := by
  obtain ⟨⟨h1, h2, h3, h4, h5⟩, -⟩ := h
  simp only [rawOfWord0, Raw.word0, Raw.mk.injEq, and_true]
  omega

/-- The words of fields that fit are read back as those fields, whatever follows. -/
theorem rawOfWords_words {r : Raw} (rest : List Nat) (h : r.Fits) : rawOfWords (r.words ++ rest) = some (r, rest) := by
  have e0 := rawOfWord0_word0 h
  obtain ⟨⟨h1, h2, h3, h4, h5⟩, ⟨h6, h7, h8, h9, h10, h11, h12, h13, h14⟩, h15, hb, hl⟩ := h
  have e1 : ∀ q : Raw, q.withWord1 r.word1 r.w2 = { q with b := r.b, c := r.c, minor := r.minor, slot := r.slot, ret := r.ret, m3 := r.m3, ib := r.ib, ka := r.ka, w2 := r.w2 } := by
    intro q
    simp only [Raw.withWord1, Raw.word1, Raw.mk.injEq, true_and, and_true]
    omega
  have e2 : r.lit % 2 ^ 32 + 2 ^ 32 * (r.lit / 2 ^ 32) = r.lit := by omega
  have : r.len = 0 ∨ r.len = 1 ∨ r.len = 2 ∨ r.len = 3 := by omega
  rcases this with k | k | k | k
  · have := hb (.inl k); have := hl (.inl k)
    simp [Raw.words, rawOfWords, k, e0]
    cases r; simp_all
  · have := hl (.inr k)
    simp [Raw.words, rawOfWords, k, e0, e1]
    cases r; simp_all
  · have := hb (.inr k)
    simp [Raw.words, rawOfWords, k, e0]
    cases r; simp_all
  · simp [Raw.words, rawOfWords, k, e0, e1]
    cases r; simp_all

/-- What decoding an instruction's words needs of its fields: they fit, their OP provides their form, and they name the instruction. -/
def Encodes (i : Instr) : Prop := i.wf → ∀ r, toRaw i = some r → r.Fits ∧ formOk r.op r.len = true ∧ candidate r = some i

/-- The words of a well-formed instruction whose fields name it decode to it. -/
theorem decodeWords_of_encodes {i : Instr} (rest : List Nat) (hs : Encodes i) (h : i.wf) {r : Raw} (hr : toRaw i = some r) :
    decodeWords (encodeWords i ++ rest) = .ok (i, rest) := by
  obtain ⟨hf, ho, hc⟩ := hs h r hr
  have h0 : (opForms r.op = []) = False := by
    simp only [eq_iff_iff, iff_false]
    intro hn
    simp [formOk, hn] at ho
  have hd : decodeRaw r = .ok i := by simp [decodeRaw, h0, ho, hc, show wfError i = none from h, hr]
  have hw := rawOfWords_words rest hf
  obtain ⟨tl, ht⟩ : ∃ tl, r.words ++ rest = r.word0 :: tl := ⟨_, rfl⟩
  unfold encodeWords decodeWords
  rw [hr]
  simp only [ht] at hw ⊢
  simp only [rawOfWord0_word0 hf, h0, ho, hw, hd, if_false, Bool.not_true, Bool.false_eq_true]

end Sys2Proof
end

