-- ==== Sys2Proof/Laws/Memory.lean ====
section
/-!
SUPPORT. Laws/Memory.lean: home memory after its operations: what a byte reads as, that every operation keeps the canonical form, and
that caches and ownership change no byte at home.
-/

namespace Sys2Proof.Machine

namespace Mem

theorem byte_setByte (m : Mem) (k a : Nat) (v : Byte) : (m.setByte k v).byte a = if a = k then v else m.byte a := Tab.get_put ..
theorem wf_setByte {m : Mem} (k : Nat) (v : Byte) (h : m.wf = true) : (m.setByte k v).wf = true := Tab.canon_put k v h

theorem byte_setNum (m : Mem) (k n v a : Nat) (h : a < k ∨ k + n ≤ a) : (m.setNum k n v).byte a = m.byte a := by
  induction n generalizing m k v with
  | zero => rfl
  | succ n ih =>
    rw [setNum, ih _ _ _ (by omega), byte_setByte, if_neg (by omega)]
theorem wf_setNum {m : Mem} (k n v : Nat) (h : m.wf = true) : (m.setNum k n v).wf = true := by
  induction n generalizing m k v with
  | zero => exact h
  | succ n ih => exact ih _ _ (wf_setByte _ _ h)

/-- While no line holds a frame, and none is quarantined, every line finds one. -/
theorem frameFor_empty {m : Mem} (pick line : Nat) (hf : m.frames = []) (hq : m.quarantined = []) : m.frameFor pick line ≠ none := by
  have hw : m.waysFor line = (4096 * sliceOf line + Config.l2Set line % 4096) * 24 ::
      (List.range 23).map fun i => (4096 * sliceOf line + Config.l2Set line % 4096) * 24 + (i + 1) := by
    simp [waysFor, hq, List.range_succ_eq_map]
  simp [frameFor, frameOf, hw, hf]

@[simp] theorem bump_bytes (m : Mem) (l : Nat) : (m.bump l).bytes = m.bytes := by unfold bump; split <;> rfl
@[simp] theorem tag_bytes (m : Mem) (l : Nat) (o : Option Nat) : (m.tag l o).bytes = m.bytes := by
  unfold tag; split
  · split <;> rfl
  · rfl
@[simp] theorem sealLine_bytes (m : Mem) (o : Option Nat) (l : Nat) : (m.sealLine o l).bytes = m.bytes := by
  unfold sealLine; simp
theorem foldl_sealLine_bytes (ls : List Nat) (m : Mem) (o : Option Nat) : (ls.foldl (fun m l => m.sealLine o l) m).bytes = m.bytes := by
  induction ls generalizing m with
  | nil => rfl
  | cons l r ih => rw [List.foldl_cons, ih, sealLine_bytes]

/-- The version step of one write of a line (R173). -/
theorem version_sealLine (m : Mem) (o : Option Nat) (l j : Nat) (h : versioned l = true) :
    (m.sealLine o l).version j = if j = l then m.version l + 1 else m.version j := by
  have e : (m.sealLine o l).ver = (m.bump l).ver := by
    unfold sealLine tag; split
    · split <;> rfl
    · rfl
  unfold version
  rw [e]
  unfold bump
  rw [if_pos h]
  exact Tab.get_put ..

theorem byte_of_bytes {m m' : Mem} (h : m'.bytes = m.bytes) (a : Nat) : m'.byte a = m.byte a := by unfold byte; rw [h]
theorem wf_of_bytes {m m' : Mem} (h : m'.bytes = m.bytes) : m'.wf = m.wf := by unfold wf; rw [h]

end Mem

/-! ### Writes at home -/

@[simp] theorem State.own4_bytes (s : State) (c : Option Nat) (k : Nat) : (s.own4 c k).mem.bytes = s.mem.bytes := by
  unfold State.own4
  cases c <;> dsimp only <;> split <;> first | rfl | (split <;> rfl)

theorem State.poke_mem_bytes (s : State) (c : Option Nat) (k : Nat) (v : Byte) (nib : Nat) :
    (s.poke c k v nib).mem.bytes = (s.mem.setByte k (nibMerge (s.mem.byte k) v nib)).bytes := by
  unfold State.poke
  cases c <;> dsimp only <;> split <;> first | rfl | (rw [State.own4_bytes]; rfl)

/-- A byte after a byte is written at its home. -/
theorem State.byte_poke (s : State) (c : Option Nat) (k a : Nat) (v : Byte) (nib : Nat) :
    (s.poke c k v nib).mem.byte a = if a = k then nibMerge (s.mem.byte k) v nib else s.mem.byte a := by
  rw [Mem.byte_of_bytes (State.poke_mem_bytes s c k v nib), Mem.byte_setByte]
theorem State.wf_poke {s : State} (c : Option Nat) (k : Nat) (v : Byte) (nib : Nat) (h : s.mem.wf = true) :
    (s.poke c k v nib).mem.wf = true := by
  rw [Mem.wf_of_bytes (State.poke_mem_bytes s c k v nib)]; exact Mem.wf_setByte _ _ h

theorem State.foldl_keeps {α : Type} {P : State → Prop} (f : State → α → State) (h : ∀ s x, P s → P (f s x)) (l : List α) {s : State}
    (hs : P s) : P (l.foldl f s) := by
  induction l generalizing s with
  | nil => exact hs
  | cons a r ih => exact ih (h _ _ hs)

theorem State.byte_pokes (bs : List (Nat × Byte)) (s : State) (c : Option Nat) (a : Nat) (h : ∀ b ∈ bs, b.1 ≠ a) :
    (bs.foldl (fun s b => s.poke c b.1 b.2 3) s).mem.byte a = s.mem.byte a := by
  induction bs generalizing s with
  | nil => rfl
  | cons b r ih =>
    rw [List.foldl_cons, ih _ fun x hx => h x (List.mem_cons_of_mem _ hx), State.byte_poke,
      if_neg (fun e => h b (List.mem_cons_self ..) e.symm)]

/-- Consuming the errors that a write merges into changes no byte: containment comes after it (R407). -/
@[simp] theorem State.overwritten_bytes (s : State) (ks : List Nat) : (s.overwritten ks).mem.bytes = s.mem.bytes := by
  have hc : ∀ e, (s.contains e none).mem = s.mem := fun e => by cases e <;> rfl
  unfold State.overwritten Mem.heal
  split
  · rfl
  · simp only [State.modMem_mem, hc]; split <;> rfl

/-- A write at home leaves every other byte alone. -/
theorem State.byte_writeHome (s : State) (o c : Option Nat) (bs : List (Nat × Byte)) (a : Nat) (h : ∀ b ∈ bs, b.1 ≠ a) :
    (s.writeHome o c bs).mem.byte a = s.mem.byte a := by
  unfold State.writeHome
  rw [State.modMem_mem, Mem.byte_of_bytes (Mem.foldl_sealLine_bytes _ _ _), State.byte_pokes _ _ _ _ h,
    Mem.byte_of_bytes (State.overwritten_bytes ..)]
theorem State.wf_writeHome {s : State} (o c : Option Nat) (bs : List (Nat × Byte)) (h : s.mem.wf = true) :
    (s.writeHome o c bs).mem.wf = true := by
  unfold State.writeHome
  rw [State.modMem_mem, Mem.wf_of_bytes (Mem.foldl_sealLine_bytes _ _ _)]
  exact State.foldl_keeps (P := fun s => s.mem.wf = true) _ (fun s b hs => State.wf_poke c b.1 b.2 3 hs) bs
    (by rw [Mem.wf_of_bytes (State.overwritten_bytes ..)]; exact h)
theorem State.wf_writeNum {s : State} (o : Option Nat) (k n v : Nat) (h : s.mem.wf = true) : (s.writeNum o k n v).mem.wf = true :=
  State.wf_writeHome _ _ _ h

/-! ### Caches -/

/-- An acquire changes no byte, no version and nothing but its core's L1 and the fill marks (R279, R281). -/
theorem State.acquire_fields (s : State) (c : Nat) (sc : Scope) :
    (s.acquire c sc).mem.bytes = s.mem.bytes ∧ (s.acquire c sc).mem.ver = s.mem.ver ∧ (s.acquire c sc).warps = s.warps ∧
      (s.acquire c sc).ap = s.ap ∧ (s.acquire c sc).blocks = s.blocks ∧ (s.acquire c sc).dies = s.dies ∧
      (s.acquire c sc).grids = s.grids ∧ (s.acquire c sc).dev = s.dev ∧ (s.acquire c sc).agenda = s.agenda ∧
      (s.acquire c sc).cur = s.cur := by
  cases sc <;> exact ⟨rfl, rfl, rfl, rfl, rfl, rfl, rfl, rfl, rfl, rfl⟩

/-- The L1 of a core after an acquire. -/
theorem State.acquire_l1 (s : State) (c j : Nat) (sc : Scope) (line : Nat) :
    Tab.look ((s.acquire c sc).core j).l1 line
      = if j = c ∧ sc ≠ .wp ∧ sc ≠ .bk then (Tab.look (s.core j).l1 line).map Line.acquired else Tab.look (s.core j).l1 line := by
  have key : ∀ S : State, S = s.modCore c (fun k => { k with l1 := Tab.mapv k.l1 (fun _ l => l.acquired) }) →
      Tab.look (S.core j).l1 line = if j = c then (Tab.look (s.core j).l1 line).map Line.acquired else Tab.look (s.core j).l1 line := by
    intro S hS
    rw [hS, State.core_modCore]
    split
    · subst_vars; rw [Tab.look_mapv]
    · rfl
  have core_mem : ∀ (S : State) (f : Mem → Mem), (S.modMem f).core j = S.core j := fun _ _ => rfl
  cases sc <;> simp only [State.acquire, ne_eq, reduceCtorEq, not_true_eq_false, not_false_eq_true, and_true, and_false, if_false,
    core_mem] <;> exact key _ rfl

end Sys2Proof.Machine
end

