-- ==== Sys2Proof/Laws/PerInstr.lean ====
section
/-!
SUPPORT. Laws/PerInstr.lean: one lemma per instruction. `Encoding`: the OP and LEN of an instruction's words are a form that the opcode
map provides, so that check 1 of R48 passes (spec/01 R14, R19; spec/02 R53 to R62).
-/

namespace Sys2Proof.Laws

/-- The fields of a well-formed instruction's words name an assigned OP in a form that it has. -/
def Encoding.Statement (i : Instr) : Prop := i.wf → ∀ r, toRaw i = some r → formOk r.op r.len = true

theorem Encoding.nop : Encoding.Statement (.nop) := fun _ _ h => Option.some.inj h ▸ rfl
theorem Encoding.bra (off : BitVec 18) : Encoding.Statement (.bra off) := fun _ _ h => Option.some.inj h ▸ rfl
theorem Encoding.braExt (g : Nat) (off : BitVec 32) : Encoding.Statement (.braExt g off) := fun _ _ h => Option.some.inj h ▸ rfl
theorem Encoding.brx (a : Nat) : Encoding.Statement (.brx a) := fun _ _ h => Option.some.inj h ▸ rfl
theorem Encoding.brxExt (g : Nat) (a : SrcA) : Encoding.Statement (.brxExt g a) := fun _ _ h => Option.some.inj h ▸ rfl
theorem Encoding.ret (a : Nat) : Encoding.Statement (.ret a) := fun _ _ h => Option.some.inj h ▸ rfl
theorem Encoding.call (off : BitVec 9) (d : Nat) : Encoding.Statement (.call off d) := fun _ _ h => Option.some.inj h ▸ rfl
theorem Encoding.callReg (a : Nat) (d : Nat) : Encoding.Statement (.callReg a d) := fun _ _ h => Option.some.inj h ▸ rfl
theorem Encoding.callExt (g : Nat) (rt : Ret) (d : Nat) (tgt : CallTo) : Encoding.Statement (.callExt g rt d tgt) := by intro hw r h; cases tgt <;> (cases Option.some.inj h; rfl)
theorem Encoding.exit : Encoding.Statement (.exit) := fun _ _ h => Option.some.inj h ▸ rfl
theorem Encoding.exitExt (g : Nat) : Encoding.Statement (.exitExt g) := fun _ _ h => Option.some.inj h ▸ rfl
theorem Encoding.join (d : Nat) : Encoding.Statement (.join d) := fun _ _ h => Option.some.inj h ▸ rfl
theorem Encoding.joinExt (g : Nat) (d : Nat) : Encoding.Statement (.joinExt g d) := fun _ _ h => Option.some.inj h ▸ rfl
theorem Encoding.leave (d : Nat) : Encoding.Statement (.leave d) := fun _ _ h => Option.some.inj h ▸ rfl
theorem Encoding.leaveExt (g : Nat) (d : Nat) : Encoding.Statement (.leaveExt g d) := fun _ _ h => Option.some.inj h ▸ rfl
theorem Encoding.wait (a : Nat) : Encoding.Statement (.wait a) := fun _ _ h => Option.some.inj h ▸ rfl
theorem Encoding.waitExt (g : Nat) (a : Nat) : Encoding.Statement (.waitExt g a) := fun _ _ h => Option.some.inj h ▸ rfl
theorem Encoding.yield : Encoding.Statement (.yield) := fun _ _ h => Option.some.inj h ▸ rfl
theorem Encoding.trap (code : Nat) : Encoding.Statement (.trap code) := fun _ _ h => Option.some.inj h ▸ rfl
theorem Encoding.trapExt (g : Nat) (code : Nat) : Encoding.Statement (.trapExt g code) := fun _ _ h => Option.some.inj h ▸ rfl
theorem Encoding.brk (tag : Nat) : Encoding.Statement (.brk tag) := fun _ _ h => Option.some.inj h ▸ rfl
theorem Encoding.resume (a : Nat) : Encoding.Statement (.resume a) := fun _ _ h => Option.some.inj h ▸ rfl
theorem Encoding.gsr (sr : Nat) (d : Nat) : Encoding.Statement (.gsr sr d) := fun _ _ h => Option.some.inj h ▸ rfl
theorem Encoding.gsrK (sr : Nat) (d : Nat) : Encoding.Statement (.gsrK sr d) := fun _ _ h => Option.some.inj h ▸ rfl
theorem Encoding.ssr (a : Nat) (sr : Nat) : Encoding.Statement (.ssr a sr) := fun _ _ h => Option.some.inj h ▸ rfl
theorem Encoding.halt : Encoding.Statement (.halt) := fun _ _ h => Option.some.inj h ▸ rfl
theorem Encoding.mset (g : Nat) (d : Nat) (b : KSrc) : Encoding.Statement (.mset g d b) := by intro hw r h; cases b <;> (cases Option.some.inj h; rfl)
theorem Encoding.mmov (a : Nat) (d : Nat) : Encoding.Statement (.mmov a d) := fun _ _ h => Option.some.inj h ▸ rfl
theorem Encoding.mand (a : Nat) (d : Nat) : Encoding.Statement (.mand a d) := fun _ _ h => Option.some.inj h ▸ rfl
theorem Encoding.mandExt (g : Nat) (d : Nat) (a : Nat) (b : Nat) : Encoding.Statement (.mandExt g d a b) := fun _ _ h => Option.some.inj h ▸ rfl
theorem Encoding.mor (a : Nat) (d : Nat) : Encoding.Statement (.mor a d) := fun _ _ h => Option.some.inj h ▸ rfl
theorem Encoding.morExt (g : Nat) (d : Nat) (a : Nat) (b : Nat) : Encoding.Statement (.morExt g d a b) := fun _ _ h => Option.some.inj h ▸ rfl
theorem Encoding.mxor (a : Nat) (d : Nat) : Encoding.Statement (.mxor a d) := fun _ _ h => Option.some.inj h ▸ rfl
theorem Encoding.mxorExt (g : Nat) (d : Nat) (a : Nat) (b : Nat) : Encoding.Statement (.mxorExt g d a b) := fun _ _ h => Option.some.inj h ▸ rfl
theorem Encoding.mnot (a : Nat) (d : Nat) : Encoding.Statement (.mnot a d) := fun _ _ h => Option.some.inj h ▸ rfl
theorem Encoding.mpop (a : Nat) (d : Nat) : Encoding.Statement (.mpop a d) := fun _ _ h => Option.some.inj h ▸ rfl
theorem Encoding.mfindLo (a : Nat) (d : Nat) : Encoding.Statement (.mfindLo a d) := fun _ _ h => Option.some.inj h ▸ rfl
theorem Encoding.mfindHi (a : Nat) (d : Nat) : Encoding.Statement (.mfindHi a d) := fun _ _ h => Option.some.inj h ▸ rfl
theorem Encoding.mfindExt (g : Nat) (hi : Bool) (d : Nat) (a : Nat) : Encoding.Statement (.mfindExt g hi d a) := fun _ _ h => Option.some.inj h ▸ rfl
theorem Encoding.pcget (d : Nat) : Encoding.Statement (.pcget d) := fun _ _ h => Option.some.inj h ▸ rfl
theorem Encoding.pcgetExt (g : Nat) (d : Nat) : Encoding.Statement (.pcgetExt g d) := fun _ _ h => Option.some.inj h ▸ rfl
theorem Encoding.add (t : IntTy) (a : Nat) (d : Nat) : Encoding.Statement (.add t a d) := fun _ _ h => Option.some.inj h ▸ rfl
theorem Encoding.addExt (sat : Bool) (e : Int2) : Encoding.Statement (.addExt sat e) := by intro hw r h; rcases e with ⟨_, _, _, _, _, b⟩; cases b <;> (cases Option.some.inj h; rfl)
theorem Encoding.sub (t : IntTy) (a : Nat) (d : Nat) : Encoding.Statement (.sub t a d) := fun _ _ h => Option.some.inj h ▸ rfl
theorem Encoding.subExt (sat : Bool) (e : Int2) : Encoding.Statement (.subExt sat e) := by intro hw r h; rcases e with ⟨_, _, _, _, _, b⟩; cases b <;> (cases Option.some.inj h; rfl)
theorem Encoding.mul (t : IntTy) (a : Nat) (d : Nat) : Encoding.Statement (.mul t a d) := fun _ _ h => Option.some.inj h ▸ rfl
theorem Encoding.mulExt (e : Int2) : Encoding.Statement (.mulExt e) := by intro hw r h; rcases e with ⟨_, _, _, _, _, b⟩; cases b <;> (cases Option.some.inj h; rfl)
theorem Encoding.mulh (t : IntTy) (a : Nat) (d : Nat) : Encoding.Statement (.mulh t a d) := fun _ _ h => Option.some.inj h ▸ rfl
theorem Encoding.mulhExt (e : Int2) : Encoding.Statement (.mulhExt e) := by intro hw r h; rcases e with ⟨_, _, _, _, _, b⟩; cases b <;> (cases Option.some.inj h; rfl)
theorem Encoding.mad (e : Int3) : Encoding.Statement (.mad e) := by intro hw r h; rcases e with ⟨_, _, _, _, _, b, _⟩; cases b <;> (cases Option.some.inj h; rfl)
theorem Encoding.neg (t : IntTy) (a : Nat) (d : Nat) : Encoding.Statement (.neg t a d) := fun _ _ h => Option.some.inj h ▸ rfl
theorem Encoding.negExt (e : Int1) : Encoding.Statement (.negExt e) := fun _ _ h => Option.some.inj h ▸ rfl
theorem Encoding.abs (t : IntTy) (a : Nat) (d : Nat) : Encoding.Statement (.abs t a d) := fun _ _ h => Option.some.inj h ▸ rfl
theorem Encoding.absExt (e : Int1) : Encoding.Statement (.absExt e) := fun _ _ h => Option.some.inj h ▸ rfl
theorem Encoding.min (t : IntTy) (a : Nat) (d : Nat) : Encoding.Statement (.min t a d) := fun _ _ h => Option.some.inj h ▸ rfl
theorem Encoding.minExt (e : Int2) : Encoding.Statement (.minExt e) := by intro hw r h; rcases e with ⟨_, _, _, _, _, b⟩; cases b <;> (cases Option.some.inj h; rfl)
theorem Encoding.max (t : IntTy) (a : Nat) (d : Nat) : Encoding.Statement (.max t a d) := fun _ _ h => Option.some.inj h ▸ rfl
theorem Encoding.maxExt (e : Int2) : Encoding.Statement (.maxExt e) := by intro hw r h; rcases e with ⟨_, _, _, _, _, b⟩; cases b <;> (cases Option.some.inj h; rfl)
theorem Encoding.and (t : IntTy) (a : Nat) (d : Nat) : Encoding.Statement (.and t a d) := fun _ _ h => Option.some.inj h ▸ rfl
theorem Encoding.andExt (e : Int2) : Encoding.Statement (.andExt e) := by intro hw r h; rcases e with ⟨_, _, _, _, _, b⟩; cases b <;> (cases Option.some.inj h; rfl)
theorem Encoding.or (t : IntTy) (a : Nat) (d : Nat) : Encoding.Statement (.or t a d) := fun _ _ h => Option.some.inj h ▸ rfl
theorem Encoding.orExt (e : Int2) : Encoding.Statement (.orExt e) := by intro hw r h; rcases e with ⟨_, _, _, _, _, b⟩; cases b <;> (cases Option.some.inj h; rfl)
theorem Encoding.xor (t : IntTy) (a : Nat) (d : Nat) : Encoding.Statement (.xor t a d) := fun _ _ h => Option.some.inj h ▸ rfl
theorem Encoding.xorExt (e : Int2) : Encoding.Statement (.xorExt e) := by intro hw r h; rcases e with ⟨_, _, _, _, _, b⟩; cases b <;> (cases Option.some.inj h; rfl)
theorem Encoding.andn (t : IntTy) (a : Nat) (d : Nat) : Encoding.Statement (.andn t a d) := fun _ _ h => Option.some.inj h ▸ rfl
theorem Encoding.andnExt (e : Int2) : Encoding.Statement (.andnExt e) := by intro hw r h; rcases e with ⟨_, _, _, _, _, b⟩; cases b <;> (cases Option.some.inj h; rfl)
theorem Encoding.not (t : IntTy) (a : Nat) (d : Nat) : Encoding.Statement (.not t a d) := fun _ _ h => Option.some.inj h ▸ rfl
theorem Encoding.notExt (e : Int1) : Encoding.Statement (.notExt e) := fun _ _ h => Option.some.inj h ▸ rfl
theorem Encoding.shl (t : IntTy) (a : Nat) (d : Nat) : Encoding.Statement (.shl t a d) := fun _ _ h => Option.some.inj h ▸ rfl
theorem Encoding.shlExt (e : Int2) : Encoding.Statement (.shlExt e) := by intro hw r h; rcases e with ⟨_, _, _, _, _, b⟩; cases b <;> (cases Option.some.inj h; rfl)
theorem Encoding.shr (t : IntTy) (a : Nat) (d : Nat) : Encoding.Statement (.shr t a d) := fun _ _ h => Option.some.inj h ▸ rfl
theorem Encoding.shrExt (e : Int2) : Encoding.Statement (.shrExt e) := by intro hw r h; rcases e with ⟨_, _, _, _, _, b⟩; cases b <;> (cases Option.some.inj h; rfl)
theorem Encoding.sar (t : IntTy) (a : Nat) (d : Nat) : Encoding.Statement (.sar t a d) := fun _ _ h => Option.some.inj h ▸ rfl
theorem Encoding.sarExt (e : Int2) : Encoding.Statement (.sarExt e) := by intro hw r h; rcases e with ⟨_, _, _, _, _, b⟩; cases b <;> (cases Option.some.inj h; rfl)
theorem Encoding.rot (t : IntTy) (a : Nat) (d : Nat) : Encoding.Statement (.rot t a d) := fun _ _ h => Option.some.inj h ▸ rfl
theorem Encoding.rotExt (e : Int2) : Encoding.Statement (.rotExt e) := by intro hw r h; rcases e with ⟨_, _, _, _, _, b⟩; cases b <;> (cases Option.some.inj h; rfl)
theorem Encoding.clz (t : IntTy) (a : Nat) (d : Nat) : Encoding.Statement (.clz t a d) := fun _ _ h => Option.some.inj h ▸ rfl
theorem Encoding.clzExt (e : Int1) : Encoding.Statement (.clzExt e) := fun _ _ h => Option.some.inj h ▸ rfl
theorem Encoding.ctz (t : IntTy) (a : Nat) (d : Nat) : Encoding.Statement (.ctz t a d) := fun _ _ h => Option.some.inj h ▸ rfl
theorem Encoding.ctzExt (e : Int1) : Encoding.Statement (.ctzExt e) := fun _ _ h => Option.some.inj h ▸ rfl
theorem Encoding.popc (t : IntTy) (a : Nat) (d : Nat) : Encoding.Statement (.popc t a d) := fun _ _ h => Option.some.inj h ▸ rfl
theorem Encoding.popcExt (e : Int1) : Encoding.Statement (.popcExt e) := fun _ _ h => Option.some.inj h ▸ rfl
theorem Encoding.brev (t : IntTy) (a : Nat) (d : Nat) : Encoding.Statement (.brev t a d) := fun _ _ h => Option.some.inj h ▸ rfl
theorem Encoding.brevExt (e : Int1) : Encoding.Statement (.brevExt e) := fun _ _ h => Option.some.inj h ▸ rfl
theorem Encoding.bfe (e : Int2) : Encoding.Statement (.bfe e) := by intro hw r h; rcases e with ⟨_, _, _, _, _, b⟩; cases b <;> (cases Option.some.inj h; rfl)
theorem Encoding.bfi (e : Int3) : Encoding.Statement (.bfi e) := by intro hw r h; rcases e with ⟨_, _, _, _, _, b, _⟩; cases b <;> (cases Option.some.inj h; rfl)
theorem Encoding.sel (e : Int3) : Encoding.Statement (.sel e) := by intro hw r h; rcases e with ⟨_, _, _, _, _, b, _⟩; cases b <;> (cases Option.some.inj h; first | rfl | simp [Instr.wf, wfError, firstBad_cons, Chk.sel3, Chk.bNoLit] at hw)
theorem Encoding.mov (t : IntTy) (a : Nat) (d : Nat) : Encoding.Statement (.mov t a d) := fun _ _ h => Option.some.inj h ▸ rfl
theorem Encoding.movExt (e : Int1) : Encoding.Statement (.movExt e) := fun _ _ h => Option.some.inj h ▸ rfl
theorem Encoding.liLit (t : IntTy) (d : Nat) (v : BitVec 64) : Encoding.Statement (.liLit t d v) := fun _ _ h => Option.some.inj h ▸ rfl
theorem Encoding.liExt (g : Nat) (t : IntTy) (d : Nat) (v : BitVec 32) : Encoding.Statement (.liExt g t d v) := fun _ _ h => Option.some.inj h ▸ rfl
theorem Encoding.lea (g : Nat) (rt : Ret) (d : Nat) (a : SrcA) (b : SrcB) (sx : Bool) (sh : Nat) : Encoding.Statement (.lea g rt d a b sx sh) := by intro hw r h; cases b <;> (cases Option.some.inj h; rfl)
theorem Encoding.cmp (cc : Cc) (e : Int2) : Encoding.Statement (.cmp cc e) := by intro hw r h; rcases e with ⟨_, _, _, _, _, b⟩; cases b <;> (cases Option.some.inj h; rfl)
theorem Encoding.shfl (mode : Shfl) (g : Nat) (rt : Ret) (d : Nat) (a : Nat) (b : SrcB) : Encoding.Statement (.shfl mode g rt d a b) := by intro hw r h; cases b <;> (cases Option.some.inj h; rfl)
theorem Encoding.div (t : IntTy) (a : Nat) (d : Nat) : Encoding.Statement (.div t a d) := fun _ _ h => Option.some.inj h ▸ rfl
theorem Encoding.divExt (e : Int2) : Encoding.Statement (.divExt e) := by intro hw r h; rcases e with ⟨_, _, _, _, _, b⟩; cases b <;> (cases Option.some.inj h; rfl)
theorem Encoding.rem (t : IntTy) (a : Nat) (d : Nat) : Encoding.Statement (.rem t a d) := fun _ _ h => Option.some.inj h ▸ rfl
theorem Encoding.remExt (e : Int2) : Encoding.Statement (.remExt e) := by intro hw r h; rcases e with ⟨_, _, _, _, _, b⟩; cases b <;> (cases Option.some.inj h; rfl)
theorem Encoding.kmov (a : Nat) (d : Nat) : Encoding.Statement (.kmov a d) := fun _ _ h => Option.some.inj h ▸ rfl
theorem Encoding.kliLit (d : Nat) (v : BitVec 64) : Encoding.Statement (.kliLit d v) := fun _ _ h => Option.some.inj h ▸ rfl
theorem Encoding.kliExt (g : Nat) (d : Nat) (v : BitVec 32) : Encoding.Statement (.kliExt g d v) := fun _ _ h => Option.some.inj h ▸ rfl
theorem Encoding.kadd (a : Nat) (d : Nat) : Encoding.Statement (.kadd a d) := fun _ _ h => Option.some.inj h ▸ rfl
theorem Encoding.kaddExt (e : Sc2) : Encoding.Statement (.kaddExt e) := by intro hw r h; rcases e with ⟨_, _, _, b⟩; cases b <;> (cases Option.some.inj h; rfl)
theorem Encoding.ksub (a : Nat) (d : Nat) : Encoding.Statement (.ksub a d) := fun _ _ h => Option.some.inj h ▸ rfl
theorem Encoding.ksubExt (e : Sc2) : Encoding.Statement (.ksubExt e) := by intro hw r h; rcases e with ⟨_, _, _, b⟩; cases b <;> (cases Option.some.inj h; rfl)
theorem Encoding.kmul (a : Nat) (d : Nat) : Encoding.Statement (.kmul a d) := fun _ _ h => Option.some.inj h ▸ rfl
theorem Encoding.kmulExt (e : Sc2) : Encoding.Statement (.kmulExt e) := by intro hw r h; rcases e with ⟨_, _, _, b⟩; cases b <;> (cases Option.some.inj h; rfl)
theorem Encoding.kand (a : Nat) (d : Nat) : Encoding.Statement (.kand a d) := fun _ _ h => Option.some.inj h ▸ rfl
theorem Encoding.kandExt (e : Sc2) : Encoding.Statement (.kandExt e) := by intro hw r h; rcases e with ⟨_, _, _, b⟩; cases b <;> (cases Option.some.inj h; rfl)
theorem Encoding.kor (a : Nat) (d : Nat) : Encoding.Statement (.kor a d) := fun _ _ h => Option.some.inj h ▸ rfl
theorem Encoding.korExt (e : Sc2) : Encoding.Statement (.korExt e) := by intro hw r h; rcases e with ⟨_, _, _, b⟩; cases b <;> (cases Option.some.inj h; rfl)
theorem Encoding.kxor (a : Nat) (d : Nat) : Encoding.Statement (.kxor a d) := fun _ _ h => Option.some.inj h ▸ rfl
theorem Encoding.kxorExt (e : Sc2) : Encoding.Statement (.kxorExt e) := by intro hw r h; rcases e with ⟨_, _, _, b⟩; cases b <;> (cases Option.some.inj h; rfl)
theorem Encoding.kshl (a : Nat) (d : Nat) : Encoding.Statement (.kshl a d) := fun _ _ h => Option.some.inj h ▸ rfl
theorem Encoding.kshlExt (e : Sc2) : Encoding.Statement (.kshlExt e) := by intro hw r h; rcases e with ⟨_, _, _, b⟩; cases b <;> (cases Option.some.inj h; rfl)
theorem Encoding.kshr (a : Nat) (d : Nat) : Encoding.Statement (.kshr a d) := fun _ _ h => Option.some.inj h ▸ rfl
theorem Encoding.kshrA (a : Nat) (d : Nat) : Encoding.Statement (.kshrA a d) := fun _ _ h => Option.some.inj h ▸ rfl
theorem Encoding.kshrExt (arith : Bool) (e : Sc2) : Encoding.Statement (.kshrExt arith e) := by intro hw r h; rcases e with ⟨_, _, _, b⟩; cases b <;> (cases Option.some.inj h; rfl)
theorem Encoding.kcmp (cc : Cc) (ui : Bool) (e : Sc2) : Encoding.Statement (.kcmp cc ui e) := by intro hw r h; rcases e with ⟨_, _, _, b⟩; cases b <;> (cases Option.some.inj h; rfl)
theorem Encoding.kget (g : Nat) (rt : Ret) (d : Nat) (a : Nat) (b : KSrc) : Encoding.Statement (.kget g rt d a b) := by intro hw r h; cases b <;> (cases Option.some.inj h; rfl)
theorem Encoding.kld (g : Nat) (sp : Spc) (d : Nat) (a : Nat) (idx : Option Nat) (off : BitVec 32) : Encoding.Statement (.kld g sp d a idx off) := fun _ _ h => Option.some.inj h ▸ rfl
theorem Encoding.fadd (t : FTy) (a : Nat) (d : Nat) : Encoding.Statement (.fadd t a d) := fun _ _ h => Option.some.inj h ▸ rfl
theorem Encoding.faddExt (rm : Rm) (e : Fp2) : Encoding.Statement (.faddExt rm e) := by intro hw r h; rcases e with ⟨_, _, _, _, _, b⟩; cases b <;> (cases Option.some.inj h; rfl)
theorem Encoding.fsub (t : FTy) (a : Nat) (d : Nat) : Encoding.Statement (.fsub t a d) := fun _ _ h => Option.some.inj h ▸ rfl
theorem Encoding.fsubExt (rm : Rm) (e : Fp2) : Encoding.Statement (.fsubExt rm e) := by intro hw r h; rcases e with ⟨_, _, _, _, _, b⟩; cases b <;> (cases Option.some.inj h; rfl)
theorem Encoding.fmul (t : FTy) (a : Nat) (d : Nat) : Encoding.Statement (.fmul t a d) := fun _ _ h => Option.some.inj h ▸ rfl
theorem Encoding.fmulExt (rm : Rm) (e : Fp2) : Encoding.Statement (.fmulExt rm e) := by intro hw r h; rcases e with ⟨_, _, _, _, _, b⟩; cases b <;> (cases Option.some.inj h; rfl)
theorem Encoding.ffma (rm : Rm) (e : Fp3) : Encoding.Statement (.ffma rm e) := by intro hw r h; rcases e with ⟨_, _, _, _, _, b, _⟩; cases b <;> (cases Option.some.inj h; rfl)
theorem Encoding.fmin (t : FTy) (a : Nat) (d : Nat) : Encoding.Statement (.fmin t a d) := fun _ _ h => Option.some.inj h ▸ rfl
theorem Encoding.fminExt (e : Fp2) : Encoding.Statement (.fminExt e) := by intro hw r h; rcases e with ⟨_, _, _, _, _, b⟩; cases b <;> (cases Option.some.inj h; rfl)
theorem Encoding.fmax (t : FTy) (a : Nat) (d : Nat) : Encoding.Statement (.fmax t a d) := fun _ _ h => Option.some.inj h ▸ rfl
theorem Encoding.fmaxExt (e : Fp2) : Encoding.Statement (.fmaxExt e) := by intro hw r h; rcases e with ⟨_, _, _, _, _, b⟩; cases b <;> (cases Option.some.inj h; rfl)
theorem Encoding.fabs (t : FTy) (a : Nat) (d : Nat) : Encoding.Statement (.fabs t a d) := fun _ _ h => Option.some.inj h ▸ rfl
theorem Encoding.fabsExt (e : Fp1) : Encoding.Statement (.fabsExt e) := fun _ _ h => Option.some.inj h ▸ rfl
theorem Encoding.fneg (t : FTy) (a : Nat) (d : Nat) : Encoding.Statement (.fneg t a d) := fun _ _ h => Option.some.inj h ▸ rfl
theorem Encoding.fnegExt (e : Fp1) : Encoding.Statement (.fnegExt e) := fun _ _ h => Option.some.inj h ▸ rfl
theorem Encoding.fcmp (fc : Fc) (e : Fp2) : Encoding.Statement (.fcmp fc e) := by intro hw r h; rcases e with ⟨_, _, _, _, _, b⟩; cases b <;> (cases Option.some.inj h; rfl)
theorem Encoding.frcp (t : FTy) (a : Nat) (d : Nat) : Encoding.Statement (.frcp t a d) := fun _ _ h => Option.some.inj h ▸ rfl
theorem Encoding.frcpExt (e : Fp1) : Encoding.Statement (.frcpExt e) := fun _ _ h => Option.some.inj h ▸ rfl
theorem Encoding.frsq (t : FTy) (a : Nat) (d : Nat) : Encoding.Statement (.frsq t a d) := fun _ _ h => Option.some.inj h ▸ rfl
theorem Encoding.frsqExt (e : Fp1) : Encoding.Statement (.frsqExt e) := fun _ _ h => Option.some.inj h ▸ rfl
theorem Encoding.fsqrt (t : FTy) (a : Nat) (d : Nat) : Encoding.Statement (.fsqrt t a d) := fun _ _ h => Option.some.inj h ▸ rfl
theorem Encoding.fsqrtExt (rm : Rm) (e : Fp1) : Encoding.Statement (.fsqrtExt rm e) := fun _ _ h => Option.some.inj h ▸ rfl
theorem Encoding.fexp2 (t : FTy) (a : Nat) (d : Nat) : Encoding.Statement (.fexp2 t a d) := fun _ _ h => Option.some.inj h ▸ rfl
theorem Encoding.fexp2Ext (e : Fp1) : Encoding.Statement (.fexp2Ext e) := fun _ _ h => Option.some.inj h ▸ rfl
theorem Encoding.flog2 (t : FTy) (a : Nat) (d : Nat) : Encoding.Statement (.flog2 t a d) := fun _ _ h => Option.some.inj h ▸ rfl
theorem Encoding.flog2Ext (e : Fp1) : Encoding.Statement (.flog2Ext e) := fun _ _ h => Option.some.inj h ▸ rfl
theorem Encoding.fsin (t : FTy) (a : Nat) (d : Nat) : Encoding.Statement (.fsin t a d) := fun _ _ h => Option.some.inj h ▸ rfl
theorem Encoding.fsinExt (e : Fp1) : Encoding.Statement (.fsinExt e) := fun _ _ h => Option.some.inj h ▸ rfl
theorem Encoding.fcos (t : FTy) (a : Nat) (d : Nat) : Encoding.Statement (.fcos t a d) := fun _ _ h => Option.some.inj h ▸ rfl
theorem Encoding.fcosExt (e : Fp1) : Encoding.Statement (.fcosExt e) := fun _ _ h => Option.some.inj h ▸ rfl
theorem Encoding.ftanh (t : FTy) (a : Nat) (d : Nat) : Encoding.Statement (.ftanh t a d) := fun _ _ h => Option.some.inj h ▸ rfl
theorem Encoding.ftanhExt (e : Fp1) : Encoding.Statement (.ftanhExt e) := fun _ _ h => Option.some.inj h ▸ rfl
theorem Encoding.ffloor (t : FTy) (a : Nat) (d : Nat) : Encoding.Statement (.ffloor t a d) := fun _ _ h => Option.some.inj h ▸ rfl
theorem Encoding.ffloorExt (e : Fp1) : Encoding.Statement (.ffloorExt e) := fun _ _ h => Option.some.inj h ▸ rfl
theorem Encoding.fceil (t : FTy) (a : Nat) (d : Nat) : Encoding.Statement (.fceil t a d) := fun _ _ h => Option.some.inj h ▸ rfl
theorem Encoding.fceilExt (e : Fp1) : Encoding.Statement (.fceilExt e) := fun _ _ h => Option.some.inj h ▸ rfl
theorem Encoding.frint (t : FTy) (a : Nat) (d : Nat) : Encoding.Statement (.frint t a d) := fun _ _ h => Option.some.inj h ▸ rfl
theorem Encoding.frintExt (e : Fp1) : Encoding.Statement (.frintExt e) := fun _ _ h => Option.some.inj h ▸ rfl
theorem Encoding.fscale (t : FTy) (a : Nat) (d : Nat) : Encoding.Statement (.fscale t a d) := fun _ _ h => Option.some.inj h ▸ rfl
theorem Encoding.fscaleExt (rm : Rm) (e : Fp2) : Encoding.Statement (.fscaleExt rm e) := by intro hw r h; rcases e with ⟨_, _, _, _, _, b⟩; cases b <;> (cases Option.some.inj h; rfl)
theorem Encoding.fclass (t : FTy) (a : Nat) (d : Nat) : Encoding.Statement (.fclass t a d) := fun _ _ h => Option.some.inj h ▸ rfl
theorem Encoding.fclassExt (e : Fp1) : Encoding.Statement (.fclassExt e) := fun _ _ h => Option.some.inj h ▸ rfl
theorem Encoding.fdot2 (rm : Rm) (e : Fp3) : Encoding.Statement (.fdot2 rm e) := by intro hw r h; rcases e with ⟨_, _, _, _, _, b, _⟩; cases b <;> (cases Option.some.inj h; first | rfl | simp [Instr.wf, wfError, firstBad_cons, Chk.fdot3, Chk.bNoLit] at hw)
theorem Encoding.cvt (g : Nat) (d : Nat) (a : Nat) (src : CvtFmt) (dst : CvtFmt) (sel : Nat) (ovf : Bool) (rnd : Rm) : Encoding.Statement (.cvt g d a src dst sel ovf rnd) := fun _ _ h => Option.some.inj h ▸ rfl
theorem Encoding.qnt (e : Cvs) : Encoding.Statement (.qnt e) := fun _ _ h => Option.some.inj h ▸ rfl
theorem Encoding.dqn (e : Cvs) : Encoding.Statement (.dqn e) := fun _ _ h => Option.some.inj h ▸ rfl
theorem Encoding.cbx (half : Bool) (e : Cvs) : Encoding.Statement (.cbx half e) := fun _ _ h => Option.some.inj h ▸ rfl
theorem Encoding.scl (e : Cvs) : Encoding.Statement (.scl e) := fun _ _ h => Option.some.inj h ▸ rfl
theorem Encoding.pack4 (e : Cvs) : Encoding.Statement (.pack4 e) := fun _ _ h => Option.some.inj h ▸ rfl
theorem Encoding.unpack4 (e : Cvs) : Encoding.Statement (.unpack4 e) := fun _ _ h => Option.some.inj h ▸ rfl
theorem Encoding.ld (w : MemW) (sp : Spc) (a : Nat) (d : Nat) : Encoding.Statement (.ld w sp a d) := fun _ _ h => Option.some.inj h ▸ rfl
theorem Encoding.ldExt (w : MemW) (sp : Spc) (acq : Option Scope) (d : Nat) (e : Mem) : Encoding.Statement (.ldExt w sp acq d e) := fun _ _ h => Option.some.inj h ▸ rfl
theorem Encoding.st (w : MemW) (sp : Spc) (a : Nat) (d : Nat) : Encoding.Statement (.st w sp a d) := fun _ _ h => Option.some.inj h ▸ rfl
theorem Encoding.stExt (w : MemW) (sp : Spc) (rel : Option Scope) (d : Nat) (e : Mem) : Encoding.Statement (.stExt w sp rel d e) := fun _ _ h => Option.some.inj h ▸ rfl
theorem Encoding.ldv (wide : Bool) (acq : Option Scope) (d : Nat) (e : Mem) : Encoding.Statement (.ldv wide acq d e) := fun _ _ h => Option.some.inj h ▸ rfl
theorem Encoding.vset (g : Nat) (rt : Ret) (d : Nat) (a : SrcA) (b : Nat) : Encoding.Statement (.vset g rt d a b) := fun _ _ h => Option.some.inj h ▸ rfl
theorem Encoding.prf (kind : Prf) (a : Nat) : Encoding.Statement (.prf kind a) := fun _ _ h => Option.some.inj h ▸ rfl
theorem Encoding.prfExt (kind : Prf) (e : Mem) : Encoding.Statement (.prfExt kind e) := fun _ _ h => Option.some.inj h ▸ rfl
theorem Encoding.flush (a : Nat) : Encoding.Statement (.flush a) := fun _ _ h => Option.some.inj h ▸ rfl
theorem Encoding.flushExt (e : Mem) : Encoding.Statement (.flushExt e) := fun _ _ h => Option.some.inj h ▸ rfl
theorem Encoding.inv (a : Nat) : Encoding.Statement (.inv a) := fun _ _ h => Option.some.inj h ▸ rfl
theorem Encoding.invIp (a : Nat) : Encoding.Statement (.invIp a) := fun _ _ h => Option.some.inj h ▸ rfl
theorem Encoding.invExt (ip : Bool) (e : Mem) : Encoding.Statement (.invExt ip e) := fun _ _ h => Option.some.inj h ▸ rfl
theorem Encoding.atm (op : AtmOp) (e : Atm) : Encoding.Statement (.atm op e) := fun _ _ h => Option.some.inj h ▸ rfl
theorem Encoding.cas (wide : Bool) (e : Atm) (c : Nat) : Encoding.Statement (.cas wide e c) := fun _ _ h => Option.some.inj h ▸ rfl
theorem Encoding.casv (wide : Bool) (e : Atm) (c : Nat) : Encoding.Statement (.casv wide e c) := fun _ _ h => Option.some.inj h ▸ rfl
theorem Encoding.binc (e : Atm) : Encoding.Statement (.binc e) := fun _ _ h => Option.some.inj h ▸ rfl
theorem Encoding.winc (e : Atm) : Encoding.Statement (.winc e) := fun _ _ h => Option.some.inj h ▸ rfl
theorem Encoding.dgz (e : Atm) : Encoding.Statement (.dgz e) := fun _ _ h => Option.some.inj h ▸ rfl
theorem Encoding.addl (e : Atm) : Encoding.Statement (.addl e) := fun _ _ h => Option.some.inj h ▸ rfl
theorem Encoding.red (op : AtmOp) (e : Atm) : Encoding.Statement (.red op e) := fun _ _ h => Option.some.inj h ▸ rfl
theorem Encoding.fence (g : Nat) (ord : Ord) (sc : Scope) : Encoding.Statement (.fence g ord sc) := fun _ _ h => Option.some.inj h ▸ rfl
theorem Encoding.fenceL (g : Nat) (sc : Scope) : Encoding.Statement (.fenceL g sc) := fun _ _ h => Option.some.inj h ▸ rfl
theorem Encoding.fenceR (g : Nat) (sc : Scope) : Encoding.Statement (.fenceR g sc) := fun _ _ h => Option.some.inj h ▸ rfl
theorem Encoding.xfence (g : Nat) (sc : Scope) (p : Path) (q : Path) : Encoding.Statement (.xfence g sc p q) := fun _ _ h => Option.some.inj h ▸ rfl
theorem Encoding.bar (id : Nat) : Encoding.Statement (.bar id) := fun _ _ h => Option.some.inj h ▸ rfl
theorem Encoding.barA (id : Nat) : Encoding.Statement (.barA id) := fun _ _ h => Option.some.inj h ▸ rfl
theorem Encoding.barW (id : Nat) : Encoding.Statement (.barW id) := fun _ _ h => Option.some.inj h ▸ rfl
theorem Encoding.barExt (g : Nat) (kind : BarKind) (id : Nat) (exp : Nat) (cnt : Nat) : Encoding.Statement (.barExt g kind id exp cnt) := fun _ _ h => Option.some.inj h ▸ rfl
theorem Encoding.rgn (g : Nat) (b : Nat) : Encoding.Statement (.rgn g b) := fun _ _ h => Option.some.inj h ▸ rfl
theorem Encoding.poll (g : Nat) (rt : Ret) (acq : Option Scope) (d : Nat) (a : SrcA) (b : Nat) (bo : Nat) (sp : Spc) (ui : Bool) (cc : Cc) : Encoding.Statement (.poll g rt acq d a b bo sp ui cc) := fun _ _ h => Option.some.inj h ▸ rfl
theorem Encoding.mwait (g : Nat) (rt : Ret) (acq : Option Scope) (d : Nat) (a : SrcA) (b : Nat) (ge : Bool) : Encoding.Statement (.mwait g rt acq d a b ge) := fun _ _ h => Option.some.inj h ▸ rfl
theorem Encoding.twany (a : Nat) (d : Nat) : Encoding.Statement (.twany a d) := fun _ _ h => Option.some.inj h ▸ rfl
theorem Encoding.twanyExt (g : Nat) (d : Nat) (b : KSrc) : Encoding.Statement (.twanyExt g d b) := by intro hw r h; cases b <;> (cases Option.some.inj h; rfl)
theorem Encoding.twall (a : Nat) (d : Nat) : Encoding.Statement (.twall a d) := fun _ _ h => Option.some.inj h ▸ rfl
theorem Encoding.twallExt (g : Nat) (d : Nat) (b : KSrc) : Encoding.Statement (.twallExt g d b) := by intro hw r h; cases b <;> (cases Option.some.inj h; rfl)
theorem Encoding.tff (a : Nat) (d : Nat) : Encoding.Statement (.tff a d) := fun _ _ h => Option.some.inj h ▸ rfl
theorem Encoding.tffExt (g : Nat) (d : Nat) (b : KSrc) : Encoding.Statement (.tffExt g d b) := by intro hw r h; cases b <;> (cases Option.some.inj h; rfl)
theorem Encoding.bld (g : Nat) (slot : Nat) (tile : Bool) (a : Nat) (b : Nat) (c : Nat) (set : MSet) : Encoding.Statement (.bld g slot tile a b c set) := fun _ _ h => Option.some.inj h ▸ rfl
theorem Encoding.mmx (e : Mm) : Encoding.Statement (.mmx e) := fun _ _ h => Option.some.inj h ▸ rfl
theorem Encoding.mmq (e : Mm) : Encoding.Statement (.mmq e) := fun _ _ h => Option.some.inj h ▸ rfl
theorem Encoding.mmo (g : Nat) (d : Nat) (a : Nat) (set : MSet) : Encoding.Statement (.mmo g d a set) := fun _ _ h => Option.some.inj h ▸ rfl
theorem Encoding.cdecl (g : Nat) (d : Nat) (b : KSrc) : Encoding.Statement (.cdecl g d b) := by intro hw r h; cases b <;> (cases Option.some.inj h; rfl)
theorem Encoding.csig (g : Nat) (d : Nat) : Encoding.Statement (.csig g d) := fun _ _ h => Option.some.inj h ▸ rfl
theorem Encoding.abkGet (g : Nat) (d : Nat) : Encoding.Statement (.abkGet g d) := fun _ _ h => Option.some.inj h ▸ rfl
theorem Encoding.abkPut (g : Nat) (a : Nat) : Encoding.Statement (.abkPut g a) := fun _ _ h => Option.some.inj h ▸ rfl
theorem Encoding.accLd (g : Nat) (slot : Nat) (sp : Spc) (d : Nat) (a : Nat) (b : Nat) (tag : Nat) : Encoding.Statement (.accLd g slot sp d a b tag) := fun _ _ h => Option.some.inj h ▸ rfl
theorem Encoding.accSt (g : Nat) (slot : Nat) (sp : Spc) (d : Nat) (a : Nat) (b : Nat) (tag : Nat) : Encoding.Statement (.accSt g slot sp d a b tag) := fun _ _ h => Option.some.inj h ▸ rfl
theorem Encoding.accZ (g : Nat) (d : Nat) : Encoding.Statement (.accZ g d) := fun _ _ h => Option.some.inj h ▸ rfl
theorem Encoding.cpy (g : Nat) (d : Nat) (a : Nat) (b : Nat) (c : Nat) (tag : Nat) (sh : Bool) (dh : Bool) (ss : Bool) (ds : Bool) : Encoding.Statement (.cpy g d a b c tag sh dh ss ds) := fun _ _ h => Option.some.inj h ▸ rfl
theorem Encoding.cpw (g : Nat) (d : Nat) (a : Nat) (b : Nat) (tag : Nat) (lb : Nat) : Encoding.Statement (.cpw g d a b tag lb) := fun _ _ h => Option.some.inj h ▸ rfl
theorem Encoding.cps (g : Nat) (d : Nat) (a : Nat) (b : Nat) (c : Nat) (tag : Nat) (ss : Bool) (ds : Bool) : Encoding.Statement (.cps g d a b c tag ss ds) := fun _ _ h => Option.some.inj h ▸ rfl
theorem Encoding.coll (g : Nat) (a : Nat) (rq : Bool) : Encoding.Statement (.coll g a rq) := fun _ _ h => Option.some.inj h ▸ rfl
theorem Encoding.rsum (g : Nat) (a : Nat) (b : Nat) (rq : Bool) (ss : Bool) : Encoding.Statement (.rsum g a b rq ss) := fun _ _ h => Option.some.inj h ▸ rfl
theorem Encoding.rinv (g : Nat) (d : Nat) (a : Nat) (b : Nat) (hidx : Nat) (narg : Nat) (cls : Nat) : Encoding.Statement (.rinv g d a b hidx narg cls) := fun _ _ h => Option.some.inj h ▸ rfl
theorem Encoding.rinvT (g : Nat) (d : Nat) (a : Nat) (b : Nat) (hidx : Nat) (narg : Nat) (cls : Nat) : Encoding.Statement (.rinvT g d a b hidx narg cls) := fun _ _ h => Option.some.inj h ▸ rfl
theorem Encoding.launch (g : Nat) (a : Nat) (q : Nat) : Encoding.Statement (.launch g a q) := fun _ _ h => Option.some.inj h ▸ rfl
theorem Encoding.post (g : Nat) (a : Nat) (sp : Spc) : Encoding.Statement (.post g a sp) := fun _ _ h => Option.some.inj h ▸ rfl
theorem Encoding.postQueue (g : Nat) (d : Nat) (a : Nat) : Encoding.Statement (.postQueue g d a) := fun _ _ h => Option.some.inj h ▸ rfl
theorem Encoding.fget (g : Nat) (d : Nat) (a : Nat) : Encoding.Statement (.fget g d a) := fun _ _ h => Option.some.inj h ▸ rfl
theorem Encoding.fgetQueue (g : Nat) (d : Nat) (a : Nat) : Encoding.Statement (.fgetQueue g d a) := fun _ _ h => Option.some.inj h ▸ rfl
theorem Encoding.fput (g : Nat) (d : Nat) (a : Nat) (b : Nat) : Encoding.Statement (.fput g d a b) := fun _ _ h => Option.some.inj h ▸ rfl
theorem Encoding.phase (id : Nat) : Encoding.Statement (.phase id) := fun _ _ h => Option.some.inj h ▸ rfl
theorem Encoding.phaseExt (g : Nat) (id : Nat) : Encoding.Statement (.phaseExt g id) := fun _ _ h => Option.some.inj h ▸ rfl
theorem Encoding.intent (g : Nat) (a : Nat) (lead : Nat) (job : Bool) : Encoding.Statement (.intent g a lead job) := fun _ _ h => Option.some.inj h ▸ rfl
theorem Encoding.rblkAcq (g : Nat) (d : Nat) (n : Nat) (l : Bool) : Encoding.Statement (.rblkAcq g d n l) := fun _ _ h => Option.some.inj h ▸ rfl
theorem Encoding.rblkRel (g : Nat) (n : Nat) : Encoding.Statement (.rblkRel g n) := fun _ _ h => Option.some.inj h ▸ rfl
theorem Encoding.illegalEncoding : Encoding.Statement (.illegalEncoding) := fun _ _ h => nomatch (h : none = some _)
theorem Encoding.powerGoodBoot (cfg : List Byte) (pc : List Byte) (svc : List (List Byte)) (flash : Bool) : Encoding.Statement (.powerGoodBoot cfg pc svc flash) := fun _ _ h => nomatch (h : none = some _)
theorem Encoding.coreCycle (core : Nat) : Encoding.Statement (.coreCycle core) := fun _ _ h => nomatch (h : none = some _)
theorem Encoding.urgentWarp (core : Nat) (sched : Nat) : Encoding.Statement (.urgentWarp core sched) := fun _ _ h => nomatch (h : none = some _)
theorem Encoding.fairnessTurn (wid : Nat) : Encoding.Statement (.fairnessTurn wid) := fun _ _ h => nomatch (h : none = some _)
theorem Encoding.turnTimeout (wid : Nat) : Encoding.Statement (.turnTimeout wid) := fun _ _ h => nomatch (h : none = some _)
theorem Encoding.dieBucketCycle (die : Nat) : Encoding.Statement (.dieBucketCycle die) := fun _ _ h => nomatch (h : none = some _)
theorem Encoding.govTick : Encoding.Statement (.govTick) := fun _ _ h => nomatch (h : none = some _)
theorem Encoding.eptCalibration (pm : Option Nat) : Encoding.Statement (.eptCalibration pm) := fun _ _ h => nomatch (h : none = some _)
theorem Encoding.bankMonitorSample (die : Nat) (charge : BitVec 32) (vbank : BitVec 16) : Encoding.Statement (.bankMonitorSample die charge vbank) := fun _ _ h => nomatch (h : none = some _)
theorem Encoding.intentLapse (core : Nat) (ctx : Nat) : Encoding.Statement (.intentLapse core ctx) := fun _ _ h => nomatch (h : none = some _)
theorem Encoding.writeAssistChange (die : Nat) (yard : Nat) (mv : Nat) : Encoding.Statement (.writeAssistChange die yard mv) := fun _ _ h => nomatch (h : none = some _)
theorem Encoding.shadowLatchReplay (core : Nat) : Encoding.Statement (.shadowLatchReplay core) := fun _ _ h => nomatch (h : none = some _)
theorem Encoding.timerCompare (wid : Nat) : Encoding.Statement (.timerCompare wid) := fun _ _ h => nomatch (h : none = some _)
theorem Encoding.localWaitWatchdog (core : Nat) (ctx : Nat) : Encoding.Statement (.localWaitWatchdog core ctx) := fun _ _ h => nomatch (h : none = some _)
theorem Encoding.extwaitTimeout (wid : Nat) : Encoding.Statement (.extwaitTimeout wid) := fun _ _ h => nomatch (h : none = some _)
theorem Encoding.pollReread (wid : Nat) (lane : Nat) : Encoding.Statement (.pollReread wid lane) := fun _ _ h => nomatch (h : none = some _)
theorem Encoding.mwaitWake (wid : Nat) (lane : Nat) : Encoding.Statement (.mwaitWake wid lane) := fun _ _ h => nomatch (h : none = some _)
theorem Encoding.fgetRetry (wid : Nat) : Encoding.Statement (.fgetRetry wid) := fun _ _ h => nomatch (h : none = some _)
theorem Encoding.futureReenqueue (die : Nat) (rec : Nat) : Encoding.Statement (.futureReenqueue die rec) := fun _ _ h => nomatch (h : none = some _)
theorem Encoding.warpRetire (wid : Nat) : Encoding.Statement (.warpRetire wid) := fun _ _ h => nomatch (h : none = some _)
theorem Encoding.blockRetire (blk : Nat) : Encoding.Statement (.blockRetire blk) := fun _ _ h => nomatch (h : none = some _)
theorem Encoding.gridComplete (grid : Nat) : Encoding.Statement (.gridComplete grid) := fun _ _ h => nomatch (h : none = some _)
theorem Encoding.preemption (ctx : Nat) : Encoding.Statement (.preemption ctx) := fun _ _ h => nomatch (h : none = some _)
theorem Encoding.switchIn (blk : Nat) : Encoding.Statement (.switchIn blk) := fun _ _ h => nomatch (h : none = some _)
theorem Encoding.trapHandlerStart (wid : Nat) : Encoding.Statement (.trapHandlerStart wid) := fun _ _ h => nomatch (h : none = some _)
theorem Encoding.engineFault (core : Nat) (opid : Nat) (cls : Nat) (cause : Nat) (addr : BitVec 64) : Encoding.Statement (.engineFault core opid cls cause addr) := fun _ _ h => nomatch (h : none = some _)
theorem Encoding.copyEnginePop (core : Nat) : Encoding.Statement (.copyEnginePop core) := fun _ _ h => nomatch (h : none = some _)
theorem Encoding.copyComplete (core : Nat) (opid : Nat) : Encoding.Statement (.copyComplete core opid) := fun _ _ h => nomatch (h : none = some _)
theorem Encoding.matrixPass (core : Nat) : Encoding.Statement (.matrixPass core) := fun _ _ h => nomatch (h : none = some _)
theorem Encoding.matrixOpComplete (core : Nat) : Encoding.Statement (.matrixOpComplete core) := fun _ _ h => nomatch (h : none = some _)
theorem Encoding.bankZeroComplete (core : Nat) (bank : Nat) : Encoding.Statement (.bankZeroComplete core bank) := fun _ _ h => nomatch (h : none = some _)
theorem Encoding.collEnginePop (die : Nat) : Encoding.Statement (.collEnginePop die) := fun _ _ h => nomatch (h : none = some _)
theorem Encoding.reductionContribution (c : Contrib) : Encoding.Statement (.reductionContribution c) := fun _ _ h => nomatch (h : none = some _)
theorem Encoding.rsumTimeout (die : Nat) (desc : BitVec 64) (seq : Nat) : Encoding.Statement (.rsumTimeout die desc seq) := fun _ _ h => nomatch (h : none = some _)
theorem Encoding.collectiveChunk (die : Nat) (inst : Nat) (point : Nat) (chunk : Nat) (data : List Byte) : Encoding.Statement (.collectiveChunk die inst point chunk data) := fun _ _ h => nomatch (h : none = some _)
theorem Encoding.collPointReport (die : Nat) (inst : Nat) (point : Nat) (status : Nat) : Encoding.Statement (.collPointReport die inst point status) := fun _ _ h => nomatch (h : none = some _)
theorem Encoding.collEndStatus (die : Nat) (inst : Nat) (status : Nat) : Encoding.Statement (.collEndStatus die inst status) := fun _ _ h => nomatch (h : none = some _)
theorem Encoding.collPointTimeout (die : Nat) (inst : Nat) (reach : Bool) : Encoding.Statement (.collPointTimeout die inst reach) := fun _ _ h => nomatch (h : none = some _)
theorem Encoding.launchTriggerEnqueue (ctx : Nat) (q : Nat) : Encoding.Statement (.launchTriggerEnqueue ctx q) := fun _ _ h => nomatch (h : none = some _)
theorem Encoding.launchAccept (q : Nat) : Encoding.Statement (.launchAccept q) := fun _ _ h => nomatch (h : none = some _)
theorem Encoding.queueSwitch (q : Nat) : Encoding.Statement (.queueSwitch q) := fun _ _ h => nomatch (h : none = some _)
theorem Encoding.childLaunchAccept (ctx : Nat) (q : Nat) : Encoding.Statement (.childLaunchAccept ctx q) := fun _ _ h => nomatch (h : none = some _)
theorem Encoding.groupPlacement (grid : Nat) (grp : Nat) : Encoding.Statement (.groupPlacement grid grp) := fun _ _ h => nomatch (h : none = some _)
theorem Encoding.continuationDispatch (yard : Nat) : Encoding.Statement (.continuationDispatch yard) := fun _ _ h => nomatch (h : none = some _)
theorem Encoding.remoteInvocation (p : Invoke) : Encoding.Statement (.remoteInvocation p) := fun _ _ h => nomatch (h : none = some _)
theorem Encoding.invocationAnswer (wid : Nat) (code : Nat) (req : Bool) : Encoding.Statement (.invocationAnswer wid code req) := fun _ _ h => nomatch (h : none = some _)
theorem Encoding.handlerAssign (die : Nat) : Encoding.Statement (.handlerAssign die) := fun _ _ h => nomatch (h : none = some _)
theorem Encoding.overflowRingMove (die : Nat) (ctx : Nat) (hidx : Nat) : Encoding.Statement (.overflowRingMove die ctx hidx) := fun _ _ h => nomatch (h : none = some _)
theorem Encoding.lineReadRequest (dev : Nat) (addr : Nat) : Encoding.Statement (.lineReadRequest dev addr) := fun _ _ h => nomatch (h : none = some _)
theorem Encoding.lineReadResponse (line : Nat) (core : Nat) (data : List Byte) (ver : BitVec 32) : Encoding.Statement (.lineReadResponse line core data ver) := fun _ _ h => nomatch (h : none = some _)
theorem Encoding.ownershipRequest (dev : Nat) (addr : Nat) : Encoding.Statement (.ownershipRequest dev addr) := fun _ _ h => nomatch (h : none = some _)
theorem Encoding.recall (line : Nat) : Encoding.Statement (.recall line) := fun _ _ h => nomatch (h : none = some _)
theorem Encoding.leaseReturn (dev : Nat) (addr : Nat) : Encoding.Statement (.leaseReturn dev addr) := fun _ _ h => nomatch (h : none = some _)
theorem Encoding.leaseReturnWithData (dev : Nat) (addr : Nat) (data : List Byte) (ver : BitVec 32) : Encoding.Statement (.leaseReturnWithData dev addr data ver) := fun _ _ h => nomatch (h : none = some _)
theorem Encoding.leaseIdleReturn (line : Nat) : Encoding.Statement (.leaseIdleReturn line) := fun _ _ h => nomatch (h : none = some _)
theorem Encoding.leaseDeadlineReturn (line : Nat) : Encoding.Statement (.leaseDeadlineReturn line) := fun _ _ h => nomatch (h : none = some _)
theorem Encoding.leaseLapse (addr : Nat) : Encoding.Statement (.leaseLapse addr) := fun _ _ h => nomatch (h : none = some _)
theorem Encoding.committedLineWrite (dev : Nat) (addr : Nat) (ctx : Nat) (data : List Byte) (mask : BitVec 128) : Encoding.Statement (.committedLineWrite dev addr ctx data mask) := fun _ _ h => nomatch (h : none = some _)
theorem Encoding.atomicRequest (p : RemoteAtomic) : Encoding.Statement (.atomicRequest p) := fun _ _ h => nomatch (h : none = some _)
theorem Encoding.atomicResponse (wid : Nat) (lane : Nat) (val : BitVec 64) : Encoding.Statement (.atomicResponse wid lane val) := fun _ _ h => nomatch (h : none = some _)
theorem Encoding.paddockGridGroup (ctx : Nat) (rec : List Byte) (grp : Nat) (dev : Nat) : Encoding.Statement (.paddockGridGroup ctx rec grp dev) := fun _ _ h => nomatch (h : none = some _)
theorem Encoding.groupRetired (grid : Nat) (grp : Nat) : Encoding.Statement (.groupRetired grid grp) := fun _ _ h => nomatch (h : none = some _)
theorem Encoding.powerIntent (dev : Nat) (rate : Nat) (due : Nat) : Encoding.Statement (.powerIntent dev rate due) := fun _ _ h => nomatch (h : none = some _)
theorem Encoding.failureNotice (dev : Nat) : Encoding.Statement (.failureNotice dev) := fun _ _ h => nomatch (h : none = some _)
theorem Encoding.linkFailure (fab : Bool) (port : Nat) (devs : List Nat) : Encoding.Statement (.linkFailure fab port devs) := fun _ _ h => nomatch (h : none = some _)
theorem Encoding.hostMemoryAccess (h : Home) (wr : Option (List Byte)) (len : Nat) : Encoding.Statement (.hostMemoryAccess h wr len) := fun _ _ h => nomatch (h : none = some _)
theorem Encoding.dramUe (line : Nat) (wid : Option Nat) : Encoding.Statement (.dramUe line wid) := fun _ _ h => nomatch (h : none = some _)
theorem Encoding.l2CleanUe (line : Nat) : Encoding.Statement (.l2CleanUe line) := fun _ _ h => nomatch (h : none = some _)
theorem Encoding.l2DirtyUeContainment (line : Nat) (set : Nat) (way : Nat) : Encoding.Statement (.l2DirtyUeContainment line set way) := fun _ _ h => nomatch (h : none = some _)
theorem Encoding.regCacheUe (wid : Nat) (reg : Nat) (lane : Nat) : Encoding.Statement (.regCacheUe wid reg lane) := fun _ _ h => nomatch (h : none = some _)
theorem Encoding.spadAccUe (blk : Nat) (acc : Bool) : Encoding.Statement (.spadAccUe blk acc) := fun _ _ h => nomatch (h : none = some _)
theorem Encoding.macroParityError (core : Nat) (macro_ : Nat) : Encoding.Statement (.macroParityError core macro_) := fun _ _ h => nomatch (h : none = some _)
theorem Encoding.l1ParityError (core : Nat) (line : Nat) (ic : Bool) : Encoding.Statement (.l1ParityError core line ic) := fun _ _ h => nomatch (h : none = some _)
theorem Encoding.tlbParityError (core : Nat) (ctx : Nat) (page : Nat) : Encoding.Statement (.tlbParityError core ctx page) := fun _ _ h => nomatch (h : none = some _)
theorem Encoding.deviceFatalError (unit : Nat) : Encoding.Statement (.deviceFatalError unit) := fun _ _ h => nomatch (h : none = some _)
theorem Encoding.patrolScrubRead (line : Nat) (ue : Bool) : Encoding.Statement (.patrolScrubRead line ue) := fun _ _ h => nomatch (h : none = some _)
theorem Encoding.mmuInvalidate (v : BitVec 32) : Encoding.Statement (.mmuInvalidate v) := fun _ _ h => nomatch (h : none = some _)
theorem Encoding.mmuInvalidateDone : Encoding.Statement (.mmuInvalidateDone) := fun _ _ h => nomatch (h : none = some _)
theorem Encoding.pgretRelease (i : Nat) : Encoding.Statement (.pgretRelease i) := fun _ _ h => nomatch (h : none = some _)
theorem Encoding.fltKill (v : BitVec 32) : Encoding.Statement (.fltKill v) := fun _ _ h => nomatch (h : none = some _)
theorem Encoding.debugStop : Encoding.Statement (.debugStop) := fun _ _ h => nomatch (h : none = some _)
theorem Encoding.debugRestart : Encoding.Statement (.debugRestart) := fun _ _ h => nomatch (h : none = some _)
theorem Encoding.debugStopComplete : Encoding.Statement (.debugStopComplete) := fun _ _ h => nomatch (h : none = some _)
theorem Encoding.dbgRegw (v : BitVec 64) : Encoding.Statement (.dbgRegw v) := fun _ _ h => nomatch (h : none = some _)
theorem Encoding.measExtend (who : Writer) (v : BitVec 32) : Encoding.Statement (.measExtend who v) := fun _ _ h => nomatch (h : none = some _)
theorem Encoding.memTrainStep (die : Nat) (v : BitVec 32) : Encoding.Statement (.memTrainStep die v) := fun _ _ h => nomatch (h : none = some _)
theorem Encoding.memTrainStepDone (die : Nat) (layers : BitVec 16) : Encoding.Statement (.memTrainStepDone die layers) := fun _ _ h => nomatch (h : none = some _)
theorem Encoding.fptTrainStart (fab : Bool) (port : Nat) (v : BitVec 32) : Encoding.Statement (.fptTrainStart fab port v) := fun _ _ h => nomatch (h : none = some _)
theorem Encoding.fptPortOff (fab : Bool) (port : Nat) (v : BitVec 32) : Encoding.Statement (.fptPortOff fab port v) := fun _ _ h => nomatch (h : none = some _)
theorem Encoding.fptTrainingProgress (fab : Bool) (port : Nat) (ok : Bool) (lgood : BitVec 8) (pdev : Nat) (pport : Nat) (late : Bool) : Encoding.Statement (.fptTrainingProgress fab port ok lgood pdev pport late) := fun _ _ h => nomatch (h : none = some _)
theorem Encoding.lqTailWrite (q : Nat) (v : BitVec 32) : Encoding.Statement (.lqTailWrite q v) := fun _ _ h => nomatch (h : none = some _)
theorem Encoding.lqCfgWrite (q : Nat) (v : BitVec 32) : Encoding.Statement (.lqCfgWrite q v) := fun _ _ h => nomatch (h : none = some _)
theorem Encoding.phsCtxWrite (die : Nat) (v : BitVec 32) : Encoding.Statement (.phsCtxWrite die v) := fun _ _ h => nomatch (h : none = some _)
theorem Encoding.bootRunSet : Encoding.Statement (.bootRunSet) := fun _ _ h => nomatch (h : none = some _)
theorem Encoding.svcDoorWrite (n : Nat) (host : Bool) (v : BitVec 32) : Encoding.Statement (.svcDoorWrite n host v) := fun _ _ h => nomatch (h : none = some _)
theorem Encoding.svcTick : Encoding.Statement (.svcTick) := fun _ _ h => nomatch (h : none = some _)
theorem Encoding.haltWake (n : Nat) : Encoding.Statement (.haltWake n) := fun _ _ h => nomatch (h : none = some _)
theorem Encoding.registerWrite (who : Writer) (off : Nat) (bytes : Nat) (v : BitVec 64) : Encoding.Statement (.registerWrite who off bytes v) := fun _ _ h => nomatch (h : none = some _)
theorem Encoding.loadCompletion (wid : Nat) (reg : Nat) : Encoding.Statement (.loadCompletion wid reg) := fun _ _ h => nomatch (h : none = some _)
theorem Encoding.linkLevelReplay (fab : Nat) (port : Nat) : Encoding.Statement (.linkLevelReplay fab port) := fun _ _ h => nomatch (h : none = some _)
theorem Encoding.measExtendDone : Encoding.Statement (.measExtendDone) := fun _ _ h => nomatch (h : none = some _)
theorem Encoding.terminationComplete : Encoding.Statement (.terminationComplete) := fun _ _ h => nomatch (h : none = some _)

end Sys2Proof.Laws
end

