-- ==== Sys2Proof/Laws/Translate.lean ====
section
/-!
SUPPORT. Laws/Translate.lean: translation depends on an address through its page alone (R302 to R307), so that an access of several
bytes within a page that reaches its first byte reaches them all.
-/

namespace Sys2Proof.Machine

theorem bitsOf_page {a b hi lo : Nat} (h : a / 65536 = b / 65536) (hl : 16 ≤ lo) : bitsOf a hi lo = bitsOf b hi lo := by
  have e : ∀ n : Nat, n / 2 ^ lo = n / 65536 / 2 ^ (lo - 16) := fun n => by
    rw [Nat.div_div_eq_div_mul, show (65536 : Nat) = 2 ^ 16 from rfl, ← Nat.pow_add, Nat.add_sub_cancel' hl]
  simp only [bitsOf, e, h]

theorem vaIndex_page {a b : Nat} (h : a / 65536 = b / 65536) (level : Nat) : vaIndex a level = vaIndex b level := by
  unfold vaIndex
  split
  · exact bitsOf_page h (by decide)
  split
  · exact bitsOf_page h (by decide)
  split <;> exact bitsOf_page h (by decide)

theorem leafOf_page {a b : Nat} (h : a / 65536 = b / 65536) (level u idx e : Nat) (run : Bool) :
    leafOf level u e idx a run = leafOf level u e idx b run := by
  simp only [leafOf, bitsOf_page h (show 16 ≤ 16 by decide)]

/-- Whether a table word stops a walk does not depend on the address walked. -/
theorem State.walkPoison_none {s : State} {pfn idx : Nat} {va vb : DWord} (h : s.walkPoison pfn idx va = none) : s.walkPoison pfn idx vb = none := by
  unfold State.walkPoison State.upsetTrap at h ⊢
  dsimp only at h ⊢
  repeat' split at h
  all_goals simp_all

/-- A walk that finds a leaf for an address finds it for every address of the page. -/
theorem State.walk_page {s : State} {va vb : DWord} (h : va.toNat / 65536 = vb.toNat / 65536) :
    ∀ {left pfn : Nat} {l : Leaf}, s.walk va left pfn = .ok l → s.walk vb left pfn = .ok l
  | 0, _, _, hw => nomatch hw
  | left + 1, pfn, l, hw => by
    unfold State.walk at hw ⊢
    simp only [← vaIndex_page h, ← leafOf_page h, ← h] at hw ⊢
    cases hp : s.walkPoison pfn (vaIndex va.toNat (3 - left)) va with
    | some m => simp [hp] at hw
    | none =>
      simp only [hp, State.walkPoison_none hp] at hw ⊢
      generalize (if 3 - left < 2 then (vaIndex va.toNat (3 - left), s.tableWord pfn (vaIndex va.toNat (3 - left))) else _) = x at hw ⊢
      split at hw
      · simp at hw
      split at hw
      · simp at hw
      rename_i h1 h2
      rw [if_neg h1, if_neg h2]
      split at hw
      · rename_i h3
        rw [if_pos h3]; exact hw
      · rename_i h3
        rw [if_neg h3]; exact walk_page h hw

theorem State.leaf_page {s : State} {core ctx : Nat} {va vb : DWord} {l : Leaf} (h : va.toNat / 65536 = vb.toNat / 65536)
    (hl : s.leaf core ctx va = .ok l) : s.leaf core ctx vb = .ok l := by
  have ht : s.tlbLook core ctx vb = s.tlbLook core ctx va := by
    simp only [State.tlbLook, h]
  unfold State.leaf at hl ⊢
  simp only [ht] at hl ⊢
  split at hl
  · simp at hl
  rename_i h1
  rw [if_neg h1]
  cases hx : s.tlbLook core ctx va with
  | some x => simpa only [hx] using hl
  | none =>
    simp only [hx] at hl ⊢
    exact walk_page h hl

/-- Addresses of one page lie in one home. -/
theorem Leaf.key_home (l : Leaf) {va vb : DWord} (h : va.toNat / 65536 = vb.toNat / 65536) :
    isHostKey (lineOf (l.key vb) * 128) = isHostKey (lineOf (l.key va) * 128) := by
  have e : l.key vb / 65536 = l.key va / 65536 := by
    unfold Leaf.key keyPeer keyHost
    rw [show span = 2 ^ 48 by decide]
    dsimp only
    split
    · omega
    · split <;> omega
  unfold isHostKey lineOf
  rw [show span = 2 ^ 48 by decide, show l.key vb / 128 * 128 / 2 ^ 48 = l.key va / 128 * 128 / 2 ^ 48 by omega]

/-- An access of a compute core that reaches its byte reaches every byte of the page by the same leaf, where no line is poisoned. -/
theorem State.place_page {s : State} {core ctx : Nat} {priv : Bool} {a : Acc} {va vb : DWord} {key : Nat} (hc : isService core = false)
    (hp : s.mem.poison = []) (h : va.toNat / 65536 = vb.toNat / 65536) (hk : s.place core ctx priv a va = .ok key) :
    ∃ l : Leaf, key = l.key va ∧ s.place core ctx priv a vb = .ok (l.key vb) := by
  have hq : ∀ n, s.mem.poisoned n = false := fun n => by simp [Mem.poisoned, hp]
  simp only [State.place, State.mapTo, hc, Bool.false_eq_true, if_false, State.broken, hq, Bool.false_or] at hk ⊢
  unfold State.xlate at hk ⊢
  cases hl : s.leaf core ctx va with
  | error m => simp [hl] at hk
  | ok l =>
    simp only [hl] at hk
    simp only [State.leaf_page h hl]
    have e : permit l priv a va = none → permit l priv a vb = none := by
      unfold permit
      cases a <;> (try exact id) <;> (repeat' split) <;> simp
    cases hm : permit l priv a va with
    | some m => simp [hm] at hk
    | none =>
      simp only [hm] at hk
      by_cases hx : (a != Acc.data && (isHostKey (lineOf (l.key va) * 128) && !s.hostUp)) = true
      · rw [if_pos hx] at hk; nomatch hk
      · rw [if_neg hx] at hk
        refine ⟨l, (Except.ok.inj hk).symm, ?_⟩
        simp only [e hm]
        rw [if_neg (by rw [l.key_home h]; exact hx)]

/-- Bytes within a page lie together at home. -/
theorem Leaf.key_add (l : Leaf) {va : DWord} {i : Nat} (h : va.toNat % 65536 + i < 65536) :
    l.key (va + BitVec.ofNat 64 i) = l.key va + i ∧ (va + BitVec.ofNat 64 i).toNat / 65536 = va.toNat / 65536 := by
  have e : (va + BitVec.ofNat 64 i).toNat = va.toNat + i := by
    have := va.isLt
    rw [BitVec.toNat_add, BitVec.toNat_ofNat]
    omega
  refine ⟨?_, by rw [e]; omega⟩
  unfold Leaf.key keyPeer keyHost
  rw [e, show (va.toNat + i) % 65536 = va.toNat % 65536 + i by omega]
  have hs : span = 2 ^ 48 := by decide
  rw [hs]
  dsimp only
  split
  · omega
  · split <;> omega

theorem tryAll_ok {ε α β : Type} {f : α → Except ε β} {g : α → β} : ∀ {xs : List α}, (∀ x ∈ xs, f x = .ok (g x)) → tryAll f xs = .ok (xs.map g)
  | [], _ => rfl
  | x :: xs, h => by
    rw [tryAll, h x List.mem_cons_self]
    simp only [tryAll_ok fun y hy => h y (List.mem_cons_of_mem _ hy), List.map_cons]

/-- A read of bytes of one page, whose first byte is reached, reads them one after another at home. -/
theorem State.readBytes_page {s : State} {core ctx n key : Nat} {va : DWord} (hc : isService core = false) (hp : s.mem.poison = [])
    (hu : s.mem.upset = []) (hk : s.place core ctx true .read va = .ok key) (hn : va.toNat % 65536 + n ≤ 65536) :
    s.readBytes core ctx va n = .ok ((List.range n).map fun i => s.mem.byte (key + i)) := by
  have hall : ∀ i ∈ List.range n, s.place core ctx true .read (va + BitVec.ofNat 64 i) = .ok (key + i) := by
    intro i hi
    have hlt : va.toNat % 65536 + i < 65536 := by have := List.mem_range.mp hi; omega
    obtain ⟨l, rfl, h2⟩ := State.place_page (vb := va + BitVec.ofNat 64 i) hc hp (by
      have e : (va + BitVec.ofNat 64 i).toNat / 65536 = va.toNat / 65536 := by
        have := va.isLt
        rw [BitVec.toNat_add, BitVec.toNat_ofNat]
        omega
      exact e.symm) hk
    rw [h2, (Leaf.key_add l hlt).1]
  rw [State.readBytes, State.keysOf, tryAll_ok (g := fun i => key + i) fun i hi => by rw [hall i hi]; simp [Acc.reads, State.upsetTrap, Mem.upsetAt, hu]]
  simp only [List.map_map, Function.comp_def]

/-- The same of an engine of a compute core. -/
theorem State.engBytes_page {s : State} {e : Eng} {n a key : Nat} (hc : isService e.core = false) (hp : s.mem.poison = [])
    (hu : s.mem.upset = []) (hk : s.place e.core e.ctx e.priv .read (BitVec.ofNat 64 a) = .ok key) (hn : a % 65536 + n ≤ 65536) (ha : a < 2 ^ 64) :
    s.engBytes e .g a n = .ok ((List.range n).map fun i => s.engAt e .g (key + i)) := by
  refine tryAll_ok fun i hi => ?_
  have hm : (BitVec.ofNat 64 a).toNat = a := by rw [BitVec.toNat_ofNat]; omega
  have hlt : (BitVec.ofNat 64 a).toNat % 65536 + i < 65536 := by have := List.mem_range.mp hi; omega
  have hi' := List.mem_range.mp hi
  have e1 : BitVec.ofInt 64 ((a : Int) + (i : Nat)) = BitVec.ofNat 64 a + BitVec.ofNat 64 i := by
    apply BitVec.eq_of_toNat_eq
    rw [BitVec.toNat_ofInt, BitVec.toNat_add, BitVec.toNat_ofNat, BitVec.toNat_ofNat]
    omega
  obtain ⟨l, rfl, h2⟩ := State.place_page (vb := BitVec.ofNat 64 a + BitVec.ofNat 64 i) hc hp (Leaf.key_add ⟨0, 0, 0, false, false, false, false, 0⟩ hlt).2.symm hk
  have e2 : ((a : Int) + (i : Nat) < 0 || (2 ^ 64 : Int) ≤ (a : Int) + (i : Nat)) = false := by
    simp only [Bool.or_eq_false_iff, decide_eq_false_iff_not]
    omega
  unfold State.engByte State.engKey
  simp only [e2, Bool.false_eq_true, if_false, e1, h2, (Leaf.key_add l hlt).1, hu, List.isEmpty_nil, Bool.not_true, Bool.and_false]

end Sys2Proof.Machine
end

