-- ==== Sys2Proof/Tests/Slice0.lean ====
section
/-!
SUPPORT. Tests/Slice0.lean: the checks of well-formedness, words written out from the spec's encodings, values worked in the spec, one step each
of some instructions, and for every statement with hypotheses a state that meets them.
-/

namespace Sys2Proof.Tests

open Sys2Proof Sys2Proof.Machine Sys2Proof.Machine.Shape

set_option Elab.async false
set_option maxRecDepth 4000

/-! ### Ill-formed terms, refused by the check that refuses them -/

theorem smoke_guard : wfError (.exitExt 13) = some .guard := by decide
theorem smoke_lane_register : wfError (.shfl .idx 0 .none 512 1 (.imm 0)) = some .register := by decide
theorem smoke_odd_pair : wfError (.brx 3) = some .pair := by decide
theorem smoke_last_pair : wfError (.ret 511) = some .pair := by decide
theorem smoke_k_register : wfError (.kmov 64 0) = some .register := by decide
theorem smoke_mask_register : wfError (.join 12) = some .register := by decide
theorem smoke_convergence_register : wfError (.csig 0 8) = some .register := by decide
theorem smoke_limit : wfError (.trap 512) = some .word2 := by decide
theorem smoke_wide_pair : wfError (.add .i64 3 4) = some .pair := by decide
theorem smoke_source_a_pair : wfError (.addExt false ⟨0, .none, .i64, 2, .x 5, .imm 1⟩) = some .pair := by decide
theorem smoke_source_a_k : wfError (.addExt false ⟨0, .none, .i32, 2, .k 64, .imm 1⟩) = some .register := by decide
theorem smoke_source_b_literal : wfError (.addExt false ⟨0, .none, .i32, 2, .x 5, .lit 0x100000000⟩) = some .reserved := by decide
theorem smoke_source_b_no_literal : wfError (.sel ⟨0, .none, .i32, 2, .x 5, .lit 1, 3⟩) = some .immediate := by decide
theorem smoke_scalar_b : wfError (.kaddExt ⟨0, 1, 2, .k 64⟩) = some .register := by decide
theorem smoke_scalar_b_no_literal : wfError (.cdecl 0 1 (.lit 4)) = some .immediate := by decide
theorem smoke_retain_k : wfError (.addExt false ⟨0, .a, .i32, 2, .k 5, .imm 1⟩) = some .retain := by decide
theorem smoke_retain_immediate : wfError (.addExt false ⟨0, .b, .i32, 2, .x 5, .imm 1⟩) = some .retain := by decide
theorem smoke_retain_absent_c : wfError (.addExt false ⟨0, .c, .i32, 2, .x 5, .x 6⟩) = some .retain := by decide
theorem smoke_type_set_i2 : wfError (.mul .ui32 1 2) = some .minor := by decide
theorem smoke_type_set_i2_ext : wfError (.mulExt ⟨0, .none, .ui32, 2, .x 5, .x 6⟩) = some .minor := by decide
theorem smoke_type_set_f2 : wfError (.frcp .bf16 1 2) = some .minor := by decide
theorem smoke_type_set_f2_ext : wfError (.frcpExt ⟨0, .none, .f16, 2, .x 5⟩) = some .minor := by decide
theorem smoke_saturating_64 : wfError (.addExt true ⟨0, .none, .i64, 2, .x 4, .x 6⟩) = some .modifier := by decide
theorem smoke_call_target : wfError (.callExt 0 .none 2 (.reg (.x 5))) = some .pair := by decide
theorem smoke_lea_immediate : wfError (.lea 0 .none 2 (.x 4) (.imm 1) false 0) = some .immediate := by decide
theorem smoke_lea_sign_of_literal : wfError (.lea 0 .none 2 (.x 4) (.lit 1) true 0) = some .reserved := by decide
theorem smoke_mask_literal : wfError (.mset 0 1 (.lit 0x100000000)) = some .reserved := by decide
theorem smoke_optional_index : wfError (.kld 0 .g 1 2 (some 64) 0) = some .register := by decide
theorem smoke_li_literal : wfError (.liLit .i32 1 0x100000000) = some .reserved := by decide
theorem smoke_cmp_mask : wfError (.cmp .eq ⟨0, .none, .i32, 12, .x 1, .x 2⟩) = some .register := by decide
theorem smoke_fdot_type : wfError (.fdot2 .rne ⟨0, .none, .f32, 1, .x 1, .x 2, 3⟩) = some .minor := by decide
theorem smoke_conversion_slot : wfError (.dqn ⟨0, .none, 8, 1, 2, 0, 3, .f32⟩) = some .word2 := by decide
theorem smoke_conversion_unused_b : wfError (.dqn ⟨0, .none, 0, 1, 2, 1, 3, .f32⟩) = some .reserved := by decide
theorem smoke_scl_wide : wfError (.scl ⟨0, .none, 0, 1, 2, 0, 0, .f16⟩) = some .word2 := by decide
theorem smoke_cvt_integers : wfError (.cvt 0 1 2 .s32 .u32 0 false .rne) = some .word2 := by decide
theorem smoke_cvt_codebook : wfError (.cvt 0 1 2 (.elem 8) (.elem 0) 0 false .rne) = some .word2 := by decide
theorem smoke_cvt_selector : wfError (.cvt 0 1 2 (.elem 3) (.elem 0) 4 false .rne) = some .word2 := by decide
theorem smoke_load_width : wfError (.ld .e2m1 .g 2 4) = some .minor := by decide
theorem smoke_store_width : wfError (.st .ui8 .g 2 4) = some .minor := by decide
theorem smoke_memory_index : wfError (.ldExt .w32 .g none 1 ⟨0, .none, .x 2, some 512, 0⟩) = some .register := by decide
theorem smoke_versioned_pair : wfError (.ldv true none 510 ⟨0, .none, .x 2, none, 0⟩) = some .pair := by decide
theorem smoke_atomic_operation : wfError (.atm .addF16x2 ⟨0, .none, .none, .wp, 1, .x 2, 3, 0⟩) = some .minor := by decide
theorem smoke_reduction_operation : wfError (.red .exch32 ⟨0, .none, .none, .wp, 0, .x 2, 3, 0⟩) = some .minor := by decide
theorem smoke_reduction_ordering : wfError (.red .add32 ⟨0, .none, .acq, .bk, 0, .x 2, 3, 0⟩) = some .ordering := by decide
theorem smoke_reduction_destination : wfError (.red .add32 ⟨0, .none, .none, .wp, 1, .x 2, 3, 0⟩) = some .reserved := by decide
theorem smoke_dgz_operand : wfError (.dgz ⟨0, .none, .none, .wp, 1, .x 2, 3, 0⟩) = some .reserved := by decide
theorem smoke_fence_ordering : wfError (.fence 0 .none .bk) = some .ordering := by decide
theorem smoke_fence_r_scope : wfError (.fenceR 0 .sy) = some .scope := by decide
theorem smoke_xfence_same_path : wfError (.xfence 0 .bk .core .core) = some .word2 := by decide
theorem smoke_barrier_number : wfError (.bar 16) = some .word2 := by decide
theorem smoke_barrier_wait_counts : wfError (.barExt 0 .wait 1 0 1) = some .word2 := by decide
theorem smoke_barrier_arrive_none : wfError (.barExt 0 .both 1 0 0) = some .word2 := by decide
theorem smoke_region_budget : wfError (.rgn 0 33) = some .word2 := by decide
theorem smoke_poll_backoff : wfError (.poll 0 .none none 1 (.x 2) 3 11 .g false .eq) = some .word2 := by decide
theorem smoke_macro_set_end : wfError (.bld 0 0 false 1 2 3 ⟨64, 31, 2, 1⟩) = some .word2 := by decide
theorem smoke_macro_set_nm : wfError (.mmo 0 1 2 ⟨64, 0, 1, 3⟩) = some .word2 := by decide
theorem smoke_multiply_rows : wfError (.mmx ⟨0, 0, false, 1, 2, 3, 0, ⟨64, 0, 1, 1⟩, 65⟩) = some .word2 := by decide
theorem smoke_copy_sides : wfError (.cpy 0 1 2 3 4 64 true false true false) = some .word2 := by decide
theorem smoke_invocation_arguments : wfError (.rinv 0 1 2 60 0 5 0) = some .word2 := by decide
theorem smoke_queue_push : wfError (.postQueue 0 3 1) = some .register := by decide
theorem smoke_queue_pop : wfError (.fgetQueue 0 1 1) = some .register := by decide
theorem smoke_inbox_pop_alignment : wfError (.fgetQueue 0 4 3) = some .register := by decide

/-! ### Words written out from the spec's encodings

Field order from bit 31 down, as R15 to R17 give it: F, A, D, OP, LEN; then MOD, RET, SLOT, MINOR, C, B; then word 2 and the literal. -/

/-- What the decoder reads from a row's words, the first word lowest. -/
def reads (ws : List Nat) : Option Instr := decodeTableWord (32 * ws.length) (ws.foldr (fun w r => w + 2 ^ 32 * r) 0)

/-- The five encodings of spec/01, "Worked encodings". -/
theorem word_worked_add : reads [0x00481C80] = some (.add .i32 9 7) := by decide +kernel
theorem word_worked_fadd : reads [0x40100581, 0x00000003, 0] = some (.faddExt .rne ⟨4, .none, .f32, 1, .x 2, .x 3⟩) := by decide +kernel
theorem word_worked_add_k : reads [0x00205081, 0xC0000000, 0xFFFFFFFD] = some (.addExt false ⟨0, .none, .i32, 20, .k 4, .imm 0xFFFFFFFD⟩) := by
  decide +kernel
theorem word_worked_li : reads [0x1000A0F2, 0x89ABCDEF, 0x01234567] = some (.liLit .i64 40 0x0123456789ABCDEF) := by decide +kernel
theorem word_worked_gsr : reads [0x10380C38] = some (.gsrK 7 3) := by decide +kernel
/-- The illegal variants of spec/01. -/
theorem word_worked_illegal : reads [0xD0100581, 3, 0] = none ∧ reads [0x1000A4F2, 0x89ABCDEF, 0x01234567] = none := by decide +kernel
/-- The two decodings of spec/02. -/
theorem word_worked_cmp : reads [0x002008ED, 0x10000005, 0] = some (.cmp .lt ⟨0, .none, .i32, 2, .x 4, .x 5⟩) := by decide +kernel
theorem word_worked_ld : reads [0x00401A81, 0x110C000A, 0] = some (.ldExt .w32 .g (some .dv) 6 ⟨0, .none, .x 8, some 10, 0⟩) := by decide +kernel
theorem word_worked_ld_illegal : reads [0x00401A81, 0x11CC000A, 0] = none ∧ reads [0x00401A81, 0x210C000A, 0] = none := by decide +kernel
/-- The conversion of spec/05, the region of spec/06, the poll and the versioned load of spec/14, the multiply of spec/07. -/
theorem word_worked_cvt : reads [0x00602A41, 0, 0x00100300] = some (.cvt 0 10 12 (.elem 0) (.elem 3) 2 false .rne) := by decide +kernel
theorem word_worked_rgn : reads [0x0000034D, 0, 2] = some (.rgn 0 2) := by decide +kernel
theorem word_worked_poll : reads [0x00302351, 0x11800007, 0] = some (.poll 0 .none (some .sy) 8 (.x 6) 7 0 .g false .eq) := by decide +kernel
theorem word_worked_ldv : reads [0x00101289, 0x400C0000, 0] = some (.ldv false none 4 ⟨0, .none, .x 2, none, 0⟩) := by decide +kernel
theorem word_worked_mmx : reads [0x00502385, 0x0040040B, 0x00040005] = some (.mmx ⟨0, 1, false, 8, 10, 11, 2, ⟨0, 1, 1, 5⟩, 2⟩) := by decide +kernel

/-- Control, masks and system (R53, R98 to R115). -/
theorem word_bra : reads [0b0000_111111111_111111110_00000010_00] = some (.bra 0x3FFFE) := by decide +kernel
theorem word_call : reads [0b0000_111111101_000000100_00000100_00] = some (.call 0x1FD 4) := by decide +kernel
theorem word_call_reg : reads [0b0001_000000110_000000100_00000100_00] = some (.callReg 6 4) := by decide +kernel
theorem word_ssr : reads [0b0001_000000101_000100100_00001111_00] = some (.ssr 5 0x024) := by decide +kernel
theorem word_mset : reads [0b1100_000000000_000001011_00010001_01, 0b01000_00_000_0000_000000000_000000000, 0x80000001]
    = some (.mset 12 11 (.imm 0x80000001)) := by decide +kernel
theorem word_mfind : reads [0b0001_000000011_000111111_00011000_00] = some (.mfindHi 3 63) := by decide +kernel
/-- Integer (R54): minor 2 is `.ui32`, SAT bit 27, RET 01 keeps A; `.64` names pairs. -/
theorem word_sub_sat : reads [0b0000_000000010_000000001_00100001_01, 0b00001_01_000_0010_000000000_000000011, 0]
    = some (.subExt true ⟨0, .a, .ui32, 1, .x 2, .x 3⟩) := by decide +kernel
theorem word_mad : reads [0b0000_000000010_000000100_00100100_11, 0b00000_00_000_0001_000001000_000000000, 0, 0x89ABCDEF, 0x01234567]
    = some (.mad ⟨0, .none, .i64, 4, .x 2, .lit 0x0123456789ABCDEF, 8⟩) := by decide +kernel
theorem word_shfl : reads [0b0000_000000010_000000100_00111101_01, 0b01000_00_000_0011_000000000_000000000, 31]
    = some (.shfl .bfly 0 .none 4 2 (.imm 31)) := by decide +kernel
theorem word_sar : reads [0b0001_000000010_000000100_00110000_00] = some (.sar .i64 2 4) := by decide +kernel
/-- Scalar (R55). -/
theorem word_kshr : reads [0b0001_000000010_000000100_01011001_00] = some (.kshrA 2 4) := by decide +kernel
theorem word_kcmp : reads [0b0000_000000010_000000100_01011010_01, 0b00101_00_000_0001_000000000_000000111, 0]
    = some (.kcmp .ge true ⟨0, 4, 2, .k 7⟩) := by decide +kernel
/-- Floating point (R56): RM 1 is `.rz`. -/
theorem word_ffma : reads [0b0000_000000010_000000001_01100011_01, 0b00001_00_000_0010_000000100_000000011, 0]
    = some (.ffma .rz ⟨0, .none, .bf16, 1, .x 2, .x 3, 4⟩) := by decide +kernel
theorem word_fclass : reads [0b0011_000000010_000000001_01110101_00] = some (.fclass .f16 2 1) := by decide +kernel
/-- Conversions under a slot (R57). -/
theorem word_scl : reads [0b0000_000000010_000000001_10010100_01, 0b00000_00_101_0000_000000000_000000000, 0]
    = some (.scl ⟨0, .none, 5, 1, 2, 0, 0, .f32⟩) := by decide +kernel
/-- Memory (R58, R161): W code 4 with the space bit, no index, offset -8. -/
theorem word_st : reads [0b0000_000001000_000000110_10100001_01, 0b01000_00_000_1100_000000000_000000000, 0xFFFFFFF8]
    = some (.stExt .w64 .s none 6 ⟨0, .none, .x 8, none, 0xFFFFFFF8⟩) := by decide +kernel
theorem word_prf : reads [0b0010_000001000_000000000_10100100_00] = some (.prf .q 8) := by decide +kernel
/-- Atomics (R59): code 9 is `.exch.i32`, ordering 3 is `.ar`, SLOT 6 is `.sy`. -/
theorem word_atm : reads [0b0000_000001000_000000110_11000000_01, 0b00110_00_110_1001_000000000_000000101, 4]
    = some (.atm .exch32 ⟨0, .none, .ar, .sy, 6, .x 8, 5, 4⟩) := by decide +kernel
theorem word_red_no_exchange : reads [0b0000_000001000_000000000_11000111_01, 0b00000_00_110_1001_000000000_000000101, 4] = none := by decide +kernel
/-- Synchronisation (R58, R60, R186). -/
theorem word_fence : reads [0b0000_000000000_000000000_11010000_01, 0b00100_00_100_0000_000000000_000000000, 0] = some (.fence 0 .rel .dv) := by
  decide +kernel
theorem word_xfence : reads [0b0000_000000000_000000000_11010001_01, 0b00000_00_001_0000_000000000_000000000, 0x02]
    = some (.xfence 0 .bk .mfetch .core) := by decide +kernel
theorem word_bar : reads [0b0101_000001111_000000000_11010010_01, 0, 0x4040] = some (.barExt 5 .both 15 64 64) := by decide +kernel
/-- Matrix, engines, tasks, power (R61, R215, R221, R228). -/
theorem word_cpy : reads [0b0000_000000011_000000100_11110000_01, 0b00000_00_000_0000_000000010_000000000, 1]
    = some (.cpy 0 4 3 0 2 1 false false false false) := by decide +kernel
theorem word_rinv : reads [0b0000_000000010_000000001_11110101_01, 0b00000_00_000_0001_000000000_000000011, 0x26FFF]
    = some (.rinvT 0 1 2 3 0xFFF 6 2) := by decide +kernel
theorem word_phase : reads [0b0000_000000111_000000000_11111011_00] = some (.phase 7) := by decide +kernel
theorem word_intent : reads [0b0000_000000111_000000000_11111100_01, 0, 0x1FFFF] = some (.intent 0 7 0xFFFF true) := by decide +kernel
/-- Opcodes 0x00 and 0xFF hold no instruction (R62). -/
theorem word_none : reads [0] = none ∧ reads [0xFFFFFFFF] = none := by decide +kernel

/-! ### Values worked in the spec -/



/-- spec/03, "The CB16 codebook": the code 0x2AA5 under the entry 0x0198D0BB. -/
theorem value_cb16_cells : (List.range 8).map (cb16Cell 0x2AA5 0x0198D0BB) = [7, -15, 5, 1, -11, 3, -13, 9] := by decide +kernel

/-- spec/03, "A group, step by step": A is E4M3 at P = 8, B is CB16 with scale code 0x7C. -/
def stepA (els : List Nat) : MGroup := aGroup 3 8 0 0 (els ++ List.replicate (24 - els.length) 0)
def stepB (code : Nat) : MGroup := cb16Group 1 code ((List.range 8).map (cb16Cell 0x2AA5 0x0198D0BB) ++ List.replicate 16 0)
theorem value_group_a : (stepA [0x45, 0x9F, 0x0A]).q.take 4 = [104, -4, 1, 0] ∧ (stepA [0x45, 0x9F, 0x0A]).e = -5 := by decide +kernel
theorem value_group_fold : foldGroup 0x3F000000 (stepA [0x45, 0x9F, 0x0A]) (stepB 0x7C) = 0x40032000 := by decide +kernel
theorem value_group_nan : foldGroup 0x3F000000 (stepA [0x45, 0x9F, 0x0A, 0, 0, 0x7F]) (stepB 0x7C) = 0x7FC00000 := by decide +kernel
theorem value_group_zero : foldGroup 0x3F000000 (stepA []) (stepB 0xFE) = 0x3F000000 := by decide +kernel
/-- spec/05, under R151: 250.0 to E4M3, field 2. -/
theorem value_cvt : cvtLane (.elem 0) (.elem 3) 2 false .rne 0x437A0000 0x11111111 = 0x11781111 := by decide +kernel

/-! ### States to test on -/

/-- A warp alone on compute core 0 of die 0 in full service, at address 0x1000 of context 1, its turn to issue and its core's bucket full;
the context's page 0 lies on page 5 of the die, through tables on pages 1 to 4. -/
def warp (lvl : Level) : Warp := Warp.start 1 1 0 lvl 512 0x1000
def block : Block :=
  { ctx := 1, grid := none, kind := .grid, index := 0, core := 0, resident := true, record := Rec.synth 0x1000 1 512 16, spad := [], bars := [],
    queues := [], q2res := 0, phase := 0, banksR := List.range 16, banksS := [], banksA := [], held := [], warps := [0], hidx := 0, args := [],
    savedCvs := [], savedAcc := [], suspect := none }
def memory : Machine.Mem :=
  { State.reset.mem with bytes := [(0x10000, 1), (0x10002, 2), (0x20000, 1), (0x20002, 3), (0x30000, 1), (0x30002, 4), (0x40000, 0x3B), (0x40002, 5)] }
def base (lvl : Level) : State :=
  { State.reset with
    mem := memory, ap := [(0, 2), (offMmuRoot 1, 1 + 65536), (offMmuSave 1, 0x10000)], warps := [(0, warp lvl)], blocks := [(1, block)],
    cores := [(0, { State.reset.core 0 with level := 1024 * 256 })], own := { State.reset.own with nextId := 2 } }
/-- The warp with k-registers set. -/
def kset (w : Warp) (l : List (Nat × Nat)) : Warp := l.foldl (fun w x => w.setK x.1 (BitVec.ofNat 64 x.2)) w

def passesB (f : Form) (s : State) (w : Warp) : Bool :=
  s.warp? s.cur == some w && w.group != 0 && levelTrap f.level w.level == none && w.names f
    && !(f.full && s.lowService s.cur) && s.ap! offInjMask == 0 && s.mem.upset == [] && s.missed s.cur w f.lines == []
theorem passes_of {f : Form} {s : State} {w : Warp} (h : passesB f s w = true) : Passes f s w := by
  simp only [passesB, Bool.and_eq_true, beq_iff_eq, bne_iff_ne, ne_eq, Bool.not_eq_true'] at h
  obtain ⟨⟨⟨⟨⟨⟨⟨h1, h2⟩, h3⟩, h4⟩, h5⟩, h6⟩, h7⟩, h8⟩ := h
  exact ⟨h1, h2, h3, h4, h5, h6, h7, h8⟩

def readyB (f : Form) (steps : Nat) (s : State) (w : Warp) : Bool :=
  passesB f s w && w.stage == none && w.inv == [] && !w.observed
    && (isService (coreOf s.cur) || s.canPay (coreOf s.cur) (issueCost f steps s w))

theorem ready_of {f : Form} {steps : Nat} {s : State} {w : Warp} (h : readyB f steps s w = true) : Ready f steps s w := by
  simp only [readyB, Bool.and_eq_true, beq_iff_eq, Bool.or_eq_true, Bool.not_eq_true'] at h
  obtain ⟨⟨⟨⟨h1, h2⟩, h3⟩, h4⟩, h5⟩ := h
  exact ⟨passes_of h1, h2, h3, h4, h5⟩

/-- A warp that has issued its instruction and whose step demand is due, or with kind 3 paid. -/
def due (w : Warp) (kind : Nat := 2) : Warp := { w with stage := some { kind := kind, lanes := w.group, step := 4 } }
def goesB (f : Form) (price : Nat) (s : State) (w : Warp) : Bool :=
  passesB f s w && !isService (coreOf s.cur) && w.stage == some { kind := 2, lanes := w.group, step := 4 } && s.canPay (coreOf s.cur) price
theorem goes_of {f : Form} {price : Nat} {s : State} {w : Warp} {fresh : Prop} (h : goesB f price s w = true) : GoesOn f price s w fresh := by
  simp only [goesB, Bool.and_eq_true, beq_iff_eq, Bool.not_eq_true'] at h
  obtain ⟨⟨⟨h1, h2⟩, h3⟩, h4⟩ := h
  exact ⟨passes_of h1, fun _ => .inr ⟨h3, h4⟩, fun h => absurd (h2.symm.trans h) Bool.false_ne_true⟩

/-- A bucket that pays its capacity pays any price. -/
theorem goes_any {f : Form} {price : Nat} {s : State} {w : Warp} {fresh : Prop} (h : goesB f (s.ap! (offTokCap (coreOf s.cur))) s w = true) :
    GoesOn f price s w fresh := by
  simp only [goesB, Bool.and_eq_true, beq_iff_eq, Bool.not_eq_true'] at h
  obtain ⟨⟨⟨h1, h2⟩, h3⟩, h4⟩ := h
  refine ⟨passes_of h1, fun _ => .inr ⟨h3, ?_⟩, fun h => absurd (h2.symm.trans h) Bool.false_ne_true⟩
  simp only [State.canPay, Bool.and_eq_true, decide_eq_true_eq, Nat.min_self] at h4 ⊢
  exact ⟨h4.1, by have := h4.2; have := Nat.min_le_right price (s.ap! (offTokCap (coreOf s.cur))); omega⟩

def quietB (s : State) (w : Warp) : Bool :=
  w.rsb == [] && !w.timer && w.faults == [] && s.mem.marks == [] && s.warps.all fun v => v.2.blocked.all fun b => fenceWait s.cur b == none

theorem quiet_of {s : State} {w : Warp} (h : quietB s w = true) : CommitsEmpty s w := by
  simp only [quietB, Bool.and_eq_true, beq_iff_eq, Bool.not_eq_true', List.all_eq_true] at h
  obtain ⟨⟨⟨⟨h1, h2⟩, h3⟩, h4⟩, h5⟩ := h
  exact ⟨h1, h2, h3, h4, fun v hv b hb => h5 v hv b hb⟩

def reachB (s : State) (lanes : Word) (a : Acc) (sp : Spc) (n align : Nat) (ea : Warp → Nat → DWord) (spots : List Spot) : Bool :=
  (match s.reach s.cur lanes a sp n align ea with | .ok x => x == spots | .error _ => false)
    && spots.all fun p => sp != .g || !s.leasedOut (lineOf p.2)

theorem reaches_of {s : State} {lanes : Word} {a : Acc} {sp : Spc} {n align : Nat} {ea : Warp → Nat → DWord} {spots : List Spot}
    (h : reachB s lanes a sp n align ea spots = true) : Reaches s lanes a sp n align ea spots := by
  simp only [reachB, Bool.and_eq_true, List.all_eq_true, Bool.or_eq_true, bne_iff_ne, ne_eq, Bool.not_eq_true'] at h
  refine ⟨?_, fun hg p hp => (h.2 p hp).resolve_left fun hn => hn hg⟩
  revert h
  cases s.reach s.cur lanes a sp n align ea with
  | error e => exact fun h => absurd h.1 Bool.false_ne_true
  | ok x => exact fun h => congrArg Except.ok (eq_of_beq h.1)

def okVal {α : Type} (x : Except Trap α) : Option α := match x with | .ok a => some a | .error _ => none

theorem of_okVal {α : Type} {x : Except Trap α} {a : α} (h : okVal x = some a) : x = .ok a := by
  cases x with
  | ok b => exact congrArg Except.ok (Option.some.inj h)
  | error e => exact absurd h (fun h => nomatch h)

/-- Lanes 0 and 1 alone, by mask 0, which guard 1 names. -/
def two (lvl : Level) : Warp := (warp lvl).setM 0 3
/-- An address for each lane in register pair 10: 0x2000, 0x2080 and so on, a line for each lane. -/
def addr (w : Warp) (first step : Nat) : Warp := w.setXn true 10 (-1) fun l => BitVec.ofNat 64 (first + step * l)
def set (s : State) (w : Warp) : State := s.setWarp s.cur w
/-- A handler is installed for context 1. -/
def handled (s : State) : State := s.apSet (offFltHnd 1) 0x5001

/-! ### One step each, values from the spec's rules and tables -/

/-- x1 and x2 set in lane 0. -/
def loaded (a b : Nat) : Warp := ((warp .u).setX 1 1 fun _ => BitVec.ofNat 32 a).setX 2 1 fun _ => BitVec.ofNat 32 b
def run (w : Warp) (i : Instr) : Option Warp :=
  match exec i ((base .u).setWarp 0 w) with
  | .next t => t.warp? 0
  | _ => none
/-- The register d of lane 0 after the instruction on a in x1 and b in x2. -/
def x32 (i : Instr) (d a b : Nat) : Option Word := (run (loaded a b) i).map fun w => w.xr d 0
def int2 (t : IntTy) : Int2 := ⟨0, .none, t, 3, .x 1, .x 2⟩

/-- spec/04, "Integer corner values". -/
theorem test_add_sat : x32 (.addExt true (int2 .i32)) 3 0x7FFFFFF0 0x20 = some 0x7FFFFFFF ∧ x32 (.addExt true (int2 .ui32)) 3 0xFFFFFFF0 0x20 = some 0xFFFFFFFF := by
  decide +kernel
theorem test_sub_sat : x32 (.subExt true (int2 .ui32)) 3 5 9 = some 0 := by decide +kernel
theorem test_abs : x32 (.abs .i32 1 3) 3 0x80000000 0 = some 0x80000000 := by decide +kernel
theorem test_mulh : x32 (.mulhExt (int2 .i32)) 3 0x80000000 0x80000000 = some 0x40000000 ∧
    x32 (.mulhExt (int2 .ui32)) 3 0xFFFFFFFF 0xFFFFFFFF = some 0xFFFFFFFE := by decide +kernel
theorem test_div_zero : x32 (.divExt (int2 .i32)) 3 7 0 = some 0xFFFFFFFF ∧ x32 (.remExt (int2 .i32)) 3 7 0 = some 7 := by decide +kernel
theorem test_div_signed : x32 (.divExt (int2 .i32)) 3 0xFFFFFFF9 2 = some 0xFFFFFFFD ∧ x32 (.remExt (int2 .i32)) 3 0xFFFFFFF9 2 = some 0xFFFFFFFF ∧
    x32 (.divExt (int2 .i32)) 3 0x80000000 0xFFFFFFFF = some 0x80000000 ∧ x32 (.divExt (int2 .ui32)) 3 0xFFFFFFF9 2 = some 0x7FFFFFFC := by decide +kernel
theorem test_shl_count : x32 (.shlExt (int2 .i32)) 3 1 0x21 = some 2 := by decide +kernel
theorem test_bfe : x32 (.bfe (int2 .i32)) 3 0xF00 0x408 = some 0xFFFFFFFF ∧ x32 (.bfe (int2 .ui32)) 3 0xF00 0x408 = some 0xF ∧
    x32 (.bfe (int2 .i32)) 3 0xA0000000 0x81C = some 0xFFFFFFFA ∧ x32 (.bfe (int2 .ui32)) 3 0xA0000000 0x81C = some 0xA := by decide +kernel
theorem test_clz_zero : x32 (.clz .i32 1 3) 3 0 0 = some 32 := by decide +kernel
/-- R18: the two-source base form reads its first source from D. -/
theorem test_base_order : x32 (.sub .i32 2 1) 1 9 4 = some 5 ∧ x32 (.shl .i32 2 1) 1 1 4 = some 16 := by decide +kernel
/-- spec/01: every lane of x20 receives 0x0D from k4 = 0x10 and -3. -/
theorem test_add_k : (run (kset (warp .u) [(4, 0x10)]) (.addExt false ⟨0, .none, .i32, 20, .k 4, .imm 0xFFFFFFFD⟩)).map
    (fun w => (w.xr 20 0, w.xr 20 31)) = some (0x0D, 0x0D) := by decide +kernel
/-- spec/01: x40 and x41 after `li.64`, and the advance by 12 bytes. -/
theorem test_li : (run (warp .u) (.liLit .i64 40 0x0123456789ABCDEF)).map (fun w => (w.xr 40 7, w.xr 41 7, w.pc 7)) = some (0x89ABCDEF, 0x01234567, 0x100C) := by
  decide +kernel
/-- R118 at 64 bits: the carry crosses the pair. -/
theorem test_add_wide : (run (((warp .u).setXn true 4 1 fun _ => 0xFFFFFFFF).setXn true 6 1 fun _ => 1) (.add .i64 6 4)).map (fun w => w.xn true 4 0)
    = some 0x100000000 := by decide +kernel
/-- R24, R111: a guarded compare writes the bits of the enabled lanes only; every issuing lane advances. -/
theorem test_guarded_cmp : (run ((loaded 1 2).setM 3 0x0000FFFF) (.cmp .le ⟨4, .none, .i32, 5, .x 1, .x 2⟩)).map (fun w => (w.mr 5, w.pc 31)) = some (0xFFFF, 0x100C) := by
  decide +kernel
/-- R125: a source lane below 0 is the lane itself. -/
theorem test_shfl_up : (run ((warp .u).setX 1 (-1) fun l => BitVec.ofNat 32 (100 + l)) (.shfl .up 0 .none 2 1 (.imm 4))).map
    (fun w => (w.xr 2 3, w.xr 2 4, w.xr 2 31)) = some (103, 100, 127) := by decide +kernel
/-- R98: an offset of -2 words from 0x1000. R100: the link is the next instruction's address. -/
theorem test_bra : (run (warp .u) (.bra 0x3FFFE)).map (fun w => w.pc 5) = some 0xFF8 := by decide +kernel
theorem test_call : (run (warp .u) (.call 3 4)).map (fun w => (w.pc 5, w.xn true 4 5)) = some (0x100C, 0x1004) := by decide +kernel
/-- R102: the enabled lanes have exited. -/
theorem test_exit : (run ((warp .u).setM 0 0xF) (.exitExt 1)).map (fun w => (w.exited, w.pc 0, w.pc 4)) = some (0xF, 0x1000, 0x100C) := by decide +kernel
/-- R103, R112, R114. -/
theorem test_masks : (run ((warp .u).setM 2 0x80) (.join 2)).map (fun w => w.mr 2) = some 0xFFFFFFFF ∧
    (run ((warp .u).setM 0 0xFF) (.mset 1 2 (.imm 0xF0F))).map (fun w => w.mr 2) = some 0xF ∧
    (run (warp .u) (.mfindHi 2 9)).map (fun w => w.kr 9) = some 32 := by decide +kernel
/-- R127: the shift count is taken modulo 64; `.a` keeps the sign. -/
theorem test_scalar : (run (kset (warp .u) [(1, 0x8000000000000000), (2, 65)]) (.kshrA 2 1)).map (fun w => w.kr 1) = some 0xC000000000000000 ∧
    (run (kset (warp .u) [(1, 0xFFFFFFFFFFFFFFFF), (2, 2)]) (.kadd 2 1)).map (fun w => w.kr 1) = some 1 := by decide +kernel
/-- R135, R138: 1 + 2^-24 is a tie and rounds to even; towards +∞ it does not. R141: NaN is unordered. -/
theorem test_fadd : x32 (.faddExt .rne ⟨0, .none, .f32, 3, .x 1, .x 2⟩) 3 0x3F800000 0x33800000 = some 0x3F800000 ∧
    x32 (.faddExt .ru ⟨0, .none, .f32, 3, .x 1, .x 2⟩) 3 0x3F800000 0x33800000 = some 0x3F800001 := by decide +kernel
theorem test_fcmp_nan : (run (loaded 0x7FC00000 0) (.fcmp .ne ⟨0, .none, .f32, 5, .x 1, .x 2⟩)).map (fun w => w.mr 5) = some 1 ∧
    (run (loaded 0x7FC00000 0) (.fcmp .lt ⟨0, .none, .f32, 5, .x 1, .x 2⟩)).map (fun w => w.mr 5) = some 0 := by decide +kernel

/-- Memory: address 0x2000 of the context is byte 0x52000, which holds 0x80. -/
def reading : State := { base .u with mem := { memory with bytes := memory.bytes ++ [(0x52000, 0x80)] } }
def runAt (w : Warp) (i : Instr) : Option State := match exec i (reading.setWarp 0 w) with | .next t => some t | _ => none
def atBase : Warp := (two .u).setXn true 10 3 fun l => BitVec.ofNat 64 (0x2000 + 128 * l)
/-- R161, R162: `.i8` extends the sign, `.ui8` does not; only enabled lanes read. -/
theorem test_ld_sign : ((runAt atBase (.ldExt .i8 .g none 20 ⟨1, .none, .x 10, none, 0⟩)).bind (·.warp? 0)).map (fun w => w.xr 20 0) = some 0xFFFFFF80 ∧
    ((runAt atBase (.ldExt .ui8 .g none 20 ⟨1, .none, .x 10, none, 0⟩)).bind (·.warp? 0)).map (fun w => w.xr 20 0) = some 0x80 := by decide +kernel
/-- R166: a store without ordering is held; memory is as before. -/
theorem test_st_held : (runAt (atBase.setX 20 3 fun _ => 0x11) (.stExt .i8 .g none 20 ⟨1, .none, .x 10, none, 0⟩)).map
    (fun t => (t.mem.byte 0x52000, (t.warp? 0).map fun w => w.rsb.length)) = some (0x80, some 2) := by decide +kernel
/-- R178: `atm.add` returns the old value and stores the sum, at little-endian order. -/
theorem test_atm_add : (runAt (due ((atBase.setM 0 1).setX 20 1 fun _ => 0x1234)) (.atm .add32 ⟨1, .none, .none, .dv, 21, .x 10, 20, 0⟩)).map
    (fun t => (t.homeNum 0x52000 4, (t.warp? 0).map fun w => w.xr 21 0)) = some (0x12B4, some 0x80) := by decide +kernel
/-- What a trap recorded: class, INFO, MODE and RPC. -/
def trapped (w : Warp) (i : Instr) : Option (TrapClass × BitVec 32 × Nat × DWord) :=
  match exec i ((handled reading).setWarp 0 w) with
  | .next t => (t.warp? 0).bind fun w => w.susp.map fun p => (p.trap.cls, p.trap.info, p.mode, p.rpc)
  | _ => none
/-- R162: an address not a multiple of the width raises ALIGN, the lanes back at their region entry. -/
theorem test_ld_align : (trapped ((two .u).setXn true 10 1 fun _ => 0x2001) (.ldExt .w32 .g none 20 ⟨1, .none, .x 10, none, 0⟩)).map (fun p => (p.1, p.2.2.1)) = some (.align, 0) := by
  decide +kernel
/-- R107, R403: `brk` traps with its tag, its lanes to go on behind it. -/
theorem test_brk : trapped (warp .u) (.brk 77) = some (.debug, 77, 1, 0x1004) := by decide +kernel
/-- R32: the per-lane number %lane with a k destination is illegal. -/
theorem test_gsr_lane_k : (trapped (warp .u) (.gsrK 0 3)).map (·.1) = some .illegal := by decide +kernel

/-! ### Witnesses: what the hypotheses of each statement ask can be met -/

/-- At an issue of the agenda's head. -/
def stepping (w0 : Nat) : State := { (State.reset.withCompute .u 32 w0) with agenda := [.issue 0] }
/-- The same in the middle of the step. -/
def inStep (s : State) (v : Nat) : State := { s.tick with agenda := [], cur := v, apart := Config.apart s.own.freeCount }
def failed {α : Type} (x : Except Trap α) : Option Trap := match x with | .ok _ => none | .error t => some t
theorem of_failed {α : Type} {x : Except Trap α} {t : Trap} (h : failed x = some t) : x = .error t := by
  cases x with
  | ok b => exact absurd h (fun h => nomatch h)
  | error e => exact congrArg Except.error (Option.some.inj h)
/-- The first word of three at the end of the page, behind which nothing translates; and what the translation of the next address finds. -/
def cutOff : State :=
  let s := stepping 0
  { s with mem := { s.mem with bytes := s.mem.bytes ++ [(0x5FFFC, 0x81)] }, warps := [(0, (warp .u).setPc (-1) fun _ => 0xFFFC)] }
def cutMiss : Trap := (failed ((inStep cutOff 0).codeWords 0 ((warp .u).setPc (-1) fun _ => 0xFFFC) 0x10000 2)).getD { cls := .user }
/-- No table for the warp's address; and a table that a peer holds. -/
def unmapped : State := { stepping 4 with warps := [(0, (warp .u).setPc (-1) fun _ => 0x10000)] }
def unmappedMiss : Trap := (failed ((inStep unmapped 0).codeWord 0 ((warp .u).setPc (-1) fun _ => 0x10000) 0x10000)).getD { cls := .user }
def lent : State :=
  (stepping 4).modMem fun m => { m with leases := [{ line := 512, dev := some 9, core := 0, ctx := 1, granted := 0, used := 0, recalled := false }] }
def lentMiss : Trap := (failed ((inStep lent 0).codeWord 0 (warp .u) 0x1000)).getD { cls := .user }
/-- Service core 0 at an issue, which it fetches from its SRAM. -/
def serviceStep : State := { (State.reset.withService 32 4) with agenda := [.issue (192 * 64)] }
def serviceAt : Warp := { Warp.start 0 0 0 .s 512 0x1000 with exited := 0xFFFFFFFE }

theorem witness_StepRunsDecodedInstruction :
    (∃ (s s1 : State) (v key w0 : Nat) (w : Warp) (cls : TrapClass), s.agenda = .issue v :: [] ∧ s1 = inStep s v ∧ s1.warp? v = some w ∧ w.group ≠ 0 ∧
      s1.workOf w = none ∧ s1.codeWord (coreOf v) w (w.leastPc w.group) = .ok (key, w0) ∧ opForms (w0 / 4 % 256) ≠ [] ∧
      formOk (w0 / 4 % 256) (w0 % 4) = true ∧ levelTrap (opLevel (w0 / 4 % 256) (srField (rawOfWord0 w0))) w.level = some cls) ∧
    (∃ (s s1 : State) (v key w0 : Nat) (w : Warp), s.agenda = .issue v :: [] ∧ s1 = inStep s v ∧ s1.warp? v = some w ∧ w.group ≠ 0 ∧
      s1.workOf w = none ∧ s1.codeWord (coreOf v) w (w.leastPc w.group) = .ok (key, w0) ∧ opForms (w0 / 4 % 256) = []) ∧
    (∃ (s s1 : State) (v key w0 : Nat) (w : Warp) (m : Trap), s.agenda = .issue v :: [] ∧ s1 = inStep s v ∧ s1.warp? v = some w ∧ w.group ≠ 0 ∧
      s1.workOf w = none ∧ s1.codeWord (coreOf v) w (w.leastPc w.group) = .ok (key, w0) ∧ opForms (w0 / 4 % 256) ≠ [] ∧
      formOk (w0 / 4 % 256) (w0 % 4) = true ∧ levelTrap (opLevel (w0 / 4 % 256) (srField (rawOfWord0 w0))) w.level = none ∧
      s1.codeWords (coreOf v) w (w.leastPc w.group + 4) (lenWords (w0 % 4) - 1) = .error m ∧ m.wait = none ∧ m.cls ≠ .ue) ∧
    (∃ (s s1 : State) (v key w0 : Nat) (w : Warp) (i : Instr), s.agenda = .issue v :: [] ∧ s1 = inStep s v ∧ s1.warp? v = some w ∧ w.group ≠ 0 ∧
      s1.workOf w = none ∧ s1.codeWord (coreOf v) w (w.leastPc w.group) = .ok (key, w0) ∧ opForms (w0 / 4 % 256) ≠ [] ∧
      formOk (w0 / 4 % 256) (w0 % 4) = true ∧ levelTrap (opLevel (w0 / 4 % 256) (srField (rawOfWord0 w0))) w.level = none ∧
      s1.codeWords (coreOf v) w (w.leastPc w.group + 4) (lenWords (w0 % 4) - 1) = .ok [] ∧ s1.ap! offInjMask = 0 ∧ s1.mem.upset = [] ∧
      s1.codeHeld (coreOf v) key = true ∧ s1.trailOf (coreOf v) w.ctx (w.leastPc w.group) = [] ∧ decodeWords [w0] = .ok (i, [])) ∧
    (∃ (s s1 : State) (v key w0 : Nat) (w : Warp), s.agenda = .issue v :: [] ∧ s1 = inStep s v ∧ s1.warp? v = some w ∧ w.group ≠ 0 ∧
      s1.workOf w = none ∧ s1.codeWord (coreOf v) w (w.leastPc w.group) = .ok (key, w0) ∧ opForms (w0 / 4 % 256) ≠ [] ∧
      formOk (w0 / 4 % 256) (w0 % 4) = true ∧ levelTrap (opLevel (w0 / 4 % 256) (srField (rawOfWord0 w0))) w.level = none ∧
      s1.codeWords (coreOf v) w (w.leastPc w.group + 4) (lenWords (w0 % 4) - 1) = .ok [] ∧ decodeTableWord 32 w0 = none) ∧
    (∃ (s s1 : State) (v : Nat) (w : Warp) (m : Trap), s.agenda = .issue v :: [] ∧ s1 = inStep s v ∧ s1.warp? v = some w ∧ w.group ≠ 0 ∧
      s1.workOf w = none ∧ s1.codeWord (coreOf v) w (w.leastPc w.group) = .error m ∧ m.wait = some 512) ∧
    (∃ (s s1 : State) (v : Nat) (w : Warp) (m : Trap), s.agenda = .issue v :: [] ∧ s1 = inStep s v ∧ s1.warp? v = some w ∧ w.group ≠ 0 ∧
      s1.workOf w = none ∧ s1.codeWord (coreOf v) w (w.leastPc w.group) = .error m ∧ m.wait = none ∧ m.cls ≠ .ue) ∧
    (∃ (s s1 : State) (w : Warp) (k : Routine), s.agenda = .issue 0 :: [] ∧ s1 = inStep s 0 ∧ s1.warp? 0 = some w ∧ w.group ≠ 0 ∧
      s1.workOf w = some k) ∧
    (∃ (s : State) (e : Ev) (q : List Pending), s.agenda = .event e :: q) ∧
    (∀ p ∈ [Pending.corrected 2 1, .lost 9, .slip (.byte 5), .upset 1 0, .spad 7 1 0 []], ∃ s : State, s.agenda = [p]) ∧ (∃ s : State, s.agenda = []) :=
  ⟨⟨stepping (4 * 0x0D + 2 ^ 19 * 3), _, 0, 0x51000, 4 * 0x0D + 2 ^ 19 * 3, warp .u, .priv, rfl, rfl, rfl, by decide +kernel, rfl, of_okVal (by decide +kernel),
      by decide +kernel⟩,
    ⟨stepping 0, _, 0, 0x51000, 0, warp .u, rfl, rfl, rfl, by decide +kernel, rfl, of_okVal (by decide +kernel), by decide +kernel⟩,
    ⟨cutOff, _, 0, 0x5FFFC, 0x81, _, cutMiss, rfl, rfl, rfl, by decide +kernel, rfl, of_okVal (by decide +kernel), by decide +kernel,
      by decide +kernel, by decide +kernel, of_failed (by decide +kernel), by decide +kernel, by decide +kernel⟩,
    ⟨serviceStep, _, 192 * 64, keySram 0 0x1000, 4, serviceAt, .nop, rfl, rfl, rfl, by decide +kernel, rfl, of_okVal (by decide +kernel),
      by decide +kernel, by decide +kernel, by decide +kernel, rfl, rfl, rfl, by decide +kernel, by decide +kernel, rfl⟩,
    ⟨stepping (4 + 2 ^ 10), _, 0, 0x51000, 4 + 2 ^ 10, warp .u, rfl, rfl, rfl, by decide +kernel, rfl, of_okVal (by decide +kernel),
      by decide +kernel, by decide +kernel, by decide +kernel, rfl, by decide +kernel⟩,
    ⟨lent, _, 0, warp .u, lentMiss, rfl, rfl, rfl, by decide +kernel, rfl, of_failed (by decide +kernel), by decide +kernel⟩,
    ⟨unmapped, _, 0, _, unmappedMiss, rfl, rfl, rfl, by decide +kernel, rfl, of_failed (by decide +kernel), by decide +kernel, by decide +kernel⟩,
    ⟨(stepping 4).modBlock 1 fun b => { b with work := some { inst := 60, chunk := 0, left := 2 } }, _, warp .u, _, rfl, rfl, by decide +kernel,
      by decide +kernel, rfl⟩,
    ⟨{ State.reset with agenda := [.event .govTick] }, _, _, rfl⟩, fun p _ => ⟨{ State.reset with agenda := [p] }, rfl⟩, ⟨State.reset, rfl⟩⟩

def trapsB (s : State) (w : Warp) : Bool :=
  s.warp? s.cur == some w && w.group != 0 && w.stage == none && w.inv == [] && !w.observed && !isService (coreOf s.cur) && s.ap! (offFltHnd w.ctx) % 2 == 1
    && !s.isHandler w

theorem traps_of {s : State} {w : Warp} (h : trapsB s w = true) : Traps s w := by
  simp only [trapsB, Bool.and_eq_true, beq_iff_eq, bne_iff_ne, ne_eq, Bool.not_eq_true'] at h
  obtain ⟨⟨⟨⟨⟨⟨⟨h1, h2⟩, h3⟩, h4⟩, h5⟩, h6⟩, h7⟩, h8⟩ := h
  exact ⟨h1, h2, h3, h4, h5, h6, h7, h8⟩

/-- Of few registers; and with a misaligned address in register pair 10. -/
def few : Warp := { warp .u with regs := 64 }
def crooked : Warp := addr (warp .u) 0x2001 128

theorem witness_ChecksTrapWithoutEffect :
    (∃ (s s1 : State) (v : Nat) (w : Warp) (m : Trap), s.agenda = .issue v :: [] ∧ s1 = inStep s v ∧ Traps s1 w ∧ s1.workOf w = none ∧
      s1.place (coreOf v) w.ctx w.priv .fetch (w.leastPc w.group) = .error m ∧ m.wait = none ∧ m.cls ≠ .ue) ∧
    (∃ (i : Instr) (f : Form) (s : State) (w : Warp), formOf s.curSlot i = some f ∧ Traps s w ∧ levelTrap f.level w.level = some .priv) ∧
    (∃ (i : Instr) (f : Form) (s : State) (w : Warp), formOf s.curSlot i = some f ∧ Traps s w ∧ levelTrap f.level w.level = none ∧
      w.names f = false) ∧
    (∃ (i : Instr) (f : Form) (s : State) (w : Warp), formOf s.curSlot i = some f ∧ Traps s w ∧ levelTrap f.level w.level = none ∧
      f.full = true ∧ s.lowService s.cur = true) ∧
    (∃ (s : State) (w : Warp), w.level = .u ∧ Traps s w) ∧
    (∃ (i : Instr) (j : JumpShape) (s : State) (w : Warp) (l : Nat), jumps i = some j ∧ Traps s w ∧ Ready j.full 0 s w ∧
      laneIn (issueCtx j.full s w).en l = true ∧ (j.target (issueCtx j.full s w) w l).toNat % 4 ≠ 0) ∧
    (∃ (i : Instr) (v : LoadShape) (c : Ctx) (s : State) (w : Warp) (m : Trap), loads i = some v ∧ c = issueCtx v.form s w ∧ Traps s w ∧
      Ready v.form (6 * (linesNamed c.en (v.ea w)).length) s w ∧ c.en ≠ 0 ∧
      s.reach s.cur c.en .read v.sp (memBytes v.width) (memBytes v.width) v.ea = .error m ∧ m.wait = none ∧ m.cls ≠ .ue) ∧
    (∃ (i : Instr) (v : StoreShape) (c : Ctx) (s : State) (w : Warp) (m : Trap), stores i = some v ∧ c = issueCtx v.form s w ∧ Traps s w ∧
      Ready v.form (6 * (linesNamed c.en (v.ea w)).length) s w ∧ c.en ≠ 0 ∧
      s.reach s.cur c.en (if v.rel then .put else .write) v.sp (memBytes v.width) (memBytes v.width) v.ea = .error m ∧ m.wait = none ∧
      m.cls ≠ .ue) ∧
    (∃ (i : Instr) (v : AtomShape) (c : Ctx) (s : State) (w : Warp) (m : Trap), atomics i = some v ∧ c = issueCtx v.form s w ∧ Traps s w ∧
      Ready v.form 0 s w ∧ c.en ≠ 0 ∧ s.reach s.cur c.en .both .g (atomReads v.kind) (atomReads v.kind) (atmEa v.e) = .error m ∧
      m.wait = none ∧ m.cls ≠ .ue) ∧
    (∃ (s : State) (w : Warp) (l : Nat) (lanes : Word) (ea : Warp → Nat → DWord), s.warp? s.cur = some w ∧ l < 32 ∧ lanes = laneBit l ∧
      (ea w l).toNat % 4 ≠ 0) :=
  ⟨⟨handled unmapped, _, 0, _, unmappedMiss, rfl, rfl, traps_of (w := (warp .u).setPc (-1) fun _ => 0x10000) (by decide +kernel), rfl,
      of_failed (by decide +kernel), by decide +kernel⟩,
    ⟨.resume 1, { bForm 2 with level := .p }, handled (base .u), warp .u, rfl, traps_of (by decide +kernel), by decide +kernel⟩,
    ⟨.add .i32 1 64, _, set (handled (base .u)) few, few, rfl, traps_of (by decide +kernel), by decide +kernel⟩,
    ⟨.abkGet 0 1, engForm 0 2 true, (handled (base .u)).setService 0 1, warp .u, rfl, traps_of (by decide +kernel), by decide +kernel⟩,
    ⟨handled (base .u), warp .u, rfl, traps_of (by decide +kernel)⟩,
    ⟨.brx 10, _, set (handled (base .u)) crooked, crooked, 3, rfl, traps_of (by decide +kernel), ready_of (by decide +kernel),
      by decide +kernel, by decide +kernel⟩,
    ⟨.ld .w32 .g 10 4, _, _, set (handled (base .u)) crooked, crooked, { cls := .align, addr := 0x2001 }, rfl, rfl, traps_of (by decide +kernel),
      ready_of (by decide +kernel), by decide +kernel, of_failed (by decide +kernel), rfl, by decide⟩,
    ⟨.st .w32 .g 10 4, _, _, set (handled (base .u)) crooked, crooked, { cls := .align, addr := 0x2001 }, rfl, rfl, traps_of (by decide +kernel),
      ready_of (by decide +kernel), by decide +kernel, of_failed (by decide +kernel), rfl, by decide⟩,
    ⟨.atm .add32 ⟨0, .none, .none, .dv, 4, .x 10, 20, 0⟩, _, _, set (handled (base .u)) crooked, crooked, { cls := .align, addr := 0x2001 }, rfl, rfl,
      traps_of (by decide +kernel), ready_of (by decide +kernel), by decide +kernel, of_failed (by decide +kernel), rfl, by decide⟩,
    ⟨base .u, warp .u, 31, laneBit 31, fun _ _ => 2, by decide +kernel⟩⟩

theorem witness_VectorInstructionsComplete : ∃ (i : Instr) (v : VecShape) (s : State) (w : Warp), fpExt i = some v ∧ Ready v.full 0 s w :=
  ⟨.ffma .rz ⟨1, .none, .f16x2, 511, .x 0, .x 1, 2⟩, _, set (base .u) (two .u), two .u, rfl, ready_of (by decide +kernel)⟩

theorem witness_MaskAndScalarInstructionsComplete :
    (∃ (i : Instr) (v : MaskShape) (s : State) (w : Warp), mask i = some v ∧ Ready v.form 0 s w) ∧
    (∃ (i : Instr) (v : ScaShape) (s : State) (w : Warp), scalar i = some v ∧ Ready v.form 0 s w) :=
  ⟨⟨.mand 1 11, _, base .u, warp .u, rfl, ready_of (by decide +kernel)⟩, ⟨.kadd 63 0, _, base .u, warp .u, rfl, ready_of (by decide +kernel)⟩⟩

theorem witness_NopOnlyAdvances : (∃ w : Nat, w < 2 ^ 32 ∧ w / 4 % 256 = 1 ∧ w ≠ 4) ∧ (∃ (s : State) (w : Warp), Traps s w) ∧
    ∃ (s : State) (w : Warp), Ready (bForm 2) 0 s w :=
  ⟨⟨5, by decide⟩, ⟨handled (base .u), warp .u, traps_of (by decide +kernel)⟩, base .u, warp .u, ready_of (by decide +kernel)⟩

theorem witness_PcgetTakesItsAddress : ∃ (s : State) (w : Warp), Ready { eForm 12 2 with dst := [510, 511] } 0 s w :=
  ⟨base .u, warp .u, ready_of (by decide +kernel)⟩

theorem witness_MaskReductionsComplete : (∃ w : Nat, w < 2 ^ 32 ∧ w / 4 % 256 = 0x17 ∧ w % 4 ≠ 0) ∧
    (∃ (s : State) (w : Warp), Ready (bForm 2) 0 s w) ∧ ∃ (s : State) (w : Warp), Ready (eForm 12 2) 0 s w :=
  ⟨⟨4 * 0x17 + 3, by decide⟩, ⟨base .u, warp .u, ready_of (by decide +kernel)⟩, base .u, warp .u, ready_of (by decide +kernel)⟩

theorem witness_SpecialReadsComplete :
    (∃ (s : State) (w : Warp), srAssigned 0 = true ∧ Ready { bForm 2 with dst := regPair (sr64 0) 510, level := srLevel 0 } 0 s w) ∧
    (∃ (s : State) (w : Warp) (sr : Nat), srAssigned sr = true ∧ srPerLane sr = false ∧ Ready { bForm 2 with level := srLevel sr } 0 s w) ∧
    (∃ (s : State) (w : Warp), Ready (bForm 2) 0 s w) ∧ (∃ (s : State) (w : Warp), Ready { eForm 0 2 with len := lenK (.lit 5) } 0 s w) :=
  ⟨⟨base .u, warp .u, by decide +kernel, ready_of (by decide +kernel)⟩,
    ⟨base .u, warp .u, 0x020, by decide +kernel, by decide +kernel, ready_of (by decide +kernel)⟩,
    ⟨base .u, warp .u, ready_of (by decide +kernel)⟩, base .u, warp .u, ready_of (by decide +kernel)⟩

theorem witness_SpecialWritesComplete :
    ∃ (s : State) (w : Warp), Ready (bForm 2) 0 s w ∧ (w.kr 3).toNat = 255 ∧ (w.kr 4).toNat = 1 :=
  ⟨set (base .u) (kset (warp .u) [(3, 255), (4, 1)]), kset (warp .u) [(3, 255), (4, 1)], ready_of (by decide +kernel), by decide +kernel⟩

theorem witness_AdvancingInstructionsComplete :
    ∃ (s : State) (w : Warp), Ready (eForm 1 2) 0 s w ∧ Ready { bForm 1 with level := .n } 0 s w ∧ Ready (engForm 1 1) 0 s w ∧
      (issueCtx (engForm 1 1) s w).en ≠ 0 :=
  ⟨set (base .p) (two .p), two .p, ready_of (by decide +kernel), ready_of (by decide +kernel), ready_of (by decide +kernel), by decide +kernel⟩

theorem witness_ControlTransfersComplete : ∃ (i : Instr) (j : JumpShape) (s : State) (w : Warp), jumps i = some j ∧ Ready j.full 0 s w ∧
    (∀ l, laneIn (issueCtx j.full s w).en l = true → (j.target (issueCtx j.full s w) w l).toNat % 4 = 0) :=
  ⟨.callReg 10 20, _, set (base .u) (addr (warp .u) 0x2000 128), addr (warp .u) 0x2000 128, rfl, ready_of (by decide +kernel),
    fun l h => (by decide +kernel : ∀ l < 32, ((addr (warp .u) 0x2000 128).xn true 10 l).toNat % 4 = 0) l (laneIn_lt h)⟩

theorem witness_RegionEndsComplete :
    (∃ (s : State) (w : Warp), CommitsEmpty s w ∧ Ready { bForm 2 with yields := true } 0 s w ∧
      (issueCtx { bForm 2 with yields := true } s w).en ≠ 0) ∧
    (∃ (s : State) (w : Warp), CommitsEmpty s w ∧ Ready (eForm 1 2) 0 s w ∧ (issueCtx (eForm 1 2) s w).en ≠ 0) :=
  ⟨⟨base .u, warp .u, quiet_of (by decide +kernel), ready_of (by decide +kernel), by decide +kernel⟩,
    set (base .u) (two .u), two .u, quiet_of (by decide +kernel), ready_of (by decide +kernel), by decide +kernel⟩

/-- A warp that holds a byte for each of two lines. -/
def holding : Warp := ((warp .u).holdByte .g 0x52000 0 0xAB 3).holdByte .g 0x52081 31 0x0C 1

theorem holding_plain : ∀ h ∈ holding.rsb, ∃ key lane x nib, h = .byte .g key lane x nib ∧ isAp key = false ∧
    (set (base .u) holding).broken (lineOf key) = false ∧ (set (base .u) holding).leasedOut (lineOf key) = false := by
  intro h hh
  have e : holding.rsb = [.byte .g 0x52000 0 0xAB 3, .byte .g 0x52081 31 0x0C 1] := by decide +kernel
  rw [e, List.mem_cons, List.mem_singleton] at hh
  obtain rfl | rfl := hh
  · exact ⟨_, _, _, _, rfl, by decide +kernel⟩
  · exact ⟨_, _, _, _, rfl, by decide +kernel⟩

theorem witness_CommitDrainsHeldBytes :
    (∃ (f : Form) (c : Ctx) (s : State) (w v : Warp), f = { bForm 2 with yields := true } ∧
      c = issueCtx f s w ∧ Ready f 0 s w ∧ c.en ≠ 0 ∧ w.timer = false ∧ w.faults = [] ∧ s.mem.marks = [] ∧ Unawaited s s.cur ∧
      v = { w with rsb := w.rsb.filter (fun h => laneIn c.en (Warp.heldLane h)) } ∧ w.rsb ≠ [] ∧
      (∀ h ∈ w.rsb, ∃ key lane x nib, h = .byte .g key lane x nib ∧ isAp key = false ∧ s.broken (lineOf key) = false ∧
        s.leasedOut (lineOf key) = false) ∧ s.apart = false) ∧
    (∃ (f : Form) (c : Ctx) (s : State) (w : Warp), f = { bForm 2 with yields := true } ∧ c = issueCtx f s w ∧ Ready f 0 s w ∧ c.en ≠ 0 ∧
      (∀ h ∈ w.rsb, ∃ key lane x nib, h = .byte .g key lane x nib ∧ isAp key = false ∧ s.broken (lineOf key) = false ∧
        s.leasedOut (lineOf key) = false) ∧ s.apart = true ∧ 1 < (s.linesDue s.cur c.en).length) :=
  ⟨⟨_, _, set (base .u) holding, holding, _, rfl, rfl, ready_of (by decide +kernel), by decide +kernel, rfl, rfl, by decide +kernel,
      (quiet_of (w := warp .u) (by decide +kernel)).unawaited, rfl, by decide +kernel, holding_plain, rfl⟩,
    _, _, { set (base .u) holding with apart := true }, holding, rfl, rfl, ready_of (by decide +kernel), by decide +kernel, holding_plain, rfl,
    by decide +kernel⟩

theorem witness_FencesComplete :
    (∃ (s : State) (w : Warp), CommitsEmpty s w ∧ Ready (eForm 1 2) 0 s w ∧ (issueCtx (eForm 1 2) s w).en ≠ 0 ∧ fenceRLegal .pk = true ∧
      s.fenceTargets s.cur w .pk = [] ∧ s.routed = false ∧ w.blocked = []) :=
  ⟨set (base .u) (two .u), two .u, quiet_of (by decide +kernel), ready_of (by decide +kernel), by decide +kernel⟩

theorem witness_LoadsComplete : ∃ (i : Instr) (v : LoadShape) (c : Ctx) (s : State) (w : Warp) (spots : List Spot), loads i = some v ∧
    c = issueCtx v.form s w ∧ Ready v.form (6 * (linesNamed c.en (v.ea w)).length) s w ∧ c.en ≠ 0 ∧
    Reaches s c.en .read v.sp (memBytes v.width) (memBytes v.width) v.ea spots ∧
    s.raceTrap s.cur v.sp spots (memBytes v.width) false v.ea = none :=
  ⟨.ldExt .w64 .g none 4 ⟨1, .none, .x 10, none, 8⟩, _, _, set (base .u) (addr (two .u) 0x2000 128), addr (two .u) 0x2000 128,
    [(0, 0x52008), (1, 0x52088)], rfl, rfl, ready_of (by decide +kernel), by decide +kernel, reaches_of (by decide +kernel), by decide +kernel⟩

theorem witness_ScalarAndVersionLoadsComplete :
    (∃ (f : Form) (c : Ctx) (s : State) (w : Warp) (key lane : Nat), f = eForm 0 3 ∧ c = issueCtx f s w ∧ c.en ≠ 0 ∧ Ready f 6 s w ∧
      Reaches s c.uniform.en .read .g 8 8 (kldEa .g 3 none 16) [(lane, key)] ∧
      s.raceTrap s.cur .g [(lane, key)] 8 false (kldEa .g 3 none 16) = none) ∧
    (∃ (e : Sys2Proof.Mem) (f : Form) (c : Ctx) (s : State) (w : Warp) (spots : List Spot),
      f = { eForm e.g 4 (memRegs e) (memKeep e []) with dst := regPair true 4 ++ [6] } ∧ c = issueCtx f s w ∧ c.en ≠ 0 ∧
      Ready f (6 * (linesNamed c.en (memEa .g e w)).length) s w ∧ Reaches s c.en .read .g 8 8 (memEa .g e) spots) :=
  ⟨⟨_, _, set (base .u) (kset (warp .u) [(3, 0x2000)]), kset (warp .u) [(3, 0x2000)], 0x52010, 0, rfl, rfl, by decide +kernel,
      ready_of (by decide +kernel), reaches_of (by decide +kernel), by decide +kernel⟩,
    ⟨1, .none, .x 10, none, 0⟩, _, _, set (base .u) (addr (two .u) 0x2000 128), addr (two .u) 0x2000 128, [(0, 0x52000), (1, 0x52080)], rfl, rfl,
    by decide +kernel, ready_of (by decide +kernel), reaches_of (by decide +kernel)⟩

theorem witness_StoresComplete :
    (∃ (i : Instr) (v : StoreShape) (c : Ctx) (s : State) (w : Warp) (spots : List Spot), stores i = some v ∧ v.rel = false ∧
      c = issueCtx v.form s w ∧ Ready v.form (6 * (linesNamed c.en (v.ea w)).length) s w ∧ c.en ≠ 0 ∧
      Reaches s c.en .write v.sp (memBytes v.width) (memBytes v.width) v.ea spots ∧
      s.raceTrap s.cur v.sp spots (memBytes v.width) true v.ea = none ∧ (w.holdAll v.sp spots (v.bytes w)).overflows c.en = false) ∧
    (∃ (i : Instr) (v : StoreShape) (c : Ctx) (s : State) (w : Warp) (spots : List Spot), stores i = some v ∧ v.rel = true ∧
      c = issueCtx v.form s w ∧ CommitsEmpty s w ∧ Ready v.form (6 * (linesNamed c.en (v.ea w)).length) s w ∧ c.en ≠ 0 ∧
      Reaches s c.en .put v.sp (memBytes v.width) (memBytes v.width) v.ea spots ∧
      s.raceTrap s.cur v.sp spots (memBytes v.width) true v.ea = none ∧ (v.sp = .g → ∀ p ∈ spots, isAp p.2 = false)) :=
  ⟨⟨.stExt .w64 .g none 10 ⟨1, .none, .x 10, none, 8⟩, _, _, set (base .u) (addr (two .u) 0x2000 128), addr (two .u) 0x2000 128,
      [(0, 0x52008), (1, 0x52088)], rfl, rfl, rfl, ready_of (by decide +kernel), by decide +kernel, reaches_of (by decide +kernel),
      by decide +kernel, by decide +kernel⟩,
    ⟨.stExt .e2m1 .g (some .dv) 10 ⟨1, .none, .x 10, none, 8⟩, _, _, set (base .u) (addr (two .u) 0x2000 128), addr (two .u) 0x2000 128,
      [(0, 0x52008), (1, 0x52088)], rfl, rfl, rfl, quiet_of (by decide +kernel), ready_of (by decide +kernel), by decide +kernel,
      reaches_of (by decide +kernel), by decide +kernel, by decide +kernel⟩⟩

/-- Operands of an atomic at the address in pair 10, by the lanes of mask 0. -/
def at10 (ord : Ord) : Atm := { g := 1, rt := .none, ord := ord, sc := .dv, d := 4, a := .x 10, b := 20, off := 0 }

theorem witness_AtomicsComplete :
    (∃ (i : Instr) (v : AtomShape) (c : Ctx) (s : State) (w : Warp) (spots : List Spot), atomics i = some v ∧
      c = issueCtx v.form s w ∧ CommitsEmpty s w ∧ Ready v.form 0 s w ∧ c.en ≠ 0 ∧ isService (coreOf s.cur) = false ∧
      Reaches s c.en .both .g (atomReads v.kind) (atomReads v.kind) (atmEa v.e) spots) ∧
    (∃ (i : Instr) (v : AtomShape) (c : Ctx) (s : State) (w : Warp) (spots : List Spot), atomics i = some v ∧
      c = issueCtx v.form s w ∧ c.en ≠ 0 ∧ GoesOn v.form (10 * (lanesOf c.en).length) s w (CommitsEmpty s w) ∧
      Reaches s c.en .both .g (atomReads v.kind) (atomReads v.kind) (atmEa v.e) spots ∧
      s.raceTrap s.cur .g spots (atomReads v.kind) true (atmEa v.e) = none ∧ (∀ p ∈ spots, isRemote p.2 = false ∧ isAp p.2 = false) ∧
      s.apart = false ∧ ∀ p ∈ spots, ∀ q ∈ spots, p ≠ q → lineOf p.2 ≠ lineOf q.2) ∧
    (∃ (i : Instr) (v : AtomShape) (c : Ctx) (s : State) (w : Warp) (spots : List Spot), atomics i = some v ∧
      c = issueCtx v.form s w ∧ c.en ≠ 0 ∧ GoesOn v.form (10 * (lanesOf c.en).length) s w (CommitsEmpty s w) ∧
      Reaches s c.en .both .g (atomReads v.kind) (atomReads v.kind) (atmEa v.e) spots ∧
      s.raceTrap s.cur .g spots (atomReads v.kind) true (atmEa v.e) = none ∧ (∀ p ∈ spots, isRemote p.2 = false ∧ isAp p.2 = false) ∧
      s.apart = true ∧ ∃ p q r, spots = p :: q :: r) :=
  ⟨⟨.casv true (at10 .ar) 24, _, _, set (base .u) (addr (two .u) 0x2000 128), addr (two .u) 0x2000 128, [(0, 0x52000), (1, 0x52080)], rfl, rfl,
      quiet_of (by decide +kernel), ready_of (by decide +kernel), by decide +kernel, rfl, reaches_of (by decide +kernel)⟩,
    ⟨.casv true (at10 .ar) 24, _, _, set (base .u) (due (addr (two .u) 0x2000 128)), due (addr (two .u) 0x2000 128), [(0, 0x52000), (1, 0x52080)],
      rfl, rfl, by decide +kernel, goes_of (by decide +kernel), reaches_of (by decide +kernel), by decide +kernel, by decide +kernel, rfl,
      by decide +kernel⟩,
    .atm .add32 (at10 .none), _, _, { set (base .u) (due (addr (two .u) 0x2000 0)) with apart := true }, due (addr (two .u) 0x2000 0),
    [(0, 0x52000), (1, 0x52000)], rfl, rfl, by decide +kernel, goes_of (by decide +kernel), reaches_of (by decide +kernel), by decide +kernel,
    by decide +kernel, rfl, _, _, _, rfl⟩

theorem witness_ReductionsComplete :
    (∃ (op : AtmOp) (e : Atm) (f : Form) (c : Ctx) (s : State) (w : Warp) (spots : List Spot), f = { atmForm e (regPair op.wide e.b) [] [] with full := halfOp op } ∧
      e.ord = .none ∧ c = issueCtx f s w ∧ Ready f 0 s w ∧ c.en ≠ 0 ∧
      Reaches s c.en .write .g (atmBytes op) (atmBytes op) (atmEa e) spots ∧ s.raceTrap s.cur .g spots (atmBytes op) true (atmEa e) = none ∧
      (spots.foldl (fun v p => v.holdRed p.2 p.1 op (v.xn op.wide e.b p.1)) w).overflows c.en = false) ∧
    (∃ (op : AtmOp) (e : Atm) (f : Form) (c : Ctx) (s : State) (w : Warp) (spots : List Spot), f = { atmForm e (regPair op.wide e.b) [] [] with full := halfOp op } ∧
      e.ord ≠ .none ∧ c = issueCtx f s w ∧ CommitsEmpty s w ∧ Ready f 0 s w ∧ c.en ≠ 0 ∧ isService (coreOf s.cur) = false ∧
      Reaches s c.en .merge .g (atmBytes op) (atmBytes op) (atmEa e) spots) ∧
    (∃ (op : AtmOp) (e : Atm) (f : Form) (c : Ctx) (s : State) (w : Warp) (spots : List Spot), f = { atmForm e (regPair op.wide e.b) [] [] with full := halfOp op } ∧
      e.ord ≠ .none ∧ c = issueCtx f s w ∧ c.en ≠ 0 ∧ GoesOn f (10 * (lanesOf c.en).length) s w (CommitsEmpty s w) ∧ s.apart = false ∧
      Reaches s c.en .merge .g (atmBytes op) (atmBytes op) (atmEa e) spots ∧ s.raceTrap s.cur .g spots (atmBytes op) true (atmEa e) = none ∧
      (∀ p ∈ spots, isAp p.2 = false) ∧ ∃ p, spots = [p]) :=
  ⟨⟨.add64, at10 .none, _, _, set (base .u) (addr (two .u) 0x2000 128), addr (two .u) 0x2000 128, [(0, 0x52000), (1, 0x52080)], rfl, rfl, rfl,
      ready_of (by decide +kernel), by decide +kernel, reaches_of (by decide +kernel), by decide +kernel, by decide +kernel⟩,
    ⟨.addBf16, at10 .rel, _, _, set (base .u) (addr (two .u) 0x2000 0), addr (two .u) 0x2000 0, [(0, 0x52000), (1, 0x52000)], rfl, by decide, rfl,
      quiet_of (by decide +kernel), ready_of (by decide +kernel), by decide +kernel, rfl, reaches_of (by decide +kernel)⟩,
    .addBf16, at10 .rel, _, _, set (base .u) (due (addr ((warp .u).setM 0 4) 0x2000 0)), due (addr ((warp .u).setM 0 4) 0x2000 0), [(2, 0x52000)], rfl,
    by decide, rfl, by decide +kernel, goes_of (by decide +kernel), rfl, reaches_of (by decide +kernel), by decide +kernel, by decide +kernel, _, rfl⟩

theorem witness_VersionSetCompletes : ∃ (f : Form) (c : Ctx) (s : State) (w : Warp) (spots : List Spot) (ok : Bool),
    f = eForm 1 4 (srcARegs true (.x 10) ++ [20]) (keepOf .none (srcARegs true (.x 10)) [20] []) ∧ c = issueCtx f s w ∧ CommitsEmpty s w ∧
    c.en ≠ 0 ∧ Ready f (10 * (linesNamed c.en (fun l => srcAVal true (.x 10) w l)).length) s w ∧
    Reaches s c.en .read .g 4 4 (fun w l => srcAVal true (.x 10) w l) spots ∧ (distinct (spots.map fun p => lineOf p.2)).length ≤ 8 ∧
    (ok = true ↔ ∀ p ∈ spots, s.versionAt p.2 = w.xr 20 p.1) :=
  ⟨_, _, set (base .u) (addr (two .u) 0x2000 128), addr (two .u) 0x2000 128, [(0, 0x52000), (1, 0x52080)], true, rfl, rfl,
    quiet_of (by decide +kernel), by decide +kernel, ready_of (by decide +kernel), reaches_of (by decide +kernel), by decide +kernel,
    by decide +kernel⟩

/-- Lane 5 alone, at 0x2000, whose line has a frame of its slice. -/
def lone : Warp := addr ((warp .u).setM 0 0x20) 0x2000 0
def framed : State := { set (base .u) lone with mem := { memory with frames := [(0, lineOf 0x52000)] } }

theorem witness_CacheControlCompletes :
    (∀ i ∈ [Instr.flushExt ⟨1, .none, .x 10, none, 0⟩, .invExt false ⟨1, .none, .x 10, none, 0⟩, .invExt true ⟨1, .none, .x 10, none, 0⟩],
      ∃ (v : CacheShape) (c : Ctx) (s : State) (w : Warp) (spots : List Spot), caches i = some v ∧ c = issueCtx v.form s w ∧
        Ready v.form (4 * (linesNamed c.en (v.ea w)).length) s w ∧ c.en ≠ 0 ∧ (v.act = .flush ∨ v.act = .inv ∨ v.act = .code) ∧
        ∀ k, v.act ≠ .prefetch k → s.reach s.cur c.en v.act.access .g 1 1 v.ea = .ok spots) ∧
    (∀ k ∈ [Prf.l1, .l2, .q], ∃ (i : Instr) (v : CacheShape) (c : Ctx) (s : State) (w : Warp) (line : Nat), caches i = some v ∧
      c = issueCtx v.form s w ∧ Ready v.form (4 * (linesNamed c.en (v.ea w)).length) s w ∧ c.en ≠ 0 ∧ v.act = .prefetch k ∧
      isAp (line * 128) = false ∧ isSram (line * 128) = false ∧
      distinct ((s.hintKeys s.cur w c.en (v.ea w)).map fun (p : Nat × DWord) => lineOf p.1) = [line] ∧ isService (coreOf s.cur) = false ∧
      s.mem.frameOf line ≠ none ∧ isLocal (line * 128) = true) := by
  refine ⟨fun i hi => ?_, fun k hk => ?_⟩
  · simp only [List.mem_cons, List.not_mem_nil, or_false] at hi
    obtain rfl | rfl | rfl := hi
    · exact ⟨_, _, set (base .u) (addr (two .u) 0x1000 128), addr (two .u) 0x1000 128, [(0, 0x51000), (1, 0x51080)], rfl, rfl,
        ready_of (by decide +kernel), by decide +kernel, .inl rfl, fun _ _ => of_okVal (by decide +kernel)⟩
    · exact ⟨_, _, set (base .u) (addr (two .u) 0x1000 128), addr (two .u) 0x1000 128, [(0, 0x51000), (1, 0x51080)], rfl, rfl,
        ready_of (by decide +kernel), by decide +kernel, .inr (.inl rfl), fun _ _ => of_okVal (by decide +kernel)⟩
    · exact ⟨_, _, set (base .u) (addr (two .u) 0x1000 128), addr (two .u) 0x1000 128, [(0, 0x51000), (1, 0x51080)], rfl, rfl,
        ready_of (by decide +kernel), by decide +kernel, .inr (.inr rfl), fun _ _ => of_okVal (by decide +kernel)⟩
  · cases k <;> exact ⟨.prfExt _ ⟨1, .none, .x 10, none, 0⟩, _, _, framed, lone, lineOf 0x52000, rfl, rfl, ready_of (by decide +kernel),
      by decide +kernel, rfl, by decide +kernel, by decide +kernel, by decide +kernel, rfl, by decide +kernel, by decide +kernel⟩

/-- A debugger attached to context 1. -/
def debugged : State := (set (base .u) (two .u)).apSet offDbgCtl 0x8000000000000001

theorem witness_TrapInstructionsTrap :
    (∃ (i : Instr) (f : Form) (cls : TrapClass) (info : Nat) (s : State) (w : Warp), traps i = some (f, cls, info) ∧ CommitsEmpty s w ∧
      Ready f 0 s w ∧ (issueCtx f s w).en ≠ 0 ∧ isService (coreOf s.cur) = false ∧ s.ap! (offFltHnd w.ctx) % 2 = 1 ∧ s.isHandler w = false) ∧
    (∃ (i : Instr) (f : Form) (cls : TrapClass) (info : Nat) (s : State) (w : Warp), traps i = some (f, cls, info) ∧ CommitsEmpty s w ∧
      Ready f 0 s w ∧ (issueCtx f s w).en ≠ 0 ∧ isService (coreOf s.cur) = false ∧ s.toDebugger w.ctx { cls := cls } = true) ∧
    (∃ (s : State) (w : Warp), s.warp? s.cur = some w ∧ w.group ≠ 0 ∧ isService (coreOf s.cur) = false ∧ s.ap! (offFltHnd w.ctx) % 2 = 1 ∧
      s.isHandler w = false) :=
  ⟨⟨.trapExt 1 511, _, _, _, set (handled (base .u)) (two .u), two .u, rfl, quiet_of (by decide +kernel), ready_of (by decide +kernel),
      by decide +kernel, by decide +kernel, by decide +kernel, by decide +kernel⟩,
    ⟨.brk 3, _, _, _, debugged, two .u, rfl, quiet_of (by decide +kernel), ready_of (by decide +kernel),
      by decide +kernel, by decide +kernel, by decide +kernel⟩,
    handled (base .u), warp .u, by decide +kernel⟩

/-- A handler warp at core 0's second slot that serves warp 64, suspended with its record at 0x2000. -/
def suspended : Warp :=
  { warp .u with susp := some { trap := { cls := .user }, lanes := 3, mode := 1, pc := 0x1000, rpc := 0x1004, record := 0x2000, started := true, debugger := false } }
def handler : Warp := kset { warp .p with blk := 2 } [(1, 0x2000)]
def serving : State :=
  let s := (base .p).setWarp 1 suspended
  let s := s.setBlock 2 {
      ctx := 1, grid := none, kind := .trap, index := 0, core := 0, resident := true, record := Rec.synth 0x1000 1 512 16, spad := [],
      bars := [], queues := [], q2res := 0, phase := 0, banksR := [], banksS := [], banksA := [], held := [], warps := [0],
      hidx := 0, args := [], savedCvs := [], savedAcc := [], suspect := some 1 }
  set s handler

theorem witness_ResumeRestarts : ∃ (a target : Nat) (f : Form) (s : State) (w v : Warp) (bytes : List Byte), f = { bForm 2 with level := .p } ∧
    CommitsEmpty s w ∧ Ready f 0 s w ∧ (issueCtx f s w).en ≠ 0 ∧ isService (coreOf s.cur) = false ∧ (w.kr a).toNat % 64 = 0 ∧
    s.servedBy w (w.kr a) = some target ∧ target ≠ s.cur ∧ s.warp? target = some v ∧ v.blocked = [] ∧
    s.readBytes (coreOf s.cur) w.ctx (w.kr a) 448 = .ok bytes ∧ leAt bytes 0 4 / 2 ^ 28 = 0 ∧
    (leAt bytes 4 4 / 2 ^ 14 % 2 = 1 → leAt bytes 0x10 8 % 4 = 0) :=
  ⟨1, 1, _, serving, handler, suspended, _, rfl, quiet_of (by decide +kernel), ready_of (by decide +kernel), by decide +kernel,
    by decide +kernel, by decide +kernel, by decide +kernel, by decide +kernel, by decide +kernel, by decide +kernel,
    State.readBytes_page rfl rfl rfl (of_okVal (by decide +kernel) : _ = Except.ok 0x52000) (by decide +kernel), by decide +kernel, by decide +kernel⟩

/-- Service core 0, its lane at 0x1000. -/
def service : State := { (State.reset.withService 32 4) with cur := 192 * 64 }
def serviceWarp : Warp := { Warp.start 0 0 0 .s 512 0x1000 with exited := 0xFFFFFFFE }

theorem witness_WaitAndHaltComplete :
    (∃ (s : State) (w : Warp), CommitsEmpty s w ∧ Ready (eForm 1 2) 0 s w ∧ (issueCtx (eForm 1 2) s w).en ≠ 0 ∧ w.blocked = []) ∧
    (∃ (s : State) (w : Warp), CommitsEmpty s w ∧ Ready { bForm 2 with level := .s } 0 s w ∧
      (issueCtx { bForm 2 with level := .s } s w).en ≠ 0 ∧ w.blocked = []) :=
  ⟨⟨set (base .u) (two .u), two .u, quiet_of (by decide +kernel), ready_of (by decide +kernel), by decide +kernel⟩,
    service, serviceWarp, quiet_of (by decide +kernel), ready_of (by decide +kernel), by decide +kernel⟩

theorem witness_BarriersComplete : ∃ (i : Instr) (f : Form) (k : BarKind) (id e n : Nat) (s : State) (w : Warp) (b : Block) (r : Barrier),
    bars i = some (f, k, id, e, n) ∧ CommitsEmpty s w ∧ Ready f 0 s w ∧ (issueCtx f s w).en ≠ 0 ∧ s.block? w.blk = some b ∧
    r = Tab.get b.bars Barrier.unset id ∧ (k ≠ .wait → (s.inOrder w).barOver w.blk r e n = false) ∧ NoneWaits s :=
  ⟨.barExt 1 .both 15 2 1, _, _, _, _, _, set (base .u) (two .u), two .u, _, _, rfl, quiet_of (by decide +kernel), ready_of (by decide +kernel),
    by decide +kernel, rfl, rfl, by decide +kernel, by unfold NoneWaits; decide +kernel⟩

theorem witness_TagWaitsComplete : ∃ (i : Instr) (f : Form) (all : Bool) (d : Nat) (mask : Warp → DWord) (s : State) (w : Warp),
    tagWaits i = some (f, all, d, mask) ∧ CommitsEmpty s w ∧ Ready f 0 s w ∧ (issueCtx f s w).en ≠ 0 ∧ w.blocked = [] :=
  ⟨.twallExt 1 5 (.lit 0x8000000000000001), _, _, _, _, set (base .u) (two .u), two .u, rfl, quiet_of (by decide +kernel),
    ready_of (by decide +kernel), by decide +kernel⟩

/-- Lane 31 alone. -/
def last : Warp := addr ((warp .u).setM 0 0x80000000) 0x2000 8

theorem witness_PollsComplete :
    (∃ (f : Form) (c : Ctx) (s : State) (w : Warp) (lane key : Nat),
      f = { eForm 1 2 (srcARegs true (.x 10) ++ [20]) (keepOf .none (srcARegs true (.x 10)) [20] []) with dst := [4] } ∧
      c = issueCtx f s w ∧ lane < 32 ∧ c.en = laneBit lane ∧ Reaches s c.en .read .g 4 4 (fun w l => eaOf .g (srcAVal true (.x 10) w l) 0 0) [(lane, key)] ∧
      CommitsEmpty s w ∧ Ready f 0 s w ∧ isService (coreOf s.cur) = false) ∧
    (∃ (f : Form) (c : Ctx) (s : State) (w : Warp) (lane key : Nat),
      f = { eForm 1 2 (srcARegs true (.x 10) ++ [20]) (keepOf .none (srcARegs true (.x 10)) [20] []) with dst := [4] } ∧
      c = issueCtx f s w ∧ lane < 32 ∧ c.en = laneBit lane ∧ Reaches s c.en .read .g 4 4 (fun w l => eaOf .g (srcAVal true (.x 10) w l) 0 0) [(lane, key)] ∧
      GoesOn f 6 s w (CommitsEmpty s w) ∧ w.blocked = []) ∧
    (∃ (f : Form) (c : Ctx) (s : State) (w : Warp) (lane key : Nat),
      f = { eForm 1 2 (srcARegs true (.x 10) ++ regPair true 20) (keepOf .none (srcARegs true (.x 10)) (regPair true 20) []) with dst := regPair true 4 } ∧
      c = issueCtx f s w ∧ lane < 32 ∧ c.en = laneBit lane ∧ Reaches s c.en .read .g 8 8 (fun w l => srcAVal true (.x 10) w l) [(lane, key)] ∧
      CommitsEmpty s w ∧ Ready f 0 s w ∧ isService (coreOf s.cur) = false) ∧
    (∃ (f : Form) (c : Ctx) (s : State) (w : Warp) (lane key : Nat),
      f = { eForm 1 2 (srcARegs true (.x 10) ++ regPair true 20) (keepOf .none (srcARegs true (.x 10)) (regPair true 20) []) with dst := regPair true 4 } ∧
      c = issueCtx f s w ∧ lane < 32 ∧ c.en = laneBit lane ∧ Reaches s c.en .read .g 8 8 (fun w l => srcAVal true (.x 10) w l) [(lane, key)] ∧
      GoesOn f 6 s w (CommitsEmpty s w) ∧ w.blocked = []) :=
  ⟨⟨_, _, set (base .u) last, last, 31, 0x520F8, rfl, rfl, by decide, by decide +kernel, reaches_of (by decide +kernel),
      quiet_of (by decide +kernel), ready_of (by decide +kernel), rfl⟩,
    ⟨_, _, set (base .u) (due last), due last, 31, 0x520F8, rfl, rfl, by decide, by decide +kernel, reaches_of (by decide +kernel),
      goes_of (by decide +kernel), rfl⟩,
    ⟨_, _, set (base .u) last, last, 31, 0x520F8, rfl, rfl, by decide, by decide +kernel, reaches_of (by decide +kernel),
      quiet_of (by decide +kernel), ready_of (by decide +kernel), rfl⟩,
    ⟨_, _, set (base .u) (due last), due last, 31, 0x520F8, rfl, rfl, by decide, by decide +kernel, reaches_of (by decide +kernel),
      goes_of (by decide +kernel), rfl⟩⟩

/-- A record with a bank of scratchpad and accumulator pool each, and format slots of 16 bytes: 0 scaled blocks of 8, 1 plain 4-bit, 2 the codebook
with its table at 0x2000, 3 with outliers listed at 0x3000, 4 for the matrix engine, 5 for accumulators. -/
def recorded : List Byte :=
  leBytes 8 0x1000 ++ leBytes 4 0x31 ++ leBytes 2 512 ++ leBytes 2 1 ++ leBytes 4 0x010110 ++ leBytes 4 0x10000 ++ leBytes 4 1 ++ leBytes 4 1 ++ leBytes 4 1
    ++ leBytes 4 0 ++ leBytes 4 1024 ++ leBytes 20 0
    ++ [3, 1, 8, 0] ++ leBytes 12 0 ++ [5, 0, 8, 0] ++ leBytes 12 0 ++ [8, 0, 0, 0] ++ leBytes 4 0 ++ leBytes 8 0x2000
    ++ [5, 0, 8, 8] ++ leBytes 4 0 ++ leBytes 8 0x3000 ++ [1, 0, 24, 0, 8] ++ leBytes 11 0 ++ leBytes 112 0
/-- A block that holds a bank of its accumulator pool, in grid 7. -/
def worker : Block := { block with record := recorded, banksS := [16], banksA := [18], held := [18], grid := some 7 }
def grid : Grid :=
  { ctx := 1, record := recorded, packet := leBytes 64 0, dmask := 0, depth := 0, parent := none, queue := none, pending := [], live := 1,
    remote := 0, children := 0, src := none, away := [] }
def works (lvl : Level) (w : Warp) : State := { set (base lvl) w with blocks := [(1, worker)], grids := [(7, grid)] }

theorem witness_ConversionsComplete :
    (∃ (i : Instr) (v : RunShape) (s : State) (w : Warp), runs s.curSlot i = some v ∧ v.legal = true ∧ Ready v.form 0 s w) ∧
    (∃ (half : Bool) (e : Cvs) (sl : Slot) (f : Form) (c : Ctx) (s : State) (w : Warp) (spots : List Spot), sl = s.curSlot e.slot ∧
      cbxLegal sl e = true ∧ f = cbxForm sl e ∧ c = issueCtx f s w ∧ c.en ≠ 0 ∧ Reaches s c.en .read .g 4 4 (cbxEa sl half e) spots ∧
      s.raceTrap s.cur .g spots 4 false (cbxEa sl half e) = none ∧ Ready f 0 s w ∧ isService (coreOf s.cur) = false) ∧
    (∃ (half : Bool) (e : Cvs) (sl : Slot) (f : Form) (c : Ctx) (s : State) (w : Warp) (spots : List Spot), sl = s.curSlot e.slot ∧
      cbxLegal sl e = true ∧ f = cbxForm sl e ∧ c = issueCtx f s w ∧ c.en ≠ 0 ∧ Reaches s c.en .read .g 4 4 (cbxEa sl half e) spots ∧
      s.raceTrap s.cur .g spots 4 false (cbxEa sl half e) = none ∧ Passes f s w ∧ isService (coreOf s.cur) = false ∧ Stands 2 w ∧
      PaysEach 6 (linesNamed c.en (cbxEa sl half e w)).length s ∧ ∀ p ∈ spots, s.loadNum (coreOf s.cur) w .g p.2 4 < 2 ^ 25) :=
  ⟨⟨.dqn ⟨1, .none, 0, 40, 20, 24, 25, .f32⟩, _, works .u (two .u), two .u, rfl, by decide +kernel, ready_of (by decide +kernel)⟩,
    ⟨true, ⟨1, .none, 2, 40, 20, 24, 25, .f32⟩, _, _, _, works .u (two .u), two .u, [(0, 0x52000), (1, 0x52000)], rfl, by decide +kernel, rfl, rfl,
      by decide +kernel, reaches_of (by decide +kernel), by decide +kernel, ready_of (by decide +kernel), rfl⟩,
    true, ⟨1, .none, 2, 40, 20, 24, 25, .f32⟩, _, _, _, works .u (due (two .u)), due (two .u), [(0, 0x52000), (1, 0x52000)], rfl, by decide +kernel,
    rfl, rfl, by decide +kernel, reaches_of (by decide +kernel), by decide +kernel, passes_of (by decide +kernel), rfl, rfl,
    ⟨rfl, by decide +kernel⟩, by decide +kernel⟩

/-- Lane 0 holds one element that no code of slot 3 reaches; the list at 0x3000 has room for four. -/
def outlier : Warp := (two .u).setX 32 1 fun _ => 0x7F000000
def listed : State := { works .u outlier with mem := { memory with bytes := memory.bytes ++ [(0x53004, 4)] } }

/-- The translation step's places; and a warp that has taken them, its append's demand due. -/
def places : Appends := ⟨0x53000, 4, [(0, 0x50001)], 0, false⟩
def appending : Warp := { due outlier with appends := some places }
def listedBy (w : Warp) : State := { listed with warps := [(0, w)] }

theorem witness_OutlierQuantizeCompletes :
    (∃ (e : Cvs) (sl : Slot) (f : Form) (c : Ctx) (s : State) (w : Warp) (recs : List (Word × Word)) (a : Appends), sl = s.curSlot e.slot ∧ sl.outl = true ∧ qntLegal sl e = true ∧ f = qntForm sl e ∧
      c = issueCtx f s w ∧ c.en ≠ 0 ∧ recs = qntMarked sl e w c.en ∧ CommitsEmpty s w ∧
      Ready f 0 s w ∧ s.outlierPlaces c w sl.aux = .ok a ∧ recs = []) ∧
    (∃ (e : Cvs) (sl : Slot) (f : Form) (c : Ctx) (s : State) (w : Warp) (recs : List (Word × Word)) (a : Appends), sl = s.curSlot e.slot ∧ sl.outl = true ∧ qntLegal sl e = true ∧ f = qntForm sl e ∧
      c = issueCtx f s w ∧ c.en ≠ 0 ∧ recs = qntMarked sl e w c.en ∧ CommitsEmpty s w ∧
      Ready f 0 s w ∧ s.outlierPlaces c w sl.aux = .ok a ∧ recs ≠ [] ∧ isService (coreOf s.cur) = false) ∧
    (∃ (e : Cvs) (sl : Slot) (f : Form) (c : Ctx) (s : State) (w : Warp) (recs : List (Word × Word)) (a : Appends)
      (key count rec_ : Nat) (x : Word × Word), sl = s.curSlot e.slot ∧ sl.outl = true ∧ qntLegal sl e = true ∧ f = qntForm sl e ∧
      c = issueCtx f s w ∧ c.en ≠ 0 ∧ recs = qntMarked sl e w c.en ∧ recs = [x] ∧
      GoesOn f 10 s w (CommitsEmpty s w ∧ s.outlierPlaces c w sl.aux = .ok a) ∧ (isService (coreOf s.cur) = false → w.appends = some a) ∧
      a.done = 0 ∧ a.full = false ∧ key = a.key ∧ isAp key = false ∧ s.leasedOut (lineOf key) = false ∧ count = s.homeRead w.blk .g key 4 ∧
      count < s.homeRead w.blk .g (key + 4) 4 ∧ isAp rec_ = false ∧ a.place sl.aux count = some rec_ ∧ s.leasedOut (lineOf rec_) = false ∧
      key + 4 ≤ rec_) :=
  ⟨⟨⟨1, .none, 3, 40, 32, 24, 25, .f32⟩, _, _, _, listedBy (two .u), two .u, [], places, rfl, by decide +kernel, by decide +kernel, rfl, rfl,
      by decide +kernel, by decide +kernel, quiet_of (by decide +kernel), ready_of (by decide +kernel), of_okVal (by decide +kernel), rfl⟩,
    ⟨⟨1, .none, 3, 40, 32, 24, 25, .f32⟩, _, _, _, listed, outlier, [(0, 0x7F000000)], places, rfl, by decide +kernel, by decide +kernel, rfl, rfl,
      by decide +kernel, by decide +kernel, quiet_of (by decide +kernel), ready_of (by decide +kernel), of_okVal (by decide +kernel), by decide, rfl⟩,
    ⟨1, .none, 3, 40, 32, 24, 25, .f32⟩, _, _, _, listedBy appending, appending, [(0, 0x7F000000)], places, 0x53000, 0, 0x53040, (0, 0x7F000000),
    rfl, by decide +kernel, by decide +kernel, rfl, rfl, by decide +kernel, by decide +kernel, rfl, goes_of (by decide +kernel), fun _ => rfl, rfl, rfl,
    rfl, by decide +kernel⟩

/-- k0 a designator of the bank held, k1 an aligned address, k2 a small count, k3 a barrier-like count of four. -/
def signer : Warp := kset (two .u) [(0, 72), (1, 0x2000), (2, 64), (3, 4)]
def counted4 : Cv := { own := some 1, cnt := 4, yard := false, sig := 0, latch := none, key := [] }
def declared : State := (works .u signer).modCore 0 fun c => { c with cvs := [(2, counted4)] }
def mset : MSet := { mf := 0, kn := 1, nm := 1, tag := 5 }

/-- The same without a translation table: the save area is nowhere. -/
def rootless (s : State) : State := s.apSet (offMmuRoot 1) 0
theorem unsaved {s : State} {core : Nat} (hc : isService core = false) (h : (Tab.get s.ap 0#64 (offMmuRoot 1)).toNat % 2 = 0) (off : Nat) :
    s.poisonedSave core 1 off = none := by
  simp [State.poisonedSave, State.place, State.mapTo, State.xlate, State.leaf, hc, h, pageMiss]

theorem witness_MatrixOperationsIssue : ∃ (i : Instr) (v : MatShape) (c : Ctx) (s s0 : State) (w : Warp) (k : MatKind), mats i = some v ∧
    c = issueCtx v.form s w ∧ CommitsEmpty s w ∧ Ready v.form 0 s w ∧ c.en ≠ 0 ∧ v.legal s w = true ∧
    (s.core (coreOf s.cur)).tagFlies w.ctx v.tag = false ∧ v.pre s w = none ∧
    s0 = (if v.owns then s.takeOwner (coreOf s.cur) w.ctx else s) ∧ v.kind s0 c w = some k ∧
    (∀ off, s.poisonedSave (coreOf s.cur) w.ctx off = none) ∧ s.mem.leases = [] :=
  ⟨.mmo 1 0 1 mset, _, _, rootless declared, _, signer, .mmo 72 0x2000 mset, rfl, rfl, quiet_of (by decide +kernel), ready_of (by decide +kernel),
    by decide +kernel, by decide +kernel, by decide +kernel, by decide +kernel, rfl, by decide +kernel, unsaved rfl (by decide +kernel), rfl⟩

/-- A multiply of slot 4 at register 2, and what a warp latches with it. -/
def mult : Mm := ⟨1, 4, false, 0, 1, 2, 2, mset, 24⟩
def latched (yard : Bool) : MatOp := (signingOf yard (declared.curSlot 4) mult 0 signer 40).op []
def cv4 (yard : Bool) (sig : Nat) (latch : Option MatOp) : Cv :=
  { own := some 1, cnt := 4, yard := yard, sig := sig, latch := latch, key := (signingOf yard (declared.curSlot 4) mult 0 signer 0).key }
/-- The macro of the set holds columns of one shape. -/
def shaped (s : State) : State := s.modCore 0 fun c => { c with macros := [(1, { cw := 16, n := 24, groups := [], ruined := false })] }
def cvAt (v : Cv) : State := (rootless declared).modCore 0 fun c => { c with cvs := [(2, v)] }
/-- The shares of the yard's other cores complete. -/
def yardReady : State :=
  [1, 2, 3].foldl (fun s c => s.modCore c fun k => { k with cvs := [(2, cv4 true 4 (some (latched true)))] }) (cvAt (cv4 true 2 (some (latched true))))

theorem witness_ConvergenceCompletes :
    (∃ (f : Form) (s : State) (w : Warp) (v : DWord), f = engForm 1 4 true ∧ v = kSrcVal (.k 3) w ∧ cdeclOk v = true ∧ CommitsEmpty s w ∧
      Ready f 0 s w ∧ (issueCtx f s w).en ≠ 0 ∧
      (∀ r, Tab.look (s.core (coreOf s.cur)).cvs 2 = some r → (r.own = none ∨ r.own = some w.blk) ∧ r.sig = 0)) ∧
    (∃ (f : Form) (s : State) (w : Warp) (r : Cv), f = engForm 1 4 true ∧ CommitsEmpty s w ∧ Ready f 0 s w ∧ (issueCtx f s w).en ≠ 0 ∧
      Tab.look (s.core (coreOf s.cur)).cvs 2 = some r ∧ r.own = some w.blk ∧ r.sig + (lanesOf (issueCtx f s w).en).length < r.cnt) ∧
    (∃ (e : Mm) (n : Nat) (f : Form) (c : Ctx) (s : State) (w : Warp) (r : Cv) (desc : List Byte) (sl : Slot), f = engForm e.g 4 true ∧ c = issueCtx f s w ∧ CommitsEmpty s w ∧ Ready f 0 s w ∧ c.en ≠ 0 ∧ n = (lanesOf c.en).length ∧ sl = s.curSlot e.slot ∧ sl.aRoleOk = true ∧ (e.tile = true → sl.scale = 0) ∧ mmRegs false e w = true ∧
      s.heldTrap w.blk (w.kr e.d).toNat = none ∧ s.ownerTrap (coreOf s.cur) w.ctx = none ∧ s.handleTrap w e.tile = none ∧
      Tab.look (s.core (coreOf s.cur)).cvs e.cv = some r ∧ r.own = some w.blk ∧
      r.yard = false ∧ r.latch = none ∧ c.latchCheck w (signingOf false sl e s.cur w 0) s = .ok desc ∧ r.sig + n < r.cnt ∧ (∀ off, s.poisonedSave (coreOf s.cur) w.ctx off = none) ∧ s.mem.leases = []) ∧
    (∃ (e : Mm) (n : Nat) (f : Form) (c : Ctx) (s : State) (w : Warp) (r : Cv) (desc : List Byte) (sl : Slot), f = engForm e.g 4 true ∧ c = issueCtx f s w ∧ CommitsEmpty s w ∧ Ready f 0 s w ∧ c.en ≠ 0 ∧ n = (lanesOf c.en).length ∧ sl = s.curSlot e.slot ∧ sl.aRoleOk = true ∧ (e.tile = true → sl.scale = 0) ∧ mmRegs false e w = true ∧
      s.heldTrap w.blk (w.kr e.d).toNat = none ∧ s.ownerTrap (coreOf s.cur) w.ctx = none ∧ s.handleTrap w e.tile = none ∧
      Tab.look (s.core (coreOf s.cur)).cvs e.cv = some r ∧ r.own = some w.blk ∧
      r.yard = false ∧ r.latch = none ∧ c.latchCheck w (signingOf false sl e s.cur w 0) s = .ok desc ∧ r.sig + n = r.cnt ∧
      ((s.takeOwner (coreOf s.cur) w.ctx).core (coreOf s.cur)).setShape e.set ≠ none ∧ (∀ off, s.poisonedSave (coreOf s.cur) w.ctx off = none) ∧ s.mem.leases = []) ∧
    (∃ (e : Mm) (n : Nat) (f : Form) (c : Ctx) (s : State) (w : Warp) (r : Cv) (op : MatOp) (sl : Slot), f = engForm e.g 4 true ∧ c = issueCtx f s w ∧ CommitsEmpty s w ∧ Ready f 0 s w ∧ c.en ≠ 0 ∧ n = (lanesOf c.en).length ∧ sl = s.curSlot e.slot ∧ sl.aRoleOk = true ∧ (e.tile = true → sl.scale = 0) ∧ mmRegs r.yard e w = true ∧
      s.heldTrap w.blk (w.kr e.d).toNat = none ∧ s.ownerTrap (coreOf s.cur) w.ctx = none ∧ s.handleTrap w e.tile = none ∧
      Tab.look (s.core (coreOf s.cur)).cvs e.cv = some r ∧ r.own = some w.blk ∧
      r.latch = some op ∧ r.key = (signingOf r.yard sl e s.cur w 0).key ∧ r.sig + n < r.cnt ∧ (∀ off, s.poisonedSave (coreOf s.cur) w.ctx off = none) ∧ s.mem.leases = []) ∧
    (∃ (e : Mm) (n : Nat) (f : Form) (c : Ctx) (s : State) (w : Warp) (r : Cv) (op : MatOp) (sl : Slot), f = engForm e.g 4 true ∧ c = issueCtx f s w ∧ CommitsEmpty s w ∧ Ready f 0 s w ∧ c.en ≠ 0 ∧ n = (lanesOf c.en).length ∧ sl = s.curSlot e.slot ∧ sl.aRoleOk = true ∧ (e.tile = true → sl.scale = 0) ∧ mmRegs r.yard e w = true ∧
      s.heldTrap w.blk (w.kr e.d).toNat = none ∧ s.ownerTrap (coreOf s.cur) w.ctx = none ∧ s.handleTrap w e.tile = none ∧
      Tab.look (s.core (coreOf s.cur)).cvs e.cv = some r ∧ r.own = some w.blk ∧
      r.latch = some op ∧ r.key = (signingOf r.yard sl e s.cur w 0).key ∧ r.sig + n = r.cnt ∧ r.yard = false ∧
      (s.takeOwner (coreOf s.cur) w.ctx).latchTrap (coreOf s.cur) op = none ∧ (∀ off, s.poisonedSave (coreOf s.cur) w.ctx off = none) ∧ s.mem.leases = []) ∧
    (∃ (f : Form) (s : State) (w : Warp) (r : Cv) (op : MatOp), f = engForm 1 4 true ∧ CommitsEmpty s w ∧ Ready f 0 s w ∧ (issueCtx f s w).en ≠ 0 ∧
      Tab.look (s.core (coreOf s.cur)).cvs 2 = some r ∧ r.own = some w.blk ∧ r.sig + (lanesOf (issueCtx f s w).en).length = r.cnt ∧
      r.yard = false ∧ r.latch = some op ∧ s.latchTrap (coreOf s.cur) op = none) ∧
    (∀ full : Bool, ∃ (e : Mm) (n : Nat) (f : Form) (c : Ctx) (s x y : State) (w : Warp) (r : Cv) (op : MatOp) (sl : Slot), f = engForm e.g 4 true ∧ c = issueCtx f s w ∧ CommitsEmpty s w ∧ Ready f 0 s w ∧ c.en ≠ 0 ∧ n = (lanesOf c.en).length ∧ sl = s.curSlot e.slot ∧ sl.aRoleOk = true ∧ (e.tile = true → sl.scale = 0) ∧ mmRegs true e w = true ∧
      s.heldTrap w.blk (w.kr e.d).toNat = none ∧ s.ownerTrap (coreOf s.cur) w.ctx = none ∧ s.handleTrap w e.tile = none ∧
      Tab.look (s.core (coreOf s.cur)).cvs e.cv = some r ∧ r.own = some w.blk ∧
      r.yard = true ∧ r.latch = some op ∧ r.key = (signingOf true sl e s.cur w 0).key ∧ r.sig + n = r.cnt ∧ (∀ off, s.poisonedSave (coreOf s.cur) w.ctx off = none) ∧ s.mem.leases = [] ∧
      x = s.takeOwner (coreOf s.cur) w.ctx ∧
      y = x.modCore (coreOf s.cur) (fun k => { k with cvs := Tab.upd k.cvs e.cv { r with sig := r.cnt } }) ∧
      if full = true then (y.shares (coreOf s.cur) e.cv).length = 4 ∧ y.yardTrap (y.shares (coreOf s.cur) e.cv) = none
      else y.shares (coreOf s.cur) e.cv = []) := by
  refine ⟨⟨_, declared, signer, _, rfl, rfl, by decide +kernel, quiet_of (by decide +kernel), ready_of (by decide +kernel), by decide +kernel,
      fun r h => by obtain rfl := Option.some.inj h; decide +kernel⟩,
    ⟨_, declared, signer, counted4, rfl, quiet_of (by decide +kernel), ready_of (by decide +kernel), by decide +kernel, by decide +kernel, rfl, by decide +kernel⟩,
    ⟨mult, _, _, _, rootless declared, signer, counted4, [], _, rfl, rfl, quiet_of (by decide +kernel), ready_of (by decide +kernel),
      by decide +kernel, rfl, rfl, by decide +kernel, by decide +kernel, by decide +kernel, by decide +kernel, by decide +kernel, by decide +kernel, rfl, rfl, rfl, rfl, of_okVal (by decide +kernel), by decide +kernel, unsaved rfl (by decide +kernel), rfl⟩,
    ⟨mult, _, _, _, shaped (cvAt (cv4 false 2 none)), signer, cv4 false 2 none, [], _, rfl, rfl, quiet_of (by decide +kernel), ready_of (by decide +kernel),
      by decide +kernel, rfl, rfl, by decide +kernel, by decide +kernel, by decide +kernel, by decide +kernel, by decide +kernel, by decide +kernel, rfl, rfl, rfl, rfl, of_okVal (by decide +kernel), by decide +kernel, by decide +kernel, unsaved rfl (by decide +kernel), rfl⟩,
    ⟨mult, _, _, _, cvAt (cv4 true 0 (some (latched true))), signer, cv4 true 0 (some (latched true)), latched true, _, rfl, rfl,
      quiet_of (by decide +kernel), ready_of (by decide +kernel), by decide +kernel, rfl, rfl, by decide +kernel, by decide +kernel, by decide +kernel, by decide +kernel, by decide +kernel, by decide +kernel, rfl, rfl, rfl, by decide +kernel, by decide +kernel,
      unsaved rfl (by decide +kernel), rfl⟩,
    ⟨mult, _, _, _, shaped (cvAt (cv4 false 2 (some (latched false)))), signer, cv4 false 2 (some (latched false)), latched false, _, rfl, rfl,
      quiet_of (by decide +kernel), ready_of (by decide +kernel), by decide +kernel, rfl, rfl, by decide +kernel, by decide +kernel, by decide +kernel, by decide +kernel, by decide +kernel, by decide +kernel, rfl, rfl, rfl, by decide +kernel, by decide +kernel, rfl,
      by decide +kernel, unsaved rfl (by decide +kernel), rfl⟩,
    ⟨_, shaped (cvAt (cv4 false 2 (some (latched false)))), signer, cv4 false 2 (some (latched false)), latched false, rfl, quiet_of (by decide +kernel),
      ready_of (by decide +kernel), by decide +kernel, rfl, rfl, by decide +kernel, rfl, rfl, by decide +kernel⟩, fun full => ?_⟩
  cases full
  · exact ⟨mult, _, _, _, cvAt (cv4 true 2 (some (latched true))), _, _, signer, cv4 true 2 (some (latched true)), latched true, _, rfl, rfl,
      quiet_of (by decide +kernel), ready_of (by decide +kernel), by decide +kernel, rfl, rfl, by decide +kernel, by decide +kernel, by decide +kernel, by decide +kernel, by decide +kernel, by decide +kernel, rfl, rfl, rfl, rfl, by decide +kernel, by decide +kernel,
      unsaved rfl (by decide +kernel), rfl, rfl, rfl, by decide +kernel⟩
  · exact ⟨mult, _, _, _, yardReady, _, _, signer, cv4 true 2 (some (latched true)), latched true, _, rfl, rfl,
      quiet_of (by decide +kernel), ready_of (by decide +kernel), by decide +kernel, rfl, rfl, by decide +kernel, by decide +kernel, by decide +kernel, by decide +kernel, by decide +kernel, by decide +kernel, rfl, rfl, rfl, rfl, by decide +kernel, by decide +kernel,
      unsaved rfl (by decide +kernel), rfl, rfl, rfl, by decide +kernel⟩

/-- The block holds no bank yet. -/
def bankless : State := { works .u (two .u) with blocks := [(1, { worker with held := [] })] }

theorem witness_AccumulatorBanksComplete :
    (∃ (f : Form) (s : State) (w : Warp), f = engForm 1 2 true ∧ CommitsEmpty s w ∧ Ready f 0 s w ∧ (issueCtx f s w).en ≠ 0 ∧
      s.abkSize w = none ∧ w.blocked = [] ∧ NoneWaits s ∧ s.awake w = true ∧ s.freeBanks (coreOf s.cur) = [18]) ∧
    (∃ (f : Form) (s : State) (w : Warp), f = engForm 1 2 true ∧ CommitsEmpty s w ∧ Ready f 0 s w ∧ (issueCtx f s w).en ≠ 0 ∧
      s.abkSize w = none ∧ w.blocked = [] ∧ NoneWaits s ∧ s.awake w = true ∧ s.freeBanks (coreOf s.cur) = []) ∧
    (∃ (f : Form) (s : State) (w : Warp), f = engForm 1 2 true ∧ CommitsEmpty s w ∧ Ready f 0 s w ∧ (issueCtx f s w).en ≠ 0 ∧
      (w.kr 0).toNat = 4 * 18 ∧ s.heldTrap w.blk (4 * 18) = none) ∧
    (∃ (f : Form) (s : State) (w : Warp), f = engForm 1 4 true ∧ Ready f 0 s w ∧ (issueCtx f s w).en ≠ 0 ∧ (w.kr 0).toNat < 192 ∧
      s.heldTrap w.blk (w.kr 0).toNat = none) :=
  ⟨⟨_, bankless, two .u, rfl, quiet_of (by decide +kernel), ready_of (by decide +kernel), by decide +kernel, by decide +kernel, rfl,
      by unfold NoneWaits; decide +kernel, by decide +kernel, by decide +kernel⟩,
    ⟨_, bankless.modCore 0 (fun c => { c with zeroing := [18] }), two .u, rfl, quiet_of (by decide +kernel), ready_of (by decide +kernel),
      by decide +kernel, by decide +kernel, rfl, by unfold NoneWaits; decide +kernel, by decide +kernel, by decide +kernel⟩,
    ⟨_, works .u signer, signer, rfl, quiet_of (by decide +kernel), ready_of (by decide +kernel), by decide +kernel, by decide +kernel, by decide +kernel⟩,
    _, works .u signer, signer, rfl, ready_of (by decide +kernel), by decide +kernel, by decide +kernel, by decide +kernel⟩

theorem witness_CopiesIssue : ∃ (i : Instr) (v : CopyShape) (c : Ctx) (s : State) (w : Warp) (o : CopyCmd), copies i = some v ∧
    c = issueCtx v.form s w ∧ CommitsEmpty s w ∧ Ready v.form 0 s w ∧ c.en ≠ 0 ∧ v.legal w = true ∧
    (s.core (coreOf s.cur)).tagFlies w.ctx v.tag = false ∧ s.copyCheck w (v.cmd s w) = none ∧ c.readHandles w (v.cmd s w) s = .ok o ∧
    s.copyTrap w o = none ∧ (s.core (coreOf s.cur)).sharedUsed < 64 ∧ w.blocked = [] ∧ s.mem.leases = [] :=
  ⟨.cpy 1 1 1 9 2 5 false false false true, _, _, works .u signer, signer, copyCmd 0 0 signer (works .u signer) 0x2000 0x2000 0 64 5 false false false true 0 0,
    rfl, rfl, quiet_of (by decide +kernel), ready_of (by decide +kernel),
    by decide +kernel, by decide +kernel, by decide +kernel, by decide +kernel, of_okVal (by decide +kernel), by decide +kernel, by decide +kernel, rfl, rfl⟩

/-- A handler group whose warp 0 is assigned an inbox record; queue 1 holds a word. -/
def entry : InboxEntry := { id := 9, ctx := 1, cls := 0, record := leBytes 8 7 ++ leBytes 56 0, entry := 0x1000, warps := 1, rblk := 16, hidx := 0, taken := some 1 }
def handling : State :=
  (set { works .p { signer with level := .p, inbox := some 9 } with blocks := [(1, { worker with kind := .handler, queues := [(1, [5, 6])] })] }
    { signer with level := .p, inbox := some 9 }).modDie 0 fun d => { d with inbox := [entry] }

theorem witness_QueuesComplete :
    (∃ (f : Form) (s : State) (w : Warp) (b : Block) (e : InboxEntry), f = engForm 1 4 ∧ CommitsEmpty s w ∧ Ready f 0 s w ∧
      (issueCtx f s w).en ≠ 0 ∧ NoneWaits s ∧ w.blocked = [] ∧ s.block? w.blk = some b ∧ b.kind = .handler ∧ w.widx = 0 ∧
      w.inbox = some e.id ∧ (s.die (dieOf s.cur)).inbox = [e] ∧ b.queue 1 = [5, 6] ∧ b.queue 2 = [] ∧ b.room 1 = true) ∧
    (∃ (i : Instr) (g : Nat) (ok : Warp → Bool) (mk : Nat → Warp → Nat → CollCmd) (f : Form) (s : State) (w : Warp) (b : Block),
      colls i = some (g, ok, mk) ∧ f = engForm g 4 true ∧ CommitsEmpty s w ∧ Ready f 0 s w ∧ (issueCtx f s w).en ≠ 0 ∧ ok w = true ∧
      NoneWaits s ∧ w.blocked = [] ∧ s.block? w.blk = some b ∧ (s.core (coreOf s.cur)).q1.length < 32 ∧
      ((mk s.cur w 0).rq = true → b.room 2 = true)) :=
  ⟨⟨_, handling, { signer with level := .p, inbox := some 9 }, _, entry, rfl, quiet_of (by decide +kernel), ready_of (by decide +kernel), by decide +kernel,
      by unfold NoneWaits; decide +kernel, rfl, rfl, rfl, rfl, rfl, by decide +kernel, by decide +kernel⟩,
    .rsum 1 1 1 true true, _, _, _, _, works .u signer, signer, worker, rfl, rfl, quiet_of (by decide +kernel), ready_of (by decide +kernel), by decide +kernel,
    by decide +kernel, by unfold NoneWaits; decide +kernel, rfl, rfl, by decide +kernel, by decide +kernel⟩

/-- The signer with its demand due; and the cell at 0x2000 full. -/
def signed : Warp := due signer
def fullCell (w : Warp) : State := { works .u w with mem := { memory with bytes := memory.bytes ++ [(0x5200B, 0x80)] } }

theorem witness_FuturesComplete :
    (∃ (f : Form) (c : Ctx) (s : State) (w : Warp), f = engForm 1 4 ∧ c = issueCtx f s w ∧ c.en ≠ 0 ∧ (w.kr 1).toNat % 16 = 0 ∧
      CommitsEmpty s w ∧ Ready f 0 s w ∧ isService (coreOf s.cur) = false ∧ s.placeBoth (coreOf s.cur) w.ctx w.priv (w.kr 1) = .ok 0x52000) ∧
    (∀ b : Bool, ∃ (f : Form) (c : Ctx) (s : State) (w : Warp) (h i : Nat), f = engForm 1 4 ∧ c = issueCtx f s w ∧ c.en ≠ 0 ∧
      (w.kr 1).toNat % 16 = 0 ∧ GoesOn f 10 s w True ∧ s.placeBoth (coreOf s.cur) w.ctx w.priv (w.kr 1) = .ok 0x52000 ∧ s.leasedOut (lineOf 0x52000) = false ∧
      h = (s.homeNum (0x52000 + 8) 4).toNat ∧ futFull h = b ∧ futWcnt h < 32767 ∧ isLocal 0x52000 = true ∧ isAp 0x52000 = false ∧
      freePark (s.die (dieOf s.cur)) = some i ∧ s.mem.marks = []) ∧
    (∀ b : Bool, ∃ (f : Form) (c : Ctx) (s : State) (w : Warp) (h : Nat), f = engForm 1 4 ∧ c = issueCtx f s w ∧ c.en ≠ 0 ∧
      (w.kr 1).toNat % 16 = 0 ∧ s.placeBoth (coreOf s.cur) w.ctx w.priv (w.kr 1) = .ok 0x52000 ∧ GoesOn f 10 s w (CommitsEmpty s w) ∧ isAp 0x52000 = false ∧ isAp (0x52000 + 8) = false ∧
      s.leasedOut (lineOf 0x52000) = false ∧ h = (s.homeNum (0x52000 + 8) 4).toNat ∧ futFull h = b) := by
  refine ⟨⟨_, _, works .u signer, signer, rfl, rfl, by decide +kernel, by decide +kernel, quiet_of (by decide +kernel), ready_of (by decide +kernel),
    rfl, of_okVal (by decide +kernel)⟩, fun b => ?_, fun b => ?_⟩ <;> cases b
  · exact ⟨_, _, works .u signed, signed, _, 0, rfl, rfl, by decide +kernel, by decide +kernel, goes_of (by decide +kernel), of_okVal (by decide +kernel),
      by decide +kernel, rfl, by decide +kernel⟩
  · exact ⟨_, _, fullCell signed, signed, _, 0, rfl, rfl, by decide +kernel, by decide +kernel, goes_of (by decide +kernel), of_okVal (by decide +kernel),
      by decide +kernel, rfl, by decide +kernel⟩
  · exact ⟨_, _, works .u signed, signed, _, rfl, rfl, by decide +kernel, by decide +kernel, of_okVal (by decide +kernel), goes_of (by decide +kernel),
      by decide +kernel, by decide +kernel, by decide +kernel, rfl, by decide +kernel⟩
  · exact ⟨_, _, fullCell signed, signed, _, rfl, rfl, by decide +kernel, by decide +kernel, of_okVal (by decide +kernel), goes_of (by decide +kernel),
      by decide +kernel, by decide +kernel, by decide +kernel, rfl, by decide +kernel⟩

theorem witness_IntentsAndRegisterBlocksComplete :
    (∃ (s : State) (w : Warp), Ready (engForm 1 1) 0 s w ∧ (issueCtx (engForm 1 1) s w).en ≠ 0 ∧ (w.kr 1).toNat < 2 ^ 32) ∧
    (∃ (f : Form) (s : State) (w : Warp), f = engForm 1 2 false .p ∧ CommitsEmpty s w ∧ Ready f 0 s w ∧ (issueCtx f s w).en ≠ 0 ∧
      w.regs + 32 * 2 ≤ 512 ∧ w.blocked = [] ∧ (s.core (coreOf s.cur)).leanTo = none) ∧
    (∃ (f : Form) (s : State) (w : Warp), f = engForm 1 2 false .p ∧ CommitsEmpty s w ∧ Ready f 0 s w ∧ (issueCtx f s w).en ≠ 0 ∧
      w.regs + 32 * 2 ≤ 512 ∧ w.blocked = [] ∧ (s.core (coreOf s.cur)).leanTo ≠ none) ∧
    (∃ (f : Form) (s : State) (w : Warp), f = engForm 1 2 false .p ∧ CommitsEmpty s w ∧ Ready f 0 s w ∧ (issueCtx f s w).en ≠ 0 ∧
      w.regs0 + 32 * 2 ≤ w.regs ∧ NoneWaits s) :=
  ⟨⟨works .u signer, signer, ready_of (by decide +kernel), by decide +kernel⟩,
    ⟨_, works .p { two .p with regs := 448 }, { two .p with regs := 448 }, rfl, quiet_of (by decide +kernel), ready_of (by decide +kernel), by decide +kernel⟩,
    ⟨_, (works .p { two .p with regs := 448 }).modCore 0 fun c => { c with leanTo := some 5 }, { two .p with regs := 448 }, rfl, quiet_of (by decide +kernel),
      ready_of (by decide +kernel), by decide +kernel⟩,
    _, works .p { two .p with regs0 := 448 }, { two .p with regs0 := 448 }, rfl, quiet_of (by decide +kernel), ready_of (by decide +kernel),
    by decide +kernel, by decide +kernel, by unfold NoneWaits; decide +kernel⟩

theorem launch_read {c : Ctx} {w : Warp} {va : DWord} {s : State} {p r : List Byte} (hp : s.engBytes (c.eng w) .g va.toNat 64 = .ok p)
    (ho : Pkt.ok p = true) (hn : Pkt.ndev p = 0) (hr : s.engBytes (c.eng w) .g (Pkt.rec_ p : Nat) 256 = .ok r) (hw : Pkt.waits p = 0) :
    c.readLaunch w va s = .ok (p, r) := by
  simp [Ctx.readLaunch, hp, ho, hn, hr, hw]

theorem post_read {c : Ctx} {w : Warp} {va : DWord} {s : State} {r : List Byte} {y : Nat} (hr : s.engBytes (c.eng w) .g va.toNat 32 = .ok r)
    (ha : leAt r 0 8 % 4 = 0) (hy : s.yardOf c.core w.ctx w.priv (BitVec.ofNat 64 (leAt r 8 8)) = .ok y) : c.readPost w .g va s = .ok (r, y) := by
  simp [Ctx.readPost, postRange, hr, ha, hy]

/-- Bytes of context 1's page as the copy engine of block 1 reads them. -/
def paged (key n : Nat) : List Byte := (List.range n).map fun i => (works .u signed).engAt { core := 0, ctx := 1, blk := 1, priv := false } .g (key + i)

theorem witness_TasksComplete :
    (∃ (i : Instr) (tr : Bool) (g d a b hidx narg cls : Nat) (f : Form) (s : State) (w : Warp), invokes i = some (tr, g, d, a, b, hidx, narg, cls) ∧
      f = engForm g 4 false .u ∧ rinvRegs a w = true ∧ CommitsEmpty s w ∧ Ready f 0 s w ∧ (issueCtx f s w).en ≠ 0 ∧
      isService (coreOf s.cur) = false) ∧
    (∃ (s : State) (w : Warp), (w.kr 1).toNat % 64 = 0 ∧ (w.kr 1).toNat % 32 = 0 ∧ (s.gridOf w.blk).isSome = true ∧ CommitsEmpty s w ∧
      Ready (engForm 1 4) 0 s w ∧ (issueCtx (engForm 1 4) s w).en ≠ 0 ∧ isService (coreOf s.cur) = false) ∧
    (∃ (i : Instr) (tr : Bool) (g d a b hidx narg cls : Nat) (f : Form) (c : Ctx) (s : State) (w : Warp), invokes i = some (tr, g, d, a, b, hidx, narg, cls) ∧ f = engForm g 4 false .u ∧ c = issueCtx f s w ∧ c.en ≠ 0 ∧
      isService (coreOf s.cur) = false ∧ GoesOn f 4 s w (CommitsEmpty s w) ∧ rinvRegs a w = true ∧ w.blocked = [] ∧ (w.kr a).toNat % 1024 = s.devId) ∧
    (∃ (i : Instr) (tr : Bool) (g d a b hidx narg cls : Nat) (f : Form) (c : Ctx) (s : State) (w : Warp), invokes i = some (tr, g, d, a, b, hidx, narg, cls) ∧ f = engForm g 4 false .u ∧ c = issueCtx f s w ∧ c.en ≠ 0 ∧
      isService (coreOf s.cur) = false ∧ GoesOn f 4 s w (CommitsEmpty s w) ∧ rinvRegs a w = true ∧ w.blocked = [] ∧ (w.kr a).toNat % 1024 ≠ s.devId ∧
      s.routed = true) ∧
    (∃ (i : Instr) (tr : Bool) (g d a b hidx narg cls : Nat) (f : Form) (c : Ctx) (s : State) (w : Warp), invokes i = some (tr, g, d, a, b, hidx, narg, cls) ∧ f = engForm g 4 false .u ∧ c = issueCtx f s w ∧ c.en ≠ 0 ∧
      isService (coreOf s.cur) = false ∧ GoesOn f 4 s w (CommitsEmpty s w) ∧ rinvRegs a w = true ∧ w.blocked = [] ∧ (w.kr a).toNat % 1024 ≠ s.devId ∧
      s.routed = false ∧ tr = false) ∧
    (∃ (i : Instr) (tr : Bool) (g d a b hidx narg cls : Nat) (f : Form) (c : Ctx) (s : State) (w : Warp), invokes i = some (tr, g, d, a, b, hidx, narg, cls) ∧ f = engForm g 4 false .u ∧ c = issueCtx f s w ∧ c.en ≠ 0 ∧
      isService (coreOf s.cur) = false ∧ GoesOn f 4 s w (CommitsEmpty s w) ∧ rinvRegs a w = true ∧ w.blocked = [] ∧ (w.kr a).toNat % 1024 ≠ s.devId ∧
      s.routed = false ∧ tr = true ∧ s.ap! (offFltHnd w.ctx) % 2 = 1 ∧ s.isHandler w = false) ∧
    (∃ (f : Form) (c : Ctx) (s : State) (w : Warp) (pk r : List Byte), f = engForm 1 4 ∧ c = issueCtx f s w ∧ c.en ≠ 0 ∧ (w.kr 1).toNat % 64 = 0 ∧
      c.readLaunch w (w.kr 1) s = .ok (pk, r) ∧ GoesOn f (6 * launchLines (c.launchRanges w (w.kr 1) s)) s w (CommitsEmpty s w) ∧
      w.blocked = [] ∧ (Tab.get s.dev.devq [] (16 * w.ctx + 3)).length < 64 ∧ s.mem.leases = []) ∧
    (∃ (f : Form) (c : Ctx) (s : State) (w : Warp) (r : List Byte) (yard : Nat), f = engForm 1 4 ∧ c = issueCtx f s w ∧
      c.en ≠ 0 ∧ (w.kr 1).toNat % 32 = 0 ∧ s.gridOf w.blk = some 7 ∧ c.readPost w .g (w.kr 1) s = .ok (r, yard) ∧ GoesOn f 6 s w (CommitsEmpty s w) ∧
      w.blocked = [] ∧ (Tab.get (s.die (yard / 12)).tasks [] yard).length < 256 ∧ s.mem.leases = []) :=
  ⟨⟨.rinvT 1 20 2 30 7 6 1, _, _, _, _, _, _, _, _, _, works .u signer, signer, rfl, rfl, by decide +kernel, quiet_of (by decide +kernel),
      ready_of (by decide +kernel), by decide +kernel, rfl⟩,
    ⟨works .u signer, signer, by decide +kernel, by decide +kernel, by decide +kernel, quiet_of (by decide +kernel), ready_of (by decide +kernel),
      by decide +kernel, rfl⟩,
    ⟨.rinv 1 20 2 30 7 6 1, _, _, _, _, _, _, _, _, _, _, (works .u signed).apField offDevId 9 0 64, signed, rfl, rfl, rfl, by decide +kernel, rfl,
      goes_of (by decide +kernel), by decide +kernel, rfl, by decide +kernel⟩,
    ⟨.rinvT 1 20 2 30 7 6 1, _, _, _, _, _, _, _, _, _, _, (works .u signed).apField (offPort true 0 + 8) 27 24 5, signed, rfl, rfl, rfl, by decide +kernel,
      rfl, goes_of (by decide +kernel), by decide +kernel, rfl, by decide +kernel⟩,
    ⟨.rinv 1 20 2 30 7 6 1, _, _, _, _, _, _, _, _, _, _, works .u signed, signed, rfl, rfl, rfl, by decide +kernel, rfl, goes_of (by decide +kernel),
      by decide +kernel, rfl, by decide +kernel⟩,
    ⟨.rinvT 1 20 2 30 7 6 1, _, _, _, _, _, _, _, _, _, _, handled (works .u signed), signed, rfl, rfl, rfl, by decide +kernel, rfl,
      goes_of (by decide +kernel), by decide +kernel, rfl, by decide +kernel⟩,
    ⟨_, _, works .u signed, signed, List.replicate 64 0, paged 0x50000 256, rfl, rfl, by decide +kernel, by decide +kernel,
      launch_read ((State.engBytes_page (a := 0x2000) (key := 0x52000) rfl rfl rfl (of_okVal (by decide +kernel)) (by decide) (by decide)).trans
        (congrArg Except.ok (by decide +kernel))) (by decide +kernel) (by decide +kernel)
        (State.engBytes_page (a := Pkt.rec_ (List.replicate 64 0)) rfl rfl rfl (of_okVal (by decide +kernel)) (by decide +kernel) (by decide +kernel)) (by decide +kernel),
      goes_any (by decide +kernel), by decide +kernel⟩,
    _, _, works .u signed, signed, List.replicate 32 0, 4, rfl, rfl, by decide +kernel, by decide +kernel, by decide +kernel,
    post_read ((State.engBytes_page (a := 0x2000) (key := 0x52000) rfl rfl rfl (of_okVal (by decide +kernel)) (by decide) (by decide)).trans
        (congrArg Except.ok (by decide +kernel))) (by decide +kernel) (of_okVal (by decide +kernel)), goes_of (by decide +kernel), by decide +kernel⟩

theorem witness_MonitorRowsComplete : ∃ (s : State) (core ctx : Nat) (i : Intent), Tab.look (s.core core).intents ctx = some i :=
  ⟨(base .u).modCore 0 fun c => { c with intents := [(1, { rate := 5, due := 9, job := false })] }, 0, 1, _, rfl⟩

theorem witness_ClockRowsComplete :
    (∃ (s : State) (core : Nat), isService core = false ∧ (s.core core).queue = [] ∧ (s.core core).mat = [] ∧ (s.core core).copying = [] ∧
      (s.die (dieOfCore core)).opens = [] ∧ (s.die (dieOfCore core)).insts = [] ∧ (∀ e ∈ s.warps, coreOf e.1 = core → e.2.blocked = []) ∧
      ∃ e ∈ s.warps, coreOf e.1 = core) ∧
    (∃ s : State, (s.die 0).low = true ∧ ∀ c ∈ coresOfDie 0, (s.core c).hints = []) ∧
    (∃ s : State, s.apBits offBootStat 28 28 = 0) ∧ (∃ s : State, s.apBits offBootStat 28 28 = 1) ∧
    ∃ s : State, s.apBits offGovCal 0 0 = 0 ∧ s.dev.drawn ≠ 0 :=
  ⟨⟨base .u, 0, by decide +kernel⟩, ⟨(base .u).modDie 0 fun d => { d with low := true }, by decide +kernel⟩, ⟨base .u, by decide +kernel⟩,
    ⟨(base .u).apField offBootStat 28 28 1, by decide +kernel⟩, (base .u).modDev fun v => { v with drawn := 1 }, by decide +kernel⟩

/-- Two paths: lane 0 waits at a higher address, its warp at T_f. -/
def parted : Warp := { (warp .u).setPc 1 (fun _ => 0x2000) with fc := 1024 }

/-- Every lane has yielded. -/
def yielded : Warp := { warp .u with deferred := 0xFFFFFFFF }

theorem witness_SelectionRowsComplete :
    (∃ (s : State) (core sched : Nat), (s.core core).issued.contains sched = false ∧ s.readyOf core sched ≠ [] ∧
      ∀ e ∈ s.readyOf core sched, e.2.allDeferred = false ∧ s.warp? e.1 = some e.2) ∧
    (∃ (s : State) (core sched a b : Nat) (w v : Warp), (s.core core).issued.contains sched = false ∧ s.readyOf core sched = [(a, w), (b, v)] ∧
      s.warp? a = some w ∧ s.warp? b = some v ∧ s.choose (s.readyOf core sched) = some a ∧ a ≠ b ∧ w.allDeferred = true ∧ v.allDeferred = false) ∧
    (∃ (s : State) (core sched a : Nat) (w : Warp), (s.core core).issued.contains sched = false ∧ s.readyOf core sched = [(a, w)] ∧
      s.warp? a = some w ∧ w.allDeferred = true) ∧
    (∃ (s : State) (tf : Nat) (w : Warp), s.warp? 0 = some w ∧ s.turnTime w = some tf ∧ w.turn = none ∧ tf ≤ w.fc ∧ w.held ≠ 0) ∧
    (∃ (s : State) (p : Park) (w : Warp), Tab.look (s.die 0).park 3 = some p ∧ p.live = true ∧ s.warp? p.wid = some w ∧ w.parked = some (0 * 4096 + 3)) :=
  ⟨⟨base .u, 0, 0, by decide +kernel⟩, ⟨{ base .u with warps := [(0, yielded), (4, warp .u)] }, 0, 0, 0, 4, yielded, warp .u, by decide +kernel⟩,
    ⟨set (base .u) yielded, 0, 0, 0, yielded, by decide +kernel⟩,
    ⟨set (base .u) parted, 1024, parted, by decide +kernel⟩,
    (set (base .u) { warp .u with parked := some 3 }).modDie 0 fun d => { d with park := [(3, { wid := 0, next := 0xFFFF, cell := 0x52000 })] }, _,
    { warp .u with parked := some 3 }, rfl, by decide +kernel⟩

def polling : PollOp := { d := 4, cc := .eq, ui := false, acq := none, bo := 2, sp := .g, ea := 0x2000, b := 0, k := 1, due := 0, far := false, owed := 2 }
def waiting : MwaitOp := { d := 4, ge := true, acq := none, ea := 0x2000, b := 0, ver := 0, far := false, owed := 2 }
def blockedAt (lanes : Word) (x : Wait) : Blocked := { lanes := lanes, here := 0x1000, len := 12, what := x }
def pausing (x : Wait) : Warp := { warp .u with blocked := [blockedAt 1 x] }
def haltedWarp : Warp := { serviceWarp with blocked := [blockedAt 1 .halt] }
def halted : State := ({ service with warps := [(192 * 64, haltedWarp)] } : State).apSet (offDoor 0) 1

theorem witness_WaitRowsComplete :
    (∃ (s : State) (w : Warp) (b : Blocked) (p : PollOp), s.warp? 0 = some w ∧ s.awake w = true ∧ w.waitOf 0 = some b ∧ b.what = .poll p ∧
      p.owed = 2 ∧ s.ap! offInjMask = 0 ∧ s.leasedOut (lineOf 0x52000) = false ∧ s.waitRead 0 p.sp b.lanes p.ea 4 = .ok (0x52000, 0)) ∧
    (∃ (s : State) (w : Warp) (b : Blocked) (p : MwaitOp), s.warp? 0 = some w ∧ s.awake w = true ∧ w.waitOf 0 = some b ∧ b.what = .mwait p ∧
      p.owed = 2 ∧ s.ap! offInjMask = 0 ∧ s.leasedOut (lineOf 0x52000) = false ∧ s.waitRead 0 .g b.lanes p.ea 8 = .ok (0x52000, 0)) ∧
    (∃ (s : State) (w : Warp) (b : Blocked), (∀ e ∈ s.warps, coreOf e.1 = 192 + 0 → e = (64 * (192 + 0), w)) ∧
      s.warp? (64 * (192 + 0)) = some w ∧ s.awake w = true ∧ w.blocked = [b] ∧ b.what = .halt ∧ s.ap! (offDoor 0) ≠ 0) :=
  ⟨⟨set (base .u) (pausing (.poll polling)), pausing (.poll polling), _, polling, by decide +kernel, by decide +kernel, rfl, rfl, rfl,
      by decide +kernel, by decide +kernel, of_okVal (by decide +kernel)⟩,
    ⟨set (base .u) (pausing (.mwait waiting)), pausing (.mwait waiting), _, waiting, by decide +kernel, by decide +kernel, rfl, rfl, rfl,
      by decide +kernel, by decide +kernel, of_okVal (by decide +kernel)⟩,
    halted, haltedWarp, _, by decide +kernel, by decide +kernel, by decide +kernel, rfl, rfl, by decide +kernel⟩

def far : Warp := { pausing (.rinv 4 false 2 1 none false) with ewc := 2 ^ 20 }
def suspect : Warp := { warp .u with susp := some { trap := { cls := .user }, lanes := 3, mode := 1, pc := 0x1000, rpc := 0x1004, record := 0x2000, started := false, debugger := false } }

theorem witness_TimeoutRowsComplete :
    (∃ (s : State) (w : Warp), s.watchdogDue 0 1 = true ∧ s.ctxWarps 0 1 = [(0, w)] ∧ s.warp? 0 = some w ∧ isService 0 = false ∧
      s.ap! (offFltHnd 1) % 2 = 1 ∧ s.isHandler w = false ∧ w.rsb = [] ∧ w.turn = none) ∧
    (∃ (s : State) (w : Warp) (b : Blocked), s.warp? 0 = some w ∧ s.extwaitDue 0 w = true ∧ w.susp = none ∧ w.stopped = false ∧ w.blocked = [b] ∧
      farWait b.what = true ∧ isService (coreOf 0) = false ∧ s.ap! (offFltHnd w.ctx) % 2 = 1 ∧ s.isHandler w = false) ∧
    (∃ (s : State) (w : Warp) (p : Susp), s.warp? 0 = some w ∧ w.susp = some p ∧ p.started = false ∧ p.debugger = false ∧ p.record ≠ 0 ∧
      s.trapCore (coreOf 0) w.ctx = some 0 ∧ s.mem.leases = []) :=
  ⟨⟨set (handled (base .u)) { warp .u with lwc := 2 ^ 24 }, { warp .u with lwc := 2 ^ 24 }, by decide +kernel⟩,
    ⟨(set (handled (base .u)) far).apSet (offExtw 0) 0x114, far, _, by decide +kernel, by decide +kernel, rfl, rfl, rfl, by decide +kernel⟩,
    set (handled (base .u)) suspect, suspect, _, by decide +kernel, rfl, rfl, rfl, by decide, by decide +kernel⟩

def leaving : Warp := { warp .u with exited := 0xFFFFFFFF }
def empty : State := { base .u with warps := [], blocks := [(1, { block with grid := some 7 })], grids := [(7, grid)] }

theorem witness_RetirementRowsComplete :
    (∃ (s : State) (w : Warp), s.warp? 0 = some w ∧ w.exited = 0xFFFFFFFF ∧ w.rsb = [] ∧ isService (coreOf 0) = false ∧ NoneWaits s ∧
      ∃ b, s.block? w.blk = some b ∧ b.bars = []) ∧
    (∃ (s : State) (b : Block), s.block? 1 = some b ∧ s.warpsOfBlock 1 = [] ∧ s.blockBusy b.core 1 = false ∧ b.resident = true ∧ b.held = [] ∧
      b.grid = some 7 ∧ ∀ e ∈ s.blocks, ∀ k ∈ e.2.held, k ∈ e.2.banksA) ∧
    (∃ (s : State) (v : Grid), s.grid? 7 = some v ∧ v.complete = true ∧ s.gridWrites 7 = false ∧ v.src = none ∧ v.parent = none ∧ Rec.stamp v.record = 0) ∧
    (∃ (s : State) (v : Grid), s.grid? 7 = some v ∧ v.complete = true ∧ s.gridWrites 7 = false ∧ v.src = none ∧ v.parent = none ∧
      Rec.stamp v.record ≠ 0 ∧ Rec.stamp v.record % 8 = 0 ∧ s.mem.leases = [] ∧ s.ap! offInjMask = 0 ∧ s.mem.upset = [] ∧ isAp 0x52000 = false ∧
      s.place 0 v.ctx true .write (BitVec.ofNat 64 (Rec.stamp v.record)) = .ok 0x52000) ∧
    (∃ s : State, (∀ e ∈ s.blocks, e.2.ctx = 1 → s.ctxBusy e.2.core 1 = false) ∧ s.mem.leases = []) ∧
    (∃ (s : State) (b : Block), s.block? 1 = some b ∧ s.mayReturn 1 b = true ∧
      (∀ e ∈ s.gang 1 b, e = (1, b) ∨ (e.1 ≠ 1 ∧ e.2.core ≠ b.core)) ∧ s.mem.leases = []) :=
  ⟨⟨set (base .u) leaving, leaving, by decide +kernel, rfl, rfl, by decide, by unfold NoneWaits; decide +kernel, block, rfl, rfl⟩,
    ⟨empty, _, rfl, by decide +kernel, by decide +kernel, rfl, rfl, rfl, by decide +kernel⟩,
    ⟨{ base .u with grids := [(7, { grid with live := 0 })] }, _, rfl, by decide +kernel⟩,
    ⟨{ base .u with grids := [(7, { grid with live := 0, record := recorded.set 0xC1 0x20 })] }, _, rfl, by decide +kernel, by decide +kernel, rfl, rfl,
      by decide +kernel, by decide +kernel, rfl, by decide +kernel, rfl, by decide +kernel, of_okVal (by decide +kernel)⟩, ⟨base .u, by decide +kernel⟩,
    { base .u with warps := [], blocks := [(1, { block with resident := false, banksR := [3] })] }, _, rfl, by decide +kernel⟩

/-- Queue 0 of context 1 holds one packet at 0x52000, whose record of one block is at 0x3000. -/
def queued : State :=
  { base .u with
    mem := { memory with bytes := memory.bytes ++ [(0x52001, 0x30)] ++ (recorded.zipIdx.filter fun x => x.1 != 0).map fun x => (0x53000 + x.2, x.1) },
    ap := Tab.upd (Tab.upd (Tab.upd (base .u).ap (offLqBase 0) 0x52000) (offLqTail 0) 1) (offLqCfg 0) 0x8F004001,
    dev := { State.reset.dev with resident := [0] } }

def trigger : Trigger :=
  { ctx := 1, q := 3, entry := { packet := [], record := [], parent := none, depth := 1 }, inst := (0, 5), grids := [7] }
theorem witness_LaunchRowsComplete :
    (∃ s : State, s.dev.resident.contains 0 = true ∧ s.fatal = false ∧ s.qEnabled 0 = true ∧ s.pendingPackets 0 ≠ 0 ∧
      s.queueCut 0 = false ∧ (∀ l ∈ s.packetLines 0, s.leasedOut l = false) ∧ s.ap! offInjMask = 0 ∧ s.mem.upset = [] ∧ ∃ p r, s.packetAt 0 = some p ∧ Pkt.ok p = true ∧ Pkt.ser p = false ∧ Pkt.waits p = 0 ∧ Pkt.ndev p = 0 ∧
        s.readBytes 0 (s.qCtx 0) (BitVec.ofNat 64 (Pkt.rec_ p)) 256 = .ok r ∧ Rec.check r = 0 ∧ Rec.group r ≠ 4 ∧ Rec.pitch r = 0) ∧
    (∃ s : State, s.dev.resident.contains 1 = false ∧ s.dev.resident.length < 64) ∧
    (∃ (s : State) (e : DevEntry), s.fatal = false ∧ Tab.get s.dev.devq [] (16 * 1 + 3) = [e] ∧ Pkt.ser e.packet = false ∧ Pkt.waits e.packet = 0 ∧
      Rec.check e.record = 0 ∧ Rec.group e.record ≠ 4 ∧ e.depth ≤ 8 ∧ Rec.pitch e.record = 0 ∧ NoneWaits s) ∧
    (∃ (s : State) (tr : Trigger), s.dev.trigs = [tr] ∧ (Tab.get s.dev.devq [] (16 * tr.ctx + tr.q)).length < 64 ∧
      (∀ d < 4, ∀ o ∈ (s.die d).opens, o.kept = false) ∧ tr.grids = []) ∧
    (∃ (s : State) (tr : Trigger) (v : Grid), s.dev.trigs = [tr] ∧ (Tab.get s.dev.devq [] (16 * tr.ctx + tr.q)).length < 64 ∧
      (∀ d < 4, ∀ o ∈ (s.die d).opens, o.kept = false) ∧ tr.grids = [7] ∧ s.grid? 7 = some v) ∧
    (∃ s : State, s.fatal = false ∧ s.present 1 = true) :=
  ⟨⟨queued, by decide +kernel, by decide +kernel, by decide +kernel, by decide +kernel, by decide +kernel, by decide +kernel, by decide +kernel, rfl, (queued.packetAt 0).getD [], (List.range 256).map fun i => queued.mem.byte (0x53000 + i),
      by decide +kernel, by decide +kernel, by decide +kernel, by decide +kernel, by decide +kernel,
      State.readBytes_page (key := 0x53000) rfl rfl rfl (of_okVal (by decide +kernel)) (by decide +kernel), by decide +kernel⟩,
    ⟨base .u, by decide +kernel⟩,
    ⟨{ base .u with dev := { State.reset.dev with devq := [(19, [{ packet := leBytes 64 0, record := recorded, parent := none, depth := 8 }])] } }, _, by decide +kernel, rfl,
      by decide +kernel, by decide +kernel, by decide +kernel, by decide +kernel, by decide +kernel, by decide +kernel, by unfold NoneWaits; decide +kernel⟩,
    ⟨{ base .u with dev := { State.reset.dev with trigs := [{ trigger with grids := [] }] } }, _, rfl, by decide +kernel⟩,
    ⟨{ base .u with grids := [(7, grid)], dev := { State.reset.dev with trigs := [trigger] } }, _, grid, rfl, by decide +kernel⟩,
    (base .u).apSet (offPitch 1) 0x2000, by decide +kernel, by decide +kernel⟩

/-- A collective of two points of one axis: 4 096 elements of format 0, sharded over the axis and gathered. -/
def meshed : List Byte :=
  leBytes 6 5 ++ leBytes 2 0 ++ leBytes 40 0 ++ leBytes 4 0 ++ leBytes 4 0 ++ leBytes 2 2 ++ leBytes 6 0 ++ leBytes 4 4096 ++ leBytes 12 0
    ++ leBytes 2 1 ++ leBytes 14 0 ++ leBytes 2 0 ++ leBytes 30 0
def instance_ : CollInst :=
  { id := 60, core := 0, blk := 1, wid := 0, ctx := 1, priv := false, grid := some 7, desc := meshed, points := [4, 5], point := 0, rq := false, acts := [], met := [],
    left := [], placed := [], reduced := [], base := [], moved := false, got := [], lost := false, started := 0, status := none, reports := [] }
/-- Its first chunk counted down, with room for a reduce block, and with every pool bank taken. -/
def counted_ : State := (base .u).modDie 0 fun d => { d with insts := [{ instance_ with left := [(0, 0)] }] }
def crowded : State := (List.range 48).foldl (fun s c => s.modCore c fun k => { k with zeroing := List.range 48 }) counted_

/-- Grid 7 with a group to place; its continuation posted to yard 4; a die that serves no block yet. -/
def placing : State := { base .u with warps := [], blocks := [], grids := [(7, { grid with pending := [0], live := 0, dmask := 1 })] }
def continued : State := placing.modDie 0 fun d => { d with tasks := [(4, [{ grid := 7, ctx := 1, record := List.replicate 32 1 }])] }
def arrived : State := placing.modDie 0 fun d => { d with inbox := [{ entry with taken := none }] }

theorem witness_PlacementRowsComplete :
    (∃ (s : State) (v : Grid) (cores : List Nat), s.grid? 7 = some v ∧ v.pending.contains 0 = true ∧
      s.chooseUnit v.ctx v.dmask v.record (groupMembers v.record 0) = some cores ∧ cores.length = 1) ∧
    (∃ (s : State) (c : Cont) (v : Grid) (core : Nat), Tab.get (s.die (4 / 12)).tasks [] 4 = [c] ∧ s.grid? c.grid = some v ∧
      s.serves (4 / 12) = true ∧ NoneWaits s ∧ s.chooseCore v.record ((List.range 4).map (48 * (4 / 12) + 4 * (4 % 12) + ·)) c.ctx 1
        (Rec.rcb v.record + Rec.spb v.record + Rec.acb v.record) = some core) ∧
    (∃ (s : State) (core : Nat) (e : InboxEntry), (s.die 0).waiting = [e] ∧ e.warps = 1 ∧ s.idleHandlers 0 e.ctx e.hidx = [] ∧ s.serves 0 = true ∧
      (∀ x ∈ s.warps, x.2.blk < s.own.nextId) ∧ s.chooseCore [] (coresOfDie 0) e.ctx 1 ((e.rblk + 15) / 16) = some core) ∧
    (∃ (s : State) (i : CollInst) (core : Nat), s.grid? 60 = none ∧ s.collOf 60 = some (0, i) ∧ Tab.look i.left 0 = some 0 ∧
      i.placed.contains 0 = false ∧ s.reduceCore 0 i.ctx = some core) ∧
    (∃ (s : State) (i : CollInst), s.grid? 60 = none ∧ s.collOf 60 = some (0, i) ∧ Tab.look i.left 0 = some 0 ∧
      i.placed.contains 0 = false ∧ s.reduceCore 0 i.ctx = none) :=
  ⟨⟨placing, _, [0], rfl, rfl, by decide +kernel, rfl⟩,
    ⟨continued, { grid := 7, ctx := 1, record := List.replicate 32 1 }, { grid with pending := [0], live := 0, dmask := 1 }, 16, by decide +kernel, rfl, by decide +kernel, by unfold NoneWaits; decide +kernel, by decide +kernel⟩,
    ⟨arrived, 0, { entry with taken := none }, by decide +kernel, rfl, by decide +kernel, by decide +kernel, by decide +kernel, by decide +kernel⟩,
    ⟨counted_, { instance_ with left := [(0, 0)] }, 0, by decide +kernel⟩, crowded, { instance_ with left := [(0, 0)] }, by decide +kernel⟩

/-- Context 1 with its pitch table at 0x2000: handler 0 at 0x1004 with a ring at 0x3000 of four records, one of them waiting; its inbox takes
one record. -/
def pitched : State :=
  { base .u with
    mem := { memory with bytes := memory.bytes ++ [(0x52000, 0x05), (0x52001, 0x10), (0x52008, 1), (0x52009, 16), (0x5200A, 1), (0x52011, 0x30),
      (0x52020, 0x05), (0x52021, 0x10), (0x52028, 1), (0x52029, 16), (0x53000, 1), (0x53008, 4)] },
    ap := Tab.upd (Tab.upd (base .u).ap (offPitch 1) 0x2000) (offRivLim 1 0) 1 }
def invocation : Invoke :=
  { sdev := 1023, sdie := 0, score := 0, ctx := 1, die := 0, hidx := 1, cls := 0, narg := 1, args := [7, 0, 0, 0, 0, 0], seq := 1, wid := 0 }
def asking : Warp := pausing (.rinv 4 false 2 1 none false)
def listAt (s : State) (key n : Nat) : List Byte := (List.range n).map fun i => s.mem.byte (key + i)

theorem witness_InvocationRowsComplete :
    (∃ s : State, invocation.sdev = s.devId ∧ s.fatal = true) ∧ (∃ s : State, invocation.sdev = s.devId ∧ s.fatal = false ∧ s.present 1 = false) ∧
    (∃ (s : State) (e : List Byte), invocation.sdev = s.devId ∧ s.fatal = false ∧ s.present 1 = true ∧ s.pitchEntry 0 1 1 = some e ∧ Pitch.ok e = true ∧
      Pitch.policy e ≠ 1 ∧ s.inboxRoom 0 1 = true ∧ (∀ l ∈ s.ringLines 0 1 1 true, s.leasedOut l = false) ∧ s.ap! offInjMask = 0 ∧ s.mem.upset = []) ∧
    (∃ (s : State) (w : Warp) (b : Blocked), s.warp? 0 = some w ∧ s.awake w = true ∧ w.blocked = [b] ∧ b.lanes ≠ 0 ∧
      b.what = .rinv 4 false 2 1 none false) ∧
    (∃ (s s' : State) (e r : List Byte), s.mem.leases = [] ∧ s.mem.upset = [] ∧ s.inboxRoom 0 1 = true ∧ s.pitchEntry 0 1 0 = some e ∧ Pitch.ok e = true ∧
      s.ringHeader 0 1 (Pitch.ring e) = some (1, 0, 4) ∧
      s.readBytes (48 * 0) 1 (BitVec.ofNat 64 (Pitch.ring e + 0x40 + 64 * (0 % 4))) 64 = .ok r ∧
      s.dieWrite 0 1 (Pitch.ring e + 4) (leBytes 4 (0 + 1)) = some s') :=
  ⟨⟨(base .u).apField offFltStat 10 10 1, by decide +kernel⟩, ⟨base .u, by decide +kernel⟩,
    ⟨pitched, listAt pitched 0x52020 32, by decide +kernel, by decide +kernel, by decide +kernel,
      by rw [State.pitchEntry, State.readBytes_page (key := 0x52020) rfl rfl rfl (of_okVal (by decide +kernel)) (by decide +kernel)]; rfl,
      by decide +kernel, by decide +kernel, by decide +kernel, fun _ _ => rfl, by decide +kernel, rfl⟩,
    ⟨set (base .u) asking, asking, _, by decide +kernel, by decide +kernel, rfl, by decide, rfl⟩,
    pitched, _, listAt pitched 0x52000 32, listAt pitched 0x53040 64, rfl, rfl, by decide +kernel,
    by rw [State.pitchEntry, State.readBytes_page (key := 0x52000) rfl rfl rfl (of_okVal (by decide +kernel)) (by decide +kernel)]; rfl,
    by decide +kernel,
    by rw [State.ringHeader, State.readBytes_page (key := 0x53000) rfl rfl rfl (of_okVal (by decide +kernel)) (by decide +kernel)]; decide +kernel,
    State.readBytes_page (key := 0x53040) rfl rfl rfl (of_okVal (by decide +kernel)) (by decide +kernel),
    (Option.eq_some_of_isSome (by decide +kernel))⟩

theorem witness_HomeRequestsComplete :
    (∃ s : State, populated 0x52000 = true ∧ s.leasedOut (lineOf 0x52000) = false ∧ s.mem.poisoned (lineOf 0x52000) = false ∧ s.ap! offInjMask = 0 ∧
      s.mem.upset = [] ∧ 0x52000 % atmBytes .add64 = 0) ∧
    (∃ s : State, populated 0x52000 = true ∧ s.leasedOut (lineOf 0x52000) = false ∧ s.mem.poisoned (lineOf 0x52000) = true ∧ s.ap! offInjMask = 0 ∧ s.mem.upset = []) ∧
    (∃ (s : State) (e : Nat × Nat), populated 0x52000 = true ∧ s.leasedOut (lineOf 0x52000) = false ∧ s.mem.upset = [e] ∧
      e.1 / 16 = lineOf 0x52000 ∧ e.2 = 0 ∧ s.ap! offInjMask = 0) :=
  ⟨⟨base .u, by decide +kernel⟩, ⟨{ base .u with mem := { memory with poison := [lineOf 0x52000] } }, by decide +kernel⟩,
    { base .u with mem := { memory with upset := [(16 * lineOf 0x52000, 0)] } }, _, by decide +kernel, by decide +kernel, rfl, by decide +kernel⟩

def lease (dev : Option Nat) (line : Nat) : Lease := { line := line, dev := dev, core := 0, ctx := 1, granted := 0, used := 0, recalled := false }
def leasing (dev : Option Nat) (line : Nat) : State :=
  { base .u with mem := { memory with leases := [lease dev line] }, dev := { State.reset.dev with beat := 102400 } }

theorem witness_LeaseRowsComplete :
    (∃ (s : State) (l : Lease), populated 0x52000 = true ∧ s.leaseOf (lineOf 0x52000) = some l ∧ l.dev = some (9 % 1024) ∧ s.ap! offInjMask = 0 ∧ s.elapsed l.granted 64 = true) ∧
    (∃ (s : State) (line : Nat) (l : Lease), s.myLease line = some l ∧ s.ap! offInjMask = 0 ∧ s.elapsed l.used 16 = true ∧ s.elapsed l.granted 48 = true) :=
  ⟨⟨leasing (some 9) (lineOf 0x52000), lease (some 9) (lineOf 0x52000), by decide +kernel, by decide +kernel, rfl, by decide +kernel⟩,
    leasing none (lineOf (keyPeer 3 0x2000)), lineOf (keyPeer 3 0x2000), lease none (lineOf (keyPeer 3 0x2000)), by decide +kernel, by decide +kernel, by decide +kernel⟩

def remote : AtomOp := { kind := .atm .add64, d := 4, key := keyPeer 3 0x2000, b := 1, c := 0, ord := .ar, sc := .sy }
def remoteWarp : Warp := pausing (.ratm remote none)

theorem witness_FabricRowsComplete :
    (∃ (s : State) (line : Nat), isRemote (line * 128) = true ∧ NoneWaits s ∧ s.ap! offInjMask = 0 ∧ s.mem.upset = [] ∧
      s.mem.frameFor (s.victim line) line ≠ none) ∧
    (∃ (s : State) (w : Warp) (b : Blocked), s.warp? 0 = some w ∧ w.blocked = [b] ∧ laneIn b.lanes 0 = true ∧ b.what = .ratm remote none ∧
      s.ap! offInjMask = 0 ∧ s.awake w = true) ∧
    (∃ (s : State) (w : Warp) (b : Blocked), s.warp? 0 = some w ∧ w.blocked = [b] ∧ laneIn b.lanes 0 = true ∧ b.what = .ratm remote none ∧
      s.ap! offInjMask = 0 ∧ s.awake w = false) ∧
    (∃ s : State, s.apBits offGovJob 63 63 = 1 ∧ s.apBits offGovJob 61 52 ≤ 5 ∧ 5 < s.apBits offGovJob 61 52 + s.apBits offGovJob 41 32 ∧
      s.holdsJob = false) ∧
    (∃ s : State, s.portState true 35 = 5 ∧ s.mem.leases = [] ∧ NoneWaits s ∧
      (∀ q < 36, q ≠ 35 → s.portState true q = 5 → s.apBits (offPort true q + 0x10) 9 0 ≠ s.apBits (offPort true 35 + 0x10) 9 0) ∧
      ∀ d < 4, (s.die d).roots = [] ∧ (s.die d).opens = [] ∧ (s.die d).insts = []) ∧
    (∃ s : State, s.ap! offInjMask = 0 ∧ Tab.get s.dev.replayed 0 (64 * 1 + 35) + 1 < 32) ∧
    (∃ s : State, s.ap! offInjMask = 0 ∧ s.portState true 35 = 5 ∧ Tab.get s.dev.replayed 0 (64 + 35) = 31 ∧ NoneWaits s) ∧
    (∃ s : State, s.ap! offInjMask = 0 ∧ s.mem.upset = [] ∧ ∀ i < 2, populated (0x52000 + i) = true ∧ s.leasedOut (lineOf (0x52000 + i)) = false ∧
      s.mem.poisoned (lineOf (0x52000 + i)) = false) ∧ populated (96 * 2 ^ 30 + 0) = false :=
  ⟨⟨base .u, lineOf (keyPeer 3 0x2000), by decide +kernel, by unfold NoneWaits; decide +kernel, by decide +kernel, rfl,
      Machine.Mem.frameFor_empty _ _ rfl rfl⟩,
    ⟨set (base .u) remoteWarp, remoteWarp, _, by decide +kernel, rfl, by decide, rfl, by decide +kernel⟩,
    ⟨set (base .u) { remoteWarp with stopped := true }, { remoteWarp with stopped := true }, _, by decide +kernel, rfl, by decide, rfl, by decide +kernel⟩,
    ⟨(((base .u).apField offGovJob 63 63 1).apField offGovJob 61 52 4).apField offGovJob 41 32 2, by decide +kernel⟩,
    ⟨(base .u).apField (offPort true 35 + 8) 27 24 5, by decide +kernel, rfl, by unfold NoneWaits; decide +kernel, by decide +kernel, by decide +kernel⟩,
    ⟨base .u, by decide +kernel⟩,
    ⟨{ (base .u).apField (offPort true 35 + 8) 27 24 5 with dev := { State.reset.dev with replayed := [(99, 31)] } }, by decide +kernel, by decide +kernel,
      by decide +kernel, by unfold NoneWaits; decide +kernel⟩,
    ⟨base .u, by decide +kernel⟩, by decide +kernel⟩

def spilled : Warp := { warp .u with clean := [3] }

/-- Its data have met the page's error; an operation whose passes go through macro 5. -/
def consuming : Warp := { warp .u with needs := some { t := { cls := .ue, aux := 0x52000 }, lanes := 3, pc := 0x1000, done := true } }
def passing : MatOp :=
  { kind := .mm false false ⟨0, 0, 0, 0, 8, 0, 0, 0⟩ 0 0 0 [] ⟨5, 1, 1, 63⟩ 1, blk := 1, wid := 0, ctx := 1, priv := false, tag := 63, opid := 41, begun := true, fetched := false,
    due := [(16, 1)], at_ := 0, count := 0, rows := [], bad := none, since := 7, wblk := 1 }

theorem witness_ErrorRowsComplete :
    (∃ s : State, lineOf 0x52000 < 2 ^ 41 ∧ populated (lineOf 0x52000 * 128) = true ∧ Tab.look s.mem.dirty (lineOf 0x52000) = none ∧ s.ap! offInjMask = 0 ∧
      ∀ e ∈ s.mem.upset, e.1 / 16 ≠ lineOf 0x52000) ∧
    (∃ s : State, s.ap! offInjMask = 0 ∧ ∃ e ∈ s.mem.upset, e.1 / 16 = lineOf 0x52000 ∧ e.2 = 0) ∧
    (∃ (s : State) (w : Warp) (n : Need), s.warp? 0 = some w ∧ w.ctx < 4096 ∧ w.needs = some n ∧ n.t.aux.toNat / 128 = lineOf 0x52000 ∧
      isService (coreOf 0) = false ∧ s.ap! (offFltHnd w.ctx) % 2 = 1 ∧ s.isHandler w = false) ∧
    (∃ (s : State) (w : Warp), s.warp? 0 = some w ∧ w.ctx < 4096 ∧ w.needs = none) ∧
    (∃ s : State, Tab.look s.mem.dirty (lineOf 0x52000) = some 1 ∧ ∀ e ∈ s.grids, e.2.ctx ≠ 1) ∧
    (∃ (s : State) (w : Warp), s.warp? 0 = some w ∧ w.ctx < 4096 ∧ 3 < w.regs ∧ w.clean.contains 3 = true) ∧
    (∃ (s : State) (w : Warp), s.warp? 0 = some w ∧ w.ctx < 4096 ∧ 3 < w.regs ∧ w.clean.contains 3 = false ∧
      laneIn (Tab.get w.wr 0 3) 31 = false ∧ isService (coreOf 0) = false ∧ ∀ e ∈ s.grids, e.2.ctx ≠ w.ctx) ∧
    (∃ (s : State) (b : Block), s.block? 1 = some b ∧ b.ctx < 4096 ∧ Rec.restart b.record = true) ∧
    (∃ s : State, (s.core 0).mat = [] ∧ s.grids = []) ∧
    (∃ (s : State) (o : MatOp) (w : Warp), (s.core 0).passing 5 = some o ∧ o.ctx < 4096 ∧ s.warp? o.wid = some w ∧ w.blk = o.wblk ∧ w.blocked = [] ∧
      o.tag < 64 ∧ (Tab.look (s.core 0).tags o.ctx).isSome = true) :=
  ⟨⟨base .u, by decide +kernel⟩, ⟨{ base .u with mem := { memory with upset := [(16 * lineOf 0x52000, 0)] } }, by decide +kernel⟩,
    ⟨set (handled (base .u)) consuming, consuming, _, by decide +kernel, by decide, rfl, by decide +kernel⟩, ⟨base .u, warp .u, by decide +kernel⟩, ⟨{ base .u with mem := { memory with dirty := [(lineOf 0x52000, 1)] } }, by decide +kernel⟩,
    ⟨set (base .u) spilled, spilled, by decide +kernel⟩, ⟨base .u, warp .u, by decide +kernel⟩,
    ⟨{ base .u with blocks := [(1, { block with record := recorded.set 8 0x33 })] }, _, rfl, by decide +kernel⟩,
    ⟨base .u, by decide +kernel⟩,
    (base .u).modCore 0 fun c => { c with mat := [passing], tags := [(1, { done := 0, flight := 0x8000000000000000 })] }, passing, warp .u, by decide +kernel⟩

theorem witness_ControlWritesComplete :
    (∃ s : State, s.apBits offInvCtl 30 30 = 0 ∧ s.apBits offFltKill 30 30 = 0 ∧ (∀ e ∈ s.grids, e.2.ctx ≠ (0x80000001 : BitVec 32).toNat % 4096) ∧
      s.apBits offDbgCtl 62 62 = 0 ∧ s.ap! offInjMask = 0 ∧ s.apBits offMeasCmd 30 30 = 0 ∧ s.apBits offBootStat 30 30 = 0) ∧
    ((∃ (s : State) (i : Inval), s.dev.inval = some i ∧ s.unperformed i.ctx = false) ∧
      ∃ (s : State) (i : Inval), s.dev.inval = some i ∧ s.unperformed i.ctx = true) ∧ (∃ s : State, s.apBits offFltKill 30 30 = 1) ∧
    (∃ s : State, s.apBits (offPgret 255) 63 63 = 1) ∧
    (∃ (s : State) (w : Warp) (v : BitVec 64) (wid : Nat), wid = 64 * (48 * bitsOf v.toNat 61 60 + bitsOf v.toNat 59 54) + bitsOf v.toNat 53 48 ∧
      v.getLsbD 63 = true ∧ s.apBits offDbgCtl 62 62 = 1 ∧ s.apBits offDbgCtl 61 61 = 0 ∧
      (∀ e ∈ s.warpsOfCtx (s.apBits offDbgCtl 11 0), e.2.stopped = true) ∧ s.apBits offDbgRegw 62 62 = 0 ∧ s.apBits offDbgCtl 63 63 = 1 ∧
      bitsOf v.toNat 59 54 < 48 ∧ s.warp? wid = some w ∧ w.stopped = true ∧ w.ctx = s.apBits offDbgCtl 11 0 ∧ bitsOf v.toNat 47 39 < w.regs ∧
      w.loads = []) ∧
    (∃ (s : State) (e : Extend), s.dev.extend = some e ∧ e.idx < 16 ∧ e.idx ≠ 7) ∧
    (∃ (s : State) (e : Extend), s.dev.extend = some e ∧ e.idx = 7) :=
  ⟨⟨base .u, by decide +kernel⟩,
    ⟨⟨{ base .u with dev := { State.reset.dev with inval := some { ctx := 1, lo := 0, hi := 4 } } }, _, rfl, by decide +kernel⟩,
      { set (base .u) { warp .u with rsb := [.byte .g 0 0 0 3] } with
        dev := { State.reset.dev with inval := some { ctx := 1, lo := 0, hi := 4 } } }, _, rfl, by decide +kernel⟩,
    ⟨(base .u).apField offFltKill 30 30 1, by decide +kernel⟩, ⟨(base .u).apField (offPgret 255) 63 63 1, by decide +kernel⟩,
    ⟨(set (base .u) { warp .u with stopped := true }).apSet offDbgCtl 0xC000000000000001, { warp .u with stopped := true }, 0x800001F8DEADBEEF, 0,
      by decide +kernel⟩,
    ⟨{ base .u with dev := { State.reset.dev with extend := some { idx := 15, digest := [] } } }, _, rfl, by decide⟩,
    { base .u with dev := { State.reset.dev with extend := some { idx := 7, digest := [] } } }, _, rfl, rfl⟩

/-- A configuration image without writes, with a floor of 7 500, signed by an implementation of the signature standard that is not the
model's. -/
def config : List Byte :=
  leBytes 4 0x4B434647 ++ leBytes 4 0 ++ leBytes 8 7500 ++
  (leBytes 97 0x04fbf96095915eb587390f850ec95b35f618ae121c72a70808ad8f9f4c261b602b63541743e395f7c778e52bb28c18dc83016a6ff3f72c9368326ad50a3bd148a53cd2213bb480e4730ad019db87ae100995ec65df011e19811a15dc9ddfc9ab3c).reverse ++
  (leBytes 96 0x77a41d4606ffa1464793c7e5fdc7d98cb9d3910202dcd06bea4f240d3566da6b408bbae5026580d02d7e5c70500c83170275d1f635660f58041f20bb98055a81efa9b9094fcad1b82e1d3bd28cecd20465346f163641f54b8b3c07b7c4bd3c5).reverse

/-- R433: the signature of a signed image verifies, and fails with another floor. -/
theorem test_signature : Cfg.verified config = true ∧ Cfg.verified (config.set 8 0) = false := by
  constructor <;> decide +kernel

theorem config_plain : Cfg.plain config = true := by decide +kernel

theorem witness_BringupRowsComplete :
    (Cfg.ok config = true ∧ Cfg.verified config = true ∧ Cfg.plain config = true ∧ Cfg.ok [] = false ∧ Cfg.verified (config.set 8 0) = false) ∧
    (∃ (s : State) (v : BitVec 32), v.getLsbD 31 = true ∧ s.apBits (offMemStat 3) 29 29 = 0 ∧ 1 ≤ bitsOf v.toNat 3 0 ∧ bitsOf v.toNat 3 0 ≤ s.apBits (offMemStat 3) 19 16 + 1 ∧
      s.apBits (offMemStat 3) 19 16 < 6) ∧
    (∃ s : State, s.apBits (offMemStat 3) 29 29 = 1 ∧ (s.die 3).step < 6) ∧ (∃ s : State, s.apBits (offMemStat 3) 29 29 = 1 ∧ (s.die 3).step = 6) ∧
    (∃ (s : State) (v : BitVec 32), v.getLsbD 31 = true ∧ v.toNat / 256 % 4 < 2 ∧ s.portState false 3 = 0 ∧ s.portState true 35 = 0 ∧ s.devId ≠ 1023) ∧
    (∃ v : BitVec 32, 2 ≤ v.toNat / 256 % 4) ∧
    (∃ (s : State) (v : BitVec 32), v.getLsbD 31 = false ∧ v.toNat % 256 = 0 ∧ v.toNat / 256 % 4 < 2 ∧ s.portState true 35 ≠ 5) ∧
    (∃ s : State, s.portState false 3 = 5) ∧ (∃ s : State, s.portState true 35 = 1) ∧
    (∃ s : State, s.portState true 35 = 2 ∧ 4 ≤ laneCount (0xFF &&& BitVec.ofNat 8 (s.apBits (offPort true 35) 7 0)) ∧ laneCount (0 &&& BitVec.ofNat 8 (s.apBits (offPort true 35) 7 0)) < 4) ∧
    (∃ s : State, s.portState true 35 = 3) ∧ (∃ s : State, s.portState true 35 = 4) :=
  ⟨⟨by decide +kernel, test_signature.1, config_plain, by decide +kernel, test_signature.2⟩, ⟨base .u, 0x80000001, by decide +kernel⟩,
    ⟨(base .u).apField (offMemStat 3) 29 29 1, by decide +kernel⟩,
    ⟨((base .u).apField (offMemStat 3) 29 29 1).modDie 3 fun d => { d with step := 6 }, by decide +kernel⟩,
    ⟨(base .u).apField offDevId 9 0 1, 0x80000000, by decide +kernel⟩, ⟨0x80000200, by decide +kernel⟩, ⟨base .u, 0, by decide +kernel⟩,
    ⟨(base .u).apField (offPort false 3 + 8) 27 24 5, by decide +kernel⟩, ⟨(base .u).apField (offPort true 35 + 8) 27 24 1, by decide +kernel⟩,
    ⟨((base .u).apField (offPort true 35 + 8) 27 24 2).apField (offPort true 35) 7 0 0xFF, by decide +kernel⟩,
    ⟨(base .u).apField (offPort true 35 + 8) 27 24 3, by decide +kernel⟩, (base .u).apField (offPort true 35 + 8) 27 24 4, by decide +kernel⟩

theorem witness_RegisterRowsComplete : (∀ i < 8, regAt (0x3FFFFF0 + i) = none) ∧
    (∃ r : Reg, (∀ i < r.bytes, regAt (r.base + i) = some r) ∧ r.kind = .plain ∧ r.rw &&& r.w1c = 0 ∧ r.rw < 2 ^ 64 ∧ r.w1c < 2 ^ 64 ∧ r.bytes ≤ 8 ∧ r.rw ≠ 0) ∧
    (∃ r : Reg, (∀ i < r.bytes, regAt (r.base + i) = some r) ∧ r.kind = .plain ∧ r.rw &&& r.w1c = 0 ∧ r.rw < 2 ^ 64 ∧ r.w1c < 2 ^ 64 ∧ r.bytes ≤ 8 ∧ r.w1c ≠ 0) ∧
    (∃ s : State, s.apBits offInvCtl 31 31 = 0 ∧ s.apBits offMeasCmd 31 31 = 0) ∧ bitsOf (2 ^ 62) 63 62 = 1 ∧
    ∃ (s : State) (w : Warp), s.warp? 0 = some w ∧ s.apBits offDbgRegw 62 62 = 0 :=
  ⟨by decide +kernel, ⟨(regAt (offGovFloor 3)).get (by decide +kernel), by decide +kernel⟩, ⟨(regAt offFltStat).get (by decide +kernel), by decide +kernel⟩,
    ⟨base .u, by decide +kernel⟩, by decide, base .u, warp .u, by decide +kernel⟩

/-- A copy of 64 bytes from scratchpad offset 0 to 0x100, all but its tag done. -/
def moving : CopyCmd :=
  { kind := 0, blk := 1, wid := 0, ctx := 1, priv := false, d := 0x100, a := 0, b := 0, c := 64, tag := 63, sh := false, dh := false, ss := true, ds := true,
    lb := 0, hsrc := [], hdst := [], grid := some 7, own := false, opid := 40, due := [] }
def copying : State :=
  (works .u (warp .u)).modCore 0 fun c => { c with q0 := [moving], copying := [moving], tags := [(1, { done := 0, flight := 0x8000000000000000 })] }

theorem witness_CopyEngineComplete :
    (∃ (s : State) (o : CopyCmd), (s.core 0).q0 = [o] ∧ NoneWaits s ∧ o.tag < 64 ∧ (Tab.look (s.core 0).tags o.ctx).isSome = true) ∧
    (∃ (s : State) (o : CopyCmd), (s.core 0).q0 = [o] ∧ o.kind = 0 ∧ o.sh = false ∧ o.dh = false ∧ o.c.toNat % 2 ^ 32 = 0 ∧ NoneWaits s ∧ o.tag < 64 ∧
      (Tab.look (s.core 0).tags o.ctx).isSome = true) ∧
    (∃ (s : State) (o : CopyCmd) (b : Block), (s.core 0).copying.find? (fun x => x.opid == 40) = some o ∧ o.kind = 0 ∧ o.sh = false ∧ o.dh = false ∧
      o.ss = true ∧ o.ds = true ∧ nextDue o.due = none ∧ o.tag < 64 ∧ s.ap! offInjMask = 0 ∧ s.mem.leases = [] ∧ s.block? o.blk = some b ∧
      (Tab.look (s.core 0).tags o.ctx).isSome = true ∧ o.a.toNat % 2 ^ 32 + o.c.toNat % 2 ^ 32 ≤ s.spadSize o.blk ∧
      o.d.toNat % 2 ^ 32 + o.c.toNat % 2 ^ 32 ≤ s.spadSize o.blk) ∧
    (∃ (s : State) (o : CopyCmd) (w : Warp), (s.core 0).mat = [] ∧ (s.core 0).copying.find? (fun x => x.opid == 40) = some o ∧ s.warp? o.wid = some w ∧
      w.blk = o.blk ∧ w.blocked = [] ∧ o.tag < 64) ∧
    (∃ (s : State) (o : MatOp) (w : Warp), (s.core 0).mat.find? (fun x => x.opid == 41) = some o ∧ s.warp? o.wid = some w ∧ w.blk = o.wblk ∧
      w.blocked = [] ∧ o.tag < 64) :=
  ⟨⟨copying, moving, by decide +kernel, by unfold NoneWaits; decide +kernel, by decide +kernel⟩,
    ⟨(copying.modCore 0 fun c => { c with q0 := [{ moving with c := 0 }] }), { moving with c := 0 }, by decide +kernel, rfl, rfl, rfl, by decide,
      by unfold NoneWaits; decide +kernel, by decide +kernel⟩,
    ⟨copying, moving, worker, by decide +kernel, rfl, rfl, rfl, rfl, rfl, rfl, by decide, by decide +kernel, rfl, rfl, by decide +kernel⟩,
    ⟨copying, moving, warp .u, by decide +kernel⟩,
    (base .u).modCore 0 fun c => { c with mat := [passing] }, passing, warp .u, by decide +kernel⟩

def clearing (kind : MatKind) (begun : Bool) (due : List (Nat × Nat)) : MatOp :=
  { kind := kind, blk := 1, wid := 0, ctx := 1, priv := false, tag := 64, opid := 41, begun := begun, fetched := false, due := due, at_ := 0, count := 0,
    rows := [], bad := none, since := 7 }
def engine (o : MatOp) : State := (works .u (warp .u)).modCore 0 fun c => { c with mat := [o] }

theorem witness_MatrixEngineComplete :
    (∃ s : State, (s.core 0).mat = [clearing (.accZ 72) true [(16, 5 + 2)]] ∧ (s.core 0).engineWaits 0 = false ∧ s.canPay 0 16 = true ∧
      s.ap! offInjMask = 0 ∧
      s.mayStep 0 (clearing (.accZ 72) true [(16, 5 + 2)]) = true ∧ 7 ≠ (s.die (dieOfCore 0)).clk.toNat) ∧
    (∃ (s : State) (o : MatOp), (s.core 0).mat = [o] ∧ (∃ slot set, o.kind = .mm false false slot 0 0 0 [] set 1) ∧ o.members - o.at_ % o.members = 1 ∧
      s.mayStep 0 o = true ∧ o.since ≠ (s.die (dieOfCore 0)).clk.toNat ∧ o.begun = true ∧ o.due = [(16, 0 + 2)] ∧
      (s.core 0).engineWaits 0 = false ∧ s.canPay 0 16 = true) ∧
    (∃ (s : State) (o : MatOp), (s.core 0).mat = [o] ∧ o.kind = .accZ 72 ∧ o.paid = true ∧ o.bad = none) ∧
    (∃ (s : State) (o : MatOp), (s.core 0).mat = [o] ∧ o.kind = .zero 18 ∧ o.paid = true ∧ o.bad = none ∧ o.tag = 64 ∧ NoneWaits s) :=
  ⟨⟨engine (clearing (.accZ 72) true [(16, 7)]), by decide +kernel⟩,
    ⟨engine { passing with due := [(16, 2)] }, { passing with due := [(16, 2)] }, by decide +kernel, ⟨_, _, rfl⟩, by decide +kernel⟩,
    ⟨engine (clearing (.accZ 72) true []), clearing (.accZ 72) true [], by decide +kernel, rfl, by decide +kernel, rfl⟩,
    engine (clearing (.zero 18) true []), clearing (.zero 18) true [], by decide +kernel, rfl, by decide +kernel, rfl, rfl, by unfold NoneWaits; decide +kernel⟩

/-- Core 0 of device 1 has a reduction of one element at its q1: the descriptor at 0x2000, its two members at 0x2100. -/
def summing : CollCmd :=
  { isRsum := true, blk := 1, wid := 0, ctx := 1, priv := false, src := 0x3000, desc := 0x2000, rq := false, ss := false, opid := 50 }
def collecting : State :=
  ({ works .u (warp .u) with
      mem := { memory with frames := [(0, 512), (1, 1024), (2, 1536), (3, 2048), (4, 2624), (5, 2626), (6, 2656)], bytes := memory.bytes ++ [(0x52000, 5), (0x5201C, 1), (0x52024, 2), (0x52029, 0x21), (0x52100, 1), (0x52104, 1), (0x52105, 0x10)] },
      ap := Tab.upd (base .u).ap offDevId 1 } : State).modCore 0 fun c => { c with q1 := [summing] }
def taken : State :=
  ((collecting.drawLines 0 [512, 1024, 1536, 2048, 2624, 2626, 2656]).modCore 0 fun k => { k with q1 := k.q1.drop 1 }).modDie 0 fun x => { x with q1rot := coreInDie 0 }

def part : Contrib :=
  { desc := 0x2000, seq := 5, op := 0, tree := 0, count := 1, nmem := 2, dst := 0, stamp := 0, memt := 0x2100, trp := false, tmo := 9, trig := 0, lpkt := 0,
    rank := 0, data := [3], srcOk := true, ctx := 1, home := 2, die := 0, wid := 0, blk := 1, grid := 7, rq := false, priv := false, root := 0 }
def rooted : State := (base .u).modDie 0 fun d => { d with roots := [{ desc := 0x2000, ctx := 1, seq := 5, parts := [part], started := 0 }] }

def joined : State := { base .u with dev := { State.reset.dev with beat := 2 ^ 31 } }.modDie 0 fun d => { d with insts := [instance_] }

/-- What the engine reads for the command, by the page that its descriptor and its members share. -/
theorem sum_read {s : State} {o : CollCmd} {d t : List Byte} {n lead : Nat} (hd : o.desc.toNat % 64 = 0) (h : s.engBytes (o.eng 0) .g o.desc.toNat 64 = .ok d)
    (hok : Red.ok d = true) (ht : s.engBytes (o.eng 0) .g (Red.memt d : Nat) (4 * Red.nmem d) = .ok t)
    (hall : ((List.range (Red.nmem d)).map fun i => leAt t (4 * i) 4).all Red.memberOk = true)
    (hdist : (distinct ((List.range (Red.nmem d)).map fun i => leAt t (4 * i) 4)).length = ((List.range (Red.nmem d)).map fun i => leAt t (4 * i) 4).length)
    (hr : (List.range ((List.range (Red.nmem d)).map fun i => leAt t (4 * i) 4).length).find?
      (fun i => ((List.range (Red.nmem d)).map fun i => leAt t (4 * i) 4).getD i 0 == s.memberOf 0) = some n)
    (hl : ((List.range (Red.nmem d)).map fun i => leAt t (4 * i) 4).getD 0 0 % 1024 = lead) : s.readSum 0 o = .ok (d, n, lead) := by
  unfold State.readSum
  simp only [hd, ne_eq, not_true_eq_false, if_false, h, hok, Bool.not_true, Bool.false_eq_true, ht, hall, hdist, decide_false, Bool.or_false, hr, hl]

def sumRecord : List Byte :=
  [5] ++ List.replicate 27 0 ++ [1] ++ List.replicate 7 0 ++ [2] ++ List.replicate 4 0 ++ [0x21] ++ List.replicate 22 0
def sumMembers : List Byte := [1, 0, 0, 0, 1, 0x10, 0, 0]
theorem collecting_first : taken.engBytes (summing.eng 0) .g (0x2000 : Nat) 64 = .ok sumRecord :=
  (State.engBytes_page (key := 0x52000) rfl rfl rfl (of_okVal (by decide +kernel)) (by decide) (by decide)).trans (congrArg Except.ok (by decide +kernel))
theorem collecting_table : taken.engBytes (summing.eng 0) .g (0x2100 : Nat) 8 = .ok sumMembers :=
  (State.engBytes_page (key := 0x52100) rfl rfl rfl (of_okVal (by decide +kernel)) (by decide) (by decide)).trans (congrArg Except.ok (by decide +kernel))
theorem collecting_ranges : collecting.collRanges 0 summing = [(.g, 0x2000, 64), (.g, 0x2100, 8), (.g, 0x3000, 4)] := by
  have h : collecting.engBytes (summing.eng 0) .g summing.desc.toNat (if summing.isRsum then 64 else 256) = .ok sumRecord :=
    (State.engBytes_page (key := 0x52000) rfl rfl rfl (of_okVal (by decide +kernel)) (by decide) (by decide)).trans (congrArg Except.ok (by decide +kernel))
  unfold State.collRanges
  simp only [h]
  decide +kernel
theorem collecting_lines : collecting.collLines 0 summing = [512, 1024, 1536, 2048, 2624, 2626, 2656] := by
  rw [State.collLines, collecting_ranges]; decide +kernel
theorem collecting_fields : Red.memt sumRecord = 0x2100 ∧ Red.nmem sumRecord = 2 := by decide +kernel
theorem collecting_read : taken.readSum 0 summing = .ok (sumRecord, 0, 1) :=
  sum_read (t := sumMembers) (by decide) collecting_first (by decide +kernel)
    (by rw [collecting_fields.1, collecting_fields.2]; exact collecting_table) (by decide +kernel) (by decide +kernel) (by decide +kernel) (by decide +kernel)

theorem witness_CollectiveRowsComplete :
    (∃ (s s1 : State) (o : CollCmd) (d : List Byte), (s.core 0).q1 = [o] ∧ dieOfCore 0 = 0 ∧ (∀ k ∈ s.cores.map Prod.fst, k ≠ 0 → (s.core k).q1 = []) ∧
      (s.die 0).hasPlace o = true ∧ NoneWaits s ∧ o.isRsum = true ∧ (∀ l ∈ s.collLines 0 o, s.leasedOut l = false) ∧
      s1 = ((s.drawLines 0 (s.collLines 0 o)).modCore 0 fun k => { k with q1 := k.q1.drop 1 }).modDie 0 (fun x => { x with q1rot := coreInDie 0 }) ∧ s1.readSum 0 o = .ok (d, 0, 1) ∧
      s1.rootOf (o.eng 0) o.desc = some 4) ∧
    (∃ s : State, (s.die part.root).ended = [] ∧ (s.die part.root).roots = [] ∧ s.dev.gone.contains part.ctx = false ∧ part.srcOk = true ∧ 2 ≤ part.nmem ∧
      ∀ l ∈ s.sumLines part.root part, s.leasedOut l = false) ∧
    (∃ (s : State) (i : RootInst) (p : Contrib), (s.die 0).roots = [i] ∧ i.parts = [p] ∧ p.home ≠ s.devId ∧ trigIrq p.trig = false ∧
      (s.die 0).rootWait = [] ∧ (s.die 0).ended = [] ∧ s.mem.leases = [] ∧ s.ap! offInjMask = 0 ∧ s.elapsed i.started (s.tmoOf 0 p.tmo) = true) ∧
    (∃ (s : State) (i : CollInst), s.inst? 0 60 = some i ∧ 1 < Col.points i.desc ∧ kindOf 4 = .hello ∧ kindOf 7 ≠ .hello ∧ Col.agreed i.desc ≠ [] ∧ i.status = none ∧ i.dead = false ∧ i.lost = false ∧
      (∀ a ∈ i.acts, a.kind ≠ .final) ∧ (∀ l ∈ s.endLines 0 60, s.leasedOut l = false) ∧
      i.point = 0 ∧ i.reports = [] ∧ s.mem.leases = [] ∧ 1 < Col.points i.desc ∧ (s.die 0).opens = [] ∧ i.rq = false ∧ Col.trp i.desc = false ∧ Col.trig i.desc = 0 ∧
      s.elapsed i.started (s.tmoOf 0 (Col.tmo i.desc)) = true) :=
  ⟨⟨collecting, taken, summing, sumRecord, by decide +kernel, by decide +kernel, by decide +kernel, by decide +kernel,
      by unfold NoneWaits; decide +kernel, rfl, fun _ _ => rfl,
      by rw [collecting_lines]; rfl, collecting_read, by decide +kernel⟩,
    ⟨base .u, by decide +kernel, by decide +kernel, by decide +kernel, by decide +kernel, by decide +kernel, fun _ _ => rfl⟩,
    ⟨{ rooted with dev := { State.reset.dev with beat := 14400 } }, _, part, rfl, rfl, by decide +kernel⟩,
    joined, instance_, by decide +kernel, by decide +kernel, by decide +kernel, by decide +kernel, by decide +kernel, rfl, rfl, rfl, by decide, fun _ _ => rfl,
      by decide +kernel⟩

theorem witness_DecodeInvertsEncode : (Instr.mmx ⟨12, 7, true, 63, 62, 61, 7, ⟨0, 4, 1, 63⟩, 64⟩).wf ∧
    (toRaw (.mmx ⟨12, 7, true, 63, 62, 61, 7, ⟨0, 4, 1, 63⟩, 64⟩)).isSome = true := by decide +kernel

def stepsOn : Host.Outcome State Fault Refusal → Bool
  | .next _ => true
  | _ => false
theorem witness_StepKeepsMemoryCanonical : (stepping 4).mem.wf = true ∧ stepsOn (step (stepping 4)) = true := by decide +kernel

end Sys2Proof.Tests
end

section
/-!
PROOFS. The registers of the management aperture: bit fields of a number, what storing a register or a field of one leaves as it was,
which register stands at an offset, what an access to some of a register's bytes becomes, and the registers with rows of their own.
Settles O3 and O57.
-/

namespace Sys2Proof.Machine

/-! ### Bit fields of a number -/

theorem testBit_bitsOf (v hi lo i : Nat) : (bitsOf v hi lo).testBit i = (decide (i < hi + 1 - lo) && v.testBit (lo + i)) := by
  simp [bitsOf, Nat.testBit_mod_two_pow, Nat.testBit_div_two_pow, Nat.add_comm]

/-- A field of one bit is that bit. -/
theorem bitsOf_bit (v b : Nat) : bitsOf v b b = (v.testBit b).toNat := by
  rw [Nat.toNat_testBit, bitsOf, Nat.add_sub_cancel_left, Nat.pow_one]

/-- A field depends on its own bits alone. -/
theorem bitsOf_congr {v u hi lo : Nat} (h : ∀ i, lo ≤ i → i ≤ hi → v.testBit i = u.testBit i) : bitsOf v hi lo = bitsOf u hi lo := by
  apply Nat.eq_of_testBit_eq
  intro i
  rw [testBit_bitsOf, testBit_bitsOf]
  by_cases hi' : i < hi + 1 - lo
  · rw [h (lo + i) (by omega) (by omega)]
  · simp [hi']

/-- A field that is all ones holds every bit of its range, one that is zero holds none. -/
theorem testBit_of_bitsOf_ones {v hi lo i : Nat} (h : bitsOf v hi lo = 2 ^ (hi + 1 - lo) - 1) (h1 : lo ≤ i) (h2 : i ≤ hi) :
    v.testBit i = true := by
  have := testBit_bitsOf v hi lo (i - lo)
  rw [h, Nat.testBit_two_pow_sub_one, Nat.add_sub_cancel' h1] at this
  simpa [show i - lo < hi + 1 - lo by omega] using this.symm

theorem testBit_of_bitsOf_zero {v hi lo i : Nat} (h : bitsOf v hi lo = 0) (h1 : lo ≤ i) (h2 : i ≤ hi) : v.testBit i = false := by
  have := testBit_bitsOf v hi lo (i - lo)
  rw [h, Nat.zero_testBit, Nat.add_sub_cancel' h1] at this
  simpa [show i - lo < hi + 1 - lo by omega] using this.symm

/-- A number with a field replaced, as the bits above the field, the field and the bits below. -/
theorem setBits_eq {v hi lo x : Nat} (h : lo ≤ hi) :
    setBits v hi lo x = 2 ^ lo * (2 ^ (hi + 1 - lo) * (v / 2 ^ (hi + 1)) + x % 2 ^ (hi + 1 - lo)) + v % 2 ^ lo := by
  have e : v / 2 ^ (hi + 1) = v / 2 ^ lo / 2 ^ (hi + 1 - lo) := by
    rw [Nat.div_div_eq_div_mul, ← Nat.pow_add, Nat.add_sub_cancel' (by omega)]
  have h1 := Nat.div_add_mod v (2 ^ lo)
  have h2 := Nat.div_add_mod (v / 2 ^ lo) (2 ^ (hi + 1 - lo))
  rw [← e] at h2
  rw [← h2, Nat.mul_add] at h1
  rw [setBits, bitsOf, Nat.mul_add, Nat.mul_comm _ (2 ^ lo), Nat.mul_comm (x % _) (2 ^ lo)]
  omega

theorem testBit_setBits {v hi lo x : Nat} (h : lo ≤ hi) (i : Nat) :
    (setBits v hi lo x).testBit i = if lo ≤ i ∧ i ≤ hi then x.testBit (i - lo) else v.testBit i := by
  rw [setBits_eq h, Nat.testBit_two_pow_mul_add _ (Nat.mod_lt _ (Nat.two_pow_pos _))]
  by_cases hl : i < lo
  · simp [hl, show ¬ (lo ≤ i ∧ i ≤ hi) by omega, Nat.testBit_mod_two_pow]
  · rw [if_neg hl, Nat.testBit_two_pow_mul_add _ (Nat.mod_lt _ (Nat.two_pow_pos _))]
    by_cases hh : i ≤ hi
    · simp [show lo ≤ i by omega, hh, show i - lo < hi + 1 - lo by omega, Nat.testBit_mod_two_pow]
    · simp only [show ¬ (i - lo < hi + 1 - lo) by omega, show ¬ (lo ≤ i ∧ i ≤ hi) by omega, if_false, Nat.testBit_div_two_pow]
      congr 1; omega

theorem setBits_lt {v hi lo x n : Nat} (h : lo ≤ hi) (hn : hi < n) (hv : v < 2 ^ n) : setBits v hi lo x < 2 ^ n := by
  apply Nat.lt_pow_two_of_testBit
  intro i hi
  rw [testBit_setBits h, if_neg (by omega)]
  exact Nat.testBit_lt_two_pow (Nat.lt_of_lt_of_le hv (Nat.pow_le_pow_right (by decide) hi))

theorem bitsOf_setBits_same {v hi lo x : Nat} (h : lo ≤ hi) : bitsOf (setBits v hi lo x) hi lo = x % 2 ^ (hi + 1 - lo) := by
  apply Nat.eq_of_testBit_eq
  intro i
  rw [testBit_bitsOf, testBit_setBits h, Nat.testBit_mod_two_pow]
  by_cases hi' : i < hi + 1 - lo
  · simp [show lo + i ≤ hi by omega]
  · simp [hi']

theorem bitsOf_setBits_apart {v hi lo x hi' lo' : Nat} (h : lo ≤ hi) (hd : hi' < lo ∨ hi < lo') :
    bitsOf (setBits v hi lo x) hi' lo' = bitsOf v hi' lo' :=
  bitsOf_congr fun i _ _ => by rw [testBit_setBits h, if_neg (by omega)]

/-- Numbers with no bit in common add up to their union. -/
theorem add_eq_or_of_and_eq_zero {a b : Nat} (h : a &&& b = 0) : a + b = a ||| b := by
  have hab : a + b < 2 ^ (a + b) := Nat.lt_two_pow_self
  have ha : a % 2 ^ (a + b) = a := Nat.mod_eq_of_lt (by omega)
  have hb : b % 2 ^ (a + b) = b := Nat.mod_eq_of_lt (by omega)
  have := congrArg BitVec.toNat (BitVec.add_eq_or_of_and_eq_zero (BitVec.ofNat (a + b) a) (BitVec.ofNat (a + b) b)
    (BitVec.eq_of_toNat_eq (by simp [ha, hb, h])))
  simpa [ha, hb, Nat.mod_eq_of_lt hab] using this

/-! ### A register after it, or a field of it, is stored -/

theorem ite_lt {p : Prop} [Decidable p] {a b n : Nat} (ha : a < n) (hb : b < n) : (if p then a else b) < n := by split <;> assumption

theorem apReset_lt (off : Nat) : apReset off < 2 ^ 64 := by
  unfold apReset
  iterate 12 refine ite_lt (by decide) ?_
  decide

theorem State.ap!_lt (s : State) (off : Nat) : s.ap! off < 2 ^ 64 := by
  unfold State.ap!
  split
  · exact BitVec.isLt _
  · exact apReset_lt off

theorem State.ap!_apField (s : State) (o j x : Nat) {hi lo : Nat} (h : lo ≤ hi) (hh : hi < 64) :
    (s.apField o hi lo x).ap! j = if j = o then setBits (s.ap! o) hi lo x else s.ap! j :=
  s.ap!_apSet o j _ (setBits_lt h hh (s.ap!_lt o))

theorem State.apBits_apField_same (s : State) (o x : Nat) {hi lo : Nat} (h : lo ≤ hi) (hh : hi < 64) :
    (s.apField o hi lo x).apBits o hi lo = x % 2 ^ (hi + 1 - lo) := by
  rw [State.apBits, s.ap!_apField o o x h hh, if_pos rfl, bitsOf_setBits_same h]

theorem State.apBits_apField_apart (s : State) (o x : Nat) {hi lo hi' lo' : Nat} (h : lo ≤ hi) (hh : hi < 64) (hd : hi' < lo ∨ hi < lo') :
    (s.apField o hi lo x).apBits o hi' lo' = s.apBits o hi' lo' := by
  rw [State.apBits, s.ap!_apField o o x h hh, if_pos rfl, bitsOf_setBits_apart h hd, State.apBits]

theorem State.apBits_apSet_same (s : State) (o v hi lo : Nat) (hv : v < 2 ^ 64) : (s.apSet o v).apBits o hi lo = bitsOf v hi lo := by
  rw [State.apBits, s.ap!_apSet o o v hv, if_pos rfl]

theorem OnlyRegs.refl (P : Nat → Prop) (s : State) : OnlyRegs P s s := ⟨rfl, rfl, rfl, rfl, rfl, rfl, rfl, rfl, rfl, fun _ _ => rfl⟩

theorem OnlyRegs.mono {P Q : Nat → Prop} {s t : State} (h : OnlyRegs P s t) (hq : ∀ off, P off → Q off) : OnlyRegs Q s t :=
  { h with regs := fun off ho => h.regs off fun hp => ho (hq off hp) }

theorem OnlyRegs.trans {P : Nat → Prop} {s t u : State} (h : OnlyRegs P s t) (g : OnlyRegs P t u) : OnlyRegs P s u :=
  ⟨g.agenda.trans h.agenda, g.own.trans h.own, g.mem.trans h.mem, g.warps.trans h.warps, g.blocks.trans h.blocks, g.cores.trans h.cores,
    g.dies.trans h.dies, g.grids.trans h.grids, g.dev.trans h.dev, fun off ho => (g.regs off ho).trans (h.regs off ho)⟩

theorem State.apSet_onlyRegs (s : State) (o v : Nat) (hv : v < 2 ^ 64) : OnlyRegs (· = o) s (s.apSet o v) :=
  ⟨rfl, rfl, rfl, rfl, rfl, rfl, rfl, rfl, rfl, fun off ho => by rw [s.ap!_apSet o off v hv, if_neg ho]⟩

theorem State.apField_onlyRegs (s : State) (o x : Nat) {hi lo : Nat} (h : lo ≤ hi) (hh : hi < 64) :
    OnlyRegs (· = o) s (s.apField o hi lo x) :=
  s.apSet_onlyRegs o _ (setBits_lt h hh (s.ap!_lt o))

/-- Storing what a register holds changes no register. -/
theorem State.apSet_self_onlyRegs (s : State) (o : Nat) : OnlyRegs (fun _ => False) s (s.apSet o (s.ap! o)) :=
  ⟨rfl, rfl, rfl, rfl, rfl, rfl, rfl, rfl, rfl, fun off _ => by
    rw [s.ap!_apSet o off _ (s.ap!_lt o)]
    split <;> simp_all⟩

/-! ### The bits that a write leaves in a register (R9, R428) -/

/-- The value that `State.writeReg` makes of a register's old value before the register's own rule. -/
def merged (rw w1c old cover v : Nat) : Nat :=
  (old &&& (2 ^ 64 - 1 - (rw &&& cover) - ((v &&& cover) &&& w1c))) ||| ((v &&& cover) &&& rw)

theorem merged_lt {rw w1c old cover v : Nat} (ho : old < 2 ^ 64) (hr : rw < 2 ^ 64) : merged rw w1c old cover v < 2 ^ 64 :=
  Nat.or_lt_two_pow (Nat.lt_of_le_of_lt Nat.and_le_left ho) (Nat.lt_of_le_of_lt Nat.and_le_right hr)

/-- A written RW bit takes the value written, a W1C bit written 1 is cleared, every other bit stays. -/
theorem testBit_merged {rw w1c old cover v b : Nat} (hd : rw &&& w1c = 0) (hr : rw < 2 ^ 64) (hw : w1c < 2 ^ 64) (hb : b < 64) :
    (merged rw w1c old cover v).testBit b =
      if cover.testBit b = true ∧ rw.testBit b = true then v.testBit b
      else if cover.testBit b = true ∧ w1c.testBit b = true ∧ v.testBit b = true then false else old.testBit b := by
  have hbits : ∀ i, (rw.testBit i && w1c.testBit i) = false := fun i => by rw [← Nat.testBit_and, hd, Nat.zero_testBit]
  have hapart : (rw &&& cover) &&& ((v &&& cover) &&& w1c) = 0 := by
    apply Nat.eq_of_testBit_eq
    intro i
    have := hbits i
    simp only [Nat.testBit_and, Nat.zero_testBit]
    generalize rw.testBit i = r, w1c.testBit i = w, cover.testBit i = c, v.testBit i = x at this ⊢
    revert r w c x
    decide
  have hlt : (rw &&& cover) ||| ((v &&& cover) &&& w1c) < 2 ^ 64 :=
    Nat.or_lt_two_pow (Nat.lt_of_le_of_lt Nat.and_le_left hr) (Nat.lt_of_le_of_lt Nat.and_le_right hw)
  have hkeep : 2 ^ 64 - 1 - (rw &&& cover) - ((v &&& cover) &&& w1c) = 2 ^ 64 - (((rw &&& cover) ||| ((v &&& cover) &&& w1c)) + 1) := by
    rw [← add_eq_or_of_and_eq_zero hapart]; omega
  have := hbits b
  rw [merged, hkeep, Nat.testBit_or, Nat.testBit_and, Nat.testBit_two_pow_sub_succ hlt]
  simp only [Nat.testBit_or, Nat.testBit_and, hb, decide_true, Bool.true_and]
  generalize rw.testBit b = r, w1c.testBit b = w, cover.testBit b = c, v.testBit b = x, old.testBit b = o at this ⊢
  revert r w c x o
  decide

/-- A field with no RW and no W1C bit stays. -/
theorem bitsOf_merged_ro {rw w1c old cover v hi lo : Nat} (hd : rw &&& w1c = 0) (hr : rw < 2 ^ 64) (hw : w1c < 2 ^ 64) (hh : hi < 64)
    (hf : bitsOf rw hi lo = 0) (hc : bitsOf w1c hi lo = 0) : bitsOf (merged rw w1c old cover v) hi lo = bitsOf old hi lo :=
  bitsOf_congr fun i h1 h2 => by
    simp [testBit_merged hd hr hw (show i < 64 by omega), testBit_of_bitsOf_zero hf h1 h2, testBit_of_bitsOf_zero hc h1 h2]

/-- A field of RW bits takes what a write of the whole register holds there. -/
theorem bitsOf_merged_whole {rw old v hi lo n : Nat} (hr : rw < 2 ^ 64) (hh : hi < n) (hn : n ≤ 64)
    (hf : bitsOf rw hi lo = 2 ^ (hi + 1 - lo) - 1) : bitsOf (merged rw 0 old (2 ^ n - 1) (v % 2 ^ n)) hi lo = bitsOf v hi lo :=
  bitsOf_congr fun i h1 h2 => by
    have hc : (2 ^ n - 1).testBit i = true := by rw [Nat.testBit_two_pow_sub_one, decide_eq_true (by omega : i < n)]
    rw [testBit_merged (Nat.and_zero rw) hr (by decide) (by omega), if_pos ⟨hc, testBit_of_bitsOf_ones hf h1 h2⟩, Nat.testBit_mod_two_pow,
      decide_eq_true (by omega : i < n), Bool.true_and]

/-! ### Bytes of an access within one register -/

/-- A fold that leaves its accumulator as it is at every element. -/
theorem foldl_eq_self {α β : Type} {f : α → β → α} {a : α} {l : List β} (h : ∀ b ∈ l, f a b = a) : l.foldl f a = a := by
  induction l with
  | nil => rfl
  | cons b r ih => rw [List.foldl_cons, h b List.mem_cons_self, ih fun c hc => h c (List.mem_cons_of_mem _ hc)]

/-- The bytes of a number, put at their places one by one, are its low bytes at that place. -/
theorem foldl_bytes {f : Nat → Nat} {g : Nat → Nat → Nat} {x k n : Nat} (hf : ∀ i < n, f i = x / 2 ^ (8 * i) % 2 ^ 8)
    (hg : ∀ t, ∀ i < n, g t i = t + f i * 2 ^ (8 * (k + i))) : (List.range n).foldl g 0 = x % 2 ^ (8 * n) * 2 ^ (8 * k) := by
  induction n with
  | zero => simp [Nat.mod_one]
  | succ n ih =>
    have e : x % 2 ^ (8 * (n + 1)) = x % 2 ^ (8 * n) + 2 ^ (8 * n) * (x / 2 ^ (8 * n) % 2 ^ 8) := by
      rw [Nat.mul_succ, Nat.pow_add, Nat.mod_mul]
    rw [List.range_succ, List.foldl_append, ih (fun i hi => hf i (by omega)) (fun t i hi => hg t i (by omega))]
    simp only [List.foldl_cons, List.foldl_nil]
    rw [hg _ n (by omega), hf n (by omega), e, Nat.add_mul, Nat.mul_add, Nat.pow_add]
    ring

theorem pow_256 (n : Nat) : 256 ^ n = 2 ^ (8 * n) := by rw [Nat.pow_mul]

/-- Both halves of every byte of a whole access are written. -/
theorem nibbles_whole {n i : Nat} (h : i < n) :
    (if (4 ^ n - 1) / 4 ^ i % 2 = 1 then 0xF else 0) + (if (4 ^ n - 1) / 4 ^ i / 2 % 2 = 1 then 0xF0 else 0)
      = (2 ^ (8 * n) - 1) / 2 ^ (8 * i) % 2 ^ 8 := by
  have low : (4 ^ n - 1) / 4 ^ i % 2 = 1 := by
    have := Nat.testBit_two_pow_sub_one (2 * n) (2 * i)
    simpa [Nat.testBit_eq_decide_div_mod_eq, Nat.pow_mul, h] using this
  have high : (4 ^ n - 1) / 4 ^ i / 2 % 2 = 1 := by
    have := Nat.testBit_two_pow_sub_one (2 * n) (2 * i + 1)
    simpa [Nat.testBit_eq_decide_div_mod_eq, Nat.pow_mul, Nat.pow_succ, ← Nat.div_div_eq_div_mul, show 2 * i + 1 < 2 * n by omega] using this
  rw [if_pos low, if_pos high]
  apply Nat.eq_of_testBit_eq
  intro j
  rw [Nat.testBit_mod_two_pow, Nat.testBit_div_two_pow, Nat.testBit_two_pow_sub_one, show 0xF + 0xF0 = 2 ^ 8 - 1 from rfl,
    Nat.testBit_two_pow_sub_one]
  by_cases hj : j < 8 <;> simp [hj]; omega

/-- The registers that an access of `n` bytes covers, in order. -/
def regsAt (off n : Nat) : List Reg :=
  ((List.range n).map (off + ·)).foldl (fun acc o => match regAt o with
    | some r => if acc.contains r then acc else acc ++ [r]
    | none => acc) []

/-- A register's part of an access whose byte `i` is `f i`. -/
def regPart (r : Reg) (off n : Nat) (f : Nat → Nat) : Nat :=
  ((List.range n).map (off + ·)).foldl (fun t o => if r.base ≤ o && o < r.base + r.bytes then t + f (o - off) * 256 ^ (o - r.base) else t) 0

theorem State.apWrite_eq (s : State) (who : Writer) (off n v nibs : Nat) :
    s.apWrite who off n v nibs = (regsAt off n).foldl (fun s r =>
      let cover := regPart r off n fun i => (if nibs / 4 ^ i % 2 = 1 then 0xF else 0) + (if nibs / 4 ^ i / 2 % 2 = 1 then 0xF0 else 0)
      if cover = 0 then s else s.writeReg who r cover (regPart r off n fun i => v / 256 ^ i % 256)) s := rfl

theorem regsAt_within {off n : Nat} {r : Reg} (hn : 0 < n) (hr : ∀ i < n, regAt (off + i) = some r) : regsAt off n = [r] := by
  obtain ⟨m, rfl⟩ : ∃ m, n = m + 1 := ⟨n - 1, by omega⟩
  rw [regsAt, List.range_succ_eq_map, List.map_cons, List.foldl_cons, hr 0 hn]
  refine foldl_eq_self fun o ho => ?_
  simp only [List.mem_map, List.mem_range] at ho
  obtain ⟨_, ⟨i, hi, rfl⟩, rfl⟩ := ho
  simp [hr (i + 1) (by omega)]

theorem regsAt_outside {off n : Nat} (hr : ∀ i < n, regAt (off + i) = none) : regsAt off n = [] := by
  refine foldl_eq_self fun o ho => ?_
  obtain ⟨i, hi, rfl⟩ := List.mem_map.1 ho
  simp [hr i (List.mem_range.1 hi)]

theorem regPart_within {r : Reg} {off n x : Nat} {f : Nat → Nat} (hlo : r.base ≤ off) (hhi : off + n ≤ r.base + r.bytes)
    (hf : ∀ i < n, f i = x / 2 ^ (8 * i) % 2 ^ 8) : regPart r off n f = x % 2 ^ (8 * n) * 2 ^ (8 * (off - r.base)) := by
  rw [regPart, List.foldl_map]
  refine foldl_bytes hf fun t i hi => ?_
  have hin : (decide (r.base ≤ off + i) && decide (off + i < r.base + r.bytes)) = true := by simp; omega
  rw [if_pos hin, pow_256, Nat.add_sub_cancel_left, show off + i - r.base = off - r.base + i by omega]

/-- A whole access within one register is one write of that register: the bits of the bytes it covers (R428). -/
theorem State.apWord_within {s : State} {who : Writer} {off n v : Nat} {r : Reg} (hn : 0 < n) (hr : ∀ i < n, regAt (off + i) = some r)
    (hlo : r.base ≤ off) (hhi : off + n ≤ r.base + r.bytes) :
    s.apWord who off n v = s.writeReg who r ((2 ^ (8 * n) - 1) * 2 ^ (8 * (off - r.base))) (v % 2 ^ (8 * n) * 2 ^ (8 * (off - r.base))) := by
  have hpos : 2 ≤ 2 ^ (8 * n) := Nat.le_self_pow (by omega) 2
  have hcover := regPart_within hlo hhi fun i hi => nibbles_whole (n := n) hi
  have hval := regPart_within (x := v) (f := fun i => v / 256 ^ i % 256) hlo hhi fun i _ => by rw [pow_256]; rfl
  rw [Nat.mod_eq_of_lt (by omega)] at hcover
  have hne : (2 ^ (8 * n) - 1) * 2 ^ (8 * (off - r.base)) ≠ 0 := Nat.mul_ne_zero (by omega) (Nat.ne_of_gt (Nat.two_pow_pos _))
  rw [State.apWord, State.apWrite_eq, regsAt_within hn hr]
  simp only [List.foldl_cons, List.foldl_nil, hcover, hval, if_neg hne]

/-- A write of a register's bytes from the first. -/
theorem State.apWord_from_base {s : State} {who : Writer} {n v : Nat} {r : Reg} (hn : 0 < n) (hr : ∀ i < n, regAt (r.base + i) = some r)
    (hb : n ≤ r.bytes) : s.apWord who r.base n v = s.writeReg who r (2 ^ (8 * n) - 1) (v % 2 ^ (8 * n)) := by
  rw [State.apWord_within hn hr (Nat.le_refl _) (by omega)]
  simp

/-- An access that covers no register changes nothing (R443). -/
theorem State.apWord_outside {s : State} {who : Writer} {off n v : Nat} (hr : ∀ i < n, regAt (off + i) = none) :
    s.apWord who off n v = s := by
  rw [State.apWord, State.apWrite_eq, regsAt_outside hr, List.foldl_nil]

/-! ### Which register stands at an offset (R443) -/

theorem row_none {off base step n bytes : Nat} {f : Nat → Reg} (h : off < base ∨ n ≤ (off - base) / step ∨ bytes ≤ (off - base) % step) :
    row off base step n bytes f = none := by
  rw [row, inArray, if_neg (by omega), Option.map_none]

theorem row_some {off base step n bytes i : Nat} {f : Nat → Reg} (hb : base ≤ off) (hd : (off - base) / step = i) (hi : i < n)
    (hm : (off - base) % step < bytes) : row off base step n bytes f = some (f i) := by
  subst hd
  rw [row, inArray, if_pos ⟨hb, hi, hm⟩, Option.map_some]

/-- The RW bits of LQ_BASE, LQ_CFG, PHS_CTX and WD_LOCAL (R313, R314, R254, R252). -/
def lqBaseRw : Nat := fmask 63 62 + fmask 47 6
def lqCfgRw : Nat := 2 ^ 31 + fmask 27 24 + fmask 19 18 + fmask 15 0
def phsCtxRw : Nat := 2 ^ 31 + fmask 11 0
def wdLocalRw : Nat := 2 ^ 8 + fmask 5 0

/-- The registers of a launch queue that the host writes (R313 to R315). -/
def lqBaseReg (q : Nat) : Reg := mkReg (.lqBase q) (offLqBase q) 8 lqBaseRw
def lqCfgReg (q : Nat) : Reg := mkReg (.lqCfg q) (offLqCfg q) 4 lqCfgRw
def lqTailReg (q : Nat) : Reg := mkReg (.lqTail q) (offLqTail q) 4 (fmask 31 0)

/-- An offset from the launch queues on is looked up in their rows: those before hold lower offsets. -/
theorem regAt_lq {off : Nat} (h1 : 0x30000 ≤ off) (h2 : off < 0x60000) : regAt off =
    (row off 0x30000 32 1024 8 lqBaseReg <|> row off 0x30008 32 1024 4 lqCfgReg <|> row off 0x3000C 32 1024 4 lqTailReg
      <|> row off (offLqProg 0) 32 1024 8 (fun q => mkReg (.lqProg q) (offLqProg q) 8 0 (2 ^ 35 + 2 ^ 34))
      <|> row off (offPitch 0) 16 4096 8 (fun c => mkReg .plain (offPitch c) 8 (fmask 63 5))
      <|> row off (bRiv + 0x10000) 4 16384 4 (fun i => mkReg (.rivLim (i / 4) (i % 4)) (bRiv + 0x10000 + 4 * i) 4 (fmask 10 0))) := by
  rw [regAt, if_neg (by simp only [bMmu]; omega), if_pos (by simp only [bFlt]; omega), hostRows,
    row_none (base := offInvVa) (by simp only [offInvVa, bMmu]; omega), row_none (base := offInvCtl) (by simp only [offInvCtl, bMmu]; omega),
    row_none (base := offMmuRoot 0) (by simp only [offMmuRoot]; omega), row_none (base := offMmuSave 0) (by simp only [offMmuSave]; omega)]
  rfl

theorem regAt_lqBase {q : Nat} (hq : q < 1024) (j : Nat) (hj : j < 8) : regAt (offLqBase q + j) = some (lqBaseReg q) := by
  simp only [offLqBase, bLq]
  rw [regAt_lq (by omega) (by omega), row_some (by omega) (by omega : _ = q) hq (by omega)]
  rfl

theorem regAt_lqCfg {q : Nat} (hq : q < 1024) (j : Nat) (hj : j < 4) : regAt (offLqCfg q + j) = some (lqCfgReg q) := by
  simp only [offLqCfg, bLq]
  rw [regAt_lq (by omega) (by omega), row_none (by omega), row_some (by omega) (by omega : _ = q) hq (by omega)]
  rfl

theorem regAt_lqTail {q : Nat} (hq : q < 1024) (j : Nat) (hj : j < 4) : regAt (offLqTail q + j) = some (lqTailReg q) := by
  simp only [offLqTail, bLq]
  rw [regAt_lq (by omega) (by omega), row_none (by omega), row_none (by omega), row_some (by omega) (by omega : _ = q) hq (by omega)]
  rfl

def phsCtxReg (d : Nat) : Reg := mkReg (.phsCtx d) (offPhsCtx d) 4 phsCtxRw
def wdLocalReg (d : Nat) : Reg := mkReg .timeout (offWdLocal d) 4 wdLocalRw
def doorReg (n : Nat) : Reg := mkReg (.door n) (offDoor n) 4 0 0xF
def govFloorReg (p : Nat) : Reg := mkReg .plain (offGovFloor p) 4 (fmask 15 0)
def invCtlReg : Reg := mkReg .invCtl offInvCtl 4 (fmask 17 15 + fmask 11 0)
def measCmdReg : Reg := mkReg .measCmd offMeasCmd 4 (fmask 3 0) (2 ^ 29)

theorem regAt_phsCtx : ∀ d < 4, ∀ j < 4, regAt (offPhsCtx d + j) = some (phsCtxReg d) := by decide +kernel
theorem regAt_wdLocal : ∀ d < 4, ∀ j < 4, regAt (offWdLocal d + j) = some (wdLocalReg d) := by decide +kernel
theorem regAt_door : ∀ n < 5, ∀ j < 4, regAt (offDoor n + j) = some (doorReg n) := by decide +kernel
theorem regAt_govFloor : ∀ p < 8, ∀ j < 4, regAt (offGovFloor p + j) = some (govFloorReg p) := by decide +kernel
theorem regAt_invCtl : ∀ j < 4, regAt (offInvCtl + j) = some invCtlReg := by decide +kernel
theorem regAt_measCmd : ∀ j < 4, regAt (offMeasCmd + j) = some measCmdReg := by decide +kernel

/-! ### What a write of each of these registers becomes -/

section
variable (s : State) (who : Writer)

theorem State.writeReg_plain {r : Reg} (hk : r.kind = .plain) (cover v : Nat) :
    s.writeReg who r cover v = s.apSet r.base (merged r.rw r.w1c (s.ap! r.base) cover v) := by
  simp only [State.writeReg, State.fieldRule, hk, merged]

theorem State.apWord_lqTail {q : Nat} (hq : q < 1024) (v : BitVec 32) : s.apWord who (offLqTail q) 4 v.toNat = s.writeTail q v.toNat := by
  have h : s.apWord who (offLqTail q) 4 v.toNat
      = s.writeTail q (bitsOf (merged (fmask 31 0) 0 (s.ap! (offLqTail q)) (2 ^ 32 - 1) (v.toNat % 2 ^ 32)) 31 0) :=
    State.apWord_from_base (r := lqTailReg q) (by decide) (regAt_lqTail hq) (Nat.le_refl 4)
  have hv : bitsOf v.toNat 31 0 = v.toNat := by simpa [bitsOf] using v.isLt
  rw [h, bitsOf_merged_whole (by decide) (by decide) (by decide) rfl, hv]

theorem State.apWord_lqCfg {q : Nat} (hq : q < 1024) (v : BitVec 32) :
    s.apWord who (offLqCfg q) 4 v.toNat = s.writeCfg q (merged lqCfgRw 0 (s.ap! (offLqCfg q)) (2 ^ 32 - 1) (v.toNat % 2 ^ 32)) :=
  State.apWord_from_base (r := lqCfgReg q) (by decide) (regAt_lqCfg hq) (Nat.le_refl 4)

theorem State.apWord_lqBase {q : Nat} (hq : q < 1024) (v : BitVec 64) :
    s.apWord who (offLqBase q) 8 v.toNat = s.apSet (offLqBase q)
      (s.fieldRule (lqBaseReg q) (s.ap! (offLqBase q)) (merged lqBaseRw 0 (s.ap! (offLqBase q)) (2 ^ 64 - 1) (v.toNat % 2 ^ 64))) :=
  State.apWord_from_base (r := lqBaseReg q) (by decide) (regAt_lqBase hq) (Nat.le_refl 8)

theorem State.apWord_phsCtx {d : Nat} (hd : d < 4) (v : BitVec 32) :
    s.apWord who (offPhsCtx d) 4 v.toNat = s.writePhsCtx d (merged phsCtxRw 0 (s.ap! (offPhsCtx d)) (2 ^ 32 - 1) (v.toNat % 2 ^ 32)) :=
  State.apWord_from_base (r := phsCtxReg d) (by decide) (regAt_phsCtx d hd) (Nat.le_refl 4)

theorem State.apWord_wdLocal {d : Nat} (hd : d < 4) (v : BitVec 64) :
    s.apWord who (offWdLocal d) 4 v.toNat = s.apSet (offWdLocal d)
      (s.fieldRule (wdLocalReg d) (s.ap! (offWdLocal d)) (merged wdLocalRw 0 (s.ap! (offWdLocal d)) (2 ^ 32 - 1) (v.toNat % 2 ^ 32))) :=
  State.apWord_from_base (r := wdLocalReg d) (by decide) (regAt_wdLocal d hd) (Nat.le_refl 4)

theorem State.apWord_door {n : Nat} (hn : n < 5) (v : BitVec 32) :
    s.apWord who (offDoor n) 4 v.toNat = s.writeDoor n (who == .host) v.toNat := by
  have h : s.apWord who (offDoor n) 4 v.toNat = s.writeDoor n (who == .host) (v.toNat % 2 ^ 32 &&& (2 ^ 32 - 1)) :=
    State.apWord_from_base (r := doorReg n) (by decide) (regAt_door n hn) (Nat.le_refl 4)
  rw [h, Nat.and_two_pow_sub_one_eq_mod, Nat.mod_mod, Nat.mod_eq_of_lt v.isLt]

end

/-! ### TAIL and LQ_CFG (R314, R315) -/

section
variable (s : State) (q v : Nat)

theorem offLqTail_ne_offLqProg (q : Nat) : offLqTail q ≠ offLqProg q := by simp only [offLqTail, offLqProg]; omega

theorem soon_if (t : State) (c : Prop) [Decidable c] (ps : List Pending) : ∃ ps', (if c then t.soon ps else t) = t.soon ps' := by
  split
  · exact ⟨ps, rfl⟩
  · exact ⟨[], rfl⟩

/-- TAIL takes a value within the ring; a step may follow. -/
theorem State.writeTail_within (h : (v + 2 ^ 32 - s.prog q) % 2 ^ 32 ≤ s.queueSize q) :
    ∃ ps, s.writeTail q v = (s.apSet (offLqTail q) v).soon ps :=
  (soon_if (s.apSet (offLqTail q) v) _ _).imp fun _ h' => (if_pos h).trans h'

/-- Beyond the ring OVR is set. -/
theorem State.writeTail_beyond (h : ¬ (v + 2 ^ 32 - s.prog q) % 2 ^ 32 ≤ s.queueSize q) :
    s.writeTail q v = s.apField (offLqProg q) 34 34 1 := if_neg h

/-- A write of TAIL stores the value or sets OVR (R315). -/
theorem State.writeTail_spec (hv : v < 2 ^ 64) :
    (s.writeTail q v).mem = s.mem ∧ (s.writeTail q v).warps = s.warps ∧ (s.writeTail q v).dev = s.dev ∧
      (if (v + 2 ^ 32 - s.prog q) % 2 ^ 32 ≤ s.queueSize q then
        (s.writeTail q v).tail q = v ∧ ∀ off, off ≠ offLqTail q → (s.writeTail q v).ap! off = s.ap! off
      else (s.writeTail q v).tail q = s.tail q ∧ (s.writeTail q v).apBits (offLqProg q) 34 34 = 1 ∧
        ∀ off, off ≠ offLqProg q → (s.writeTail q v).ap! off = s.ap! off) := by
  split
  case isTrue h =>
    obtain ⟨ps, hps⟩ := s.writeTail_within q v h
    rw [hps]
    exact ⟨rfl, rfl, rfl, (s.ap!_apSet _ _ _ hv).trans (if_pos rfl), (s.apSet_onlyRegs _ _ hv).regs⟩
  case isFalse h =>
    have ho := s.apField_onlyRegs (offLqProg q) 1 (hi := 34) (lo := 34) (by decide) (by decide)
    rw [s.writeTail_beyond q v h]
    exact ⟨ho.mem, ho.warps, ho.dev, ho.regs _ (offLqTail_ne_offLqProg q), s.apBits_apField_same _ _ (by decide) (by decide), ho.regs⟩

theorem State.writeCfg_onlyRegs (hv : v < 2 ^ 64) : OnlyRegs (· = offLqCfg q) s (s.writeCfg q v) := by
  unfold State.writeCfg
  split
  · exact s.apField_onlyRegs _ _ (by decide) (by decide)
  · split
    · exact OnlyRegs.refl _ s
    · exact s.apSet_onlyRegs _ _ hv

/-- While EN is 1 only EN changes. -/
theorem State.writeCfg_enabled (h : s.qEnabled q = true) :
    (s.writeCfg q v).qBits q 30 0 = s.qBits q 30 0 ∧ (s.writeCfg q v).qBits q 31 31 = bitsOf v 31 31 := by
  rw [State.qEnabled, State.qBits, decide_eq_true_eq] at h
  rw [State.writeCfg, if_pos h]
  refine ⟨s.apBits_apField_apart _ _ (by decide) (by decide) (by decide), (s.apBits_apField_same _ _ (by decide) (by decide)).trans ?_⟩
  exact Nat.mod_mod _ _

/-- EN with a SZ below 4 or no die leaves the register. -/
theorem State.writeCfg_refused (h : s.qEnabled q = false) (hr : bitsOf v 31 31 = 1 ∧ (bitsOf v 15 12 < 4 ∨ bitsOf v 27 24 = 0)) :
    s.writeCfg q v = s := by
  rw [State.qEnabled, State.qBits, decide_eq_false_iff_not] at h
  rw [State.writeCfg, if_neg h, if_pos (by simpa using hr)]

theorem State.writeCfg_taken (h : s.qEnabled q = false) (hr : ¬ (bitsOf v 31 31 = 1 ∧ (bitsOf v 15 12 < 4 ∨ bitsOf v 27 24 = 0))) :
    s.writeCfg q v = s.apSet (offLqCfg q) v := by
  rw [State.qEnabled, State.qBits, decide_eq_false_iff_not] at h
  rw [State.writeCfg, if_neg h, if_neg (by simpa using hr)]

end

/-- LQ_CFG after a write of it: only EN while EN is 1, nothing where EN is refused, else every field (R314). -/
theorem State.apWord_lqCfg_spec (s : State) (who : Writer) {q : Nat} (hq : q < 1024) (v : BitVec 32) :
    let t := s.apWord who (offLqCfg q) 4 v.toNat
    OnlyRegs (· = offLqCfg q) s t ∧
      (if s.qEnabled q then t.qBits q 30 0 = s.qBits q 30 0 ∧ t.qBits q 31 31 = bitsOf v.toNat 31 31
      else if v.getLsbD 31 = true ∧ (bitsOf v.toNat 15 12 < 4 ∨ bitsOf v.toNat 27 24 = 0) then t.qBits q 31 0 = s.qBits q 31 0
      else t.qBits q 11 0 = bitsOf v.toNat 11 0 ∧ t.qBits q 15 12 = bitsOf v.toNat 15 12 ∧ t.qBits q 19 18 = bitsOf v.toNat 19 18 ∧
        t.qBits q 27 24 = bitsOf v.toNat 27 24 ∧ t.qBits q 31 31 = bitsOf v.toNat 31 31) := by
  intro t
  obtain ⟨new, hnew⟩ : ∃ new, new = merged lqCfgRw 0 (s.ap! (offLqCfg q)) (2 ^ 32 - 1) (v.toNat % 2 ^ 32) := ⟨_, rfl⟩
  have ht : t = s.writeCfg q new := by rw [hnew]; exact s.apWord_lqCfg who hq v
  have hlt : new < 2 ^ 64 := hnew ▸ merged_lt (s.ap!_lt _) (by decide)
  have hfield : ∀ {hi lo}, hi < 32 → bitsOf lqCfgRw hi lo = 2 ^ (hi + 1 - lo) - 1 → bitsOf new hi lo = bitsOf v.toNat hi lo :=
    fun hh hf => by rw [hnew, bitsOf_merged_whole (by decide) hh (by decide) hf]
  have hrefuse : (v.getLsbD 31 = true ∧ (bitsOf v.toNat 15 12 < 4 ∨ bitsOf v.toNat 27 24 = 0)) ↔
      (bitsOf new 31 31 = 1 ∧ (bitsOf new 15 12 < 4 ∨ bitsOf new 27 24 = 0)) := by
    rw [hfield (hi := 31) (by decide) rfl, hfield (hi := 15) (by decide) rfl, hfield (hi := 27) (by decide) rfl, bitsOf_bit,
      BitVec.testBit_toNat, Bool.toNat_eq_one]
  rw [ht]
  refine ⟨s.writeCfg_onlyRegs q new hlt, ?_⟩
  by_cases he : s.qEnabled q = true
  · rw [if_pos he, ← hfield (hi := 31) (by decide) rfl]
    exact s.writeCfg_enabled q new he
  · have he' : s.qEnabled q = false := by simpa using he
    rw [if_neg he]
    by_cases hr : v.getLsbD 31 = true ∧ (bitsOf v.toNat 15 12 < 4 ∨ bitsOf v.toNat 27 24 = 0)
    · rw [if_pos hr, s.writeCfg_refused q new he' (hrefuse.1 hr)]
    · have hbits : ∀ {hi lo}, hi < 32 → bitsOf lqCfgRw hi lo = 2 ^ (hi + 1 - lo) - 1 →
          (s.apSet (offLqCfg q) new).qBits q hi lo = bitsOf v.toNat hi lo :=
        fun hh hf => (s.apBits_apSet_same _ _ _ _ hlt).trans (hfield hh hf)
      rw [if_neg hr, s.writeCfg_taken q new he' fun h => hr (hrefuse.2 h)]
      exact ⟨hbits (by decide) rfl, hbits (by decide) rfl, hbits (by decide) rfl, hbits (by decide) rfl, hbits (by decide) rfl⟩

/-! ### Doors (R429) -/

theorem State.apBits_bit (s : State) (off b : Nat) : s.apBits off b b = ((s.ap! off).testBit b).toNat := bitsOf_bit _ b

/-- What `State.writeDoor` stores. -/
def doorValue (old : Nat) (host : Bool) (v : Nat) : Nat :=
  let cleared := old &&& (0xF - (v % 16 &&& (if host then 0xD else 0xF)))
  if host && v / 2 % 2 = 1 then cleared ||| 2 else cleared

theorem State.writeDoor_eq (s : State) (n : Nat) (host : Bool) (v : Nat) :
    s.writeDoor n host v = s.apSet (offDoor n) (doorValue (s.ap! (offDoor n)) host v) := rfl

theorem doorValue_lt {old : Nat} (h : old < 2 ^ 64) (host : Bool) (v : Nat) : doorValue old host v < 2 ^ 64 := by
  have hlt : ∀ m, old &&& m < 2 ^ 64 := fun m => Nat.lt_of_le_of_lt Nat.and_le_left h
  unfold doorValue
  dsimp only
  split
  · exact Nat.or_lt_two_pow (hlt _) (by decide)
  · exact hlt _

/-- A bit written 0 stays; written 1 it is set where the host sets HOST, else cleared. -/
theorem testBit_doorValue (old : Nat) (host : Bool) (v : Nat) {b : Nat} (hb : b < 4) :
    (doorValue old host v).testBit b = if v.testBit b = true then host && decide (b = 1) else old.testBit b := by
  have hmask : ∀ m, m < 2 ^ 4 → (0xF - (v % 16 &&& m)).testBit b = !(v.testBit b && m.testBit b) := fun m hm => by
    have hx := Nat.and_lt_two_pow (v % 16) hm
    have := Nat.testBit_two_pow_sub_succ hx b
    rw [show 2 ^ 4 - ((v % 16 &&& m) + 1) = 0xF - (v % 16 &&& m) by omega] at this
    rw [this, Nat.testBit_and, show 16 = 2 ^ 4 from rfl, Nat.testBit_mod_two_pow, decide_eq_true hb, Bool.true_and, Bool.true_and]
  have hone : decide (v / 2 % 2 = 1) = v.testBit 1 := by simp [Nat.testBit_eq_decide_div_mod_eq]
  have hD : ∀ b < 4, Nat.testBit 0xD b = decide (b ≠ 1) := by decide
  have hF : ∀ b < 4, Nat.testBit 0xF b = true := by decide
  have hset : Nat.testBit 2 b = decide (b = 1) := by rw [show 2 = 2 ^ 1 from rfl, Nat.testBit_two_pow]; simp [eq_comm]
  unfold doorValue
  dsimp only
  rw [hone]
  cases host with
  | false =>
    simp only [Bool.false_and, Bool.false_eq_true, if_false, Nat.testBit_and, hmask 0xF (by decide), hF b hb]
    cases v.testBit b <;> simp
  | true =>
    simp only [Bool.true_and, if_true]
    by_cases h1 : b = 1
    · subst h1
      cases hv : v.testBit 1 <;> simp [hmask 0xD (by decide), hD 1 hb, hset, hv]
    · cases hv : v.testBit 1 <;> cases hw : v.testBit b <;> simp [hmask 0xD (by decide), hD b hb, hset, hw, h1]

theorem State.writeDoor_onlyRegs (s : State) (n : Nat) (host : Bool) (v : Nat) : OnlyRegs (· = offDoor n) s (s.writeDoor n host v) :=
  s.apSet_onlyRegs _ _ (doorValue_lt (s.ap!_lt _) host v)

theorem State.apBits_writeDoor (s : State) (n : Nat) (host : Bool) (v : Nat) {b : Nat} (hb : b < 4) :
    (s.writeDoor n host v).apBits (offDoor n) b b =
      if v.testBit b = true then (host && decide (b = 1)).toNat else s.apBits (offDoor n) b b := by
  rw [s.writeDoor_eq, s.apBits_apSet_same _ _ _ _ (doorValue_lt (s.ap!_lt _) host v), bitsOf_bit, testBit_doorValue _ _ _ hb, s.apBits_bit]
  split <;> rfl

theorem State.ring_onlyRegs (s : State) {n bit : Nat} (hb : bit < 64) : OnlyRegs (· = offDoor n) s (s.ring n bit) :=
  s.apSet_onlyRegs _ _ (Nat.or_lt_two_pow (s.ap!_lt _) (Nat.pow_lt_pow_right (by decide) hb))

theorem State.apBits_ring (s : State) (n m : Nat) {bit : Nat} (hb : bit < 64) :
    (s.ring n bit).apBits (offDoor m) bit bit = if m = n then 1 else s.apBits (offDoor m) bit bit := by
  split
  · subst m
    rw [State.ring, s.apBits_apSet_same _ _ _ _ (Nat.or_lt_two_pow (s.ap!_lt _) (Nat.pow_lt_pow_right (by decide) hb)), bitsOf_bit,
      Nat.testBit_or, Nat.testBit_two_pow_self, Bool.or_true, Bool.toNat_true]
  · rw [State.apBits, State.apBits, (s.ring_onlyRegs hb).regs _ (by simp only [offDoor]; omega)]

/-- Ringing a bit of several doors sets it in each of them. -/
theorem State.apBits_rings (s : State) (l : List Nat) {n bit : Nat} (hb : bit < 64) (hn : n ∈ l ∨ s.apBits (offDoor n) bit bit = 1) :
    (l.foldl (fun s n => s.ring n bit) s).apBits (offDoor n) bit bit = 1 := by
  induction l generalizing s with
  | nil => simpa using hn
  | cons m l ih =>
    refine ih (s.ring m bit) ?_
    rw [s.apBits_ring m n hb]
    by_cases h : n = m
    · simp [h]
    · simpa [h] using hn

theorem State.rings_onlyRegs (s : State) (l : List Nat) {bit : Nat} (hb : bit < 64) :
    OnlyRegs (fun off => ∃ n ∈ l, off = offDoor n) s (l.foldl (fun s n => s.ring n bit) s) := by
  induction l generalizing s with
  | nil => exact OnlyRegs.refl _ s
  | cons m l ih =>
    exact ((s.ring_onlyRegs hb).mono fun off h => ⟨m, List.mem_cons_self, h⟩).trans
      ((ih (s.ring m bit)).mono fun off ⟨n, hn, h⟩ => ⟨n, List.mem_cons_of_mem _ hn, h⟩)

/-- The bits of a door after a write of it, by its writer (R429). -/
theorem State.apBits_apWord_door (s : State) (who : Writer) {n b : Nat} (hn : n < 5) (hb : b < 4) (v : BitVec 32) :
    (s.apWord who (offDoor n) 4 v.toNat).apBits (offDoor n) b b =
      if v.getLsbD b = true then ((who == .host) && decide (b = 1)).toNat else s.apBits (offDoor n) b b := by
  rw [s.apWord_door who hn, s.apBits_writeDoor n _ _ hb, BitVec.testBit_toNat]

theorem State.apWord_door_onlyRegs (s : State) (who : Writer) {n : Nat} (hn : n < 5) (v : BitVec 32) :
    OnlyRegs (· = offDoor n) s (s.apWord who (offDoor n) 4 v.toNat) :=
  (s.apWord_door who hn v).symm ▸ s.writeDoor_onlyRegs n _ _

/-- A tick rings every door, and steps that follow it come first on the agenda (R429). -/
theorem State.rings_soon_spec (s : State) (ps : List Pending) (l : List Nat) :
    let t := (l.foldl (fun s n => s.ring n 0) s).soon ps
    (∀ n ∈ l, t.apBits (offDoor n) 0 0 = 1) ∧ t.agenda = ps ++ s.agenda ∧ t.mem = s.mem ∧ t.warps = s.warps := by
  have honly := s.rings_onlyRegs l (bit := 0) (by decide)
  exact ⟨fun n hn => s.apBits_rings l (by decide) (.inl hn), congrArg (ps ++ ·) honly.agenda, honly.mem, honly.warps⟩

/-! ### Registers without a row of their own (R9, R252, R254, R310, R313, R432) -/

/-- A write of some bytes of a register with no rule of its own, bit by bit. -/
theorem State.apWord_plain (s : State) (who : Writer) {r : Reg} {k n : Nat} (v : BitVec 64) (hr : ∀ i < r.bytes, regAt (r.base + i) = some r)
    (hk : r.kind = .plain) (hd : r.rw &&& r.w1c = 0) (hrw : r.rw < 2 ^ 64) (hw1c : r.w1c < 2 ^ 64) (hkn : k + n ≤ r.bytes) :
    OnlyRegs (· = r.base) s (s.apWord who (r.base + k) n v.toNat) ∧
      ∀ b < 64, ((s.apWord who (r.base + k) n v.toNat).ap! r.base).testBit b =
        if 8 * k ≤ b ∧ b < 8 * (k + n) ∧ r.rw.testBit b = true then v.getLsbD (b - 8 * k)
        else if 8 * k ≤ b ∧ b < 8 * (k + n) ∧ r.w1c.testBit b = true ∧ v.getLsbD (b - 8 * k) = true then false
        else (s.ap! r.base).testBit b := by
  rcases Nat.eq_zero_or_pos n with rfl | hn
  · rw [State.apWord_outside fun i hi => absurd hi (Nat.not_lt_zero i)]
    refine ⟨OnlyRegs.refl _ s, fun b _ => ?_⟩
    rw [if_neg (by omega), if_neg (by omega)]
  · rw [State.apWord_within hn (fun i hi => by rw [Nat.add_assoc]; exact hr (k + i) (by omega)) (Nat.le_add_right ..) (by omega),
      Nat.add_sub_cancel_left, s.writeReg_plain who hk]
    have hlt := merged_lt (cover := (2 ^ (8 * n) - 1) * 2 ^ (8 * k)) (v := v.toNat % 2 ^ (8 * n) * 2 ^ (8 * k)) (w1c := r.w1c)
      (s.ap!_lt r.base) hrw
    refine ⟨s.apSet_onlyRegs _ _ hlt, fun b hb => ?_⟩
    rw [s.ap!_apSet _ _ _ hlt, if_pos rfl, testBit_merged hd hrw hw1c hb, Nat.testBit_mul_two_pow, Nat.testBit_mul_two_pow,
      Nat.testBit_two_pow_sub_one, Nat.testBit_mod_two_pow, BitVec.testBit_toNat]
    by_cases hin : 8 * k ≤ b ∧ b < 8 * (k + n)
    · simp [hin, show b - 8 * k < 8 * n by omega]
    · have hout : ¬ (8 * k ≤ b ∧ b - 8 * k < 8 * n) := by omega
      simp only [← and_assoc, hin, false_and, if_false]
      simp only [Bool.and_eq_true, decide_eq_true_eq, hout, false_and, if_false]

/-- A write of GOV_FLOOR replaces its bits 15:0. -/
theorem State.apWord_govFloor_spec (s : State) (who : Writer) {p : Nat} (hp : p < 8) (v : BitVec 64) :
    let t := s.apWord who (offGovFloor p) 4 v.toNat
    t.apBits (offGovFloor p) 15 0 = v.toNat % 2 ^ 16 ∧ OnlyRegs (· = offGovFloor p) s t := by
  intro t
  have ht : t = s.apSet (offGovFloor p) (merged (fmask 15 0) 0 (s.ap! (offGovFloor p)) (2 ^ 32 - 1) (v.toNat % 2 ^ 32)) :=
    State.apWord_from_base (r := govFloorReg p) (by decide) (regAt_govFloor p hp) (Nat.le_refl 4)
  have hlt := merged_lt (rw := fmask 15 0) (w1c := 0) (cover := 2 ^ 32 - 1) (v := v.toNat % 2 ^ 32) (s.ap!_lt (offGovFloor p)) (by decide)
  rw [ht]
  refine ⟨?_, s.apSet_onlyRegs _ _ hlt⟩
  rw [s.apBits_apSet_same _ _ _ _ hlt, bitsOf_merged_whole (by decide) (by decide) (by decide) rfl]
  simp [bitsOf]

theorem State.apBits_modDie (s : State) (d : Nat) (f : Die → Die) (off hi lo : Nat) : (s.modDie d f).apBits off hi lo = s.apBits off hi lo := rfl
theorem State.apBits_modDev (s : State) (f : Device → Device) (off hi lo : Nat) : (s.modDev f).apBits off hi lo = s.apBits off hi lo := rfl

/-- What a write of PHS_CTX does (R254). -/
theorem State.apWord_phsCtx_spec (s : State) (who : Writer) {d : Nat} (hd : d < 4) (v : BitVec 32) :
    let t := s.apWord who (offPhsCtx d) 4 v.toNat
    (t.die d).phases = [] ∧ t.apBits (offPhsCtx d) 11 0 = bitsOf v.toNat 11 0 ∧ t.apBits (offPhsCtx d) 31 31 = bitsOf v.toNat 31 31 ∧
      (∀ k, k ≠ d → t.die k = s.die k) ∧ t.mem = s.mem ∧ t.warps = s.warps := by
  intro t
  have hlt := merged_lt (rw := phsCtxRw) (w1c := 0) (cover := 2 ^ 32 - 1) (v := v.toNat % 2 ^ 32) (s.ap!_lt (offPhsCtx d)) (by decide)
  have ho := s.apSet_onlyRegs (offPhsCtx d) _ hlt
  have hbits : ∀ {hi lo}, hi < 32 → bitsOf phsCtxRw hi lo = 2 ^ (hi + 1 - lo) - 1 → t.apBits (offPhsCtx d) hi lo = bitsOf v.toNat hi lo :=
    fun hh hf => by
      rw [show t = _ from s.apWord_phsCtx who hd v, State.writePhsCtx, State.apBits_modDie, State.apBits_apSet_same _ _ _ _ _ hlt,
        bitsOf_merged_whole (by decide) hh (by decide) hf]
  have hdie : ∀ k, t.die k = if k = d then { s.die d with phases := [] } else s.die k := fun k => by
    rw [show t = _ from s.apWord_phsCtx who hd v, State.writePhsCtx, State.die_modDie, State.die, State.die, ho.dies]
    rfl
  refine ⟨by rw [hdie, if_pos rfl], hbits (by decide) rfl, hbits (by decide) rfl, fun k hk => by rw [hdie, if_neg hk], ?_, ?_⟩
  · rw [show t = _ from s.apWord_phsCtx who hd v]; exact ho.mem
  · rw [show t = _ from s.apWord_phsCtx who hd v]; exact ho.warps

theorem bitsOf_keepField {old new hi lo : Nat} (h : lo ≤ hi) (bad : Bool) :
    bitsOf (keepField old new hi lo bad) hi lo = if bad = true then bitsOf old hi lo else bitsOf new hi lo := by
  unfold keepField
  split
  · rw [bitsOf_setBits_same h, bitsOf, Nat.mod_mod]
  · rfl

theorem bitsOf_keepField_apart {old new hi lo hi' lo' : Nat} (h : lo ≤ hi) (hd : hi' < lo ∨ hi < lo') (bad : Bool) :
    bitsOf (keepField old new hi lo bad) hi' lo' = bitsOf new hi' lo' := by
  unfold keepField
  split
  · exact bitsOf_setBits_apart h hd
  · rfl

theorem keepField_lt {old new hi lo n : Nat} (h : lo ≤ hi) (hn : hi < n) (hv : new < 2 ^ n) (bad : Bool) : keepField old new hi lo bad < 2 ^ n := by
  unfold keepField
  split
  · exact setBits_lt h hn hv
  · exact hv

/-- A write of WD_LOCAL: a count outside 16 to 40 leaves its field, and the rest is written (R252). -/
theorem State.apWord_wdLocal_spec (s : State) (who : Writer) {d : Nat} (hd : d < 4) (v : BitVec 64) :
    let t := s.apWord who (offWdLocal d) 4 v.toNat
    OnlyRegs (· = offWdLocal d) s t ∧ t.apBits (offWdLocal d) 8 8 = bitsOf v.toNat 8 8 ∧
      t.apBits (offWdLocal d) 5 0
        = if 16 ≤ bitsOf v.toNat 5 0 ∧ bitsOf v.toNat 5 0 ≤ 40 then bitsOf v.toNat 5 0 else s.apBits (offWdLocal d) 5 0 := by
  intro t
  obtain ⟨new, hnew⟩ : ∃ new, new = merged wdLocalRw 0 (s.ap! (offWdLocal d)) (2 ^ 32 - 1) (v.toNat % 2 ^ 32) := ⟨_, rfl⟩
  have ht : t = s.apSet (offWdLocal d) (keepField (s.ap! (offWdLocal d)) new 5 0 (bitsOf new 5 0 < 16 || 40 < bitsOf new 5 0)) := by
    rw [hnew]; exact s.apWord_wdLocal who hd v
  have hfield : ∀ {hi lo}, hi < 32 → bitsOf wdLocalRw hi lo = 2 ^ (hi + 1 - lo) - 1 → bitsOf new hi lo = bitsOf v.toNat hi lo :=
    fun hh hf => by rw [hnew, bitsOf_merged_whole (by decide) hh (by decide) hf]
  have hlt : ∀ bad, keepField (s.ap! (offWdLocal d)) new 5 0 bad < 2 ^ 64 :=
    keepField_lt (by decide) (by decide) (hnew ▸ merged_lt (s.ap!_lt _) (by decide))
  rw [ht]
  refine ⟨s.apSet_onlyRegs _ _ (hlt _), ?_, ?_⟩
  · rw [s.apBits_apSet_same _ _ _ _ (hlt _), bitsOf_keepField_apart (by decide) (by decide), hfield (by decide) rfl]
  · rw [s.apBits_apSet_same _ _ _ _ (hlt _), bitsOf_keepField (by decide), hfield (by decide) rfl]
    by_cases hin : 16 ≤ bitsOf v.toNat 5 0 ∧ bitsOf v.toNat 5 0 ≤ 40
    · rw [if_pos hin, if_neg (by simpa using hin)]
    · rw [if_neg hin, if_pos (by simp only [Bool.or_eq_true, decide_eq_true_eq]; omega)]
      rfl

/-- LQ_BASE refuses a value with 1 or 3 in bits 63:62 (R313). -/
theorem State.apWord_lqBase_refused (s : State) (who : Writer) {q : Nat} (hq : q < 1024) (v : BitVec 64)
    (hv : bitsOf v.toNat 63 62 = 1 ∨ bitsOf v.toNat 63 62 = 3) : OnlyRegs (fun _ => False) s (s.apWord who (offLqBase q) 8 v.toNat) := by
  have hfield : bitsOf (merged lqBaseRw 0 (s.ap! (offLqBase q)) (2 ^ 64 - 1) (v.toNat % 2 ^ 64)) 63 62 = bitsOf v.toNat 63 62 :=
    bitsOf_merged_whole (by decide) (by decide) (by decide) rfl
  have hkept : ∀ new, bitsOf new 63 62 = bitsOf v.toNat 63 62 → s.fieldRule (lqBaseReg q) (s.ap! (offLqBase q)) new = s.ap! (offLqBase q) :=
    fun new h => if_pos (by simpa [h] using hv)
  rw [s.apWord_lqBase who hq, hkept _ hfield]
  exact s.apSet_self_onlyRegs _

/-! ### GO reads as zero (R9) -/

/-- An invalidation writes BUSY, not GO. -/
theorem State.apBits_writeInvCtl_go (s : State) (cover new : Nat) (go : Bool) (hn : new < 2 ^ 64) (hnew : bitsOf new 31 31 = 0)
    (hs : s.apBits offInvCtl 31 31 = 0) : (s.writeInvCtl cover new go).apBits offInvCtl 31 31 = 0 := by
  have hset : (s.apSet offInvCtl (if cover = 0 then s.ap! offInvCtl else new)).apBits offInvCtl 31 31 = 0 := by
    split
    · rw [s.apBits_apSet_same _ _ _ _ (s.ap!_lt _)]; exact hs
    · rw [s.apBits_apSet_same _ _ _ _ hn, hnew]
  unfold State.writeInvCtl
  split
  · exact hs
  · dsimp only
    split
    · rw [State.startInval, State.apBits_modDev, State.apBits_apField_apart _ _ _ (by decide) (by decide) (by decide), hset]
    · exact hset

/-- An extend writes BUSY or its error, not GO. -/
theorem State.apBits_measExtend_go (s : State) (who : Writer) (idx : Nat) :
    (s.measExtend who idx).apBits offMeasCmd 31 31 = s.apBits offMeasCmd 31 31 := by
  unfold State.measExtend
  split
  · rfl
  · split
    · exact s.apBits_apField_apart _ _ (by decide) (by decide) (by decide)
    · rw [State.apBits_modDev]
      exact s.apBits_apField_apart _ _ (by decide) (by decide) (by decide)

theorem State.apWord_invCtl_go (s : State) (who : Writer) (v : BitVec 64) (hs : s.apBits offInvCtl 31 31 = 0) :
    (s.apWord who offInvCtl 4 v.toNat).apBits offInvCtl 31 31 = 0 := by
  have h : ∃ go, s.apWord who offInvCtl 4 v.toNat = s.writeInvCtl (2 ^ 32 - 1)
      (merged (fmask 17 15 + fmask 11 0) 0 (s.ap! offInvCtl) (2 ^ 32 - 1) (v.toNat % 2 ^ 32)) go :=
    ⟨_, State.apWord_from_base (r := invCtlReg) (by decide) regAt_invCtl (Nat.le_refl 4)⟩
  obtain ⟨go, h⟩ := h
  rw [h]
  refine s.apBits_writeInvCtl_go _ _ _ (merged_lt (s.ap!_lt _) (by decide)) ?_ hs
  rw [bitsOf_merged_ro (by decide) (by decide) (by decide) (by decide) (by decide) (by decide)]
  exact hs

theorem State.apWord_measCmd_go (s : State) (who : Writer) (v : BitVec 64) (hs : s.apBits offMeasCmd 31 31 = 0) :
    (s.apWord who offMeasCmd 4 v.toNat).apBits offMeasCmd 31 31 = 0 := by
  obtain ⟨new, hnew⟩ : ∃ new, new = merged (fmask 3 0) (2 ^ 29) (s.ap! offMeasCmd) (2 ^ 32 - 1) (v.toNat % 2 ^ 32) := ⟨_, rfl⟩
  have hgo : (s.apSet offMeasCmd new).apBits offMeasCmd 31 31 = 0 := by
    rw [s.apBits_apSet_same _ _ _ _ (hnew ▸ merged_lt (s.ap!_lt _) (by decide)), hnew,
      bitsOf_merged_ro (by decide) (by decide) (by decide) (by decide) (by decide) (by decide)]
    exact hs
  have h : ∃ (go : Prop) (_ : Decidable go), s.apWord who offMeasCmd 4 v.toNat =
      if go then (s.apSet offMeasCmd new).measExtend who (bitsOf new 3 0) else s.apSet offMeasCmd new := by
    rw [hnew]
    exact ⟨_, _, State.apWord_from_base (r := measCmdReg) (by decide) regAt_measCmd (Nat.le_refl 4)⟩
  obtain ⟨go, _, h⟩ := h
  rw [h]
  split
  · rw [State.apBits_measExtend_go, hgo]
  · exact hgo

/-! ### Loads (R26) -/

theorem State.loadDone_spec (s : State) {wid : Nat} (reg : Nat) {w : Warp} (hw : s.warp? wid = some w) (hb : s.apBits offDbgRegw 62 62 = 0) :
    OnlyWid wid s (s.loadDone wid reg) ∧ (s.loadDone wid reg).warp? wid = some { w with loads := Tab.del w.loads reg } := by
  have h : s.loadDone wid reg = s.modWarp wid fun w => { w with loads := Tab.del w.loads reg } :=
    if_neg fun h => by rw [State.apBits, State.ap!, State.modWarp_ap] at h; rw [State.apBits, State.ap!, h] at hb; exact absurd hb (by decide)
  rw [h]
  refine ⟨⟨rfl, rfl, rfl, rfl, rfl, rfl, rfl, rfl, rfl, fun k hk => ?_⟩, ?_⟩
  · rw [State.warp?_modWarp, if_neg hk]
  · rw [State.warp?_modWarp, if_pos rfl, hw, Option.map_some]

/-! ### The statements -/

/-- Settles O3: every table of the state is empty at reset, so each register reads its reset value. -/
theorem resetState : Obligations.ResetState := by
  unfold Obligations.ResetState
  rintro r rfl
  refine ⟨by decide +kernel, rfl, rfl, rfl, rfl, by decide +kernel, by decide +kernel, by decide +kernel, by decide +kernel, by decide +kernel,
    by decide +kernel, fun c => ⟨rfl, fun _ _ => rfl⟩⟩

/-- Settles O57, clause by clause from what a write of each register does. -/
theorem registerRowsComplete : Obligations.RegisterRowsComplete := by
  unfold Obligations.RegisterRowsComplete
  refine ⟨fun s q v hq => ⟨_, rfl, ?tail⟩, fun s q v hq => ⟨_, rfl, ?cfg⟩, fun s d v hd => ⟨_, rfl, s.apWord_phsCtx_spec .host hd v⟩,
    fun s n v hn => ⟨⟨_, rfl, ?hostDoor⟩, ⟨_, rfl, ?ownDoor⟩⟩, fun s => ⟨_, rfl, ?tick⟩,
    fun s who p v hp => ⟨_, rfl, s.apWord_govFloor_spec who hp v⟩,
    fun s who r k n v hr hk hd hrw hw1c hkn _ => ⟨_, rfl, s.apWord_plain who v hr hk hd hrw hw1c hkn⟩,
    fun s who off v hoff hs => ⟨_, rfl, ?go⟩, fun s who d v hd => ⟨_, rfl, s.apWord_wdLocal_spec who hd v⟩,
    fun s who q v hq hv => ⟨_, rfl, s.apWord_lqBase_refused who hq v hv⟩,
    fun s who off n v hr => congrArg Host.Outcome.next (State.apWord_outside hr), fun s wid reg w hw hb => ?load⟩
  case tail =>
    rw [s.apWord_lqTail .host hq v]
    exact s.writeTail_spec q v.toNat (Nat.lt_of_lt_of_le v.isLt (by decide))
  case cfg =>
    obtain ⟨honly, hfields⟩ := s.apWord_lqCfg_spec .host hq v
    exact ⟨honly.mem, honly.warps, honly.dev, honly.agenda, honly.regs, hfields⟩
  case hostDoor =>
    have honly := s.apWord_door_onlyRegs .host hn v
    refine ⟨fun h1 => ?_, fun b hb hb1 h => ?_, fun b hb h => ?_, honly.regs, congrArg (_ :: ·) honly.agenda, honly.mem, honly.warps⟩
    · exact (s.apBits_apWord_door .host hn (by decide) v).trans (by rw [if_pos h1]; rfl)
    · exact (s.apBits_apWord_door .host hn hb v).trans (by rw [if_pos h, decide_eq_false hb1]; rfl)
    · exact (s.apBits_apWord_door .host hn hb v).trans (by rw [h]; rfl)
  case ownDoor =>
    have honly := s.apWord_door_onlyRegs (.svc n) hn v
    refine ⟨fun b hb h => ?_, fun b hb h => ?_, congrArg (_ :: ·) honly.agenda, honly.mem, honly.warps⟩
    · exact (s.apBits_apWord_door (.svc n) hn hb v).trans (by rw [if_pos h]; rfl)
    · exact (s.apBits_apWord_door (.svc n) hn hb v).trans (by rw [h]; rfl)
  case tick =>
    obtain ⟨hbit, hframe⟩ := s.rings_soon_spec ((List.range 5).map fun n => .event (.haltWake n)) (List.range 5)
    exact ⟨fun n hn => hbit n (List.mem_range.2 hn), hframe⟩
  case go =>
    rcases hoff with rfl | rfl
    · exact s.apWord_invCtl_go who v hs
    · exact s.apWord_measCmd_go who v hs
  case load =>
    obtain ⟨honly, hwarp⟩ := s.loadDone_spec reg hw hb
    refine ⟨_, _, rfl, honly, hwarp, ⟨rfl, rfl, rfl⟩, ?_, fun k hk => ?_⟩
    · exact (Tab.look_del ..).trans (if_pos rfl)
    · exact (Tab.look_del ..).trans (if_neg hk)

end Sys2Proof.Machine
end

section
/-!
PROOFS. The instruction words (spec/01 R14 to R23): what the checks of operands bound, the fields of each operand form within their widths
and read back, and every encoded instruction named by its own fields. Settles O1 and O2.
-/

namespace Sys2Proof

/-! ### What the checks of operands bound -/

namespace Chk

variable {n hi : Nat} {wide : Bool}

@[simp] theorem g_iff : (g n).1 = true ↔ n ≤ 12 := decide_eq_true_iff
@[simp] theorem x_iff : (x n).1 = true ↔ n ≤ 511 := decide_eq_true_iff
@[simp] theorem k_iff : (k n).1 = true ↔ n ≤ 63 := decide_eq_true_iff
@[simp] theorem m_iff : (m n).1 = true ↔ n ≤ 11 := decide_eq_true_iff
@[simp] theorem cv_iff : (cv n).1 = true ↔ n ≤ 7 := decide_eq_true_iff
@[simp] theorem lim_iff : (lim n hi).1 = true ↔ n ≤ hi := decide_eq_true_iff

@[simp] theorem p_iff : (p n).1 = true ↔ n ≤ 511 ∧ n % 2 = 0 := by
  simp only [p, Bool.and_eq_true, decide_eq_true_eq, beq_iff_eq]; omega

@[simp] theorem w_iff : (w wide n).1 = true ↔ n ≤ 511 ∧ (wide = true → n % 2 = 0) := by
  cases wide
  · simp only [w, Bool.false_eq_true, if_false, x_iff, false_implies, and_true]
  · simp only [w, if_true, p_iff, true_implies]

theorem a_num {s : SrcA} (h : (a wide s).1 = true) : s.num ≤ 511 := by
  cases s with
  | x n => exact (w_iff.1 h).1
  | k n => exact Nat.le_trans (k_iff.1 h) (by decide)

theorem b_num {s : SrcB} (h : (b wide s).1 = true) : s.num ≤ 511 := by
  cases s with
  | x n => exact (w_iff.1 h).1
  | imm _ | lit _ => exact Nat.zero_le _

theorem bNoLit_num {s : SrcB} (h : (bNoLit wide s).1 = true) : s.num ≤ 511 ∧ s.len = 1 := by
  cases s with
  | x n => exact ⟨(w_iff.1 h).1, rfl⟩
  | imm _ => exact ⟨Nat.zero_le _, rfl⟩
  | lit _ => nomatch h

theorem kb_num {s : KSrc} (h : (kb s).1 = true) : s.num ≤ 511 := by
  cases s with
  | k n => exact Nat.le_trans (k_iff.1 h) (by decide)
  | imm _ | lit _ => exact Nat.zero_le _

theorem kbNoLit_num {s : KSrc} (h : (kbNoLit s).1 = true) : s.num ≤ 511 ∧ s.len = 1 ∧ s.litv = 0 := by
  cases s with
  | k n => exact ⟨Nat.le_trans (k_iff.1 h) (by decide), rfl, rfl⟩
  | imm _ => exact ⟨Nat.zero_le _, rfl, rfl⟩
  | lit _ => nomatch h

theorem leaB_num {s : SrcB} (h : (leaB s).1 = true) : s.num ≤ 511 := by
  cases s with
  | x n => exact x_iff.1 h
  | imm _ | lit _ => exact Nat.zero_le _

theorem optK_num {o : Option Nat} (h : (optK o).1 = true) : idxNum o ≤ 511 := by
  cases o with
  | none => exact Nat.zero_le _
  | some n => exact Nat.le_trans (k_iff.1 h) (by decide)

end Chk

/-! ### Operands within their fields, and read back -/

theorem SrcA.ka_lt (s : SrcA) : s.ka < 2 := by cases s <;> simp [SrcA.ka]
theorem idxIb_lt (o : Option Nat) : idxIb o < 2 := by cases o <;> simp [idxIb]
@[simp] theorem toNat_beq_one (b : Bool) : (b.toNat == 1) = b := by cases b <;> rfl

/-- A source B fills the fields of one of its three forms. -/
theorem SrcB.fields (s : SrcB) :
    (s.len = 1 ∧ s.litv = 0 ∨ s.len = 3) ∧ s.ib < 2 ∧ s.w2 < 4294967296 ∧ s.litv < 18446744073709551616 := by
  cases s with
  | x n => simp [SrcB.len, SrcB.ib, SrcB.w2, SrcB.litv]
  | imm v => simpa [SrcB.len, SrcB.ib, SrcB.w2, SrcB.litv] using v.isLt
  | lit v => simpa [SrcB.len, SrcB.ib, SrcB.w2, SrcB.litv] using v.isLt

theorem KSrc.fields (s : KSrc) :
    (s.len = 1 ∧ s.litv = 0 ∨ s.len = 3) ∧ s.ib < 2 ∧ s.w2 < 4294967296 ∧ s.litv < 18446744073709551616 := by
  cases s with
  | k n => simp [KSrc.len, KSrc.ib, KSrc.w2, KSrc.litv]
  | imm v => simpa [KSrc.len, KSrc.ib, KSrc.w2, KSrc.litv] using v.isLt
  | lit v => simpa [KSrc.len, KSrc.ib, KSrc.w2, KSrc.litv] using v.isLt

theorem SrcB.len_odd (s : SrcB) : s.len = 1 ∨ s.len = 3 := s.fields.1.imp_left And.left
theorem KSrc.len_odd (s : KSrc) : s.len = 1 ∨ s.len = 3 := s.fields.1.imp_left And.left

/-- An opcode with both extended forms has that of a source B. -/
theorem SrcB.formOk (s : SrcB) {op : Nat} (h : (formOk op 1 && formOk op 3) = true) : formOk op s.len = true := by
  obtain ⟨h1, h3⟩ := Bool.and_eq_true_iff.1 h
  rcases s.len_odd with e | e <;> rwa [e]

theorem KSrc.formOk (s : KSrc) {op : Nat} (h : (formOk op 1 && formOk op 3) = true) : formOk op s.len = true := by
  obtain ⟨h1, h3⟩ := Bool.and_eq_true_iff.1 h
  rcases s.len_odd with e | e <;> rwa [e]

theorem Raw.srcA_of {r : Raw} (s : SrcA) (ha : r.a = s.num) (hk : r.ka = s.ka) : r.srcA = s := by
  cases s <;> simp only [Raw.srcA, ha, hk, SrcA.num, SrcA.ka] <;> rfl

theorem Raw.srcB_of {r : Raw} (s : SrcB) (hl : r.len = s.len) (hi : r.ib = s.ib) (hb : r.b = s.num) (hw : r.w2 = s.w2)
    (hv : r.lit = s.litv) : r.srcB = s := by
  cases s <;> simp [Raw.srcB, hl, hi, hb, hw, hv, SrcB.len, SrcB.ib, SrcB.num, SrcB.w2, SrcB.litv]

theorem Raw.srcBnoImm_of {r : Raw} {s : SrcB} (h : (Chk.leaB s).1 = true) (hl : r.len = s.len) (hb : r.b = s.num) (hv : r.lit = s.litv) :
    r.srcBnoImm = s := by
  cases s with
  | x n => simp [Raw.srcBnoImm, hl, hb, SrcB.len, SrcB.num]
  | imm _ => nomatch h
  | lit v => simp [Raw.srcBnoImm, hl, hv, SrcB.len, SrcB.litv]

theorem Raw.kb_of {r : Raw} (s : KSrc) (hl : r.len = s.len) (hi : r.ib = s.ib) (hb : r.b = s.num) (hw : r.w2 = s.w2)
    (hv : r.lit = s.litv) : r.kb = s := by
  cases s <;> simp [Raw.kb, hl, hi, hb, hw, hv, KSrc.len, KSrc.ib, KSrc.num, KSrc.w2, KSrc.litv]

theorem Raw.idx_of {r : Raw} (o : Option Nat) (hi : r.ib = idxIb o) (hb : r.b = idxNum o) : r.idx = o := by
  cases o <;> simp [Raw.idx, hi, hb, idxIb, idxNum]

/-- A format of `cvt` is read back from its two fields (R150). -/
theorem CvtFmt.fields (f : CvtFmt) : (f.ok = true → f.fcode < 256) ∧ f.icode < 3 ∧ cvtFmtOf f.icode f.fcode = some f := by
  cases f with
  | elem c => simp [CvtFmt.ok, CvtFmt.fcode, CvtFmt.icode, cvtFmtOf]; omega
  | s32 | u32 => exact ⟨fun _ => by decide, by decide, rfl⟩

theorem Raw.rt_of {r : Raw} (t : Ret) (h : r.ret = t.code) : r.rt = t := by rw [Raw.rt, h, Ret.ofCode_code]

/-! ### An instruction of each form -/

/-- The fields of an extended form are within their widths when each is. -/
theorem Raw.fits_ext {r : Raw} (hl : r.len = 1 ∧ r.lit = 0 ∨ r.len = 3 ∧ r.lit < 18446744073709551616)
    (h : r.op < 256 ∧ r.d < 512 ∧ r.a < 512 ∧ r.f < 16 ∧ r.b < 512 ∧ r.c < 512 ∧ r.minor < 16 ∧ r.slot < 8 ∧ r.ret < 4 ∧ r.m3 < 8 ∧
      r.ib < 2 ∧ r.ka < 2 ∧ r.w2 < 4294967296) : r.Fits := by
  unfold Raw.Fits; omega

theorem candidate_ext {r : Raw} (h : r.len = 1 ∨ r.len = 3) : candidate r = candExt r := by
  rcases h with h | h <;> simp only [candidate, h] <;> rfl

/-- A base form (R15): the four fields of word 0 alone. -/
theorem encodes_base {i : Instr} {op f a d : Nat} (hr : toRaw i = some { op := op, f := f, a := a, d := d }) (hop : op < 256)
    (ho : formOk op 0 = true) (hf : f < 16) (hn : i.wf → a < 512 ∧ d < 512)
    (hc : candBase { op := op, f := f, a := a, d := d } = some i) : Encodes i := by
  intro hw r h
  obtain rfl := Option.some.inj (hr.symm.trans h)
  obtain ⟨ha, hd⟩ := hn hw
  exact ⟨by simp [Raw.Fits, hop, hf, ha, hd], ho, hc⟩

/-- A base form with a literal (R17). -/
theorem encodes_lit {i : Instr} {op f d : Nat} {v : BitVec 64} (hr : toRaw i = some { len := 2, op := op, f := f, d := d, lit := v.toNat })
    (hop : op < 256) (ho : formOk op 2 = true) (hf : f < 16) (hn : i.wf → d < 512)
    (hc : candLit { len := 2, op := op, f := f, d := d, lit := v.toNat } = some i) : Encodes i := by
  intro hw r h
  obtain rfl := Option.some.inj (hr.symm.trans h)
  exact ⟨by simp [Raw.Fits, hop, hf, hn hw, v.isLt], ho, hc⟩

/-- An extended form (R16, R17). -/
theorem encodes_ext {i : Instr} {r : Raw} (hr : toRaw i = some r) (hl : r.len = 1 ∨ r.len = 3) (ho : i.wf → formOk r.op r.len = true)
    (hf : i.wf → r.Fits) (hc : i.wf → candExt r = some i) : Encodes i := by
  intro hw q h
  obtain rfl := Option.some.inj (hr.symm.trans h)
  exact ⟨hf hw, ho hw, (candidate_ext hl).trans (hc hw)⟩

/-- An extended form of three words. -/
theorem encodes_ext1 {i : Instr} {r : Raw} (hr : toRaw i = some r) (hl : r.len = 1) (hz : r.lit = 0) (ho : formOk r.op 1 = true)
    (hf : i.wf → r.op < 256 ∧ r.d < 512 ∧ r.a < 512 ∧ r.f < 16 ∧ r.b < 512 ∧ r.c < 512 ∧ r.minor < 16 ∧ r.slot < 8 ∧ r.ret < 4 ∧ r.m3 < 8 ∧
      r.ib < 2 ∧ r.ka < 2 ∧ r.w2 < 4294967296)
    (hc : i.wf → candExt r = some i) : Encodes i :=
  encodes_ext hr (.inl hl) (fun _ => hl ▸ ho) (fun hw => Raw.fits_ext (.inl ⟨hl, hz⟩) (hf hw)) hc

/-! ### Lane-register operands (R116, R133) -/

/-- The fields of an extended form with the sources A and B of lane-register instructions. -/
def laneRaw (op m3 minor g d : Nat) (rt : Ret) (a : SrcA) (b : SrcB) (c : Nat) : Raw :=
  { len := b.len, f := g, a := a.num, d := d, op := op, ka := a.ka, ib := b.ib, m3 := m3, ret := rt.code, minor := minor, c := c,
    b := b.num, w2 := b.w2, lit := b.litv }

section
variable {op m3 minor g d c : Nat} {rt : Ret} {a : SrcA} {b : SrcB}

theorem laneRaw_fits (hop : op < 256) (hm3 : m3 < 8) (hm : minor < 16) (hg : g ≤ 12) (hd : d ≤ 511) (ha : a.num ≤ 511)
    (hb : b.num ≤ 511) (hc : c ≤ 511) : (laneRaw op m3 minor g d rt a b c).Fits := by
  have hka := a.ka_lt
  have hrt := rt.code_lt
  obtain ⟨hlen, hib, hw2, hlit⟩ := b.fields
  refine Raw.fits_ext ?_ ?_ <;> dsimp only [laneRaw] <;> omega

@[simp] theorem laneRaw_srcA : (laneRaw op m3 minor g d rt a b c).srcA = a := Raw.srcA_of a rfl rfl
@[simp] theorem laneRaw_srcB : (laneRaw op m3 minor g d rt a b c).srcB = b := Raw.srcB_of b rfl rfl rfl rfl rfl
@[simp] theorem laneRaw_rt : (laneRaw op m3 minor g d rt a b c).rt = rt := Raw.rt_of rt rfl

end

theorem int1Raw_eq (op : Nat) (e : Int1) : int1Raw op e = laneRaw op 0 e.ty.code e.g e.d e.rt e.a (.x 0) 0 := rfl
theorem int2Raw_eq (op m3 : Nat) (e : Int2) : int2Raw op m3 e = laneRaw op m3 e.ty.code e.g e.d e.rt e.a e.b 0 := rfl
theorem int3Raw_eq (op : Nat) (e : Int3) : int3Raw op e = laneRaw op 0 e.ty.code e.g e.d e.rt e.a e.b e.c := rfl
theorem fp1Raw_eq (op m3 : Nat) (e : Fp1) : fp1Raw op m3 e = laneRaw op m3 e.ty.code e.g e.d e.rt e.a (.x 0) 0 := rfl
theorem fp2Raw_eq (op m3 : Nat) (e : Fp2) : fp2Raw op m3 e = laneRaw op m3 e.ty.code e.g e.d e.rt e.a e.b 0 := rfl
theorem fp3Raw_eq (op m3 : Nat) (e : Fp3) : fp3Raw op m3 e = laneRaw op m3 e.ty.code e.g e.d e.rt e.a e.b e.c := rfl

theorem int1Of_int1Raw (op : Nat) (e : Int1) : int1Of (int1Raw op e) = some e := by
  rw [int1Raw_eq, int1Of, laneRaw_srcA, laneRaw_rt]; simp [laneRaw]
theorem int2Of_int2Raw (op m3 : Nat) (e : Int2) : int2Of (int2Raw op m3 e) = some e := by
  rw [int2Raw_eq, int2Of, laneRaw_srcA, laneRaw_srcB, laneRaw_rt]; simp [laneRaw]
theorem int3Of_int3Raw (op : Nat) (e : Int3) : int3Of (int3Raw op e) = some e := by
  rw [int3Raw_eq, int3Of, laneRaw_srcA, laneRaw_srcB, laneRaw_rt]; simp [laneRaw]
theorem fp1Of_fp1Raw (op m3 : Nat) (e : Fp1) : fp1Of (fp1Raw op m3 e) = some e := by
  rw [fp1Raw_eq, fp1Of, laneRaw_srcA, laneRaw_rt]; simp [laneRaw]
theorem fp2Of_fp2Raw (op m3 : Nat) (e : Fp2) : fp2Of (fp2Raw op m3 e) = some e := by
  rw [fp2Raw_eq, fp2Of, laneRaw_srcA, laneRaw_srcB, laneRaw_rt]; simp [laneRaw]
theorem fp3Of_fp3Raw (op m3 : Nat) (e : Fp3) : fp3Of (fp3Raw op m3 e) = some e := by
  rw [fp3Raw_eq, fp3Of, laneRaw_srcA, laneRaw_srcB, laneRaw_rt]; simp [laneRaw]

/-- The operands of a lane-register form within their namespaces. -/
def LaneBounds (g d : Nat) (a : SrcA) (b : SrcB) (c : Nat) : Prop := g ≤ 12 ∧ d ≤ 511 ∧ a.num ≤ 511 ∧ b.num ≤ 511 ∧ c ≤ 511

section
variable {only : Bool}

theorem int1_bounds {e : Int1} (h : firstBad (Chk.int1 only e) = none) : LaneBounds e.g e.d e.a (.x 0) 0 := by
  simp only [Chk.int1, firstBad_cons, Chk.g_iff, Chk.w_iff] at h
  obtain ⟨hg, -, ⟨hd, -⟩, ha, -⟩ := h
  exact ⟨hg, hd, Chk.a_num ha, Nat.zero_le _, Nat.zero_le _⟩
theorem int2_bounds {e : Int2} (h : firstBad (Chk.int2 only e) = none) : LaneBounds e.g e.d e.a e.b 0 := by
  simp only [Chk.int2, firstBad_cons, Chk.g_iff, Chk.w_iff] at h
  obtain ⟨hg, -, ⟨hd, -⟩, ha, hb, -⟩ := h
  exact ⟨hg, hd, Chk.a_num ha, Chk.b_num hb, Nat.zero_le _⟩
theorem cmp2_bounds {e : Int2} (h : firstBad (Chk.cmp2 e) = none) : LaneBounds e.g e.d e.a e.b 0 := by
  simp only [Chk.cmp2, firstBad_cons, Chk.g_iff, Chk.m_iff] at h
  obtain ⟨hg, hd, ha, hb, -⟩ := h
  exact ⟨hg, by omega, Chk.a_num ha, Chk.b_num hb, Nat.zero_le _⟩
theorem int3_bounds {e : Int3} (h : firstBad (Chk.int3 e) = none) : LaneBounds e.g e.d e.a e.b e.c := by
  simp only [Chk.int3, firstBad_cons, Chk.g_iff, Chk.w_iff] at h
  obtain ⟨hg, -, ⟨hd, -⟩, ha, hb, ⟨hc, -⟩, -⟩ := h
  exact ⟨hg, hd, Chk.a_num ha, Chk.b_num hb, hc⟩
theorem sel3_bounds {e : Int3} (h : firstBad (Chk.sel3 e) = none) : LaneBounds e.g e.d e.a e.b e.c ∧ e.b.len = 1 := by
  simp only [Chk.sel3, firstBad_cons, Chk.g_iff, Chk.w_iff, Chk.m_iff] at h
  obtain ⟨hg, -, ⟨hd, -⟩, ha, hb, hc, -⟩ := h
  exact ⟨⟨hg, hd, Chk.a_num ha, (Chk.bNoLit_num hb).1, by omega⟩, (Chk.bNoLit_num hb).2⟩
theorem fp1_bounds {e : Fp1} (h : firstBad (Chk.fp1 only e) = none) : LaneBounds e.g e.d e.a (.x 0) 0 := by
  simp only [Chk.fp1, firstBad_cons, Chk.g_iff, Chk.x_iff] at h
  obtain ⟨hg, -, hd, ha, -⟩ := h
  exact ⟨hg, hd, Chk.a_num ha, Nat.zero_le _, Nat.zero_le _⟩
theorem fp2_bounds {e : Fp2} (h : firstBad (Chk.fp2 e) = none) : LaneBounds e.g e.d e.a e.b 0 := by
  simp only [Chk.fp2, firstBad_cons, Chk.g_iff, Chk.x_iff] at h
  obtain ⟨hg, hd, ha, hb, -⟩ := h
  exact ⟨hg, hd, Chk.a_num ha, Chk.b_num hb, Nat.zero_le _⟩
theorem fcmp2_bounds {e : Fp2} (h : firstBad (Chk.fcmp2 e) = none) : LaneBounds e.g e.d e.a e.b 0 := by
  simp only [Chk.fcmp2, firstBad_cons, Chk.g_iff, Chk.m_iff] at h
  obtain ⟨hg, hd, ha, hb, -⟩ := h
  exact ⟨hg, by omega, Chk.a_num ha, Chk.b_num hb, Nat.zero_le _⟩
theorem fp3_bounds {e : Fp3} (h : firstBad (Chk.fp3 e) = none) : LaneBounds e.g e.d e.a e.b e.c := by
  simp only [Chk.fp3, firstBad_cons, Chk.g_iff, Chk.x_iff] at h
  obtain ⟨hg, hd, ha, hb, hc, -⟩ := h
  exact ⟨hg, hd, Chk.a_num ha, Chk.b_num hb, hc⟩
theorem fdot3_bounds {e : Fp3} (h : firstBad (Chk.fdot3 e) = none) : LaneBounds e.g e.d e.a e.b e.c ∧ e.b.len = 1 := by
  simp only [Chk.fdot3, firstBad_cons, Chk.g_iff, Chk.x_iff] at h
  obtain ⟨-, hg, hd, ha, hb, hc, -⟩ := h
  exact ⟨⟨hg, hd, Chk.a_num ha, (Chk.bNoLit_num hb).1, hc⟩, (Chk.bNoLit_num hb).2⟩

end

/-- An extended form of lane-register operands. -/
theorem encodes_lane {i : Instr} {op m3 minor g d c : Nat} {rt : Ret} {a : SrcA} {b : SrcB} {r : Raw} (hr : toRaw i = some r)
    (he : r = laneRaw op m3 minor g d rt a b c) (hop : op < 256) (hm3 : m3 < 8) (hm : minor < 16) (ho : i.wf → formOk op b.len = true)
    (hn : i.wf → LaneBounds g d a b c) (hc : i.wf → candExt r = some i) : Encodes i := by
  subst he
  refine encodes_ext hr b.len_odd ho (fun hw => ?_) hc
  obtain ⟨hg, hd, ha, hb, hc⟩ := hn hw
  exact laneRaw_fits hop hm3 hm hg hd ha hb hc

section
variable {op m3 : Nat}

theorem encodes_int1 {e : Int1} {mk : Int1 → Instr} (hr : toRaw (mk e) = some (int1Raw op e)) (hop : op < 256) (ho : formOk op 1 = true)
    (hn : (mk e).wf → LaneBounds e.g e.d e.a (.x 0) 0) (hc : candExt (int1Raw op e) = (int1Of (int1Raw op e)).map mk) : Encodes (mk e) :=
  encodes_lane hr (int1Raw_eq op e) hop (by decide) (Nat.lt_trans e.ty.code_lt (by decide)) (fun _ => ho) hn
    fun _ => hc.trans (by rw [int1Of_int1Raw, Option.map_some])
theorem encodes_int2 {e : Int2} {mk : Int2 → Instr} (hr : toRaw (mk e) = some (int2Raw op m3 e)) (hop : op < 256) (hm : m3 < 8)
    (ho : (formOk op 1 && formOk op 3) = true) (hn : (mk e).wf → LaneBounds e.g e.d e.a e.b 0)
    (hc : candExt (int2Raw op m3 e) = (int2Of (int2Raw op m3 e)).map mk) : Encodes (mk e) :=
  encodes_lane hr (int2Raw_eq op m3 e) hop hm (Nat.lt_trans e.ty.code_lt (by decide)) (fun _ => e.b.formOk ho) hn
    fun _ => hc.trans (by rw [int2Of_int2Raw, Option.map_some])
theorem encodes_int3 {e : Int3} {mk : Int3 → Instr} (hr : toRaw (mk e) = some (int3Raw op e)) (hop : op < 256)
    (ho : (mk e).wf → formOk op e.b.len = true) (hn : (mk e).wf → LaneBounds e.g e.d e.a e.b e.c)
    (hc : (mk e).wf → candExt (int3Raw op e) = (int3Of (int3Raw op e)).map mk) : Encodes (mk e) :=
  encodes_lane hr (int3Raw_eq op e) hop (by decide) (Nat.lt_trans e.ty.code_lt (by decide)) ho hn
    fun hw => (hc hw).trans (by rw [int3Of_int3Raw, Option.map_some])
theorem encodes_fp1 {e : Fp1} {mk : Fp1 → Instr} (hr : toRaw (mk e) = some (fp1Raw op m3 e)) (hop : op < 256) (hm : m3 < 8)
    (ho : formOk op 1 = true) (hn : (mk e).wf → LaneBounds e.g e.d e.a (.x 0) 0)
    (hc : candExt (fp1Raw op m3 e) = (fp1Of (fp1Raw op m3 e)).map mk) : Encodes (mk e) :=
  encodes_lane hr (fp1Raw_eq op m3 e) hop hm (Nat.lt_trans e.ty.code_lt (by decide)) (fun _ => ho) hn
    fun _ => hc.trans (by rw [fp1Of_fp1Raw, Option.map_some])
theorem encodes_fp2 {e : Fp2} {mk : Fp2 → Instr} (hr : toRaw (mk e) = some (fp2Raw op m3 e)) (hop : op < 256) (hm : m3 < 8)
    (ho : (formOk op 1 && formOk op 3) = true) (hn : (mk e).wf → LaneBounds e.g e.d e.a e.b 0)
    (hc : candExt (fp2Raw op m3 e) = (fp2Of (fp2Raw op m3 e)).map mk) : Encodes (mk e) :=
  encodes_lane hr (fp2Raw_eq op m3 e) hop hm (Nat.lt_trans e.ty.code_lt (by decide)) (fun _ => e.b.formOk ho) hn
    fun _ => hc.trans (by rw [fp2Of_fp2Raw, Option.map_some])
theorem encodes_fp3 {e : Fp3} {mk : Fp3 → Instr} (hr : toRaw (mk e) = some (fp3Raw op m3 e)) (hop : op < 256) (hm : m3 < 8)
    (ho : (mk e).wf → formOk op e.b.len = true) (hn : (mk e).wf → LaneBounds e.g e.d e.a e.b e.c)
    (hc : (mk e).wf → candExt (fp3Raw op m3 e) = (fp3Of (fp3Raw op m3 e)).map mk) : Encodes (mk e) :=
  encodes_lane hr (fp3Raw_eq op m3 e) hop hm (Nat.lt_trans e.ty.code_lt (by decide)) ho hn
    fun hw => (hc hw).trans (by rw [fp3Of_fp3Raw, Option.map_some])

end

/-! ### Scalar operands (R126) -/

/-- The fields of an extended form with a scalar source B. -/
def scaRaw (op m3 minor g d a : Nat) (b : KSrc) : Raw :=
  { len := b.len, f := g, a := a, d := d, op := op, ib := b.ib, m3 := m3, minor := minor, b := b.num, w2 := b.w2, lit := b.litv }

/-- An extended form with a scalar source B, which may be the literal. -/
theorem encodes_sca {i : Instr} {op m3 minor g d a : Nat} {b : KSrc} {r : Raw} (hr : toRaw i = some r) (he : r = scaRaw op m3 minor g d a b)
    (hop : op < 256) (hm3 : m3 < 8) (hm : minor < 16) (ho : (formOk op 1 && formOk op 3) = true)
    (hn : i.wf → g ≤ 12 ∧ d ≤ 511 ∧ a ≤ 511 ∧ (Chk.kb b).1 = true) (hc : r.kb = b → candExt r = some i) : Encodes i := by
  subst he
  refine encodes_ext hr b.len_odd (fun _ => b.formOk ho) (fun hw => ?_) fun _ => hc (Raw.kb_of b rfl rfl rfl rfl rfl)
  obtain ⟨hg, hd, ha, hb⟩ := hn hw
  have hb := Chk.kb_num hb
  obtain ⟨hlen, hib, hw2, hlit⟩ := b.fields
  refine Raw.fits_ext ?_ ?_ <;> dsimp only [scaRaw] <;> omega

/-- An extended form with a destination and a scalar source B alone. -/
theorem encodes_kDst {op g d : Nat} {b : KSrc} {mk : KSrc → Instr} (hr : toRaw (mk b) = some (scaRaw op 0 0 g d 0 b)) (hop : op < 256)
    (ho : (formOk op 1 && formOk op 3) = true) (hn : (mk b).wf → g ≤ 12 ∧ d ≤ 511 ∧ (Chk.kb b).1 = true)
    (hc : candExt (scaRaw op 0 0 g d 0 b) = some (mk (scaRaw op 0 0 g d 0 b).kb)) : Encodes (mk b) :=
  encodes_sca hr rfl hop (by decide) (by decide) ho (fun hw => (hn hw).imp_right fun h => ⟨h.1, by decide, h.2⟩) fun h => by rw [hc, h]

theorem sc2Of_sc2Raw (op minor m3 : Nat) (e : Sc2) : sc2Of (sc2Raw op minor m3 e) = e := by
  rw [sc2Of, Raw.kb_of e.b rfl rfl rfl rfl rfl]; rfl

theorem encodes_sc2 {op m3 minor : Nat} {e : Sc2} {mk : Sc2 → Instr} (hr : toRaw (mk e) = some (sc2Raw op minor m3 e)) (hop : op < 256)
    (hm3 : m3 < 8) (hm : minor < 16) (ho : (formOk op 1 && formOk op 3) = true)
    (hn : (mk e).wf → e.g ≤ 12 ∧ e.d ≤ 511 ∧ e.a ≤ 511 ∧ (Chk.kb e.b).1 = true)
    (hc : candExt (sc2Raw op minor m3 e) = some (mk (sc2Of (sc2Raw op minor m3 e)))) : Encodes (mk e) :=
  encodes_sca hr (rfl : _ = scaRaw op m3 minor e.g e.d e.a e.b) hop hm3 hm ho hn fun _ => hc.trans (by rw [sc2Of_sc2Raw])

theorem sc2_bounds {e : Sc2} (h : firstBad (Chk.sc2 e) = none) : e.g ≤ 12 ∧ e.d ≤ 511 ∧ e.a ≤ 511 ∧ (Chk.kb e.b).1 = true := by
  simp only [Chk.sc2, firstBad_cons, Chk.g_iff, Chk.k_iff] at h
  obtain ⟨hg, hd, ha, hb, -⟩ := h
  exact ⟨hg, by omega, by omega, hb⟩
theorem kcmp2_bounds {e : Sc2} (h : firstBad (Chk.kcmp2 e) = none) : e.g ≤ 12 ∧ e.d ≤ 511 ∧ e.a ≤ 511 ∧ (Chk.kb e.b).1 = true := by
  simp only [Chk.kcmp2, firstBad_cons, Chk.g_iff, Chk.k_iff, Chk.m_iff] at h
  obtain ⟨hg, hd, ha, hb, -⟩ := h
  exact ⟨hg, by omega, by omega, hb⟩

/-! ### Memory operands (R161, R177) -/

/-- The code of set W of a width and a space (R51). -/
theorem accessCode (w : MemW) (sp : Spc) :
    w.code + 8 * sp.code < 16 ∧ (w.code + 8 * sp.code) % 8 = w.code ∧ (w.code + 8 * sp.code) / 8 = sp.code := by
  have := w.code_lt
  have := sp.code_lt
  omega

theorem scopeNum_lt (o : Option Scope) : scopeNum o < 8 := by
  cases o with
  | none => exact Nat.succ_pos _
  | some s => exact Nat.lt_trans s.code_lt (by decide)

theorem scopeOpt_of {r : Raw} {o : Nat} (q : Option Scope) (ho : 0 < o) (hs : r.slot = scopeNum q) (hm : r.m3 = ordOf o q) :
    scopeOpt o r = some q := by
  cases q with
  | none => simp only [scopeOpt, hm, ordOf, if_true]
  | some s => simp [scopeOpt, hm, hs, ordOf, scopeNum, show o ≠ 0 by omega]

theorem ordOf_lt {o : Nat} (h : o < 4) (q : Option Scope) : ordOf o q < 8 := by
  cases q <;> simp only [ordOf] <;> omega

theorem memOf_memRaw (op minor m3 : Nat) (sc : Option Scope) (d : Nat) (e : Mem) : memOf (memRaw op minor m3 sc d e) = e := by
  rw [memOf, Raw.srcA_of e.a rfl rfl, Raw.idx_of e.idx rfl rfl, Raw.rt_of e.rt rfl]; simp [memRaw]

theorem encodes_mem {op minor m3 d : Nat} {sc : Option Scope} {e : Mem} {mk : Mem → Instr}
    (hr : toRaw (mk e) = some (memRaw op minor m3 sc d e)) (hop : op < 256) (hm : minor < 16) (hm3 : m3 < 8) (ho : formOk op 1 = true)
    (hn : (mk e).wf → d ≤ 511 ∧ firstBad (Chk.mem e) = none)
    (hc : candExt (memRaw op minor m3 sc d e) = some (mk (memOf (memRaw op minor m3 sc d e)))) : Encodes (mk e) := by
  refine encodes_ext1 hr rfl rfl ho (fun hw => ?_) fun _ => hc.trans (by rw [memOf_memRaw])
  obtain ⟨hd, hb⟩ := hn hw
  simp only [Chk.mem, firstBad_cons, Chk.g_iff] at hb
  obtain ⟨hg, ha, hx, -⟩ := hb
  have hidx : idxNum e.idx ≤ 511 := by
    cases h : e.idx with
    | none => exact Nat.zero_le _
    | some n => rw [h] at hx; exact Chk.x_iff.1 hx
  have := Chk.a_num ha
  have := e.a.ka_lt
  have := idxIb_lt e.idx
  have := e.rt.code_lt
  have := scopeNum_lt sc
  have := e.off.isLt
  dsimp only [memRaw]; omega

theorem atmOf_atmRaw (op minor c : Nat) (e : Atm) : atmOf (atmRaw op minor c e) = some e := by
  rw [atmOf, Raw.srcA_of e.a rfl rfl, Raw.rt_of e.rt rfl]; simp [atmRaw]

theorem encodes_atm {op minor c : Nat} {hasB hasC : Bool} {e : Atm} {mk : Atm → Instr} (hr : toRaw (mk e) = some (atmRaw op minor c e))
    (hop : op < 256) (hm : minor < 16) (ho : formOk op 1 = true)
    (hn : (mk e).wf → (e.d ≤ 511 ∧ e.b ≤ 511 ∧ c ≤ 511) ∧ firstBad (Chk.atm hasB hasC e) = none)
    (hc : candExt (atmRaw op minor c e) = (atmOf (atmRaw op minor c e)).map mk) : Encodes (mk e) := by
  refine encodes_ext1 hr rfl rfl ho (fun hw => ?_) fun _ => hc.trans (by rw [atmOf_atmRaw, Option.map_some])
  obtain ⟨⟨hd, hb, hc⟩, hl⟩ := hn hw
  simp only [Chk.atm, firstBad_cons, Chk.g_iff] at hl
  obtain ⟨hg, ha, -⟩ := hl
  have := Chk.a_num ha
  have := e.a.ka_lt
  have := e.rt.code_lt
  have := e.ord.code_lt
  have := e.sc.code_lt
  have := e.off.isLt
  dsimp only [atmRaw]; omega

/-! ### Conversions under a slot, sets of macros, and single bits -/

theorem cvsOf_cvsRaw (op w : Nat) (e : Cvs) : cvsOf (cvsRaw op w e) e.wide.code = some e := by
  rw [cvsOf, Raw.rt_of e.rt rfl]; simp [cvsRaw]

theorem encodes_cvs {op w : Nat} {ub uc : Bool} {e : Cvs} {mk : Cvs → Instr} (hr : toRaw (mk e) = some (cvsRaw op w e)) (hop : op < 256)
    (hw2 : w < 32) (ho : formOk op 1 = true) (hn : (mk e).wf → firstBad (Chk.cvs ub uc e) = none)
    (hc : candExt (cvsRaw op w e) = (cvsOf (cvsRaw op w e) e.wide.code).map mk) : Encodes (mk e) := by
  refine encodes_ext1 hr rfl rfl ho (fun hw => ?_) fun _ => hc.trans (by rw [cvsOf_cvsRaw, Option.map_some])
  have h := hn hw
  simp only [Chk.cvs, firstBad_cons, Chk.g_iff, Chk.lim_iff, Chk.x_iff] at h
  obtain ⟨hg, hs, hd, ha, hb, hc, -⟩ := h
  have hb : e.b ≤ 511 := by cases ub <;> simp at hb <;> omega
  have hc : e.c ≤ 511 := by cases uc <;> simp at hc <;> omega
  have := e.rt.code_lt
  have := e.wide.code_lt
  dsimp only [cvsRaw]; omega

/-- A set of macros is read back from word 2, whatever stands above its fields. -/
theorem msetOf_code {s : MSet} (h : firstBad (Chk.mset s) = none) (n : Nat) :
    s.code < 2 ^ 18 ∧ msetOf (s.code + 2 ^ 18 * n) = s := by
  obtain ⟨mf, kn, nm, tag⟩ := s
  simp only [Chk.mset, firstBad_cons, Chk.lim_iff, Bool.and_eq_true, decide_eq_true_eq] at h
  obtain ⟨ht, hf, hk, hn, -⟩ := h
  simp only [MSet.code, msetOf, MSet.mk.injEq]
  omega

theorem encodes_mm {op : Nat} {e : Mm} {mk : Mm → Instr} (hr : toRaw (mk e) = some (mmRaw op e)) (hop : op < 256) (ho : formOk op 1 = true)
    (hn : (mk e).wf → firstBad (Chk.mm e) = none) (hc : candExt (mmRaw op e) = some (mk (mmOf (mmRaw op e)))) : Encodes (mk e) := by
  have key : (mk e).wf → (e.g ≤ 12 ∧ e.slot ≤ 7 ∧ e.d ≤ 63 ∧ e.a ≤ 63 ∧ e.b ≤ 63 ∧ e.cv ≤ 7) ∧ (1 ≤ e.m ∧ e.m ≤ 64) ∧
      firstBad (Chk.mset e.set) = none := fun hw => by
    have h := hn hw
    simp only [Chk.mm, List.cons_append, List.nil_append, firstBad_cons, Chk.g_iff, Chk.lim_iff, Chk.k_iff, Chk.cv_iff, Bool.and_eq_true,
      decide_eq_true_eq] at h
    obtain ⟨hg, hs, hd, ha, hb, hc, hm, hset⟩ := h
    exact ⟨⟨hg, hs, hd, ha, hb, hc⟩, hm, hset⟩
  refine encodes_ext1 hr rfl rfl ho (fun hw => ?_) fun hw => hc.trans ?_
  · obtain ⟨hf, hm, hset⟩ := key hw
    have := (msetOf_code hset (e.m - 1)).1
    have := toNat_lt_two e.tile
    dsimp only [mmRaw]; omega
  · obtain ⟨-, hm, hset⟩ := key hw
    obtain ⟨hlt, hset⟩ := msetOf_code hset (e.m - 1)
    obtain ⟨g, slot, tile, d, a, b, cv, set, m⟩ := e
    simp only [mmOf, mmRaw, hset, toNat_beq_one, Option.some.injEq]
    congr 2
    dsimp only at hlt hm ⊢; omega

theorem bitN_of {v n : Nat} {b : Bool} (h : v / 2 ^ n % 2 = b.toNat) : bitN v n = b := by rw [bitN, h, toNat_beq_one]

/-! ### Instructions with fields of their own -/

theorem Encodes.call (off d) : Encodes (.call off d) := by
  refine encodes_base rfl (by decide) rfl (by decide) (fun hw => ?_) ?_
  · simp [Instr.wf, wfError] at hw; omega
  · show some (Instr.call (BitVec.ofNat 9 off.toNat) d) = _
    rw [BitVec.ofNat_toNat, BitVec.setWidth_eq]

theorem Encodes.ld (w sp a d) : Encodes (.ld w sp a d) := by
  obtain ⟨hlt, hmod, hdiv⟩ := accessCode w sp
  refine encodes_base rfl (by decide) rfl hlt (fun hw => by simp [Instr.wf, wfError] at hw; omega) ?_
  show (MemW.ofCode ((w.code + 8 * sp.code) % 8)).map (fun v => Instr.ld v (Spc.ofBit ((w.code + 8 * sp.code) / 8)) a d) = _
  rw [hmod, hdiv, MemW.ofCode_code, Spc.ofBit_code]; rfl

theorem Encodes.st (w sp a d) : Encodes (.st w sp a d) := by
  obtain ⟨hlt, hmod, hdiv⟩ := accessCode w sp
  refine encodes_base rfl (by decide) rfl hlt (fun hw => by simp [Instr.wf, wfError] at hw; omega) ?_
  show (MemW.ofCode ((w.code + 8 * sp.code) % 8)).map (fun v => Instr.st v (Spc.ofBit ((w.code + 8 * sp.code) / 8)) a d) = _
  rw [hmod, hdiv, MemW.ofCode_code, Spc.ofBit_code]; rfl

theorem Encodes.fdot2 (rm e) : Encodes (.fdot2 rm e) := by
  refine encodes_fp3 rfl (by decide) (Nat.lt_trans rm.code_lt (by decide)) (fun hw => by rw [(fdot3_bounds hw).2]; rfl)
    (fun hw => (fdot3_bounds hw).1) fun hw => ?_
  refine (if_pos (fdot3_bounds hw).2).trans ?_
  cases rm <;> rfl

theorem Encodes.shfl (mode g rt d a b) : Encodes (.shfl mode g rt d a b) := by
  refine encodes_lane (a := .x a) (b := b) (c := 0) rfl rfl (by decide) (by decide) (Nat.lt_trans mode.code_lt (by decide)) (fun _ => b.formOk rfl)
    (fun hw => ?_) fun _ => ?_
  · simp [Instr.wf, wfError] at hw
    obtain ⟨hg, hd, ha, hb, -⟩ := hw
    exact ⟨hg, hd, ha, Chk.b_num hb, Nat.zero_le _⟩
  · show (Shfl.ofCode mode.code).map (fun m => Instr.shfl m g (laneRaw 0x3D 0 mode.code g d rt (.x a) b 0).rt d a
      (laneRaw 0x3D 0 mode.code g d rt (.x a) b 0).srcB) = _
    simp

theorem Encodes.lea (g rt d a b sx sh) : Encodes (.lea g rt d a b sx sh) := by
  refine encodes_ext rfl b.len_odd (fun _ => b.formOk rfl) (fun hw => ?_) fun hw => ?_
  · simp [Instr.wf, wfError] at hw
    obtain ⟨hg, hd, ha, hb, -, hsh, -⟩ := hw
    have := Chk.a_num ha
    have := Chk.leaB_num hb
    have := a.ka_lt
    have := rt.code_lt
    have := toNat_lt_two sx
    obtain ⟨hlen, -, -, hlit⟩ := b.fields
    refine Raw.fits_ext ?_ ?_ <;> dsimp only <;> omega
  · simp [Instr.wf, wfError] at hw
    obtain ⟨-, -, -, hb, -, hsh, -⟩ := hw
    refine congrArg some ?_
    rw [Raw.rt_of rt rfl, Raw.srcA_of a rfl rfl, Raw.srcBnoImm_of hb rfl rfl rfl, show (16 * sx.toNat + sh) % 16 = sh by omega,
      show (16 * sx.toNat + sh) / 16 = sx.toNat by omega, toNat_beq_one]

theorem Encodes.mset (g d b) : Encodes (.mset g d b) := by
  refine encodes_kDst rfl (by decide) rfl (fun hw => ?_) rfl
  simp [Instr.wf, wfError] at hw
  obtain ⟨hg, hd, hb, -⟩ := hw
  exact ⟨hg, by omega, hb⟩

theorem Encodes.kget (g rt d a b) : Encodes (.kget g rt d a b) := by
  refine encodes_ext1 rfl rfl rfl rfl (fun hw => ?_) fun hw => ?_ <;> simp [Instr.wf, wfError] at hw <;> obtain ⟨hg, hd, ha, hb, -⟩ := hw <;>
    obtain ⟨hb, hlen, hlit⟩ := Chk.kbNoLit_num hb
  · obtain ⟨-, hib, hw2, -⟩ := b.fields
    have := rt.code_lt
    dsimp only; omega
  · refine congrArg some ?_
    rw [Raw.rt_of rt rfl, Raw.kb_of b hlen.symm rfl rfl rfl hlit.symm]

theorem Encodes.cdecl (g d b) : Encodes (.cdecl g d b) := by
  refine encodes_ext1 rfl rfl rfl rfl (fun hw => ?_) fun hw => ?_ <;> simp [Instr.wf, wfError] at hw <;> obtain ⟨hg, hd, hb⟩ := hw <;>
    obtain ⟨hb, hlen, hlit⟩ := Chk.kbNoLit_num hb
  · obtain ⟨-, hib, hw2, -⟩ := b.fields
    dsimp only; omega
  · exact congrArg (fun k => some (Instr.cdecl g d k)) (Raw.kb_of b hlen.symm rfl rfl rfl hlit.symm)

theorem Encodes.kld (g sp d a idx off) : Encodes (.kld g sp d a idx off) := by
  refine encodes_ext1 rfl rfl rfl rfl (fun hw => ?_) fun _ => ?_
  · simp [Instr.wf, wfError] at hw
    obtain ⟨hg, hd, ha, hx⟩ := hw
    have := Chk.optK_num hx
    have := idxIb_lt idx
    have := sp.code_lt
    have := off.isLt
    dsimp only; omega
  · refine (if_pos sp.code_lt).trans (congrArg some ?_)
    rw [Raw.idx_of idx rfl rfl, Spc.ofBit_code, BitVec.ofNat_toNat, BitVec.setWidth_eq]

theorem Encodes.ldExt (w sp acq d e) : Encodes (.ldExt w sp acq d e) := by
  obtain ⟨hlt, hmod, hdiv⟩ := accessCode w sp
  refine encodes_mem rfl (by decide) hlt (ordOf_lt (by decide) acq) rfl (fun hw => ?_) ?_
  · obtain ⟨-, hd⟩ := (firstBad_cons (_, _) _).1 hw
    obtain ⟨hd, he⟩ := (firstBad_cons _ _).1 hd
    exact ⟨(Chk.w_iff.1 hd).1, he⟩
  · show (MemW.ofCode ((w.code + 8 * sp.code) % 8)).bind (fun v => (scopeOpt 1 (memRaw 0xA0 (w.code + 8 * sp.code) (ordOf 1 acq) acq d e)).map
      fun q => Instr.ldExt v (Spc.ofBit ((w.code + 8 * sp.code) / 8)) q d (memOf _)) = _
    rw [hmod, hdiv, MemW.ofCode_code, Spc.ofBit_code, scopeOpt_of acq (by decide) rfl rfl]; rfl

theorem Encodes.stExt (w sp rel d e) : Encodes (.stExt w sp rel d e) := by
  obtain ⟨hlt, hmod, hdiv⟩ := accessCode w sp
  refine encodes_mem rfl (by decide) hlt (ordOf_lt (by decide) rel) rfl (fun hw => ?_) ?_
  · obtain ⟨-, hd⟩ := (firstBad_cons (_, _) _).1 hw
    obtain ⟨hd, he⟩ := (firstBad_cons _ _).1 hd
    exact ⟨(Chk.w_iff.1 hd).1, he⟩
  · show (MemW.ofCode ((w.code + 8 * sp.code) % 8)).bind (fun v => (scopeOpt 2 (memRaw 0xA1 (w.code + 8 * sp.code) (ordOf 2 rel) rel d e)).map
      fun q => Instr.stExt v (Spc.ofBit ((w.code + 8 * sp.code) / 8)) q d (memOf _)) = _
    rw [hmod, hdiv, MemW.ofCode_code, Spc.ofBit_code, scopeOpt_of rel (by decide) rfl rfl]; rfl

theorem Encodes.ldv (wide acq d e) : Encodes (.ldv wide acq d e) := by
  refine encodes_mem rfl (by decide) (by have := toNat_lt_two wide; omega) (ordOf_lt (by decide) acq) rfl (fun hw => ?_) ?_
  · obtain ⟨-, hd⟩ := (firstBad_cons (_, _) _).1 hw
    obtain ⟨hd, he⟩ := (firstBad_cons _ _).1 hd
    exact ⟨(Chk.p_iff.1 hd).1, he⟩
  · refine (if_pos (by cases wide <;> simp [memRaw])).trans ?_
    rw [scopeOpt_of acq (by decide) rfl rfl]
    cases wide <;> rfl

theorem Encodes.atm (op e) : Encodes (.atm op e) := by
  refine encodes_atm (hasB := true) (hasC := false) rfl (by decide) (Nat.lt_trans op.code_lt (by decide)) rfl (fun hw => ?_) (by cases op <;> rfl)
  simp [Instr.wf, wfError] at hw
  obtain ⟨-, hd, hb, h⟩ := hw
  exact ⟨by omega, h⟩

theorem Encodes.cas (wide e c) : Encodes (.cas wide e c) := by
  refine encodes_atm (mk := fun e => .cas wide e c) (hasB := true) (hasC := true) rfl (by decide)
    (Nat.lt_trans (toNat_lt_two wide) (by decide)) rfl (fun hw => ?_) (by cases wide <;> rfl)
  simp [Instr.wf, wfError] at hw
  obtain ⟨hd, hb, hc, h⟩ := hw
  exact ⟨by omega, h⟩

theorem Encodes.casv (wide e c) : Encodes (.casv wide e c) := by
  refine encodes_atm (mk := fun e => .casv wide e c) (hasB := true) (hasC := true) rfl (by decide)
    (Nat.lt_trans (toNat_lt_two wide) (by decide)) rfl (fun hw => ?_) (by cases wide <;> rfl)
  simp [Instr.wf, wfError] at hw
  obtain ⟨hd, hb, hc, h⟩ := hw
  exact ⟨by omega, h⟩

theorem Encodes.dgz (e) : Encodes (.dgz e) := by
  refine encodes_atm (hasB := false) (hasC := false) rfl (by decide) (by decide) rfl (fun hw => ?_) rfl
  simp [Instr.wf, wfError] at hw
  obtain ⟨hd, hb, h⟩ := hw
  exact ⟨by omega, h⟩

theorem Encodes.red (op e) : Encodes (.red op e) := by
  refine encodes_atm (hasB := true) (hasC := false) rfl (by decide) (Nat.lt_trans op.code_lt (by decide)) rfl (fun hw => ?_) (by cases op <;> rfl)
  simp [Instr.wf, wfError] at hw
  obtain ⟨-, -, hd, hb, h⟩ := hw
  exact ⟨by omega, h⟩

theorem Encodes.vset (g rt d a b) : Encodes (.vset g rt d a b) := by
  refine encodes_ext1 rfl rfl rfl rfl (fun hw => ?_) fun _ => ?_
  · simp [Instr.wf, wfError] at hw
    obtain ⟨hg, hd, ha, hb, -⟩ := hw
    have := Chk.a_num ha
    have := a.ka_lt
    have := rt.code_lt
    dsimp only; omega
  · refine congrArg some ?_
    rw [Raw.rt_of rt rfl, Raw.srcA_of a rfl rfl]

theorem Encodes.poll (g rt acq d a b bo sp ui cc) : Encodes (.poll g rt acq d a b bo sp ui cc) := by
  refine encodes_ext1 rfl rfl rfl rfl (fun hw => ?_) fun _ => ?_ <;> have := cc.code_lt <;> have := toNat_lt_two ui <;> have := sp.code_lt
  · simp [Instr.wf, wfError] at hw
    obtain ⟨hg, hd, ha, hb, hbo, -⟩ := hw
    have := Chk.a_num ha
    have := a.ka_lt
    have := rt.code_lt
    have := scopeNum_lt acq
    have := ordOf_lt (show 1 < 4 by decide) acq
    dsimp only; omega
  · generalize hv : 32 * bo + 16 * sp.code + 8 * ui.toNat + cc.code = v
    show (scopeOpt 1 _).bind (fun q => (Cc.ofCode (v % 8)).map fun k => Instr.poll g (Raw.rt _) q d (Raw.srcA _) b (v / 32) (Spc.ofBit (v / 16 % 2))
      (v / 8 % 2 == 1) k) = _
    rw [scopeOpt_of acq (by decide) rfl rfl, Raw.rt_of rt rfl, Raw.srcA_of a rfl rfl, show v % 8 = cc.code by omega, show v / 32 = bo by omega,
      show v / 16 % 2 = sp.code by omega, show v / 8 % 2 = ui.toNat by omega, Cc.ofCode_code, Spc.ofBit_code, toNat_beq_one]; rfl

theorem Encodes.mwait (g rt acq d a b ge) : Encodes (.mwait g rt acq d a b ge) := by
  refine encodes_ext1 rfl rfl rfl rfl (fun hw => ?_) fun _ => ?_
  · simp [Instr.wf, wfError] at hw
    obtain ⟨hg, hd, ha, hb, -⟩ := hw
    have := Chk.a_num ha
    have := a.ka_lt
    have := rt.code_lt
    have := scopeNum_lt acq
    have := ordOf_lt (show 1 < 4 by decide) acq
    have := toNat_lt_two ge
    dsimp only; omega
  · show (scopeOpt 1 _).map (fun q => Instr.mwait g (Raw.rt _) q d (Raw.srcA _) b (ge.toNat == 1)) = _
    rw [scopeOpt_of acq (by decide) rfl rfl, Raw.rt_of rt rfl, Raw.srcA_of a rfl rfl, toNat_beq_one]; rfl

theorem Encodes.cvt (g d a src dst sel ovf rnd) : Encodes (.cvt g d a src dst sel ovf rnd) := by
  obtain ⟨hsf, hsi, hs⟩ := src.fields
  obtain ⟨hdf, hdi, hd⟩ := dst.fields
  have := rnd.code_lt
  have := toNat_lt_two ovf
  refine encodes_ext1 rfl rfl rfl rfl (fun hw => ?_) fun hw => ?_ <;> simp [Instr.wf, wfError] at hw <;>
    obtain ⟨hg, hxd, hxa, ⟨⟨hsok, hdok⟩, -⟩, -, hsel⟩ := hw <;> specialize hsf hsok <;> specialize hdf hdok
  · dsimp only; omega
  · generalize hv : src.fcode + 256 * dst.fcode + 2 ^ 16 * rnd.code + 2 ^ 18 * ovf.toNat + 2 ^ 19 * sel + 2 ^ 22 * src.icode
      + 2 ^ 24 * dst.icode = v
    show (cvtFmtOf (v / 2 ^ 22 % 4) (v % 256)).bind (fun s => (cvtFmtOf (v / 2 ^ 24) (v / 256 % 256)).bind fun t =>
      (Rm.ofCode (v / 2 ^ 16 % 4)).map fun m => Instr.cvt g d a s t (v / 2 ^ 19 % 8) (v / 2 ^ 18 % 2 == 1) m) = _
    rw [show v / 2 ^ 22 % 4 = src.icode by omega, show v % 256 = src.fcode by omega, show v / 2 ^ 24 = dst.icode by omega,
      show v / 256 % 256 = dst.fcode by omega, show v / 2 ^ 16 % 4 = rnd.code by omega, show v / 2 ^ 19 % 8 = sel by omega,
      show v / 2 ^ 18 % 2 = ovf.toNat by omega, hs, hd, Rm.ofCode_code, toNat_beq_one]; rfl

theorem Encodes.cbx (half e) : Encodes (.cbx half e) := by
  refine encodes_cvs (ub := false) (uc := true) rfl (by decide) (by have := toNat_lt_two half; omega) rfl id ?_
  have := e.wide.code_lt
  show (cvsOf _ ((16 * half.toNat + e.wide.code) % 16)).map (fun e' => Instr.cbx ((16 * half.toNat + e.wide.code) / 16 == 1) e') = _
  rw [show (16 * half.toNat + e.wide.code) % 16 = e.wide.code by omega, show (16 * half.toNat + e.wide.code) / 16 = half.toNat by omega,
    toNat_beq_one]

theorem Encodes.braExt (g off) : Encodes (.braExt g off) := by
  refine encodes_ext1 rfl rfl rfl rfl (fun hw => ?_) fun _ => ?_
  · simp [Instr.wf, wfError] at hw
    have := off.isLt
    dsimp only; omega
  · show some (Instr.braExt g (BitVec.ofNat 32 off.toNat)) = _
    rw [BitVec.ofNat_toNat, BitVec.setWidth_eq]

theorem Encodes.kliExt (g d v) : Encodes (.kliExt g d v) := by
  refine encodes_ext1 rfl rfl rfl rfl (fun hw => ?_) fun _ => ?_
  · simp [Instr.wf, wfError] at hw
    have := v.isLt
    dsimp only; omega
  · show some (Instr.kliExt g d (BitVec.ofNat 32 v.toNat)) = _
    rw [BitVec.ofNat_toNat, BitVec.setWidth_eq]

theorem Encodes.liExt (g t d v) : Encodes (.liExt g t d v) := by
  refine encodes_ext1 rfl rfl rfl rfl (fun hw => ?_) fun _ => ?_
  · simp [Instr.wf, wfError] at hw
    have := v.isLt
    have := t.code_lt
    dsimp only; omega
  · show (IntTy.ofCode t.code).map (fun t => Instr.liExt g t d (BitVec.ofNat 32 v.toNat)) = _
    rw [IntTy.ofCode_code, BitVec.ofNat_toNat, BitVec.setWidth_eq]; rfl

theorem Encodes.brxExt (g a) : Encodes (.brxExt g a) := by
  refine encodes_ext1 rfl rfl rfl rfl (fun hw => ?_) fun _ => ?_
  · simp [Instr.wf, wfError] at hw
    have := Chk.a_num hw.2
    have := a.ka_lt
    dsimp only; omega
  · exact congrArg (fun s => some (Instr.brxExt g s)) (Raw.srcA_of a rfl rfl)

theorem Encodes.callExt (g rt d tgt) : Encodes (.callExt g rt d tgt) := by
  have := rt.code_lt
  cases tgt with
  | rel off =>
    refine encodes_ext1 rfl rfl rfl rfl (fun hw => ?_) fun _ => ?_
    · simp [Instr.wf, wfError] at hw
      have := off.isLt
      dsimp only [callRaw]; omega
    · show some (Instr.callExt g (Raw.rt _) d (.rel (BitVec.ofNat 32 off.toNat))) = _
      rw [Raw.rt_of rt rfl, BitVec.ofNat_toNat, BitVec.setWidth_eq]
  | reg a =>
    refine encodes_ext1 rfl rfl rfl rfl (fun hw => ?_) fun _ => ?_
    · simp [Instr.wf, wfError] at hw
      obtain ⟨hg, hd, ha, -⟩ := hw
      have := Chk.a_num (show (Chk.a true a).1 = true from ha)
      have := a.ka_lt
      dsimp only [callRaw]; omega
    · show some (Instr.callExt g (Raw.rt _) d (.reg (Raw.srcA _))) = _
      rw [Raw.rt_of rt rfl, Raw.srcA_of a rfl rfl]

theorem Encodes.mfindExt (g hi d a) : Encodes (.mfindExt g hi d a) := by
  refine encodes_ext1 rfl rfl rfl rfl (fun hw => ?_) fun _ => by cases hi <;> rfl
  simp [Instr.wf, wfError] at hw
  have := toNat_lt_two hi
  dsimp only; omega

theorem Encodes.fence (g ord sc) : Encodes (.fence g ord sc) := by
  refine encodes_ext1 rfl rfl rfl rfl (fun hw => ?_) fun _ => ?_
  · simp [Instr.wf, wfError] at hw
    have := ord.code_lt
    have := sc.code_lt
    dsimp only; omega
  · show (Scope.ofCode sc.code).bind (fun s => (Ord.ofCode (2 * ord.code / 2)).map fun o => Instr.fence g o s) = _
    rw [show 2 * ord.code / 2 = ord.code by omega, Scope.ofCode_code, Ord.ofCode_code]; rfl

theorem Encodes.xfence (g sc p q) : Encodes (.xfence g sc p q) := by
  have := p.code_lt
  have := q.code_lt
  refine encodes_ext1 rfl rfl rfl rfl (fun hw => ?_) fun _ => ?_
  · simp [Instr.wf, wfError] at hw
    have := sc.code_lt
    dsimp only; omega
  · show (Scope.ofCode sc.code).bind (fun s => (Path.ofCode ((p.code + 16 * q.code) % 16)).bind fun p' =>
      (Path.ofCode ((p.code + 16 * q.code) / 16)).map fun q' => Instr.xfence g s p' q') = _
    rw [show (p.code + 16 * q.code) % 16 = p.code by omega, show (p.code + 16 * q.code) / 16 = q.code by omega, Scope.ofCode_code,
      Path.ofCode_code, Path.ofCode_code]; rfl

theorem Encodes.barExt (g kind id exp cnt) : Encodes (.barExt g kind id exp cnt) := by
  refine encodes_ext1 rfl rfl rfl rfl (fun hw => ?_) fun hw => ?_ <;> simp [Instr.wf, wfError] at hw <;> obtain ⟨hg, hid, hexp, hcnt⟩ := hw
  · have := kind.code_lt
    have : cnt ≤ 64 := by split at hcnt <;> omega
    dsimp only; omega
  · show (BarKind.ofCode kind.code).map (fun k => Instr.barExt g k id ((exp + 256 * cnt) % 256) ((exp + 256 * cnt) / 256)) = _
    rw [BarKind.ofCode_code, show (exp + 256 * cnt) % 256 = exp by omega, show (exp + 256 * cnt) / 256 = cnt by omega]; rfl

theorem Encodes.bld (g slot tile a b c set) : Encodes (.bld g slot tile a b c set) := by
  refine encodes_ext1 rfl rfl rfl rfl (fun hw => ?_) fun hw => ?_ <;> simp [Instr.wf, wfError] at hw <;>
    obtain ⟨hg, hs, ha, hb, hc, hset⟩ := hw <;> obtain ⟨hlt, hset⟩ := msetOf_code hset 0
  · have := toNat_lt_two tile
    dsimp only; omega
  · refine (if_pos (toNat_lt_two tile)).trans ?_
    show some (Instr.bld g slot (tile.toNat == 1) a b c (msetOf (set.code + 2 ^ 18 * 0))) = _
    rw [hset, toNat_beq_one]

theorem Encodes.mmo (g d a set) : Encodes (.mmo g d a set) := by
  refine encodes_ext1 rfl rfl rfl rfl (fun hw => ?_) fun hw => ?_ <;> simp [Instr.wf, wfError] at hw <;>
    obtain ⟨hg, hd, ha, hset⟩ := hw <;> obtain ⟨hlt, hset⟩ := msetOf_code hset 0
  · dsimp only; omega
  · exact congrArg (fun m => some (Instr.mmo g d a m)) hset

theorem Encodes.cpy (g d a b c tag sh dh ss ds) : Encodes (.cpy g d a b c tag sh dh ss ds) := by
  have := toNat_lt_two sh
  have := toNat_lt_two dh
  have := toNat_lt_two ss
  have := toNat_lt_two ds
  refine encodes_ext1 rfl rfl rfl rfl (fun hw => ?_) fun hw => ?_ <;> simp [Instr.wf, wfError] at hw <;>
    obtain ⟨hg, hd, ha, hb, hc, ht, -⟩ := hw
  · dsimp only; omega
  · generalize hv : tag + 128 * sh.toNat + 256 * dh.toNat + 512 * ss.toNat + 1024 * ds.toNat = v
    show some (Instr.cpy g d a b c (v % 128) (bitN v 7) (bitN v 8) (bitN v 9) (bitN v 10)) = _
    rw [show v % 128 = tag by omega, bitN_of (show v / 2 ^ 7 % 2 = sh.toNat by omega), bitN_of (show v / 2 ^ 8 % 2 = dh.toNat by omega),
      bitN_of (show v / 2 ^ 9 % 2 = ss.toNat by omega), bitN_of (show v / 2 ^ 10 % 2 = ds.toNat by omega)]

theorem Encodes.cpw (g d a b tag lb) : Encodes (.cpw g d a b tag lb) := by
  refine encodes_ext1 rfl rfl rfl rfl (fun hw => ?_) fun hw => ?_ <;> simp [Instr.wf, wfError] at hw <;>
    obtain ⟨hg, hd, ha, hb, ht, hl⟩ := hw
  · dsimp only; omega
  · show some (Instr.cpw g d a b ((tag + 128 * lb) % 128) ((tag + 128 * lb) / 128)) = _
    rw [show (tag + 128 * lb) % 128 = tag by omega, show (tag + 128 * lb) / 128 = lb by omega]

theorem Encodes.cps (g d a b c tag ss ds) : Encodes (.cps g d a b c tag ss ds) := by
  have := toNat_lt_two ss
  have := toNat_lt_two ds
  refine encodes_ext1 rfl rfl rfl rfl (fun hw => ?_) fun hw => ?_ <;> simp [Instr.wf, wfError] at hw <;>
    obtain ⟨hg, hd, ha, hb, hc, ht⟩ := hw
  · dsimp only; omega
  · generalize hv : tag + 512 * ss.toNat + 1024 * ds.toNat = v
    show some (Instr.cps g d a b c (v % 128) (bitN v 9) (bitN v 10)) = _
    rw [show v % 128 = tag by omega, bitN_of (show v / 2 ^ 9 % 2 = ss.toNat by omega), bitN_of (show v / 2 ^ 10 % 2 = ds.toNat by omega)]

theorem Encodes.coll (g a rq) : Encodes (.coll g a rq) := by
  refine encodes_ext1 rfl rfl rfl rfl (fun hw => ?_) fun _ => by cases rq <;> rfl
  simp [Instr.wf, wfError] at hw
  have := toNat_lt_two rq
  dsimp only; omega

theorem Encodes.rsum (g a b rq ss) : Encodes (.rsum g a b rq ss) := by
  refine encodes_ext1 rfl rfl rfl rfl (fun hw => ?_) fun _ => ?_ <;> have := toNat_lt_two rq <;> have := toNat_lt_two ss
  · simp [Instr.wf, wfError] at hw
    dsimp only; omega
  · show some (Instr.rsum g a b (bitN (rq.toNat + 2 * ss.toNat) 0) (bitN (rq.toNat + 2 * ss.toNat) 1)) = _
    rw [bitN_of (show (rq.toNat + 2 * ss.toNat) / 2 ^ 0 % 2 = rq.toNat by omega),
      bitN_of (show (rq.toNat + 2 * ss.toNat) / 2 ^ 1 % 2 = ss.toNat by omega)]

theorem Encodes.rinv (g d a b hidx narg cls) : Encodes (.rinv g d a b hidx narg cls) := by
  refine encodes_ext1 rfl rfl rfl rfl (fun hw => ?_) fun hw => ?_ <;> simp [Instr.wf, wfError] at hw <;>
    obtain ⟨hg, hd, ha, hb, hh, hn, hc, -⟩ := hw
  · dsimp only; omega
  · generalize hv : hidx + 4096 * narg + 2 ^ 16 * cls = v
    show some (Instr.rinv g d a b (v % 4096) (v / 4096 % 8) (v / 2 ^ 16)) = _
    rw [show v % 4096 = hidx by omega, show v / 4096 % 8 = narg by omega, show v / 2 ^ 16 = cls by omega]

theorem Encodes.rinvT (g d a b hidx narg cls) : Encodes (.rinvT g d a b hidx narg cls) := by
  refine encodes_ext1 rfl rfl rfl rfl (fun hw => ?_) fun hw => ?_ <;> simp [Instr.wf, wfError] at hw <;>
    obtain ⟨hg, hd, ha, hb, hh, hn, hc, -⟩ := hw
  · dsimp only; omega
  · generalize hv : hidx + 4096 * narg + 2 ^ 16 * cls = v
    show some (Instr.rinvT g d a b (v % 4096) (v / 4096 % 8) (v / 2 ^ 16)) = _
    rw [show v % 4096 = hidx by omega, show v / 4096 % 8 = narg by omega, show v / 2 ^ 16 = cls by omega]

theorem Encodes.post (g a sp) : Encodes (.post g a sp) := by
  refine encodes_ext1 rfl rfl rfl rfl (fun hw => ?_) fun _ => ?_
  · simp [Instr.wf, wfError] at hw
    have := sp.code_lt
    dsimp only; omega
  · refine (if_pos (show 2 * sp.code % 2 = 0 by omega)).trans ?_
    show some (Instr.post g a (Spc.ofBit (2 * sp.code / 2))) = _
    rw [show 2 * sp.code / 2 = sp.code by omega, Spc.ofBit_code]

theorem Encodes.intent (g a lead job) : Encodes (.intent g a lead job) := by
  have := toNat_lt_two job
  refine encodes_ext1 rfl rfl rfl rfl (fun hw => ?_) fun hw => ?_ <;> simp [Instr.wf, wfError] at hw <;> obtain ⟨hg, ha, hl⟩ := hw
  · dsimp only; omega
  · show some (Instr.intent g a ((lead + 2 ^ 16 * job.toNat) % 2 ^ 16) ((lead + 2 ^ 16 * job.toNat) / 2 ^ 16 == 1)) = _
    rw [show (lead + 2 ^ 16 * job.toNat) % 2 ^ 16 = lead by omega, show (lead + 2 ^ 16 * job.toNat) / 2 ^ 16 = job.toNat by omega,
      toNat_beq_one]

theorem Encodes.rblkAcq (g d n l) : Encodes (.rblkAcq g d n l) := by
  have := toNat_lt_two l
  refine encodes_ext1 rfl rfl rfl rfl (fun hw => ?_) fun hw => ?_ <;> simp [Instr.wf, wfError] at hw <;> obtain ⟨hg, hd, hn⟩ := hw
  · dsimp only; omega
  · show some (Instr.rblkAcq g d ((n + 16 * l.toNat) % 16) ((n + 16 * l.toNat) / 16 == 1)) = _
    rw [show (n + 16 * l.toNat) % 16 = n by omega, show (n + 16 * l.toNat) / 16 = l.toNat by omega, toNat_beq_one]

/-! ### Every instruction -/

/-- EVERY INSTRUCTION THAT HAS WORDS is named by the fields that it puts into them, family by family (R14 to R23, R53 to R61). -/
theorem encodes (i : Instr) : Encodes i := by
  cases i with
  -- base forms without operands, and with those of word 0
  | nop | exit | yield | halt => exact encodes_base rfl (by decide) rfl (by decide) (fun _ => by decide) rfl
  | bra off =>
    refine encodes_base rfl (by decide) rfl (by decide) (fun _ => by omega) ?_
    show some (Instr.bra (BitVec.ofNat 18 (off.toNat / 512 * 512 + off.toNat % 512))) = _
    rw [Nat.div_add_mod', BitVec.ofNat_toNat, BitVec.setWidth_eq]
  | call off d => exact Encodes.call off d
  | brx a | ret a | wait a | resume a | flush a | inv a | invIp a =>
    exact encodes_base rfl (by decide) rfl (by decide) (fun hw => by simp [Instr.wf, wfError] at hw; omega) rfl
  | join d | leave d | pcget d =>
    exact encodes_base rfl (by decide) rfl (by decide) (fun hw => by simp [Instr.wf, wfError] at hw; omega) rfl
  | trap n | brk n | bar n | barA n | barW n | phase n =>
    exact encodes_base rfl (by decide) rfl (by decide) (fun hw => by simp [Instr.wf, wfError] at hw; omega) rfl
  | callReg a d | gsr a d | gsrK a d | ssr a d | mmov a d | mand a d | mor a d | mxor a d | mnot a d | mpop a d | mfindLo a d | mfindHi a d
  | kmov a d | kadd a d | ksub a d | kmul a d | kand a d | kor a d | kxor a d | kshl a d | kshr a d | kshrA a d | twany a d | twall a d
  | tff a d =>
    exact encodes_base rfl (by decide) rfl (by decide) (fun hw => by simp [Instr.wf, wfError] at hw; omega) rfl
  | add t a d | sub t a d | mul t a d | mulh t a d | neg t a d | abs t a d | min t a d | max t a d | and t a d | or t a d | xor t a d
  | andn t a d | not t a d | shl t a d | shr t a d | sar t a d | rot t a d | clz t a d | ctz t a d | popc t a d | brev t a d | mov t a d
  | div t a d | rem t a d =>
    exact encodes_base rfl (by decide) rfl (Nat.lt_trans t.code_lt (by decide)) (fun hw => by simp [Instr.wf, wfError] at hw; omega)
      (by cases t <;> rfl)
  | fadd t a d | fsub t a d | fmul t a d | fmin t a d | fmax t a d | fabs t a d | fneg t a d | frcp t a d | frsq t a d | fsqrt t a d
  | fexp2 t a d | flog2 t a d | fsin t a d | fcos t a d | ftanh t a d | ffloor t a d | fceil t a d | frint t a d | fscale t a d
  | fclass t a d =>
    exact encodes_base rfl (by decide) rfl (Nat.lt_trans t.code_lt (by decide)) (fun hw => by simp [Instr.wf, wfError] at hw; omega)
      (by cases t <;> rfl)
  | ld w sp a d => exact Encodes.ld w sp a d
  | st w sp a d => exact Encodes.st w sp a d
  | prf k a =>
    exact encodes_base rfl (by decide) rfl (Nat.lt_trans k.code_lt (by decide)) (fun hw => by simp [Instr.wf, wfError] at hw; omega)
      (by cases k <;> rfl)
  -- base forms with a literal
  | liLit t d v =>
    refine encodes_lit rfl (by decide) rfl (Nat.lt_trans t.code_lt (by decide)) (fun hw => by simp [Instr.wf, wfError] at hw; omega) ?_
    show (IntTy.ofCode t.code).map (fun t => Instr.liLit t d (BitVec.ofNat 64 v.toNat)) = _
    rw [IntTy.ofCode_code, BitVec.ofNat_toNat, BitVec.setWidth_eq]; rfl
  | kliLit d v =>
    refine encodes_lit rfl (by decide) rfl (by decide) (fun hw => by simp [Instr.wf, wfError] at hw; omega) ?_
    show some (Instr.kliLit d (BitVec.ofNat 64 v.toNat)) = _
    rw [BitVec.ofNat_toNat, BitVec.setWidth_eq]
  -- extended forms of lane-register operands
  | negExt e | absExt e | notExt e | clzExt e | ctzExt e | popcExt e | brevExt e | movExt e =>
    exact encodes_int1 rfl (by decide) rfl int1_bounds rfl
  | mulExt e | mulhExt e | minExt e | maxExt e | andExt e | orExt e | xorExt e | andnExt e | shlExt e | shrExt e | sarExt e | rotExt e
  | bfe e | divExt e | remExt e => exact encodes_int2 rfl (by decide) (by decide) rfl int2_bounds rfl
  | addExt sat e | subExt sat e =>
    exact encodes_int2 rfl (by decide) (Nat.lt_trans (toNat_lt_two sat) (by decide)) rfl (fun hw => int2_bounds ((firstBad_cons (_, _) _).1 hw).2)
      (by cases sat <;> rfl)
  | cmp cc e => exact encodes_int2 rfl (by decide) (Nat.lt_trans cc.code_lt (by decide)) rfl cmp2_bounds (by cases cc <;> rfl)
  | mad e | bfi e => exact encodes_int3 rfl (by decide) (fun _ => e.b.formOk rfl) int3_bounds fun _ => rfl
  | sel e =>
    refine encodes_int3 rfl (by decide) (fun hw => by rw [(sel3_bounds hw).2]; rfl) (fun hw => (sel3_bounds hw).1) fun hw => ?_
    exact if_pos (sel3_bounds hw).2
  | fabsExt e | fnegExt e | frcpExt e | frsqExt e | fexp2Ext e | flog2Ext e | fsinExt e | fcosExt e | ftanhExt e | ffloorExt e | fceilExt e
  | frintExt e | fclassExt e => exact encodes_fp1 rfl (by decide) (by decide) rfl fp1_bounds rfl
  | fsqrtExt rm e => exact encodes_fp1 rfl (by decide) (Nat.lt_trans rm.code_lt (by decide)) rfl fp1_bounds (by cases rm <;> rfl)
  | fminExt e | fmaxExt e => exact encodes_fp2 rfl (by decide) (by decide) rfl fp2_bounds rfl
  | faddExt rm e | fsubExt rm e | fmulExt rm e | fscaleExt rm e =>
    exact encodes_fp2 rfl (by decide) (Nat.lt_trans rm.code_lt (by decide)) rfl fp2_bounds (by cases rm <;> rfl)
  | fcmp fc e => exact encodes_fp2 rfl (by decide) fc.code_lt rfl fcmp2_bounds (by cases fc <;> rfl)
  | ffma rm e =>
    exact encodes_fp3 rfl (by decide) (Nat.lt_trans rm.code_lt (by decide)) (fun _ => e.b.formOk rfl) fp3_bounds fun _ => by cases rm <;> rfl
  | fdot2 rm e => exact Encodes.fdot2 rm e
  | shfl mode g rt d a b => exact Encodes.shfl mode g rt d a b
  | lea g rt d a b sx sh => exact Encodes.lea g rt d a b sx sh
  -- scalar operands
  | kaddExt e | ksubExt e | kmulExt e | kandExt e | korExt e | kxorExt e | kshlExt e =>
    exact encodes_sc2 rfl (by decide) (by decide) (by decide) rfl sc2_bounds rfl
  | kshrExt arith e =>
    exact encodes_sc2 rfl (by decide) (by decide) (Nat.lt_trans (toNat_lt_two arith) (by decide)) rfl sc2_bounds (by cases arith <;> rfl)
  | kcmp cc ui e =>
    exact encodes_sc2 rfl (by decide) (Nat.lt_trans cc.code_lt (by decide)) (Nat.lt_trans (toNat_lt_two ui) (by decide)) rfl kcmp2_bounds
      (by cases cc <;> cases ui <;> rfl)
  | mset g d b => exact Encodes.mset g d b
  | twanyExt g d b | twallExt g d b | tffExt g d b =>
    refine encodes_kDst rfl (by decide) rfl (fun hw => ?_) rfl
    simp [Instr.wf, wfError] at hw
    obtain ⟨hg, hd, hb⟩ := hw
    exact ⟨hg, by omega, hb⟩
  | kget g rt d a b => exact Encodes.kget g rt d a b
  | cdecl g d b => exact Encodes.cdecl g d b
  | kld g sp d a idx off => exact Encodes.kld g sp d a idx off
  -- memory operands
  | ldExt w sp acq d e => exact Encodes.ldExt w sp acq d e
  | stExt w sp rel d e => exact Encodes.stExt w sp rel d e
  | ldv wide acq d e => exact Encodes.ldv wide acq d e
  | prfExt k e =>
    exact encodes_mem rfl (by decide) (Nat.lt_trans k.code_lt (by decide)) (by decide) rfl (fun hw => ⟨by decide, hw⟩)
      (by cases k <;> rfl)
  | flushExt e => exact encodes_mem rfl (by decide) (by decide) (by decide) rfl (fun hw => ⟨by decide, hw⟩) rfl
  | invExt ip e =>
    exact encodes_mem rfl (by decide) (Nat.lt_trans (toNat_lt_two ip) (by decide)) (by decide) rfl (fun hw => ⟨by decide, hw⟩)
      (by cases ip <;> rfl)
  | atm op e => exact Encodes.atm op e
  | cas wide e c => exact Encodes.cas wide e c
  | casv wide e c => exact Encodes.casv wide e c
  | binc e | winc e | addl e =>
    refine encodes_atm (hasB := true) (hasC := false) rfl (by decide) (by decide) rfl (fun hw => ?_) rfl
    simp [Instr.wf, wfError] at hw
    obtain ⟨hd, hb, h⟩ := hw
    exact ⟨by omega, h⟩
  | dgz e => exact Encodes.dgz e
  | red op e => exact Encodes.red op e
  | vset g rt d a b => exact Encodes.vset g rt d a b
  | poll g rt acq d a b bo sp ui cc => exact Encodes.poll g rt acq d a b bo sp ui cc
  | mwait g rt acq d a b ge => exact Encodes.mwait g rt acq d a b ge
  -- conversions
  | cvt g d a src dst sel ovf rnd => exact Encodes.cvt g d a src dst sel ovf rnd
  | qnt e =>
    exact encodes_cvs (w := 0) (ub := true) (uc := true) rfl (by decide) (by decide) rfl id
      (congrArg (fun n => (cvsOf _ n).map Instr.qnt) (Nat.zero_add _))
  | dqn e =>
    exact encodes_cvs (w := 0) (ub := false) (uc := true) rfl (by decide) (by decide) rfl id
      (congrArg (fun n => (cvsOf _ n).map Instr.dqn) (Nat.zero_add _))
  | cbx half e => exact Encodes.cbx half e
  | scl e =>
    exact encodes_cvs (w := 0) (ub := false) (uc := false) rfl (by decide) (by decide) rfl (fun hw => ((firstBad_cons (_, _) _).1 hw).2)
      (congrArg (fun n => (cvsOf _ n).map Instr.scl) (Nat.zero_add _))
  | pack4 e =>
    exact encodes_cvs (w := 0) (ub := false) (uc := false) rfl (by decide) (by decide) rfl id
      (congrArg (fun n => (cvsOf _ n).map Instr.pack4) (Nat.zero_add _))
  | unpack4 e =>
    exact encodes_cvs (w := 0) (ub := false) (uc := false) rfl (by decide) (by decide) rfl id
      (congrArg (fun n => (cvsOf _ n).map Instr.unpack4) (Nat.zero_add _))
  -- extended forms of control, masks and synchronisation
  | exitExt g =>
    exact encodes_ext1 rfl rfl rfl rfl (fun hw => by simp [Instr.wf, wfError] at hw; dsimp only; omega) fun _ => rfl
  | joinExt g d | leaveExt g d | pcgetExt g d | csig g d | abkGet g d | accZ g d =>
    exact encodes_ext1 rfl rfl rfl rfl (fun hw => by simp [Instr.wf, wfError] at hw; dsimp only; omega) fun _ => rfl
  | waitExt g a | trapExt g a | abkPut g a | phaseExt g a | rgn g a | rblkRel g a =>
    exact encodes_ext1 rfl rfl rfl rfl (fun hw => by simp [Instr.wf, wfError] at hw; dsimp only; omega) fun _ => rfl
  | mandExt g d a b | morExt g d a b | mxorExt g d a b | fput g d a b =>
    exact encodes_ext1 rfl rfl rfl rfl (fun hw => by simp [Instr.wf, wfError] at hw; dsimp only; omega) fun _ => rfl
  | postQueue g d a | fget g d a | fgetQueue g d a | launch g d a =>
    exact encodes_ext1 rfl rfl rfl rfl (fun hw => by simp [Instr.wf, wfError] at hw; dsimp only; omega) fun _ => rfl
  | braExt g off => exact Encodes.braExt g off
  | kliExt g d v => exact Encodes.kliExt g d v
  | liExt g t d v => exact Encodes.liExt g t d v
  | brxExt g a => exact Encodes.brxExt g a
  | callExt g rt d tgt => exact Encodes.callExt g rt d tgt
  | mfindExt g hi d a => exact Encodes.mfindExt g hi d a
  | fence g ord sc => exact Encodes.fence g ord sc
  | fenceL g sc | fenceR g sc =>
    refine encodes_ext1 rfl rfl rfl rfl (fun hw => ?_) fun _ => by cases sc <;> rfl
    simp [Instr.wf, wfError] at hw
    have := sc.code_lt
    dsimp only; omega
  | xfence g sc p q => exact Encodes.xfence g sc p q
  | barExt g kind id exp cnt => exact Encodes.barExt g kind id exp cnt
  -- engines and tasks
  | mmx e | mmq e => exact encodes_mm rfl (by decide) rfl id (if_pos (toNat_lt_two e.tile))
  | bld g slot tile a b c set => exact Encodes.bld g slot tile a b c set
  | mmo g d a set => exact Encodes.mmo g d a set
  | accLd g slot sp d a b tag | accSt g slot sp d a b tag =>
    refine encodes_ext1 rfl rfl rfl rfl (fun hw => ?_) fun _ => by cases sp <;> rfl
    simp [Instr.wf, wfError] at hw
    have := sp.code_lt
    dsimp only; omega
  | cpy g d a b c tag sh dh ss ds => exact Encodes.cpy g d a b c tag sh dh ss ds
  | cpw g d a b tag lb => exact Encodes.cpw g d a b tag lb
  | cps g d a b c tag ss ds => exact Encodes.cps g d a b c tag ss ds
  | coll g a rq => exact Encodes.coll g a rq
  | rsum g a b rq ss => exact Encodes.rsum g a b rq ss
  | rinv g d a b hidx narg cls => exact Encodes.rinv g d a b hidx narg cls
  | rinvT g d a b hidx narg cls => exact Encodes.rinvT g d a b hidx narg cls
  | post g a sp => exact Encodes.post g a sp
  | intent g a lead job => exact Encodes.intent g a lead job
  | rblkAcq g d n l => exact Encodes.rblkAcq g d n l
  -- rows of the opcode table that have no words
  | _ => exact fun _ _ h => nomatch h

/-- Settles O1: each word decodes as its fields say. -/
theorem specWordsDecode : Obligations.SpecWordsDecode := by
  unfold Obligations.SpecWordsDecode
  decide

/-- Settles O2: an instruction's fields name it, and its words are those fields. -/
theorem decodeInvertsEncode : Obligations.DecodeInvertsEncode := by
  intro i rest hw hs
  obtain ⟨r, hr⟩ := Option.isSome_iff_exists.1 hs
  exact decodeWords_of_encodes rest (encodes i) hw hr

end Sys2Proof
end

section
/-!
PROOFS. Instructions with one effect: what the tables of lane, mask and scalar instructions say is what their meanings run, and what an
effect finds of its warp is what the warp held at issue. Settles O7 and O8.
-/

namespace Sys2Proof.Machine

open Sys2Proof.Machine.Shape

/-! ### The registers an effect reads are those at issue -/

@[simp] theorem Warp.xr_atIssue (w : Warp) (f : Form) (s : State) (n l : Nat) : (w.atIssue f s).xr n l = w.xr n l := rfl
@[simp] theorem Warp.xn_atIssue (w : Warp) (f : Form) (s : State) (wide : Bool) (n l : Nat) :
    (w.atIssue f s).xn wide n l = w.xn wide n l := rfl
@[simp] theorem Warp.kr_atIssue (w : Warp) (f : Form) (s : State) (n : Nat) : (w.atIssue f s).kr n = w.kr n := rfl
@[simp] theorem Warp.mr_atIssue (w : Warp) (f : Form) (s : State) (n : Nat) : (w.atIssue f s).mr n = w.mr n := rfl
@[simp] theorem srcAVal_atIssue (wide : Bool) (a : SrcA) (w : Warp) (f : Form) (s : State) (l : Nat) :
    srcAVal wide a (w.atIssue f s) l = srcAVal wide a w l := by cases a <;> rfl
@[simp] theorem srcBVal_atIssue (wide : Bool) (b : SrcB) (w : Warp) (f : Form) (s : State) (l : Nat) :
    srcBVal wide b (w.atIssue f s) l = srcBVal wide b w l := by cases b <;> rfl
@[simp] theorem kSrcVal_atIssue (b : KSrc) (w : Warp) (f : Form) (s : State) : kSrcVal b (w.atIssue f s) = kSrcVal b w := by
  cases b <;> rfl
@[simp] theorem leaIndex_atIssue (sx : Bool) (b : SrcB) (w : Warp) (f : Form) (s : State) (l : Nat) :
    leaIndex sx b (w.atIssue f s) l = leaIndex sx b w l := by cases b <;> rfl
@[simp] theorem fpA_atIssue (a : SrcA) (w : Warp) (f : Form) (s : State) (l : Nat) : fpA a (w.atIssue f s) l = fpA a w l := by
  simp [fpA]
@[simp] theorem fpBv_atIssue (b : SrcB) (w : Warp) (f : Form) (s : State) (l : Nat) : fpBv b (w.atIssue f s) l = fpBv b w l := by
  simp [fpBv]

/-! ### What the tables say of an instruction is what it runs -/

/-- A lane instruction runs the write of its destination, whose value is that of the warp's registers at issue. -/
structure RunsVec (i : Instr) (v : VecShape) : Prop where
  exec_eq : ∀ s, exec i s = .next (s.execVec v.form v.wide v.d v.val)
  val_atIssue : ∀ (w : Warp) f s l, v.val (w.atIssue f s) l = v.val w l

theorem runsVec_intBase {i : Instr} {v : VecShape} (h : intBase i = some v) : RunsVec i v := by
  unfold intBase at h
  split at h
  case h_26 => nomatch h
  all_goals (obtain rfl := Option.some.inj h; exact ⟨fun _ => rfl, fun _ _ _ _ => by simp [vec, vecB1, vecB2]⟩)

theorem runsVec_intExt {i : Instr} {v : VecShape} (h : intExt i = some v) : RunsVec i v := by
  unfold intExt at h
  split at h
  case h_33 => nomatch h
  all_goals (obtain rfl := Option.some.inj h; exact ⟨fun _ => rfl, fun _ _ _ _ => by simp [vec, vecE1, vecE2, vecE3]⟩)

theorem runsVec_fpBase {i : Instr} {v : VecShape} (h : fpBase i = some v) : RunsVec i v := by
  unfold fpBase at h
  split at h
  case h_21 => nomatch h
  all_goals (obtain rfl := Option.some.inj h; exact ⟨fun _ => rfl, fun _ _ _ _ => by simp [vec, fltB1, fltB2]⟩)

theorem runsVec_fpExt {i : Instr} {v : VecShape} (h : fpExt i = some v) : RunsVec i v := by
  unfold fpExt at h
  split at h
  case h_23 => nomatch h
  all_goals (obtain rfl := Option.some.inj h; exact ⟨fun _ => rfl, fun _ _ _ _ => by simp [vec, fltE1, fltE2, fltE3]⟩)

/-- The same of an instruction that writes mask bits. -/
structure RunsMask (i : Instr) (v : MaskShape) : Prop where
  exec_eq : ∀ s, exec i s = .next (s.execMask v.form v.d v.bits)
  bits_atIssue : ∀ (w : Warp) f s l, v.bits (w.atIssue f s) l = v.bits w l

theorem runsMask {i : Instr} {v : MaskShape} (h : mask i = some v) : RunsMask i v := by
  unfold mask at h
  split at h
  case h_17 => nomatch h
  all_goals (obtain rfl := Option.some.inj h; exact ⟨fun _ => rfl, fun _ _ _ _ => by simp [msk]⟩)

/-- The same of a scalar instruction. -/
structure RunsSca (i : Instr) (v : ScaShape) : Prop where
  exec_eq : ∀ s, exec i s = .next (s.execSca v.form v.d v.val)
  val_atIssue : ∀ (w : Warp) f s, v.val (w.atIssue f s) = v.val w

theorem runsSca {i : Instr} {v : ScaShape} (h : scalar i = some v) : RunsSca i v := by
  unfold scalar at h
  split at h
  case h_26 => nomatch h
  all_goals (obtain rfl := Option.some.inj h; exact ⟨fun _ => rfl, fun _ _ _ => by simp [sca, scaB, scaE]⟩)

/-- Settles O7: each table's instructions run the write of a lane register or pair. -/
theorem vectorInstructionsComplete : Obligations.VectorInstructionsComplete := by
  intro i v s w hi hr
  obtain ⟨hexec, hval⟩ : RunsVec i v := by
    rcases hi with h | h | h | h
    · exact runsVec_intBase h
    · exact runsVec_intExt h
    · exact runsVec_fpBase h
    · exact runsVec_fpExt h
  obtain ⟨w', hd⟩ := State.execVec_done hr (hval w _ s)
  exact ⟨_, w', hexec s, hd⟩

/-- Settles O8: each table's instructions run the write of mask bits, or of a k-register. -/
theorem maskAndScalarInstructionsComplete : Obligations.MaskAndScalarInstructionsComplete := by
  refine ⟨fun i v s w hi hr => ?_, fun i v s w hi hr => ?_⟩
  · obtain ⟨hexec, hbits⟩ := runsMask hi
    obtain ⟨w', hd⟩ := State.execMask_done hr (hbits w _ s)
    exact ⟨_, w', hexec s, hd⟩
  · obtain ⟨hexec, hval⟩ := runsSca hi
    obtain ⟨w', hd⟩ := State.execSca_done hr (hval w _ s)
    exact ⟨_, w', hexec s, hd⟩


end Sys2Proof.Machine
end

section
/-!
PROOFS. Reads and writes of special registers (spec/01 R31, R32; R190): a read that also marks an observed tag (R273) leaves what the
read without the mark leaves, and the marks are no part of what the claims name. Settles O12 and O13.
-/

namespace Sys2Proof.Machine

/-! ### The mark of an observed tag (R273) -/

/-- A warp with the mark that it has observed a tag set or cleared. -/
def Warp.mark (b : Bool) (w : Warp) : Warp := { w with observed := b }

theorem Quiet.mark (b : Bool) (w : Warp) : Quiet w (w.mark b) := by constructor <;> first | rfl | (constructor <;> rfl)
theorem SameRegs.mark (b : Bool) (w : Warp) : SameRegs w (w.mark b) := ⟨rfl, rfl, rfl⟩
@[simp] theorem Warp.pc_mark (b : Bool) (w : Warp) (l : Nat) : (w.mark b).pc l = w.pc l := rfl

/-- Observing tags after an effect on the warp changes its mark alone. -/
theorem State.observe_modWarp (s : State) (k : Nat) (g : Warp → Warp) (m : DWord) :
    ∃ b : Warp → Bool, (s.modWarp k g).observe k m = s.modWarp k fun v => (g v).mark (b (g v)) :=
  ⟨fun w => let t := (s.core (coreOf k)).tagmap w.ctx; w.observed || t.done &&& t.yard &&& m != 0, State.modWarp_modWarp ..⟩

theorem State.observeBy_modWarp (s : State) (k sr : Nat) (g : Warp → Warp) :
    ∃ b : Warp → Bool, (s.modWarp k g).observeBy k sr = s.modWarp k fun v => (g v).mark (b (g v)) := by
  unfold State.observeBy
  split
  · exact State.observe_modWarp ..
  · exact ⟨Warp.observed, rfl⟩

section
variable {s : State} {F : Form} {w : Warp} {d : Nat} {body : Ctx → State → State} {legal : Ctx → State → Bool}

/-- A write of a lane register or pair that also sets the mark. -/
theorem State.vec_mark_done {wide : Bool} {val : Warp → Nat → DWord} {vals : Nat → DWord} (h : Ready F 0 s w)
    (hl : legal (issueCtx F s w) s = true)
    (hb : ∃ b : Warp → Bool, body (issueCtx F s w) (s.begun F 0 w) = (s.begun F 0 w).modWarp s.cur fun v =>
      ((v.setXn wide d (issueCtx F s w).en (val v)).advance w.group F.len).mark
        (b ((v.setXn wide d (issueCtx F s w).en (val v)).advance w.group F.len)))
    (hv : val (w.atIssue F s) = vals) : ∃ w', VecDone F wide d vals s (s.issue F legal (fun _ _ => 0) body) w w' := by
  obtain ⟨b, hb⟩ := hb
  have ha := SameRegs.atIssue w F s
  obtain ⟨w', hr, hs⟩ := State.issue_regs legal body _ h hl (fun _ => hb)
    ((Quiet.setXn ..).trans ((Quiet.advance ..).trans (Quiet.mark ..)))
    fun l hl => (Warp.pc_advance _ _ _ hl).trans (by simp only [Warp.pc, Warp.setXn_pcv]; rfl)
  refine ⟨w', ?_⟩
  by_cases he : (issueCtx F s w).en = 0
  · rw [if_pos he] at hs
    exact ⟨hr, hs.k, hs.m, fun l hl => by simp [he] at hl, fun n l _ _ => hs.xr n l⟩
  · rw [if_neg he, hv] at hs
    have hw := ((SameRegs.advance _ _ _).trans (SameRegs.mark _ _)).trans hs
    exact {
      ran := hr
      k := by rw [hw.k, Warp.setXn_k, ha.k]
      m := by rw [hw.m, Warp.setXn_m, ha.m]
      written := fun l hl => by rw [hw.xn, Warp.xn_setXn _ _ _ _ _ hl]; rfl
      others := fun n l hl hn => by rw [hw.xr, Warp.xr_setXn_ne _ _ _ _ _ _ hl hn, ha.xr] }

/-- A write of a k-register that also sets the mark. -/
theorem State.sca_mark_done {val : Warp → DWord} {v : DWord} (h : Ready F 0 s w) (hl : legal (issueCtx F s w) s = true)
    (hb : ∃ b : Warp → Bool, body (issueCtx F s w) (s.begun F 0 w) = (s.begun F 0 w).modWarp s.cur fun v =>
      ((v.setK d (val v)).advance w.group F.len).mark (b ((v.setK d (val v)).advance w.group F.len)))
    (hv : val (w.atIssue F s) = v) : ∃ w', ScaDone F d v s (s.issue F legal (fun _ _ => 0) body) w w' := by
  obtain ⟨b, hb⟩ := hb
  have ha := SameRegs.atIssue w F s
  obtain ⟨w', hr, hs⟩ := State.issue_regs legal body _ h hl (fun _ => hb)
    ((Quiet.setK ..).trans ((Quiet.advance ..).trans (Quiet.mark ..))) fun l hl => Warp.pc_advance _ _ _ hl
  refine ⟨w', ?_⟩
  by_cases he : (issueCtx F s w).en = 0
  · rw [if_pos he] at hs
    exact ⟨hr, hs.x, hs.m, fun h => absurd he h, fun _ => hs.kr d, fun n _ => hs.kr n⟩
  · rw [if_neg he, hv] at hs
    have hw := ((SameRegs.advance _ _ _).trans (SameRegs.mark _ _)).trans hs
    exact {
      ran := hr
      x := hw.x.trans ha.x
      m := hw.m.trans ha.m
      written := fun _ => by rw [hw.kr, Warp.kr_setK_self]
      none := fun h => absurd h he
      others := fun n hn => by rw [hw.kr, Warp.kr_setK, if_neg hn, ha.kr] }
end

/-! ### gsr and tff -/

/-- `gsr` to lane registers reads the state that its own charge leaves. -/
theorem State.gsr_mark_done {s : State} {F : Form} {w : Warp} {wide : Bool} {d sr : Nat} {legal : Ctx → State → Bool} (h : Ready F 0 s w)
    (hl : legal (issueCtx F s w) s = true) {t : State}
    (ht : t = s.issue F legal (fun _ _ => 0) fun c s => (c.vecEffect wide d (fun w l => s.srVal c.wid w sr l) s).observeBy c.wid sr) :
    ∃ w', VecDone F wide d (t.srVal s.cur w sr) s t w w' := by
  subst ht
  obtain ⟨w', hw⟩ := State.vec_mark_done (wide := wide) (d := d) (legal := legal)
    (body := fun c s => (c.vecEffect wide d (fun w l => s.srVal c.wid w sr l) s).observeBy c.wid sr) h hl (State.observeBy_modWarp ..) rfl
  have hval := funext fun l => (State.srVal_only hw.ran.quiet.only s.cur w sr l).trans (State.srVal_atIssue s _ s.cur w F sr l).symm
  refine ⟨w', ?_⟩
  rw [hval]; exact hw

/-- `gsr` to a k-register. -/
theorem State.gsrK_mark_done {s : State} {F : Form} {w : Warp} {d sr : Nat} {legal : Ctx → State → Bool} (h : Ready F 0 s w)
    (hl : legal (issueCtx F s w) s = true) {t : State}
    (ht : t = s.issue F legal (fun _ _ => 0) fun c s => (c.scaEffect d (fun w => s.srVal c.wid w sr 0) s).observeBy c.wid sr) :
    ∃ w', ScaDone F d (t.srVal s.cur w sr 0) s t w w' := by
  subst ht
  obtain ⟨w', hw⟩ := State.sca_mark_done (d := d) (legal := legal)
    (body := fun c s => (c.scaEffect d (fun w => s.srVal c.wid w sr 0) s).observeBy c.wid sr) h hl (State.observeBy_modWarp ..) rfl
  have hval := (State.srVal_only hw.ran.quiet.only s.cur w sr 0).trans (State.srVal_atIssue s _ s.cur w F sr 0).symm
  refine ⟨w', ?_⟩
  rw [hval]; exact hw

/-- `tff` in either form: the tags and the mask are those at issue. -/
theorem State.execTffForm_done {s : State} {w : Warp} {F : Form} {d : Nat} {mask : Warp → DWord} (h : Ready F 0 s w)
    (hm : mask (w.atIssue F s) = mask w) :
    ∃ w', ScaDone F d (lowestTag (s.tagsOf s.cur &&& mask w)) s (s.execTffForm F d mask) w w' := by
  unfold State.execTffForm State.issueSimple
  refine State.sca_mark_done (val := fun _ => lowestTag (s.tagsOf s.cur &&& mask w)) (legal := fun _ _ => true) h rfl ?_ rfl
  have hcur : (s.begun F 0 w).warp? (issueCtx F s w).wid = some (w.atIssue F s) := State.begun_warp h.cur
  simp only [State.withWarp, hcur, hm]
  rw [show (s.begun F 0 w).tagsOf (issueCtx F s w).wid = s.tagsOf s.cur from State.tagsOf_begun h.cur]
  exact State.observe_modWarp ..

/-- Settles O12, by the four forms. -/
theorem specialReadsComplete : Obligations.SpecialReadsComplete := by
  refine fun s w g a d sr b => ⟨fun hsr h => ?_, fun hsr hlane h => ?_, fun h => ?_, fun h => ?_⟩
  · obtain ⟨w', hw⟩ := State.gsr_mark_done (legal := fun _ _ => srAssigned sr) h hsr rfl
    exact ⟨_, w', rfl, hw⟩
  · obtain ⟨w', hw⟩ := State.gsrK_mark_done (legal := fun _ _ => srAssigned sr && !srPerLane sr) h (by simp [hsr, hlane]) rfl
    exact ⟨_, w', rfl, hw⟩
  · obtain ⟨w', hw⟩ := State.execTffForm_done (d := d) (mask := fun w => w.kr a) h rfl
    exact ⟨_, w', rfl, hw⟩
  · obtain ⟨w', hw⟩ := State.execTffForm_done (d := d) (mask := kSrcVal b) h (kSrcVal_atIssue ..)
    exact ⟨_, w', rfl, hw⟩

/-! ### ssr -/

/-- What `ssr` makes of its warp: the lanes advanced, then %rlimit or %tcmp from the k-register. -/
def Warp.ssr (a sr : Nat) (c : Ctx) (w : Warp) : Warp :=
  let w := w.advance c.iss c.len
  if sr = 0x020 then { w with rlimit := (w.kr a).setWidth 32 } else { w with tcmp := w.kr a }

theorem Warp.ssr_pc (a sr : Nat) (c : Ctx) (w : Warp) (l : Nat) : (w.ssr a sr c).pc l = (w.advance c.iss c.len).pc l := by
  unfold Warp.ssr; split <;> rfl

section
variable (a sr : Nat) (c : Ctx) (w : Warp)

@[simp] theorem Warp.kr_advance (en : Word) (n k : Nat) : (w.advance en n).kr k = w.kr k := rfl
theorem Warp.ssr_regs : SameRegs w (w.ssr a sr c) := by unfold Warp.ssr; split <;> constructor <;> rfl
theorem Warp.ssr_rcount : (w.ssr a sr c).rcount = w.rcount := by unfold Warp.ssr; split <;> rfl
theorem Warp.ssr_rsb : (w.ssr a sr c).rsb = w.rsb := by unfold Warp.ssr; split <;> rfl
theorem Warp.ssr_rlimit : (w.ssr a sr c).rlimit = if sr = 0x020 then (w.kr a).setWidth 32 else w.rlimit := by
  unfold Warp.ssr; split <;> rfl
theorem Warp.ssr_tcmp : (w.ssr a sr c).tcmp = if sr = 0x020 then w.tcmp else w.kr a := by unfold Warp.ssr; split <;> rfl
theorem Warp.ssr_blocked : (w.ssr a sr c).blocked = w.blocked := by unfold Warp.ssr; split <;> rfl
theorem Warp.ssr_standing : SameStanding w (w.ssr a sr c) := by unfold Warp.ssr; split <;> constructor <;> rfl
end

theorem ssrLegal_rlimit {s : State} {w : Warp} {a : Nat} {c : Ctx} (hw : s.warp? c.wid = some w) (h1 : 1 ≤ (w.kr a).toNat)
    (h255 : (w.kr a).toNat ≤ 255) : ssrLegal a 0x020 c s = true := by
  simp [ssrLegal, hw, h1, h255]
theorem ssrLegal_tcmp (a : Nat) (c : Ctx) (s : State) : ssrLegal a 0x024 c s = true := by
  unfold ssrLegal; split <;> simp

theorem SameStanding.trans {a b c : Warp} (h : SameStanding a b) (g : SameStanding b c) : SameStanding a c :=
  ⟨g.ctx.trans h.ctx, g.blk.trans h.blk, g.widx.trans h.widx, g.level.trans h.level, g.regs.trans h.regs, g.regs0.trans h.regs0,
    g.lean.trans h.lean, g.exited.trans h.exited, g.delayed.trans h.delayed, g.parked.trans h.parked, g.susp.trans h.susp,
    g.stopped.trans h.stopped, g.faults.trans h.faults, g.inv.trans h.inv, g.inbox.trans h.inbox⟩

/-- A legal `ssr` of user level writes its register and advances, and nothing else. -/
theorem execSsr_done {s : State} {w : Warp} {a sr : Nat} (h : Ready (bForm 2) 0 s w) (hu : srLevel sr = .u)
    (hl : ssrLegal a sr (issueCtx (bForm 2) s w) s = true) :
    ∃ t w', exec (.ssr a sr) s = .next t ∧ t.warp? s.cur = some w' ∧ OnlyWarp (w.price (bForm 2)) s t w ∧
      SameRegs w w' ∧ SameStanding w w' ∧ Advanced (issueCtx (bForm 2) s w) w w' ∧
      w'.rlimit = (if sr = 0x020 then (w.kr a).setWidth 32 else w.rlimit) ∧ w'.tcmp = (if sr = 0x020 then w.tcmp else w.kr a) ∧
      w'.rcount = w.rcount ∧ w'.rsb = w.rsb := by
  obtain ⟨w', hw, ho, hs, hp⟩ := State.issue_same (ssrLegal a sr) (fun _ _ => 0) (fun c s => s.modWarp c.wid (Warp.ssr a sr c)) _
    h hl rfl (fun _ => rfl) (en_ne_zero h rfl)
  have hform : ({ bForm 2 with level := srLevel sr } : Form) = bForm 2 := by rw [hu]; rfl
  refine ⟨_, w', ?_, hw, by simpa using ho, ((SameRegs.atIssue ..).trans (Warp.ssr_regs ..)).trans hs.regs,
    ((Quiet.atIssue ..).standing.trans (Warp.ssr_standing ..)).trans hs.standing, ?_, hs.rlimit.trans (Warp.ssr_rlimit ..),
    hs.tcmp.trans (Warp.ssr_tcmp ..), hs.rcount.trans (Warp.ssr_rcount ..), hs.rsb.trans (Warp.ssr_rsb ..)⟩
  · change done _ = _
    rw [hform]; rfl
  · refine advanced_of (blockedLanes_of_blocked ((Warp.ssr_blocked a sr _ (w.atIssue (bForm 2) s)).trans rfl)) (fun l hl => ?_) hp
    rw [Warp.ssr_pc]; exact Warp.pc_advance _ _ _ hl

/-- Settles O13: both registers are of user level, and the effect changes nothing else of the warp. -/
theorem specialWritesComplete : Obligations.SpecialWritesComplete := by
  refine fun s w a => ⟨fun h h1 h255 => ?_, fun h => ?_⟩
  · simpa using execSsr_done h (by decide) (ssrLegal_rlimit h.cur h1 h255)
  · obtain ⟨t, w', he, hw, ho, hk, hs, ha, hrl, htc, hrest⟩ := execSsr_done h (by decide) (ssrLegal_tcmp a _ s)
    exact ⟨t, w', he, hw, ho, hk, hs, ha, by simpa using htc, by simpa using hrl, hrest⟩

end Sys2Proof.Machine
end

section
/-!
PROOFS. One step (spec/01 R27; spec/02 R48 checks 1 to 3): what reads of lines at their homes and a fetch's fills leave of the machine,
and the step that each head of the agenda takes. Settles O5.
-/

namespace Sys2Proof.Machine

/-! ### What fetching leaves -/

/-- What reads at their homes and the fills of a core's TLB and instruction cache leave, where no detector is armed and no word of memory has
an error: everything but that core, the dies' buckets, and where the L2 and the yard's TLB hold what (R29, R307, R368). -/
structure FetchLeft (core : Nat) (s t : State) : Prop where
  warps : t.warps = s.warps
  ap : t.ap = s.ap
  blocks : t.blocks = s.blocks
  grids : t.grids = s.grids
  dev : t.dev = s.dev
  own : t.own = s.own
  agenda : t.agenda = s.agenda
  cores : ∀ k, k ≠ core → t.core k = s.core k
  mem : t.mem = { s.mem with ytlb := t.mem.ytlb, frames := t.mem.frames, dirty := t.mem.dirty, l2 := t.mem.l2, excl := t.mem.excl }

theorem FetchLeft.refl (core : Nat) (s : State) : FetchLeft core s s := by constructor <;> intros <;> rfl

theorem FetchLeft.trans {core : Nat} {s t u : State} (h : FetchLeft core s t) (g : FetchLeft core t u) : FetchLeft core s u where
  warps := g.warps.trans h.warps
  ap := g.ap.trans h.ap
  blocks := g.blocks.trans h.blocks
  grids := g.grids.trans h.grids
  dev := g.dev.trans h.dev
  own := g.own.trans h.own
  agenda := g.agenda.trans h.agenda
  cores := fun k hk => (g.cores k hk).trans (h.cores k hk)
  mem := by
    have hm := g.mem
    rw [h.mem] at hm
    exact hm

/-- No detector is armed and no word of memory has an error. -/
structure Sound (s : State) : Prop where
  disarmed : s.ap! offInjMask = 0
  noError : s.mem.upset = []

theorem FetchLeft.sound {core : Nat} {s t : State} (h : FetchLeft core s t) (hs : Sound s) : Sound t where
  disarmed := by rw [← hs.disarmed]; simp only [State.ap!, h.ap]
  noError := by rw [h.mem]; exact hs.noError

theorem State.inject_disarmed {s : State} (h : s.ap! offInjMask = 0) (us : List Nat) (line owner : Nat) : s.inject us line owner = s := if_pos h

theorem FetchLeft.sliceStep (core : Nat) (s : State) (line price : Nat) : FetchLeft core s (s.sliceStep line price) := by
  constructor <;> intros <;> rfl

theorem FetchLeft.cross (core : Nat) (s : State) (d h flits : Nat) : FetchLeft core s (s.cross d h flits) := by
  unfold State.cross
  split <;> constructor <;> intros <;> rfl

theorem FetchLeft.dropExcl (core : Nat) (s : State) (line : Nat) : FetchLeft core s (s.modMem fun m => { m with excl := Tab.del m.excl line }) := by
  constructor <;> intros <;> rfl

theorem FetchLeft.seatLine (core : Nat) {s : State} (hs : Sound s) (line : Nat) : FetchLeft core s (s.seatLine line) := by
  have he : s.mem.upset.isEmpty = true := by rw [hs.noError]; rfl
  unfold State.seatLine
  simp only [he, if_true]
  constructor <;> intros <;> try rfl
  simp only [Mem.seat, he, if_true]

theorem FetchLeft.homeLine {s : State} (hs : Sound s) (core k line : Nat) : FetchLeft k s (s.homeLine core line) := by
  unfold State.homeLine
  split
  · exact .refl ..
  have hr : s.reread line = s := if_pos (by simp [hs.noError])
  rw [hr]
  have h1 := FetchLeft.sliceStep k s line (if (!s.inL2 line) = true then 23 else 3)
  have h2 := h1.trans (.seatLine k (h1.sound hs) line)
  have h3 := (h2.trans (.dropExcl k _ line)).trans (.cross k _ (dieOfCore core) (dieOfLpa (line * 128)) 4)
  simp only [State.inject_disarmed (h3.sound hs).disarmed]
  exact h3

theorem FetchLeft.foldl_homeLine {core k : Nat} (ls : List Nat) : ∀ {s : State}, Sound s →
    FetchLeft k s (ls.foldl (fun s l => s.homeLine core l) s) := by
  induction ls with
  | nil => exact fun _ => .refl ..
  | cons l ls ih =>
    intro s hs
    have h := FetchLeft.homeLine hs core k l
    exact h.trans (ih (h.sound hs))

theorem FetchLeft.walked {s : State} (hs : Sound s) (core ctx : Nat) (va : DWord) (k : Nat) : FetchLeft k s (s.walked core ctx va) :=
  foldl_homeLine _ hs

theorem FetchLeft.modCore (s : State) (core : Nat) (f : Core → Core) : FetchLeft core s (s.modCore core f) := by
  constructor <;> intros <;> try rfl
  rename_i k hk
  rw [State.core_modCore, if_neg hk]

theorem FetchLeft.modYtlb (core : Nat) (s : State) (f : Mem → Tab (Tab DWord)) :
    FetchLeft core s (s.modMem fun m => { m with ytlb := f m }) := by
  constructor <;> intros <;> rfl

theorem FetchLeft.fillTlb {s : State} (hs : Sound s) (core ctx : Nat) (va : DWord) : FetchLeft core s (s.fillTlb core ctx va) := by
  unfold State.fillTlb
  split
  · exact .refl ..
  split
  · exact .refl ..
  · refine (FetchLeft.walked hs core ctx va core).trans ?_
    exact (FetchLeft.modCore _ core _).trans (.modYtlb core _ _)

theorem FetchLeft.fillCode {s : State} (hs : Sound s) (core key : Nat) : FetchLeft core s (s.fillCode core key) := by
  unfold State.fillCode
  split
  · exact .refl ..
  · exact (FetchLeft.homeLine hs core core _).trans (.modCore _ core _)

theorem FetchLeft.foldl_fillCode {core : Nat} (xs : List (Nat × Nat)) : ∀ {s : State}, Sound s →
    FetchLeft core s (xs.foldl (fun s x => s.fillCode core x.1) s) := by
  induction xs with
  | nil => exact fun _ => .refl ..
  | cons x xs ih =>
    intro s hs
    have h := FetchLeft.fillCode hs core x.1
    exact h.trans (ih (h.sound hs))

/-! ### The current warp stays the current one -/

theorem foldl_cur {α : Type} {f : State → α → State} (h : ∀ s x, (f s x).cur = s.cur) (xs : List α) (s : State) :
    (xs.foldl f s).cur = s.cur := by
  induction xs generalizing s with
  | nil => rfl
  | cons x xs ih => exact (ih _).trans (h s x)

@[simp] theorem State.contains_cur (s : State) (e : Option (Nat × Nat)) (wid : Option Nat) : (s.contains e wid).cur = s.cur := by
  cases e <;> rfl

@[simp] theorem State.apField_cur (s : State) (off hi lo x : Nat) : (s.apField off hi lo x).cur = s.cur := rfl
@[simp] theorem State.ring_cur (s : State) (n bit : Nat) : (s.ring n bit).cur = s.cur := rfl
@[simp] theorem State.irq_cur (s : State) (v : Nat) : (s.irq v).cur = s.cur := rfl

@[simp] theorem State.logUe_cur (s : State) (unit act owner line : Nat) (inj : Bool) : (s.logUe unit act owner line inj).cur = s.cur := by
  unfold State.logUe
  rw [State.irq_cur, foldl_cur fun s n => State.ring_cur s n 3, State.apField_cur, State.apSet_cur, apply_ite State.cur,
    State.apField_cur, ite_self]

@[simp] theorem State.inject_cur (s : State) (us : List Nat) (line owner : Nat) : (s.inject us line owner).cur = s.cur := by
  unfold State.inject
  split
  · rfl
  · refine foldl_cur (fun s u => ?_) us s
    split
    · rw [State.logUe_cur]; rfl
    · rfl

@[simp] theorem State.reread_cur (s : State) (line : Nat) : (s.reread line).cur = s.cur := by
  unfold State.reread; split <;> rfl

@[simp] theorem State.seatLine_cur (s : State) (line : Nat) : (s.seatLine line).cur = s.cur := by
  unfold State.seatLine
  split
  · rfl
  · exact State.contains_cur ..

@[simp] theorem State.cross_cur (s : State) (d h flits : Nat) : (s.cross d h flits).cur = s.cur := by
  unfold State.cross; split <;> rfl

@[simp] theorem State.homeLine_cur (s : State) (core line : Nat) : (s.homeLine core line).cur = s.cur := by
  unfold State.homeLine
  split
  · rfl
  · simp only [State.inject_cur, State.cross_cur, State.modMem_cur, State.seatLine_cur]
    exact State.reread_cur ..

@[simp] theorem State.walked_cur (s : State) (core ctx : Nat) (va : DWord) : (s.walked core ctx va).cur = s.cur :=
  foldl_cur (fun s l => s.homeLine_cur core l) _ s

@[simp] theorem State.fillTlb_cur (s : State) (core ctx : Nat) (va : DWord) : (s.fillTlb core ctx va).cur = s.cur := by
  unfold State.fillTlb
  split
  · rfl
  split
  · rfl
  · exact State.walked_cur ..

@[simp] theorem State.fillCode_cur (s : State) (core key : Nat) : (s.fillCode core key).cur = s.cur := by
  unfold State.fillCode
  split
  · rfl
  · exact State.homeLine_cur ..

/-! ### What is held is not read again -/

/-- A translation that reads no table changes the core's TLB and its yard's alone. -/
theorem State.fillTlb_untrailed {s : State} {core ctx : Nat} {va : DWord} (h : s.trailOf core ctx va = []) :
    (s.fillTlb core ctx va).mem = { s.mem with ytlb := (s.fillTlb core ctx va).mem.ytlb } ∧ (s.fillTlb core ctx va).dies = s.dies ∧
      ∀ key, (s.fillTlb core ctx va).codeHeld core key = s.codeHeld core key := by
  unfold State.fillTlb
  split
  · exact ⟨rfl, rfl, fun _ => rfl⟩
  split
  · exact ⟨rfl, rfl, fun _ => rfl⟩
  · rw [State.walked, h]
    refine ⟨rfl, rfl, fun key => ?_⟩
    simp only [State.codeHeld, List.foldl_nil]
    rw [show ∀ (t : State) f, (t.modMem f).core core = t.core core from fun _ _ => rfl, State.core_modCore, if_pos rfl]
    rfl

theorem State.fillCode_held {s : State} {core key : Nat} (h : s.codeHeld core key = true) : s.fillCode core key = s := if_pos h

theorem State.foldl_fillCode_held {s : State} {core : Nat} {xs : List (Nat × Nat)} (h : ∀ x ∈ xs, s.codeHeld core x.1 = true) :
    xs.foldl (fun s x => s.fillCode core x.1) s = s := by
  induction xs with
  | nil => rfl
  | cons x xs ih =>
    obtain ⟨hx, hxs⟩ := List.forall_mem_cons.mp h
    rw [List.foldl_cons, State.fillCode_held hx]
    exact ih hxs

/-! ### The state in which a fetched instruction runs -/

/-- The state of a fetch whose words are all translated: TLB and instruction cache filled, the units' checks made. -/
def State.fetched (s : State) (core ctx : Nat) (pc : DWord) (key : Nat) (xs : List (Nat × Nat)) : State :=
  let s := xs.foldl (fun s x => s.fillCode core x.1) (s.fillTlb core ctx pc)
  if isService core then s else (s.inject [9] 0 ctx).inject [4] (logLine (lineOf key)) (s.mem.ownerOf (lineOf key))

theorem State.fetched_cur (s : State) (core ctx : Nat) (pc : DWord) (key : Nat) (xs : List (Nat × Nat)) :
    (s.fetched core ctx pc key xs).cur = s.cur := by
  have h : (xs.foldl (fun s x => s.fillCode core x.1) (s.fillTlb core ctx pc)).cur = s.cur :=
    (foldl_cur (fun s x => s.fillCode_cur core x.1) xs _).trans (State.fillTlb_cur ..)
  unfold State.fetched
  simp only
  split
  · exact h
  · rw [State.inject_cur, State.inject_cur, h]

/-- With no detector armed the fills are all that a fetch does. -/
theorem State.fetched_sound {s : State} (hs : Sound s) (core ctx : Nat) (pc : DWord) (key : Nat) (xs : List (Nat × Nat)) :
    s.fetched core ctx pc key xs = xs.foldl (fun s x => s.fillCode core x.1) (s.fillTlb core ctx pc) := by
  have ht := FetchLeft.fillTlb hs core ctx pc
  have hx := FetchLeft.foldl_fillCode (core := core) xs (ht.sound hs)
  have hd := (hx.sound (ht.sound hs)).disarmed
  unfold State.fetched
  simp only [State.inject_disarmed hd, ite_self]

theorem FetchLeft.fetched {s : State} (hs : Sound s) (core ctx : Nat) (pc : DWord) (key : Nat) (xs : List (Nat × Nat)) :
    FetchLeft core s (s.fetched core ctx pc key xs) := by
  rw [State.fetched_sound hs]
  have ht := FetchLeft.fillTlb hs core ctx pc
  exact ht.trans (.foldl_fillCode xs (ht.sound hs))

/-- A fetch from the caches alone changes the TLBs alone. -/
theorem State.fetched_held {s : State} (hs : Sound s) {core ctx : Nat} {pc : DWord} (key : Nat) {xs : List (Nat × Nat)}
    (hx : ∀ x ∈ xs, s.codeHeld core x.1 = true) (ht : s.trailOf core ctx pc = []) :
    (s.fetched core ctx pc key xs).mem = { s.mem with ytlb := (s.fetched core ctx pc key xs).mem.ytlb } ∧
      (s.fetched core ctx pc key xs).dies = s.dies := by
  obtain ⟨hm, hd, hh⟩ := State.fillTlb_untrailed ht
  rw [State.fetched_sound hs, State.foldl_fillCode_held fun x h => (hh x.1).trans (hx x h)]
  exact ⟨hm, hd⟩

/-! ### Fetching, case by case (R27, R48) -/

section
variable {s : State} {w : Warp}

theorem State.fetch_routine {k : Routine} (hw : s.warp? s.cur = some w) (hg : w.group ≠ 0) (hk : s.workOf w = some k) :
    s.fetch = .stop (s.routineIssue s.cur w k) := by
  simp only [State.fetch, hw, hg, if_false, hk]

variable (hw : s.warp? s.cur = some w) (hg : w.group ≠ 0) (hk : s.workOf w = none)
include hw hg hk

theorem State.fetch_miss {m : Trap} (hc : s.codeWord (coreOf s.cur) w (w.leastPc w.group) = .error m) :
    s.fetch = .stop (s.fetchMiss m w.group (w.leastPc w.group)) := by
  simp only [State.fetch, hw, hg, if_false, hk, hc]

variable {key w0 : Nat} (hc : s.codeWord (coreOf s.cur) w (w.leastPc w.group) = .ok (key, w0))
include hc

theorem State.fetch_noForm (h : opForms (w0 / 4 % 256) = [] ∨ formOk (w0 / 4 % 256) (w0 % 4) = false) :
    s.fetch = .run .illegalEncoding s := by
  simp only [State.fetch, hw, hg, if_false, hk, hc, rawOfWord0]
  exact if_pos (by rw [Bool.or_eq_true, Bool.not_eq_true']; exact h.imp_left decide_eq_true)

variable (ho : opForms (w0 / 4 % 256) ≠ []) (hf : formOk (w0 / 4 % 256) (w0 % 4) = true)
include ho hf

theorem State.fetch_level {cls : TrapClass} (hl : levelTrap (opLevel (w0 / 4 % 256) (srField (rawOfWord0 w0))) w.level = some cls) :
    s.fetch = .stop (s.discardTrap s.cur { cls := cls } w.group (w.leastPc w.group)) := by
  rw [rawOfWord0] at hl
  simp only [State.fetch, hw, hg, if_false, hk, hc, rawOfWord0, ho, hf, decide_false, Bool.not_true, Bool.or_self, Bool.false_eq_true, hl]

variable (hl : levelTrap (opLevel (w0 / 4 % 256) (srField (rawOfWord0 w0))) w.level = none)
include hl

theorem State.fetch_missBehind {m : Trap}
    (hm : s.codeWords (coreOf s.cur) w (w.leastPc w.group + 4) (lenWords (w0 % 4) - 1) = .error m) :
    s.fetch = .stop (s.fetchMiss m w.group (w.leastPc w.group)) := by
  rw [rawOfWord0] at hl
  simp only [State.fetch, hw, hg, if_false, hk, hc, rawOfWord0, ho, hf, decide_false, Bool.not_true, Bool.or_self, Bool.false_eq_true, hl, hm]

theorem State.fetch_words {ws : List (Nat × Nat)}
    (hm : s.codeWords (coreOf s.cur) w (w.leastPc w.group + 4) (lenWords (w0 % 4) - 1) = .ok ws) :
    s.fetch = match decodeWords (w0 :: ws.map (·.2)) with
      | .ok (i, _) => .run i (s.fetched (coreOf s.cur) w.ctx (w.leastPc w.group) key ((key, w0) :: ws))
      | .error _ => .run .illegalEncoding (s.fetched (coreOf s.cur) w.ctx (w.leastPc w.group) key ((key, w0) :: ws)) := by
  rw [rawOfWord0] at hl
  simp only [State.fetch, hw, hg, if_false, hk, hc, rawOfWord0, ho, hf, decide_false, Bool.not_true, Bool.or_self, Bool.false_eq_true, hl,
    hm] <;> rfl

end

theorem State.fetchMiss_trap {s : State} {m : Trap} (hw : m.wait = none) (hu : m.cls ≠ .ue) (g : Word) (pc : DWord) :
    s.fetchMiss m g pc = s.discardTrap s.cur m g pc := by
  simp only [State.fetchMiss, hw, hu, if_false]

theorem State.fetchMiss_wait {s : State} {m : Trap} {line : Nat} (hw : m.wait = some line) (g : Word) (pc : DWord) :
    s.fetchMiss m g pc = s.askBack [line] := by
  simp only [State.fetchMiss, hw]

/-! ### The step -/

/-- The state in which a warp at the head of the agenda fetches. -/
def State.turnTo (s : State) (v : Nat) (q : List Pending) : State :=
  { s.tick with agenda := q, cur := v, apart := Config.apart s.own.freeCount }

theorem step_issue {s : State} {v : Nat} {q : List Pending} (h : s.agenda = .issue v :: q) :
    step s = match (s.turnTo v q).fetch with
      | .run i s => exec i s
      | .stop s => .next s := by
  simp only [step, h, State.turnTo] <;> rfl

theorem step_stop {s t : State} {v : Nat} {q : List Pending} (h : s.agenda = .issue v :: q) (hf : (s.turnTo v q).fetch = .stop t) :
    step s = .next t := by rw [step_issue h, hf]

theorem step_run {s t : State} {v : Nat} {q : List Pending} {i : Instr} (h : s.agenda = .issue v :: q)
    (hf : (s.turnTo v q).fetch = .run i t) : step s = exec i t := by rw [step_issue h, hf]

/-- Settles O5: the cases of the head of the agenda, and of the fetch where a warp stands there. -/
theorem stepRunsDecodedInstruction : Obligations.StepRunsDecodedInstruction := by
  refine ⟨?_, ?_, ?_, ?_, ?_, ?_⟩
  · rintro s _ v key w0 q w ws ha rfl hw hg hk hc
    refine ⟨fun cls ho hf hl => step_stop ha (State.fetch_level hw hg hk hc ho hf hl),
      fun h => step_run ha (State.fetch_noForm hw hg hk hc h), fun ho hf hl => ⟨fun m hm hwait hue => ?_, fun hws => ?_⟩⟩
    · rw [step_stop ha (State.fetch_missBehind hw hg hk hc ho hf hl hm), State.fetchMiss_trap hwait hue]
    · have hfetch := State.fetch_words hw hg hk hc ho hf hl hws
      refine ⟨_, State.fetched_cur (s.turnTo v q) (coreOf v) w.ctx (w.leastPc w.group) key ((key, w0) :: ws), fun hi hu => ?_,
        fun i rest hd => ?_, fun e hd => ?_⟩
      · have hsound : Sound (s.turnTo v q) := ⟨hi, hu⟩
        have hleft := FetchLeft.fetched hsound (coreOf v) w.ctx (w.leastPc w.group) key ((key, w0) :: ws)
        exact ⟨hleft.warps, hleft.ap, hleft.blocks, hleft.grids, hleft.dev, hleft.own, hleft.agenda, hleft.cores, hleft.mem,
          fun hx ht => State.fetched_held hsound key hx ht⟩
      · rw [hd] at hfetch; exact step_run ha hfetch
      · rw [hd] at hfetch; exact step_run ha hfetch
  · rintro s _ v q w m ha rfl hw hg hk hc
    have hfetch := State.fetch_miss hw hg hk hc
    refine ⟨fun line hl => ?_, fun hwait hue => ?_⟩
    · rw [step_stop ha hfetch, State.fetchMiss_wait hl]
    · rw [step_stop ha hfetch, State.fetchMiss_trap hwait hue]
  · rintro s _ v q w k ha rfl hw hg hk
    exact step_stop ha (State.fetch_routine hw hg hk)
  · intro s e q ha
    simp only [step, ha]
  · rintro s _ p q ha rfl
    refine ⟨?_, ?_, ?_, ?_, ?_⟩ <;> (intros; subst_vars; simp only [step, ha])
  · intro s ha
    simp only [step, ha]

end Sys2Proof.Machine
end

section
/-!
PROOFS. The checks before an effect (spec/01 R27, R48; R99, R162): what a discard and its trap leave, that every form's first check
stands before Charge(), and the failed checks of transfers and accesses. Settles O6.
-/

namespace Sys2Proof.Machine

open Sys2Proof.Machine.Shape

/-! ### A discard and its trap (R291, R292, R399, R403) -/

/-- A warp whose discard is counted where R291 counts it. -/
def Warp.recount (w : Warp) (cls : TrapClass) : Warp := if counted cls then { w with rcount := w.rcount + 1 } else w

/-- A warp that has taken a trap. -/
def Warp.suspended (w : Warp) (p : Susp) : Warp :=
  { w with susp := some p, opbuf := [], stage := none, lwc := 0, fc := if w.turn.isSome then 0 else w.fc, turn := none }

/-- A warp whose lanes are discarded with a trap of MODE 0. -/
def Warp.discardedWith (w : Warp) (lanes : Word) (cls : TrapClass) (p : Susp) : Warp := ((w.discard lanes).recount cls).suspended p

/-- A discard changes its warp and the race marks. -/
theorem State.discard_eq (s : State) (wid : Nat) (lanes : Word) :
    ∃ mk : Tab (List Mark), s.discard wid lanes = (s.modMem fun m => { m with marks := mk }).modWarp wid fun w => w.discard lanes := by
  unfold State.discard
  simp only
  split
  · exact ⟨s.mem.marks, rfl⟩
  · exact ⟨(s.unmark wid lanes).mem.marks, rfl⟩

theorem State.countDiscard_modWarp {s : State} {wid : Nat} {w : Warp} (h : s.warp? wid = some w) (f : Warp → Warp) (t : Trap) :
    (s.modWarp wid f).countDiscard wid t = (s.modWarp wid fun v => (f v).recount t.cls, reported (f w) t) := by
  unfold State.countDiscard Warp.recount reported
  by_cases hc : counted t.cls = true
  · simp only [hc, if_true, State.modWarp_modWarp, State.warp?_modWarp_self, h, Option.map_some, Bool.true_and, decide_eq_true_eq]
    split <;> rfl
  · simp only [hc, Bool.false_eq_true, if_false, Bool.false_and]

/-- A trap taken with the lanes back at rev, as the record will hold it (R399, R400). -/
def Susp.atRev (t : Trap) (lanes : Word) (pc : DWord) (debugger : Bool) : Susp :=
  { trap := t, lanes := lanes, mode := 0, pc := pc, rpc := 0, record := 0, started := false, debugger := debugger }

theorem State.takeTrap_modWarp {s : State} {wid : Nat} {w : Warp} (h : s.warp? wid = some w) (f : Warp → Warp) (t : Trap) (lanes : Word)
    (pc : DWord) (hc : isService (coreOf wid) = false) (hh : s.ap! (offFltHnd (f w).ctx) % 2 = 1) (hn : s.isHandler (f w) = false) :
    ∃ dbg g, (∀ c : Core, (g c).level = c.level) ∧
      (s.modWarp wid f).takeTrap wid t lanes 0 pc 0
        = ((s.modWarp wid fun v => (f v).suspended (.atRev t lanes pc dbg)).modCore (coreOf wid) g).soon [.event (.trapHandlerStart wid)] := by
  have hh' : (s.modWarp wid f).ap! (offFltHnd (f w).ctx) % 2 = 1 := hh
  have hn' : (s.modWarp wid f).isHandler (f w) = false := hn
  refine ⟨s.toDebugger (f w).ctx t, fun c => (c.unclaim (f w)).dropDemands wid, fun c => ?_, ?_⟩
  · simp only [Core.dropDemands, Core.unclaim, Core.releaseTag]
    split
    · split <;> rfl
    · rfl
  · unfold State.takeTrap
    simp only [State.warp?_modWarp_self, h, Option.map_some, hc, Bool.false_eq_true, if_false, hh', hn', Bool.not_false, Bool.and_true,
      decide_true, Bool.or_true, if_true, State.modWarp_modWarp]
    rfl

/-- A DISCARD WITH ITS TRAP, on a compute core with a handler installed: its warp suspended, its handler's start next, and of the rest
of the machine only race marks and what its core keeps for the warp. -/
theorem State.discardTrap_eq {s : State} {wid : Nat} {w : Warp} (h : s.warp? wid = some w) (t : Trap) (lanes : Word) (pc : DWord)
    (hc : isService (coreOf wid) = false) (hh : s.ap! (offFltHnd w.ctx) % 2 = 1) (hn : s.isHandler w = false) :
    ∃ dbg g, ∃ mk : Tab (List Mark), (∀ c : Core, (g c).level = c.level) ∧
      s.discardTrap wid t lanes pc = (((s.modMem fun m => { m with marks := mk }).modWarp wid fun v =>
        v.discardedWith lanes t.cls (.atRev (reported w t) lanes pc dbg)).modCore (coreOf wid) g).soon [.event (.trapHandlerStart wid)] := by
  obtain ⟨mk, hd⟩ := s.discard_eq wid lanes
  have hw : (s.modMem fun m => { m with marks := mk }).warp? wid = some w := h
  have hctx : ((w.discard lanes).recount t.cls).ctx = w.ctx := by unfold Warp.recount; split <;> rfl
  have hblk : ((w.discard lanes).recount t.cls).blk = w.blk := by unfold Warp.recount; split <;> rfl
  obtain ⟨dbg, g, hg, ht⟩ := State.takeTrap_modWarp hw (fun v => (v.discard lanes).recount t.cls) (reported (w.discard lanes) t) lanes pc hc
    (by rw [hctx]; exact hh) (by
      have : (s.modMem fun m => { m with marks := mk }).isHandler ((w.discard lanes).recount t.cls) = s.isHandler w := by
        simp only [State.isHandler, hblk]; rfl
      rw [this]; exact hn)
  refine ⟨dbg, g, mk, hg, ?_⟩
  unfold State.discardTrap
  simp only [hd, State.countDiscard_modWarp hw, ht]
  rfl

/-- A state that differs from another in what a fetch or an issue leaves behind, seen by a discard of the current warp: its lanes' regions,
its registers and what it holds are as there. -/
structure StartsAs (s S : State) (w v : Warp) : Prop where
  cur : S.cur = s.cur
  warp : S.warp? s.cur = some v
  agenda : S.agenda = s.agenda
  bytes : SameBytes s S
  elsewhere : SameElsewhere s S
  regs : SameRegs w v
  rsb : v.rsb = w.rsb
  rev : v.rev = w.rev
  rlimit : v.rlimit = w.rlimit
  rcount : v.rcount = w.rcount
  ctx : v.ctx = w.ctx
  blk : v.blk = w.blk

/-- A DISCARD OF THE ISSUING LANES TRAPS AT THEIR INSTRUCTION. -/
theorem StartsAs.trapped {s S : State} {w v : Warp} (h : StartsAs s S w v) (ht : Traps s w) (m : Trap) :
    ∃ T w' p, S.discardTrap s.cur m w.group (w.leastPc w.group) = T ∧ TrappedAtRev s T w w' p m ∧ w'.turn = none ∧
      T.mem.ver = S.mem.ver ∧ T.dies = S.dies ∧ (T.core (coreOf s.cur)).level = (S.core (coreOf s.cur)).level := by
  have hap : S.ap! (offFltHnd v.ctx) % 2 = 1 := by
    have := ht.handler
    simp only [State.ap!, h.ctx, h.elsewhere.ap] at this ⊢
    exact this
  have hnh : S.isHandler v = false := by
    have := ht.notHandler
    simp only [State.isHandler, State.block?, h.blk, h.elsewhere.blocks] at this ⊢
    exact this
  obtain ⟨dbg, g, mk, hg, hT⟩ := State.discardTrap_eq h.warp m w.group (w.leastPc w.group) ht.core hap hnh
  generalize hp : Susp.atRev (reported v m) w.group (w.leastPc w.group) dbg = p at hT
  have hreported : reported v m = reported w m := by simp only [reported, h.rlimit, h.rcount]
  have hx : SameRegs v (v.discardedWith w.group m.cls p) := by
    unfold Warp.discardedWith Warp.recount; split <;> exact ⟨rfl, rfl, rfl⟩
  have hpcv : (v.discardedWith w.group m.cls p).pcv = (v.setPc w.group v.revOf).pcv := by
    unfold Warp.discardedWith Warp.recount; split <;> rfl
  have hrsb : (v.discardedWith w.group m.cls p).rsb = v.rsb.filter fun h => !laneIn w.group (Warp.heldLane h) := by
    unfold Warp.discardedWith Warp.recount; split <;> rfl
  have hrc : (v.discardedWith w.group m.cls p).rcount = if counted m.cls then v.rcount + 1 else v.rcount := by
    unfold Warp.discardedWith Warp.recount; split <;> rfl
  refine ⟨_, v.discardedWith w.group m.cls p, p, hT, ⟨⟨?_, rfl, hp ▸ ⟨rfl, rfl⟩, ?_, h.bytes, ?_⟩, hp ▸ hreported, hp ▸ ⟨rfl, rfl, rfl⟩,
    h.regs.trans hx, fun l hl => ?_, ?_, ?_⟩, rfl, rfl, rfl, ?_⟩
  · have hw : (S.modMem fun m => { m with marks := mk }).warp? s.cur = some v := h.warp
    change (((S.modMem fun m => { m with marks := mk }).modWarp s.cur fun v => v.discardedWith w.group m.cls p)).warp? s.cur = _
    rw [State.warp?_modWarp_self, hw]; rfl
  · exact congrArg (Pending.event (.trapHandlerStart s.cur) :: ·) h.agenda
  · exact ⟨h.elsewhere.ap, h.elsewhere.blocks, h.elsewhere.grids, h.elsewhere.dev, fun k hk =>
      ((State.warp?_modWarp (S.modMem fun m => { m with marks := mk }) s.cur k _).trans (if_neg hk)).trans (h.elsewhere.warps k hk)⟩
  · have hl32 := laneIn_lt hl
    rw [show (v.discardedWith w.group m.cls p).pc l = (v.setPc w.group v.revOf).pc l by simp only [Warp.pc, hpcv],
      Warp.pc_setPc _ _ _ hl32, if_pos hl]
    simp only [Warp.revOf, h.rev]
  · rw [hrsb, h.rsb]
  · rw [hrc, h.rcount]
  · change ((((S.modMem fun m => { m with marks := mk }).modWarp s.cur fun v =>
      v.discardedWith w.group m.cls p).modCore (coreOf s.cur) g).core (coreOf s.cur)).level = _
    rw [State.core_modCore, if_pos rfl, hg]; rfl

theorem StartsAs.refl {s : State} {w : Warp} (h : s.warp? s.cur = some w) : StartsAs s s w w :=
  ⟨rfl, h, rfl, fun _ => rfl, ⟨rfl, rfl, rfl, rfl, fun _ _ => rfl⟩, ⟨rfl, rfl, rfl⟩, rfl, rfl, rfl, rfl, rfl, rfl⟩

/-- Reads at home change nothing that a discard looks at. -/
theorem StartsAs.left {s S T : State} {w v : Warp} (h : StartsAs s S w v) {k : Nat} (hl : FetchLeft k S T) (hc : T.cur = S.cur) :
    StartsAs s T w v where
  cur := hc.trans h.cur
  warp := by rw [← h.warp]; simp only [State.warp?, hl.warps]
  agenda := hl.agenda.trans h.agenda
  bytes := fun a => (show T.mem.byte a = S.mem.byte a by rw [hl.mem]; rfl).trans (h.bytes a)
  elsewhere := ⟨hl.ap.trans h.elsewhere.ap, hl.blocks.trans h.elsewhere.blocks, hl.grids.trans h.elsewhere.grids,
    hl.dev.trans h.elsewhere.dev, fun k hk => (show T.warp? k = S.warp? k by simp only [State.warp?, hl.warps]).trans (h.elsewhere.warps k hk)⟩
  regs := h.regs
  rsb := h.rsb
  rev := h.rev
  rlimit := h.rlimit
  rcount := h.rcount
  ctx := h.ctx
  blk := h.blk

/-- The state in which an issued instruction's effect runs. -/
theorem StartsAs.begun {s : State} {w : Warp} {f : Form} {n : Nat} (h : s.warp? s.cur = some w) :
    StartsAs s (s.begun f n w) w (w.atIssue f s) := by
  have ho := State.begun_only (s := s) (f := f) (n := n) (w := w) id
  refine ⟨?_, State.begun_warp h, ho.agenda, fun a => congrArg (Mem.byte · a) ho.mem, ⟨ho.ap, ho.blocks, ho.grids, ho.dev, fun k hk => ?_⟩,
    ⟨rfl, rfl, rfl⟩, rfl, rfl, rfl, rfl, rfl, rfl⟩
  · unfold State.begun; split <;> rfl
  · exact State.begun_other hk

/-- The end of the instruction finds nothing to do for a warp that has taken a trap. -/
theorem TrappedAtRev.finish {s T : State} {w w' : Warp} {p : Susp} {m : Trap} (h : TrappedAtRev s T w w' p m) (ht : w'.turn = none)
    (f : Form) (c : Ctx) (hc : c.wid = s.cur) : TrappedAtRev s (T.finish f c w) w w' p m := by
  have hf : w'.finished f c w = w' := by
    unfold Warp.finished
    simp only [h.trapped.susp, Option.isSome_some, Bool.or_true, if_true]
    split
    · rename_i ht'; rw [ht] at ht'; nomatch ht'
    · rfl
  unfold State.finish
  rw [hc]
  exact { h with trapped := { h.trapped with
    warp := by rw [State.warp?_modWarp_self, h.trapped.warp]; exact congrArg some hf
    else_ := { h.trapped.else_ with
      warps := fun k hk => (State.warp?_modWarp T s.cur k _).trans ((if_neg hk).trans (h.trapped.else_.warps k hk)) } } }

/-! ### The checks before Charge() (R48) -/

/-- A trap of the issuing instruction that does not wait and is no UE discards its lanes, where its walk has read (R291, R307). -/
theorem State.raise_eq (s : State) (c : Ctx) {t : Trap} (hw : t.wait = none) (hu : t.cls ≠ .ue) :
    s.raise c t = (s.walkedFor c.wid t).discardTrap c.wid t c.iss c.here := by
  simp only [State.raise, hw, hu, if_false]

theorem State.walkedFor_none (s : State) (wid : Nat) {t : Trap} (hp : t.cls ≠ .page) (hr : t.cls ≠ .prot) : s.walkedFor wid t = s := by
  simp [State.walkedFor, hp, hr]

/-- What a trap's walk leaves, where no detector is armed and no word of memory has an error. -/
theorem StartsAs.walkedFor {s S : State} {w v : Warp} (h : StartsAs s S w v) (hs : Sound S) (wid : Nat) (t : Trap) :
    StartsAs s (S.walkedFor wid t) w v := by
  unfold State.walkedFor
  split
  · split
    · exact h
    · exact h.left (FetchLeft.walked hs _ _ _ 0) (State.walked_cur ..)
  · exact h

theorem levelTrap_cls {need have_ : Level} {cls : TrapClass} (h : levelTrap need have_ = some cls) : cls = .priv ∨ cls = .illegal := by
  cases need <;> cases have_ <;> simp_all [levelTrap]

/-- A check before Charge() that fails with PRIV or ILLEGAL traps at the instruction, the machine and the bucket as before. -/
theorem State.raise_check {s : State} {w : Warp} (ht : Traps s w) (f : Form) {cls : TrapClass} (hc : cls = .priv ∨ cls = .illegal) :
    ∃ t w' p, s.raise (issueCtx f s w) { cls := cls } = t ∧ TrappedAtRev s t w w' p { cls := cls } ∧ t.dies = s.dies ∧
      (t.core (coreOf s.cur)).level = (s.core (coreOf s.cur)).level := by
  have hu : cls ≠ .ue ∧ cls ≠ .page ∧ cls ≠ .prot := by rcases hc with rfl | rfl <;> decide
  obtain ⟨t, w', p, hd, hr, -, -, hdies, hlevel⟩ := (StartsAs.refl ht.cur).trapped ht { cls := cls }
  refine ⟨t, w', p, ?_, hr, hdies, hlevel⟩
  rw [State.raise_eq _ _ rfl hu.1, State.walkedFor_none _ _ hu.2.1 hu.2.2]
  exact hd

/-- The instruction is issued under a form: what it runs begins with the form's checks (R48). -/
def Issues (i : Instr) (s : State) (f : Form) : Prop :=
  ∃ legal steps body, exec i s = .next (s.issue f legal steps body)

theorem Issues.of {i : Instr} {s : State} {f : Form} {legal : Ctx → State → Bool} {steps : Ctx → State → Nat} {body : Ctx → State → State}
    (h : exec i s = .next (s.issue f legal steps body)) : Issues i s f := ⟨legal, steps, body, h⟩

theorem Issues.simple {i : Instr} {s : State} {f : Form} {body : Ctx → State → State} (h : exec i s = .next (s.issueSimple f body)) :
    Issues i s f := ⟨_, _, body, h⟩

theorem Issues.level {i : Instr} {s : State} {f : Form} {w : Warp} (h : Issues i s f) (ht : Traps s w) {cls : TrapClass}
    (hl : levelTrap f.level w.level = some cls) : exec i s = .next (s.raise (issueCtx f s w) { cls := cls }) := by
  obtain ⟨legal, steps, body, he⟩ := h
  rw [he]
  simp only [State.issue, ht.cur, ht.lanes, if_false, hl]
  rfl

theorem Issues.names {i : Instr} {s : State} {f : Form} {w : Warp} (h : Issues i s f) (ht : Traps s w)
    (hl : levelTrap f.level w.level = none) (hn : w.names f = false ∨ (f.full = true ∧ s.lowService s.cur = true)) :
    exec i s = .next (s.raise (issueCtx f s w) { cls := .illegal }) := by
  obtain ⟨legal, steps, body, he⟩ := h
  have hc : ∀ b, (!w.names f || f.full && s.lowService s.cur || b) = true := by
    intro b
    rcases hn with hn | ⟨hf, hs⟩
    · simp [hn]
    · simp [hf, hs]
  rw [he]
  simp only [State.issue, ht.cur, ht.lanes, if_false, hl, hc, if_true]
  rfl

/-! ### Every form of the tables is the one that its instruction issues under -/

section
variable {i : Instr} (s : State)

theorem RunsVec.issues {v : VecShape} (h : RunsVec i v) : Issues i s v.full := .simple (h.exec_eq s)
theorem RunsMask.issues {v : MaskShape} (h : RunsMask i v) : Issues i s v.form := .simple (h.exec_eq s)
theorem RunsSca.issues {v : ScaShape} (h : RunsSca i v) : Issues i s v.form := .simple (h.exec_eq s)

/-- A control transfer runs the shared transfer, with the targets that the warp's registers give at issue. -/
structure RunsJump (i : Instr) (j : JumpShape) : Prop where
  exec_eq : ∀ s, exec i s = .next (s.issue j.full (fun _ _ => true) (fun _ _ => 0) fun c s => c.transfer j.link (j.target c) s)
  target_atIssue : ∀ c (w : Warp) f s l, j.target c (w.atIssue f s) l = j.target c w l

theorem callTarget_atIssue (tgt : CallTo) (c : Ctx) (w : Warp) (f : Form) (s : State) (l : Nat) :
    callTarget tgt c (w.atIssue f s) l = callTarget tgt c w l := by
  cases tgt with
  | rel off => rfl
  | reg a => exact srcAVal_atIssue ..

theorem runsJump {j : JumpShape} (h : jumps i = some j) : RunsJump i j := by
  unfold jumps at h
  split at h
  case h_9 => nomatch h
  all_goals (obtain rfl := Option.some.inj h; exact ⟨fun _ => rfl, fun _ _ _ _ _ => by simp [callTarget_atIssue]⟩)

theorem RunsJump.issues {j : JumpShape} (h : RunsJump i j) : Issues i s j.full := ⟨_, _, _, h.exec_eq s⟩

/-- A load runs the shared load. -/
structure RunsLoad (i : Instr) (v : LoadShape) : Prop where
  exec_eq : ∃ acq, ∀ s, exec i s = .next (s.issue v.form (fun _ _ => true) (lineSteps 6 v.ea) fun c s => c.load v.width v.sp acq v.d v.ea s)
  ea_atIssue : ∀ (w : Warp) f s, v.ea (w.atIssue f s) = v.ea w

theorem memEa_atIssue (sp : Spc) (e : Sys2Proof.Mem) (w : Warp) (f : Form) (s : State) : memEa sp e (w.atIssue f s) = memEa sp e w := by
  funext l
  unfold memEa
  rw [srcAVal_atIssue]; rfl

theorem storeEa_atIssue (t : MemW) (sp : Spc) (e : Sys2Proof.Mem) (w : Warp) (f : Form) (s : State) :
    storeEa t sp e (w.atIssue f s) = storeEa t sp e w := by
  funext l
  unfold storeEa
  rw [srcAVal_atIssue, memEa_atIssue]; rfl

theorem atmEa_atIssue (e : Atm) (w : Warp) (f : Form) (s : State) : atmEa e (w.atIssue f s) = atmEa e w := by
  funext l
  unfold atmEa
  rw [srcAVal_atIssue]

theorem runsLoad {v : LoadShape} (h : loads i = some v) : RunsLoad i v := by
  unfold loads at h
  split at h
  · obtain rfl := Option.some.inj h
    exact ⟨⟨none, fun _ => rfl⟩, fun _ _ _ => rfl⟩
  · rename_i acq _ _
    obtain rfl := Option.some.inj h
    exact ⟨⟨acq, fun _ => rfl⟩, fun _ _ _ => memEa_atIssue ..⟩
  · nomatch h

theorem RunsLoad.issues {v : LoadShape} (h : RunsLoad i v) : Issues i s v.form := by
  obtain ⟨acq, he⟩ := h.exec_eq
  exact ⟨_, _, _, he s⟩

/-- A store runs the shared store, or with `.rel` the commit and the direct store. -/
structure RunsStore (i : Instr) (v : StoreShape) : Prop where
  exec_eq : ∀ s, exec i s = .next (s.issue v.form (fun _ _ => true) (lineSteps 6 v.ea) fun c s =>
    if v.rel then c.storeRel v.width v.sp v.ea v.bytes s else c.store v.width v.sp v.ea v.bytes s)
  ea_atIssue : ∀ (w : Warp) f s, v.ea (w.atIssue f s) = v.ea w

theorem runsStore {v : StoreShape} (h : stores i = some v) : RunsStore i v := by
  unfold stores at h
  split at h
  · obtain rfl := Option.some.inj h
    exact ⟨fun _ => rfl, fun _ _ _ => rfl⟩
  · rename_i rel _ _
    obtain rfl := Option.some.inj h
    refine ⟨fun _ => ?_, fun _ _ _ => storeEa_atIssue ..⟩
    cases rel <;> rfl
  · nomatch h

theorem RunsStore.issues {v : StoreShape} (h : RunsStore i v) : Issues i s v.form := ⟨_, _, _, h.exec_eq s⟩

theorem runsAtomic {v : AtomShape} (h : atomics i = some v) (s : State) : exec i s = .next (s.execAtomic v.form v.kind v.e v.c) := by
  unfold atomics at h
  split at h
  case h_8 => nomatch h
  all_goals (obtain rfl := Option.some.inj h; rfl)

theorem issues_atomics {v : AtomShape} (h : atomics i = some v) : Issues i s v.form := .simple (runsAtomic h s)

theorem issues_caches {v : CacheShape} (h : caches i = some v) : Issues i s v.form := by
  unfold caches at h
  split at h
  case h_8 => nomatch h
  all_goals (obtain rfl := Option.some.inj h; exact .of rfl)

theorem issues_traps {v : Form × TrapClass × Nat} (h : traps i = some v) : Issues i s v.1 := by
  unfold traps at h
  split at h
  case h_4 => nomatch h
  all_goals (obtain rfl := Option.some.inj h; exact .simple rfl)

theorem issues_bars {v : Form × BarKind × Nat × Nat × Nat} (h : bars i = some v) : Issues i s v.1 := by
  unfold bars at h
  split at h
  case h_5 => nomatch h
  all_goals (obtain rfl := Option.some.inj h; exact .simple rfl)

theorem issues_tagWaits {v : Form × Bool × Nat × (Warp → DWord)} (h : tagWaits i = some v) : Issues i s v.1 := by
  unfold tagWaits at h
  split at h
  case h_5 => nomatch h
  all_goals (obtain rfl := Option.some.inj h; exact .simple rfl)

theorem issues_runs {v : RunShape} (h : runs s.curSlot i = some v) : Issues i s v.form := by
  unfold runs at h
  split at h
  case h_5 =>
    split at h
    · nomatch h
    · obtain rfl := Option.some.inj h; exact .of rfl
  case h_6 => nomatch h
  all_goals (obtain rfl := Option.some.inj h; exact .of rfl)

theorem Issues.acc {ld : Bool} {g slot d a b tag : Nat} {sp : Spc} {s : State} (h : exec i s = .next (s.execAcc ld g slot sp d a b tag)) :
    Issues i s (engForm g 4 true) := by
  unfold State.execAcc at h
  dsimp only at h
  exact .of h

theorem Issues.mm {yard : Bool} {e : Mm} {s : State} (h : exec i s = .next (s.execMm yard e)) : Issues i s (engForm e.g 4 true) := by
  unfold State.execMm at h
  dsimp only at h
  exact .of h

theorem issues_mats {v : MatShape} (h : mats i = some v) : Issues i s v.form := by
  unfold mats at h
  split at h
  case h_3 | h_4 => obtain rfl := Option.some.inj h; exact .acc rfl
  case h_5 => nomatch h
  all_goals (obtain rfl := Option.some.inj h; exact .of rfl)

theorem issues_copies {v : CopyShape} (h : copies i = some v) : Issues i s v.form := by
  unfold copies at h
  split at h
  case h_4 => nomatch h
  all_goals (obtain rfl := Option.some.inj h; exact .of rfl)

theorem issues_multiplies {v : Bool × Mm} (h : multiplies i = some v) : Issues i s (engForm v.2.g 4 true) := by
  unfold multiplies at h
  split at h
  case h_3 => nomatch h
  all_goals (obtain rfl := Option.some.inj h; exact .mm rfl)

theorem issues_colls {v : Nat × (Warp → Bool) × (Nat → Warp → Nat → CollCmd)} (h : colls i = some v) :
    Issues i s (engForm v.1 4 true) := by
  unfold colls at h
  split at h
  case h_3 => nomatch h
  all_goals (obtain rfl := Option.some.inj h; exact .of rfl)

theorem issues_invokes {v : Bool × Nat × Nat × Nat × Nat × Nat × Nat × Nat} (h : invokes i = some v) :
    Issues i s (engForm v.2.1 4 false .u) := by
  unfold invokes at h
  split at h
  case h_3 => nomatch h
  all_goals (obtain rfl := Option.some.inj h; exact .of rfl)

theorem issues_plainForm {f : Form} (h : plainForm i = some f) : Issues i s f := by
  unfold plainForm at h
  split at h
  case h_17 => nomatch h
  all_goals (obtain rfl := Option.some.inj h; exact .of rfl)

end

/-- EVERY INSTRUCTION OF THE TABLES ISSUES UNDER ITS FORM. -/
theorem issues_formOf {i : Instr} {s : State} {f : Form} (h : formOf s.curSlot i = some f) : Issues i s f := by
  unfold formOf at h
  obtain ⟨o, ho, hf⟩ := List.exists_of_findSome?_eq_some h
  obtain rfl : o = some f := hf
  simp only [List.mem_cons, List.not_mem_nil, or_false, eq_comm (a := some f), Option.map_eq_some_iff] at ho
  rcases ho with ⟨v, hv, rfl⟩ | ⟨v, hv, rfl⟩ | ⟨v, hv, rfl⟩ | ⟨v, hv, rfl⟩ | ⟨v, hv, rfl⟩ |
    ⟨v, hv, rfl⟩ | ⟨v, hv, rfl⟩ | ⟨v, hv, rfl⟩ | ⟨v, hv, rfl⟩ | ⟨v, hv, rfl⟩ |
    ⟨v, hv, rfl⟩ | ⟨v, hv, rfl⟩ | ⟨v, hv, rfl⟩ | ⟨v, hv, rfl⟩ | ⟨v, hv, rfl⟩ |
    ⟨v, hv, rfl⟩ | ⟨v, hv, rfl⟩ | ⟨v, hv, rfl⟩ | ⟨v, hv, rfl⟩ | ⟨v, hv, rfl⟩ | hv
  · exact (runsVec_intBase hv).issues s
  · exact (runsVec_intExt hv).issues s
  · exact (runsVec_fpBase hv).issues s
  · exact (runsVec_fpExt hv).issues s
  · exact (runsMask hv).issues s
  · exact (runsSca hv).issues s
  · exact (runsJump hv).issues s
  · exact (runsLoad hv).issues s
  · exact (runsStore hv).issues s
  · exact issues_atomics s hv
  · exact issues_caches s hv
  · exact issues_traps s hv
  · exact issues_bars s hv
  · exact issues_tagWaits s hv
  · exact issues_runs s hv
  · exact issues_mats s hv
  · exact issues_copies s hv
  · exact issues_multiplies s hv
  · exact issues_colls s hv
  · exact issues_invokes s hv
  · exact issues_plainForm s hv

/-- A level too low or too high, a register beyond the warp's count, or a form that the reduced service lacks. -/
theorem formOf_checks {i : Instr} {f : Form} {s : State} {w : Warp} (h : formOf s.curSlot i = some f) (ht : Traps s w) :
    (∀ cls, levelTrap f.level w.level = some cls →
      ∃ t w' p, exec i s = .next t ∧ TrappedAtRev s t w w' p { cls := cls } ∧ t.dies = s.dies ∧
        (t.core (coreOf s.cur)).level = (s.core (coreOf s.cur)).level) ∧
    (levelTrap f.level w.level = none → w.names f = false ∨ (f.full = true ∧ s.lowService s.cur = true) →
      ∃ t w' p, exec i s = .next t ∧ TrappedAtRev s t w w' p { cls := .illegal } ∧ t.dies = s.dies ∧
        (t.core (coreOf s.cur)).level = (s.core (coreOf s.cur)).level) := by
  have hi := issues_formOf h
  refine ⟨fun cls hl => ?_, fun hl hn => ?_⟩
  · obtain ⟨t, w', p, hr, hrest⟩ := State.raise_check ht f (levelTrap_cls hl)
    exact ⟨t, w', p, (hi.level ht hl).trans (congrArg _ hr), hrest⟩
  · obtain ⟨t, w', p, hr, hrest⟩ := State.raise_check ht f (.inr rfl)
    exact ⟨t, w', p, (hi.names ht hl hn).trans (congrArg _ hr), hrest⟩

/-! ### What an issue leaves for the checks of an access -/

/-- Two states in which the checks of an access find the same: memory, registers, free values, blocks, and each core's TLB and L1. -/
structure LooksAlike (s t : State) : Prop where
  mem : t.mem = s.mem
  ap : t.ap = s.ap
  own : t.own = s.own
  blocks : t.blocks = s.blocks
  tlb : ∀ k, (t.core k).tlb = (s.core k).tlb
  l1 : ∀ k, (t.core k).l1 = (s.core k).l1

namespace LooksAlike

variable {s t : State} (h : LooksAlike s t)
include h

theorem asAccess (l : Nat) : LooksAlike (s.asAccess l) (t.asAccess l) :=
  ⟨h.mem, h.ap, by simp only [State.asAccess, h.own], h.blocks, h.tlb, h.l1⟩

theorem walkPoison (pfn idx : Nat) (va : DWord) : t.walkPoison pfn idx va = s.walkPoison pfn idx va := by
  unfold State.walkPoison State.leasedOut State.upsetTrap
  rw [h.mem]

theorem walk (va : DWord) (left : Nat) : t.walk va left = s.walk va left := by
  induction left with
  | zero => rfl
  | succ left ih =>
    funext pfn
    have hword : t.tableWord pfn = s.tableWord pfn := by
      unfold State.tableWord
      rw [h.mem]
    unfold State.walk
    dsimp only
    rw [h.walkPoison, hword, h.own, ih]

theorem leaf (core ctx : Nat) (va : DWord) : t.leaf core ctx va = s.leaf core ctx va := by
  have htlb : t.tlbLook core ctx va = s.tlbLook core ctx va := by
    unfold State.tlbLook
    rw [h.tlb, h.mem, h.own]
  unfold State.leaf
  rw [h.ap, htlb, h.walk]

theorem place (core ctx : Nat) (priv : Bool) (a : Acc) (va : DWord) : t.place core ctx priv a va = s.place core ctx priv a va := by
  have hmap : t.mapTo core ctx priv a va = s.mapTo core ctx priv a va := by
    unfold State.mapTo State.svcMap State.trained State.xlate
    rw [h.ap, h.leaf]
  unfold State.place State.broken State.hostUp
  rw [hmap, h.mem, h.ap]

theorem consumes (core : Nat) (a : Acc) (key n : Nat) (va : DWord) : t.consumes core a key n va = s.consumes core a key n va := by
  unfold State.consumes State.upsetTrap State.l1Keeps
  rw [h.mem, h.l1, h.own]

/-- The checks of R162 find the same for a warp whose addresses, context, level and block are the same. -/
theorem reach {wid : Nat} {w v : Warp} (hs : s.warp? wid = some w) (ht : t.warp? wid = some v) {ea : Warp → Nat → DWord}
    (hea : ea v = ea w) (hctx : v.ctx = w.ctx) (hpriv : v.priv = w.priv) (hblk : v.blk = w.blk) (lanes : Word) (a : Acc) (sp : Spc)
    (n align : Nat) : t.reach wid lanes a sp n align ea = s.reach wid lanes a sp n align ea := by
  have hsize : t.spadSize w.blk = s.spadSize w.blk := by
    unfold State.spadSize State.block?
    rw [h.blocks]
  have hcause : t.boundsCause = s.boundsCause := by
    unfold State.boundsCause
    rw [h.own]
  unfold State.reach
  simp only [hs, ht, hea, hctx, hpriv, hblk]
  rw [hsize, hcause]
  cases sp <;> simp only [(h.asAccess _).place, h.consumes]

end LooksAlike

theorem LooksAlike.begun (s : State) (f : Form) (n : Nat) (w : Warp) : LooksAlike s (s.begun f n w) := by
  have ho := State.begun_only (s := s) (f := f) (n := n) (w := w) id
  have hcore : ∀ k, ((s.begun f n w).core k).tlb = (s.core k).tlb ∧ ((s.begun f n w).core k).l1 = (s.core k).l1 := by
    intro k
    change (((s.begun f n w).modWarp s.cur id).core k).tlb = _ ∧ (((s.begun f n w).modWarp s.cur id).core k).l1 = _
    by_cases hk : k = coreOf s.cur
    · subst hk
      rw [ho.core]
      split <;> exact ⟨rfl, rfl⟩
    · rw [ho.cores k hk]; exact ⟨rfl, rfl⟩
  exact ⟨ho.mem, ho.ap, ho.own, ho.blocks, fun k => (hcore k).1, fun k => (hcore k).2⟩

/-- The checks of an access see at its effect what they see at issue. -/
theorem State.reach_begun {s : State} {f : Form} {n : Nat} {w : Warp} (h : s.warp? s.cur = some w) {ea : Warp → Nat → DWord}
    (hea : ea (w.atIssue f s) = ea w) (lanes : Word) (a : Acc) (sp : Spc) (k align : Nat) :
    (s.begun f n w).reach s.cur lanes a sp k align ea = s.reach s.cur lanes a sp k align ea :=
  (LooksAlike.begun s f n w).reach h (State.begun_warp h) hea rfl rfl rfl lanes a sp k align

/-! ### Traps of an effect's own checks -/

section
variable {s : State} {f : Form} {w : Warp} {n : Nat} {m : Trap}

/-- AN EFFECT THAT ONLY RAISES A TRAP: it is taken at the instruction. -/
theorem State.issue_traps {legal : Ctx → State → Bool} {steps : Ctx → State → Nat} {body : Ctx → State → State} (hr : Ready f n s w)
    (ht : Traps s w) (hl : legal (issueCtx f s w) s = true) (hs : steps (issueCtx f s w) s = n) (he : (issueCtx f s w).en ≠ 0)
    (hb : body (issueCtx f s w) (s.begun f n w) = (s.begun f n w).raise (issueCtx f s w) m) (hw : m.wait = none) (hu : m.cls ≠ .ue) :
    ∃ w' p, TrappedAtRev s (s.issue f legal steps body) w w' p m := by
  have hlook := LooksAlike.begun s f n w
  have hsound : Sound (s.begun f n w) :=
    ⟨by rw [← hr.disarmed]; simp only [State.ap!, hlook.ap], by rw [hlook.mem]; exact hr.sound⟩
  obtain ⟨T, w', p, hT, hrev, hturn, -⟩ := ((StartsAs.begun ht.cur).walkedFor hsound s.cur m).trapped ht m
  refine ⟨w', p, ?_⟩
  rw [State.issue_ready legal steps body hr hl hs, if_neg he, hb, State.raise_eq _ _ hw hu]
  rw [show (((s.begun f n w).walkedFor (issueCtx f s w).wid m).discardTrap (issueCtx f s w).wid m (issueCtx f s w).iss
    (issueCtx f s w).here) = T from hT]
  exact hrev.finish hturn f (issueCtx f s w) rfl

/-- A commit point whose step 1 fails raises its trap. -/
theorem State.commitPoint_fails {pre : State → Option Trap} (B : State → State) (h : s.warp? s.cur = some w)
    (hp : pre (s.begun f n w) = some m) :
    (s.begun f n w).commitPoint (issueCtx f s w) pre B = (s.begun f n w).raise (issueCtx f s w) m := by
  have hw : (s.begun f n w).warp? (issueCtx f s w).wid = some (w.atIssue f s) := State.begun_warp h
  have hstage : (w.atIssue f s).stageStep = 0 := rfl
  simp only [State.commitPoint, State.commitTag, hw, hstage, tagFlies_64, hp]
  rfl

end

/-- The steps that an access of lanes draws, by the lines they name. -/
theorem lineSteps_issue {s : State} {f : Form} {w : Warp} (h : s.warp? s.cur = some w) (price : Nat) (ea : Warp → Nat → DWord) :
    lineSteps price ea (issueCtx f s w) s = price * (linesNamed (issueCtx f s w).en (ea w)).length := by
  have hw : s.warp? (issueCtx f s w).wid = some w := h
  simp only [lineSteps, hw]

/-! ### Addresses of failed translations -/

section
variable {s : State} {va : DWord} {m : Miss}

theorem State.walkPoison_addr {pfn idx : Nat} (h : s.walkPoison pfn idx va = some m) : m.addr = va := by
  simp only [State.walkPoison, State.upsetTrap] at h
  split at h
  · cases h; rfl
  split at h
  · cases h; rfl
  · obtain ⟨e, -, rfl⟩ := Option.map_eq_some_iff.mp h; rfl

theorem State.walk_addr (left : Nat) : ∀ pfn, s.walk va left pfn = .error m → m.addr = va := by
  induction left with
  | zero => intro pfn h; cases h; rfl
  | succ left ih =>
    intro pfn h
    unfold State.walk at h
    dsimp only at h
    cases hp : s.walkPoison pfn (vaIndex va.toNat (3 - left)) va with
    | some e =>
      simp only [hp] at h
      exact Except.error.inj h ▸ State.walkPoison_addr hp
    | none =>
      simp only [hp] at h
      generalize (if 3 - left < 2 then (vaIndex va.toNat (3 - left), s.tableWord pfn (vaIndex va.toNat (3 - left))) else _) = x at h
      split at h
      · cases h; rfl
      split at h
      · cases h; rfl
      split at h
      · nomatch h
      · exact ih _ h

theorem permit_addr {l : Leaf} {priv : Bool} {a : Acc} (h : permit l priv a va = some m) : m.addr = va := by
  unfold permit at h
  split at h
  · nomatch h
  split at h
  · cases h; rfl
  split at h
  · cases h; rfl
  split at h
  · cases h; rfl
  split at h
  · cases h; rfl
  · nomatch h

/-- A compute core's access that fails names its address (R303, R305). -/
theorem State.place_addr {core ctx : Nat} {priv : Bool} {a : Acc} (hc : isService core = false)
    (h : s.place core ctx priv a va = .error m) : m.addr = va := by
  simp only [State.place, State.mapTo, hc, Bool.false_eq_true, if_false, State.xlate] at h
  cases hl : s.leaf core ctx va with
  | error e =>
    simp only [hl] at h
    obtain rfl := Except.error.inj h
    simp only [State.leaf] at hl
    split at hl
    · exact Except.error.inj hl ▸ rfl
    split at hl
    · nomatch hl
    · exact State.walk_addr _ _ hl
  | ok l =>
    simp only [hl] at h
    cases hp : permit l priv a va with
    | some e =>
      simp only [hp] at h
      exact Except.error.inj h ▸ permit_addr hp
    | none =>
      simp only [hp] at h
      split at h
      · exact Except.error.inj h ▸ rfl
      · nomatch h

end

/-! ### The obligation -/

/-- A word 0 that does not translate traps at its fetch. -/
theorem fetch_traps {s s1 : State} {v : Nat} {q : List Pending} {w : Warp} {m : Trap} (ha : s.agenda = .issue v :: q)
    (h1 : s1 = s.turnTo v q) (ht : Traps s1 w) (hk : s1.workOf w = none)
    (hm : s1.place (coreOf v) w.ctx w.priv .fetch (w.leastPc w.group) = .error m) (hw : m.wait = none) (hu : m.cls ≠ .ue) :
    m.addr = w.leastPc w.group ∧ ∃ t w' p, step s = .next t ∧ TrappedAtRev s1 t w w' p m ∧ t.mem.ver = s1.mem.ver ∧ t.dies = s1.dies := by
  subst h1
  refine ⟨State.place_addr ht.core hm, ?_⟩
  obtain ⟨t, w', p, hd, hr, -, hver, hdies, -⟩ := (StartsAs.refl ht.cur).trapped ht m
  have hc : (s.turnTo v q).codeWord (coreOf (s.turnTo v q).cur) w (w.leastPc w.group) = .error m := by
    unfold State.codeWord
    rw [show (s.turnTo v q).place (coreOf (s.turnTo v q).cur) w.ctx w.priv .fetch (w.leastPc w.group) = .error m from hm]
  refine ⟨t, w', p, ?_, hr, hver, hdies⟩
  rw [step_stop ha (State.fetch_miss ht.cur ht.lanes hk hc), State.fetchMiss_trap hw hu]
  exact congrArg _ hd

/-- A control transfer with a misaligned target traps (R99). -/
theorem jump_traps {i : Instr} {j : JumpShape} {s : State} {w : Warp} {l : Nat} (hi : jumps i = some j) (ht : Traps s w)
    (hr : Ready j.full 0 s w) (hl : laneIn (issueCtx j.full s w).en l = true)
    (hal : (j.target (issueCtx j.full s w) w l).toNat % 4 ≠ 0) :
    ∃ t w' p m, exec i s = .next t ∧ m.cls = .align ∧ TrappedAtRev s t w w' p m := by
  obtain ⟨hexec, htarget⟩ := runsJump hi
  have hen : (issueCtx j.full s w).en ≠ 0 := fun he => by simp [he] at hl
  have hw : (s.begun j.full 0 w).warp? (issueCtx j.full s w).wid = some (w.atIssue j.full s) := State.begun_warp hr.cur
  cases hf : (lanesOf (issueCtx j.full s w).en).find? fun l => (j.target (issueCtx j.full s w) w l).toNat % 4 != 0 with
  | none =>
    have hall := List.find?_eq_none.mp hf l ((mem_lanesOf _ _).mpr ⟨laneIn_lt hl, hl⟩)
    simp [hal] at hall
  | some k =>
    obtain ⟨w', p, hrev⟩ := State.issue_traps (legal := fun _ _ => true) (steps := fun _ _ => 0)
      (body := fun c s => c.transfer j.link (j.target c) s) (m := { cls := .align, addr := j.target (issueCtx j.full s w) w k })
      hr ht rfl rfl hen (by simp only [Ctx.transfer, State.withWarp, hw, htarget, hf]) rfl nofun
    exact ⟨_, w', p, _, hexec s, rfl, hrev⟩

section
variable {i : Instr} {s : State} {f : Form} {w : Warp} {n : Nat} {m : Trap}

/-- The checks of an access of the enabled lanes fail at its effect as they fail at issue. -/
theorem State.reach_fails {a : Acc} {sp : Spc} {k : Nat} {ea : Warp → Nat → DWord} (h : s.warp? s.cur = some w)
    (hea : ea (w.atIssue f s) = ea w) (hm : s.reach s.cur (issueCtx f s w).en a sp k k ea = .error m) :
    (s.begun f n w).reach (issueCtx f s w).wid (issueCtx f s w).en a sp k k ea = .error m :=
  (State.reach_begun h hea ..).trans hm

/-- Step 1 of a commit point that accesses memory fails with its access's checks. -/
theorem State.checks_fail {a : Acc} {sp : Spc} {k : Nat} {ea : Warp → Nat → DWord} (h : s.warp? s.cur = some w)
    (hea : ea (w.atIssue f s) = ea w) (hm : s.reach s.cur (issueCtx f s w).en a sp k k ea = .error m) :
    (issueCtx f s w).checks a sp k k ea (s.begun f n w) = some m := by
  simp only [Ctx.checks, State.reach_fails (n := n) h hea hm]

/-- A load whose checks fail traps (R162). -/
theorem load_traps {v : LoadShape} (hi : loads i = some v) (ht : Traps s w)
    (hr : Ready v.form (6 * (linesNamed (issueCtx v.form s w).en (v.ea w)).length) s w) (hen : (issueCtx v.form s w).en ≠ 0)
    (hm : s.reach s.cur (issueCtx v.form s w).en .read v.sp (memBytes v.width) (memBytes v.width) v.ea = .error m) (hw : m.wait = none)
    (hu : m.cls ≠ .ue) : ∃ t w' p, exec i s = .next t ∧ TrappedAtRev s t w w' p m := by
  obtain ⟨⟨acq, hexec⟩, hea⟩ := runsLoad hi
  have hbody : ∀ n, (issueCtx v.form s w).load v.width v.sp acq v.d v.ea (s.begun v.form n w)
      = (s.begun v.form n w).raise (issueCtx v.form s w) m := by
    intro n
    have hbw : (s.begun v.form n w).warp? (issueCtx v.form s w).wid = some (w.atIssue v.form s) := State.begun_warp hr.cur
    simp only [Ctx.load, State.withWarp, hbw, State.reach_fails hr.cur (hea w v.form s) hm]
  obtain ⟨w', p, hrev⟩ := State.issue_traps (legal := fun _ _ => true) (steps := lineSteps 6 v.ea)
    (body := fun c s => c.load v.width v.sp acq v.d v.ea s) hr ht rfl (lineSteps_issue hr.cur ..) hen (hbody _) hw hu
  exact ⟨_, w', p, hexec s, hrev⟩

/-- A store or release whose checks fail traps (R162, R168). -/
theorem store_traps {v : StoreShape} (hi : stores i = some v) (ht : Traps s w)
    (hr : Ready v.form (6 * (linesNamed (issueCtx v.form s w).en (v.ea w)).length) s w) (hen : (issueCtx v.form s w).en ≠ 0)
    (hm : s.reach s.cur (issueCtx v.form s w).en (if v.rel then .put else .write) v.sp (memBytes v.width) (memBytes v.width) v.ea = .error m)
    (hw : m.wait = none) (hu : m.cls ≠ .ue) : ∃ t w' p, exec i s = .next t ∧ TrappedAtRev s t w w' p m := by
  obtain ⟨hexec, hea⟩ := runsStore hi
  have hbody : ∀ n, (if v.rel then (issueCtx v.form s w).storeRel v.width v.sp v.ea v.bytes (s.begun v.form n w)
      else (issueCtx v.form s w).store v.width v.sp v.ea v.bytes (s.begun v.form n w))
      = (s.begun v.form n w).raise (issueCtx v.form s w) m := by
    intro n
    have hbw : (s.begun v.form n w).warp? (issueCtx v.form s w).wid = some (w.atIssue v.form s) := State.begun_warp hr.cur
    cases hrel : v.rel with
    | true =>
      rw [hrel, if_pos rfl] at hm
      rw [if_pos rfl]
      exact State.commitPoint_fails _ hr.cur (State.checks_fail hr.cur (hea w v.form s) hm)
    | false =>
      rw [hrel, if_neg Bool.false_ne_true] at hm
      rw [if_neg Bool.false_ne_true]
      simp only [Ctx.store, State.withWarp, hbw, State.reach_fails hr.cur (hea w v.form s) hm]
  obtain ⟨w', p, hrev⟩ := State.issue_traps (legal := fun _ _ => true) (steps := lineSteps 6 v.ea)
    (body := fun c s => if v.rel then c.storeRel v.width v.sp v.ea v.bytes s else c.store v.width v.sp v.ea v.bytes s)
    hr ht rfl (lineSteps_issue hr.cur ..) hen (hbody _) hw hu
  exact ⟨_, w', p, hexec s, hrev⟩

/-- An atomic whose checks fail traps (R162, R168). -/
theorem atomic_traps {v : AtomShape} (hi : atomics i = some v) (ht : Traps s w) (hr : Ready v.form 0 s w)
    (hen : (issueCtx v.form s w).en ≠ 0)
    (hm : s.reach s.cur (issueCtx v.form s w).en .both .g (atomReads v.kind) (atomReads v.kind) (atmEa v.e) = .error m)
    (hw : m.wait = none) (hu : m.cls ≠ .ue) : ∃ t w' p, exec i s = .next t ∧ TrappedAtRev s t w w' p m := by
  obtain ⟨w', p, hrev⟩ := State.issue_traps (legal := fun _ _ => true) (steps := fun _ _ => 0)
    (body := fun c s => c.atomic v.kind v.e v.c s) hr ht rfl rfl hen
    (State.commitPoint_fails _ hr.cur (State.checks_fail hr.cur (atmEa_atIssue v.e w v.form s) hm)) hw hu
  exact ⟨_, w', p, runsAtomic hi s, hrev⟩

end

theorem lanesOf_laneBit {l : Nat} (h : l < 32) : lanesOf (laneBit l) = [l] :=
  (by decide : ∀ l < 32, lanesOf (laneBit l) = [l]) l h

/-- A misaligned lane fails the checks of an access with its address (R162). -/
theorem State.reach_misaligned {s : State} {wid l n align : Nat} {a : Acc} {sp : Spc} {w : Warp} {ea : Warp → Nat → DWord}
    (hs : s.warp? wid = some w) (hl : l < 32) (hal : (ea w l).toNat % align ≠ 0) :
    s.reach wid (laneBit l) a sp n align ea = .error { cls := .align, addr := ea w l } := by
  simp [State.reach, hs, lanesOf_laneBit hl, hal]

/-- Settles O6, by the checks in their order: the fetch, the form, then the effect's own. -/
theorem checksTrapWithoutEffect : Obligations.ChecksTrapWithoutEffect := by
  refine ⟨fun s s1 v q w m => fetch_traps, fun i f s w => formOf_checks, fun i s w hi ht => ?_, fun i j s w l => jump_traps,
    ?_, ?_, ?_, ?_⟩
  · have hlevel : ∃ f, formOf s.curSlot i = some f ∧ levelTrap f.level w.level = some .priv := by
      rcases hi with ⟨a, rfl, hl⟩ | ⟨rfl, hl⟩
      · exact ⟨_, rfl, by rw [hl]; rfl⟩
      · exact ⟨_, rfl, by cases hw : w.level with | s => exact absurd hw hl | _ => rfl⟩
    obtain ⟨f, hf, hl⟩ := hlevel
    obtain ⟨t, w', p, he, hr, -, hk⟩ := (formOf_checks hf ht).1 _ hl
    exact ⟨t, w', p, he, hr, hk⟩
  · rintro i v _ s w m hi rfl
    exact load_traps hi
  · rintro i v _ s w m hi rfl
    exact store_traps hi
  · rintro i v _ s w m hi rfl
    exact atomic_traps hi
  · rintro s wid _ a sp n align l w ea hs hl rfl hal
    exact State.reach_misaligned hs hl hal

end Sys2Proof.Machine
end

section
/-!
PROOFS. The clocks: what a die's cycle keeps and the level it leaves, the governor's PR, EPT after a calibration window, and the cycle of
a core whose engines and warps have nothing to do.
Settles O43.
-/

namespace Sys2Proof.Machine

/-! ### The die's cycle (R31, R375) -/

/-- No core of a die has a hint. -/
def State.NoHints (s : State) (d : Nat) : Prop := ∀ c ∈ coresOfDie d, (s.core c).hints = []

/-- What each part of a die's cycle after the share leaves as it was: bytes and versions of memory, warps, blocks, grids, the device and
%clk; where the die has no hint, none appears, and memory, the owed steps and the other dies stay too. -/
structure DieStep (d : Nat) (s t : State) : Prop where
  bytes : SameBytes s t
  ver : t.mem.ver = s.mem.ver
  warps : t.warps = s.warps
  blocks : t.blocks = s.blocks
  grids : t.grids = s.grids
  dev : t.dev = s.dev
  clk : (t.die d).clk = (s.die d).clk
  quiet : s.NoHints d → t.NoHints d ∧ (t.die d).owed = (s.die d).owed ∧ t.mem = s.mem ∧ ∀ k, k ≠ d → t.die k = s.die k

/-- A part of the cycle that leaves the die's level as it was too. -/
structure LevelStep (d : Nat) (s t : State) : Prop extends DieStep d s t where
  level : (t.die d).level = (s.die d).level

theorem DieStep.refl (d : Nat) (s : State) : DieStep d s s :=
  ⟨fun _ => rfl, rfl, rfl, rfl, rfl, rfl, rfl, fun h => ⟨h, rfl, rfl, fun _ _ => rfl⟩⟩

theorem DieStep.trans {d : Nat} {s t u : State} (h : DieStep d s t) (g : DieStep d t u) : DieStep d s u where
  bytes a := (g.bytes a).trans (h.bytes a)
  ver := g.ver.trans h.ver
  warps := g.warps.trans h.warps
  blocks := g.blocks.trans h.blocks
  grids := g.grids.trans h.grids
  dev := g.dev.trans h.dev
  clk := g.clk.trans h.clk
  quiet hs := by
    obtain ⟨ht, howed, hmem, hdies⟩ := h.quiet hs
    obtain ⟨hu, gowed, gmem, gdies⟩ := g.quiet ht
    exact ⟨hu, gowed.trans howed, gmem.trans hmem, fun k hk => (gdies k hk).trans (hdies k hk)⟩

theorem LevelStep.refl (d : Nat) (s : State) : LevelStep d s s := ⟨.refl d s, rfl⟩

theorem LevelStep.trans {d : Nat} {s t u : State} (h : LevelStep d s t) (g : LevelStep d t u) : LevelStep d s u :=
  ⟨h.toDieStep.trans g.toDieStep, g.level.trans h.level⟩

theorem DieStep.modDie (d : Nat) (s : State) (f : Die → Die) (hc : ∀ x, (f x).clk = x.clk) (ho : ∀ x, (f x).owed = x.owed) :
    DieStep d s (s.modDie d f) :=
  ⟨fun _ => rfl, rfl, rfl, rfl, rfl, rfl, by rw [State.die_modDie, if_pos rfl, hc], fun h =>
    ⟨h, by rw [State.die_modDie, if_pos rfl, ho], rfl, fun k hk => by rw [State.die_modDie, if_neg hk]⟩⟩

theorem LevelStep.modDie (d : Nat) (s : State) (f : Die → Die) (hc : ∀ x, (f x).clk = x.clk) (ho : ∀ x, (f x).owed = x.owed)
    (hl : ∀ x, (f x).level = x.level) : LevelStep d s (s.modDie d f) :=
  ⟨.modDie d s f hc ho, by rw [State.die_modDie, if_pos rfl, hl]⟩

theorem LevelStep.modCore (d : Nat) (s : State) (c : Nat) (f : Core → Core) (hf : ∀ k, k.hints = [] → (f k).hints = []) :
    LevelStep d s (s.modCore c f) :=
  ⟨⟨fun _ => rfl, rfl, rfl, rfl, rfl, rfl, rfl, fun h =>
    ⟨fun k hk => by
      rw [State.core_modCore]
      split
      · next e => exact hf _ (e ▸ h k hk)
      · exact h k hk, rfl, rfl, fun _ _ => rfl⟩⟩, rfl⟩

theorem LevelStep.apField (d : Nat) (s : State) (off hi lo x : Nat) : LevelStep d s (s.apField off hi lo x) :=
  ⟨⟨fun _ => rfl, rfl, rfl, rfl, rfl, rfl, rfl, fun h => ⟨h, rfl, rfl, fun _ _ => rfl⟩⟩, rfl⟩

/-! ### A line that a hint brings into its slice (R380) -/

/-- What a line's coming into a slice leaves as it was. -/
structure FillLeft (s t : State) : Prop where
  bytes : SameBytes s t
  ver : t.mem.ver = s.mem.ver
  warps : t.warps = s.warps
  blocks : t.blocks = s.blocks
  grids : t.grids = s.grids
  dev : t.dev = s.dev
  clk : ∀ k, (t.die k).clk = (s.die k).clk
  level : ∀ k, (t.die k).level = (s.die k).level

theorem State.sliceStep_die (s : State) (line price k : Nat) :
    ((s.sliceStep line price).die k).clk = (s.die k).clk ∧ ((s.sliceStep line price).die k).level = (s.die k).level := by
  unfold State.sliceStep State.homeStep
  simp only [State.die_modDie]
  split
  · next e => subst e; exact ⟨rfl, rfl⟩
  · exact ⟨rfl, rfl⟩

theorem FillLeft.refl (s : State) : FillLeft s s := ⟨fun _ => rfl, rfl, rfl, rfl, rfl, rfl, fun _ => rfl, fun _ => rfl⟩

theorem FillLeft.contains (s : State) (e : Option (Nat × Nat)) (wid : Option Nat) : FillLeft s (s.contains e wid) := by
  cases e <;> exact ⟨fun _ => rfl, rfl, rfl, rfl, rfl, rfl, fun _ => rfl, fun _ => rfl⟩

theorem State.seatLine_left (s : State) (line : Nat) : FillLeft s (s.seatLine line) := by
  unfold State.seatLine
  extract_lets u
  have h : FillLeft s u := by
    unfold u
    split
    · exact .refl s
    · exact .contains ..
  clear_value u
  refine ⟨h.bytes, h.ver, h.warps, h.blocks, h.grids, h.dev, fun k => ?_, fun k => ?_⟩
  · refine Eq.trans ?_ (h.clk k)
    cases hold : u.mem.dirtyVictim (u.victim line) line with
    | none => simp only [State.die]
    | some old => simpa only [State.die, hold] using (u.sliceStep_die old 20 k).1
  · refine Eq.trans ?_ (h.level k)
    cases hold : u.mem.dirtyVictim (u.victim line) line with
    | none => simp only [State.die]
    | some old => simpa only [State.die, hold] using (u.sliceStep_die old 20 k).2

theorem State.fillHome_left (s : State) (line : Nat) : FillLeft s (s.fillHome line) := by
  unfold State.fillHome
  split
  · exact s.seatLine_left line
  · split
    · exact ⟨fun _ => rfl, rfl, rfl, rfl, rfl, rfl, fun _ => rfl, fun _ => rfl⟩
    · exact .refl s

/-- With a hint on the die, a line's coming is no more than a part of the cycle that keeps the level. -/
theorem LevelStep.of_hint {d : Nat} {s t u : State} (hn : ¬ s.NoHints d) (h : LevelStep d s t) (g : FillLeft t u) : LevelStep d s u where
  bytes a := (g.bytes a).trans (h.bytes a)
  ver := g.ver.trans h.ver
  warps := g.warps.trans h.warps
  blocks := g.blocks.trans h.blocks
  grids := g.grids.trans h.grids
  dev := g.dev.trans h.dev
  clk := (g.clk d).trans h.clk
  quiet hs := absurd hs hn
  level := (g.level d).trans h.level

theorem State.oldestHint_of_noHints {s : State} {d : Nat} (h : s.NoHints d) : s.oldestHint d = none :=
  foldl_eq_self fun c hc => by simp only [h c hc]

section
variable {s : State} {d c : Nat} {x : Hint}

theorem State.burnHints_none (n : Nat) (excess : Int) (h : s.oldestHint d = none) : s.burnHints d (n + 1) excess = (s, excess) := by
  change (match s.oldestHint d with | none => _ | some (c, h) => _) = _
  rw [h]

theorem State.burnHints_error (n : Nat) (excess : Int) {m : Miss} (h : s.oldestHint d = some (c, x))
    (hp : s.place c x.ctx true .read (BitVec.ofNat 64 x.va) = .error m) :
    s.burnHints d (n + 1) excess = (s.modCore c fun k => { k with hints := k.hints.drop 1 }).burnHints d n excess := by
  change (match s.oldestHint d with | none => _ | some (c, h) => _) = _
  rw [h]
  change (match s.place c x.ctx true .read (BitVec.ofNat 64 x.va) with | .error _ => _ | .ok key => _) = _
  rw [hp]

theorem State.burnHints_ok (n : Nat) (excess : Int) {key : Nat} (h : s.oldestHint d = some (c, x))
    (hp : s.place c x.ctx true .read (BitVec.ofNat 64 x.va) = .ok key) :
    s.burnHints d (n + 1) excess = if excess < ((s.hintPrice c key * 256 : Nat) : Int) then (s, excess) else
      ((s.modCore c fun k => { k with hints := k.hints.drop 1 }).fillHome (lineOf key)).burnHints d n
        (excess - ((s.hintPrice c key * 256 : Nat) : Int)) := by
  change (match s.oldestHint d with | none => _ | some (c, h) => _) = _
  rw [h]
  change (match s.place c x.ctx true .read (BitVec.ofNat 64 x.va) with | .error _ => _ | .ok key => _) = _
  rw [hp]
end

theorem LevelStep.burnHints (d n : Nat) (s : State) (excess : Int) : LevelStep d s (s.burnHints d n excess).1 := by
  induction n generalizing s excess with
  | zero => exact .refl d s
  | succ n ih =>
    cases hold : s.oldestHint d with
    | none => rw [State.burnHints_none n excess hold]; exact .refl d s
    | some x =>
      obtain ⟨c, h⟩ := x
      have hn : ¬ s.NoHints d := fun hs => by rw [State.oldestHint_of_noHints hs] at hold; cases hold
      have hdrop : LevelStep d s (s.modCore c fun k => { k with hints := k.hints.drop 1 }) :=
        .modCore d s c _ fun k hk => by simp [hk]
      cases hplace : s.place c h.ctx true .read (BitVec.ofNat 64 h.va) with
      | error _ => rw [State.burnHints_error n excess hold hplace]; exact hdrop.trans (ih _ _)
      | ok key =>
        rw [State.burnHints_ok n excess hold hplace]
        split
        · exact .refl d s
        · exact (hdrop.of_hint hn (State.fillHome_left _ (lineOf key))).trans (ih _ _)

/-! ### Ballast, refills, hints and FEED -/

theorem LevelStep.ballast (d : Nat) (s : State) (excess : Int) : LevelStep d s (s.ballast d excess) := by
  unfold State.ballast
  have hburn : LevelStep d s (if s.ap! offBalCtl % 2 = 1 then s.burnHints d 4 excess else (s, excess)).1 := by
    split
    · exact .burnHints d 4 s excess
    · exact .refl d s
  simp only
  generalize (if s.ap! offBalCtl % 2 = 1 then s.burnHints d 4 excess else (s, excess)) = r at hburn ⊢
  have hspent := hburn.trans (.modDie d r.1 (fun x => { x with
    burn := ((r.1.die d).burnAll (ballastLeft (s.ap! offBalCtl) r.2)).1
    spent := x.spent + (excess - ((r.1.die d).burnAll (ballastLeft (s.ap! offBalCtl) r.2)).2).toNat })
    (fun _ => rfl) (fun _ => rfl) fun _ => rfl)
  split
  · exact hspent.trans (.apField d _ _ _ _ _)
  · exact hspent

theorem LevelStep.dropHints (d : Nat) (s : State) : LevelStep d s (s.dropHints d) := by
  unfold State.dropHints
  split
  · exact .refl d s
  · refine State.foldl_keeps (P := LevelStep d s) _ (fun t c h => ?_) _ (.refl d s)
    split
    · exact h
    · exact h.trans (.modCore d t c _ fun _ _ => rfl)

theorem LevelStep.feedTick (d : Nat) (s : State) : LevelStep d s (s.feedTick d) :=
  .modDie d s _ (fun _ => rfl) (fun _ => rfl) fun _ => rfl

theorem DieStep.payRefills (d : Nat) (s : State) : DieStep d s (s.payRefills d) := by
  refine State.foldl_keeps (P := DieStep d s) _ (fun t c h => h.trans ?_) _ (.refl d s)
  simp only
  split
  · refine (LevelStep.modCore d t c _ ?_).toDieStep
    exact fun _ hk => hk
  · refine DieStep.trans (.modDie d t _ ?_ ?_) (LevelStep.modCore d _ c _ ?_).toDieStep
    · exact fun _ => rfl
    · exact fun _ => rfl
    · exact fun _ hk => hk

@[simp] theorem State.payRefills_ap (s : State) (d : Nat) : (s.payRefills d).ap = s.ap := by
  refine State.foldl_keeps (P := fun t => t.ap = s.ap) _ (fun t c h => ?_) _ rfl
  simp only
  split <;> exact h

/-! ### The cycle in its parts -/

/-- What of a die's level goes to its home steps and its forced burn (R375). -/
def Die.homePaid (x : Die) : Nat := 256 * (x.owed + x.forced.foldl (fun n e => n + e.2) 0)

/-- A die's bucket holds no more than this (R375). -/
def State.dieCap (s : State) (d : Nat) : Int := ((256 * s.apBits (offDieGov d) 15 0 : Nat) : Int)

/-- %clk counts, the share comes in, home steps and forced burn go out. -/
def State.dieTaken (s : State) (d : Nat) : State :=
  s.modDie d fun x => { x with
    clk := x.clk + 1, level := x.level + ((x.share : Nat) : Int) - ((x.homePaid : Nat) : Int), paid := x.paid + x.homePaid,
    spent := x.spent + x.homePaid, owed := 0,
    burn := x.forced.foldl (fun t e => Tab.put 0 t e.1 (Tab.get t 0 e.1 + 256 * e.2)) x.burn, rot := (x.rot + 1) % 48 }

/-- Refills are paid unless the bank is low. -/
def State.dieRefilled (s : State) (d : Nat) : State := if (s.die d).low then s else s.payRefills d

/-- What the bucket does not hold goes to the ballast. -/
def State.dieCapped (s : State) (d : Nat) : State :=
  if 0 < (s.die d).level - s.dieCap d then (s.modDie d fun x => { x with level := s.dieCap d }).ballast d ((s.die d).level - s.dieCap d) else s

theorem State.dieCycle_eq (s : State) (d : Nat) :
    s.dieCycle d = ((((s.dieTaken d).dieRefilled d).dieCapped d).dropHints d).feedTick d := rfl

theorem DieStep.dieRefilled (d : Nat) (s : State) : DieStep d s (s.dieRefilled d) := by
  unfold State.dieRefilled
  split
  · exact .refl d s
  · exact .payRefills d s

theorem State.dieCap_dieRefilled (s : State) (d : Nat) : (s.dieRefilled d).dieCap d = s.dieCap d := by
  unfold State.dieRefilled
  split
  · rfl
  · simp only [State.dieCap, State.apBits, State.ap!, State.payRefills_ap]

theorem State.dieRefilled_of_low {s : State} {d : Nat} (h : (s.die d).low = true) : s.dieRefilled d = s := if_pos h

theorem DieStep.dieCapped (d : Nat) (s : State) :
    DieStep d s (s.dieCapped d) ∧ ((s.dieCapped d).die d).level = min (s.die d).level (s.dieCap d) := by
  unfold State.dieCapped
  split
  · have h := LevelStep.ballast d (s.modDie d fun x => { x with level := s.dieCap d }) ((s.die d).level - s.dieCap d)
    refine ⟨DieStep.trans (.modDie d s _ ?_ ?_) h.toDieStep, ?_⟩
    · exact fun _ => rfl
    · exact fun _ => rfl
    rw [h.level, State.die_modDie, if_pos rfl]
    simp only; omega
  · exact ⟨.refl d s, by omega⟩

theorem State.die_dieTaken (s : State) (d : Nat) :
    ((s.dieTaken d).die d).clk = (s.die d).clk + 1 ∧ ((s.dieTaken d).die d).low = (s.die d).low ∧ ((s.dieTaken d).die d).owed = 0 ∧
      ((s.dieTaken d).die d).level = (s.die d).level + (((s.die d).share : Nat) : Int) - (((s.die d).homePaid : Nat) : Int) ∧
      ∀ k, k ≠ d → (s.dieTaken d).die k = s.die k := by
  simp only [State.dieTaken, State.die_modDie, if_pos, true_and]
  exact fun k hk => if_neg hk

/-- After the share, the cycle is one `DieStep`, and leaves the level at its capacity at most. -/
theorem State.dieCycle_left (s : State) (d : Nat) :
    DieStep d (s.dieTaken d) (s.dieCycle d) ∧
      ((s.dieCycle d).die d).level = min (((s.dieTaken d).dieRefilled d).die d).level (s.dieCap d) := by
  obtain ⟨hcap, hlevel⟩ := DieStep.dieCapped d ((s.dieTaken d).dieRefilled d)
  have hend := (LevelStep.dropHints d (((s.dieTaken d).dieRefilled d).dieCapped d)).trans (.feedTick d _)
  rw [State.dieCycle_eq]
  exact ⟨((DieStep.dieRefilled d _).trans hcap).trans hend.toDieStep, by rw [hend.level, hlevel, State.dieCap_dieRefilled]; rfl⟩

/-! ### The governor's tick (R374, R377, R379) -/

/-- What shares, limits and the governor's registers leave as it was. -/
structure GovLeft (s t : State) : Prop where
  dev : t.dev = s.dev
  mem : t.mem = s.mem
  warps : t.warps = s.warps
  blocks : t.blocks = s.blocks

theorem GovLeft.refl (s : State) : GovLeft s s := ⟨rfl, rfl, rfl, rfl⟩

theorem GovLeft.trans {s t u : State} (h : GovLeft s t) (g : GovLeft t u) : GovLeft s u :=
  ⟨g.dev.trans h.dev, g.mem.trans h.mem, g.warps.trans h.warps, g.blocks.trans h.blocks⟩

theorem GovLeft.modDie (s : State) (d : Nat) (f : Die → Die) : GovLeft s (s.modDie d f) := ⟨rfl, rfl, rfl, rfl⟩

theorem GovLeft.modCore (s : State) (c : Nat) (f : Core → Core) : GovLeft s (s.modCore c f) := ⟨rfl, rfl, rfl, rfl⟩

theorem GovLeft.apField (s : State) (off hi lo x : Nat) : GovLeft s (s.apField off hi lo x) := ⟨rfl, rfl, rfl, rfl⟩

theorem GovLeft.irq (s : State) (v : Nat) : GovLeft s (s.irq v) := ⟨rfl, rfl, rfl, rfl⟩

theorem GovLeft.balance (s : State) (d p : Nat) : GovLeft s (s.balance d p) := by
  unfold State.balance
  have hdraws : ∀ off x y, GovLeft s ((s.apField off 47 32 x).apField off 63 48 y) := fun _ _ _ =>
    (GovLeft.apField ..).trans (.apField ..)
  simp only
  split
  · exact hdraws ..
  · have hforced : ∀ off x y f, GovLeft s ((((s.apField off 47 32 x).apField off 63 48 y).apField off 14 14 1).modDie d f) :=
      fun _ _ _ _ => ((hdraws ..).trans (.apField ..)).trans (.modDie ..)
    split
    · exact hforced ..
    · exact ((hforced ..).trans (.apField ..)).trans (.modDie ..)

theorem GovLeft.nextLimits (s : State) (d : Nat) (give dem : Nat → Nat) : GovLeft s (s.nextLimits d give dem) := by
  unfold State.nextLimits
  refine GovLeft.trans ?_ (.modDie ..)
  refine State.foldl_keeps (P := GovLeft s) _ (fun t c h => ?drawn) _ ?_
  case drawn =>
    split
    · exact h
    · exact h.trans (.modCore ..)
  exact State.foldl_keeps (P := GovLeft s) _ (fun t p h => h.trans (.balance t d p)) _ (.modDie ..)

theorem GovLeft.govStat (s : State) (ct : Nat) : GovLeft s (s.govStat ct) := by
  unfold State.govStat
  refine GovLeft.trans ?_ (((((GovLeft.apField ..).trans (.apField ..)).trans (.apField ..)).trans (.apField ..)))
  split
  · exact .irq s _
  · exact .refl s

/-- The governor moves PR towards some target; of the device, only what the tick itself sets is new. -/
theorem State.govern_left (s : State) :
    ∃ tg, s.govern.dev.pr = nextPr s.dev.pr tg (256 * s.apBits (bGov + 8) 15 0) (256 * s.static) ∧ s.govern.dev.micros = s.dev.micros ∧
      s.govern.mem = s.mem ∧ s.govern.warps = s.warps ∧ s.govern.blocks = s.blocks := by
  unfold State.govern
  extract_lets sc ct tg pr dem give shares tokens u v
  have hshares : GovLeft u v := State.foldl_keeps (P := GovLeft u) _ (fun t d h => (h.trans (.nextLimits t d give dem)).trans (.modDie ..)) _ (.refl u)
  obtain ⟨hdev, hmem, hwarps, hblocks⟩ := hshares.trans (.govStat v ct)
  exact ⟨tg, by rw [hdev]; rfl, by rw [hdev]; rfl, hmem, hwarps, hblocks⟩

/-- A microsecond has passed: the device counts it, and a job's intent lapses with its time. -/
def State.microPassed (s : State) : State :=
  s.modDev fun v => { v with
    micros := v.micros + 1, jobIntent := v.jobIntent.filter fun i => decide (v.micros + 1 < i.due + 100) }

theorem State.tickMicro_off {s : State} (h : s.apBits offBootStat 28 28 = 0) : s.tickMicro = s.microPassed :=
  if_neg (h.trans_ne (by decide))

theorem State.tickMicro_on {s : State} (h : s.apBits offBootStat 28 28 = 1) : s.tickMicro = s.microPassed.govern := if_pos h

theorem nextPr_bounds (pr tg slew sc : Nat) :
    sc ≤ nextPr pr tg slew sc ∧ nextPr pr tg slew sc ≤ max (pr + slew) sc ∧ pr ≤ nextPr pr tg slew sc + slew := by
  simp only [nextPr]
  omega

/-! ### Calibration (R394) -/

/-- A quarter of a value up to 64 tokens and three quarters of the old EPT is a value of EPT's field. -/
theorem State.nextEpt_lt (s : State) (p : Nat) : s.nextEpt p < 2 ^ 16 := by
  have hept : s.ept < 2 ^ 16 := Nat.mod_lt _ (by decide)
  simp only [State.nextEpt]
  omega

theorem State.nextEpt_of_drawn {s : State} (p : Nat) (h : s.dev.drawn ≠ 0) :
    s.nextEpt p = (3 * s.ept + min (max (p * 10 ^ 9 * 256 * 256 / (s.dev.drawn * s.cclk)) (16 * 256)) (64 * 256)) / 4 := by
  simp only [State.nextEpt, if_neg h]

theorem State.calibrate_some {s : State} (p : Nat) (h : s.apBits offGovCal 0 0 = 0) :
    s.calibrate (some p) = (s.apField offGovCal 63 48 (s.nextEpt p)).modDev fun v => { v with missed := 0, drawn := 0 } :=
  if_neg (h.trans_ne (by decide))

/-- The end of a window with a value: EPT's field holds the new value, and the window's counts begin again. -/
theorem State.calibrate_left {s : State} (p : Nat) (h : s.apBits offGovCal 0 0 = 0) :
    ∃ t, s.calibrate (some p) = t ∧ t.apBits offGovCal 63 48 = s.nextEpt p ∧ t.dev = { s.dev with missed := 0, drawn := 0 } ∧
      OnlyRegs (· = offGovCal) s { t with dev := s.dev } := by
  have hx := s.nextEpt_lt p
  rw [State.calibrate_some p h]
  generalize s.nextEpt p = x at hx
  obtain ⟨t, ht, hleft, hept⟩ : ∃ t, s.apField offGovCal 63 48 x = t ∧ OnlyRegs (· = offGovCal) s t ∧ t.apBits offGovCal 63 48 = x :=
    ⟨_, rfl, s.apField_onlyRegs offGovCal x (by decide) (by decide),
      (s.apBits_apField_same offGovCal x (by decide) (by decide)).trans (Nat.mod_eq_of_lt hx)⟩
  rw [ht]
  exact ⟨_, rfl, hept, by rw [State.modDev_dev, hleft.dev], { hleft with dev := rfl }⟩

/-! ### A core with nothing to do (R370) -/

/-- No warp of a core waits for anything. -/
def State.Unblocked (s : State) (core : Nat) : Prop := ∀ e ∈ s.warps, coreOf e.1 = core → e.2.blocked = []

theorem State.blocked_warpsOfCore {s : State} {core : Nat} (h : s.Unblocked core) {e : Nat × Warp} (he : e ∈ s.warpsOfCore core) :
    coreOf e.1 = core ∧ e.2.blocked = [] := by
  obtain ⟨hmem, hcore⟩ := List.mem_filter.1 he
  have hcore := beq_iff_eq.1 hcore
  exact ⟨hcore, h e hmem hcore⟩

section
variable {s : State} {core : Nat}

theorem State.wakeMasks_of_unblocked (h : s.Unblocked core) : s.wakeMasks core = s :=
  foldl_eq_self fun e he => by simp [(s.blocked_warpsOfCore h he).2]

theorem State.tryWaiters_of_unblocked (h : s.Unblocked core) (p : Wait → Bool) (test : State → Nat → Blocked → State) :
    s.tryWaiters (s.warpsOfCore core) p test = s := by
  unfold State.tryWaiters
  rw [List.flatMap_eq_nil_iff.2 fun e he => by simp [(s.blocked_warpsOfCore h he).2], List.foldl_nil]

theorem State.bankWaits_of_unblocked (h : s.Unblocked core) : s.bankWaits core = [] :=
  List.flatMap_eq_nil_iff.2 fun e he => by simp [(s.blocked_warpsOfCore h he).2]

theorem State.wakeCore_of_unblocked (h : s.Unblocked core) : s.wakeCore core = s := by
  unfold State.wakeCore
  simp only [State.wakeMasks_of_unblocked h, State.tryWaiters_of_unblocked h]
  rw [List.flatMap_eq_nil_iff.2 fun e he => by simp [(s.blocked_warpsOfCore h he).2], List.foldl_nil, State.bankWaits_of_unblocked h]
  rfl

theorem State.matDemand_of_nil (h : (s.core core).mat = []) : s.matDemand core = s := by
  simp [State.matDemand, Core.free, h, freeOps]

theorem State.copyDemand_of_nil (h : (s.core core).copying = []) : s.copyDemand core = s := by
  simp [State.copyDemand, h]

theorem State.askBack_nil (s : State) : s.askBack [] = s := by
  simp [State.askBack, State.modMem]

theorem State.collDemand_of_nil (ho : (s.die (dieOfCore core)).opens = []) (hi : (s.die (dieOfCore core)).insts = []) :
    s.collDemand core = s := by
  have hact : s.coreAct core = none := by simp [State.coreAct, hi]
  have haway : s.collAway core = [] := by simp [State.collAway, hi]
  simp [State.collDemand, State.freeAct, State.collDue, ho, hact, haway, State.askBack_nil]

theorem State.serveQueue_zero (s : State) (core : Nat) : s.serveQueue core 0 = (s, []) := rfl

end

/-- What counting a core's cycle leaves as it was: all but the counts of the core's own warps and the phases of its die. -/
structure Counted (core : Nat) (s t : State) : Prop where
  agenda : t.agenda = s.agenda
  own : t.own = s.own
  mem : t.mem = s.mem
  ap : t.ap = s.ap
  blocks : t.blocks = s.blocks
  cores : t.cores = s.cores
  grids : t.grids = s.grids
  dev : t.dev = s.dev
  dies : ∀ d, d ≠ dieOfCore core → t.die d = s.die d
  opens : (t.die (dieOfCore core)).opens = (s.die (dieOfCore core)).opens
  insts : (t.die (dieOfCore core)).insts = (s.die (dieOfCore core)).insts
  warps : ∀ v, coreOf v ≠ core → t.warp? v = s.warp? v
  unblocked : s.Unblocked core → t.Unblocked core

theorem Counted.core {core : Nat} {s t : State} (h : Counted core s t) (c : Nat) : t.core c = s.core c := by
  rw [State.core, h.cores, State.core]

theorem Counted.refl (core : Nat) (s : State) : Counted core s s :=
  ⟨rfl, rfl, rfl, rfl, rfl, rfl, rfl, rfl, fun _ _ => rfl, rfl, rfl, fun _ _ => rfl, id⟩

theorem Counted.trans {core : Nat} {s t u : State} (h : Counted core s t) (g : Counted core t u) : Counted core s u :=
  ⟨g.agenda.trans h.agenda, g.own.trans h.own, g.mem.trans h.mem, g.ap.trans h.ap, g.blocks.trans h.blocks, g.cores.trans h.cores,
    g.grids.trans h.grids, g.dev.trans h.dev, fun d hd => (g.dies d hd).trans (h.dies d hd), g.opens.trans h.opens,
    g.insts.trans h.insts, fun v hv => (g.warps v hv).trans (h.warps v hv), fun hs => g.unblocked (h.unblocked hs)⟩

theorem Counted.countPhase (s : State) (blk : Nat) (b : Block) (cycle : Nat) : Counted b.core s (s.countPhase blk b cycle) := by
  unfold State.countPhase
  simp only
  split
  · exact .refl b.core s
  · refine ⟨rfl, rfl, rfl, rfl, rfl, rfl, rfl, rfl, fun d hd => ?_, ?_, ?_, fun _ _ => rfl, id⟩
    · rw [State.die_modDie, if_neg hd]
    · rw [State.die_modDie, if_pos rfl]
    · rw [State.die_modDie, if_pos rfl]

theorem Counted.countPhases (s : State) (core was : Nat) : Counted core s (s.countPhases core was) := by
  unfold State.countPhases
  split
  · exact .refl core s
  · refine List.foldlRecOn _ _ (motive := Counted core s) (.refl core s) fun t h e he => h.trans ?_
    have hcore : e.2.core = core := by
      have := (List.mem_filter.1 he).2
      rw [Bool.and_eq_true, beq_iff_eq] at this
      exact this.1
    exact hcore ▸ Counted.countPhase t e.1 e.2 was

theorem Tab.mem_upd {α : Type} {t : Tab α} {k : Nat} {v : α} {e : Nat × α} (h : e ∈ Tab.upd t k v) : e = (k, v) ∨ e ∈ t := by
  induction t with
  | nil => exact .inl (List.mem_singleton.1 h)
  | cons a r ih =>
    rw [Tab.upd] at h
    split at h
    · exact List.mem_cons.1 h
    · split at h
      · exact (List.mem_cons.1 h).imp_right (List.mem_cons_of_mem _)
      · rcases List.mem_cons.1 h with rfl | h
        · exact .inr List.mem_cons_self
        · exact (ih h).imp_right (List.mem_cons_of_mem _)

/-- A warp of the core that is written back with nothing to wait for. -/
theorem Counted.setWarp (s : State) {core wid : Nat} {w : Warp} (hc : coreOf wid = core) (hw : s.Unblocked core → w.blocked = []) :
    Counted core s (s.setWarp wid w) := by
  refine ⟨rfl, rfl, rfl, rfl, rfl, rfl, rfl, rfl, fun _ _ => rfl, rfl, rfl, fun v hv => ?_, fun h e he hcore => ?_⟩
  · rw [State.warp?_setWarp, if_neg fun e => hv ((congrArg coreOf e).trans hc)]
  · rcases Tab.mem_upd he with rfl | he
    · exact hw h
    · exact h e he hcore

/-- The core with its refill in its bucket and no issue made in the cycle (R370). -/
def Core.refilled (c : Core) (cap : Int) : Core :=
  { c with level := if c.grant = 0 then c.level else min (c.level + ((c.grant : Nat) : Int)) cap, grant := 0, issued := [] }

/-- The state after the refill of a core, up to CAP. -/
def State.refilled (s : State) (core : Nat) : State := s.modCore core fun c => c.refilled ((256 * s.ap! (offTokCap core) : Nat) : Int)

theorem State.core_refilled (s : State) (core k : Nat) :
    (s.refilled core).core k = if k = core then (s.core core).refilled ((256 * s.ap! (offTokCap core) : Nat) : Int) else s.core k :=
  s.core_modCore ..

theorem Counted.startCycle {s : State} {core : Nat} (hc : isService core = false) (h : s.Unblocked core) :
    Counted core (s.refilled core) (s.startCycle core) := by
  unfold State.startCycle
  simp only [hc, Bool.false_eq_true, if_false]
  have hphases := Counted.countPhases (s.refilled core) core ((s.die (dieOfCore core)).clk.toNat - 1)
  have hfree : ((s.refilled core).countPhases core ((s.die (dieOfCore core)).clk.toNat - 1)).Unblocked core := hphases.unblocked h
  refine List.foldlRecOn _ _ (motive := Counted core (s.refilled core)) hphases fun t ht e he => ?_
  obtain ⟨hcore, hblocked⟩ := State.blocked_warpsOfCore hfree he
  split
  · exact ht.trans (.setWarp t hcore fun _ => hblocked)
  · exact ht

/-- With nothing to wake, serve or demand, a cycle is its start and the offers that follow it. -/
theorem State.coreCycle_of_idle {s : State} {core : Nat} (hc : isService core = false) (hu : (s.startCycle core).Unblocked core)
    (hqueue : ((s.startCycle core).core core).queue = []) (hmat : ((s.startCycle core).core core).mat = [])
    (hcopy : ((s.startCycle core).core core).copying = []) (ho : ((s.startCycle core).die (dieOfCore core)).opens = [])
    (hi : ((s.startCycle core).die (dieOfCore core)).insts = []) :
    s.coreCycle core = (s.startCycle core).soon ((s.startCycle core).timeouts core ++
      (List.range 4).flatMap fun k => (s.startCycle core).stepsOf core k ++ [.event (.urgentWarp core k)]) := by
  unfold State.coreCycle
  simp only [State.wakeCore_of_unblocked hu, hc, Bool.false_eq_true, if_false, hqueue, List.length_nil, State.serveQueue_zero,
    State.matDemand_of_nil hmat, State.copyDemand_of_nil hcopy, State.collDemand_of_nil ho hi, List.append_nil]

/-- The cycle of a core with nothing to do, as its refill, the counts and what joins the agenda. -/
theorem State.coreCycle_idle_left {s : State} {core : Nat} (hc : isService core = false) (hqueue : (s.core core).queue = [])
    (hmat : (s.core core).mat = []) (hcopy : (s.core core).copying = []) (ho : (s.die (dieOfCore core)).opens = [])
    (hi : (s.die (dieOfCore core)).insts = []) (hu : s.Unblocked core) :
    ∃ t l, s.coreCycle core = t.soon l ∧ Counted core (s.refilled core) t ∧ ∀ k < 4, Pending.event (.urgentWarp core k) ∈ l := by
  have h := Counted.startCycle hc hu
  have hcore : (s.startCycle core).core core = (s.core core).refilled ((256 * s.ap! (offTokCap core) : Nat) : Int) := by
    rw [h.core, State.core_refilled, if_pos rfl]
  refine ⟨_, _, State.coreCycle_of_idle hc (h.unblocked hu) (by rw [hcore]; exact hqueue) (by rw [hcore]; exact hmat)
    (by rw [hcore]; exact hcopy) (h.opens.trans ho) (h.insts.trans hi), h, fun k hk => ?_⟩
  exact List.mem_append_right _ (List.mem_flatMap.2 ⟨k, List.mem_range.2 hk, List.mem_append_right _ (List.mem_singleton.2 rfl)⟩)

/-- Settles O43: the five clocks, each from what its parts leave as it was. -/
theorem clockRowsComplete : Obligations.ClockRowsComplete := by
  unfold Obligations.ClockRowsComplete
  refine ⟨fun s core hc hqueue hmat hcopy ho hi hblocked => ?_, fun s die => ?_, fun s hoff => ?_, fun s hon => ?_, fun s p hon hdrawn => ?_⟩
  · obtain ⟨t, l, hcycle, h, hl⟩ := State.coreCycle_idle_left hc hqueue hmat hcopy ho hi hblocked
    refine ⟨_, l, congrArg Host.Outcome.next hcycle, (State.soon_agenda ..).trans (congrArg _ h.agenda), hl, ?_, fun c hne => ?_,
      h.mem, h.ap, h.blocks, h.grids, h.dev, h.own, h.dies, h.warps⟩
    · refine (h.core core).trans ?_
      rw [State.core_refilled, if_pos rfl]
      rfl
    · refine (h.core c).trans ?_
      rw [State.core_refilled, if_neg hne]
  · obtain ⟨hstep, hlevel⟩ := s.dieCycle_left die
    obtain ⟨hclk, hlow, howed, htaken, hothers⟩ := s.die_dieTaken die
    refine ⟨_, rfl, hstep.clk.trans hclk, hlevel ▸ min_le_right _ _, fun h => ?_, hstep.bytes, hstep.ver, hstep.warps, hstep.blocks,
      hstep.grids, hstep.dev, fun h => ?_⟩
    · rw [hlevel, State.dieRefilled_of_low (hlow.trans h), htaken]
      rfl
    · obtain ⟨-, hpaid, hmem, hdies⟩ := hstep.quiet h
      exact ⟨hpaid.trans howed, hmem, fun d hd => (hdies d hd).trans (hothers d hd)⟩
  · exact ⟨_, congrArg Host.Outcome.next (State.tickMicro_off hoff), rfl, rfl, rfl, rfl, rfl, rfl, rfl⟩
  · obtain ⟨tg, hpr, hmicros, hmem, hwarps, hblocks⟩ := s.microPassed.govern_left
    obtain ⟨hlo, hhi, hdown⟩ := nextPr_bounds s.dev.pr tg (256 * s.apBits (bGov + 8) 15 0) (256 * s.static)
    have hpr : s.microPassed.govern.dev.pr = nextPr s.dev.pr tg (256 * s.apBits (bGov + 8) 15 0) (256 * s.static) := hpr
    exact ⟨_, congrArg Host.Outcome.next (State.tickMicro_on hon), hmicros, hpr ▸ hlo, hpr ▸ hhi, hpr ▸ hdown, hmem, hwarps, hblocks⟩
  · obtain ⟨t, ht, hept, hdev, hleft⟩ := State.calibrate_left p hon
    rw [State.nextEpt_of_drawn p hdrawn] at hept
    exact ⟨t, congrArg Host.Outcome.next ht, hept, hdev, hleft.regs, hleft.mem, hleft.warps, hleft.cores, hleft.dies⟩

end Sys2Proof.Machine
end

section
/-!
PROOFS. Traps that an instruction takes by its own effect (spec/02 R106, R107), and the words that encode nothing (R62, R399).
Settles O26.
-/

namespace Sys2Proof.Machine

open Sys2Proof.Machine.Shape

/-! ### A state that has taken a trap (R399, R403) -/

/-- A suspended warp of a state that keeps what a trap keeps, its handler's start next: the trap is taken. -/
theorem Trapped.of_suspended {s S : State} {v : Warp} {p : Susp} {f : Warp → Warp} (g : Core → Core) (hw : S.warp? s.cur = some v)
    (hf : (f v).susp = some p) (hp : p.record = 0 ∧ p.started = false) (ha : S.agenda = s.agenda) (hb : SameBytes s S)
    (he : SameElsewhere s S) :
    Trapped s (((S.modWarp s.cur f).modCore (coreOf s.cur) g).soon [.event (.trapHandlerStart s.cur)]) (f v) p where
  warp := (State.warp?_modWarp_self S s.cur f).trans (by rw [hw]; rfl)
  susp := hf
  fresh := hp
  next := congrArg (Pending.event (.trapHandlerStart s.cur) :: ·) ha
  bytes := hb
  else_ := { he with warps := fun k hk => (State.warp?_modWarp S s.cur k f).trans ((if_neg hk).trans (he.warps k hk)) }

/-- A change of the trapped warp that leaves its suspension. -/
theorem Trapped.modWarp {s T : State} {v : Warp} {p : Susp} (h : Trapped s T v p) (f : Warp → Warp) (hf : (f v).susp = v.susp) :
    Trapped s (T.modWarp s.cur f) (f v) p where
  warp := by rw [State.warp?_modWarp_self, h.warp]; rfl
  susp := hf.trans h.susp
  fresh := h.fresh
  next := h.next
  bytes := h.bytes
  else_ := { h.else_ with warps := fun k hk => (State.warp?_modWarp T s.cur k f).trans ((if_neg hk).trans (h.else_.warps k hk)) }

/-- The end of the instruction finds nothing to do for a trapped warp, which has no turn. -/
theorem Trapped.finish {s T : State} {v : Warp} {p : Susp} (h : Trapped s T v p) (ht : v.turn = none) (f : Form) (c : Ctx) (w : Warp)
    (hc : c.wid = s.cur) : Trapped s (T.finish f c w) v p := by
  have hsame : v.finished f c w = v := by
    unfold Warp.finished
    simp only [h.susp, Option.isSome_some, Bool.or_true, if_true]
    split
    · next hturn => rw [ht] at hturn; nomatch hturn
    · rfl
  have hend := h.modWarp (fun u => u.finished f c w) (congrArg Warp.susp hsame)
  rw [hsame] at hend
  unfold State.finish
  rw [hc]
  exact hend

/-! ### trap and brk (R106, R107) -/

section
variable {s S : State}

theorem State.ap!_of_ap (h : S.ap = s.ap) (off : Nat) : S.ap! off = s.ap! off := by unfold State.ap!; rw [h]

/-- A debugger takes a trap by its class alone. -/
theorem State.toDebugger_of_ap (h : S.ap = s.ap) (ctx : Nat) (cls : TrapClass) (info : Word) :
    S.toDebugger ctx { cls := cls, info := info } = s.toDebugger ctx { cls := cls } := by
  unfold State.toDebugger State.apBits
  rw [State.ap!_of_ap h]

theorem State.isHandler_of_blocks (h : S.blocks = s.blocks) {v w : Warp} (hb : v.blk = w.blk) : S.isHandler v = s.isHandler w := by
  unfold State.isHandler State.block?
  rw [h, hb]

end

/-- A trap taken by an instruction behind its commit, as the record will hold it (R399, R400). -/
def Susp.behind (c : Ctx) (t : Trap) (debugger : Bool) : Susp :=
  { trap := t, lanes := c.en, mode := 1, pc := c.here, rpc := c.next, record := 0, started := false, debugger := debugger }

/-- Where a debugger or a handler takes it, a trap behind its instruction suspends the warp, and the lanes not enabled go on. -/
theorem State.trapBehind_trapped {s S : State} {c : Ctx} {v : Warp} {t : Trap} {p : Susp} (hcur : c.wid = s.cur)
    (hw : S.warp? s.cur = some v) (hc : isService (coreOf s.cur) = false)
    (ht : S.toDebugger v.ctx t = true ∨ (S.ap! (offFltHnd v.ctx) % 2 = 1 ∧ S.isHandler v = false))
    (hp : p = .behind c t (S.toDebugger v.ctx t)) (ha : S.agenda = s.agenda) (hb : SameBytes s S) (he : SameElsewhere s S) :
    Trapped s (S.trapBehind c t) ((v.suspended p).advance (c.iss &&& ~~~c.en) c.len) p := by
  have htaken : (S.toDebugger v.ctx t || (decide (S.ap! (offFltHnd v.ctx) % 2 = 1) && !S.isHandler v)) = true := by
    simpa only [Bool.or_eq_true, Bool.and_eq_true, decide_eq_true_eq, Bool.not_eq_true'] using ht
  have hsusp := Trapped.of_suspended (f := fun u => u.suspended p) (fun k => (k.unclaim v).dropDemands s.cur) hw rfl
    (hp ▸ ⟨rfl, rfl⟩) ha hb he
  unfold State.trapBehind State.takeTrap State.passOthers
  simp only [hcur, hw, hc, Bool.false_eq_true, if_false, htaken, if_true]
  subst hp
  exact hsusp.modWarp (fun u => u.advance (c.iss &&& ~~~c.en) c.len) rfl

theorem traps_exec {i : Instr} {f : Form} {cls : TrapClass} {info : Nat} (h : traps i = some (f, cls, info)) (s : State) :
    exec i s = .next (s.execTrapForm f cls info) := by
  unfold traps at h
  split at h
  case h_4 => nomatch h
  all_goals (cases h; rfl)

section
variable {s : State} {f : Form} {w : Warp}

/-- The warp of a trapping instruction behind its commit: suspended, the lanes not enabled behind the instruction. -/
def Warp.trappedBehind (w : Warp) (c : Ctx) (p : Susp) : Warp := ((w.committed c).suspended p).advance (c.iss &&& ~~~c.en) c.len

@[simp] theorem Warp.trappedBehind_rsb (w : Warp) (c : Ctx) (p : Susp) : (w.trappedBehind c p).rsb = [] := rfl
@[simp] theorem Warp.trappedBehind_rcount (w : Warp) (c : Ctx) (p : Susp) : (w.trappedBehind c p).rcount = 0 := rfl
theorem SameRegs.trappedBehind (w : Warp) (c : Ctx) (p : Susp) : SameRegs w (w.trappedBehind c p) := ⟨rfl, rfl, rfl⟩

theorem Warp.pc_trappedBehind (w : Warp) (c : Ctx) (p : Susp) {l : Nat} (hi : laneIn c.iss l = true) (he : laneIn c.en l = false) :
    (w.trappedBehind c p).pc l = w.pc l + BitVec.ofNat 64 c.len := by
  have hl := laneIn_lt hi
  unfold Warp.trappedBehind
  rw [Warp.pc_advance _ _ _ hl, laneIn_and, laneIn_not hl, hi, he]
  rfl

/-- AN INSTRUCTION THAT COMMITS AND TRAPS BEHIND ITSELF. -/
theorem State.execTrapForm_trapped {cls : TrapClass} {info : Nat} {p : Susp} (hr : Ready f 0 s w) (hq : CommitsEmpty s w)
    (he : (issueCtx f s w).en ≠ 0) (hc : isService (coreOf s.cur) = false)
    (ht : s.toDebugger w.ctx { cls := cls } = true ∨ (s.ap! (offFltHnd w.ctx) % 2 = 1 ∧ s.isHandler w = false))
    (hp : p = .behind (issueCtx f s w) { cls := cls, info := BitVec.ofNat 32 info } (s.toDebugger w.ctx { cls := cls })) :
    Trapped s (s.execTrapForm f cls info) ((w.atIssue f s).trappedBehind (issueCtx f s w) p) p := by
  generalize hS : ((s.begun f 0 w).modWarp s.cur fun v => v.committed (issueCtx f s w)) = S
  have ho : OnlyWarp (issueCost f 0 s w) s S w := hS ▸ State.begun_only _
  have hw : S.warp? s.cur = some ((w.atIssue f s).committed (issueCtx f s w)) := by
    rw [← hS, State.warp?_modWarp_self, State.begun_warp hr.cur]; rfl
  have hdbg : S.toDebugger w.ctx { cls := cls, info := BitVec.ofNat 32 info } = s.toDebugger w.ctx { cls := cls } :=
    State.toDebugger_of_ap ho.ap ..
  have htrapped := State.trapBehind_trapped (s := s) (c := issueCtx f s w) (p := p) rfl hw hc
    (by rwa [Warp.committed_ctx, Warp.atIssue_ctx, hdbg, State.ap!_of_ap ho.ap, State.isHandler_of_blocks ho.blocks rfl])
    (by rwa [Warp.committed_ctx, Warp.atIssue_ctx, hdbg]) ho.agenda (fun a => congrArg (Mem.byte · a) ho.mem)
    ⟨ho.ap, ho.blocks, ho.grids, ho.dev, ho.warps⟩
  unfold State.execTrapForm State.issueSimple
  rw [State.issue_ready _ _ _ hr rfl rfl, if_neg he, State.commitPoint_ready _ _ hr hq rfl, hS]
  exact htrapped.finish rfl f (issueCtx f s w) w rfl

end

/-! ### Words that encode nothing (R62) -/

section
variable {s : State} {w : Warp}

/-- An illegal word discards the issuing group with its trap. -/
theorem exec_illegalEncoding (hw : s.warp? s.cur = some w) (hg : w.group ≠ 0) :
    exec .illegalEncoding s = .next (s.discardTrap s.cur { cls := .illegal } w.group (w.leastPc w.group)) := by
  have hraise : exec .illegalEncoding s = .next (s.raise { wid := s.cur, here := w.leastPc w.group, len := 4, iss := w.group, en := w.group }
      { cls := .illegal }) := by
    change done _ = _
    simp only [done, State.withWarp, hw, hg, if_false]
  rw [hraise, State.raise_eq _ _ rfl (by decide), State.walkedFor_none _ _ (by decide) (by decide)]

/-- THE TRAP OF AN ILLEGAL WORD, which its discard does not count. -/
theorem illegalEncoding_trapped (hw : s.warp? s.cur = some w) (hg : w.group ≠ 0) (hc : isService (coreOf s.cur) = false)
    (hh : s.ap! (offFltHnd w.ctx) % 2 = 1) (hn : s.isHandler w = false) :
    ∃ t dbg, exec .illegalEncoding s = .next t ∧ t.mem.ver = s.mem.ver ∧ t.dies = s.dies ∧
      Trapped s t ((w.discard w.group).suspended (.atRev { cls := .illegal } w.group (w.leastPc w.group) dbg))
        (.atRev { cls := .illegal } w.group (w.leastPc w.group) dbg) := by
  obtain ⟨dbg, g, mk, -, hT⟩ := State.discardTrap_eq hw { cls := .illegal } w.group (w.leastPc w.group) hc hh hn
  refine ⟨_, dbg, exec_illegalEncoding hw hg, by rw [hT]; rfl, by rw [hT]; rfl, ?_⟩
  rw [hT]
  exact Trapped.of_suspended (S := s.modMem fun m => { m with marks := mk }) g hw rfl ⟨rfl, rfl⟩ rfl (fun _ => rfl)
    ⟨rfl, rfl, rfl, rfl, fun _ _ => rfl⟩

end

/-- Settles O26: `trap` and `brk` by their clean commit and the trap behind it, an illegal word by its discard. -/
theorem trapInstructionsTrap : Obligations.TrapInstructionsTrap := by
  refine ⟨fun i f cls info s w hi hq hr he hc ht => ?_, fun s w hw hg hc hh hn => ?_⟩
  · exact ⟨_, _, _, traps_exec hi s, State.execTrapForm_trapped hr hq he hc ht rfl, rfl, rfl, rfl, rfl, rfl, rfl,
      (SameRegs.atIssue w f s).trans (.trappedBehind ..), Warp.trappedBehind_rsb .., Warp.trappedBehind_rcount ..,
      fun l hl hnot => Warp.pc_trappedBehind _ _ _ hl hnot⟩
  · obtain ⟨t, dbg, hexec, hver, hdies, htrapped⟩ := illegalEncoding_trapped hw hg hc hh hn
    refine ⟨t, _, _, hexec, htrapped, rfl, rfl, rfl, rfl, ⟨rfl, rfl, rfl⟩, rfl, fun l hl => ?_, hver, hdies⟩
    exact (Warp.pc_setPc w w.group w.revOf (laneIn_lt hl)).trans (if_pos hl)

end Sys2Proof.Machine
end

section
/-!
PROOFS. `qnt` with outliers (spec/03 R85, R86; spec/05 R152 to R155): numbers at their homes, what writes there leave, an instruction that
comes back to its effect, the registers that `qnt` writes, its translation step and its appends. Settles O33.
-/

namespace Sys2Proof.Machine

open Sys2Proof.Machine.Shape

/-! ### Numbers at their homes -/

theorem leNat_lt : ∀ bs : List Byte, leNat bs < 256 ^ bs.length
  | [] => Nat.one_pos
  | b :: bs => by
    have hb := b.isLt
    have hbs := leNat_lt bs
    rw [leNat, List.length_cons, Nat.pow_succ]
    omega

/-- The bytes of a number, read back. -/
theorem leNat_digits (n v : Nat) : leNat ((List.range n).map fun i => BitVec.ofNat 8 (v / 256 ^ i)) = v % 256 ^ n := by
  induction n generalizing v with
  | zero => exact (Nat.mod_one v).symm
  | succ n ih =>
    have hdigit : ∀ i, v / 256 ^ (i + 1) = v / 256 / 256 ^ i := fun i => by rw [Nat.div_div_eq_div_mul, Nat.pow_succ']
    rw [List.range_succ_eq_map, List.map_cons, List.map_map, leNat, Nat.pow_succ', Nat.mod_mul]
    simp only [Function.comp_def, Nat.succ_eq_add_one, hdigit, ih, Nat.pow_zero, Nat.div_one, BitVec.toNat_ofNat]

theorem nibMerge_both (old new : Byte) : nibMerge old new 3 = new := by
  have hall : nibMask 3 = BitVec.allOnes 8 := by decide
  rw [nibMerge, hall, BitVec.not_allOnes, BitVec.and_zero, BitVec.and_allOnes, BitVec.zero_or]

section
variable (s : State) (o : Option Nat) (blk : Nat)

/-- A byte of a write at home, the keys written being distinct. -/
theorem State.byte_pokes_at {bs : List (Nat × Byte)} (hn : (bs.map (·.1)).Nodup) {b : Nat × Byte} (hb : b ∈ bs) :
    (bs.foldl (fun s b => s.poke o b.1 b.2 3) s).mem.byte b.1 = b.2 := by
  induction bs generalizing s with
  | nil => nomatch hb
  | cons e r ih =>
    obtain ⟨he, hr⟩ := List.nodup_cons.mp hn
    rcases List.mem_cons.mp hb with rfl | hb
    · rw [List.foldl_cons, State.byte_pokes r _ o b.1 fun x hx hxb => he (List.mem_map.mpr ⟨x, hx, hxb⟩), State.byte_poke, if_pos rfl,
        nibMerge_both]
    · exact ih _ hr hb

theorem State.byte_writeNum (key n v : Nat) {i : Nat} (hi : i < n) :
    (s.writeNum o key n v).mem.byte (key + i) = BitVec.ofNat 8 (v / 256 ^ i) := by
  have hn : ((bytesAt key n v).map (·.1)).Nodup := by
    rw [bytesAt, List.map_map]
    exact List.nodup_range.map fun _ _ h => Nat.add_left_cancel h
  have hb : (key + i, BitVec.ofNat 8 (v / 256 ^ i)) ∈ bytesAt key n v := List.mem_map.mpr ⟨i, List.mem_range.mpr hi, rfl⟩
  unfold State.writeNum State.writeHome
  rw [State.modMem_mem, Mem.byte_of_bytes (Mem.foldl_sealLine_bytes _ _ _)]
  exact State.byte_pokes_at _ _ hn hb

theorem State.byte_writeNum_outside (key n v : Nat) {a : Nat} (h : a < key ∨ key + n ≤ a) :
    (s.writeNum o key n v).mem.byte a = s.mem.byte a := by
  refine State.byte_writeHome _ _ _ _ _ fun b hb => ?_
  obtain ⟨i, hi, rfl⟩ := List.mem_map.mp hb
  have := List.mem_range.mp hi
  change key + i ≠ a
  omega

variable {s} {t : State} {key : Nat} (hk : isAp key = false)

theorem State.homeRead_lt (sp : Spc) (n : Nat) : s.homeRead blk sp key n < 256 ^ n := by
  refine (leNat_lt _).trans_eq ?_
  rw [List.length_map, List.length_range]

include hk

/-- A number outside the aperture is that of its bytes. -/
theorem State.homeRead_bytes (n : Nat) : s.homeRead blk .g key n = leNat ((List.range n).map fun i => s.mem.byte (key + i)) := by
  simp only [State.homeRead, hk, Bool.false_eq_true, if_false]

theorem State.homeRead_of_bytes {n : Nat} (h : ∀ i < n, t.mem.byte (key + i) = s.mem.byte (key + i)) :
    t.homeRead blk .g key n = s.homeRead blk .g key n := by
  rw [State.homeRead_bytes blk hk, State.homeRead_bytes blk hk, List.map_congr_left fun i hi => h i (List.mem_range.mp hi)]

theorem State.homeRead_writeNum (n v : Nat) : (s.writeNum o key n v).homeRead blk .g key n = v % 256 ^ n := by
  rw [State.homeRead_bytes blk hk, ← leNat_digits, List.map_congr_left fun i hi => State.byte_writeNum s o key n v (List.mem_range.mp hi)]

end

/-! ### What accesses of lines at their homes leave -/

/-- What no access of a line at its home changes: warps, aperture registers, blocks, grids and the device, and, where no word of memory has
an error, that none has. -/
def State.beyondHomes (s : State) : Tab Warp × Tab DWord × Tab Block × Tab Grid × Device × Tab Nat :=
  (s.warps, s.ap, s.blocks, s.grids, s.dev, s.mem.upset)

theorem State.modCore_beyondHomes (s : State) (k : Nat) (g : Core → Core) : (s.modCore k g).beyondHomes = s.beyondHomes := rfl

theorem State.own4_beyondHomes (s : State) (c : Option Nat) (k : Nat) : (s.own4 c k).beyondHomes = s.beyondHomes := by
  have howner : ∀ v, (s.modMem fun m => { m with wordOwner := Tab.put 0 m.wordOwner (k / 4) v }).beyondHomes = s.beyondHomes := fun _ => rfl
  unfold State.own4
  cases c <;> simp only [State.modCore_beyondHomes, apply_ite State.beyondHomes, howner, ite_self]

theorem State.poke_beyondHomes (s : State) (c : Option Nat) (k : Nat) (v : Byte) (nib : Nat) :
    (s.poke c k v nib).beyondHomes = s.beyondHomes := by
  have hbyte : ∀ (b : Byte) (f : Mem → Tab (List Byte × Nat)), (s.modMem fun m => { m.setByte k b with l2 := f m }).beyondHomes
      = s.beyondHomes := fun _ _ => rfl
  unfold State.poke
  cases c <;> simp only [State.modCore_beyondHomes, State.own4_beyondHomes, apply_ite State.beyondHomes, hbyte, ite_self]

theorem Mem.sealLine_upset (m : Mem) (o : Option Nat) (l : Nat) : (m.sealLine o l).upset = m.upset := by
  have hbump : (m.bump l).upset = m.upset := by
    unfold Mem.bump
    split <;> rfl
  refine Eq.trans ?_ hbump
  unfold Mem.sealLine Mem.tag
  cases o with
  | none => rfl
  | some c => exact (apply_ite Mem.upset ..).trans (ite_self _)

theorem State.writeNum_beyondHomes {s : State} (h : s.mem.upset = []) (o : Option Nat) (key n v : Nat) :
    (s.writeNum o key n v).beyondHomes = s.beyondHomes := by
  have hover : s.overwritten ((bytesAt key n v).map (·.1)) = s := if_pos (by rw [h]; rfl)
  have hpokes : ∀ bs : List (Nat × Byte), (bs.foldl (fun s b => s.poke none b.1 b.2 3) s).beyondHomes = s.beyondHomes := fun bs =>
    State.foldl_keeps (P := fun t => t.beyondHomes = s.beyondHomes) _ (fun t b ht => (State.poke_beyondHomes ..).trans ht) bs rfl
  have hseal : ∀ (ls : List Nat) (m : Mem), (ls.foldl (fun m l => m.sealLine o l) m).upset = m.upset := fun ls m =>
    List.foldlRecOn (motive := fun m' : Mem => m'.upset = m.upset) ls _ rfl fun m' hm l _ => (Mem.sealLine_upset m' o l).trans hm
  unfold State.writeNum State.writeHome
  rw [hover]
  refine Eq.trans ?_ (hpokes (bytesAt key n v))
  simp only [State.beyondHomes, State.modMem_mem, hseal]
  rfl

theorem FetchLeft.beyondHomes {k : Nat} {s t : State} (h : FetchLeft k s t) : t.beyondHomes = s.beyondHomes := by
  have hup : t.mem.upset = s.mem.upset := by rw [h.mem]
  simp only [State.beyondHomes, h.warps, h.ap, h.blocks, h.grids, h.dev, hup]

theorem FetchLeft.byte {k : Nat} {s t : State} (h : FetchLeft k s t) (a : Nat) : t.mem.byte a = s.mem.byte a :=
  Mem.byte_of_bytes (by rw [h.mem]) a

theorem SameElsewhere.beyondHomes {s T T' : State} (h : SameElsewhere s T) (e : T'.beyondHomes = T.beyondHomes) : SameElsewhere s T' := by
  simp only [State.beyondHomes, Prod.mk.injEq] at e
  obtain ⟨hwarps, hap, hblocks, hgrids, hdev, -⟩ := e
  exact ⟨hap.trans h.ap, hblocks.trans h.blocks, hgrids.trans h.grids, hdev.trans h.dev, fun k hk =>
    (congrArg (Tab.look · k) hwarps).trans (h.warps k hk)⟩

theorem SameElsewhere.modWarp {s T : State} (h : SameElsewhere s T) (g : Warp → Warp) : SameElsewhere s (T.modWarp s.cur g) :=
  { h with warps := fun k hk => (State.warp?_modWarp T s.cur k g).trans ((if_neg hk).trans (h.warps k hk)) }

/-- Where no word has an error and no detector is armed, none has one and none is armed behind an access at home. -/
theorem Sound.beyondHomes {s t : State} (h : Sound s) (e : t.beyondHomes = s.beyondHomes) : Sound t := by
  simp only [State.beyondHomes, Prod.mk.injEq] at e
  obtain ⟨-, hap, -, -, -, hupset⟩ := e
  exact ⟨by rw [← h.disarmed]; simp only [State.ap!, hap], hupset.trans h.noError⟩

/-- A state in which nothing has moved yet but the current warp and the tokens of cores. -/
structure Stood (s T : State) : Prop extends SameElsewhere s T where
  mem : T.mem = s.mem
  dies : T.dies = s.dies

theorem Stood.refl (s : State) : Stood s s := ⟨⟨rfl, rfl, rfl, rfl, fun _ _ => rfl⟩, rfl, rfl⟩
theorem Stood.modWarp {s T : State} (h : Stood s T) (g : Warp → Warp) : Stood s (T.modWarp s.cur g) :=
  ⟨h.toSameElsewhere.modWarp g, h.mem, h.dies⟩
theorem Stood.modCore {s T : State} (h : Stood s T) (k : Nat) (g : Core → Core) : Stood s (T.modCore k g) :=
  ⟨⟨h.ap, h.blocks, h.grids, h.dev, h.warps⟩, h.mem, h.dies⟩
theorem Stood.begun {s : State} {f : Form} {n : Nat} {w : Warp} : Stood s (s.begun f n w) := by
  have ho := State.begun_only (s := s) (f := f) (n := n) (w := w) id
  exact ⟨⟨ho.ap, ho.blocks, ho.grids, ho.dev, fun k hk => State.begun_other hk⟩, ho.mem, ho.dies⟩

/-- A number read at its home, in a state with the same memory, registers, blocks, dies and device. -/
theorem State.homeRead_of_same {s T : State} (hmem : T.mem = s.mem) (hap : T.ap = s.ap) (hblocks : T.blocks = s.blocks)
    (hdies : T.dies = s.dies) (hdev : T.dev = s.dev) (blk : Nat) (sp : Spc) (key n : Nat) :
    T.homeRead blk sp key n = s.homeRead blk sp key n := by
  have hbyte : ∀ off, T.apByte off = s.apByte off := by
    intro off
    unfold State.apByte State.regVal State.apBits State.ap! State.die
    rw [hap, hdies, hdev]
  unfold State.homeRead State.spadByte State.block?
  simp only [hbyte, hmem, hblocks]

theorem Stood.homeRead {s T : State} (h : Stood s T) (blk : Nat) (sp : Spc) (key n : Nat) :
    T.homeRead blk sp key n = s.homeRead blk sp key n :=
  State.homeRead_of_same h.mem h.ap h.blocks h.dies h.dev blk sp key n

theorem Stood.leasedOut {s T : State} (h : Stood s T) (l : Nat) : T.leasedOut l = s.leasedOut l := by
  unfold State.leasedOut
  rw [h.mem]

/-! ### An instruction that comes back to its effect (R445) -/

/-- A warp that has issued its instruction has its effect without a second charge. -/
theorem State.issue_again {s : State} {f : Form} {w : Warp} (legal : Ctx → State → Bool) (steps : Ctx → State → Nat)
    (body : Ctx → State → State) (h : Passes f s w) (hl : legal (issueCtx f s w) s = true) (ha : w.again = true)
    (he : (issueCtx f s w).en ≠ 0) :
    s.issue f legal steps body = (body (issueCtx f s w) (s.modWarp s.cur id)).finish f (issueCtx f s w) w := by
  have hstage : w.stage.isSome = true := by
    unfold Warp.again at ha
    split at ha
    · next hst => rw [hst]; rfl
    · nomatch ha
  have hctx : ({ wid := s.cur, here := w.leastPc w.group, len := f.len, iss := w.group, en := w.group &&& w.guard f.g } : Ctx)
      = issueCtx f s w := rfl
  have hload : ∀ (t : State) (v a : Nat), t.loadRegs v a w f.lines [] = .ok t := fun _ _ _ => rfl
  have hissued : ∀ (g : Form) (m : Word) (n : Nat), s.modWarp s.cur (fun v => v.issued g m n) = s.modWarp s.cur id := fun g m n =>
    State.modWarp_congr h.cur (if_pos ha)
  have hen : w.group &&& w.guard f.g ≠ 0 := he
  unfold State.issue
  simp only [h.cur, hctx, h.lanes, if_false, h.level, h.names, h.served, hl, Bool.not_true, Bool.or_self, Bool.false_eq_true, hstage,
    if_true, h.held, ite_self, hload, ha, Bool.true_or, hen, hissued]

/-- A warp whose step demand is paid, or asked for by no bucket. -/
def Warp.unstaged (w : Warp) : Warp := { w with stage := none }

section
variable {S : State} {c : Ctx} {v : Warp} {price : Nat} (go : State → State) (hw : S.warp? c.wid = some v)
include hw

theorem State.payStep_service (hs : isService c.core = true) : S.payStep c price go = go (S.modWarp c.wid Warp.unstaged) := by
  simp only [State.payStep, hw, hs, Bool.true_or, if_true]
  rfl

theorem State.payStep_compute (hs : isService c.core = false) (hp : price ≠ 0) : S.payStep c price go
    = S.demandStep c v price { kind := 2, lanes := c.iss, step := 4 } fun T => go (T.modWarp c.wid Warp.unstaged) := by
  simp only [State.payStep, hw, hs, hp, decide_false, Bool.or_self, Bool.false_eq_true, if_false]
  rfl

/-- A demand that no bucket asks for, that was paid, or that the bucket pays now lets the effect go on. -/
theorem State.payStep_goes {s : State} (hS : Stood s S) (hc : c.wid = s.cur) (hp : price ≠ 0)
    (hpays : isService c.core = false → ∃ st, v.stage = some st ∧ (st.kind = 3 ∨ (st.kind = 2 ∧ S.canPay c.core price = true))) :
    ∃ T, S.payStep c price go = go T ∧ Stood s T ∧ T.warp? s.cur = some v.unstaged := by
  have hcleared : ∀ T : State, T.warp? c.wid = S.warp? c.wid → Stood s T →
      Stood s (T.modWarp c.wid Warp.unstaged) ∧ (T.modWarp c.wid Warp.unstaged).warp? s.cur = some v.unstaged := by
    intro T hT hstood
    rw [← hc, State.warp?_modWarp_self, hT, hw]
    exact ⟨hc ▸ hstood.modWarp _, rfl⟩
  cases hs : isService c.core with
  | true => exact ⟨_, State.payStep_service go hw hs, hcleared S rfl hS⟩
  | false =>
    rw [State.payStep_compute go hw hs hp]
    obtain ⟨st, hst, h3 | ⟨h2, hcan⟩⟩ := hpays hs
    · exact ⟨_, by simp only [State.demandStep, hst, h3, if_true], hcleared S rfl hS⟩
    · refine ⟨_, ?_, hcleared (S.modCore c.core fun k => k.pay (S.partOf v.ctx) price) rfl (hS.modCore ..)⟩
      simp only [State.demandStep, hst, h2, Nat.reduceEqDiff, if_false, if_true, State.demandNow, hcan]

end

/-! ### The registers that `qnt` writes (R154 step 3) -/

/-- What every write of one register keeps, a write of a run keeps. -/
theorem Warp.setRun_keeps {P : Warp → Prop} (h : ∀ v n en f, P v → P (v.setX n en f)) {w : Warp} (hw : P w) (first n : Nat) (en : Word)
    (vals : Nat → List Word) : P (w.setRun first n en vals) :=
  List.foldlRecOn (motive := P) _ _ hw fun v hv _ _ => h v _ _ _ hv

theorem Warp.xr_setRun (w : Warp) (first n : Nat) (en : Word) (vals : Nat → List Word) (r : Nat) {l : Nat} (hl : l < 32) :
    (w.setRun first n en vals).xr r l = if laneIn en l then (runVal first n (vals l) r).getD (w.xr r l) else w.xr r l := by
  unfold Warp.setRun runVal
  induction n with
  | zero =>
    have hnone : ¬ (first ≤ r ∧ r < first + 0) := by omega
    rw [if_neg hnone, Option.getD_none, ite_self]
    rfl
  | succ n ih =>
    rw [List.range_succ, List.foldl_append, List.foldl_cons, List.foldl_nil, Warp.xr_setX _ _ _ _ _ hl, ih]
    by_cases hr : r = first + n
    · subst hr
      cases laneIn en l <;> simp
    · have hrun : (first ≤ r ∧ r < first + (n + 1)) ↔ (first ≤ r ∧ r < first + n) := by omega
      simp only [hr, false_and, if_false, hrun]

section
variable (sl : Slot) (e : Cvs)

theorem Warp.xr_qntWrite (w v : Warp) (en : Word) (r : Nat) {l : Nat} (hl : l < 32) :
    (w.qntWrite sl e en (qntLane sl e v)).xr r l = if laneIn en l then (qntVal sl e v l r).getD (w.xr r l) else w.xr r l := by
  unfold Warp.qntWrite qntVal
  cases hs : scaled sl with
  | false => simpa only [Bool.false_eq_true, if_false, Bool.false_and] using Warp.xr_setRun _ _ _ _ _ _ hl
  | true =>
    simp only [if_true, Bool.true_and, beq_iff_eq]
    rw [Warp.xr_setX _ _ _ _ _ hl, Warp.xr_setRun _ _ _ _ _ _ hl]
    by_cases hr : r = e.c
    · cases laneIn en l <;> simp [hr]
    · simp only [hr, false_and, if_false]

theorem Warp.qntWrite_keeps {P : Warp → Prop} (h : ∀ v n en f, P v → P (v.setX n en f)) {w : Warp} (hw : P w) (en : Word)
    (q : Nat → Quantized) : P (w.qntWrite sl e en q) := by
  have hrun := Warp.setRun_keeps h hw e.d (narrowRegs sl sl.block) en
    fun l => packRun (elemBits sl.elem) sl.block fun i => (q l).code.getD i 0
  unfold Warp.qntWrite
  dsimp only
  split
  · exact h _ _ _ _ hrun
  · exact hrun

variable {w v : Warp} (h : SameRegs w v)
include h

theorem SameRegs.qntLane : Sys2Proof.Machine.qntLane sl e v = Sys2Proof.Machine.qntLane sl e w := by
  funext l
  simp only [Sys2Proof.Machine.qntLane, runWords, h.xr]

theorem SameRegs.qntMarked (en : Word) : Sys2Proof.Machine.qntMarked sl e v en = Sys2Proof.Machine.qntMarked sl e w en := by
  simp only [Sys2Proof.Machine.qntMarked, h.qntLane sl e, runWords, h.xr]

theorem SameRegs.qntVal : Shape.qntVal sl e v = Shape.qntVal sl e w := by
  funext l r
  simp only [Shape.qntVal, h.qntLane sl e]

end

/-! ### The end of a `qnt` with outliers -/

/-- A warp at its instruction, behind the checks, the commit or the demands that come before its effect: registers, program counters and
waits are as they were, and so is the region entry of the lanes not enabled. -/
structure Poised (c : Ctx) (w v : Warp) : Prop where
  regs : SameRegs w v
  blk : v.blk = w.blk
  pcv : v.pcv = w.pcv
  blocked : v.blocked = w.blocked
  rev : ∀ l < 32, laneIn c.en l = false → v.revOf l = w.revOf l

theorem Poised.refl (c : Ctx) (w : Warp) : Poised c w w := ⟨⟨rfl, rfl, rfl⟩, rfl, rfl, rfl, fun _ _ _ => rfl⟩
theorem Poised.trans {c : Ctx} {w v u : Warp} (h : Poised c w v) (g : Poised c v u) : Poised c w u :=
  ⟨h.regs.trans g.regs, g.blk.trans h.blk, g.pcv.trans h.pcv, g.blocked.trans h.blocked, fun l hl hn =>
    (g.rev l hl hn).trans (h.rev l hl hn)⟩

theorem Poised.atIssue (c : Ctx) (w : Warp) (f : Form) (s : State) : Poised c w (w.atIssue f s) :=
  ⟨⟨rfl, rfl, rfl⟩, rfl, rfl, rfl, fun _ _ _ => rfl⟩

/-- The warp that has written its runs and scales. -/
def Warp.quantized (v : Warp) (sl : Slot) (e : Cvs) (c : Ctx) : Warp := { v.qntWrite sl e c.en (qntLane sl e v) with appends := none }

/-- The warp at the end of the instruction, whose lanes have left it. -/
def Warp.qntDone (v : Warp) (sl : Slot) (e : Cvs) (f : Form) (c : Ctx) (w : Warp) : Warp :=
  ((v.quantized sl e c).left c).finished f c w

section
variable {sl : Slot} {e : Cvs} {f : Form} {s : State} {w v : Warp}

theorem Warp.quantized_keeps (sl : Slot) (e : Cvs) (c : Ctx) (v : Warp) :
    (v.quantized sl e c).k = v.k ∧ (v.quantized sl e c).m = v.m ∧ (v.quantized sl e c).pcv = v.pcv ∧ (v.quantized sl e c).rev = v.rev ∧
      (v.quantized sl e c).blocked = v.blocked ∧ (v.quantized sl e c).rcount = v.rcount :=
  Warp.qntWrite_keeps sl e
    (P := fun u => u.k = v.k ∧ u.m = v.m ∧ u.pcv = v.pcv ∧ u.rev = v.rev ∧ u.blocked = v.blocked ∧ u.rcount = v.rcount)
    (fun u n en g hu => by simpa using hu) ⟨rfl, rfl, rfl, rfl, rfl, rfl⟩ c.en _

theorem Warp.qntDone_rcount (c : Ctx) : (v.qntDone sl e f c w).rcount = v.rcount := by
  obtain ⟨-, -, -, -, -, hrcount⟩ := v.quantized_keeps sl e c
  exact (Warp.finished_same ((v.quantized sl e c).left c) f c w).rcount.trans hrcount

theorem Poised.leftBehind (h : Poised (issueCtx f s w) w v) : LeftBehind f s w (v.qntDone sl e f (issueCtx f s w) w) := by
  obtain ⟨-, -, hpcv, hrev, hblocked, -⟩ := v.quantized_keeps sl e (issueCtx f s w)
  refine LeftBehind.of (u := v.quantized sl e (issueCtx f s w)) (v := (v.quantized sl e (issueCtx f s w)).left (issueCtx f s w))
    (blockedLanes_of_blocked ((Warp.left_blocked ..).trans (hblocked.trans h.blocked))) (fun l hl => ⟨?_, fun hn => ?_⟩)
    ⟨rfl, rfl⟩ fun l hl hn => Warp.finished_pc _ _ _ _ hl hn
  · simp only [Warp.pc, hpcv, h.pcv]
  · exact (show (v.quantized sl e (issueCtx f s w)).revOf l = v.revOf l by simp only [Warp.revOf, hrev]).trans (h.rev l hl hn)

theorem Poised.runRegs {c : Ctx} (h : Poised c w v) : RunRegs c.en (qntVal sl e w) w (v.qntDone sl e f c w) := by
  intro n l hl
  have hend := (Warp.finished_same ((v.quantized sl e c).left c) f c w).regs
  have hx : (v.qntDone sl e f c w).xr n l = (v.qntWrite sl e c.en (qntLane sl e v)).xr n l := by
    rw [Warp.xr, Warp.xr, Warp.qntDone, hend.x, Warp.left_x, Warp.quantized]
  rw [hx, Warp.xr_qntWrite sl e v v c.en n hl, h.regs.qntVal sl e, h.regs.xr]

theorem Poised.others {c : Ctx} (h : Poised c w v) : (v.qntDone sl e f c w).k = w.k ∧ (v.qntDone sl e f c w).m = w.m := by
  obtain ⟨hk, hm, -⟩ := v.quantized_keeps sl e c
  have hend := (Warp.finished_same ((v.quantized sl e c).left c) f c w).regs
  exact ⟨(hend.k.trans hk).trans h.regs.k, (hend.m.trans hm).trans h.regs.m⟩

/-- With no append that found the list full, the instruction ends with its registers written and its lanes behind it (R85, R154). -/
theorem Ctx.qntLeave_finish {T : State} {c : Ctx} {a : Appends} (hw : T.warp? c.wid = some v) (ha : v.appends = some a) (hf : a.full = false) :
    (c.qntLeave sl e T).finish f c w = T.modWarp c.wid fun u => u.qntDone sl e f c w := by
  simp only [Ctx.qntLeave, State.withWarp, hw, ha, hf, Bool.false_and, Bool.false_eq_true, if_false, State.leave_eq, State.finish,
    State.modWarp_modWarp]
  rfl

end

/-! ### The translation step (R85) -/

theorem LooksAlike.refl (s : State) : LooksAlike s s := ⟨rfl, rfl, rfl, rfl, fun _ => rfl, fun _ => rfl⟩
theorem LooksAlike.modWarp {s T : State} (h : LooksAlike s T) (k : Nat) (g : Warp → Warp) : LooksAlike s (T.modWarp k g) :=
  ⟨h.mem, h.ap, h.own, h.blocks, h.tlb, h.l1⟩

/-- The translation step finds the same in a state that looks alike and has not moved. -/
theorem LooksAlike.outlierPlaces {s T : State} (h : LooksAlike s T) (hdies : T.dies = s.dies) (hdev : T.dev = s.dev) (c : Ctx)
    {w v : Warp} (hctx : v.ctx = w.ctx) (hpriv : v.priv = w.priv) (hblk : v.blk = w.blk) (aux : Nat) :
    T.outlierPlaces c v aux = s.outlierPlaces c w aux := by
  have hboth : ∀ va, T.placeBoth c.core w.ctx w.priv va = s.placeBoth c.core w.ctx w.priv va := by
    intro va
    unfold State.placeBoth State.upsetTrap
    rw [h.place, h.mem]
  have hpage : ∀ lo hi, T.recordPage c v lo hi = s.recordPage c w lo hi := by
    intro lo hi
    funext page
    unfold State.recordPage State.poisonedRecord
    rw [hctx, hpriv, h.place, h.mem]
  unfold State.outlierPlaces
  simp only [hpage, hctx, hpriv, hblk, hboth, State.homeRead_of_same h.mem h.ap h.blocks hdies hdev]

/-- A translation step has made no append. -/
theorem State.outlierPlaces_new {s : State} {c : Ctx} {w : Warp} {aux : Nat} {a : Appends} (h : s.outlierPlaces c w aux = .ok a) :
    a.done = 0 ∧ a.full = false := by
  unfold State.outlierPlaces at h
  dsimp only at h
  split at h
  · nomatch h
  split at h
  · nomatch h
  · cases h; exact ⟨rfl, rfl⟩

/-- The warp behind its translation step. -/
def Warp.located (v : Warp) (a : Appends) : Warp := { v with appends := some a }

/-- The appends that a warp has made. -/
def Warp.appendsMade (v : Warp) : Nat :=
  match v.appends with
  | some a => a.done
  | none => 0

/-- The appends that are left, behind the commit. -/
def Ctx.qntRest (c : Ctx) (sl : Slot) (e : Cvs) (S : State) : State :=
  S.withWarp c.wid fun v => c.qntAppends sl e ((qntMarked sl e v c.en).drop v.appendsMade) S

theorem Unawaited.begun {s : State} {f : Form} {w : Warp} {n : Nat} (hw : s.warp? s.cur = some w) (h : Unawaited s s.cur) :
    Unawaited (s.begun f n w) s.cur := by
  have key : ∀ S : State, S.warps = s.warps →
      Unawaited (S.modWarp s.cur fun v => v.marked (f.seen (issueCtx f s w).en) w.group (s.clk s.cur).toNat) s.cur := by
    intro S hS
    refine Unawaited.upd (w := w) ?_ (fun v hv => h v (hS ▸ hv)) _ rfl
    unfold State.warp?
    rw [hS]
    exact hw
  unfold State.begun
  split
  · exact key s rfl
  · exact key _ rfl

section
variable {sl : Slot} {e : Cvs} {f : Form} {s S : State} {c : Ctx} {w v : Warp} {a : Appends}

theorem Ctx.qntOutl_eq (hw : S.warp? c.wid = some v) : c.qntOutl sl e S
    = (if v.stage.isSome then S else S.outlierNoted c v sl.aux).commitPoint c (c.outlierCheck sl.aux) (c.qntRest sl e) := by
  unfold Ctx.qntOutl
  rw [State.withWarp, hw]
  rfl

theorem Ctx.qntRest_eq (hw : S.warp? c.wid = some v) (ha : v.appends = some a) (hd : a.done = 0) :
    c.qntRest sl e S = c.qntAppends sl e (qntMarked sl e v c.en) S := by
  simp only [Ctx.qntRest, State.withWarp, hw, Warp.appendsMade, ha, hd, List.drop_zero]

/-- A `qnt` whose translation step succeeds and whose commit is clean comes to its appends. -/
theorem Ctx.qntOutl_clean (hw : S.warp? c.wid = some v) (hst : v.stage = none) (hp : S.outlierPlaces c v sl.aux = .ok a)
    (hrsb : v.rsb = []) (htimer : v.timer = false) (hfaults : v.faults = []) (hmarks : S.mem.marks = []) (hup : S.mem.upset = [])
    (hun : Unawaited S c.wid) : c.qntOutl sl e S
      = c.qntAppends sl e (qntMarked sl e v c.en) (S.modWarp c.wid fun u => (u.located a).committed c) := by
  have hnoted : S.outlierNoted c v sl.aux = S.modWarp c.wid fun u => u.located a := by
    unfold State.outlierNoted
    rw [hp]
    rfl
  have hlocated : (S.modWarp c.wid fun u => u.located a).warp? c.wid = some (v.located a) := by
    rw [State.warp?_modWarp_self, hw]; rfl
  have hcheck : c.outlierCheck sl.aux (S.modWarp c.wid fun u => u.located a) = none := by
    have hagain := ((LooksAlike.refl S).modWarp c.wid fun u => u.located a).outlierPlaces rfl rfl c (w := v) (v := v.located a)
      rfl rfl rfl sl.aux
    unfold Ctx.outlierCheck
    rw [hlocated]
    simp only [hagain, hp]
  have hcame : ((S.modWarp c.wid fun u => u.located a).modWarp c.wid fun u => u.committed c).warp? c.wid = some ((v.located a).committed c) := by
    rw [State.warp?_modWarp_self, hlocated]; rfl
  have hregs : SameRegs v ((v.located a).committed c) := ⟨rfl, rfl, rfl⟩
  rw [Ctx.qntOutl_eq hw, hst, Option.isSome_none, if_neg Bool.false_ne_true, hnoted, State.commitPoint,
    State.commitTag_clean hlocated hst (tagFlies_64 ..) hcheck hrsb htimer hfaults hmarks hup (Unawaited.upd hw hun _ rfl), claimTag_64,
    Ctx.qntRest_eq hcame rfl (State.outlierPlaces_new hp).1, hregs.qntMarked sl e, State.modWarp_modWarp]

/-- The state in which a fresh `qnt` comes to its appends, its translation step and its commit behind it. -/
def State.qntBegun (s : State) (f : Form) (w : Warp) (a : Appends) : State :=
  (s.begun f 0 w).modWarp s.cur fun v => (v.located a).committed (issueCtx f s w)

theorem State.qntBegun_warp (h : s.warp? s.cur = some w) (f : Form) (a : Appends) :
    (s.qntBegun f w a).warp? s.cur = some (((w.atIssue f s).located a).committed (issueCtx f s w)) := by
  rw [State.qntBegun, State.warp?_modWarp_self, State.begun_warp h]
  rfl

theorem Stood.qntBegun (s : State) (f : Form) (w : Warp) (a : Appends) : Stood s (s.qntBegun f w a) := Stood.begun.modWarp _

theorem Ctx.qntOutl_fresh (hr : Ready f 0 s w) (hq : CommitsEmpty s w) (hp : s.outlierPlaces (issueCtx f s w) w sl.aux = .ok a) :
    (issueCtx f s w).qntOutl sl e (s.begun f 0 w) = (issueCtx f s w).qntAppends sl e (qntMarked sl e w (issueCtx f s w).en)
      (s.qntBegun f w a) := by
  have hstood : Stood s (s.begun f 0 w) := .begun
  have hplaces := (LooksAlike.begun s f 0 w).outlierPlaces hstood.dies hstood.dev (issueCtx f s w) (w := w) (v := w.atIssue f s)
    rfl rfl rfl sl.aux
  rw [Ctx.qntOutl_clean (State.begun_warp hr.cur) rfl (hplaces.trans hp) hq.rsb hq.timer hq.faults (hstood.mem ▸ hq.marks)
    (hstood.mem ▸ hr.sound) (Unawaited.begun hr.cur hq.unawaited), (SameRegs.atIssue w f s).qntMarked sl e]
  rfl

/-- A `qnt` that comes back behind its commit goes on with its appends. -/
theorem Ctx.qntOutl_again (hw : S.warp? c.wid = some w) (hst : w.stage.isSome = true) (h4 : w.stageStep = 4) (ha : w.appends = some a)
    (hd : a.done = 0) : c.qntOutl sl e S = c.qntAppends sl e (qntMarked sl e w c.en) S := by
  simp only [Ctx.qntOutl_eq hw, hst, if_true, State.commitPoint, State.commitTag, hw, h4, Ctx.qntRest_eq hw ha hd]

end

/-! ### One append (R85, R154) -/

/-- The list has room for a record at its COUNT, whose line was translated; header and record lie outside the aperture, and no peer holds
their lines. -/
structure HasRoom (s : State) (blk aux : Nat) (a : Appends) (count rec_ : Nat) : Prop where
  atCount : count = s.homeRead blk .g a.key 4
  room : count < s.homeRead blk .g (a.key + 4) 4
  place : a.place aux count = some rec_
  keyMem : isAp a.key = false
  recMem : isAp rec_ = false
  keyHome : s.leasedOut (lineOf a.key) = false
  recHome : s.leasedOut (lineOf rec_) = false

/-- COUNT is one more, the record holds index and value, and no other byte has changed. -/
structure Appended (s t : State) (blk key count rec_ : Nat) (x : Word × Word) : Prop where
  frame : ∀ a, (a < key ∨ key + 4 ≤ a) → (a < rec_ ∨ rec_ + 8 ≤ a) → t.mem.byte a = s.mem.byte a
  counted : key + 4 ≤ rec_ ∨ rec_ + 8 ≤ key → t.homeRead blk .g key 4 = count + 1
  recorded : t.homeRead blk .g rec_ 8 = x.1.toNat + 2 ^ 32 * x.2.toNat

section
variable {s T : State} {blk aux : Nat} {a : Appends} {count rec_ : Nat}

theorem HasRoom.stood (h : HasRoom s blk aux a count rec_) (hT : Stood s T) : HasRoom T blk aux a count rec_ where
  atCount := h.atCount.trans (hT.homeRead ..).symm
  room := by rw [hT.homeRead]; exact h.room
  place := h.place
  keyMem := h.keyMem
  recMem := h.recMem
  keyHome := (hT.leasedOut _).trans h.keyHome
  recHome := (hT.leasedOut _).trans h.recHome

theorem HasRoom.lines (h : HasRoom s blk aux a count rec_) : s.appendLines blk a aux = [lineOf a.key, lineOf rec_] := by
  simp only [State.appendLines, ← h.atCount, h.room, if_true, h.place, Option.toList_some, List.map_cons, List.map_nil]

theorem HasRoom.append (h : HasRoom s blk aux a count rec_) (ctx : Nat) (x : Word × Word) :
    s.appendOutlier ctx blk a aux x.1 x.2
      = ((s.writeNum (some ctx) a.key 4 (count + 1)).writeNum (some ctx) rec_ 8 (x.1.toNat + 2 ^ 32 * x.2.toNat), false) := by
  simp only [State.appendOutlier, ← h.atCount, h.room, if_true, h.place]

/-- The two writes of an append. -/
theorem HasRoom.appended (h : HasRoom s blk aux a count rec_) (o : Option Nat) (x : Word × Word) :
    Appended s ((s.writeNum o a.key 4 (count + 1)).writeNum o rec_ 8 (x.1.toNat + 2 ^ 32 * x.2.toNat)) blk a.key count rec_ x where
  frame b hkey hrec := by rw [State.byte_writeNum_outside _ _ _ _ _ hrec, State.byte_writeNum_outside _ _ _ _ _ hkey]
  counted hapart := by
    have hlimit := State.homeRead_lt (s := s) blk (key := a.key + 4) .g 4
    have hroom := h.room
    rw [State.homeRead_of_bytes blk h.keyMem fun i hi => State.byte_writeNum_outside _ o rec_ 8 _ (by omega),
      State.homeRead_writeNum o blk h.keyMem]
    exact Nat.mod_eq_of_lt (by omega)
  recorded := by
    have hindex := x.1.isLt
    have hvalue := x.2.isLt
    rw [State.homeRead_writeNum o blk h.recMem]
    exact Nat.mod_eq_of_lt (by omega)

/-- An append seen from another state with the same bytes. -/
theorem Appended.of_bytes {t u : State} {key : Nat} {x : Word × Word} (h : Appended s t blk key count rec_ x) (hk : isAp key = false)
    (hr : isAp rec_ = false) (hu : ∀ a, u.mem.byte a = t.mem.byte a) : Appended s u blk key count rec_ x where
  frame b hkey hrec := (hu b).trans (h.frame b hkey hrec)
  counted hapart := (State.homeRead_of_bytes blk hk fun _ _ => hu _).trans (h.counted hapart)
  recorded := (State.homeRead_of_bytes blk hr fun _ _ => hu _).trans h.recorded

theorem Appended.start {t S : State} {key : Nat} {x : Word × Word} (h : Appended S t blk key count rec_ x) (hS : S.mem = s.mem) :
    Appended s t blk key count rec_ x :=
  { h with frame := fun b hkey hrec => (h.frame b hkey hrec).trans (by rw [hS]) }

end

/-- What an append does once its step demand is paid, with the appends that come after it. -/
def Ctx.qntAppend (c : Ctx) (sl : Slot) (e : Cvs) (x : Word × Word) (r : List (Word × Word)) (s : State) : State :=
  s.withWarp c.wid fun w =>
    match w.appends with
    | none => c.qntLeave sl e s
    | some a =>
      s.whenHome c c.paidUp (s.appendLines w.blk a sl.aux) fun t =>
        c.qntAppends sl e r ((((s.appendLines w.blk a sl.aux).foldl (fun s l => s.homeLine c.core l)
          (t.appendOutlier w.ctx w.blk a sl.aux x.1 x.2).1)).modWarp c.wid fun v => { v with
            appends := some { a with done := a.done + 1, full := a.full || (t.appendOutlier w.ctx w.blk a sl.aux x.1 x.2).2 },
            stage := some { kind := 2, lanes := c.iss, step := 4 } })

theorem Ctx.qntAppends_cons (c : Ctx) (sl : Slot) (e : Cvs) (x : Word × Word) (r : List (Word × Word)) (s : State) :
    c.qntAppends sl e (x :: r) s = s.payStep c 10 (c.qntAppend sl e x r) := rfl

/-- The warp behind an append that has found room. -/
def Warp.appended (v : Warp) (a : Appends) (c : Ctx) : Warp :=
  { v with appends := some { a with done := a.done + 1 }, stage := some { kind := 2, lanes := c.iss, step := 4 } }

/-- AN APPEND THAT FINDS ROOM writes COUNT and the record at their homes, and the appends that are left follow. -/
theorem Ctx.qntAppend_room {s T : State} {c : Ctx} {sl : Slot} {e : Cvs} {x : Word × Word} {r : List (Word × Word)} {v : Warp} {a : Appends}
    {count rec_ : Nat} (hT : Stood s T) (hc : c.wid = s.cur) (hsound : Sound s) (hw : T.warp? s.cur = some v) (hst : v.stage = none)
    (ha : v.appends = some a) (h : HasRoom s v.blk sl.aux a count rec_) :
    ∃ T', c.qntAppend sl e x r T = c.qntAppends sl e r T' ∧ SameElsewhere s T' ∧ T'.warp? s.cur = some (v.appended a c) ∧
      Appended s T' v.blk a.key count rec_ x := by
  have hroom := h.stood hT
  have hsoundT : Sound T := ⟨by rw [← hsound.disarmed]; simp only [State.ap!, hT.ap], by rw [hT.mem]; exact hsound.noError⟩
  have hhome : (T.appendLines v.blk a sl.aux).any T.leasedOut = false := by
    rw [hroom.lines]; simp [hroom.keyHome, hroom.recHome]
  have hcount := State.writeNum_beyondHomes hsoundT.noError (some v.ctx) a.key 4 (count + 1)
  have hrec := State.writeNum_beyondHomes (hsoundT.beyondHomes hcount).noError (some v.ctx) rec_ 8 (x.1.toNat + 2 ^ 32 * x.2.toNat)
  have happ := (hroom.appended (some v.ctx) x).start hT.mem
  have hA := hroom.append v.ctx x
  generalize (T.writeNum (some v.ctx) a.key 4 (count + 1)).writeNum (some v.ctx) rec_ 8 (x.1.toNat + 2 ^ 32 * x.2.toNat) = A at hrec happ hA
  have hhomes := FetchLeft.foldl_homeLine (core := c.core) (k := c.core) (T.appendLines v.blk a sl.aux)
    ((hsoundT.beyondHomes hcount).beyondHomes hrec)
  generalize hL : (T.appendLines v.blk a sl.aux).foldl (fun s l => s.homeLine c.core l) A = L at hhomes
  have hkeeps : L.beyondHomes = T.beyondHomes := (hhomes.beyondHomes.trans hrec).trans hcount
  have hwarp : L.warp? s.cur = some v := (congrArg (Tab.look · s.cur) (congrArg Prod.fst hkeeps)).trans hw
  refine ⟨L.modWarp s.cur fun v => v.appended a c, ?_, (hT.toSameElsewhere.beyondHomes hkeeps).modWarp _, ?_,
    happ.of_bytes h.keyMem h.recMem hhomes.byte⟩
  · simp only [Ctx.qntAppend, State.withWarp, hc, hw, ha, State.whenHome, hhome, Bool.false_eq_true, if_false, Option.bind_some, hst, hA, hL,
      Bool.or_false]
    rfl
  · rw [State.warp?_modWarp_self, hwarp]; rfl

/-! ### The whole instruction -/

section
variable {e : Cvs} {sl : Slot} {f : Form} {s : State} {w v : Warp} {a : Appends}

/-- The issue of `qnt` under a slot with outliers. -/
def State.issueQnt (s : State) (f : Form) (sl : Slot) (e : Cvs) : State :=
  s.issue f (fun _ _ => qntLegal sl e) (fun _ _ => 0) fun c s => c.qntOutl sl e s

theorem exec_qnt (hsl : sl = s.curSlot e.slot) (ho : sl.outl = true) : exec (.qnt e) s = .next (s.issueQnt (qntForm sl e) sl e) := by
  change execQnt e s = _
  unfold execQnt
  simp only [← hsl, ho, if_true]
  rfl

theorem Warp.finished_appends (v : Warp) (f : Form) (c : Ctx) (w : Warp) : (v.finished f c w).appends = v.appends := by
  have hrelease : ∀ (bs : List Blocked) (u : Warp),
      (bs.foldl (fun v b => v.release b.lanes (b.here + BitVec.ofNat 64 b.len)) u).appends = u.appends := fun bs u =>
    List.foldlRecOn (motive := fun v : Warp => v.appends = u.appends) bs _ rfl fun _ hv _ _ => hv
  have hturn : ∀ u : Warp, u.appends = v.appends → (match w.turn, u.turn with
      | some t, some _ => if turnEnds w u t f c then { u with turn := none, fc := 0 } else u
      | _, _ => u).appends = v.appends := by
    intro u hu
    split
    · split <;> exact hu
    · exact hu
  unfold Warp.finished
  split
  · exact hturn v rfl
  · exact hturn _ (hrelease _ v)

theorem Poised.committed (c : Ctx) (v : Warp) (a : Appends) : Poised c v ((v.located a).committed c) where
  regs := ⟨rfl, rfl, rfl⟩
  blk := rfl
  pcv := rfl
  blocked := rfl
  rev l hl hn := by
    rw [Warp.revOf_committed _ _ hl, hn, if_neg Bool.false_ne_true]
    rfl

theorem Poised.unstaged {c : Ctx} (h : Poised c w v) : Poised c w v.unstaged :=
  ⟨⟨h.regs.x, h.regs.k, h.regs.m⟩, h.blk, h.pcv, h.blocked, h.rev⟩
theorem Poised.appended {c : Ctx} (h : Poised c w v) : Poised c w (v.appended a c) :=
  ⟨⟨h.regs.x, h.regs.k, h.regs.m⟩, h.blk, h.pcv, h.blocked, h.rev⟩

/-- A fresh `qnt` that owes the step demand of its first append. -/
def Warp.owing (v : Warp) (a : Appends) (c : Ctx) : Warp :=
  { (v.located a).committed c with stage := some { kind := 2, lanes := c.iss, step := 4 } }

theorem KeepsCommit.owing (v : Warp) (a : Appends) (c : Ctx) : KeepsCommit (v.committed c) (v.owing a c) :=
  ⟨⟨rfl, rfl, rfl⟩, rfl, rfl, rfl, rfl, rfl, rfl, rfl, rfl, rfl, rfl, rfl⟩

theorem Poised.owing (c : Ctx) (v : Warp) (a : Appends) : Poised c v (v.owing a c) :=
  have h := Poised.committed c v a
  ⟨⟨h.regs.x, h.regs.k, h.regs.m⟩, h.blk, h.pcv, h.blocked, h.rev⟩

/-- With no marked element a fresh `qnt` has its effect at once (R154). -/
theorem qnt_unmarked (hr : Ready f 0 s w) (hq : CommitsEmpty s w) (hp : s.outlierPlaces (issueCtx f s w) w sl.aux = .ok a)
    (hl : qntLegal sl e = true) (he : (issueCtx f s w).en ≠ 0) (hm : qntMarked sl e w (issueCtx f s w).en = []) :
    s.issueQnt f sl e = (s.qntBegun f w a).modWarp s.cur fun v => v.qntDone sl e f (issueCtx f s w) w := by
  rw [State.issueQnt, State.issue_ready _ _ _ hr hl rfl, if_neg he, Ctx.qntOutl_fresh hr hq hp, hm]
  exact Ctx.qntLeave_finish (State.qntBegun_warp hr.cur f a) rfl (State.outlierPlaces_new hp).2

/-- With a marked element a fresh `qnt` on a compute core leaves its first append's demand (R136, R445). -/
theorem qnt_demands (hr : Ready f 0 s w) (hq : CommitsEmpty s w) (hp : s.outlierPlaces (issueCtx f s w) w sl.aux = .ok a)
    (hl : qntLegal sl e = true) (he : (issueCtx f s w).en ≠ 0) (hm : qntMarked sl e w (issueCtx f s w).en ≠ [])
    (hs : isService (coreOf s.cur) = false) :
    ∃ w', Demands f s (s.issueQnt f sl e) w w' ∧ w'.appends = some a := by
  obtain ⟨x, r, hx⟩ := List.exists_cons_of_ne_nil hm
  have hbody : (issueCtx f s w).qntOutl sl e (s.begun f 0 w) = (s.begun f 0 w).modWarp s.cur fun v => v.owing a (issueCtx f s w) := by
    have hdue := State.payStep_compute (c := issueCtx f s w) (price := 10) ((issueCtx f s w).qntAppend sl e x r)
      (State.qntBegun_warp hr.cur f a) hs (by decide)
    rw [Ctx.qntOutl_fresh hr hq hp, hx, Ctx.qntAppends_cons, hdue]
    exact State.modWarp_modWarp ..
  obtain ⟨hwarp, honly⟩ := State.issue_warp (fun _ _ => qntLegal sl e) (fun _ _ => 0) (fun c s => c.qntOutl sl e s) _ hr hl rfl
    fun _ => hbody
  rw [if_neg he] at hwarp
  have hkeeps := KeepsCommit.owing (w.atIssue f s) a (issueCtx f s w)
  have hpoised := (Poised.atIssue (issueCtx f s w) w f s).trans (.owing _ _ a)
  have hstage : ((w.atIssue f s).owing a (issueCtx f s w)).stage = some { kind := 2, lanes := w.group, step := 4 } := rfl
  have hplaces : ((w.atIssue f s).owing a (issueCtx f s w)).appends = some a := rfl
  generalize (w.atIssue f s).owing a (issueCtx f s w) = v at hwarp hkeeps hpoised hstage hplaces
  have hend := Warp.finished_same v f (issueCtx f s w) w
  refine ⟨_, ⟨hwarp, issueCost_zero f s w ▸ honly, hkeeps.committed hend, hend.stage.trans hstage, fun l hg => ?_⟩,
    (Warp.finished_appends ..).trans hplaces⟩
  have hfree : laneIn v.blockedLanes l = false := by rw [blockedLanes_of_blocked hpoised.blocked]; exact Warp.group_unblocked hg
  rw [(Warp.finished_pc v f (issueCtx f s w) w (laneIn_lt hg) hfree).1, Warp.pc, hpoised.pcv, Warp.pc]

/-- A `qnt` that goes on comes to its appends with its demand paid or about to be, a fresh one of a service core behind its commit. -/
theorem qnt_comes (hg : GoesOn f 10 s w (CommitsEmpty s w ∧ s.outlierPlaces (issueCtx f s w) w sl.aux = .ok a))
    (ha : isService (coreOf s.cur) = false → w.appends = some a) (hd : a.done = 0) (hl : qntLegal sl e = true)
    (he : (issueCtx f s w).en ≠ 0) :
    ∃ S v, s.issueQnt f sl e = ((issueCtx f s w).qntAppends sl e (qntMarked sl e w (issueCtx f s w).en) S).finish f (issueCtx f s w) w ∧
      Stood s S ∧ S.warp? s.cur = some v ∧ Poised (issueCtx f s w) w v ∧ v.appends = some a ∧
      (isService (coreOf s.cur) = false → ∃ st, v.stage = some st ∧ (st.kind = 3 ∨ (st.kind = 2 ∧ S.canPay (coreOf s.cur) 10 = true))) := by
  cases hs : isService (coreOf s.cur) with
  | true =>
    obtain ⟨hr, hq, hp⟩ := hg.service hs
    refine ⟨_, _, ?_, .qntBegun s f w a, State.qntBegun_warp hr.cur f a, (Poised.atIssue _ w f s).trans (.committed _ _ a), rfl, nofun⟩
    rw [State.issueQnt, State.issue_ready _ _ _ hr hl rfl, if_neg he, Ctx.qntOutl_fresh hr hq hp]
  | false =>
    have hstage : ∃ st, w.stage = some st ∧ st.step = 4 ∧ (st.kind = 3 ∨ (st.kind = 2 ∧ s.canPay (coreOf s.cur) 10 = true)) := by
      rcases hg.compute hs with h3 | ⟨h2, hcan⟩
      · exact ⟨_, h3, rfl, .inl rfl⟩
      · exact ⟨_, h2, rfl, .inr ⟨rfl, hcan⟩⟩
    obtain ⟨st, hst, hstep, hpays⟩ := hstage
    have hw : (s.modWarp s.cur id).warp? s.cur = some w := (State.warp?_modWarp_self ..).trans (by rw [hg.cur]; rfl)
    have hagain : w.again = true := by
      simp only [Warp.again, hst, decide_eq_true_eq]
      omega
    refine ⟨_, w, ?_, (Stood.refl s).modWarp id, hw, .refl _ w, ha hs, fun _ => ⟨st, hst, hpays⟩⟩
    rw [State.issueQnt, State.issue_again _ _ _ hg.toPasses hl hagain he,
      Ctx.qntOutl_again hw (by rw [hst]; rfl) (by rw [Warp.stageStep, hst]; exact hstep) (ha hs) hd]

/-- AN INSTRUCTION WITH ONE MARKED ELEMENT, where the list has room: its append is performed, and it ends (R85, R154). -/
theorem qnt_appends {count rec_ : Nat} {x : Word × Word}
    (hg : GoesOn f 10 s w (CommitsEmpty s w ∧ s.outlierPlaces (issueCtx f s w) w sl.aux = .ok a))
    (ha : isService (coreOf s.cur) = false → w.appends = some a) (hd : a.done = 0) (hfull : a.full = false) (hl : qntLegal sl e = true)
    (he : (issueCtx f s w).en ≠ 0) (hm : qntMarked sl e w (issueCtx f s w).en = [x]) (hroom : HasRoom s w.blk sl.aux a count rec_) :
    ∃ T v, s.issueQnt f sl e = T.modWarp s.cur (fun v => v.qntDone sl e f (issueCtx f s w) w) ∧
      SameElsewhere s T ∧ T.warp? s.cur = some v ∧ Poised (issueCtx f s w) w v ∧ Appended s T w.blk a.key count rec_ x := by
  obtain ⟨S, v, hissue, hS, hw, hpoised, hplaces, hpays⟩ := qnt_comes hg ha hd hl he
  obtain ⟨T, hpay, hT, hpaid⟩ := State.payStep_goes (c := issueCtx f s w) (price := 10) ((issueCtx f s w).qntAppend sl e x []) hw hS rfl
    (by decide) hpays
  obtain ⟨T', happend, helse, hw', happended⟩ := Ctx.qntAppend_room (c := issueCtx f s w) (sl := sl) (e := e) (x := x) (r := []) hT rfl
    ⟨hg.disarmed, hg.sound⟩ hpaid rfl hplaces (hpoised.blk ▸ hroom)
  refine ⟨T', _, ?_, helse, hw', hpoised.unstaged.appended, hpoised.blk ▸ happended⟩
  rw [hissue, hm, Ctx.qntAppends_cons, hpay, happend]
  exact Ctx.qntLeave_finish hw' rfl hfull

/-- What the end of a `qnt` with outliers leaves, however it came to it. -/
theorem qnt_ends {T : State} (helse : SameElsewhere s T) (hw : T.warp? s.cur = some v) (h : Poised (issueCtx f s w) w v) :
    ∃ w', (T.modWarp s.cur fun v => v.qntDone sl e f (issueCtx f s w) w).warp? s.cur = some w' ∧ LeftBehind f s w w' ∧
      w'.rcount = v.rcount ∧ w'.k = w.k ∧ w'.m = w.m ∧ RunRegs (issueCtx f s w).en (qntVal sl e w) w w' ∧
      SameElsewhere s (T.modWarp s.cur fun v => v.qntDone sl e f (issueCtx f s w) w) := by
  obtain ⟨hk, hm⟩ := h.others (sl := sl) (e := e) (f := f)
  exact ⟨_, (State.warp?_modWarp_self ..).trans (by rw [hw]; rfl), h.leftBehind, Warp.qntDone_rcount _, hk, hm, h.runRegs, helse.modWarp _⟩

end

/-- Settles O33: without marked elements by its clean commit and its end; else by the demand of its first append; with one marked element by
the append that finds room and the same end. -/
theorem outlierQuantizeCompletes : Obligations.OutlierQuantizeCompletes := by
  rintro e sl f c s w recs a key count rec_ x hsl ho hl rfl rfl he rfl
  have hexec := exec_qnt (e := e) (s := s) hsl ho
  refine ⟨fun hq hr hp => ⟨fun hm => ?_, fun hm hs => ?_⟩,
    fun hm hg ha hd hfull hkey hkeyMem hkeyHome hcount hlimit hrecMem hplace hrecHome => ?_⟩
  · have hstood := Stood.qntBegun s (qntForm sl e) w a
    obtain ⟨w', hw', hleft, hrcount, hk, hm', hruns, helse⟩ := qnt_ends (sl := sl) (e := e) hstood.toSameElsewhere
      (State.qntBegun_warp hr.cur _ a) ((Poised.atIssue _ w _ s).trans (.committed _ _ a))
    rw [qnt_unmarked hr hq hp hl he hm] at hexec
    exact ⟨_, w', hexec, hw', hleft, hrcount, hk, hm', hruns, helse, fun b => congrArg (Mem.byte · b) hstood.mem⟩
  · obtain ⟨w', hdemands, hplaces⟩ := qnt_demands hr hq hp hl he hm hs
    exact ⟨_, w', hexec, hdemands, hplaces⟩
  · subst hkey
    obtain ⟨T, v, hissue, helse, hw, hpoised, happended⟩ := qnt_appends hg ha hd hfull hl he hm
      ⟨hcount, hlimit, hplace, hkeyMem, hrecMem, hkeyHome, hrecHome⟩
    obtain ⟨w', hw', hleft, -, hk, hm', hruns, helse⟩ := qnt_ends (sl := sl) (e := e) helse hw hpoised
    have hbytes := happended.of_bytes (u := T.modWarp s.cur fun v => v.qntDone sl e (qntForm sl e) (issueCtx (qntForm sl e) s w) w)
      hkeyMem hrecMem fun _ => rfl
    rw [hissue] at hexec
    exact ⟨_, w', hexec, hw', hleft, hk, hm', hruns, helse, hbytes.frame, hbytes.counted, hbytes.recorded⟩

end Sys2Proof.Machine
end

section
/-!
PROOFS. The words of `nop`, `pcget` and the mask reductions (spec/01 R14 to R19; spec/04 R110, R114, R115), and what these instructions
and the control transfers do (R98 to R101). Settles O9, O10, O11 and O15.
-/

namespace Sys2Proof

/-! ### What words decode to, by their fields -/

/-- Words of a form that their OP lacks hold no instruction (R19). -/
theorem decodeWords_form {w : Nat} {ws : List Nat} {x : Instr × List Nat} (h : decodeWords (w :: ws) = .ok x) :
    formOk (w / 4 % 256) (w % 4) = true := by
  change formOk (rawOfWord0 w).op (rawOfWord0 w).len = true
  unfold decodeWords at h
  dsimp only at h
  split at h
  · nomatch h
  split at h
  · nomatch h
  · next hf => simpa using hf

/-- The words of fields that fit hold what the fields hold. -/
theorem decodeWords_words {r : Raw} (rest : List Nat) (hf : r.Fits) (ho : formOk r.op r.len = true) :
    decodeWords (r.words ++ rest) = (decodeRaw r).map fun i => (i, rest) := by
  have hn : opForms r.op ≠ [] := fun h => by simp [formOk, h] at ho
  have hw := rawOfWords_words rest hf
  obtain ⟨tl, ht⟩ : ∃ tl, r.words ++ rest = r.word0 :: tl := ⟨_, rfl⟩
  rw [ht] at hw ⊢
  simp only [decodeWords, rawOfWord0_word0 hf, hn, ho, hw, if_false, Bool.not_true, Bool.false_eq_true]
  cases decodeRaw r <;> rfl

/-- A row of the opcode table under the first five words of its number. -/
theorem decodeTableWord_of_words {n v : Nat} {r : Raw} {rest : List Nat} (hf : r.Fits) (ho : formOk r.op r.len = true) (hv : v < 2 ^ n)
    (hws : [v % 2 ^ 32, v / 2 ^ 32 % 2 ^ 32, v / 2 ^ 64 % 2 ^ 32, v / 2 ^ 96 % 2 ^ 32, v / 2 ^ 128 % 2 ^ 32] = r.words ++ rest) :
    decodeTableWord n v = (decodeRaw r).toOption := by
  simp only [decodeTableWord, Nat.mod_eq_of_lt hv, hws, decodeWords_words rest hf ho]
  cases decodeRaw r <;> rfl

/-- The fields of a base form (R15). -/
theorem decodeTableWord_base {op d a f : Nat} (hop : op < 256) (hd : d < 512) (ha : a < 512) (hf : f < 16) (ho : formOk op 0 = true) :
    decodeTableWord 32 (4 * op + 2 ^ 10 * d + 2 ^ 19 * a + 2 ^ 28 * f)
      = (decodeRaw { op := op, d := d, a := a, f := f }).toOption := by
  refine decodeTableWord_of_words (rest := [0, 0, 0, 0]) (by simp [Raw.Fits, hop, hd, ha, hf]) ho (by omega) ?_
  simp only [Raw.words, Raw.word0]
  simp
  omega

/-- The fields of an extended form of three words, of those that word 1 holds its minor function alone (R16). -/
theorem decodeTableWord_ext {op d a g v : Nat} (hop : op < 256) (hd : d < 512) (ha : a < 512) (hg : g < 16) (hv : v < 16)
    (ho : formOk op 1 = true) :
    decodeTableWord 96 (1 + 4 * op + 2 ^ 10 * d + 2 ^ 19 * a + 2 ^ 28 * g + 2 ^ 32 * (2 ^ 18 * v))
      = (decodeRaw { len := 1, op := op, d := d, a := a, f := g, minor := v }).toOption := by
  refine decodeTableWord_of_words (rest := [0, 0]) (by simp [Raw.Fits, hop, hd, ha, hg, hv]) ho (by omega) ?_
  simp only [Raw.words, Raw.word0, Raw.word1]
  simp
  omega

/-- Fields that name no instruction. -/
theorem decodeRaw_unnamed {r : Raw} (h : candidate r = none) : (decodeRaw r).toOption = none := by
  unfold decodeRaw
  rw [h]
  split
  · rfl
  split <;> rfl

/-- Fields that name an instruction hold it where its operands are legal and its own fields are these (R19). -/
theorem decodeRaw_named {r : Raw} {i : Instr} (ho : formOk r.op r.len = true) (hop : (r.op == 0xF9) = false) (h : candidate r = some i) :
    (decodeRaw r).toOption = if i.wf ∧ toRaw i = some r then some i else none := by
  have hn : opForms r.op ≠ [] := fun h => by simp [formOk, h] at ho
  have hbare : r.bare = r := by simp [Raw.bare, beq_eq_false_iff_ne.mp hop]
  simp only [decodeRaw, hn, ho, h, hbare, or_self, if_false, Bool.not_true, Bool.false_eq_true]
  by_cases hw : i.wf
  · simp only [show wfError i = none from hw]
    by_cases hr : toRaw i = some r
    · rw [if_pos hr, if_pos ⟨hw, hr⟩]; rfl
    · rw [if_neg hr, if_neg fun h => hr h.2]; rfl
  · obtain ⟨e, he⟩ := Option.ne_none_iff_exists'.mp hw
    simp only [he]
    rw [if_neg fun h => hw h.1]; rfl

/-- An opcode that has the base form alone holds an instruction in no other. -/
theorem decodeWords_baseOnly {w op : Nat} {ws : List Nat} {x : Instr × List Nat} (hop : w / 4 % 256 = op)
    (hb : ∀ l < 4, formOk op l = true → l = 0) (h : decodeWords (w :: ws) = .ok x) : w % 4 = 0 :=
  hb _ (Nat.mod_lt _ (by decide)) (hop ▸ decodeWords_form h)

/-- A word of a base form holds what its fields hold, whatever follows. -/
theorem decodeWords_base {w : Nat} (ws : List Nat) (hw : w < 2 ^ 32) (hl : w % 4 = 0) (ho : formOk (w / 4 % 256) 0 = true) :
    decodeWords (w :: ws) = (decodeRaw (rawOfWord0 w)).map fun i => (i, ws) := by
  have hfit : (rawOfWord0 w).Fits := by simp [Raw.Fits, rawOfWord0]; omega
  have hword : (rawOfWord0 w).word0 = w := by simp only [Raw.word0, rawOfWord0]; omega
  have hwords : (rawOfWord0 w).words = [w] := by
    rw [Raw.words, hword, show (rawOfWord0 w).len = 0 from hl]; rfl
  have hd := decodeWords_words ws hfit (by simp only [rawOfWord0, hl, ho])
  rwa [hwords] at hd

/-! ### The words of nop, pcget, mpop and mfind (R110, R114, R115) -/

theorem decodeTableWord_nop : decodeTableWord 32 4 = some .nop := rfl

/-- A word of the opcode of `nop` that holds an instruction is its one word. -/
theorem decodeWords_nop {w : Nat} {ws : List Nat} {x : Instr × List Nat} (hw : w < 2 ^ 32) (hop : w / 4 % 256 = 1)
    (h : decodeWords (w :: ws) = .ok x) : w = 4 := by
  have hl := decodeWords_baseOnly hop (by decide) h
  rw [decodeWords_base ws hw hl (by rw [hop]; rfl)] at h
  have hraw : (decodeRaw (rawOfWord0 w)).toOption ≠ none := by
    intro hn
    cases hd : decodeRaw (rawOfWord0 w) with
    | ok i => rw [hd] at hn; nomatch hn
    | error e => rw [hd] at h; nomatch h
  by_cases hf : w / 2 ^ 28 % 16 = 0
  · rw [decodeRaw_named (i := .nop) (by simp only [rawOfWord0, hop, hl]; rfl) (by simp only [rawOfWord0, hop]; rfl)
      (by simp only [candidate, rawOfWord0, hl, candBase, hop, hf]; rfl)] at hraw
    have hfields : Raw.mk 0 0 0 0 1 0 0 0 0 0 0 0 0 0 0 = rawOfWord0 w := by
      by_contra hne
      exact hraw (if_neg fun hr => hne (Option.some.inj hr.2))
    simp only [rawOfWord0, Raw.mk.injEq] at hfields
    omega
  · exact absurd (decodeRaw_unnamed (by simp only [candidate, rawOfWord0, hl, candBase, hop, hf]; rfl)) hraw

/-- `pcget` in its base form: an even pair and no other field (R115). -/
theorem decodeTableWord_pcget {d a : Nat} (hd : d < 512) (ha : a < 512) :
    decodeTableWord 32 (4 * 0x19 + 2 ^ 10 * d + 2 ^ 19 * a) = if d % 2 = 0 ∧ a = 0 then some (.pcget d) else none := by
  rw [show 4 * 0x19 + 2 ^ 10 * d + 2 ^ 19 * a = 4 * 0x19 + 2 ^ 10 * d + 2 ^ 19 * a + 2 ^ 28 * 0 from rfl,
    decodeTableWord_base (by decide) hd ha (by decide) rfl, decodeRaw_named (i := .pcget d) rfl rfl rfl]
  exact if_congr (by change firstBad _ = none ∧ some _ = some _ ↔ _; simp; omega) rfl rfl

/-- `pcget` in its extended form. -/
theorem decodeTableWord_pcgetExt {d a g : Nat} (hd : d < 512) (ha : a < 512) (hg : g ≤ 12) :
    decodeTableWord 96 (1 + 4 * 0x19 + 2 ^ 10 * d + 2 ^ 19 * a + 2 ^ 28 * g)
      = if d % 2 = 0 ∧ a = 0 then some (.pcgetExt g d) else none := by
  rw [show 1 + 4 * 0x19 + 2 ^ 10 * d + 2 ^ 19 * a + 2 ^ 28 * g
      = 1 + 4 * 0x19 + 2 ^ 10 * d + 2 ^ 19 * a + 2 ^ 28 * g + 2 ^ 32 * (2 ^ 18 * 0) from rfl,
    decodeTableWord_ext (by decide) hd ha (by omega) (by decide) rfl, decodeRaw_named (i := .pcgetExt g d) rfl rfl rfl]
  exact if_congr (by change firstBad _ = none ∧ some _ = some _ ↔ _; simp; omega) rfl rfl

/-- `mpop` has the base form (R114). -/
theorem decodeTableWord_mpop {d a v : Nat} (hd : d < 512) (ha : a < 512) (hv : v < 16) :
    decodeTableWord 32 (4 * 0x17 + 2 ^ 10 * d + 2 ^ 19 * a + 2 ^ 28 * v)
      = if d < 64 ∧ a < 12 ∧ v = 0 then some (.mpop a d) else none := by
  rw [decodeTableWord_base (by decide) hd ha hv rfl]
  by_cases h0 : v = 0
  · subst h0
    rw [decodeRaw_named (i := .mpop a d) rfl rfl rfl]
    exact if_congr (by change firstBad _ = none ∧ some _ = some _ ↔ _; simp; omega) rfl rfl
  · rw [decodeRaw_unnamed (by exact if_neg h0), if_neg (by omega)]

/-- `mfind` in its base form (R114). -/
theorem decodeTableWord_mfind {d a v : Nat} (hd : d < 512) (ha : a < 512) (hv : v < 16) :
    decodeTableWord 32 (4 * 0x18 + 2 ^ 10 * d + 2 ^ 19 * a + 2 ^ 28 * v)
      = if d < 64 ∧ a < 12 ∧ v = 0 then some (.mfindLo a d) else if d < 64 ∧ a < 12 ∧ v = 1 then some (.mfindHi a d) else none := by
  rw [decodeTableWord_base (by decide) hd ha hv rfl]
  by_cases h0 : v = 0
  · subst h0
    rw [decodeRaw_named (i := .mfindLo a d) rfl rfl rfl]
    exact if_congr (by change firstBad _ = none ∧ some _ = some _ ↔ _; simp; omega) rfl (if_neg (by omega)).symm
  rw [if_neg (by omega)]
  by_cases h1 : v = 1
  · subst h1
    rw [decodeRaw_named (i := .mfindHi a d) rfl rfl rfl]
    exact if_congr (by change firstBad _ = none ∧ some _ = some _ ↔ _; simp; omega) rfl rfl
  · rw [decodeRaw_unnamed (by exact (if_neg h0).trans (if_neg h1)), if_neg (by omega)]

/-- `mfind` in its extended form (R114). -/
theorem decodeTableWord_mfindExt {d a g v : Nat} (hd : d < 512) (ha : a < 512) (hg : g < 16) (hv : v < 16) :
    decodeTableWord 96 (1 + 4 * 0x18 + 2 ^ 10 * d + 2 ^ 19 * a + 2 ^ 28 * g + 2 ^ 32 * (2 ^ 18 * v))
      = if d < 64 ∧ a < 12 ∧ g ≤ 12 ∧ v < 2 then some (.mfindExt g (v == 1) d a) else none := by
  rw [decodeTableWord_ext (by decide) hd ha hg hv rfl]
  by_cases h2 : v < 2
  · rw [decodeRaw_named (i := .mfindExt g (v == 1) d a) rfl rfl (by exact if_pos h2)]
    have hbit : (v == 1).toNat = v := by interval_cases v <;> rfl
    exact if_congr (by change firstBad _ = none ∧ some _ = some _ ↔ _; simp [hbit]; omega) rfl rfl
  · rw [decodeRaw_unnamed (by exact if_neg h2), if_neg (by omega)]

end Sys2Proof

namespace Sys2Proof.Machine

open Sys2Proof.Machine.Shape

/-- Settles O15: each transfer of the table runs the shared one, its targets those of the warp at issue. -/
theorem controlTransfersComplete : Obligations.ControlTransfersComplete := by
  intro i j s w hi hr hal
  obtain ⟨hexec, htarget⟩ := runsJump hi
  obtain ⟨w', hw⟩ := State.execTransfer_done hr (fun F c l => htarget c w F s l) hal
  exact ⟨_, w', hexec s, hw⟩

/-- Settles O9: the fields of its words, the discard of an illegal word, and the advance of `nop`. -/
theorem nopOnlyAdvances : Obligations.NopOnlyAdvances := by
  refine ⟨decodeTableWord_nop, fun w r hw hop hne x hx => hne (decodeWords_nop hw hop hx), fun s w ht => ?_, fun s w hr => ?_⟩
  · obtain ⟨t, w', p, hd, htrapped, -⟩ := (StartsAs.refl ht.cur).trapped ht { cls := .illegal }
    exact ⟨t, w', p, (exec_illegalEncoding ht.cur ht.lanes).trans (congrArg _ hd), htrapped⟩
  · obtain ⟨w', hw⟩ := State.issue_advances (fun _ _ => true) (fun c s => s.modWarp c.wid fun w => w.advance c.iss 4) hr rfl rfl
    exact ⟨_, w', rfl, hw⟩

/-- Settles O10: the fields of its words, and the pair that takes the address of the issue. -/
theorem pcgetTakesItsAddress : Obligations.PcgetTakesItsAddress := by
  refine ⟨fun d hd => ?_, fun d hd a ha ha0 => ?_, fun d hd g hg => ?_, fun d hd g hg a ha ha0 => ?_, fun i f g d s w hi hr => ?_⟩
  · simpa using decodeTableWord_pcget hd (a := 0) (by decide)
  · simpa [ha0] using decodeTableWord_pcget hd ha
  · simpa using decodeTableWord_pcgetExt hd (a := 0) (by decide) hg
  · simpa [ha0] using decodeTableWord_pcgetExt hd ha hg
  · obtain ⟨w', hw⟩ := State.vec_done (wide := true) (d := d) (fun c _ _ _ => c.here) (fun _ _ => true) rfl _ hr rfl
    rcases hi with ⟨rfl, rfl⟩ | ⟨rfl, rfl⟩ <;> exact ⟨_, w', rfl, hw⟩

/-! ### The reductions of a mask (R114) -/

theorem bitCount_eq_countP (n v : Nat) : Integer.bitCount n v = (List.range n).countP fun l => v.testBit l := by
  induction n generalizing v with
  | zero => rfl
  | succ n ih =>
    have hbit : v % 2 = if v.testBit 0 then 1 else 0 := by rw [Nat.testBit_zero]; rcases Nat.mod_two_eq_zero_or_one v with h | h <;> simp [h]
    rw [Integer.bitCount, ih, List.range_succ_eq_map, List.countP_cons, List.countP_map, hbit, Nat.add_comm]
    simp only [Function.comp_def, Nat.succ_eq_add_one, Nat.testBit_succ]

theorem lowBit_eq_find (n v : Nat) : ((List.range n).find? fun l => v.testBit l).getD n = Integer.lowBit n v := by
  induction n generalizing v with
  | zero => rfl
  | succ n ih =>
    rw [Integer.lowBit, ← ih, List.range_succ_eq_map, List.find?_cons, List.find?_map]
    simp only [Function.comp_def, Nat.succ_eq_add_one, Nat.testBit_succ, Nat.testBit_zero]
    by_cases h : v % 2 = 1
    · simp [h]
    · simp only [h, decide_false, if_false]
      cases (List.range n).find? fun l => (v / 2).testBit l <;> simp [Nat.add_comm]

/-- The first set bit from bit `n` downwards is the number's highest. -/
theorem find_down_eq_log2 {n v : Nat} (h0 : v ≠ 0) (hv : v < 2 ^ (n + 1)) :
    ((List.range (n + 1)).map (n - ·)).find? (fun l => v.testBit l) = some (Nat.log2 v) := by
  have hlog : Nat.log2 v < n + 1 := (Nat.log2_lt h0).mpr hv
  rw [List.find?_eq_some_iff_getElem]
  refine ⟨Nat.testBit_log2 h0, n - Nat.log2 v, by simp, by simp; omega, fun j hj => ?_⟩
  have : v.log2 < n - j := by omega
  simpa using Nat.testBit_eq_false_of_lt ((Nat.log2_lt h0).mp this)

theorem mfindVal_lo (m : Word) : mfindVal false m = BitVec.ofNat 64 (((List.range 32).find? fun l => m.toNat.testBit l).getD 32) := by
  rw [lowBit_eq_find]
  unfold mfindVal
  by_cases h : m = 0
  · subst h; rfl
  · rw [if_neg h]; rfl

theorem mfindVal_hi (m : Word) :
    mfindVal true m = BitVec.ofNat 64 ((((List.range 32).map (31 - ·)).find? fun l => m.toNat.testBit l).getD 32) := by
  unfold mfindVal
  by_cases h : m = 0
  · subst h; rfl
  · have h0 : m.toNat ≠ 0 := fun e => h (BitVec.eq_of_toNat_eq e)
    rw [if_neg h, if_pos rfl, find_down_eq_log2 h0 m.isLt]; rfl

theorem popc_eq (m : Word) :
    (Integer.popc m).setWidth 64 = BitVec.ofNat 64 ((List.range 32).countP fun l => m.toNat.testBit l) := by
  have hle : (List.range 32).countP (fun l => m.toNat.testBit l) ≤ 32 := List.countP_le_length
  rw [Integer.popc, bitCount_eq_countP]
  apply BitVec.eq_of_toNat_eq
  simp only [BitVec.toNat_setWidth, BitVec.toNat_ofNat]
  omega

theorem scalar_done {i : Instr} {f : Form} {d : Nat} {val : Warp → DWord} {s : State} {w : Warp} (h : scalar i = some (sca f d val))
    (hr : Ready f 0 s w) : ∃ t w', exec i s = .next t ∧ ScaDone f d (val w) s t w w' :=
  maskAndScalarInstructionsComplete.2 i _ s w h hr

/-- Settles O11: the fields of its words, and the tables' scalar instructions with the values of R114. -/
theorem maskReductionsComplete : Obligations.MaskReductionsComplete := by
  refine ⟨fun d hd a ha v hv => decodeTableWord_mpop hd ha hv,
    fun w r _ hop hl x hx => hl (decodeWords_baseOnly hop (by decide) hx),
    fun d hd a ha v hv => decodeTableWord_mfind hd ha hv, fun d hd a ha g hg v hv => decodeTableWord_mfindExt hd ha hg hv,
    fun i f g d a v s w hi hr => ?_⟩
  rcases hi with ⟨rfl, rfl, rfl⟩ | ⟨⟨rfl, rfl⟩ | ⟨rfl, rfl⟩, rfl⟩ | ⟨⟨rfl, rfl⟩ | ⟨rfl, rfl⟩, rfl⟩
  · rw [Option.getD_some, ← popc_eq]
    exact scalar_done (i := .mpop a d) (val := fun w => (Integer.popc (w.mr a)).setWidth 64) rfl hr
  · rw [← mfindVal_lo]
    exact scalar_done (i := .mfindLo a d) (val := fun w => mfindVal false (w.mr a)) rfl hr
  · rw [← mfindVal_lo]
    exact scalar_done (i := .mfindExt g false d a) (val := fun w => mfindVal false (w.mr a)) rfl hr
  · rw [← mfindVal_hi]
    exact scalar_done (i := .mfindHi a d) (val := fun w => mfindVal true (w.mr a)) rfl hr
  · rw [← mfindVal_hi]
    exact scalar_done (i := .mfindExt g true d a) (val := fun w => mfindVal true (w.mr a)) rfl hr

end Sys2Proof.Machine
end


section
/-!
PROOFS. Commit points that leave their instruction: `yield`, `rgn` and `exit`.
Settles O16 of spec/04_isa_control_integer.md.
-/

namespace Sys2Proof.Machine

/-! ### Waits at the end of an instruction -/

/-- Mask waits are looked at by the end of an instruction where the warp has any wait and is not suspended. -/
def Warp.woken (w : Warp) : Warp := if w.blocked.isEmpty || w.susp.isSome then w else w.wakeMasks

theorem Warp.finished_woken (w : Warp) (f : Form) (c : Ctx) (before : Warp) :
    (w.finished f c before).pcv = w.woken.pcv ∧ (w.finished f c before).blocked = w.woken.blocked := by
  unfold Warp.finished
  rw [← Warp.woken]
  generalize w.woken = v
  dsimp only
  split
  · split <;> exact ⟨rfl, rfl⟩
  · exact ⟨rfl, rfl⟩

theorem Warp.finished_unblocked {w : Warp} (h : w.blocked = []) (f : Form) (c : Ctx) (before : Warp) :
    (w.finished f c before).blocked = [] := by
  rw [(Warp.finished_woken w f c before).2, Warp.woken, if_pos (by simp [h]), h]

theorem laneIn_group_of_en {f : Form} {s : State} {w : Warp} {l : Nat} (h : laneIn (issueCtx f s w).en l = true) :
    laneIn w.group l = true := by
  simp only [issueCtx, laneIn_and, Bool.and_eq_true] at h
  exact h.1

/-! ### A commit point that leaves its instruction -/

/-- A COMMIT POINT WITH AN EFFECT ON ITS WARP ALONE, ready and clean: the warp it leaves, for the change `g` that its steps 4 and 5 make. -/
theorem State.commit_finished {s : State} {F : Form} {w : Warp} (B : Ctx → State → State) (g : Warp → Warp) (hr : Ready F 0 s w)
    (hc : CommitsEmpty s w) (he : (issueCtx F s w).en ≠ 0)
    (hB : ∀ t, t.ap = s.ap → t.clk s.cur = (s.begun F 0 w).clk s.cur → B (issueCtx F s w) t = t.modWarp s.cur g) :
    (s.issueSimple F fun c s => s.commitPoint c noCheck (B c)).warp? s.cur
        = some ((g ((w.atIssue F s).committed (issueCtx F s w))).finished F (issueCtx F s w) w) ∧
      OnlyWarp (w.price F) s (s.issueSimple F fun c s => s.commitPoint c noCheck (B c)) w := by
  have hap : ((s.begun F 0 w).modWarp s.cur fun v => v.committed (issueCtx F s w)).ap = s.ap :=
    (State.begun_only (f := F) (n := 0) (w := w) fun v => v.committed (issueCtx F s w)).ap
  have hbody : (s.begun F 0 w).commitPoint (issueCtx F s w) noCheck (B (issueCtx F s w))
      = (s.begun F 0 w).modWarp s.cur fun v => g (v.committed (issueCtx F s w)) := by
    rw [State.commitPoint_ready _ _ hr hc rfl, hB _ hap rfl, State.modWarp_modWarp]
  have h := State.issue_warp (fun _ _ => true) (fun _ _ => 0) (fun c s => s.commitPoint c noCheck (B c)) _ hr rfl rfl fun _ => hbody
  rwa [if_neg he, issueCost_zero] at h

/-- A change of a warp at the end of a commit point that moves no lane and ends no wait. -/
structure MovesNoLane (h : Warp → Warp) : Prop where
  keeps : ∀ v, KeepsCommit v (h v)
  pcv : ∀ v, (h v).pcv = v.pcv
  rev : ∀ v, (h v).rev = v.rev
  blocked : ∀ v, (h v).blocked = v.blocked
  exited : ∀ v, (h v).exited = v.exited

theorem KeepsCommit.left {u v : Warp} {c : Ctx} (h : KeepsCommit (u.left c) v) : KeepsCommit u v :=
  ⟨⟨h.regs.x, h.regs.k, h.regs.m⟩, h.rsb, h.rcount, h.rseq, h.rlimit, h.tcmp, h.timer, h.frec, h.tclass, h.susp, h.parked, h.faults⟩

/-- The end of a region that leaves its instruction: the effect `h` on the warp behind the instruction, and nothing else. -/
structure RegionLeft (F : Form) (h : Warp → Warp) (s t : State) (w w' : Warp) : Prop where
  warp : t.warp? s.cur = some w'
  only : OnlyWarp (w.price F) s t w
  committed : Committed F s w w'
  left : LeftBehind F s w w'
  exited : w'.exited = w.exited
  unblocked : w.blocked = [] → w'.blocked = []
  same : Warp.SameButPcs (h (((w.atIssue F s).committed (issueCtx F s w)).left (issueCtx F s w))) w'

theorem MovesNoLane.id : MovesNoLane fun v => v :=
  ⟨fun _ => ⟨⟨rfl, rfl, rfl⟩, rfl, rfl, rfl, rfl, rfl, rfl, rfl, rfl, rfl, rfl, rfl⟩, fun _ => rfl,
    fun _ => rfl, fun _ => rfl, fun _ => rfl⟩

/-- A commit point, ready and clean, whose steps 4 and 5 leave the instruction and then change `h` of the warp. -/
theorem State.commit_leaves {s : State} {F : Form} {w : Warp} (B : Ctx → State → State) (h : Ctx → Warp → Warp)
    (hh : ∀ c, MovesNoLane (h c)) (hr : Ready F 0 s w) (hc : CommitsEmpty s w) (he : (issueCtx F s w).en ≠ 0)
    (hB : ∀ t, t.ap = s.ap → B (issueCtx F s w) t = (t.leave (issueCtx F s w)).modWarp s.cur (h (issueCtx F s w))) :
    ∃ w', RegionLeft F (h (issueCtx F s w)) s (s.issueSimple F fun c s => s.commitPoint c noCheck (B c)) w w' := by
  have hn := hh (issueCtx F s w)
  obtain ⟨hw, ho⟩ := State.commit_finished B (fun v => h (issueCtx F s w) (v.left (issueCtx F s w))) hr hc he
    fun t ha _ => by rw [hB t ha, State.leave_eq]; exact State.modWarp_modWarp ..
  have hk := (hn.keeps (((w.atIssue F s).committed (issueCtx F s w)).left (issueCtx F s w))).left
  have hsame := Warp.finished_same (h (issueCtx F s w) (((w.atIssue F s).committed (issueCtx F s w)).left (issueCtx F s w))) F (issueCtx F s w) w
  have hb : (h (issueCtx F s w) (((w.atIssue F s).committed (issueCtx F s w)).left (issueCtx F s w))).blocked = w.blocked := by
    rw [hn.blocked, Warp.left_blocked, Warp.committed_blocked, Warp.atIssue_blocked]
  have hx := hsame.standing.exited
  rw [hn.exited, Warp.left_exited, Warp.committed_exited, Warp.atIssue_exited] at hx
  exact ⟨_, hw, ho, hk.committed hsame, LeftBehind.of_left (fun _ hl hu => Warp.finished_pc _ _ _ _ hl hu) (hn.pcv _) (hn.rev _)
    (blockedLanes_of_blocked hb), hx, fun hu => Warp.finished_unblocked (hb.trans hu) _ _ _, hsame⟩

/-! ### yield and rgn -/

/-- The enabled lanes are deferred, and no word is buffered for them (R105). -/
def Warp.deferring (en : Word) (w : Warp) : Warp := { w with deferred := w.deferred ||| en, opbuf := [] }

@[simp] theorem Warp.deferring_deferred (en : Word) (w : Warp) : (w.deferring en).deferred = w.deferred ||| en := rfl
@[simp] theorem Warp.deferring_budget (en : Word) (w : Warp) : (w.deferring en).budget = w.budget := rfl

theorem Warp.deferring_movesNoLane (en : Word) : MovesNoLane (Warp.deferring en) :=
  ⟨fun _ => ⟨⟨rfl, rfl, rfl⟩, rfl, rfl, rfl, rfl, rfl, rfl, rfl, rfl, rfl, rfl, rfl⟩, fun _ => rfl,
    fun _ => rfl, fun _ => rfl, fun _ => rfl⟩

theorem Warp.setBudget_movesNoLane (en : Word) (b : Nat) : MovesNoLane fun w => w.setBudget en b :=
  ⟨fun _ => ⟨⟨rfl, rfl, rfl⟩, rfl, rfl, rfl, rfl, rfl, rfl, rfl, rfl, rfl, rfl, rfl⟩, fun _ => rfl,
    fun _ => rfl, fun _ => rfl, fun _ => rfl⟩

theorem Warp.budgetOf_congr {w v : Warp} (h : v.budget = w.budget) (l : Nat) : v.budgetOf l = w.budgetOf l := by
  simp only [Warp.budgetOf, h]

/-- Behind a commit point the enabled lanes have the budget that every region begins with (R187). -/
theorem Warp.budgetOf_left_committed {w u : Warp} {F : Form} {s : State} (c : Ctx)
    (h : u.budget = (((w.atIssue F s).committed c).left c).budget) {l : Nat} (hl : l < 32) :
    u.budgetOf l = if laneIn c.en l then 32 else w.budgetOf l := by
  have := Warp.budgetOf_committed (w.atIssue F s) c hl
  simpa only [Warp.budgetOf, h, Warp.left_budget, Warp.atIssue_budget] using this

theorem execYield_leaves {s : State} {w : Warp} {f : Form} (hf : f = { bForm 2 with yields := true }) (hc : CommitsEmpty s w)
    (hr : Ready f 0 s w) (he : (issueCtx f s w).en ≠ 0) :
    ∃ t w', exec .yield s = .next t ∧ RegionLeft f (Warp.deferring (issueCtx f s w).en) s t w w' := by
  subst hf
  obtain ⟨w', h⟩ := State.commit_leaves (fun c s => (s.leave c).modWarp c.wid (Warp.deferring c.en))
    (fun c => Warp.deferring c.en) (fun _ => Warp.deferring_movesNoLane _) hr hc he fun _ _ => rfl
  exact ⟨_, w', rfl, h⟩

theorem execRgn_leaves {s : State} {w : Warp} {f : Form} {g b : Nat} (hf : f = eForm g 2) (hc : CommitsEmpty s w)
    (hr : Ready f 0 s w) (he : (issueCtx f s w).en ≠ 0) :
    ∃ t w', exec (.rgn g b) s = .next t ∧ RegionLeft f (fun v => v.setBudget (issueCtx f s w).en b) s t w w' := by
  subst hf
  obtain ⟨w', h⟩ := State.commit_leaves (fun c s => (s.leave c).modWarp c.wid fun w => w.setBudget c.en b)
    (fun c v => v.setBudget c.en b) (fun _ => Warp.setBudget_movesNoLane _ _) hr hc he fun _ _ => rfl
  exact ⟨_, w', rfl, h⟩

/-- What the first clause of the obligation says of a region's end. -/
theorem yield_or_rgn_ends {i : Instr} {f : Form} {s : State} {w : Warp} {g b : Nat}
    (hi : (i = .yield ∧ f = { bForm 2 with yields := true }) ∨ (i = .rgn g b ∧ f = eForm g 2)) (hc : CommitsEmpty s w)
    (hr : Ready f 0 s w) (he : (issueCtx f s w).en ≠ 0) :
    ∃ t w' h, exec i s = .next t ∧ RegionLeft f h s t w w' ∧ w'.deferred = (if i = .yield then (issueCtx f s w).en else 0) ∧
      ∀ l < 32, w'.budgetOf l = if laneIn (issueCtx f s w).en l then (if i = .yield then 32 else b) else w.budgetOf l := by
  rcases hi with ⟨rfl, hf⟩ | ⟨rfl, hf⟩
  · obtain ⟨t, w', ht, h⟩ := execYield_leaves hf hc hr he
    refine ⟨t, w', _, ht, h, ?_, fun l hl => ?_⟩
    · have hd := h.same.deferred
      simpa using hd
    · have hb := h.same.budget
      rw [Warp.deferring_budget] at hb
      simpa using Warp.budgetOf_left_committed _ hb hl
  · obtain ⟨t, w', ht, h⟩ := execRgn_leaves hf hc hr he
    refine ⟨t, w', _, ht, h, ?_, fun l hl => ?_⟩
    · have hd := h.same.deferred
      simpa using hd
    · have hb := Warp.budgetOf_congr h.same.budget l
      rw [Warp.budgetOf_setBudget _ _ _ hl, Warp.budgetOf_left_committed _ rfl hl] at hb
      simp only [hb, reduceCtorEq, if_false]
      split <;> rfl

/-! ### exit -/

/-- The retirement that is due where a warp has exited on a compute core (R102, R257). -/
def Warp.retirement (w : Warp) (wid : Nat) : List Pending :=
  if w.exited = 0xFFFFFFFF ∧ isService (coreOf wid) = false then [.event (.warpRetire wid)] else []

theorem State.retireSoon_eq {s : State} {wid : Nat} {w : Warp} (h : s.warp? wid = some w) : s.retireSoon wid = s.soon (w.retirement wid) := by
  simp only [State.retireSoon, State.withWarp, h, Warp.retirement, Bool.and_eq_true, decide_eq_true_eq, Bool.not_eq_true']
  split <;> rfl

/-- The warp whose enabled lanes exit; its other issuing lanes pass the instruction (R102). -/
def Warp.exits (w : Warp) (c : Ctx) : Warp :=
  Warp.advance { w with exited := w.exited ||| c.en, stage := none } (c.iss &&& ~~~c.en) c.len

@[simp] theorem Warp.exits_exited (w : Warp) (c : Ctx) : (w.exits c).exited = w.exited ||| c.en := rfl
@[simp] theorem Warp.exits_blocked (w : Warp) (c : Ctx) : (w.exits c).blocked = w.blocked := rfl

theorem Warp.keepsCommit_exits (w : Warp) (c : Ctx) : KeepsCommit w (w.exits c) :=
  ⟨⟨rfl, rfl, rfl⟩, rfl, rfl, rfl, rfl, rfl, rfl, rfl, rfl, rfl, rfl, rfl⟩

theorem Warp.pc_exits (w : Warp) (c : Ctx) {l : Nat} (hl : l < 32) :
    (w.exits c).pc l = if laneIn c.iss l && !laneIn c.en l then w.pc l + BitVec.ofNat 64 c.len else w.pc l := by
  have h := Warp.pc_advance { w with exited := w.exited ||| c.en, stage := none } (c.iss &&& ~~~c.en) c.len hl
  rw [laneIn_and, laneIn_not hl] at h
  exact h

theorem Ctx.exitLanes_eq {s : State} {c : Ctx} {w : Warp} (h : s.warp? c.wid = some w) :
    c.exitLanes s = (s.modWarp c.wid fun w => w.exits c).soon ((w.exits c).retirement c.wid) := by
  have e : ((s.modWarp c.wid fun w => { w with exited := w.exited ||| c.en, stage := none }).passOthers c) = s.modWarp c.wid fun w => w.exits c :=
    State.modWarp_modWarp ..
  rw [Ctx.exitLanes, e, State.retireSoon_eq (w := w.exits c)]
  rw [State.warp?_modWarp_self, h]; rfl

/-- The exit of the enabled lanes without the retirement that may follow it. -/
def State.exitForm (s : State) (f : Form) : State :=
  s.issueSimple f fun c s => s.commitPoint c noCheck fun s => s.modWarp c.wid fun w => w.exits c

/-- The exit is a change of its warp alone, behind which the warp's retirement stands where it is due. -/
theorem State.execExitForm_eq {s : State} {w : Warp} {f : Form} (hf : f.yields = true) (hr : Ready f 0 s w) (hc : CommitsEmpty s w)
    (he : (issueCtx f s w).en ≠ 0) :
    s.execExitForm f = (s.exitForm f).soon ((((w.atIssue f s).committed (issueCtx f s w)).exits (issueCtx f s w)).retirement s.cur) := by
  have hw : ((s.begun f 0 w).modWarp s.cur fun v => v.committed (issueCtx f s w)).warp? (issueCtx f s w).wid
      = some ((w.atIssue f s).committed (issueCtx f s w)) := by
    have h := State.begun_warp (n := 0) (f := f) hr.cur
    exact (State.warp?_modWarp_self ..).trans (by rw [h]; rfl)
  have hy : ({ f with yields := true } : Form) = f := by rw [← hf]
  unfold State.execExitForm State.exitForm State.issueSimple
  rw [hy, State.issue_ready _ _ _ hr rfl rfl, if_neg he, State.commitPoint_ready _ _ hr hc rfl, Ctx.exitLanes_eq hw,
    State.issue_ready _ _ _ hr rfl rfl, if_neg he, State.commitPoint_ready _ _ hr hc rfl]
  rfl

/-- What is said of an exit: the warp `w'` it leaves, and the machine with what it then has to do. -/
theorem State.exitForm_exits {s : State} {w : Warp} {f : Form} (hr : Ready f 0 s w) (hc : CommitsEmpty s w)
    (he : (issueCtx f s w).en ≠ 0) :
    ∃ w', (s.exitForm f).warp? s.cur = some w' ∧ OnlyWarp (w.price f) s (s.exitForm f) w ∧ Committed f s w w' ∧
      w'.exited = w.exited ||| (issueCtx f s w).en ∧
      ∀ l, laneIn w.group l = true → w'.pc l = if laneIn (issueCtx f s w).en l then w.pc l else w.pc l + BitVec.ofNat 64 f.len := by
  obtain ⟨w', hw, ho, hcm, hsame, hpc⟩ := State.commit_warp (n := 0) (fun _ _ => true) (fun _ _ => 0) (fun _ => noCheck)
    (fun c s => s.modWarp c.wid fun w => w.exits c) (fun v => v.exits (issueCtx f s w)) hr rfl rfl hc he rfl rfl
    (Warp.keepsCommit_exits _ _)
  rw [issueCost_zero] at ho
  have hx := hsame.standing.exited
  rw [Warp.exits_exited, Warp.committed_exited, Warp.atIssue_exited] at hx
  refine ⟨w', hw, ho, hcm, hx, fun l hg => ?_⟩
  have hl := laneIn_lt hg
  have hb : (((w.atIssue f s).committed (issueCtx f s w)).exits (issueCtx f s w)).blocked = w.blocked := by simp
  have hp := (hpc l hl (by rw [blockedLanes_of_blocked hb]; exact Warp.group_unblocked hg)).1
  have hu : ((w.atIssue f s).committed (issueCtx f s w)).pc l = w.pc l := by simp [Warp.pc]
  have hi : laneIn (issueCtx f s w).iss l = true := hg
  rw [hp, Warp.pc_exits _ _ hl, hu, hi]
  cases laneIn (issueCtx f s w).en l <;> rfl

theorem exec_exit {i : Instr} {f : Form} {s : State} {g : Nat}
    (hi : (i = .exit ∧ f = { bForm 2 with yields := true }) ∨ (i = .exitExt g ∧ f = { eForm g 2 with yields := true })) :
    f.yields = true ∧ exec i s = .next (s.execExitForm f) := by
  rcases hi with ⟨rfl, rfl⟩ | ⟨rfl, rfl⟩ <;> exact ⟨rfl, rfl⟩

/-- Settles O16: a region's end is a commit point that is clean, with one change of the warp at its steps 4 and 5. -/
theorem regionEndsComplete : Obligations.RegionEndsComplete := by
  refine ⟨fun i f s w g b hi hc hr he => ?_, fun i f s w g hi hc hr he => ?_⟩
  · obtain ⟨t, w', h, ht, hl, hd, hb⟩ := yield_or_rgn_ends hi hc hr he
    exact ⟨t, w', ht, hl.warp, hl.only, hl.committed, hl.left, hl.exited, hd, hb⟩
  · obtain ⟨hy, ht⟩ := exec_exit (s := s) hi
    obtain ⟨w', hw, ho, hcm, hx, hpc⟩ := State.exitForm_exits hr hc he
    rw [State.execExitForm_eq hy hr hc he] at ht
    refine ⟨_, w', ht, hw, hcm, hx, ?_, ?_, ho.mem, ho.ap, ho.blocks, ho.dies, ho.grids, ho.warps, ?_⟩
    · intro l hl
      rw [hpc l (laneIn_group_of_en hl), if_pos hl]
    · intro l hg hn
      rw [hpc l hg, hn]; rfl
    · rw [State.soon_agenda, ho.agenda, Warp.retirement, Warp.exits_exited, Warp.committed_exited, Warp.atIssue_exited, hx]
      split <;> rfl

end Sys2Proof.Machine
end


section
/-!
PROOFS. Waits at an instruction: `wait` and `halt`.
Settles O28 of spec/04_isa_control_integer.md.
-/

namespace Sys2Proof.Machine

/-! ### Waits at the end of an instruction -/

/-- A warp with an issuing group is not suspended (R242). -/
theorem Warp.susp_of_group {w : Warp} (h : w.group ≠ 0) : w.susp = none := by
  by_contra hs
  refine h (eq_zero_of_no_lane fun l _ => ?_)
  by_contra hl
  have hsel := Warp.group_sub (Bool.not_eq_false _ ▸ hl : laneIn w.group l = true)
  rw [Warp.selectable, if_pos (by simp [Option.isSome_iff_ne_none.2 hs])] at hsel
  simp at hsel

/-- Whether a wait ends with its condition: a mask wait whose other lanes have exited or stand there (R104). -/
def Warp.waitEnds (w : Warp) (b : Blocked) : Bool := match b.what with | .mask m => w.waitDone m b.here | _ => false

/-- The warp with other waits. -/
def Warp.withWaits (w : Warp) (bs : List Blocked) : Warp := { w with blocked := bs }

theorem Warp.withWaits_same {w : Warp} {bs : List Blocked} (h : w.blocked = bs) : w.withWaits bs = w := by subst h; rfl
@[simp] theorem Warp.withWaits_blocked (w : Warp) (bs : List Blocked) : (w.withWaits bs).blocked = bs := rfl
@[simp] theorem Warp.withWaits_pcv (w : Warp) (bs : List Blocked) : (w.withWaits bs).pcv = w.pcv := rfl

/-- The waits that end release their lanes behind their instructions, and the others stand (R104). -/
theorem Warp.wakeMasks_eq (w : Warp) :
    w.wakeMasks = ((w.blocked.filter w.waitEnds).foldl (fun v b => v.release b.lanes (b.here + BitVec.ofNat 64 b.len)) w).withWaits
      (w.blocked.filter fun b => !w.waitEnds b) := by
  have hn : (fun b : Blocked => !w.waitEnds b) = fun b => match b.what with | .mask m => !w.waitDone m b.here | _ => true := by
    funext b; unfold Warp.waitEnds; split <;> rfl
  rw [hn]; rfl

/-- The warp after the end of its one wait: the lanes stand behind the instruction. -/
def Warp.passing (w : Warp) (b : Blocked) : Warp := (w.release b.lanes (b.here + BitVec.ofNat 64 b.len)).withWaits []

theorem Warp.pc_passing (w : Warp) (b : Blocked) {l : Nat} (hl : l < 32) :
    (w.passing b).pc l = if laneIn b.lanes l then b.here + BitVec.ofNat 64 b.len else w.pc l :=
  Warp.pc_setPc w b.lanes (fun _ => b.here + BitVec.ofNat 64 b.len) hl

theorem Warp.woken_single {w : Warp} {b : Blocked} (h : w.blocked = [b]) (hs : w.susp = none) :
    w.woken = if w.waitEnds b then w.passing b else w := by
  rw [Warp.woken, if_neg (by simp [h, hs]), Warp.wakeMasks_eq, h]
  cases he : w.waitEnds b
  · simpa [he] using Warp.withWaits_same h
  · simp [he, Warp.passing]

/-- With one wait, on a mask, at an instruction: it ends where every lane of the mask has exited or is one that waits (R104). -/
theorem Warp.waitEnds_mask {w : Warp} {b : Blocked} {m : Nat} (h : w.blocked = [b]) (hb : b.what = .mask m) :
    w.waitEnds b = decide (w.mr m &&& ~~~(w.exited ||| b.lanes) = 0) := by
  simp [Warp.waitEnds, hb, Warp.waitDone, h]

/-! ### Lanes that block at their instruction -/

/-- The warp whose enabled lanes wait as `b` says; its other issuing lanes pass the instruction (R94, R104). -/
def Warp.waits (w : Warp) (c : Ctx) (b : Blocked) : Warp :=
  Warp.advance { w with blocked := w.blocked ++ [b], stage := none } (c.iss &&& ~~~c.en) c.len

theorem State.blockAll_eq (s : State) (c : Ctx) (what : Wait) :
    s.blockAll c what = s.modWarp c.wid fun w => w.waits c (s.blockOf c c.en what) := State.modWarp_modWarp ..

@[simp] theorem Warp.waits_blocked (w : Warp) (c : Ctx) (b : Blocked) : (w.waits c b).blocked = w.blocked ++ [b] := rfl
@[simp] theorem Warp.waits_susp (w : Warp) (c : Ctx) (b : Blocked) : (w.waits c b).susp = w.susp := rfl
@[simp] theorem Warp.waits_exited (w : Warp) (c : Ctx) (b : Blocked) : (w.waits c b).exited = w.exited := rfl
@[simp] theorem Warp.waits_m (w : Warp) (c : Ctx) (b : Blocked) : (w.waits c b).m = w.m := rfl

theorem Warp.keepsCommit_waits (w : Warp) (c : Ctx) (b : Blocked) : KeepsCommit w (w.waits c b) :=
  ⟨⟨rfl, rfl, rfl⟩, rfl, rfl, rfl, rfl, rfl, rfl, rfl, rfl, rfl, rfl, rfl⟩

theorem Warp.pc_waits (w : Warp) (c : Ctx) (b : Blocked) {l : Nat} (hl : l < 32) :
    (w.waits c b).pc l = if laneIn c.iss l && !laneIn c.en l then w.pc l + BitVec.ofNat 64 c.len else w.pc l := by
  have h := Warp.pc_advance { w with blocked := w.blocked ++ [b], stage := none } (c.iss &&& ~~~c.en) c.len hl
  rw [laneIn_and, laneIn_not hl] at h
  exact h

/-- A warp with no waits that, after its clean commit, waits as `b` says. -/
def Warp.waiting (w : Warp) (f : Form) (s : State) (b : Blocked) : Warp :=
  ((w.atIssue f s).committed (issueCtx f s w)).waits (issueCtx f s w) b

theorem Warp.waiting_blocked {w : Warp} (h : w.blocked = []) (f : Form) (s : State) (b : Blocked) : (w.waiting f s b).blocked = [b] := by
  simp [Warp.waiting, h]

@[simp] theorem Warp.waiting_susp (w : Warp) (f : Form) (s : State) (b : Blocked) : (w.waiting f s b).susp = w.susp := by
  simp [Warp.waiting]
@[simp] theorem Warp.waiting_exited (w : Warp) (f : Form) (s : State) (b : Blocked) : (w.waiting f s b).exited = w.exited := by
  simp [Warp.waiting]
@[simp] theorem Warp.waiting_mr (w : Warp) (f : Form) (s : State) (b : Blocked) (n : Nat) : (w.waiting f s b).mr n = w.mr n := by
  simp [Warp.waiting, Warp.mr]

theorem Warp.waiting_pc (w : Warp) (f : Form) (s : State) (b : Blocked) {l : Nat} (hl : laneIn w.group l = true) :
    (w.waiting f s b).pc l = if laneIn (issueCtx f s w).en l then w.pc l else w.pc l + BitVec.ofNat 64 f.len := by
  have hu : ((w.atIssue f s).committed (issueCtx f s w)).pc l = w.pc l := by simp [Warp.pc]
  have hi : laneIn (issueCtx f s w).iss l = true := hl
  rw [Warp.waiting, Warp.pc_waits _ _ _ (laneIn_lt hl), hi, hu]
  cases laneIn (issueCtx f s w).en l <;> rfl

/-- What is said of an instruction at which its enabled lanes block: where its warp stands before the end of the instruction. -/
structure Blocks (f : Form) (what : Wait) (s t : State) (w w' : Warp) (b : Blocked) : Prop where
  warp : t.warp? s.cur = some w'
  only : OnlyWarp (w.price f) s t w
  regs : SameRegs w w'
  rcount : w'.rcount = 0
  pcv : w'.pcv = (w.waiting f s b).woken.pcv
  blocked : w'.blocked = (w.waiting f s b).woken.blocked
  lanes : b.lanes = (issueCtx f s w).en
  here : b.here = (issueCtx f s w).here
  len : b.len = f.len
  what : b.what = what

/-- A commit point, ready and clean, at which the enabled lanes block. -/
theorem State.commit_blocks {s : State} {f : Form} {w : Warp} {what : Wait} (B : Ctx → State → State) (hr : Ready f 0 s w)
    (hc : CommitsEmpty s w) (he : (issueCtx f s w).en ≠ 0)
    (hB : ∀ t, t.ap = s.ap → B (issueCtx f s w) t = t.blockAll (issueCtx f s w) what) :
    ∃ w' b, Blocks f what s (s.issueSimple f fun c s => s.commitPoint c noCheck (B c)) w w' b := by
  obtain ⟨b, hb⟩ : ∃ b, b = (s.begun f 0 w).blockOf (issueCtx f s w) (issueCtx f s w).en what := ⟨_, rfl⟩
  have hbody : ∀ t, t.ap = s.ap → t.clk s.cur = (s.begun f 0 w).clk s.cur →
      B (issueCtx f s w) t = t.modWarp s.cur fun v => v.waits (issueCtx f s w) b := by
    intro t ha hk
    have hwid : (issueCtx f s w).wid = s.cur := rfl
    rw [hB t ha, State.blockAll_eq, hb, State.blockOf, State.blockOf, hwid, hk]
  obtain ⟨hw, ho⟩ := State.commit_finished B (fun v => v.waits (issueCtx f s w) b) hr hc he hbody
  have hk := Warp.keepsCommit_waits ((w.atIssue f s).committed (issueCtx f s w)) (issueCtx f s w) b
  have hcm := hk.committed (Warp.finished_same _ f (issueCtx f s w) w)
  obtain ⟨hp, hq⟩ := Warp.finished_woken (w.waiting f s b) f (issueCtx f s w) w
  subst hb
  exact ⟨_, _, hw, ho, hcm.regs, hcm.rcount, hp, hq, rfl, rfl, rfl, rfl⟩

/-- The lanes of a wait that stands, and the issuing lanes it leaves out. -/
theorem Blocks.stands {f : Form} {what : Wait} {s t : State} {w w' : Warp} {b : Blocked} (h : Blocks f what s t w w' b)
    (hw : (w.waiting f s b).woken = w.waiting f s b) {l : Nat} (hl : laneIn w.group l = true) :
    w'.pc l = if laneIn (issueCtx f s w).en l then w.pc l else w.pc l + BitVec.ofNat 64 f.len := by
  rw [← Warp.waiting_pc w f s b hl, Warp.pc, h.pcv, hw, Warp.pc]

/-- The lanes of a wait that ends at once go on behind the instruction. -/
theorem Blocks.passes {f : Form} {what : Wait} {s t : State} {w w' : Warp} {b : Blocked} (h : Blocks f what s t w w' b)
    (hw : (w.waiting f s b).woken = (w.waiting f s b).passing b) {l : Nat} (hl : laneIn w.group l = true) :
    w'.pc l = if laneIn (issueCtx f s w).en l then (issueCtx f s w).next else w.pc l + BitVec.ofNat 64 f.len := by
  have hp : w'.pc l = ((w.waiting f s b).passing b).pc l := by rw [Warp.pc, h.pcv, hw, Warp.pc]
  rw [hp, Warp.pc_passing _ _ (laneIn_lt hl), Warp.waiting_pc w f s b hl, h.lanes, h.here, h.len]
  cases laneIn (issueCtx f s w).en l <;> rfl

/-! ### wait -/

theorem exec_wait {i : Instr} {f : Form} {a g : Nat} {s : State} (h : (i = .wait a ∧ f = bForm 2) ∨ (i = .waitExt g a ∧ f = eForm g 2)) :
    exec i s = .next (s.execWaitForm f a) := by
  rcases h with ⟨rfl, rfl⟩ | ⟨rfl, rfl⟩ <;> rfl

/-! ### halt -/

/-- The door of the core that halts. -/
def haltDoor (s : State) : Nat := s.ap! (offDoor (svcOf (coreOf s.cur)))

/-- `halt` with its door at rest: its lanes block. -/
theorem execHalt_blocks {f : Form} {s : State} {w : Warp} (hf : f = { bForm 2 with level := .s }) (hr : Ready f 0 s w) (hc : CommitsEmpty s w)
    (he : (issueCtx f s w).en ≠ 0) (hd : haltDoor s = 0) : ∃ t w' b, exec .halt s = .next t ∧ Blocks f .halt s t w w' b := by
  subst hf
  obtain ⟨w', b, h⟩ := State.commit_blocks (what := .halt)
    (fun c s => if s.ap! (offDoor (svcOf c.core)) = 0 then s.blockAll c .halt else s.leave c) hr hc he
    fun t ha => if_pos ((State.ap!_of_ap ha _).trans hd)
  exact ⟨_, w', b, rfl, h⟩

theorem State.leave_unchanged (t : State) (c : Ctx) : (t.leave c).modWarp c.wid id = t.leave c := by
  rw [State.leave_eq, State.modWarp_modWarp]
  rfl

/-- `halt` with its door rung: its lanes leave it. -/
theorem execHalt_leaves {f : Form} {s : State} {w : Warp} (hf : f = { bForm 2 with level := .s }) (hr : Ready f 0 s w) (hc : CommitsEmpty s w)
    (he : (issueCtx f s w).en ≠ 0) (hd : haltDoor s ≠ 0) : ∃ t w', exec .halt s = .next t ∧ RegionLeft f id s t w w' := by
  subst hf
  obtain ⟨w', h⟩ := State.commit_leaves (fun c s => if s.ap! (offDoor (svcOf c.core)) = 0 then s.blockAll c .halt else s.leave c)
    (fun _ => id) (fun _ => MovesNoLane.id) hr hc he fun t ha =>
      (if_neg fun h0 => hd ((State.ap!_of_ap ha _).symm.trans h0)).trans (State.leave_unchanged t _).symm
  exact ⟨_, w', rfl, h⟩

/-- Settles O28: the enabled lanes block after a clean commit, and the end of the instruction releases a wait whose condition holds. -/
theorem waitAndHaltComplete : Obligations.WaitAndHaltComplete := by
  refine ⟨fun i f a g s w hi hc hr he hn => ?_, fun f s w hf hc hr he hn => ?_⟩
  · obtain ⟨w', b, h⟩ := State.commit_blocks (what := .mask a) (fun c s => s.blockAll c (.mask a)) hr hc he fun _ _ => rfl
    have hb := Warp.waiting_blocked hn f s b
    have hwoken := Warp.woken_single hb ((Warp.waiting_susp ..).trans (Warp.susp_of_group hr.lanes))
    rw [Warp.waitEnds_mask hb h.what, Warp.waiting_mr, Warp.waiting_exited, h.lanes] at hwoken
    refine ⟨_, w', exec_wait hi, h.warp, h.only, h.regs, h.rcount, ?_⟩
    by_cases hd : w.mr a &&& ~~~(w.exited ||| (issueCtx f s w).en) = 0
    · rw [if_pos (decide_eq_true hd)] at hwoken
      rw [if_pos hd]
      exact ⟨fun l hl hne => by rw [h.passes hwoken hl, hne]; rfl, by rw [h.blocked, hwoken]; rfl,
        fun l hl => by rw [h.passes hwoken (laneIn_group_of_en hl), if_pos hl]⟩
    · rw [if_neg (by simpa using hd)] at hwoken
      rw [if_neg hd]
      exact ⟨fun l hl hne => by rw [h.stands hwoken hl, hne]; rfl, ⟨b, by rw [h.blocked, hwoken, hb], h.lanes, h.here, h.len, h.what⟩,
        fun l hl => by rw [h.stands hwoken (laneIn_group_of_en hl), if_pos hl]⟩
  · by_cases hd : haltDoor s = 0
    · obtain ⟨t, w', b, ht, h⟩ := execHalt_blocks hf hr hc he hd
      have hb := Warp.waiting_blocked hn f s b
      have hwoken := Warp.woken_single hb ((Warp.waiting_susp ..).trans (Warp.susp_of_group hr.lanes))
      rw [Warp.waitEnds, h.what, if_neg Bool.false_ne_true] at hwoken
      refine ⟨t, w', ht, h.warp, h.only, h.regs, ?_⟩
      rw [haltDoor] at hd
      rw [if_pos hd]
      exact ⟨⟨b, by rw [h.blocked, hwoken, hb], h.lanes, h.here, h.what⟩,
        fun l hl => by rw [h.stands hwoken (laneIn_group_of_en hl), if_pos hl]⟩
    · obtain ⟨t, w', ht, h⟩ := execHalt_leaves hf hr hc he hd
      refine ⟨t, w', ht, h.warp, h.only, h.committed.regs, ?_⟩
      rw [haltDoor] at hd
      rw [if_neg hd]
      exact ⟨h.unblocked hn, h.left⟩

end Sys2Proof.Machine
end


section
/-!
PROOFS. The restart of a served warp whose record's line a peer holds.
Settles O27 of spec/04_isa_control_integer.md.
-/

namespace Sys2Proof.Machine

/-- The form of `resume`. -/
abbrev resumeForm : Form := { bForm 2 with level := .p }

/-! ### A record whose line is lent -/

theorem State.foldl_send_warps (ls : List Lease) (line : Lease → Msg) (s : State) :
    (ls.foldl (fun s l => s.send (line l)) s).warps = s.warps := by
  induction ls generalizing s with
  | nil => rfl
  | cons l r ih => rw [List.foldl_cons, ih, State.send_warps]

theorem State.askBack_warps (s : State) (lines : List Nat) : (s.askBack lines).warps = s.warps :=
  State.foldl_send_warps (s.mem.leases.filter fun l => lines.contains l.line && l.dev.isSome && !l.recalled) _ s

/-- Lines that are not home are asked back, and the access waits for them (R282). -/
theorem State.whenHome_lent {s : State} {c : Ctx} {st : Stage} {lines : List Nat} (go : State → State) (h : lines.any s.leasedOut = true) :
    s.whenHome c st lines go = (s.askBack lines).modWarp c.wid fun w => w.awaits st := if_pos h

/-- The warp that a handler serves is found by its block and that warp. -/
theorem State.servedBy_of {s t : State} {w v : Warp} {rec_ : DWord} {target : Nat} (h : s.servedBy w rec_ = some target)
    (hb : t.blocks = s.blocks) (hblk : v.blk = w.blk) (hw : t.warp? target = s.warp? target) : t.servedBy v rec_ = some target := by
  unfold State.servedBy State.block? at h ⊢
  rw [hb, hblk]
  cases hbk : Tab.look s.blocks w.blk with
  | none => rw [hbk] at h; nomatch h
  | some b =>
    rw [hbk] at h
    dsimp only at h ⊢
    cases hs : b.suspect with
    | none => rw [hs] at h; nomatch h
    | some k =>
      rw [hs] at h
      dsimp only at h ⊢
      have hk : k = target := by
        cases hu : s.warp? k with
        | none => rw [hu] at h; nomatch h
        | some u =>
          rw [hu] at h
          dsimp only at h
          split at h
          · split at h
            · exact Option.some.inj h
            · nomatch h
          · nomatch h
      rw [hk, hw]
      rwa [hk] at h

theorem LooksAlike.keysOf {s t : State} (h : LooksAlike s t) (core ctx : Nat) (a : Acc) (va : DWord) (n : Nat) :
    t.keysOf core ctx a va n = s.keysOf core ctx a va n := by
  unfold State.keysOf State.upsetTrap
  simp only [h.place, h.mem]

theorem tryAll_mem {ε α β : Type} {f : α → Except ε β} :
    ∀ {xs : List α} {ys : List β}, tryAll f xs = .ok ys → ∀ x ∈ xs, ∃ y ∈ ys, f x = .ok y
  | x :: xs, ys, h, z, hz => by
    rw [tryAll] at h
    cases hx : f x with
    | error e => rw [hx] at h; nomatch h
    | ok y =>
      cases hr : tryAll f xs with
      | error e => simp only [hx, hr] at h; nomatch h
      | ok r =>
        simp only [hx, hr] at h
        cases h
        rcases List.mem_cons.1 hz with rfl | hz
        · exact ⟨y, List.mem_cons_self, hx⟩
        · obtain ⟨u, hu, hfu⟩ := tryAll_mem hr z hz
          exact ⟨u, List.mem_cons_of_mem _ hu, hfu⟩

/-- The first byte of a read has its key among those of the read. -/
theorem State.keysOf_first {s : State} {core ctx n key : Nat} {va : DWord} {ks : List Nat} (h : s.keysOf core ctx .read va (n + 1) = .ok ks)
    (hp : s.place core ctx true .read va = .ok key) : key ∈ ks := by
  obtain ⟨k, hk, hf⟩ := tryAll_mem h 0 (List.mem_range.2 (Nat.succ_pos n))
  rw [show va + BitVec.ofNat 64 0 = va from BitVec.add_zero va, hp] at hf
  dsimp only at hf
  split at hf
  · nomatch hf
  · cases hf; exact hk

theorem State.keysOf_of_readBytes {s : State} {core ctx n : Nat} {va : DWord} {bytes : List Byte} (h : s.readBytes core ctx va n = .ok bytes) :
    ∃ ks, s.keysOf core ctx .read va n = .ok ks := by
  unfold State.readBytes at h
  split at h
  · nomatch h
  · next ks hk => exact ⟨ks, hk⟩

theorem mem_distinct {n : Nat} {l : List Nat} : n ∈ distinct l ↔ n ∈ l := by
  have key : ∀ l acc : List Nat, n ∈ l.foldl (fun acc n => if acc.contains n then acc else acc ++ [n]) acc ↔ n ∈ acc ∨ n ∈ l := by
    intro l
    induction l with
    | nil => simp
    | cons m r ih =>
      intro acc
      rw [List.foldl_cons, ih]
      by_cases hm : m ∈ acc
      · rw [if_pos (by simpa using hm), List.mem_cons]
        exact ⟨Or.imp_right .inr, fun h => h.elim .inl fun h => h.elim (fun h => .inl (h ▸ hm)) .inr⟩
      · rw [if_neg (by simpa using hm), List.mem_append, List.mem_singleton, List.mem_cons, or_assoc]
  exact (key l []).trans (by simp)

/-- WHILE A PEER HOLDS THE FIRST LINE OF THE RECORD, `resume` asks it back and waits: every other warp, the served one too, is as it was. -/
theorem execResume_lent {s : State} {w : Warp} {a target key : Nat} {bytes : List Byte} (hr : Ready resumeForm 0 s w) (hc : CommitsEmpty s w)
    (he : (issueCtx resumeForm s w).en ≠ 0) (hal : (w.kr a).toNat % 64 = 0) (hs : s.servedBy w (w.kr a) = some target)
    (hne : target ≠ s.cur) (hb : s.readBytes (coreOf s.cur) w.ctx (w.kr a) 448 = .ok bytes)
    (hp : s.place (coreOf s.cur) w.ctx true .read (w.kr a) = .ok key) (hl : s.leasedOut (lineOf key) = true) :
    ∃ t, exec (.resume a) s = .next t ∧ OtherWarps s t := by
  obtain ⟨ks, hk⟩ := State.keysOf_of_readBytes hb
  have hany : (distinct (ks.map lineOf)).any s.leasedOut = true :=
    List.any_eq_true.2 ⟨_, mem_distinct.2 (List.mem_map_of_mem (State.keysOf_first hk hp)), hl⟩
  generalize hS : ((s.begun resumeForm 0 w).modWarp s.cur fun v => v.committed (issueCtx resumeForm s w)) = S
  have ho : OnlyWarp (issueCost resumeForm 0 s w) s S w := hS ▸ State.begun_only _
  have hlook : LooksAlike s S := hS ▸ (LooksAlike.begun s resumeForm 0 w).modWarp _ _
  have hw : S.warp? s.cur = some ((w.atIssue resumeForm s).committed (issueCtx resumeForm s w)) := by
    rw [← hS, State.warp?_modWarp_self, State.begun_warp hr.cur]; rfl
  generalize hv : (w.atIssue resumeForm s).committed (issueCtx resumeForm s w) = v at hw
  have hkr : v.kr a = w.kr a := by rw [← hv]; rfl
  have hctx : v.ctx = w.ctx := by rw [← hv]; rfl
  have hserved : S.servedBy v (w.kr a) = some target := State.servedBy_of hs ho.blocks (by rw [← hv]; rfl) (ho.warps target hne)
  have hkeys : S.keysOf (coreOf s.cur) w.ctx .read (w.kr a) 448 = .ok ks := (hlook.keysOf ..).trans hk
  have hlent : (distinct (ks.map lineOf)).any S.leasedOut = true := by
    have : S.leasedOut = s.leasedOut := funext fun l => by rw [State.leasedOut, State.leasedOut, ho.mem]
    rwa [this]
  have hbody : (issueCtx resumeForm s w).resume a S
      = (S.askBack (distinct (ks.map lineOf))).modWarp s.cur fun v => v.awaits (issueCtx resumeForm s w).paidUp := by
    simp only [Ctx.resume, State.withWarp, show (issueCtx resumeForm s w).wid = s.cur from rfl, hw, hkr, hal, ne_eq, not_true_eq_false,
      if_false, hserved, hctx, show (issueCtx resumeForm s w).core = coreOf s.cur from rfl, hkeys]
    exact State.whenHome_lent _ hlent
  have hback : ∀ k, (S.askBack (distinct (ks.map lineOf))).warp? k = S.warp? k := fun k => by
    rw [State.warp?, State.askBack_warps, State.warp?]
  obtain ⟨-, -, -, -, hothers, -⟩ := State.issue_effect (fun _ _ => true) (fun _ _ => 0)
    (fun c s => s.commitPoint c noCheck fun s => c.resume a s) hr rfl rfl he
    ((State.commitPoint_ready _ _ hr hc rfl).trans ((congrArg _ hS).trans hbody))
    (by rw [State.warp?_modWarp_self, hback, hw]; rfl)
  refine ⟨_, rfl, fun k hk => (hothers k hk).trans ?_⟩
  rw [State.warp?_modWarp, if_neg hk, hback, ho.warps k hk]

/-! ### A handler whose record is lent -/

/-- A handler warp of context 1, its record's address in k1, where it issues `resume`. -/
def resumingHandler : Warp := (Warp.start 1 2 0 .p 512 0x1000).setK 1 0x2000

/-- The warp it serves, suspended since a user trap with its record at 0x2000. -/
def servedWarp : Warp :=
  { Warp.start 1 1 0 .u 512 0x1000 with
    susp := some { trap := { cls := .user }, lanes := 3, mode := 1, pc := 0x1000, rpc := 0x1004, record := 0x2000, started := true,
                   debugger := false } }

/-- The block of the handler, which serves warp 1. -/
def handlerBlock : Block :=
  { ctx := 1, grid := none, kind := .trap, index := 0, core := 0, resident := true, record := Rec.synth 0x1000 1 512 16, spad := [], bars := [],
    queues := [], q2res := 0, phase := 0, banksR := [], banksS := [], banksA := [], held := [], warps := [0], hidx := 0, args := [],
    savedCvs := [], savedAcc := [], suspect := some 1 }

/-- The handler alone on core 0 with a full bucket. Tables on pages 1 to 4 put its context's page 0 on page 5, so the record lies at key
0x52000, in line 2624: a peer holds a lease of that line. -/
def recordLent : State :=
  { State.reset with
    mem := { State.reset.mem with
      bytes := [(0x10000, 1), (0x10002, 2), (0x20000, 1), (0x20002, 3), (0x30000, 1), (0x30002, 4), (0x40000, 0x3B), (0x40002, 5)]
      leases := [{ line := 2624, dev := some 9, core := 0, ctx := 1, granted := 0, used := 0, recalled := false }] }
    ap := [(0, 2), (offMmuRoot 1, 1 + 65536)], warps := [(0, resumingHandler), (1, servedWarp)], blocks := [(2, handlerBlock)],
    cores := [(0, { State.reset.core 0 with level := 1024 * 256 })] }

theorem recordLent_commitsEmpty : CommitsEmpty recordLent resumingHandler :=
  ⟨rfl, rfl, rfl, rfl, by unfold Unawaited; decide +kernel⟩

theorem recordLent_ready : Ready resumeForm 0 recordLent resumingHandler :=
  { cur := by decide +kernel, lanes := by decide +kernel, level := rfl, names := by decide +kernel, served := by decide +kernel
    disarmed := by decide +kernel, sound := rfl, held := by decide +kernel, fresh := rfl, owesNone := rfl, seesNone := rfl
    pays := by decide +kernel }

theorem recordLent_place : recordLent.place 0 1 true .read 0x2000 = .ok 0x52000 := by
  decide +kernel

/-- Refutes O27: while a peer holds a lease of the record's line, the handler waits for the line before it reads the record, and the warp it
serves is not restarted by this issue (R282). -/
theorem not_resumeRestarts : ¬ Obligations.ResumeRestarts := by
  intro h
  have hbytes := State.readBytes_page (n := 448) rfl rfl rfl recordLent_place (by decide +kernel)
  have hserved : recordLent.servedBy resumingHandler (resumingHandler.kr 1) = some 1 := by decide +kernel
  have hen : (issueCtx resumeForm recordLent resumingHandler).en ≠ 0 := by decide +kernel
  have hrec : resumingHandler.kr 1 = 0x2000 := by decide +kernel
  obtain ⟨u, hu, hothers⟩ := execResume_lent (a := 1) recordLent_ready recordLent_commitsEmpty hen (by decide +kernel) hserved (by decide)
    (hrec ▸ hbytes) (hrec ▸ recordLent_place) (by decide +kernel)
  obtain ⟨t, v', w', ht, hv, hsusp, -⟩ := h 1 1 _ recordLent resumingHandler servedWarp _ rfl recordLent_commitsEmpty recordLent_ready
    hen (by decide +kernel) (by decide +kernel) hserved (by decide) rfl rfl (hrec ▸ hbytes) (by decide +kernel) (by decide +kernel)
  cases hu.symm.trans ht
  have hstill : u.warp? 1 = some servedWarp := hothers 1 (by decide)
  cases hstill.symm.trans hv
  nomatch hsusp

end Sys2Proof.Machine
end


section
/-!
PROOFS. The choice of a scheduler, turns, the timer, and warps that may be selected again.
Settles O44 of spec/04_isa_control_integer.md.
-/

namespace Sys2Proof.Machine

/-! ### A step of one warp -/

theorem OnlyWid.refl (v : Nat) (s : State) : OnlyWid v s s := ⟨rfl, rfl, rfl, rfl, rfl, rfl, rfl, rfl, rfl, fun _ _ => rfl⟩

theorem OnlyWid.modWarp (s : State) (k : Nat) (g : Warp → Warp) : OnlyWid k s (s.modWarp k g) :=
  ⟨rfl, rfl, rfl, rfl, rfl, rfl, rfl, rfl, rfl, fun j hj => by rw [State.warp?_modWarp, if_neg hj]⟩

theorem State.warp?_modWarp_of {s : State} {k : Nat} {w : Warp} (h : s.warp? k = some w) (g : Warp → Warp) :
    (s.modWarp k g).warp? k = some (g w) := by
  rw [State.warp?_modWarp_self, h]; rfl

theorem State.withWarp_of {s : State} {k : Nat} {w : Warp} (h : s.warp? k = some w) (f : Warp → State) : s.withWarp k f = f w := by
  rw [State.withWarp, h]

/-- A byte of an aperture register depends on the registers, the dies and the device. -/
theorem State.apByte_of {s T : State} (hap : T.ap = s.ap) (hdies : T.dies = s.dies) (hdev : T.dev = s.dev) (off : Nat) :
    T.apByte off = s.apByte off := by
  unfold State.apByte State.regVal State.apBits State.ap! State.die
  rw [hap, hdies, hdev]

/-! ### Warps that are ready do not depend on the warps listed (R241) -/

section
variable (s : State) (k : Nat) (g : Warp → Warp)

theorem State.codeByte_modWarp (c key : Nat) : (s.modWarp k g).codeByte c key = s.codeByte c key := by
  have hap := State.apByte_of (T := s.modWarp k g) (s := s) rfl rfl rfl (key - keyAp 0)
  unfold State.codeByte
  rw [hap]
  rfl

theorem State.codeWord_modWarp (c : Nat) (w : Warp) (va : DWord) : (s.modWarp k g).codeWord c w va = s.codeWord c w va := by
  have hnum : ∀ key, (s.modWarp k g).codeNum c key = s.codeNum c key := fun key => by
    unfold State.codeNum
    simp only [State.codeByte_modWarp]
  have hplace := fun p a va => ((LooksAlike.refl s).modWarp k g).place c w.ctx p a va
  unfold State.codeWord State.codeHeld State.upsetTrap
  simp only [hplace, hnum]
  rfl

theorem State.codeWords_modWarp (c : Nat) (w : Warp) (va : DWord) (n : Nat) :
    (s.modWarp k g).codeWords c w va n = s.codeWords c w va n := by
  induction n generalizing va with
  | zero => rfl
  | succ n ih => simp only [State.codeWords, State.codeWord_modWarp, ih]

theorem State.ready_modWarp (wid : Nat) (w : Warp) : (s.modWarp k g).ready wid w = s.ready wid w := by
  have hnext : (s.modWarp k g).nextInstr wid w = s.nextInstr wid w := by
    unfold State.nextInstr
    simp only [State.codeWords_modWarp]
  unfold State.ready State.interlocked
  rw [hnext]
  rfl

theorem State.recOf_modWarp (w : Warp) : (s.modWarp k g).recOf w = s.recOf w := rfl

theorem State.choose_modWarp (ws : List (Nat × Warp)) : (s.modWarp k g).choose ws = s.choose ws := by
  have hprio : ∀ e : Nat × Warp, (s.modWarp k g).prio e.1 e.2 = s.prio e.1 e.2 := fun e => by
    unfold State.prio State.die State.apBits State.ap!
    rfl
  unfold State.choose State.urgentOf State.issueRank
  simp only [hprio, State.recOf_modWarp]

end

/-- The warps listed beside one do not change with it. -/
theorem Tab.filter_mod {α : Type} (t : Tab α) (k : Nat) (f : α → α) :
    (Tab.mod t k f).filter (fun e => e.1 != k) = t.filter fun e => e.1 != k := by
  have hupd : ∀ (t : Tab α) (v : α), (Tab.upd t k v).filter (fun e => e.1 != k) = t.filter fun e => e.1 != k := by
    intro t v
    induction t with
    | nil => simp [Tab.upd]
    | cons e r ih =>
      obtain ⟨a, u⟩ := e
      unfold Tab.upd
      split
      · simp
      · split
        · next h => subst h; simp
        · simp [List.filter_cons, ih]
  unfold Tab.mod
  split
  · rfl
  · exact hupd ..

/-- The ready warps of a scheduler beside one do not change with it. -/
theorem State.readyOf_modWarp (s : State) (k : Nat) (g : Warp → Warp) (core sched : Nat) :
    ((s.modWarp k g).readyOf core sched).filter (fun e => e.1 != k) = (s.readyOf core sched).filter fun e => e.1 != k := by
  have hw : ((s.modWarp k g).warps).filter (fun e => e.1 != k) = s.warps.filter fun e => e.1 != k := Tab.filter_mod ..
  have hcomm : ∀ (p q r : Nat × Warp → Bool) (t : List (Nat × Warp)), ((t.filter p).filter q).filter r = ((t.filter r).filter p).filter q :=
    fun p q r t => by rw [List.filter_comm r q, List.filter_comm r p]
  unfold State.readyOf State.warpsOfCore Tab.keep
  simp only [State.ready_modWarp]
  rw [hcomm, hw, ← hcomm]

/-! ### The choice among ready warps (R241) -/

theorem foldl_pick_mem {α : Type} (c : α → α → Bool) : ∀ (r : List α) (x : α), r.foldl (fun b y => if c b y then y else b) x ∈ x :: r
  | [], x => List.mem_cons_self
  | y :: r, x => by
    have h := foldl_pick_mem c r (if c x y then y else x)
    rw [List.foldl_cons]
    cases hc : c x y <;> rw [hc] at h <;> rcases List.mem_cons.1 h with h | h
    · simp only [Bool.false_eq_true, if_false] at h ⊢
      rw [h]; exact List.mem_cons_self
    · exact List.mem_cons_of_mem _ (List.mem_cons_of_mem _ h)
    · simp only [if_true] at h ⊢
      rw [h]; exact List.mem_cons_of_mem _ List.mem_cons_self
    · exact List.mem_cons_of_mem _ (List.mem_cons_of_mem _ h)

theorem greatest_mem {α : Type} {f : α → Nat} {l : List α} {x : α} (h : greatest f l = some x) : x ∈ l := by
  cases l with
  | nil => nomatch h
  | cons y r =>
    have hm := foldl_pick_mem (fun b y => decide (f b < f y)) r y
    simp only [decide_eq_true_eq] at hm
    rw [greatest, Option.some.injEq] at h
    rwa [h] at hm

theorem greatest_isSome {α : Type} (f : α → Nat) {l : List α} (h : l ≠ []) : ∃ x, greatest f l = some x := by
  cases l with
  | nil => exact absurd rfl h
  | cons y r => exact ⟨_, rfl⟩

theorem bestOf_mem {α : Type} {l : List (List Int × α)} {x : α} (h : bestOf l = some x) : ∃ r, (r, x) ∈ l := by
  cases l with
  | nil => nomatch h
  | cons y r =>
    have hm := foldl_pick_mem (fun b y => rankLt y.1 b.1) r y
    rw [bestOf, Option.some.injEq] at h
    exact ⟨(r.foldl (fun b y => if rankLt y.1 b.1 then y else b) y).1, by rw [← h]; exact hm⟩

/-- Whether a warp is urgent: PP = 1, and ready for 8 160 cycles (R241). -/
def State.urgent (s : State) (w : Warp) : Prop := Rec.pp (s.recOf w) = true ∧ 8160 ≤ w.ready

theorem State.urgentOf_urgent {s : State} {ws : List (Nat × Warp)} {e : Nat × Warp} (h : s.urgentOf ws = some e) :
    e ∈ ws ∧ s.urgent e.2 := by
  have hm := greatest_mem h
  rw [List.mem_filter, Bool.and_eq_true, decide_eq_true_eq] at hm
  exact hm

theorem State.urgentOf_isSome {s : State} {ws : List (Nat × Warp)} {e : Nat × Warp} (he : e ∈ ws) (hu : s.urgent e.2) :
    ∃ x, s.urgentOf ws = some x := by
  refine greatest_isSome _ (List.ne_nil_of_mem (a := e) (List.mem_filter.2 ⟨he, ?_⟩))
  rw [Bool.and_eq_true, decide_eq_true_eq]
  exact hu

/-- THE CHOICE: one of the warps offered, and an urgent one where there is one. -/
theorem State.choose_spec (s : State) {ws : List (Nat × Warp)} (h : ws ≠ []) :
    ∃ e ∈ ws, s.choose ws = some e.1 ∧ ((∃ x ∈ ws, s.urgent x.2) → s.urgent e.2) := by
  unfold State.choose
  cases hu : s.urgentOf ws with
  | some e => exact ⟨e, (State.urgentOf_urgent hu).1, rfl, fun _ => (State.urgentOf_urgent hu).2⟩
  | none =>
    have hnone : ¬ ∃ x ∈ ws, s.urgent x.2 := fun ⟨x, hx, hxu⟩ => by
      obtain ⟨y, hy⟩ := State.urgentOf_isSome hx hxu
      exact absurd (hu.symm.trans hy) (by simp)
    cases ws with
    | nil => exact absurd rfl h
    | cons x r =>
      obtain ⟨b, hb⟩ : ∃ b, bestOf ((x :: r).map fun e => (s.issueRank e, e.1)) = some b := ⟨_, rfl⟩
      obtain ⟨rank, hr⟩ := bestOf_mem hb
      obtain ⟨e, he, heq⟩ := List.mem_map.1 hr
      exact ⟨e, he, hb.trans (congrArg (fun p => some p.2) heq.symm), fun hx => absurd hx hnone⟩

theorem State.choose_single (s : State) (e : Nat × Warp) : s.choose [e] = some e.1 := by
  obtain ⟨x, hx, hc, -⟩ := s.choose_spec (ws := [e]) (by simp)
  rw [hc, List.mem_singleton.1 hx]

theorem State.choose_nil (s : State) : s.choose [] = none := rfl

/-! ### The opportunity of a chosen warp (R105, R245) -/

/-- An opportunity that a warp takes ends in its issue, behind a turn that is due. -/
theorem State.offer_issues {s : State} {wid : Nat} {w : Warp} (h : s.warp? wid = some w) : ∃ l, s.offer wid = l ++ [.issue wid] := by
  unfold State.offer
  rw [h]
  exact ⟨_, rfl⟩

/-- What a scheduler leaves where a warp takes the opportunity: its issue is next, behind a turn that is due. -/
def Takes (s t : State) (wid : Nat) : Prop := ∃ l, t = { s with agenda := l ++ .issue wid :: s.agenda }

theorem State.soon_offer_takes {s : State} {wid : Nat} {w : Warp} (h : s.warp? wid = some w) : Takes s (s.soon (s.offer wid)) wid := by
  obtain ⟨l, hl⟩ := State.offer_issues h
  refine ⟨l, ?_⟩
  rw [hl, State.soon, List.append_assoc]
  rfl

/-- A chosen warp that has a lane which is not deferred takes the opportunity. -/
theorem State.passOn_takes {s : State} {core sched wid n : Nat} {w : Warp} (h : s.warp? wid = some w) (hd : w.allDeferred = false) :
    Takes s (s.passOn core sched wid (n + 1)) wid := by
  have e : s.passOn core sched wid (n + 1) = s.soon (s.offer wid) := by
    rw [State.passOn, h]
    simp [hd]
  rw [e]
  exact State.soon_offer_takes h

/-- A warp whose flags clear. -/
def Warp.undeferred (w : Warp) : Warp := { w with deferred := 0 }

/-- A chosen warp whose runnable lanes are all deferred clears its flags, and the choice is among the other ready warps. -/
theorem State.passOn_deferred {s : State} {core sched wid n : Nat} {w : Warp} (h : s.warp? wid = some w) (hd : w.allDeferred = true) :
    s.passOn core sched wid (n + 1) = match s.choose ((s.readyOf core sched).filter fun e => e.1 != wid) with
      | some other => (s.modWarp wid Warp.undeferred).passOn core sched other n
      | none => (s.modWarp wid Warp.undeferred).soon ((s.modWarp wid Warp.undeferred).offer wid) := by
  rw [← State.readyOf_modWarp s wid Warp.undeferred, ← State.choose_modWarp s wid Warp.undeferred, State.passOn, h]
  simp only [hd, Bool.not_true, Bool.false_eq_true, if_false]
  rfl

/-- What the taking of an opportunity leaves of the machine after a warp's flags cleared. -/
theorem Takes.undeferred {s t : State} {a wid : Nat} {w : Warp} (h : s.warp? a = some w) (ht : Takes (s.modWarp a Warp.undeferred) t wid) :
    ∃ l, t.agenda = l ++ .issue wid :: s.agenda ∧ t.warp? a = some { w with deferred := 0 } ∧ OnlyWid a { s with agenda := t.agenda } t := by
  obtain ⟨l, rfl⟩ := ht
  obtain ⟨h1, h2, h3, h4, h5, h6, h7, h8, h9, h10⟩ := OnlyWid.modWarp s a Warp.undeferred
  exact ⟨l, rfl, State.warp?_modWarp_of h Warp.undeferred, rfl, h2, h3, h4, h5, h6, h7, h8, h9, h10⟩

/-- A scheduler that has not issued acts on its choice. -/
theorem State.schedule_chosen {s : State} {core sched wid : Nat} (hi : (s.core core).issued.contains sched = false)
    (hc : s.choose (s.readyOf core sched) = some wid) : exec (.urgentWarp core sched) s = .next (s.passOn core sched wid 16) := by
  have e : s.schedule core sched = s.passOn core sched wid 16 := by
    unfold State.schedule
    rw [hi, hc]
    rfl
  exact congrArg done e

/-! ### Turns (R245, R246) -/

theorem foldl_least_attained (f : Nat → DWord) : ∀ (r : List Nat) (l : Nat),
    ∃ i ∈ l :: r, r.foldl (fun p l => if (f l).toNat < p.toNat then f l else p) (f l) = f i
  | [], l => ⟨l, List.mem_cons_self, rfl⟩
  | i :: r, l => by
    rw [List.foldl_cons]
    split
    · obtain ⟨j, hj, he⟩ := foldl_least_attained f r i
      exact ⟨j, List.mem_cons_of_mem _ hj, he⟩
    · obtain ⟨j, hj, he⟩ := foldl_least_attained f r l
      rcases List.mem_cons.1 hj with rfl | hj
      · exact ⟨j, List.mem_cons_self, he⟩
      · exact ⟨j, List.mem_cons_of_mem _ (List.mem_cons_of_mem _ hj), he⟩

/-- The least program counter of some lanes is that of one of them. -/
theorem Warp.leastPc_attained (w : Warp) {m : Word} (h : m ≠ 0) : ∃ l, laneIn m l = true ∧ w.pc l = w.leastPc m := by
  cases hl : lanesOf m with
  | nil =>
    refine absurd (eq_zero_of_no_lane fun l hl32 => ?_) h
    by_contra hn
    have : l ∈ lanesOf m := (mem_lanesOf m l).2 ⟨hl32, by simpa using hn⟩
    rw [hl] at this
    nomatch this
  | cons i r =>
    obtain ⟨j, hj, he⟩ := foldl_least_attained w.pc (i :: r) i
    have hj' : j ∈ i :: r := by simpa using hj
    refine ⟨j, ((mem_lanesOf m j).1 (hl ▸ hj')).2, ?_⟩
    rw [Warp.leastPc, hl]
    exact he.symm

theorem Warp.lanesAt_leastPc_ne_zero (w : Warp) {m : Word} (h : m ≠ 0) : w.lanesAt m (w.leastPc m) ≠ 0 := by
  obtain ⟨l, hl, hp⟩ := w.leastPc_attained h
  intro h0
  have := laneIn_lanesAt w m (w.leastPc m) (laneIn_lt hl)
  rw [h0, hl, hp] at this
  simp at this

theorem Warp.lanesAt_sub (w : Warp) (m : Word) (p : DWord) : w.lanesAt m p &&& ~~~m = 0 := by
  refine eq_zero_of_no_lane fun l hl => ?_
  rw [laneIn_and, laneIn_not hl, laneIn_lanesAt _ _ _ hl]
  cases laneIn m l <;> simp

/-- The held lanes that have had no turn of the round; all of them when each has had one, as a new round begins (R245). -/
def Warp.turnless (w : Warp) : Word := w.held &&& ~~~(if w.held &&& ~~~w.turnBits = 0 then 0 else w.turnBits)

theorem Warp.turnless_ne_zero {w : Warp} (h : w.held ≠ 0) : w.turnless ≠ 0 := by
  unfold Warp.turnless
  split
  · rwa [show ~~~(0 : Word) = BitVec.allOnes 32 from rfl, BitVec.and_allOnes]
  · next hn => exact hn

/-- The held lanes to which a turn is granted. -/
def Warp.turnGroup (w : Warp) : Word := w.lanesAt w.turnless (w.leastPc w.turnless)

theorem Warp.turnGroup_held (w : Warp) : w.turnGroup &&& ~~~w.held = 0 := by
  refine eq_zero_of_no_lane fun l hl => ?_
  have h : laneIn (w.turnGroup &&& ~~~w.turnless) l = false := by rw [Warp.turnGroup, Warp.lanesAt_sub]; simp
  rw [Warp.turnless, laneIn_and, laneIn_not hl, laneIn_and, laneIn_not hl] at h
  rw [laneIn_and, laneIn_not hl]
  cases hg : laneIn w.turnGroup l <;> cases hh : laneIn w.held l <;> simp_all

/-- A warp to whose held lanes a turn is granted. -/
def Warp.granted (w : Warp) : Warp :=
  { w with turn := some { lanes := w.turnGroup, start := none },
           turnBits := (if w.held &&& ~~~w.turnBits = 0 then 0 else w.turnBits) ||| w.turnGroup }

theorem State.grantTurn_grants {s : State} {wid tf : Nat} {w : Warp} (h : s.warp? wid = some w) (ht : s.turnTime w = some tf)
    (hn : w.turn = none) (hf : tf ≤ w.fc) (hh : w.held ≠ 0) :
    (s.grantTurn wid).warp? wid = some w.granted ∧ OnlyWid wid s (s.grantTurn wid) := by
  have hc : (w.turn.isSome || decide (w.fc < tf) || decide (w.held = 0)) = false := by
    rw [hn, decide_eq_false hh, decide_eq_false (by omega)]; rfl
  have e : s.grantTurn wid = s.modWarp wid Warp.granted := by
    unfold State.grantTurn
    rw [State.withWarp_of h, ht]
    dsimp only
    rw [if_neg (by rw [hc]; exact Bool.false_ne_true)]
    exact State.modWarp_congr h rfl
  rw [e, State.warp?_modWarp_of h]
  exact ⟨rfl, OnlyWid.modWarp ..⟩

/-! ### Changes of one warp -/

/-- A step that changes its warp where a condition holds. -/
theorem State.modWarp_if {s : State} {k : Nat} {w : Warp} (h : s.warp? k = some w) (c : Prop) [Decidable c] (g : Warp → Warp) :
    OnlyWid k s (if c then s.modWarp k g else s) ∧ (if c then s.modWarp k g else s).warp? k = some (if c then g w else w) := by
  split
  · exact ⟨OnlyWid.modWarp .., State.warp?_modWarp_of h g⟩
  · exact ⟨OnlyWid.refl .., h⟩

/-- A comparison that holds makes the timer trap pending, and another leaves it as it was (R293). -/
theorem Warp.timer_compared (w : Warp) (c : Bool) :
    (if (c && !w.timer) = true then { w with timer := true } else w) = { w with timer := w.timer || c } := by
  have hset : ∀ b, w.timer = b → w = { w with timer := b } := by rintro _ rfl; rfl
  cases ht : w.timer
  · cases c
    · exact hset false ht
    · rfl
  · rw [Bool.not_true, Bool.and_false, if_neg Bool.false_ne_true]
    exact hset true ht

/-! ### A parked warp (R323) -/

theorem State.die_modWarp (s : State) (k d : Nat) (g : Warp → Warp) : (s.modWarp k g).die d = s.die d := rfl

/-- A live record's warp is no longer parked at it, and the record is free. -/
theorem State.unpark_live {s : State} {die rec : Nat} {p : Park} {w : Warp} (hp : Tab.look (s.die die).park rec = some p)
    (hl : p.live = true) (h : s.warp? p.wid = some w) (hk : w.parked = some (die * 4096 + rec)) :
    s.unpark die rec = (s.modDie die fun x => { x with park := Tab.del x.park rec }).modWarp p.wid fun w => { w with parked := none } := by
  have hw : (s.modDie die fun x => { x with park := Tab.del x.park rec }).warp? p.wid = some w := h
  unfold State.unpark
  rw [hp]
  dsimp only
  rw [hl, if_neg (by decide)]
  exact State.modWarp_congr hw (if_pos hk)

/-- Settles O44: each row from what its event does to one warp, the choice by R241 from the warps it is offered, and a passed opportunity by two
steps of `passOn`. -/
theorem selectionRowsComplete : Obligations.SelectionRowsComplete := by
  refine ⟨fun s core sched hi hne hall => ?_, fun s core sched a b w v hi hr ha hb hc hab hw hv => ?_, fun s core sched a w hi hr ha hw => ?_,
    fun s wid tf w h ht hn hf hh => ?_, fun s wid w h => ?_, fun s wid w h => ?_, fun s wid w h => ?_, fun s die rec p w hp hl h hk => ?_⟩
  · obtain ⟨e, he, hc, hu⟩ := s.choose_spec hne
    obtain ⟨hd, hw⟩ := hall e he
    obtain ⟨l, hl⟩ := State.passOn_takes (core := core) (sched := sched) (n := 15) hw hd
    exact ⟨_, e.1, e.2, l, State.schedule_chosen hi hc, hl, he, hu⟩
  · have hpass := State.passOn_deferred (core := core) (sched := sched) (n := 15) ha hw
    have hrest : (s.readyOf core sched).filter (fun e => e.1 != a) = [(b, v)] := by rw [hr]; simp [hab.symm]
    rw [hrest, State.choose_single] at hpass
    have hb' : (s.modWarp a Warp.undeferred).warp? b = some v := by rw [State.warp?_modWarp, if_neg hab.symm, hb]
    obtain ⟨l, hl⟩ := (hpass ▸ State.passOn_takes hb' hv : Takes _ (s.passOn core sched a 16) b).undeferred ha
    exact ⟨_, l, State.schedule_chosen hi hc, hl⟩
  · have hpass := State.passOn_deferred (core := core) (sched := sched) (n := 15) ha hw
    have hrest : (s.readyOf core sched).filter (fun e => e.1 != a) = [] := by rw [hr]; simp
    rw [hrest, State.choose_nil] at hpass
    have hc : s.choose (s.readyOf core sched) = some a := by rw [hr, State.choose_single]
    obtain ⟨l, hl⟩ := (hpass ▸ State.soon_offer_takes (State.warp?_modWarp_of ha _) : Takes _ (s.passOn core sched a 16) a).undeferred ha
    exact ⟨_, l, State.schedule_chosen hi hc, hl⟩
  · obtain ⟨hw, ho⟩ := State.grantTurn_grants h ht hn hf hh
    exact ⟨_, w.granted, w.turnGroup, rfl, ho, hw, ⟨rfl, rfl, rfl⟩, by constructor <;> rfl, rfl,
      w.lanesAt_leastPc_ne_zero (Warp.turnless_ne_zero hh), w.turnGroup_held, rfl, rfl⟩
  · obtain ⟨ho, hw⟩ := State.modWarp_if h (s.turnOver w = true) fun w => { w with turn := none, fc := 0 }
    refine ⟨_, rfl, ?_⟩
    rw [State.endTurn, State.withWarp_of h]
    exact ⟨ho, hw⟩
  · obtain ⟨ho, hw⟩ := State.modWarp_if h (s.timerDue wid w = true) fun w => { w with timer := true }
    refine ⟨_, rfl, ?_⟩
    rw [State.withWarp_of h]
    refine ⟨ho, hw.trans (congrArg some ?_)⟩
    exact Warp.timer_compared ..
  · exact ⟨_, rfl, OnlyWid.modWarp .., State.warp?_modWarp_of h _⟩
  · refine ⟨_, rfl, ?_⟩
    rw [State.unpark_live hp hl h hk]
    refine ⟨State.warp?_modWarp_of h _, ?_, fun i hi => ?_, rfl, rfl, fun v hv => ?_⟩
    · rw [State.die_modWarp, State.die_modDie, if_pos rfl, Tab.look_del, if_pos rfl]
    · rw [State.die_modWarp, State.die_modDie, if_pos rfl, Tab.look_del, if_neg hi]
    · rw [State.warp?_modWarp, if_neg hv]; rfl

end Sys2Proof.Machine
end


section
/-!
PROOFS. What a read of lines at their homes leaves of the machine (R280, R281, R307, R368), armed with no detector.
-/

namespace Sys2Proof.Machine

/-! ### What reads leave -/

/-- What a read leaves where no detector is armed: warps, aperture registers, blocks, grids, the device, free values, the bytes of memory
with their versions, and each die's clock. Cores, buckets, and where the L2 holds what may change. -/
structure ReadLeft (s t : State) : Prop where
  warps : t.warps = s.warps
  ap : t.ap = s.ap
  blocks : t.blocks = s.blocks
  grids : t.grids = s.grids
  dev : t.dev = s.dev
  own : t.own = s.own
  bytes : t.mem.bytes = s.mem.bytes
  ver : t.mem.ver = s.mem.ver
  clk : ∀ d, (t.die d).clk = (s.die d).clk

namespace ReadLeft

variable {s t u : State}

theorem refl (s : State) : ReadLeft s s := ⟨rfl, rfl, rfl, rfl, rfl, rfl, rfl, rfl, fun _ => rfl⟩

theorem trans (h : ReadLeft s t) (g : ReadLeft t u) : ReadLeft s u :=
  ⟨g.warps.trans h.warps, g.ap.trans h.ap, g.blocks.trans h.blocks, g.grids.trans h.grids, g.dev.trans h.dev, g.own.trans h.own,
    g.bytes.trans h.bytes, g.ver.trans h.ver, fun d => (g.clk d).trans (h.clk d)⟩

theorem disarmed (h : ReadLeft s t) (hs : s.ap! offInjMask = 0) : t.ap! offInjMask = 0 := (State.ap!_of_ap h.ap _).trans hs
theorem sameBytes (h : ReadLeft s t) : SameBytes s t := Mem.byte_of_bytes h.bytes
theorem warp? (h : ReadLeft s t) (k : Nat) : t.warp? k = s.warp? k := congrArg (Tab.look · k) h.warps

theorem versionAt (h : ReadLeft s t) (key : Nat) : t.versionAt key = s.versionAt key := by
  unfold State.versionAt Mem.version
  rw [h.own, h.ver]

theorem clkOf (h : ReadLeft s t) (wid : Nat) : t.clk wid = s.clk wid := h.clk _

/-- A read in parts. -/
theorem foldl {α : Type} {f : State → α → State} (hf : ∀ s x, s.ap! offInjMask = 0 → ReadLeft s (f s x)) (xs : List α)
    (hs : s.ap! offInjMask = 0) : ReadLeft s (xs.foldl f s) :=
  State.foldl_keeps (P := ReadLeft s) f (fun t x h => h.trans (hf t x (h.disarmed hs))) xs (refl s)

theorem ite {c : Prop} [Decidable c] (h : c → ReadLeft s t) (g : ¬ c → ReadLeft s u) : ReadLeft s (if c then t else u) := by
  split
  · next hc => exact h hc
  · next hc => exact g hc

end ReadLeft

/-! ### The parts of a read -/

section
variable (s : State)

theorem ReadLeft.modCore (k : Nat) (g : Core → Core) : ReadLeft s (s.modCore k g) := ⟨rfl, rfl, rfl, rfl, rfl, rfl, rfl, rfl, fun _ => rfl⟩
theorem ReadLeft.soon (ps : List Pending) : ReadLeft s (s.soon ps) := ⟨rfl, rfl, rfl, rfl, rfl, rfl, rfl, rfl, fun _ => rfl⟩

theorem ReadLeft.modDie (d : Nat) (g : Die → Die) (hg : ∀ x, (g x).clk = x.clk) : ReadLeft s (s.modDie d g) := by
  refine ⟨rfl, rfl, rfl, rfl, rfl, rfl, rfl, rfl, fun k => ?_⟩
  rw [State.die_modDie]
  split
  · next h => rw [h, hg]
  · rfl

theorem ReadLeft.modMem (g : Machine.Mem → Machine.Mem) (hb : (g s.mem).bytes = s.mem.bytes) (hv : (g s.mem).ver = s.mem.ver) :
    ReadLeft s (s.modMem g) := ⟨rfl, rfl, rfl, rfl, rfl, rfl, hb, hv, fun _ => rfl⟩

theorem ReadLeft.homeStep (d price : Nat) : ReadLeft s (s.homeStep d price) :=
  .modDie s d (fun x => { x with owed := x.owed + price }) fun _ => rfl

theorem ReadLeft.sliceStep (line price : Nat) : ReadLeft s (s.sliceStep line price) := by
  unfold State.sliceStep
  exact (ReadLeft.homeStep s (dieOfLpa (line * 128)) price).trans (.modDie _ _ _ fun _ => rfl)

theorem ReadLeft.cross (d h flits : Nat) : ReadLeft s (s.cross d h flits) :=
  .ite (fun _ => .refl s) fun _ => (ReadLeft.homeStep s d flits).trans (.homeStep _ h flits)

theorem ReadLeft.reread (line : Nat) : ReadLeft s (s.reread line) :=
  .ite (fun _ => .refl s) fun _ => (ReadLeft.modMem s _ rfl rfl).trans (.soon _ _)

theorem ReadLeft.contains (e : Option (Nat × Nat)) (wid : Option Nat) : ReadLeft s (s.contains e wid) := by
  cases e
  · exact .refl s
  · exact .soon ..

theorem ReadLeft.seatLine (line : Nat) : ReadLeft s (s.seatLine line) := by
  have hseat : ∀ u : State, ReadLeft u { u with
      mem := u.mem.seat (u.victim line) line,
      dies := match u.mem.dirtyVictim (u.victim line) line with | some old => (u.sliceStep old 20).dies | none => u.dies } := by
    intro u
    refine ⟨rfl, rfl, rfl, rfl, rfl, rfl, rfl, rfl, fun d => ?_⟩
    cases u.mem.dirtyVictim (u.victim line) line with
    | none => rfl
    | some old => exact (ReadLeft.sliceStep u old 20).clk d
  exact (ReadLeft.ite (fun _ => .refl s) fun _ => .contains ..).trans (hseat _)

variable {s}

theorem ReadLeft.inject (hs : s.ap! offInjMask = 0) (us : List Nat) (line owner : Nat) : ReadLeft s (s.inject us line owner) := by
  rw [State.inject_disarmed hs]
  exact .refl s

theorem ReadLeft.homeLine (hs : s.ap! offInjMask = 0) (core line : Nat) : ReadLeft s (s.homeLine core line) := by
  unfold State.homeLine
  refine .ite (fun _ => .refl s) fun _ => ?_
  have hslice := (ReadLeft.reread s line).trans (.sliceStep _ line (if (!s.inL2 line) = true then 23 else 3))
  have hseat := (hslice.trans (.seatLine _ line)).trans (.modMem _ (fun m => { m with excl := Tab.del m.excl line }) rfl rfl)
  have hcross := hseat.trans (.cross _ (dieOfCore core) (dieOfLpa (line * 128)) 4)
  exact hcross.trans (.inject (hcross.disarmed hs) ..)

theorem ReadLeft.fetchRemote (s : State) (line : Nat) : ReadLeft s (s.fetchRemote line) := .modMem s _ rfl rfl

theorem ReadLeft.sawHome (s : State) (core key : Nat) : ReadLeft s (s.sawHome core key) := by
  unfold State.sawHome
  refine .ite (fun _ => .refl s) fun _ => ?_
  exact (ReadLeft.ite (fun _ => .fetchRemote ..) fun _ => .refl s).trans (.modCore ..)

theorem ReadLeft.acquire (s : State) (core : Nat) (sc : Scope) : ReadLeft s (s.acquire core sc) := by
  cases sc <;> exact ⟨rfl, rfl, rfl, rfl, rfl, rfl, rfl, rfl, fun _ => rfl⟩

theorem ReadLeft.acquireBy (s : State) (core : Nat) (acq : Option Scope) : ReadLeft s (s.acquireBy core acq) := by
  cases acq
  · exact .refl s
  · exact .acquire ..

end

end Sys2Proof.Machine
end


section
/-!
PROOFS. The ends of waits: `poll` and `mwait` lanes that read again, and a halted service core whose door is rung.
Settles O45 of spec/04_isa_control_integer.md.
-/

namespace Sys2Proof.Machine

/-! ### Lanes that leave a wait (R168, R250) -/

/-- The warp whose lanes leave a wait, behind its instruction. -/
def Warp.leaves (w : Warp) (b : Blocked) : Warp :=
  Warp.release { w with blocked := leaveBlock w.blocked b } b.lanes (b.here + BitVec.ofNat 64 b.len)

theorem State.pass_eq (s : State) (wid : Nat) (b : Blocked) : s.pass wid b = s.modWarp wid fun w => w.leaves b := rfl

theorem Warp.leaves_regs (w : Warp) (b : Blocked) : SameRegs w (w.leaves b) := ⟨rfl, rfl, rfl⟩

theorem Warp.pc_leaves (w : Warp) (b : Blocked) {l : Nat} (hl : laneIn b.lanes l = true) :
    (w.leaves b).pc l = b.here + BitVec.ofNat 64 b.len := by
  have h := Warp.pc_setPc { w with blocked := leaveBlock w.blocked b } b.lanes (fun _ => b.here + BitVec.ofNat 64 b.len) (laneIn_lt hl)
  rw [if_pos hl] at h
  exact h

/-! ### Lanes that wait on -/

/-- The warp whose entry of a wait waits for something else. -/
def Warp.awaitsNow (w : Warp) (b : Blocked) (what : Wait) : Warp :=
  { w with blocked := modFirst (fun x => x == b) (fun x => { x with what := what }) w.blocked }

theorem State.setWait_eq (s : State) (wid : Nat) (b : Blocked) (what : Wait) : s.setWait wid b what = s.modWarp wid fun w => w.awaitsNow b what := rfl

theorem mem_modFirst_self {α : Type} [BEq α] [LawfulBEq α] {b : α} (f : α → α) :
    ∀ {bs : List α}, b ∈ bs → f b ∈ modFirst (· == b) f bs
  | x :: r, h => by
    unfold modFirst
    split
    · next hx => rw [eq_of_beq hx]; exact List.mem_cons_self
    · next hx =>
      rcases List.mem_cons.1 h with rfl | h
      · exact absurd (beq_self_eq_true b) hx
      · exact List.mem_cons_of_mem _ (mem_modFirst_self f h)

theorem Warp.mem_awaitsNow {w : Warp} {b : Blocked} (what : Wait) (h : b ∈ w.blocked) : { b with what := what } ∈ (w.awaitsNow b what).blocked :=
  mem_modFirst_self (fun x => { x with what := what }) h

theorem Warp.waitOf_mem {w : Warp} {lane : Nat} {b : Blocked} (h : w.waitOf lane = some b) : b ∈ w.blocked := List.mem_of_find?_eq_some h

/-! ### What a step of a waiting lane leaves -/

/-- A step that reads and changes its warp: the warp it leaves, with memory, aperture registers and blocks as they were. -/
structure WarpLeft (wid : Nat) (s t : State) (v : Warp) : Prop where
  warp : t.warp? wid = some v
  bytes : SameBytes s t
  ap : t.ap = s.ap
  blocks : t.blocks = s.blocks

theorem ReadLeft.warpLeft {s t : State} {wid : Nat} {w : Warp} (h : ReadLeft s t) (hw : s.warp? wid = some w) : WarpLeft wid s t w :=
  ⟨(h.warp? wid).trans hw, h.sameBytes, h.ap, h.blocks⟩

theorem WarpLeft.modWarp {wid : Nat} {s t : State} {v : Warp} (h : WarpLeft wid s t v) (g : Warp → Warp) : WarpLeft wid s (t.modWarp wid g) (g v) :=
  ⟨State.warp?_modWarp_of h.warp g, h.bytes, h.ap, h.blocks⟩

theorem WarpLeft.read {wid : Nat} {s t u : State} {v : Warp} (h : WarpLeft wid s t v) (g : ReadLeft t u) : WarpLeft wid s u v :=
  ⟨(g.warp? wid).trans h.warp, fun a => (g.sameBytes a).trans (h.bytes a), g.ap.trans h.ap, g.blocks.trans h.blocks⟩

/-! ### poll (R188) -/

theorem ReadLeft.rereadLine {s : State} (hs : s.ap! offInjMask = 0) (wid : Nat) (sp : Spc) (key : Nat) : ReadLeft s (s.rereadLine wid sp key) := by
  cases sp with
  | s => exact .refl s
  | g =>
    have h : ReadLeft s (s.invLine (coreOf wid) (lineOf key)) := .modCore ..
    exact (h.trans (.homeLine (h.disarmed hs) ..)).trans (.sawHome ..)

/-- A lane that has read again takes its value and leaves, or waits for its next delay. -/
theorem State.pollAgain_read {s : State} {wid key v : Nat} {b : Blocked} {p : PollOp} (hr : s.waitRead wid p.sp b.lanes p.ea 4 = .ok (key, v))
    (hl : p.sp = .g → s.leasedOut (lineOf key) = false) :
    s.pollAgain wid b p = if pollHolds p v then (s.rereadLine wid p.sp key).pollPass wid b p v
      else (s.rereadLine wid p.sp key).setWait wid b
        (.poll { p with k := p.k + 1, due := ((s.rereadLine wid p.sp key).clk wid).toNat + pollDelay (p.k + 1) p.bo, owed := 0 }) := by
  unfold State.pollAgain
  rw [hr]
  refine if_neg ?_
  rw [Bool.and_eq_true, decide_eq_true_eq]
  exact fun h => absurd h.2 (by rw [hl h.1]; exact Bool.false_ne_true)

/-- A `poll` lane whose step is paid reads again. -/
theorem State.pollReread_paid {s : State} {wid lane : Nat} {w : Warp} {b : Blocked} {p : PollOp} (hw : s.warp? wid = some w)
    (ha : s.awake w = true) (hb : w.waitOf lane = some b) (hp : b.what = .poll p) (ho : p.owed = 2) :
    s.pollReread wid lane = s.pollAgain wid b p := by
  unfold State.pollReread
  rw [State.withWarp_of hw]
  simp only [ha, Bool.not_true, Bool.false_eq_true, if_false, hb, hp, ho, if_true]

/-- A `poll` lane that takes its value. -/
def Warp.polled (w : Warp) (b : Blocked) (p : PollOp) (v : Nat) : Warp := (w.setX p.d b.lanes fun _ => BitVec.ofNat 32 v).leaves b

theorem State.pollPass_left {s t : State} {wid : Nat} {w : Warp} (h : WarpLeft wid s t w) (b : Blocked) (p : PollOp) (v : Nat) :
    WarpLeft wid s (t.pollPass wid b p v) (w.polled b p v) :=
  ((h.modWarp fun w => w.setX p.d b.lanes fun _ => BitVec.ofNat 32 v).read (.acquireBy ..)).modWarp fun w => w.leaves b

theorem Warp.polled_value (w : Warp) (b : Blocked) (p : PollOp) (v : Nat) {l : Nat} (hl : laneIn b.lanes l = true) :
    (w.polled b p v).xr p.d l = BitVec.ofNat 32 v ∧ (w.polled b p v).pc l = b.here + BitVec.ofNat 64 b.len := by
  refine ⟨?_, Warp.pc_leaves _ b hl⟩
  rw [Warp.polled, (Warp.leaves_regs _ b).xr, Warp.xr_setX _ _ _ _ _ (laneIn_lt hl), if_pos ⟨rfl, hl⟩]

theorem Warp.polled_others (w : Warp) (b : Blocked) (p : PollOp) (v : Nat) {n l : Nat} (hl : l < 32) (h : n ≠ p.d ∨ laneIn b.lanes l = false) :
    (w.polled b p v).xr n l = w.xr n l := by
  rw [Warp.polled, (Warp.leaves_regs _ b).xr, Warp.xr_setX _ _ _ _ _ hl, if_neg]
  rintro ⟨rfl, hin⟩
  rcases h with h | h
  · exact h rfl
  · rw [hin] at h; nomatch h

/-! ### mwait (R189) -/

/-- What a re-read of an `mwait` leaves at its home (R189). -/
def State.rereadWide (s : State) (wid key : Nat) : State :=
  ((s.homeLine (coreOf wid) (lineOf key)).sawHome (coreOf wid) key).sawHome (coreOf wid) (key + 4)

theorem ReadLeft.rereadWide {s : State} (hs : s.ap! offInjMask = 0) (wid key : Nat) : ReadLeft s (s.rereadWide wid key) :=
  ((ReadLeft.homeLine hs ..).trans (.sawHome ..)).trans (.sawHome ..)

/-- A lane that has read again takes its value and leaves, or arms its monitor again. -/
theorem State.mwaitAgain_read {s : State} {wid key v : Nat} {b : Blocked} {p : MwaitOp} (hr : s.waitRead wid .g b.lanes p.ea 8 = .ok (key, v))
    (hl : s.leasedOut (lineOf key) = false) :
    s.mwaitAgain wid b p = if mwaitHolds p v then (s.rereadWide wid key).mwaitPass wid b p v
      else (s.rereadWide wid key).setWait wid b (.mwait { p with ver := (s.rereadWide wid key).versionAt key, owed := 0 }) := by
  unfold State.mwaitAgain
  rw [hr]
  exact if_neg (by rw [hl]; exact Bool.false_ne_true)

/-- An `mwait` lane whose step is paid reads again. -/
theorem State.mwaitWake_paid {s : State} {wid lane : Nat} {w : Warp} {b : Blocked} {p : MwaitOp} (hw : s.warp? wid = some w)
    (ha : s.awake w = true) (hb : w.waitOf lane = some b) (hp : b.what = .mwait p) (ho : p.owed = 2) :
    s.mwaitWake wid lane = s.mwaitAgain wid b p := by
  unfold State.mwaitWake
  rw [State.withWarp_of hw]
  simp only [ha, Bool.not_true, Bool.false_eq_true, if_false, hb, hp, ho, if_true]

/-- An `mwait` lane that takes its value. -/
def Warp.mwaited (w : Warp) (b : Blocked) (p : MwaitOp) (v : Nat) : Warp := (w.setXn true p.d b.lanes fun _ => BitVec.ofNat 64 v).leaves b

theorem State.mwaitPass_left {s t : State} {wid : Nat} {w : Warp} (h : WarpLeft wid s t w) (b : Blocked) (p : MwaitOp) (v : Nat) :
    WarpLeft wid s (t.mwaitPass wid b p v) (w.mwaited b p v) :=
  ((h.modWarp fun w => w.setXn true p.d b.lanes fun _ => BitVec.ofNat 64 v).read (.acquireBy ..)).modWarp fun w => w.leaves b

theorem Warp.mwaited_value (w : Warp) (b : Blocked) (p : MwaitOp) (v : Nat) {l : Nat} (hl : laneIn b.lanes l = true) :
    (w.mwaited b p v).xn true p.d l = BitVec.ofNat 64 v ∧ (w.mwaited b p v).pc l = b.here + BitVec.ofNat 64 b.len := by
  refine ⟨?_, Warp.pc_leaves _ b hl⟩
  rw [Warp.mwaited, (Warp.leaves_regs _ b).xn, Warp.xn_setXn _ _ _ _ _ hl, if_pos rfl]

/-! ### halt (R109, R429) -/

theorem OnlyWid.trans {v : Nat} {s t u : State} (h : OnlyWid v s t) (g : OnlyWid v t u) : OnlyWid v s u :=
  ⟨g.agenda.trans h.agenda, g.own.trans h.own, g.mem.trans h.mem, g.ap.trans h.ap, g.blocks.trans h.blocks, g.cores.trans h.cores,
    g.dies.trans h.dies, g.grids.trans h.grids, g.dev.trans h.dev, fun k hk => (g.warps k hk).trans (h.warps k hk)⟩

theorem Tab.mem_of_look {α : Type} {k : Nat} {v : α} : ∀ {t : Tab α}, Tab.look t k = some v → (k, v) ∈ t
  | (a, u) :: r, h => by
    unfold Tab.look at h
    split at h
    · next hk => cases h; rw [hk]; exact List.mem_cons_self
    · exact List.mem_cons_of_mem _ (Tab.mem_of_look h)

/-- With its door rung, a halted core's lanes leave, as often as the core is tried. -/
theorem State.foldl_tryHalt {s : State} {wid : Nat} {w : Warp} {b : Blocked} (xs : List (Nat × Blocked)) (hx : ∀ x ∈ xs, x = (wid, b))
    (hw : s.warp? wid = some w) (hd : s.ap! (offDoor (svcOf (coreOf wid))) ≠ 0) :
    ∃ w', OnlyWid wid s (xs.foldl (fun s x => s.tryHalt x.1 x.2) s) ∧ (xs.foldl (fun s x => s.tryHalt x.1 x.2) s).warp? wid = some w' ∧
      SameRegs w w' ∧ ∀ l, laneIn b.lanes l = true → (xs ≠ [] ∨ w.pc l = b.here + BitVec.ofNat 64 b.len) →
        w'.pc l = b.here + BitVec.ofNat 64 b.len := by
  induction xs generalizing s w with
  | nil => exact ⟨w, .refl .., hw, ⟨rfl, rfl, rfl⟩, fun l _ h => h.resolve_left fun h => h rfl⟩
  | cons x xs ih =>
    have hxe := hx x List.mem_cons_self
    have htry : s.tryHalt x.1 x.2 = s.modWarp wid fun w => w.leaves b := by rw [hxe]; exact if_neg hd
    obtain ⟨w', ho, hw', hregs, hpc⟩ := ih (fun y hy => hx y (List.mem_cons_of_mem _ hy)) (State.warp?_modWarp_of hw fun w => w.leaves b) hd
    rw [List.foldl_cons, htry]
    exact ⟨w', (OnlyWid.modWarp s wid fun w => w.leaves b).trans ho, hw', (Warp.leaves_regs w b).trans hregs,
      fun l hl _ => hpc l hl (.inr (Warp.pc_leaves w b hl))⟩

/-- The waits that a wake of a service core tries: its one warp's. -/
theorem State.haltWake_tries {s : State} {n : Nat} {w : Warp} {b : Blocked}
    (hone : ∀ e ∈ s.warps, coreOf e.1 = 192 + n → e = (64 * (192 + n), w))
    (hw : s.warp? (64 * (192 + n)) = some w) (ha : s.awake w = true) (hb : w.blocked = [b]) (hh : b.what = .halt) :
    ∃ xs : List (Nat × Blocked), xs ≠ [] ∧ (∀ x ∈ xs, x = (64 * (192 + n), b)) ∧
      s.haltWake n = xs.foldl (fun s x => s.tryHalt x.1 x.2) s := by
  have hcore : coreOf (64 * (192 + n)) = 192 + n := by unfold coreOf; omega
  have hmem : (64 * (192 + n), w) ∈ s.warpsOfCore (192 + n) :=
    List.mem_filter.2 ⟨Tab.mem_of_look hw, by simp [hcore]⟩
  have hall : ∀ e ∈ s.warpsOfCore (192 + n), e = (64 * (192 + n), w) := fun e he => by
    obtain ⟨hin, hc⟩ := List.mem_filter.1 he
    exact hone e hin (by simpa using hc)
  have hwaits : (w.blocked.filter fun b => isHalt b.what) = [b] := by rw [hb]; simp [hh, isHalt]
  refine ⟨_, ?_, ?_, rfl⟩
  · refine List.ne_nil_of_mem (a := (64 * (192 + n), b)) (List.mem_flatMap.2 ⟨_, hmem, ?_⟩)
    simp [ha, hwaits]
  · intro x hx
    obtain ⟨e, he, hxe⟩ := List.mem_flatMap.1 hx
    rw [hall e he] at hxe
    simpa [ha, hwaits] using hxe

/-- Settles O45. -/
theorem waitRowsComplete : Obligations.WaitRowsComplete := by
  refine ⟨fun s wid lane key v w b p hw ha hb hp ho hs hr hl => ?_, fun s wid lane key v w b p hw ha hb hp ho hs hr hl => ?_,
    fun s n w b hone hw ha hb hh hd => ?_⟩
  · have hread := ReadLeft.rereadLine hs wid p.sp key
    have hleft := hread.warpLeft hw
    have hexec : exec (.pollReread wid lane) s = .next (s.pollAgain wid b p) := congrArg done (State.pollReread_paid hw ha hb hp ho)
    rw [State.pollAgain_read hr hl] at hexec
    cases hh : pollHolds p v
    · rw [hh, if_neg Bool.false_ne_true, hread.clkOf] at hexec
      have h := hleft.modWarp fun w => w.awaitsNow b (.poll { p with k := p.k + 1, due := (s.clk wid).toNat + pollDelay (p.k + 1) p.bo, owed := 0 })
      exact ⟨_, _, hexec, h.warp, h.bytes, h.ap, h.blocks, ⟨rfl, rfl, rfl⟩, rfl, Warp.mem_awaitsNow _ (Warp.waitOf_mem hb)⟩
    · rw [hh, if_pos rfl] at hexec
      have h := State.pollPass_left hleft b p v
      exact ⟨_, _, hexec, h.warp, h.bytes, h.ap, h.blocks, fun l _ hin => w.polled_value b p v hin,
        fun m l hl32 hm => w.polled_others b p v hl32 hm⟩
  · have hread := ReadLeft.rereadWide hs wid key
    have hleft := hread.warpLeft hw
    have hexec : exec (.mwaitWake wid lane) s = .next (s.mwaitAgain wid b p) := congrArg done (State.mwaitWake_paid hw ha hb hp ho)
    rw [State.mwaitAgain_read hr hl] at hexec
    cases hh : mwaitHolds p v
    · rw [hh, if_neg Bool.false_ne_true, hread.versionAt] at hexec
      have h := hleft.modWarp fun w => w.awaitsNow b (.mwait { p with ver := s.versionAt key, owed := 0 })
      exact ⟨_, _, hexec, h.warp, h.bytes, h.ap, h.blocks, ⟨rfl, rfl, rfl⟩, rfl, Warp.mem_awaitsNow _ (Warp.waitOf_mem hb)⟩
    · rw [hh, if_pos rfl] at hexec
      have h := State.mwaitPass_left hleft b p v
      exact ⟨_, _, hexec, h.warp, h.bytes, h.ap, h.blocks, fun l _ hin => w.mwaited_value b p v hin⟩
  · obtain ⟨xs, hne, hx, hxs⟩ := State.haltWake_tries hone hw ha hb hh
    have hdoor : s.ap! (offDoor (svcOf (coreOf (64 * (192 + n))))) ≠ 0 := by
      rwa [show svcOf (coreOf (64 * (192 + n))) = n by unfold svcOf coreOf; omega]
    obtain ⟨w', ho, hw', hregs, hpc⟩ := State.foldl_tryHalt xs hx hw hdoor
    rw [← hxs] at ho hw'
    exact ⟨_, w', rfl, ho, hw', hregs, fun l _ hin => hpc l hin (.inl hne)⟩

end Sys2Proof.Machine
end


section
/-!
PROOFS. Loads that read once for the warp, and at the lines' homes with their versions: `kld` and `ldv`.
Settles O20 of spec/04_isa_control_integer.md.
-/

namespace Sys2Proof.Machine

/-! ### What an access leaves (R280, R295, R307) -/

section
variable {s : State}

theorem ReadLeft.fillTlb (hs : s.ap! offInjMask = 0) (core ctx : Nat) (va : DWord) : ReadLeft s (s.fillTlb core ctx va) := by
  unfold State.fillTlb
  refine .ite (fun _ => .refl s) fun _ => ?_
  split
  · exact .refl s
  · have hwalk : ReadLeft s (s.walked core ctx va) := .foldl (fun s l hs => .homeLine hs core l) _ hs
    exact (hwalk.trans (.modCore _ core _)).trans (.modMem _ _ rfl rfl)

theorem ReadLeft.tlbUsed (hs : s.ap! offInjMask = 0) (wid ctx : Nat) (lanes : Word) (ea : Nat → DWord) :
    ReadLeft s (s.tlbUsed wid ctx lanes ea) := by
  have h := ReadLeft.foldl (f := fun s p => s.fillTlb (coreOf wid) ctx (BitVec.ofNat 64 (p * 65536)))
    (fun s p hs => .fillTlb hs ..) (distinct ((lanesOf lanes).map fun l => (ea l).toNat / 65536)) hs
  exact h.trans (.inject (h.disarmed hs) ..)

theorem ReadLeft.used (hs : s.ap! offInjMask = 0) (c : Ctx) (sp : Spc) (ea : Warp → Nat → DWord) : ReadLeft s (s.used c sp ea) := by
  cases sp with
  | s => exact .refl s
  | g =>
    change ReadLeft s (s.withWarp c.wid _)
    unfold State.withWarp
    split
    · exact .refl s
    · exact .tlbUsed hs ..

theorem ReadLeft.fillL1 (s : State) (core line : Nat) : ReadLeft s (s.fillL1 core line) := by
  unfold State.fillL1
  refine .ite (fun _ => .refl s) fun _ => ?_
  exact (ReadLeft.ite (fun _ => .fetchRemote ..) fun _ => .refl s).trans (.modCore _ core _)

theorem ReadLeft.loaded (hs : s.ap! offInjMask = 0) (core owner : Nat) (sp : Spc) (spots : List Spot) :
    ReadLeft s (s.loaded core owner sp spots) := by
  cases sp with
  | s => exact .inject hs ..
  | g =>
    refine .foldl (fun s line hs => .ite (fun _ => .refl s) fun _ => ?_) _ hs
    have hhome : ReadLeft s (if ((Tab.look (s.core core).l1 line).isSome && Config.keeps s.own.freeCount (2 * line + 1)) = true then s
        else s.homeLine core line) := .ite (fun _ => .refl s) fun _ => .homeLine hs core line
    refine hhome.trans (.ite (fun _ => .refl _) fun _ => ?_)
    have hfill := ReadLeft.fillL1 (if ((Tab.look (s.core core).l1 line).isSome && Config.keeps s.own.freeCount (2 * line + 1)) = true then s
        else s.homeLine core line) core line
    exact hfill.trans (.inject ((hhome.trans hfill).disarmed hs) ..)

theorem ReadLeft.mark (hs : s.ap! offInjMask = 0) (wid : Nat) (sp : Spc) (spots : List Spot) (n : Nat) (write : Bool) :
    ReadLeft s (s.mark wid sp spots n write) := by
  unfold State.mark
  split
  · refine .ite (fun _ => .refl s) fun _ => ?_
    exact .foldl (fun s p _ => .ite (fun _ => .refl s) fun _ => .modMem _ _ rfl rfl) _ hs
  · exact .refl s

end

/-! ### What an access finds at its effect, and at its issue -/

/-- The checks for races find at an effect what they find at issue (R296). -/
theorem State.raceTrap_begun {s : State} {f : Form} {n : Nat} {w : Warp} (h : s.warp? s.cur = some w) {ea : Warp → Nat → DWord}
    (hea : ea (w.atIssue f s) = ea w) (sp : Spc) (spots : List Spot) (k : Nat) (write : Bool) :
    (s.begun f n w).raceTrap s.cur sp spots k write ea = s.raceTrap s.cur sp spots k write ea := by
  have hlook := LooksAlike.begun s f n w
  have hrec : (s.begun f n w).racing (w.atIssue f s) = s.racing w := by
    unfold State.racing State.recOf State.block?
    rw [hlook.blocks]
    rfl
  have hconflict : ∀ lane key, (s.begun f n w).conflict (w.atIssue f s) s.cur lane key k write = s.conflict w s.cur lane key k write := by
    intro lane key
    unfold State.conflict State.checked
    rw [hlook.mem]
    rfl
  unfold State.raceTrap
  rw [State.begun_warp h, h]
  cases sp with
  | s => rfl
  | g => simp only [hrec, hconflict, hea]

/-- A load reads at its effect what it would read at issue. -/
theorem State.loadNum_begun (s : State) (f : Form) (n : Nat) (w : Warp) (core : Nat) (sp : Spc) (key k : Nat) :
    (s.begun f n w).loadNum core (w.atIssue f s) sp key k = s.loadNum core w sp key k := by
  have hlook := LooksAlike.begun s f n w
  have hstood : Stood s (s.begun f n w) := .begun
  have hbyte : ∀ off, (s.begun f n w).apByte off = s.apByte off := State.apByte_of hstood.ap hstood.dies hstood.dev
  have hload : ∀ i, (s.begun f n w).loadByte core w.blk sp i = s.loadByte core w.blk sp i := by
    intro i
    unfold State.loadByte State.spadByte State.block? State.readL1 State.beyondL1 State.l2Valid
    simp only [hbyte, hlook.mem, hlook.blocks, hlook.own, hlook.l1]
  unfold State.loadNum
  simp only [Warp.atIssue_blk, hload]
  rfl

/-! ### An access in its instruction -/

/-- A change of a warp's registers and of its outstanding loads alone. -/
structure OnlyLoads (v u : Warp) : Prop where
  standing : SameStanding v u
  rlimit : u.rlimit = v.rlimit
  rcount : u.rcount = v.rcount
  tcmp : u.tcmp = v.tcmp
  timer : u.timer = v.timer
  frec : u.frec = v.frec
  tclass : u.tclass = v.tclass
  rseq : u.rseq = v.rseq
  budget : u.budget = v.budget
  rev : u.rev = v.rev
  blocked : u.blocked = v.blocked
  rsb : u.rsb = v.rsb
  pcv : u.pcv = v.pcv

theorem Quiet.onlyLoads {v u : Warp} (h : Quiet v u) (hp : u.pcv = v.pcv) : OnlyLoads v u :=
  ⟨h.standing, h.rlimit, h.rcount, h.tcmp, h.timer, h.frec, h.tclass, h.rseq, h.budget, h.rev, h.blocked, h.rsb, hp⟩

theorem OnlyLoads.loading {v u : Warp} (h : OnlyLoads v u) (regs : List Nat) (en : Word) : OnlyLoads v (u.loading regs en) := by
  obtain ⟨h1, h2, h3, h4, h5, h6, h7, h8, h9, h10, h11, h12, h13, h14, h15⟩ := h.standing
  exact ⟨⟨h1, h2, h3, h4, h5, h6, h7, h8, h9, h10, h11, h12, h13, h14, h15⟩, h.rlimit, h.rcount, h.tcmp, h.timer, h.frec, h.tclass, h.rseq,
    h.budget, h.rev, h.blocked, h.rsb, h.pcv⟩

/-- A ready instruction whose effect reads and changes its warp from `w` to `v`: what it leaves. -/
structure Accessed (f : Form) (s t : State) (w v w' : Warp) : Prop where
  warp : t.warp? s.cur = some w'
  regs : SameRegs v w'
  rsb : w'.rsb = w.rsb
  advanced : Advanced (issueCtx f s w) w w'
  specials : SameSpecials w w'
  standing : SameStanding w w'
  bytes : SameBytes s t
  ver : t.mem.ver = s.mem.ver
  elsewhere : SameElsewhere s t

theorem ReadLeft.sameElsewhere {s t u : State} (g : ReadLeft t u) (h : SameElsewhere s t) : SameElsewhere s u :=
  ⟨g.ap.trans h.ap, g.blocks.trans h.blocks, g.grids.trans h.grids, g.dev.trans h.dev, fun k hk => (g.warp? k).trans (h.warps k hk)⟩

/-- The effect of an access: reads, a change `g` of the warp's registers, the advance of its lanes, and the reads of an acquire. -/
theorem State.issue_accesses {s S T : State} {f : Form} {w : Warp} {n : Nat} (steps : Ctx → State → Nat) (body : Ctx → State → State)
    (g : Warp → Warp) (hr : Ready f n s w) (hs : steps (issueCtx f s w) s = n) (he : (issueCtx f s w).en ≠ 0)
    (hS : ReadLeft (s.begun f n w) S) (hT : ReadLeft (S.modWarp s.cur fun v => (g v).advance w.group f.len) T)
    (hbody : body (issueCtx f s w) (s.begun f n w) = T) (hg : OnlyLoads (w.atIssue f s) (g (w.atIssue f s))) :
    ∃ w', Accessed f s (s.issue f (fun _ _ => true) steps body) w (g (w.atIssue f s)) w' := by
  have hstood : Stood s (s.begun f n w) := .begun
  have helse : SameElsewhere s T := hT.sameElsewhere ((hS.sameElsewhere hstood.toSameElsewhere).modWarp _)
  have hbytes : SameBytes s T := fun a => (hT.sameBytes a).trans ((hS.sameBytes a).trans (congrArg (Mem.byte · a) hstood.mem))
  have hver : T.mem.ver = s.mem.ver := hT.ver.trans (hS.ver.trans (congrArg Mem.ver hstood.mem))
  have hw : T.warp? s.cur = some ((g (w.atIssue f s)).advance w.group f.len) := by
    rw [hT.warp?]
    exact State.warp?_modWarp_of ((hS.warp? _).trans (State.begun_warp hr.cur)) fun v => (g v).advance w.group f.len
  obtain ⟨w', ht, hw', hsame, -, hpc⟩ := State.issue_effect (fun _ _ => true) steps body hr rfl hs he hbody hw
  have hmoved : Quiet (g (w.atIssue f s)) ((g (w.atIssue f s)).advance w.group f.len) := .advance ..
  have hissued : Quiet w (w.atIssue f s) := .atIssue ..
  have hblocked : ((g (w.atIssue f s)).advance w.group f.len).blockedLanes = w.blockedLanes :=
    blockedLanes_of_blocked (hmoved.blocked.trans (hg.blocked.trans hissued.blocked))
  have hrev : ((g (w.atIssue f s)).advance w.group f.len).rev = w.rev := hmoved.rev.trans (hg.rev.trans hissued.rev)
  have hpcs : ∀ l < 32, ((g (w.atIssue f s)).advance w.group f.len).pc l = if laneIn w.group l then w.pc l + BitVec.ofNat 64 f.len else w.pc l := by
    intro l hl
    have hpc : (g (w.atIssue f s)).pc l = w.pc l := by rw [Warp.pc, hg.pcv, Warp.atIssue_pcv, Warp.pc]
    rw [Warp.pc_advance _ _ _ hl, hpc]
  have hstanding := ((hissued.standing.trans hg.standing).trans hmoved.standing).trans hsame.standing
  refine ⟨w', hw', ⟨hsame.regs.x, hsame.regs.k, hsame.regs.m⟩, hsame.rsb.trans (hmoved.rsb.trans (hg.rsb.trans hissued.rsb)),
    advanced_of hblocked hpcs hpc, ?_, hstanding, fun a => by rw [ht]; exact hbytes a, by rw [ht]; exact hver, by rw [ht]; exact helse.modWarp _⟩
  refine ⟨hsame.rlimit.trans (hmoved.rlimit.trans (hg.rlimit.trans hissued.rlimit)),
    hsame.rcount.trans (hmoved.rcount.trans (hg.rcount.trans hissued.rcount)), hsame.tcmp.trans (hmoved.tcmp.trans (hg.tcmp.trans hissued.tcmp)),
    hsame.timer.trans (hmoved.timer.trans (hg.timer.trans hissued.timer)), hsame.frec.trans (hmoved.frec.trans (hg.frec.trans hissued.frec)),
    hsame.tclass.trans (hmoved.tclass.trans (hg.tclass.trans hissued.tclass)), hsame.rseq.trans (hmoved.rseq.trans (hg.rseq.trans hissued.rseq)),
    hsame.budget.trans (hmoved.budget.trans (hg.budget.trans hissued.budget)), fun l hl hu => ?_⟩
  rw [(hpc l hl (hblocked ▸ hu)).2, Warp.revOf, hrev, Warp.revOf]

/-! ### kld (R130) -/

/-- A warp-uniform access names one line (R25). -/
theorem lineSteps_uniform {f : Form} {s : State} {w : Warp} (h : s.warp? s.cur = some w) (price : Nat) (ea : Warp → Nat → DWord) :
    lineSteps price ea (issueCtx f s w).uniform s = price := by
  have hlane : (lanesOf (issueCtx f s w).en).headD 0 < 32 := by
    cases hl : lanesOf (issueCtx f s w).en with
    | nil => exact Nat.zero_lt_succ _
    | cons l r => exact ((mem_lanesOf _ l).1 (hl ▸ List.mem_cons_self)).1
  have hone : (linesNamed (issueCtx f s w).uniform.en (ea w)).length = 1 := by
    rw [linesNamed, Ctx.uniform, lanesOf_laneBit hlane]
    rfl
  rw [lineSteps, show (issueCtx f s w).uniform.wid = s.cur from rfl, h]
  dsimp only
  rw [hone, Nat.mul_one]

/-- With every line at home and no stage, an access goes on. -/
theorem State.whenHome_goes {s : State} {c : Ctx} {st : Stage} {lines : List Nat} {w : Warp} (go : State → State) (hw : s.warp? c.wid = some w)
    (hn : w.stage = none) (hl : ∀ l ∈ lines, s.leasedOut l = false) : s.whenHome c st lines go = go s := by
  have hany : lines.any s.leasedOut = false := by
    rw [List.any_eq_false]
    exact fun l hl' => by rw [hl l hl']; exact Bool.false_ne_true
  rw [State.whenHome, hany, if_neg Bool.false_ne_true, hw, Option.bind_some, hn]

/-- The lines of an access that reaches its bytes are at home when its effect runs. -/
theorem Reaches.linesHome {s T : State} {lanes : Word} {a : Acc} {n align : Nat} {ea : Warp → Nat → DWord} {spots : List Spot}
    (h : Reaches s lanes a .g n align ea spots) (hT : Stood s T) : ∀ l ∈ distinct (spots.map fun p => lineOf p.2), T.leasedOut l = false := by
  intro l hl
  obtain ⟨p, hp, rfl⟩ := List.mem_map.1 (mem_distinct.1 hl)
  rw [hT.leasedOut]
  exact h.home rfl p hp

theorem kldEa_atIssue (sp : Spc) (a : Nat) (idx : Option Nat) (off : Word) (w : Warp) (f : Form) (s : State) :
    kldEa sp a idx off (w.atIssue f s) = kldEa sp a idx off w := rfl

/-- The effect of a `kld` that reaches its bytes: reads, the k-register, and the advance. -/
theorem Ctx.loadK_reaches {f : Form} {s : State} {w : Warp} {n key lane d a : Nat} {sp : Spc} {idx : Option Nat} {off : Word}
    (hr : Ready f n s w) (h : Reaches s (issueCtx f s w).uniform.en .read sp 8 8 (kldEa sp a idx off) [(lane, key)])
    (hrace : s.raceTrap s.cur sp [(lane, key)] 8 false (kldEa sp a idx off) = none) :
    ∃ S, ReadLeft (s.begun f n w) S ∧ (issueCtx f s w).loadK sp d (kldEa sp a idx off) (s.begun f n w)
      = S.modWarp s.cur fun v => (v.setK d (BitVec.ofNat 64 (s.loadNum (coreOf s.cur) w sp key 8))).advance w.group f.len := by
  have hw := State.begun_warp (n := n) (f := f) hr.cur
  have hstood : Stood s (s.begun f n w) := .begun
  have harmed : (s.begun f n w).ap! offInjMask = 0 := (State.ap!_of_ap hstood.ap _).trans hr.disarmed
  have hreach := (State.reach_begun (f := f) (n := n) hr.cur (kldEa_atIssue sp a idx off w f s) (issueCtx f s w).uniform.en
    .read sp 8 8).trans h.found
  have hclear : ∀ go, (s.begun f n w).cleared (issueCtx f s w) sp [(lane, key)] 8 false (kldEa sp a idx off) go = go (s.begun f n w) := by
    intro go
    have hrace' := (State.raceTrap_begun (f := f) (n := n) hr.cur (kldEa_atIssue sp a idx off w f s) sp [(lane, key)] 8 false).trans hrace
    unfold State.cleared
    rw [show (issueCtx f s w).wid = s.cur from rfl, hrace']
    refine State.whenHome_goes go hw rfl ?_
    cases sp with
    | s => exact fun _ h => nomatch h
    | g => exact h.linesHome hstood
  have hused := ReadLeft.used harmed (issueCtx f s w).uniform sp (kldEa sp a idx off)
  have hloaded := hused.trans (.loaded (hused.disarmed harmed) (coreOf s.cur) w.ctx sp [(lane, key)])
  refine ⟨_, hloaded.trans (.mark (hloaded.disarmed harmed) s.cur sp [(lane, key)] 8 false), ?_⟩
  rw [Ctx.loadK, show (issueCtx f s w).wid = s.cur from rfl, State.withWarp_of hw, hreach]
  dsimp only
  rw [hclear]
  simp only [State.loadNum_begun, Ctx.scaEffect]
  rfl

theorem execKld_loads {g d a : Nat} {sp : Spc} {idx : Option Nat} {off : BitVec 32} {f : Form} {s : State} {w : Warp} {key lane : Nat}
    (hf : f = eForm g 3) (he : (issueCtx f s w).en ≠ 0) (hr : Ready f 6 s w)
    (h : Reaches s (issueCtx f s w).uniform.en .read sp 8 8 (kldEa sp a idx off) [(lane, key)])
    (hrace : s.raceTrap s.cur sp [(lane, key)] 8 false (kldEa sp a idx off) = none) :
    ∃ t w', exec (.kld g sp d a idx off) s = .next t ∧
      Accessed f s t w ((w.atIssue f s).setK d (BitVec.ofNat 64 (s.loadNum (coreOf s.cur) w sp key 8))) w' := by
  subst hf
  obtain ⟨S, hS, hbody⟩ := Ctx.loadK_reaches (d := d) hr h hrace
  obtain ⟨w', hw'⟩ := State.issue_accesses (fun c s => lineSteps 6 (kldEa sp a idx off) c.uniform s)
    (fun c s => c.loadK sp d (kldEa sp a idx off) s) (fun v => v.setK d (BitVec.ofNat 64 (s.loadNum (coreOf s.cur) w sp key 8))) hr
    (lineSteps_uniform hr.cur 6 _) he hS (.refl _) hbody ((Quiet.setK ..).onlyLoads rfl)
  exact ⟨_, w', rfl, hw'⟩

/-! ### ldv (R174) -/

/-- Bytes of the value: eight where the access is wide, else four. -/
abbrev ldvBytes (wide : Bool) : Nat := if wide then 8 else 4
/-- The register of the version: the one behind those of the value. -/
abbrev ldvVer (wide : Bool) (d : Nat) : Nat := if wide then d + 2 else d + 1

/-- The registers that `ldv` writes, from what is found at the lanes' places (R174). -/
def Warp.versioned (w : Warp) (wide : Bool) (d : Nat) (en : Word) (val : Nat → DWord) (ver : Nat → Word) : Warp :=
  ((w.setXn wide d en val).setX (ldvVer wide d) en ver).loading (regPair wide d ++ [ldvVer wide d]) en

theorem ldvVer_notMem (wide : Bool) (d : Nat) : ldvVer wide d ∉ regPair wide d := by
  cases wide <;> simp [regPair, ldvVer]

theorem Warp.versioned_onlyLoads (w : Warp) (wide : Bool) (d : Nat) (en : Word) (val : Nat → DWord) (ver : Nat → Word) :
    OnlyLoads w (w.versioned wide d en val ver) :=
  ((((Quiet.setXn w wide d en val).trans (.setX ..))).onlyLoads (by simp)).loading _ _

theorem Warp.versioned_others (w : Warp) (wide : Bool) (d : Nat) (en : Word) (val : Nat → DWord) (ver : Nat → Word) :
    (w.versioned wide d en val ver).k = w.k ∧ (w.versioned wide d en val ver).m = w.m := by
  have h := Warp.setX_k (w.setXn wide d en val) (ldvVer wide d) en ver
  have h' := Warp.setX_m (w.setXn wide d en val) (ldvVer wide d) en ver
  exact ⟨h.trans (Warp.setXn_k ..), h'.trans (Warp.setXn_m ..)⟩

theorem Warp.xr_versioned (w : Warp) (wide : Bool) (d : Nat) (en : Word) (val : Nat → DWord) (ver : Nat → Word) (m : Nat)
    {l : Nat} (hl : l < 32) :
    (w.versioned wide d en val ver).xr m l
      = if m = ldvVer wide d ∧ laneIn en l then ver l else (w.setXn wide d en val).xr m l := Warp.xr_setX _ _ _ _ _ hl

theorem Warp.xn_versioned (w : Warp) (wide : Bool) (d : Nat) (en : Word) (val : Nat → DWord) (ver : Nat → Word)
    {l : Nat} (hl : laneIn en l = true) :
    (w.versioned wide d en val ver).xn wide d l = Machine.held wide (val l) := by
  have hx : ∀ m ∈ regPair wide d, (w.versioned wide d en val ver).xr m l = (w.setXn wide d en val).xr m l := by
    intro m hm
    rw [Warp.xr_versioned _ _ _ _ _ _ _ (laneIn_lt hl), if_neg]
    rintro ⟨rfl, -⟩
    exact ldvVer_notMem wide d hm
  refine Eq.trans ?_ (Warp.xn_setXn w wide d en val hl)
  cases wide
  · simp only [Warp.xn, Bool.false_eq_true, if_false, hx d (by simp [regPair])]
  · simp only [Warp.xn, if_true, hx d (by simp [regPair]), hx (d + 1) (by simp [regPair])]

/-- What is found at a lane's place, for a lane that has one. -/
theorem atLane_map {α : Type} (z : α) (h : Nat → α) {spots : List Spot} {l : Nat} (hl : ∃ p ∈ spots, p.1 = l) :
    atLane z (spots.map fun p => (p.1, h p.2)) l = h (atLane 0 spots l) := by
  unfold atLane
  rw [List.find?_map, show ((fun p : Nat × α => p.1 == l) ∘ fun p : Spot => (p.1, h p.2)) = fun p => p.1 == l from rfl]
  cases hf : spots.find? fun p => p.1 == l with
  | some p => rfl
  | none =>
    obtain ⟨p, hp, rfl⟩ := hl
    exact absurd (List.find?_eq_none.1 hf p hp) (by simp)

/-- Every enabled lane of an access that reaches memory has its place. -/
theorem Reaches.hasSpot {s : State} {w : Warp} {lanes : Word} {a : Acc} {n align : Nat} {ea : Warp → Nat → DWord} {spots : List Spot}
    (h : Reaches s lanes a .g n align ea spots) (hw : s.warp? s.cur = some w) {l : Nat} (hl : laneIn lanes l = true) : ∃ p ∈ spots, p.1 = l := by
  have hr := h.found
  unfold State.reach at hr
  rw [hw] at hr
  dsimp only at hr
  split at hr
  · nomatch hr
  · obtain ⟨p, hp, hf⟩ := tryAll_mem hr l ((mem_lanesOf lanes l).2 ⟨laneIn_lt hl, hl⟩)
    refine ⟨p, hp, ?_⟩
    split at hf
    · nomatch hf
    · split at hf
      · nomatch hf
      · cases hf; rfl

theorem held_homeRead (s : State) (wide : Bool) (blk : Nat) (sp : Spc) (key : Nat) :
    held wide (BitVec.ofNat 64 (s.homeRead blk sp key (ldvBytes wide))) = BitVec.ofNat 64 (s.homeRead blk sp key (ldvBytes wide)) := by
  cases wide with
  | true => rfl
  | false =>
    have hlt : s.homeRead blk sp key 4 < 256 ^ 4 := State.homeRead_lt _ sp 4
    apply BitVec.eq_of_toNat_eq
    simp only [held, ldvBytes, Bool.false_eq_true, if_false, BitVec.toNat_setWidth, BitVec.toNat_ofNat]
    omega

/-- The form of `ldv`. -/
abbrev ldvForm (wide : Bool) (d : Nat) (e : Sys2Proof.Mem) : Form :=
  { eForm e.g 4 (memRegs e) (memKeep e []) with dst := regPair wide d ++ [ldvVer wide d] }

/-- The warp that `ldv` leaves before its lanes advance. -/
def Warp.loadedV (w : Warp) (s : State) (wide : Bool) (d : Nat) (en : Word) (spots : List Spot) (blk : Nat) : Warp :=
  w.versioned wide d en (atLane 0 (spots.map fun p => (p.1, BitVec.ofNat 64 (s.homeRead blk .g p.2 (ldvBytes wide)))))
    (atLane 0 (spots.map fun p => (p.1, s.versionAt p.2)))

/-- The effect of an `ldv` that reaches its bytes: reads, the registers, the advance, and its acquire. -/
theorem Ctx.loadV_reaches {wide : Bool} {acq : Option Scope} {d n : Nat} {e : Sys2Proof.Mem} {f : Form} {s : State} {w : Warp}
    {spots : List Spot} (hr : Ready f n s w) (h : Reaches s (issueCtx f s w).en .read .g (ldvBytes wide) (ldvBytes wide) (memEa .g e) spots) :
    ∃ S T, ReadLeft (s.begun f n w) S ∧
      ReadLeft (S.modWarp s.cur fun v => (v.loadedV s wide d (issueCtx f s w).en spots w.blk).advance w.group f.len) T ∧
      (issueCtx f s w).loadV wide acq d e (s.begun f n w) = T := by
  have hw := State.begun_warp (n := n) (f := f) hr.cur
  have hstood : Stood s (s.begun f n w) := .begun
  have harmed : (s.begun f n w).ap! offInjMask = 0 := (State.ap!_of_ap hstood.ap _).trans hr.disarmed
  have hreach := (State.reach_begun (f := f) (n := n) hr.cur (show memEa .g e (w.atIssue f s) = memEa .g e w from rfl) (issueCtx f s w).en .read .g
    (ldvBytes wide) (ldvBytes wide)).trans h.found
  have hver : ∀ key, (s.begun f n w).versionAt key = s.versionAt key := by
    intro key
    unfold State.versionAt
    rw [(LooksAlike.begun s f n w).own, hstood.mem]
  have hused := ReadLeft.used harmed (issueCtx f s w) .g (memEa .g e)
  have hhomes := hused.trans (.foldl (fun _ l hs => .homeLine hs (coreOf s.cur) l) (distinct (spots.map fun p => lineOf p.2)) (hused.disarmed harmed))
  have hsaw := hhomes.trans (.foldl (f := fun s' p => (s'.sawHome (coreOf s.cur) p.2).sawHome (coreOf s.cur) (p.2 + ldvBytes wide - 1))
    (fun _ _ _ => (ReadLeft.sawHome ..).trans (.sawHome ..)) spots (hhomes.disarmed harmed))
  refine ⟨_, _, hsaw, .acquireBy _ (coreOf s.cur) acq, ?_⟩
  rw [Ctx.loadV, show (issueCtx f s w).wid = s.cur from rfl, State.withWarp_of hw]
  dsimp only
  rw [hreach]
  dsimp only
  rw [State.whenHome_goes _ hw rfl (h.linesHome hstood)]
  simp only [hstood.homeRead, hver]
  rfl

theorem execLdv_loads {wide : Bool} {acq : Option Scope} {d : Nat} {e : Sys2Proof.Mem} {f : Form} {s : State} {w : Warp} {spots : List Spot}
    (hf : f = ldvForm wide d e) (he : (issueCtx f s w).en ≠ 0)
    (hr : Ready f (6 * (linesNamed (issueCtx f s w).en (memEa .g e w)).length) s w)
    (h : Reaches s (issueCtx f s w).en .read .g (ldvBytes wide) (ldvBytes wide) (memEa .g e) spots) :
    ∃ t w', exec (.ldv wide acq d e) s = .next t ∧
      Accessed f s t w ((w.atIssue f s).loadedV s wide d (issueCtx f s w).en spots w.blk) w' := by
  subst hf
  obtain ⟨S, T, hS, hT, hbody⟩ := Ctx.loadV_reaches (acq := acq) (d := d) hr h
  have hsteps : lineSteps 6 (memEa .g e) (issueCtx (ldvForm wide d e) s w) s
      = 6 * (linesNamed (issueCtx (ldvForm wide d e) s w).en (memEa .g e w)).length := by
    rw [lineSteps, show (issueCtx (ldvForm wide d e) s w).wid = s.cur from rfl, hr.cur]
  obtain ⟨w', hw'⟩ := State.issue_accesses (lineSteps 6 (memEa .g e)) (fun c s => c.loadV wide acq d e s)
    (fun v => v.loadedV s wide d (issueCtx (ldvForm wide d e) s w).en spots w.blk) hr hsteps he hS hT hbody (Warp.versioned_onlyLoads ..)
  exact ⟨_, w', rfl, hw'⟩

/-- The registers of a warp that a `kld` leaves (R130). -/
theorem Accessed.kld {f : Form} {s t : State} {w w' : Warp} {d : Nat} {v : DWord} (h : Accessed f s t w ((w.atIssue f s).setK d v) w') :
    w'.kr d = v ∧ (∀ n, n ≠ d → w'.kr n = w.kr n) ∧ w'.x = w.x ∧ w'.m = w.m := by
  refine ⟨?_, fun n hn => ?_, ?_, ?_⟩
  · rw [h.regs.kr, Warp.kr_setK_self]
  · rw [h.regs.kr, Warp.kr_setK, if_neg hn, (SameRegs.atIssue w f s).kr]
  · rw [h.regs.x, Warp.setK_x, Warp.atIssue_x]
  · rw [h.regs.m, Warp.setK_m, Warp.atIssue_m]

/-- The registers of a warp that an `ldv` leaves (R174). -/
theorem Accessed.ldv {f : Form} {s t : State} {w w' : Warp} {wide : Bool} {d : Nat} {en : Word} {val : Nat → DWord} {ver : Nat → Word}
    (h : Accessed f s t w ((w.atIssue f s).versioned wide d en val ver) w') :
    (∀ l, laneIn en l = true → w'.xn wide d l = held wide (val l) ∧ w'.xr (ldvVer wide d) l = ver l) ∧
      (∀ m, ∀ l < 32, (m ∉ regPair wide d ∧ m ≠ ldvVer wide d) ∨ laneIn en l = false → w'.xr m l = w.xr m l) ∧
      w'.k = w.k ∧ w'.m = w.m := by
  obtain ⟨hk, hm⟩ := (w.atIssue f s).versioned_others wide d en val ver
  refine ⟨fun l hl => ⟨?_, ?_⟩, fun m l hl hn => ?_, ?_, ?_⟩
  · rw [h.regs.xn, Warp.xn_versioned _ _ _ _ _ _ hl]
  · rw [h.regs.xr, Warp.xr_versioned _ _ _ _ _ _ _ (laneIn_lt hl), if_pos ⟨rfl, hl⟩]
  · have hver : ¬ (m = ldvVer wide d ∧ laneIn en l = true) := by
      rintro ⟨rfl, hin⟩
      rcases hn with hn | hn
      · exact hn.2 rfl
      · rw [hin] at hn; nomatch hn
    rw [h.regs.xr, Warp.xr_versioned _ _ _ _ _ _ _ hl, if_neg hver, Warp.xr_setXn_ne _ _ _ _ _ _ hl (hn.imp_left And.left),
      (SameRegs.atIssue w f s).xr]
  · rw [h.regs.k, hk, Warp.atIssue_k]
  · rw [h.regs.m, hm, Warp.atIssue_m]

/-- Settles O20: an access that reaches its bytes reads them, with the versions of their lines, before it leaves anything behind; what it
leaves are reads and the registers it writes. -/
theorem scalarAndVersionLoadsComplete : Obligations.ScalarAndVersionLoadsComplete := by
  refine ⟨?_, ?_⟩
  · rintro g d a sp idx off f c s w key lane hf rfl he hr h hrace
    obtain ⟨t, w', ht, hacc⟩ := execKld_loads (d := d) hf he hr h hrace
    obtain ⟨hval, hkr, hx, hm⟩ := hacc.kld
    exact ⟨t, w', ht, hacc.warp, hval, hkr, hx, hm, hacc.rsb, hacc.advanced, hacc.standing, hacc.specials, hacc.bytes, hacc.elsewhere⟩
  · rintro wide acq d n vd e f c s w spots rfl rfl hf rfl he hr h
    obtain ⟨t, w', ht, hacc⟩ := execLdv_loads (acq := acq) hf he hr h
    obtain ⟨hval, hxr, hk, hm⟩ := hacc.ldv
    refine ⟨t, w', ht, hacc.warp, fun l hl => ?_, hxr, hk, hm, hacc.rsb, hacc.advanced, hacc.standing, hacc.bytes, hacc.ver, hacc.elsewhere⟩
    obtain ⟨hx, hv⟩ := hval l hl
    have hspot := h.hasSpot hr.cur hl
    rw [atLane_map 0 (fun key => BitVec.ofNat 64 (s.homeRead w.blk .g key (ldvBytes wide))) hspot, held_homeRead] at hx
    rw [atLane_map 0 s.versionAt hspot] at hv
    exact ⟨hx, hv⟩

end Sys2Proof.Machine
end


section
/-!
PROOFS. Block conversions (spec/03 R83 to R86; spec/05 R152 to R159): their effect is a write of runs in the enabled lanes, and `cbx` makes
its own from the base-table entries that its lanes reach. Settles O32 of spec/05_isa_vector_convert.md.
-/

namespace Sys2Proof.Machine

open Sys2Proof.Machine.Shape

/-! ### Writes of runs -/

/-- A change of a warp that writes runs of lane registers in a set of lanes, and nothing else. -/
structure WritesRun (en : Word) (val : Nat → Nat → Option Word) (v u : Warp) : Prop where
  quiet : Quiet v u
  pcv : u.pcv = v.pcv
  k : u.k = v.k
  m : u.m = v.m
  run : RunRegs en val v u

/-- Writes of lane registers leave the rest of the warp. -/
theorem WritesRun.of_keeps {en : Word} {val : Nat → Nat → Option Word} {v u : Warp}
    (keeps : ∀ P : Warp → Prop, (∀ v n en f, P v → P (v.setX n en f)) → P v → P u) (run : RunRegs en val v u) :
    WritesRun en val v u where
  quiet := keeps (Quiet v) (fun _ _ _ _ h => h.trans (.setX ..)) (.refl v)
  pcv := keeps (fun u => u.pcv = v.pcv) (fun _ _ _ _ h => (Warp.setX_pcv ..).trans h) rfl
  k := keeps (fun u => u.k = v.k) (fun _ _ _ _ h => (Warp.setX_k ..).trans h) rfl
  m := keeps (fun u => u.m = v.m) (fun _ _ _ _ h => (Warp.setX_m ..).trans h) rfl
  run := run

theorem WritesRun.setRun (v : Warp) (first n : Nat) (en : Word) (vals : Nat → List Word) :
    WritesRun en (fun l => runVal first n (vals l)) v (v.setRun first n en vals) :=
  .of_keeps (fun _ h hv => Warp.setRun_keeps h hv first n en vals) fun r _ hl => Warp.xr_setRun v first n en vals r hl

/-- One register is a run of one. -/
theorem WritesRun.setXn (v : Warp) (d : Nat) (en : Word) {val : Nat → DWord} {vals : Nat → Word} (h : ∀ l, (val l).setWidth 32 = vals l) :
    WritesRun en (fun l => runVal d 1 [vals l]) v (v.setXn false d en val) := by
  obtain rfl : (fun l => (val l).setWidth 32) = vals := funext h
  exact .setRun v d 1 en fun l => [(val l).setWidth 32]

theorem WritesRun.qntWrite (sl : Slot) (e : Cvs) (en : Word) (v : Warp) :
    WritesRun en (qntVal sl e v) v (v.qntWrite sl e en (qntLane sl e v)) :=
  .of_keeps (fun _ h hv => Warp.qntWrite_keeps sl e h hv en _) fun r _ hl => Warp.xr_qntWrite sl e v v en r hl

/-- What the other lanes would have been given does not matter. -/
theorem Shape.RunRegs.congr {en : Word} {val val' : Nat → Nat → Option Word} {w w' : Warp} (h : RunRegs en val w w')
    (hval : ∀ l, laneIn en l = true → val l = val' l) : RunRegs en val' w w' := by
  intro n l hl
  rw [h n l hl]
  cases hin : laneIn en l with
  | false => rfl
  | true => rw [if_pos rfl, if_pos rfl, hval l hin]

/-- The registers that a write of runs leaves, between warps with the same registers. -/
theorem WritesRun.regs {en : Word} {val : Nat → Nat → Option Word} {w v u w' : Warp} (h : WritesRun en val v u) (hv : SameRegs w v)
    (hw' : SameRegs u w') : w'.k = w.k ∧ w'.m = w.m ∧ RunRegs en val w w' := by
  refine ⟨hw'.k.trans (h.k.trans hv.k), hw'.m.trans (h.m.trans hv.m), fun n l hl => ?_⟩
  rw [hw'.xr, h.run n l hl, hv.xr]

/-! ### Conversions that only read and write registers (R153, R154, R156, R158, R159) -/

/-- A body that writes runs and advances. -/
abbrev Ctx.runEffect (G : Ctx → Warp → Warp) (c : Ctx) (s : State) : State := s.modWarp c.wid fun v => (G c v).advance c.iss c.len

/-- A ready instruction whose effect writes runs. -/
theorem State.issue_writesRun {s : State} {f : Form} {w : Warp} {legal : Ctx → State → Bool} {G : Ctx → Warp → Warp}
    {val : Nat → Nat → Option Word} (hr : Ready f 0 s w) (hl : legal (issueCtx f s w) s = true)
    (hG : WritesRun (issueCtx f s w).en val (w.atIssue f s) (G (issueCtx f s w) (w.atIssue f s))) :
    ∃ w', RanOnRegs f s (s.issue f legal (fun _ _ => 0) (Ctx.runEffect G)) w w' ∧ w'.k = w.k ∧ w'.m = w.m ∧
      RunRegs (issueCtx f s w).en val w w' := by
  obtain ⟨w', hran, hsame⟩ := State.issue_regs legal (Ctx.runEffect G) (fun v => (G (issueCtx f s w) v).advance w.group f.len) hr hl
    (fun _ => rfl) (hG.quiet.trans (.advance ..)) fun l hl => by
      rw [Warp.pc_advance _ _ _ hl, Warp.pc, hG.pcv]
      rfl
  refine ⟨w', hran, ?_⟩
  by_cases he : (issueCtx f s w).en = 0
  · rw [if_pos he] at hsame
    refine ⟨hsame.k, hsame.m, fun n l _ => ?_⟩
    have hnone : laneIn (issueCtx f s w).en l = false := by rw [he]; simp
    rw [hsame.xr, hnone, if_neg Bool.false_ne_true]
  · rw [if_neg he] at hsame
    exact hG.regs (.atIssue w f s) ((SameRegs.advance ..).trans hsame)

/-- An instruction of the table runs a write of its runs, of values made from the registers at issue. -/
structure RunsRun (s : State) (i : Instr) (v : RunShape) (G : Ctx → Warp → Warp) : Prop where
  exec_eq : exec i s = .next (s.issue v.form (fun _ _ => v.legal) (fun _ _ => 0) (Ctx.runEffect G))
  writes : ∀ c w f s, WritesRun c.en (v.val w) (w.atIssue f s) (G c (w.atIssue f s))

theorem runsRun {s : State} {i : Instr} {v : RunShape} (h : runs s.curSlot i = some v) : ∃ G, RunsRun s i v G := by
  unfold runs at h
  split at h
  case h_1 e =>
    obtain rfl := Option.some.inj h
    exact ⟨fun c v => v.setXn false e.d c.en fun l => BitVec.ofNat 64 (sclCode (s.curSlot e.slot) (v.xr e.a l).toNat), rfl, fun c w f t =>
      .setXn (w.atIssue f t) e.d c.en fun l => BitVec.setWidth_ofNat_of_le (by decide) _⟩
  case h_2 e =>
    obtain rfl := Option.some.inj h
    exact ⟨fun c v => v.setXn false e.d c.en fun l => (pack4Lane (s.curSlot e.slot) e v l).setWidth 64, rfl, fun c w f t =>
      .setXn (w.atIssue f t) e.d c.en fun l => (BitVec.setWidth_setWidth_of_le _ (by decide)).trans (BitVec.setWidth_eq _)⟩
  case h_3 e =>
    obtain rfl := Option.some.inj h
    exact ⟨fun c v => v.setRun e.d (wideRegs e.wide 8) c.en (unpack4Lane (s.curSlot e.slot) e v), rfl, fun c w f t =>
      .setRun (w.atIssue f t) ..⟩
  case h_4 e =>
    obtain rfl := Option.some.inj h
    exact ⟨fun c v => v.setRun e.d (wideRegs e.wide (s.curSlot e.slot).block) c.en (dqnLane (s.curSlot e.slot) e v), rfl, fun c w f t =>
      .setRun (w.atIssue f t) ..⟩
  case h_5 e =>
    split at h
    · nomatch h
    · next ho =>
      obtain rfl := Option.some.inj h
      refine ⟨fun c v => v.qntWrite (s.curSlot e.slot) e c.en (qntLane (s.curSlot e.slot) e v), ?_, fun c w f t =>
        .qntWrite _ e c.en (w.atIssue f t)⟩
      change execQnt e s = _
      simp only [execQnt, ho, Bool.false_eq_true, if_false]
      rfl
  case h_6 => nomatch h

/-- Each of the five writes its runs in the enabled lanes, and its issuing lanes advance. -/
theorem runs_complete {i : Instr} {v : RunShape} {s : State} {w : Warp} (h : runs s.curSlot i = some v) (hl : v.legal = true)
    (hr : Ready v.form 0 s w) : ∃ t w', exec i s = .next t ∧ RanOnRegs v.form s t w w' ∧ w'.k = w.k ∧ w'.m = w.m ∧
      RunRegs (issueCtx v.form s w).en (v.val w) w w' := by
  obtain ⟨G, hexec, hwrites⟩ := runsRun h
  obtain ⟨w', hdone⟩ := State.issue_writesRun (legal := fun _ _ => v.legal) hr hl (hwrites _ w v.form s)
  exact ⟨_, w', hexec, hdone⟩

/-! ### A state in which an effect begins -/

/-- A state in which nothing has moved yet but the current warp and the tokens of cores, and in which an access finds what it found. -/
structure Begins (s S : State) (v : Warp) : Prop extends Stood s S, LooksAlike s S where
  warp : S.warp? s.cur = some v

namespace Begins

variable {s S : State} {v : Warp}

theorem begun {w : Warp} (h : s.warp? s.cur = some w) (f : Form) (n : Nat) : Begins s (s.begun f n w) (w.atIssue f s) :=
  { (Stood.begun : Stood s (s.begun f n w)), LooksAlike.begun s f n w with warp := State.begun_warp h }

theorem again (h : s.warp? s.cur = some v) : Begins s (s.modWarp s.cur id) v :=
  { (Stood.refl s).modWarp id, (LooksAlike.refl s).modWarp s.cur id with warp := State.warp?_modWarp_of h id }

theorem modWarp (h : Begins s S v) (g : Warp → Warp) : Begins s (S.modWarp s.cur g) (g v) :=
  { h.toStood.modWarp g, h.toLooksAlike.modWarp s.cur g with warp := State.warp?_modWarp_of h.warp g }

theorem paying (h : Begins s S v) (core part price : Nat) : Begins s (S.modCore core fun k => k.pay part price) v := by
  have hcore : ∀ k, ((S.modCore core fun k => k.pay part price).core k).tlb = (S.core k).tlb ∧
      ((S.modCore core fun k => k.pay part price).core k).l1 = (S.core k).l1 := by
    intro k
    rw [State.core_modCore]
    split
    · next hk => subst hk; exact ⟨rfl, rfl⟩
    · exact ⟨rfl, rfl⟩
  exact { h.toStood.modCore core fun k => k.pay part price with
    own := h.own, tlb := fun k => (hcore k).1.trans (h.tlb k), l1 := fun k => (hcore k).2.trans (h.l1 k), warp := h.warp }

theorem disarmed (h : Begins s S v) (hs : s.ap! offInjMask = 0) : S.ap! offInjMask = 0 := (State.ap!_of_ap h.ap _).trans hs

variable {w : Warp}

/-- The checks for races find what they found (R296). -/
theorem raceTrap (h : Begins s S v) (hw : s.warp? s.cur = some w) (hq : Quiet w v) {ea : Warp → Nat → DWord} (hea : ea v = ea w)
    (sp : Spc) (spots : List Spot) (n : Nat) (write : Bool) :
    S.raceTrap s.cur sp spots n write ea = s.raceTrap s.cur sp spots n write ea := by
  have hracing : S.racing v = s.racing w := by
    unfold State.racing State.recOf State.block?
    rw [h.blocks, hq.standing.blk]
  have hconflict : ∀ lane key, S.conflict v s.cur lane key n write = s.conflict w s.cur lane key n write := by
    intro lane key
    unfold State.conflict State.checked Warp.markSeq Warp.seqOf
    rw [h.mem, hq.standing.ctx, hq.rseq]
  unfold State.raceTrap
  rw [h.warp, hw]
  cases sp with
  | s => rfl
  | g => simp only [hracing, hconflict, hea]

/-- The checks of an access find what they found (R162). -/
theorem reach (h : Begins s S v) (hw : s.warp? s.cur = some w) (hq : Quiet w v) {ea : Warp → Nat → DWord} (hea : ea v = ea w)
    (lanes : Word) (a : Acc) (sp : Spc) (n align : Nat) : S.reach s.cur lanes a sp n align ea = s.reach s.cur lanes a sp n align ea :=
  h.toLooksAlike.reach hw h.warp hea hq.standing.ctx (by rw [Warp.priv, hq.standing.level, Warp.priv]) hq.standing.blk lanes a sp n align

/-- A load reads what it would have read. -/
theorem loadNum {u : Warp} (h : Begins s S u) (hq : Quiet w v) (core : Nat) (sp : Spc) (key n : Nat) :
    S.loadNum core v sp key n = s.loadNum core w sp key n := by
  have hbyte : ∀ off, S.apByte off = s.apByte off := State.apByte_of h.ap h.dies h.dev
  have hload : ∀ i, S.loadByte core w.blk sp i = s.loadByte core w.blk sp i := by
    intro i
    unfold State.loadByte State.spadByte State.block? State.readL1 State.beyondL1 State.l2Valid
    simp only [hbyte, h.mem, h.blocks, h.own, h.l1]
  have hforward : v.forward = w.forward := by
    unfold Warp.forward
    rw [hq.rsb]
  unfold State.loadNum
  simp only [hforward, hq.standing.blk, hload]

end Begins

/-! ### Step demands of several accesses (R136, R445) -/

/-- A warp that owes the step demand of its instruction's effect. -/
def Warp.owes (v : Warp) (c : Ctx) : Warp := { v with stage := some { kind := 2, lanes := c.iss, step := 4 } }

section
variable {s S : State} {c : Ctx} {v : Warp} {price : Nat} (go : State → State)

/-- The demands that are left are paid one by one while the bucket holds them. -/
theorem State.payMore_goes (hc : c.wid = s.cur) (ctx n done : Nat) (hS : Begins s S v) (hq : (S.core c.core).queue = [])
    (hl : ((price * n * 256 : Nat) : Int) ≤ (S.core c.core).level) :
    ∃ T, S.payMore c ctx price done go n = go T ∧ Begins s T v.unstaged := by
  induction n generalizing done S with
  | zero => exact ⟨_, rfl, hc ▸ hS.modWarp Warp.unstaged⟩
  | succ n ih =>
    replace hl : ((price * n * 256 : Nat) : Int) + ((price * 256 : Nat) : Int) ≤ (S.core c.core).level := by
      push_cast at hl ⊢
      linarith
    have hcan : S.canPay c.core price = true := by
      have hcap : min price (S.ap! (offTokCap c.core)) ≤ price := Nat.min_le_left ..
      simp only [State.canPay, hq, List.isEmpty_nil, Bool.true_and, decide_eq_true_eq]
      omega
    have hpaid : (S.modCore c.core fun k => k.pay (S.partOf ctx) price).core c.core = (S.core c.core).pay (S.partOf ctx) price := by
      rw [State.core_modCore, if_pos rfl]
    have hlevel : ((price * n * 256 : Nat) : Int) ≤ ((S.core c.core).pay (S.partOf ctx) price).level := by
      change _ ≤ (S.core c.core).level - _
      omega
    rw [State.payMore, State.demandNow, if_pos hcan]
    exact ih (done + 1) (hS.paying c.core (S.partOf ctx) price) (by rw [hpaid]; exact hq) (by rw [hpaid]; exact hlevel)

theorem State.payEach_service (hS : Begins s S v) (hc : c.wid = s.cur) (n : Nat) (hs : isService c.core = true) :
    S.payEach c price n go = go (S.modWarp s.cur Warp.unstaged) := by
  simp only [State.payEach, hc, hS.warp, hs, if_true]
  rfl

/-- A fresh instruction on a compute core leaves its demand. -/
theorem State.payEach_owes (hS : Begins s S v) (hc : c.wid = s.cur) (n : Nat) (hs : isService c.core = false) (hst : v.stage = none) :
    S.payEach c price n go = S.modWarp s.cur fun u => u.owes c := by
  simp only [State.payEach, hc, hS.warp, hs, hst, Bool.false_eq_true, if_false]
  rfl

/-- An instruction that comes back, none of its demands paid, pays them all. -/
theorem State.payEach_goes (hS : Begins s S v) (hc : c.wid = s.cur) (n : Nat) (hs : isService c.core = false) {lanes : Word}
    (hst : v.stage = some { kind := 2, lanes := lanes, step := 4 }) (hq : (S.core c.core).queue = [])
    (hl : ((price * n * 256 : Nat) : Int) ≤ (S.core c.core).level) :
    ∃ T, S.payEach c price n go = go T ∧ Begins s T v.unstaged := by
  obtain ⟨T, hpay, hT⟩ := State.payMore_goes go hc v.ctx n 0 hS hq hl
  refine ⟨T, ?_, hT⟩
  rw [← hpay]
  simp only [State.payEach, hc, hS.warp, hs, hst, Bool.false_eq_true, if_false, Nat.reduceEqDiff, Nat.add_zero, Nat.sub_zero]

end

theorem Warp.arrived_of_stage {w : Warp} {st : Stage} (h : w.stage = some st) (hk : st.kind ≠ 4) : w.arrived = w := by
  have hstage : w.arrived = { w with stage := some st } := by simp only [Warp.arrived, h, hk, ne_eq, not_false_eq_true, if_true]
  rw [hstage, ← h]

/-- An instruction that comes back finds its lines at home, and goes on. -/
theorem State.whenHome_back {s : State} {c : Ctx} {st at_ : Stage} {lines : List Nat} {w : Warp} (go : State → State)
    (hw : s.warp? c.wid = some w) (hst : w.stage = some at_) (hl : ∀ l ∈ lines, s.leasedOut l = false) :
    s.whenHome c st lines go = go (s.modWarp c.wid Warp.arrived) := by
  have hany : lines.any s.leasedOut = false := List.any_eq_false.2 fun l hin => by rw [hl l hin]; exact Bool.false_ne_true
  rw [State.whenHome, hany, if_neg Bool.false_ne_true, hw, Option.bind_some, hst]

/-! ### The end of an effect that has read -/

/-- Reads, a change of the warp's registers, the advance of its lanes and the end of the instruction. -/
theorem Begins.accessed {s S R : State} {f : Form} {w v : Warp} (h : Begins s S v) (hv : Quiet w v) (hpv : v.pcv = w.pcv)
    (hR : ReadLeft S R) (g : Warp → Warp) (hg : Quiet v (g v)) (hpg : (g v).pcv = v.pcv) :
    ∃ w', Accessed f s ((R.modWarp s.cur fun u => (g u).advance w.group f.len).finish f (issueCtx f s w) w) w (g v) w' := by
  have hmoved : Quiet w ((g v).advance w.group f.len) := (hv.trans hg).trans (.advance ..)
  have hend := Warp.finished_same ((g v).advance w.group f.len) f (issueCtx f s w) w
  have hpc : ∀ l < 32, laneIn ((g v).advance w.group f.len).blockedLanes l = false →
      (((g v).advance w.group f.len).finished f (issueCtx f s w) w).pc l = ((g v).advance w.group f.len).pc l ∧
        (((g v).advance w.group f.len).finished f (issueCtx f s w) w).revOf l = ((g v).advance w.group f.len).revOf l :=
    fun l hl hu => Warp.finished_pc _ _ _ _ hl hu
  have hbefore : ∀ l < 32, ((g v).advance w.group f.len).pc l = if laneIn w.group l then w.pc l + BitVec.ofNat 64 f.len else w.pc l := by
    intro l hl
    rw [Warp.pc_advance _ _ _ hl, Warp.pc, hpg, hpv, Warp.pc]
  have helse := ((hR.sameElsewhere h.toSameElsewhere).modWarp fun u => (g u).advance w.group f.len).modWarp
    fun u => u.finished f (issueCtx f s w) w
  refine ⟨_, ?_, (SameRegs.advance (g v) w.group f.len).trans hend.regs, hend.rsb.trans hmoved.rsb,
    advanced_of (blockedLanes_of_blocked hmoved.blocked) hbefore hpc, specials_of_quiet hmoved hend hpc,
    hend.standing_of_quiet hmoved, fun a => (hR.sameBytes a).trans (congrArg (Mem.byte · a) h.mem),
    hR.ver.trans (congrArg Mem.ver h.mem), helse⟩
  exact State.warp?_modWarp_of (State.warp?_modWarp_of ((hR.warp? _).trans h.warp) _) _

/-! ### cbx (R157) -/

section
variable (sl : Slot) (half : Bool) (e : Cvs)

/-- The lines that a `cbx` pays for. -/
abbrev cbxLines (en : Word) (w : Warp) : Nat := (linesNamed en (cbxEa sl half e w)).length

/-- The base-table entries of the lanes' places. -/
def cbxEntries (s : State) (core : Nat) (w : Warp) (spots : List Spot) : List (Nat × Nat) :=
  spots.map fun p => (p.1, s.loadNum core w .g p.2 4)

/-- The warp that holds the weights of its entries. -/
def Warp.expanded (v : Warp) (en : Word) (ents : List (Nat × Nat)) : Warp :=
  v.setRun e.d (wideRegs e.wide 8) en fun l => cbxLane sl half e v (atLane 0 ents l) l

theorem WritesRun.expanded (en : Word) (ents : List (Nat × Nat)) (v : Warp) :
    WritesRun en (fun l => runVal e.d (wideRegs e.wide 8) (cbxLane sl half e v (atLane 0 ents l) l)) v (v.expanded sl half e en ents) :=
  .setRun ..

/-- What a `cbx` does once its demands are paid: the reads, and the weights unless an entry is malformed (R74). -/
def Ctx.cbxRead (c : Ctx) (w : Warp) (spots : List Spot) (s : State) : State :=
  let t := ((s.used c .g (cbxEa sl half e)).loaded c.core w.ctx .g spots).mark c.wid .g spots 4 false
  if (cbxEntries s c.core w spots).any (fun p => 2 ^ 25 ≤ p.2) then t.raise c { cls := .illegal } else
  t.modWarp c.wid fun v => (v.expanded sl half e c.en (cbxEntries s c.core w spots)).advance c.iss c.len

variable {sl half e} {s S : State} {f : Form} {w v : Warp} {spots : List Spot}

theorem SameRegs.cbxEa (h : SameRegs w v) : Machine.cbxEa sl half e v = Machine.cbxEa sl half e w := by
  funext l
  simp only [Machine.cbxEa, cbxCode, h.xr]

/-- A `cbx` whose lanes reach their entries, and whose reads race with nothing, comes to its step demands once its lines are at home. -/
theorem Ctx.cbx_reaches (h : Begins s S v) (hw : s.warp? s.cur = some w) (hq : Quiet w v) (hregs : SameRegs w v)
    (hr : Reaches s (issueCtx f s w).en .read .g 4 4 (cbxEa sl half e) spots)
    (hrace : s.raceTrap s.cur .g spots 4 false (cbxEa sl half e) = none) :
    (issueCtx f s w).cbx sl half e S = S.whenHome (issueCtx f s w) (issueCtx f s w).waiting (distinct (spots.map fun p => lineOf p.2))
      fun T => T.payEach (issueCtx f s w) 6 (cbxLines sl half e (issueCtx f s w).en w) ((issueCtx f s w).cbxRead sl half e v spots) := by
  have hea := hregs.cbxEa (sl := sl) (half := half) (e := e)
  rw [Ctx.cbx, show (issueCtx f s w).wid = s.cur from rfl, State.withWarp_of h.warp]
  dsimp only
  rw [(h.reach hw hq hea (issueCtx f s w).en .read .g 4 4).trans hr.found]
  dsimp only
  rw [State.cleared, show (issueCtx f s w).wid = s.cur from rfl, (h.raceTrap hw hq hea .g spots 4 false).trans hrace, hea]
  rfl

/-- With well-formed entries the lanes hold their weights, behind reads (R74, R157). -/
theorem Ctx.cbxRead_expands {u : Warp} (h : Begins s S u) (hq : Quiet w v) (hs : s.ap! offInjMask = 0)
    (hents : ∀ p ∈ spots, s.loadNum (coreOf s.cur) w .g p.2 4 < 2 ^ 25) :
    ∃ R, ReadLeft S R ∧ (issueCtx f s w).cbxRead sl half e v spots S = R.modWarp s.cur fun u =>
      (u.expanded sl half e (issueCtx f s w).en (cbxEntries s (coreOf s.cur) w spots)).advance w.group f.len := by
  have hsame : cbxEntries S (coreOf s.cur) v spots = cbxEntries s (coreOf s.cur) w spots := by
    simp only [cbxEntries, h.loadNum hq]
  have hgood : (cbxEntries s (coreOf s.cur) w spots).any (fun p => 2 ^ 25 ≤ p.2) = false := by
    refine List.any_eq_false.2 fun p hp => ?_
    obtain ⟨q, hq, rfl⟩ := List.mem_map.1 hp
    simpa using hents q hq
  have hused := ReadLeft.used (h.disarmed hs) (issueCtx f s w) .g (cbxEa sl half e)
  have hloaded := hused.trans (.loaded (hused.disarmed (h.disarmed hs)) (coreOf s.cur) v.ctx .g spots)
  refine ⟨_, hloaded.trans (.mark (hloaded.disarmed (h.disarmed hs)) s.cur .g spots 4 false), ?_⟩
  rw [Ctx.cbxRead, show (issueCtx f s w).core = coreOf s.cur from rfl, hsame, hgood]
  rfl

end

/-! ### The whole `cbx` -/

theorem Quiet.staged (v : Warp) (st : Option Stage) : Quiet v { v with stage := st } := by
  refine ⟨?_, rfl, rfl, rfl, rfl, rfl, rfl, rfl, rfl, rfl, rfl, rfl, rfl⟩
  constructor <;> rfl

/-- The issue of a `cbx`. -/
def State.issueCbx (s : State) (sl : Slot) (half : Bool) (e : Cvs) : State :=
  s.issue (cbxForm sl e) (fun _ _ => cbxLegal sl e) (fun _ _ => 0) fun c s => c.cbx sl half e s

section
variable {sl : Slot} {half : Bool} {e : Cvs} {s : State} {f : Form} {w : Warp} {spots : List Spot}

theorem exec_cbx (hsl : sl = s.curSlot e.slot) : exec (.cbx half e) s = .next (s.issueCbx sl half e) := by
  subst hsl
  rfl

/-- A `cbx` with an enabled lane whose slot and registers are legal, whose lanes reach their entries, and whose reads race with nothing. -/
structure CbxChecked (sl : Slot) (half : Bool) (e : Cvs) (f : Form) (s : State) (w : Warp) (spots : List Spot) : Prop where
  form : f = cbxForm sl e
  legal : cbxLegal sl e = true
  enabled : (issueCtx f s w).en ≠ 0
  reaches : Reaches s (issueCtx f s w).en .read .g 4 4 (cbxEa sl half e) spots
  unraced : s.raceTrap s.cur .g spots 4 false (cbxEa sl half e) = none

/-- The state in which a `cbx` has its effect: a service core has no bucket, and on a compute core the bucket pays its demands now. -/
def CbxGoesOn (sl : Slot) (half : Bool) (e : Cvs) (f : Form) (s : State) (w : Warp) : Prop :=
  (isService (coreOf s.cur) = true ∧ Ready f 0 s w) ∨
    (isService (coreOf s.cur) = false ∧ Stands 2 w ∧ PaysEach 6 (cbxLines sl half e (issueCtx f s w).en w) s)

/-- A fresh `cbx` comes to its step demands at once. -/
theorem CbxChecked.fresh (h : CbxChecked sl half e f s w spots) (hr : Ready f 0 s w) :
    (issueCtx f s w).cbx sl half e (s.begun f 0 w) = (s.begun f 0 w).payEach (issueCtx f s w) 6 (cbxLines sl half e (issueCtx f s w).en w)
      ((issueCtx f s w).cbxRead sl half e (w.atIssue f s) spots) := by
  have hbegins := Begins.begun hr.cur f 0
  rw [Ctx.cbx_reaches hbegins hr.cur (.atIssue ..) (.atIssue ..) h.reaches h.unraced,
    State.whenHome_goes _ hbegins.warp rfl (h.reaches.linesHome hbegins.toStood)]

/-- A fresh `cbx` on a compute core has paid its price and owes the demands of its reads. -/
theorem CbxChecked.owes (h : CbxChecked sl half e f s w spots) (hr : Ready f 0 s w) (hs : isService (coreOf s.cur) = false) :
    ∃ w', RanQuiet f s (s.issueCbx sl half e) w w' ∧ SameRegs w w' ∧ Due w w' := by
  obtain rfl := h.form
  have hbody : (issueCtx (cbxForm sl e) s w).cbx sl half e (s.begun (cbxForm sl e) 0 w)
      = (s.begun (cbxForm sl e) 0 w).modWarp s.cur fun v => v.owes (issueCtx (cbxForm sl e) s w) := by
    rw [h.fresh hr, State.payEach_owes (c := issueCtx _ s w) _ (Begins.begun hr.cur _ 0) rfl _ hs rfl]
  obtain ⟨w', hran, hregs, hpc⟩ := State.issue_quiet (fun _ _ => cbxLegal sl e) (fun c s => c.cbx sl half e s) _ hr h.legal
    (fun _ => hbody) (Quiet.staged _ _)
  obtain ⟨hwarp, -⟩ := State.issue_warp (fun _ _ => cbxLegal sl e) (fun _ _ => 0) (fun c s => c.cbx sl half e s) _ hr h.legal rfl
    fun _ => hbody
  have hw' := Option.some.inj (hran.warp.symm.trans hwarp)
  rw [if_neg h.enabled] at hregs hw'
  refine ⟨w', hran, ⟨hregs.x, hregs.k, hregs.m⟩, ?_, fun l hin => ?_⟩
  · rw [hw', (Warp.finished_same ..).stage]
    rfl
  · rw [hpc l (laneIn_lt hin) (Warp.group_unblocked hin), if_neg h.enabled]
    rfl

/-- A `cbx` that goes on comes to its reads, its demands paid or asked for by no bucket. -/
theorem CbxChecked.comes (h : CbxChecked sl half e f s w spots) (hp : Passes f s w) (hpays : CbxGoesOn sl half e f s w) :
    ∃ S v, s.issueCbx sl half e = ((issueCtx f s w).cbxRead sl half e v spots S).finish f (issueCtx f s w) w ∧ Begins s S v.unstaged ∧
      Quiet w v ∧ SameRegs w v ∧ v.pcv = w.pcv := by
  obtain rfl := h.form
  rcases hpays with ⟨hs, hr⟩ | ⟨hs, hst, hqueue, hlevel⟩
  · have hbegins := Begins.begun hr.cur (cbxForm sl e) 0
    refine ⟨_, w.atIssue (cbxForm sl e) s, ?_, hbegins.modWarp Warp.unstaged, .atIssue .., .atIssue .., rfl⟩
    rw [State.issueCbx, State.issue_ready _ _ _ hr h.legal rfl, if_neg h.enabled, h.fresh hr,
      State.payEach_service (c := issueCtx _ s w) _ hbegins rfl _ hs]
  · have hbegins := Begins.again hp.cur
    have hagain : w.again = true := by rw [Warp.again, hst]; rfl
    have hback := hbegins.modWarp Warp.arrived
    rw [Warp.arrived_of_stage hst (by simp)] at hback
    obtain ⟨T, hpay, hT⟩ := State.payEach_goes (c := issueCtx (cbxForm sl e) s w)
      ((issueCtx (cbxForm sl e) s w).cbxRead sl half e w spots) hback rfl _ hs hst hqueue hlevel
    refine ⟨T, w, ?_, hT, .refl w, ⟨rfl, rfl, rfl⟩, rfl⟩
    rw [State.issueCbx, State.issue_again _ _ _ hp h.legal hagain h.enabled,
      Ctx.cbx_reaches hbegins hp.cur (.refl w) ⟨rfl, rfl, rfl⟩ h.reaches h.unraced,
      State.whenHome_back _ hbegins.warp hst (h.reaches.linesHome hbegins.toStood), ← hpay]
    rfl

/-- The lanes of a `cbx` that goes on hold the weights of their entries, and its issuing lanes advance (R157). -/
theorem CbxChecked.expands (h : CbxChecked sl half e f s w spots) (hp : Passes f s w) (hpays : CbxGoesOn sl half e f s w)
    (hents : ∀ p ∈ spots, s.loadNum (coreOf s.cur) w .g p.2 4 < 2 ^ 25) :
    ∃ w' u, Accessed f s (s.issueCbx sl half e) w u w' ∧ w'.k = w.k ∧ w'.m = w.m ∧
      RunRegs (issueCtx f s w).en (fun l => runVal e.d (wideRegs e.wide 8)
        (cbxLane sl half e w (s.loadNum (coreOf s.cur) w .g (atLane 0 spots l) 4) l)) w w' := by
  obtain ⟨S, v, hissue, hS, hq, hregs, hpcv⟩ := h.comes hp hpays
  obtain ⟨R, hR, hread⟩ := Ctx.cbxRead_expands (f := f) hS hq hp.disarmed hents
  have hwrites := WritesRun.expanded sl half e (issueCtx f s w).en (cbxEntries s (coreOf s.cur) w spots) v.unstaged
  obtain ⟨w', hacc⟩ := hS.accessed (f := f) (hq.trans (.staged v none)) hpcv hR
    (fun u => u.expanded sl half e (issueCtx f s w).en (cbxEntries s (coreOf s.cur) w spots)) hwrites.quiet hwrites.pcv
  obtain ⟨hk, hm, hrun⟩ := hwrites.regs ⟨hregs.x, hregs.k, hregs.m⟩ hacc.regs
  rw [← hread, ← hissue] at hacc
  refine ⟨w', _, hacc, hk, hm, hrun.congr fun l hin => ?_⟩
  have hentry : atLane 0 (cbxEntries s (coreOf s.cur) w spots) l = s.loadNum (coreOf s.cur) w .g (atLane 0 spots l) 4 :=
    atLane_map 0 (fun key => s.loadNum (coreOf s.cur) w .g key 4) (h.reaches.hasSpot hp.cur hin)
  have hxr : ∀ n, v.unstaged.xr n l = w.xr n l := fun n => hregs.xr n l
  simp only [hentry, cbxLane, cbxCode, hxr]

end

/-- Settles O32: the conversions on registers by the write of their runs; a `cbx` by the demands it owes, and, once they are paid, by the
entries that its lanes read before they write. -/
theorem conversionsComplete : Obligations.ConversionsComplete := by
  refine ⟨fun i v s w hi hl hr => runs_complete hi hl hr, ?_⟩
  rintro half e sl f c s w spots hsl hl hf rfl he hreach hrace
  have h : CbxChecked sl half e f s w spots := ⟨hf, hl, he, hreach, hrace⟩
  refine ⟨fun hr hs => ?_, fun hp hpays hents => ?_⟩
  · obtain ⟨w', howes⟩ := h.owes hr hs
    exact ⟨_, w', exec_cbx hsl, howes⟩
  · obtain ⟨w', u, hacc, hk, hm, hrun⟩ := h.expands hp hpays hents
    exact ⟨_, w', exec_cbx hsl, hacc.warp, hk, hm, hacc.advanced, hacc.standing, hacc.specials, hacc.rsb, hacc.bytes, hacc.ver,
      hacc.elsewhere, hrun⟩

end Sys2Proof.Machine
end


section
/-!
PROOFS. Instructions that advance their lanes and record at most the phase of their block (spec/06 R183, R227). Settles O14 of
spec/06_isa_memory.md.
-/

namespace Sys2Proof.Machine

/-- The block with a phase recorded (R227). -/
def Block.inPhase (id : Nat) (b : Block) : Block := { b with phase := id }

/-- A `phase` that is ready records the phase of its block, advances its lanes, and does nothing else. -/
theorem phase_records {s : State} {w : Warp} {f : Form} {id : Nat} (hr : Ready f 0 s w) (he : (issueCtx f s w).en ≠ 0) :
    ∃ t w', s.issueSimple f (fun c s => c.phase id s) = t ∧ t.warp? s.cur = some w' ∧ SameRegs w w' ∧ SameStanding w w' ∧
      SameSpecials w w' ∧ Advanced (issueCtx f s w) w w' ∧ t.mem = s.mem ∧ t.ap = s.ap ∧ t.dies = s.dies ∧ t.grids = s.grids ∧
      OtherWarps s t ∧ t.block? w.blk = (s.block? w.blk).map (Block.inPhase id) ∧ ∀ k, k ≠ w.blk → t.block? k = s.block? k := by
  have hw := State.begun_warp (f := f) (n := 0) hr.cur
  have hO := State.begun_only (s := s) (f := f) (n := 0) (w := w) fun v => v
  have hblk : ∀ k, (s.begun f 0 w).block? k = s.block? k := fun k => congrArg (Tab.look · k) hO.blocks
  have hbody : (issueCtx f s w).phase id (s.begun f 0 w)
      = ((s.begun f 0 w).modBlock w.blk (Block.inPhase id)).modWarp s.cur fun v => v.advance w.group f.len :=
    State.withWarp_of hw _
  have hT : (((s.begun f 0 w).modBlock w.blk (Block.inPhase id)).modWarp s.cur fun v => v.advance w.group f.len).warp? s.cur
      = some ((w.atIssue f s).advance w.group f.len) := by
    rw [State.warp?_modWarp_self]; exact congrArg (Option.map _) hw
  obtain ⟨w', ht, hw', hsame, hother, hpc⟩ := State.issue_effect (fun _ _ => true) (fun _ _ => 0) (fun c s => c.phase id s) hr rfl rfl he
    hbody hT
  have hq : Quiet w ((w.atIssue f s).advance w.group f.len) := (Quiet.atIssue w f s).trans (Quiet.advance ..)
  refine ⟨_, w', rfl, hw', (SameRegs.atIssue w f s).trans ((SameRegs.advance ..).trans hsame.regs),
    Warp.SameButPcs.standing_of_quiet hq hsame, specials_of_quiet hq hsame hpc,
    advanced_of (blockedLanes_of_blocked hq.blocked) (fun l hl => Warp.pc_advance _ _ _ hl) hpc, ?_⟩
  have e : s.issueSimple f (fun c s => c.phase id s) = _ := ht
  refine ⟨?_, ?_, ?_, ?_, fun v hv => ?_, ?_, fun k hk => ?_⟩
  · rw [e]; exact hO.mem
  · rw [e]; exact hO.ap
  · rw [e]; exact hO.dies
  · rw [e]; exact hO.grids
  · refine (hother v hv).trans ?_
    rw [State.warp?_modWarp, if_neg hv]
    exact State.begun_other hv
  · rw [e, ← hblk]
    exact (State.block?_modBlock _ _ _ _).trans (if_pos rfl)
  · rw [e, ← hblk]
    exact (State.block?_modBlock _ _ _ _).trans (if_neg hk)

/-- Settles O14: `fence.l` is an advance, and `phase` is one with its block's record. -/
theorem advancingInstructionsComplete : Obligations.AdvancingInstructionsComplete := by
  intro s w g id sc
  refine ⟨fun hr => ?_, fun i f hi hr he => ?_⟩
  · obtain ⟨w', hw⟩ := State.issue_advances (fun _ _ => true) (fun c s => s.modWarp c.wid fun w => w.advance c.iss c.len) hr rfl rfl
    exact ⟨_, w', rfl, hw⟩
  · obtain ⟨t, w', ht, hphase⟩ := phase_records (id := id) hr he
    rcases hi with ⟨rfl, rfl⟩ | ⟨rfl, rfl⟩ <;> exact ⟨t, w', congrArg _ ht, hphase⟩

end Sys2Proof.Machine
end


section
/-!
PROOFS. Commit points whose effect on the warp may write its registers, and lanes that block and pass in one step: `tw.any` and `tw.all`.
Settles O30 of spec/06_isa_memory.md.
-/

namespace Sys2Proof.Machine

open Sys2Proof.Machine.Shape

theorem issueCtx_wid (f : Form) (s : State) (w : Warp) : (issueCtx f s w).wid = s.cur := rfl

section
variable {s : State} {f : Form} {w : Warp} {n : Nat}

/-- The state in which the steps 4 and 5 of a ready and clean commit point run. -/
def State.committing (s : State) (f : Form) (n : Nat) (w : Warp) : State :=
  (s.begun f n w).modWarp s.cur fun v => v.committed (issueCtx f s w)

/-- The warp in which the steps 4 and 5 of a ready and clean commit point run. -/
def Warp.atCommit (w : Warp) (f : Form) (s : State) : Warp := (w.atIssue f s).committed (issueCtx f s w)

theorem State.committing_warp (h : s.warp? s.cur = some w) : (s.committing f n w).warp? s.cur = some (w.atCommit f s) :=
  State.warp?_modWarp_of (State.begun_warp h) _

theorem State.committing_only : OnlyWarp (issueCost f n s w) s (s.committing f n w) w := State.begun_only _

/-- A COMMIT POINT, ready and clean, whose steps 4 and 5 are any change `g` of the warp: the warp it leaves. -/
theorem State.commit_changes {legal : Ctx → State → Bool} {steps : Ctx → State → Nat} {pre : Ctx → State → Option Trap}
    {B : Ctx → State → State} (g : Warp → Warp) (hr : Ready f n s w) (hl : legal (issueCtx f s w) s = true)
    (hs : steps (issueCtx f s w) s = n) (hc : CommitsEmpty s w) (he : (issueCtx f s w).en ≠ 0)
    (hp : pre (issueCtx f s w) (s.begun f n w) = none)
    (hB : B (issueCtx f s w) (s.committing f n w) = (s.committing f n w).modWarp s.cur g) :
    (s.issue f legal steps fun c s => s.commitPoint c (pre c) (B c)).warp? s.cur
        = some ((g (w.atCommit f s)).finished f (issueCtx f s w) w) ∧
      OnlyWarp (issueCost f n s w) s (s.issue f legal steps fun c s => s.commitPoint c (pre c) (B c)) w := by
  have hbody : (s.begun f n w).commitPoint (issueCtx f s w) (pre (issueCtx f s w)) (B (issueCtx f s w))
      = (s.begun f n w).modWarp s.cur fun v => g (v.committed (issueCtx f s w)) := by
    rw [State.commitPoint_ready _ _ hr hc hp]
    exact hB.trans (State.modWarp_modWarp ..)
  have h := State.issue_warp legal steps (fun c s => s.commitPoint c (pre c) (B c)) _ hr hl hs fun _ => hbody
  rwa [if_neg he] at h

@[simp] theorem Warp.atCommit_x (w : Warp) (f : Form) (s : State) : (w.atCommit f s).x = w.x := by simp [Warp.atCommit]
@[simp] theorem Warp.atCommit_k (w : Warp) (f : Form) (s : State) : (w.atCommit f s).k = w.k := by simp [Warp.atCommit]
@[simp] theorem Warp.atCommit_m (w : Warp) (f : Form) (s : State) : (w.atCommit f s).m = w.m := by simp [Warp.atCommit]
@[simp] theorem Warp.atCommit_ctx (w : Warp) (f : Form) (s : State) : (w.atCommit f s).ctx = w.ctx := by simp [Warp.atCommit]
@[simp] theorem Warp.atCommit_blk (w : Warp) (f : Form) (s : State) : (w.atCommit f s).blk = w.blk := by simp [Warp.atCommit]
@[simp] theorem Warp.atCommit_susp (w : Warp) (f : Form) (s : State) : (w.atCommit f s).susp = w.susp := by simp [Warp.atCommit]
@[simp] theorem Warp.atCommit_blocked (w : Warp) (f : Form) (s : State) : (w.atCommit f s).blocked = w.blocked := by simp [Warp.atCommit]
@[simp] theorem Warp.atCommit_pcv (w : Warp) (f : Form) (s : State) : (w.atCommit f s).pcv = w.pcv := by simp [Warp.atCommit]

theorem Warp.regs_atCommit (w : Warp) (f : Form) (s : State) : SameRegs w (w.atCommit f s) := by constructor <;> simp

theorem Warp.revOf_atCommit (w : Warp) (f : Form) (s : State) {l : Nat} (hl : l < 32) :
    (w.atCommit f s).revOf l = if laneIn (issueCtx f s w).en l then (issueCtx f s w).here else w.revOf l :=
  Warp.revOf_committed (w.atIssue f s) _ hl

/-- Lanes that an effect has left as step 5 of a commit point leaves them, seen after the end of the instruction. -/
theorem LeftBehind.of_moved {v w' : Warp} (hb : ∀ l < 32, laneIn w.blockedLanes l = false → laneIn v.blockedLanes l = false)
    (hp : ∀ l < 32, v.pc l = if laneIn (issueCtx f s w).en l then (issueCtx f s w).next
      else if laneIn w.group l then w.pc l + BitVec.ofNat 64 f.len else w.pc l)
    (hr : ∀ l < 32, v.revOf l = if laneIn (issueCtx f s w).en l then (issueCtx f s w).next else w.revOf l)
    (h : ∀ l < 32, laneIn v.blockedLanes l = false → w'.pc l = v.pc l ∧ w'.revOf l = v.revOf l) : LeftBehind f s w w' := by
  have hw : ∀ l < 32, laneIn w.blockedLanes l = false → w'.pc l = v.pc l ∧ w'.revOf l = v.revOf l := fun l hl hu => h l hl (hb l hl hu)
  refine ⟨fun l hl => ?_, fun l hl hn => ?_, fun l hl hg hu => ?_⟩
  · obtain ⟨h1, h2⟩ := hw l (laneIn_lt hl) (Warp.group_unblocked (laneIn_group_of_en hl))
    rw [h1, h2, hp l (laneIn_lt hl), hr l (laneIn_lt hl), if_pos hl, if_pos hl]
    exact ⟨rfl, rfl⟩
  · obtain ⟨h1, h2⟩ := hw l (laneIn_lt hl) (Warp.group_unblocked hl)
    rw [h1, h2, hp l (laneIn_lt hl), hr l (laneIn_lt hl), hn, hl]
    exact ⟨rfl, rfl⟩
  · obtain ⟨h1, h2⟩ := hw l hl hu
    have hn : laneIn (issueCtx f s w).en l = false := by
      by_contra hc
      rw [laneIn_group_of_en (Bool.not_eq_false _ ▸ hc)] at hg
      exact Bool.noConfusion hg
    rw [h1, h2, hp l hl, hr l hl, hn, hg]
    exact ⟨rfl, rfl⟩

end

/-! ### Lanes that block and pass at once -/

theorem Warp.pc_leaves_eq (w : Warp) (b : Blocked) {l : Nat} (hl : l < 32) :
    (w.leaves b).pc l = if laneIn b.lanes l then b.here + BitVec.ofNat 64 b.len else w.pc l :=
  Warp.pc_setPc { w with blocked := leaveBlock w.blocked b } b.lanes (fun _ => b.here + BitVec.ofNat 64 b.len) hl

theorem Warp.revOf_leaves (w : Warp) (b : Blocked) {l : Nat} (hl : l < 32) :
    (w.leaves b).revOf l = if laneIn b.lanes l then b.here + BitVec.ofNat 64 b.len else w.revOf l :=
  Warp.revOf_setRev (Warp.setPc { w with blocked := leaveBlock w.blocked b } b.lanes fun _ => b.here + BitVec.ofNat 64 b.len) b.lanes
    (fun _ => b.here + BitVec.ofNat 64 b.len) hl

theorem Warp.laneIn_blockedLanes_nil {v : Warp} (h : v.blocked = []) (l : Nat) : laneIn v.blockedLanes l = false := by
  rw [Warp.blockedLanes, h]
  simp

/-- The whole of an entry leaves it. -/
theorem leaveBlock_self {b : Blocked} (h : b.lanes ≠ 0) : leaveBlock [b] b = [] := by
  have hk : b.lanes &&& ~~~b.lanes = 0 := BitVec.and_not_self b.lanes
  have hn : ¬ 0#32 = b.lanes := fun e => h e.symm
  simp [leaveBlock, hk, hn]

/-- A wait of a kind that no end of an instruction releases. -/
def Wait.stays : Wait → Bool
  | .mask _ => false
  | _ => true

/-- A warp with one wait, which no end of an instruction releases, keeps it. -/
theorem Warp.woken_stays {v : Warp} {b : Blocked} (h : v.blocked = [b]) (hb : b.what.stays = true) (hs : v.susp = none) : v.woken = v := by
  rw [Warp.woken_single h hs, if_neg]
  unfold Warp.waitEnds
  cases hw : b.what <;> simp_all [Wait.stays]

@[simp] theorem Warp.waits_x (w : Warp) (c : Ctx) (b : Blocked) : (w.waits c b).x = w.x := rfl
@[simp] theorem Warp.waits_k (w : Warp) (c : Ctx) (b : Blocked) : (w.waits c b).k = w.k := rfl
@[simp] theorem Warp.waits_ctx (w : Warp) (c : Ctx) (b : Blocked) : (w.waits c b).ctx = w.ctx := rfl
@[simp] theorem Warp.waits_rev (w : Warp) (c : Ctx) (b : Blocked) : (w.waits c b).rev = w.rev := rfl
@[simp] theorem Warp.leaves_x (w : Warp) (b : Blocked) : (w.leaves b).x = w.x := rfl
@[simp] theorem Warp.leaves_k (w : Warp) (b : Blocked) : (w.leaves b).k = w.k := rfl
@[simp] theorem Warp.leaves_m (w : Warp) (b : Blocked) : (w.leaves b).m = w.m := rfl
@[simp] theorem Warp.leaves_ctx (w : Warp) (b : Blocked) : (w.leaves b).ctx = w.ctx := rfl
@[simp] theorem Warp.leaves_blocked (w : Warp) (b : Blocked) : (w.leaves b).blocked = leaveBlock w.blocked b := rfl

/-! ### Tag waits -/

/-- The warp with the mark of an observed tag. -/
def Warp.sees (w : Warp) (k : Core) (mask : DWord) : Warp :=
  w.mark (w.observed || (k.tagmap w.ctx).done &&& (k.tagmap w.ctx).yard &&& mask != 0)

@[simp] theorem Warp.sees_x (w : Warp) (k : Core) (mask : DWord) : (w.sees k mask).x = w.x := rfl
@[simp] theorem Warp.sees_k (w : Warp) (k : Core) (mask : DWord) : (w.sees k mask).k = w.k := rfl
@[simp] theorem Warp.sees_m (w : Warp) (k : Core) (mask : DWord) : (w.sees k mask).m = w.m := rfl
@[simp] theorem Warp.sees_blocked (w : Warp) (k : Core) (mask : DWord) : (w.sees k mask).blocked = w.blocked := rfl
@[simp] theorem Warp.sees_pcv (w : Warp) (k : Core) (mask : DWord) : (w.sees k mask).pcv = w.pcv := rfl
@[simp] theorem Warp.sees_rev (w : Warp) (k : Core) (mask : DWord) : (w.sees k mask).rev = w.rev := rfl

theorem State.observe_eq (s : State) (wid : Nat) (mask : DWord) :
    s.observe wid mask = s.modWarp wid fun w => w.sees (s.core (coreOf wid)) mask := rfl

/-- The warp whose tag wait `b` ends with its value (R190). -/
def Warp.tagged (w : Warp) (b : Blocked) (d : Nat) (val mask : DWord) (k : Core) : Warp := ((w.setK d val).leaves b).sees k mask

@[simp] theorem Warp.tagged_x (w : Warp) (b : Blocked) (d : Nat) (val mask : DWord) (k : Core) : (w.tagged b d val mask k).x = w.x := by
  simp [Warp.tagged]
@[simp] theorem Warp.tagged_m (w : Warp) (b : Blocked) (d : Nat) (val mask : DWord) (k : Core) : (w.tagged b d val mask k).m = w.m := by
  simp [Warp.tagged]

theorem State.tagsOf_of {s T : State} {wid : Nat} {w v : Warp} (hs : s.warp? wid = some w) (hT : T.warp? wid = some v) (hc : v.ctx = w.ctx)
    (hk : (T.core (coreOf wid)).tagmap w.ctx = (s.core (coreOf wid)).tagmap w.ctx) : T.tagsOf wid = s.tagsOf wid := by
  simp only [State.tagsOf, hs, hT, hc, hk]

/-- A price paid leaves the tags as they were. -/
theorem OnlyWarp.tagmap {cost : Nat} {s t : State} {w : Warp} (h : OnlyWarp cost s t w) (ctx : Nat) :
    (t.core (coreOf s.cur)).tagmap ctx = (s.core (coreOf s.cur)).tagmap ctx := by
  rw [h.core]; split <;> rfl

theorem State.tryTags_eq {all : Bool} {mask : DWord} {d : Nat} {wid : Nat} {b : Blocked} (t : State) (h : b.what = .tags all mask d) :
    t.tryTags wid b = if tagsDone all mask (t.tagsOf wid &&& mask) then
      ((t.modWarp wid fun w => w.setK d (tagsValue all (t.tagsOf wid &&& mask))).pass wid b).observe wid mask else t := by
  simp only [State.tryTags, h]

section
variable {s : State} {f : Form} {w : Warp} {all : Bool} {d : Nat} {mask : Warp → DWord}

/-- The lanes of a tag wait as they block. -/
def State.tagBlock (s : State) (f : Form) (w : Warp) (all : Bool) (d : Nat) (m : DWord) : Blocked :=
  (s.committing f 0 w).blockOf (issueCtx f s w) (issueCtx f s w).en (.tags all m d)

/-- The change that the steps 4 and 5 of a tag wait make of the warp. -/
def Warp.tagWaits (v : Warp) (f : Form) (s : State) (w : Warp) (all : Bool) (d : Nat) (m : DWord) : Warp :=
  if tagsDone all m (s.tagsOf s.cur &&& m) then
    (v.waits (issueCtx f s w) (s.tagBlock f w all d m)).tagged (s.tagBlock f w all d m) d (tagsValue all (s.tagsOf s.cur &&& m)) m
      ((s.committing f 0 w).core (coreOf s.cur))
  else v.waits (issueCtx f s w) (s.tagBlock f w all d m)

theorem Warp.tagWaits_same (v : Warp) (f : Form) (s : State) (w : Warp) (all : Bool) (d : Nat) (m : DWord) :
    (v.tagWaits f s w all d m).x = v.x ∧ (v.tagWaits f s w all d m).m = v.m := by
  unfold Warp.tagWaits
  split <;> simp

/-- The tag wait of a committed warp, as a change of the warp. -/
theorem tagWait_changes (h : s.warp? s.cur = some w) (hm : mask (w.atCommit f s) = mask w) :
    (s.committing f 0 w).withWarp s.cur (fun v => (s.committing f 0 w).blockTry (issueCtx f s w) (.tags all (mask v) d) State.tryTags)
      = (s.committing f 0 w).modWarp s.cur fun v => v.tagWaits f s w all d (mask w) := by
  have hT := State.committing_warp (f := f) (n := 0) h
  have hB : ((s.committing f 0 w).modWarp s.cur fun v => v.waits (issueCtx f s w) (s.tagBlock f w all d (mask w))).warp? s.cur
      = some ((w.atCommit f s).waits (issueCtx f s w) (s.tagBlock f w all d (mask w))) := State.warp?_modWarp_of hT _
  have htags : ((s.committing f 0 w).modWarp s.cur fun v => v.waits (issueCtx f s w) (s.tagBlock f w all d (mask w))).tagsOf s.cur
      = s.tagsOf s.cur := by
    refine State.tagsOf_of h hB (by simp) ?_
    have hk := State.committing_only (s := s) (f := f) (n := 0) (w := w)
    exact hk.tagmap w.ctx
  rw [State.withWarp_of hT, hm, State.blockTry, State.blockAll_eq]
  refine (State.tryTags_eq (all := all) (mask := mask w) (d := d) _ rfl).trans ?_
  have e : (s.committing f 0 w).blockOf (issueCtx f s w) (issueCtx f s w).en (.tags all (mask w) d) = s.tagBlock f w all d (mask w) := rfl
  rw [e, issueCtx_wid, htags]
  by_cases hd : tagsDone all (mask w) (s.tagsOf s.cur &&& mask w) = true
  · rw [if_pos hd, State.pass_eq, State.observe_eq]
    simp only [State.modWarp_modWarp, Warp.tagWaits, if_pos hd]
    rfl
  · simp only [Warp.tagWaits, if_neg hd]

/-- A tag wait whose tags are not set blocks its lanes. -/
theorem tagWaits_waits (hw : w.blocked = []) (hg : w.group ≠ 0) {m : DWord} (hd : tagsDone all m (s.tagsOf s.cur &&& m) = false) :
    (((w.atCommit f s).tagWaits f s w all d m).finished f (issueCtx f s w) w).k = w.k ∧
      (((w.atCommit f s).tagWaits f s w all d m).finished f (issueCtx f s w) w).blocked = [s.tagBlock f w all d m] := by
  have hv : (w.atCommit f s).tagWaits f s w all d m = (w.atCommit f s).waits (issueCtx f s w) (s.tagBlock f w all d m) :=
    if_neg (by simp [hd])
  have hb : ((w.atCommit f s).waits (issueCtx f s w) (s.tagBlock f w all d m)).blocked = [s.tagBlock f w all d m] := by
    rw [Warp.waits_blocked, Warp.atCommit_blocked, hw]; rfl
  rw [hv]
  have hsame := Warp.finished_same ((w.atCommit f s).waits (issueCtx f s w) (s.tagBlock f w all d m)) f (issueCtx f s w) w
  refine ⟨by rw [hsame.regs.k]; simp, ?_⟩
  rw [(Warp.finished_woken _ f (issueCtx f s w) w).2, Warp.woken_stays hb rfl ((Warp.waits_susp ..).trans ((Warp.atCommit_susp ..).trans (Warp.susp_of_group hg))), hb]

/-- A tag wait whose tags are set takes its value and leaves its instruction. -/
theorem tagWaits_passes (hw : w.blocked = []) (he : (issueCtx f s w).en ≠ 0) {m : DWord} (hd : tagsDone all m (s.tagsOf s.cur &&& m) = true) :
    let w' := ((w.atCommit f s).tagWaits f s w all d m).finished f (issueCtx f s w) w
    w'.kr d = tagsValue all (s.tagsOf s.cur &&& m) ∧ (∀ n, n ≠ d → w'.kr n = w.kr n) ∧ w'.blocked = [] ∧ LeftBehind f s w w' := by
  obtain ⟨b, hb⟩ : ∃ b, b = s.tagBlock f w all d m := ⟨_, rfl⟩
  obtain ⟨u, hu⟩ : ∃ u, u = ((w.atCommit f s).waits (issueCtx f s w) b).setK d (tagsValue all (s.tagsOf s.cur &&& m)) := ⟨_, rfl⟩
  obtain ⟨k, hk⟩ : ∃ k, k = (s.committing f 0 w).core (coreOf s.cur) := ⟨_, rfl⟩
  have hv : (w.atCommit f s).tagWaits f s w all d m = (u.leaves b).sees k m := by
    rw [hu, hb, hk]; exact if_pos hd
  have hlanes : b.lanes = (issueCtx f s w).en := by rw [hb]; rfl
  have hub : u.blocked = [b] := by
    rw [hu]; simp [hw]
  have hnone : ((u.leaves b).sees k m).blocked = [] := by
    rw [Warp.sees_blocked, Warp.leaves_blocked, hub]; exact leaveBlock_self (hlanes ▸ he)
  have hpc : ∀ l < 32, (u.leaves b).pc l = if laneIn (issueCtx f s w).en l then (issueCtx f s w).next
      else if laneIn w.group l then w.pc l + BitVec.ofNat 64 f.len else w.pc l := by
    intro l hl
    have hupc : u.pc l = if laneIn w.group l && !laneIn (issueCtx f s w).en l then w.pc l + BitVec.ofNat 64 f.len else w.pc l := by
      rw [hu]; exact Warp.pc_waits _ _ _ hl
    rw [Warp.pc_leaves_eq _ _ hl, hlanes, hupc, hb]
    cases laneIn (issueCtx f s w).en l <;> cases laneIn w.group l <;> rfl
  have hrev : ∀ l < 32, (u.leaves b).revOf l = if laneIn (issueCtx f s w).en l then (issueCtx f s w).next else w.revOf l := by
    intro l hl
    have hurev : u.revOf l = (w.atCommit f s).revOf l := by simp [Warp.revOf, hu]
    rw [Warp.revOf_leaves _ _ hl, hlanes, hurev, Warp.revOf_atCommit _ _ _ hl, hb]
    cases laneIn (issueCtx f s w).en l <;> rfl
  have hukr : ∀ n, ((u.leaves b).sees k m).kr n
      = (((w.atCommit f s).waits (issueCtx f s w) b).setK d (tagsValue all (s.tagsOf s.cur &&& m))).kr n := fun n => by
    simp [Warp.kr, hu]
  have hsame := Warp.finished_same ((u.leaves b).sees k m) f (issueCtx f s w) w
  dsimp only
  rw [hv]
  refine ⟨?_, fun n hn => ?_, Warp.finished_unblocked hnone _ _ _, LeftBehind.of_moved (fun l _ _ => ?_) hpc hrev
    fun l hl hn => Warp.finished_pc _ f (issueCtx f s w) w hl hn⟩
  · rw [hsame.regs.kr]; rw [hukr]; exact Warp.kr_setK_self ..
  · rw [hsame.regs.kr]; rw [hukr, Warp.kr_setK, if_neg hn]; simp [Warp.kr]
  · exact Warp.laneIn_blockedLanes_nil hnone l

end

/-- A tag wait is a commit point with its wait. -/
theorem exec_tagWaits {i : Instr} {f : Form} {all : Bool} {d : Nat} {mask : Warp → DWord} (h : tagWaits i = some (f, all, d, mask)) (s : State) :
    exec i s = .next (s.issueSimple f fun c s => c.tagWait all d mask s) ∧
      ∀ w v : Warp, v.k = w.k → mask v = mask w := by
  have hk : ∀ {w v : Warp}, v.k = w.k → ∀ n, v.kr n = w.kr n := fun h n => by simp only [Warp.kr, h]
  have hs : ∀ {w v : Warp}, v.k = w.k → ∀ b, kSrcVal b v = kSrcVal b w := fun h b => by cases b <;> simp only [kSrcVal, hk h]
  cases i <;> simp only [tagWaits, Option.some.injEq, Prod.mk.injEq, reduceCtorEq] at h
  all_goals obtain ⟨rfl, rfl, rfl, rfl⟩ := h
  · exact ⟨rfl, fun w v hv => hk hv _⟩
  · exact ⟨rfl, fun w v hv => hs hv _⟩
  · exact ⟨rfl, fun w v hv => hk hv _⟩
  · exact ⟨rfl, fun w v hv => hs hv _⟩

/-- Settles O30: behind a clean commit the lanes block with their mask, and leave at once where their tags are set. -/
theorem tagWaitsComplete : Obligations.TagWaitsComplete := by
  intro i f all d mask s w hi hc hr he hw
  obtain ⟨hexec, hmask⟩ := exec_tagWaits hi s
  have hT := tagWait_changes (all := all) (d := d) (f := f) hr.cur (hmask w (w.atCommit f s) rfl)
  obtain ⟨hw', honly⟩ := State.commit_changes (B := fun c s => s.withWarp c.wid fun w => s.blockTry c (.tags all (mask w) d) State.tryTags)
    (legal := fun _ _ => true) (steps := fun _ _ => 0) (pre := fun _ => noCheck) _ hr rfl rfl hc he rfl hT
  rw [issueCost_zero] at honly
  have hsame := Warp.finished_same ((w.atCommit f s).tagWaits f s w all d (mask w)) f (issueCtx f s w) w
  refine ⟨_, _, hexec, hw', honly, ?_, ?_, ?_⟩
  · exact hsame.regs.x.trans (Warp.tagWaits_same ..).1
  · exact hsame.regs.m.trans (Warp.tagWaits_same ..).2
  · by_cases hd : tagsDone all (mask w) (s.tagsOf s.cur &&& mask w) = true
    · rw [if_pos hd]; exact tagWaits_passes hw he hd
    · rw [if_neg hd]
      obtain ⟨hk, hb⟩ := tagWaits_waits (f := f) (d := d) hw hr.lanes (Bool.not_eq_true _ ▸ hd)
      exact ⟨hk, _, hb, rfl, rfl⟩

end Sys2Proof.Machine
end


section
/-!
PROOFS. The places that the lanes of an access reach (spec/06 R162), and loads. Settles O19 of spec/06_isa_memory.md.
-/

namespace Sys2Proof.Machine

open Sys2Proof.Machine.Shape

/-! ### The places of an access (R162) -/

theorem tryAll_all {ε α β γ : Type} {f : α → Except ε β} {g : β → γ} {h : α → γ} {P : β → Prop}
    (hf : ∀ x y, f x = .ok y → g y = h x ∧ P y) :
    ∀ {xs : List α} {ys : List β}, tryAll f xs = .ok ys → ys.map g = xs.map h ∧ ∀ y ∈ ys, P y
  | [], ys, he => by cases he; exact ⟨rfl, fun _ hy => nomatch hy⟩
  | x :: xs, ys, he => by
    rw [tryAll] at he
    cases hx : f x with
    | error e => rw [hx] at he; nomatch he
    | ok y =>
      cases hr : tryAll f xs with
      | error e => simp only [hx, hr] at he; nomatch he
      | ok r =>
        simp only [hx, hr] at he
        cases he
        obtain ⟨hmap, hall⟩ := tryAll_all hf hr
        obtain ⟨hg, hP⟩ := hf x y hx
        exact ⟨by rw [List.map_cons, List.map_cons, hg, hmap], fun z hz => (List.mem_cons.1 hz).elim (fun e => e ▸ hP) (hall z)⟩

/-- What the checks of R162 have found of the lanes' places. -/
structure Placed (s : State) (w : Warp) (lanes : Word) (a : Acc) (sp : Spc) (n align : Nat) (ea : Nat → DWord) (spots : List Spot) : Prop where
  lanes : spots.map Prod.fst = lanesOf lanes
  aligned : ∀ p ∈ spots, (ea p.1).toNat % align = 0
  keys : sp = .g → ∀ p ∈ spots, (s.asAccess p.1).place (coreOf s.cur) w.ctx w.priv a (ea p.1) = .ok p.2 ∧
    s.consumes (coreOf s.cur) a p.2 n (ea p.1) = none
  pad : sp = .s → ∀ p ∈ spots, p.2 = (ea p.1).toNat ∧ p.2 + n ≤ s.spadSize w.blk

theorem Reaches.placed {s : State} {w : Warp} {lanes : Word} {a : Acc} {sp : Spc} {n align : Nat} {ea : Warp → Nat → DWord}
    {spots : List Spot} (h : Reaches s lanes a sp n align ea spots) (hw : s.warp? s.cur = some w) :
    Placed s w lanes a sp n align (ea w) spots := by
  have hr := h.found
  unfold State.reach at hr
  rw [hw] at hr
  dsimp only at hr
  cases hfind : (lanesOf lanes).find? fun l => (ea w l).toNat % align != 0 with
  | some l => rw [hfind] at hr; nomatch hr
  | none =>
    rw [hfind] at hr
    have haligned : ∀ l ∈ lanesOf lanes, (ea w l).toNat % align = 0 := fun l hl => by
      simpa using List.find?_eq_none.1 hfind l hl
    have hof : spots.map Prod.fst = lanesOf lanes → ∀ p ∈ spots, (ea w p.1).toNat % align = 0 := fun hm p hp =>
      haligned p.1 (hm ▸ List.mem_map_of_mem hp)
    cases sp with
    | s =>
      dsimp only at hr
      cases hbound : (lanesOf lanes).find? fun l => decide (s.spadSize w.blk < (ea w l).toNat + n) with
      | some l => rw [hbound] at hr; nomatch hr
      | none =>
        rw [hbound] at hr
        cases hr
        have hl : ((lanesOf lanes).map fun l => (l, (ea w l).toNat)).map Prod.fst = lanesOf lanes := by
          rw [List.map_map]; exact List.map_id _
        refine ⟨hl, hof hl, (fun e => nomatch e), fun _ p hp => ?_⟩
        obtain ⟨l, hlm, rfl⟩ := List.mem_map.1 hp
        exact ⟨rfl, by simpa using List.find?_eq_none.1 hbound l hlm⟩
    | g =>
      dsimp only at hr
      obtain ⟨hmap, hall⟩ := tryAll_all (g := Prod.fst) (h := id) (P := fun p : Spot =>
        (s.asAccess p.1).place (coreOf s.cur) w.ctx w.priv a (ea w p.1) = .ok p.2 ∧
          s.consumes (coreOf s.cur) a p.2 n (ea w p.1) = none) (fun l p hp => by
            split at hp
            · nomatch hp
            · next key hkey =>
              split at hp
              · nomatch hp
              · next hno => cases hp; exact ⟨rfl, hkey, hno⟩) hr
      rw [List.map_id] at hmap
      exact ⟨hmap, hof hmap, fun _ => hall, fun e => nomatch e⟩

/-- Every enabled lane has its place. -/
theorem Placed.hasSpot {s : State} {w : Warp} {lanes : Word} {a : Acc} {sp : Spc} {n align : Nat} {ea : Nat → DWord} {spots : List Spot}
    (h : Placed s w lanes a sp n align ea spots) {l : Nat} (hl : laneIn lanes l = true) : ∃ p ∈ spots, p.1 = l := by
  have hm : l ∈ spots.map Prod.fst := h.lanes ▸ (mem_lanesOf lanes l).2 ⟨laneIn_lt hl, hl⟩
  exact List.mem_map.1 hm

/-! ### Accesses at their effect -/

section
variable {s : State} {f : Form} {w : Warp} {n : Nat}

/-- No race and no leased line stands before the effect of an access (R282, R296). -/
theorem Reaches.clears {a : Acc} {sp : Spc} {k al : Nat} {ea : Warp → Nat → DWord} {spots : List Spot} {write : Bool}
    (h : Reaches s (issueCtx f s w).en a sp k al ea spots) (hw : s.warp? s.cur = some w) (hea : ea (w.atIssue f s) = ea w)
    (hrace : s.raceTrap s.cur sp spots k write ea = none) (go : State → State) :
    (s.begun f n w).cleared (issueCtx f s w) sp spots k write ea go = go (s.begun f n w) := by
  have hrace' := (State.raceTrap_begun (f := f) (n := n) hw hea sp spots k write).trans hrace
  unfold State.cleared
  rw [issueCtx_wid, hrace']
  refine State.whenHome_goes go (State.begun_warp hw) rfl ?_
  cases sp with
  | s => exact fun _ h => nomatch h
  | g => exact h.linesHome .begun

theorem lineSteps_of (hw : s.warp? s.cur = some w) (price : Nat) (ea : Warp → Nat → DWord) :
    lineSteps price ea (issueCtx f s w) s = price * (linesNamed (issueCtx f s w).en (ea w)).length := by
  rw [lineSteps, issueCtx_wid, hw]

/-- The numbers that the lanes of a load take, by lane (R171). -/
def loadedVals (s : State) (core : Nat) (w : Warp) (t : MemW) (sp : Spc) (spots : List Spot) : List (Nat × DWord) :=
  spots.map fun p => (p.1, loadValue t (s.loadNum core w sp p.2 (memBytes t)))

/-- The warp that a load leaves before its lanes advance. -/
def Warp.loadedBy (v : Warp) (t : MemW) (d : Nat) (en : Word) (vals : List (Nat × DWord)) : Warp :=
  (v.setXn t.wide d en (atLane 0 vals)).loading (regPair t.wide d) en

theorem Warp.loadedBy_onlyLoads (v : Warp) (t : MemW) (d : Nat) (en : Word) (vals : List (Nat × DWord)) :
    OnlyLoads v (v.loadedBy t d en vals) := ((Quiet.setXn ..).onlyLoads (by simp)).loading _ _

theorem Warp.loadedBy_regs (v : Warp) (t : MemW) (d : Nat) (en : Word) (vals : List (Nat × DWord)) :
    SameRegs (v.setXn t.wide d en (atLane 0 vals)) (v.loadedBy t d en vals) := ⟨rfl, rfl, rfl⟩

/-- The effect of a load that reaches its bytes: reads, the registers, the advance, and its acquire. -/
theorem Ctx.load_reaches {t : MemW} {sp : Spc} {acq : Option Scope} {d : Nat} {ea : Warp → Nat → DWord} {spots : List Spot}
    (hr : Ready f n s w) (hea : ea (w.atIssue f s) = ea w) (h : Reaches s (issueCtx f s w).en .read sp (memBytes t) (memBytes t) ea spots)
    (hrace : s.raceTrap s.cur sp spots (memBytes t) false ea = none) :
    ∃ S T, ReadLeft (s.begun f n w) S ∧
      ReadLeft (S.modWarp s.cur fun v =>
        (v.loadedBy t d (issueCtx f s w).en (loadedVals s (coreOf s.cur) w t sp spots)).advance w.group f.len) T ∧
      (issueCtx f s w).load t sp acq d ea (s.begun f n w) = T := by
  have hw := State.begun_warp (n := n) (f := f) hr.cur
  have harmed : (s.begun f n w).ap! offInjMask = 0 := (State.ap!_of_ap (.trans Stood.begun.ap rfl) _).trans hr.disarmed
  have hreach := (State.reach_begun (f := f) (n := n) hr.cur hea (issueCtx f s w).en .read sp (memBytes t) (memBytes t)).trans h.found
  have hused := ReadLeft.used harmed (issueCtx f s w) sp ea
  have hloaded := hused.trans (.loaded (hused.disarmed harmed) (coreOf s.cur) w.ctx sp spots)
  have hmarked := hloaded.trans (.mark (hloaded.disarmed harmed) s.cur sp spots (memBytes t) false)
  refine ⟨_, _, hmarked, .acquireBy _ (coreOf s.cur) (scopeAt sp acq), ?_⟩
  rw [Ctx.load, issueCtx_wid, State.withWarp_of hw]
  dsimp only
  rw [hreach]
  dsimp only
  rw [h.clears hr.cur hea hrace]
  simp only [State.loadNum_begun, loadedVals]
  rfl

end

/-- What the loaded value is in the destination. -/
theorem atLane_loadedVals {s : State} {core : Nat} {w : Warp} {t : MemW} {sp : Spc} {spots : List Spot} {l : Nat}
    (hl : ∃ p ∈ spots, p.1 = l) :
    atLane 0 (loadedVals s core w t sp spots) l = loadValue t (s.loadNum core w sp (atLane 0 spots l) (memBytes t)) :=
  atLane_map 0 (fun key => loadValue t (s.loadNum core w sp key (memBytes t))) hl

/-- Settles O19: a load that reaches its bytes leaves reads, its registers and the advance. -/
theorem loadsComplete : Obligations.LoadsComplete := by
  rintro i v c s w spots hi rfl hr he h hrace
  obtain ⟨⟨acq, hexec⟩, hea⟩ := runsLoad hi
  obtain ⟨S, T, hS, hT, hbody⟩ := Ctx.load_reaches (acq := acq) (d := v.d) hr (hea w v.form s) h hrace
  obtain ⟨w', hacc⟩ := State.issue_accesses (lineSteps 6 v.ea) (fun c s => c.load v.width v.sp acq v.d v.ea s)
    (fun u => u.loadedBy v.width v.d (issueCtx v.form s w).en (loadedVals s (coreOf s.cur) w v.width v.sp spots)) hr (lineSteps_of hr.cur ..) he
    hS hT hbody (Warp.loadedBy_onlyLoads ..)
  have hregs := (Warp.loadedBy_regs (w.atIssue v.form s) v.width v.d (issueCtx v.form s w).en
    (loadedVals s (coreOf s.cur) w v.width v.sp spots)).trans hacc.regs
  have hissue := SameRegs.atIssue w v.form s
  refine ⟨_, w', hexec s, hacc.warp, fun l hl => ?_, fun m l hl hm => ?_, ?_, ?_, hacc.rsb, hacc.advanced, hacc.standing, hacc.specials,
    hacc.bytes, hacc.ver, hacc.elsewhere⟩
  · rw [hregs.xn, Warp.xn_setXn _ _ _ _ _ hl, atLane_loadedVals ((h.placed hr.cur).hasSpot hl)]
    rfl
  · rw [hregs.xr, Warp.xr_setXn_ne _ _ _ _ _ _ hl hm, hissue.xr]
  · rw [hregs.k, Warp.setXn_k, hissue.k]
  · rw [hregs.m, Warp.setXn_m, hissue.m]

end Sys2Proof.Machine
end


section
/-!
PROOFS. Instructions that commit and then access memory: the state in which they come to their access, fresh or back behind their commit,
and the end that leaves the instruction (spec/06 R168; spec/13 R445). `vset`. Settles O24 of spec/06_isa_memory.md.
-/

namespace Sys2Proof.Machine

/-! ### Addresses are functions of registers -/

section
variable {w v : Warp} (h : SameRegs w v)
include h

theorem SameRegs.srcAVal (wide : Bool) (a : SrcA) (l : Nat) : Machine.srcAVal wide a v l = Machine.srcAVal wide a w l := by
  cases a <;> simp only [Machine.srcAVal, h.xn, h.kr]

theorem SameRegs.memEa (sp : Spc) (e : Sys2Proof.Mem) : Machine.memEa sp e v = Machine.memEa sp e w := by
  funext l
  simp only [Machine.memEa, h.srcAVal, h.xr]

theorem SameRegs.storeEa (t : MemW) (sp : Spc) (e : Sys2Proof.Mem) : Machine.storeEa t sp e v = Machine.storeEa t sp e w := by
  funext l
  simp only [Machine.storeEa, h.srcAVal, h.xr, h.memEa]

theorem SameRegs.atmEa (e : Atm) : Machine.atmEa e v = Machine.atmEa e w := by
  funext l
  simp only [Machine.atmEa, h.srcAVal]

end

/-! ### The state in which the access begins -/

/-- An instruction has come to its access: nothing has moved but its own warp and tokens, the warp stands at it, and what the checks of the
access look at is as it was. -/
structure Comes (f : Form) (s : State) (w : Warp) (S : State) (v : Warp) : Prop extends Begins s S v where
  poised : Poised (issueCtx f s w) w v
  standing : SameStanding w v
  rsb : v.rsb = w.rsb
  seq : v.rseq = w.rseq ∨ s.mem.marks = []
  apart : S.apart = s.apart

section
variable {s S : State} {f : Form} {w v : Warp} {n : Nat}

theorem SameStanding.atCommit (w : Warp) (f : Form) (s : State) : SameStanding w (w.atCommit f s) := by
  unfold Warp.atCommit
  constructor <;> simp

theorem Poised.atCommit (w : Warp) (f : Form) (s : State) : Poised (issueCtx f s w) w (w.atCommit f s) :=
  ⟨Warp.regs_atCommit w f s, by simp, by simp, by simp, fun l hl hn => by
    rw [Warp.revOf_atCommit _ _ _ hl, hn, if_neg Bool.false_ne_true]⟩

theorem State.begun_apart (s : State) (f : Form) (n : Nat) (w : Warp) : (s.begun f n w).apart = s.apart := by
  unfold State.begun
  split <;> rfl

/-- A fresh instruction comes to its access behind a clean commit. -/
theorem Comes.fresh (hw : s.warp? s.cur = some w) (hc : CommitsEmpty s w) (n : Nat) :
    Comes f s w (s.committing f n w) (w.atCommit f s) :=
  { (Begins.begun hw f n).modWarp fun v => v.committed (issueCtx f s w) with
    poised := .atCommit w f s, standing := .atCommit w f s, rsb := hc.rsb.symm, seq := .inr hc.marks, apart := State.begun_apart s f n w }

theorem Quiet.comes (h : Begins s S v) (hq : Quiet w v) (hr : SameRegs w v) (hp : v.pcv = w.pcv) (ha : S.apart = s.apart) : Comes f s w S v :=
  { h with
    poised := ⟨hr, hq.standing.blk, hp, hq.blocked, fun _ _ _ => by rw [Warp.revOf, hq.rev, Warp.revOf]⟩
    standing := hq.standing, rsb := hq.rsb, seq := .inl hq.rseq, apart := ha }

/-- An instruction that comes back finds the state as it is. -/
theorem Comes.again (hw : s.warp? s.cur = some w) : Comes f s w (s.modWarp s.cur id) w :=
  Quiet.comes (Begins.again hw) (.refl w) ⟨rfl, rfl, rfl⟩ rfl rfl

theorem SameStanding.unstaged {w v : Warp} (h : SameStanding w v) : SameStanding w v.unstaged :=
  ⟨h.ctx, h.blk, h.widx, h.level, h.regs, h.regs0, h.lean, h.exited, h.delayed, h.parked, h.susp, h.stopped, h.faults, h.inv, h.inbox⟩

namespace Comes

variable (h : Comes f s w S v)
include h

theorem unstage : Comes f s w (S.modWarp s.cur Warp.unstaged) v.unstaged :=
  { h.toBegins.modWarp Warp.unstaged with poised := h.poised.unstaged, standing := h.standing.unstaged, rsb := h.rsb, seq := h.seq, apart := h.apart }

theorem paying (core part price : Nat) : Comes f s w (S.modCore core fun k => k.pay part price) v :=
  { h.toBegins.paying core part price with poised := h.poised, standing := h.standing, rsb := h.rsb, seq := h.seq, apart := h.apart }

theorem reach (hw : s.warp? s.cur = some w) {ea : Warp → Nat → DWord} (hea : ea v = ea w) (lanes : Word) (a : Acc) (sp : Spc)
    (n align : Nat) : S.reach s.cur lanes a sp n align ea = s.reach s.cur lanes a sp n align ea :=
  h.toLooksAlike.reach hw h.warp hea h.standing.ctx (by rw [Warp.priv, h.standing.level, Warp.priv]) h.standing.blk lanes a sp n align

/-- The checks for races find what they found: the regions are the same, or no word is marked (R296). -/
theorem raceTrap (hw : s.warp? s.cur = some w) {ea : Warp → Nat → DWord} (hea : ea v = ea w) (sp : Spc) (spots : List Spot) (n : Nat)
    (write : Bool) : S.raceTrap s.cur sp spots n write ea = s.raceTrap s.cur sp spots n write ea := by
  have hracing : S.racing v = s.racing w := by
    unfold State.racing State.recOf State.block?
    rw [h.blocks, h.standing.blk]
  have hconflict : ∀ lane key, S.conflict v s.cur lane key n write = s.conflict w s.cur lane key n write := by
    intro lane key
    unfold State.conflict State.checked Warp.markSeq Warp.seqOf
    rw [h.mem, h.standing.ctx]
    rcases h.seq with hseq | hmarks
    · rw [hseq]
    · rw [hmarks]; rfl
  unfold State.raceTrap
  rw [h.warp, hw]
  cases sp with
  | s => rfl
  | g => simp only [hracing, hconflict, hea]

/-- A load reads what it would have read. -/
theorem loadNum (core : Nat) (sp : Spc) (key n : Nat) : S.loadNum core v sp key n = s.loadNum core w sp key n := by
  have hbyte : ∀ off, S.apByte off = s.apByte off := State.apByte_of h.ap h.dies h.dev
  have hload : ∀ i, S.loadByte core w.blk sp i = s.loadByte core w.blk sp i := by
    intro i
    unfold State.loadByte State.spadByte State.block? State.readL1 State.beyondL1 State.l2Valid
    simp only [hbyte, h.mem, h.blocks, h.own, h.l1]
  have hforward : v.forward = w.forward := by
    unfold Warp.forward
    rw [h.rsb]
  unfold State.loadNum
  simp only [hforward, h.standing.blk, hload]

theorem versionAt (key : Nat) : S.versionAt key = s.versionAt key := by
  unfold State.versionAt
  rw [h.own, h.mem]

/-- What step 1 of the commit point has found, it finds of the access. -/
theorem checks (hw : s.warp? s.cur = some w) {a : Acc} {sp : Spc} {n align : Nat} {ea : Warp → Nat → DWord} {spots : List Spot}
    (hea : ea v = ea w) (hr : Reaches s (issueCtx f s w).en a sp n align ea spots) : (issueCtx f s w).checks a sp n align ea S = none := by
  unfold Ctx.checks
  rw [issueCtx_wid, h.reach hw hea, hr.found]

/-- The lines of the access are at home, and nothing holds it back (R282). -/
theorem whenHome {a : Acc} {n align : Nat} {ea : Warp → Nat → DWord} {spots : List Spot} (hst : v.stage = none)
    (hr : Reaches s (issueCtx f s w).en a .g n align ea spots) (st : Stage) (go : State → State) :
    S.whenHome (issueCtx f s w) st (distinct (spots.map fun p => lineOf p.2)) go = go S :=
  State.whenHome_goes go h.warp hst (hr.linesHome h.toStood)

/-- A direct access that reaches its bytes and races with none goes on (R168, R282, R296). -/
theorem direct (hw : s.warp? s.cur = some w) (hst : v.stage = none) {a : Acc} {sp : Spc} {n align : Nat} {ea : Warp → Nat → DWord}
    {spots : List Spot} (hea : ea v = ea w) (hr : Reaches s (issueCtx f s w).en a sp n align ea spots) (write : Bool)
    (hrace : s.raceTrap s.cur sp spots n write ea = none) (go : List Spot → State → State) :
    (issueCtx f s w).direct a sp n align write ea go S = go spots (S.used (issueCtx f s w) sp ea) := by
  unfold Ctx.direct
  rw [issueCtx_wid, h.reach hw hea, hr.found]
  dsimp only
  rw [h.raceTrap hw hea, hrace]
  dsimp only
  cases sp with
  | s => exact State.whenHome_goes _ h.warp hst fun _ hl => nomatch hl
  | g => exact h.whenHome hst hr _ _

end Comes

/-! ### How an instruction comes to it -/

/-- The checks of an issue find what they would have found before it. -/
theorem Begins.checks (hw : s.warp? s.cur = some w) {a : Acc} {sp : Spc} {k align : Nat} {ea : Warp → Nat → DWord} {spots : List Spot}
    (hea : ea (w.atIssue f s) = ea w) (hr : Reaches s (issueCtx f s w).en a sp k align ea spots) :
    (issueCtx f s w).checks a sp k align ea (s.begun f n w) = none := by
  unfold Ctx.checks
  rw [issueCtx_wid, State.reach_begun hw hea, hr.found]

/-- A fresh instruction whose commit is clean comes to its steps 4 and 5. -/
theorem State.commit_fresh {legal : Ctx → State → Bool} {steps : Ctx → State → Nat} {pre : Ctx → State → Option Trap}
    {B : Ctx → State → State} (hr : Ready f n s w) (hl : legal (issueCtx f s w) s = true) (hs : steps (issueCtx f s w) s = n)
    (hc : CommitsEmpty s w) (he : (issueCtx f s w).en ≠ 0) (hp : pre (issueCtx f s w) (s.begun f n w) = none) :
    s.issue f legal steps (fun c s => s.commitPoint c (pre c) (B c))
      = (B (issueCtx f s w) (s.committing f n w)).finish f (issueCtx f s w) w := by
  rw [State.issue_ready legal steps _ hr hl hs, if_neg he, State.commitPoint_ready _ _ hr hc hp]
  rfl

end

/-! ### The end of the instruction -/

section
variable {s T : State} {f : Form} {w u : Warp}

/-- The lanes of a warp that stood at its instruction leave it behind them, whatever its registers hold. -/
theorem State.leave_finish (hw : T.warp? s.cur = some (u.left (issueCtx f s w))) (hp : u.pcv = w.pcv) (hb : u.blocked = w.blocked)
    (hr : ∀ l < 32, laneIn (issueCtx f s w).en l = false → u.revOf l = w.revOf l) :
    ∃ w', (T.finish f (issueCtx f s w) w).warp? s.cur = some w' ∧ LeftBehind f s w w' ∧ SameRegs u w' ∧ w'.rcount = u.rcount ∧
      (w.blocked = [] → w'.blocked = []) := by
  have hend := Warp.finished_same (u.left (issueCtx f s w)) f (issueCtx f s w) w
  have hbl : (u.left (issueCtx f s w)).blocked = w.blocked := (Warp.left_blocked ..).trans hb
  refine ⟨_, State.warp?_modWarp_of hw _, LeftBehind.of (u := u) (blockedLanes_of_blocked hbl)
    (fun l hl => ⟨by simp only [Warp.pc, hp], hr l hl⟩) ⟨rfl, rfl⟩ fun l hl hn => Warp.finished_pc _ _ _ _ hl hn, ?_, ?_,
    fun hn => Warp.finished_unblocked (hbl.trans hn) _ _ _⟩
  · exact SameRegs.trans ⟨Warp.left_x .., Warp.left_k .., Warp.left_m ..⟩ hend.regs
  · exact hend.rcount.trans (Warp.left_rcount ..)

theorem SameElsewhere.finish (h : SameElsewhere s T) (c : Ctx) (hc : c.wid = s.cur) : SameElsewhere s (T.finish f c w) := by
  unfold State.finish
  rw [hc]
  exact h.modWarp _

end

/-! ### vset (R175) -/

section
variable {s : State} {f : Form} {w : Warp} {n d b : Nat} {ea : Warp → Nat → DWord} {spots : List Spot}

/-- The warp whose mask `d` says in the enabled lanes whether the versions still stand. -/
def Warp.versionsOk (v : Warp) (d : Nat) (en : Word) (ok : Bool) : Warp := v.setM d (maskWrite (v.mr d) en (if ok then -1 else 0))

theorem Warp.versionsOk_bits (v : Warp) (d : Nat) (en : Word) (ok : Bool) {l : Nat} (hl : l < 32) :
    laneIn ((v.versionsOk d en ok).mr d) l = if laneIn en l then ok else laneIn (v.mr d) l := by
  have hall : laneIn (-1 : Word) l = true := by
    have : (-1 : Word) = BitVec.allOnes 32 := by decide
    rw [this, laneIn, BitVec.getLsbD_allOnes, decide_eq_true hl]
  rw [Warp.versionsOk, Warp.mr_setM_self, laneIn_maskWrite _ _ _ hl]
  cases ok
  · simp
  · rw [if_pos rfl, hall]

/-- Step 1 of a `vset` that reaches at most eight lines (R175). -/
theorem Ctx.vsetCheck_passes (hw : s.warp? s.cur = some w) (hea : ea (w.atIssue f s) = ea w)
    (h : Reaches s (issueCtx f s w).en .read .g 4 4 ea spots) (h8 : (distinct (spots.map fun p => lineOf p.2)).length ≤ 8) :
    (issueCtx f s w).vsetCheck ea (s.begun f n w) = none := by
  unfold Ctx.vsetCheck
  rw [issueCtx_wid, State.reach_begun hw hea, h.found]
  exact if_neg (Nat.not_lt.2 h8)

/-- Whether every lane's line still has the version that the lane expects. -/
def versionsStand (s : State) (w : Warp) (b : Nat) (spots : List Spot) : Bool := spots.all fun p => s.versionAt p.2 == w.xr b p.1

/-- The effect of a `vset`. -/
def Ctx.vsetBody (c : Ctx) (d b : Nat) (ea : Warp → Nat → DWord) (s : State) : State :=
  s.withWarp c.wid fun w =>
    match s.reach c.wid c.en .read .g 4 4 ea with
    | .error t => s.raise4 c t
    | .ok spots => s.whenHome c c.paidUp (distinct (spots.map fun p => lineOf p.2)) fun s =>
      let s' := (distinct (spots.map fun p => lineOf p.2)).foldl (fun s l => s.homeLine c.core l) (s.used c .g ea)
      (((if versionsStand s w b spots then s'.acquire c.core .sy else s').modWarp c.wid fun v =>
        v.versionsOk d c.en (versionsStand s w b spots)).leave c)

theorem Ctx.vset_eq (c : Ctx) (d b : Nat) (ea : Warp → Nat → DWord) (s : State) :
    c.vset d b ea s = s.commitPoint c (c.vsetCheck ea) (c.vsetBody d b ea) := rfl

/-- The effect of a `vset` that reaches its lines: reads, its mask, and step 5. -/
theorem Ctx.vset_reaches {S : State} {v : Warp} (h : Comes f s w S v) (hw : s.warp? s.cur = some w) (hst : v.stage = none)
    (hs : s.ap! offInjMask = 0) (hea : ea v = ea w) (hr : Reaches s (issueCtx f s w).en .read .g 4 4 ea spots) :
    ∃ R, ReadLeft S R ∧ (issueCtx f s w).vsetBody d b ea S = R.modWarp s.cur fun u =>
      (u.versionsOk d (issueCtx f s w).en (versionsStand s w b spots)).left (issueCtx f s w) := by
  have hused := ReadLeft.used (h.disarmed hs) (issueCtx f s w) .g ea
  have hhomes := hused.trans (.foldl (fun _ l hs => .homeLine hs (coreOf s.cur) l) (distinct (spots.map fun p => lineOf p.2))
    (hused.disarmed (h.disarmed hs)))
  have hstand : versionsStand S v b spots = versionsStand s w b spots := by
    unfold versionsStand
    simp only [h.versionAt, h.poised.regs.xr]
  refine ⟨_, hhomes.trans (.ite (c := versionsStand s w b spots) (fun _ => .acquire _ (coreOf s.cur) .sy) fun _ => .refl _), ?_⟩
  unfold Ctx.vsetBody
  rw [issueCtx_wid, State.withWarp_of h.warp, h.reach hw hea, hr.found]
  dsimp only
  rw [h.whenHome hst hr, hstand, State.leave_eq]
  exact State.modWarp_modWarp ..

/-- A `vset` that reaches its lines: what it leaves of the machine and of the warp. -/
theorem State.issue_vset {steps : Ctx → State → Nat} (hr : Ready f n s w) (hc : CommitsEmpty s w) (he : (issueCtx f s w).en ≠ 0)
    (hs : steps (issueCtx f s w) s = n) (hea : ea (w.atIssue f s) = ea w) (hea' : ea (w.atCommit f s) = ea w)
    (h : Reaches s (issueCtx f s w).en .read .g 4 4 ea spots) (h8 : (distinct (spots.map fun p => lineOf p.2)).length ≤ 8) :
    ∃ R, ReadLeft (s.committing f n w) R ∧ s.issue f (fun _ _ => true) steps (fun c s => c.vset d b ea s)
      = (R.modWarp s.cur fun u => (u.versionsOk d (issueCtx f s w).en (versionsStand s w b spots)).left (issueCtx f s w)).finish f
        (issueCtx f s w) w := by
  obtain ⟨R, hR, hbody⟩ := Ctx.vset_reaches (d := d) (b := b) (Comes.fresh hr.cur hc n) hr.cur rfl hr.disarmed hea' h
  refine ⟨R, hR, ?_⟩
  rw [← hbody]
  exact State.commit_fresh (legal := fun _ _ => true) (pre := fun c => c.vsetCheck ea) (B := fun c => c.vsetBody d b ea) hr rfl hs hc he
    (Ctx.vsetCheck_passes hr.cur hea h h8)

/-- Settles O24: behind a clean commit `vset` reads the versions of its lines, and writes its mask. -/
theorem versionSetCompletes : Obligations.VersionSetCompletes := by
  intro g d b rt a f c s w spots ok hf hc' hc he hr h h8 hok
  subst hc'
  obtain ⟨ea, hea⟩ : ∃ ea : Warp → Nat → DWord, ea = fun w l => srcAVal true a w l := ⟨_, rfl⟩
  have hregs : ∀ v, SameRegs w v → ea v = ea w := fun v hv => by simp only [hea, hv.srcAVal]
  rw [← hea] at h
  have hstand : versionsStand s w b spots = ok := by
    rw [Bool.eq_iff_iff, hok, versionsStand, List.all_eq_true]
    simp
  obtain ⟨R, hR, ht⟩ := State.issue_vset (d := d) (b := b) (steps := lineSteps 10 ea) hr hc he (by rw [hea]; exact lineSteps_of hr.cur ..)
    (hregs _ (.atIssue w f s)) (hregs _ (Warp.regs_atCommit w f s)) h h8
  have hcomes := Comes.fresh (f := f) hr.cur hc (10 * (linesNamed (issueCtx f s w).en fun l => srcAVal true a w l).length)
  rw [hstand] at ht
  have hwarp : (R.modWarp s.cur fun u => (u.versionsOk d (issueCtx f s w).en ok).left (issueCtx f s w)).warp? s.cur
      = some (((w.atCommit f s).versionsOk d (issueCtx f s w).en ok).left (issueCtx f s w)) :=
    State.warp?_modWarp_of ((hR.warp? _).trans hcomes.warp) _
  obtain ⟨w', hw', hleft, hregs, -⟩ := State.leave_finish hwarp hcomes.poised.pcv hcomes.poised.blocked hcomes.poised.rev
  have helse : SameElsewhere s (R.modWarp s.cur fun u => (u.versionsOk d (issueCtx f s w).en ok).left (issueCtx f s w)) :=
    (hR.sameElsewhere hcomes.toSameElsewhere).modWarp _
  have hexec : exec (.vset g rt d a b) s = .next (s.issue f (fun _ _ => true) (lineSteps 10 ea) fun c s => c.vset d b ea s) := by
    rw [hf, hea]; rfl
  refine ⟨_, w', hexec.trans (congrArg _ ht), hw', hleft, ?_, ?_, fun l hl => ?_, fun m hm => ?_, fun key => (hR.sameBytes key).trans ?_,
    hR.ver.trans ?_, helse.finish _ rfl⟩
  · rw [hregs.x]; exact (Warp.setM_x ..).trans (Warp.atCommit_x ..)
  · rw [hregs.k]; exact (Warp.setM_k ..).trans (Warp.atCommit_k ..)
  · rw [hregs.mr, Warp.versionsOk_bits _ _ _ _ hl, hcomes.poised.regs.mr]
  · rw [hregs.mr, Warp.versionsOk, Warp.mr_setM, if_neg hm, hcomes.poised.regs.mr]
  · rw [hcomes.mem]
  · rw [hcomes.mem]

end

end Sys2Proof.Machine
end


section
/-!
PROOFS. Instructions that commit, then draw a step demand and then access memory (spec/06 R168; spec/13 R445): a fresh one on a compute core
leaves its demand, one whose demand is paid comes to its access. `poll` and `mwait`. Settles O31 of spec/06_isa_memory.md.
-/

namespace Sys2Proof.Machine

/-! ### The demand -/

section
variable {s S : State} {f : Form} {w v : Warp} {price : Nat} {pre : Ctx → State → Option Trap} {cost : Ctx → Nat} {go : Ctx → State → State}

/-- An instruction that commits and then draws a step demand before its access. -/
def State.demanding (s : State) (f : Form) (pre : Ctx → State → Option Trap) (cost : Ctx → Nat) (go : Ctx → State → State) : State :=
  s.issueSimple f fun c s => s.commitPoint c (pre c) fun s => s.payStep c (cost c) (go c)

@[simp] theorem Warp.owes_x (v : Warp) (c : Ctx) : (v.owes c).x = v.x := rfl
@[simp] theorem Warp.owes_k (v : Warp) (c : Ctx) : (v.owes c).k = v.k := rfl
@[simp] theorem Warp.owes_pcv (v : Warp) (c : Ctx) : (v.owes c).pcv = v.pcv := rfl
@[simp] theorem Warp.owes_m (v : Warp) (c : Ctx) : (v.owes c).m = v.m := rfl

theorem KeepsCommit.owes (v : Warp) (c : Ctx) : KeepsCommit v (v.owes c) :=
  ⟨⟨rfl, rfl, rfl⟩, rfl, rfl, rfl, rfl, rfl, rfl, rfl, rfl, rfl, rfl, rfl⟩

/-- A fresh instruction on a compute core leaves its demand behind a clean commit (R136, R445). -/
theorem State.demanding_demands (hr : Ready f 0 s w) (hc : CommitsEmpty s w) (he : (issueCtx f s w).en ≠ 0)
    (hs : isService (coreOf s.cur) = false) (hp : pre (issueCtx f s w) (s.begun f 0 w) = none) (hcost : cost (issueCtx f s w) ≠ 0) :
    ∃ w', Demands f s (s.demanding f pre cost go) w w' := by
  have hT := State.committing_warp (f := f) (n := 0) hr.cur
  have hB : (s.committing f 0 w).payStep (issueCtx f s w) (cost (issueCtx f s w)) (go (issueCtx f s w))
      = (s.committing f 0 w).modWarp s.cur fun v => v.owes (issueCtx f s w) := by
    rw [State.payStep_compute (c := issueCtx f s w) (go (issueCtx f s w)) hT hs hcost]
    rfl
  obtain ⟨hw', honly⟩ := State.commit_changes (B := fun c s => s.payStep c (cost c) (go c)) (legal := fun _ _ => true)
    (steps := fun _ _ => 0) _ hr rfl rfl hc he hp hB
  rw [issueCost_zero] at honly
  have hsame := Warp.finished_same ((w.atCommit f s).owes (issueCtx f s w)) f (issueCtx f s w) w
  have hkeeps : KeepsCommit (w.atCommit f s) ((w.atCommit f s).owes (issueCtx f s w)) := .owes ..
  refine ⟨_, hw', honly, KeepsCommit.committed hkeeps hsame, hsame.stage, fun l hl => ?_⟩
  have hu : laneIn ((w.atCommit f s).owes (issueCtx f s w)).blockedLanes l = false := by
    have hb : ((w.atCommit f s).owes (issueCtx f s w)).blocked = w.blocked := Warp.atCommit_blocked w f s
    rw [blockedLanes_of_blocked hb]
    exact Warp.group_unblocked hl
  have hpc : ((w.atCommit f s).owes (issueCtx f s w)).pc l = w.pc l := by simp [Warp.pc]
  exact (Warp.finished_pc _ f (issueCtx f s w) w (laneIn_lt hl) hu).1.trans hpc

/-- A demand that no bucket asks for, that is paid, or that the bucket pays now lets the access begin. -/
theorem Comes.payStep (h : Comes f s w S v) (hp : price ≠ 0)
    (hpays : isService (coreOf s.cur) = false →
      ∃ st, v.stage = some st ∧ (st.kind = 3 ∨ (st.kind = 2 ∧ S.canPay (coreOf s.cur) price = true))) (go : State → State) :
    ∃ T, S.payStep (issueCtx f s w) price go = go T ∧ Comes f s w T v.unstaged := by
  cases hs : isService (coreOf s.cur) with
  | true => exact ⟨_, State.payStep_service go h.warp hs, h.unstage⟩
  | false =>
    rw [State.payStep_compute (c := issueCtx f s w) go h.warp hs hp]
    obtain ⟨st, hst, h3 | ⟨h2, hcan⟩⟩ := hpays hs
    · exact ⟨_, by simp only [State.demandStep, hst, h3, if_true]; rfl, h.unstage⟩
    · refine ⟨_, ?_, (h.paying (coreOf s.cur) (S.partOf v.ctx) price).unstage⟩
      have hcan' : S.canPay (issueCtx f s w).core price = true := hcan
      simp only [State.demandStep, hst, h2, Nat.reduceEqDiff, if_false, if_true, State.demandNow, hcan']
      rfl

/-- An instruction whose demand is paid, or that a service core runs, comes to its access. -/
theorem State.demanding_comes (hg : GoesOn f price s w (CommitsEmpty s w)) (he : (issueCtx f s w).en ≠ 0) (hp : price ≠ 0)
    (hcost : cost (issueCtx f s w) = price) (hpre : pre (issueCtx f s w) (s.begun f 0 w) = none) :
    ∃ T v, s.demanding f pre cost go = (go (issueCtx f s w) T).finish f (issueCtx f s w) w ∧ Comes f s w T v ∧ v.stage = none := by
  cases hs : isService (coreOf s.cur) with
  | true =>
    obtain ⟨hr, hc⟩ := hg.service hs
    obtain ⟨T, hpay, hT⟩ := (Comes.fresh hg.cur hc 0).payStep (price := price) hp (fun h => nomatch hs.symm.trans h) (go (issueCtx f s w))
    refine ⟨T, _, ?_, hT, rfl⟩
    rw [State.demanding, State.issueSimple,
      State.commit_fresh (legal := fun _ _ => true) (steps := fun _ _ => 0) (B := fun c s => s.payStep c (cost c) (go c)) hr rfl rfl hc he hpre,
      hcost, hpay]
  | false =>
    obtain ⟨st, hst, hstep, hpays⟩ : ∃ st, w.stage = some st ∧ st.step = 4 ∧ (st.kind = 3 ∨ (st.kind = 2 ∧ s.canPay (coreOf s.cur) price = true)) := by
      rcases hg.compute hs with h3 | ⟨h2, hcan⟩
      · exact ⟨_, h3, rfl, .inl rfl⟩
      · exact ⟨_, h2, rfl, .inr ⟨rfl, hcan⟩⟩
    have hagain : w.again = true := by
      simp only [Warp.again, hst, decide_eq_true_eq]
      omega
    have hcomes : Comes f s w (s.modWarp s.cur id) w := .again hg.cur
    obtain ⟨T, hpay, hT⟩ := hcomes.payStep (price := price) hp (fun _ => ⟨st, hst, hpays⟩) (go (issueCtx f s w))
    have hbody : (s.modWarp s.cur id).commitPoint (issueCtx f s w) (pre (issueCtx f s w))
        (fun t => t.payStep (issueCtx f s w) (cost (issueCtx f s w)) (go (issueCtx f s w)))
        = (s.modWarp s.cur id).payStep (issueCtx f s w) (cost (issueCtx f s w)) (go (issueCtx f s w)) := by
      have h4 : w.stageStep = 4 := by rw [Warp.stageStep, hst]; exact hstep
      simp only [State.commitPoint, State.commitTag, issueCtx_wid, hcomes.warp, h4, if_true]
    refine ⟨T, _, ?_, hT, rfl⟩
    rw [State.demanding, State.issueSimple, State.issue_again _ _ _ hg.toPasses rfl hagain he, hbody, hcost, hpay]

end

/-! ### What an access leaves beside its warp -/

/-- What an access that changes no byte leaves: its warp is `u`, memory reads as before, and everything else stands. -/
structure ReadsOnly (s U : State) (u : Warp) : Prop extends SameElsewhere s U where
  warp : U.warp? s.cur = some u
  bytes : SameBytes s U

section
variable {s S U V : State} {f : Form} {w u v : Warp}

theorem ReadsOnly.of_comes (h : Comes f s w S v) (hR : ReadLeft S U) : ReadsOnly s U v :=
  { hR.sameElsewhere h.toSameElsewhere with
    warp := (hR.warp? _).trans h.warp, bytes := fun a => (hR.sameBytes a).trans (congrArg (Mem.byte · a) h.mem) }

theorem ReadsOnly.modWarp (h : ReadsOnly s U u) (g : Warp → Warp) : ReadsOnly s (U.modWarp s.cur g) (g u) :=
  { h.toSameElsewhere.modWarp g with warp := State.warp?_modWarp_of h.warp g, bytes := h.bytes }

theorem ReadsOnly.read (h : ReadsOnly s U u) (hR : ReadLeft U V) : ReadsOnly s V u :=
  { hR.sameElsewhere h.toSameElsewhere with
    warp := (hR.warp? _).trans h.warp, bytes := fun a => (hR.sameBytes a).trans (h.bytes a) }

theorem ReadsOnly.finish (h : ReadsOnly s U u) : ReadsOnly s (U.finish f (issueCtx f s w) w) (u.finished f (issueCtx f s w) w) :=
  h.modWarp fun u => u.finished f (issueCtx f s w) w

end

/-! ### One lane that tests -/

section
variable {s T : State} {f : Form} {w v u : Warp} {b : Blocked}

theorem laneIn_laneBit {lane l : Nat} (h : lane < 32) (hl : l < 32) : laneIn (laneBit lane) l = decide (l = lane) := by
  have hm := mem_lanesOf (laneBit lane) l
  rw [lanesOf_laneBit h, List.mem_singleton] at hm
  rw [Bool.eq_iff_iff, decide_eq_true_iff, hm]
  exact ⟨fun h => ⟨hl, h⟩, And.right⟩

/-- A warp whose stage is over and whose other lanes have passed. -/
def Warp.othersPassed (v : Warp) (c : Ctx) : Warp := v.unstaged.advance (c.iss &&& ~~~c.en) c.len

/-- The lanes that leave a wait at which they have not yet stood, their registers written, leave the instruction. -/
theorem Poised.leaves_leftBehind (h : Poised (issueCtx f s w) w v) (hw : w.blocked = []) (hp : u.pcv = (v.othersPassed (issueCtx f s w)).pcv)
    (hr : u.rev = v.rev) (hb : u.blocked = v.blocked) (hl : b.lanes = (issueCtx f s w).en) (hh : b.here = (issueCtx f s w).here)
    (hn : b.len = f.len) :
    LeftBehind f s w ((u.leaves b).finished f (issueCtx f s w) w) ∧ ((u.leaves b).finished f (issueCtx f s w) w).blocked = [] := by
  have hnone : (u.leaves b).blocked = [] := by rw [Warp.leaves_blocked, hb, h.blocked, hw]; rfl
  have hnext : b.here + BitVec.ofNat 64 b.len = (issueCtx f s w).next := by rw [hh, hn]; rfl
  refine ⟨LeftBehind.of_moved (fun l _ _ => Warp.laneIn_blockedLanes_nil hnone l) (fun l hl32 => ?_) (fun l hl32 => ?_)
    fun l hl32 hu => Warp.finished_pc _ f (issueCtx f s w) w hl32 hu, Warp.finished_unblocked hnone _ _ _⟩
  · have hupc : u.pc l = if laneIn w.group l && !laneIn (issueCtx f s w).en l then w.pc l + BitVec.ofNat 64 f.len else w.pc l := by
      have hadv := Warp.pc_advance v.unstaged ((issueCtx f s w).iss &&& ~~~(issueCtx f s w).en) (issueCtx f s w).len hl32
      have hvpc : v.unstaged.pc l = w.pc l := congrArg (fun x : List DWord => x.getD l 0) h.pcv
      rw [laneIn_and, laneIn_not hl32, hvpc] at hadv
      exact (congrArg (fun x : List DWord => x.getD l 0) hp).trans hadv
    rw [Warp.pc_leaves_eq _ _ hl32, hl, hupc, hnext]
    cases laneIn (issueCtx f s w).en l <;> cases laneIn w.group l <;> rfl
  · rw [Warp.revOf_leaves _ _ hl32, hl, hnext]
    cases hen : laneIn (issueCtx f s w).en l
    · have hurev : u.revOf l = v.revOf l := by rw [Warp.revOf, hr, Warp.revOf]
      simpa [hurev] using h.rev l hl32 hen
    · rfl

/-- The warp whose lanes wait as `b` says. -/
def Warp.blocksAt (u : Warp) (b : Blocked) : Warp := { u with blocked := u.blocked ++ [b], stage := none }

theorem State.block_eq (s : State) (c : Ctx) (lanes : Word) (what : Wait) :
    s.block c lanes what = s.modWarp c.wid fun u => u.blocksAt (s.blockOf c lanes what) := rfl

@[simp] theorem Warp.blocksAt_x (u : Warp) (b : Blocked) : (u.blocksAt b).x = u.x := rfl
@[simp] theorem Warp.blocksAt_k (u : Warp) (b : Blocked) : (u.blocksAt b).k = u.k := rfl
@[simp] theorem Warp.blocksAt_m (u : Warp) (b : Blocked) : (u.blocksAt b).m = u.m := rfl
@[simp] theorem Warp.blocksAt_blocked (u : Warp) (b : Blocked) : (u.blocksAt b).blocked = u.blocked ++ [b] := rfl

/-- Lanes that wait at their instruction, for what no end of an instruction brings, wait behind its end. -/
theorem Warp.blocksAt_finished (hu : u.blocked = []) (hs : u.susp = none) (hb : b.what.stays = true) (c : Ctx) :
    SameRegs u ((u.blocksAt b).finished f c w) ∧ ((u.blocksAt b).finished f c w).blocked = [b] := by
  have hone : (u.blocksAt b).blocked = [b] := by rw [Warp.blocksAt_blocked, hu]; rfl
  have hsame := Warp.finished_same (u.blocksAt b) f c w
  refine ⟨(show SameRegs u (u.blocksAt b) from ⟨rfl, rfl, rfl⟩).trans hsame.regs, ?_⟩
  rw [(Warp.finished_woken _ f c w).2, Warp.woken_stays hone hb hs, hone]

end

/-! ### poll (R188) -/

section
variable {s S : State} {f : Form} {w v : Warp} {lane key : Nat}

/-- What a `poll` or an `mwait` leaves before its lane tests: its reads, and its other lanes behind it. -/
theorem Comes.tests (h : Comes f s w S v) (hs : s.ap! offInjMask = 0) (sp : Spc) (spots : List Spot) (ea : Warp → Nat → DWord) (owner : Nat) :
    ∃ R, ((((S.used (issueCtx f s w) sp ea).loaded (coreOf s.cur) owner sp spots).modWarp s.cur fun v => { v with stage := none }).passOthers
        (issueCtx f s w)) = R.modWarp s.cur (fun v => v.othersPassed (issueCtx f s w)) ∧ ReadLeft S R := by
  have hused := ReadLeft.used (h.disarmed hs) (issueCtx f s w) sp ea
  exact ⟨_, State.modWarp_modWarp .., hused.trans (.loaded (hused.disarmed (h.disarmed hs)) ..)⟩

/-- The wait of a `poll` of one lane. -/
def pollAt (d b bo : Nat) (acq : Option Scope) (sp : Spc) (ui : Bool) (cc : Cc) (ea : Warp → Nat → DWord) (v : Warp) (lane key now : Nat) : PollOp :=
  { pollOf d cc ui acq bo sp (ea v lane) (v.xr b lane) now with far := sp = .g && farKey key }

/-- The effect of a `poll` whose one enabled lane reaches its bytes. -/
theorem Ctx.pollAll_tests {d b bo : Nat} {acq : Option Scope} {sp : Spc} {ui : Bool} {cc : Cc} {ea : Warp → Nat → DWord} (h : Comes f s w S v)
    (hw : s.warp? s.cur = some w) (hs : s.ap! offInjMask = 0) (hst : v.stage = none) (hea : ea v = ea w)
    (hr : Reaches s (issueCtx f s w).en .read sp 4 4 ea [(lane, key)]) :
    ∃ R, ReadLeft S R ∧ ∃ p b', p = pollAt d b bo acq sp ui cc ea v lane key (s.clk s.cur).toNat ∧
      b' = (R.modWarp s.cur fun v => v.othersPassed (issueCtx f s w)).blockOf (issueCtx f s w) (laneBit lane) (.poll p) ∧
      (issueCtx f s w).pollAll (fun u l => pollOf d cc ui acq bo sp (ea u l) (u.xr b l) (S.clk (issueCtx f s w).wid).toNat) sp ea S
        = if pollHolds p (s.loadNum (coreOf s.cur) w sp key 4)
          then (R.modWarp s.cur fun v => v.othersPassed (issueCtx f s w)).pollPass s.cur b' p (s.loadNum (coreOf s.cur) w sp key 4)
          else (R.modWarp s.cur fun v => v.othersPassed (issueCtx f s w)).modWarp s.cur fun u => u.blocksAt b' := by
  obtain ⟨R, hR, hread⟩ := h.tests hs sp [(lane, key)] ea v.ctx
  refine ⟨R, hread, _, _, rfl, rfl, ?_⟩
  have hclk : S.clk (issueCtx f s w).wid = s.clk s.cur := by simp only [State.clk, State.die, h.dies, issueCtx_wid]
  unfold Ctx.pollAll
  rw [hclk, issueCtx_wid, h.reach hw hea, hr.found]
  dsimp only
  refine (State.whenHome_goes _ h.warp hst ?_).trans ?_
  · cases sp with
    | s => exact fun _ hl => nomatch hl
    | g => exact hr.linesHome h.toStood
  rw [State.withWarp_of h.warp]
  simp only [List.map_cons, List.map_nil, List.foldl_cons, List.foldl_nil]
  have hcore : (issueCtx f s w).core = coreOf s.cur := rfl
  rw [hcore, hR, h.loadNum, State.block_eq]
  rfl

/-- A `poll` of one enabled lane, at its access: what it leaves. -/
theorem Ctx.pollAll_finish {d b bo : Nat} {acq : Option Scope} {sp : Spc} {ui : Bool} {cc : Cc} {ea : Warp → Nat → DWord} (h : Comes f s w S v)
    (hw : s.warp? s.cur = some w) (hs : s.ap! offInjMask = 0) (hst : v.stage = none) (hea : ea v = ea w) (hlane : lane < 32)
    (hen : (issueCtx f s w).en = laneBit lane) (hr : Reaches s (issueCtx f s w).en .read sp 4 4 ea [(lane, key)]) (hb : w.blocked = [])
    (hg : w.group ≠ 0) :
    ∃ t w', ((issueCtx f s w).pollAll (fun u l => pollOf d cc ui acq bo sp (ea u l) (u.xr b l) (S.clk (issueCtx f s w).wid).toNat) sp ea S).finish
        f (issueCtx f s w) w = t ∧ ReadsOnly s t w' ∧ w'.k = w.k ∧ w'.m = w.m ∧
      (if condInt cc ui (BitVec.ofNat 32 (s.loadNum (coreOf s.cur) w sp key 4)) (w.xr b lane) then
        w'.xr d lane = BitVec.ofNat 32 (s.loadNum (coreOf s.cur) w sp key 4) ∧ (∀ n, ∀ l < 32, n ≠ d ∨ l ≠ lane → w'.xr n l = w.xr n l) ∧
          w'.blocked = [] ∧ LeftBehind f s w w'
      else w'.x = w.x ∧ ∃ x p, w'.blocked = [x] ∧ x.lanes = (issueCtx f s w).en ∧ x.here = (issueCtx f s w).here ∧ x.what = .poll p ∧ p.k = 0 ∧
        p.owed = 0 ∧ p.due = (s.clk s.cur).toNat + 64) := by
  obtain ⟨R, hread, p, b', hp, hb', heq⟩ := Ctx.pollAll_tests (d := d) (b := b) (bo := bo) (acq := acq) (ui := ui) (cc := cc) h hw hs hst hea hr
  rw [heq]
  have hlanes : b'.lanes = (issueCtx f s w).en := by rw [hb', hen]; rfl
  have hhere : b'.here = (issueCtx f s w).here := by rw [hb']; rfl
  have hlen : b'.len = f.len := by rw [hb']; rfl
  have hwhat : b'.what = .poll p := by rw [hb']; rfl
  have hregs : SameRegs w (v.othersPassed (issueCtx f s w)) := h.poised.regs.trans ⟨rfl, rfl, rfl⟩
  have hstart : ReadsOnly s (R.modWarp s.cur fun v => v.othersPassed (issueCtx f s w)) (v.othersPassed (issueCtx f s w)) :=
    (ReadsOnly.of_comes h hread).modWarp _
  have hd : p.d = d := by rw [hp]; rfl
  have hholds : pollHolds p (s.loadNum (coreOf s.cur) w sp key 4)
      = condInt cc ui (BitVec.ofNat 32 (s.loadNum (coreOf s.cur) w sp key 4)) (w.xr b lane) := by
    rw [← h.poised.regs.xr, hp]; rfl
  rw [hholds]
  generalize s.loadNum (coreOf s.cur) w sp key 4 = val at *
  by_cases hc : condInt cc ui (BitVec.ofNat 32 val) (w.xr b lane) = true
  · simp only [if_pos hc]
    have hset := hstart.modWarp fun u => u.setX p.d b'.lanes fun _ => BitVec.ofNat 32 val
    have hpass := (hset.read (.acquireBy _ (coreOf s.cur) (scopeAt p.sp p.acq))).modWarp fun u => u.leaves b'
    have hend := Warp.finished_same ((v.othersPassed (issueCtx f s w)).polled b' p val) f (issueCtx f s w) w
    have hone : laneIn b'.lanes lane = true := by rw [hlanes, hen, laneIn_laneBit hlane hlane, decide_eq_true rfl]
    obtain ⟨hval, -⟩ := Warp.polled_value (v.othersPassed (issueCtx f s w)) b' p val hone
    obtain ⟨hleft, hnone⟩ := h.poised.leaves_leftBehind (u := (v.othersPassed (issueCtx f s w)).setX p.d b'.lanes fun _ => BitVec.ofNat 32 val)
      hb (Warp.setX_pcv ..) (Warp.setX_rev ..) (Warp.setX_blocked ..) hlanes hhere hlen
    refine ⟨_, _, rfl, hpass.finish, ?_, ?_, ?_, fun n l hl hn => ?_, hnone, hleft⟩
    · exact hend.regs.k.trans ((Warp.leaves_k ..).trans ((Warp.setX_k ..).trans hregs.k))
    · exact hend.regs.m.trans ((Warp.leaves_m ..).trans ((Warp.setX_m ..).trans hregs.m))
    · rw [← hd]; exact (hend.regs.xr ..).trans hval
    · refine (hend.regs.xr ..).trans ((Warp.polled_others _ _ _ _ hl ?_).trans (hregs.xr ..))
      rw [hd, hlanes, hen, laneIn_laneBit hlane hl, decide_eq_false_iff_not]
      exact hn
  · simp only [if_neg hc]
    have hnone : (v.othersPassed (issueCtx f s w)).blocked = [] := h.poised.blocked.trans hb
    have hsusp : (v.othersPassed (issueCtx f s w)).susp = none := h.standing.susp.trans (Warp.susp_of_group hg)
    obtain ⟨hsame, hblocked⟩ := Warp.blocksAt_finished (f := f) (w := w) (b := b') hnone hsusp (by rw [hwhat]; rfl) (issueCtx f s w)
    have hall := hregs.trans hsame
    refine ⟨_, _, rfl, (hstart.modWarp fun u => u.blocksAt b').finish, hall.k, hall.m, hall.x, b', p, hblocked, hlanes, hhere, hwhat, ?_⟩
    rw [hp]
    exact ⟨rfl, rfl, rfl⟩

/-! ### mwait (R189) -/

/-- The wait of an `mwait` of one lane. -/
def mwaitAt (d b : Nat) (acq : Option Scope) (ge : Bool) (ea : Warp → Nat → DWord) (v : Warp) (lane : Nat) (ver : Word) (far : Bool) : MwaitOp :=
  { d := d, ge := ge, acq := acq, ea := ea v lane, b := v.xn true b lane, ver := ver, far := far, owed := 0 }

/-- The effect of an `mwait` whose one enabled lane reaches its bytes. -/
theorem Ctx.mwaitAll_tests {d b : Nat} {acq : Option Scope} {ge : Bool} {ea : Warp → Nat → DWord} (h : Comes f s w S v)
    (hw : s.warp? s.cur = some w) (hs : s.ap! offInjMask = 0) (hst : v.stage = none) (hea : ea v = ea w)
    (hr : Reaches s (issueCtx f s w).en .read .g 8 8 ea [(lane, key)]) :
    ∃ R, ReadLeft S R ∧ ∃ p b' far, p = mwaitAt d b acq ge ea v lane (s.versionAt key) far ∧
      b' = (R.modWarp s.cur fun v => v.othersPassed (issueCtx f s w)).blockOf (issueCtx f s w) (laneBit lane) (.mwait p) ∧
      (issueCtx f s w).mwaitAll (fun u l => mwaitAt d b acq ge ea u l 0 false)
          ea S
        = if mwaitHolds p (s.loadNum (coreOf s.cur) w .g key 8)
          then (R.modWarp s.cur fun v => v.othersPassed (issueCtx f s w)).mwaitPass s.cur b' p (s.loadNum (coreOf s.cur) w .g key 8)
          else (R.modWarp s.cur fun v => v.othersPassed (issueCtx f s w)).modWarp s.cur fun u => u.blocksAt b' := by
  obtain ⟨R, hR, hread⟩ := h.tests hs .g [(lane, key)] ea v.ctx
  have hver : (R.modWarp s.cur fun v => v.othersPassed (issueCtx f s w)).versionAt key = s.versionAt key :=
    (hread.versionAt key).trans (h.versionAt key)
  refine ⟨R, hread, _, _, farKey key || ((R.modWarp s.cur fun v => v.othersPassed (issueCtx f s w)).die (issueCtx f s w).die).stamps.contains
    (lineOf key), rfl, rfl, ?_⟩
  unfold Ctx.mwaitAll
  rw [issueCtx_wid, h.reach hw hea, hr.found]
  dsimp only
  rw [h.whenHome hst hr, State.withWarp_of h.warp]
  simp only [List.map_cons, List.map_nil, List.foldl_cons, List.foldl_nil]
  have hcore : (issueCtx f s w).core = coreOf s.cur := rfl
  rw [hcore, hR, h.loadNum, State.block_eq, hver]
  rfl

/-- The test of an `mwait` as its two numbers. -/
theorem mwaitHolds_iff (d b : Nat) (acq : Option Scope) (ge : Bool) (ea : Warp → Nat → DWord) (v : Warp) (lane : Nat) (ver : Word) (far : Bool)
    (val : Nat) : mwaitHolds (mwaitAt d b acq ge ea v lane ver far) val = true ↔
      (if ge then (v.xn true b lane).toNat ≤ val else val ≠ (v.xn true b lane).toNat) := by
  cases ge
  · simp [mwaitHolds, mwaitAt]
  · exact decide_eq_true_iff

/-- An `mwait` of one enabled lane, at its access: what it leaves. -/
theorem Ctx.mwaitAll_finish {d b : Nat} {acq : Option Scope} {ge : Bool} {ea : Warp → Nat → DWord} (h : Comes f s w S v)
    (hw : s.warp? s.cur = some w) (hs : s.ap! offInjMask = 0) (hst : v.stage = none) (hea : ea v = ea w) (hlane : lane < 32)
    (hen : (issueCtx f s w).en = laneBit lane) (hr : Reaches s (issueCtx f s w).en .read .g 8 8 ea [(lane, key)]) (hb : w.blocked = [])
    (hg : w.group ≠ 0) :
    ∃ t w', ((issueCtx f s w).mwaitAll (fun u l => mwaitAt d b acq ge ea u l 0 false) ea S).finish f (issueCtx f s w) w = t ∧ ReadsOnly s t w' ∧ w'.k = w.k ∧ w'.m = w.m ∧
      (if (if ge then (w.xn true b lane).toNat ≤ s.loadNum (coreOf s.cur) w .g key 8
          else s.loadNum (coreOf s.cur) w .g key 8 ≠ (w.xn true b lane).toNat) then
        w'.xn true d lane = BitVec.ofNat 64 (s.loadNum (coreOf s.cur) w .g key 8) ∧ w'.blocked = [] ∧ LeftBehind f s w w'
      else w'.x = w.x ∧ ∃ x p, w'.blocked = [x] ∧ x.lanes = (issueCtx f s w).en ∧ x.here = (issueCtx f s w).here ∧ x.what = .mwait p ∧
        p.ver = s.versionAt key) := by
  obtain ⟨R, hread, p, b', far, hp, hb', heq⟩ := Ctx.mwaitAll_tests (d := d) (b := b) (acq := acq) (ge := ge) h hw hs hst hea hr
  rw [heq]
  have hlanes : b'.lanes = (issueCtx f s w).en := by rw [hb', hen]; rfl
  have hhere : b'.here = (issueCtx f s w).here := by rw [hb']; rfl
  have hlen : b'.len = f.len := by rw [hb']; rfl
  have hwhat : b'.what = .mwait p := by rw [hb']; rfl
  have hregs : SameRegs w (v.othersPassed (issueCtx f s w)) := h.poised.regs.trans ⟨rfl, rfl, rfl⟩
  have hstart : ReadsOnly s (R.modWarp s.cur fun v => v.othersPassed (issueCtx f s w)) (v.othersPassed (issueCtx f s w)) :=
    (ReadsOnly.of_comes h hread).modWarp _
  have hd : p.d = d := by rw [hp]; rfl
  have hholds := mwaitHolds_iff d b acq ge ea v lane (s.versionAt key) far (s.loadNum (coreOf s.cur) w .g key 8)
  rw [← hp, h.poised.regs.xn] at hholds
  generalize s.loadNum (coreOf s.cur) w .g key 8 = val at *
  by_cases hc : mwaitHolds p val = true
  · simp only [if_pos hc, if_pos (hholds.1 hc)]
    have hset := hstart.modWarp fun u => u.setXn true p.d b'.lanes fun _ => BitVec.ofNat 64 val
    have hpass := (hset.read (.acquireBy _ (coreOf s.cur) p.acq)).modWarp fun u => u.leaves b'
    have hend := Warp.finished_same ((v.othersPassed (issueCtx f s w)).mwaited b' p val) f (issueCtx f s w) w
    have hone : laneIn b'.lanes lane = true := by rw [hlanes, hen, laneIn_laneBit hlane hlane, decide_eq_true rfl]
    obtain ⟨hval, -⟩ := Warp.mwaited_value (v.othersPassed (issueCtx f s w)) b' p val hone
    obtain ⟨hleft, hnone⟩ := h.poised.leaves_leftBehind
      (u := (v.othersPassed (issueCtx f s w)).setXn true p.d b'.lanes fun _ => BitVec.ofNat 64 val)
      hb (Warp.setXn_pcv ..) (Warp.setXn_rev ..) (Warp.setXn_blocked ..) hlanes hhere hlen
    refine ⟨_, _, rfl, hpass.finish, ?_, ?_, ?_, hnone, hleft⟩
    · exact hend.regs.k.trans ((Warp.leaves_k ..).trans ((Warp.setXn_k ..).trans hregs.k))
    · exact hend.regs.m.trans ((Warp.leaves_m ..).trans ((Warp.setXn_m ..).trans hregs.m))
    · rw [← hd]; exact (hend.regs.xn ..).trans hval
  · simp only [if_neg hc, if_neg (fun h => hc (hholds.2 h))]
    have hnone : (v.othersPassed (issueCtx f s w)).blocked = [] := h.poised.blocked.trans hb
    have hsusp : (v.othersPassed (issueCtx f s w)).susp = none := h.standing.susp.trans (Warp.susp_of_group hg)
    obtain ⟨hsame, hblocked⟩ := Warp.blocksAt_finished (f := f) (w := w) (b := b') hnone hsusp (by rw [hwhat]; rfl) (issueCtx f s w)
    have hall := hregs.trans hsame
    refine ⟨_, _, rfl, (hstart.modWarp fun u => u.blocksAt b').finish, hall.k, hall.m, hall.x, b', p, hblocked, hlanes, hhere, hwhat, ?_⟩
    rw [hp]
    rfl

/-- Settles O31: behind its commit and its demand, the lane that reads takes its value where its test holds, and waits where it does not. -/
theorem pollsComplete : Obligations.PollsComplete := by
  refine ⟨?_, ?_⟩
  · intro g d b bo lane key rt acq a sp ui cc f c s w v hf hc hlane hen h hv
    subst hc hv
    obtain ⟨ea, hea⟩ : ∃ ea : Warp → Nat → DWord, ea = fun w l => eaOf sp (srcAVal true a w l) 0 0 := ⟨_, rfl⟩
    rw [← hea] at h
    have hregs : ∀ v, SameRegs w v → ea v = ea w := fun v hv => by simp only [hea, hv.srcAVal]
    have he : (issueCtx f s w).en ≠ 0 := fun h0 => by
      have := laneIn_laneBit hlane hlane
      rw [← hen, h0] at this
      simp at this
    have hcost : 6 * (lanesOf (issueCtx f s w).en).length = 6 := by rw [hen, lanesOf_laneBit hlane]; rfl
    have hexec : exec (.poll g rt acq d a b bo sp ui cc) s = .next (s.demanding f (fun c => c.checks .read sp 4 4 ea)
        (fun c => 6 * (lanesOf c.en).length) fun c s =>
          c.pollAll (fun w l => pollOf d cc ui acq bo sp (ea w l) (w.xr b l) (s.clk c.wid).toNat) sp ea s) := by
      rw [hf, hea]; rfl
    have hpre : ∀ hw : s.warp? s.cur = some w, (issueCtx f s w).checks .read sp 4 4 ea (s.begun f 0 w) = none := fun hw =>
      Begins.checks hw (hregs _ (.atIssue w f s)) h
    refine ⟨fun hq hr hs => ?_, fun hg hb => ?_⟩
    · obtain ⟨w', hd⟩ := State.demanding_demands (cost := fun c => 6 * (lanesOf c.en).length) (pre := fun c => c.checks .read sp 4 4 ea)
        (go := fun c s => c.pollAll (fun w l => pollOf d cc ui acq bo sp (ea w l) (w.xr b l) (s.clk c.wid).toNat) sp ea s) hr hq he hs
        (hpre hr.cur) (by rw [hcost]; decide)
      exact ⟨_, w', hexec, hd⟩
    · obtain ⟨T, v, ht, hcomes, hst⟩ := State.demanding_comes (cost := fun c => 6 * (lanesOf c.en).length)
        (pre := fun c => c.checks .read sp 4 4 ea)
        (go := fun c s => c.pollAll (fun w l => pollOf d cc ui acq bo sp (ea w l) (w.xr b l) (s.clk c.wid).toNat) sp ea s) hg he (by decide) hcost
        (hpre hg.cur)
      obtain ⟨t, w', hfin, hread, hk, hm, hif⟩ := Ctx.pollAll_finish (d := d) (b := b) (bo := bo) (acq := acq) (ui := ui) (cc := cc) hcomes hg.cur
        hg.disarmed hst (hregs _ hcomes.poised.regs) hlane hen h hb hg.lanes
      exact ⟨t, w', hexec.trans (congrArg _ (ht.trans hfin)), hread.warp, hread.bytes, hread.toSameElsewhere, hk, hm, hif⟩
  · intro g d b lane key rt acq a ge f c s w v hf hc hlane hen h hv
    subst hc hv
    obtain ⟨ea, hea⟩ : ∃ ea : Warp → Nat → DWord, ea = fun w l => srcAVal true a w l := ⟨_, rfl⟩
    rw [← hea] at h
    have hregs : ∀ v, SameRegs w v → ea v = ea w := fun v hv => by simp only [hea, hv.srcAVal]
    have he : (issueCtx f s w).en ≠ 0 := fun h0 => by
      have := laneIn_laneBit hlane hlane
      rw [← hen, h0] at this
      simp at this
    have hcost : 6 * (lanesOf (issueCtx f s w).en).length = 6 := by rw [hen, lanesOf_laneBit hlane]; rfl
    have hexec : exec (.mwait g rt acq d a b ge) s = .next (s.demanding f (fun c => c.checks .read .g 8 8 ea)
        (fun c => 6 * (lanesOf c.en).length) fun c s =>
          c.mwaitAll (fun u l => mwaitAt d b acq ge ea u l 0 false) ea s) := by
      rw [hf, hea]; rfl
    have hpre : ∀ hw : s.warp? s.cur = some w, (issueCtx f s w).checks .read .g 8 8 ea (s.begun f 0 w) = none := fun hw =>
      Begins.checks hw (hregs _ (.atIssue w f s)) h
    refine ⟨fun hq hr hs => ?_, fun hg hb => ?_⟩
    · obtain ⟨w', hd⟩ := State.demanding_demands (cost := fun c => 6 * (lanesOf c.en).length) (pre := fun c => c.checks .read .g 8 8 ea)
        (go := fun c s => c.mwaitAll (fun u l => mwaitAt d b acq ge ea u l 0 false) ea s) hr hq he hs (hpre hr.cur) (by rw [hcost]; decide)
      exact ⟨_, w', hexec, hd⟩
    · obtain ⟨T, v, ht, hcomes, hst⟩ := State.demanding_comes (cost := fun c => 6 * (lanesOf c.en).length)
        (pre := fun c => c.checks .read .g 8 8 ea)
        (go := fun c s => c.mwaitAll (fun u l => mwaitAt d b acq ge ea u l 0 false) ea s) hg he (by decide) hcost (hpre hg.cur)
      obtain ⟨t, w', hfin, hread, hk, hm, hif⟩ := Ctx.mwaitAll_finish (d := d) (b := b) (acq := acq) (ge := ge) hcomes hg.cur
        hg.disarmed hst (hregs _ hcomes.poised.regs) hlane hen h hb hg.lanes
      exact ⟨t, w', hexec.trans (congrArg _ (ht.trans hfin)), hread.warp, hread.bytes, hread.toSameElsewhere, hk, hm, hif⟩

end

end Sys2Proof.Machine
end


section
/-!
PROOFS. What writes of bytes at their homes leave of the machine (spec/06 R173; spec/10 R277, R278): the bytes and the versions of the lines
that they do not name, and everything beyond memory and the caches.
-/

namespace Sys2Proof.Machine

/-! ### The frame of writes at home -/

/-- What writes of the bytes of `K` at their homes leave: warps, aperture registers, blocks, grids, the device and free values, every byte
outside `K`, and the version of every line that no key of `K` lies in. -/
structure HomesLeft (K : Nat → Prop) (s t : State) : Prop where
  warps : t.warps = s.warps
  ap : t.ap = s.ap
  blocks : t.blocks = s.blocks
  grids : t.grids = s.grids
  dev : t.dev = s.dev
  own : t.own = s.own
  bytes : ∀ a, ¬ K a → t.mem.byte a = s.mem.byte a
  ver : ∀ l, (∀ a, K a → lineOf a ≠ l) → t.mem.version l = s.mem.version l

theorem ReadLeft.homes {s t : State} (h : ReadLeft s t) (K : Nat → Prop) : HomesLeft K s t :=
  ⟨h.warps, h.ap, h.blocks, h.grids, h.dev, h.own, fun a _ => h.sameBytes a, fun l _ => by simp only [Mem.version, h.ver]⟩

namespace HomesLeft

variable {K L : Nat → Prop} {s t u : State}

theorem refl (K : Nat → Prop) (s : State) : HomesLeft K s s := (ReadLeft.refl s).homes K

theorem trans (h : HomesLeft K s t) (g : HomesLeft K t u) : HomesLeft K s u :=
  ⟨g.warps.trans h.warps, g.ap.trans h.ap, g.blocks.trans h.blocks, g.grids.trans h.grids, g.dev.trans h.dev, g.own.trans h.own,
    fun a ha => (g.bytes a ha).trans (h.bytes a ha), fun l hl => (g.ver l hl).trans (h.ver l hl)⟩

theorem read (h : HomesLeft K s t) (g : ReadLeft t u) : HomesLeft K s u := h.trans (g.homes K)

theorem mono (h : HomesLeft K s t) (hKL : ∀ a, K a → L a) : HomesLeft L s t :=
  { h with bytes := fun a ha => h.bytes a fun hk => ha (hKL a hk), ver := fun l hl => h.ver l fun a hk => hl a (hKL a hk) }

theorem warp? (h : HomesLeft K s t) (k : Nat) : t.warp? k = s.warp? k := congrArg (Tab.look · k) h.warps
theorem disarmed (h : HomesLeft K s t) (hs : s.ap! offInjMask = 0) : t.ap! offInjMask = 0 := (State.ap!_of_ap h.ap _).trans hs

theorem sameElsewhere (g : HomesLeft K t u) (h : SameElsewhere s t) : SameElsewhere s u :=
  ⟨g.ap.trans h.ap, g.blocks.trans h.blocks, g.grids.trans h.grids, g.dev.trans h.dev, fun k hk => (g.warp? k).trans (h.warps k hk)⟩

/-- A line whose keys are outside `K` keeps what an atomic compares. -/
theorem versionAt (h : HomesLeft K s t) {key : Nat} (hk : ∀ a, K a → lineOf a ≠ lineOf key) : t.versionAt key = s.versionAt key := by
  unfold State.versionAt
  rw [h.own, h.ver _ hk]

/-- Writes in parts, each within `K`. -/
theorem foldl {α : Type} {f : State → α → State} {xs : List α} (hf : ∀ x ∈ xs, ∀ s, s.ap! offInjMask = 0 → HomesLeft K s (f s x))
    (hs : s.ap! offInjMask = 0) : HomesLeft K s (xs.foldl f s) := by
  induction xs generalizing s with
  | nil => exact refl K s
  | cons x r ih =>
    have hx := hf x (List.mem_cons_self ..) s hs
    exact hx.trans (ih (fun y hy => hf y (List.mem_cons_of_mem _ hy)) (hx.disarmed hs))

end HomesLeft

/-! ### One byte, and the end of a write -/

theorem State.own4_ver (s : State) (c : Option Nat) (k : Nat) : (s.own4 c k).mem.ver = s.mem.ver ∧ (s.own4 c k).own = s.own := by
  have howner : ∀ v, ((s.modMem fun m => { m with wordOwner := Tab.put 0 m.wordOwner (k / 4) v }).mem.ver,
      (s.modMem fun m => { m with wordOwner := Tab.put 0 m.wordOwner (k / 4) v }).own) = (s.mem.ver, s.own) := fun _ => rfl
  have hcore : ∀ (t : State) (i : Nat) (g : Core → Core), ((t.modCore i g).mem.ver, (t.modCore i g).own) = (t.mem.ver, t.own) := fun _ _ _ => rfl
  rw [← Prod.mk.injEq]
  unfold State.own4
  cases c <;>
    simp only [hcore, howner, apply_ite (fun t : State => (t.mem.ver, t.own)), ite_self]

theorem State.poke_ver (s : State) (c : Option Nat) (k : Nat) (v : Byte) (nib : Nat) :
    (s.poke c k v nib).mem.ver = s.mem.ver ∧ (s.poke c k v nib).own = s.own := by
  have hcore : ∀ (t : State) (i : Nat) (g : Core → Core), (t.modCore i g).mem.ver = t.mem.ver ∧ (t.modCore i g).own = t.own :=
    fun _ _ _ => ⟨rfl, rfl⟩
  have hown : ∀ (t : State) (q : Prop) [Decidable q], t.mem.ver = s.mem.ver ∧ t.own = s.own →
      (if q then t.own4 c k else t).mem.ver = s.mem.ver ∧ (if q then t.own4 c k else t).own = s.own := by
    intro t q _ h
    split
    · exact ⟨(State.own4_ver t c k).1.trans h.1, (State.own4_ver t c k).2.trans h.2⟩
    · exact h
  unfold State.poke
  refine hown _ _ ?_
  cases c <;> exact ⟨rfl, rfl⟩

/-- A byte written at its home (R172, R278). -/
theorem HomesLeft.poke {K : Nat → Prop} (s : State) (c : Option Nat) {k : Nat} (v : Byte) (nib : Nat) (hk : K k) :
    HomesLeft K s (s.poke c k v nib) := by
  have hb := State.poke_beyondHomes s c k v nib
  simp only [State.beyondHomes, Prod.mk.injEq] at hb
  obtain ⟨hwarps, hap, hblocks, hgrids, hdev, -⟩ := hb
  obtain ⟨hver, hown⟩ := State.poke_ver s c k v nib
  refine ⟨hwarps, hap, hblocks, hgrids, hdev, hown, fun a ha => ?_, fun l _ => by simp only [Mem.version, hver]⟩
  have hne : a ≠ k := fun e => ha (e ▸ hk)
  rw [State.byte_poke, if_neg hne]

/-- The version step of one line leaves the other lines' versions. -/
theorem Mem.version_sealLine_ne (m : Mem) (o : Option Nat) {l j : Nat} (h : j ≠ l) : (m.sealLine o l).version j = m.version j := by
  have htag : (m.sealLine o l).ver = (m.bump l).ver := by
    unfold Mem.sealLine Mem.tag
    cases o with
    | none => rfl
    | some c => exact (apply_ite Mem.ver ..).trans (ite_self _)
  unfold Mem.version
  rw [htag]
  unfold Mem.bump
  split
  · exact (Tab.get_put ..).trans (if_neg h)
  · rfl

/-- The version step and the owner tag of a line that is written (R173, R277). -/
theorem HomesLeft.sealLine {K : Nat → Prop} (s : State) (o : Option Nat) {key : Nat} (hk : K key) :
    HomesLeft K s (s.modMem fun m => m.sealLine o (lineOf key)) :=
  ⟨rfl, rfl, rfl, rfl, rfl, rfl, fun a _ => Mem.byte_of_bytes (Mem.sealLine_bytes ..) a, fun _ hl =>
    Mem.version_sealLine_ne _ _ fun e => hl key hk e.symm⟩

/-! ### A read-modify-write (R173, R178) -/

/-- The keys of n bytes. -/
def Within (key n : Nat) (a : Nat) : Prop := key ≤ a ∧ a < key + n

theorem not_within {key n a : Nat} : ¬ Within key n a ↔ a < key ∨ key + n ≤ a := by
  unfold Within
  omega

theorem bytesAt_within {key n v : Nat} {b : Nat × Byte} (h : b ∈ bytesAt key n v) : Within key n b.1 := by
  obtain ⟨i, hi, rfl⟩ := List.mem_map.1 h
  have := List.mem_range.1 hi
  unfold Within
  dsimp only
  omega

theorem Mem.num_eq_leNat (m : Mem) : ∀ (key n : Nat), m.num key n = leNat ((List.range n).map fun i => m.byte (key + i))
  | _, 0 => rfl
  | key, n + 1 => by
    rw [Mem.num, Mem.num_eq_leNat m (key + 1) n, List.range_succ_eq_map, List.map_cons, List.map_map, leNat]
    simp only [Function.comp_def, Nat.succ_eq_add_one, Nat.add_zero, Nat.add_assoc, Nat.add_comm 1]

section
variable {s t : State} {key n : Nat} (hk : isAp key = false)
include hk

/-- A number outside the aperture is that of its bytes. -/
theorem State.homeNum_bytes : s.homeNum key n = BitVec.ofNat 64 (leNat ((List.range n).map fun i => s.mem.byte (key + i))) := by
  simp only [State.homeNum, hk, Bool.false_eq_true, if_false, Mem.num_eq_leNat]

theorem State.homeNum_of_bytes (h : ∀ a, Within key n a → t.mem.byte a = s.mem.byte a) : t.homeNum key n = s.homeNum key n := by
  rw [State.homeNum_bytes hk, State.homeNum_bytes hk]
  congr 2
  exact List.map_congr_left fun i hi => h _ ⟨Nat.le_add_right .., Nat.add_lt_add_left (List.mem_range.1 hi) _⟩

theorem HomesLeft.rmw (core : Option Nat) (v : DWord) : HomesLeft (Within key n) s (s.rmw core key n v) := by
  unfold State.rmw
  simp only [hk, Bool.false_eq_true, if_false]
  suffices ∀ bs : List (Nat × Byte), (∀ b ∈ bs, Within key n b.1) → ∀ s : State,
      HomesLeft (Within key n) s (bs.foldl (fun s b => s.poke core b.1 b.2 3) s) from this _ (fun b hb => bytesAt_within hb) s
  intro bs
  induction bs with
  | nil => exact fun _ s => .refl _ s
  | cons b r ih => exact fun h s => (HomesLeft.poke s core b.2 3 (h b (List.mem_cons_self ..))).trans (ih (fun x hx => h x (List.mem_cons_of_mem _ hx)) _)

/-- The number that a read-modify-write has stored. -/
theorem State.homeNum_rmw (core : Option Nat) (v : DWord) : (s.rmw core key n v).homeNum key n = BitVec.ofNat 64 (v.toNat % 256 ^ n) := by
  rw [State.homeNum_bytes hk, ← leNat_digits]
  congr 2
  refine List.map_congr_left fun i hi => ?_
  unfold State.rmw
  simp only [hk, Bool.false_eq_true, if_false]
  have hn : ((bytesAt key n v.toNat).map (·.1)).Nodup := by
    rw [bytesAt, List.map_map]
    exact List.nodup_range.map fun _ _ h => Nat.add_left_cancel h
  have hb : (key + i, BitVec.ofNat 8 (v.toNat / 256 ^ i)) ∈ bytesAt key n v.toNat := List.mem_map.2 ⟨i, hi, rfl⟩
  exact State.byte_pokes_at _ _ hn hb

end

/-! ### An atomic operation at its home (R173, R177) -/

theorem ReadLeft.sawAll (s : State) (core key n : Nat) : ReadLeft s (s.sawAll core key n) :=
  State.foldl_keeps (P := ReadLeft s) _ (fun _ _ h => h.trans (.sawHome ..)) _ (.refl s)

theorem atomWrites_pos (k : AtomKind) : 0 < atomWrites k := by
  cases k with
  | atm op | red op => cases h : op.wide <;> simp [atomWrites, atomReads, atmBytes, h]
  | cas wide | casv wide => cases wide <;> decide
  | binc | winc | dgz | addl => decide

section
variable {s t : State} {core owner key : Nat} {k : AtomKind} {b c : DWord} (hk : isAp key = false)
include hk

/-- What an atomic operation writes stands within its own bytes. -/
theorem HomesLeft.atomAt : HomesLeft (Within key (atomWrites k)) s (s.atomAt core owner k key b c).1 := by
  have hsaw := (ReadLeft.sawAll s core key (atomReads k)).homes (Within key (atomWrites k))
  unfold State.atomAt
  dsimp only
  split
  · exact hsaw
  · simp only [hk, Bool.false_eq_true, if_false]
    exact (hsaw.trans (.rmw hk _ _)).trans (.sealLine _ _ ⟨Nat.le_refl _, Nat.lt_add_of_pos_right (atomWrites_pos k)⟩)

/-- The number that an atomic operation leaves, from what it finds. -/
theorem State.homeNum_atomAt {r : Option DWord × DWord}
    (hr : r = atomResult k (s.homeNum key (atomReads k)) (s.versionAt key) b c) :
    (∀ x, r.1 = some x → (s.atomAt core owner k key b c).1.homeNum key (atomWrites k) = BitVec.ofNat 64 (x.toNat % 256 ^ atomWrites k)) ∧
      (r.1 = none → (s.atomAt core owner k key b c).1.homeNum key (atomWrites k) = s.homeNum key (atomWrites k)) ∧
      (s.atomAt core owner k key b c).2 = r.2 := by
  subst hr
  unfold State.atomAt
  dsimp only
  have hseal : ∀ (u : State) o l n, (u.modMem fun m => m.sealLine o l).homeNum key n = u.homeNum key n := fun u o l n =>
    State.homeNum_of_bytes hk fun a _ => Mem.byte_of_bytes (Mem.sealLine_bytes ..) a
  cases hx : (atomResult k (s.homeNum key (atomReads k)) (s.versionAt key) b c).1 with
  | none => exact ⟨fun x h => (nomatch h), fun _ => State.homeNum_of_bytes hk fun a _ => (ReadLeft.sawAll ..).sameBytes a, rfl⟩
  | some v =>
    refine ⟨fun x h => ?_, fun h => (nomatch h), rfl⟩
    cases h
    simp only [hk, Bool.false_eq_true, if_false]
    rw [hseal, State.homeNum_rmw hk]

end

/-! ### Whether the accesses of a step fall apart (log entry 1) -/

section
variable {s : State}

theorem State.reread_apart (s : State) (line : Nat) : (s.reread line).apart = s.apart := by
  unfold State.reread
  split <;> rfl

theorem State.seatLine_apart (s : State) (line : Nat) : (s.seatLine line).apart = s.apart := by
  have hc : ∀ e, (s.contains e none).apart = s.apart := fun e => by cases e <;> rfl
  unfold State.seatLine
  split
  · rfl
  · exact hc _

theorem State.cross_apart (s : State) (d h flits : Nat) : (s.cross d h flits).apart = s.apart := by
  unfold State.cross
  split <;> rfl

theorem State.homeLine_apart (hs : s.ap! offInjMask = 0) (core line : Nat) : (s.homeLine core line).apart = s.apart := by
  unfold State.homeLine
  split
  · rfl
  · have hslice := (ReadLeft.reread s line).trans (.sliceStep _ line (if (!s.inL2 line) = true then 23 else 3))
    have hseat := (hslice.trans (.seatLine _ line)).trans (.modMem _ (fun m => { m with excl := Tab.del m.excl line }) rfl rfl)
    have hcross := hseat.trans (.cross _ (dieOfCore core) (dieOfLpa (line * 128)) 4)
    dsimp only
    rw [State.inject_disarmed (hcross.disarmed hs), State.cross_apart]
    exact (State.seatLine_apart ..).trans (State.reread_apart ..)

/-- Reads in parts, each of which leaves it as it is, leave it as it is. -/
theorem State.foldl_apart {α : Type} {f : State → α → State}
    (hf : ∀ s x, s.ap! offInjMask = 0 → ReadLeft s (f s x) ∧ (f s x).apart = s.apart) (xs : List α) (hs : s.ap! offInjMask = 0) :
    (xs.foldl f s).apart = s.apart := by
  induction xs generalizing s with
  | nil => rfl
  | cons x r ih =>
    obtain ⟨hread, happ⟩ := hf s x hs
    exact (ih (hread.disarmed hs)).trans happ

theorem State.fillTlb_apart (hs : s.ap! offInjMask = 0) (core ctx : Nat) (va : DWord) : (s.fillTlb core ctx va).apart = s.apart := by
  have hwalk : (s.walked core ctx va).apart = s.apart :=
    State.foldl_apart (fun s l hs => ⟨.homeLine hs core l, State.homeLine_apart hs core l⟩) _ hs
  unfold State.fillTlb
  split
  · rfl
  · split
    · rfl
    · exact hwalk

theorem State.used_apart (hs : s.ap! offInjMask = 0) (c : Ctx) (sp : Spc) (ea : Warp → Nat → DWord) : (s.used c sp ea).apart = s.apart := by
  cases sp with
  | s => rfl
  | g =>
    change (s.withWarp c.wid _).apart = s.apart
    unfold State.withWarp
    split
    · rfl
    · next v _ =>
      have hfill := ReadLeft.foldl (s := s) (f := fun s p => s.fillTlb (coreOf c.wid) v.ctx (BitVec.ofNat 64 (p * 65536)))
        (fun s p hs => .fillTlb hs ..) (distinct ((lanesOf c.en).map fun l => (ea v l).toNat / 65536)) hs
      unfold State.tlbUsed
      dsimp only
      rw [State.inject_disarmed (hfill.disarmed hs)]
      exact State.foldl_apart (fun s p hs => ⟨.fillTlb hs .., State.fillTlb_apart hs ..⟩) _ hs

end

/-! ### The lanes that perform -/

theorem laneIn_foldl_laneBit (ls : List Nat) (h : ∀ l ∈ ls, l < 32) (m : Word) {l : Nat} (hl : l < 32) :
    laneIn (ls.foldl (fun m l => m ||| laneBit l) m) l = (laneIn m l || decide (l ∈ ls)) := by
  induction ls generalizing m with
  | nil => simp
  | cons x r ih =>
    rw [List.foldl_cons, ih (fun y hy => h y (List.mem_cons_of_mem _ hy)), laneIn_or, laneIn_laneBit (h x (List.mem_cons_self ..)) hl, Bool.or_assoc]
    simp only [List.mem_cons, Bool.decide_or]

/-- The lanes of a list that names those of a mask. -/
theorem lanesIn_of_fst {α : Type} {xs : List (Nat × α)} {en : Word} (h : xs.map Prod.fst = lanesOf en) : lanesIn xs = en := by
  have hfold : lanesIn xs = (lanesOf en).foldl (fun m l => m ||| laneBit l) 0 := by
    rw [← h, List.foldl_map]
    rfl
  refine BitVec.eq_of_getLsbD_eq fun l hl => ?_
  have hall : ∀ l ∈ lanesOf en, l < 32 := fun l h => ((mem_lanesOf en l).1 h).1
  have hlane := laneIn_foldl_laneBit (lanesOf en) hall 0 hl
  rw [← hfold] at hlane
  refine hlane.trans ?_
  have hz : laneIn (0 : Word) l = false := BitVec.getLsbD_zero
  rw [hz, Bool.false_or, Bool.eq_iff_iff, decide_eq_true_iff, mem_lanesOf]
  exact ⟨And.right, fun h => ⟨hl, h⟩⟩

/-- Where every enabled lane has performed, the instruction is left. -/
theorem State.leaveSome_all (s : State) (c : Ctx) : s.leaveSome c c.en true = s.leave c := rfl

theorem State.turnOf_all {α : Type} {s : State} (h : s.apart = false) (xs : List α) : s.turnOf xs = xs := by
  rw [State.turnOf, h, if_neg Bool.false_ne_true]

end Sys2Proof.Machine
end


section
/-!
PROOFS. Accesses that are held in the region store buffer (spec/06 R166), and reductions. Settles O23 of spec/06_isa_memory.md.
-/

namespace Sys2Proof.Machine

/-! ### Operations that are held -/

/-- The warp with these operations held, from these addresses. -/
def Warp.holding (v : Warp) (rsb : List Held) (src : Tab DWord) : Warp := { v with rsb := rsb, heldAt := src }

/-- A ready instruction whose effect only holds operations: what it leaves. -/
structure Holding (f : Form) (s t : State) (w : Warp) (rsb : List Held) (w' : Warp) : Prop where
  warp : t.warp? s.cur = some w'
  rsb : w'.rsb = rsb
  regs : SameRegs w w'
  advanced : Advanced (issueCtx f s w) w w'
  specials : SameSpecials w w'
  standing : SameStanding w w'
  bytes : SameBytes s t
  ver : t.mem.ver = s.mem.ver
  elsewhere : SameElsewhere s t

theorem SameRegs.holding (v : Warp) (rsb : List Held) (src : Tab DWord) : SameRegs v (v.holding rsb src) := ⟨rfl, rfl, rfl⟩

theorem SameStanding.holding {w v : Warp} (h : SameStanding w v) (rsb : List Held) (src : Tab DWord) : SameStanding w (v.holding rsb src) :=
  ⟨h.ctx, h.blk, h.widx, h.level, h.regs, h.regs0, h.lean, h.exited, h.delayed, h.parked, h.susp, h.stopped, h.faults, h.inv, h.inbox⟩

/-- The end of an instruction that has only held operations. -/
theorem Quiet.heldEnd {a b c : Warp} {rsb : List Held} {src : Tab DWord} (h : Quiet a b) (g : Warp.SameButPcs (b.holding rsb src) c)
    (hr : ∀ l < 32, laneIn b.blockedLanes l = false → c.pc l = b.pc l ∧ c.revOf l = b.revOf l) :
    c.rsb = rsb ∧ SameSpecials a c ∧ SameStanding a c :=
  ⟨g.rsb, ⟨g.rlimit.trans h.rlimit, g.rcount.trans h.rcount, g.tcmp.trans h.tcmp, g.timer.trans h.timer, g.frec.trans h.frec,
    g.tclass.trans h.tclass, g.rseq.trans h.rseq, g.budget.trans h.budget, fun l hl hu => by
      rw [(hr l hl (blockedLanes_of_blocked h.blocked ▸ hu)).2, Warp.revOf, h.rev, Warp.revOf]⟩,
    (h.standing.holding rsb src).trans g.standing⟩

/-- The effect of an access that is held: reads, the operations in the warp's buffer, and the advance of its lanes (R166). -/
theorem State.issue_holds {s S : State} {f : Form} {w : Warp} {n : Nat} {steps : Ctx → State → Nat} {body : Ctx → State → State}
    {G : Warp → Warp} {rsb : List Held} {src : Tab DWord} (hr : Ready f n s w) (hs : steps (issueCtx f s w) s = n)
    (he : (issueCtx f s w).en ≠ 0) (hS : ReadLeft (s.begun f n w) S) (hbody : body (issueCtx f s w) (s.begun f n w) = S.modWarp s.cur G)
    (hG : G (w.atIssue f s) = ((w.atIssue f s).advance w.group f.len).holding rsb src) :
    ∃ w', Holding f s (s.issue f (fun _ _ => true) steps body) w rsb w' := by
  have hstood : Stood s (s.begun f n w) := .begun
  obtain ⟨v, hv⟩ : ∃ v, v = (w.atIssue f s).advance w.group f.len := ⟨_, rfl⟩
  have hw : (S.modWarp s.cur G).warp? s.cur = some (v.holding rsb src) := by
    rw [hv, ← hG]
    exact State.warp?_modWarp_of ((hS.warp? _).trans (State.begun_warp hr.cur)) G
  obtain ⟨w', ht, hw', hsame, -, hpc⟩ := State.issue_effect (fun _ _ => true) steps body hr rfl hs he hbody hw
  have hquiet : Quiet w v := hv ▸ (Quiet.atIssue w f s).trans (.advance ..)
  have hregs : SameRegs w v := hv ▸ (SameRegs.atIssue w f s).trans (.advance ..)
  have hpcs : ∀ l < 32, v.pc l = if laneIn w.group l then w.pc l + BitVec.ofNat 64 f.len else w.pc l := fun l hl => by
    rw [hv, Warp.pc_advance _ _ _ hl]
    rfl
  have helse : SameElsewhere s (S.modWarp s.cur G) := (hS.sameElsewhere hstood.toSameElsewhere).modWarp G
  obtain ⟨hrsb, hspecials, hstanding⟩ := hquiet.heldEnd hsame hpc
  refine ⟨w', hw', hrsb, (hregs.trans (.holding ..)).trans hsame.regs, advanced_of (blockedLanes_of_blocked hquiet.blocked) hpcs hpc, hspecials,
    hstanding, fun a => ?_, ?_, ?_⟩
  · rw [ht]
    exact (hS.sameBytes a).trans (congrArg (Mem.byte · a) hstood.mem)
  · rw [ht]
    exact hS.ver.trans (congrArg Mem.ver hstood.mem)
  · rw [ht]
    exact helse.modWarp _

/-! ### red without ordering (R170, R181) -/

/-- The lanes' operations of a held reduction. -/
def Warp.holdReds (v : Warp) (op : AtmOp) (b : Nat) (spots : List Spot) : Warp :=
  spots.foldl (fun v p => v.holdRed p.2 p.1 op (v.xn op.wide b p.1)) v

theorem Warp.holdReds_eq (v : Warp) (op : AtmOp) (b : Nat) (spots : List Spot) :
    v.holdReds op b spots = { v with rsb := v.rsb ++ spots.map fun p => .red p.2 p.1 op (v.xn op.wide b p.1) } := by
  induction spots generalizing v with
  | nil => simp [Warp.holdReds]
  | cons p r ih =>
    have hstep : v.holdReds op b (p :: r) = (v.holdRed p.2 p.1 op (v.xn op.wide b p.1)).holdReds op b r := rfl
    have hxn : ∀ l, (v.holdRed p.2 p.1 op (v.xn op.wide b p.1)).xn op.wide b l = v.xn op.wide b l := fun _ => rfl
    rw [hstep, ih]
    simp only [hxn]
    simp [Warp.holdRed]

section
variable {s : State} {f : Form} {w : Warp} {op : AtmOp} {e : Atm} {spots : List Spot}

/-- The effect of a reduction that is held: reads, and its operations in the buffer. -/
theorem Ctx.redHold_reaches (hr : Ready f 0 s w) (h : Reaches s (issueCtx f s w).en .write .g (atmBytes op) (atmBytes op) (atmEa e) spots)
    (hrace : s.raceTrap s.cur .g spots (atmBytes op) true (atmEa e) = none) (hroom : (w.holdReds op e.b spots).overflows (issueCtx f s w).en = false) :
    ∃ S, ReadLeft (s.begun f 0 w) S ∧ (issueCtx f s w).redHold op e (s.begun f 0 w)
      = S.modWarp s.cur fun v => ((v.holdReds op e.b spots).heldFrom spots (atmEa e)).advance w.group f.len := by
  have hw := State.begun_warp (n := 0) (f := f) hr.cur
  have harmed : (s.begun f 0 w).ap! offInjMask = 0 := (State.ap!_of_ap Stood.begun.ap _).trans hr.disarmed
  have hea : atmEa e (w.atIssue f s) = atmEa e w := (SameRegs.atIssue w f s).atmEa e
  have hused := ReadLeft.used harmed (issueCtx f s w) .g (atmEa e)
  have hroom' : ((w.atIssue f s).holdReds op e.b spots).overflows (issueCtx f s w).en = false := by
    rw [← hroom, Warp.holdReds_eq, Warp.holdReds_eq]
    rfl
  refine ⟨_, hused.trans (.mark (hused.disarmed harmed) s.cur .g spots (atmBytes op) true), ?_⟩
  rw [Ctx.redHold, issueCtx_wid, State.withWarp_of hw]
  dsimp only
  rw [State.reach_begun hr.cur hea, h.found]
  dsimp only
  refine (if_neg (Bool.eq_false_iff.1 hroom')).trans ?_
  rw [h.clears hr.cur hea hrace]
  rfl

end

/-! ### red.rel (R170, R173, R181) -/

section
variable {s S : State} {f : Form} {w v : Warp} {op : AtmOp} {e : Atm} {spots : List Spot}

/-- What the lanes of a reduction do at their homes. -/
def State.redsAt (s : State) (core owner : Nat) (op : AtmOp) (b : Nat) (w : Warp) (spots : List Spot) : State :=
  spots.foldl (fun s p => ((s.atomAt core owner (.red op) p.2 (w.xn op.wide b p.1) 0).1).homeLine core (lineOf p.2)) s

theorem HomesLeft.redsAt (hs : S.ap! offInjMask = 0) (core owner b : Nat) (hap : ∀ p ∈ spots, isAp p.2 = false) :
    HomesLeft (fun a => ∃ p ∈ spots, Within p.2 (atmBytes op) a) S (S.redsAt core owner op b w spots) := by
  refine HomesLeft.foldl (fun p hp T hT => ?_) hs
  have hat := (HomesLeft.atomAt (s := T) (core := core) (owner := owner) (k := .red op) (b := w.xn op.wide b p.1) (c := 0) (hap p hp)).mono
    (L := fun a => ∃ p ∈ spots, Within p.2 (atmBytes op) a) fun a ha => ⟨p, hp, ha⟩
  exact hat.read (.homeLine (hat.disarmed hT) core (lineOf p.2))

/-- A reduction of one lane stores its number. -/
theorem State.homeNum_redsAt (hs : S.ap! offInjMask = 0) (core owner b : Nat) {p : Spot} (hap : isAp p.2 = false) :
    (S.redsAt core owner op b w [p]).homeNum p.2 (atmBytes op)
      = BitVec.ofNat 64 ((atmApply op (S.homeNum p.2 (atmBytes op)) (w.xn op.wide b p.1)).toNat % 256 ^ atmBytes op) := by
  have hat := HomesLeft.atomAt (s := S) (core := core) (owner := owner) (k := .red op) (b := w.xn op.wide b p.1) (c := 0) hap
  have hline := ReadLeft.homeLine (hat.disarmed hs) core (lineOf p.2)
  have hkeep := State.homeNum_of_bytes (n := atmBytes op) hap fun a _ => hline.sameBytes a
  obtain ⟨hsome, -, -⟩ := State.homeNum_atomAt (s := S) (core := core) (owner := owner) (k := .red op) (b := w.xn op.wide b p.1) (c := 0) hap rfl
  exact hkeep.trans (hsome _ rfl)

/-- The access of a `red.rel`. -/
def Ctx.redGo (c : Ctx) (op : AtmOp) (e : Atm) (s : State) : State :=
  s.withWarp c.wid fun w => c.direct .merge .g (atmBytes op) (atmBytes op) true (atmEa e)
    (fun spots s => ((s.turnOf spots).foldl (fun s p => ((s.atomAt c.core (ownerOf c.core w.ctx) (.red op) p.2 (w.xn op.wide e.b p.1) 0).1).homeLine
      c.core (lineOf p.2)) s).leaveSome c (lanesIn (s.turnOf spots)) (decide (spots.length ≤ (s.turnOf spots).length))) s

theorem exec_redRel (ho : e.ord ≠ .none) (hf : f = { atmForm e (regPair op.wide e.b) [] [] with full := halfOp op }) (s : State) :
    exec (.red op e) s = .next (s.demanding f (fun c => c.checks .merge .g (atmBytes op) (atmBytes op) (atmEa e))
      (fun c => 10 * (lanesOf c.en).length) fun c s => c.redGo op e s) := by
  rw [hf]
  simp only [exec, execRed, if_neg ho]
  rfl

theorem lanesOf_length_ne {m : Word} (h : m ≠ 0) : (lanesOf m).length ≠ 0 := by
  intro hn
  have hnil := List.eq_nil_of_length_eq_zero hn
  refine h (BitVec.eq_of_getLsbD_eq fun l hl => ?_)
  have hl' : l ∉ lanesOf m := hnil ▸ List.not_mem_nil
  rw [mem_lanesOf] at hl'
  simpa [laneIn, hl] using hl'

/-- The effect of a `red.rel`, at its access: its operations at their homes, and step 5. -/
theorem Ctx.redRel_reaches (h : Comes f s w S v) (hw : s.warp? s.cur = some w) (hst : v.stage = none)
    (hs : s.ap! offInjMask = 0) (hap : s.apart = false) (hr : Reaches s (issueCtx f s w).en .merge .g (atmBytes op) (atmBytes op) (atmEa e) spots)
    (hrace : s.raceTrap s.cur .g spots (atmBytes op) true (atmEa e) = none) :
    (issueCtx f s w).redGo op e S
      = ((S.used (issueCtx f s w) .g (atmEa e)).redsAt (coreOf s.cur) (ownerOf (coreOf s.cur) v.ctx) op e.b v spots).leave (issueCtx f s w) := by
  have hapS : (S.used (issueCtx f s w) .g (atmEa e)).apart = false :=
    (State.used_apart (h.disarmed hs) ..).trans (h.apart.trans hap)
  rw [Ctx.redGo, issueCtx_wid, State.withWarp_of h.warp, h.direct hw hst (h.poised.regs.atmEa e) hr true hrace, State.turnOf_all hapS,
    lanesIn_of_fst (hr.placed hw).lanes, decide_eq_true (Nat.le_refl _), State.leaveSome_all]
  rfl

/-- What a `red.rel` leaves, at its access. -/
theorem State.redsAt_leaves {R : State} (h : Comes f s w S v) (hs : s.ap! offInjMask = 0)
    (hap : ∀ p ∈ spots, isAp p.2 = false) (hR : R = (S.used (issueCtx f s w) .g (atmEa e)).redsAt (coreOf s.cur)
      (ownerOf (coreOf s.cur) v.ctx) op e.b v spots) :
    HomesLeft (fun a => ∃ p ∈ spots, Within p.2 (atmBytes op) a) S R ∧
      ∀ p, spots = [p] → R.homeNum p.2 (atmBytes op)
        = BitVec.ofNat 64 ((atmApply op (s.homeNum p.2 (atmBytes op)) (w.xn op.wide e.b p.1)).toNat % 256 ^ atmBytes op) := by
  have hused := ReadLeft.used (h.disarmed hs) (issueCtx f s w) .g (atmEa e)
  subst hR
  refine ⟨(hused.homes _).trans (.redsAt (hused.disarmed (h.disarmed hs)) _ _ _ hap), fun p hp => ?_⟩
  subst hp
  have hp := hap p (List.mem_singleton_self p)
  rw [State.homeNum_redsAt (hused.disarmed (h.disarmed hs)) _ _ _ hp, h.poised.regs.xn,
    State.homeNum_of_bytes (t := S.used (issueCtx f s w) .g (atmEa e)) (s := s) hp fun a _ => (hused.sameBytes a).trans (by rw [h.mem])]

end

/-- Settles O23: without ordering the operations go to the buffer; with it they stand at their homes, once the commit and the demand are
behind them. -/
theorem reductionsComplete : Obligations.ReductionsComplete := by
  refine ⟨?_, ?_, ?_⟩
  · intro op e f c s w spots hf hord hc hr he h hrace hroom
    subst hc
    obtain ⟨S, hS, hbody⟩ := Ctx.redHold_reaches hr h hrace hroom
    obtain ⟨w', hw'⟩ := State.issue_holds (steps := fun _ _ => 0) (body := fun c s => c.redHold op e s)
      (rsb := (w.holdReds op e.b spots).rsb) hr rfl he hS hbody (by rw [Warp.holdReds_eq, Warp.holdReds_eq]; rfl)
    have hexec : exec (.red op e) s = .next (s.issueSimple f fun c s => c.redHold op e s) := by
      rw [hf]
      simp only [exec, execRed, hord]
      rfl
    exact ⟨_, w', hexec, hw'.warp, hw'.rsb, hw'.regs, hw'.advanced, hw'.standing, hw'.bytes, hw'.ver, hw'.elsewhere⟩
  · intro op e f c s w spots hf hord hc hq hr he hs h
    subst hc
    obtain ⟨w', hw'⟩ := State.demanding_demands (cost := fun c => 10 * (lanesOf c.en).length)
      (pre := fun c => c.checks .merge .g (atmBytes op) (atmBytes op) (atmEa e)) (go := fun c s => c.redGo op e s) hr hq he hs
      (Begins.checks hr.cur ((SameRegs.atIssue w f s).atmEa e) h) (Nat.mul_ne_zero (by decide) (lanesOf_length_ne he))
    exact ⟨_, w', exec_redRel hord hf s, hw'⟩
  · intro op e f c s w spots hf hord hc he hg hap h hrace hkeys
    subst hc
    obtain ⟨T, v, ht, hcomes, hst⟩ := State.demanding_comes (cost := fun c => 10 * (lanesOf c.en).length)
      (pre := fun c => c.checks .merge .g (atmBytes op) (atmBytes op) (atmEa e)) (go := fun c s => c.redGo op e s) hg he
      (Nat.mul_ne_zero (by decide) (lanesOf_length_ne he)) rfl (Begins.checks hg.cur ((SameRegs.atIssue w f s).atmEa e) h)
    obtain ⟨R, hR⟩ : ∃ R, R = (T.used (issueCtx f s w) .g (atmEa e)).redsAt (coreOf s.cur) (ownerOf (coreOf s.cur) v.ctx) op e.b v spots := ⟨_, rfl⟩
    obtain ⟨hhomes, hone⟩ := State.redsAt_leaves hcomes hg.disarmed hkeys hR
    have hgo : (issueCtx f s w).redGo op e T = R.modWarp s.cur fun u => u.left (issueCtx f s w) := by
      rw [Ctx.redRel_reaches hcomes hg.cur hst hg.disarmed hap h hrace, ← hR, State.leave_eq]
      rfl
    have hwarp : ((issueCtx f s w).redGo op e T).warp? s.cur = some (v.left (issueCtx f s w)) := by
      rw [hgo]
      exact State.warp?_modWarp_of ((hhomes.warp? _).trans hcomes.warp) _
    obtain ⟨w', hw', hleft, hregs, -⟩ := State.leave_finish hwarp hcomes.poised.pcv hcomes.poised.blocked hcomes.poised.rev
    have helse : SameElsewhere s ((issueCtx f s w).redGo op e T) := hgo ▸ (hhomes.sameElsewhere hcomes.toSameElsewhere).modWarp _
    have hmem : ∀ a, ((issueCtx f s w).redGo op e T).mem.byte a = R.mem.byte a := fun a => by rw [hgo]; rfl
    refine ⟨_, w', (exec_redRel hord hf s).trans (congrArg _ ht), hw', hcomes.poised.regs.trans hregs, hleft, fun a ha => ?_, fun p hp => ?_,
      helse.finish _ rfl⟩
    · refine (hmem a).trans ((hhomes.bytes a ?_).trans (by rw [hcomes.mem]))
      rintro ⟨p, hp, hin⟩
      exact not_within.2 (ha p hp) hin
    · rw [← hone p hp]
      exact State.homeNum_of_bytes (hkeys p (hp ▸ List.mem_singleton_self p)) fun a _ => hmem a

end Sys2Proof.Machine
end


section
/-!
PROOFS. Where the keys of an access lie (spec/10 R302), and the value-returning atomics (spec/06 R163, R177 to R181).
Settles O22 of spec/06_isa_memory.md.
-/

namespace Sys2Proof.Machine

open Sys2Proof.Machine.Shape

/-! ### Keys lie in their pages as their addresses do (R302, R427) -/

theorem Leaf.key_offset (l : Leaf) (va : DWord) : l.key va % 65536 = va.toNat % 65536 := by
  unfold Leaf.key keyPeer keyHost
  rw [show span = 2 ^ 48 by decide]
  dsimp only
  split
  · omega
  · split <;> omega

theorem State.mapTo_offset {s : State} {core ctx : Nat} {priv : Bool} {a : Acc} {va : DWord} {key : Nat}
    (h : s.mapTo core ctx priv a va = .ok key) : key % 65536 = va.toNat % 65536 := by
  unfold State.mapTo at h
  split at h
  · unfold State.svcMap at h
    dsimp only at h
    split at h
    · next hsram =>
      rw [← Except.ok.inj h, keySram, show span = 2 ^ 48 by decide]
      omega
    · split at h
      · next hap =>
        simp only [Bool.and_eq_true, decide_eq_true_eq] at hap
        rw [← Except.ok.inj h, keyAp, show span = 2 ^ 48 by decide]
        omega
      · split at h
        · next hdram =>
          simp only [Bool.and_eq_true, decide_eq_true_eq] at hdram
          rw [← Except.ok.inj h]
          omega
        · nomatch h
  · unfold State.xlate at h
    split at h
    · nomatch h
    · next l _ =>
      split at h
      · nomatch h
      · cases h
        exact l.key_offset va

theorem State.place_offset {s : State} {core ctx : Nat} {priv : Bool} {a : Acc} {va : DWord} {key : Nat}
    (h : s.place core ctx priv a va = .ok key) : key % 65536 = va.toNat % 65536 := by
  unfold State.place at h
  split at h
  · nomatch h
  · next hmap =>
    split at h
    · nomatch h
    · cases h
      exact State.mapTo_offset hmap

/-- An aligned number of a word or two lies in one line. -/
theorem Placed.inLine {s : State} {w : Warp} {lanes : Word} {a : Acc} {n : Nat} {ea : Nat → DWord} {spots : List Spot}
    (h : Placed s w lanes a .g n n ea spots) (hn : n = 4 ∨ n = 8) {p : Spot} (hp : p ∈ spots) {b : Nat} (hb : Within p.2 n b) :
    lineOf b = lineOf p.2 := by
  have hoff := State.place_offset (h.keys rfl p hp).1
  have hal := h.aligned p hp
  unfold Within at hb
  unfold lineOf
  rcases hn with rfl | rfl <;> omega

/-- No lane has two places. -/
theorem Placed.nodup {s : State} {w : Warp} {lanes : Word} {a : Acc} {sp : Spc} {n al : Nat} {ea : Nat → DWord} {spots : List Spot}
    (h : Placed s w lanes a sp n al ea spots) : (spots.map Prod.fst).Nodup := by
  rw [h.lanes]
  exact (List.nodup_range (n := 32)).filter _

/-! ### The registers that lanes take one by one -/

/-- The warp whose lanes take these values in a register or a pair. -/
def Warp.takes (u : Warp) (wide : Bool) (d : Nat) (vals : List (Nat × DWord)) : Warp :=
  vals.foldl (fun u p => u.setXn wide d (laneBit p.1) fun _ => p.2) u

theorem Warp.takes_quiet (u : Warp) (wide : Bool) (d : Nat) (vals : List (Nat × DWord)) :
    Quiet u (u.takes wide d vals) ∧ (u.takes wide d vals).pcv = u.pcv ∧ (u.takes wide d vals).k = u.k ∧ (u.takes wide d vals).m = u.m := by
  induction vals generalizing u with
  | nil => exact ⟨.refl u, rfl, rfl, rfl⟩
  | cons p r ih =>
    obtain ⟨hq, hp, hk, hm⟩ := ih (u.setXn wide d (laneBit p.1) fun _ => p.2)
    exact ⟨(Quiet.setXn ..).trans hq, hp.trans (by simp), hk.trans (by simp), hm.trans (by simp)⟩

theorem Warp.xr_takes_ne (u : Warp) (wide : Bool) (d : Nat) {vals : List (Nat × DWord)} {n l : Nat} (hl : l < 32)
    (hlanes : ∀ p ∈ vals, p.1 < 32) (h : n ∉ regPair wide d ∨ ∀ p ∈ vals, p.1 ≠ l) : (u.takes wide d vals).xr n l = u.xr n l := by
  induction vals generalizing u with
  | nil => rfl
  | cons p r ih =>
    refine (ih (u.setXn wide d (laneBit p.1) fun _ => p.2) (fun q hq => hlanes q (List.mem_cons_of_mem _ hq))
      (h.imp id fun h q hq => h q (List.mem_cons_of_mem _ hq))).trans (Warp.xr_setXn_ne _ _ _ _ _ _ hl (h.imp id fun h => ?_))
    rw [laneIn_laneBit (hlanes p (List.mem_cons_self ..)) hl, decide_eq_false_iff_not]
    exact fun e => h p (List.mem_cons_self ..) e.symm

theorem Warp.xn_of_xr {u v : Warp} {wide : Bool} {d l : Nat} (h : ∀ n, u.xr n l = v.xr n l) : u.xn wide d l = v.xn wide d l := by
  simp only [Warp.xn, h]

theorem Warp.xn_takes (u : Warp) (wide : Bool) (d : Nat) {vals : List (Nat × DWord)} (hn : (vals.map Prod.fst).Nodup)
    (hlanes : ∀ p ∈ vals, p.1 < 32) {p : Nat × DWord} (hp : p ∈ vals) : (u.takes wide d vals).xn wide d p.1 = Machine.held wide p.2 := by
  induction vals generalizing u with
  | nil => nomatch hp
  | cons q r ih =>
    obtain ⟨hq, hr⟩ := List.nodup_cons.1 hn
    have hlanes' : ∀ p ∈ r, p.1 < 32 := fun p hp => hlanes p (List.mem_cons_of_mem _ hp)
    rcases List.mem_cons.1 hp with rfl | hp
    · have hl := hlanes p (List.mem_cons_self ..)
      have hone : laneIn (laneBit p.1) p.1 = true := by rw [laneIn_laneBit hl hl, decide_eq_true rfl]
      exact (Warp.xn_of_xr fun n => Warp.xr_takes_ne _ _ _ hl hlanes' (.inr fun x hx e => hq (e ▸ List.mem_map_of_mem hx))).trans
        (Warp.xn_setXn _ _ _ _ _ hone)
    · exact ih _ hr hlanes' hp

/-! ### What operations of lanes leave -/

/-- What operations that write the bytes of `K` leave of the machine; the current warp is `u`. -/
structure Performed (K : Nat → Prop) (s U : State) (u : Warp) : Prop extends SameElsewhere s U where
  warp : U.warp? s.cur = some u
  own : U.own = s.own
  bytes : ∀ a, ¬ K a → U.mem.byte a = s.mem.byte a
  ver : ∀ l, (∀ a, K a → lineOf a ≠ l) → U.mem.version l = s.mem.version l

section
variable {K L : Nat → Prop} {s S U V : State} {f : Form} {w u v : Warp}

theorem Performed.of_comes (h : Comes f s w S v) : Performed (fun _ => False) s S v :=
  { h.toSameElsewhere with warp := h.warp, own := h.own, bytes := fun _ _ => by rw [h.mem], ver := fun _ _ => by rw [h.mem] }

theorem Performed.modWarp (h : Performed K s U u) (g : Warp → Warp) : Performed K s (U.modWarp s.cur g) (g u) :=
  { h.toSameElsewhere.modWarp g with warp := State.warp?_modWarp_of h.warp g, own := h.own, bytes := h.bytes, ver := h.ver }

theorem Performed.homes (h : Performed K s U u) (g : HomesLeft L U V) : Performed (fun a => K a ∨ L a) s V u :=
  { g.sameElsewhere h.toSameElsewhere with
    warp := (g.warp? _).trans h.warp, own := g.own.trans h.own
    bytes := fun a ha => (g.bytes a fun hl => ha (.inr hl)).trans (h.bytes a fun hk => ha (.inl hk))
    ver := fun l hl => (g.ver l fun a ha => hl a (.inr ha)).trans (h.ver l fun a ha => hl a (.inl ha)) }

theorem Performed.mono (h : Performed K s U u) (hKL : ∀ a, K a → L a) : Performed L s U u :=
  { h with bytes := fun a ha => h.bytes a fun hk => ha (hKL a hk), ver := fun l hl => h.ver l fun a hk => hl a (hKL a hk) }

theorem Performed.read (h : Performed K s U u) (g : ReadLeft U V) : Performed K s V u :=
  (h.homes (g.homes fun _ => False)).mono fun _ ha => ha.elim id False.elim

theorem Performed.disarmed (h : Performed K s U u) (hs : s.ap! offInjMask = 0) : U.ap! offInjMask = 0 := (State.ap!_of_ap h.ap _).trans hs

theorem Performed.versionAt (h : Performed K s U u) {key : Nat} (hk : ∀ a, K a → lineOf a ≠ lineOf key) : U.versionAt key = s.versionAt key := by
  unfold State.versionAt
  rw [h.own, h.ver _ hk]

end

/-! ### One lane (R163, R177) -/

section
variable {s U : State} {K : Nat → Prop} {u : Warp}

theorem ReadLeft.claimLine (hs : s.ap! offInjMask = 0) (core line : Nat) : ReadLeft s (s.claimLine core line) :=
  .ite (fun _ => .refl s) fun _ => (ReadLeft.homeLine hs core line).trans (.modMem _ _ rfl rfl)

/-- What an operation of a lane answers, in a state. -/
def State.atomAnswer (s : State) (op : AtomOp) : Option DWord × DWord :=
  atomResult op.kind (s.homeNum op.key (atomReads op.kind)) (s.versionAt op.key) op.b op.c

/-- The number that an operation of a lane has left at its home, where `r` is its answer. -/
def Stored (s t : State) (op : AtomOp) (r : Option DWord × DWord) : Prop :=
  (∀ x, r.1 = some x → t.homeNum op.key (atomWrites op.kind) = BitVec.ofNat 64 (x.toNat % 256 ^ atomWrites op.kind)) ∧
    (r.1 = none → t.homeNum op.key (atomWrites op.kind) = s.homeNum op.key (atomWrites op.kind))

theorem Stored.of_bytes {s t t' : State} {op : AtomOp} {r : Option DWord × DWord} (h : Stored s t op r) (hk : isAp op.key = false)
    (hb : ∀ a, Within op.key (atomWrites op.kind) a → t'.mem.byte a = t.mem.byte a) : Stored s t' op r := by
  have hnum : t'.homeNum op.key (atomWrites op.kind) = t.homeNum op.key (atomWrites op.kind) := State.homeNum_of_bytes hk hb
  exact ⟨fun x hx => hnum.trans (h.1 x hx), fun hx => hnum.trans (h.2 hx)⟩

/-- The state between a lane's operation and the write of its register. -/
def State.operated (s : State) (core owner : Nat) (op : AtomOp) : State :=
  ((s.claimLine core (lineOf op.key)).atomAt core owner op.kind op.key op.b op.c).1

theorem State.claimed_operates (hs : U.ap! offInjMask = 0) (core owner : Nat) {op : AtomOp} (hk : isAp op.key = false) :
    HomesLeft (Within op.key (atomWrites op.kind)) U (U.operated core owner op) ∧ Stored U (U.operated core owner op) op (U.atomAnswer op) ∧
      ((U.claimLine core (lineOf op.key)).atomAt core owner op.kind op.key op.b op.c).2 = (U.atomAnswer op).2 := by
  have hclaim := ReadLeft.claimLine hs core (lineOf op.key)
  have hnum : ∀ n, (U.claimLine core (lineOf op.key)).homeNum op.key n = U.homeNum op.key n := fun n =>
    State.homeNum_of_bytes hk fun a _ => hclaim.sameBytes a
  have hr : U.atomAnswer op = atomResult op.kind ((U.claimLine core (lineOf op.key)).homeNum op.key (atomReads op.kind))
      ((U.claimLine core (lineOf op.key)).versionAt op.key) op.b op.c := by rw [hnum, hclaim.versionAt]; rfl
  obtain ⟨hsome, hnone, hval⟩ := State.homeNum_atomAt (core := core) (owner := owner) hk hr
  exact ⟨(hclaim.homes _).trans (.atomAt hk), ⟨hsome, fun h => (hnone h).trans (hnum _)⟩, hval⟩

theorem State.atomLane_eq (core : Nat) {wid l : Nat} {op : AtomOp} (hc : coreOf wid = core) (hr : isRemote op.key = false) :
    (s.claimLine core (lineOf op.key)).atomLane wid l op
      = (s.operated core ((s.claimLine core (lineOf op.key)).ctxOf wid) op).modWarp wid fun w => w.setXn (atomPair op.kind) op.d (laneBit l)
          fun _ => ((s.claimLine core (lineOf op.key)).atomAt core ((s.claimLine core (lineOf op.key)).ctxOf wid) op.kind op.key op.b op.c).2 := by
  subst hc
  unfold State.atomLane
  simp only [hr, Bool.false_eq_true, if_false]
  rfl

/-- A lane whose line no earlier operation has touched performs, and takes the answer that the instruction's beginning gives. -/
theorem Performed.lane (h : Performed K s U u) (hs : s.ap! offInjMask = 0) (l : Nat) {op : AtomOp} (hk : isAp op.key = false)
    (hr : isRemote op.key = false) (hK : ∀ a, K a → lineOf a ≠ lineOf op.key)
    (hin : ∀ a, Within op.key (atomReads op.kind) a → lineOf a = lineOf op.key)
    (hwr : ∀ a, Within op.key (atomWrites op.kind) a → lineOf a = lineOf op.key) :
    ∃ V, (U.claimLine (coreOf s.cur) (lineOf op.key)).atomLane s.cur l op = V ∧
      Performed (fun a => K a ∨ Within op.key (atomWrites op.kind) a) s V
        (u.setXn (atomPair op.kind) op.d (laneBit l) fun _ => (s.atomAnswer op).2) ∧
      Stored s V op (s.atomAnswer op) ∧ ∀ a, ¬ Within op.key (atomWrites op.kind) a → V.mem.byte a = U.mem.byte a := by
  have hkeep : ∀ n, (∀ a, Within op.key n a → lineOf a = lineOf op.key) → U.homeNum op.key n = s.homeNum op.key n := fun n hn =>
    State.homeNum_of_bytes hk fun a ha => h.bytes a fun hka => hK a hka (hn a ha)
  have hans : U.atomAnswer op = s.atomAnswer op := by
    unfold State.atomAnswer
    rw [hkeep _ hin, h.versionAt hK]
  obtain ⟨hhomes, hstored, hval⟩ := State.claimed_operates (h.disarmed hs) (coreOf s.cur)
    ((U.claimLine (coreOf s.cur) (lineOf op.key)).ctxOf s.cur) hk
  refine ⟨_, State.atomLane_eq _ rfl hr, ?_, ?_, fun a ha => hhomes.bytes a ha⟩
  · rw [hval, hans]
    exact (h.homes hhomes).modWarp _
  · rw [hans] at hstored
    obtain ⟨hsome, hnone⟩ := hstored
    exact Stored.of_bytes ⟨hsome, fun hx => (hnone hx).trans (hkeep _ hwr)⟩ hk fun _ _ => rfl

end

/-! ### The lanes, one after the other (R163) -/

/-- The operations of lanes go to distinct lines of this device. -/
structure Apart (spots : List Spot) (n : Nat) : Prop where
  here : ∀ p ∈ spots, isRemote p.2 = false ∧ isAp p.2 = false
  line : ∀ p ∈ spots, ∀ a, Within p.2 n a → lineOf a = lineOf p.2
  lines : spots.Pairwise fun p q => lineOf p.2 ≠ lineOf q.2

section
variable {s U : State} {K : Nat → Prop} {u w : Warp} {k : AtomKind} {e : Atm} {cn : Option Nat}

theorem atomWrites_le (k : AtomKind) : atomWrites k ≤ atomReads k := by
  unfold atomWrites
  split
  · decide
  · exact Nat.le_refl _

theorem Within.mono {key n m a : Nat} (h : Within key n a) (hn : n ≤ m) : Within key m a := ⟨h.1, Nat.lt_of_lt_of_le h.2 (Nat.add_le_add_left hn _)⟩

/-- What the lanes perform, from the lowest. -/
def State.performs (s : State) (wid : Nat) (ops : List (Nat × AtomOp)) : State :=
  ops.foldl (fun s o => (s.claimLine (coreOf wid) (lineOf o.2.key)).atomLane wid o.1 o.2) s

/-- The lanes of an instruction with their operations. -/
def opsOf (k : AtomKind) (e : Atm) (cn : Option Nat) (w : Warp) (spots : List Spot) : List (Nat × AtomOp) :=
  spots.map fun p => (p.1, atomOpOf k e cn w p)

/-- What the lanes take, by lane. -/
def State.atomVals (s : State) (k : AtomKind) (e : Atm) (cn : Option Nat) (w : Warp) (spots : List Spot) : List (Nat × DWord) :=
  spots.map fun p => (p.1, (s.atomAnswer (atomOpOf k e cn w p)).2)

/-- Lanes on distinct lines perform as if each were alone. -/
theorem Performed.lanes (hs : s.ap! offInjMask = 0) {spots : List Spot} (ha : Apart spots (atomReads k)) (h : Performed K s U u)
    (hK : ∀ p ∈ spots, ∀ a, K a → lineOf a ≠ lineOf p.2) :
    Performed (fun a => K a ∨ ∃ p ∈ spots, Within p.2 (atomWrites k) a) s (U.performs s.cur (opsOf k e cn w spots))
        (u.takes (atomPair k) e.d (s.atomVals k e cn w spots)) ∧
      (∀ p ∈ spots, Stored s (U.performs s.cur (opsOf k e cn w spots)) (atomOpOf k e cn w p) (s.atomAnswer (atomOpOf k e cn w p))) ∧
      ∀ a, (∀ p ∈ spots, ¬ Within p.2 (atomWrites k) a) → (U.performs s.cur (opsOf k e cn w spots)).mem.byte a = U.mem.byte a := by
  induction spots generalizing U u K with
  | nil =>
    refine ⟨h.mono fun _ => .inl, fun p hp => (nomatch hp), fun _ _ => rfl⟩
  | cons p r ih =>
    obtain ⟨hpr, hrr⟩ := List.pairwise_cons.1 ha.lines
    have hp : p ∈ p :: r := List.mem_cons_self ..
    have hr : ∀ q ∈ r, q ∈ p :: r := fun q hq => List.mem_cons_of_mem _ hq
    obtain ⟨hrem, hap⟩ := ha.here p hp
    have hwr : ∀ q ∈ p :: r, ∀ a, Within q.2 (atomWrites k) a → lineOf a = lineOf q.2 := fun q hq a hin =>
      ha.line q hq a (hin.mono (atomWrites_le k))
    obtain ⟨V, hV, hperf, hstored, hbytes⟩ := h.lane hs p.1 (op := atomOpOf k e cn w p) hap hrem (hK p hp) (ha.line p hp) (hwr p hp)
    have hrest : Apart r (atomReads k) := ⟨fun q hq => ha.here q (hr q hq), fun q hq => ha.line q (hr q hq), hrr⟩
    obtain ⟨hall, heach, hout⟩ := ih hrest hperf fun q hq a ha' => ha'.elim (hK q (hr q hq) a) fun hin => by
      rw [hwr p hp a hin]
      exact hpr q hq
    have hfold : U.performs s.cur (opsOf k e cn w (p :: r)) = V.performs s.cur (opsOf k e cn w r) := by
      rw [← hV]
      rfl
    rw [hfold]
    refine ⟨hall.mono fun a ha' => ?_, fun q hq => ?_, fun a ha' => ?_⟩
    · rcases ha' with (hk | hin) | ⟨q, hq, hin⟩
      · exact .inl hk
      · exact .inr ⟨p, hp, hin⟩
      · exact .inr ⟨q, hr q hq, hin⟩
    · rcases List.mem_cons.1 hq with rfl | hq
      · refine hstored.of_bytes hap fun a hin => hout a fun q' hq' hin' => hpr q' hq' ?_
        rw [← hwr q hp a hin, hwr q' (hr q' hq') a hin']
      · exact heach q hq
    · exact (hout a fun q hq => ha' q (hr q hq)).trans (hbytes a (ha' p hp))

end

/-! ### The instruction (R168, R177, R445) -/

section
variable {s S : State} {f : Form} {w v : Warp} {k : AtomKind} {e : Atm} {cn : Option Nat} {spots : List Spot}

theorem atomReads_size (k : AtomKind) : atomReads k = 4 ∨ atomReads k = 8 := by
  cases k with
  | atm op | red op => cases h : op.wide <;> simp [atomReads, atmBytes, h]
  | cas wide | casv wide => cases wide <;> simp [atomReads]
  | binc | winc | dgz | addl => simp [atomReads]

/-- The access of a value-returning atomic. -/
def Ctx.atomGo (c : Ctx) (k : AtomKind) (e : Atm) (cn : Option Nat) (s : State) : State :=
  s.withWarp c.wid fun w => c.direct .both .g (atomReads k) (atomReads k) true (atmEa e)
    (fun spots s => c.atomAll (opsOf k e cn w spots) (orders e.ord e.sc) s) s

theorem exec_atomic {i : Instr} {a : AtomShape} (h : atomics i = some a) (s : State) :
    exec i s = .next (s.demanding a.form (fun c => c.checks .both .g (atomReads a.kind) (atomReads a.kind) (atmEa a.e))
      (fun c => 10 * (lanesOf c.en).length) fun c s => c.atomGo a.kind a.e a.c s) := runsAtomic h s

theorem SameRegs.atomOpOf (h : SameRegs w v) (k : AtomKind) (e : Atm) (cn : Option Nat) (p : Spot) :
    Machine.atomOpOf k e cn v p = Machine.atomOpOf k e cn w p := by
  simp only [Machine.atomOpOf, h.xn]

/-- The lanes that perform, where every line is of this device, and the end of the step. -/
theorem Ctx.atomAll_here {c : Ctx} {ops : List (Nat × AtomOp)} (acq : Option Scope) (hr : ∀ o ∈ ops, isRemote o.2.key = false) :
    ∃ R, ReadLeft ((s.turnOf ops).foldl (fun s o => (s.claimLine c.core (lineOf o.2.key)).atomLane c.wid o.1 o.2) s) R ∧
      c.atomAll ops acq s = R.leaveSome c (lanesIn (s.turnOf ops)) (decide (ops.length ≤ (s.turnOf ops).length)) := by
  have hhere : ops.filter (fun o => !needsLease s o.2.key) = ops := List.filter_eq_self.2 fun o ho => by simp [needsLease, hr o ho]
  have haway : ops.filter (fun o => needsLease s o.2.key) = [] := List.filter_eq_nil_iff.2 fun o ho => by simp [needsLease, hr o ho]
  refine ⟨_, .ite (c := (s.turnOf ops).isEmpty = true) (fun _ => .refl _) fun _ => .acquireBy _ c.core acq, ?_⟩
  unfold Ctx.atomAll
  rw [hhere, haway]
  simp only [List.foldl_nil, ite_self]

/-- The effect of an atomic that reaches lines of this device: its lanes perform one after the other on the current warp, and those that have
performed leave. -/
theorem Ctx.atomGo_reaches (h : Comes f s w S v) (hw : s.warp? s.cur = some w) (hst : v.stage = none) (hs : s.ap! offInjMask = 0)
    (hr : Reaches s (issueCtx f s w).en .both .g (atomReads k) (atomReads k) (atmEa e) spots)
    (hrace : s.raceTrap s.cur .g spots (atomReads k) true (atmEa e) = none) (hkeys : ∀ p ∈ spots, isRemote p.2 = false ∧ isAp p.2 = false)
    {now : List Spot} (hnow : s.turnOf spots = now) (ha : Apart now (atomReads k)) (hsub : ∀ p ∈ now, p ∈ spots) :
    ∃ R, Performed (fun a => ∃ p ∈ now, Within p.2 (atomWrites k) a) s R (v.takes (atomPair k) e.d (s.atomVals k e cn w now)) ∧
      (∀ p ∈ now, Stored s R (atomOpOf k e cn w p) (s.atomAnswer (atomOpOf k e cn w p))) ∧
      (issueCtx f s w).atomGo k e cn S = R.leaveSome (issueCtx f s w) (lanesIn now) (decide (spots.length ≤ now.length)) := by
  have hused := ReadLeft.used (h.disarmed hs) (issueCtx f s w) .g (atmEa e)
  have hstart : Performed (fun _ => False) s (S.used (issueCtx f s w) .g (atmEa e)) v := (Performed.of_comes h).read hused
  have hops : opsOf k e cn v spots = opsOf k e cn w spots :=
    List.map_congr_left fun p _ => congrArg (Prod.mk p.1) (h.poised.regs.atomOpOf k e cn p)
  have hap : (S.used (issueCtx f s w) .g (atmEa e)).apart = s.apart := (State.used_apart (h.disarmed hs) ..).trans h.apart
  have hturn : (S.used (issueCtx f s w) .g (atmEa e)).turnOf (opsOf k e cn w spots) = opsOf k e cn w now := by
    rw [← hnow]
    unfold State.turnOf opsOf
    rw [hap]
    split
    · exact List.map_take.symm
    · rfl
  obtain ⟨hperf, heach, -⟩ := Performed.lanes (w := w) (e := e) (cn := cn) hs ha hstart fun _ _ _ hf => hf.elim
  obtain ⟨R, hR, hall⟩ := Ctx.atomAll_here (s := S.used (issueCtx f s w) .g (atmEa e)) (c := issueCtx f s w) (orders e.ord e.sc)
    (ops := opsOf k e cn w spots) (fun o ho => by
      obtain ⟨p, hp, rfl⟩ := List.mem_map.1 ho
      exact (hkeys p hp).1)
  rw [hturn] at hR hall
  refine ⟨R, (hperf.read hR).mono fun a ha => ha.resolve_left id, fun p hp =>
    (heach p hp).of_bytes (hkeys p (hsub p hp)).2 fun a _ => hR.sameBytes a, ?_⟩
  have hlanes : lanesIn (opsOf k e cn w now) = lanesIn now := by
    unfold lanesIn opsOf
    rw [List.foldl_map]
  rw [Ctx.atomGo, issueCtx_wid, State.withWarp_of h.warp, h.direct hw hst (h.poised.regs.atmEa e) hr true hrace, hops, hall, hlanes]
  simp only [opsOf, List.length_map]

/-- The lanes of an instruction whose accesses reach are apart from each other where their lines are. -/
theorem Placed.apart {lanes : Word} {a : Acc} {n : Nat} {ea : Nat → DWord} (h : Placed s w lanes a .g n n ea spots) (hn : n = 4 ∨ n = 8)
    (hkeys : ∀ p ∈ spots, isRemote p.2 = false ∧ isAp p.2 = false)
    (hlines : ∀ p ∈ spots, ∀ q ∈ spots, p ≠ q → lineOf p.2 ≠ lineOf q.2) : Apart spots n :=
  ⟨hkeys, fun _ hp _ hb => h.inLine hn hp hb, (List.Nodup.of_map _ h.nodup).imp_of_mem fun hp hq hne => hlines _ hp _ hq hne⟩

theorem mem_atomVals {p : Spot} (hp : p ∈ spots) : (p.1, (s.atomAnswer (atomOpOf k e cn w p)).2) ∈ s.atomVals k e cn w spots :=
  List.mem_map.2 ⟨p, hp, rfl⟩

theorem atomVals_fst : (s.atomVals k e cn w spots).map Prod.fst = spots.map Prod.fst := by
  unfold State.atomVals
  rw [List.map_map]
  rfl

/-- The end of a step in which some lanes have performed. -/
def Warp.leftSome (w : Warp) (c : Ctx) (went : Word) (last : Bool) : Warp :=
  ({ (w.setPc went (fun _ => c.next)).setRev went (fun _ => c.next) with
    stage := if last then none else some { kind := 3, lanes := c.en &&& ~~~went, step := 4 } }).advance (c.iss &&& ~~~c.en) c.len

theorem State.leaveSome_eq (s : State) (c : Ctx) (went : Word) (last : Bool) :
    s.leaveSome c went last = s.modWarp c.wid fun w => w.leftSome c went last := State.modWarp_modWarp ..

@[simp] theorem Warp.leftSome_blocked (w : Warp) (c : Ctx) (went : Word) (last : Bool) : (w.leftSome c went last).blocked = w.blocked := rfl
@[simp] theorem Warp.leftSome_stage (w : Warp) (c : Ctx) (went : Word) (last : Bool) :
    (w.leftSome c went last).stage = if last then none else some { kind := 3, lanes := c.en &&& ~~~went, step := 4 } := rfl

theorem SameRegs.leftSome (w : Warp) (c : Ctx) (went : Word) (last : Bool) : SameRegs w (w.leftSome c went last) := ⟨rfl, rfl, rfl⟩

/-- An enabled lane stays at its instruction unless it has performed. -/
theorem Warp.pc_leftSome (w : Warp) (c : Ctx) (went : Word) (last : Bool) {l : Nat} (hl : laneIn c.en l = true) :
    (w.leftSome c went last).pc l = if laneIn went l then c.next else w.pc l := by
  have h32 := laneIn_lt hl
  refine (Warp.pc_advance _ _ _ h32).trans ?_
  rw [laneIn_and, laneIn_not h32, hl, Bool.not_true, Bool.and_false, if_neg Bool.false_ne_true]
  exact Warp.pc_setPc w went (fun _ => c.next) h32

/-- What a lane has taken and stored, as the obligation says it. -/
theorem Stored.answers {t : State} {p : Spot} {w' : Warp} (h : Stored s t (atomOpOf k e cn w p) (s.atomAnswer (atomOpOf k e cn w p)))
    (hx : w'.xn (atomPair k) e.d p.1 = Machine.held (atomPair k) (s.atomAnswer (atomOpOf k e cn w p)).2)
    {r : Option DWord × DWord} (hr : r = atomResult k (s.homeNum p.2 (atomReads k)) (s.versionAt p.2) (atomOpOf k e cn w p).b
      (atomOpOf k e cn w p).c) :
    w'.xn (atomPair k) e.d p.1 = Machine.held (atomPair k) r.2 ∧
      (∀ x, r.1 = some x → t.homeNum p.2 (atomWrites k) = BitVec.ofNat 64 (x.toNat % 256 ^ atomWrites k)) ∧
      (r.1 = none → t.homeNum p.2 (atomWrites k) = s.homeNum p.2 (atomWrites k)) := by
  subst hr
  exact ⟨hx, h.1, h.2⟩

/-- What the lanes of `now` have taken in the warp that performed. -/
theorem xr_takes_vals (u : Warp) {now : List Spot} (hlanes : ∀ p ∈ now, p.1 < 32) {n l : Nat} (hl : l < 32)
    (h : n ∉ regPair (atomPair k) e.d ∨ ∀ p ∈ now, p.1 ≠ l) :
    (u.takes (atomPair k) e.d (s.atomVals k e cn w now)).xr n l = u.xr n l := by
  refine Warp.xr_takes_ne u _ _ hl (fun p hp => ?_) (h.imp id fun h p hp => ?_) <;> obtain ⟨q, hq, rfl⟩ := List.mem_map.1 hp
  · exact hlanes q hq
  · exact h q hq

theorem xn_takes_vals (u : Warp) {now : List Spot} (hn : (now.map Prod.fst).Nodup) (hlanes : ∀ p ∈ now, p.1 < 32) {p : Spot} (hp : p ∈ now) :
    (u.takes (atomPair k) e.d (s.atomVals k e cn w now)).xn (atomPair k) e.d p.1
      = Machine.held (atomPair k) (s.atomAnswer (atomOpOf k e cn w p)).2 := by
  have hnodup : ((s.atomVals k e cn w now).map Prod.fst).Nodup := by
    rw [atomVals_fst]
    exact hn
  have hall : ∀ x ∈ s.atomVals k e cn w now, x.1 < 32 := fun x hx => by
    obtain ⟨q, hq, rfl⟩ := List.mem_map.1 hx
    exact hlanes q hq
  have hx := Warp.xn_takes u (atomPair k) e.d hnodup hall (mem_atomVals hp)
  dsimp only at hx
  rw [hx]

/-- Every enabled lane has performed: what the instruction leaves. -/
theorem Performed.leave {R t : State} (h : Comes f s w S v)
    (hr : Reaches s (issueCtx f s w).en .both .g (atomReads k) (atomReads k) (atmEa e) spots) (hw : s.warp? s.cur = some w)
    (hperf : Performed (fun a => ∃ p ∈ spots, Within p.2 (atomWrites k) a) s R (v.takes (atomPair k) e.d (s.atomVals k e cn w spots)))
    (ht : t = (R.leave (issueCtx f s w)).finish f (issueCtx f s w) w) :
    ∃ w', t.warp? s.cur = some w' ∧ LeftBehind f s w w' ∧ w'.k = w.k ∧ w'.m = w.m ∧
      (∀ p ∈ spots, w'.xn (atomPair k) e.d p.1 = Machine.held (atomPair k) (s.atomAnswer (atomOpOf k e cn w p)).2) ∧
      (∀ n, ∀ l < 32, n ∉ regPair (atomPair k) e.d ∨ laneIn (issueCtx f s w).en l = false → w'.xr n l = w.xr n l) ∧
      SameElsewhere s t ∧ t.mem = R.mem := by
  have hplaced := hr.placed hw
  have hlanes : ∀ p ∈ spots, p.1 < 32 := fun p hp => ((mem_lanesOf _ p.1).1 (hplaced.lanes ▸ List.mem_map_of_mem hp)).1
  obtain ⟨hquiet, hpcv, hk, hm⟩ := v.takes_quiet (atomPair k) e.d (s.atomVals k e cn w spots)
  have hxn := fun p (hp : p ∈ spots) => xn_takes_vals (s := s) (k := k) (e := e) (cn := cn) (w := w) v hplaced.nodup hlanes hp
  have hxr : ∀ n, ∀ l < 32, n ∉ regPair (atomPair k) e.d ∨ laneIn (issueCtx f s w).en l = false →
      (v.takes (atomPair k) e.d (s.atomVals k e cn w spots)).xr n l = v.xr n l := fun n l hl hn =>
    xr_takes_vals v hlanes hl (hn.imp id fun hn p hp e => by
      have hmem : p.1 ∈ lanesOf (issueCtx f s w).en := hplaced.lanes ▸ List.mem_map_of_mem hp
      rw [e, mem_lanesOf, hn] at hmem
      exact Bool.noConfusion hmem.2)
  generalize v.takes (atomPair k) e.d (s.atomVals k e cn w spots) = u at hperf hquiet hpcv hk hm hxn hxr
  have hleave := hperf.modWarp fun u => u.left (issueCtx f s w)
  obtain ⟨w', hw', hleft, hregs, -⟩ := State.leave_finish hleave.warp (hpcv.trans h.poised.pcv) (hquiet.blocked.trans h.poised.blocked)
    fun l hl hn => (by rw [Warp.revOf, hquiet.rev]; exact h.poised.rev l hl hn)
  have hR : t = (R.modWarp s.cur fun u => u.left (issueCtx f s w)).finish f (issueCtx f s w) w := by
    rw [ht, State.leave_eq]
    rfl
  subst hR
  exact ⟨w', hw', hleft, hregs.k.trans (hk.trans h.poised.regs.k), hregs.m.trans (hm.trans h.poised.regs.m), fun p hp =>
    (hregs.xn ..).trans (hxn p hp), fun n l hl hn => by rw [hregs.xr, hxr n l hl hn, h.poised.regs.xr], hleave.toSameElsewhere.finish _ rfl, rfl⟩

/-- One lane has performed, and the others stay at the instruction. -/
theorem Performed.leaveOne {R t : State} {p : Spot} (h : Comes f s w S v) (hp : laneIn (issueCtx f s w).en p.1 = true)
    (hperf : Performed (fun a => ∃ q ∈ [p], Within q.2 (atomWrites k) a) s R (v.takes (atomPair k) e.d (s.atomVals k e cn w [p])))
    (ht : t = (R.leaveSome (issueCtx f s w) (laneBit p.1) false).finish f (issueCtx f s w) w) :
    ∃ w', t.warp? s.cur = some w' ∧ w'.k = w.k ∧ w'.m = w.m ∧
      w'.xn (atomPair k) e.d p.1 = Machine.held (atomPair k) (s.atomAnswer (atomOpOf k e cn w p)).2 ∧
      (∀ n, ∀ l < 32, n ∉ regPair (atomPair k) e.d ∨ l ≠ p.1 → w'.xr n l = w.xr n l) ∧
      (∀ l, laneIn (issueCtx f s w).en l = true → w'.pc l = if l = p.1 then (issueCtx f s w).next else w.pc l) ∧
      w'.stage = some { kind := 3, lanes := (issueCtx f s w).en &&& ~~~laneBit p.1, step := 4 } ∧ SameElsewhere s t ∧ t.mem = R.mem := by
  have hlanes : ∀ q ∈ [p], q.1 < 32 := fun q hq => List.mem_singleton.1 hq ▸ laneIn_lt hp
  obtain ⟨hquiet, hpcv, hk, hm⟩ := v.takes_quiet (atomPair k) e.d (s.atomVals k e cn w [p])
  have hxn := xn_takes_vals (s := s) (k := k) (e := e) (cn := cn) (w := w) (now := [p]) v (List.nodup_singleton p.1) hlanes (List.mem_singleton_self p)
  have hxr : ∀ n, ∀ l < 32, n ∉ regPair (atomPair k) e.d ∨ l ≠ p.1 → (v.takes (atomPair k) e.d (s.atomVals k e cn w [p])).xr n l = v.xr n l :=
    fun n l hl hn => xr_takes_vals v hlanes hl (hn.imp id fun hn q hq e => hn (List.mem_singleton.1 hq ▸ e.symm))
  generalize v.takes (atomPair k) e.d (s.atomVals k e cn w [p]) = u at hperf hquiet hpcv hk hm hxn hxr
  have hleave := hperf.modWarp fun u => u.leftSome (issueCtx f s w) (laneBit p.1) false
  have hend := Warp.finished_same (u.leftSome (issueCtx f s w) (laneBit p.1) false) f (issueCtx f s w) w
  have hregs := (SameRegs.leftSome u (issueCtx f s w) (laneBit p.1) false).trans hend.regs
  have hR : t = (R.modWarp s.cur fun u => u.leftSome (issueCtx f s w) (laneBit p.1) false).finish f (issueCtx f s w) w := by
    rw [ht, State.leaveSome_eq]
    rfl
  subst hR
  refine ⟨_, State.warp?_modWarp_of hleave.warp _, hregs.k.trans (hk.trans h.poised.regs.k), hregs.m.trans (hm.trans h.poised.regs.m),
    (hregs.xn ..).trans hxn, fun n l hl hn => ?_, fun l hl => ?_, hend.stage.trans rfl, hleave.toSameElsewhere.finish _ rfl, rfl⟩
  · rw [hregs.xr, hxr n l hl hn, h.poised.regs.xr]
  · have hfree : laneIn (u.leftSome (issueCtx f s w) (laneBit p.1) false).blockedLanes l = false := by
      rw [blockedLanes_of_blocked ((Warp.leftSome_blocked ..).trans (hquiet.blocked.trans h.poised.blocked))]
      exact Warp.group_unblocked (laneIn_group_of_en hl)
    have hupc : u.pc l = w.pc l := by simp only [Warp.pc, hpcv, h.poised.pcv]
    rw [(Warp.finished_pc _ _ _ _ (laneIn_lt hl) hfree).1, Warp.pc_leftSome _ _ _ _ hl, laneIn_laneBit (laneIn_lt hp) (laneIn_lt hl), hupc]
    simp only [decide_eq_true_eq]

end

/-- Settles O22: behind the commit and the demand, lanes on distinct lines perform as if each were alone; where the steps fall apart the lowest
performs and the others stay at the instruction. -/
theorem atomicsComplete : Obligations.AtomicsComplete := by
  refine ⟨?_, ?_⟩
  · intro i a c s w spots hi hc hq hr he hs h
    subst hc
    obtain ⟨w', hw'⟩ := State.demanding_demands (cost := fun c => 10 * (lanesOf c.en).length)
      (pre := fun c => c.checks .both .g (atomReads a.kind) (atomReads a.kind) (atmEa a.e)) (go := fun c s => c.atomGo a.kind a.e a.c s) hr hq he hs
      (Begins.checks hr.cur ((SameRegs.atIssue w a.form s).atmEa a.e) h) (Nat.mul_ne_zero (by decide) (lanesOf_length_ne he))
    exact ⟨_, w', exec_atomic hi s, hw'⟩
  · intro i a c s w spots hi hc he hg h hrace hkeys
    subst hc
    obtain ⟨T, v, ht, hcomes, hst⟩ := State.demanding_comes (cost := fun c => 10 * (lanesOf c.en).length)
      (pre := fun c => c.checks .both .g (atomReads a.kind) (atomReads a.kind) (atmEa a.e)) (go := fun c s => c.atomGo a.kind a.e a.c s) hg he
      (Nat.mul_ne_zero (by decide) (lanesOf_length_ne he)) rfl (Begins.checks hg.cur ((SameRegs.atIssue w a.form s).atmEa a.e) h)
    have hplaced := h.placed hg.cur
    refine ⟨fun hap hlines => ?_, fun p q r hap hspots => ?_⟩
    · obtain ⟨R, hperf, heach, hgo⟩ := Ctx.atomGo_reaches (k := a.kind) (e := a.e) (cn := a.c) hcomes hg.cur hst hg.disarmed h hrace hkeys
        (State.turnOf_all hap spots) (hplaced.apart (atomReads_size a.kind) hkeys hlines) fun _ hp => hp
      rw [lanesIn_of_fst hplaced.lanes, decide_eq_true (Nat.le_refl _), State.leaveSome_all] at hgo
      obtain ⟨w', hw', hleft, hk, hm, hxn, hxr, helse, hmem⟩ := hperf.leave hcomes h hg.cur (ht.trans (by rw [hgo]))
      refine ⟨_, w', exec_atomic hi s, hw', hleft, hk, hm, fun p hp r hr => ?_, hxr, fun b hb => ?_, helse⟩
      · exact ((heach p hp).of_bytes (hkeys p hp).2 fun _ _ => by rw [hmem]).answers (hxn p hp) hr
      · rw [hmem]
        refine hperf.bytes b ?_
        rintro ⟨p, hp, hin⟩
        exact not_within.2 (hb p hp) hin
    · subst hspots
      have hp : p ∈ p :: q :: r := List.mem_cons_self ..
      have hsub : ∀ x ∈ [p], x ∈ p :: q :: r := fun x hx => List.mem_singleton.1 hx ▸ hp
      have hone : s.turnOf (p :: q :: r) = [p] := by
        rw [State.turnOf, hap]
        rfl
      have hapart : Apart [p] (atomReads a.kind) := ⟨fun x hx => hkeys x (hsub x hx), fun x hx _ hb =>
        hplaced.inLine (atomReads_size a.kind) (hsub x hx) hb, List.pairwise_singleton ..⟩
      have hen : laneIn (issueCtx a.form s w).en p.1 = true := ((mem_lanesOf _ p.1).1 (hplaced.lanes ▸ List.mem_map_of_mem hp)).2
      obtain ⟨R, hperf, heach, hgo⟩ := Ctx.atomGo_reaches (k := a.kind) (e := a.e) (cn := a.c) hcomes hg.cur hst hg.disarmed h hrace hkeys
        hone hapart hsub
      have hbit : lanesIn [p] = laneBit p.1 := BitVec.zero_or
      have hlast : decide ((p :: q :: r).length ≤ [p].length) = false := by simp
      rw [hbit, hlast] at hgo
      obtain ⟨w', hw', hk, hm, hxn, hxr, hpc, hstage, helse, hmem⟩ := hperf.leaveOne hcomes hen (ht.trans (by rw [hgo]))
      obtain ⟨hval, hsome, -⟩ := ((heach p (List.mem_singleton_self p)).of_bytes (hkeys p hp).2 fun _ _ => by rw [hmem]).answers hxn rfl
      refine ⟨_, w', _, exec_atomic hi s, hw', hk, hm, rfl, hval, hsome, hxr, fun b hb => ?_, ?_, fun l hl hne => ?_, hstage, helse⟩
      · rw [hmem]
        refine hperf.bytes b ?_
        rintro ⟨x, hx, hin⟩
        rw [List.mem_singleton.1 hx] at hin
        exact not_within.2 hb hin
      · rw [hpc _ hen, if_pos rfl]
      · rw [hpc _ hl, if_neg hne]

end Sys2Proof.Machine
end


section
/-!
PROOFS. Stores (spec/06 R166, R168, R172): the bytes that lanes put, in the region store buffer, at their homes and in the scratchpad.
Settles O21 of spec/06_isa_memory.md.
-/

namespace Sys2Proof.Machine

open Sys2Proof.Machine.Shape

/-! ### The bytes that lanes put -/

/-- A byte that a lane puts at a key, by its nibbles. -/
structure LanePut where
  lane : Nat
  key : Nat
  val : Byte
  nib : Nat

/-- A byte at a key once these bytes are put. -/
def mergedAt (ps : List LanePut) (k : Nat) (old : Byte) : Byte := ps.foldl (fun v x => if x.key = k then nibMerge v x.val x.nib else v) old

/-- The bytes that one lane puts. -/
def putsOfLane (p : Spot) (bs : List (Byte × Nat)) : List LanePut := bs.zipIdx.map fun b => ⟨p.1, p.2 + b.2, b.1.1, b.1.2⟩

/-- The bytes that lanes put, from the lowest lane. -/
def putsOf (spots : List Spot) (bytes : Nat → List (Byte × Nat)) : List LanePut := spots.flatMap fun p => putsOfLane p (bytes p.1)

theorem mergedAt_append (ps qs : List LanePut) (k : Nat) (old : Byte) : mergedAt (ps ++ qs) k old = mergedAt qs k (mergedAt ps k old) :=
  List.foldl_append

theorem mergedAt_cons (x : LanePut) (r : List LanePut) (k : Nat) (old : Byte) :
    mergedAt (x :: r) k old = mergedAt r k (if x.key = k then nibMerge old x.val x.nib else old) := rfl

theorem mergedAt_outside {ps : List LanePut} {k : Nat} (h : ∀ x ∈ ps, x.key ≠ k) (old : Byte) : mergedAt ps k old = old := by
  induction ps generalizing old with
  | nil => rfl
  | cons x r ih =>
    rw [mergedAt_cons, if_neg (h x (List.mem_cons_self ..))]
    exact ih (fun y hy => h y (List.mem_cons_of_mem _ hy)) old

theorem putsOfLane_within {p : Spot} {bs : List (Byte × Nat)} {x : LanePut} (h : x ∈ putsOfLane p bs) : Within p.2 bs.length x.key := by
  obtain ⟨⟨b, i⟩, hb, rfl⟩ := List.mem_map.1 h
  have hlt := List.snd_lt_of_mem_zipIdx hb
  unfold Within
  dsimp only at hlt ⊢
  omega

theorem putsOf_within {spots : List Spot} {bytes : Nat → List (Byte × Nat)} {n : Nat} (hn : ∀ l, (bytes l).length = n) {x : LanePut}
    (h : x ∈ putsOf spots bytes) : ∃ p ∈ spots, Within p.2 n x.key := by
  obtain ⟨p, hp, hx⟩ := List.mem_flatMap.1 h
  exact ⟨p, hp, hn p.1 ▸ putsOfLane_within hx⟩

/-- A byte of one lane, which puts each of its bytes at a key of its own. -/
theorem mergedAt_lane (p : Spot) (bs : List (Byte × Nat)) {j : Nat} {b : Byte × Nat} (hb : bs[j]? = some b) (old : Byte) :
    mergedAt (putsOfLane p bs) (p.2 + j) old = nibMerge old b.1 b.2 := by
  have hj := (List.getElem?_eq_some_iff.1 hb).1
  have hsplit : bs = bs.take j ++ b :: bs.drop (j + 1) := by
    have hget : bs[j] = b := (List.getElem?_eq_some_iff.1 hb).2
    rw [← hget, List.getElem_cons_drop, List.take_append_drop]
  have hlen : (bs.take j).length = j := List.length_take_of_le (Nat.le_of_lt hj)
  have hputs : putsOfLane p bs = putsOfLane p (bs.take j) ++ (⟨p.1, p.2 + j, b.1, b.2⟩ ::
      ((bs.drop (j + 1)).zipIdx (j + 1)).map fun c => ⟨p.1, p.2 + c.2, c.1.1, c.1.2⟩) := by
    conv_lhs => rw [hsplit]
    rw [putsOfLane, List.zipIdx_append, List.map_append, hlen, Nat.zero_add, List.zipIdx_cons, List.map_cons]
    rfl
  have hbefore : ∀ x ∈ putsOfLane p (bs.take j), x.key ≠ p.2 + j := fun x hx => by
    have hin := putsOfLane_within hx
    unfold Within at hin
    omega
  have hafter : ∀ x ∈ ((bs.drop (j + 1)).zipIdx (j + 1)).map fun c => (⟨p.1, p.2 + c.2, c.1.1, c.1.2⟩ : LanePut), x.key ≠ p.2 + j := fun x hx => by
    obtain ⟨c, hc, rfl⟩ := List.mem_map.1 hx
    have := List.le_snd_of_mem_zipIdx hc
    dsimp only
    omega
  have hhere : mergedAt (⟨p.1, p.2 + j, b.1, b.2⟩ :: ((bs.drop (j + 1)).zipIdx (j + 1)).map fun c => (⟨p.1, p.2 + c.2, c.1.1, c.1.2⟩ : LanePut))
      (p.2 + j) old = mergedAt (((bs.drop (j + 1)).zipIdx (j + 1)).map fun c => ⟨p.1, p.2 + c.2, c.1.1, c.1.2⟩) (p.2 + j) (nibMerge old b.1 b.2) :=
    (mergedAt_cons ..).trans (by rw [if_pos rfl])
  rw [hputs, mergedAt_append, mergedAt_outside hbefore, hhere, mergedAt_outside hafter]

/-- A byte of a lane that no other lane's bytes overlap. -/
theorem mergedAt_puts {spots : List Spot} {bytes : Nat → List (Byte × Nat)} {n : Nat} (hn : ∀ l, (bytes l).length = n)
    (hnodup : (spots.map Prod.fst).Nodup) {p : Spot} (hp : p ∈ spots) (hq : ∀ q ∈ spots, q ≠ p → q.2 + n ≤ p.2 ∨ p.2 + n ≤ q.2) {j : Nat}
    {b : Byte × Nat} (hb : (bytes p.1)[j]? = some b) (old : Byte) : mergedAt (putsOf spots bytes) (p.2 + j) old = nibMerge old b.1 b.2 := by
  obtain ⟨xs, ys, rfl⟩ := List.append_of_mem hp
  have hj : j < n := hn p.1 ▸ (List.getElem?_eq_some_iff.1 hb).1
  have hspots : (xs ++ p :: ys).Nodup := List.Nodup.of_map _ hnodup
  have hne : ∀ q, q ∈ xs ∨ q ∈ ys → q ≠ p := by
    rintro q hmem rfl
    rw [List.nodup_middle] at hspots
    exact (List.nodup_cons.1 hspots).1 (List.mem_append.2 hmem)
  have hout : ∀ zs : List Spot, (∀ q ∈ zs, q ∈ xs ∨ q ∈ ys) → ∀ x ∈ putsOf zs bytes, x.key ≠ p.2 + j := by
    intro zs hzs x hx
    obtain ⟨q, hqz, hin⟩ := putsOf_within hn hx
    have hmem : q ∈ xs ++ p :: ys := List.mem_append.2 ((hzs q hqz).imp id (List.mem_cons_of_mem _))
    have := hq q hmem (hne q (hzs q hqz))
    unfold Within at hin
    omega
  have hsplit : putsOf (xs ++ p :: ys) bytes = putsOf xs bytes ++ (putsOfLane p (bytes p.1) ++ putsOf ys bytes) := by
    unfold putsOf
    rw [List.flatMap_append, List.flatMap_cons]
  rw [hsplit, mergedAt_append, mergedAt_append, mergedAt_outside (hout xs fun _ => .inl), mergedAt_lane p _ hb,
    mergedAt_outside (hout ys fun _ => .inr)]

/-- Every state, or warp, that takes bytes one by one takes those of all the lanes. -/
theorem foldl_putsOf {α : Type} (f : α → LanePut → α) (spots : List Spot) (bytes : Nat → List (Byte × Nat)) (z : α) :
    (putsOf spots bytes).foldl f z = spots.foldl (fun z p => (bytes p.1).zipIdx.foldl (fun z b => f z ⟨p.1, p.2 + b.2, b.1.1, b.1.2⟩) z) z := by
  rw [putsOf, List.foldl_flatMap]
  simp only [putsOfLane, List.foldl_map]

/-! ### In the region store buffer (R166) -/

theorem nibMerge_zero (old new : Byte) : nibMerge old new 0 = old := by
  have hz : nibMask 0 = 0#8 := by decide
  have hall : ~~~(0#8 : Byte) = BitVec.allOnes 8 := by decide
  rw [nibMerge, hz, hall, BitVec.and_allOnes, BitVec.and_zero, BitVec.or_zero]

/-- The warp that holds these bytes as well. -/
def Warp.holdPut (sp : Spc) (w : Warp) (x : LanePut) : Warp := w.holdByte sp x.key x.lane x.val x.nib

/-- Whatever it holds of a byte, a held operation leaves the nibbles that a new store takes over. -/
def Warp.seen (sp : Spc) (key : Nat) (v : Byte) (h : Held) : Byte :=
  match h with
  | .byte p k _ val nib => if p = sp ∧ k = key then nibMerge v val nib else v
  | .ap k _ n val nibs =>
    if sp = .g ∧ k ≤ key ∧ key < k + n then nibMerge v (BitVec.ofNat 8 (val / 256 ^ (key - k))) (nibs / 4 ^ (key - k) % 4) else v
  | .red .. => v

theorem Warp.forward_eq (w : Warp) (sp : Spc) (key : Nat) (old : Byte) : w.forward sp key old = w.rsb.foldl (Warp.seen sp key) old := rfl

/-- Two bytes that agree in the nibbles which a store leaves. -/
def Beside (nib : Nat) (a b : Byte) : Prop := a &&& ~~~nibMask nib = b &&& ~~~nibMask nib

theorem Beside.merge {nib : Nat} {a b : Byte} (h : Beside nib a b) (new : Byte) : nibMerge a new nib = nibMerge b new nib := by
  unfold nibMerge
  rw [h]

theorem Beside.nibMerge {nib : Nat} {a b : Byte} (h : Beside nib a b) (new : Byte) (n : Nat) :
    Beside nib (Machine.nibMerge a new n) (Machine.nibMerge b new n) := by
  have hbit : ∀ i < 8, (a.getLsbD i && !(nibMask nib).getLsbD i) = (b.getLsbD i && !(nibMask nib).getLsbD i) := fun i hi => by
    have hi' := congrArg (fun x : Byte => x.getLsbD i) h
    simpa [hi] using hi'
  refine BitVec.eq_of_getLsbD_eq fun i hi => ?_
  have hi' := hbit i hi
  simp only [Machine.nibMerge, BitVec.getLsbD_and, BitVec.getLsbD_or, BitVec.getLsbD_not, hi, decide_true, Bool.true_and]
  generalize a.getLsbD i = p, b.getLsbD i = q, (nibMask nib).getLsbD i = m at hi' ⊢
  cases m
  · simp only [Bool.not_false, Bool.and_true] at hi'
    rw [hi']
  · simp

/-- What a store of these nibbles leaves of the nibbles of another lane. -/
theorem nibMask_left (n nib : Nat) :
    nibMask ((if n % 2 = 1 ∧ nib % 2 = 0 then 1 else 0) + (if n / 2 % 2 = 1 ∧ nib / 2 % 2 = 0 then 2 else 0))
      = nibMask n &&& ~~~nibMask nib := by
  rcases Nat.mod_two_eq_zero_or_one n with h1 | h1 <;> rcases Nat.mod_two_eq_zero_or_one (n / 2) with h2 | h2 <;>
    rcases Nat.mod_two_eq_zero_or_one nib with h3 | h3 <;> rcases Nat.mod_two_eq_zero_or_one (nib / 2) with h4 | h4 <;>
    simp only [nibMask, h1, h2, h3, h4] <;> decide

theorem Beside.left (v val : Byte) (n nib : Nat) :
    Beside nib (Machine.nibMerge v val ((if n % 2 = 1 ∧ nib % 2 = 0 then 1 else 0) + (if n / 2 % 2 = 1 ∧ nib / 2 % 2 = 0 then 2 else 0)))
      (Machine.nibMerge v val n) := by
  unfold Beside Machine.nibMerge
  rw [nibMask_left]
  refine BitVec.eq_of_getLsbD_eq fun i hi => ?_
  simp only [BitVec.getLsbD_and, BitVec.getLsbD_or, BitVec.getLsbD_not, hi, decide_true, Bool.true_and]
  cases (nibMask nib).getLsbD i <;> simp

variable {sp : Spc} {key lane nib : Nat}

theorem Warp.supersede_byte (p : Spc) (k l : Nat) (v : Byte) (n : Nat) :
    Warp.supersede sp key lane nib (.byte p k l v n) = if p = sp ∧ k = key ∧ l ≠ lane then
      .byte p k l v ((if n % 2 = 1 ∧ nib % 2 = 0 then 1 else 0) + (if n / 2 % 2 = 1 ∧ nib / 2 % 2 = 0 then 2 else 0)) else .byte p k l v n := rfl

theorem Warp.seen_byte (a : Byte) (p : Spc) (k l : Nat) (v : Byte) (n : Nat) :
    Warp.seen sp key a (.byte p k l v n) = if p = sp ∧ k = key then Machine.nibMerge a v n else a := rfl

theorem Beside.seen {a b : Byte} (h : Beside nib a b) (x : Held) : Beside nib (Warp.seen sp key a x) (Warp.seen sp key b x) := by
  unfold Warp.seen
  cases x with
  | red k l op arg => exact h
  | byte p k l v n | ap k l n v nibs =>
    dsimp only
    split
    · exact h.nibMerge _ _
    · exact h

/-- Superseded, an operation shows the same in the other nibbles of the byte, and of other bytes. -/
theorem Warp.seen_supersede_self {a b : Byte} (h : Beside nib a b) (x : Held) :
    Beside nib (Warp.seen sp key a (Warp.supersede sp key lane nib x)) (Warp.seen sp key b x) := by
  cases x with
  | byte p k l v n =>
    rw [Warp.supersede_byte]
    by_cases hc : p = sp ∧ k = key ∧ l ≠ lane
    · have hself : p = sp ∧ k = key := ⟨hc.1, hc.2.1⟩
      rw [if_pos hc, Warp.seen_byte, Warp.seen_byte, if_pos hself, if_pos hself]
      exact (Beside.left a v n nib).trans (h.nibMerge v n)
    · rw [if_neg hc]
      exact h.seen _
  | ap k l n v nibs => exact h.seen (.ap k l n v nibs)
  | red k l op arg => exact h

theorem Warp.seen_supersede_ne {k : Nat} (hk : key ≠ k) (a : Byte) (x : Held) :
    Warp.seen sp k a (Warp.supersede sp key lane nib x) = Warp.seen sp k a x := by
  cases x with
  | byte p j l v n =>
    rw [Warp.supersede_byte]
    by_cases hc : p = sp ∧ j = key ∧ l ≠ lane
    · have hne : ¬ (p = sp ∧ j = k) := fun e => hk (hc.2.1.symm.trans e.2)
      rw [if_pos hc, Warp.seen_byte, Warp.seen_byte, if_neg hne, if_neg hne]
    · rw [if_neg hc]
  | ap j l n v nibs => rfl
  | red j l op arg => rfl

/-- What a warp's loads see of a byte once it holds one more (R166). -/
theorem Warp.forward_holdPut (w : Warp) (x : LanePut) (k : Nat) (old : Byte) :
    (w.holdPut sp x).forward sp k old = if x.key = k then Machine.nibMerge (w.forward sp k old) x.val x.nib else w.forward sp k old := by
  have hfold : (w.holdPut sp x).forward sp k old
      = Warp.seen sp k ((w.rsb.map (Warp.supersede sp x.key x.lane x.nib)).foldl (Warp.seen sp k) old) (.byte sp x.key x.lane x.val x.nib) := by
    rw [Warp.forward_eq, Warp.holdPut, Warp.holdByte, List.foldl_append]
    rfl
  rw [hfold, Warp.forward_eq, List.foldl_map]
  by_cases hk : x.key = k
  · have hbeside : ∀ (hs : List Held) (a b : Byte), Beside x.nib a b → Beside x.nib
        (hs.foldl (fun v h => Warp.seen sp k v (Warp.supersede sp x.key x.lane x.nib h)) a) (hs.foldl (Warp.seen sp k) b) := by
      intro hs
      induction hs with
      | nil => exact fun _ _ h => h
      | cons h r ih => exact fun a b hab => ih _ _ (hk ▸ Warp.seen_supersede_self hab h)
    rw [if_pos hk]
    exact (if_pos ⟨rfl, hk⟩).trans ((hbeside w.rsb old old rfl).merge x.val)
  · rw [if_neg hk]
    refine (if_neg fun e => hk e.2).trans ?_
    congr 1
    funext v h
    exact Warp.seen_supersede_ne hk v h

/-- The warp with this buffer. -/
def Warp.withRsb (u : Warp) (hs : List Held) : Warp := { u with rsb := hs }

/-- A change of a warp's buffer alone, by what it holds. -/
def OnRsb (g : Warp → Warp) : Prop := ∃ F : List Held → List Held, ∀ u, g u = u.withRsb (F u.rsb)

theorem OnRsb.foldl {α : Type} {f : Warp → α → Warp} (h : ∀ x, OnRsb fun u => f u x) (xs : List α) : OnRsb fun u => xs.foldl f u := by
  induction xs with
  | nil => exact ⟨id, fun _ => rfl⟩
  | cons x r ih =>
    obtain ⟨F, hF⟩ := h x
    obtain ⟨G, hG⟩ := ih
    have hcons : ∀ u, (x :: r).foldl f u = r.foldl f (f u x) := fun _ => rfl
    refine ⟨fun hs => G (F hs), fun u => ?_⟩
    have hx : f u x = u.withRsb (F u.rsb) := hF u
    have hr : r.foldl f (u.withRsb (F u.rsb)) = (u.withRsb (F u.rsb)).withRsb (G (F u.rsb)) := hG _
    dsimp only
    rw [hcons, hx, hr]
    rfl

theorem OnRsb.holdAll (sp : Spc) (spots : List Spot) (bytes : Nat → List (Byte × Nat)) : OnRsb fun u => u.holdAll sp spots bytes := by
  refine OnRsb.foldl (fun p => ?_) spots
  by_cases hc : sp = .g ∧ isAp p.2
  · simp only [if_pos hc]
    exact ⟨fun hs => hs ++ [.ap p.2 p.1 (bytes p.1).length (storeNum (bytes p.1)) (storeNibs (bytes p.1))], fun u => rfl⟩
  · simp only [if_neg hc]
    exact OnRsb.foldl (f := fun (u : Warp) (b : (Byte × Nat) × Nat) => u.holdByte sp (p.2 + b.2) p.1 b.1.1 b.1.2)
      (fun b => ⟨fun hs => hs.map (Warp.supersede sp (p.2 + b.2) p.1 b.1.2) ++ [.byte sp (p.2 + b.2) p.1 b.1.1 b.1.2], fun u => rfl⟩) _

theorem Warp.holdAll_rsb (sp : Spc) (spots : List Spot) (bytes : Nat → List (Byte × Nat)) :
    ∃ F : List Held → List Held, ∀ u : Warp, u.holdAll sp spots bytes = u.withRsb (F u.rsb) := OnRsb.holdAll sp spots bytes

theorem Warp.holdAll_puts (w : Warp) {spots : List Spot} {bytes : Nat → List (Byte × Nat)} (h : sp = .g → ∀ p ∈ spots, isAp p.2 = false) :
    w.holdAll sp spots bytes = (putsOf spots bytes).foldl (Warp.holdPut sp) w := by
  rw [foldl_putsOf, Warp.holdAll]
  refine List.foldl_ext _ _ _ fun u p hp => ?_
  have hc : ¬ (sp = .g ∧ isAp p.2 = true) := fun hc => by rw [h hc.1 p hp] at hc; exact Bool.noConfusion hc.2
  rw [if_neg hc]
  rfl

theorem Warp.forward_holdPuts (w : Warp) (ps : List LanePut) (k : Nat) (old : Byte) :
    (ps.foldl (Warp.holdPut sp) w).forward sp k old = mergedAt ps k (w.forward sp k old) := by
  induction ps generalizing w with
  | nil => rfl
  | cons x r ih => rw [List.foldl_cons, ih, Warp.forward_holdPut, mergedAt_cons]

/-! ### The shape of a store -/

theorem storeBytes_length (t : MemW) (high : Bool) (v : DWord) : (storeBytes t high v).length = memBytes t := by
  cases t <;> simp [storeBytes, memBytes]

theorem memBytes_pos (t : MemW) : 0 < memBytes t := by cases t <;> decide

/-- The addresses and bytes of a store, from the registers of its warp. -/
structure StoresBy (v : StoreShape) : Prop where
  length : ∀ w l, (v.bytes w l).length = memBytes v.width
  ea : ∀ w u, SameRegs w u → v.ea u = v.ea w
  bytes : ∀ w u, SameRegs w u → v.bytes u = v.bytes w

theorem storesBy {i : Instr} {v : StoreShape} (h : stores i = some v) : StoresBy v := by
  unfold stores at h
  split at h
  · obtain rfl := Option.some.inj h
    exact ⟨fun _ _ => storeBytes_length .., fun w u hu => by simp only [hu.xn], fun w u hu => by simp only [hu.xn]⟩
  · next t _ _ _ e =>
    obtain rfl := Option.some.inj h
    refine ⟨fun _ _ => storeBytes_length .., fun w u hu => hu.storeEa .., fun w u hu => ?_⟩
    have hhigh : ∀ l, storeHigh t e u l = storeHigh t e w l := fun l => by simp only [storeHigh, hu.xr]
    simp only [hhigh, hu.xn]
  · nomatch h

/-! ### A store without ordering (R166, R172) -/

section
variable {s : State} {f : Form} {w : Warp} {n : Nat} {v : StoreShape} {spots : List Spot}

/-- The effect of a store that is held: reads, and its bytes in the buffer. -/
theorem Ctx.store_reaches (hv : StoresBy v) (hr : Ready f n s w)
    (h : Reaches s (issueCtx f s w).en .write v.sp (memBytes v.width) (memBytes v.width) v.ea spots)
    (hrace : s.raceTrap s.cur v.sp spots (memBytes v.width) true v.ea = none)
    (hroom : (w.holdAll v.sp spots (v.bytes w)).overflows (issueCtx f s w).en = false) :
    ∃ S, ReadLeft (s.begun f n w) S ∧ (issueCtx f s w).store v.width v.sp v.ea v.bytes (s.begun f n w)
      = S.modWarp s.cur fun u => ((u.holdAll v.sp spots (v.bytes u)).heldFrom spots v.ea).advance w.group f.len := by
  have hw := State.begun_warp (n := n) (f := f) hr.cur
  have harmed : (s.begun f n w).ap! offInjMask = 0 := (State.ap!_of_ap Stood.begun.ap _).trans hr.disarmed
  have hregs := SameRegs.atIssue w f s
  have hused := ReadLeft.used harmed (issueCtx f s w) v.sp v.ea
  obtain ⟨F, hF⟩ := Warp.holdAll_rsb v.sp spots (v.bytes w)
  have hroom' : ((w.atIssue f s).holdAll v.sp spots (v.bytes (w.atIssue f s))).overflows (issueCtx f s w).en = false := by
    rw [← hroom, hv.bytes _ _ hregs, hF, hF]
    rfl
  refine ⟨_, hused.trans (.mark (hused.disarmed harmed) s.cur v.sp spots (memBytes v.width) true), ?_⟩
  rw [Ctx.store, issueCtx_wid, State.withWarp_of hw]
  dsimp only
  rw [State.reach_begun hr.cur (hv.ea _ _ hregs), h.found]
  dsimp only
  refine (if_neg (Bool.eq_false_iff.1 hroom')).trans ?_
  rw [h.clears hr.cur (hv.ea _ _ hregs) hrace]
  rfl

/-- A store that is held: what it leaves. -/
theorem State.issue_store {body : Ctx → State → State} (hv : StoresBy v) (hr : Ready f (6 * (linesNamed (issueCtx f s w).en (v.ea w)).length) s w)
    (he : (issueCtx f s w).en ≠ 0)
    (h : Reaches s (issueCtx f s w).en .write v.sp (memBytes v.width) (memBytes v.width) v.ea spots)
    (hrace : s.raceTrap s.cur v.sp spots (memBytes v.width) true v.ea = none)
    (hroom : (w.holdAll v.sp spots (v.bytes w)).overflows (issueCtx f s w).en = false)
    (hbody : ∀ c s, body c s = c.store v.width v.sp v.ea v.bytes s) :
    ∃ w', Holding f s (s.issue f (fun _ _ => true) (lineSteps 6 v.ea) body) w (w.holdAll v.sp spots (v.bytes w)).rsb w' := by
  obtain ⟨S, hS, heffect⟩ := Ctx.store_reaches hv hr h hrace hroom
  obtain ⟨F, hF⟩ := Warp.holdAll_rsb v.sp spots (v.bytes w)
  refine State.issue_holds (rsb := (w.holdAll v.sp spots (v.bytes w)).rsb)
    (src := (((w.atIssue f s).holdAll v.sp spots (v.bytes w)).heldFrom spots v.ea).heldAt) hr (lineSteps_of hr.cur ..) he hS ((hbody _ _).trans heffect) ?_
  rw [hv.bytes _ _ (SameRegs.atIssue w f s), hF, hF]
  rfl

end

/-! ### A released store at its homes (R168, R172, R173) -/

section
variable {s S : State} {spots : List Spot} {bytes : Nat → List (Byte × Nat)} {n : Nat}

/-- A byte put at its home. -/
def State.putAt (core : Option Nat) (s : State) (x : LanePut) : State := s.poke core x.key x.val x.nib

theorem State.byte_puts (core : Option Nat) (ps : List LanePut) (s : State) (k : Nat) :
    (ps.foldl (State.putAt core) s).mem.byte k = mergedAt ps k (s.mem.byte k) := by
  induction ps generalizing s with
  | nil => rfl
  | cons x r ih =>
    rw [List.foldl_cons, ih, State.putAt, State.byte_poke, mergedAt_cons]
    by_cases hk : x.key = k
    · rw [if_pos hk, if_pos hk.symm, hk]
    · rw [if_neg hk, if_neg fun e => hk e.symm]

theorem HomesLeft.puts {K : Nat → Prop} (core : Option Nat) {ps : List LanePut} (h : ∀ x ∈ ps, K x.key) (s : State) :
    HomesLeft K s (ps.foldl (State.putAt core) s) := by
  induction ps generalizing s with
  | nil => exact .refl K s
  | cons x r ih =>
    exact (HomesLeft.poke s core x.val x.nib (h x (List.mem_cons_self ..))).trans (ih (fun y hy => h y (List.mem_cons_of_mem _ hy)) _)

/-- The end of a write of several lines. -/
def State.sealed (s : State) (owner : Nat) (lines : List Nat) : State := s.modMem fun m => lines.foldl (fun m l => m.sealLine (some owner) l) m

theorem HomesLeft.sealed {K : Nat → Prop} {lines : List Nat} (h : ∀ l ∈ lines, ∃ key, K key ∧ lineOf key = l) (owner : Nat) (s : State) :
    HomesLeft K s (s.sealed owner lines) := by
  induction lines generalizing s with
  | nil => exact .refl K s
  | cons l r ih =>
    obtain ⟨key, hk, rfl⟩ := h l (List.mem_cons_self ..)
    exact (HomesLeft.sealLine s (some owner) hk).trans (ih (fun y hy => h y (List.mem_cons_of_mem _ hy)) _)

theorem ReadLeft.heal (s : State) (keys : List Nat) : ReadLeft s (s.modMem fun m => m.heal keys) := by
  have hheal : (s.mem.heal keys).bytes = s.mem.bytes ∧ (s.mem.heal keys).ver = s.mem.ver := by
    unfold Mem.heal
    split <;> exact ⟨rfl, rfl⟩
  exact .modMem s _ hheal.1 hheal.2

/-- The lines that a store at its homes writes. -/
def storeLines (spots : List Spot) : List Nat := distinct ((spots.filter (fun p => !isAp p.2)).map fun p => lineOf p.2)

/-- The end of a store at its homes: words written whole are healed, and each line takes its version step (R173, R407). -/
def State.storeEnd (s : State) (core owner : Nat) (spots : List Spot) (bytes : Nat → List (Byte × Nat)) : State :=
  (storeLines spots).foldl (fun s l => s.homeLine core l)
    ((s.modMem fun m => m.heal (spots.flatMap fun p => (List.range (bytes p.1).length).map (p.2 + ·))).sealed owner (storeLines spots))

theorem State.storeDirect_puts (hap : ∀ p ∈ spots, isAp p.2 = false) (core blk owner : Nat) :
    s.storeDirect core blk owner .g spots bytes = ((putsOf spots bytes).foldl (State.putAt (regCore core)) s).storeEnd core owner spots bytes := by
  have hputs : spots.foldl (fun s p =>
      if isAp p.2 then s.apWrite (.svc (svcOf core)) (p.2 - keyAp 0) (bytes p.1).length (storeNum (bytes p.1)) (storeNibs (bytes p.1))
      else ((bytes p.1).zipIdx).foldl (fun s b => s.poke (regCore core) (p.2 + b.2) b.1.1 b.1.2) s) s
      = (putsOf spots bytes).foldl (State.putAt (regCore core)) s := by
    rw [foldl_putsOf]
    refine List.foldl_ext _ _ _ fun u p hp => ?_
    rw [hap p hp, if_neg Bool.false_ne_true]
    rfl
  rw [← hputs]
  rfl

theorem storeLines_within (hpos : 0 < n) {l : Nat} (hl : l ∈ storeLines spots) : ∃ key, (∃ p ∈ spots, Within p.2 n key) ∧ lineOf key = l := by
  obtain ⟨p, hp, rfl⟩ := List.mem_map.1 (mem_distinct.1 hl)
  exact ⟨p.2, ⟨p, (List.mem_filter.1 hp).1, Nat.le_refl _, Nat.lt_add_of_pos_right hpos⟩, rfl⟩

/-- The lanes' bytes stand at their homes, and nothing else is written. -/
theorem State.storeDirect_homes (hs : s.ap! offInjMask = 0) (hap : ∀ p ∈ spots, isAp p.2 = false) (hn : ∀ l, (bytes l).length = n) (hpos : 0 < n)
    (core blk owner : Nat) :
    HomesLeft (fun a => ∃ p ∈ spots, Within p.2 n a) s (s.storeDirect core blk owner .g spots bytes) ∧
      ∀ k, (s.storeDirect core blk owner .g spots bytes).mem.byte k = mergedAt (putsOf spots bytes) k (s.mem.byte k) := by
  rw [State.storeDirect_puts hap, State.storeEnd]
  have hpoked := HomesLeft.puts (K := fun a => ∃ p ∈ spots, Within p.2 n a) (regCore core)
    (fun x hx => putsOf_within (bytes := bytes) hn hx) s
  have hheal := ReadLeft.heal ((putsOf spots bytes).foldl (State.putAt (regCore core)) s)
    (spots.flatMap fun p => (List.range (bytes p.1).length).map (p.2 + ·))
  have hsealed := (hpoked.read hheal).trans (.sealed (lines := storeLines spots) (fun _ hl => storeLines_within hpos hl) owner _)
  have hhome := ReadLeft.foldl (f := fun s l => s.homeLine core l) (fun _ l hs => .homeLine hs core l) (storeLines spots) (hsealed.disarmed hs)
  refine ⟨hsealed.read hhome, fun k => (hhome.sameBytes k).trans ?_⟩
  exact (Mem.byte_of_bytes (Mem.foldl_sealLine_bytes ..) k).trans ((hheal.sameBytes k).trans (State.byte_puts ..))

end

/-! ### A released store in the scratchpad (R172, R262) -/

section
variable {s : State} {blk : Nat}

/-- A byte put in the scratchpad. -/
def State.padAt (blk : Nat) (s : State) (x : LanePut) : State := s.spadPut blk x.key (nibMerge (s.spadByte blk x.key) x.val x.nib)

/-- What bytes put in the scratchpad of a block leave. -/
structure PadLeft (blk : Nat) (s t : State) : Prop where
  mem : t.mem = s.mem
  warps : t.warps = s.warps
  ap : t.ap = s.ap
  grids : t.grids = s.grids
  dev : t.dev = s.dev
  others : ∀ k, k ≠ blk → t.block? k = s.block? k

theorem PadLeft.puts (blk : Nat) (ps : List LanePut) (s : State) : PadLeft blk s (ps.foldl (State.padAt blk) s) := by
  induction ps generalizing s with
  | nil => exact ⟨rfl, rfl, rfl, rfl, rfl, fun _ _ => rfl⟩
  | cons x r ih =>
    obtain ⟨hmem, hwarps, hap, hgrids, hdev, hothers⟩ := ih (State.padAt blk s x)
    exact ⟨hmem, hwarps, hap, hgrids, hdev, fun k hk => (hothers k hk).trans ((State.block?_modBlock ..).trans (if_neg hk))⟩

theorem State.spadByte_padAt {b : Block} (hb : s.block? blk = some b) (x : LanePut) (k : Nat) :
    (State.padAt blk s x).spadByte blk k = if x.key = k then nibMerge (s.spadByte blk k) x.val x.nib else s.spadByte blk k := by
  have hblock : (State.padAt blk s x).block? blk
      = some { b with spad := Tab.put 0 b.spad x.key (nibMerge (s.spadByte blk x.key) x.val x.nib) } := by
    rw [State.padAt, State.spadPut, State.block?_modBlock, if_pos rfl, hb]
    rfl
  have hbyte : s.spadByte blk k = Tab.get b.spad 0 k := by simp only [State.spadByte, hb]
  have hget : (State.padAt blk s x).spadByte blk k = Tab.get (Tab.put 0 b.spad x.key (nibMerge (s.spadByte blk x.key) x.val x.nib)) 0 k := by
    simp only [State.spadByte, hblock]
  rw [hget, Tab.get_put]
  by_cases hk : x.key = k
  · rw [if_pos hk, if_pos hk.symm, hk]
  · rw [if_neg hk, if_neg fun e => hk e.symm, hbyte]

theorem State.spadByte_puts {b : Block} (ps : List LanePut) (hb : s.block? blk = some b) (k : Nat) :
    (ps.foldl (State.padAt blk) s).spadByte blk k = mergedAt ps k (s.spadByte blk k) := by
  induction ps generalizing s b with
  | nil => rfl
  | cons x r ih =>
    have hb' : (State.padAt blk s x).block? blk = some { b with spad := Tab.put 0 b.spad x.key (nibMerge (s.spadByte blk x.key) x.val x.nib) } := by
      rw [State.padAt, State.spadPut, State.block?_modBlock, if_pos rfl, hb]
      rfl
    rw [List.foldl_cons, ih hb', State.spadByte_padAt hb, mergedAt_cons]

theorem State.storeDirect_pad (s : State) (core blk owner : Nat) (spots : List Spot) (bytes : Nat → List (Byte × Nat)) :
    s.storeDirect core blk owner .s spots bytes = (putsOf spots bytes).foldl (State.padAt blk) s := by
  rw [foldl_putsOf]
  rfl

end

/-! ### The instruction (R168) -/

section
variable {s T t : State} {f : Form} {w : Warp} {v : StoreShape} {spots : List Spot}

theorem Warp.keepsCommit_left (u : Warp) (c : Ctx) : KeepsCommit u (u.left c) :=
  KeepsCommit.left ⟨⟨rfl, rfl, rfl⟩, rfl, rfl, rfl, rfl, rfl, rfl, rfl, rfl, rfl, rfl, rfl⟩

/-- The lanes of a clean commit point leave their instruction. -/
theorem State.left_commits (hT : T.warp? s.cur = some (w.atCommit f s)) (ht : t = (T.leave (issueCtx f s w)).finish f (issueCtx f s w) w) :
    ∃ w', t.warp? s.cur = some w' ∧ Committed f s w w' ∧ LeftBehind f s w w' ∧ (∀ k, k ≠ s.cur → t.warp? k = T.warp? k) ∧ t.ap = T.ap ∧
      t.grids = T.grids ∧ t.dev = T.dev ∧ t.blocks = T.blocks ∧ t.mem = T.mem ∧ (w.blocked = [] → w'.blocked = []) := by
  have hleave : (T.modWarp s.cur fun u => u.left (issueCtx f s w)).warp? s.cur = some ((w.atCommit f s).left (issueCtx f s w)) :=
    State.warp?_modWarp_of hT _
  have hend := Warp.finished_same ((w.atCommit f s).left (issueCtx f s w)) f (issueCtx f s w) w
  obtain ⟨w', hw', hleft, -, -, hnone⟩ := State.leave_finish (f := f) (w := w) (T := T.modWarp s.cur fun u => u.left (issueCtx f s w)) hleave
    (Warp.atCommit_pcv ..) (Warp.atCommit_blocked ..) (Poised.atCommit w f s).rev
  have ht' : t = (T.modWarp s.cur fun u => u.left (issueCtx f s w)).finish f (issueCtx f s w) w := by
    rw [ht, State.leave_eq]
    rfl
  subst ht'
  have hwarp := hw'.symm.trans (State.warp?_modWarp_of hleave _)
  refine ⟨w', hw', ?_, hleft, fun k hk => ?_, rfl, rfl, rfl, rfl, rfl, hnone⟩
  · rw [Option.some.inj hwarp]
    exact KeepsCommit.committed (Warp.keepsCommit_left (w.atCommit f s) (issueCtx f s w)) hend
  · exact (State.warp?_modWarp ..).trans ((if_neg hk).trans ((State.warp?_modWarp ..).trans (if_neg hk)))

/-- The access of a `st.rel`. -/
def Ctx.storeGo (c : Ctx) (v : StoreShape) (s : State) : State :=
  s.withWarp c.wid fun w => c.direct .put v.sp (memBytes v.width) (memBytes v.width) true v.ea
    (fun spots s => (s.storeDirect c.core w.blk (ownerOf c.core w.ctx) v.sp spots (v.bytes w)).leave c) s

/-- A `st.rel` that reaches its bytes stores them, and leaves. -/
theorem State.issue_storeRel {body : Ctx → State → State} (hv : StoresBy v)
    (hr : Ready f (6 * (linesNamed (issueCtx f s w).en (v.ea w)).length) s w) (hc : CommitsEmpty s w) (he : (issueCtx f s w).en ≠ 0)
    (h : Reaches s (issueCtx f s w).en .put v.sp (memBytes v.width) (memBytes v.width) v.ea spots)
    (hrace : s.raceTrap s.cur v.sp spots (memBytes v.width) true v.ea = none)
    (hbody : ∀ c s, body c s = c.storeRel v.width v.sp v.ea v.bytes s) :
    ∃ S, Begins s S (w.atCommit f s) ∧ s.issue f (fun _ _ => true) (lineSteps 6 v.ea) body
      = (((S.used (issueCtx f s w) v.sp v.ea).storeDirect (coreOf s.cur) w.blk (ownerOf (coreOf s.cur) w.ctx) v.sp spots (v.bytes w)).leave
          (issueCtx f s w)).finish f (issueCtx f s w) w := by
  have hcomes := Comes.fresh (f := f) hr.cur hc (6 * (linesNamed (issueCtx f s w).en (v.ea w)).length)
  refine ⟨_, hcomes.toBegins, ?_⟩
  have hcommit := State.commit_fresh (legal := fun _ _ => true) (steps := lineSteps 6 v.ea)
    (pre := fun c => c.checks .put v.sp (memBytes v.width) (memBytes v.width) v.ea) (B := fun c => c.storeGo v) hr rfl (lineSteps_of hr.cur ..) hc he
    (Begins.checks hr.cur (hv.ea _ _ (SameRegs.atIssue w f s)) h)
  have hgo : (issueCtx f s w).storeGo v (s.committing f (6 * (linesNamed (issueCtx f s w).en (v.ea w)).length) w)
      = (((s.committing f (6 * (linesNamed (issueCtx f s w).en (v.ea w)).length) w).used (issueCtx f s w) v.sp v.ea).storeDirect (coreOf s.cur) w.blk
          (ownerOf (coreOf s.cur) w.ctx) v.sp spots (v.bytes w)).leave (issueCtx f s w) := by
    rw [Ctx.storeGo, issueCtx_wid, State.withWarp_of hcomes.warp, hcomes.direct hr.cur rfl (hv.ea _ _ hcomes.poised.regs) h true hrace,
      hv.bytes _ _ hcomes.poised.regs]
    rfl
  have hfun : body = fun c s => c.storeRel v.width v.sp v.ea v.bytes s := funext fun c => funext fun s => hbody c s
  rw [hfun, ← hgo]
  exact hcommit

end

theorem State.block?_of_pad {s : State} {blk n : Nat} (h : n ≤ s.spadSize blk) (hn : 0 < n) : ∃ b, s.block? blk = some b := by
  unfold State.spadSize at h
  cases hb : s.block? blk with
  | some b => exact ⟨b, rfl⟩
  | none =>
    rw [hb] at h
    exact absurd h (Nat.not_le.2 hn)

/-- Bytes of other lanes than those that put them. -/
theorem mergedAt_elsewhere {spots : List Spot} {bytes : Nat → List (Byte × Nat)} {n : Nat} (hn : ∀ l, (bytes l).length = n) {a : Nat}
    (ha : ∀ p ∈ spots, a < p.2 ∨ p.2 + n ≤ a) (old : Byte) : mergedAt (putsOf spots bytes) a old = old := by
  refine mergedAt_outside (fun x hx e => ?_) old
  obtain ⟨p, hp, hin⟩ := putsOf_within hn hx
  exact not_within.2 (ha p hp) (e ▸ hin)

section
variable {s S t : State} {f : Form} {w : Warp} {n : Nat} {bytes : Nat → List (Byte × Nat)} {spots : List Spot} {ea : Warp → Nat → DWord}

/-- No two lanes put a byte at the same key. -/
def AloneAt (spots : List Spot) (n : Nat) (p : Spot) : Prop := ∀ q ∈ spots, q ≠ p → q.2 + n ≤ p.2 ∨ p.2 + n ≤ q.2

/-- What a `st.rel` to memory leaves. -/
theorem Begins.stores (hS : Begins s S (w.atCommit f s)) (hs : s.ap! offInjMask = 0) (hap : ∀ p ∈ spots, isAp p.2 = false)
    (hn : ∀ l, (bytes l).length = n) (hpos : 0 < n) (hnodup : (spots.map Prod.fst).Nodup)
    (ht : t = (((S.used (issueCtx f s w) .g ea).storeDirect (coreOf s.cur) w.blk (ownerOf (coreOf s.cur) w.ctx) .g spots bytes).leave
      (issueCtx f s w)).finish f (issueCtx f s w) w) :
    ∃ w', t.warp? s.cur = some w' ∧ Committed f s w w' ∧ LeftBehind f s w w' ∧ t.ap = s.ap ∧ t.grids = s.grids ∧ t.dev = s.dev ∧
      OtherWarps s t ∧ t.blocks = s.blocks ∧ (∀ a, (∀ p ∈ spots, a < p.2 ∨ p.2 + n ≤ a) → t.mem.byte a = s.mem.byte a) ∧
      ∀ p ∈ spots, AloneAt spots n p → ∀ j b, (bytes p.1)[j]? = some b → t.mem.byte (p.2 + j) = nibMerge (s.mem.byte (p.2 + j)) b.1 b.2 := by
  have hsS := (State.ap!_of_ap hS.ap offInjMask).trans hs
  have hused := ReadLeft.used hsS (issueCtx f s w) .g ea
  obtain ⟨hhomes, hbytes⟩ := State.storeDirect_homes (hused.disarmed hsS) hap hn hpos (coreOf s.cur) w.blk (ownerOf (coreOf s.cur) w.ctx)
  have hT := (hused.homes _).trans hhomes
  have helse := hT.sameElsewhere hS.toSameElsewhere
  have hbyte : ∀ a, (S.used (issueCtx f s w) .g ea).mem.byte a = s.mem.byte a := fun a => (hused.sameBytes a).trans (by rw [hS.mem])
  obtain ⟨w', hw', hcommitted, hleft, hothers, htap, htgrids, htdev, htblocks, htmem, -⟩ := State.left_commits ((hT.warp? _).trans hS.warp) ht
  refine ⟨w', hw', hcommitted, hleft, htap.trans helse.ap, htgrids.trans helse.grids, htdev.trans helse.dev,
    fun k hk => (hothers k hk).trans (helse.warps k hk), htblocks.trans helse.blocks, fun a ha => ?_, fun p hp hne j b hb => ?_⟩
  · rw [htmem, hbytes, mergedAt_elsewhere hn ha, hbyte]
  · rw [htmem, hbytes, mergedAt_puts hn hnodup hp hne hb, hbyte]

/-- What a `st.rel` to the scratchpad leaves. -/
theorem Begins.storesPad (hS : Begins s S (w.atCommit f s)) (hn : ∀ l, (bytes l).length = n) (hnodup : (spots.map Prod.fst).Nodup)
    {blk : Block} (hblk : s.block? w.blk = some blk)
    (ht : t = ((S.storeDirect (coreOf s.cur) w.blk (ownerOf (coreOf s.cur) w.ctx) .s spots bytes).leave
      (issueCtx f s w)).finish f (issueCtx f s w) w) :
    ∃ w', t.warp? s.cur = some w' ∧ Committed f s w w' ∧ LeftBehind f s w w' ∧ t.ap = s.ap ∧ t.grids = s.grids ∧ t.dev = s.dev ∧
      OtherWarps s t ∧ SameBytes s t ∧ (∀ k, k ≠ w.blk → t.block? k = s.block? k) ∧
      (∀ a, (∀ p ∈ spots, a < p.2 ∨ p.2 + n ≤ a) → t.spadByte w.blk a = s.spadByte w.blk a) ∧
      ∀ p ∈ spots, AloneAt spots n p → ∀ j b, (bytes p.1)[j]? = some b →
        t.spadByte w.blk (p.2 + j) = nibMerge (s.spadByte w.blk (p.2 + j)) b.1 b.2 := by
  rw [State.storeDirect_pad] at ht
  have hpad := PadLeft.puts w.blk (putsOf spots bytes) S
  have hblock : ∀ k, S.block? k = s.block? k := fun k => congrArg (Tab.look · k) hS.blocks
  have hspad : ∀ a, ((putsOf spots bytes).foldl (State.padAt w.blk) S).spadByte w.blk a = mergedAt (putsOf spots bytes) a (s.spadByte w.blk a) :=
    fun a => by
      rw [State.spadByte_puts _ ((hblock _).trans hblk)]
      simp only [State.spadByte, hblock]
  generalize (putsOf spots bytes).foldl (State.padAt w.blk) S = T at ht hpad hspad
  have hT : T.warp? s.cur = some (w.atCommit f s) := (congrArg (Tab.look · s.cur) hpad.warps).trans hS.warp
  obtain ⟨w', hw', hcommitted, hleft, hothers, htap, htgrids, htdev, htblocks, htmem, -⟩ := State.left_commits hT ht
  have hspadt : ∀ a, t.spadByte w.blk a = mergedAt (putsOf spots bytes) a (s.spadByte w.blk a) := fun a => by
    rw [← hspad]
    simp only [State.spadByte, State.block?, htblocks]
  refine ⟨w', hw', hcommitted, hleft, htap.trans (hpad.ap.trans hS.ap), htgrids.trans (hpad.grids.trans hS.grids),
    htdev.trans (hpad.dev.trans hS.dev), fun k hk => (hothers k hk).trans ((congrArg (Tab.look · k) hpad.warps).trans (hS.warps k hk)),
    fun a => ?_, fun k hk => ?_, fun a ha => ?_, fun p hp hne j b hb => ?_⟩
  · rw [htmem, hpad.mem, hS.mem]
  · exact (congrArg (Tab.look · k) htblocks).trans ((hpad.others k hk).trans (hblock k))
  · rw [hspadt, mergedAt_elsewhere hn ha]
  · rw [hspadt, mergedAt_puts hn hnodup hp hne hb]

/-- The block of an access that reaches its scratchpad has one. -/
theorem Placed.hasBlock {lanes : Word} {a : Acc} {al : Nat} {ea : Nat → DWord} (h : Placed s w lanes a .s n al ea spots) (hpos : 0 < n)
    (hl : lanes ≠ 0) : ∃ b, s.block? w.blk = some b := by
  have hlen : spots.length ≠ 0 := by
    have := lanesOf_length_ne hl
    rwa [← h.lanes, List.length_map] at this
  obtain ⟨p, hp⟩ := List.exists_mem_of_length_pos (Nat.pos_of_ne_zero hlen)
  exact State.block?_of_pad (Nat.le_trans (Nat.le_add_left _ _) (h.pad rfl p hp).2) hpos

end

/-- Settles O21: without ordering the bytes go to the buffer, which the warp's loads see through; with it they stand at their homes, or in the
scratchpad, behind the commit. -/
theorem storesComplete : Obligations.StoresComplete := by
  refine ⟨?_, ?_⟩
  · intro i v c s w spots hi hrel hc hr he h hrace hroom
    subst hc
    have hv := storesBy hi
    obtain ⟨w', hw'⟩ := State.issue_store hv hr he h hrace hroom
      (body := fun c s => if v.rel then c.storeRel v.width v.sp v.ea v.bytes s else c.store v.width v.sp v.ea v.bytes s)
      fun _ _ => if_neg (by rw [hrel]; exact Bool.false_ne_true)
    refine ⟨_, w', (runsStore hi).exec_eq s, hw'.warp, hw'.rsb, hw'.regs, hw'.advanced, hw'.standing, hw'.specials, hw'.bytes, hw'.ver,
      hw'.elsewhere, fun hap p hp hq j b old hb => ?_⟩
    rw [Warp.forward_eq, hw'.rsb, ← Warp.forward_eq, Warp.holdAll_puts w hap, Warp.forward_holdPuts]
    exact mergedAt_puts (hv.length w) (h.placed hr.cur).nodup hp hq hb _
  · intro i v c s w spots hi hrel hc hq hr he h hrace hap
    subst hc
    have hv := storesBy hi
    obtain ⟨S, hS, ht⟩ := State.issue_storeRel hv hr hq he h hrace
      (body := fun c s => if v.rel then c.storeRel v.width v.sp v.ea v.bytes s else c.store v.width v.sp v.ea v.bytes s) fun _ _ => if_pos hrel
    have hexec := (runsStore hi).exec_eq s
    have hplaced := h.placed hr.cur
    generalize (s.issue v.form (fun _ _ => true) (lineSteps 6 v.ea) fun c s =>
      if v.rel then c.storeRel v.width v.sp v.ea v.bytes s else c.store v.width v.sp v.ea v.bytes s) = t at ht hexec
    generalize v.sp = sp at *
    cases sp with
    | g =>
      obtain ⟨w', hw', hcommitted, hleft, htap, htgrids, htdev, hothers, hblocks, hout, hin⟩ := hS.stores hr.disarmed (hap rfl) (hv.length w)
        (memBytes_pos v.width) hplaced.nodup ht
      exact ⟨t, w', hexec, hw', hcommitted, hleft, htap, htgrids, htdev, hothers, fun _ => ⟨hblocks, hout, hin⟩, fun e => nomatch e⟩
    | s =>
      obtain ⟨b, hb⟩ := hplaced.hasBlock (memBytes_pos v.width) he
      obtain ⟨w', hw', hcommitted, hleft, htap, htgrids, htdev, hothers, hrest⟩ := hS.storesPad (hv.length w) hplaced.nodup hb ht
      exact ⟨t, w', hexec, hw', hcommitted, hleft, htap, htgrids, htdev, hothers, (fun e => nomatch e), fun _ => hrest⟩

end Sys2Proof.Machine
end


section
/-!
PROOFS. The barriers of a block (spec/06 R185, R186): an arrival, the phase that it completes, and the wait. Settles O29 of
spec/06_isa_memory.md.
-/

namespace Sys2Proof.Machine

open Sys2Proof.Machine.Shape

/-! ### The warps of a block -/

/-- Entries that a predicate takes alike are as many, whichever of two values a key has. -/
theorem Tab.length_keep_upd {α : Type} (p : Nat → α → Bool) (k : Nat) {u v : α} (h : p k u = p k v) (t : Tab α) :
    (Tab.keep (Tab.upd t k u) p).length = (Tab.keep (Tab.upd t k v) p).length := by
  have hcons : ∀ (x : α) (r : Tab α), (Tab.keep ((k, x) :: r) p).length = (if p k x then 1 else 0) + (Tab.keep r p).length := fun x r => by
    rw [Tab.keep, Tab.keep, List.filter_cons]
    dsimp only
    split
    · exact Nat.add_comm ..
    · exact (Nat.zero_add _).symm
  induction t with
  | nil =>
    rw [Tab.upd, Tab.upd, hcons, hcons, h]
  | cons e r ih =>
    obtain ⟨a, x⟩ := e
    rw [Tab.upd, Tab.upd]
    split
    · rw [hcons, hcons, h]
    · split
      · rw [hcons, hcons, h]
      · rw [Tab.keep, Tab.keep, List.filter_cons, List.filter_cons]
        dsimp only
        split
        · rw [List.length_cons, List.length_cons]
          exact congrArg (· + 1) ih
        · exact ih

section
variable {s S : State} {f : Form} {w : Warp} {n : Nat}

theorem State.committing_warps (h : s.warp? s.cur = some w) : (s.committing f n w).warps = Tab.upd s.warps s.cur (w.atCommit f s) := by
  have hbegun : (s.begun f n w).warps = Tab.upd s.warps s.cur (w.atIssue f s) := by
    have hmod : (s.begun f n w).warps = Tab.mod s.warps s.cur fun v => v.marked (f.seen (issueCtx f s w).en) w.group (s.clk s.cur).toNat := by
      unfold State.begun
      split <;> rfl
    rw [hmod, Tab.mod, show Tab.look s.warps s.cur = some w from h]
    rfl
  have hcommit : (s.committing f n w).warps = Tab.mod (s.begun f n w).warps s.cur fun v => v.committed (issueCtx f s w) := rfl
  rw [hcommit, hbegun, Tab.mod, Tab.look_upd_self]
  exact Tab.upd_upd ..

/-- LIVE of a block, behind the issue and the commit of one of its warps. -/
theorem State.expected_committing (h : s.warp? s.cur = some w) (blk e : Nat) :
    (s.committing f n w).expected blk e = (s.inOrder w).expected blk e := by
  have hlen : (s.committing f n w).liveWarps blk = (s.inOrder w).liveWarps blk := by
    unfold State.liveWarps State.warpsOfBlock
    rw [State.committing_warps h]
    exact Tab.length_keep_upd _ _ (by rw [Warp.atCommit_blk]) _
  unfold State.expected
  rw [hlen]

/-- The commit of a warp leaves none waiting where none waited. -/
theorem NoneWaits.committing (h : s.warp? s.cur = some w) (hn : NoneWaits s) (hw : w.blocked = []) : NoneWaits (s.committing f n w) := by
  intro x hx
  rw [State.committing_warps h] at hx
  rcases Tab.mem_upd hx with rfl | hx
  · exact (Warp.atCommit_blocked ..).trans hw
  · exact hn x hx

theorem NoneWaits.cur (hn : NoneWaits s) (h : s.warp? s.cur = some w) : w.blocked = [] := hn _ (Tab.mem_of_look h)

/-- Where no warp waits, a completed phase releases none (R186). -/
theorem State.releaseBar_none (hn : NoneWaits s) (blk id : Nat) : s.releaseBar blk id = s := by
  unfold State.releaseBar
  have hall : ∀ e ∈ s.warpsOfBlock blk, e.2.blocked = [] := fun e he => hn e (List.mem_filter.1 he).1
  generalize s.warpsOfBlock blk = ws at hall
  clear hn
  induction ws generalizing s with
  | nil => rfl
  | cons e r ih =>
    have hstep : (if !s.awake e.2 then s else (e.2.blocked.filter (fun b => b.what == .bar id)).foldl (fun s b => s.pass e.1 b) s) = s := by
      rw [hall e (List.mem_cons_self ..)]
      exact ite_self _
    rw [List.foldl_cons, hstep]
    exact ih fun x hx => hall x (List.mem_cons_of_mem _ hx)

end

/-! ### An arrival (R186) -/

/-- The barrier behind an arrival of `n` warps' worth, which completes its phase or not. -/
def Barrier.arrived (r : Barrier) (e n wid : Nat) (last : Bool) : Barrier :=
  if last then { r with phase := !r.phase, arr := 0, exp := e, pend := [] } else { r with arr := r.arr + n, exp := e, pend := insertNat r.pend wid }

/-- What an arrival at a barrier leaves: the barrier of its block, and nothing else. -/
structure Arrived (blk id : Nat) (b : Block) (r : Barrier) (s t : State) : Prop where
  warps : t.warps = s.warps
  mem : t.mem = s.mem
  ap : t.ap = s.ap
  others : ∀ j, j ≠ blk → t.block? j = s.block? j
  block : ∃ b', t.block? blk = some b' ∧ Tab.get b'.bars Barrier.unset id = r ∧
    ∀ j, j ≠ id → Tab.get b'.bars Barrier.unset j = Tab.get b.bars Barrier.unset j

section
variable {s : State} {blk id e n wid : Nat} {b : Block}

/-- A barrier of a block set. -/
theorem Arrived.set (hb : s.block? blk = some b) (r : Barrier) :
    Arrived blk id b r s (s.modBlock blk fun b => { b with bars := Tab.upd b.bars id r }) := by
  refine ⟨rfl, rfl, rfl, fun j hj => (State.block?_modBlock ..).trans (if_neg hj), _,
    (State.block?_modBlock ..).trans ((if_pos rfl).trans (congrArg _ hb)), Tab.get_upd_self .., fun j hj => Tab.get_upd_ne _ _ _ hj⟩

theorem Arrived.trans {t u : State} {b' : Block} {r r' : Barrier} (h : Arrived blk id b r s t) (hb : t.block? blk = some b')
    (g : Arrived blk id b' r' t u) : Arrived blk id b r' s u := by
  obtain ⟨b₁, hb₁, -, hothers⟩ := h.block
  obtain ⟨b₂, hb₂, hr, hothers'⟩ := g.block
  obtain rfl := Option.some.inj (hb₁.symm.trans hb)
  exact ⟨g.warps.trans h.warps, g.mem.trans h.mem, g.ap.trans h.ap, fun j hj => (g.others j hj).trans (h.others j hj), b₂, hb₂, hr,
    fun j hj => (hothers' j hj).trans (hothers j hj)⟩

theorem Arrived.refl (hb : s.block? blk = some b) : Arrived blk id b (Tab.get b.bars Barrier.unset id) s s :=
  ⟨rfl, rfl, rfl, fun _ _ => rfl, b, hb, rfl, fun _ _ => rfl⟩

theorem State.completeBar_set (hn : NoneWaits s) (hb : s.block? blk = some b) :
    Arrived blk id b { Tab.get b.bars Barrier.unset id with phase := !(Tab.get b.bars Barrier.unset id).phase, arr := 0, pend := [] } s
      (s.completeBar blk id) := by
  unfold State.completeBar
  dsimp only
  rw [State.releaseBar_none (by exact hn)]
  refine ⟨rfl, rfl, rfl, fun j hj => (State.block?_modBlock ..).trans (if_neg hj), _,
    (State.block?_modBlock ..).trans ((if_pos rfl).trans (congrArg _ hb)), Tab.get_upd_self .., fun j hj => Tab.get_upd_ne _ _ _ hj⟩

theorem State.arrive_arrived (hb : s.block? blk = some b) (hn : NoneWaits s) :
    Arrived blk id b ((Tab.get b.bars Barrier.unset id).arrived e n wid (decide (s.expected blk e ≤ (Tab.get b.bars Barrier.unset id).arr + n))) s
      (s.arrive wid blk id e n) := by
  obtain ⟨r, hr⟩ : ∃ r, r = Tab.get b.bars Barrier.unset id := ⟨_, rfl⟩
  have hset := Arrived.set (id := id) hb { r with arr := r.arr + n, exp := e, pend := insertNat r.pend wid }
  have harrive : s.arrive wid blk id e n = if s.expected blk e ≤ r.arr + n then
      (s.modBlock blk fun b => { b with bars := Tab.upd b.bars id { r with arr := r.arr + n, exp := e, pend := insertNat r.pend wid } }).completeBar
        blk id
      else s.modBlock blk fun b => { b with bars := Tab.upd b.bars id { r with arr := r.arr + n, exp := e, pend := insertNat r.pend wid } } := by
    unfold State.arrive
    rw [hb, hr]
    rfl
  rw [← hr, harrive]
  by_cases hfull : s.expected blk e ≤ r.arr + n
  · rw [if_pos hfull, decide_eq_true hfull]
    obtain ⟨b', hb', hget, -⟩ := hset.block
    have hcomplete := State.completeBar_set (id := id) (s := s.modBlock blk fun b =>
      { b with bars := Tab.upd b.bars id { r with arr := r.arr + n, exp := e, pend := insertNat r.pend wid } }) (by exact hn) hb'
    rw [hget] at hcomplete
    exact hset.trans hb' hcomplete
  · rw [if_neg hfull, decide_eq_false hfull]
    exact hset

/-- Whether the warp's arrival stands, from the barrier. -/
theorem Arrived.pends {t : State} {r : Barrier} (h : Arrived blk id b r s t) (wid : Nat) : t.pends wid blk id = r.pend.contains wid := by
  obtain ⟨b', hb', hget, -⟩ := h.block
  simp only [State.pends, hb', hget]

theorem contains_insertNat (xs : List Nat) (k : Nat) : (insertNat xs k).contains k = true := by
  rw [List.contains_iff_mem]
  induction xs with
  | nil => exact List.mem_singleton_self k
  | cons a r ih =>
    rw [insertNat]
    split
    · exact List.mem_cons_self ..
    · split
      · next h => exact h ▸ List.mem_cons_self ..
      · exact List.mem_cons_of_mem _ ih

end

/-! ### bar (R186) -/

/-- An instruction of the barriers is a commit point with its arrival and its wait. -/
theorem exec_bars {i : Instr} {f : Form} {k : BarKind} {id e n : Nat} (h : bars i = some (f, k, id, e, n)) (s : State) :
    exec i s = .next (s.issueSimple f fun c s => c.bar k id e n s) := by
  cases i <;> simp only [bars, Option.some.injEq, Prod.mk.injEq, reduceCtorEq] at h
  all_goals
    obtain ⟨rfl, rfl, rfl, rfl, rfl⟩ := h
    rfl

section
variable {s T t : State} {f : Form} {w : Warp} {k : BarKind} {id e n : Nat} {b : Block} {r : Barrier}

/-- The steps 4 and 5 of an instruction of the barriers. -/
def Ctx.barGo (c : Ctx) (k : BarKind) (id e n : Nat) (s : State) : State :=
  s.withWarp c.wid fun w =>
    let r := match s.block? w.blk with | some b => Tab.get b.bars Barrier.unset id | none => Barrier.unset
    if k != .wait && s.barOver w.blk r e n then s.raise4 c { cls := .barOver, info := BitVec.ofNat 32 id } else
    let s := if k = .wait then s else s.arrive c.wid w.blk id e n
    if k != .arrive && s.pends c.wid w.blk id then s.blockAll c (.bar id) else s.leave c

/-- Whether the lanes of an instruction of the barriers wait behind its arrival. -/
abbrev barWaits (k : BarKind) (r : Barrier) (n exp wid : Nat) : Prop := (k = .both ∧ r.arr + n < exp) ∨ (k = .wait ∧ r.pend.contains wid = true)

/-- An arrival that is not one too many: what it leaves, and whether the lanes then wait. -/
theorem Ctx.barGo_arrives (hw : s.warp? s.cur = some w) (hb : s.block? w.blk = some b) (hr : r = Tab.get b.bars Barrier.unset id)
    (hover : k ≠ .wait → (s.inOrder w).barOver w.blk r e n = false) (hn : NoneWaits s) :
    ∃ T r', Arrived w.blk id b r' (s.committing f 0 w) T ∧
      (k = .wait → r' = r ∧ T = s.committing f 0 w) ∧
      (k ≠ .wait → r' = r.arrived e n s.cur (decide ((s.inOrder w).expected w.blk e ≤ r.arr + n))) ∧
      (barWaits k r n ((s.inOrder w).expected w.blk e) s.cur → (issueCtx f s w).barGo k id e n (s.committing f 0 w)
        = T.blockAll (issueCtx f s w) (.bar id)) ∧
      (¬ barWaits k r n ((s.inOrder w).expected w.blk e) s.cur → (issueCtx f s w).barGo k id e n (s.committing f 0 w)
        = T.leave (issueCtx f s w)) := by
  have hS := State.committing_warp (f := f) (n := 0) hw
  have hbS : (s.committing f 0 w).block? w.blk = some b :=
    (congrArg (Tab.look · w.blk) (State.committing_only (s := s) (f := f) (n := 0) (w := w)).blocks).trans hb
  have hexp := State.expected_committing (f := f) (n := 0) hw w.blk e
  have hnone := hn.committing (f := f) (n := 0) hw (hn.cur hw)
  have hgo : (issueCtx f s w).barGo k id e n (s.committing f 0 w)
      = if k != .arrive && (if k = .wait then s.committing f 0 w else (s.committing f 0 w).arrive s.cur w.blk id e n).pends s.cur w.blk id then
          (if k = .wait then s.committing f 0 w else (s.committing f 0 w).arrive s.cur w.blk id e n).blockAll (issueCtx f s w) (.bar id)
        else (if k = .wait then s.committing f 0 w else (s.committing f 0 w).arrive s.cur w.blk id e n).leave (issueCtx f s w) := by
    have hnover : (k != .wait && (s.committing f 0 w).barOver w.blk r e n) = false := by
      by_cases hk : k = .wait
      · rw [hk]; rfl
      · have := hover hk
        unfold State.barOver at this ⊢
        rw [hexp, this, Bool.and_false]
    rw [Ctx.barGo, issueCtx_wid, State.withWarp_of hS, Warp.atCommit_blk, hbS]
    dsimp only
    rw [← hr, hnover]
    exact if_neg Bool.false_ne_true
  by_cases hk : k = .wait
  · subst hk
    have harr : Arrived w.blk id b r (s.committing f 0 w) (s.committing f 0 w) := hr ▸ Arrived.refl hbS
    simp only [if_true, harr.pends] at hgo
    refine ⟨_, r, harr, fun _ => ⟨rfl, rfl⟩, fun h => absurd rfl h, fun h => ?_, fun h => ?_⟩
    · rw [hgo]
      exact if_pos (h.resolve_left fun h => nomatch h.1).2
    · rw [hgo]
      exact if_neg fun hp => h (.inr ⟨rfl, hp⟩)
  · have harr := State.arrive_arrived (id := id) (e := e) (n := n) (wid := s.cur) hbS hnone
    rw [← hr, hexp] at harr
    simp only [if_neg hk, harr.pends] at hgo
    refine ⟨_, _, harr, fun h => absurd h hk, fun _ => rfl, fun h => ?_, fun h => ?_⟩
    · obtain ⟨rfl, hlt⟩ := h.resolve_right fun h => hk h.1
      rw [hgo, Barrier.arrived, decide_eq_false (Nat.not_le.2 hlt), if_neg Bool.false_ne_true, contains_insertNat]
      rfl
    · rw [hgo]
      refine if_neg fun hp => h (.inl ?_)
      rw [Bool.and_eq_true] at hp
      obtain ⟨hka, hpend⟩ := hp
      refine ⟨?_, ?_⟩
      · cases k with
        | both => rfl
        | arrive => exact absurd hka (by decide)
        | wait => exact absurd rfl hk
      · by_contra hlt
        rw [Barrier.arrived, decide_eq_true (Nat.not_lt.1 hlt)] at hpend
        exact absurd hpend Bool.false_ne_true

/-- The lanes of a clean commit point block at their instruction, for what no end of an instruction brings. -/
theorem State.blockAll_waits {what : Wait} (hT : T.warp? s.cur = some (w.atCommit f s)) (hst : what.stays = true) (hw : w.blocked = [])
    (hg : w.group ≠ 0) (ht : t = (T.blockAll (issueCtx f s w) what).finish f (issueCtx f s w) w) :
    ∃ w', t.warp? s.cur = some w' ∧ Committed f s w w' ∧
      (∃ x, w'.blocked = [x] ∧ x.lanes = (issueCtx f s w).en ∧ x.here = (issueCtx f s w).here ∧ x.len = f.len ∧ x.what = what) ∧
      (∀ l, laneIn w.group l = true → w'.pc l = if laneIn (issueCtx f s w).en l then w.pc l else w.pc l + BitVec.ofNat 64 f.len) ∧
      (∀ k, k ≠ s.cur → t.warp? k = T.warp? k) ∧ t.mem = T.mem ∧ t.ap = T.ap ∧ t.blocks = T.blocks := by
  obtain ⟨b, hb⟩ : ∃ b, b = T.blockOf (issueCtx f s w) (issueCtx f s w).en what := ⟨_, rfl⟩
  have hv : (T.modWarp s.cur fun u => u.waits (issueCtx f s w) b).warp? s.cur = some (w.waiting f s b) := State.warp?_modWarp_of hT _
  have ht' : t = (T.modWarp s.cur fun u => u.waits (issueCtx f s w) b).finish f (issueCtx f s w) w := by
    rw [ht, State.blockAll_eq, hb]
    rfl
  have hone := Warp.waiting_blocked hw f s b
  have hstays : (w.waiting f s b).woken = w.waiting f s b :=
    Warp.woken_stays hone (by rw [hb]; exact hst) ((Warp.waiting_susp ..).trans (Warp.susp_of_group hg))
  obtain ⟨hpcv, hblocked⟩ := Warp.finished_woken (w.waiting f s b) f (issueCtx f s w) w
  rw [hstays] at hpcv hblocked
  subst ht'
  refine ⟨_, State.warp?_modWarp_of hv _, ?_, ⟨b, hblocked.trans hone, ?_, ?_, ?_, ?_⟩, fun l hl => ?_, fun k hk => ?_, rfl, rfl, rfl⟩
  · exact KeepsCommit.committed (Warp.keepsCommit_waits ..) (Warp.finished_same ..)
  · rw [hb]; rfl
  · rw [hb]; rfl
  · rw [hb]; rfl
  · rw [hb]; rfl
  · rw [← Warp.waiting_pc w f s b hl, Warp.pc, hpcv, Warp.pc]
  · exact (State.warp?_modWarp ..).trans ((if_neg hk).trans ((State.warp?_modWarp ..).trans (if_neg hk)))

end

/-- What an instruction of the barriers leaves of its warp, from what its arrival left. -/
theorem State.bar_ends {s T t G : State} {f : Form} {w : Warp} {id : Nat} {waits : Prop} [Decidable waits]
    (hT : T.warp? s.cur = some (w.atCommit f s)) (hw : w.blocked = []) (hg : w.group ≠ 0)
    (hyes : waits → G = T.blockAll (issueCtx f s w) (.bar id)) (hno : ¬ waits → G = T.leave (issueCtx f s w))
    (ht : t = G.finish f (issueCtx f s w) w) :
    ∃ w', t.warp? s.cur = some w' ∧ Committed f s w w' ∧ (∀ k, k ≠ s.cur → t.warp? k = T.warp? k) ∧ t.mem = T.mem ∧ t.ap = T.ap ∧
      t.blocks = T.blocks ∧ if waits then
        (∃ x, w'.blocked = [x] ∧ x.lanes = (issueCtx f s w).en ∧ x.here = (issueCtx f s w).here ∧ x.len = f.len ∧ x.what = .bar id) ∧
        (∀ l, laneIn (issueCtx f s w).en l = true → w'.pc l = w.pc l) ∧
        ∀ l, laneIn w.group l = true → laneIn (issueCtx f s w).en l = false → w'.pc l = w.pc l + BitVec.ofNat 64 f.len
      else w'.blocked = [] ∧ LeftBehind f s w w' := by
  by_cases h : waits
  · simp only [if_pos h]
    obtain ⟨w', hw', hcommitted, hone, hpc, hothers, hmem, hap, hblocks⟩ := State.blockAll_waits (what := .bar id) hT rfl hw hg (ht.trans (by rw [hyes h]))
    refine ⟨w', hw', hcommitted, hothers, hmem, hap, hblocks, hone, fun l hl => ?_, fun l hl hn => ?_⟩
    · rw [hpc l (laneIn_group_of_en hl), if_pos hl]
    · rw [hpc l hl, hn, if_neg Bool.false_ne_true]
  · simp only [if_neg h]
    obtain ⟨w', hw', hcommitted, hleft, hothers, hap, -, -, hblocks, hmem, hnone⟩ := State.left_commits hT (ht.trans (by rw [hno h]))
    exact ⟨w', hw', hcommitted, hothers, hmem, hap, hblocks, hnone hw, hleft⟩

/-- Settles O29: the arrival sets the barrier of its block; the lanes then wait, or leave. -/
theorem barriersComplete : Obligations.BarriersComplete := by
  intro i f k id e n s w b r hi hc hr he hb hbar hover hn
  obtain ⟨T, r', harr, hwait, hcount, hyes, hno⟩ := Ctx.barGo_arrives (f := f) hr.cur hb hbar hover hn
  have hissue := State.commit_fresh (legal := fun _ _ => true) (steps := fun _ _ => 0) (pre := fun _ => noCheck) (B := fun c => c.barGo k id e n) hr
    rfl rfl hc he rfl
  have honly := State.committing_only (s := s) (f := f) (n := 0) (w := w)
  obtain ⟨w', hw', hcommitted, hothers, hmem, hap, hblocks, hend⟩ := State.bar_ends
    ((congrArg (Tab.look · s.cur) harr.warps).trans (State.committing_warp hr.cur)) (hn.cur hr.cur) hr.lanes hyes hno hissue
  obtain ⟨b', hb', hget, hothersB⟩ := harr.block
  refine ⟨_, w', b', r', exec_bars hi s, hw', (congrArg (Tab.look · w.blk) hblocks).trans hb', hget.symm, hcommitted.regs, hcommitted.rcount,
    hmem.trans (harr.mem.trans honly.mem), hap.trans (harr.ap.trans honly.ap),
    fun k hk => (hothers k hk).trans ((congrArg (Tab.look · k) harr.warps).trans (honly.warps k hk)), hothersB,
    fun j hj => (congrArg (Tab.look · j) hblocks).trans ((harr.others j hj).trans (congrArg (Tab.look · j) honly.blocks)), fun hk => ?_,
    fun hk hfull => ?_, fun hk hlt => ?_, hend⟩
  · rw [(hwait hk).2] at hb'
    have hsame := hb'.symm.trans ((congrArg (Tab.look · w.blk) honly.blocks).trans hb)
    rw [Option.some.inj hsame]
  · rw [hcount hk, decide_eq_true hfull]
    rfl
  · rw [hcount hk, decide_eq_false (Nat.not_le.2 hlt)]
    rfl

end Sys2Proof.Machine
end


section
/-!
PROOFS. The drain of a region store buffer that holds plain bytes of memory (spec/06 R166, R168, R173).
Settles O17 of spec/06_isa_memory.md.
-/

namespace Sys2Proof.Machine

/-! ### Distinct elements -/

theorem nodup_distinct (l : List Nat) : (distinct l).Nodup := by
  have key : ∀ l acc : List Nat, acc.Nodup → (l.foldl (fun acc n => if acc.contains n then acc else acc ++ [n]) acc).Nodup := by
    intro l
    induction l with
    | nil => exact fun _ h => h
    | cons n r ih =>
      intro acc h
      refine ih _ ?_
      dsimp only
      split
      · exact h
      · next hn =>
        have hnot : n ∉ acc := by simpa using hn
        exact List.nodup_append.2 ⟨h, List.nodup_singleton n, fun a ha b hb e => hnot (List.mem_singleton.1 hb ▸ e ▸ ha)⟩
  exact key l [] List.nodup_nil

theorem Warp.mem_linesHeld {hs : List Held} {x : Nat × Nat} (hx : x ∈ Warp.linesHeld hs) : ∃ h ∈ hs, Warp.heldLine h = x := by
  have key : ∀ (hs : List Held) (acc : List (Nat × Nat)),
      x ∈ hs.foldl (fun acc h => if acc.contains (Warp.heldLine h) then acc else acc ++ [Warp.heldLine h]) acc →
      x ∈ acc ∨ ∃ h ∈ hs, Warp.heldLine h = x := by
    intro hs
    induction hs with
    | nil => exact fun _ h => .inl h
    | cons h r ih =>
      intro acc hx
      rcases ih _ hx with hx | ⟨g, hg, e⟩
      · dsimp only at hx
        split at hx
        · exact .inl hx
        · rcases List.mem_append.1 hx with hx | hx
          · exact .inl hx
          · exact .inr ⟨h, List.mem_cons_self .., (List.mem_singleton.1 hx).symm⟩
      · exact .inr ⟨g, List.mem_cons_of_mem _ hg, e⟩
  exact (key hs [] hx).resolve_left List.not_mem_nil

/-! ### Held bytes of memory -/

/-- A held byte of memory. -/
def IsByte (h : Held) : Prop := ∃ key lane x nib, h = .byte .g key lane x nib

/-- The bytes of memory that held operations write. -/
def heldKeys (hs : List Held) (a : Nat) : Prop := ∃ lane x nib, Held.byte .g a lane x nib ∈ hs ∧ nib ≠ 0

section
variable {hs : List Held}

theorem heldKeys_recorded {p : Held → Bool} {a : Nat} : heldKeys (hs.filter fun h => p h && Warp.recorded h) a ↔ heldKeys (hs.filter p) a := by
  unfold heldKeys
  simp only [List.mem_filter, Warp.recorded, Bool.and_eq_true, bne_iff_ne]
  exact ⟨fun ⟨l, x, n, ⟨hm, hp⟩, hn⟩ => ⟨l, x, n, ⟨hm, hp.1⟩, hn⟩, fun ⟨l, x, n, ⟨hm, hp⟩, hn⟩ => ⟨l, x, n, ⟨hm, hp, hn⟩, hn⟩⟩

theorem mem_globalLines {l : Nat} (hb : ∀ h ∈ hs, IsByte h ∧ Warp.recorded h = true) : l ∈ globalLines hs ↔ ∃ key, heldKeys hs key ∧ lineOf key = l := by
  unfold globalLines
  rw [mem_distinct, List.mem_filterMap]
  constructor
  · rintro ⟨h, hh, hl⟩
    obtain ⟨⟨key, lane, x, nib, rfl⟩, hrec⟩ := hb h hh
    exact ⟨key, ⟨lane, x, nib, hh, by simpa [Warp.recorded] using hrec⟩, Option.some.inj hl⟩
  · rintro ⟨key, ⟨lane, x, nib, hh, -⟩, rfl⟩
    exact ⟨_, hh, rfl⟩

/-- Records with no nibble left show nothing. -/
theorem Warp.seen_unrecorded {h : Held} (hr : Warp.recorded h = false) (sp : Spc) (k : Nat) (v : Byte) : Warp.seen sp k v h = v := by
  cases h with
  | byte p key lane x nib =>
    have hz : nib = 0 := by simpa [Warp.recorded] using hr
    rw [hz, Warp.seen_byte, nibMerge_zero, ite_self]
  | ap | red => simp [Warp.recorded] at hr

theorem Warp.seen_recorded (sp : Spc) (k : Nat) (p : Held → Bool) (v : Byte) :
    (hs.filter fun h => p h && Warp.recorded h).foldl (Warp.seen sp k) v = (hs.filter p).foldl (Warp.seen sp k) v := by
  induction hs generalizing v with
  | nil => rfl
  | cons h r ih =>
    rw [List.filter_cons, List.filter_cons]
    cases hp : p h with
    | false => exact ih v
    | true =>
      cases hr : Warp.recorded h with
      | true => exact ih _
      | false =>
        rw [Bool.and_false, if_neg Bool.false_ne_true, if_pos rfl, List.foldl_cons, Warp.seen_unrecorded hr]
        exact ih v

end

/-! ### The writes of a drain -/

section
variable {hs : List Held} {core blk : Nat}

theorem State.byte_performs (hb : ∀ h ∈ hs, IsByte h) (s : State) (k : Nat) :
    (hs.foldl (fun s h => s.perform core blk h) s).mem.byte k = hs.foldl (Warp.seen .g k) (s.mem.byte k) := by
  induction hs generalizing s with
  | nil => rfl
  | cons h r ih =>
    obtain ⟨key, lane, x, nib, rfl⟩ := hb h (List.mem_cons_self ..)
    have hstep : (s.perform core blk (.byte .g key lane x nib)).mem.byte k = Warp.seen .g k (s.mem.byte k) (.byte .g key lane x nib) := by
      refine (State.byte_poke ..).trans ?_
      rw [Warp.seen_byte]
      by_cases hk : key = k
      · rw [if_pos hk.symm, if_pos ⟨rfl, hk⟩, hk]
      · rw [if_neg fun e => hk e.symm, if_neg fun e => hk e.2]
    rw [List.foldl_cons, List.foldl_cons, ih (fun g hg => hb g (List.mem_cons_of_mem _ hg)), hstep]

theorem State.ver_performs (hb : ∀ h ∈ hs, IsByte h) (s : State) : (hs.foldl (fun s h => s.perform core blk h) s).mem.ver = s.mem.ver := by
  induction hs generalizing s with
  | nil => rfl
  | cons h r ih =>
    obtain ⟨key, lane, x, nib, rfl⟩ := hb h (List.mem_cons_self ..)
    exact (ih (fun g hg => hb g (List.mem_cons_of_mem _ hg)) _).trans (State.poke_ver ..).1

theorem HomesLeft.performs {K : Nat → Prop} (hb : ∀ h ∈ hs, ∃ key lane x nib, h = .byte .g key lane x nib ∧ K key) (s : State) :
    HomesLeft K s (hs.foldl (fun s h => s.perform core blk h) s) := by
  induction hs generalizing s with
  | nil => exact .refl K s
  | cons h r ih =>
    obtain ⟨key, lane, x, nib, rfl, hk⟩ := hb h (List.mem_cons_self ..)
    exact (HomesLeft.poke s (regCore core) x nib hk).trans (ih (fun g hg => hb g (List.mem_cons_of_mem _ hg)) _)

theorem Mem.version_seals_out {ls : List Nat} {j : Nat} (h : j ∉ ls) (o : Option Nat) (m : Mem) :
    (ls.foldl (fun m l => m.sealLine o l) m).version j = m.version j := by
  induction ls generalizing m with
  | nil => rfl
  | cons l r ih =>
    obtain ⟨hl, hr⟩ := not_or.1 (mt List.mem_cons.2 h)
    exact (ih hr _).trans (Mem.version_sealLine_ne m o hl)

theorem Mem.version_seals_in {ls : List Nat} (hn : ls.Nodup) {j : Nat} (hj : j ∈ ls) (hv : Mem.versioned j = true) (o : Option Nat) (m : Mem) :
    (ls.foldl (fun m l => m.sealLine o l) m).version j = m.version j + 1 := by
  induction ls generalizing m with
  | nil => nomatch hj
  | cons l r ih =>
    obtain ⟨hl, hr⟩ := List.nodup_cons.1 hn
    rcases List.mem_cons.1 hj with rfl | hj
    · exact (Mem.version_seals_out hl o _).trans ((Mem.version_sealLine _ _ _ _ hv).trans (if_pos rfl))
    · have hne : j ≠ l := fun e => hl (e ▸ hj)
      exact (ih hr hj _).trans (congrArg (· + 1) (Mem.version_sealLine_ne m o hne))

end

/-- The warp from whose buffer the operations that a predicate accepts have drained. -/
def Warp.drained (p : Held → Bool) (w : Warp) : Warp := w.withRsb (w.rsb.filter fun h => !p h)

/-- What the drain of held bytes leaves of the machine beyond the current warp. -/
structure Drained (hs : List Held) (s U : State) : Prop extends SameElsewhere s U where
  byte : ∀ k, U.mem.byte k = hs.foldl (Warp.seen .g k) (s.mem.byte k)
  stepped : ∀ l, Mem.versioned l = true → (∃ key, heldKeys hs key ∧ lineOf key = l) → U.mem.version l = s.mem.version l + 1
  others : ∀ l, (∀ key, heldKeys hs key → lineOf key ≠ l) → U.mem.version l = s.mem.version l

/-- The same with the current warp `u`, for whose commit no fence waits. -/
structure DrainedTo (hs : List Held) (s U : State) (u : Warp) : Prop extends Drained hs s U where
  warp : U.warp? s.cur = some u
  unawaited : Unawaited s s.cur → Unawaited U s.cur

namespace DrainedTo

variable {hs : List Held} {s U V : State} {u : Warp}

theorem modWarp (h : DrainedTo hs s U u) (g : Warp → Warp) (hg : ∀ v, (g v).blocked = v.blocked) : DrainedTo hs s (U.modWarp s.cur g) (g u) :=
  { h.toSameElsewhere.modWarp g with
    warp := State.warp?_modWarp_of h.warp g, byte := h.byte, stepped := h.stepped, others := h.others
    unawaited := fun hu => Unawaited.upd h.warp (h.unawaited hu) g (hg u) }

theorem read (h : DrainedTo hs s U u) (g : ReadLeft U V) : DrainedTo hs s V u :=
  { g.sameElsewhere h.toSameElsewhere with
    warp := (g.warp? _).trans h.warp, byte := fun k => (g.sameBytes k).trans (h.byte k)
    stepped := fun l hv hl => (by simp only [Mem.version, g.ver] : V.mem.version l = U.mem.version l).trans (h.stepped l hv hl)
    others := fun l hl => (by simp only [Mem.version, g.ver] : V.mem.version l = U.mem.version l).trans (h.others l hl)
    unawaited := fun hu v hv => h.unawaited hu v (g.warps ▸ hv) }

theorem pendsNone (h : DrainedTo hs s U u) {c : Ctx} (hc : c.wid = s.cur) (ht : u.timer = false) (hf : u.faults = []) : U.pendingTrap c = none := by
  rw [State.pendingTrap, hc, h.warp]
  dsimp only
  rw [ht, hf]
  rfl

theorem disarmed (h : DrainedTo hs s U u) (hs' : s.ap! offInjMask = 0) : U.ap! offInjMask = 0 := (State.ap!_of_ap h.ap _).trans hs'

end DrainedTo

section
variable {s S : State} {w u : Warp} {lanes : Word} {on : Nat × Nat → Bool} {p : Held → Bool}

/-- The drain of held bytes (R166, R173). -/
theorem Begins.drain (h : Begins s S u) (hu : Unawaited s s.cur → Unawaited S s.cur) (hr : u.rsb = w.rsb) (hb : ∀ h ∈ w.rsb, IsByte h)
    (hp : ∀ h, (laneIn lanes (Warp.heldLane h) && on (Warp.heldLine h)) = p h) :
    DrainedTo (w.rsb.filter p) s (S.drain s.cur lanes on) (u.drained p) := by
  obtain ⟨hs, hhs⟩ : ∃ hs, hs = w.rsb.filter fun h => p h && Warp.recorded h := ⟨_, rfl⟩
  have hplain : ∀ h ∈ hs, IsByte h ∧ Warp.recorded h = true := by
    intro h hh
    rw [hhs, List.mem_filter, Bool.and_eq_true] at hh
    exact ⟨hb h hh.1, hh.2.2⟩
  have hlines : ∀ l, l ∈ globalLines hs ↔ ∃ key, heldKeys hs key ∧ lineOf key = l := fun l => mem_globalLines hplain
  have hkeys : ∀ a, heldKeys hs a ↔ heldKeys (w.rsb.filter p) a := fun a => by rw [hhs]; exact heldKeys_recorded
  obtain ⟨P, hP⟩ : ∃ P, P = hs.foldl (fun t h => t.perform (coreOf s.cur) u.blk h) S := ⟨_, rfl⟩
  have hdrain : S.drain s.cur lanes on = ((P.modMem fun m => m.heal (keysHeld hs)).sealed (ownerOf (coreOf s.cur) u.ctx) (globalLines hs)).modWarp
      s.cur (Warp.drained p) := by
    rw [hP, State.drain, h.warp]
    simp only [hp, hr, ← hhs]
    rfl
  have hwrites : HomesLeft (heldKeys hs) S P := by
    rw [hP]
    refine HomesLeft.performs (fun h hh => ?_) S
    obtain ⟨⟨key, lane, x, nib, rfl⟩, hrec⟩ := hplain h hh
    exact ⟨key, lane, x, nib, rfl, lane, x, nib, hh, by simpa [Warp.recorded] using hrec⟩
  have hheal := ReadLeft.heal P (keysHeld hs)
  obtain ⟨H, hH⟩ : ∃ H, H = P.modMem fun m => m.heal (keysHeld hs) := ⟨_, rfl⟩
  rw [← hH] at hheal hdrain
  have hhomes := (hwrites.read hheal).trans (.sealed (lines := globalLines hs) (fun l hl => (hlines l).1 hl) (ownerOf (coreOf s.cur) u.ctx) H)
  have hver : ∀ l, H.mem.version l = s.mem.version l := fun l => by
    have hsame : H.mem.ver = s.mem.ver :=
      hheal.ver.trans ((hP ▸ State.ver_performs (fun h hh => (hplain h hh).1) S).trans (by rw [h.mem]))
    simp only [Mem.version, hsame]
  have hdone : DrainedTo (w.rsb.filter p) s (H.sealed (ownerOf (coreOf s.cur) u.ctx) (globalLines hs)) u := by
    refine { hhomes.sameElsewhere h.toSameElsewhere with
      warp := (hhomes.warp? _).trans h.warp, byte := fun k => ?_, stepped := fun l hv hl => ?_, others := fun l hl => ?_, unawaited := fun hq v hv => ?_ }
    · refine (Mem.byte_of_bytes (Mem.foldl_sealLine_bytes ..) k).trans ((hheal.sameBytes k).trans ?_)
      rw [hP, State.byte_performs (fun h hh => (hplain h hh).1), hhs, Warp.seen_recorded, h.mem]
    · simp only [← hkeys] at hl
      exact (Mem.version_seals_in (nodup_distinct _) ((hlines l).2 hl) hv _ _).trans (congrArg (· + 1) (hver l))
    · refine (hhomes.ver l fun a ha => hl a ((hkeys a).1 ha)).trans ?_
      rw [h.mem]
    · exact hu hq v (hhomes.warps ▸ hv)
  rw [hdrain]
  exact hdone.modWarp (Warp.drained p) fun _ => rfl

end

/-! ### A commit point of a warp that holds plain bytes (R168) -/

/-- The warp after step 2 of a commit point, but for its buffer (R168, R250, R409). -/
def Warp.counted (w : Warp) (c : Ctx) : Warp :=
  { w with rcount := 0, lwc := 0, stage := none, wr := (Tab.mapv w.wr (fun _ m => m &&& ~~~c.en)).filter (fun e => e.2 != 0) }

/-- The warp after step 3 of a commit point: its lanes' new regions (R168, R289, R290). -/
def Warp.renewed (w : Warp) (c : Ctx) : Warp :=
  { w with
    rev := onLanes 0 w.rev c.en (fun _ => c.here), rseq := onLanes 0 w.rseq c.en (fun l => w.seqOf l + 1),
    budget := onLanes 0 w.budget c.en (fun _ => 32) }

/-- The warp waits at its commit for the lines that are still to drain (log entry 1). -/
def Warp.drainsOn (w : Warp) (c : Ctx) : Warp := { w with stage := some { kind := 4, lanes := c.iss, step := 2 } }

/-- A held byte of memory whose line is at home and not poisoned. -/
def PlainByte (s : State) (h : Held) : Prop :=
  ∃ key lane x nib, h = .byte .g key lane x nib ∧ isAp key = false ∧ s.broken (lineOf key) = false ∧ s.leasedOut (lineOf key) = false

theorem PlainByte.isByte {s : State} {h : Held} (hp : PlainByte s h) : IsByte h := by
  obtain ⟨key, lane, x, nib, rfl, -⟩ := hp
  exact ⟨key, lane, x, nib, rfl⟩

section
variable {s : State} {f : Form} {w : Warp} {B : State → State}

/-- The state in which a commit point that has issued looks at what its lanes hold. -/
theorem Begins.commits (hr : Ready f 0 s w) : Begins s (s.begun f 0 w) (w.atIssue f s) := Begins.begun hr.cur f 0

theorem State.drainLines_plain {lanes : Word} (hb : ∀ h ∈ w.rsb, PlainByte s h) {S : State} {u : Warp} (hS : Begins s S u) (hu : u.rsb = w.rsb)
    {l : Nat} (hl : l ∈ S.drainLines s.cur lanes) : s.broken l = false ∧ s.leasedOut l = false := by
  rw [State.drainLines, hS.warp] at hl
  dsimp only at hl
  rw [hu, mem_globalLines (fun h hh => ?_)] at hl
  · obtain ⟨key, ⟨lane, x, nib, hh, -⟩, rfl⟩ := hl
    obtain ⟨key', _, _, _, e, -, hbroken, hleased⟩ := hb _ (List.mem_filter.1 hh).1
    cases e
    exact ⟨hbroken, hleased⟩
  · obtain ⟨hmem, hrec⟩ := List.mem_filter.1 hh
    exact ⟨(hb h hmem).isByte, (Bool.and_eq_true_iff.1 hrec).2⟩

theorem State.heldReds_plain {lanes : Word} (hb : ∀ h ∈ w.rsb, IsByte h) {S : State} {u : Warp} (hS : Begins s S u) (hu : u.rsb = w.rsb) :
    S.heldReds s.cur lanes = 0 := by
  rw [State.heldReds, hS.warp]
  dsimp only
  rw [hu, List.length_eq_zero_iff, List.filter_eq_nil_iff]
  intro h hh
  obtain ⟨key, lane, x, nib, rfl⟩ := hb h hh
  simp

/-- Step 1 of a commit point that has issued, and holds plain bytes, finds nothing. -/
theorem State.commitPoint_plain (hr : Ready f 0 s w) (hb : ∀ h ∈ w.rsb, PlainByte s h) :
    (s.begun f 0 w).commitPoint (issueCtx f s w) noCheck B = (s.begun f 0 w).commitFrom (issueCtx f s w) w.ctx 64 B := by
  have hS := Begins.begun hr.cur f 0
  have hbroken : ∀ l, (s.begun f 0 w).broken l = s.broken l := fun l => by
    unfold State.broken State.hostUp
    rw [hS.mem, hS.ap]
  have hpoison : (s.begun f 0 w).commitPoison s.cur (issueCtx f s w).en = none := by
    have hfind : ((s.begun f 0 w).drainLines s.cur (issueCtx f s w).en).find? (s.begun f 0 w).broken = none := by
      rw [List.find?_eq_none]
      intro l hl
      rw [hbroken, (State.drainLines_plain hb hS rfl hl).1]
      exact Bool.false_ne_true
    rw [State.commitPoison, hfind]
    dsimp only
    rw [State.commitMerge, hS.mem, hr.sound]
    rfl
  have hstep : (w.atIssue f s).stageStep = 0 := rfl
  unfold State.commitPoint State.commitTag
  rw [issueCtx_wid, hS.warp]
  dsimp only
  rw [hstep, if_neg (by decide), if_neg (by decide), tagFlies_64, if_neg Bool.false_ne_true, hpoison]
  rfl

/-- Whether others may observe a line of the commit before the rest (log entry 1). -/
def State.drainsInParts (s : State) (c : Ctx) : Bool := s.apart && decide (1 < (s.linesDue c.wid c.en).length)

/-- Step 2 of a commit point that holds plain bytes at home waits for nothing. -/
theorem State.commitFrom_plain (hr : Ready f 0 s w) (hb : ∀ h ∈ w.rsb, PlainByte s h)
    (ht : (s.begun f 0 w).drainsInParts (issueCtx f s w) = false →
      ((s.begun f 0 w).commitStep (issueCtx f s w)).pendingTrap (issueCtx f s w) = none) :
    (s.begun f 0 w).commitFrom (issueCtx f s w) w.ctx 64 B =
      if (s.begun f 0 w).drainsInParts (issueCtx f s w) then (s.begun f 0 w).commitPart (issueCtx f s w) 64
      else B (((s.begun f 0 w).commitStep (issueCtx f s w)).newRegion (issueCtx f s w)) := by
  have hS := Begins.begun hr.cur f 0
  have hhome : ∀ l ∈ (s.begun f 0 w).drainLines s.cur (issueCtx f s w).en, (s.begun f 0 w).leasedOut l = false :=
    fun l hl => (hS.leasedOut l).trans (State.drainLines_plain hb hS rfl hl).2
  rw [State.commitFrom, State.payHeld_none (State.heldReds_plain (fun h hh => (hb h hh).isByte) hS rfl), issueCtx_wid,
    State.whenHome_goes (c := issueCtx f s w) _ hS.warp rfl hhome, ← issueCtx_wid f s w, ← State.drainsInParts]
  cases hpart : (s.begun f 0 w).drainsInParts (issueCtx f s w) with
  | true => rfl
  | false =>
    rw [if_neg Bool.false_ne_true, if_neg Bool.false_ne_true]
    dsimp only
    rw [ht hpart]

/-- What the lanes of a commit hold. -/
def heldBy (en : Word) (h : Held) : Bool := laneIn en (Warp.heldLane h)

/-- What the lanes of a commit hold of one line. -/
def heldOf (en : Word) (line : Nat) (h : Held) : Bool := laneIn en (Warp.heldLane h) && Warp.heldLine h == (0, line)

/-- Step 2 of a commit point that nothing waits for: the enabled lanes' bytes drain. -/
theorem State.commitStep_drains (hr : Ready f 0 s w) (hb : ∀ h ∈ w.rsb, IsByte h) (hu : Unawaited s s.cur) :
    DrainedTo (w.rsb.filter (heldBy (issueCtx f s w).en)) s ((s.begun f 0 w).commitStep (issueCtx f s w))
      (((w.atIssue f s).drained (heldBy (issueCtx f s w).en)).counted (issueCtx f s w)) := by
  have hdrain := (Begins.begun hr.cur f 0).drain (Unawaited.begun hr.cur) rfl hb (lanes := (issueCtx f s w).en) (on := fun _ => true)
    (p := heldBy (issueCtx f s w).en) fun h => Bool.and_true _
  have hcommit : DrainedTo (w.rsb.filter (heldBy (issueCtx f s w).en)) s ((s.begun f 0 w).commit s.cur (issueCtx f s w).en)
      ((w.atIssue f s).drained (heldBy (issueCtx f s w).en)) := hdrain.read (.ite (fun _ => .refl _) fun _ => .modMem _ _ rfl rfl)
  have hhome := hcommit.read (ReadLeft.foldl (f := fun t l => t.homeLine (coreOf s.cur) l) (fun _ l hs => .homeLine hs (coreOf s.cur) l)
    ((s.begun f 0 w).drainLines s.cur (issueCtx f s w).en) (hcommit.disarmed hr.disarmed))
  have hcount := hhome.modWarp (fun v => v.counted (issueCtx f s w)) fun _ => rfl
  have hstep : (s.begun f 0 w).commitStep (issueCtx f s w) = ((((s.begun f 0 w).drainLines s.cur (issueCtx f s w).en).foldl
      (fun t l => t.homeLine (coreOf s.cur) l) ((s.begun f 0 w).commit s.cur (issueCtx f s w).en)).modWarp s.cur
        fun v => v.counted (issueCtx f s w)).meetFences s.cur := rfl
  rw [hstep, State.meetFences_none (hcount.unawaited hu)]
  exact hcount

theorem State.linesDue_begun (hr : Ready f 0 s w) (en : Word) : (s.begun f 0 w).linesDue s.cur en = s.linesDue s.cur en := by
  rw [State.linesDue, State.linesDue, State.begun_warp hr.cur, hr.cur]
  rfl

theorem State.drainsInParts_begun (hr : Ready f 0 s w) : (s.begun f 0 w).drainsInParts (issueCtx f s w) = s.drainsInParts (issueCtx f s w) := by
  rw [State.drainsInParts, State.drainsInParts, issueCtx_wid, State.linesDue_begun hr, State.begun_apart]

/-- A line of a commit drains alone, and the commit goes on later. -/
theorem State.commitPart_drains (hr : Ready f 0 s w) (hb : ∀ h ∈ w.rsb, IsByte h)
    (hdue : 1 < ((s.begun f 0 w).linesDue s.cur (issueCtx f s w).en).length) :
    ∃ line, (0, line) ∈ s.linesDue s.cur (issueCtx f s w).en ∧
      DrainedTo (w.rsb.filter (heldOf (issueCtx f s w).en line)) s ((s.begun f 0 w).commitPart (issueCtx f s w) 64)
        (((w.atIssue f s).drained (heldOf (issueCtx f s w).en line)).drainsOn (issueCtx f s w)) := by
  obtain ⟨x, hx⟩ : ∃ x, x = ((s.begun f 0 w).linesDue s.cur (issueCtx f s w).en).getD
    ((Config.freeWord (s.begun f 0 w).own.freeCount 0x166).toNat % ((s.begun f 0 w).linesDue s.cur (issueCtx f s w).en).length) (0, 0) := ⟨_, rfl⟩
  have hmem : x ∈ s.linesDue s.cur (issueCtx f s w).en := by
    rw [← State.linesDue_begun hr, hx, List.getD_eq_getElem _ _ (Nat.mod_lt _ (Nat.lt_of_succ_lt hdue))]
    exact List.getElem_mem _
  obtain ⟨line, rfl⟩ : ∃ line, x = (0, line) := by
    rw [State.linesDue, hr.cur] at hmem
    obtain ⟨h, hh, rfl⟩ := Warp.mem_linesHeld hmem
    obtain ⟨key, lane, v, nib, rfl⟩ := hb h (List.mem_filter.1 hh).1
    exact ⟨_, rfl⟩
  refine ⟨line, hmem, ?_⟩
  have hdrain := (Begins.begun hr.cur f 0).drain (Unawaited.begun hr.cur) rfl hb (lanes := (issueCtx f s w).en) (on := fun x => x == (0, line))
    (p := heldOf (issueCtx f s w).en line) fun h => rfl
  have hhome : DrainedTo (w.rsb.filter (heldOf (issueCtx f s w).en line)) s
      (if (0, line).1 = 0 && !isAp ((0, line).2 * 128) then
        ((s.begun f 0 w).drain s.cur (issueCtx f s w).en fun x => x == (0, line)).homeLine (coreOf s.cur) line
      else (s.begun f 0 w).drain s.cur (issueCtx f s w).en fun x => x == (0, line))
      ((w.atIssue f s).drained (heldOf (issueCtx f s w).en line)) :=
    hdrain.read (.ite (fun _ => .homeLine (hdrain.disarmed hr.disarmed) ..) fun _ => .refl _)
  have hpart : (s.begun f 0 w).commitPart (issueCtx f s w) 64 = (if (0, line).1 = 0 && !isAp ((0, line).2 * 128) then
        ((s.begun f 0 w).drain s.cur (issueCtx f s w).en fun x => x == (0, line)).homeLine (coreOf s.cur) line
      else (s.begun f 0 w).drain s.cur (issueCtx f s w).en fun x => x == (0, line)).modWarp s.cur fun v => v.drainsOn (issueCtx f s w) := by
    rw [State.commitPart, issueCtx_wid]
    dsimp only
    rw [← hx]
    rfl
  rw [hpart]
  exact hhome.modWarp (fun v => v.drainsOn (issueCtx f s w)) fun _ => rfl

/-! ### yield -/

/-- The body of a `yield`, behind its commit. -/
def Ctx.yields (c : Ctx) (s : State) : State := (s.leave c).modWarp c.wid (Warp.deferring c.en)

theorem execYield_eq (s : State) : exec .yield s
    = .next (s.issue { bForm 2 with yields := true } (fun _ _ => true) (fun _ _ => 0) fun c s => s.commitPoint c noCheck c.yields) := rfl

/-- A `yield` that is ready and holds plain bytes at home. -/
theorem execYield_plain (hf : f = { bForm 2 with yields := true }) (hr : Ready f 0 s w) (he : (issueCtx f s w).en ≠ 0)
    (hb : ∀ h ∈ w.rsb, PlainByte s h)
    (ht : s.drainsInParts (issueCtx f s w) = false → ((s.begun f 0 w).commitStep (issueCtx f s w)).pendingTrap (issueCtx f s w) = none) :
    exec .yield s = .next ((if s.drainsInParts (issueCtx f s w) then (s.begun f 0 w).commitPart (issueCtx f s w) 64
      else (issueCtx f s w).yields (((s.begun f 0 w).commitStep (issueCtx f s w)).newRegion (issueCtx f s w))).finish f (issueCtx f s w) w) := by
  rw [execYield_eq, ← hf, State.issue_ready _ _ _ hr rfl rfl, if_neg he, State.commitPoint_plain hr hb,
    State.commitFrom_plain hr hb (by rwa [State.drainsInParts_begun hr]), State.drainsInParts_begun hr]

theorem Warp.drained_rsb (p : Held → Bool) (w : Warp) : (w.drained p).rsb = w.rsb.filter fun h => !p h := rfl

/-- The warp behind the commit, before step 5. -/
def Warp.yielding (w : Warp) (c : Ctx) (p : Held → Bool) : Warp := (((w.drained p).counted c).renewed c).deferring c.en

theorem Warp.yielding_left (w : Warp) (c : Ctx) (p : Held → Bool) :
    ((((w.drained p).counted c).renewed c).left c).deferring c.en = (w.yielding c p).left c := rfl

theorem Warp.yielding_fields (w : Warp) (c : Ctx) (p : Held → Bool) :
    (w.yielding c p).pcv = w.pcv ∧ (w.yielding c p).blocked = w.blocked ∧ SameRegs w (w.yielding c p) ∧ (w.yielding c p).rcount = 0 ∧
      (w.yielding c p).rsb = (w.drained p).rsb ∧ (w.yielding c p).rev = onLanes 0 w.rev c.en fun _ => c.here :=
  ⟨rfl, rfl, ⟨rfl, rfl, rfl⟩, rfl, rfl, rfl⟩

theorem Warp.drained_counted (w : Warp) (c : Ctx) (p : Held → Bool) :
    ((w.drained p).counted c).timer = w.timer ∧ ((w.drained p).counted c).faults = w.faults := ⟨rfl, rfl⟩

theorem Drained.finish {hs : List Held} {T : State} (h : Drained hs s T) {c : Ctx} (hc : c.wid = s.cur) : Drained hs s (T.finish f c w) :=
  { h.toSameElsewhere.finish c hc with byte := h.byte, stepped := h.stepped, others := h.others }

/-- What a `yield` whose bytes have drained leaves of its warp and of the machine. -/
theorem DrainedTo.yields {p : Held → Bool} {hs : List Held} {C : State}
    (h : DrainedTo hs s C (((w.atIssue f s).drained p).counted (issueCtx f s w))) :
    ∃ w', (((issueCtx f s w).yields (C.newRegion (issueCtx f s w))).finish f (issueCtx f s w) w).warp? s.cur = some w' ∧
      LeftBehind f s w w' ∧ SameRegs w w' ∧ w'.rcount = 0 ∧ w'.rsb = (w.rsb.filter fun h => !p h) ∧
      Drained hs s (((issueCtx f s w).yields (C.newRegion (issueCtx f s w))).finish f (issueCtx f s w) w) := by
  have hyields : (issueCtx f s w).yields (C.newRegion (issueCtx f s w))
      = C.modWarp s.cur fun v => ((v.renewed (issueCtx f s w)).left (issueCtx f s w)).deferring (issueCtx f s w).en := by
    rw [Ctx.yields, State.leave_eq, State.newRegion, issueCtx_wid, State.modWarp_modWarp, State.modWarp_modWarp]
    rfl
  obtain ⟨hpcv, hblocked, hregs, hrcount, hrsb, hrev⟩ := (w.atIssue f s).yielding_fields (issueCtx f s w) p
  have hT := h.modWarp (fun v => ((v.renewed (issueCtx f s w)).left (issueCtx f s w)).deferring (issueCtx f s w).en) fun _ => rfl
  rw [← hyields, Warp.yielding_left] at hT
  generalize (issueCtx f s w).yields (C.newRegion (issueCtx f s w)) = T at hT
  generalize (w.atIssue f s).yielding (issueCtx f s w) p = u at *
  have hrevOf : ∀ l < 32, laneIn (issueCtx f s w).en l = false → u.revOf l = w.revOf l := fun l hl hn => by
    have hget := getD_onLanes 0 w.rev (issueCtx f s w).en (fun _ => (issueCtx f s w).here) hl 0
    rw [hn, if_neg Bool.false_ne_true] at hget
    rw [Warp.revOf, hrev, Warp.atIssue_rev]
    exact hget
  obtain ⟨w', hw', hleft, hregs', hrcount', -⟩ := State.leave_finish hT.warp hpcv hblocked hrevOf
  refine ⟨w', hw', hleft, ((SameRegs.atIssue w f s).trans hregs).trans hregs', hrcount'.trans hrcount, ?_, hT.toDrained.finish (c := issueCtx f s w) rfl⟩
  have hend := Warp.finished_same (u.left (issueCtx f s w)) f (issueCtx f s w) w
  rw [Option.some.inj (hw'.symm.trans (State.warp?_modWarp_of hT.warp _))]
  exact hend.rsb.trans ((Warp.left_rsb ..).trans hrsb)

theorem Warp.drainsOn_fields (w : Warp) (c : Ctx) (p : Held → Bool) :
    ((w.drained p).drainsOn c).pcv = w.pcv ∧ ((w.drained p).drainsOn c).blocked = w.blocked ∧ SameRegs w ((w.drained p).drainsOn c) ∧
      ((w.drained p).drainsOn c).rcount = w.rcount ∧ ((w.drained p).drainsOn c).rsb = (w.drained p).rsb ∧
      ((w.drained p).drainsOn c).stage = some { kind := 4, lanes := c.iss, step := 2 } :=
  ⟨rfl, rfl, ⟨rfl, rfl, rfl⟩, rfl, rfl, rfl⟩

/-- What a `yield` of which one line has drained leaves of its warp and of the machine. -/
theorem DrainedTo.waits {p : Held → Bool} {hs : List Held} {C : State}
    (h : DrainedTo hs s C (((w.atIssue f s).drained p).drainsOn (issueCtx f s w))) :
    ∃ w', (C.finish f (issueCtx f s w) w).warp? s.cur = some w' ∧ (w'.rsb = w.rsb.filter fun h => !p h) ∧ SameRegs w w' ∧ w'.rcount = w.rcount ∧
      (∀ l, laneIn w.group l = true → w'.pc l = w.pc l) ∧ w'.stage = some { kind := 4, lanes := w.group, step := 2 } ∧
      Drained hs s (C.finish f (issueCtx f s w) w) := by
  obtain ⟨hpcv, hblocked, hregs, hrcount, hrsb, hstage⟩ := (w.atIssue f s).drainsOn_fields (issueCtx f s w) p
  generalize ((w.atIssue f s).drained p).drainsOn (issueCtx f s w) = u at *
  have hend := Warp.finished_same u f (issueCtx f s w) w
  refine ⟨_, State.warp?_modWarp_of h.warp _, hend.rsb.trans hrsb, ((SameRegs.atIssue w f s).trans hregs).trans hend.regs, hend.rcount.trans hrcount,
    fun l hl => ?_, hend.stage.trans hstage, h.toDrained.finish (c := issueCtx f s w) rfl⟩
  have hfree : laneIn u.blockedLanes l = false := by
    rw [blockedLanes_of_blocked (hblocked.trans (Warp.atIssue_blocked ..))]
    exact Warp.group_unblocked hl
  refine (Warp.finished_pc u f (issueCtx f s w) w (laneIn_lt hl) hfree).1.trans ?_
  rw [Warp.pc, hpcv]
  rfl

/-- The line of a commit that is due is one of which a lane holds a byte. -/
theorem heldKeys_of_due {en : Word} {line : Nat} (hw : s.warp? s.cur = some w) (hb : ∀ h ∈ w.rsb, IsByte h) (hl : (0, line) ∈ s.linesDue s.cur en) :
    ∃ key, heldKeys (w.rsb.filter (heldOf en line)) key ∧ lineOf key = line := by
  rw [State.linesDue, hw] at hl
  obtain ⟨h, hh, hline⟩ := Warp.mem_linesHeld hl
  obtain ⟨hmem, hmine⟩ := List.mem_filter.1 hh
  obtain ⟨hlane, hrec⟩ := Bool.and_eq_true_iff.1 hmine
  obtain ⟨key, lane, x, nib, rfl⟩ := hb h hmem
  refine ⟨key, ⟨lane, x, nib, List.mem_filter.2 ⟨hmem, ?_⟩, by simpa [Warp.recorded] using hrec⟩, congrArg Prod.snd hline⟩
  rw [heldOf, hlane, hline]
  simp

theorem lineOf_heldOf {hs : List Held} {en : Word} {line key : Nat} (h : heldKeys (hs.filter (heldOf en line)) key) : lineOf key = line := by
  obtain ⟨lane, x, nib, hmem, -⟩ := h
  have hheld := (Bool.and_eq_true_iff.1 (List.mem_filter.1 hmem).2).2
  exact congrArg Prod.snd (eq_of_beq hheld)

end

/-- Settles O17: the drain pokes each held byte, of which a load of the warp saw the same, and seals each line once; where others may look between
two lines, it is the drain of one. -/
theorem commitDrainsHeldBytes : Obligations.CommitDrainsHeldBytes := by
  refine ⟨?_, ?_⟩
  · intro f c s w v hf hc hr he htimer hfaults hmarks hu hv hb hone
    subst hc
    have hbytes : ∀ h ∈ w.rsb, IsByte h := fun h hh => PlainByte.isByte (s := s) (hb h hh)
    have hdone := State.commitStep_drains hr hbytes hu
    have hpending : ((s.begun f 0 w).commitStep (issueCtx f s w)).pendingTrap (issueCtx f s w) = none :=
      hdone.pendsNone rfl ((Warp.drained_counted ..).1.trans htimer) ((Warp.drained_counted ..).2.trans hfaults)
    have hwhole : s.drainsInParts (issueCtx f s w) = false := by
      rw [State.drainsInParts, issueCtx_wid]
      rcases hone with happ | hlen
      · rw [happ, Bool.false_and]
      · rw [decide_eq_false (Nat.not_lt.2 hlen), Bool.and_false]
    obtain ⟨w', hw', hleft, hregs, hrcount, hrsb, hdrained⟩ := hdone.yields
    have hexec := execYield_plain hf hr he hb fun _ => hpending
    rw [hwhole, if_neg Bool.false_ne_true] at hexec
    have hvrsb : v.rsb = w.rsb.filter (heldBy (issueCtx f s w).en) := by rw [hv]; rfl
    refine ⟨_, w', hexec, hw', hleft, hregs, hrcount, hrsb, fun key => ?_, fun line hv ⟨key, lane, x, nib, hmem, hnib, hline⟩ => ?_,
      fun line hout => ?_, hdrained.toSameElsewhere⟩
    · rw [hdrained.byte, Warp.forward_eq, hvrsb]
    · exact hdrained.stepped line hv ⟨key, ⟨lane, x, nib, hvrsb ▸ hmem, hnib⟩, hline⟩
    · exact hdrained.others line fun key ⟨lane, x, nib, hmem, hnib⟩ => hout key lane x nib (hvrsb ▸ hmem) hnib
  · intro f c s w hf hc hr he hb happ hdue
    subst hc
    have hbytes : ∀ h ∈ w.rsb, IsByte h := fun h hh => PlainByte.isByte (s := s) (hb h hh)
    have hpart : s.drainsInParts (issueCtx f s w) = true := by
      rw [State.drainsInParts, issueCtx_wid, happ, Bool.true_and, decide_eq_true hdue]
    obtain ⟨line, hline, hdrained⟩ := State.commitPart_drains hr hbytes (by rwa [State.linesDue_begun hr])
    have hexec := execYield_plain hf hr he hb fun h => absurd (hpart.symm.trans h) Bool.noConfusion
    rw [hpart, if_pos rfl] at hexec
    obtain ⟨w', hw', hrsb, hregs, hrcount, hpc, hstage, hleft⟩ := hdrained.waits
    refine ⟨_, w', line, _, hexec, hw', hline, rfl, hrsb, hleft.byte, fun l hl => ?_, fun hv => ?_, hregs, hrcount, hpc, hstage,
      hleft.toSameElsewhere⟩
    · exact hleft.others l fun key hkey e => hl (e.symm.trans (lineOf_heldOf hkey))
    · exact hleft.stepped line hv (heldKeys_of_due hr.cur hbytes hline)

end Sys2Proof.Machine
end


section
/-!
PROOFS. `xfence` to the copy engine (spec/06 R184). Settles O18 of spec/06_isa_memory.md.
-/

namespace Sys2Proof.Machine

theorem State.core_moved (T : State) (wid k : Nat) (g : Warp → Warp) (f : Form) (c : Ctx) (w : Warp) :
    ((T.modWarp wid g).finish f c w).core k = T.core k := rfl

theorem State.begun_windows (s : State) (f : Form) (n : Nat) (w : Warp) (k : Nat) : ((s.begun f n w).core k).windows = (s.core k).windows := by
  have hmoved : ∀ (T : State) (g : Warp → Warp), (T.modWarp s.cur g).core k = T.core k := fun _ _ => rfl
  unfold State.begun
  rw [hmoved]
  split
  · rfl
  · rw [State.core_modCore]
    split
    · next h =>
      rw [h]
      rfl
    · rfl

/-- The core whose copy engine has dropped its windows of a context. -/
def Core.dropped (k : Core) (ctx : Nat) : Core := { k with windows := Tab.keep k.windows fun _ x => x.ctx != ctx }

/-- An `xfence` from the mfetch path keeps the windows of the copy engine whose contexts are others. -/
theorem execXfence_windows {s : State} {w : Warp} {g : Nat} (sc : Scope) (hr : Ready (eForm g 2) 0 s w) (he : (issueCtx (eForm g 2) s w).en ≠ 0) :
    ∃ t, exec (.xfence g sc .mfetch .copy) s = .next t ∧
      (t.core (coreOf s.cur)).windows = Tab.keep (s.core (coreOf s.cur)).windows fun _ x => x.ctx != w.ctx := by
  have hexec : exec (.xfence g sc .mfetch .copy) s = .next (s.issue (eForm g 2) (fun _ _ => true) (fun _ _ => 0) fun c s =>
      (c.xfenceTo sc .copy s).modWarp c.wid fun w => w.advance c.iss c.len) := rfl
  have hto : (issueCtx (eForm g 2) s w).xfenceTo sc .copy (s.begun (eForm g 2) 0 w)
      = (s.begun (eForm g 2) 0 w).modCore (coreOf s.cur) fun k => k.dropped w.ctx := by
    rw [Ctx.xfenceTo, issueCtx_wid, State.withWarp_of (State.begun_warp hr.cur)]
    rfl
  rw [State.issue_ready (fun _ _ => true) (fun _ _ => 0) _ hr rfl rfl, if_neg he, hto] at hexec
  refine ⟨_, hexec, ?_⟩
  rw [State.core_moved, State.core_modCore, if_pos rfl, Core.dropped, State.begun_windows]

/-! ### An engine with two windows of one number -/

/-- A window of a context. -/
def windowOf (ctx : Nat) : Window := { ctx := ctx, handle := 0, desc := [], off0 := 0, rows := [] }

def fencer : Warp := Warp.start 1 2 0 .u 512 0x1000

/-- A warp of context 1 alone on core 0 with a full bucket; the table of the copy engine's windows names window 0 twice, first for context 1. -/
def twoWindows : State :=
  { State.reset with
    warps := [(0, fencer)], cores := [(0, { State.reset.core 0 with level := 1024 * 256, windows := [(0, windowOf 1), (0, windowOf 2)] })] }

theorem twoWindows_commitsEmpty : CommitsEmpty twoWindows fencer := ⟨rfl, rfl, rfl, rfl, by unfold Unawaited; decide +kernel⟩

theorem twoWindows_ready : Ready (eForm 0 2) 0 twoWindows fencer :=
  { cur := by decide +kernel, lanes := by decide +kernel, level := rfl, names := by decide +kernel, served := by decide +kernel
    disarmed := by decide +kernel, sound := rfl, held := by decide +kernel, fresh := rfl, owesNone := rfl, seesNone := rfl
    pays := by decide +kernel }

/-- Refutes O18: where a table of windows names one number twice, the window of the fence's context goes and the other context's, which it
hid, is then found at that number. -/
theorem not_fencesComplete : ¬ Obligations.FencesComplete := by
  intro h
  have hen : (issueCtx (eForm 0 2) twoWindows fencer).en ≠ 0 := by decide +kernel
  obtain ⟨u, hu, hwindows⟩ := execXfence_windows .dv twoWindows_ready hen
  obtain ⟨t, w', ht, -, -, -, -, -, -, -, hcopy, -⟩ := h.2.2 0 .dv .mfetch .copy _ twoWindows fencer rfl twoWindows_commitsEmpty twoWindows_ready hen
  cases hu.symm.trans ht
  have hfound : Tab.look (u.core (coreOf twoWindows.cur)).windows 0 = some (windowOf 2) := by
    rw [hwindows]
    decide +kernel
  have hbefore : Tab.look (twoWindows.core (coreOf twoWindows.cur)).windows 0 = some (windowOf 1) := by decide +kernel
  have hsame := (hcopy rfl 0 _ hfound).2
  exact absurd (hbefore.symm.trans hsame) (by decide)

end Sys2Proof.Machine
end


section
/-!
PROOFS. The walk of a cache control instruction may write a dirty line back (spec/06 R176; spec/10 R277, R307).
Settles O25 of spec/06_isa_memory.md.
-/

namespace Sys2Proof.Machine

/-! ### Dirty lines that walks write back -/

theorem State.seatLine_dirty {s : State} (hs : Sound s) (line : Nat) :
    (s.seatLine line).mem.dirty = (s.mem.seat (s.victim line) line).dirty := by
  have he : s.mem.upset.isEmpty = true := by rw [hs.noError]; rfl
  unfold State.seatLine
  simp only [he, if_true]

theorem State.cross_mem (s : State) (d h n : Nat) : (s.cross d h n).mem = s.mem := by
  unfold State.cross
  split <;> rfl

/-- A read at home of a local line seats it, and does no more to the owner tags. -/
theorem State.homeLine_dirty {s : State} (hs : Sound s) (core : Nat) {line : Nat} (hl : isLocal (line * 128) = true) :
    (s.homeLine core line).mem.dirty = (s.mem.seat (s.victim line) line).dirty := by
  have hreread : s.reread line = s := if_pos (by simp [hs.noError])
  obtain ⟨price, hprice⟩ : ∃ price, price = if (!s.inL2 line) = true then 23 else 3 := ⟨_, rfl⟩
  have hslice := FetchLeft.sliceStep core s line price
  have hseat := State.seatLine_dirty (hslice.sound hs) line
  have hleft := ((hslice.trans (.seatLine core (hslice.sound hs) line)).trans (.dropExcl core _ line)).trans
    (.cross core _ (dieOfCore core) (dieOfLpa (line * 128)) 4)
  unfold State.homeLine
  rw [hl, hreread]
  dsimp only
  rw [← hprice]
  simp only [State.inject_disarmed (hleft.sound hs).disarmed, Bool.not_true, Bool.false_eq_true, if_false, State.cross_mem]
  exact hseat

/-- A line that no owner tag names stays so. -/
theorem Mem.seat_clean {m : Mem} {pick line n : Nat} (h : Tab.look m.dirty n = none) : Tab.look (m.seat pick line).dirty n = none := by
  unfold Mem.seat
  dsimp only
  split
  · rw [Tab.look_del]
    split
    · rfl
    · exact h
  · exact h

/-- A line whose set has one way left, which a dirty line takes, drives it out. -/
theorem Mem.seat_evicts {m : Mem} {pick line old f : Nat} (hu : m.upset = []) (hf : m.frames = [(f, old)]) (hne : old ≠ line)
    (hw : m.waysFor line = [f]) : Tab.look (m.seat pick line).dirty old = none := by
  have hframe : m.frameFor pick line = some (f, some old) := by
    have hof : m.frameOf line = none := by
      rw [Mem.frameOf, hf]
      simp [hne]
    rw [Mem.frameFor, hof, hw, hf]
    simp [Tab.look, Nat.mod_one]
  have hout : (m.frameFor pick line).filter (fun f => !f.2.any fun l => (Tab.look m.dirty l).isSome && (m.upsetAt (128 * l) 128).isSome)
      = some (f, some old) := by
    have hsound : ∀ k n, m.upsetAt k n = none := fun k n => by
      unfold Mem.upsetAt
      rw [hu]
      rfl
    simp [hframe, hsound]
  unfold Mem.seat
  dsimp only
  rw [hout]
  dsimp only [Option.bind_some]
  rw [Tab.look_del, if_pos rfl]

/-! ### The walk of an access -/

section
variable {s : State} {core ctx n : Nat} {va : DWord}

theorem State.homeLine_clean (hs : Sound s) (core line : Nat) (h : Tab.look s.mem.dirty n = none) :
    Tab.look (s.homeLine core line).mem.dirty n = none := by
  cases hl : isLocal (line * 128) with
  | true =>
    rw [State.homeLine_dirty hs core hl]
    exact Mem.seat_clean h
  | false =>
    unfold State.homeLine
    rw [hl]
    exact h

/-- The walk of a translation that no TLB holds drives out the line that its first table's line displaces. -/
theorem State.walked_evicts (hs : Sound s) {line f old : Nat} {r : List Nat} (ht : s.trailOf core ctx va = line :: r)
    (hl : isLocal (line * 128) = true) (hf : s.mem.frames = [(f, old)]) (hne : old ≠ line) (hw : s.mem.waysFor line = [f]) :
    Tab.look (s.walked core ctx va).mem.dirty old = none := by
  have hfirst : Sound (s.homeLine core line) ∧ Tab.look (s.homeLine core line).mem.dirty old = none := by
    refine ⟨(FetchLeft.homeLine hs core core line).sound hs, ?_⟩
    rw [State.homeLine_dirty hs core hl]
    exact Mem.seat_evicts hs.noError hf hne hw
  rw [State.walked, ht, List.foldl_cons]
  exact (State.foldl_keeps (P := fun t => Sound t ∧ Tab.look t.mem.dirty old = none) _
    (fun t l h => ⟨(FetchLeft.homeLine h.1 core core l).sound h.1, State.homeLine_clean h.1 core l h.2⟩) r hfirst).2

theorem LooksAlike.trailOf {t : State} (h : LooksAlike s t) (core ctx : Nat) (va : DWord) : t.trailOf core ctx va = s.trailOf core ctx va := by
  have htlb : t.tlbLook core ctx va = s.tlbLook core ctx va := by
    unfold State.tlbLook
    rw [h.tlb, h.mem, h.own]
  have hword : ∀ pfn idx, t.tableWord pfn idx = s.tableWord pfn idx := fun pfn idx => by rw [State.tableWord, State.tableWord, h.mem]
  have htrail : ∀ left pfn, t.trail va left pfn = s.trail va left pfn := by
    intro left
    induction left with
    | zero => exact fun _ => rfl
    | succ left ih =>
      intro pfn
      rw [State.trail, State.trail]
      simp only [hword, h.walkPoison, ih]
  rw [State.trailOf, State.trailOf, htlb, h.ap, htrail]

theorem State.fillTlb_dirty (hc : isService core = false) {l : Leaf} (hl : s.leaf core ctx va = .ok l) :
    (s.fillTlb core ctx va).mem.dirty = (s.walked core ctx va).mem.dirty := by
  rw [State.fillTlb, hc, if_neg Bool.false_ne_true, hl]
  rfl

end

/-! ### inv -/

section
variable {s : State} {w : Warp} {f : Form} {a p : Nat} {spots : List Spot}

/-- An `inv` that reaches its lines leaves the owner tags that its walk leaves. -/
theorem execInv_dirty (hf : f = bForm 2 (regPair true a)) (hr : Ready f (4 * (linesNamed (issueCtx f s w).en (w.xn true a)).length) s w)
    (he : (issueCtx f s w).en ≠ 0) (h : s.reach s.cur (issueCtx f s w).en .inval .g 1 1 (fun w l => w.xn true a l) = .ok spots) :
    ∃ t, exec (.inv a) s = .next t ∧ t.mem.dirty = ((s.begun f (4 * (linesNamed (issueCtx f s w).en (w.xn true a)).length) w).used
      (issueCtx f s w) .g fun w l => w.xn true a l).mem.dirty := by
  have hexec : exec (.inv a) s = .next (s.issue f (fun _ _ => true) (lineSteps 4 fun w l => w.xn true a l) fun c s =>
      c.cacheOp .inval (fun s l => s.invLine c.core l) (fun w l => w.xn true a l) s) := by
    rw [hf]
    rfl
  rw [State.issue_ready (fun _ _ => true) _ _ hr rfl (lineSteps_of hr.cur ..), if_neg he] at hexec
  refine ⟨_, hexec, ?_⟩
  have hinv : ∀ (ls : List Nat) (u : State), (ls.foldl (fun t l => t.invLine (coreOf s.cur) l) u).mem.dirty = u.mem.dirty :=
    fun ls u => State.foldl_keeps (P := fun t => t.mem.dirty = u.mem.dirty) (fun t l => t.invLine (coreOf s.cur) l) (fun _ _ h => h) ls rfl
  have hreach : (s.begun f (4 * (linesNamed (issueCtx f s w).en (w.xn true a)).length) w).reach s.cur (issueCtx f s w).en .inval .g 1 1
      (fun w l => w.xn true a l) = .ok spots := by
    rw [State.reach_begun hr.cur (by simp only [(SameRegs.atIssue w f s).xn]), h]
  rw [Ctx.cacheOp, issueCtx_wid, hreach]
  exact hinv (distinct (spots.map fun p => lineOf p.2)) _

/-- What an access of one page leaves of the owner tags. -/
theorem State.used_dirty {S : State} {c : Ctx} {u : Warp} {ea : Warp → Nat → DWord} (hS : Sound S) (hw : S.warp? c.wid = some u)
    (hp : distinct ((lanesOf c.en).map fun l => (ea u l).toNat / 65536) = [p]) :
    (S.used c .g ea).mem.dirty = (S.fillTlb (coreOf c.wid) u.ctx (BitVec.ofNat 64 (p * 65536))).mem.dirty := by
  have hleft := FetchLeft.fillTlb hS (coreOf c.wid) u.ctx (BitVec.ofNat 64 (p * 65536))
  rw [State.used, State.withWarp_of hw, State.tlbUsed, hp, List.foldl_cons, List.foldl_nil, State.inject_disarmed (hleft.sound hS).disarmed]

end

/-! ### A walk whose first table displaces a dirty line -/

/-- The first frame of the set of a line. -/
def firstFrame (line : Nat) : Nat := (4096 * sliceOf line + Config.l2Set line % 4096) * 24

/-- A warp of context 1 whose registers are zero. -/
def invalidator : Warp := Warp.start 1 2 0 .p 512 0x1000

/-- Its block, with sixteen banks of the register cache. -/
def invalidating : Block := { handlerBlock with kind := .grid, banksR := List.range 16, suspect := none }

/-- The warp alone on core 0 with a full bucket and no translation in a TLB. Tables on pages 1 to 4 put its context's page 0 on page 5; the set of
the first table's line, 512, has one way that is not quarantined, and in it lies line 9999, dirty. -/
def crowded : State :=
  { State.reset with
    mem := { State.reset.mem with
      bytes := [(0x10000, 1), (0x10002, 2), (0x20000, 1), (0x20002, 3), (0x30000, 1), (0x30002, 4), (0x40000, 0x3B), (0x40002, 5)]
      frames := [(firstFrame 512, 9999)], dirty := [(9999, 1)], quarantined := (List.range 23).map fun i => firstFrame 512 + (i + 1) }
    ap := [(0, 2), (offMmuRoot 1, 1 + 65536)], warps := [(0, invalidator)], blocks := [(2, invalidating)]
    cores := [(0, { State.reset.core 0 with level := 1024 * 256 })] }

theorem crowded_ways : crowded.mem.waysFor 512 = [firstFrame 512] := by
  have hways : (List.range 24).map (firstFrame 512 + ·) = firstFrame 512 :: crowded.mem.quarantined := by
    rw [List.range_succ_eq_map, List.map_cons, List.map_map]
    rfl
  have hfree : ∀ i, firstFrame 512 ≠ firstFrame 512 + (i + 1) := fun i => by omega
  have hfirst : crowded.mem.quarantined.contains (firstFrame 512) = false := by
    rw [Bool.eq_false_iff, ne_eq, List.contains_iff_mem]
    intro hmem
    obtain ⟨i, -, hi⟩ := List.mem_map.1 hmem
    exact hfree i hi.symm
  have hrest : (crowded.mem.quarantined.filter fun f => !crowded.mem.quarantined.contains f) = [] := by
    rw [List.filter_eq_nil_iff]
    intro f hf
    rw [List.contains_iff_mem.2 hf]
    exact Bool.false_ne_true
  have hset : crowded.mem.waysFor 512 = ((List.range 24).map (firstFrame 512 + ·)).filter fun f => !crowded.mem.quarantined.contains f := rfl
  rw [hset, hways, List.filter_cons, hfirst, hrest]
  rfl

/-- The form of the `inv` that names register pair 10. -/
abbrev inv10 : Form := bForm 2 (regPair true 10)

theorem crowded_ready : Ready (inv10) (4 * (linesNamed (issueCtx (inv10) crowded invalidator).en
    (invalidator.xn true 10)).length) crowded invalidator :=
  { cur := by decide +kernel, lanes := by decide +kernel, level := rfl, names := by decide +kernel, served := by decide +kernel
    disarmed := by decide +kernel, sound := rfl, held := by decide +kernel, fresh := rfl, owesNone := rfl, seesNone := rfl
    pays := by decide +kernel }

theorem crowded_reach : crowded.reach crowded.cur (issueCtx inv10 crowded invalidator).en .inval .g 1 1 (fun w l => w.xn true 10 l)
    = .ok ((List.range 32).map fun l => (l, 0x50000)) := by
  decide +kernel

/-- What O25 says of an `inv` and the owner tags. -/
theorem inv_keepsDirty (h : Obligations.CacheControlCompletes) {s : State} {w : Warp} {f : Form} {a : Nat} {spots : List Spot}
    (hf : f = bForm 2 (regPair true a)) (hr : Ready f (4 * (linesNamed (issueCtx f s w).en (w.xn true a)).length) s w)
    (he : (issueCtx f s w).en ≠ 0) (hs : s.reach s.cur (issueCtx f s w).en .inval .g 1 1 (fun w l => w.xn true a l) = .ok spots) :
    ∃ t, exec (.inv a) s = .next t ∧ t.mem.dirty = s.mem.dirty := by
  subst hf
  obtain ⟨t, w', ht, -, -, -, -, -, -, -, -, -, -, hinv, -⟩ := h (.inv a) _ _ s w spots rfl rfl hr he fun _ _ => hs
  exact ⟨t, ht, (hinv rfl).1⟩

/-- The access of that `inv` drives line 9999 out. -/
theorem crowded_evicts {S : State} (h : Begins crowded S (invalidator.atIssue inv10 crowded)) :
    Tab.look (S.used (issueCtx inv10 crowded invalidator) .g fun w l => w.xn true 10 l).mem.dirty 9999 = none := by
  have hsound : Sound S := ⟨(State.ap!_of_ap h.ap _).trans crowded_ready.disarmed, by rw [h.mem]; rfl⟩
  have hleaf : S.leaf 0 1 0 = .ok ⟨0, 0, 5, false, true, true, true, 0⟩ := (h.toLooksAlike.leaf 0 1 0).trans (by decide +kernel)
  have htrail : S.trailOf 0 1 0 = [512, 1024, 1536, 2048] := (h.toLooksAlike.trailOf 0 1 0).trans (by decide +kernel)
  have hpage : distinct ((lanesOf (issueCtx inv10 crowded invalidator).en).map fun l =>
      ((invalidator.atIssue inv10 crowded).xn true 10 l).toNat / 65536) = [0] := by decide +kernel
  have hevicted := State.walked_evicts hsound htrail (by decide) (by rw [h.mem]; rfl) (by decide) (by rw [h.mem]; exact crowded_ways)
  have hwalk : (S.fillTlb 0 1 0).mem.dirty = _ := State.fillTlb_dirty rfl hleaf
  rw [State.used_dirty (c := issueCtx inv10 crowded invalidator) (ea := fun w l => w.xn true 10 l) hsound h.warp hpage]
  exact (congrArg (Tab.look · 9999) hwalk).trans hevicted

/-- Refutes O25: the `inv` finds no TLB entry for its page, so it walks; the first table's line takes the frame of a dirty line, which goes back to
DRAM and is dirty no more. -/
theorem not_cacheControlCompletes : ¬ Obligations.CacheControlCompletes := by
  intro h
  have hen : (issueCtx inv10 crowded invalidator).en ≠ 0 := by decide +kernel
  obtain ⟨u, hu, hdirty⟩ := execInv_dirty (s := crowded) (w := invalidator) (f := inv10) (a := 10) rfl crowded_ready hen crowded_reach
  obtain ⟨t, ht, hsame⟩ := inv_keepsDirty (s := crowded) (w := invalidator) (f := inv10) (a := 10) h rfl crowded_ready hen crowded_reach
  cases hu.symm.trans ht
  have hgone : Tab.look u.mem.dirty 9999 = none := by
    rw [hdirty]
    exact crowded_evicts (Begins.begun crowded_ready.cur inv10 _)
  rw [hsame] at hgone
  exact absurd hgone (by decide)

end Sys2Proof.Machine
end


section
/-!
PROOFS. Requests of other devices for lines of this one (spec/06 R173, R178; spec/10 R281 to R283; spec/11 R336; spec/14 R407).
Settles O51 of spec/06_isa_memory.md.
-/

namespace Sys2Proof.Machine

/-! ### A line touched at its home -/

/-- What a party outside leaves that touches a line at its home, where no detector is armed and no word has an error: where the L2 holds lines
may change, and what home steps are owed. -/
structure LineLeft (s t : State) : Prop where
  own : t.own = s.own
  ap : t.ap = s.ap
  warps : t.warps = s.warps
  blocks : t.blocks = s.blocks
  dev : t.dev = s.dev
  cores : t.cores = s.cores
  agenda : t.agenda = s.agenda
  mem : t.mem = { s.mem with frames := t.mem.frames, dirty := t.mem.dirty, l2 := t.mem.l2, excl := t.mem.excl }

namespace LineLeft

variable {s t u : State}

theorem refl (s : State) : LineLeft s s := ⟨rfl, rfl, rfl, rfl, rfl, rfl, rfl, rfl⟩

theorem trans (h : LineLeft s t) (g : LineLeft t u) : LineLeft s u :=
  ⟨g.own.trans h.own, g.ap.trans h.ap, g.warps.trans h.warps, g.blocks.trans h.blocks, g.dev.trans h.dev, g.cores.trans h.cores,
    g.agenda.trans h.agenda, by have hm := g.mem; rw [h.mem] at hm; exact hm⟩

theorem bytes (h : LineLeft s t) : t.mem.bytes = s.mem.bytes := by rw [h.mem]
theorem ver (h : LineLeft s t) : t.mem.ver = s.mem.ver := by rw [h.mem]
theorem poison (h : LineLeft s t) : t.mem.poison = s.mem.poison := by rw [h.mem]
theorem upset (h : LineLeft s t) : t.mem.upset = s.mem.upset := by rw [h.mem]
theorem leases (h : LineLeft s t) : t.mem.leases = s.mem.leases := by rw [h.mem]
theorem hostHeld (h : LineLeft s t) : t.mem.hostHeld = s.mem.hostHeld := by rw [h.mem]
theorem sound (h : LineLeft s t) (hs : Sound s) : Sound t := ⟨(State.ap!_of_ap h.ap _).trans hs.disarmed, h.upset.trans hs.noError⟩

theorem sliceStep (s : State) (line price : Nat) : LineLeft s (s.sliceStep line price) := ⟨rfl, rfl, rfl, rfl, rfl, rfl, rfl, rfl⟩
theorem dropExcl (s : State) (line : Nat) : LineLeft s (s.modMem fun m => { m with excl := Tab.del m.excl line }) :=
  ⟨rfl, rfl, rfl, rfl, rfl, rfl, rfl, rfl⟩

theorem cross (s : State) (d h flits : Nat) : LineLeft s (s.cross d h flits) := by
  unfold State.cross
  split
  · exact refl s
  · exact ⟨rfl, rfl, rfl, rfl, rfl, rfl, rfl, rfl⟩

theorem seatLine (hs : Sound s) (line : Nat) : LineLeft s (s.seatLine line) := by
  have he : s.mem.upset.isEmpty = true := by rw [hs.noError]; rfl
  unfold State.seatLine
  simp only [he, if_true]
  refine ⟨rfl, rfl, rfl, rfl, rfl, rfl, rfl, ?_⟩
  simp only [Mem.seat, he, if_true]

theorem homeLine (hs : Sound s) (core line : Nat) : LineLeft s (s.homeLine core line) := by
  unfold State.homeLine
  split
  · exact refl s
  · have hr : s.reread line = s := if_pos (by simp [hs.noError])
    rw [hr]
    have hslice := sliceStep s line (if (!s.inL2 line) = true then 23 else 3)
    have hcross := ((hslice.trans (seatLine (hslice.sound hs) line)).trans (dropExcl _ line)).trans (cross _ (dieOfCore core) (dieOfLpa (line * 128)) 4)
    dsimp only
    rw [State.inject_disarmed (hcross.sound hs).disarmed]
    exact hcross

theorem touch (hs : Sound s) (line : Nat) : LineLeft s (s.touch line) := homeLine hs _ line

theorem lineMsg (h : LineLeft s t) (dev line : Nat) : t.lineMsg dev line = s.lineMsg dev line := by
  unfold State.lineMsg Mem.list Mem.version Mem.byte
  rw [h.bytes, h.ver]

end LineLeft

/-! ### Requests that arrive -/

section
variable {s : State} {dev addr : Nat}

/-- A packet that names memory goes on, where no detector is armed (R277, R421). -/
theorem State.atHome_goes (hs : s.ap! offInjMask = 0) (hp : populated addr = true) (go : State → State) : s.atHome dev addr go = .next (go s) := by
  rw [State.atHome, hp, if_pos rfl, State.arrived, State.inject_disarmed hs]
  rfl

theorem Mem.upsetAt_none {m : Mem} (h : m.upset = []) (key n : Nat) : m.upsetAt key n = none := by
  unfold Mem.upsetAt
  rw [h]
  rfl

/-- With no error in memory, only poison withholds an answer (R283). -/
theorem State.unlessPoisoned_sound (h : s.mem.upset = []) (key n : Nat) (go : State → State) :
    s.unlessPoisoned dev key n go = if s.mem.poisoned (lineOf key) then s.send (.poisoned dev (lineOf key)) else go s := by
  rw [State.unlessPoisoned, Mem.upsetAt_none h]
  rfl

theorem lineOf_mul (line : Nat) : lineOf (128 * line) = line := Nat.mul_div_cancel_left line (by decide)

end

theorem State.send_msgs (s : State) (m : Msg) : (s.send m).own.msgs = s.own.msgs ++ [m] := rfl

theorem State.send_bytes (s : State) (m : Msg) : SameBytes s (s.send m) := fun _ => rfl

/-! ### Reads (R336) -/

/-- What an answer to a read of a line leaves: the message, and what touching the line leaves. -/
structure Answered (s t : State) (m : Msg) : Prop where
  msgs : t.own.msgs = s.own.msgs ++ [m]
  mem : t.mem = { s.mem with frames := t.mem.frames, dirty := t.mem.dirty, l2 := t.mem.l2, excl := t.mem.excl }
  warps : t.warps = s.warps
  ap : t.ap = s.ap
  cores : t.cores = s.cores

theorem LineLeft.answered {s t : State} (h : LineLeft s t) (m : Msg) : Answered s (t.send m) m :=
  ⟨by rw [← h.own]; rfl, h.mem, h.warps, h.ap, h.cores⟩

theorem execLineReadRequest_answers {s : State} {dev addr : Nat} (hp : populated addr = true) (hl : s.leasedOut (lineOf addr) = false) (hs : Sound s) :
    ∃ t, exec (.lineReadRequest dev addr) s = .next t ∧
      Answered s t (if s.mem.poisoned (lineOf addr) then .poisoned dev (lineOf addr) else s.lineMsg dev (lineOf addr)) := by
  have hexec : exec (.lineReadRequest dev addr) s = .next (s.readRequest dev addr) := State.atHome_goes hs.disarmed hp fun s => s.readRequest dev addr
  refine ⟨_, hexec, ?_⟩
  have htouch := LineLeft.touch hs (lineOf addr)
  have hpoison : (s.touch (lineOf addr)).mem.poisoned (lineOf addr) = s.mem.poisoned (lineOf addr) := by rw [Mem.poisoned, htouch.poison, Mem.poisoned]
  rw [State.readRequest, hl, if_neg Bool.false_ne_true, State.unlessPoisoned_sound (htouch.sound hs).noError, lineOf_mul, hpoison, htouch.lineMsg]
  split
  · exact htouch.answered _
  · exact htouch.answered _

/-! ### Ownership (R282) -/

/-- What the end of a word's registration leaves, beyond cores: the owners of words change, and no more. -/
structure OwnersLeft (s t : State) : Prop where
  own : t.own = s.own
  ap : t.ap = s.ap
  warps : t.warps = s.warps
  dev : t.dev = s.dev
  mem : t.mem = { s.mem with wordOwner := t.mem.wordOwner }

theorem OwnersLeft.own4 (s : State) (k : Nat) : OwnersLeft s (s.own4 none k) := by
  have hown : ∀ (u : State) (c : Prop) [Decidable c] (v : Nat), u = s →
      OwnersLeft s (if c then u else u.modMem fun m => { m with wordOwner := Tab.put 0 m.wordOwner (k / 4) v }) := by
    rintro u c _ v rfl
    split <;> exact ⟨rfl, rfl, rfl, rfl, rfl⟩
  have hcore : ∀ (u : State) (c : Prop) [Decidable c] (j : Nat) (g : Core → Core), OwnersLeft s u → OwnersLeft s (if c then u else u.modCore j g) := by
    intro u c _ j g h
    split
    · exact h
    · exact ⟨h.own, h.ap, h.warps, h.dev, h.mem⟩
  exact hcore _ _ _ _ (hown s _ _ rfl)

theorem OwnersLeft.foldl (line : Nat) (is : List Nat) (s : State) : OwnersLeft s (is.foldl (fun s i => s.own4 none (line * 128 + 4 * i)) s) :=
  State.foldl_keeps (P := OwnersLeft s) (fun t i => t.own4 none (line * 128 + 4 * i))
    (fun t i h => have g := OwnersLeft.own4 t (line * 128 + 4 * i)
      ⟨g.own.trans h.own, g.ap.trans h.ap, g.warps.trans h.warps, g.dev.trans h.dev, by have hm := g.mem; rw [h.mem] at hm; exact hm⟩) is ⟨rfl, rfl, rfl, rfl, rfl⟩

/-- The lease that a grant gives. -/
def State.granting (s : State) (dev line : Nat) : State :=
  s.modMem fun m =>
    { m with
      leases := m.leases ++ [{ line := line, dev := some dev, core := 0, ctx := 0, granted := s.dev.beat, used := s.dev.beat, recalled := false }]
      hostHeld := m.hostHeld.filter (· != line), traffic := m.traffic ++ (if m.hostHeld.contains line then [.recall line] else []) }

/-- What an ownership request leaves that is granted. -/
structure Granted (s t : State) (dev line : Nat) : Prop where
  bytes : SameBytes s t
  ver : t.mem.ver = s.mem.ver
  leased : t.leasedOut line = true
  hostHeld : t.mem.hostHeld = s.mem.hostHeld.filter (· != line)
  msgs : t.own.msgs = s.own.msgs ++ [s.lineMsg dev line, .grant dev line]
  warps : t.warps = s.warps

theorem execOwnershipRequest_grants {s : State} {dev addr : Nat} (hp : populated addr = true) (hl : s.leasedOut (lineOf addr) = false)
    (hpoison : s.mem.poisoned (lineOf addr) = false) (hs : Sound s) :
    ∃ t, exec (.ownershipRequest dev addr) s = .next t ∧ Granted s t dev (lineOf addr) := by
  have hexec : exec (.ownershipRequest dev addr) s = .next (s.grantLease dev addr) := State.atHome_goes hs.disarmed hp fun s => s.grantLease dev addr
  refine ⟨_, hexec, ?_⟩
  have htouch := LineLeft.touch hs (lineOf addr)
  have hpoison' : (s.touch (lineOf addr)).mem.poisoned (lineOf addr) = false := by rw [Mem.poisoned, htouch.poison, ← Mem.poisoned, hpoison]
  have howners := OwnersLeft.foldl (lineOf addr) (List.range 32) (s.touch (lineOf addr))
  generalize hS : (List.range 32).foldl (fun t i => t.own4 none (lineOf addr * 128 + 4 * i)) (s.touch (lineOf addr)) = S at howners
  have hgrant : s.grantLease dev addr = ((S.granting dev (lineOf addr)).send (S.lineMsg dev (lineOf addr))).send (.grant dev (lineOf addr)) := by
    rw [State.grantLease, hl]
    dsimp only
    rw [if_neg Bool.false_ne_true, State.unlessPoisoned_sound (htouch.sound hs).noError, lineOf_mul, hpoison', if_neg Bool.false_ne_true, hS]
    rfl
  have hbytes : S.mem.bytes = s.mem.bytes := (by rw [howners.mem] : S.mem.bytes = (s.touch (lineOf addr)).mem.bytes).trans htouch.bytes
  have hver : S.mem.ver = s.mem.ver := (by rw [howners.mem] : S.mem.ver = (s.touch (lineOf addr)).mem.ver).trans htouch.ver
  have hheld : S.mem.hostHeld = s.mem.hostHeld := (by rw [howners.mem] : S.mem.hostHeld = (s.touch (lineOf addr)).mem.hostHeld).trans htouch.hostHeld
  have hmsg : S.lineMsg dev (lineOf addr) = s.lineMsg dev (lineOf addr) := by
    unfold State.lineMsg Mem.list Mem.version Mem.byte
    rw [hbytes, hver]
  rw [hgrant, hmsg]
  refine ⟨Mem.byte_of_bytes hbytes, hver, ?_, ?_, ?_, howners.warps.trans htouch.warps⟩
  · have hlast : ∀ (ls : List Lease) (l : Lease), l.line = lineOf addr → l.dev = some dev →
        (ls ++ [l]).any (fun l => l.line == lineOf addr && l.dev.isSome) = true := fun ls l h1 h2 => by simp [h1, h2]
    exact hlast _ _ rfl rfl
  · exact congrArg (List.filter (· != lineOf addr)) hheld
  · have hmsgs : S.own.msgs = s.own.msgs := by rw [howners.own, htouch.own]
    have hgranting : (S.granting dev (lineOf addr)).own = S.own := rfl
    rw [State.send_msgs, State.send_msgs, hgranting, hmsgs, List.append_assoc]
    rfl

/-! ### Atomics (R173, R178) -/

/-- What an atomic of another device leaves. -/
structure AtomicAt (s t : State) (p : RemoteAtomic) : Prop where
  msgs : t.own.msgs = s.own.msgs ++ [.result p.dev (s.homeNum p.addr (atmBytes p.op))]
  num : t.homeNum p.addr (atmBytes p.op)
    = BitVec.ofNat 64 ((atmApply p.op (s.homeNum p.addr (atmBytes p.op)) p.arg).toNat % 256 ^ atmBytes p.op)
  others : ∀ a, a < p.addr ∨ p.addr + atmBytes p.op ≤ a → t.mem.byte a = s.mem.byte a
  warps : t.warps = s.warps

theorem isAp_of_populated {a : Nat} (h : populated a = true) : isAp a = false := by
  unfold populated at h
  simp only [Bool.and_eq_true, decide_eq_true_eq] at h
  rw [isAp, span, decide_eq_false_iff_not]
  omega

theorem State.homeNum_writeNum {s : State} (o : Option Nat) {key : Nat} (hk : isAp key = false) (n v : Nat) :
    (s.writeNum o key n v).homeNum key n = BitVec.ofNat 64 (v % 256 ^ n) := by
  rw [State.homeNum_bytes hk, ← leNat_digits, List.map_congr_left fun i hi => State.byte_writeNum s o key n v (List.mem_range.mp hi)]

theorem State.writeNum_own {s : State} (h : s.mem.upset = []) (o : Option Nat) (key n v : Nat) : (s.writeNum o key n v).own = s.own := by
  have hover : s.overwritten ((bytesAt key n v).map (·.1)) = s := if_pos (by rw [h]; rfl)
  unfold State.writeNum State.writeHome
  rw [hover]
  exact State.foldl_keeps (P := fun t => t.own = s.own) (fun t (b : Nat × Byte) => t.poke none b.1 b.2 3) (fun t b ht => (State.poke_ver t none b.1 b.2 3).2.trans ht) _ rfl

theorem execAtomicRequest_performs {s : State} {p : RemoteAtomic} (hp : populated p.addr = true) (hl : s.leasedOut (lineOf p.addr) = false)
    (hpoison : s.mem.poisoned (lineOf p.addr) = false) (hs : Sound s) : ∃ t, exec (.atomicRequest p) s = .next t ∧ AtomicAt s t p := by
  have hexec : exec (.atomicRequest p) s = .next (s.atomicIn p) := State.atHome_goes hs.disarmed hp fun s => s.atomicIn p
  refine ⟨_, hexec, ?_⟩
  have htouch := LineLeft.touch hs (lineOf p.addr)
  have hk := isAp_of_populated hp
  obtain ⟨v, hv⟩ : ∃ v, v = (atmApply p.op (s.homeNum p.addr (atmBytes p.op)) p.arg).toNat := ⟨_, rfl⟩
  have hin : s.atomicIn p = ((s.touch (lineOf p.addr)).writeNum (some p.ctx) p.addr (atmBytes p.op) v).send
      (.result p.dev (s.homeNum p.addr (atmBytes p.op))) := by
    rw [State.atomicIn, hl]
    dsimp only
    rw [if_neg Bool.false_ne_true, State.unlessPoisoned_sound hs.noError, hpoison, if_neg Bool.false_ne_true, hv]
  have hupset := (htouch.sound hs).noError
  have hbeyond := State.writeNum_beyondHomes hupset (some p.ctx) p.addr (atmBytes p.op) v
  have hown := State.writeNum_own hupset (some p.ctx) p.addr (atmBytes p.op) v
  have hnum := State.homeNum_writeNum (s := s.touch (lineOf p.addr)) (some p.ctx) hk (atmBytes p.op) v
  have hothers := fun a => State.byte_writeNum_outside (s.touch (lineOf p.addr)) (some p.ctx) p.addr (atmBytes p.op) v (a := a)
  simp only [State.beyondHomes, Prod.mk.injEq] at hbeyond
  rw [hin]
  generalize (s.touch (lineOf p.addr)).writeNum (some p.ctx) p.addr (atmBytes p.op) v = W at hbeyond hown hnum hothers
  refine ⟨?_, ?_, fun a ha => (hothers a ha).trans (Mem.byte_of_bytes htouch.bytes a), hbeyond.1.trans htouch.warps⟩
  · have hmsgs : W.own.msgs = s.own.msgs := congrArg Own.msgs (hown.trans htouch.own)
    exact (State.send_msgs W _).trans (congrArg (· ++ [_]) hmsgs)
  · exact (State.homeNum_of_bytes hk fun a _ => State.send_bytes W _ a).trans <| hnum.trans (congrArg (fun v => BitVec.ofNat 64 (v % 256 ^ atmBytes p.op)) hv)

/-! ### Writes through (R281), whatever detectors are armed -/

/-- What a detector's report leaves (R421). -/
structure ReportLeft (s t : State) : Prop where
  mem : t.mem = s.mem
  warps : t.warps = s.warps
  blocks : t.blocks = s.blocks

namespace ReportLeft

variable {s t u : State}

theorem refl (s : State) : ReportLeft s s := ⟨rfl, rfl, rfl⟩
theorem trans (h : ReportLeft s t) (g : ReportLeft t u) : ReportLeft s u := ⟨g.mem.trans h.mem, g.warps.trans h.warps, g.blocks.trans h.blocks⟩
theorem apSet (s : State) (off v : Nat) : ReportLeft s (s.apSet off v) := ⟨rfl, rfl, rfl⟩
theorem apField (s : State) (off hi lo x : Nat) : ReportLeft s (s.apField off hi lo x) := ⟨rfl, rfl, rfl⟩
theorem irq (s : State) (v : Nat) : ReportLeft s (s.irq v) := ⟨rfl, rfl, rfl⟩

theorem ite {c : Prop} [Decidable c] (h : ReportLeft s t) (g : ReportLeft s u) : ReportLeft s (if c then t else u) := by
  split
  · exact h
  · exact g

theorem rings (s : State) (ns : List Nat) (bit : Nat) : ReportLeft s (ns.foldl (fun s n => s.ring n bit) s) :=
  State.foldl_keeps (P := ReportLeft s) (fun t n => t.ring n bit) (fun _ _ h => h.trans (apSet ..)) ns (refl s)

theorem logUe (s : State) (unit act owner line : Nat) (inj : Bool) : ReportLeft s (s.logUe unit act owner line inj) := by
  have hfull : ReportLeft s (if s.apBits (offUeLog (s.apBits offFltStat 5 0)) 63 63 = 1 then s.apField offFltStat 8 8 1 else s) :=
    .ite (apField ..) (refl s)
  exact (((hfull.trans (apSet ..)).trans (apField ..)).trans (rings ..)).trans (irq ..)

theorem inject (s : State) (us : List Nat) (line owner : Nat) : ReportLeft s (s.inject us line owner) := by
  unfold State.inject
  refine .ite (refl s) (State.foldl_keeps (P := ReportLeft s) _ (fun t u h => h.trans ?_) us (refl s))
  exact .ite ((apField ..).trans (logUe ..)) (refl t)

end ReportLeft

/-- What a party outside leaves that brings a line to its home: the bytes and versions of memory, warps and blocks. -/
structure Untouched (s t : State) : Prop where
  bytes : t.mem.bytes = s.mem.bytes
  ver : t.mem.ver = s.mem.ver
  warps : t.warps = s.warps
  blocks : t.blocks = s.blocks

theorem ReportLeft.untouched {s t : State} (h : ReportLeft s t) : Untouched s t := ⟨by rw [h.mem], by rw [h.mem], h.warps, h.blocks⟩
theorem ReadLeft.untouched {s t : State} (h : ReadLeft s t) : Untouched s t := ⟨h.bytes, h.ver, h.warps, h.blocks⟩

namespace Untouched

variable {s t u : State}

theorem trans (h : Untouched s t) (g : Untouched t u) : Untouched s u :=
  ⟨g.bytes.trans h.bytes, g.ver.trans h.ver, g.warps.trans h.warps, g.blocks.trans h.blocks⟩

theorem homeLine (s : State) (core line : Nat) : Untouched s (s.homeLine core line) := by
  unfold State.homeLine
  split
  · exact (ReportLeft.refl s).untouched
  · have hslice := (ReadLeft.reread s line).trans (.sliceStep _ line (if (!s.inL2 line) = true then 23 else 3))
    have hseat := (hslice.trans (.seatLine _ line)).trans (.modMem _ (fun m => { m with excl := Tab.del m.excl line }) rfl rfl)
    exact (hseat.trans (.cross _ (dieOfCore core) (dieOfLpa (line * 128)) 4)).untouched.trans (ReportLeft.inject ..).untouched

theorem overwritten (s : State) (ks : List Nat) : Untouched s (s.overwritten ks) := by
  have hcontains : ∀ e, Untouched s (s.contains e none) := fun e => (ReadLeft.contains s e none).untouched
  have hheal : ∀ u : State, Untouched u (u.modMem fun m => m.heal ks) := fun u => (ReadLeft.heal u ks).untouched
  unfold State.overwritten
  split
  · exact (ReportLeft.refl s).untouched
  · exact (hcontains _).trans (hheal _)

end Untouched

/-! ### Bytes written as one write of their lines (R173) -/

section
variable {s : State} {o c : Option Nat} {bs : List (Nat × Byte)}

theorem State.byte_writeHome_at (hn : (bs.map (·.1)).Nodup) {b : Nat × Byte} (hb : b ∈ bs) : (s.writeHome o c bs).mem.byte b.1 = b.2 := by
  unfold State.writeHome
  rw [State.modMem_mem, Mem.byte_of_bytes (Mem.foldl_sealLine_bytes ..)]
  exact State.byte_pokes_at _ _ hn hb

/-- What the pokes of a write leave beyond bytes, from the state whose errors it has met. -/
theorem State.pokes_left (bs : List (Nat × Byte)) (s : State) (c : Option Nat) :
    (bs.foldl (fun s b => s.poke c b.1 b.2 3) s).mem.ver = s.mem.ver ∧ (bs.foldl (fun s b => s.poke c b.1 b.2 3) s).warps = s.warps ∧
      (bs.foldl (fun s b => s.poke c b.1 b.2 3) s).blocks = s.blocks := by
  refine State.foldl_keeps (P := fun t => t.mem.ver = s.mem.ver ∧ t.warps = s.warps ∧ t.blocks = s.blocks) _ (fun t b h => ?_) bs ⟨rfl, rfl, rfl⟩
  have hbeyond := State.poke_beyondHomes t c b.1 b.2 3
  simp only [State.beyondHomes, Prod.mk.injEq] at hbeyond
  exact ⟨(State.poke_ver ..).1.trans h.1, hbeyond.1.trans h.2.1, hbeyond.2.2.1.trans h.2.2⟩

theorem State.writeHome_warps (s : State) (o c : Option Nat) (bs : List (Nat × Byte)) :
    (s.writeHome o c bs).warps = s.warps ∧ (s.writeHome o c bs).blocks = s.blocks := by
  have hover := Untouched.overwritten s (bs.map (·.1))
  obtain ⟨-, hwarps, hblocks⟩ := State.pokes_left bs (s.overwritten (bs.map (·.1))) c
  exact ⟨hwarps.trans hover.warps, hblocks.trans hover.blocks⟩

/-- A line written in part takes one version step. -/
theorem State.version_writeHome {l : Nat} (hl : ∃ b ∈ bs, lineOf b.1 = l) (hv : Mem.versioned l = true) :
    (s.writeHome o c bs).mem.version l = s.mem.version l + 1 := by
  have hover := Untouched.overwritten s (bs.map (·.1))
  obtain ⟨hver, -, -⟩ := State.pokes_left bs (s.overwritten (bs.map (·.1))) c
  have hmem : l ∈ distinct (bs.map fun b => lineOf b.1) := mem_distinct.2 (List.mem_map.2 hl)
  refine (Mem.version_seals_in (nodup_distinct _) hmem hv o _).trans ?_
  simp only [Mem.version, hver, hover.ver]

end

/-! ### A line of another device's write (R281) -/

/-- The bytes of a line that a mask names. -/
def maskedBytes (line : Nat) (data : List Byte) (mask : BitVec 128) : List (Nat × Byte) :=
  (List.range 128).filterMap fun i => if mask.getLsbD i then some (line * 128 + i, data.getD i 0) else none

section
variable {line : Nat} {data : List Byte} {mask : BitVec 128}

theorem mem_maskedBytes {b : Nat × Byte} :
    b ∈ maskedBytes line data mask ↔ ∃ i < 128, mask.getLsbD i = true ∧ b = (line * 128 + i, data.getD i 0) := by
  unfold maskedBytes
  rw [List.mem_filterMap]
  constructor
  · rintro ⟨i, hi, h⟩
    split at h
    · next hm => exact ⟨i, List.mem_range.1 hi, hm, (Option.some.inj h).symm⟩
    · nomatch h
  · rintro ⟨i, hi, hm, rfl⟩
    exact ⟨i, List.mem_range.2 hi, if_pos hm⟩

theorem lineOf_in {i : Nat} (h : i < 128) : lineOf (line * 128 + i) = line := by
  unfold lineOf
  omega

theorem nodup_maskedBytes : ((maskedBytes line data mask).map (·.1)).Nodup := by
  have hkeys : (maskedBytes line data mask).map (·.1) = ((List.range 128).filter fun i => mask.getLsbD i).map (line * 128 + ·) := by
    unfold maskedBytes
    induction List.range 128 with
    | nil => rfl
    | cons i r ih =>
      cases hm : mask.getLsbD i
      · simpa [List.filterMap_cons, List.filter_cons, hm] using ih
      · simpa [List.filterMap_cons, List.filter_cons, hm] using ih
  rw [hkeys]
  exact (List.nodup_range.filter _).map fun _ _ h => Nat.add_left_cancel h

end

/-- What a write through leaves of its line (R173, R281). -/
structure WrittenThrough (s t : State) (line : Nat) (data : List Byte) (mask : BitVec 128) : Prop where
  here : ∀ i < 128, t.mem.byte (line * 128 + i) = if mask.getLsbD i then data.getD i 0 else s.mem.byte (line * 128 + i)
  others : ∀ a, lineOf a ≠ line → t.mem.byte a = s.mem.byte a
  version : t.mem.version line = s.mem.version line + (if mask = 0 then 0 else 1)
  warps : t.warps = s.warps
  blocks : t.blocks = s.blocks

/-- The write, from the memory that the report of its packet left. -/
theorem State.writeHome_maskedBytes {s : State} {line ctx : Nat} {data : List Byte} {mask : BitVec 128} (hv : Mem.versioned line = true)
    (hm : mask ≠ 0) : WrittenThrough s (s.writeHome (some ctx) none (maskedBytes line data mask)) line data mask := by
  have hleft := State.writeHome_warps s (some ctx) none (maskedBytes line data mask)
  obtain ⟨j, hj, hjm⟩ : ∃ j < 128, mask.getLsbD j = true := by
    by_contra hnone
    refine hm (BitVec.eq_of_getLsbD_eq fun i hi => ?_)
    have := fun h => hnone ⟨i, hi, h⟩
    simpa using this
  refine ⟨fun i hi => ?_, fun a ha => ?_, ?_, hleft.1, hleft.2⟩
  · split
    · next hmi => exact State.byte_writeHome_at nodup_maskedBytes (b := (line * 128 + i, data.getD i 0)) (mem_maskedBytes.2 ⟨i, hi, hmi, rfl⟩)
    · next hmi =>
      refine State.byte_writeHome _ _ _ _ _ fun b hb he => ?_
      obtain ⟨k, -, hk, rfl⟩ := mem_maskedBytes.1 hb
      have : k = i := Nat.add_left_cancel he
      exact hmi (this ▸ hk)
  · refine State.byte_writeHome _ _ _ _ _ fun b hb he => ?_
    obtain ⟨k, hk, -, rfl⟩ := mem_maskedBytes.1 hb
    exact ha (he ▸ lineOf_in hk)
  · rw [if_neg hm]
    exact State.version_writeHome ⟨_, mem_maskedBytes.2 ⟨j, hj, hjm, rfl⟩, lineOf_in hj⟩ hv

theorem WrittenThrough.untouched {s t u : State} {line : Nat} {data : List Byte} {mask : BitVec 128} (h : WrittenThrough s t line data mask)
    (g : Untouched t u) : WrittenThrough s u line data mask := by
  have hbyte := Mem.byte_of_bytes g.bytes
  refine ⟨fun i hi => (hbyte _).trans (h.here i hi), fun a ha => (hbyte a).trans (h.others a ha), ?_, g.warps.trans h.warps, g.blocks.trans h.blocks⟩
  rw [← h.version]
  simp only [Mem.version, g.ver]

theorem versioned_of_populated {addr : Nat} (h : populated addr = true) : Mem.versioned (lineOf addr) = true := by
  unfold populated at h
  simp only [Bool.and_eq_true, decide_eq_true_eq] at h
  rw [Mem.versioned, lineOf, span, decide_eq_true_eq]
  omega

theorem execCommittedLineWrite_writes {s : State} {dev addr ctx : Nat} {data : List Byte} {mask : BitVec 128} (hp : populated addr = true)
    (hl : s.leasedOut (lineOf addr) = false) (hpoison : s.mem.poisoned (lineOf addr) = false) :
    ∃ t, exec (.committedLineWrite dev addr ctx data mask) s = .next t ∧ WrittenThrough s t (lineOf addr) data mask := by
  have hexec : exec (.committedLineWrite dev addr ctx data mask) s = .next ((s.arrived dev (lineOf addr)).lineWrite dev addr ctx data mask) :=
    if_pos hp
  refine ⟨_, hexec, ?_⟩
  have hreport : ReportLeft s (s.arrived dev (lineOf addr)) := .inject ..
  generalize s.arrived dev (lineOf addr) = a at hreport
  have hleased : a.leasedOut (lineOf addr) = false := by rw [State.leasedOut, hreport.mem]; exact hl
  have hclean : a.mem.poisoned (lineOf addr) = false := by rw [hreport.mem]; exact hpoison
  unfold State.lineWrite
  simp only [hleased, hclean, Bool.false_eq_true, if_false, Bool.false_or, decide_eq_true_eq]
  split
  · next hm =>
    refine ⟨fun i hi => ?_, fun b _ => by rw [hreport.mem], ?_, hreport.warps, hreport.blocks⟩
    · rw [hm, hreport.mem]; exact (if_neg (by simp)).symm
    · rw [hm, hreport.mem]; simp
  · next hm =>
    have hwrite := (State.writeHome_maskedBytes (s := a) (ctx := ctx) (data := data) (versioned_of_populated hp) hm).untouched
      (Untouched.homeLine _ (48 * dieOfLpa (lineOf addr * 128)) (lineOf addr))
    exact ⟨fun i hi => by rw [← hreport.mem]; exact hwrite.here i hi, fun b hb => by rw [← hreport.mem]; exact hwrite.others b hb,
      by rw [← hreport.mem]; exact hwrite.version, hwrite.warps.trans hreport.warps, hwrite.blocks.trans hreport.blocks⟩

/-! ### A read that consumes an error (R407) -/

/-- What touching a line leaves, where the one error in memory is in DRAM and in that line. -/
structure ErrorKept (s t : State) : Prop where
  own : t.own = s.own
  agenda : t.agenda = s.agenda
  ap : t.ap = s.ap
  upset : t.mem.upset = s.mem.upset

theorem ErrorKept.trans {s t u : State} (h : ErrorKept s t) (g : ErrorKept t u) : ErrorKept s u :=
  ⟨g.own.trans h.own, g.agenda.trans h.agenda, g.ap.trans h.ap, g.upset.trans h.upset⟩

theorem Mem.victim_apart {m : Mem} {pick line f old : Nat} (h : m.frameFor pick line = some (f, some old)) : old ≠ line := by
  unfold Mem.frameFor at h
  split at h
  · nomatch h
  · next hnone =>
    dsimp only at h
    split at h
    · simp at h
    · split at h
      · nomatch h
      · have hold := congrArg Prod.snd (Option.some.inj h)
        rintro rfl
        have hmem := Tab.mem_of_look hold
        refine hnone ?_
        unfold Mem.frameOf
        rw [Option.isSome_map, List.find?_isSome]
        exact ⟨_, hmem, by simp⟩

section
variable {s : State} {e : Nat × Nat} {line : Nat}

/-- The victim of the line's coming is another line, and so is its write-back. -/
theorem ErrorKept.seatLine (hu : s.mem.upset = [e]) (he : e.1 / 16 = line) (h0 : e.2 = 0) : ErrorKept s (s.seatLine line) := by
  have hvictim : (s.mem.dirtyVictim (s.victim line) line).bind (fun l => s.mem.upsetAt (128 * l) 128) = none := by
    rw [Option.bind_eq_none_iff]
    intro l hl
    have hne : l ≠ line := by
      unfold Mem.dirtyVictim at hl
      rw [Option.filter_eq_some_iff, Option.bind_eq_some_iff] at hl
      obtain ⟨⟨⟨f, old⟩, hf, hold⟩, -⟩ := hl
      subst hold
      exact Mem.victim_apart hf
    unfold Mem.upsetAt
    rw [hu, List.find?_eq_none]
    intro x hx
    rw [List.mem_singleton.1 hx]
    simp only [Bool.and_eq_true, decide_eq_true_eq]
    omega
  have hcontains : s.contains none none = s := rfl
  unfold State.seatLine
  rw [hvictim, hcontains, ite_self]
  refine ⟨rfl, rfl, rfl, ?_⟩
  unfold Mem.seat
  dsimp only
  rw [hu]
  split
  · rfl
  · split
    · simp [Tab.keep, h0]
    · rfl

theorem ErrorKept.touch (hd : s.ap! offInjMask = 0) (hu : s.mem.upset = [e]) (he : e.1 / 16 = line) (h0 : e.2 = 0) :
    ErrorKept s (s.touch line) := by
  have hcross : ∀ (t : State) (d h flits : Nat), ErrorKept t (t.cross d h flits) := by
    intro t d h flits
    unfold State.cross
    split
    · exact ⟨rfl, rfl, rfl, rfl⟩
    · exact ⟨rfl, rfl, rfl, rfl⟩
  unfold State.touch State.homeLine
  split
  · exact ⟨rfl, rfl, rfl, rfl⟩
  · have hr : s.reread line = s := if_pos (by simp [hu, h0])
    have hslice : ErrorKept s (s.sliceStep line (if (!s.inL2 line) = true then 23 else 3)) := ⟨rfl, rfl, rfl, rfl⟩
    have hseat := hslice.trans (ErrorKept.seatLine (hslice.upset.trans hu) he h0)
    have hexcl : ∀ t : State, ErrorKept t (t.modMem fun m => { m with excl := Tab.del m.excl line }) := fun _ => ⟨rfl, rfl, rfl, rfl⟩
    have hleft := (hseat.trans (hexcl _)).trans (hcross _ (dieOfCore (48 * dieOfLpa (line * 128))) (dieOfLpa (line * 128)) 4)
    rw [hr]
    dsimp only
    rw [State.inject_disarmed ((State.ap!_of_ap hleft.ap _).trans hd)]
    exact hleft

end

theorem execLineReadRequest_consumes {s : State} {dev addr : Nat} {e : Nat × Nat} (hp : populated addr = true)
    (hl : s.leasedOut (lineOf addr) = false) (hu : s.mem.upset = [e]) (he : e.1 / 16 = lineOf addr) (h0 : e.2 = 0) (hd : s.ap! offInjMask = 0) :
    ∃ t, exec (.lineReadRequest dev addr) s = .next t ∧ t.own.msgs = s.own.msgs ++ [.poisoned dev (lineOf addr)] ∧
      t.agenda = .event (.dramUe (lineOf addr) none) :: s.agenda := by
  have hexec : exec (.lineReadRequest dev addr) s = .next (s.readRequest dev addr) := State.atHome_goes hd hp fun s => s.readRequest dev addr
  refine ⟨_, hexec, ?_⟩
  have hkept := ErrorKept.touch hd hu he h0
  rw [State.readRequest, hl, if_neg Bool.false_ne_true]
  generalize s.touch (lineOf addr) = t at hkept
  have hat : t.mem.upsetAt (128 * lineOf addr) 128 = some e := by
    unfold Mem.upsetAt
    rw [hkept.upset, hu, List.find?_cons_of_pos]
    simp only [Bool.and_eq_true, decide_eq_true_eq, h0]
    exact ⟨⟨by omega, by omega⟩, rfl⟩
  have hsoon : t.contains (some e) none = t.soon [.event (.dramUe (lineOf addr) none)] := by
    rw [← he]
    exact congrArg (fun p => t.soon [p]) (if_pos h0)
  unfold State.unlessPoisoned
  rw [hat, Option.isSome_some, if_pos rfl, hsoon, lineOf_mul]
  refine ⟨?_, ?_⟩
  · rw [State.send_msgs, ← hkept.own]; rfl
  · rw [← hkept.agenda]; rfl

/-- Settles O51: each request touches its line at the home and answers from what stands there; a write through is one write of its bytes. -/
theorem homeRequestsComplete : Obligations.HomeRequestsComplete := by
  unfold Obligations.HomeRequestsComplete
  refine ⟨?_, ?_, ?_, ?_, ?_, ?_⟩
  · intro s dev addr hp hl hpoison hd hu
    obtain ⟨t, ht, h⟩ := execLineReadRequest_answers (dev := dev) hp hl ⟨hd, hu⟩
    have hmsgs := h.msgs
    rw [hpoison, if_neg Bool.false_ne_true] at hmsgs
    exact ⟨t, ht, hmsgs, h.mem, h.warps, h.ap, h.cores⟩
  · intro s dev addr hp hl hpoison hd hu
    obtain ⟨t, ht, h⟩ := execLineReadRequest_answers (dev := dev) hp hl ⟨hd, hu⟩
    have hmsgs := h.msgs
    rw [hpoison, if_pos rfl] at hmsgs
    exact ⟨t, ht, hmsgs, h.mem⟩
  · intro s dev addr hp hl hpoison hd hu
    obtain ⟨t, ht, h⟩ := execOwnershipRequest_grants (dev := dev) hp hl hpoison ⟨hd, hu⟩
    exact ⟨t, ht, h.bytes, h.ver, h.leased, h.hostHeld, h.msgs, h.warps⟩
  · intro s dev addr ctx data mask hp hl hpoison
    obtain ⟨t, ht, h⟩ := execCommittedLineWrite_writes (dev := dev) (ctx := ctx) (data := data) (mask := mask) hp hl hpoison
    exact ⟨t, ht, h.here, h.others, h.version, h.warps, h.blocks⟩
  · intro s p hp _ hl hpoison hd hu
    obtain ⟨t, ht, h⟩ := execAtomicRequest_performs hp hl hpoison ⟨hd, hu⟩
    exact ⟨t, ht, h.msgs, h.num, h.others, h.warps⟩
  · intro s dev addr e hp hl hu he h0 hd
    exact execLineReadRequest_consumes hp hl hu he h0 hd

end Sys2Proof.Machine
end


section
/-!
PROOFS. What comes back from the homes of other devices: lines, and the values of atomics (spec/05 R163; spec/10 R278, R281; spec/11 R336).
-/

namespace Sys2Proof.Machine

/-! ### A line that comes from its home (R281, R336) -/

/-- The bytes of a line with their keys. -/
def lineBytes (line : Nat) (data : List Byte) : List (Nat × Byte) := (List.range 128).map fun i => (line * 128 + i, data.getD i 0)

section
variable {line : Nat} {data : List Byte}

theorem mem_lineBytes {b : Nat × Byte} : b ∈ lineBytes line data ↔ ∃ i < 128, b = (line * 128 + i, data.getD i 0) := by
  unfold lineBytes
  simp only [List.mem_map, List.mem_range, eq_comm]

theorem nodup_lineBytes : ((lineBytes line data).map (·.1)).Nodup := by
  unfold lineBytes
  rw [List.map_map]
  exact List.nodup_range.map fun _ _ h => Nat.add_left_cancel h

end

/-- What the bytes of a line from elsewhere leave. -/
structure LineSet (s t : State) : Prop where
  own : t.own = s.own
  warps : t.warps = s.warps
  ap : t.ap = s.ap
  mem : t.mem = { s.mem with bytes := t.mem.bytes, ver := t.mem.ver, l2 := t.mem.l2, wordOwner := t.mem.wordOwner }

theorem LineSet.trans {s t u : State} (h : LineSet s t) (g : LineSet t u) : LineSet s u :=
  ⟨g.own.trans h.own, g.warps.trans h.warps, g.ap.trans h.ap, by have hm := g.mem; rw [h.mem] at hm; exact hm⟩

theorem OwnersLeft.lineSet {s t : State} (h : OwnersLeft s t) : LineSet s t := ⟨h.own, h.warps, h.ap, by rw [h.mem]⟩

theorem LineSet.poke (s : State) (key : Nat) (v : Byte) (nib : Nat) : LineSet s (s.poke none key v nib) := by
  have hbyte : ∀ (b : Byte) (f : Mem → Tab (List Byte × Nat)), LineSet s (s.modMem fun m => { m.setByte key b with l2 := f m }) :=
    fun _ _ => ⟨rfl, rfl, rfl, rfl⟩
  unfold State.poke
  dsimp only
  split
  · exact (hbyte _ _).trans (OwnersLeft.own4 _ key).lineSet
  · exact hbyte _ _

theorem LineSet.pokes (s : State) (bs : List (Nat × Byte)) : LineSet s (bs.foldl (fun s b => s.poke none b.1 b.2 3) s) :=
  State.foldl_keeps (P := LineSet s) _ (fun t (b : Nat × Byte) h => h.trans (.poke t b.1 b.2 3)) bs ⟨rfl, rfl, rfl, rfl⟩

theorem LineSet.setVersion (s : State) (f : Mem → Tab Word) : LineSet s (s.modMem fun m => { m with ver := f m }) := ⟨rfl, rfl, rfl, rfl⟩

section
variable {s : State} {line : Nat}

theorem State.setLine_eq (hu : s.mem.upset = []) (data : List Byte) (ver : Word) :
    s.setLine line data ver
      = ((lineBytes line data).foldl (fun s b => s.poke none b.1 b.2 3) s).modMem fun m => { m with ver := Tab.put 0 m.ver line ver } := by
  have hpokes : (lineBytes line data).foldl (fun s b => s.poke none b.1 b.2 3) s
      = (List.range 128).foldl (fun s i => s.poke none (line * 128 + i) (data.getD i 0) 3) s := List.foldl_map ..
  have hleft := LineSet.pokes s (lineBytes line data)
  have hheal : ∀ (m : Mem) (ks : List Nat), m.upset = [] → m.heal ks = m := fun m ks h => if_pos (by rw [h]; rfl)
  unfold State.setLine
  rw [← hpokes]
  generalize (lineBytes line data).foldl (fun s b => s.poke none b.1 b.2 3) s = P at hleft
  have hupset : P.mem.upset = [] := by rw [hleft.mem]; exact hu
  rw [State.modMem, State.modMem, hheal _ _ hupset]

theorem LineSet.setLine (hu : s.mem.upset = []) (data : List Byte) (ver : Word) : LineSet s (s.setLine line data ver) := by
  rw [State.setLine_eq hu]
  exact (LineSet.pokes s _).trans (.setVersion ..)

theorem State.byte_setVersion (s : State) (f : Mem → Tab Word) (a : Nat) :
    (s.modMem fun m => { m with ver := f m }).mem.byte a = s.mem.byte a := rfl

theorem State.setLine_byte (hu : s.mem.upset = []) (data : List Byte) (ver : Word) {i : Nat} (hi : i < 128) :
    (s.setLine line data ver).mem.byte (line * 128 + i) = data.getD i 0 := by
  have hat := State.byte_pokes_at s none nodup_lineBytes (mem_lineBytes.2 ⟨i, hi, rfl⟩ : (line * 128 + i, data.getD i 0) ∈ lineBytes line data)
  rw [State.setLine_eq hu]
  exact (State.byte_setVersion ..).trans hat

theorem State.setLine_others (hu : s.mem.upset = []) (data : List Byte) (ver : Word) {a : Nat} (ha : lineOf a ≠ line) :
    (s.setLine line data ver).mem.byte a = s.mem.byte a := by
  rw [State.setLine_eq hu]
  refine (State.byte_setVersion ..).trans (State.byte_pokes _ _ _ _ fun b hb he => ?_)
  obtain ⟨i, hi, rfl⟩ := mem_lineBytes.1 hb
  exact ha (he ▸ lineOf_in hi)

theorem State.setLine_version (hu : s.mem.upset = []) (data : List Byte) (ver : Word) :
    (s.setLine line data ver).mem.version line = ver := by
  rw [State.setLine_eq hu]
  exact Tab.get_put_self ..

end

theorem Mem.frameOf_isSome {m : Mem} {f line : Nat} (h : Tab.look m.frames f = some line) : (m.frameOf line).isSome = true := by
  unfold Mem.frameOf
  rw [Option.isSome_map, List.find?_isSome]
  exact ⟨_, Tab.mem_of_look h, by simp⟩

/-- A line with a frame, or with one to take, has one after it is seated. -/
theorem Mem.seat_frameOf {m : Mem} {pick line : Nat} (hu : m.upset = []) (h : m.frameOf line ≠ none ∨ m.frameFor pick line ≠ none) :
    ((m.seat pick line).frameOf line).isSome = true := by
  have hfits : ((m.frameFor pick line).filter fun f => !f.2.any fun l => (Tab.look m.dirty l).isSome && (m.upsetAt (128 * l) 128).isSome)
      = m.frameFor pick line := by
    cases m.frameFor pick line with
    | none => rfl
    | some f => simp [Mem.upsetAt_none hu]
  unfold Mem.seat
  simp only [hfits]
  cases hf : m.frameFor pick line with
  | none => exact Option.isSome_iff_ne_none.2 (h.resolve_right fun h => h hf)
  | some f => exact Mem.frameOf_isSome (Tab.look_upd_self ..)

theorem State.fetchRemote_l2 {s : State} {line : Nat} (hu : s.mem.upset = [])
    (h : s.mem.frameOf line ≠ none ∨ s.mem.frameFor (s.victim line) line ≠ none) :
    Tab.look (s.fetchRemote line).mem.l2 line = some (s.mem.list (line * 128) 128, s.mem.fill + 1) := by
  have hseat := Mem.seat_frameOf hu h
  unfold State.fetchRemote
  simp only [State.modMem_mem, hseat, if_true, Tab.look_upd_self]
  rfl

/-- What a response leaves that fills a line here. -/
structure Filled (s t : State) (line : Nat) (data : List Byte) (ver : Word) : Prop where
  here : ∀ i < 128, t.mem.byte (line * 128 + i) = data.getD i 0
  others : ∀ a, lineOf a ≠ line → t.mem.byte a = s.mem.byte a
  version : t.mem.version line = ver
  warps : t.warps = s.warps
  ap : t.ap = s.ap
  l2 : Tab.look t.mem.l2 line = some (t.mem.list (line * 128) 128, s.mem.fill + 1)

theorem execLineReadResponse_fills {s : State} {line core : Nat} {data : List Byte} {ver : BitVec 32} (hr : isRemote (line * 128) = true)
    (hn : NoneWaits s) (hs : Sound s) (hf : s.mem.frameOf line ≠ none ∨ s.mem.frameFor (s.victim line) line ≠ none) :
    ∃ t, exec (.lineReadResponse line core data ver) s = .next t ∧ Filled s t line data ver := by
  have harrived : s.arrived (remoteDev (line * 128)) line = s := State.inject_disarmed hs.disarmed ..
  have hexec : exec (.lineReadResponse line core data ver) s = .next (s.response line core data ver) :=
    congrArg (fun u : State => Host.Outcome.next (u.response line core data ver)) harrived
  refine ⟨_, hexec, ?_⟩
  have hset := LineSet.setLine (line := line) hs.noError data ver
  have hhere := fun i => State.setLine_byte (line := line) hs.noError data ver (i := i)
  have hothers := fun a => State.setLine_others (line := line) hs.noError data ver (a := a)
  have hver := State.setLine_version (line := line) hs.noError data ver
  unfold State.response
  rw [hr]
  dsimp only
  rw [if_neg (by decide)]
  generalize s.setLine line data ver = S at hset hhere hothers hver
  have hnone : S.lineWaiters line = [] := by
    unfold State.lineWaiters
    rw [hset.warps, List.flatMap_eq_nil_iff]
    intro e he
    rw [hn e he]
    rfl
  have hupset : S.mem.upset = [] := by rw [hset.mem]; exact hs.noError
  have hframe : S.mem.frameOf line ≠ none ∨ S.mem.frameFor (S.victim line) line ≠ none := by
    rw [State.victim, hset.own, hset.mem]
    exact hf
  have hfill : S.mem.fill = s.mem.fill := by rw [hset.mem]
  have hl2 := State.fetchRemote_l2 hupset hframe
  have hfetch := ReadLeft.fetchRemote S line
  have hread : ReadLeft S (S.fillRemote line core) ∧ (S.fillRemote line core).mem = (S.fetchRemote line).mem := by
    unfold State.fillRemote
    dsimp only
    split
    · exact ⟨hfetch, rfl⟩
    · exact ⟨hfetch.trans (.modCore ..), rfl⟩
  rw [hnone]
  dsimp only
  obtain ⟨hleft, hmem⟩ := hread
  have hbytes := hleft.sameBytes
  refine ⟨fun i hi => (hbytes _).trans (hhere i hi), fun a ha => (hbytes a).trans (hothers a ha), ?_, hleft.warps.trans hset.warps,
    hleft.ap.trans hset.ap, ?_⟩
  · rw [Mem.version, hleft.ver]
    exact hver
  · have hlist : (S.fillRemote line core).mem.list (line * 128) 128 = S.mem.list (line * 128) 128 := List.map_congr_left fun i _ => hbytes _
    rw [hlist, hmem, hl2, hfill]

/-! ### Atomics answered by their homes (R163, R444) -/

/-- The warp whose lane takes the value of its atomic and leaves. -/
def Warp.answered (w : Warp) (b : Blocked) (op : AtomOp) (v : DWord) : Warp := (w.setXn (atomPair op.kind) op.d b.lanes fun _ => v).leaves b

/-- The entry of a lane whose value has come. -/
def Blocked.answeredLane (b : Blocked) (lane : Nat) (op : AtomOp) (v : DWord) : Blocked := { b with lanes := laneBit lane, what := .ratm op (some v) }

/-- The warp that is not awake when the value comes: the lane's entry keeps it. -/
def Warp.keepsAnswer (w : Warp) (b : Blocked) (lane : Nat) (op : AtomOp) (v : DWord) : Warp :=
  { w with blocked := leaveBlock w.blocked { b with lanes := laneBit lane } ++ [b.answeredLane lane op v] }

section
variable {s : State} {wid lane : Nat} {v : BitVec 64} {w : Warp} {b : Blocked} {op : AtomOp}

theorem State.atomicBack_one (hw : s.warp? wid = some w) (hb : w.blocked = [b]) (hl : laneIn b.lanes lane = true) (ho : b.what = .ratm op none) :
    s.atomicBack wid lane v = if s.awake w then s.atomDone wid { b with lanes := laneBit lane } op v
      else s.modWarp wid fun w => w.keepsAnswer b lane op v := by
  unfold State.atomicBack
  rw [State.withWarp_of hw, hb, List.find?_cons_of_pos (by rw [hl, ho]; rfl)]
  dsimp only
  rw [ho]
  rfl

theorem State.atomDone_left (hw : s.warp? wid = some w) : WarpLeft wid s (s.atomDone wid b op v) (w.answered b op v) :=
  ((((ReadLeft.refl s).warpLeft hw).modWarp fun w => w.setXn (atomPair op.kind) op.d b.lanes fun _ => v).read (.acquireBy ..)).modWarp
    fun w => w.leaves b

theorem Warp.answered_lane (h : lane < 32) :
    (w.answered { b with lanes := laneBit lane } op v).xn (atomPair op.kind) op.d lane = Machine.held (atomPair op.kind) v ∧
      (w.answered { b with lanes := laneBit lane } op v).pc lane = b.here + BitVec.ofNat 64 b.len := by
  have hin : laneIn (laneBit lane) lane = true := by rw [laneIn_laneBit h h]; exact decide_eq_true rfl
  refine ⟨?_, Warp.pc_leaves _ _ hin⟩
  rw [Warp.answered, (Warp.leaves_regs _ _).xn, Warp.xn_setXn _ _ _ _ _ hin]
  rfl

theorem Warp.answered_others (h : lane < 32) (n : Nat) {l : Nat} (hl : l < 32) (hne : l ≠ lane) :
    (w.answered { b with lanes := laneBit lane } op v).xr n l = w.xr n l ∧ (w.answered { b with lanes := laneBit lane } op v).pc l = w.pc l := by
  have hout : laneIn (laneBit lane) l = false := by rw [laneIn_laneBit h hl]; exact decide_eq_false hne
  refine ⟨?_, ?_⟩
  · rw [Warp.answered, (Warp.leaves_regs _ _).xr, Warp.xr_setXn_ne _ _ _ _ _ _ hl (.inr hout)]
  · rw [Warp.answered, Warp.pc_leaves_eq _ _ hl, hout, if_neg Bool.false_ne_true]
    rw [Warp.pc, Warp.setXn_pcv, Warp.pc]

end

end Sys2Proof.Machine
end


section
/-!
PROOFS. Job intents, failures of links and devices, replays, and the accesses of the companion processor (spec/11 R337, R338; spec/13 R386;
spec/14 R405, R426, R436).
Settles O53 of spec/06_isa_memory.md.
-/

namespace Sys2Proof.Machine

/-! ### Atomics answered by their homes (R163, R444) -/

/-- What an atomic's answer leaves (R163, R444). -/
structure AtomicBack (s t : State) (lane : Nat) (v : BitVec 64) (w w' : Warp) (b : Blocked) (op : AtomOp) : Prop where
  bytes : SameBytes s t
  ap : t.ap = s.ap
  awake : s.awake w = true → w'.xn (atomPair op.kind) op.d lane = Machine.held (atomPair op.kind) v ∧ w'.pc lane = b.here + BitVec.ofNat 64 b.len ∧
    (∀ n, ∀ l < 32, l ≠ lane → w'.xr n l = w.xr n l ∧ w'.pc l = w.pc l)
  asleep : s.awake w = false → w'.x = w.x ∧ (∀ l < 32, w'.pc l = w.pc l) ∧
    ∃ b' ∈ w'.blocked, b'.lanes = laneBit lane ∧ b'.here = b.here ∧ b'.what = .ratm op (some v)

theorem execAtomicResponse_reaches {s : State} {wid lane : Nat} {v : BitVec 64} {w : Warp} {b : Blocked} {op : AtomOp} (hlane : lane < 32)
    (hw : s.warp? wid = some w) (hb : w.blocked = [b]) (hl : laneIn b.lanes lane = true) (ho : b.what = .ratm op none)
    (hd : s.ap! offInjMask = 0) :
    ∃ t w', exec (.atomicResponse wid lane v) s = .next t ∧ t.warp? wid = some w' ∧ AtomicBack s t lane v w w' b op := by
  have hexec : exec (.atomicResponse wid lane v) s = .next (s.atomicBack wid lane v) :=
    congrArg (fun u : State => Host.Outcome.next (u.atomicBack wid lane v)) (State.inject_disarmed hd ..)
  rw [hexec, State.atomicBack_one hw hb hl ho]
  cases ha : s.awake w with
  | true =>
    have hdone := State.atomDone_left (v := v) (b := { b with lanes := laneBit lane }) (op := op) hw
    obtain ⟨hxn, hpc⟩ := Warp.answered_lane (w := w) (v := v) (b := b) (op := op) hlane
    exact ⟨_, _, rfl, hdone.warp, hdone.bytes, hdone.ap, fun _ => ⟨hxn, hpc, fun n l => Warp.answered_others hlane n⟩, fun h => by rw [ha] at h; nomatch h⟩
  | false =>
    have hkeeps := ((ReadLeft.refl s).warpLeft hw).modWarp fun w => w.keepsAnswer b lane op v
    exact ⟨_, _, rfl, hkeeps.warp, hkeeps.bytes, hkeeps.ap, (fun h => by rw [ha] at h; nomatch h),
      fun _ => ⟨rfl, fun _ _ => rfl, b.answeredLane lane op v, List.mem_append_right _ (List.mem_singleton_self _), rfl, rfl, rfl⟩⟩

/-! ### Job intents (R386) and failure notices (R426) -/

theorem State.adopt_job {s : State} {dev : Nat} (rate due : Nat) (hjob : s.apBits offGovJob 63 63 = 1) (hlo : s.apBits offGovJob 61 52 ≤ dev)
    (hhi : dev < s.apBits offGovJob 61 52 + s.apBits offGovJob 41 32) (hnone : s.holdsJob = false) :
    s.adopt dev rate due = { s with dev := { s.dev with jobIntent := some { rate := rate, due := s.dev.micros + due, job := true } } } := by
  unfold State.adopt
  simp only [hjob, hnone, decide_eq_true hlo, decide_eq_true hhi]
  rfl

theorem foldl_unchanged {α β : Type} {f : β → α → β} {b : β} {l : List α} (h : ∀ a ∈ l, f b a = b) : l.foldl f b = b := by
  induction l with
  | nil => rfl
  | cons a r ih => rw [List.foldl_cons, h a List.mem_cons_self, ih fun x hx => h x (List.mem_cons_of_mem _ hx)]

/-- With no collective under way, a failed device ends none. -/
theorem State.deviceFailed_idle {s : State} (h : ∀ d < 4, (s.die d).roots = [] ∧ (s.die d).opens = [] ∧ (s.die d).insts = []) (dev : Nat) :
    s.deviceFailed dev = s := by
  have hsum : s.sumFailed dev = s := foldl_unchanged fun d hd => by
    obtain ⟨hroots, hopens, -⟩ := h d (List.mem_range.1 hd)
    rw [hroots]
    dsimp only [List.filter_nil, List.foldl_nil]
    rw [hopens]
    dsimp only [List.filter_nil, List.foldl_nil]
    rw [hopens]
    rfl
  have hmesh : s.meshFailed dev = s := foldl_unchanged fun d hd => by
    obtain ⟨-, -, hinsts⟩ := h d (List.mem_range.1 hd)
    rw [hinsts]
    rfl
  rw [State.deviceFailed, hsum, hmesh]

/-! ### Ports that fail (R337, R436) -/

/-- What a port's status register, and the host, take of its failure. -/
def State.portFails (s : State) (o : Nat) : State := ((s.apField o 30 30 0).apField o 27 24 15).irq 0xF4

section
variable (s : State) (o : Nat)

theorem State.irq_ap! (v off : Nat) : (s.irq v).ap! off = s.ap! off := rfl
theorem State.irq_apBits (v off hi lo : Nat) : (s.irq v).apBits off hi lo = s.apBits off hi lo := rfl

theorem State.portFails_ap {off : Nat} (h : off ≠ o) : (s.portFails o).ap! off = s.ap! off := by
  rw [State.portFails, State.irq_ap!, State.ap!_apField _ _ _ _ (by decide) (by decide), if_neg h,
    State.ap!_apField _ _ _ _ (by decide) (by decide), if_neg h]

theorem State.portFails_state : (s.portFails o).apBits o 27 24 = 15 := by
  rw [State.portFails, State.irq_apBits, State.apBits_apField_same _ _ _ (by decide) (by decide)]
  rfl

theorem State.portFails_link : (s.portFails o).apBits o 30 30 = 0 := by
  rw [State.portFails, State.irq_apBits, State.apBits_apField_apart _ _ _ (by decide) (by decide) (by decide),
    State.apBits_apField_same _ _ _ (by decide) (by decide)]
  rfl

theorem State.portFails_report : ReportLeft s (s.portFails o) := ((ReportLeft.apField ..).trans (.apField ..)).trans (.irq ..)

theorem State.apField_own (o hi lo x : Nat) : (s.apField o hi lo x).own = s.own ∧ (s.apField o hi lo x).agenda = s.agenda := ⟨rfl, rfl⟩
theorem State.irq_own (v : Nat) : (s.irq v).own.msgs = s.own.msgs ++ [.irq v] ∧ (s.irq v).agenda = s.agenda := ⟨rfl, rfl⟩

theorem State.portFails_own : (s.portFails o).own.msgs = s.own.msgs ++ [.irq 0xF4] ∧ (s.portFails o).agenda = s.agenda := by
  rw [State.portFails, (State.irq_own ..).1, (State.irq_own ..).2, (State.apField_own ..).1, (State.apField_own ..).1, (State.apField_own ..).2,
    (State.apField_own ..).2]
  exact ⟨rfl, rfl⟩

end

/-- The device at the other end of a port. -/
def State.peerOf (s : State) (port : Nat) : Nat := s.apBits (offPort true port + 0x10) 9 0

theorem State.portDown_eq (s : State) (port : Nat) :
    s.portDown true port
      = if (List.range 36).any (fun q => (s.portFails (offPort true port + 8)).portState true q = 5 &&
            (s.portFails (offPort true port + 8)).peerOf q = s.peerOf port) then s.portFails (offPort true port + 8)
        else ((s.portFails (offPort true port + 8)).deviceLost (s.peerOf port)).soon [.lost (s.peerOf port)] := by
  unfold State.portDown State.portFails State.peerOf
  dsimp only
  simp only [if_true, Bool.not_true, Bool.false_and, Bool.false_eq_true, if_false, Bool.true_and]
  generalize (List.range 36).any _ = up
  cases up <;> rfl

/-- What a port's failure leaves of its registers, the host and memory (R337, R405). -/
structure PortFailed (s t : State) (port : Nat) : Prop where
  state : t.portState true port = 15
  link : t.apBits (offPort true port + 8) 30 30 = 0
  msgs : t.own.msgs = s.own.msgs ++ [.irq 0xF4]
  bytes : SameBytes s t
  others : ∀ off, off ≠ offPort true port + 8 → t.ap! off = s.ap! off

/-- No other port that is up reaches the port's peer (R436). -/
def State.cutsOff (s : State) (port : Nat) : Prop := ∀ q < 36, q ≠ port → s.portState true q = 5 → s.peerOf q ≠ s.peerOf port

theorem State.portFails_failed (s : State) (port : Nat) : PortFailed s (s.portFails (offPort true port + 8)) port :=
  ⟨State.portFails_state .., State.portFails_link .., (State.portFails_own ..).1, fun _ => by rw [(State.portFails_report ..).mem],
    fun _ => State.portFails_ap s _⟩

theorem PortFailed.lost {s D : State} {port : Nat} (h : PortFailed s D port) (dev : Nat) (ps : List Pending) :
    PortFailed s ((D.deviceLost dev).soon ps) port := ⟨h.state, h.link, h.msgs, h.bytes, h.others⟩

theorem State.tryWaiters_none {s : State} (h : NoneWaits s) (p : Wait → Bool) (test : State → Nat → Blocked → State) :
    s.tryWaiters s.warps p test = s := by
  have hnone : (s.warps.flatMap fun e => if !s.awake e.2 then [] else (e.2.blocked.filter fun b => p b.what).map fun b => (e.1, b)) = [] := by
    rw [List.flatMap_eq_nil_iff]
    intro e he
    rw [h e he]
    exact ite_self _
  rw [State.tryWaiters, hnone]
  rfl

/-- Where no warp waits, no answer lets one go on, and no device is lost with the port itself (R221, R337). -/
theorem State.answered_none {s : State} (h : NoneWaits s) :
    ((if !true && !s.hostUp then [] ++ [640] else []).foldl State.lose s).tryWaiters
      ((if !true && !s.hostUp then [] ++ [640] else []).foldl State.lose s).warps isAnswered State.tryRinv = s := by
  have hnone : (if (!true && !s.hostUp) = true then [] ++ [640] else []) = ([] : List Nat) := if_neg (by simp)
  rw [hnone]
  exact State.tryWaiters_none h ..

theorem NoneWaits.deviceLost {s : State} (h : NoneWaits s) (dev : Nat) : NoneWaits (s.deviceLost dev) := by
  intro e he
  obtain ⟨x, hx, rfl⟩ := List.mem_map.1 he
  dsimp only
  rw [h x hx]
  rfl

theorem State.lost_agenda (s : State) (dev : Nat) (p : Pending) : ((s.deviceLost dev).soon [p]).agenda = p :: s.agenda := rfl

theorem offPort_apart {p q : Nat} (h : q ≠ p) : offPort true q + 8 ≠ offPort true p + 8 := by
  unfold offPort
  omega

theorem offPort_peer (p q : Nat) : offPort true q + 0x10 ≠ offPort true p + 8 := by
  unfold offPort
  omega

/-- With its last port to a peer, a device loses it. -/
theorem State.portDown_fails {s : State} (port : Nat) (hn : NoneWaits s) :
    PortFailed s (s.portDown true port) port ∧ NoneWaits (s.portDown true port) ∧
      (s.cutsOff port → (s.portDown true port).agenda = .lost (s.peerOf port) :: s.agenda) := by
  have hpeer : ∀ q, (s.portFails (offPort true port + 8)).peerOf q = s.peerOf q := fun q =>
    congrArg (bitsOf · 9 0) (State.portFails_ap s _ (offPort_peer port q))
  have hstate : ∀ q, q ≠ port → (s.portFails (offPort true port + 8)).portState true q = s.portState true q := fun q hq =>
    congrArg (bitsOf · 27 24) (State.portFails_ap s _ (offPort_apart hq))
  have hfailed := State.portFails_failed s port
  have hagenda := (State.portFails_own s (offPort true port + 8)).2
  have hwaits : NoneWaits (s.portFails (offPort true port + 8)) := by rw [NoneWaits, (State.portFails_report ..).warps]; exact hn
  rw [State.portDown_eq]
  generalize s.portFails (offPort true port + 8) = D at hpeer hstate hfailed hagenda hwaits
  split
  · next hother =>
    refine ⟨hfailed, hwaits, fun hcuts => ?_⟩
    obtain ⟨q, hq, hsame⟩ := List.any_eq_true.1 hother
    simp only [Bool.and_eq_true, decide_eq_true_eq] at hsame
    have hne : q ≠ port := by rintro rfl; rw [hfailed.state] at hsame; exact absurd hsame.1 (by decide)
    exact absurd ((hpeer q).symm.trans hsame.2) (hcuts q (List.mem_range.1 hq) hne ((hstate q hne).symm.trans hsame.1))
  · refine ⟨hfailed.lost .., hwaits.deviceLost _, fun _ => ?_⟩
    rw [State.lost_agenda, hagenda]

theorem State.linkFailed_fails {s : State} {port : Nat} (hup : s.portState true port = 5) (hn : NoneWaits s) :
    PortFailed s (s.linkFailed true port []) port ∧ (s.cutsOff port → (s.linkFailed true port []).agenda = .lost (s.peerOf port) :: s.agenda) := by
  obtain ⟨hfailed, hwaits, hlost⟩ := State.portDown_fails port hn
  have heq : s.linkFailed true port [] = s.portDown true port := by
    unfold State.linkFailed
    rw [if_neg (by rw [hup]; decide)]
    exact State.answered_none hwaits
  rw [heq]
  exact ⟨hfailed, hlost⟩

/-! ### Replays (R405; log entry 128) -/

section
variable {s : State} {fab port : Nat}

/-- What a replay counts: the flit of the last replay again, or another one. -/
def State.replays (s : State) (fab port : Nat) : Nat :=
  if (Config.freeWord s.own.freeCount 0x405).toNat % 2 = 0 then 1 else Tab.get s.dev.replayed 0 (64 * fab + port) + 1

theorem State.replays_or (s : State) (fab port : Nat) :
    s.replays fab port = 1 ∨ s.replays fab port = Tab.get s.dev.replayed 0 (64 * fab + port) + 1 := by
  unfold State.replays
  split
  · exact .inl rfl
  · exact .inr rfl

theorem execLinkLevelReplay_mesh (hd : s.ap! offInjMask = 0) (h : 2 ≤ fab) : exec (.linkLevelReplay fab port) s = .next s := by
  have hexec : exec (.linkLevelReplay fab port) s = .next (s.replayed fab port) := rfl
  rw [hexec, State.replayed, State.inject_disarmed hd]
  exact congrArg _ (if_pos h)

theorem execLinkLevelReplay_port (hd : s.ap! offInjMask = 0) (h : fab < 2) :
    exec (.linkLevelReplay fab port) s = .next (if s.replays fab port < 32
      then s.modDev fun v => { v with replayed := Tab.upd v.replayed (64 * fab + port) (s.replays fab port) }
      else (s.modDev fun v => { v with replayed := Tab.del v.replayed (64 * fab + port) }).linkFailed (fab = 1) port []) := by
  have hexec : exec (.linkLevelReplay fab port) s = .next (s.replayed fab port) := rfl
  rw [hexec, State.replayed, State.inject_disarmed hd]
  exact congrArg _ (if_neg (Nat.not_le.2 h))

theorem execLinkLevelReplay_last (hd : s.ap! offInjMask = 0) (hup : s.portState true port = 5) (hn : NoneWaits s)
    (h : Tab.get s.dev.replayed 0 (64 + port) = 31) :
    ∃ t, exec (.linkLevelReplay 1 port) s = .next t ∧ (t.portState true port = 15 ∧ t.own.msgs = s.own.msgs ++ [.irq 0xF4] ∨
      t.portState true port = 5 ∧ Tab.get t.dev.replayed 0 (64 + port) = 1 ∧ t.own.msgs = s.own.msgs) := by
  refine ⟨_, execLinkLevelReplay_port hd (by decide), ?_⟩
  rcases s.replays_or 1 port with hr | hr
  · rw [hr, if_pos (by decide)]
    exact .inr ⟨hup, Tab.get_upd_self .., rfl⟩
  · have hlast : s.replays 1 port = 32 := by rw [hr, Nat.mul_one, h]
    obtain ⟨hfailed, -⟩ := State.linkFailed_fails (s := s.modDev fun v => { v with replayed := Tab.del v.replayed (64 * 1 + port) }) hup hn
    rw [hlast, if_neg (by decide)]
    exact .inl ⟨hfailed.state, hfailed.msgs⟩

end

/-! ### The companion processor (R277, R338) -/

/-- Bytes at consecutive addresses. -/
def hostCells (a : Nat) (bs : List Byte) : List (Nat × Byte) := ((List.range bs.length).zip bs).map fun x => (a + x.1, x.2)

section
variable {a : Nat} {bs : List Byte}

theorem hostCells_keys : (hostCells a bs).map (·.1) = (List.range bs.length).map (a + ·) := by
  have hfst : ((List.range bs.length).zip bs).map Prod.fst = List.range bs.length := List.map_fst_zip (by simp)
  conv_rhs => rw [← hfst]
  rw [hostCells, List.map_map, List.map_map]
  rfl

theorem nodup_hostCells : ((hostCells a bs).map (·.1)).Nodup := by
  rw [hostCells_keys]
  exact List.nodup_range.map fun _ _ h => Nat.add_left_cancel h

theorem key_of_hostCells {b : Nat × Byte} (h : b ∈ hostCells a bs) : ∃ i < bs.length, b.1 = a + i := by
  have hkey : b.1 ∈ (hostCells a bs).map (·.1) := List.mem_map_of_mem h
  rw [hostCells_keys] at hkey
  obtain ⟨i, hi, he⟩ := List.mem_map.1 hkey
  exact ⟨i, List.mem_range.1 hi, he.symm⟩

theorem mem_hostCells {i : Nat} (h : i < bs.length) : (a + i, bs.getD i 0) ∈ hostCells a bs := by
  refine List.mem_map.2 ⟨(i, bs.getD i 0), ?_, rfl⟩
  rw [List.mem_iff_getElem]
  refine ⟨i, by simpa using h, ?_⟩
  rw [List.getElem_zip, List.getElem_range, List.getD_eq_getElem _ _ h]

end

/-- What a write of the companion processor leaves (R338). -/
structure HostWritten (s t : State) (a : Nat) (bs : List Byte) : Prop where
  here : ∀ i < bs.length, t.mem.byte (a + i) = bs.getD i 0
  others : ∀ k, k < a ∨ a + bs.length ≤ k → t.mem.byte k = s.mem.byte k
  warps : t.warps = s.warps
  blocks : t.blocks = s.blocks

theorem HostWritten.untouched {s t u : State} {a : Nat} {bs : List Byte} (h : HostWritten s t a bs) (g : Untouched t u) : HostWritten s u a bs :=
  have hbyte := Mem.byte_of_bytes g.bytes
  ⟨fun i hi => (hbyte _).trans (h.here i hi), fun k hk => (hbyte k).trans (h.others k hk), g.warps.trans h.warps, g.blocks.trans h.blocks⟩

theorem State.writeHome_hostCells (s : State) (a : Nat) (bs : List Byte) : HostWritten s (s.writeHome none none (hostCells a bs)) a bs := by
  obtain ⟨hwarps, hblocks⟩ := State.writeHome_warps s none none (hostCells a bs)
  refine ⟨fun i hi => ?_, fun k hk => ?_, hwarps, hblocks⟩
  · exact State.byte_writeHome_at nodup_hostCells (mem_hostCells hi)
  · refine State.byte_writeHome _ _ _ _ _ fun b hb he => ?_
    obtain ⟨i, hi, hkey⟩ := key_of_hostCells hb
    omega

section
variable {s : State} {a n : Nat} {bs : List Byte}

theorem State.hostWrite_writes (h : ∀ i < bs.length, s.mem.poisoned (lineOf (a + i)) = false) : HostWritten s (s.hostWrite a bs) a bs := by
  have hcells : (((List.range bs.length).zip bs).filterMap fun x => if s.mem.poisoned (lineOf (a + x.1)) then none else some (a + x.1, x.2))
      = hostCells a bs := by
    rw [hostCells, ← List.filterMap_eq_map]
    refine List.filterMap_congr fun x hx => ?_
    rw [h x.1 (List.mem_range.1 (List.of_mem_zip hx).1)]
    rfl
  have hsteps : ∀ (ls : List Nat) (t : State), HostWritten s t a bs → HostWritten s (ls.foldl (fun s l => (s.touch l).sliceStep l 20) t) a bs :=
    fun ls t ht => State.foldl_keeps (P := fun t => HostWritten s t a bs) (fun s l => (s.touch l).sliceStep l 20)
      (fun t l ht => ht.untouched ((Untouched.homeLine t (48 * dieOfLpa (l * 128)) l).trans (ReadLeft.sliceStep ..).untouched)) ls ht
  unfold State.hostWrite
  rw [hcells]
  exact hsteps _ _ (State.writeHome_hostCells s a bs)

theorem mem_insertNat_of_mem {l k : Nat} : ∀ {xs : List Nat}, l ∈ xs → l ∈ insertNat xs k
  | x :: r, h => by
    rw [insertNat]
    split
    · exact List.mem_cons_of_mem _ h
    · split
      · exact h
      · rcases List.mem_cons.1 h with rfl | hr
        · exact List.mem_cons_self
        · exact List.mem_cons_of_mem _ (mem_insertNat_of_mem hr)

theorem mem_foldl_insertNat {l : Nat} {ls xs : List Nat} (h : l ∈ ls ∨ l ∈ xs) : l ∈ ls.foldl insertNat xs := by
  induction ls generalizing xs with
  | nil => exact h.resolve_left List.not_mem_nil
  | cons k r ih =>
    refine ih ?_
    rcases h with hk | hxs
    · rcases List.mem_cons.1 hk with rfl | hr
      · exact .inr (List.contains_iff_mem.1 (contains_insertNat xs l))
      · exact .inl hr
    · exact .inr (mem_insertNat_of_mem hxs)

/-- What a read of the companion processor leaves (R338). -/
structure HostRead (s t : State) (a len : Nat) : Prop where
  msgs : t.own.msgs = s.own.msgs ++ [.hostData (s.mem.list a len)]
  bytes : SameBytes s t
  held : ∀ i < len, lineOf (a + i) ∈ t.mem.hostHeld
  warps : t.warps = s.warps

theorem State.hostRead_reads (hs : Sound s) (h : ∀ i < n, s.mem.poisoned (lineOf (a + i)) = false) : HostRead s (s.hostRead a n) a n := by
  have hin : ∀ {l}, l ∈ distinct ((List.range n).map fun i => lineOf (a + i)) ↔ ∃ i < n, lineOf (a + i) = l := by
    intro l
    rw [mem_distinct, List.mem_map]
    simp only [List.mem_range]
  have hmet : ∀ ls, s.metLines ls = s := fun ls => if_pos (by rw [hs.noError]; rfl)
  unfold State.hostRead
  dsimp only
  rw [hmet]
  generalize distinct ((List.range n).map fun i => lineOf (a + i)) = lines at hin
  have htouch : LineLeft s (lines.foldl (fun s l => s.touch l) s) :=
    State.foldl_keeps (P := LineLeft s) _ (fun t l ht => ht.trans (.touch (ht.sound hs) l)) lines (.refl s)
  generalize lines.foldl (fun s l => s.touch l) s = T at htouch
  have hclean : lines.find? (fun l => T.mem.poisoned l || (T.mem.upsetAt (128 * l) 128).isSome) = none := by
    rw [List.find?_eq_none]
    intro l hl
    obtain ⟨i, hi, rfl⟩ := hin.1 hl
    have hpoison : T.mem.poisoned (lineOf (a + i)) = false := by rw [Mem.poisoned, htouch.poison, ← Mem.poisoned, h i hi]
    rw [hpoison, Mem.upsetAt_none (htouch.sound hs).noError]
    decide
  have hnone : lines.find? (fun l => (T.modMem fun m => { m with hostHeld := lines.foldl insertNat m.hostHeld }).mem.poisoned l ||
      ((T.modMem fun m => { m with hostHeld := lines.foldl insertNat m.hostHeld }).mem.upsetAt (128 * l) 128).isSome) = none := hclean
  rw [hnone]
  have hlist : T.mem.list a n = s.mem.list a n := by simp only [Mem.list, Mem.byte, htouch.bytes]
  refine ⟨?_, Mem.byte_of_bytes htouch.bytes, fun i hi => mem_foldl_insertNat (.inl (hin.2 ⟨i, hi, rfl⟩)), htouch.warps⟩
  rw [← hlist, ← htouch.own]
  rfl

theorem State.find_leasedOut (h : ∀ i < n, s.leasedOut (lineOf (a + i)) = false) :
    (distinct ((List.range n).map fun i => lineOf (a + i))).find? s.leasedOut = none := by
  rw [List.find?_eq_none]
  intro l hl
  obtain ⟨i, hi, rfl⟩ := List.mem_map.1 (mem_distinct.1 hl)
  rw [h i (List.mem_range.1 hi)]
  exact Bool.false_ne_true

theorem all_populated (h : ∀ i < n, populated (a + i) = true) : (List.range n).all (fun i => populated (a + i)) = true :=
  List.all_eq_true.2 fun i hi => h i (List.mem_range.1 hi)

theorem not_all_populated {i : Nat} (h : populated (a + i) = false) (hi : i < n) : (List.range n).all (fun i => populated (a + i)) = false :=
  List.all_eq_false.2 ⟨i, List.mem_range.2 hi, by rw [h]; exact Bool.false_ne_true⟩

theorem execHostMemoryAccess_writes (h : ∀ i < bs.length, populated (a + i) = true ∧ s.leasedOut (lineOf (a + i)) = false ∧
    s.mem.poisoned (lineOf (a + i)) = false) : ∃ t, exec (.hostMemoryAccess (.dram a) (some bs) n) s = .next t ∧ HostWritten s t a bs := by
  have hexec : exec (.hostMemoryAccess (.dram a) (some bs) n) s = .next ((s.arrived 640 (lineOf a)).hostWrite a bs) := by
    have hrun : exec (.hostMemoryAccess (.dram a) (some bs) n) s = execHostMemoryAccess (.dram a) (some bs) n s := rfl
    rw [hrun]
    unfold execHostMemoryAccess
    dsimp only
    rw [all_populated fun i hi => (h i hi).1, State.find_leasedOut fun i hi => (h i hi).2.1]
    rfl
  have hreport : ReportLeft s (s.arrived 640 (lineOf a)) := .inject ..
  refine ⟨_, hexec, ?_⟩
  generalize s.arrived 640 (lineOf a) = u at hreport
  have hwritten := State.hostWrite_writes (s := u) (a := a) (bs := bs) fun i hi => by rw [hreport.mem]; exact (h i hi).2.2
  exact ⟨hwritten.here, fun k hk => by rw [← hreport.mem]; exact hwritten.others k hk, hwritten.warps.trans hreport.warps,
    hwritten.blocks.trans hreport.blocks⟩

theorem execHostMemoryAccess_reads (hs : Sound s) (h : ∀ i < n, populated (a + i) = true ∧ s.leasedOut (lineOf (a + i)) = false ∧
    s.mem.poisoned (lineOf (a + i)) = false) : ∃ t, exec (.hostMemoryAccess (.dram a) none n) s = .next t ∧ HostRead s t a n := by
  have hexec : exec (.hostMemoryAccess (.dram a) none n) s = .next (s.hostRead a n) := by
    have hrun : exec (.hostMemoryAccess (.dram a) none n) s = execHostMemoryAccess (.dram a) none n s := rfl
    rw [hrun]
    unfold execHostMemoryAccess
    dsimp only
    rw [all_populated fun i hi => (h i hi).1, State.find_leasedOut fun i hi => (h i hi).2.1, State.arrived, State.inject_disarmed hs.disarmed]
    rfl
  exact ⟨_, hexec, State.hostRead_reads hs fun i hi => (h i hi).2.2⟩

/-- An access that names an address with no memory is refused (R277). -/
theorem execHostMemoryAccess_unpopulated {i : Nat} (h : populated (a + i) = false) :
    (i < n → exec (.hostMemoryAccess (.dram a) none n) s = .fault .noMemory) ∧
      (i < bs.length → exec (.hostMemoryAccess (.dram a) (some bs) n) s = .fault .noMemory) :=
  ⟨fun hi => if_pos (by rw [not_all_populated h hi]; rfl), fun hi => if_pos (by rw [not_all_populated h hi]; rfl)⟩

end

/-- Settles O53: what comes back from other devices reaches its line or lane, a port fails once, and the companion's accesses are those of its
bytes. -/
theorem fabricRowsComplete : Obligations.FabricRowsComplete := by
  unfold Obligations.FabricRowsComplete
  refine ⟨?_, ?_, ?_, ?_, ?_, ?_, ?_, ?_, ?_, ?_, ?_⟩
  · intro s line core data ver hr hn hd hu hf
    obtain ⟨t, ht, h⟩ := execLineReadResponse_fills (core := core) (data := data) (ver := ver) hr hn ⟨hd, hu⟩ hf
    exact ⟨t, ht, h.here, h.others, h.version, h.warps, h.ap, h.l2⟩
  · intro s wid lane v w b op hlane hw hb hl ho hd
    obtain ⟨t, w', ht, hw', h⟩ := execAtomicResponse_reaches (v := v) hlane hw hb hl ho hd
    exact ⟨t, w', ht, hw', h.bytes, h.ap, h.awake, h.asleep⟩
  · intro s dev rate due hjob hlo hhi hnone
    exact ⟨_, rfl, State.adopt_job rate due hjob hlo hhi hnone⟩
  · intro s dev hidle
    refine ⟨_, rfl, ?_⟩
    rw [State.deviceFailed_idle hidle]
    rfl
  · intro s port _ hup _ hn
    obtain ⟨h, hlost⟩ := State.linkFailed_fails hup hn
    exact ⟨_, rfl, h.state, h.link, h.msgs, h.bytes, h.others, hlost⟩
  · intro s fab port hd hfab
    exact execLinkLevelReplay_mesh hd hfab
  · intro s fab port hd hfab hcount
    have hor := s.replays_or fab port
    have hlt : s.replays fab port < 32 := by omega
    exact ⟨_, s.replays fab port, execLinkLevelReplay_port hd hfab, if_pos hlt, hor⟩
  · intro s port _ hd hup hcount hn
    exact execLinkLevelReplay_last hd hup hn hcount
  · intro s a bs n h
    obtain ⟨t, ht, hw⟩ := execHostMemoryAccess_writes (n := n) h
    exact ⟨t, ht, hw.here, hw.others, hw.warps, hw.blocks⟩
  · intro s a len hd hu h
    obtain ⟨t, ht, hr⟩ := execHostMemoryAccess_reads ⟨hd, hu⟩ h
    exact ⟨t, ht, hr.msgs, hr.bytes, hr.held, hr.warps⟩
  · intro s a i n bs h
    exact execHostMemoryAccess_unpopulated h

end Sys2Proof.Machine
end
